-- ==== Sys2Proof/Word.lean ====
section
/-! DEFINITION. The word types of the block: bytes and the fixed widths of registers, records and fields (00 R5). -/

namespace Sys2Proof

/-- A byte. -/
abbrev Byte := BitVec 8
/-- A 16-bit field. -/
abbrev W16 := BitVec 16
/-- A 32-bit field; the pattern of an FP32 value. -/
abbrev W32 := BitVec 32
/-- A 64-bit field; a module address or a step number. -/
abbrev W64 := BitVec 64

end Sys2Proof
end

