-- ==== Sys2Proof/Syntax.lean ====
section
/-! DEFINITION. The commands the block takes: one constructor of `Instr` per row of spec/opcode_table.json, with the row's
operands. A record the spec lays out bit by bit (a notice, a request entry, an EPT entry, ...) is an operand of that
width, bit 0 its least significant bit (00 R5); a thing the spec does not lay out (the plan image, sensor samples) is a
structure. -/

namespace Sys2Proof

/-- A PCIe function of the module (12 R320, R335). -/
inductive PortFn where
  | host | stor
  deriving DecidableEq, Repr

/-- A crossing between two timing domains: receiver, sender and the row of Table 2-5 (02 R31, 16 R507). -/
structure Xing where
  recv : Fin 64
  send : Fin 64
  kind : Fin 4
  deriving DecidableEq, Repr

/-- The envelope of a mailbox order (13 Table 13-5) beside its opcode and inline argument.
`badField` is the byte offset of the first reserved field of the entry that is not 0, if any. -/
structure Cmd where
  mailbox : Fin 66
  cid : W16
  irq : Bool
  argRoom : W16
  argVersion : W16
  argOffset : W32
  argLen : W32
  crcOk : Bool
  badField : Option Nat
  deriving DecidableEq, Repr

/-- A vector instruction word less its OP (05 Table 5-4). `reserved` is bits [30:16]. -/
structure VWord where
  type : BitVec 2
  d : BitVec 5
  sa : BitVec 5
  sb : BitVec 5
  sc : BitVec 5
  aux : BitVec 3
  ctl : BitVec 16
  deriving DecidableEq, Repr

/-- The queue counters and other beat counts that a completion record carries (04 Table 4-9); timing decides them. -/
structure Counters where
  beats : W64
  q1Full : W32
  q1Empty : W32
  q2Full : W32
  q2Empty : W32
  q3Full : W32
  q3Empty : W32
  wbWait : W32
  maxStall : W32
  bubbles : W32
  /-- corrections beyond those of `singles` and of the errors that stood before, one of each counted by the model -/
  corr : W32
  /-- words that the task's reads found with a single-bit error which did not stand before (07 R189) -/
  singles : List W64
  stallEng : BitVec 2
  deriving DecidableEq, Repr

/-- One task of a plan: the 256-byte descriptor of Table 4-5, the program it names, and what the plan's task graph
and tables say of it (04 R100, R105, 06 R157, 13 R371). -/
structure PlanTask where
  desc : BitVec 2048
  /-- the program header of Table 5-3 -/
  progHead : BitVec 128
  prog : List W64
  /-- auxiliary streams 1 to NAUX - 1 (Table 4-8) -/
  auxRest : List (BitVec 256)
  deps : List W32
  /-- task room -/
  room : W16
  /-- micro-batch slot 0 to 3, 0xFF none -/
  slot : Byte
  /-- true: the task belongs to the step; false: it runs only by TASKS_RUN -/
  inStep : Bool
  /-- true: a backward task -/
  backward : Bool
  /-- scalar slots S0 to S3 of a forerunner task (18 R488) -/
  scalars : List W32
  deriving DecidableEq, Repr

/-- A room the plan image asks for, or takes over when `given` names one (07 R205). -/
structure PlanRoom where
  cls : Nat
  home : Nat
  index : Nat
  slots : Nat
  fallback : Bool
  pages : Nat
  given : Option W16
  deriving DecidableEq, Repr

/-- The plan's binding of an expert to the parameter entries of its tensors (10 R271), with the layer's HID. -/
structure Binding where
  layer : Nat
  expert : Nat
  hid : Nat
  entries : List Nat
  /-- true: this module holds the expert's three parameter tensors -/
  mine : Bool
  deriving DecidableEq, Repr

/-- Where a plan keeps the rows that a dispatch of one layer and micro-batch sends, and where it combines what returns
(10 R276, R277): the rows lie as a bundle carries them, after 64 bytes that open with TSCALE. -/
structure TokenRows where
  layer : Nat
  mb : Nat
  fwdFmt : BitVec 4
  fwdRows : W64
  bwdFmt : BitVec 4
  bwdRows : W64
  residual : W64
  deriving DecidableEq, Repr

/-- The expert product of one round as a plan lays it out (10 R277, R278): the fabric-in room address where the rows are
gathered, the tasks that wait for them, and the address and format of the rows that go back. -/
structure ExpertRound where
  layer : Nat
  mb : Nat
  backward : Bool
  expert : Nat
  rows : W64
  tasks : List W32
  out : W64
  outFmt : BitVec 4
  deriving DecidableEq, Repr

/-- A plan image as the Dekoat toolchain means it; its bytes are not part of the manual (13 R353). Room references of
the tasks are room identifiers, given after the requested rooms are placed: room k of `rooms` is written 0xE000 + k. -/
structure Plan where
  forerunner : Bool
  coreMapCheck : W32
  inFlight : Nat
  microBatches : Nat
  lag : Nat
  checkPeriod : Nat
  seed : W32
  rooms : List PlanRoom
  tasks : List PlanTask
  /-- parameter entries (Table 8-1) -/
  params : List (BitVec 512)
  /-- saved-state entries (Table 6-3) -/
  saved : List (BitVec 256)
  /-- reductions the plan names, each with its first entry and count -/
  reductions : List W32
  /-- local gradient of each trained entry: entry, room, byte offset; FP32 elements in row-major order (06 R161, 09 R249) -/
  localGrads : List (Nat × W16 × Nat)
  /-- capacity table (10 R272) -/
  capacity : List W16
  bindings : List Binding
  topk : Nat
  tokenRows : List TokenRows
  rounds : List ExpertRound
  /-- room of the digest table (08 R230) -/
  digestRoom : W16
  /-- forerunner history records: the room and byte offset of each (18 R489) -/
  histories : List (W16 × Nat)
  deriving DecidableEq, Repr

/-- What every packet of the domain carries: the domain identifier and the epoch in force at its sender, and the sender's
rack index (11 R297, R309). -/
structure PacketTag where
  domain : W16
  epoch : W16
  rack : Fin 128
  deriving DecidableEq, Repr

/-- An exchange packet as it arrives: its tag and its header (10 R277, R283). -/
structure ExchangePacket where
  tag : PacketTag
  head : BitVec 512
  deriving DecidableEq, Repr

/-- The status that an arriving response carries, with its tag (11 R297, R306). -/
structure TaggedStatus where
  tag : PacketTag
  status : Byte
  deriving DecidableEq, Repr

/-- The number that a trained port reports; in a bench it is the peer's rack index (11 R296). -/
structure PortReport where
  bench : Bool
  number : BitVec 7
  deriving DecidableEq, Repr

/-- One of the three copies of a core's command lane, up or down (02 R41, R43; log 118). -/
structure CommandLane where
  up : Bool
  copy : Fin 3
  deriving DecidableEq, Repr

/-- A stack-tier address and the wrong bytes of its block: pseudo-channel and byte (07 R208). -/
structure StackError where
  addr : W64
  wrong : List (Fin 16 × Fin 2)
  deriving DecidableEq, Repr

/-- A Cellar address and how many bytes of its block are wrong (07 R211). -/
structure CellarError where
  addr : W64
  wrong : Nat
  deriving DecidableEq, Repr

/-- A request of another module on the rack shared window, as its packet carries it (11 R297, R302). -/
structure WinReq where
  srcRack : Fin 128
  domain : W16
  epoch : W16
  stream : Nat
  addr : W64
  write : Bool
  /-- the stored line bytes, or empty for a load -/
  data : List Byte
  /-- bit b: byte b of the line is stored -/
  mask : BitVec 128
  lines : Nat
  deriving DecidableEq, Repr

/-- An arriving atomic (11 R309): its tag, operation and operands. -/
structure AtomReq where
  srcRack : Fin 128
  domain : W16
  epoch : W16
  seq : W32
  addr : W64
  aop : BitVec 4
  operand1 : W64
  operand2 : W64
  deriving DecidableEq, Repr

/-- What the sensors hub delivers at a governor sample (15 R403, R416): watts, layer powers in milliwatts, and
temperatures in 1/64 of a degree. -/
structure Sample where
  p : Nat
  pc : Nat
  pm : Nat
  pl : Nat
  /-- layer power in milliwatts, by layer index t x 7 + j -/
  layerMw : List Nat
  /-- diode readings per layer -/
  diodes : List (List Int)
  coldPlate : Int
  deriving DecidableEq, Repr

/-- A (core, group, failing bonds) finding of the power-up bond test (02 R44). -/
structure BondFind where
  core : Fin 384
  group : Fin 64
  bonds : Nat
  deriving DecidableEq, Repr

/-- Parameter state of one tensor fetched from a source (08 R232): the words at each part's home, as bytes. -/
structure Fetched where
  tensor : W32
  step : W64
  source : W16
  /-- digest block, or none for the whole tensor -/
  block : Option Nat
  work : List Byte
  rem : List Byte
  mom1 : List Byte
  mom2 : List Byte
  colf : List Byte
  deriving DecidableEq, Repr

/-- State of one tensor of an expert that a module gains in a swap: the tensor after gradient step `state.step`, the
gradient versions after it, and, from a promoted lodged copy, the module that was lost (10 R288, 16 R443). -/
structure Gained where
  state : Fetched
  grads : List (W64 × List Byte)
  failed : Option W16
  deriving DecidableEq, Repr

/-- One part of a tensor, or an optimiser-set block, that a source other than the image supplies (16 R447): the step that
the source reports; source 0xFFFF where none holds it. -/
structure PartState where
  tensor : W32
  part : Nat
  step : W64
  source : W16
  bytes : List Byte
  deriving DecidableEq, Repr

/-- A manifest tensor entry (Table 12-9) and the chunks of an image it spans are read by RESTORE (16 R446). -/
structure Manifest where
  header : BitVec 512
  entries : List (BitVec 256)
  digests : List (BitVec 512)
  own : BitVec 512
  signature : List Byte
  deriving DecidableEq, Repr

/-- Who waits for a request that a crossing timeout fails: the running task of a core or mover or the one admitted behind
it, the oldest copy of a function's DMA engine, or a unit whose task the spec does not name (02 R36). -/
inductive Waiter where
  | task (core : Fin 393) (ahead : Bool)
  | dma (fn : PortFn)
  | other
  deriving DecidableEq, Repr

/-- A command of the block: one constructor per row of the table. -/
inductive Instr where
  -- pins, power-up and bring-up
  | pwrEnAssert
  | pwrEnDeassert
  | modRstNAssert
  | modRstNDeassert
  | powerDownStageAdvance
  | perstNAssert
  | functionLevelReset (f : PortFn)
  | storHotReset
  | inputUndervoltage (mv : W16)
  | inputUndervoltageClear
  | inputOvervoltage (mv : W16)
  | inputSupplyCollapse
  | converterFail (n : Fin 4)
  | domainInRegulation (d : Fin 28)
  | domainRegulationTimeout (d : Fin 28)
  | bootRomStart
  | fetchDataReceive (data : List Byte)
  | fetchRequestTimeout
  | keeperStart (selfTest : Bool) (certOk : Bool)
  | stackTrainingDone (stack : Fin 16) (passed : Bool)
  | cellarTrainingDone (round : Fin 8) (failed : List (Fin 32))
  | towerBringupTestDone (tower : Fin 8) (rows : List (Fin 384 × Nat)) (bonds : List BondFind)
      (arrays : List (Fin 384)) (needs : List (List Nat))
  | readySet (drives : List (Fin 16 × Nat))
  -- pacing and crossings
  | lowSupplyHalt (d : Fin 64)
  | pacerRestart (d : Fin 64)
  | aliveTick (d : Fin 64)
  | crossingTimeout (x : Xing) (waiting : List (BitVec 6 × Waiter))
  | crossingRearm (x : Xing)
  | rearmEventTimer (x : Xing)
  | lateResponseDiscard (x : Xing) (tag : BitVec 6)
  | domainDrainEnd (d : Fin 64)
  -- vertical channels
  | channelParityError (core : Fin 384) (group : Fin 64) (again : Bool)
  | bondTestDone (core : Fin 384) (groups : List (Fin 64)) (also : List (Fin 64))
  | commandLaneBondFail (core : Fin 384) (lane : CommandLane) (bit : Nat)
  -- Porter and tasks
  | taskRoomForeignWrite (room : W16) (writer : W16)
  | porterHeartbeat
  | porterHeartbeatTimeout
  | dispatchPass
  | descriptorFetch (core : Fin 393)
  | stallBudgetExpiry (core : Fin 384) (eng : BitVec 2)
  | accumulatorParityError (core : Fin 384) (bank : Fin 2)
  | taskComplete (core : Fin 393) (ctr : Counters)
  | completionRecordProcessed (room : W16)
  | stepBoundary (lodged : Option (List (Nat × W64)))
  -- vector instructions
  | vecNop (core : Fin 384) (w : VWord)
  | vecAdd (core : Fin 384) (w : VWord)
  | vecSub (core : Fin 384) (w : VWord)
  | vecMul (core : Fin 384) (w : VWord)
  | vecFma (core : Fin 384) (w : VWord)
  | vecMax (core : Fin 384) (w : VWord)
  | vecMin (core : Fin 384) (w : VWord)
  | vecAbs (core : Fin 384) (w : VWord)
  | vecCmp (core : Fin 384) (w : VWord)
  | vecSel (core : Fin 384) (w : VWord)
  | vecMask (core : Fin 384) (w : VWord)
  | vecPos (core : Fin 384) (w : VWord)
  | vecRcp (core : Fin 384) (w : VWord)
  | vecRsq (core : Fin 384) (w : VWord)
  | vecExp (core : Fin 384) (w : VWord)
  | vecExp2 (core : Fin 384) (w : VWord)
  | vecLog2 (core : Fin 384) (w : VWord)
  | vecTanh (core : Fin 384) (w : VWord)
  | vecSig (core : Fin 384) (w : VWord)
  | vecDiv (core : Fin 384) (w : VWord)
  | vecSqrt (core : Fin 384) (w : VWord)
  | vecIadd (core : Fin 384) (w : VWord)
  | vecImul (core : Fin 384) (w : VWord)
  | vecShift (core : Fin 384) (w : VWord)
  | vecLogic (core : Fin 384) (w : VWord)
  | vecCvt (core : Fin 384) (w : VWord)
  | vecTsc (core : Fin 384) (w : VWord)
  | vecExpb (core : Fin 384) (w : VWord)
  | vecQnt (core : Fin 384) (w : VWord)
  | vecDqnt (core : Fin 384) (w : VWord)
  | vecShuf (core : Fin 384) (w : VWord)
  | vecPerm (core : Fin 384) (w : VWord)
  | vecPack (core : Fin 384) (w : VWord)
  | vecUnpk (core : Fin 384) (w : VWord)
  | vecRsum (core : Fin 384) (w : VWord)
  | vecRmax (core : Fin 384) (w : VWord)
  | vecRssq (core : Fin 384) (w : VWord)
  | vecLdq (core : Fin 384) (w : VWord)
  | vecLdx (core : Fin 384) (w : VWord)
  | vecStq (core : Fin 384) (w : VWord)
  | vecStx (core : Fin 384) (w : VWord)
  | vecNstat (core : Fin 384) (w : VWord)
  | vecNapp (core : Fin 384) (w : VWord)
  | vecSstat (core : Fin 384) (w : VWord)
  | vecSapp (core : Fin 384) (w : VWord)
  -- memory errors and scrub
  | pondUncorrectableRead (core : Fin 384) (addr : W64)
  | mereUncorrectableRead (reader : Fin 393) (addr : W64)
  | pondScrubStep (slice : Fin 384) (corrected : Nat)
  | mereScrubStep (slice : Fin 8) (corrected : Nat)
  | stackPatrolScrub (stack : Fin 16) (only : Option (Fin 4 × Fin 16)) (passEnds : Bool)
  | cellarPatrolScrub (corrected : Bool) (passEnds : Bool)
  -- parameter updates
  | cellarUpdateStart
  | cellarUpdateCommit
  | stateFetchInstall (f : Fetched)
  -- reductions
  | noticeSend (red : W32)
  | noticeReceive (note : BitVec 512)
  | reductionBudgetExpiry (red : W32) (step : W64)
  | closeRecordReceive (head : BitVec 512) (counted : List Bool) (carried : List Bool)
  | shardReceive (step : W64) (red : W32) (idx : W16) (carried : Bool) (shard : Nat) (values : List W32)
  | resultReceive (step : W64) (red : W32) (shard : Nat) (values : List W32) (sglob : W32)
  -- expert exchange
  | routerDispatch (layer : Fin 256) (mb : Byte) (list : W64) (tokens : Nat)
  | markReceive (head : ExchangePacket)
  | bundleReceive (head : ExchangePacket) (tokens : List W32) (rows : List (List Byte))
  | returnBundleReceive (head : ExchangePacket) (tokens : List W32) (rows : List (List Byte))
  | markWaitTimeout (step : W64) (layer : Fin 256) (mb : Byte) (backward : Bool)
  -- fabric lanes and ports
  | laneOutOfService (lane : Fin 144)
  | laneRecalibrationStart (lane : Fin 144)
  | laneRecalibrationEnd (lane : Fin 144) (clean : Bool)
  | linkPortTrained (port : Fin 36) (reported : PortReport) (lanes : BitVec 4)
  | hostLinkTrained (f : PortFn) (rate : BitVec 4) (width : BitVec 4)
  -- fabric requests
  | fabRead (ring : Fin 16) (e : BitVec 512)
  | fabWrite (ring : Fin 16) (e : BitVec 512)
  | fabAtomicAdd (ring : Fin 16) (e : BitVec 512)
  | fabAtomicSwap (ring : Fin 16) (e : BitVec 512)
  | fabAtomicCas (ring : Fin 16) (e : BitVec 512)
  | fabAtomicAnd (ring : Fin 16) (e : BitVec 512)
  | fabAtomicOr (ring : Fin 16) (e : BitVec 512)
  | fabAtomicMax (ring : Fin 16) (e : BitVec 512)
  | fabAtomicResubmit (ring : Fin 16) (e : BitVec 512)
  | fabFence (ring : Fin 16) (e : BitVec 512)
  | fabMsg (ring : Fin 16) (e : BitVec 512)
  | remoteRequestArrival (r : WinReq)
  | atomicArrival (r : AtomReq)
  | coalescerSlot (line : W64)
  | hotLineTimeout (line : W64)
  | requestResponseArrival (ring : Fin 16) (pos : Nat) (status : TaggedStatus) (data : List Byte)
  | atomicReplyTimeout (ring : Fin 16) (pos : Nat)
  | switchPortDownReport (rack : Fin 128)
  | messageArrival (src : W16) (ring : Fin 64) (seq : W32) (payload : List Byte)
  | messageResendTimer (ring : Fin 16) (pos : Nat) (expired : Bool)
  | messageAckTimeout (ring : Fin 16) (pos : Nat)
  -- mailbox mechanics and BARs
  | doorbellSqTailWrite (mb : Fin 64) (v : BitVec 6)
  | doorbellCqHeadWrite (mb : Fin 64) (v : BitVec 6)
  | mbxErrClear (mask : W64)
  | bmcMessageArrival (e : BitVec 1024) (arg : List Byte)
  | fmMessageArrival (e : BitVec 1024) (arg : List Byte)
  | registerWrite (f : PortFn) (off : Nat) (data : List Byte)
  | bar0InvalidAccess (f : PortFn) (isWrite : Bool)
  | bar2Write (f : PortFn) (off : Nat) (data : List Byte) (ep : Bool)
  | bar2Read (f : PortFn) (off : Nat) (len : Nat)
  | dmaTransferDone (f : PortFn) (data : List Byte)
  | driveMemoryRequest (drive : Fin 16) (addr : W64) (len : Nat) (isWrite : Bool) (data : List Byte)
  | driveCommandComplete (drive : Fin 16) (ok : Bool)
  | driveCommandTimeout (drive : Fin 16)
  | snapshotMark
  | snapshotChunkShipped (chunk : Nat) (refused : Bool)
  -- mailbox commands
  | cmdNop (c : Cmd)
  | cmdSessionOpen (c : Cmd) (role : Byte) (join : W16) (frTowers : Byte) (consent : Byte)
  | cmdSessionClose (c : Cmd)
  | cmdSessionConsent (c : Cmd) (consent : Byte)
  | cmdRoomRequest (c : Cmd) (cls home index slots fallback : Byte) (pages : W32)
  | cmdRoomRelease (c : Cmd) (room : W16)
  | cmdRoomCommit (c : Cmd) (room : W16)
  | cmdQuotaSet (c : Cmd) (floors ceils : List W16)
  | cmdRoomQuery (c : Cmd) (room : W16)
  | cmdApertureMap (c : Cmd) (aperture rd wr : Byte) (room : W16) (offset pages : W32)
  | cmdApertureUnmap (c : Cmd) (aperture : Byte)
  | cmdDmaCopy (c : Cmd) (dir : Byte) (room : W16) (offset : W32) (list : W64) (elements : W32) (lens : List (W64 × W64))
  | cmdPlanLoad (c : Cmd) (plan : Plan)
  | cmdPlanUnload (c : Cmd) (handle : W32)
  | cmdTasksRun (c : Cmd) (handle first count : W32)
  | cmdStepRun (c : Cmd) (handle : W32) (step : W64) (sets : List (BitVec 512))
  | cmdStepAbort (c : Cmd) (step : W64)
  | cmdHalt (c : Cmd)
  | cmdResume (c : Cmd)
  | cmdModuleIdSet (c : Cmd) (id : W16)
  | cmdDomainForm (c : Cmd) (domain epoch : W16) (members : List (W16 × BitVec 7 × BitVec 36))
  | cmdDomainTeardown (c : Cmd) (domain : W16)
  | cmdRstWrite (c : Cmd) (first count : W32) (entries : List W64)
  | cmdUnreachableClear (c : Cmd) (id : W16)
  | cmdExportSet (c : Cmd) (segment : W16) (entry : BitVec 128)
  | cmdRingRegister (c : Cmd) (kind index : Byte) (room : W16) (valid : Byte)
  | cmdRedLayout (c : Cmd) (layout : BitVec 512) (members : List W16)
  | cmdEptLoad (c : Cmd) (group : List W16) (entries : List (BitVec 128))
  | cmdEptStage (c : Cmd) (step : W64) (entries : List (W32 × BitVec 128)) (gained : List Gained)
  | cmdEptActivate (c : Cmd) (step : W64)
  | cmdEptRetire (c : Cmd)
  | cmdPowerLimits (c : Cmd) (sustain peak : W16) (window : Byte)
  | cmdCapShare (c : Cmd) (order : Byte) (linkFloor : W16)
  | cmdPaceCeiling (c : Cmd) (tower point : Byte)
  | cmdLastLine (c : Cmd) (mode : Byte)
  | cmdTowerGateLogicOff (c : Cmd) (towers : Byte)
  | cmdTowerGateOn (c : Cmd) (towers : Byte)
  | cmdTowerGateAllOff (c : Cmd) (towers : Byte)
  | cmdTestLaneRecalibration (c : Cmd) (target : W16)
  | cmdTestScrubPass (c : Cmd) (target : W16)
  | cmdTestCoreSelfTest (c : Cmd) (target : W16)
  | cmdTestTowerSelfTest (c : Cmd) (target : W16)
  | cmdTestMarginMeasurement (c : Cmd) (target : W16)
  | cmdTestCancel (c : Cmd) (request : W32)
  | cmdFwStage (c : Cmd) (head : BitVec 128) (bytes : List Byte)
  | cmdFwActivate (c : Cmd)
  | cmdOwnerKey (c : Cmd) (key : List Byte) (sig : List Byte) (sigInForce : Option (List Byte))
  | cmdPolicySet (c : Cmd) (record : BitVec 512) (key : List Byte) (sig : List Byte)
  | cmdZeroise (c : Cmd)
  | cmdCertRead (c : Cmd) (slot : Byte)
  | cmdSnapTake (c : Cmd) (req : BitVec 512)
  | cmdSnapAbort (c : Cmd) (id : W64)
  | cmdStoreForm (c : Cmd) (pairs : List (Nat × Nat))
  | cmdDriveRescan (c : Cmd) (found : List (Fin 16 × Nat))
  | cmdLodgePair (c : Cmd) (partner : W16) (override pfeed : Byte)
  | cmdLodgePromote (c : Cmd) (failed : W16)
  | cmdRestore (c : Cmd) (source : Byte) (id addr : W64) (m : Manifest)
  | cmdLedgerRead (c : Cmd) (first count : W32)
  | cmdEventRead (c : Cmd) (first : W64) (count : W32)
  | cmdRingRead (c : Cmd) (ring : Byte) (first count : W32)
  | cmdTelemetryRead (c : Cmd) (kind : Byte)
  | cmdCapRead (c : Cmd)
  -- lodging and restore
  | lodgingRequestArrival (lodger : W16) (feed : Byte) (override : Bool) (tensors : Nat) (bytes : Nat)
  | lodgingAnswerArrival (status : Byte) (feed : Byte)
  | lodgingAnswerTimeout
  | lodgedTensorReceived (tensor : W32) (step : W64) (bytes : List Byte) (digestOk : Bool) (tail : Option (List Byte))
  | restoreChunkRead (chunk : Nat) (bytes : Option (List Byte)) (parts : List PartState)
  -- in-service tests
  | coreTestRotation
  | coreTestDrainTimeout
  | coreSelfTestDone (passed : Bool)
  | towerSelfTestDone (tower : Fin 8) (failed : List (Fin 384)) (rows : List (Fin 384 × Nat)) (needs : List (List Nat))
  -- governor and last lines
  | governorSample (m : Sample)
  | paceRampEnd (tower : Fin 8)
  | thermTrip (layer : Fin 56) (reading : Int)
  | vralertNAssert
  | vralertNRelease
  | coolFailNAssert
  | coolFailNRelease
  | marginMeasurementPeriod (needs : List (List Nat))
  -- security
  | zeroNAssert (us : Nat)
  | keeperBoundaryAccess (core : Nat) (addr : W64) (isWrite : Bool)
  | conditionalTestFail (test : W16)
  | spdmGetVersion (transport : Fin 2)
  | spdmGetCapabilities (transport : Fin 2)
  | spdmNegotiateAlgorithms (transport : Fin 2) (supported : Bool)
  | spdmGetDigests (transport : Fin 2)
  | spdmGetCertificate (transport : Fin 2) (slot : Byte) (offset len : W16)
  | spdmChallenge (transport : Fin 2) (slot : Byte) (nonce : BitVec 256)
  | spdmGetMeasurements (transport : Fin 2) (index : Byte) (nonce : BitVec 256)
  | spdmKeyExchange (transport : Fin 2) (id : W16) (share : List Byte)
  | spdmFinish (transport : Fin 2) (id : W16) (verify : List Byte)
  | spdmHeartbeat (transport : Fin 2) (id : W16)
  | spdmKeyUpdate (transport : Fin 2) (id : W16) (op : Byte)
  | spdmEndSession (transport : Fin 2) (id : W16)
  | spdmUnsupportedRequest (transport : Fin 2) (code : Byte)
  -- the rest
  | forerunnerExitDone (tower : Fin 8)
  | perstNDeassert
  | doeDiscovery (index : Byte)
  | portAerError (f : PortFn)
  | dynamicAddressAssign (addr : BitVec 7)
  | controllerRoleGrant
  | controllerRoleGrantTimeout
  | windowRequestTimeout (ring : Fin 16) (pos : Nat)
  | stackUncorrectableRead (reader : Fin 393) (block : StackError)
  | cellarUncorrectableRead (reader : Fin 393) (block : CellarError)
  | pseudoChannelInterfaceCheckFail (stack : Fin 16) (group : Fin 4) (pch : Fin 16)
  | stateFetchRequestArrival (src : W16) (tensor : W32) (block : Option Nat) (step : W64)
  deriving DecidableEq, Repr

end Sys2Proof
end

