-- ==== Sys2Proof/Decode.lean ====
section
/-! DEFINITION. The table gives no row any bits (every row's `fields` is empty): a word spells no command. The instruction
word of the vector engine (05 Tables 5-4 and 5-5) is the one encoding of commands that the spec gives. -/

namespace Sys2Proof

/-- No row of spec/opcode_table.json gives bits, so no word spells a command (log 16). -/
def decodeTableWord (_nbits _w : Nat) : Option Instr := none

/-! ### Vector instruction words (05 R139, R140) -/

/-- The core, the OP of Table 5-5 and the other fields of a vector command. -/
def vecParts : Instr → Option (Fin 384 × Byte × VWord)
  | .vecNop c w => some (c, 0x00, w)
  | .vecAdd c w => some (c, 0x01, w)
  | .vecSub c w => some (c, 0x02, w)
  | .vecMul c w => some (c, 0x03, w)
  | .vecFma c w => some (c, 0x04, w)
  | .vecMax c w => some (c, 0x05, w)
  | .vecMin c w => some (c, 0x06, w)
  | .vecAbs c w => some (c, 0x07, w)
  | .vecCmp c w => some (c, 0x08, w)
  | .vecSel c w => some (c, 0x09, w)
  | .vecMask c w => some (c, 0x0A, w)
  | .vecPos c w => some (c, 0x0B, w)
  | .vecRcp c w => some (c, 0x10, w)
  | .vecRsq c w => some (c, 0x11, w)
  | .vecExp c w => some (c, 0x12, w)
  | .vecExp2 c w => some (c, 0x13, w)
  | .vecLog2 c w => some (c, 0x14, w)
  | .vecTanh c w => some (c, 0x15, w)
  | .vecSig c w => some (c, 0x16, w)
  | .vecDiv c w => some (c, 0x17, w)
  | .vecSqrt c w => some (c, 0x18, w)
  | .vecIadd c w => some (c, 0x20, w)
  | .vecImul c w => some (c, 0x21, w)
  | .vecShift c w => some (c, 0x22, w)
  | .vecLogic c w => some (c, 0x23, w)
  | .vecCvt c w => some (c, 0x28, w)
  | .vecTsc c w => some (c, 0x29, w)
  | .vecExpb c w => some (c, 0x2A, w)
  | .vecQnt c w => some (c, 0x2B, w)
  | .vecDqnt c w => some (c, 0x2C, w)
  | .vecShuf c w => some (c, 0x30, w)
  | .vecPerm c w => some (c, 0x31, w)
  | .vecPack c w => some (c, 0x32, w)
  | .vecUnpk c w => some (c, 0x33, w)
  | .vecRsum c w => some (c, 0x38, w)
  | .vecRmax c w => some (c, 0x39, w)
  | .vecRssq c w => some (c, 0x3A, w)
  | .vecLdq c w => some (c, 0x40, w)
  | .vecLdx c w => some (c, 0x41, w)
  | .vecStq c w => some (c, 0x42, w)
  | .vecStx c w => some (c, 0x43, w)
  | .vecNstat c w => some (c, 0x50, w)
  | .vecNapp c w => some (c, 0x51, w)
  | .vecSstat c w => some (c, 0x52, w)
  | .vecSapp c w => some (c, 0x53, w)
  | _ => none

/-- The instruction word of Table 5-4; bits [30:16] are reserved and 0. -/
def vecWordOf (op : Byte) (v : VWord) : W64 :=
  op ++ v.type ++ v.d ++ v.sa ++ v.sb ++ v.sc ++ v.aux ++ (0 : BitVec 15) ++ v.ctl

/-- The word that holds a vector command in an instruction store. -/
def encodeVec (i : Instr) : Option W64 := (vecParts i).map (fun p => vecWordOf p.2.1 p.2.2)

/-- The vector command that a word in core `c`'s instruction store spells: none for a reserved OP, or where a reserved bit
is set. -/
def decodeVec (c : Fin 384) (w : W64) : Option Instr :=
  let v : VWord := {
    type := w.extractLsb' 54 2, d := w.extractLsb' 49 5, sa := w.extractLsb' 44 5, sb := w.extractLsb' 39 5,
    sc := w.extractLsb' 34 5, aux := w.extractLsb' 31 3, ctl := w.extractLsb' 0 16 }
  if w.extractLsb' 16 15 ≠ 0 then none
  else match (w.extractLsb' 56 8).toNat with
    | 0x00 => some (.vecNop c v)
    | 0x01 => some (.vecAdd c v)
    | 0x02 => some (.vecSub c v)
    | 0x03 => some (.vecMul c v)
    | 0x04 => some (.vecFma c v)
    | 0x05 => some (.vecMax c v)
    | 0x06 => some (.vecMin c v)
    | 0x07 => some (.vecAbs c v)
    | 0x08 => some (.vecCmp c v)
    | 0x09 => some (.vecSel c v)
    | 0x0A => some (.vecMask c v)
    | 0x0B => some (.vecPos c v)
    | 0x10 => some (.vecRcp c v)
    | 0x11 => some (.vecRsq c v)
    | 0x12 => some (.vecExp c v)
    | 0x13 => some (.vecExp2 c v)
    | 0x14 => some (.vecLog2 c v)
    | 0x15 => some (.vecTanh c v)
    | 0x16 => some (.vecSig c v)
    | 0x17 => some (.vecDiv c v)
    | 0x18 => some (.vecSqrt c v)
    | 0x20 => some (.vecIadd c v)
    | 0x21 => some (.vecImul c v)
    | 0x22 => some (.vecShift c v)
    | 0x23 => some (.vecLogic c v)
    | 0x28 => some (.vecCvt c v)
    | 0x29 => some (.vecTsc c v)
    | 0x2A => some (.vecExpb c v)
    | 0x2B => some (.vecQnt c v)
    | 0x2C => some (.vecDqnt c v)
    | 0x30 => some (.vecShuf c v)
    | 0x31 => some (.vecPerm c v)
    | 0x32 => some (.vecPack c v)
    | 0x33 => some (.vecUnpk c v)
    | 0x38 => some (.vecRsum c v)
    | 0x39 => some (.vecRmax c v)
    | 0x3A => some (.vecRssq c v)
    | 0x40 => some (.vecLdq c v)
    | 0x41 => some (.vecLdx c v)
    | 0x42 => some (.vecStq c v)
    | 0x43 => some (.vecStx c v)
    | 0x50 => some (.vecNstat c v)
    | 0x51 => some (.vecNapp c v)
    | 0x52 => some (.vecSstat c v)
    | 0x53 => some (.vecSapp c v)
    | _ => none

end Sys2Proof
end

