-- ==== Sys2Proof/Config.lean ====
section
/-! DEFINITION. What one module fixes (fused values, its images, cryptography) and the free values: constants with no body,
so that nothing can be proved of their values. -/

namespace Sys2Proof.Config

/-! ### Free values, drawn with a counter of the state (log 7) -/

/-- A byte of an abandoned version opened in place holds its former value again: draw, then address (07 R203, log 8). -/
opaque keepsFormer : Nat → Nat → Bool

/-- Fields of the room-table entry of an identifier that no room has (07 Table 7-5; log 82). -/
opaque vacantEntry : Nat → BitVec 512

/-- Which of the values within 1 ulp a function gives: operation and operands (05 R126, R141; log 9). -/
opaque ulpPick : Nat → List W32 → Nat

/-- The code by which event 0x8104 names a writer: 0 engines of a core or mover, 1 HOST, 2 STOR, 3 LINK (13 R378; log 132). -/
opaque writerCode : Nat → Nat

/-- A block of a stripe group with two failed pseudo-channels can be spared by both: block, failed mask (07 R209; log 130). -/
opaque pairSpared : Nat → BitVec 16 → Bool

/-- The sign of a group sum that is zero: signs of the products; 03 R73 states none (log 115). -/
opaque zeroGroupNeg : List Bool → Bool

/-- A vector result that the spec does not state for its operands: operation, then CTL and the operands. The same operands
give the same value (05 R126; log 23). -/
opaque vecFree : Nat → List W32 → W32

/-- The scalar slot that a word of a forerunner program names as its source a (0), b (1) or c (2): LH-360 encodings are not
part of the manual (18 R488; log 150). -/
opaque slotSource : W64 → Nat → Option (Fin 4)

/-- The optimiser set that a step command does not carry although an entry names it: step, set number (log 33). -/
opaque missingSet : Nat → Nat → BitVec 512

/-- The cause that event 0x8902 carries where the spec gives no code: 0 a port reset, 1 an abort, 2 a power-down (log 17). -/
opaque snapCause : Nat → Nat

/-- The cause that event 0x8909 carries where the spec gives no code: which check of 16 R446 failed, or 0x100 and the part
for which no source was found (log 46). -/
opaque restoreCause : Nat → Nat

/-- Scale of a moment block that holds a NaN (log 56). -/
opaque nanBlockScale : List W32 → BitVec 16

/-- Byte offset in the plan image of the item that breaks a check: the image's layout is not part of the manual (13 R353;
log 48). -/
opaque planOffset : Plan → Nat

/-- Bytes of the Ledger ring and the close ring by address: where a record lies there is not stated (log 148). -/
opaque ringByte : Nat → Byte

/-! ### Fused at test -/

/-- Remaps fused in a channel group: core, group; at most two are fused (02 R44). -/
opaque fusedRemaps : Nat → Nat → Nat

/-- Subsystem Vendor ID and Subsystem ID, set by the system builder in the FRU EEPROM (12 R321). -/
opaque subsystemVendorId : W16
opaque subsystemId : W16

/-- DEVICE_SERIAL, and whether the certified-mode fuse is blown (17 R480). -/
opaque deviceSerial : W64
opaque certified : Bool

/-- Vendor root hashes and their revocation fuses, by root slot (17 Table 17-2). -/
opaque rootHash : Nat → BitVec 512
opaque rootRevoked : Nat → Bool

/-- Anti-rollback counters as fused at test, by image kind (17 R462). -/
opaque fusedCounter : Nat → Nat

/-- SHA-512 of the boot ROM (17 Table 17-4). -/
opaque romDigest : BitVec 512

/-- Measured need, at bring-up or in service, is an operand; the setpoints fused at test [mV]: layer, point (15 R423). -/
opaque fusedSetpoint : Nat → Nat → Nat

/-- Of the thermal model, by layer index: conductance to the layer below and above [mW per degree], and the weight α in
parts of 2^16 (15 R416). -/
opaque conductanceDown : Nat → Nat
opaque conductanceUp : Nat → Nat
opaque modelWeight : Nat → Nat

/-! ### The governor's arithmetic, where the spec states no result (log 51) -/

/-- Whether an inexact value is rounded up, not down: sample, then 0 to 55 the model of a layer, 56 the excess of event
0x6104, 57 HEADROOM. -/
opaque govRoundUp : Nat → Nat → Bool
/-- Level of a class whose power is 0 while excess remains: sample, class. -/
opaque idleClassLevel : Nat → Nat → Nat
/-- S of a layer without a valid diode: sample, layer. -/
opaque noDiode : Nat → Nat → Int

/-! ### Cryptography (17 R455): nothing is assumed of the algorithms -/

opaque sha512 : List Byte → BitVec 512
/-- ECDSA P-521 with SHA-512: public key, message, signature. -/
opaque ecdsaVerify : List Byte → List Byte → List Byte → Bool
/-- A signature over a message by the attestation key that stands for a value of measurements 2 and 5 (17 R463, R465). -/
opaque akSign : BitVec 512 → List Byte → List Byte
/-- The slot-0 certificate chain of an attestation key and of the measurement block in its certificate (17 R464, R465). -/
opaque certChain : BitVec 512 → BitVec 512 → List Byte
/-- Verification of an SPDM FINISH: attestation key, session, verify data. -/
opaque finishVerifies : BitVec 512 → W16 → List Byte → Bool
/-- What a reader takes from a chain: it verifies, the hash of its root, and the public key of its leaf (17 R471). -/
opaque chainValid : List Byte → Bool
opaque chainRoot : List Byte → BitVec 512
opaque chainKey : List Byte → List Byte

/-- The cause that event 0x7107 carries, for which the spec gives no code: opcode, then what failed (log 54). -/
opaque trustCause : Nat → Nat → Nat
/-- The reason that event 0x7101 carries for an empty slot, for which the spec gives no code (log 20). -/
opaque emptySlotReason : Nat
/-- The cause that the boot ROM answers when one Keeper slot was refused and the other is empty (log 20). -/
opaque bootCause : Nat

end Sys2Proof.Config
end

