-- ==== Sys2Proof/Machine/State.lean ====
section
/-! DEFINITION. The state of the block as plain data: every register, table, ring, buffer, mode and pin the spec gives
the LH-964, the queue of waiting commands, and the outputs it has driven. A `Table` is a sparse map by number: an entry
that is not listed has its reset value. -/

namespace Sys2Proof.Machine

/-- A sparse map from numbers, strictly rising keys. -/
abbrev Table (α : Type) := List (Nat × α)

/-- Why a step stops with a fault. No command of this block faults the machine: every error the spec describes is an
effect on State (an event, a status, a completion code). -/
inductive Fault where
  /-- Raised by no meaning; a machine stop for which the spec gives no effect. Safe: nothing depends on it. -/
  | machineStop
  deriving DecidableEq, Repr

/-- Why a step refuses a command. -/
inductive Refusal where
  /-- Raised by exec's arm of an instruction that has no meaning yet. Safe: nothing is claimed of it. -/
  | notModelled (mnemonic : String)
  deriving DecidableEq, Repr

/-! ### Power, pins and domains (14, 19) -/

/-- Where the module stands in Table 14-6 or Table 14-9. -/
inductive Phase where
  /-- every domain off, or only the wait for PWR_EN (14 R380, R397) -/
  | off
  /-- PWR_EN asserted, CTL and SNS ramping -/
  | ramp
  /-- the CONTROL pacer may start; the boot ROM runs (17 R460) -/
  | bootRom
  /-- both Keeper slots refused or empty: stopped in the boot ROM (17 R460) -/
  | bootStopped
  /-- Keeper runs; MERE to PS ramp; Porter and microcode images are fetched (17 R461) -/
  | keeper
  /-- Porter runs; stacks, Cellar, towers and lanes train (14 R393) -/
  | training
  /-- READY (14 R396) -/
  | ready
  /-- bring-up stopped with the phase of 16 R507 (14 R394) -/
  | stopped (why : Nat)
  /-- orderly power-down: stage 0 Flush, 1 tower gating, 2 switch-off, 3 record (14 R398) -/
  | down (stage : Nat)
  /-- MOD_RST_N held after its power-down: only CTL and SNS on (14 R397) -/
  | held
  deriving DecidableEq, Repr

/-- A supply domain's switching state (14 R385, R386). -/
inductive Supply where
  | off
  /-- switched on, not yet in regulation; attempt 1 or 2 -/
  | ramping (attempt : Nat)
  | inRegulation
  deriving DecidableEq, Repr

structure Power where
  phase : Phase
  pwrEn : Bool
  modRst : Bool
  perst : Bool
  zeroPin : Bool
  vralert : Bool
  coolFail : Bool
  thermTrip : Bool
  alert : Bool
  /-- 28 domains, numbered as 16 R507 numbers them; not listed: off -/
  domains : Table Supply
  /-- towers that an order is gating or switching on, with its ON (14 R388) -/
  gating : Table Nat
  /-- CAUSE of the power-down under way (14 Table 14-10) -/
  downCause : Nat
  inputLow : Bool
  convertersFailed : List (Fin 4)
  /-- failed training attempts of each stack, and stacks whose training has ended (14 R394) -/
  stackAttempts : Table Nat
  stacksDone : List (Fin 16)
  cellarAttempts : Table Nat
  cellarRounds : List (Fin 8)
  cellarWithdrawn : Bool
  towersTested : List (Fin 8)
  mereZeroed : Bool
  /-- straps as the baseboard ties them, and as sampled at bring-up (14 R383) -/
  strapSlot : Byte
  strapFeed : BitVec 6
  slotId : Byte
  feedTag : BitVec 6
  /-- FRU EEPROM: STOR_ROLE byte and the power-down record (19 R499) -/
  fruStorRole : Byte
  fruRecord : BitVec 512
  /-- management bus (19 R498, R500) -/
  i3cAddr : Option (BitVec 7)
  roleRequested : Bool
  roleGranted : Bool
  deriving DecidableEq, Repr

/-! ### Timing domains and crossings (02) -/

/-- Pace status and beat count words of a domain, less CEILING and XFENCE, which are computed (02 Tables 2-3, 2-4). -/
structure Pace where
  point : BitVec 4
  discCnt : BitVec 8
  xtoCnt : W16
  haltCnt : W16
  halted : Bool
  gated : Bool
  beats : W64
  /-- Gray-coded alive counter (02 R35); its width is not stated, the model holds the 8 bits of an event stream's counter
  (DESIGN CHOICE, log 119) -/
  alive : Byte
  /-- an orderly gate drains the domain's crossings; they are marked gated (02 R39) -/
  draining : Bool
  xgated : Bool
  deriving DecidableEq, Repr

/-- Marks of a crossing (02 R36 to R39). -/
inductive XMark where
  | normal | fenced | stale
  deriving DecidableEq, Repr

structure Crossing where
  mark : XMark
  /-- the sender's alive counter has changed since the crossing was marked fenced or stale (02 R37) -/
  moved : Bool
  /-- tags of requests failed by a timeout whose responses have not come (02 R38) -/
  failed : List (BitVec 6)
  /-- responses discarded since the fence, while event 0x1004 is due (02 R37) -/
  discards : Nat
  rearmDue : Bool
  /-- the receiver's beat of the first fence of a 2^30-beat span, and whether 0x1005 was raised in it (16 R434) -/
  firstFence : Option Nat
  twiceRaised : Bool
  deriving DecidableEq, Repr

/-! ### Vertical channels (02) -/

/-- One group of a channel: fused remaps, bonds remapped in use, and whether it has failed (02 R41, R44). -/
structure Group where
  used : Nat
  failed : Bool
  testing : Bool
  deriving DecidableEq, Repr

structure Channel where
  /-- code of Table 2-9 -/
  state : BitVec 3
  /-- groups that differ from their fused state -/
  groups : Table Group
  /-- outvoted command-lane bonds: lane (true up, false down), copy and bit of that lane (02 R41, R43; log 118) -/
  laneFails : List (Bool × Fin 3 × Nat)
  /-- the slice is fenced: out of use until the next power-up (02 R45, R47, R49) -/
  fenced : Bool
  /-- transient parity errors and transient self-test failures counted in the core's telemetry (02 R42, 16 R452) -/
  transients : Nat
  deriving DecidableEq, Repr

/-! ### Cores and movers (04, 05) -/

/-- One lane of a vector register (05 R125). -/
structure Lane where
  val : W32
  valid : Bool
  deriving DecidableEq, Repr

/-- Where the vector engine stands in a task's program (05 R136): section 0 PRE, 1 BODY, 2 ROW, 3 FIN, 4 run to its end;
instruction within the section; body runs done; row groups whose ROW section has run. -/
structure ProgPos where
  sec : Nat
  off : Nat
  runs : Nat
  groups : Nat
  deriving DecidableEq, Repr

/-- A task admitted to a core or mover (04 R113). -/
structure TaskRun where
  desc : BitVec 2048
  handle : W32
  room : W16
  attempt : Nat
  /-- descriptor and program fetched and checked (04 R120, 05 R138) -/
  checked : Bool
  /-- the completion code the task must end with, once a cause has arisen (04 R115) -/
  ended : Option Nat
  stallEng : BitVec 2
  /-- the crossing-timeout error that ended it carries cause gated (02 R39) -/
  causeGated : Bool
  /-- sticky flags SAT, OVF, INF, NAN (04 R86, Table 3-9) -/
  flags : BitVec 4
  /-- register geometry of the task's program (05 R128, Table 5-3) -/
  geom : BitVec 2
  /-- the program's header and its words, in the task's instruction store, and the place reached (05 R136, R138) -/
  head : BitVec 128
  prog : List W64
  place : ProgPos
  /-- Q2 entries taken by LDQ (05 R137) -/
  taken : Nat
  /-- chunk cursors of auxiliary streams 0 to 5 and of stream O (05 R131, R150) -/
  cursors : List Nat
  ocursor : Nat
  /-- 0x5002 has been raised for the task (03 R70) -/
  clamped : Bool
  /-- largest finite magnitude written to stream O, and of each of its blocks: those along the last dimension by their
  number, those along the other from 2^48 up (04 R103) -/
  amax : W32
  blockAmax : Table W32
  deriving DecidableEq, Repr

structure Core where
  running : Option TaskRun
  admitted : Option TaskRun
  /-- the bank held for the following task, row-major (04 R100) -/
  held : Option (List W32)
  /-- the holding task ended otherwise than DONE and its bank was cleared (04 R100) -/
  heldLost : Bool
  /-- the two accumulator banks: the values of the last unit accumulated in each, row-major; empty where cleared or not
  used yet (04 R98, R102) -/
  banks : Table (List W32)
  /-- accumulator bank cleared by a parity error (04 R102) -/
  cleared : Option (Fin 2)
  /-- V0 to V31; a register not listed holds +0.0, all lanes valid (05 R125) -/
  vregs : Table (List Lane)
  /-- the chunk whose elements a register's lanes stand for: which element a stochastic conversion converts (03 R82) -/
  vtags : Table Nat
  /-- nothing more is dispatched to this initiator (13 R374, 16 R435); true past the boundary until a test passes -/
  withheld : Bool
  /-- withheld only to the step boundary (a mover, 13 R374) -/
  toBoundary : Bool
  deriving DecidableEq, Repr

/-! ### Memory (07) -/

structure Mem where
  /-- bytes of ponds, Mere, stack tier and Cellar: addresses strictly rising, no byte that reads as unlisted -/
  cells : List Host.Cell
  /-- poisoned 64-bit words of ponds and Mere, by word address (07 R189, R196) -/
  poison : List Nat
  /-- words that have read uncorrectable since power-up, and those whose poison a full write then cleared (07 R192) -/
  wasPoisoned : List Nat
  rewritten : List Nat
  /-- words of ponds and Mere that hold a single-bit error: a read corrects it and leaves it (07 R189, R196; log 131) -/
  singles : List Nat
  /-- uncorrectable blocks of the stack tier (256 B) and Cellar (128 B), by address (07 R209, R211) -/
  badBlocks : List Nat
  /-- spare rows used of each pond slice: the remapped rows (07 R192) -/
  sparedRows : Table (List Nat)
  /-- scrub position (bytes) and corrections of the pass: pond slices 0 to 383, Mere slices 384 + s, stacks 400 + k,
  Cellar 416 (07 R191, R196, R210, R211) -/
  scrubs : Table (Nat × Nat)
  /-- stacks' blocks whose corrections lie only in one pseudo-channel, this pass, by stack x 64 + group x 16 + p (07 R209) -/
  pchHits : Table Nat
  /-- failed pseudo-channels, mask by stack x 4 + group (13 Table 13-12) -/
  failedPch : Table W16
  /-- withdrawn Mere pages, by page address (07 R196) -/
  withdrawn : List Nat
  deriving DecidableEq, Repr

/-! ### Rooms (07) -/

/-- A room table entry (07 Table 7-5) beside what Porter keeps with it. -/
structure Room where
  cls : BitVec 3
  home : BitVec 2
  homeIdx : BitVec 3
  /-- number of version slots, 1 to 5 (the entry holds one less) -/
  slots : Nat
  fell : Bool
  releasing : Bool
  owner : W16
  current : W16
  fresh : W16
  writers : W16
  /-- pins by slot: how many tasks or holders pin each slot (SLOT_PIN reads 1 when not 0) -/
  pins : List Nat
  curSlot : Nat
  freshSlot : Nat
  base : W64
  pages : Nat
  /-- version held in each slot, 0 none -/
  slotVer : List W16
  /-- step to which the committed version in each slot belongs; the model's own, for 08 R235, R236 -/
  slotStep : List W64
  commits : W64
  /-- the last version number opened (07 R201) -/
  lastOpened : W16
  /-- writers dispatched and not yet ended (07 R206) -/
  active : Nat
  /-- step to which the fresh version belongs, for 07 R203 and 08 R235; 0 none -/
  freshStep : W64
  /-- memory of the one slot as it stood when the fresh version opened in place; the model's own, for 07 R203 (log 8) -/
  former : List Host.Cell
  /-- unapplied gradient versions in this room: version and step (08 R235) -/
  unapplied : List (W16 × W64)
  /-- a task room in the hands of the engines (01 R15) -/
  engines : Bool
  deriving DecidableEq, Repr

/-! ### Event log (16) -/

/-- An event-log entry (16 Table 16-1) less its CRC; ARGS as bytes from byte 0x04. -/
structure Event where
  seq : Nat
  step : W64
  code : W16
  plane : BitVec 2
  die : BitVec 6
  severity : Nat
  args : List Byte
  deriving DecidableEq, Repr

structure Log where
  /-- newest first, at most 262,144 -/
  entries : List Event
  next : Nat
  /-- highest SEQ that EVENT_READ has returned through mailbox 64 (16 R432) -/
  seen64 : Nat
  /-- an entry of severity 2 or above since vector 64 was last raised -/
  vec64 : Bool
  /-- events that a domain has sent and halted CONTROL has not consumed, by domain (02 R32, log 117) -/
  ahead : Table Nat
  deriving DecidableEq, Repr

/-! ### Mailboxes and sessions (13) -/

/-- A completion entry (13 Table 13-6) less its CRC. -/
structure Cpl where
  cid : W16
  opcode : W16
  status : Byte
  phase : Bool
  sqHead : BitVec 6
  detail : W16
  session : W16
  pass : W32
  result0 : W64
  result1 : W64
  result2 : W64
  deriving DecidableEq, Repr

structure Mailbox where
  /-- submission ring: entries written, 1,024 bits each -/
  sq : Table (BitVec 1024)
  /-- completion ring -/
  cq : Table Cpl
  sqTail : BitVec 6
  sqHead : BitVec 6
  cqHead : BitVec 6
  /-- next completion index and the phase of that round -/
  cqTail : BitVec 6
  phase : Bool
  /-- STATE of Table 13-4 -/
  state : BitVec 2
  session : W16
  lastPass : W32
  /-- commands taken whose completions are not consumed (13 R345) -/
  taken : Nat
  /-- the session has ended; the mailbox unbinds when CQ_HEAD passes the last completion (13 R359) -/
  ending : Bool
  /-- messages of mailboxes 64 and 65 not yet taken, oldest first, with their extended arguments -/
  msgs : List (BitVec 1024 × List Byte)
  deriving DecidableEq, Repr

structure Session where
  owner : Bool
  consent : Byte
  /-- the function through whose mailbox the session was opened (12 R330) -/
  fn : PortFn
  deriving DecidableEq, Repr

/-- Which party set a safety setting (13 R368). -/
inductive Setter where
  | baseboard | owner
  deriving DecidableEq, Repr

/-- What an outstanding command waits for. -/
inductive Wait where
  /-- nothing: it completes when it is carried out -/
  | now
  | step (n : W64)
  /-- the tasks of a TASKS_RUN, by the number of its job -/
  | tasks (job : Nat)
  | gate (on : Nat) (towers : Byte)
  | lodge (partner : W16)
  | stage
  | activate (v : W64)
  | fwActivate
  | dma
  | close
  | unmap
  deriving DecidableEq, Repr

/-- What an order names for the settling of conflicts (13 Table 13-9). -/
inductive Subject where
  | limits
  | ceiling (tower : Nat)
  | dispatch
  | lastLine
  | domain
  | ept
  | lodge
  | plan
  | room (id : Nat)
  | tower (t : Nat)
  | capShare
  | snapshot
  | firmware
  deriving DecidableEq, Repr

/-- An order carried out in the pass under way: mailbox, CID, opcode and one of its subjects. -/
structure PassOrder where
  mailbox : Nat
  cid : W16
  opcode : Nat
  subject : Subject
  deriving DecidableEq, Repr

/-- A limit or ceiling order carried out in the pass under way: the settings it named, and those in force that it set.
Settings are numbered 0 SUSTAIN, 1 PEAK, 2 WINDOW, 3 + t the ceiling of tower t (13 R367). -/
structure LimitOrder where
  mailbox : Nat
  cid : W16
  given : List Nat
  held : List Nat
  deriving DecidableEq, Repr

/-- A command taken and not yet completed (13 R352). -/
structure Pending where
  cmd : Cmd
  opcode : W16
  session : W16
  pass : W32
  /-- submission index it was taken from (13 R358) -/
  index : BitVec 6
  wait : Wait
  deriving DecidableEq, Repr

/-- A task journal entry (13 Table 13-11). -/
structure Journal where
  /-- the job of the task -/
  job : Nat
  taskId : W32
  handle : W32
  step : W64
  core : Nat
  state : BitVec 3
  lastCode : Nat
  slot : Byte
  descAddr : W64
  pass : W32
  /-- room and version of A, W, C, the program and auxiliary streams 0 to 5 -/
  streamVer : List (W16 × W16)
  outVer : W16 × W16
  attempt : Nat
  room : W16
  /-- the run that the entry stands for holds its pins (07 R202) -/
  pinned : Bool
  deriving DecidableEq, Repr

/-- Progress of a task of an open job. -/
inductive TaskState where
  /-- not yet dispatched; the pass in which it became ready, if it has -/
  | waiting (readySince : Option Nat)
  | running
  /-- owes a replay or a run elsewhere with this ATTEMPT -/
  | again (attempt : Nat)
  | done
  /-- ended otherwise than DONE and is not run again -/
  | endedWith (code : Nat)
  /-- its work is lost or it is withheld (02 R52) -/
  | lost
  deriving DecidableEq, Repr

/-- Tasks under way for a step (STEP_RUN) or outside any step (TASKS_RUN, 13 R508). -/
structure Job where
  /-- 0 for the open step; a TASKS_RUN's number otherwise -/
  id : Nat
  step : W64
  handle : W32
  /-- by TASK_ID -/
  tasks : Table TaskState
  /-- DETAIL with which the job fails once its running tasks have ended: no more dispatch (04 R122, 13 R374) -/
  failing : Option Nat
  /-- versions that tasks opened: TASK_ID, room, version -/
  outs : List (Nat × Nat × Nat)
  /-- versions that tasks to be re-run read: TASK_ID, stream number 0 to 9, version (06 R170) -/
  reads : List (Nat × Nat × Nat)
  /-- versions pinned until LAST_READER ends with DONE: LAST_READER, room, version (06 R171) -/
  keeps : List (Nat × Nat × Nat)
  /-- the core that holds a bank and the follower that comes next there (04 R100) -/
  holds : List (Nat × Nat)
  /-- the initiators that a replay or a run elsewhere may use, by TASK_ID (13 R373, R374, 14 R391) -/
  only : Table (List Nat)
  /-- lag stalls under way: parameter entry and the CONTROL beat at which each began (08 R234) -/
  stalled : List (Nat × W64)
  deriving DecidableEq, Repr

structure Porter where
  /-- PORTER and KEEPER of Table 13-13 -/
  porter : BitVec 2
  keeper : BitVec 2
  ready : Bool
  bar0Misuse : Bool
  pass : Nat
  /-- a heartbeat since the last watch; restarts since bring-up; stopped since the last boundary (01 R19) -/
  heartbeats : Nat
  restarts : Nat
  stoppedSince : Bool
  mailboxes : Table Mailbox
  mbxErr : W64
  sessions : Table Session
  /-- MSI-X vectors raised, by function (0 HOST, 1 STOR) x 128 + vector, newest first -/
  msix : List Nat
  /-- mailboxes that owe an interrupt at the end of the pass (13 R348) -/
  irqDue : List Nat
  outstanding : List Pending
  /-- orders of the pass under way that name a subject (13 R366) -/
  passOrders : List PassOrder
  limitOrders : List LimitOrder
  plans : Table Plan
  /-- handles unloaded while journal entries still name them -/
  unloaded : List Nat
  nextHandle : Nat
  halted : Bool
  haltSetter : Setter
  sustainSetter : Setter
  peakSetter : Setter
  windowSetter : Setter
  ceilSetter : Table Setter
  lastLineSetter : Setter
  /-- HEADROOM, MAX_CLASS and COOL_ORDER as read at the start of the pass (01 R16) -/
  budgetRead : W64
  journal : List Journal
  deriving DecidableEq, Repr

/-! ### Steps (01, 13, 08, 09) -/

/-- A Ledger reduction entry (09 Table 9-6). -/
structure LedgerRed where
  red : W32
  count : W32
  sloc : W32
  sglob : W32
  sumc2 : W64
  counted : W16
  lateN : W16
  carriedIn : W16
  closeBy : BitVec 2
  ownCause : BitVec 2
  skip : Bool
  ownLate : Bool
  deriving DecidableEq, Repr

/-- A Ledger ratio entry (09 Table 9-7). -/
structure LedgerRatio where
  gstep : W32
  group : Nat
  limited : Bool
  ratio : W16
  deriving DecidableEq, Repr

/-- A Ledger record (09 Table 9-5), less its CRC. -/
structure LedgerRec where
  step : W64
  seq : W32
  reds : List LedgerRed
  ratios : List LedgerRatio
  micro : W16
  sent : W16
  sentPoisoned : W16
  sentLost : W16
  sentLate : W16
  skipped : W16
  verdict : Bool
  carryOut : Bool
  lagStalls : W32
  lagBeats : W64
  firstPoison : W16
  deriving DecidableEq, Repr

/-- Actions that wait for a step boundary (01 R21). -/
inductive Boundary where
  | snapshot
  | fwActivate
  | marginLower (layer : Nat) (margin : Nat)
  | pointBack (layer : Nat) (point : Nat)
  deriving DecidableEq, Repr

structure Steps where
  /-- the open step's job, and its STEP_RUN -/
  job : Option Job
  /-- the first task of the open step has been dispatched (01 R21, 08 R235) -/
  begun : Bool
  queued : Option (W64 × W32)
  /-- TASKS_RUN jobs (13 R508), and the next job number -/
  runs : List Job
  nextRun : Nat
  lastBoundary : W64
  anyBoundary : Bool
  /-- STEP_RUN must name this step (13 R364), from a restore -/
  afterRestore : Option W64
  /-- a plan has been loaded with no step reached and no state restored since: STEP_RUN may name any step from 1 (13 R364) -/
  stepFree : Bool
  /-- the open step's work is lost; its notices carry CAUSE 0b10 (02 R52) -/
  workLost : Bool
  /-- NAN or INF set in a completed task of the step (09 R252) -/
  nonFinite : Bool
  verdict : Option Bool
  actions : List Boundary
  /-- optimiser-set blocks of the last five steps (08 R220) -/
  sets : List (W64 × List (BitVec 512))
  /-- LAG in force while a version is unapplied (08 R219) -/
  lagInForce : Option Nat
  /-- highest step of which work has been dispatched (16 R428) -/
  highest : W64
  /-- the Ledger record under way -/
  record : LedgerRec
  ledger : List LedgerRec
  nextSeq : W32
  deriving DecidableEq, Repr

/-! ### Parameter state (08) -/

/-- The update that the Cellar update engine has staged (08 R227, R234). -/
structure Staged where
  step : W64
  entry : Nat
  /-- staging room in the Mere, 0xFFFF none; its committed version holds the new state of the first block (08 R227) -/
  room : W16
  /-- homes of the block staged there: address and bytes -/
  spans : List (Nat × Nat)
  /-- new state of the blocks to be staged next: home address and bytes -/
  writes : List (List (Nat × List Byte))
  /-- digest-table entries: address and entry (08 R230) -/
  digests : List (Nat × W64)
  /-- ratio entry of its watch group -/
  ratio : Option LedgerRatio
  skip : Bool
  deriving DecidableEq, Repr

structure Params where
  /-- gradient step of the last update applied, by parameter entry index -/
  applied : Table W64
  /-- the step of the last scale pass completed for the tensor, by entry index: that of the last boundary (08 R234) -/
  scaled : Table W64
  staged : Option Staged
  /-- stack-resident updates staged, on their way to their homes (08 R227) -/
  homing : List Staged
  /-- stack-resident watch groups in the order in which they became ready: step and group (09 R246) -/
  readyGroups : List (W64 × Nat)
  /-- tensor updates stopped by 0x5102 (08 R236) -/
  stopped : List Nat
  /-- step of the last update that wrote the tensor and its digests (08 R229, R231) -/
  digested : Table W64
  /-- watch groups under way in the Cellar update engine: group, step, factor k and ratio entry (08 R239) -/
  groupRuns : List (Nat × W64 × W32 × LedgerRatio)
  /-- digest blocks held until a source is installed: entry, block or none for the whole tensor, step (08 R232, R237) -/
  fetching : List (Nat × Option Nat × W64)
  /-- parameter state undefined after a failed restore (16 R447) -/
  lost : Bool
  deriving DecidableEq, Repr

/-! ### Reductions (09) -/

structure Layout where
  raw : BitVec 512
  members : List W16
  deriving DecidableEq, Repr

/-- A close record (09 Table 9-4 and bitmaps). -/
structure CloseRec where
  head : BitVec 512
  counted : List Bool
  carried : List Bool
  deriving DecidableEq, Repr

/-- A shard received at a node: contributor, carried, shard number, values in FP32. -/
structure Shard where
  idx : Nat
  carried : Bool
  number : Nat
  values : List W32
  deriving DecidableEq, Repr

structure Red where
  id : W32
  step : W64
  notices : Table (BitVec 512)
  carriedNotices : Table (BitVec 512)
  /-- the wait budget has started; it ran out with fewer than Q notices (09 R255, R258) -/
  started : Bool
  budgetOut : Bool
  close : Option CloseRec
  shards : List Shard
  /-- result shards received: number, elements, S_GLOB part -/
  results : List (Nat × List W32 × W32)
  /-- the module's own notice of this step (09 R250) -/
  own : Option (BitVec 512)
  ownLate : Bool
  committed : Bool
  skip : Bool
  /-- local gradient versions pinned from the notice to the result: room, version (09 R254) -/
  pins : List (W16 × W16)
  deriving DecidableEq, Repr

structure Reductions where
  layouts : List Layout
  open_ : List Red
  /-- contributions of a step carried into the next: reduction, its notice, and the pinned versions (09 R254, R256) -/
  carry : List (W32 × BitVec 512 × List (W16 × W16))
  closeRing : List CloseRec
  /-- next record number of the close ring -/
  closeNext : Nat
  deriving DecidableEq, Repr

/-! ### Expert exchange (10) -/

/-- A bundle at a holder: source, expert, EPT_VER, tokens and payload rows (10 R277). -/
structure Bundle where
  src : W16
  expert : Nat
  ver : W16
  tokens : List W32
  rows : List (List Byte)
  deriving DecidableEq, Repr

/-- A round at a holder (10 R278). -/
structure Round where
  step : W64
  layer : Nat
  mb : Nat
  backward : Bool
  /-- marks in: source id, bundles announced, LOST -/
  marks : List (W16 × Nat × Bool)
  /-- bundles arrived -/
  bundles : List Bundle
  /-- sources of bundles returned unserved: they have arrived too (10 R285) -/
  unserved : List W16
  started : Bool
  /-- the rows stand in their fabric-in rooms, and the tasks of the product may run -/
  gathered : Bool
  /-- experts whose rows have gone back to their sources -/
  returned : List Nat
  raised : Bool
  deriving DecidableEq, Repr

/-- One choice of a dispatch's assignment list (10 R275). -/
structure Assign where
  token : Nat
  order : Nat
  expert : Nat
  gate : W32
  /-- holder and entry version, or none when dropped -/
  holder : Option (W16 × W16)
  /-- the returned row -/
  back : Option (List W32)
  deriving DecidableEq, Repr

structure DispatchList where
  step : W64
  layer : Nat
  mb : Nat
  backward : Bool
  list : W64
  choices : List Assign
  combined : Bool
  deriving DecidableEq, Repr

/-- Router record counters of a layer (10 Table 10-3). -/
structure Router where
  choices : Nat
  moved : Nat
  dropCap : Nat
  dropLost : Nat
  dropVer : Nat
  deriving DecidableEq, Repr

/-- A router record written at a step's end (10 Table 10-3), less its CRC. -/
structure RouterRec where
  step : W64
  layer : Nat
  counters : Router
  charged : Nat
  deriving DecidableEq, Repr

structure Exchange where
  active : Table (BitVec 128)
  staged : Table (BitVec 128)
  /-- group list, a removed module's position vacant (10 R269, 16 R441) -/
  group : List (Option W16)
  /-- the stage's install step; it has completed; experts gained (10 R287) -/
  installStep : Option W64
  stageDone : Bool
  activateStep : Option W64
  activated : Bool
  gained : List Nat
  /-- state to install at the boundary of the install step, before EPT_STAGE completes (10 R288) -/
  installs : List Gained
  rounds : List Round
  dispatches : List DispatchList
  routers : Table Router
  ring : List RouterRec
  ringNext : Nat
  deriving DecidableEq, Repr

/-! ### Fabric (11) -/

inductive LaneState where
  /-- not trained, or out of service -/
  | out
  | recalibrating
  | inService
  deriving DecidableEq, Repr

structure Member where
  id : W16
  rack : BitVec 7
  planes : BitVec 36
  deriving DecidableEq, Repr

/-- A request of a ring that has been issued and has not completed (11 R306, R311, R316). -/
structure Request where
  entry : BitVec 512
  pos : Nat
  target : Nat
  attempts : Nat
  seq : W32
  /-- plane it travels on (11 R294) -/
  plane : Nat
  deriving DecidableEq, Repr

/-- A request ring registered with the LINK dies (11 R303). -/
structure ReqRing where
  room : W16
  /-- version being executed, 0 none -/
  version : W16
  next : Nat
  issued : List Request
  deriving DecidableEq, Repr

/-- A store or atomic waiting at a line's coalescer, or one line of a load behind others (11 R307, R308, R312). -/
inductive Waiting where
  | access (r : WinReq) (home : Nat)
  | atomic (r : AtomReq) (home : Nat)
  | load (id line : Nat) (srcRack : Fin 128)
  deriving DecidableEq, Repr

structure Line where
  queue : List Waiting
  /-- sources whose credits are stopped (11 R313) -/
  stopped : List (Fin 128)
  /-- LINK beat of its last event 0x4401 (11 R314) -/
  hot : Option W64
  /-- the line's plane, by its address in the window (11 R294) -/
  plane : Nat
  deriving DecidableEq, Repr

/-- A load with lines still to be read: the request, its first address in the room, and the lines read (11 R308). -/
structure WindowLoad where
  req : WinReq
  home : Nat
  got : List (Nat × List Byte)
  deriving DecidableEq, Repr

/-- A receipt (11 R310): sequence, word address, old value. -/
structure Receipt where
  seq : Nat
  addr : W64
  old : W64
  deriving DecidableEq, Repr

structure Fabric where
  /-- lanes 0 to 143; not listed: out -/
  lanes : Table LaneState
  up : Table Bool
  /-- planes whose new requests are held while they drain (11 R294) -/
  draining : List Nat
  moduleId : W16
  domain : Option W16
  epoch : W16
  members : List Member
  everFormed : Bool
  tornDown : Bool
  rst : Table W64
  exports : Table (BitVec 128)
  rings : Table ReqRing
  receive : Table W16
  nextSeq : Table W32
  /-- atomics that ended with PEER_LOST and may be resubmitted: target, sequence, epoch of the tag (11 R311) -/
  lostAtomics : List (Nat × W32 × W16)
  /-- next message sequence number, by destination x 64 + ring -/
  nextMsg : Table W32
  receipts : Table (List Receipt)
  lines : Table Line
  /-- loads under way at this target, and the next number for one -/
  loads : Table WindowLoad
  nextLoad : Nat
  unreachable : List W16
  /-- (source rack, segment) for which 0x4201 has been raised in the epoch (11 R302) -/
  refused : List (Nat × Nat)
  deriving DecidableEq, Repr

/-! ### Host and storage ports (12) -/

structure Drive where
  used : Bool
  failed : Bool
  /-- ranges that the outstanding command names (12 R333), and that it has been reissued -/
  ranges : List (W64 × Nat)
  busy : Bool
  reissued : Bool
  deriving DecidableEq, Repr

/-- A DMA transfer under way (12 R328). -/
structure Dma where
  toHost : Bool
  room : W16
  offset : Nat
  list : List (W64 × W64)
  deriving DecidableEq, Repr

structure Ports where
  /-- port status word: rate and log2 width codes of HOST and STOR, and bit 16 (13 R378) -/
  hostLink : Byte
  storLink : Byte
  aer : Bool
  apertures : Table (BitVec 128)
  /-- apertures for which 0x4902 has been raised in the present mapping (12 R326) -/
  apRaised : List Nat
  /-- rw words of BAR0 that have no other home: the MSI-X tables, by function x 2^32 + offset (12 R322) -/
  regs : Table Byte
  dmas : List (PortFn × Dma)
  storRole : Byte
  drives : Table Drive
  /-- (drive, namespace) pairs of the snapshot store -/
  store : List (Nat × Nat)
  /-- Porter's room of drive queues, 0xFFFF none (12 R332) -/
  queueRoom : W16
  /-- a Flush is awaited (14 Table 14-9) -/
  flushing : Bool
  deriving DecidableEq, Repr

inductive Chunk where
  | pending | saving | saved | reading | shipped
  deriving DecidableEq, Repr

/-- A part of an image: parameter entry, PART code, home address, bytes, gradient step (12 Table 12-9). -/
structure Part where
  /-- the parameter entry (Table 8-1); 0 for PART 0x7 -/
  entry : BitVec 512
  part : Nat
  addr : Nat
  len : Nat
  step : W64
  /-- offset in the payload -/
  offset : Nat
  deriving DecidableEq, Repr

structure Snapshot where
  req : BitVec 512
  step : W64
  marked : Bool
  parts : List Part
  /-- copy-on-write room and staging room, 0xFFFF none (12 R337, R341) -/
  room : W16
  staging : W16
  /-- optimiser sets of PART 7, by step -/
  sets : List (W64 × List (BitVec 512))
  /-- LAG and rounding seed of the plan at the mark -/
  lag : Nat
  seed : W32
  /-- SHA-512 of the chunks that have passed -/
  digests : Table (BitVec 512)
  chunks : List Chunk
  /-- bytes saved into the copy-on-write room, by chunk -/
  saved : Table (List Byte)
  /-- pinned gradient versions: room and version -/
  pins : List (W16 × W16)
  deriving DecidableEq, Repr

structure Restoring where
  source : Byte
  id : W64
  addr : W64
  manifest : Manifest
  /-- staging room (16 R447) -/
  room : W16
  done : List Nat
  /-- optimiser-set blocks of the image as they arrive, by step -/
  sets : List (W64 × List Byte)
  deriving DecidableEq, Repr

/-! ### Lodging, tests (16) -/

structure Lodging where
  partner : W16
  lodgedFor : W16
  /-- the pair was formed with OVERRIDE, as the lodger and as the partner: FLAGS[1] (13 R362, 16 R437) -/
  correlated : Bool
  correlatedIn : Bool
  /-- partner and OVERRIDE of the request under way -/
  asking : Option (W16 × Bool)
  /-- tensors that the last request counted, by TENSOR_ID (16 R437) -/
  counted : List Nat
  /-- the lodging room, 0xFFFF none, and the number of its areas (16 R436) -/
  room : W16
  areas : Nat
  /-- TENSOR_ID, area, APPLIED_STEP -/
  directory : List (W32 × Nat × W64)
  spare : Nat
  promoted : Option W16
  /-- tensors whose failed refresh has been sent once more -/
  resent : List W32
  /-- refreshes accepted by the partner: entry index and step -/
  refreshed : Table W64
  /-- the lodger's Ledger tail -/
  tail : List Byte
  deriving DecidableEq, Repr

structure TestReq where
  number : Nat
  kind : Nat
  target : Nat
  session : W16
  filed : Bool
  begun : Bool
  /-- lanes still to be recalibrated (KIND 0) -/
  todo : List Nat
  deriving DecidableEq, Repr

structure Tests where
  reqs : List TestReq
  nextReq : Nat
  nextCore : Nat
  /-- core under test, and the run of its test (1 or 2; 0 while draining) -/
  underTest : Option (Nat × Nat)
  skipped : List Nat
  tower : Option Nat
  deriving DecidableEq, Repr

/-! ### Governor and thermal control (15) -/

/-- The thermal entry of a layer (15 Table 15-10) and what Keeper keeps with it; temperatures in 1/64 degree. -/
structure Layer where
  est : Int
  sens : Int
  model : Int
  /-- M has been set since the layer's supply was switched on (15 R416) -/
  primed : Bool
  suspect : Bool
  throttle : Bool
  badDiodes : List Nat
  /-- consecutive samples with M - S above 8.0 degrees (15 R417) -/
  divergent : Nat
  /-- consecutive samples of a pond layer at 95 degrees or above (15 R419) -/
  pondRun : Nat
  deriving DecidableEq, Repr

structure TowerGov where
  ceiling : BitVec 4
  level : Nat
  /-- samples for which b_T has been 32 or more; since the last lowering by it; at 105 degrees (15 R419) -/
  hotRun : Nat
  hotWait : Nat
  at105 : Nat
  /-- samples for which b and b_T have both been 0 (15 R411) -/
  quiet : Nat
  /-- samples since 0x6201 was raised for the tower -/
  sinceThrottle : Option Nat
  /-- samples for which the suspect test is still suspended (15 R417) -/
  suspend : Nat
  stoppedPond : Bool
  /-- stopped by COOL_FAIL_N and not brought up since (15 R421) -/
  stoppedCool : Bool
  /-- TLn ramps to a new point (15 R410) -/
  ramping : Bool
  deriving DecidableEq, Repr

structure Governor where
  sustain : Nat
  peak : Nat
  window : Nat
  order : Nat
  linkFloor : Nat
  sample : Nat
  /-- inputs of the samples since the last limit change, newest first -/
  history : List Nat
  lastEff : Nat × Nat
  /-- levels of compute, memory and links -/
  b : Nat
  m : Nat
  l : Nat
  /-- the last record's P, allow, P_C, P_M, P_L -/
  pIn : Nat
  allow : Int
  pC : Nat
  pM : Nat
  pL : Nat
  budget : W64
  towers : Table TowerGov
  layers : Table Layer
  /-- consecutive samples with b at 32 or more; with 0x6104 conditions; since the last lowering (15 R410) -/
  bRun : Nat
  fullRun : Nat
  sinceLower : Option Nat
  sinceExcess : Option Nat
  sinceFull : Option Nat
  lastLine : BitVec 2
  lastLineNext : BitVec 2
  vrHold : Bool
  vrTail : Nat
  tripped : Bool
  /-- MARGIN of each logic layer, and the target it rises to; points OUT (15 R423, R425) -/
  margins : Table Nat
  targets : Table Nat
  outs : Table (List Nat)
  deriving DecidableEq, Repr

/-! ### Security (17) -/

/-- A verified image in use or staged: header, the SHA-512 of the image, and that of the owner key that signed it. -/
structure Image where
  head : BitVec 1024
  digest : BitVec 512
  owner : Option (BitVec 512)
  deriving DecidableEq, Repr

/-- A firmware fetch under way (17 R459): image kind, slot, bytes received, second attempt. -/
structure Fetch where
  kind : Nat
  slot : Nat
  got : List Byte
  again : Bool
  deriving DecidableEq, Repr

structure Security where
  fetch : Option Fetch
  /-- refusal reason of (kind, slot), 0xFF for an empty slot (17 R458, R460) -/
  refusals : List (Nat × Nat × Nat)
  images : Table Image
  staged : Table Image
  /-- FW_STAGE segments received: kind, total, bytes -/
  staging : Table (Nat × List Byte)
  /-- anti-rollback counters above their fused value, by kind -/
  counters : Table Nat
  /-- owner key hashes installed in slots 0 to 2 -/
  ownerKeys : List (BitVec 512)
  policy : BitVec 512
  errorState : Bool
  zeroised : Bool
  /-- DS, PUF response, DevID and AK keys, DRBG state and staging store hold secrets (17 R478) -/
  secrets : Bool
  /-- slot 0 holds a certificate chain (17 R464) -/
  certSlot : Bool
  debugOpen : Bool
  measured : Table (BitVec 512)
  /-- SHA-512 of measurements 2 and 5 that the attestation key stands for, and of the block in its certificate (17 R465) -/
  ak : BitVec 512
  issued : BitVec 512
  /-- negotiated transports, and secure sessions: transport, id, established -/
  negotiated : List Nat
  sessions : List (Nat × W16 × Bool)
  /-- cores that have raised 0x7301 this boot (17 R456) -/
  accessed : List Nat
  deriving DecidableEq, Repr

/-! ### Capability record and forerunner mode (13, 18) -/

structure Cap where
  gen : W64
  frTowers : BitVec 4
  /-- towers leaving forerunner mode (18 R483) -/
  leaving : BitVec 4
  /-- towers that enter it when TLn is next switched on (18 R482) -/
  entering : BitVec 4
  /-- largest magnitude met this step, by history record index (18 R491) -/
  frAmax : Table W32
  deriving DecidableEq, Repr

/-! ### Outputs -/

/-- What the module sends out: the observable answers of its ports. -/
inductive Out where
  | notice (dest : W16) (n : BitVec 512)
  | closeRec (dest : W16) (c : CloseRec)
  | shard (red : W32) (step : W64) (s : Shard)
  | result (red : W32) (step : W64) (shard : Nat) (values : List W32) (sglob : W32)
  | exchange (tag : PacketTag) (head : BitVec 512) (tokens : List W32) (rows : List (List Byte))
  | window (tag : PacketTag) (target : Nat) (plane : Nat) (seq : W32) (e : BitVec 512) (data : List Byte)
  | winReply (tag : PacketTag) (src : Nat) (plane : Nat) (status : Byte) (data : List Byte)
  /-- a message, spread over the planes listed (11 R294) -/
  | message (dest : W16) (ring : Nat) (seq : W32) (planes : List Nat) (data : List Byte)
  | msgAck (src : W16) (ring : Nat) (accepted : Bool)
  | mctpCpl (mb : Nat) (c : Cpl) (data : List Byte)
  | data (f : PortFn) (bytes : List Byte) (ep : Bool)
  | unsupported (drive : Nat)
  | fetchReq (kind slot offset len : Nat)
  | management (what : String) (args : List Nat)
  | spdm (transport : Nat) (what : String) (args : List Nat) (data : List Byte)
  | dma (addr : W64) (data : List Byte)
  | driveCmd (drive : Nat) (what : String) (addr : Nat)
  | fruWrite (rec : BitVec 512)
  /-- bytes of an image on their way to a snapshot's destination: SNAP_ID, DEST, offset in the image -/
  | image (id : Nat) (dest : Nat) (at_ : Nat) (data : List Byte)
  /-- answer to DOE Discovery: vendor, protocol, next index -/
  | doe (vendor protocol next : Nat)
  /-- lodging messages over the management channel and the links: destination, what, numbers, bytes -/
  | lodge (dest : W16) (what : String) (args : List Nat) (data : List Byte)
  /-- Porter asks a module for a tensor's state, or one block's, after the update of a step; 0xFFFF: the replicas that the
  fabric manager names (08 R232) -/
  | stateRequest (dest : W16) (tensor : W32) (block : Option Nat) (step : W64)
  | stateReply (dest : W16) (tensor : W32) (step : W64) (found : Bool) (data : List Byte)
  deriving DecidableEq, Repr

/-- The state of the block. -/
structure State where
  pending : List Instr
  freeCount : Nat
  power : Power
  pace : Table Pace
  crossings : Table Crossing
  channels : Table Channel
  cores : Table Core
  mem : Mem
  rooms : Table Room
  /-- Mere floors and ceilings in MiB by class code (07 R197) -/
  floors : List Nat
  ceilings : List Nat
  log : Log
  porter : Porter
  steps : Steps
  params : Params
  red : Reductions
  exch : Exchange
  fab : Fabric
  ports : Ports
  snap : Option Snapshot
  restore : Option Restoring
  lodge : Lodging
  tests : Tests
  gov : Governor
  sec : Security
  cap : Cap
  /-- outputs, newest first -/
  outs : List Out
  deriving DecidableEq, Repr

/-! ### Reset: the value of every field before power is switched on (14 R392). A value the spec does not give is 0,
empty or false (log 3); the levels of the input pins are log 1. -/

def Power.reset : Power :=
  { phase := .off, pwrEn := false, modRst := false, perst := true, zeroPin := false, vralert := false,
    coolFail := false, thermTrip := false, alert := false, domains := [], gating := [], downCause := 0, inputLow := false,
    convertersFailed := [], stackAttempts := [], stacksDone := [], cellarAttempts := [], cellarRounds := [],
    cellarWithdrawn := false, towersTested := [], mereZeroed := false, strapSlot := 0, strapFeed := 0, slotId := 0,
    feedTag := 0, fruStorRole := 0, fruRecord := 0, i3cAddr := none, roleRequested := false, roleGranted := false }

/-- Table 2-3: POINT 8, GATED 1, the rest 0. -/
def Pace.reset : Pace :=
  { point := 8, discCnt := 0, xtoCnt := 0, haltCnt := 0, halted := false, gated := true, beats := 0, alive := 0,
    draining := false, xgated := true }

def Crossing.reset : Crossing :=
  { mark := .normal, moved := false, failed := [], discards := 0, rearmDue := false, firstFence := none,
    twiceRaised := false }

def Group.reset : Group := { used := 0, failed := false, testing := false }

def Channel.reset : Channel := { state := 0, groups := [], laneFails := [], fenced := false, transients := 0 }

def Core.reset : Core :=
  { running := none, admitted := none, held := none, heldLost := false, banks := [], cleared := none, vregs := [], vtags := [],
    withheld := false, toBoundary := false }

def Mem.reset : Mem :=
  { cells := [], poison := [], wasPoisoned := [], rewritten := [], singles := [], badBlocks := [], sparedRows := [], scrubs := [],
    pchHits := [], failedPch := [], withdrawn := [] }

/-- 16 R427: the first SEQ is 1. -/
def Log.reset : Log := { entries := [], next := 1, seen64 := 0, vec64 := false, ahead := [] }

def Mailbox.reset : Mailbox :=
  { sq := [], cq := [], sqTail := 0, sqHead := 0, cqHead := 0, cqTail := 0, phase := true, state := 0, session := 0,
    lastPass := 0, taken := 0, ending := false, msgs := [] }

def Porter.reset : Porter :=
  { porter := 0, keeper := 0, ready := false, bar0Misuse := false, pass := 0, heartbeats := 0, restarts := 0,
    stoppedSince := false, mailboxes := [], mbxErr := 0, sessions := [], msix := [], irqDue := [], outstanding := [], passOrders := [], limitOrders := [], plans := [], unloaded := [],
    nextHandle := 1, halted := false, haltSetter := .baseboard, sustainSetter := .baseboard,
    peakSetter := .baseboard, windowSetter := .baseboard, ceilSetter := [], lastLineSetter := .baseboard,
    budgetRead := 0, journal := [] }

def LedgerRec.reset : LedgerRec :=
  { step := 0, seq := 0, reds := [], ratios := [], micro := 0, sent := 0, sentPoisoned := 0, sentLost := 0,
    sentLate := 0, skipped := 0, verdict := false, carryOut := false, lagStalls := 0, lagBeats := 0,
    firstPoison := 0xFFFF }

def Steps.reset : Steps :=
  { job := none, begun := false, queued := none, runs := [], nextRun := 1, lastBoundary := 0, anyBoundary := false,
    afterRestore := none, stepFree := false, workLost := false, nonFinite := false, verdict := none, actions := [], sets := [],
    lagInForce := none, highest := 0, record := .reset, ledger := [], nextSeq := 0 }

def Params.reset : Params :=
  { applied := [], scaled := [], staged := none, homing := [], readyGroups := [], stopped := [], digested := [], groupRuns := [], fetching := [], lost := false }

def Reductions.reset : Reductions := { layouts := [], open_ := [], carry := [], closeRing := [], closeNext := 0 }

def Exchange.reset : Exchange :=
  { active := [], staged := [], group := [], installStep := none, stageDone := false, activateStep := none,
    activated := false, gained := [], installs := [], rounds := [], dispatches := [], routers := [], ring := [], ringNext := 0 }

/-- Table 13-12: MODULE_ID 0xFFFF. -/
def Fabric.reset : Fabric :=
  { lanes := [], up := [], draining := [], moduleId := 0xFFFF, domain := none, epoch := 0, members := [],
    everFormed := false, tornDown := false, rst := [], exports := [], rings := [], receive := [], nextSeq := [],
    lostAtomics := [], nextMsg := [], receipts := [], lines := [], loads := [], nextLoad := 0, unreachable := [], refused := [] }

def Ports.reset : Ports :=
  { hostLink := 0, storLink := 0, aer := false, apertures := [], apRaised := [], regs := [], dmas := [],
    storRole := 0, drives := [], store := [], queueRoom := 0xFFFF, flushing := false }

/-- Table 13-12: LODGE_PARTNER and LODGED_FOR 0xFFFF. -/
def Lodging.reset : Lodging :=
  { partner := 0xFFFF, lodgedFor := 0xFFFF, correlated := false, correlatedIn := false, asking := none, counted := [],
    room := 0xFFFF, areas := 0, directory := [],
    spare := 0, promoted := none, resent := [], refreshed := [], tail := [] }

def Tests.reset : Tests :=
  { reqs := [], nextReq := 1, nextCore := 0, underTest := none, skipped := [], tower := none }

def Layer.reset : Layer :=
  { est := 0, sens := 0, model := 0, primed := false, suspect := false, throttle := false, badDiodes := [],
    divergent := 0, pondRun := 0 }

/-- 15 R409: every PACE_CEILING is 15. -/
def TowerGov.reset : TowerGov :=
  { ceiling := 15, level := 0, hotRun := 0, hotWait := 0, at105 := 0, quiet := 0,
    sinceThrottle := none, suspend := 0, stoppedPond := false, stoppedCool := false, ramping := false }

/-- 15 R400, R406, R412, R426: the reset limits, order, floor, budget word and governor record. -/
def Governor.reset : Governor :=
  { sustain := 3600, peak := 4200, window := 2, order := 0, linkFloor := 160, sample := 0, history := [],
    lastEff := (3600, 4200), b := 0, m := 0, l := 0, pIn := 0, allow := 0, pC := 0, pM := 0, pL := 0,
    budget := 0x76543210, towers := [], layers := [], bRun := 0, fullRun := 0, sinceLower := none,
    sinceExcess := none, sinceFull := none, lastLine := 0, lastLineNext := 0, vrHold := false, vrTail := 0,
    tripped := false, margins := [], targets := [], outs := [] }

def Security.reset : Security :=
  { fetch := none, refusals := [], images := [], staged := [], staging := [], counters := [], ownerKeys := [],
    policy := 0, errorState := false, zeroised := false, secrets := false, certSlot := false, debugOpen := false,
    measured := [], ak := 0, issued := 0, negotiated := [], sessions := [], accessed := [] }

def Cap.reset : Cap := { gen := 0, frTowers := 0, leaving := 0, entering := 0, frAmax := [] }

/-- The module before power is switched on: every field at the value the spec gives for reset, or at the value that
log entries 1 to 3 name. -/
def State.reset : State :=
  { pending := [], freeCount := 0, power := .reset, pace := [], crossings := [], channels := [], cores := [],
    mem := .reset, rooms := [], floors := [256, 512, 256, 128, 128, 64, 64, 64],
    ceilings := [1024, 1280, 1024, 512, 512, 512, 512, 128], log := .reset, porter := .reset, steps := .reset,
    params := .reset, red := .reset, exch := .reset, fab := .reset, ports := .reset, snap := none, restore := none,
    lodge := .reset, tests := .reset, gov := .reset, sec := .reset, cap := .reset, outs := [] }

end Sys2Proof.Machine
end

