-- ==== Sys2Proof/Machine/Bits.lean ====
section
/-! DEFINITION. Fields of records, little-endian bytes (00 R5), sparse tables and the CRC-32 of the module's records. -/

namespace Sys2Proof.Machine

/-- Bits [lo+w-1:lo] of a record, as a number. -/
def fld {n : Nat} (x : BitVec n) (lo w : Nat) : Nat := (x.toNat >>> lo) % 2 ^ w

/-- The same field as a bit vector. -/
def bits {n : Nat} (x : BitVec n) (lo w : Nat) : BitVec w := x.extractLsb' lo w

/-- The record with bits [lo+w-1:lo] set to `v`. -/
def putFld {n : Nat} (x : BitVec n) (lo w v : Nat) : BitVec n :=
  (x &&& ~~~(BitVec.ofNat n ((2 ^ w - 1) <<< lo))) ||| BitVec.ofNat n ((v % 2 ^ w) <<< lo)

/-- A record made of fields: (low bit, width, value). -/
def mkRec (n : Nat) (fs : List (Nat × Nat × Nat)) : BitVec n :=
  fs.foldl (fun x f => putFld x f.1 f.2.1 f.2.2) 0

/-- `n` bytes of a number, the least significant first (00 R5). -/
def bytesLE : Nat → Nat → List Byte
  | 0, _ => []
  | n + 1, v => BitVec.ofNat 8 v :: bytesLE n (v / 256)

/-- The number that bytes spell, the first the least significant. -/
def natLE : List Byte → Nat
  | [] => 0
  | b :: bs => b.toNat + 256 * natLE bs

/-- Bytes of a record of `8 * n` bits. -/
def recBytes {w : Nat} (x : BitVec w) : List Byte := bytesLE (w / 8) x.toNat

/-- The bits of a number in base 2, `w` of them, the least significant first. -/
def bitList : Nat → Nat → List Bool
  | 0, _ => []
  | w + 1, v => (v % 2 == 1) :: bitList w (v / 2)

def natOfBits : List Bool → Nat
  | [] => 0
  | b :: bs => b.toNat + 2 * natOfBits bs

/-- Positions of the 1 bits of a mask of `w` bits, ascending. -/
def ones (w : Nat) (v : Nat) : List Nat := (List.range w).filter (fun i => v.testBit i)

def anyBit (w v : Nat) : Bool := v % 2 ^ w != 0

/-! ### Sparse tables -/

def tfind? {α : Type} : Table α → Nat → Option α
  | [], _ => none
  | (j, a) :: t, k => if j == k then some a else tfind? t k

/-- The entry at `k`, or the reset value `d` where none is listed. -/
def tget {α : Type} (t : Table α) (k : Nat) (d : α) : α := (tfind? t k).getD d

def tset {α : Type} : Table α → Nat → α → Table α
  | [], k, a => [(k, a)]
  | (j, b) :: t, k, a =>
    if k < j then (k, a) :: (j, b) :: t
    else if k == j then (k, a) :: t
    else (j, b) :: tset t k a

def tdel {α : Type} (t : Table α) (k : Nat) : Table α := t.filter (fun p => p.1 != k)

def tmod {α : Type} (t : Table α) (k : Nat) (d : α) (f : α → α) : Table α := tset t k (f (tget t k d))

/-- Change an entry only where one is listed. -/
def tupd {α : Type} (t : Table α) (k : Nat) (f : α → α) : Table α :=
  t.map (fun p => if p.1 == k then (p.1, f p.2) else p)

/-! ### Lists -/

def lset {α : Type} : List α → Nat → α → List α
  | [], _, _ => []
  | _ :: as, 0, b => b :: as
  | a :: as, n + 1, b => a :: lset as n b

def lmod {α : Type} : List α → Nat → (α → α) → List α
  | [], _, _ => []
  | a :: as, 0, f => f a :: as
  | a :: as, n + 1, f => a :: lmod as n f

def insertBy {α : Type} (le : α → α → Bool) (a : α) : List α → List α
  | [] => [a]
  | b :: bs => if le a b then a :: b :: bs else b :: insertBy le a bs

/-- A stable sort. -/
def sortBy {α : Type} (le : α → α → Bool) (l : List α) : List α := l.foldr (insertBy le) []

def addNew (l : List Nat) (k : Nat) : List Nat := if l.contains k then l else insertBy (fun a b => a ≤ b) k l

def listMax (l : List Nat) : Nat := l.foldl Nat.max 0
def sumNat (l : List Nat) : Nat := l.foldl (· + ·) 0

/-- The first element with the least key. -/
def argMin {α : Type} (key : α → Nat) : List α → Option α
  | [] => none
  | a :: as => match argMin key as with
    | none => some a
    | some b => if key a ≤ key b then some a else some b

/-- Pieces of `n` elements (the last may be shorter); `fuel` bounds their number. -/
def chunksOf {α : Type} (n : Nat) : Nat → List α → List (List α)
  | 0, _ => []
  | _ + 1, [] => []
  | f + 1, l => l.take n :: chunksOf n f (l.drop n)

def pieces {α : Type} (n : Nat) (l : List α) : List (List α) := chunksOf n l.length l

/-- The list cut or filled with `d` to `n` elements. -/
def fit {α : Type} (n : Nat) (d : α) (l : List α) : List α := l.take n ++ List.replicate (n - l.length) d

/-! ### CRC-32, IEEE 802.3 polynomial, and CRC-32C -/

def crcBits (poly : W32) : Nat → W32 → W32
  | 0, c => c
  | n + 1, c => crcBits poly n (if c.getLsbD 0 then (c >>> 1) ^^^ poly else c >>> 1)

def crcOf (poly : W32) (bs : List Byte) : W32 :=
  ~~~ bs.foldl (fun c b => crcBits poly 8 (c ^^^ b.setWidth 32)) 0xFFFFFFFF

/-- CRC-32 with the IEEE 802.3 polynomial, reflected, initial value and final complement all ones. -/
def crc32 (bs : List Byte) : W32 := crcOf 0xEDB88320 bs

/-- CRC-32C (08 R230, 16 R438). -/
def crc32c (bs : List Byte) : W32 := crcOf 0x82F63B78 bs

/-- Whether bits [31:0] of a record are the CRC of its bytes from byte 0x04 on (13 R349, 04 R116). -/
def recCrcOk {w : Nat} (x : BitVec w) : Bool := crc32 ((recBytes x).drop 4) == bits x 0 32

/-- The record with bits [31:0] set to the CRC of its other bytes. -/
def recSeal {w : Nat} (x : BitVec w) : BitVec w := putFld x 0 32 (crc32 ((recBytes x).drop 4)).toNat

/-- The Gray code of a byte, its inverse, and the code of the next count (02 R35). -/
def gray (b : Byte) : Byte := b ^^^ (b >>> 1)
def ungray (g : Byte) : Byte := let a := g ^^^ (g >>> 4); let b := a ^^^ (a >>> 2); b ^^^ (b >>> 1)
def grayNext (g : Byte) : Byte := gray (ungray g + 1)

/-- Add to a counter of `w` bits that saturates. -/
def satAdd {w : Nat} (x : BitVec w) (n : Nat) : BitVec w := BitVec.ofNat w (min (x.toNat + n) (2 ^ w - 1))

end Sys2Proof.Machine
end

