-- ==== Sys2Proof/Machine/Ops.lean ====
section
/-! DEFINITION. The named operations over State that every family shares: raising an event, reading and writing memory,
numbering dies, and answering an order. -/

namespace Sys2Proof.Machine

/-! ### Dies and domains (00 R11, 02 R29) -/

/-- Timing domain of the logic layer of a core; of a mover, its base die or CELLAR. -/
def coreDie (c : Nat) : Nat := if c < 384 then c / 16 else if c < 392 then 48 + (c - 384) else 62

def towerOf (c : Nat) : Nat := c / 48
def dieHost : Nat := 60
def dieStor : Nat := 61
def dieCellar : Nat := 62
def dieControl : Nat := 63
/-- The pond layer above the logic layer of a core. -/
def pondDie (c : Nat) : Nat := 24 + c / 16
def mereDie (a : Nat) : Nat := 48 + (a - 0x80000000000) / 0x10000000 % 8
def coresOfTower (t : Nat) : List Nat := (List.range 48).map (fun i => t * 48 + i)

/-! ### Module address map (07 R182) -/

inductive Region where
  | stack | cellar | mere | pond | records | window | nothing
  deriving DecidableEq, Repr

/-- Region of an address; the gap above each pond slice belongs to no memory (07 R186). -/
def regionOf (a : Nat) : Region :=
  if a < 0x10000000000 then .stack
  else if 0x20000000000 ≤ a ∧ a < 0x40000000000 then .cellar
  else if 0x80000000000 ≤ a ∧ a < 0x80080000000 then .mere
  else if 0x90000000000 ≤ a ∧ a < 0x90300000000 ∧ a % 0x2000000 < 0x1800000 then .pond
  else if 0xF0000000000 ≤ a ∧ a < 0xF0040000000 then .records
  else if 0x1000000000000 ≤ a ∧ a < 0x1200000000000 then .window
  else .nothing

/-- First address of the pond slice of a core (07 R186). -/
def sliceBase (c : Nat) : Nat := 0x90000000000 + (c / 16) * 0x20000000 + (c % 16) * 0x2000000

/-- The core whose slice holds a pond address. -/
def sliceOf (a : Nat) : Nat := (a - 0x90000000000) / 0x20000000 * 16 + (a - 0x90000000000) % 0x20000000 / 0x2000000

def sliceLen : Nat := 0x1800000
def halfSlice : Nat := 0xC00000
/-- Porter's reserve: the lowest 8 MiB of each Mere slice (07 R193). -/
def inReserve (a : Nat) : Bool := regionOf a == .mere && (a - 0x80000000000) % 0x10000000 < 0x800000
/-- Stack-tier tower region of an address, and the stack and stripe group that hold its 256 B block (07 R207). -/
def towerRegion (a : Nat) : Nat := a / 0x2000000000 % 8
def stackOf (a : Nat) : Nat := 2 * towerRegion a + a / 256 % 2
def stripeGroup (a : Nat) : Nat := a / 512 % 4

/-- The package that holds a 128 B block of the Cellar (07 R211). -/
def cellarPackage (a : Nat) : Nat := (a - 0x20000000000) / 128 % 32

/-- Length of an ECC block of a tier: 256 B of a stack, 128 B of the Cellar (07 R208, R211). -/
def blockLen (a : Nat) : Nat := if a < 0x10000000000 then 256 else 128

/-- Numbers of the blocks of 256 B that [a, a+n) touches. -/
def stackBlocks (a n : Nat) : List Nat := (List.range ((a % 256 + n + 255) / 256)).map (fun i => 256 * (a / 256 + i))

/-! ### Memory cells, in the one canonical form: addresses strictly rising, no 0 byte listed (log 2) -/

def cellsGet : List Host.Cell → Nat → Byte
  | [], _ => 0
  | (j, b) :: t, a => if j == a then b else cellsGet t a

def cellsSet : List Host.Cell → Nat → Byte → List Host.Cell
  | [], a, v => if v = 0 then [] else [(a, v)]
  | (j, b) :: t, a, v =>
    if a < j then (if v = 0 then (j, b) :: t else (a, v) :: (j, b) :: t)
    else if a = j then (if v = 0 then t else (a, v) :: t)
    else (j, b) :: cellsSet t a v

/-- The canonical form: strictly rising from above `lo`, every listed byte other than 0. -/
def cellsWfFrom : Nat → List Host.Cell → Bool
  | _, [] => true
  | lo, (a, v) :: t => decide (lo ≤ a) && decide (v ≠ 0) && cellsWfFrom (a + 1) t

abbrev Memory.wf (m : List Host.Cell) : Prop := cellsWfFrom 0 m = true

def cellsPut (m : List Host.Cell) (a : Nat) : List Byte → List Host.Cell
  | [] => m
  | b :: bs => cellsPut (cellsSet m a b) (a + 1) bs

def cellsRead (m : List Host.Cell) (a : Nat) : Nat → List Byte
  | 0 => []
  | n + 1 => cellsGet m a :: cellsRead m (a + 1) n

/-- Every byte of [a, a+n) becomes 0. -/
def cellsZero (m : List Host.Cell) (a n : Nat) : List Host.Cell := m.filter (fun c => c.1 < a || a + n ≤ c.1)

/-- Addresses of the 64-bit words that [a, a+n) touches; of those it covers whole. -/
def wordsOf (a n : Nat) : List Nat := (List.range ((a % 8 + n + 7) / 8)).map (fun i => 8 * (a / 8 + i))
def wholeWords (a n : Nat) : List Nat := (wordsOf a n).filter (fun w => a ≤ w && w + 8 ≤ a + n)

/-- A write that the memory accepts: a full write of a 64-bit word clears its poison, any write of a word replaces a
single-bit error in it (07 R189, R190); an uncorrectable tier block that is written whole holds good data again. -/
def Mem.write (m : Mem) (a : Nat) (bs : List Byte) : Mem :=
  let full := wholeWords a bs.length
  { m with
    cells := cellsPut m.cells a bs
    rewritten := full.foldl (fun l w => if m.poison.contains w && m.wasPoisoned.contains w then addNew l w else l) m.rewritten
    poison := if m.poison.isEmpty then [] else m.poison.filter (fun w => !full.contains w)
    singles := if m.singles.isEmpty then [] else m.singles.filter (fun w => w + 8 ≤ a || a + bs.length ≤ w)
    badBlocks := if m.badBlocks.isEmpty then [] else
      m.badBlocks.filter (fun b => !(a ≤ b && b + blockLen b ≤ a + bs.length)) }

/-- [a, a+n) is written to +0 with valid check bits (07 R188, R193). -/
def Mem.zero (m : Mem) (a n : Nat) : Mem :=
  { m with
    cells := cellsZero m.cells a n, poison := m.poison.filter (fun w => w + 8 ≤ a || a + n ≤ w)
    singles := m.singles.filter (fun w => w + 8 ≤ a || a + n ≤ w) }

/-- Pseudo-channels of a stripe group marked failed. -/
def failedIn (m : Mem) (k g : Nat) : W16 := tget m.failedPch (4 * k + g) 0
def failCount (x : W16) : Nat := ((List.range 16).filter (fun p => x.getLsbD p)).length

/-- A block of a stripe group with two failed pseudo-channels, which the two cannot both spare, is uncorrectable (07 R209;
which blocks these are is a free value, log 130). -/
def Mem.lostBlock (m : Mem) (b : Nat) : Bool :=
  let x := failedIn m (stackOf b) (stripeGroup b)
  decide (2 ≤ failCount x) && !Config.pairSpared b x

/-- No word and no block of memory can be bad. -/
def Mem.sound (m : Mem) : Bool := m.poison.isEmpty && m.badBlocks.isEmpty && m.failedPch.all (fun p => decide (failCount p.2 < 2))

/-- Stack blocks of [a, a+n) that are lost with two pseudo-channels. -/
def Mem.lostIn (m : Mem) (a n : Nat) : Option Nat :=
  if regionOf a == .stack && m.failedPch.any (fun p => decide (2 ≤ failCount p.2)) then (stackBlocks a n).find? m.lostBlock
  else none

/-- [a, a+n) meets a poisoned word or an uncorrectable block. -/
def Mem.poisoned (m : Mem) (a n : Nat) : Bool :=
  m.poison.any (fun w => a < w + 8 && w < a + n) || m.badBlocks.any (fun b => a < b + blockLen b && b < a + n) ||
  (m.lostIn a n).isSome

/-- A poisoned word or an uncorrectable block in [a, a+n). -/
def Mem.poisonAt (m : Mem) (a n : Nat) : Option Nat :=
  if m.sound then none
  else
    match (m.poison.map (fun w => (w, 8)) ++ m.badBlocks.map (fun b => (b, blockLen b))).findSome?
      (fun (p : Nat × Nat) => if a < p.1 + p.2 && p.1 < a + n then some p.1 else none) with
    | some w => some w
    | none => m.lostIn a n

def rd (s : State) (a n : Nat) : List Byte := cellsRead s.mem.cells a n
def rdNat (s : State) (a n : Nat) : Nat := natLE (rd s a n)
def wr (a : Nat) (bs : List Byte) (s : State) : State := { s with mem := s.mem.write a bs }

/-! ### Events (16) -/

/-- Arguments by size in bytes (16 R430). -/
def a2 (v : Nat) : Nat × Nat := (2, v)
def a4 (v : Nat) : Nat × Nat := (4, v)
def a8 (v : Nat) : Nat × Nat := (8, v)

/-- A list argument after `used` bytes: its whole count, then as many entries as fit, ascending (16 R430). -/
def aList (used : Nat) (l : List Nat) : List (Nat × Nat) :=
  a2 l.length :: ((sortBy (fun a b => a ≤ b) l).take ((38 - used) / 2)).map a2

/-- Table 16-2, and the severities of class 0x7 that 17 gives. -/
def severityOf (code : Nat) : Nat :=
  if [0x1002, 0x2302, 0x2303, 0x4103, 0x4703, 0x6003, 0x6005, 0x6103, 0x6302, 0x6303, 0x6304, 0x6402, 0x6404, 0x8901,
      0x8903, 0x8906, 0x8907, 0x7102, 0x7103, 0x7105, 0x7106].contains code then 0
  else if [0x1004, 0x2101, 0x3101, 0x3103, 0x3201, 0x3401, 0x4301, 0x4504, 0x4802, 0x5002, 0x5104, 0x5201, 0x6001,
      0x6002, 0x6205, 0x8201, 0x8908].contains code then 1
  else if [0x2104, 0x2201, 0x2202, 0x2203, 0x2301, 0x3102, 0x3303, 0x3402, 0x4302, 0x4501, 0x4602, 0x4604, 0x4701,
      0x4702, 0x4801, 0x4902, 0x4903, 0x4904, 0x4906, 0x5001, 0x5101, 0x5103, 0x5301, 0x5302, 0x5303, 0x8102, 0x8202,
      0x8902].contains code then 3
  else if [0x5102, 0x5105, 0x6202, 0x6403, 0x8909].contains code then 4
  else if [0x6004, 0x6006, 0x6203, 0x8101, 0x8103].contains code then 5
  else 2

/-- Planes of Table 16-1. -/
def mgmt : Nat := 0
def ctrl : Nat := 1
def data : Nat := 2

/-- The entry that an event writes (16 R428, R430). -/
def eventOf (code plane die : Nat) (args : List (Nat × Nat)) (s : State) : Event :=
  { seq := s.log.next, step := s.steps.highest, code := BitVec.ofNat 16 code, plane := BitVec.ofNat 2 plane,
    die := BitVec.ofNat 6 die, severity := severityOf code,
    args := fit 40 0 (args.flatMap (fun a => bytesLE a.1 a.2)) }

def paceAt (s : State) (d : Nat) : Pace := tget s.pace d .reset
def setPace (d : Nat) (f : Pace → Pace) (s : State) : State := { s with pace := tmod s.pace d .reset f }

/-- CONTROL, which consumes the event streams and writes the log, is halted by its low-supply detector (02 R28, R32). -/
def controlHalted (s : State) : Bool := (paceAt s 63).halted

/-- Raise an event: a new log entry with the next sequence number, ALERT_N for severity 4 and above, and vector 64
owed for severity 2 and above (16 R427, R432); while Porter is out of service Keeper raises the vector itself. While
CONTROL is halted nobody can read the log: the entry is written with the number it will have, the event counts against
its sender's stream, and the signals wait for the restart (02 R32, log 117). -/
def raise (code plane die : Nat) (args : List (Nat × Nat)) (s : State) : State :=
  let sev := severityOf code
  let still := controlHalted s
  let out := s.porter.porter == 3 && decide (2 ≤ sev) && !still
  { s with
    log := { s.log with
      entries := (eventOf code plane die args s :: s.log.entries).take 262144
      next := s.log.next + 1
      vec64 := if out then false else s.log.vec64 || decide (2 ≤ sev)
      ahead := if still && die != dieControl then tmod s.log.ahead die 0 (· + 1) else s.log.ahead }
    power := { s.power with alert := s.power.alert || (decide (4 ≤ sev) && !still) }
    porter := if out then { s.porter with msix := 192 :: 64 :: s.porter.msix } else s.porter }

def raiseMgmt (code : Nat) (args : List (Nat × Nat)) (s : State) : State := raise code mgmt dieControl args s
def raiseCtrl (code : Nat) (args : List (Nat × Nat)) (s : State) : State := raise code ctrl dieControl args s

/-- ALERT_N after mailbox 64 has read up to `seen` (16 R432). -/
def alertNow (s : State) (seen : Nat) : Bool := s.log.entries.any (fun e => decide (4 ≤ e.severity) && decide (seen < e.seq))

/-! ### Outputs, free values, capability record -/

def emit (o : Out) (s : State) : State := { s with outs := o :: s.outs }

/-- The next number for a free value (log 7). -/
def tick (s : State) : State := { s with freeCount := s.freeCount + 1 }

/-- A change of the capability record ends with the next even CAP_GEN (13 R377); while it is being built it stays odd. -/
def capBump (s : State) : State := if s.cap.gen.getLsbD 0 then s else { s with cap := { s.cap with gen := s.cap.gen + 2 } }

/-- A state transformer under a condition. -/
def when_ (c : Bool) (f : State → State) (s : State) : State := if c then f s else s

/-- Fold a transformer over a list, the first element first. -/
def forEach {α : Type} (l : List α) (f : α → State → State) (s : State) : State := l.foldl (fun s a => f a s) s

/-! ### Powered parts -/

def inReg (s : State) (d : Nat) : Bool := tget s.power.domains d .off == .inRegulation
def towerOn (s : State) (t : Nat) : Bool := inReg s t
def pondOn (s : State) (t : Nat) : Bool := inReg s (8 + t)

/-- A domain's pacer runs: powered and not halted (02 R28, R39). -/
def pacerRuns (s : State) (d : Nat) : Bool := !(paceAt s d).gated && !(paceAt s d).halted

/-- A domain's event stream is 128 events ahead of what CONTROL has consumed: its units stall (02 R32). -/
def eventsStalled (s : State) (d : Nat) : Bool := decide (128 ≤ tget s.log.ahead d 0)

/-- A domain does work: its pacer runs, and no unit waits for the event receiver (02 R28, R32, R39). -/
def domainRuns (s : State) (d : Nat) : Bool := pacerRuns s d && !eventsStalled s d

/-- Porter runs its commands and passes. -/
def porterRuns (s : State) : Bool := (s.porter.porter == 1 || s.porter.porter == 2) && domainRuns s 63

/-- Keeper answers: running, not in its error state. -/
def keeperRuns (s : State) : Bool := s.porter.keeper == 1 && domainRuns s 63

/-- Keeper's governor and watches run: KEEPER running, or in its error state (17 R477). -/
def keeperAlive (s : State) : Bool := (s.porter.keeper == 1 || s.porter.keeper == 2) && domainRuns s 63

/-- The receivers of a domain see its alive counter change (02 R35, R37). -/
def senderMoved (d : Nat) (s : State) : State :=
  { s with crossings := s.crossings.map (fun p => if p.1 / 4 % 64 == d then (p.1, { p.2 with moved := true }) else p) }

def chan (s : State) (c : Nat) : Channel := tget s.channels c .reset
def chanState (s : State) (c : Nat) : Nat := (chan s c).state.toNat
def present (s : State) (c : Nat) : Bool := chanState s c != 5
def coreAt (s : State) (c : Nat) : Core := tget s.cores c .reset
def setCore (c : Nat) (f : Core → Core) (s : State) : State := { s with cores := tmod s.cores c .reset f }
def setChan (c : Nat) (f : Channel → Channel) (s : State) : State := { s with channels := tmod s.channels c .reset f }

/-- Point in force of a tower's logic layers. -/
def pointOf (s : State) (t : Nat) : Nat := (paceAt s (3 * t)).point.toNat

/-! ### Ways to memory: crossings between domains (02 R31, R37, R39, 07 R194, R195) -/

/-- Base dies from one slice to another, the short way; at four hops even slices ascend and odd ones descend. -/
def ringPath (a b : Nat) : List Nat :=
  let up := (b + 8 - a) % 8
  if up < 4 || (up == 4 && a % 2 == 0) then (List.range (up + 1)).map (fun i => (a + i) % 8)
  else (List.range (8 - up + 1)).map (fun i => (a + 8 - i) % 8)

/-- The base die that holds an address of the Mere or of the stack tier (07 R182, R207). -/
def slicePast (a : Nat) : Option Nat :=
  if regionOf a == .mere then some ((a - 0x80000000000) / 0x10000000 % 8)
  else if regionOf a == .stack then some (towerRegion a) else none

/-- Crossings, as (receiver, sender), from a die bridged to base die `home` to base die `t`; a mover of `home` has none
of its own. -/
def bridged (die : Option Nat) (home t : Nat) : List (Nat × Nat) :=
  let dies := ringPath home t
  (match die with | some d => [(d, 48 + home)] | none => []) ++ (dies.zip (dies.drop 1)).map (fun p => (48 + p.1, 48 + p.2))

/-- Crossings that a core or mover waits on for an address. CELLAR is bridged to B3 and B4 and takes the nearer one
(DESIGN CHOICE, log 120). -/
def pathTo (c a : Nat) : List (Nat × Nat) :=
  match slicePast a with
  | none => if c < 384 && regionOf a == .pond then [(coreDie c, pondDie c)] else []
  | some t =>
    if c < 384 then bridged (some (coreDie c)) (towerOf c) t
    else if c == 0x188 then bridged (some dieCellar) (if t < 4 then 3 else 4) t
    else bridged none (c - 0x180) t

/-- Crossings that the HOST die, bridged to B0, or the STOR die, bridged to B7, waits on (07 R194). -/
def portPath (f : PortFn) (a : Nat) : List (Nat × Nat) :=
  match slicePast a with
  | none => []
  | some t => match f with
    | .host => bridged (some dieHost) 0 t
    | .stor => bridged (some dieStor) 7 t

/-- Crossings that LINKn, bridged to B(2n) and B(2n+1), waits on; it takes the nearer base die, the lower one of two as near
(07 R194; DESIGN CHOICE, log 120). -/
def linkPath (d a : Nat) : List (Nat × Nat) :=
  match slicePast a with
  | none => []
  | some t =>
    let b := 2 * (d - 56)
    bridged (some d) (if (ringPath (b + 1) t).length < (ringPath b t).length then b + 1 else b) t

/-- A new request on the data crossing fails at once: fenced, stale or gated (02 R37, R39). -/
def crossingShut (s : State) (recv send : Nat) : Bool :=
  (paceAt s send).xgated || (paceAt s send).draining ||
  s.crossings.any (fun p => p.1 == recv * 256 + send * 4 && p.2.mark != .normal)

/-- The error of a shut crossing carries cause gated (02 R39). -/
def wayGated (s : State) (l : List (Nat × Nat)) : Bool := l.any (fun p => (paceAt s p.2).xgated || (paceAt s p.2).draining)

def wayShut (s : State) (l : List (Nat × Nat)) : Bool := l.any (fun p => crossingShut s p.1 p.2)

/-- CORE_MAP and CHANNEL_STATE of the capability record, as numbers (13 Table 13-12). -/
def coreMap (s : State) : Nat := natOfBits ((List.range 384).map (fun c => present s c))
def channelBits (s : State) : Nat := natOfBits ((List.range 384).flatMap (fun c => bitList 3 (chanState s c)))

/-- CORE_MAP_CHECK: CRC-32 over the map, then the 384 channel states (02 R50). -/
def coreMapCheck (s : State) : W32 := crc32 (bytesLE 48 (coreMap s) ++ bytesLE 144 (channelBits s))

end Sys2Proof.Machine
end

