-- ==== Sys2Proof/Machine/Rooms.lean ====
section
/-! DEFINITION. Rooms: allocation, versions, pins and release (07 R197 to R206). -/

namespace Sys2Proof.Machine

/-- Statuses of Table 13-8. -/
def stDone : Nat := 0x00
def stAccepted : Nat := 0x01
def stDeferred : Nat := 0x02
def stSuperseded : Nat := 0x03
def stPartial : Nat := 0x04
def stBadOpcode : Nat := 0x10
def stBadArg : Nat := 0x11
def stNoRoom : Nat := 0x12
def stNotOwner : Nat := 0x13
def stWrongState : Nat := 0x14
def stDeviceFault : Nat := 0x20
def stPeerLost : Nat := 0x21
def stIndeterminate : Nat := 0x22
def stDenied : Nat := 0x30

def roomAt (s : State) (id : Nat) : Option Room := tfind? s.rooms id
def updRoom (id : Nat) (f : Room → Room) (s : State) : State := { s with rooms := tupd s.rooms id f }

def pageBytes : Nat := 4096
def mib : Nat := 0x100000
def slotBytes (r : Room) : Nat := r.pages * pageBytes
/-- The room's extent is its quota (07 R200). -/
def extent (r : Room) : Nat := r.slots * slotBytes r
def roomEnd (r : Room) : Nat := r.base.toNat + extent r

/-! ### Allocation (07 R197, R198, R205, 14 R395) -/

def classUse (s : State) (c : Nat) : Nat :=
  sumNat (s.rooms.map (fun p => if p.2.home == 0 && p.2.cls.toNat == c then extent p.2 else 0))

def sliceUsed (s : State) (k : Nat) : Nat :=
  sumNat (s.rooms.map (fun p => if p.2.home == 0 && p.2.homeIdx.toNat == k then extent p.2 else 0))

def floorOf (s : State) (c : Nat) : Nat := s.floors.getD c 0 * mib
def ceilOf (s : State) (c : Nat) : Nat := s.ceilings.getD c 0 * mib

/-- Mere bytes outside Porter's reserve. -/
def mereRoomBytes : Nat := 1984 * mib

/-- Space of the pool that no floor holds and no class has drawn. -/
def poolFree (s : State) : Nat :=
  mereRoomBytes - sumNat ((List.range 8).map (fun c => floorOf s c + (classUse s c - floorOf s c)))

/-- The class stays within its ceiling and takes from the pool only what exceeds its unused floor (07 R205 item 2). -/
def quotaOk (s : State) (c size : Nat) : Bool :=
  let u := classUse s c
  decide (u + size ≤ ceilOf s c) && decide ((u + size - floorOf s c) - (u - floorOf s c) ≤ poolFree s)

/-- Whether a class may live in the stack tier, in the Cellar (07 Table 7-4). -/
def stackClass (c : Nat) : Bool := c != 4 && c != 7
def cellarClass (c : Nat) : Bool := c != 4 && c != 7 && c != 5

/-- The lowest address of [lo, hi) with `size` free bytes: no room and no withdrawn page there (log 12). -/
def freeAt (s : State) (lo hi size : Nat) : Option Nat :=
  let taken := (s.rooms.map (fun p => (p.2.base.toNat, roomEnd p.2))) ++ s.mem.withdrawn.map (fun a => (a, a + pageBytes))
  let taken := taken.filter (fun t => lo ≤ t.1 && t.1 < hi)
  let cands := lo :: taken.map (·.2)
  let ok := cands.filter (fun c => c + size ≤ hi && taken.all (fun t => t.2 ≤ c || c + size ≤ t.1))
  argMin id ok

def sliceRange (k : Nat) : Nat × Nat := (0x80000000000 + k * 0x10000000 + 0x800000, 0x80000000000 + (k + 1) * 0x10000000)

/-- A tower region one of whose stacks has every pseudo-channel failed holds no usable memory (14 R395). -/
def regionUsable (s : State) (t : Nat) : Bool :=
  [2 * t, 2 * t + 1].all (fun k => !(List.range 4).all (fun g => tget s.mem.failedPch (k * 4 + g) 0 == 0xFFFF))

def inSlice (s : State) (c size k : Nat) : Option (Nat × Nat × Nat) :=
  if quotaOk s c size then (freeAt s (sliceRange k).1 (sliceRange k).2 size).map (fun b => (0, k, b)) else none

def inRegion (s : State) (size t : Nat) : Option (Nat × Nat × Nat) :=
  if regionUsable s t then (freeAt s (t * 0x2000000000) ((t + 1) * 0x2000000000) size).map (fun b => (1, t, b)) else none

/-- Slices in ascending order of used space, ties to the lower number (07 R205 item 1). -/
def slicesByUse (s : State) : List Nat := sortBy (fun a b => sliceUsed s a ≤ sliceUsed s b) (List.range 8)

/-- A room request: class, home (13 Table 13-7), index, slots, fallback, pages. -/
structure RoomReq where
  cls : Nat
  home : Nat
  index : Nat
  slots : Nat
  fallback : Bool
  pages : Nat
  deriving DecidableEq, Repr

/-- Home, home index, base and FELL that the request is granted (07 R205). -/
def placeRoom (s : State) (q : RoomReq) : Option (Nat × Nat × Nat × Bool) :=
  let size := q.slots * q.pages * pageBytes
  let mere := if q.home == 0 then inSlice s q.cls size q.index
    else if q.home == 1 then (slicesByUse s).findSome? (inSlice s q.cls size) else none
  if q.home ≤ 1 then
    match mere with
    | some (h, k, b) => some (h, k, b, false)
    | none =>
      if q.fallback && stackClass q.cls then
        (inRegion s size (if q.home == 0 then q.index else 0)).map (fun p => (p.1, p.2.1, p.2.2, true))
      else none
  else if q.home == 2 then (inRegion s size q.index).map (fun p => (p.1, p.2.1, p.2.2, false))
  else if s.power.cellarWithdrawn then none
  else (freeAt s 0x20000000000 0x40000000000 size).map (fun b => (2, 0, b, false))

/-- The home is one that Table 7-4 gives the class. -/
def homeAllowed (q : RoomReq) : Bool := q.home ≤ 1 || (q.home == 2 && stackClass q.cls) || (q.home == 3 && cellarClass q.cls)

/-- The lowest room identifier from 1 on that is not in use, 0 behind all others: a locator of 0 names nothing (07 R199, 08
R218; log 12). -/
def freeRoomId (s : State) : Option Nat :=
  match ((List.range (s.rooms.length + 1)).map (· + 1)).find? (fun i => (roomAt s i).isNone) with
  | some i => if i ≤ 0xFFFE then some i else if (roomAt s 0).isNone then some 0 else none
  | none => none

def newRoom (q : RoomReq) (owner : W16) (p : Nat × Nat × Nat × Bool) : Room :=
  { cls := BitVec.ofNat 3 q.cls, home := BitVec.ofNat 2 p.1, homeIdx := BitVec.ofNat 3 p.2.1, slots := q.slots,
    fell := p.2.2.2, releasing := false, owner := owner, current := 0, fresh := 0, writers := 0,
    pins := List.replicate 5 0, curSlot := 0, freshSlot := 0, base := BitVec.ofNat 64 p.2.2.1, pages := q.pages,
    slotVer := List.replicate 5 0, slotStep := List.replicate 5 0, commits := 0, lastOpened := 0, active := 0, freshStep := 0, former := [], unapplied := [],
    engines := false }

/-- Grant a request: the room identifier and the state with the room, or none (NO_ROOM, nothing allocated). -/
def grantRoom (q : RoomReq) (owner : W16) (s : State) : Option (Nat × State) :=
  match placeRoom s q, freeRoomId s with
  | some p, some id => some (id, { s with rooms := tset s.rooms id (newRoom q owner p) })
  | _, _ => none

/-! ### Versions and pins (07 R200 to R204) -/

def slotOfVer (r : Room) (v : Nat) : Option Nat :=
  if v == 0 then none else (List.range r.slots).find? (fun k => (r.slotVer.getD k 0).toNat == v)

/-- The room holds version `v` in a slot. -/
def holdsVer (r : Room) (v : Nat) : Bool := (slotOfVer r v).isSome

/-- Address that a stream address in slot 0 reaches for a version (07 R200). -/
def steer (r : Room) (v a : Nat) : Nat := a + ((slotOfVer r v).getD 0) * slotBytes r

def nextVer (v : W16) : W16 := if v = 0xFFFF then 1 else v + 1

def pinned (r : Room) : Bool := r.pins.any (· != 0)

/-- A slot that holds no version. -/
def freeSlot (r : Room) : Option Nat :=
  (List.range r.slots).find? (fun k => r.slotVer.getD k 0 == 0 && r.pins.getD k 0 == 0)

/-- Open a fresh version with its writers, or none where the dispatch is held (07 R201, R204). -/
def openVer (r : Room) (writers : Nat) (step : W64) : Option Room :=
  if r.fresh != 0 then none
  else
    let v := nextVer r.lastOpened
    let k? := if r.slots == 1 then (if pinned r then none else some 0) else freeSlot r
    k?.map (fun k => { r with
      fresh := v, lastOpened := v, writers := BitVec.ofNat 16 writers, freshSlot := k,
      slotVer := if r.slots == 1 && r.current != 0 then r.slotVer else lset r.slotVer k v, freshStep := step })

/-- Listed memory of a one-slot room. -/
def slotCells (r : Room) (s : State) : List Host.Cell :=
  s.mem.cells.filter (fun c => decide (r.base.toNat ≤ c.1) && decide (c.1 < r.base.toNat + slotBytes r))

/-- The room `r` whose fresh version `openVer` has opened takes its place in the table; one opened in place keeps the former
bytes of its slot (07 R203). -/
def putOpened (id : Nat) (r : Room) (s : State) : State :=
  updRoom id (fun _ => if r.slots == 1 then { r with former := slotCells r s } else r) s

/-- The slot that the fresh version is written in. -/
def freshBase (r : Room) : Nat := r.freshSlot * slotBytes r

/-- Commit in one beat of the home: CURRENT takes the fresh number, the former CURRENT's slot is freed unless pinned. -/
def commitVer (r : Room) : Room :=
  let sv := if r.slots == 1 then r.slotVer
    else if r.current != 0 && r.pins.getD r.curSlot 0 == 0 then lset r.slotVer r.curSlot 0 else r.slotVer
  { r with current := r.fresh, fresh := 0, writers := 0, curSlot := r.freshSlot, slotVer := lset sv r.freshSlot r.fresh,
           slotStep := lset r.slotStep r.freshSlot r.freshStep, commits := r.commits + 1, freshStep := 0, former := [] }

def pinVer (r : Room) (v : Nat) : Room :=
  match slotOfVer r v with
  | some k => { r with pins := lmod r.pins k (· + 1) }
  | none => r

def unpinVer (r : Room) (v : Nat) : Room :=
  match slotOfVer r v with
  | none => r
  | some k =>
    let pins := lmod r.pins k (· - 1)
    { r with pins := pins,
             slotVer := if pins.getD k 0 == 0 && v != r.current.toNat && v != r.fresh.toNat then lset r.slotVer k 0 else r.slotVer }

/-- A RELEASING room returns to the free pool once its last writer has ended and its last pin has dropped (07 R206). -/
def settleRelease (id : Nat) (s : State) : State :=
  match roomAt s id with
  | some r => if r.releasing && !pinned r && r.active == 0 then { s with rooms := tdel s.rooms id } else s
  | none => s

def pinRoom (id v : Nat) (s : State) : State := updRoom id (pinVer · v) s
def unpinRoom (id v : Nat) (s : State) : State := settleRelease id (updRoom id (unpinVer · v) s)

/-- One byte of an abandoned version opened in place: the former value, or what a writer wrote; which is a free value
(07 R203, log 8). -/
def mixByte (former : List Host.Cell) (a : Nat) (s : State) : State :=
  if Config.keepsFormer s.freeCount a then { s with mem := s.mem.write a [cellsGet former a] } else s

/-- Every byte of the slot that its writers changed is mixed. -/
def mixSlot (r : Room) (s : State) : State :=
  let changed := ((slotCells r s ++ r.former).map (fun c => c.1)).filter (fun a => cellsGet s.mem.cells a != cellsGet r.former a)
  tick (forEach changed (mixByte r.former) s)

/-- Abandon the fresh version (07 R203): its slot is freed; in a one-slot room each byte keeps its former value or what a
writer wrote. -/
def abandonFresh (id : Nat) (s : State) : State :=
  match roomAt s id with
  | none => s
  | some r =>
    if r.fresh == 0 then s
    else
      let s := if r.slots == 1 then mixSlot r s else s
      settleRelease id (updRoom id (fun r => { r with
        fresh := 0, writers := 0, freshStep := 0, former := [],
        slotVer := if r.slots == 1 && r.current != 0 then r.slotVer else lset r.slotVer r.freshSlot 0,
        unapplied := r.unapplied.filter (fun u => u.1 != r.fresh) }) s)

/-- The LINK dies execute a request ring's newly committed version when none is being executed (11 R303). -/
def startRings (id : Nat) (s : State) : State :=
  match roomAt s id with
  | none => s
  | some r =>
    if s.fab.rings.any (fun p => p.2.room.toNat == id && p.2.version == 0) then
      pinRoom id r.current.toNat { s with fab := { s.fab with
        rings := s.fab.rings.map (fun p => if p.2.room.toNat == id && p.2.version == 0
          then (p.1, { p.2 with version := r.current, next := 0 }) else p) } }
    else s

/-- Commit a room's fresh version. -/
def commitRoom (id : Nat) (s : State) : State := startRings id (updRoom id commitVer s)

/-- A writer ended with DONE: WRITERS falls, and at 0 the room commits (07 R201). -/
def writerDone (id : Nat) (s : State) : State :=
  match roomAt s id with
  | none => s
  | some r =>
    let s := updRoom id (fun r => { r with writers := r.writers - 1, active := r.active - 1 }) s
    settleRelease id (if r.fresh != 0 && r.writers == 1 then commitRoom id s else s)

/-- A writer ended otherwise: WRITERS stays. The fresh version of a room that is RELEASING is abandoned with its last
writer (07 R206 item 3). -/
def writerEnded (id : Nat) (s : State) : State :=
  match roomAt s id with
  | none => s
  | some r =>
    let s := updRoom id (fun r => { r with active := r.active - 1 }) s
    if r.releasing && r.active == 1 then abandonFresh id s else settleRelease id s

/-! ### Release (07 R206) -/

/-- End the registration of a request ring; the version being executed is unpinned (11 R303). -/
def endRing (k : Nat) (s : State) : State :=
  match tfind? s.fab.rings k with
  | none => s
  | some r =>
    let s := { s with fab := { s.fab with rings := tdel s.fab.rings k } }
    if r.version == 0 then s else unpinRoom r.room.toNat r.version.toNat s

/-- The other uses of a room end: apertures unmapped, exports withdrawn, rings no longer registered
(07 R206 item 1, 11 R301, R303, 12 R325). -/
def removeUses (id : Nat) (s : State) : State :=
  let mapped := (s.ports.apertures.filter (fun p => fld p.2 112 16 == id)).map (fun p => p.1)
  let s := { s with
    ports := { s.ports with
      apertures := s.ports.apertures.filter (fun p => fld p.2 112 16 != id)
      apRaised := s.ports.apRaised.filter (fun a => !mapped.contains a) }
    fab := { s.fab with
      exports := s.fab.exports.filter (fun p => fld p.2 112 16 != id)
      receive := s.fab.receive.filter (fun p => p.2.toNat != id) } }
  forEach ((s.fab.rings.filter (fun p => p.2.room.toNat == id)).map (·.1)) endRing s

/-- Release without refusal: at once where nothing holds the room, else RELEASING. -/
def releaseNow (id : Nat) (s : State) : State :=
  settleRelease id (updRoom id (fun r => { r with releasing := true }) s)

/-- The 64-byte room-table entry (07 Table 7-5). -/
def roomEntry (id : Nat) (r : Room) : BitVec 512 :=
  mkRec 512 [(496, 16, id), (493, 3, r.cls.toNat), (491, 2, r.home.toNat), (488, 3, r.homeIdx.toNat), (485, 3, r.slots - 1),
    (484, 1, 1), (483, 1, r.fell.toNat), (482, 1, r.releasing.toNat), (464, 16, r.owner.toNat),
    (448, 16, r.current.toNat), (432, 16, r.fresh.toNat), (416, 16, r.writers.toNat),
    (411, 5, natOfBits (r.pins.map (· != 0))),
    (406, 5, natOfBits ((List.range 5).map (fun k => decide (k < r.slots) &&
      ((r.current != 0 && r.curSlot == k) || (r.fresh != 0 && r.freshSlot == k) || r.pins.getD k 0 != 0)))),
    (403, 3, r.curSlot), (400, 3, r.freshSlot), (320, 64, r.base.toNat), (288, 32, r.pages),
    (272, 16, (r.slotVer.getD 4 0).toNat), (240, 16, (r.slotVer.getD 3 0).toNat), (224, 16, (r.slotVer.getD 2 0).toNat),
    (208, 16, (r.slotVer.getD 1 0).toNat), (192, 16, (r.slotVer.getD 0 0).toNat), (128, 64, r.commits.toNat)]

/-- The entry of an identifier that no room has: VALID, COMMITS and the reserved fields are 0, the rest is open (07 Table 7-5; log 82). -/
def vacantEntry (id : Nat) : BitVec 512 :=
  [(484, 1), (480, 2), (384, 16), (256, 16), (128, 64), (0, 128)].foldl (fun x f => putFld x f.1 f.2 0) (Config.vacantEntry id)

/-- The room whose extent holds an address, if any. -/
def roomHolding (s : State) (a : Nat) : Option (Nat × Room) :=
  (s.rooms.find? (fun p => p.2.base.toNat ≤ a && a < roomEnd p.2))

/-- The event of a read by `c` that meets poison at `a` (07 R189, R196, R209, R211). -/
def poisonEvent (c a : Nat) (s : State) : State :=
  match regionOf a with
  | .pond => raise 0x3102 data (pondDie (sliceOf a)) [a2 c, a8 a] s
  | .mere => raise 0x3202 data (mereDie a) [a8 a, a2 (match roomHolding s a with | some r => r.1 | none => 0xFFFF)] s
  | .stack => raise 0x3303 data (48 + towerRegion a) [a8 a] s
  | .cellar => raise 0x3402 data dieCellar [a8 a] s
  | _ => s

/-- A read that no core or mover makes: its event, where it meets poison. -/
def readEvent (a n : Nat) (s : State) : State :=
  match s.mem.poisonAt a n with
  | some w => poisonEvent 0xFFFF w s
  | none => s

end Sys2Proof.Machine
end

