-- ==== Sys2Proof/Machine/Mbx.lean ====
section
/-! DEFINITION. Orders and their completions: who may send an opcode, the checks every order passes, and the posting of
its completion (13 R343 to R363). -/

namespace Sys2Proof.Machine

/-! ### Opcodes (13 Table 13-7) -/

/-- Parties of the From column. -/
inductive Party where
  | unbound | owner | observer | bmc | fm
  deriving DecidableEq, Repr

/-- Authority classes of the Class column. -/
inductive OpClass where
  | none | job | safety | membership | firmware
  deriving DecidableEq, Repr

/-- An opcode's row: who may send it, its class, and whether its extended argument is an input or an output. -/
structure OpRow where
  who : List Party
  cls : OpClass
  input : Bool
  output : Bool
  deriving DecidableEq, Repr

def anyParty : List Party := [.unbound, .owner, .observer, .bmc, .fm]
def anySession : List Party := [.owner, .observer]

def opRow (code : Nat) : Option OpRow :=
  let O : List Party := [.owner]
  let OB : List Party := [.owner, .bmc]
  let F : List Party := [.fm]
  let r (w : List Party) (c : OpClass) : Option OpRow := some ⟨w, c, false, false⟩
  let i (w : List Party) (c : OpClass) : Option OpRow := some ⟨w, c, true, false⟩
  let o (w : List Party) (c : OpClass) : Option OpRow := some ⟨w, c, false, true⟩
  match code with
  | 0x0100 => r anyParty .none
  | 0x0101 => r [.unbound] .none
  | 0x0102 => r anySession .none
  | 0x0103 => r O .job
  | 0x0201 => r O .job
  | 0x0202 => r O .job
  | 0x0203 => r O .job
  | 0x0204 => r O .job
  | 0x0205 => o anySession .none
  | 0x0206 => r O .job
  | 0x0207 => r O .job
  | 0x0208 => r O .job
  | 0x0301 => i O .job
  | 0x0302 => r O .job
  | 0x0303 => r O .job
  | 0x0401 => i O .job
  | 0x0402 => r O .job
  | 0x0403 => r OB .safety
  | 0x0404 => r OB .safety
  | 0x0501 => r F .membership
  | 0x0502 => i F .membership
  | 0x0503 => r F .membership
  | 0x0504 => i F .membership
  | 0x0505 => r F .membership
  | 0x0506 => r O .job
  | 0x0507 => r O .job
  | 0x0508 => i F .membership
  | 0x0509 => i F .membership
  | 0x050A => i F .membership
  | 0x050B => r F .membership
  | 0x050C => r F .membership
  | 0x0601 => r OB .safety
  | 0x0602 => r OB .job
  | 0x0603 => r OB .safety
  | 0x0604 => r [.bmc] .safety
  | 0x0605 => r O .job
  | 0x0701 => r OB .job
  | 0x0702 => r OB .job
  | 0x0801 => i OB .firmware
  | 0x0802 => r OB .firmware
  | 0x0803 => i [.bmc] .firmware
  | 0x0804 => i [.bmc] .firmware
  | 0x0805 => r OB .firmware
  | 0x0806 => o (.bmc :: anySession) .none
  | 0x0901 => r O .job
  | 0x0902 => r O .job
  | 0x0903 => i O .job
  | 0x0904 => r O .job
  | 0x0905 => r [.owner, .fm] .membership
  | 0x0906 => r F .membership
  | 0x0907 => r O .job
  | 0x0A01 => o (.bmc :: anySession) .none
  | 0x0A02 => o (.bmc :: .fm :: anySession) .none
  | 0x0A03 => o anySession .none
  | 0x0A04 => o (.bmc :: anySession) .none
  | 0x0A05 => o (.bmc :: .fm :: anySession) .none
  | _ => .none

/-! ### Mailboxes -/

def mbAt (s : State) (n : Nat) : Mailbox := tget s.porter.mailboxes n .reset
def setMb (n : Nat) (f : Mailbox → Mailbox) (s : State) : State :=
  { s with porter := { s.porter with mailboxes := tmod s.porter.mailboxes n .reset f } }

/-- Mailboxes 48 to 63 are the STOR function's when STOR_ROLE is 0x02 (13 Table 13-1). -/
def fnOfMb (s : State) (n : Nat) : PortFn := if 48 ≤ n && n < 64 && s.ports.storRole == 2 then .stor else .host

def vectorOf (s : State) (n : Nat) : Nat := (match fnOfMb s n with | .host => 0 | .stor => 128) + n

def ownerSession (s : State) : W16 :=
  match s.porter.sessions.find? (fun p => p.2.owner) with
  | some p => BitVec.ofNat 16 p.1
  | none => 0

def sessionOfMb (s : State) (n : Nat) : W16 :=
  if n == 64 then 0xFFFD else if n == 65 then 0xFFFE else (mbAt s n).session

def partyOf (s : State) (n : Nat) : Party :=
  if n == 64 then .bmc else if n == 65 then .fm
  else
    let v := (mbAt s n).session
    if v == 0 then .unbound
    else match tfind? s.porter.sessions v.toNat with
      | some q => if q.owner then .owner else .observer
      | none => .unbound

/-! ### Completions -/

/-- What a completion carries. -/
structure Reply where
  st : Nat
  detail : Nat := 0
  r0 : Nat := 0
  r1 : Nat := 0
  r2 : Nat := 0
  out : Option (List Byte) := none
  deriving DecidableEq, Repr

/-- An order completes now, or waits. -/
inductive Ans where
  | done (r : Reply)
  | wait (w : Wait)
  deriving DecidableEq, Repr

abbrev Handler := Pending → State → Ans × State

def ok (s : State) : Ans × State := (.done { st := stDone }, s)
def reply (st : Nat) (s : State) : Ans × State := (.done { st := st }, s)
/-- BAD_ARG at an inline field: byte offset in the entry, INLINE beginning at byte 0x04 (13 R353). -/
def badInline (off : Nat) (s : State) : Ans × State := (.done { st := stBadArg, detail := 4 + off }, s)
/-- BAD_ARG in the extended argument, at a byte offset (13 R353). -/
def badExt (off : Nat) (s : State) : Ans × State := (.done { st := stBadArg, detail := 0x8000 + min (off / 128) 0x7FFF }, s)

/-- The completion entry of a reply (13 R346, R351); PHASE and SQ_HEAD are those of a host mailbox. -/
def cplOf (p : Pending) (r : Reply) (s : State) : Cpl :=
  let host := decide (p.cmd.mailbox.val < 64)
  { cid := p.cmd.cid, opcode := p.opcode, status := BitVec.ofNat 8 r.st, phase := host && (mbAt s p.cmd.mailbox.val).phase,
    sqHead := if host then (mbAt s p.cmd.mailbox.val).sqHead else 0, detail := BitVec.ofNat 16 r.detail, session := p.session,
    pass := p.pass, result0 := BitVec.ofNat 64 r.r0, result1 := BitVec.ofNat 64 r.r1, result2 := BitVec.ofNat 64 r.r2 }

/-- A completion ring with one entry more, at the next completion index; PHASE turns over at its end (13 R346). -/
def withCpl (e : Cpl) (m : Mailbox) : Mailbox :=
  { m with cq := tset m.cq m.cqTail.toNat e, cqTail := m.cqTail + 1, phase := if m.cqTail == 63 then !m.phase else m.phase }

/-- An order with IRQ set makes its mailbox's vector due at the end of the pass (13 R348). -/
def oweIrq (p : Pending) (s : State) : State :=
  if p.cmd.irq then { s with porter := { s.porter with irqDue := addNew s.porter.irqDue p.cmd.mailbox.val } } else s

/-- Post a completion entry: at the next completion index of a host mailbox, or in a message (13 R346, R351). -/
def post (p : Pending) (r : Reply) (s : State) : State :=
  if p.cmd.mailbox.val < 64 then oweIrq p (setMb p.cmd.mailbox.val (withCpl (cplOf p r s)) s)
  else emit (.mctpCpl p.cmd.mailbox.val (cplOf p r s) (r.out.getD [])) (setMb p.cmd.mailbox.val (fun m => { m with taken := m.taken - 1 }) s)

/-- Write the output argument, cut at ARG_LEN (13 R350), and post. -/
def complete (p : Pending) (r : Reply) (s : State) : State :=
  match r.out with
  | none => post p r s
  | some bs =>
    let n := p.cmd.argLen.toNat
    let cut := bs.take n
    let r := { r with out := some cut, st := if n < bs.length && r.st == stDone then stPartial else r.st }
    if p.cmd.mailbox.val < 64 then
      match roomAt s p.cmd.argRoom.toNat with
      | some rm => post p r (wr (rm.base.toNat + p.cmd.argOffset.toNat) cut s)
      | none => post p r s
    else post p r s

/-- MSI-X vectors of the mailboxes that owe one, each at most once (13 R348), then vector 64 of each function (16 R432). -/
def raiseIrqs (s : State) : State :=
  let vs := s.porter.irqDue.map (vectorOf s)
  let v64 := if s.log.vec64 then [64, 192] else []
  { s with porter := { s.porter with msix := (vs ++ v64).reverse ++ s.porter.msix, irqDue := [] },
           log := { s.log with vec64 := false } }

/-- An order that was waiting completes. -/
def finish (sel : Pending → Bool) (r : Reply) (s : State) : State :=
  match s.porter.outstanding.find? sel with
  | none => s
  | some p =>
    let s := { s with porter := { s.porter with outstanding := s.porter.outstanding.filter (fun q => !(q == p)) } }
    let s := if p.cmd.mailbox.val < 64 && p.cmd.argLen != 0 && p.cmd.argVersion != 0
      then unpinRoom p.cmd.argRoom.toNat p.cmd.argVersion.toNat s else s
    complete p r s

def finishAll : Nat → (Pending → Bool) → Reply → State → State
  | 0, _, _, s => s
  | n + 1, sel, r, s => if s.porter.outstanding.any sel then finishAll n sel r (finish sel r s) else s

/-! ### Checks of every order (13 R350, R352, R358, R360, R361) -/

/-- Owner sessions may send firmware where the policy's O_FW permits (17 R474). -/
def ownerFirmware (s : State) : Bool := (bits s.sec.policy 415 1) == 1

/-- Status that the sender's standing gives: 0 when the order may go on. -/
def standing (s : State) (n code : Nat) (row : OpRow) (index : BitVec 6) : Nat :=
  let p := partyOf s n
  if p == .unbound then
    if code == 0x0100 then 0
    else if code == 0x0101 then (if index == 0 then 0 else stWrongState)
    else stWrongState
  else if (code == 0x0801 || code == 0x0802) && p == .owner then (if ownerFirmware s then 0 else stDenied)
  else if row.who.contains p then 0
  else if p == .observer && row.who.contains .owner then stNotOwner
  else stDenied

/-- The extended argument's room (13 R350): what is wrong with it, if anything. -/
def argBad (s : State) (row : OpRow) (p : Pending) : Option Reply :=
  let c := p.cmd
  if 64 ≤ c.mailbox.val then
    if c.argRoom == 0xFFFF then none else some { st := stBadArg, detail := 0x79 }
  else if c.argLen == 0 then none
  else if !row.input && !row.output then none
  else match roomAt s c.argRoom.toNat with
    | none => some { st := stBadArg, detail := 0x79 }
    | some r =>
      if r.cls != 5 then some { st := stBadArg, detail := 0x79 }
      else if r.owner != p.session then some { st := stNotOwner }
      else if slotBytes r < c.argOffset.toNat + c.argLen.toNat then some { st := stBadArg, detail := 0x6F }
      else if row.input then
        if c.argVersion != r.current || c.argVersion == 0 then some { st := stWrongState } else none
      else if r.slots != 1 then some { st := stBadArg, detail := 0x79 }
      else if c.argVersion != 0 then some { st := stBadArg, detail := 0x77 }
      else none

/-- Keeper answers in Porter's place only groups 0x06 and 0x08, EVENT_READ and CAP_READ (13 R355). -/
def keeperTakes (code : Nat) : Bool := code / 256 == 0x06 || code / 256 == 0x08 || code == 0x0A02 || code == 0x0A05

/-! ### Conflicts of one pass (13 R366, R367, R370) -/

/-- The last pass begun, low 32 bits; an order is taken by the pass that the next DISPATCH_PASS row ends (log 5). -/
def passNow (s : State) : W32 := BitVec.ofNat 32 s.porter.pass
def orderPass (s : State) : W32 := BitVec.ofNat 32 (s.porter.pass + 1)

/-- Rank of an order for a subject: the higher wins; between equals the earlier. Limits and ceilings are settled by value in
their own meanings. -/
def conflictRank (sub : Subject) (party : Party) (code : Nat) : Nat :=
  match sub with
  | .dispatch => if code == 0x0403 then 1 else 0
  | .domain => if party == .fm then 1 else 0
  | .ept => if party == .fm then 1 else 0
  | .lodge => if party == .fm then 1 else 0
  | .firmware => if code == 0x0805 then 2 else if party == .bmc then 1 else 0
  | _ => if party == .owner then 1 else 0

def byValue (sub : Subject) : Bool := match sub with | .limits => true | .ceiling _ => true | _ => false

/-- Orders of the pass from other mailboxes that name one of the subjects. -/
def rivals (s : State) (n : Nat) (subs : List Subject) : List PassOrder :=
  s.porter.passOrders.filter (fun o => o.mailbox != n && subs.contains o.subject)

/-- The order loses to one carried out earlier in the pass. -/
def losesTo (s : State) (n code : Nat) (o : PassOrder) : Bool :=
  !byValue o.subject &&
    decide (conflictRank o.subject (partyOf s n) code ≤ conflictRank o.subject (partyOf s o.mailbox) o.opcode)

/-- Completions of a pass are posted at its end: an order that has lost since completes with `st` instead. -/
def restate (n : Nat) (cid : W16) (st : Nat) (s : State) : State :=
  let f (c : Cpl) : Cpl := if c.cid == cid && c.pass == orderPass s && (c.status == 0 || c.status == 4) then { c with status := BitVec.ofNat 8 st } else c
  if s.porter.outstanding.any (fun p => p.cmd.mailbox.val == n && p.cmd.cid == cid) then
    finish (fun p => p.cmd.mailbox.val == n && p.cmd.cid == cid) { st := st } s
  else if n < 64 then setMb n (fun m => { m with cq := m.cq.map (fun e => (e.1, f e.2)) }) s
  else { s with outs := s.outs.map (fun o => match o with
    | .mctpCpl m c d => if m == n then .mctpCpl m (f c) d else o
    | _ => o) }

/-- The orders that an order of the pass beats complete with SUPERSEDED, and it is noted among those of the pass (13 R366). -/
def noteOrder (p : Pending) (subs : List Subject) (s : State) : State :=
  let n := p.cmd.mailbox.val
  let s := forEach ((rivals s n subs).filter (fun o => !byValue o.subject)) (fun o s => restate o.mailbox o.cid stSuperseded s) s
  let inPass := porterRuns s && s.porter.ready
  { s with porter := { s.porter with
    passOrders := if inPass then s.porter.passOrders ++ subs.map (fun x => ⟨n, p.cmd.cid, p.opcode.toNat, x⟩) else []
    limitOrders := if inPass then s.porter.limitOrders else [] } }

/-- An order whose meaning waits is outstanding; its extended argument is pinned (13 R350). -/
def awaitOrder (p : Pending) (row : OpRow) (w : Wait) (s : State) : State :=
  let s := if p.cmd.mailbox.val < 64 && row.input && p.cmd.argLen != 0 then pinRoom p.cmd.argRoom.toNat p.cmd.argVersion.toNat s else s
  { s with porter := { s.porter with outstanding := s.porter.outstanding ++ [{ p with wait := w }] } }

/-- Carry out a taken order: its checks, its own fields, its standing among the pass's earlier orders (13 R366), its effect, its
completion or its wait. One that completes with BAD_ARG has no other effect (00 R10). -/
def carry (p : Pending) (subs : List Subject) (h : Handler) (s : State) : State :=
  let code := p.opcode.toNat
  let n := p.cmd.mailbox.val
  if !p.cmd.crcOk then complete p { st := stBadArg } s
  else match opRow code with
    | none => complete p { st := stBadOpcode } s
    | some row =>
      let st := standing s n code row p.index
      if n == 64 && !(porterRuns s && s.porter.ready) && !keeperTakes code then
        complete p { st := stDeviceFault, detail := 1 } s
      else if st != 0 then complete p { st := st } s
      else match p.cmd.badField with
        | some o => complete p { st := stBadArg, detail := o % 128 } s
        | none => match argBad s row p with
          | some r => complete p r s
          | none =>
            let loses := (rivals s n subs).any (losesTo s n code)
            match h p (if loses then s else noteOrder p subs s) with
            | (.done r, t) =>
              if r.st == stBadArg then complete p r s else if loses then complete p { st := stSuperseded } s else complete p r t
            | (.wait w, t) => if loses then complete p { st := stSuperseded } s else awaitOrder p row w t

/-! ### Taking an order (13 R345, R347, R354, R355, R365, R378, 01 R19) -/

/-- Whether a command of mailbox `n` can be taken now. -/
def canTake (s : State) (n : Nat) : Bool :=
  let mb := mbAt s n
  if n == 64 then keeperAlive s
  else porterRuns s && s.porter.ready && mb.state != 2 && mb.state != 3 && !mb.ending &&
    decide (mb.taken < (if n == 65 then 64 else 63))

/-- The ring indices after an order is taken: the submitted entry at SQ_HEAD, or one that the row itself submits; of
mailboxes 64 and 65, the first message that waits (log 5). -/
def takeEntry (n : Nat) (s : State) : State :=
  setMb n (fun m => { m with
    taken := m.taken + 1, lastPass := orderPass s, msgs := m.msgs.drop 1
    sqTail := if n < 64 && m.sqTail == m.sqHead then m.sqTail + 1 else m.sqTail
    sqHead := if n < 64 then m.sqHead + 1 else m.sqHead }) s

/-- Commands of mailbox 64 or 65 outstanding: taken, and waiting. -/
def outstandingOf (s : State) (n : Nat) : Nat := (mbAt s n).taken + (mbAt s n).msgs.length

/-- What the boot ROM answers on mailbox 64 once both Keeper slots have failed (17 R460); for one slot refused and one empty
the spec gives no cause and no reason (log 20). -/
def bootReply (s : State) : Reply :=
  let why (slot : Nat) : Nat := ((s.sec.refusals.find? (fun r => r.1 == 1 && r.2.1 == slot)).map (fun r => r.2.2)).getD 0xFF
  let w0 := why 0
  let w1 := why 1
  if w0 == 0xFF && w1 == 0xFF then { st := stWrongState, r0 := 2 }
  else if w0 != 0xFF && w1 != 0xFF then { st := stWrongState, r0 := 1, r1 := w0, r2 := w1 }
  else {
    st := stWrongState, r0 := Config.bootCause, r1 := if w0 == 0xFF then Config.emptySlotReason else w0,
    r2 := if w1 == 0xFF then Config.emptySlotReason else w1 }

/-- A completion without the command being taken: mailbox 64 is full, or only the boot ROM answers (13 R354, 17 R460). -/
def turnAway (p : Pending) (r : Reply) (s : State) : State :=
  post p r (setMb p.cmd.mailbox.val (fun m => { m with taken := m.taken + 1 }) s)

/-- Opcode of a command entry (13 Table 13-5). -/
def entryOpcode (e : BitVec 1024) : Nat := fld e 1008 16

/-- The command of an entry, as far as its completion needs it. -/
def entryCmd (n : Fin 66) (e : BitVec 1024) : Cmd :=
  { mailbox := n, cid := bits e 992 16, irq := fld e 991 1 == 1, argRoom := bits e 968 16, argVersion := bits e 952 16,
    argOffset := bits e 920 32, argLen := bits e 888 32, crcOk := recCrcOk e, badField := none }

/-- The entry that a mailbox's next command stands in: submitted to the ring and written there, or the first message. -/
def nextCommand (s : State) (n : Nat) : Option (BitVec 1024) :=
  let m := mbAt s n
  if 64 ≤ n then m.msgs.head?.map (fun x => x.1)
  else if m.sqTail == m.sqHead then none
  else tfind? m.sq m.sqHead.toNat

/-- Commands of no opcode of Table 13-7 at the front of a mailbox: the pass takes them, and they complete with BAD_OPCODE,
or with BAD_ARG where the entry's CRC fails (13 R352, R361). -/
def takeUnknown : Nat → Fin 66 → State → State
  | 0, _, s => s
  | k + 1, n, s =>
    match nextCommand s n.val with
    | none => s
    | some e =>
      if (opRow (entryOpcode e)).isSome || !canTake s n.val then s
      else
        let p : Pending := {
          cmd := entryCmd n e, opcode := BitVec.ofNat 16 (entryOpcode e), session := sessionOfMb s n.val, pass := orderPass s,
          index := (mbAt s n.val).sqHead, wait := .now }
        takeUnknown k n (complete p { st := if recCrcOk e then stBadOpcode else stBadArg } (takeEntry n.val s))

/-- The merged order of a pass: mailboxes 64, 65 and 0 to 63 (13 R365). -/
def mergedOrder : List (Fin 66) := [64, 65] ++ (List.range 64).map (fun n => Fin.ofNat 66 n)

/-- A mailbox order as one row of the table: taken and carried out in the pass under way (log 5). -/
def order (code : Nat) (c : Cmd) (subs : List Subject) (h : Handler) (s : State) : State :=
  let n := c.mailbox.val
  let p : Pending := {
    cmd := c, opcode := BitVec.ofNat 16 code, session := sessionOfMb s n, pass := orderPass s,
    index := (mbAt s n).sqHead, wait := .now }
  if n == 64 && s.power.phase == .bootStopped then turnAway p (bootReply s) s
  else if !canTake s n then s
  -- a ninth command of the baseboard controller is not taken (13 R354)
  else if n == 64 && (mbAt s n).msgs.isEmpty && 8 ≤ outstandingOf s n then turnAway p { st := stWrongState } s
  else carry p subs h (takeEntry n s)

end Sys2Proof.Machine
end

