-- ==== Sys2Proof/Machine/Desc.lean ====
section
/-! DEFINITION. The task descriptor, its streams, the epilogue unit and the completion record (04 Tables 4-5 to 4-9,
05 Table 5-2), and what a plan's task names. -/

namespace Sys2Proof.Machine

/-! ### Header (04 Table 4-6) -/

def dTask (d : BitVec 2048) : Nat := fld d 480 32
def dKind (d : BitVec 2048) : Nat := fld d 476 4
def dEnergy (d : BitVec 2048) : Nat := fld d 473 3
def dTowerPref (d : BitVec 2048) : Nat := fld d 469 4
def dStallLog (d : BitVec 2048) : Nat := fld d 464 5
def dQ1 (d : BitVec 2048) : Nat := fld d 459 5
def dQ2 (d : BitVec 2048) : Nat := fld d 455 4
def dQ3 (d : BitVec 2048) : Nat := fld d 451 4
def dCore (d : BitVec 2048) : Nat := fld d 442 9
def dAccInit (d : BitVec 2048) : Nat := fld d 440 2
def dAccHold (d : BitVec 2048) : Bool := fld d 439 1 == 1
def dAmaxAxes (d : BitVec 2048) : Nat := fld d 437 2
def dNumctlO (d : BitVec 2048) : Nat := fld d 429 8
def dM (d : BitVec 2048) : Nat := fld d 400 24
def dN (d : BitVec 2048) : Nat := fld d 376 24
def dK (d : BitVec 2048) : Nat := fld d 352 24
def dOutTensor (d : BitVec 2048) : Nat := fld d 320 32
def dStep (d : BitVec 2048) : Nat := fld d 256 64
def dCplAddr (d : BitVec 2048) : Nat := fld d 192 64
def dAmaxAddr (d : BitVec 2048) : Nat := fld d 128 64
def dRerun (d : BitVec 2048) : Bool := fld d 64 1 == 1
def dRerunOf (d : BitVec 2048) : Nat := fld d 32 32

/-! ### Streams (04 Table 4-8): 0 A, 1 W, 2 C, 3 O -/

def dStream (d : BitVec 2048) (k : Nat) : BitVec 256 := bits d (512 + 256 * k) 256
def sBase (x : BitVec 256) : Nat := fld x 208 48
def sExt0 (x : BitVec 256) : Nat := fld x 184 24
def sExt1 (x : BitVec 256) : Nat := fld x 160 24
/-- A batch extent of 0 is read as 1. -/
def sExt2 (x : BitVec 256) : Nat := max 1 (fld x 144 16)
def sStr1 (x : BitVec 256) : Nat := fld x 112 32
def sStr2 (x : BitVec 256) : Nat := fld x 80 32
def sScaleOff (x : BitVec 256) : Nat := fld x 48 32
def sScaled (x : BitVec 256) : Bool := sScaleOff x != 0xFFFFFFFF
def sFmt (x : BitVec 256) : Nat := fld x 36 4
def sTrans (x : BitVec 256) : Bool := fld x 35 1 == 1
def sUsed (x : BitVec 256) : Bool := fld x 34 1 == 1
def sRoom (x : BitVec 256) : Nat := fld x 16 16
def sVer (x : BitVec 256) : Nat := fld x 0 16

/-! ### Epilogue unit (05 Table 5-2) -/

def dProgAddr (d : BitVec 2048) : Nat := fld d 1984 64
def dProgRoom (d : BitVec 2048) : Nat := fld d 1968 16
def dProgVer (d : BitVec 2048) : Nat := fld d 1952 16
def dProgLen (d : BitVec 2048) : Nat := fld d 1942 10
def dNaux (d : BitVec 2048) : Nat := fld d 1939 3
def dAuxOut (d : BitVec 2048) (k : Nat) : Bool := fld d (1933 + k) 1 == 1
def dAuxAddr (d : BitVec 2048) : Nat := fld d 1856 64
def dAuxNumctl (d : BitVec 2048) (k : Nat) : Nat := fld d (1808 + 8 * k) 8
def dAux0 (d : BitVec 2048) : BitVec 256 := bits d 1536 256

/-! ### What a plan's task names -/

/-- Auxiliary streams 0 to NAUX - 1 of a plan's task. -/
def auxOf (t : PlanTask) : List (BitVec 256) := (dAux0 t.desc :: t.auxRest).take (dNaux t.desc)

/-- Inputs with a room: journal position (0 A, 1 W, 2 C, 3 the program, 4 + k auxiliary stream k) and room. -/
def inputsOf (t : PlanTask) : List (Nat × Nat) :=
  let main := [0, 1, 2].filterMap (fun k =>
    let x := dStream t.desc k
    if sUsed x && sRoom x != 0xFFFF then some (k, sRoom x) else none)
  let prog := if dProgLen t.desc != 0 && dProgRoom t.desc != 0xFFFF then [(3, dProgRoom t.desc)] else []
  let aux := (auxOf t).zipIdx.filterMap (fun (x, k) =>
    if !dAuxOut t.desc k && sUsed x && sRoom x != 0xFFFF then some (4 + k, sRoom x) else none)
  main ++ prog ++ aux

/-- Outputs with a room: journal position (3 stream O, 4 + k auxiliary output k), room and the plan's own version mark. -/
def outputsOf (t : PlanTask) : List (Nat × Nat × Nat) :=
  let o := dStream t.desc 3
  let main := if sUsed o && sRoom o != 0xFFFF then [(3, sRoom o, sVer o)] else []
  let aux := (auxOf t).zipIdx.filterMap (fun (x, k) =>
    if dAuxOut t.desc k && sUsed x && sRoom x != 0xFFFF then some (4 + k, sRoom x, sVer x) else none)
  main ++ aux

/-- First addresses of every stream, of the program, and of the amax record. -/
def addrsOf (t : PlanTask) : List Nat :=
  let main := [0, 1, 2, 3].filterMap (fun k => let x := dStream t.desc k; if sUsed x then some (sBase x) else none)
  let prog := if dProgLen t.desc != 0 then [dProgAddr t.desc] else []
  let aux := (auxOf t).filterMap (fun x => if sUsed x then some (sBase x) else none)
  let amax := if dAmaxAxes t.desc != 0 then [dAmaxAddr t.desc] else []
  main ++ prog ++ aux ++ amax

def namesPond (t : PlanTask) : Bool := (addrsOf t).any (fun a => regionOf a == .pond)
def mereOnly (t : PlanTask) : Bool := (addrsOf t).all (fun a => regionOf a == .mere)

/-- The core whose pond window holds an address: its own slice, or the half it borrows from its partner (07 R187). -/
def coreReaching (s : State) (a : Nat) : Nat :=
  let c := sliceOf a
  if chanState s (c ^^^ 1) == 4 && halfSlice ≤ a - sliceBase c then c ^^^ 1 else c

/-- The core that a task's pond streams bind it to (04 R105). -/
def pondCore (s : State) (t : PlanTask) : Option Nat :=
  ((addrsOf t).find? (fun a => regionOf a == .pond)).map (coreReaching s)

/-- The mover of a copy task that names a tier (07 R212). -/
def moverOf (t : PlanTask) : Option Nat :=
  if dKind t.desc != 2 then none
  else
    let as := addrsOf t
    let st := (as.filter (fun a => regionOf a == .stack)).map towerRegion
    if as.any (fun a => regionOf a == .cellar) then some 0x188
    else match st with
      | [] => none
      | r :: rs => if rs.all (· == r) then some (0x180 + r) else some 0x188

/-! ### Completion record (04 Table 4-9) -/

/-- The record a core or, in its place, Porter writes. `ctr` none: every counter 0 (04 R121). -/
def cplRecord (d : BitVec 2048) (core code numst attempt stallEng outVer : Nat) (ctr : Option Counters) : BitVec 512 :=
  let cs := match ctr with
    | none => []
    | some c => [(384, 64, c.beats.toNat), (352, 32, c.q1Full.toNat), (320, 32, c.q1Empty.toNat), (288, 32, c.q2Full.toNat),
        (256, 32, c.q2Empty.toNat), (224, 32, c.q3Full.toNat), (192, 32, c.q3Empty.toNat), (160, 32, c.wbWait.toNat),
        (128, 32, c.maxStall.toNat), (96, 32, c.bubbles.toNat), (64, 32, c.corr.toNat)]
  recSeal (mkRec 512 ([(480, 32, dTask d), (471, 9, core), (464, 4, numst), (458, 6, code), (456, 2, stallEng),
    (448, 8, attempt), (48, 16, outVer)] ++ cs))

def recCode (r : BitVec 512) : Nat := fld r 458 6
def recNumst (r : BitVec 512) : Nat := fld r 464 4

/-- Completion codes (04 Table 4-10). -/
def ccDone : Nat := 0
def ccFormat : Nat := 1
def ccAddress : Nat := 2
def ccXtimeout : Nat := 3
def ccStall : Nat := 4
def ccDesc : Nat := 5
def ccMem : Nat := 6
def ccCoreStopped : Nat := 7
def ccVersion : Nat := 8
def ccHeldLost : Nat := 9
def ccTowerStopped : Nat := 0xA

/-- Codes marked for replay. -/
def replayed (c : Nat) : Bool := [3, 4, 5, 6, 9].contains c

/-- OUT_VERSION of the record: the fresh version of stream O's room, 0 for a pond output or none. -/
def outVersion (d : BitVec 2048) : Nat :=
  let o := dStream d 3
  if sUsed o && sRoom o != 0xFFFF then sVer o else 0

end Sys2Proof.Machine
end

