-- ==== Sys2Proof/Machine/Tasks.lean ====
section
/-! DEFINITION. Jobs and their tasks: the order of dispatch, the hand-over of task rooms, the journal, lost work, and the
failing of a step (01 R15, R21, 02 R52, 04 R100 to R122, 07 R200 to R204, 13 R371 to R374, R508, 15 R415). -/

namespace Sys2Proof.Machine

/-! ### Jobs and plans -/

def planOf (s : State) (h : W32) : Option Plan := tfind? s.porter.plans h.toNat
def planTask (p : Plan) (id : Nat) : Option PlanTask := p.tasks.find? (fun t => dTask t.desc == id)
def jobs (s : State) : List Job := s.steps.job.toList ++ s.steps.runs
def jobAt (s : State) (id : Nat) : Option Job := (jobs s).find? (fun j => j.id == id)

def updJob (id : Nat) (f : Job → Job) (s : State) : State :=
  { s with steps := { s.steps with
    job := s.steps.job.map (fun j => if j.id == id then f j else j)
    runs := s.steps.runs.map (fun j => if j.id == id then f j else j) } }

def taskState (j : Job) (id : Nat) : TaskState := tget j.tasks id (.waiting none)
def setTask (job id : Nat) (st : TaskState) (s : State) : State :=
  updJob job (fun j => { j with tasks := tset j.tasks id st }) s

/-- Dependencies inside the job; one outside a TASKS_RUN counts as met (13 R508). -/
def depsIn (j : Job) (t : PlanTask) : List Nat := (t.deps.map (·.toNat)).filter (fun d => (tfind? j.tasks d).isSome)
def depsDone (j : Job) (t : PlanTask) : Bool := (depsIn j t).all (fun d => taskState j d == .done)
def depLost (j : Job) (t : PlanTask) : Bool :=
  (depsIn j t).any (fun d => match taskState j d with | .lost => true | .endedWith _ => true | _ => false)

/-- A task that needs a lost task is not dispatched, and its work is lost too (02 R52 item 1). -/
def loseDependents (p : Plan) : Nat → Job → Job
  | 0, j => j
  | n + 1, j =>
    let next := { j with tasks := j.tasks.map (fun q =>
      match q.2, planTask p q.1 with
      | .waiting _, some t => if depLost j t then (q.1, .lost) else q
      | _, _ => q) }
    if next == j then j else loseDependents p n next

def spreadLoss (job : Nat) (s : State) : State :=
  match jobAt s job with
  | none => s
  | some j => match planOf s j.handle with
    | none => s
    | some p => updJob job (loseDependents p j.tasks.length) s

/-- A task of an expert product waits until the rows of its round are gathered (10 R278). -/
def roundHeld (s : State) (p : Plan) (j : Job) (t : PlanTask) : Bool :=
  j.id == 0 && p.rounds.any (fun x => x.tasks.any (fun k => k.toNat == dTask t.desc) &&
    !s.exch.rounds.any (fun r => r.step == j.step && r.layer == x.layer && r.mb == x.mb && r.backward == x.backward && r.gathered))

/-- A waiting task whose dependencies are done has been ready since this pass. -/
def markReady (s : State) (p : Plan) (j : Job) : Job :=
  { j with tasks := j.tasks.map (fun q =>
    match q.2, planTask p q.1 with
    | .waiting none, some t => if depsDone j t && !roundHeld s p j t then (q.1, .waiting (some s.porter.pass)) else q
    | _, _ => q) }

/-! ### Where a task may run (04 R105, R113, 07 R212, 15 R415, 18 R484) -/

def coreTasks (c : Core) : List TaskRun := c.running.toList ++ c.admitted.toList

/-- Rated rates of Table 2-2, in hundredths of 1.00 G beats/s. -/
def ratedRate (p : Nat) : Nat := [66, 70, 75, 79, 83, 87, 92, 96, 100, 104, 108, 112, 116, 120, 124, 128].getD p 100

/-- Nominal power of an energy class in tenths of a watt (15 Table 15-5). -/
def classPower (e : Nat) : Nat := [5, 10, 20, 30, 40, 53, 58, 65].getD e 0

def isForerunner (s : State) (t : Nat) : Bool := decide (t < 4) && s.cap.frTowers.getLsbD t

/-- Porter may dispatch to this initiator: powered, present, not withheld, not under test, of the plan's kind. -/
def dispatchable (s : State) (p : Plan) (c : Nat) : Bool :=
  let t := towerOf c
  !(coreAt s c).withheld && !(coreAt s c).toBoundary &&
  (decide (384 ≤ c) ||
    (present s c && towerOn s t && (tfind? s.power.gating t).isNone && s.tests.tower != some t && (s.tests.underTest.map (·.1)) != some c &&
     p.forerunner == isForerunner s t && !s.cap.leaving.getLsbD t))

/-- Queue reservations beside those of the task already held (04 R113). -/
def reservationsFit (k : Core) (d : BitVec 2048) : Bool :=
  let ts := (coreTasks k).map (·.desc)
  decide ((coreTasks k).length < 2) && decide (sumNat (ts.map dQ1) + dQ1 d ≤ 16) &&
  decide (sumNat (ts.map dQ2) + dQ2 d ≤ 8) && decide (sumNat (ts.map dQ3) + dQ3 d ≤ 8)

/-- The task is still to be dispatched. -/
def undispatched (j : Job) (id : Nat) : Bool := match taskState j id with | .waiting _ => true | .again _ => true | _ => false

/-- Between a holding task and its follower, while the follower is still to come, nothing else is admitted to the core
(04 R100). -/
def holdAllows (s : State) (c job id : Nat) : Bool :=
  (jobs s).all (fun j => j.holds.all (fun h => h.1 != c || (j.id == job && h.2 == id) || !undispatched j h.2))

def canAdmit (s : State) (p : Plan) (job : Nat) (t : PlanTask) (c : Nat) : Bool :=
  dispatchable s p c && reservationsFit (coreAt s c) t.desc && holdAllows s c job (dTask t.desc)

def coolOrder (w : W64) : List Nat := (List.range 8).map (fun i => fld w (4 * i) 4)

/-- The initiator for a ready task, if one can take it now. -/
def placeTask (s : State) (p : Plan) (j : Job) (t : PlanTask) : Option Nat :=
  let id := dTask t.desc
  let fits := canAdmit s p j.id t
  match tfind? j.only id with
  | some cs => cs.find? fits
  | none =>
    match j.holds.find? (fun h => h.2 == id) with
    | some h => if fits h.1 then some h.1 else none
    | none => match moverOf t with
      | some m => if fits m then some m else none
      | none => match pondCore s t with
        | some c => if fits c then some c else none
        | none =>
          let order := coolOrder s.porter.budgetRead
          let towers := if dEnergy t.desc ≤ 3 && dTowerPref t.desc < 8 then dTowerPref t.desc :: order else order
          (towers.filter (· < 8)).findSome? (fun tw => (coresOfTower tw).find? fits)

/-! ### Versions of a task's streams (06 R170, 07 R200, R201, R204) -/

/-- The tasks of the job that a task comes after in the plan's graph, through any number of dependencies. -/
def ancestors (p : Plan) (j : Job) : Nat → List Nat → List Nat
  | 0, seen => seen
  | n + 1, seen =>
    let next := (seen.flatMap (fun d => ((planTask p d).map (depsIn j)).getD [])).foldl addNew seen
    if next.length == seen.length then seen else ancestors p j n next

/-- The version of a room that the graph gives a task: the last one that a task before it opened (07 R200). -/
def depVersion (p : Plan) (j : Job) (t : PlanTask) (room : Nat) : Option Nat :=
  let outs := j.outs.filter (fun o => o.2.1 == room)
  if outs.isEmpty then none
  else
    let before := ancestors p j p.tasks.length (depsIn j t)
    ((outs.filter (fun o => before.contains o.1)).getLast?).map (·.2.2)

def currentOf (s : State) (room : Nat) : Nat := ((roomAt s room).map (·.current.toNat)).getD 0

def inputVersion (s : State) (p : Plan) (j : Job) (t : PlanTask) (k room : Nat) : Nat :=
  let rerun := if dRerun t.desc && j.step != 0 then
    (j.reads.find? (fun r => r.1 == dRerunOf t.desc && r.2.1 == k)).map (·.2.2) else none
  (rerun.orElse (fun _ => depVersion p j t room)).getD (currentOf s room)

/-- An input in a one-slot room whose fresh version is open waits, unless the task writes that version (07 R204). -/
def inputHeld (s : State) (t : PlanTask) (room : Nat) : Bool :=
  match roomAt s room with
  | some r => r.slots == 1 && r.fresh != 0 && !(outputsOf t).any (fun o => o.2.1 == room)
  | none => false

/-- The plan's writers of one version of a room in the job: the tasks with the same version mark (log 13). -/
def writersOf (p : Plan) (j : Job) (room mark : Nat) : Nat :=
  (p.tasks.filter (fun t => (tfind? j.tasks (dTask t.desc)).isSome &&
    (outputsOf t).any (fun o => o.2.1 == room && o.2.2 == mark))).length

/-- Make sure the fresh version of an output is open; none where the dispatch is held (07 R201). -/
def openOutput (p : Plan) (job : Nat) (t : PlanTask) (o : Nat × Nat × Nat) (s : State) : Option State := do
  let j ← jobAt s job
  let r ← roomAt s o.2.1
  let id := dTask t.desc
  let mine := j.outs.any (fun x => x.2.1 == o.2.1 && x.2.2 == r.fresh.toNat &&
    ((planTask p x.1).map (fun u => (outputsOf u).any (fun y => y.2.1 == o.2.1 && y.2.2 == o.2.2))).getD false)
  if r.fresh != 0 then
    if mine then some (updJob job (fun j => { j with outs := j.outs ++ [(id, o.2.1, r.fresh.toNat)] }) s) else none
  else
    let r' ← openVer r (writersOf p j o.2.1 o.2.2) j.step
    some (updJob job (fun j => { j with outs := j.outs ++ [(id, o.2.1, r'.fresh.toNat)] })
      (putOpened o.2.1 r' s))

def openOutputs (p : Plan) (job : Nat) (t : PlanTask) : List (Nat × Nat × Nat) → State → Option State
  | [], s => some s
  | o :: os, s => (openOutput p job t o s).bind (openOutputs p job t os)

/-! ### The first dispatch of a step (06 R171, 08 R235, 10 R287, 18 R490) -/

/-- Parameter entries of the open step's plan, with their indices. -/
def stepParams (s : State) : List (BitVec 512 × Nat) :=
  match s.steps.job with
  | none => []
  | some j => match planOf s j.handle with
    | none => []
    | some p => p.params.zipIdx

def peResident (e : BitVec 512) : Bool := fld e 476 1 == 1
def peFrozen (e : BitVec 512) : Bool := fld e 475 1 == 1
def peLag (e : BitVec 512) : Nat := fld e 472 3
def peTensor (e : BitVec 512) : Nat := fld e 480 32
def peGradRoom (e : BitVec 512) : Nat := fld e 352 16
/-- Room and page of a locator (08 R218). -/
def locRoom (l : Nat) : Nat := l / 2 ^ 24 % 2 ^ 16
def peWork (e : BitVec 512) : Nat := fld e 280 40

/-- The fresh gradient version of the step opens in the gradient room of every Cellar-resident tensor (08 R235). -/
def openGradient (step : W64) (e : BitVec 512) (s : State) : State :=
  if !peResident e || peFrozen e then s
  else match (roomAt s (peGradRoom e)).bind (fun r => openVer r 1 step) with
    | some r' => putOpened (peGradRoom e) { r' with unapplied := r'.unapplied ++ [(r'.fresh, step)] } s
    | none => s

/-- A gradient room has no slot for the fresh version of the open step: its first dispatch waits (08 R235). -/
def gradientsHeld (s : State) : Bool :=
  match s.steps.job with
  | none => false
  | some j => !s.steps.begun && (stepParams s).any (fun e => peResident e.1 && !peFrozen e.1 &&
      ((roomAt s (peGradRoom e.1)).map (fun r => !(r.fresh != 0 && r.freshStep == j.step) && (openVer r 1 j.step).isNone)).getD false)

/-- An EPT entry never loaded: no holder (10 Table 10-1). -/
def eptReset : BitVec 128 := mkRec 128 [(80, 16, 0xFFFF), (56, 16, 0xFFFF), (32, 16, 0xFFFF), (8, 16, 0xFFFF)]

/-- At the first dispatch of step v + 1 the routers switch to the staged entries, the superseded ones stay in the staged
image, and EPT_ACTIVATE completes (10 R287). -/
def eptSwitch (step : W64) (s : State) : State :=
  match s.exch.activateStep with
  | some v =>
    if step == v + 1 then
      finish (fun p => p.wait == Wait.activate v) { st := stDone }
        { s with exch := { s.exch with
          active := s.exch.staged.foldl (fun t e => tset t e.1 e.2) s.exch.active
          staged := s.exch.staged.map (fun e => (e.1, tget s.exch.active e.1 eptReset))
          activateStep := none
          activated := true } }
    else s
  | none => s

/-- Address of a history record. -/
def histLoc (s : State) (h : W16 × Nat) : Option Nat := (roomAt s h.1.toNat).map (fun r => r.base.toNat + h.2)

/-! ### Dispatch (13 R371, 01 R15) -/

/-- A lag stall (08 R232, R233): the entries whose working copy this task reads before the update of step t - LAG has
committed, where they are Cellar-resident, or while state of theirs is fetched from a source. -/
def lagHeld (s : State) (p : Plan) (j : Job) (t : PlanTask) : List Nat :=
  p.params.zipIdx.filterMap (fun (e, i) =>
    if !peFrozen e && (inputsOf t).any (fun k => k.2 == locRoom (peWork e)) &&
      (j.step != 0 && peResident e && (((roomAt s (peGradRoom e)).map (fun r => r.unapplied.any (fun u => u.2.toNat + peLag e ≤ j.step.toNat))).getD false)
        || s.params.fetching.any (fun f => f.1 == i))
    then some i else none)

/-- The descriptor as Porter completes it: CORE, STEP and every VERSION, with its CRC (04 R116, 07 R200). -/
def finalDesc (t : PlanTask) (core : Nat) (step : W64) (ins : List (Nat × Nat)) (outs : List (Nat × Nat)) : BitVec 2048 :=
  let d := putFld (putFld t.desc 442 9 core) 256 64 step.toNat
  let d := ins.foldl (fun d kv => match kv.1 with
    | 0 => putFld d 512 16 kv.2
    | 1 => putFld d 768 16 kv.2
    | 2 => putFld d 1024 16 kv.2
    | 3 => putFld d 1952 16 kv.2
    | 4 => putFld d 1536 16 kv.2
    | _ => d) d
  let d := outs.foldl (fun d kv => match kv.1 with
    | 3 => putFld d 1280 16 kv.2
    | 4 => putFld d 1536 16 kv.2
    | _ => d) d
  recSeal d

/-- Auxiliary streams 1 and up as Porter completes them at AUX_ADDR. -/
def finalAux (t : PlanTask) (ins outs : List (Nat × Nat)) : List Byte :=
  (t.auxRest.zipIdx).flatMap (fun (x, i) =>
    let k := 5 + i
    let v := ((ins ++ outs).find? (fun kv => kv.1 == k)).map (·.2)
    recBytes (match v with | some v => putFld x 0 16 v | none => x))

def newRun (d : BitVec 2048) (handle : W32) (room : W16) (attempt : Nat) : TaskRun :=
  { desc := d, handle := handle, room := room, attempt := attempt, checked := false, ended := none, stallEng := 0,
    causeGated := false, flags := 0, geom := 0, head := 0, prog := [], place := ⟨0, 0, 0, 0⟩, taken := 0,
    cursors := List.replicate 6 0, ocursor := 0, clamped := false, amax := 0, blockAmax := [] }

/-- Hand a task room over (01 R15, 07 R204). To the engines: Porter's version commits, and the engines' next one is open in
place, with one writer under way. Back: that version commits; the room has its writer until its record is processed. -/
def flipRoom (id : Nat) (engines : Bool) (s : State) : State :=
  updRoom id (fun r =>
    let r := commitVer (if r.fresh == 0 then (openVer r 1 0).getD r else r)
    if engines then { (openVer r 1 0).getD r with engines := true, active := r.active + 1 } else { r with engines := false }) s

/-- The record in a task room has been processed: nothing holds the room any more (07 R206). -/
def closeRoom (id : Nat) (s : State) : State := settleRelease id (updRoom id (fun r => { r with active := 0 }) s)

/-- LAST_READERs of the entries under whose RECOMPUTE a forward task is re-run: its inputs stay pinned for them (06 R163,
R171). -/
def keepsFor (p : Plan) (id : Nat) : List Nat :=
  p.saved.filterMap (fun e =>
    if fld e 221 3 == 5 && fld e 96 32 ≤ id && id < fld e 96 32 + fld e 88 8 then some (fld e 32 32) else none)

/-- LAST_READERs of the kept copies that a task writes into a room: the forward task whose tensor the entry names (06 R163,
R172). -/
def keptCopies (p : Plan) (t : PlanTask) (room : Nat) : List Nat :=
  p.saved.filterMap (fun e =>
    if fld e 221 3 != 5 && !t.backward && fld e 224 32 == dOutTensor t.desc && fld e 192 16 == room && room != 0xFFFF
    then some (fld e 32 32) else none)

def journalOf (s : State) (job id : Nat) : Option Journal :=
  s.porter.journal.find? (fun e => e.job == job && e.taskId.toNat == id)

def setJournal (job id : Nat) (f : Journal → Journal) (s : State) : State :=
  { s with porter := { s.porter with
    journal := s.porter.journal.map (fun e => if e.job == job && e.taskId.toNat == id then f e else e) } }

def retireJournal (job id : Nat) (s : State) : State :=
  { s with porter := { s.porter with journal := s.porter.journal.filter (fun e => !(e.job == job && e.taskId.toNat == id)) } }

/-- What a task reads, by stream: the version now, or for a replay the one the journal names (13 R373). -/
def launchIns (s : State) (p : Plan) (j : Job) (t : PlanTask) (old : Option Journal) : List (Nat × Nat) :=
  match old with
  | some e => (inputsOf t).map (fun k => (k.1, (e.streamVer.getD k.1 (0xFFFF, 0)).2.toNat))
  | none => (inputsOf t).map (fun k => (k.1, inputVersion s p j t k.1 k.2))

/-- What a task writes, by stream: the version that the job has opened for it last. -/
def launchOuts (j : Job) (t : PlanTask) : List (Nat × Nat) :=
  (outputsOf t).map (fun o =>
    (o.1, ((j.outs.filter (fun x => x.1 == dTask t.desc && x.2.1 == o.2.1)).getLast?.map (·.2.2)).getD 0))

/-- A version stays pinned until a task ends with DONE. -/
def keepVer (job reader room ver : Nat) (s : State) : State :=
  updJob job (fun j => { j with keeps := j.keeps ++ [(reader, room, ver)] }) (pinRoom room ver s)

/-- The pins of a dispatch: those of its inputs, which a replay keeps from the first run where that still holds them
(07 R202, 13 R373); at a first run those of the layer inputs that the plan re-reads and of the kept copies that the task
writes (06 R171, R172). Its outputs are active. -/
def launchPins (p : Plan) (job : Nat) (t : PlanTask) (attempt : Nat) (old : Option Journal) (ins outs : List (Nat × Nat))
    (s : State) : State :=
  let pins := ((inputsOf t).map (·.2)).zip (ins.map (·.2))
  let writes := ((outputsOf t).map (·.2.1)).zip (outs.map (·.2))
  let first := old.isNone && attempt == 0
  let s := if (old.map (·.pinned)).getD false then s else forEach pins (fun rv s => pinRoom rv.1 rv.2 s) s
  let s := if first then forEach (keepsFor p (dTask t.desc)) (fun lr s => forEach pins (fun rv s => keepVer job lr rv.1 rv.2 s) s) s
    else s
  let s := if first then forEach writes (fun rv s => forEach (keptCopies p t rv.1) (fun lr s => keepVer job lr rv.1 rv.2 s) s) s
    else s
  forEach (outputsOf t) (fun o s => updRoom o.2.1 (fun r => { r with active := r.active + 1 }) s) s

/-- The journal entry of a dispatch (13 R371, Table 13-11). -/
def launchEntry (s : State) (j : Job) (job : Nat) (t : PlanTask) (core attempt : Nat) (base : W64) (old : Option Journal)
    (ins outs : List (Nat × Nat)) : Journal := {
  job := job, taskId := BitVec.ofNat 32 (dTask t.desc), handle := j.handle, step := j.step, core := core,
  state := if attempt == 0 then 0 else 2, lastCode := (old.map (·.lastCode)).getD 0, slot := t.slot,
  descAddr := base, pass := passNow s,
  streamVer := (List.range 10).map (fun k => match ((inputsOf t).zip ins).find? (fun x => x.1.1 == k) with
    | some x => (BitVec.ofNat 16 x.1.2, BitVec.ofNat 16 x.2.2)
    | none => (0xFFFF, 0)),
  outVer := match (outputsOf t).find? (fun o => o.1 == 3), outs.find? (fun o => o.1 == 3) with
    | some o, some v => (BitVec.ofNat 16 o.2.1, BitVec.ofNat 16 v.2)
    | _, _ => (0xFFFF, 0),
  attempt := attempt, room := t.room, pinned := true }

/-- An entry of the journal is written: a new one, or the old one again. -/
def putEntry (job id : Nat) (again : Bool) (e : Journal) (s : State) : State :=
  if again then setJournal job id (fun _ => e) s
  else { s with porter := { s.porter with journal := s.porter.journal ++ [e] } }

/-- What a job notes of a dispatch: the versions read, and the followers of a bank that the task holds (04 R100). -/
def noteLaunch (p : Plan) (job id core : Nat) (d : BitVec 2048) (ins : List (Nat × Nat)) (s : State) : State :=
  updJob job (fun j => { j with
    reads := j.reads ++ ins.map (fun kv => (id, kv.1, kv.2))
    holds := (j.holds.filter (fun h => h.2 != id)) ++
      (if dAccHold d then ((p.tasks.filter (fun u => dAccInit u.desc == 2 && u.deps.any (fun x => x.toNat == id))).map
        (fun u => (core, dTask u.desc))) else []) }) s

/-- The descriptor and its auxiliary streams are written, the task room changes hands, and the initiator has the task. -/
def handOver (t : PlanTask) (core attempt : Nat) (handle : W32) (base : W64) (d : BitVec 2048) (ins outs : List (Nat × Nat))
    (s : State) : State :=
  let s := if dNaux d > 1 then wr (dAuxAddr d) (finalAux t ins outs) s else s
  let s := flipRoom t.room.toNat true (wr base.toNat (recBytes d) s)
  setCore core (fun k => if k.running.isNone then { k with running := some (newRun d handle t.room attempt) }
    else { k with admitted := some (newRun d handle t.room attempt) }) s

/-- The dispatch of a task whose outputs are open. -/
def launched (p : Plan) (job : Nat) (t : PlanTask) (core attempt : Nat) (j : Job) (base : W64) (old : Option Journal)
    (ins : List (Nat × Nat)) (s : State) : State :=
  let d := finalDesc t core j.step ins (launchOuts j t)
  let s := launchPins p job t attempt old ins (launchOuts j t) s
  let s := putEntry job (dTask t.desc) old.isSome (launchEntry s j job t core attempt base old ins (launchOuts j t)) s
  let s := setTask job (dTask t.desc) .running (noteLaunch p job (dTask t.desc) core d ins s)
  let s := handOver t core attempt j.handle base d ins (launchOuts j t) s
  { s with steps := { s.steps with highest := if s.steps.highest < j.step then j.step else s.steps.highest } }

/-- Dispatch a ready task to an initiator: pins, journal, descriptor, hand-over (13 R371). None where the dispatch is
held by its rooms. -/
def launch (p : Plan) (job : Nat) (t : PlanTask) (core attempt : Nat) (s : State) : Option State :=
  match jobAt s job, roomAt s t.room.toNat with
  | some j, some r =>
    if r.engines || r.fresh != 0 || r.active != 0 || pinned r || (inputsOf t).any (fun k => inputHeld s t k.2) then none
    else
      let old := journalOf s job (dTask t.desc)
      let ins := launchIns s p j t old
      (if old.isSome then some s else openOutputs p job t (outputsOf t) s).bind (fun u =>
        (jobAt u job).map (fun j => launched p job t core attempt j r.base old ins u))
  | _, _ => none

/-- A task that waits for dispatch: job, task, its class, when it became ready, the ATTEMPT it runs with. -/
structure Cand where
  job : Nat
  task : PlanTask
  since : Nat
  attempt : Nat

/-- Micro-batch slots that the job may work on: the lowest IN_FLIGHT of those whose tasks have not all settled (09 R244; the
lowest first is DESIGN CHOICE, log 129). -/
def openSlots (p : Plan) (j : Job) : List Nat :=
  let left := j.tasks.filter (fun q => match q.2 with | .done => false | .endedWith _ => false | .lost => false | _ => true)
  ((List.range 4).filter (fun n => left.any (fun q => ((planTask p q.1).map (fun t => t.slot.toNat == n)).getD false))).take p.inFlight

/-- Ready tasks in Porter's order: replays, whose dependencies are done again, then due tasks (ready for 64 passes), then
the rest (15 R415). -/
def candidates (s : State) (pass : Nat) : List Cand :=
  let all := (jobs s).flatMap (fun j =>
    if j.failing.isSome || (j.id == 0 && !s.steps.begun && (!s.steps.actions.isEmpty || gradientsHeld s)) then []
    else match planOf s j.handle with
      | none => []
      | some p =>
        let slots := openSlots p j
        j.tasks.filterMap (fun q => match planTask p q.1 with
          | none => none
          | some t =>
            if t.slot.toNat < 4 && !slots.contains t.slot.toNat then none
            else match q.2 with
              | .again a => if depsDone j t then some ⟨j.id, t, 0, a⟩ else none
              | .waiting (some n) => some ⟨j.id, t, n, 0⟩
              | _ => none))
  let replays := all.filter (fun c => c.attempt != 0)
  let rest := sortBy (fun a b => a.since ≤ b.since) (all.filter (fun c => c.attempt == 0))
  replays ++ rest.filter (fun c => c.since + 64 ≤ pass) ++ rest.filter (fun c => pass < c.since + 64)

def noTaskAdmitted (s : State) : Bool := s.cores.all (fun c => decide (384 ≤ c.1) || (coreTasks c.2).isEmpty)

/-- The running account of a pass: the cost so far, in thousandths of a watt, and the due tasks not yet dispatched. -/
structure Account where
  cost : Nat
  due : List Nat
  idle : Bool

def taskCost (s : State) (e core : Nat) : Nat :=
  classPower e * (if core < 384 then ratedRate (pointOf s (towerOf core)) else 100)

/-- One ready task of the pass (15 R415). `first` prepares the step at its first dispatch. -/
def dispatchOne (first : State → State) (c : Cand) (sa : State × Account) : State × Account :=
  let (s, a) := sa
  let e := dEnergy c.task.desc
  let w := s.porter.budgetRead
  match jobAt s c.job with
  | none => sa
  | some j => match planOf s j.handle with
    | none => sa
    | some p =>
      if a.due.any (fun d => e < d) && !(a.due.contains e) && c.attempt == 0 then sa
      else if 8192 ≤ s.porter.journal.length && (journalOf s c.job (dTask c.task.desc)).isNone then sa
      else
        let held := lagHeld s p j c.task
        if !held.isEmpty then
          (updJob c.job (fun j => { j with stalled := j.stalled ++
            (held.filter (fun i => !j.stalled.any (fun x => x.1 == i))).map (fun i => (i, (paceAt s 63).beats)) }) s, a)
        else match placeTask s p j c.task with
          | none => sa
          | some core =>
            let cost := taskCost s e core
            if !a.idle && (decide (fld w 33 3 < e) || decide (fld w 36 12 * 4000 < a.cost + cost)) then sa
            else
              let s0 := if j.id == 0 && !s.steps.begun then first s else s
              match launch p c.job c.task core c.attempt s0 with
              | none => sa
              | some s1 =>
                (s1, { cost := a.cost + cost, due := a.due.erase e, idle := false })

/-- Step 6 of a dispatch pass (13 R365, 15 R415); HALT holds it (13 Table 13-7). -/
def dispatchReady (first : State → State) (s : State) : State :=
  let s := { s with steps := { s.steps with
    job := s.steps.job.map (fun (j : Job) => ((planOf s j.handle).map (fun p => markReady s p j)).getD j)
    runs := s.steps.runs.map (fun (j : Job) => ((planOf s j.handle).map (fun p => markReady s p j)).getD j) } }
  if s.porter.halted then s
  else
    let cs : List Cand := candidates s s.porter.pass
    let due := (cs.filter (fun (c : Cand) => c.attempt == 0 && c.since + 64 ≤ s.porter.pass)).map (fun (c : Cand) => dEnergy c.task.desc)
    (cs.foldl (fun sa c => dispatchOne first c sa) (s, { cost := 0, due := due, idle := noTaskAdmitted s })).1

/-! ### In-service tests that Porter files (16 R434, R435) -/

def fileTest (kind target : Nat) (s : State) : State :=
  { s with tests := { s.tests with
    reqs := s.tests.reqs ++ [{ number := s.tests.nextReq, kind := kind, target := target, session := 0xFFFF, filed := true,
                               begun := kind != 2 && kind != 3, todo := [] }]
    nextReq := s.tests.nextReq + 1 } }

/-- Table 16-4. -/
def fileForFault (code core : Nat) (s : State) : State :=
  if core < 384 then
    let s := if code == ccMem then fileTest 1 core s else s
    let s := if code == ccXtimeout then fileTest 4 (towerOf core) s else s
    fileTest 2 core s
  else if code == ccMem then
    if core == 0x188 then fileTest 1 0x204 (fileTest 1 0x203 s) else fileTest 1 (0x200 + (core - 0x180)) s
  else s

/-! ### Endings (02 R52, 04 R122, 13 R372 to R374, R508) -/

/-- Release the pins that a journal entry's run holds (07 R202). -/
def releasePins (e : Journal) (s : State) : State :=
  if !e.pinned then s
  else
    let s := { s with porter := { s.porter with journal := s.porter.journal.map (fun x => if x == e then { x with pinned := false } else x) } }
    forEach (e.streamVer.filter (fun rv => rv.1 != 0xFFFF)) (fun rv s => unpinRoom rv.1.toNat rv.2.toNat s) s

/-- Rooms of the versions a task writes. -/
def outRooms (s : State) (e : Journal) : List Nat :=
  ((planOf s e.handle).bind (fun p => planTask p e.taskId.toNat)).elim [] (fun t => (outputsOf t).map (·.2.1))

/-- The ACC_HOLD chain that ends with a task, its head first (04 R100). -/
def chainOf (p : Plan) : Nat → PlanTask → List PlanTask
  | 0, t => [t]
  | n + 1, t =>
    if dAccInit t.desc != 2 then [t]
    else match (t.deps.filterMap (fun d => planTask p d.toNat)).find? (fun u => dAccHold u.desc) with
      | some u => chainOf p n u ++ [t]
      | none => [t]

/-- The step's work is lost: its notices not yet sent carry CAUSE 0b10 (02 R52 item 2). -/
def workLost (s : State) : State :=
  if s.steps.job.isSome then { s with steps := { s.steps with workLost := true } } else s

/-- A task's work is lost: of the step, and of every task that needs it. -/
def loseTask (job id : Nat) (s : State) : State :=
  spreadLoss job (setTask job id .lost ((if job == 0 then workLost else fun s => s) s))

/-- Parameter entries bound to the experts that this module holds. -/
def expertEntries (p : Plan) : List Nat := (p.bindings.filter (fun b => b.mine)).flatMap (fun b => b.entries)

/-- An entry that is lodged: bound to an expert and not frozen. -/
def isLodged (p : Plan) (e : BitVec 512 × Nat) : Bool := (expertEntries p).contains e.2 && !peFrozen e.1

/-- Porter asks for a tensor's state, or one block's, after the update of a step: of the lodging partner first where the
tensor is lodged, else of the replicas that the fabric manager names (08 R232). -/
def requestState (p : Plan) (e : BitVec 512 × Nat) (b : Option Nat) (u : W64) (s : State) : State :=
  let dest := if s.lodge.partner != 0xFFFF && isLodged p e then s.lodge.partner else 0xFFFF
  emit (.stateRequest dest (BitVec.ofNat 32 (peTensor e.1)) b u)
    { s with params := { s.params with fetching := s.params.fetching ++ [(e.2, b, u)] } }

/-- Gradient versions of a failed step that are still fresh are abandoned; the tensor's state after the step is then
taken from a source (08 R237). -/
def abandonGradients (p : Plan) (step : W64) (s : State) : State :=
  forEach (stepParams s) (fun (e, i) s =>
    match roomAt s (peGradRoom e) with
    | some r =>
      if peResident e && !peFrozen e && r.fresh != 0 && r.freshStep == step then requestState p (e, i) none step s else s
    | none => s) s

/-- Porter fails the open step: STEP_RUN completes, every fresh version of the step is abandoned, its journal entries are
retired, and a queued STEP_RUN has no step to follow (07 R203, 06 R172, 13 R364, R372; log 14). -/
def failStep (st detail : Nat) (s : State) : State :=
  match s.steps.job with
  | none => s
  | some j =>
    let s := match planOf s j.handle with
      | some p => abandonGradients p j.step s
      | none => s
    let s := forEach ((s.rooms.filter (fun p => p.2.fresh != 0 && p.2.freshStep == j.step && j.step != 0)).map (·.1))
      abandonFresh s
    let mine := s.porter.journal.filter (fun e => e.job == 0)
    let ended := mine.filter (fun e => !(((roomAt s e.room.toNat).map (·.engines)).getD false))
    let s := forEach ended (fun e s => releasePins e s) s
    let s := forEach j.keeps (fun k s => unpinRoom k.2.1 k.2.2 s) s
    let s := { s with porter := { s.porter with
      journal := (s.porter.journal.filter (fun e => !(e.job == 0 && ended.any (fun x => x.taskId == e.taskId)))).map
        (fun e => if e.job == 0 then { e with state := 5, job := s.steps.nextRun } else e) } }
    let s := finish (fun p => p.wait == Wait.step j.step) { st := st, detail := detail } s
    let s := match s.steps.queued with
      | some q => finish (fun p => p.wait == Wait.step q.1) { st := stWrongState } s
      | none => s
    { s with
      steps := { s.steps with job := none, begun := false, queued := none, nextRun := s.steps.nextRun + 1, workLost := false, nonFinite := false,
                              verdict := none, record := .reset }
      cap := { s.cap with frAmax := [] } }

/-- Whether a job has a task in the engines' hands. -/
def jobRunning (j : Job) : Bool := j.tasks.any (fun q => q.2 == .running)

/-- Nothing of the job is running or can still be dispatched. -/
def jobSettled (j : Job) : Bool :=
  j.tasks.all (fun q => match q.2 with | .done => true | .endedWith _ => true | .lost => true | _ => false)

/-- A TASKS_RUN completes when every task of its range has ended or been withheld (13 R508). -/
def settleRun (id : Nat) (s : State) : State :=
  match jobAt s id with
  | none => s
  | some j =>
    if id == 0 || !jobSettled j then s
    else
      let bad := j.tasks.filterMap (fun q => match q.2 with | .endedWith c => some c | .lost => some ccCoreStopped | _ => none)
      let s := finish (fun p => p.wait == Wait.tasks id)
        (match bad with | [] => { st := stDone } | c :: _ => { st := stDeviceFault, detail := 0x100 + c }) s
      let s := forEach j.keeps (fun k s => unpinRoom k.2.1 k.2.2 s) s
      let s := forEach (s.porter.journal.filter (fun e => e.job == id)) releasePins s
      let s := forEach j.outs (fun o s => match roomAt s o.2.1 with
        | some r => if r.fresh.toNat == o.2.2 && r.fresh != 0 then abandonFresh o.2.1 s else s
        | none => s) s
      { s with steps := { s.steps with runs := s.steps.runs.filter (fun r => r.id != id) },
               porter := { s.porter with journal := s.porter.journal.filter (fun e => e.job != id) } }

/-- A failing step fails once its running tasks have ended (04 R122). -/
def settleStep (s : State) : State :=
  match s.steps.job with
  | some j => match j.failing with
    | some d => if jobRunning j then s else failStep stDeviceFault d s
    | none => s
  | none => s

def setFailing (job detail : Nat) (s : State) : State :=
  updJob job (fun j => { j with failing := some (j.failing.getD detail) }) s

/-- A run on another initiator, with ATTEMPT 2. -/
def runElsewhere (job id : Nat) (cores : List Nat) (s : State) : State :=
  setTask job id (.again 2) (updJob job (fun j => { j with only := tset j.only id cores }) s)

def layerOf (c : Nat) : List Nat := (List.range 16).map (fun i => c / 16 * 16 + i)

/-- A holding task that has not ended with DONE leaves no bank for its follower (04 R100). -/
def dropHold (p : Plan) (job id : Nat) (s : State) : State :=
  updJob job (fun j => { j with holds := j.holds.filter (fun h =>
    !((planTask p h.2).map (fun u => u.deps.any (fun x => x.toNat == id))).getD false) }) s

/-- A task has ended otherwise than with DONE: replay, a run elsewhere, lost work or the end of its step (02 R52, 04 R122, 13
R373, R374). The CELLAR mover reaches every tier and the Mere (07 R212). -/
def endOtherwise (p : Plan) (e : Journal) (t : PlanTask) (code : Nat) (s : State) : State :=
  let id := e.taskId.toNat
  let job := e.job
  let core := e.core
  let giveUp (s : State) : State :=
    if job == 0 then setFailing 0 (0x100 + code) (setTask 0 id (.endedWith code) s)
    else spreadLoss job (setTask job id (.endedWith code) s)
  let slotted := t.slot != 0xFF
  if code == 1 || code == 2 || code == 8 then giveUp (setJournal job id (fun e => { e with state := 4 }) s)
  else if code == ccCoreStopped || code == ccTowerStopped then
    let s := setJournal job id (fun e => { e with state := 4 }) s
    if slotted || job != 0 || !mereOnly t then
      if job == 0 then loseTask 0 id s else spreadLoss job (setTask job id (.endedWith code) s)
    else
      let others := if code == ccCoreStopped then (layerOf core).filter (· != core)
        else (List.range 384).filter (fun c => towerOf c != towerOf core && towerOn s (towerOf c))
      if others.isEmpty then giveUp s else runElsewhere 0 id others s
  else if e.attempt == 0 then
    -- a replay, from the head of the chain for HELD_LOST or a holding task (13 R373, 04 R100)
    let chain := if code == ccHeldLost || dAccHold t.desc then chainOf p 16 t else [t]
    forEach chain (fun u s => setTask job (dTask u.desc) (.again 1)
      (updJob job (fun j => { j with only := tset j.only (dTask u.desc) [core] }) s)) s
  else if e.attempt == 1 then
    -- lasting (13 R374)
    let s := raiseCtrl 0x8202 [a4 id, a2 core, a2 e.lastCode, a2 code] (setJournal job id (fun e => { e with state := 3 }) s)
    let s := fileForFault code core (setCore core (fun k => if core < 384 then { k with withheld := true } else { k with toBoundary := true }) s)
    if job != 0 then spreadLoss job (setTask job id (.endedWith code) s)
    else if slotted then loseTask 0 id s
    else if core < 384 && mereOnly t then runElsewhere 0 id ((layerOf core).filter (· != core)) s
    else if 384 ≤ core && core != 0x188 then runElsewhere 0 id [0x188] s
    else giveUp s
  else giveUp (setJournal job id (fun e => { e with state := 4 }) s)

/-- Porter processes the completion record in a task room that the engines have handed back (13 R372). -/
def processRecord (e : Journal) (rec : BitVec 512) (s : State) : State :=
  let id := e.taskId.toNat
  let code := recCode rec
  match planOf s e.handle with
  | none => retireJournal e.job id s
  | some p => match planTask p id with
    | none => retireJournal e.job id s
    | some t =>
      if e.state == 5 then
        -- the step has failed: nothing is owed any more
        retireJournal e.job id (forEach (outRooms s e) writerEnded (releasePins e s))
      else if code == ccDone then
        let s := forEach (outRooms s e) writerDone (releasePins e s)
        let s := if e.attempt == 1 then raiseCtrl 0x8201 [a4 id, a2 e.core, a2 e.lastCode] s else s
        let s := if recNumst rec % 4 != 0 && e.job == 0 then { s with steps := { s.steps with nonFinite := true } } else s
        let s := setTask e.job id .done s
        let s := match jobAt s e.job with
          | some j => updJob e.job (fun j => { j with keeps := j.keeps.filter (fun k => k.1 != id) })
              (forEach (j.keeps.filter (fun k => k.1 == id)) (fun k s => unpinRoom k.2.1 k.2.2 s) s)
          | none => s
        let s := if dAccHold t.desc then setJournal e.job id (fun e => { e with state := 1 }) s
          else forEach (chainOf p 16 t) (fun u s => retireJournal e.job (dTask u.desc) s) s
        settleStep (settleRun e.job s)
      else
        let s := forEach (outRooms s e) writerEnded s
        let s := setJournal e.job id (fun e => { e with lastCode := code }) s
        let s := endOtherwise p e t code (dropHold p e.job id s)
        let again := match (jobAt s e.job).map (fun j => taskState j id) with | some (.again _) => true | _ => false
        -- the next run takes over the pins of this one (13 R373)
        let s := match journalOf s e.job id with | some x => if again then s else releasePins x s | none => s
        settleStep (settleRun e.job s)

/-! ### Stopping a core, removing a tower (02 R52, 14 R391) -/

/-- The plan of the open step places on the core a task that has not yet run, or data of the step lies in its slice. -/
def stepUses (s : State) (c : Nat) : Bool :=
  match s.steps.job with
  | none => false
  | some j => match planOf s j.handle with
    | none => false
    | some p => j.tasks.any (fun q => match planTask p q.1 with
      | none => false
      | some t => q.2 != .lost && pondCore s t == some c)

def tasksOn (s : State) (c : Nat) : List TaskRun := coreTasks (coreAt s c)

/-- Tasks of the open step bound to the core that have not run lose their work. -/
def loseBound (c : Nat) (s : State) : State :=
  match s.steps.job with
  | none => s
  | some j => match planOf s j.handle with
    | none => s
    | some p => forEach (j.tasks.filter (fun q => match q.2, planTask p q.1 with
        | .waiting _, some t => pondCore s t == some c
        | .again _, some t => pondCore s t == some c
        | _, _ => false)) (fun q s => loseTask 0 q.1 s) s

/-- A core is fenced or retired: its tasks stop, and the open step loses its work where R52 says so. -/
def stopCore (c : Nat) (s : State) : State :=
  let onStep := (tasksOn s c).any (fun t => dStep t.desc != 0)
  let s := if s.steps.job.isSome && (onStep || stepUses s c) then workLost s else s
  let s := loseBound c s
  setCore c (fun k => { k with
    running := k.running.map (fun t => { t with ended := some ccCoreStopped })
    admitted := k.admitted.map (fun t => { t with ended := some ccCoreStopped })
    held := none }) s

/-- Porter writes the completion record of a task whose core cannot, and hands the room back (01 R15, 04 R121). -/
def stoppedRecord (c : Nat) (t : TaskRun) (s : State) : State :=
  flipRoom t.room.toNat false
    (wr (dCplAddr t.desc) (recBytes (cplRecord t.desc c ccTowerStopped 0 t.attempt 0 (outVersion t.desc) none)) s)

/-- TLn of a tower is off: registers, queues, accumulators and instruction stores are lost, its domains stand still
(14 Table 14-3, 02 Table 2-3). -/
def logicOff (t : Nat) (s : State) : State :=
  let s := forEach (coresOfTower t) (fun c s => match tfind? s.cores c with
    | some _ => setCore c (fun k => { Core.reset with withheld := k.withheld, toBoundary := k.toBoundary }) s
    | none => s) s
  let s := forEach [3 * t, 3 * t + 1, 3 * t + 2] (fun d s => setPace d (fun p => { p with gated := true, halted := false }) s) s
  { s with power := { s.power with domains := tset s.power.domains t .off } }

/-- Keeper removes TLn without the drain; Porter answers for its tasks (14 R391). -/
def removeTower (t : Nat) (s : State) : State :=
  if tget s.power.domains t .off == .off then s
  else
    let lost := (coresOfTower t).any (fun c => (tasksOn s c).any (fun r => dStep r.desc != 0) || stepUses s c)
    let s := if lost then workLost s else s
    let s := forEach (coresOfTower t) (fun c s => loseBound c (forEach (tasksOn s c) (stoppedRecord c) s)) s
    logicOff t s

/-! ### Ending a task with a code -/

/-- End a task with a code where no cause stands yet; a crossing-timeout error carries cause gated or not (02 R39). -/
def endRun (c : Nat) (first : Bool) (code : Nat) (gated : Bool) (s : State) : State :=
  setCore c (fun k =>
    let f (t : TaskRun) : TaskRun := if t.ended.isSome then t else { t with ended := some code, causeGated := gated }
    if first then { k with running := k.running.map f } else { k with admitted := k.admitted.map f }) s

/-- The running task of a core or mover fails with a code, where no cause stands yet (04 R115). -/
def failTask (core code : Nat) (s : State) : State :=
  setCore core (fun k => { k with running := k.running.map (fun t => { t with ended := some (t.ended.getD code) }) }) s

end Sys2Proof.Machine
end

