-- ==== Sys2Proof/Machine/Channels.lean ====
section
/-! DEFINITION. Vertical channels: the repair ladder of Table 2-8, lending between partner cores, and the retirement of a
core (02 R41 to R53). -/

namespace Sys2Proof.Machine

/-! ### Channel state (02 Table 2-9) -/

def csWhole : Nat := 0
def csLower : Nat := 1
def csUpper : Nat := 2
def csLending : Nat := 3
def csBorrowing : Nat := 4
def csRetired : Nat := 5

def partner (c : Nat) : Nat := c ^^^ 1

/-- Spares left in a group: two less the fused remaps and those used since (02 R44). -/
def sparesLeft (c g : Nat) (x : Channel) : Nat := 2 - min 2 (Config.fusedRemaps c g) - (tget x.groups g .reset).used

/-- A half of the channel carries a failed group: half 0 is groups 0 to 31 (02 R41). -/
def halfFailed (x : Channel) (half : Nat) : Bool := x.groups.any (fun p => p.1 / 32 == half && p.2.failed)

/-- The group carries traffic (02 R49). -/
def groupInUse (st g : Nat) : Bool :=
  if st == csLower then decide (g < 32) else if st == csUpper then decide (32 ≤ g) else decide (st < 4)

def setChanState (c st : Nat) (s : State) : State := capBump (setChan c (fun x => { x with state := BitVec.ofNat 3 st }) s)

/-- Event 0x2102, 0x2103, 0x2104 or, at power-up, 0x2105: core and new state. -/
def chanEvent (powerUp : Bool) (code c : Nat) (s : State) : State :=
  raise (if powerUp then 0x2105 else code) data (coreDie c) [a2 c, a2 (chanState s c)] s

/-- Lending ends: the lender's core number and its new state (02 R47). -/
def lendingEnded (lender : Nat) (s : State) : State :=
  raise 0x2106 data (coreDie lender) [a2 lender, a2 (chanState s lender)] s

/-- A core is retired (02 R47, R52): its borrower is retired with it, and a lender gets its slice back. -/
def retireCore (powerUp : Bool) (c : Nat) (s : State) : State :=
  let old := chanState s c
  if old == csRetired then s
  else
    let s := chanEvent powerUp 0x2104 c (setChanState c csRetired (stopCore c s))
    if old == csLending then
      let b := partner c
      lendingEnded c (chanEvent false 0x2104 b (setChanState b csRetired (stopCore b s)))
    else if old == csBorrowing then lendingEnded (partner c) (setChanState (partner c) csWhole s)
    else s

/-- The channel runs on one half; a borrower of this core is retired (02 R45, R47). -/
def halfWidth (powerUp : Bool) (c st : Nat) (s : State) : State :=
  let old := chanState s c
  let s := chanEvent powerUp 0x2102 c (setChanState c st s)
  if old == csLending then
    let b := partner c
    lendingEnded c (chanEvent false 0x2104 b (setChanState b csRetired (stopCore b s)))
  else s

/-- The slice goes out of use until the next power-up (02 R49). -/
def markFenced (c : Nat) (s : State) : State := setChan c (fun x => { x with fenced := true }) s

/-- The slice is fenced, its contents lost, and half of the partner's slice is borrowed (02 R45, R49). -/
def fenceSlice (powerUp : Bool) (c : Nat) (s : State) : State :=
  let s := setChanState (partner c) csLending (setChanState c csBorrowing (stopCore c s))
  chanEvent powerUp 0x2103 c (markFenced c { s with mem := s.mem.zero (sliceBase c) sliceLen })

/-- The partner's channel is whole: state 0b000 with no failed group (02 R48). -/
def wholeNow (s : State) (c : Nat) : Bool :=
  chanState s c == csWhole && !halfFailed (chan s c) 0 && !halfFailed (chan s c) 1

/-- The ladder's rows but the first, once failed groups are marked. A result that is the present state changes nothing. -/
def settleChannel (powerUp : Bool) (c : Nat) (s : State) : State :=
  let st := chanState s c
  let lo := halfFailed (chan s c) 0
  let hi := halfFailed (chan s c) 1
  if 4 ≤ st || (!lo && !hi) then s
  else if lo && hi then
    if wholeNow s (partner c) then fenceSlice powerUp c s
    else retireCore powerUp c (if st == csLending then markFenced c s else s)
  else
    let n := if lo then csUpper else csLower
    if n == st then s else halfWidth powerUp c n s

/-- A lasting failure of a group found by a bond test: a spare, or a failed group to settle (02 R45). -/
def groupFailure (c g : Nat) (s : State) : State :=
  if !groupInUse (chanState s c) g then s
  else if sparesLeft c g (chan s c) != 0 then
    raise 0x2101 data (coreDie c) [a2 c, a2 (chanState s c)]
      (setChan c (fun x => { x with groups := tmod x.groups g .reset (fun r => { r with used := r.used + 1 }) }) s)
  else setChan c (fun x => { x with groups := tmod x.groups g .reset (fun r => { r with failed := true }) }) s

/-- A slice without a spare row is handled as a channel with a failed group in both halves (07 R192). -/
def sliceFailure (c : Nat) (s : State) : State :=
  if 4 ≤ chanState s c then s
  else
    let f (r : Group) : Group := { r with failed := true }
    settleChannel false c (setChan c (fun x => { x with groups := tmod (tmod x.groups 0 .reset f) 32 .reset f }) s)

/-- A row of a slice is remapped to one of the 16 spares and reads as +0; without a spare the slice fails (07 R192). -/
def remapRow (c row : Nat) (s : State) : State :=
  let used := tget s.mem.sparedRows c []
  if 16 ≤ used.length then sliceFailure c (raise 0x3104 data (pondDie c) [a2 c] s)
  else
    let m := s.mem.zero (sliceBase c + 4096 * row) 4096
    raise 0x3103 data (pondDie c) [a2 c, a2 row] { s with mem := { m with sparedRows := tset m.sparedRows c (used ++ [row]) } }

/-! ### CHANNEL_PARITY_ERROR, BOND_TEST_DONE, COMMAND_LANE_BOND_FAIL -/

/-- A parity error repeats the transfer; a second failure of the group starts its bond test (02 R42, R49). -/
def channelParityError (c g : Nat) (again : Bool) (s : State) : State :=
  if !groupInUse (chanState s c) g then s
  else if again then
    setChan c (fun x => { x with groups := tmod x.groups g .reset (fun r => { r with testing := true }) }) s
  else setChan c (fun x => { x with transients := x.transients + 1 }) s

def execChannelParityError (core : Fin 384) (group : Fin 64) (again : Bool) (s : State) : Host.Outcome State Fault Refusal :=
  .next (channelParityError core.val group.val again s)

def endTesting (c : Nat) (s : State) : State :=
  setChan c (fun x => { x with groups := x.groups.map (fun p => (p.1, { p.2 with testing := false })) }) s

/-- The bond tests of a core's groups end, with those of its partner found in the same beat; each failing bond takes a
spare or the ladder applies (02 R45, R48). -/
def bondTestDone (c : Nat) (groups also : List Nat) (s : State) : State :=
  let p := partner c
  let s := endTesting c s
  let s := forEach groups (fun g s => groupFailure c g s) s
  let s := if also.isEmpty then s else forEach also (fun g s => groupFailure p g s) (endTesting p s)
  let s := settleChannel false c s
  if also.isEmpty then s else settleChannel false p s

def execBondTestDone (core : Fin 384) (groups also : List (Fin 64)) (s : State) : Host.Outcome State Fault Refusal :=
  .next (bondTestDone core.val (groups.map (·.val)) (also.map (·.val)) s)

/-- A failing bond of a command lane, of the upward or the downward one, is outvoted and counted; a second copy of the lane
failing at the same bit position retires the core, a borrower too (02 R43, R47; bit positions count in each lane from 0,
DESIGN CHOICE, log 118). -/
def commandLaneBondFail (c : Nat) (up : Bool) (copy : Fin 3) (bit : Nat) (s : State) : State :=
  if chanState s c == csRetired then s
  else
    let fails := (chan s c).laneFails
    let s := setChan c (fun x => { x with
      laneFails := if fails.contains (up, copy, bit) then fails else fails ++ [(up, copy, bit)] }) s
    if fails.any (fun f => f.1 == up && f.2.1 != copy && f.2.2 == bit) then retireCore false c s else s

def execCommandLaneBondFail (core : Fin 384) (lane : CommandLane) (bit : Nat) (s : State) : Host.Outcome State Fault Refusal :=
  .next (commandLaneBondFail core.val lane.up lane.copy bit s)

end Sys2Proof.Machine
end

