-- ==== Sys2Proof/Machine/Sessions.lean ====
section
/-! DEFINITION. Endings that several commands share: a snapshot, a DMA transfer, a session, a mailbox's binding
(12 R330, R335, R342, 13 R359, 18 R483). -/

namespace Sys2Proof.Machine

/-! ### Snapshots (12 R342) -/

def snapId (x : Snapshot) : Nat := fld x.req 448 64
def snapDest (x : Snapshot) : Nat := fld x.req 442 2
def snapPort (x : Snapshot) : PortFn := if fld x.req 440 1 == 1 then .stor else .host
def snapSigned (x : Snapshot) : Bool := fld x.req 441 1 == 1

/-- The snapshot's rooms and pins are released. -/
def dropSnapshot (s : State) : State :=
  match s.snap with
  | none => s
  | some x =>
    let s := forEach x.pins (fun rv s => unpinRoom rv.1.toNat rv.2.toNat s) { s with snap := none }
    let s := { s with steps := { s.steps with actions := s.steps.actions.filter (· != Boundary.snapshot) } }
    releaseNow x.staging.toNat (releaseNow x.room.toNat s)

/-- A snapshot ends without shipping: event 0x8902 with its cause. -/
def endSnapshot (cause : Nat) (s : State) : State :=
  match s.snap with
  | none => s
  | some x => dropSnapshot (raiseCtrl 0x8902 [a8 (snapId x), a2 cause] s)

/-! ### DMA transfers (12 R328, R330) -/

/-- Every DMA transfer of a port function stops; the copy commands end with DEVICE_FAULT (log 18). -/
def stopDma (f : PortFn) (s : State) : State :=
  let s := { s with ports := { s.ports with dmas := s.ports.dmas.filter (fun d => d.1 != f) } }
  finishAll s.porter.outstanding.length
    (fun p => p.wait == Wait.dma && fnOfMb s p.cmd.mailbox.val == f) { st := stDeviceFault } s

/-! ### Sessions (13 R359, 12 R330) -/

/-- A mailbox becomes unbound: indices and completion entries 0, phase 1 (13 R359). -/
def unbindMb (n : Nat) (s : State) : State :=
  setMb n (fun m => { m with
    cq := [], sqTail := 0, sqHead := 0, cqHead := 0, cqTail := 0, phase := true, state := 0, session := 0, taken := 0,
    ending := false }) s

/-- Unbind a mailbox of an ended session once CQ_HEAD has passed its last completion. -/
def settleMb (n : Nat) (s : State) : State :=
  let m := mbAt s n
  if m.ending && m.cqHead == m.cqTail then unbindMb n s else s

/-- The session's outstanding commands end without completions; their arguments are unpinned (13 R352, R359). -/
def dropCommands (id : W16) (s : State) : State :=
  let mine := s.porter.outstanding.filter (fun p => p.session == id)
  let s := { s with porter := { s.porter with outstanding := s.porter.outstanding.filter (fun p => p.session != id) } }
  forEach mine (fun p s =>
    if p.cmd.mailbox.val < 64 && p.cmd.argLen != 0 && p.cmd.argVersion != 0
    then unpinRoom p.cmd.argRoom.toNat p.cmd.argVersion.toNat s else s) s

/-- Plans end with the owner session; the text of one that the journal or a job still names is
kept until its tasks have ended. -/
def dropPlan (h : Nat) (s : State) : State :=
  if s.porter.journal.any (fun e => e.handle.toNat == h) || (jobs s).any (fun j => j.handle.toNat == h) then
    { s with porter := { s.porter with unloaded := addNew s.porter.unloaded h } }
  else { s with porter := { s.porter with plans := tdel s.porter.plans h } }

/-- A plan that commands may name. -/
def livePlan (s : State) (h : W32) : Option Plan :=
  if s.porter.unloaded.contains h.toNat then none else planOf s h

/-- Forerunner towers leave the mode: at once where TPn is off, else through Table 18-1 (18 R483). -/
def leaveForerunner (s : State) : State :=
  forEach [0, 1, 2, 3] (fun t s =>
    if !s.cap.frTowers.getLsbD t then s
    else if pondOn s t then { s with cap := { s.cap with leaving := s.cap.leaving ||| BitVec.ofNat 4 (2 ^ t) } }
    else capBump { s with cap := { s.cap with frTowers := s.cap.frTowers &&& ~~~BitVec.ofNat 4 (2 ^ t) } }) s

/-- TASKS_RUN jobs dispatch no task for the first time any more: what has not been dispatched is withheld; with `replays`
what owes a run from its journal entry is withheld too. -/
def stopRuns (replays : Bool) (s : State) : State :=
  let s := { s with steps := { s.steps with runs := s.steps.runs.map (fun j => { j with
    tasks := j.tasks.map (fun q => match q.2 with
      | .waiting _ => (q.1, .lost)
      | .again _ => if replays then (q.1, .lost) else q
      | _ => q) }) } }
  forEach (s.steps.runs.map (·.id)) settleRun s

/-- Whole-tower tests that have not begun are cancelled once consent is gone (16 R454). -/
def cancelTowerTests (s : State) : State :=
  let gone := (s.tests.reqs.filter (fun r => r.kind == 3 && !r.begun && !r.filed)).map (fun r => r.number)
  { s with tests := { s.tests with reqs := s.tests.reqs.filter (fun r => !gone.contains r.number) } }

/-- End a session: the owner's open step fails, its commands end, its rooms are released, its mailboxes unbind when
their completions are consumed (13 R359, 07 R206). `keep` is the mailbox that still owes a completion. -/
def endSession (id : W16) (keep : Option Nat) (s : State) : State :=
  match tfind? s.porter.sessions id.toNat with
  | none => s
  | some q =>
    let s := if q.owner then failStep stDeviceFault 0 s else s
    let s := dropCommands id s
    let mineRoom (r : W16) : Bool := ((roomAt s r.toNat).map (fun m => m.owner == id)).getD false
    let s := { s with ports := { s.ports with dmas := s.ports.dmas.filter (fun d => !mineRoom d.2.room) } }
    let rooms := (s.rooms.filter (fun r => r.2.owner == id)).map (·.1)
    let s := forEach rooms (fun r s => releaseNow r (removeUses r s)) s
    let s := if q.owner then
        let s := cancelTowerTests (leaveForerunner (stopRuns true (forEach (s.porter.plans.map (·.1)) dropPlan s)))
        { s with cap := { s.cap with entering := 0 }, red := { s.red with layouts := [] } }
      else s
    let s := { s with porter := { s.porter with sessions := tdel s.porter.sessions id.toNat } }
    let s := if q.owner then capBump s else s
    let mbs := (List.range 64).filter (fun n => (mbAt s n).session == id)
    forEach mbs (fun n s =>
      let s := setMb n (fun m => { m with ending := true }) s
      if keep == some n then s else settleMb n s) s

def sessionsThrough (s : State) (f : PortFn) : List W16 :=
  (s.porter.sessions.filter (fun p => p.2.fn == f)).map (fun p => BitVec.ofNat 16 p.1)

/-- A port function is reset: its sessions end, its DMA stops, a snapshot that it ships ends, and the registers of the
function return to reset (12 R330, R335, R342). -/
def resetFunction (f : PortFn) (s : State) : State :=
  let s := forEach (sessionsThrough s f) (fun id s => endSession id none s) s
  let s := stopDma f s
  let s := match s.snap with
    | some x => if snapDest x == 1 && snapPort x == f then endSnapshot (Config.snapCause 0) s else s
    | none => s
  { s with ports := { s.ports with regs := s.ports.regs.filter (fun r => r.1 / 2 ^ 32 != (match f with | .host => 0 | .stor => 1)) } }

end Sys2Proof.Machine
end

