-- ==== Sys2Proof/Machine/Homes.lean ====
section
/-! DEFINITION. Writes of tier homes while a snapshot is in progress: a writer first saves the chunks that it would change
(12 R338, R339). -/

namespace Sys2Proof.Machine

/-! ### Snapshot chunks (12 R338, R339) -/

def chunkLen : Nat := 0x4000000
def payloadLen (x : Snapshot) : Nat := listMax (x.parts.map (fun p => p.offset + p.len))

/-- Optimiser sets of a PART 7 block, as bytes. -/
def setBytes (x : Snapshot) (step : W64) : List Byte :=
  ((x.sets.find? (fun q => q.1 == step)).map (fun q => q.2.flatMap recBytes)).getD []

/-- Bytes [lo, lo + n) of the payload as the homes hold them now; the gaps between parts are zero. -/
def payloadBytes (s : State) (x : Snapshot) (lo n : Nat) : List Byte :=
  x.parts.foldl (fun bs p =>
    let a := max lo p.offset
    let b := min (lo + n) (p.offset + p.len)
    if b ≤ a then bs
    else
      let here := if p.part == 7 then ((setBytes x p.step).drop (a - p.offset)).take (b - a) else rd s (p.addr + (a - p.offset)) (b - a)
      bs.take (a - lo) ++ here ++ bs.drop (b - lo)) (List.replicate n 0)

def chunkBytes (s : State) (x : Snapshot) (k : Nat) : List Byte :=
  payloadBytes s x (k * chunkLen) (min chunkLen (payloadLen x - k * chunkLen))

/-- A poisoned place in a home that the chunk is read from. -/
def chunkPoison (s : State) (x : Snapshot) (k : Nat) : Option Nat :=
  x.parts.findSome? (fun p =>
    let a := max (k * chunkLen) p.offset
    let b := min ((k + 1) * chunkLen) (p.offset + p.len)
    if a < b && p.part != 7 then s.mem.poisonAt (p.addr + (a - p.offset)) (b - a) else none)

/-- Chunks whose bytes lie in [a, a + n) of the homes. -/
def chunksOver (x : Snapshot) (a n : Nat) : List Nat :=
  x.parts.flatMap (fun p =>
    let lo := max a p.addr
    let hi := min (a + n) (p.addr + p.len)
    if hi ≤ lo || p.part == 7 then []
    else
      let f := (p.offset + (lo - p.addr)) / chunkLen
      (List.range ((p.offset + (hi - 1 - p.addr)) / chunkLen + 1 - f)).map (· + f))

/-- Address of a version in its slot. -/
def verAddr (s : State) (room ver : Nat) : Nat := ((roomAt s room).map (fun r => steer r ver r.base.toNat)).getD 0

/-- A gradient version whose chunks have all been saved or shipped is no longer pinned for the image (12 R338). -/
def settleSnapPins (s : State) : State :=
  match s.snap with
  | none => s
  | some x =>
    let held (rv : W16 × W16) : Bool := x.parts.any (fun p => p.part == 6 && p.addr == verAddr s rv.1.toNat rv.2.toNat &&
      (chunksOver { x with parts := [p] } p.addr p.len).any (fun k =>
        let c := x.chunks.getD k .shipped
        c == Chunk.pending || c == Chunk.saving || c == Chunk.reading))
    forEach (x.pins.filter (fun rv => !held rv)) (fun rv s => unpinRoom rv.1.toNat rv.2.toNat s)
      { s with snap := some { x with pins := x.pins.filter held } }

/-- A PENDING chunk that is about to change is saved into the copy-on-write room; poison there ends the snapshot. -/
def saveChunk (k : Nat) (s : State) : State :=
  match s.snap with
  | none => s
  | some x =>
    if x.marked && x.chunks.getD k .shipped == Chunk.pending then
      match chunkPoison s x k with
      | some w => endSnapshot stDeviceFault (poisonEvent 0xFFFF w s)
      | none => settleSnapPins { s with snap := some { x with
        chunks := lset x.chunks k .saved, saved := tset x.saved k (chunkBytes s x k) } }
    else s

/-- The release of a pinned gradient version saves the chunks that hold it. -/
def saveVersion (room ver : Nat) (s : State) : State :=
  match s.snap with
  | none => s
  | some x => forEach ((x.parts.filter (fun p => p.part == 6 && p.addr == verAddr s room ver)).flatMap
      (fun p => chunksOver { x with parts := [p] } p.addr p.len)) saveChunk s

/-- Write a tier home. -/
def homeWrite (a : Nat) (bs : List Byte) (s : State) : State :=
  let ks := match s.snap with
    | some x => chunksOver x a bs.length
    | none => []
  wr a bs (forEach ks saveChunk s)

/-! ### Task rooms have one writer at a time (01 R15) -/

/-- The task room that a write of `n` bytes at `a` meets. -/
def taskRoomUnder (s : State) (a n : Nat) : Option (Nat × Room) :=
  if n == 0 then none else s.rooms.find? (fun p => p.2.cls == 7 && p.2.base.toNat < a + n && a < roomEnd p.2)

/-- A write by a party that is not the room's writer is discarded: event 0x8104. -/
def foreignWrite (room writer : Nat) (s : State) : State := raiseCtrl 0x8104 [a2 room, a2 (Config.writerCode writer)] s

/-- A write by the engines of a core or mover: theirs where a task room stands handed over. -/
def engineWrite (a : Nat) (bs : List Byte) (s : State) : State :=
  match taskRoomUnder s a bs.length with
  | some p => if p.2.engines then homeWrite a bs s else foreignWrite p.1 0 s
  | none => homeWrite a bs s

/-- A write by HOST (1), STOR (2) or LINK (3), never the writer of a task room. -/
def portWrite (writer a : Nat) (bs : List Byte) (s : State) : State :=
  match taskRoomUnder s a bs.length with
  | some p => foreignWrite p.1 writer s
  | none => homeWrite a bs s

end Sys2Proof.Machine
end

