-- ==== Sys2Proof/Machine/Supply.lean ====
section
/-! DEFINITION. Supply domains and their timing domains, tower gating, ceilings and ageing margins, and what the last
lines hold (14 R384 to R391, 15 R409, R421 to R425, 02 R39). -/

namespace Sys2Proof.Machine

/-! ### Supply domains, numbered as 16 R507 numbers them -/

def sdMere : Nat := 16
def sdCel : Nat := 19
def sdPh : Nat := 24
def sdPs : Nat := 25
def sdCtl : Nat := 26
def sdSns : Nat := 27

/-- Timing domains that a supply domain feeds (14 Table 14-3, 02 R29). -/
def timingOf (d : Nat) : List Nat :=
  if d < 8 then [3 * d, 3 * d + 1, 3 * d + 2]
  else if d < 16 then [3 * d, 3 * d + 1, 3 * d + 2]
  else if d == 16 then (List.range 8).map (48 + ·)
  else if d == 19 then [62]
  else if 20 ≤ d && d < 24 then [56 + (d - 20)]
  else if d == 24 then [60]
  else if d == 25 then [61]
  else if d == 26 then [63]
  else []

def supplyAt (s : State) (d : Nat) : Supply := tget s.power.domains d .off
def setSupply (d : Nat) (v : Supply) (s : State) : State :=
  { s with power := { s.power with domains := tset s.power.domains d v } }

/-- Domains on which a domain depends (14 Table 14-4). -/
def dependsOn (d : Nat) : List Nat :=
  if d < 8 then [8 + d, if d ≤ 3 then 17 else 18]
  else if d < 16 then [16]
  else if d == 16 then [26, 27]
  else if d < 26 then [16]
  else []

def depsMet (s : State) (d : Nat) : Bool := (dependsOn d).all (inReg s)

/-- Switch a domain on: it ramps, its first attempt, once what it depends on is in regulation (14 R385). -/
def switchOn (d : Nat) (s : State) : State :=
  if supplyAt s d == .off && depsMet s d then setSupply d (.ramping 1) s else s

/-- A domain's pacers start: beats counted from the switch-on, the alive counter advanced in the first (02 R35, Table 2-4). -/
def pacersStart (d : Nat) (s : State) : State :=
  forEach (timingOf d) (fun t s => senderMoved t <| setPace t (fun p => { p with
    gated := false, xgated := false, draining := false, halted := false, beats := 0, alive := grayNext p.alive }) s) s

/-- A domain is switched off: its pacers stand still and its crossings are marked gated. -/
def switchOff (d : Nat) (s : State) : State :=
  forEach (timingOf d) (fun t s => setPace t (fun p => { p with
    gated := true, xgated := true, draining := false, halted := false }) s) (setSupply d .off s)

/-! ### Keeper and the last lines (15 R420 to R422, 14 R389) -/

def vrHonoured (s : State) : Bool := s.gov.lastLine == 0 || s.gov.lastLine == 1
def coolHonoured (s : State) : Bool := s.gov.lastLine == 0 || s.gov.lastLine == 2

def towerGov (s : State) (t : Nat) : TowerGov := tget s.gov.towers t .reset
def setTower (t : Nat) (f : TowerGov → TowerGov) (s : State) : State :=
  { s with gov := { s.gov with towers := tmod s.gov.towers t .reset f } }
def layerAt (s : State) (i : Nat) : Layer := tget s.gov.layers i .reset
def setLayer (i : Nat) (f : Layer → Layer) (s : State) : State :=
  { s with gov := { s.gov with layers := tmod s.gov.layers i .reset f } }

/-- A last line holds the tower stopped: COOL_FAIL_N asserted and honoured, a thermal trip, or a pond limit that has not
cooled to 85 degrees (14 R389, 15 R419 to R422). -/
def heldStopped (s : State) (t : Nat) : Bool :=
  (s.power.coolFail && coolHonoured s) || s.gov.tripped || (towerGov s t).stoppedPond

/-- VRALERT_N is held or its tail runs: points are forced to 0 (15 R421). -/
def vrHolding (s : State) : Bool := s.gov.vrHold || s.gov.vrTail != 0

/-! ### Ceilings and margins (15 R409, R423 to R425) -/

def logicLayers (t : Nat) : List Nat := [3 * t, 3 * t + 1, 3 * t + 2]

/-- The highest point with OUT clear in every layer of the tower. -/
def ageingCeiling (s : State) (t : Nat) : Nat :=
  listMax ((List.range 16).filter (fun p => (logicLayers t).all (fun l => !(tget s.gov.outs l []).contains p)))

def effCeiling (s : State) (t : Nat) : Nat := min (towerGov s t).ceiling.toNat (ageingCeiling s t)

/-- TLn's setpoint for a point: the highest applied setpoint of its layers (02 R26). -/
def towerSetpoint (s : State) (t p : Nat) : Nat :=
  listMax ((logicLayers t).map (fun l => Config.fusedSetpoint l p + tget s.gov.margins l 0))

/-- The margin that a need asks for, and the points beyond the allowance (15 R424, R425). -/
def marginOf (need : Nat) : Nat := 5 * ((need + 4) / 5)
def pointsOut (needs : List Nat) : List Nat := (List.range 16).filter (fun p => decide (40 < marginOf (needs.getD p 0)))

/-- A margin measurement at bring-up: it is in force before TLn is first switched on (15 R425). `needs` has the need of
the layer at each point. -/
def bringupMargin (l : Nat) (needs : List Nat) (s : State) : State :=
  let m := listMax (needs.map marginOf)
  let o := pointsOut needs
  let s := { s with gov := { s.gov with
    margins := tset s.gov.margins l (min 40 m), targets := tset s.gov.targets l (min 40 m), outs := tset s.gov.outs l o } }
  let s := if m != 0 then raiseMgmt 0x6302 [a2 l, a2 (min 40 m)] s else s
  if o.isEmpty then s else raiseMgmt 0x6301 [a2 l, a2 (ageingCeiling s (l / 3))] s

/-! ### Gating towers (14 R388 to R391) -/

/-- The contents of a tower's ponds are lost (14 Table 14-3). -/
def pondLost (t : Nat) (s : State) : State :=
  { s with mem := { s.mem with
    cells := s.mem.cells.filter (fun c => !(regionOf c.1 == Region.pond && sliceOf c.1 / 48 == t))
    poison := s.mem.poison.filter (fun a => !(regionOf a == Region.pond && sliceOf a / 48 == t))
    singles := s.mem.singles.filter (fun a => !(regionOf a == Region.pond && sliceOf a / 48 == t)) } }

/-- TPn is switched off. -/
def pondOff (t : Nat) (s : State) : State := switchOff (8 + t) (pondLost t s)

/-- TLn is switched off after its drain. -/
def towerLogicOff (t : Nat) (s : State) : State := switchOff t (logicOff t s)

/-- Orders that wait for towers complete once none of their towers is still under way (14 R388). -/
def settleGates (s : State) : State :=
  finishAll s.porter.outstanding.length (fun p => match p.wait with
    | .gate _ ts => (List.range 8).all (fun t => !ts.getLsbD t || (tfind? s.power.gating t).isNone)
    | _ => false) { st := stDone } s

/-- A tower has reached the state an order asked for: event 0x6003. -/
def gateReached (t on : Nat) (s : State) : State :=
  settleGates (setTower t (fun g => { g with suspend := 64 })
    (raiseMgmt 0x6003 [a2 t, a2 on] { s with power := { s.power with gating := tdel s.power.gating t } }))

/-- The orders that name a tower under way end otherwise. -/
def gateEnded (st t : Nat) (s : State) : State :=
  let s := { s with power := { s.power with gating := tdel s.power.gating t } }
  finishAll s.porter.outstanding.length (fun p => match p.wait with
    | .gate _ ts => ts.getLsbD t
    | _ => false) { st := st } s

/-- Before TLn of a tower entering forerunner mode is switched on: forerunner microcode, the lowest 8 MiB of every slice
+0, and its FR_TOWERS bit (18 R482). -/
def enterForerunner (t : Nat) (s : State) : State :=
  if t < 4 && s.cap.entering.getLsbD t then
    let bit := BitVec.ofNat 4 (2 ^ t)
    let s := { s with mem := { s.mem with
      cells := s.mem.cells.filter (fun c => !(regionOf c.1 == Region.pond && sliceOf c.1 / 48 == t && c.1 % 0x2000000 < 0x800000))
      poison := s.mem.poison.filter (fun a => !(regionOf a == Region.pond && sliceOf a / 48 == t && a % 0x2000000 < 0x800000))
      singles := s.mem.singles.filter (fun a => !(regionOf a == Region.pond && sliceOf a / 48 == t && a % 0x2000000 < 0x800000)) } }
    capBump { s with cap := { s.cap with frTowers := s.cap.frTowers ||| bit, entering := s.cap.entering &&& ~~~bit } }
  else s

/-- TLn begins to ramp. -/
def logicOn (t : Nat) (s : State) : State :=
  if supplyAt s t == .off && depsMet s t then switchOn t (enterForerunner t s) else s

/-- The models of these layers of a tower start again at their next sample: TLn feeds the layers of logic, TPn those of
the ponds (15 R416). -/
def unprime (js : List Nat) (t : Nat) (s : State) : State :=
  forEach js (fun j s => setLayer (7 * t + j) (fun l => { l with primed := false }) s) s

/-- TLn has come into regulation: its layers run at the tower's point, limited by its ceiling, or at point 0 while
VRALERT_N is held (14 R387, 15 R422). -/
def logicUp (t : Nat) (s : State) : State :=
  let s := setTower t (fun g => { g with stoppedCool := false }) (pacersStart t (setSupply t .inRegulation s))
  let c := if vrHolding s then 0 else effCeiling s t
  let s := forEach (logicLayers t) (fun d s => setPace d (fun p => { p with point := BitVec.ofNat 4 (min p.point.toNat c) }) s) s
  unprime [1, 3, 5] t s

/-- The domain of a tower drains: its crossings accept no new request (02 R39). -/
def startDrain (t : Nat) (s : State) : State :=
  forEach (logicLayers t) (fun d s => setPace d (fun p => { p with draining := true, xgated := false }) s) s

end Sys2Proof.Machine
end

