-- ==== Sys2Proof/Machine/Drives.lean ====
section
/-! DEFINITION. The STOR port as a root: the drives behind it, their queues, their requests and their failures
(12 R331 to R334). -/

namespace Sys2Proof.Machine

def storRoot (s : State) : Bool := inReg s sdPs && s.ports.storRole != 2

/-- The root port's die works. -/
def storWorks (s : State) : Bool := storRoot s && domainRuns s dieStor

def driveAt (s : State) (d : Nat) : Drive :=
  tget s.ports.drives d { used := false, failed := false, ranges := [], busy := false, reissued := false }
def setDrive (d : Nat) (f : Drive → Drive) (s : State) : State :=
  { s with ports := { s.ports with drives := tset s.ports.drives d (f (driveAt s d)) } }

/-! ### Queues and enumeration (12 R332; log 42) -/

/-- Pages of one controller's admin queue pair and eight I/O queue pairs of 256 entries of 64 and 16 bytes. -/
def queuePages : Nat := 45

def queueBase (s : State) (d : Nat) : Option Nat :=
  (roomAt s s.ports.queueRoom.toNat).map (fun r => r.base.toNat + d * queuePages * pageBytes)

/-- Porter's room of class snapshot in Mere slice 7 for the queues of 16 controllers. -/
def grantQueues (s : State) : State :=
  if (roomAt s s.ports.queueRoom.toNat).isSome then s
  else match grantRoom { cls := 6, home := 0, index := 7, slots := 1, fallback := false, pages := 16 * queuePages } 0xFFFF s with
    | some (id, s) => { s with ports := { s.ports with queueRoom := BitVec.ofNat 16 id } }
    | none => s

/-- Porter enumerates the buses: each controller found, with 0 where it qualifies and otherwise the reason of event
0x4905. A drive marked failed stays failed. -/
def enumerateDrives (found : List (Fin 16 × Nat)) (s : State) : State :=
  if !storWorks s then s
  else
    let s := grantQueues s
    let old := s.ports.drives
    let s := { s with ports := { s.ports with drives := old.filter (fun d => d.2.failed || d.2.busy) } }
    let s := forEach found (fun f s =>
      if f.2 == 0 then
        (if (driveAt s f.1.val).failed then s else setDrive f.1.val (fun d => { d with used := true }) s)
      else raise 0x4905 ctrl dieStor [a2 f.1.val, a2 f.2] s) s
    if s.ports.drives.map (fun d => (d.1, d.2.used, d.2.failed)) == old.map (fun d => (d.1, d.2.used, d.2.failed))
    then s else capBump s

/-! ### Operations that use drives -/

/-- The snapshot in progress goes to the store; the restore under way reads from it. -/
def snapOnStore (s : State) : Bool := match s.snap with | some x => snapDest x == 0 | none => false
def restoreOnStore (s : State) : Bool := match s.restore with | some r => r.source == 0 | none => false

def inStore (s : State) (d : Nat) : Bool := s.ports.store.any (fun p => p.1 == d)

/-- Commands that name a range of the Mere are outstanding at every drive of the store. -/
def driveWork (base len : Nat) (s : State) : State :=
  forEach (s.ports.store.map (fun p => p.1)) (fun d s =>
    setDrive d (fun x => { x with busy := true, ranges := [(BitVec.ofNat 64 base, len)] }) s) s

/-- No operation of the store uses the drives any more. -/
def driveRest (s : State) : State :=
  if snapOnStore s || restoreOnStore s then s
  else { s with ports := { s.ports with drives := s.ports.drives.map (fun d =>
    if inStore s d.1 then (d.1, { d.2 with busy := false, ranges := [], reissued := false }) else d) } }

/-- A restore ends without success: event 0x8909 (16 R446, R447). `undef`: parameter state is undefined from now on. -/
def endRestore (cause : Nat) (undef : Bool) (s : State) : State :=
  match s.restore with
  | none => s
  | some r =>
    let s := releaseNow r.room.toNat { s with restore := none, params := { s.params with lost := s.params.lost || undef } }
    raiseCtrl 0x8909 [a8 r.id.toNat, a2 cause] s

/-- A second failure marks the drive failed; every operation that uses it ends with DEVICE_FAULT (12 R334). -/
def failDrive (d : Nat) (s : State) : State :=
  let s := setDrive d (fun x => { x with failed := true, busy := false, ranges := [], reissued := false }) s
  let s := raise 0x4906 ctrl dieStor [a2 d] (capBump s)
  let s := if inStore s d && snapOnStore s then endSnapshot stDeviceFault s else s
  let s := if inStore s d && restoreOnStore s then
      endRestore stDeviceFault ((s.restore.map (fun r => !r.done.isEmpty)).getD false) s else s
  driveRest s

/-- A drive command that fails or times out: the controller is reset and the command issued once more. -/
def driveTrouble (d : Nat) (s : State) : State :=
  let x := driveAt s d
  if !storWorks s || !x.busy then s
  else if x.reissued then failDrive d s
  else emit (.driveCmd d "Reissue" 0) (emit (.driveCmd d "Reset" 0) (setDrive d (fun x => { x with reissued := true }) s))

/-- A command completes: the next of the operation follows, or the drive has nothing outstanding. -/
def driveDone (d : Nat) (s : State) : State :=
  if !storWorks s || !(driveAt s d).busy then s
  else
    let more := inStore s d && (snapOnStore s || restoreOnStore s)
    let s := setDrive d (fun x => { x with reissued := false, busy := more, ranges := if more then x.ranges else [] }) s
    if s.ports.flushing && !(s.ports.drives.any (fun x => x.2.busy)) then { s with ports := { s.ports with flushing := false } } else s

def driveCommandComplete (d : Fin 16) (ok : Bool) (s : State) : State := if ok then driveDone d.val s else driveTrouble d.val s

/-- A drive's own memory request: within its queues or a range that its outstanding command names, which lies in the Mere
(12 R333). -/
def driveMemoryRequest (d : Fin 16) (addr : W64) (len : Nat) (isWrite : Bool) (bs : List Byte) (s : State) : State :=
  if !storWorks s then s
  else
    let a := addr.toNat
    let within (b n : Nat) : Bool := b ≤ a && a + len ≤ b + n
    let x := driveAt s d.val
    let okQ := match queueBase s d.val with | some b => within b (queuePages * pageBytes) | none => false
    let okR := x.ranges.any (fun r => within r.1.toNat r.2) && regionOf a == .mere
    if x.used && !x.failed && (okQ || okR) then
      if wayShut s (portPath .stor a) then (if isWrite then s else emit (.data .stor [] true) s)
      else if isWrite then portWrite 2 a (fit len 0 bs) s
      else emit (.data .stor (rd s a len) (s.mem.poisoned a len)) (readEvent a len s)
    else raise 0x4904 data dieStor [a2 d.val] (emit (.unsupported d.val) s)

def execDriveMemoryRequest (drive : Fin 16) (addr : W64) (len : Nat) (isWrite : Bool) (bs : List Byte) (s : State) :
    Host.Outcome State Fault Refusal := .next (driveMemoryRequest drive addr len isWrite bs s)
def execDriveCommandComplete (drive : Fin 16) (ok : Bool) (s : State) : Host.Outcome State Fault Refusal :=
  .next (driveCommandComplete drive ok s)
def execDriveCommandTimeout (drive : Fin 16) (s : State) : Host.Outcome State Fault Refusal := .next (driveTrouble drive.val s)

end Sys2Proof.Machine
end

