-- ==== Sys2Proof/Machine/Pacing.lean ====
section
/-! DEFINITION. Pacers, alive counters and crossings between timing domains (02 R27 to R39, 16 R434). -/

namespace Sys2Proof.Machine

/-! ### Pacers -/

/-- The low-supply detector halts a powered pacer: event 0x1001 (02 R28, R39). -/
def lowSupplyHalt (d : Nat) (s : State) : State :=
  if !pacerRuns s d then s
  else raise 0x1001 data d [] (setPace d (fun p => { p with halted := true, haltCnt := satAdd p.haltCnt 1 }) s)

/-- CONTROL runs again: it consumes every event that waited, and Keeper gives the signals that they ask for (02 R32, 16 R432). -/
def controlResumes (s : State) : State :=
  let owed := s.porter.porter == 3 && s.log.vec64
  { s with
    log := { s.log with ahead := [], vec64 := if owed then false else s.log.vec64 }
    power := { s.power with alert := s.power.alert || alertNow s s.log.seen64 }
    porter := if owed then { s.porter with msix := 192 :: 64 :: s.porter.msix } else s.porter }

/-- The pacer restarts: event 0x1002, and the alive counter advances in its first beat (02 R28, R35). -/
def pacerRestart (d : Nat) (s : State) : State :=
  if (paceAt s d).gated || !(paceAt s d).halted then s
  else
    let s := senderMoved d (setPace d (fun p => { p with halted := false, alive := grayNext p.alive }) s)
    raise 0x1002 data d [] (if d == dieControl then controlResumes s else s)

/-- 64 beats of a running domain (02 R35, Table 2-4). -/
def aliveTick (d : Nat) (s : State) : State :=
  if !pacerRuns s d then s
  else senderMoved d (setPace d (fun p => { p with beats := p.beats + 64, alive := grayNext p.alive }) s)

def execLowSupplyHalt (d : Fin 64) (s : State) : Host.Outcome State Fault Refusal := .next (lowSupplyHalt d.val s)
def execPacerRestart (d : Fin 64) (s : State) : Host.Outcome State Fault Refusal := .next (pacerRestart d.val s)
def execAliveTick (d : Fin 64) (s : State) : Host.Outcome State Fault Refusal := .next (aliveTick d.val s)

/-! ### Crossings -/

def xKey (x : Xing) : Nat := x.recv.val * 256 + x.send.val * 4 + x.kind.val
def crossing (s : State) (x : Xing) : Crossing := tget s.crossings (xKey x) .reset
def setCrossing (x : Xing) (f : Crossing → Crossing) (s : State) : State :=
  { s with crossings := tmod s.crossings (xKey x) .reset f }

/-- XFENCE of a domain (02 Table 2-3). -/
def xfence (s : State) (d : Nat) : Bool := s.crossings.any (fun p => p.1 / 256 == d && p.2.mark == .fenced)

/-- The pace status word (02 Table 2-3). -/
def paceStatus (s : State) (d : Nat) : BitVec 64 :=
  let p := paceAt s d
  mkRec 64 [(60, 4, if d < 24 then p.point.toNat else 0), (56, 4, if d < 24 then effCeiling s (d / 3) else 0),
    (48, 8, p.discCnt.toNat), (32, 16, p.xtoCnt.toNat), (16, 16, p.haltCnt.toNat), (2, 1, (xfence s d).toNat),
    (1, 1, p.halted.toNat), (0, 1, p.gated.toNat)]

/-- Event 0x1004: both domains and the responses discarded since the fence (02 R37). -/
def rearmEvent (x : Xing) (s : State) : State :=
  let c := crossing s x
  if !c.rearmDue then s
  else raise 0x1004 data x.recv.val [a2 x.recv.val, a2 x.send.val, a2 c.discards]
    (setCrossing x (fun c => { c with rearmDue := false, discards := 0 }) s)

/-- A crossing is fenced a second time within 2^30 beats of its receiver: event 0x1005 and the tests of 16 R434. -/
def fencedTwice (x : Xing) (s : State) : State :=
  let now := (paceAt s x.recv.val).beats.toNat
  let c := crossing s x
  match c.firstFence with
  | some b =>
    if now ≤ b + 2 ^ 30 then
      if c.twiceRaised then s
      else
        let s := raise 0x1005 data x.recv.val [a2 x.recv.val, a2 x.send.val] (setCrossing x (fun c => { c with twiceRaised := true }) s)
        let s := forEach ([x.recv.val, x.send.val].filter (· < 24)) (fun d s => fileTest 4 (d / 3) s) s
        if 48 ≤ x.send.val && x.send.val < 56 then fileTest 1 (0x200 + (x.send.val - 48)) s else s
    else setCrossing x (fun c => { c with firstFence := some now, twiceRaised := false }) s
  | none => setCrossing x (fun c => { c with firstFence := some now, twiceRaised := false }) s

/-- The oldest copy of a function's engine fails: its command ends with DEVICE_FAULT and the crossing-timeout error as DETAIL
(12 R328; DESIGN CHOICE, log 125). -/
def dmaFails (f : PortFn) (s : State) : State :=
  match s.ports.dmas.find? (fun d => d.1 == f) with
  | none => s
  | some d =>
    finish (fun p => p.wait == Wait.dma && fnOfMb s p.cmd.mailbox.val == f) { st := stDeviceFault, detail := 0x0103 }
      { s with ports := { s.ports with dmas := s.ports.dmas.erase d } }

/-- A waiter gets the crossing-timeout error: a task ends with it, where no cause stands yet; a copy of a DMA engine ends its
command (02 R36, 04 R115; the DMA's reply is DESIGN CHOICE, log 125). -/
def failWaiter (w : Waiter) (s : State) : State :=
  match w with
  | .task core ahead => endRun core.val (!ahead) ccXtimeout false s
  | .dma fn => dmaFails fn s
  | .other => s

/-- No alive change for 4,096 receiving beats: with requests outstanding the crossing is fenced, without it is stale
(02 R36). A pending 0x1004 is raised before the new fence (02 R37). -/
def crossingTimeout (x : Xing) (waiting : List (BitVec 6 × Waiter)) (s : State) : State :=
  if !domainRuns s x.recv.val || (paceAt s x.send.val).xgated || (crossing s x).mark != .normal then s
  else if waiting.isEmpty then setCrossing x (fun c => { c with mark := .stale, moved := false }) s
  else
    let s := rearmEvent x s
    let s := setCrossing x (fun c => { c with
      mark := .fenced, moved := false, discards := 0
      failed := c.failed ++ waiting.map (·.1) }) s
    let s := setPace x.recv.val (fun p => { p with xtoCnt := satAdd p.xtoCnt 1 }) s
    let s := raise 0x1003 data x.recv.val [a2 x.recv.val, a2 x.send.val, a2 x.kind.val, a2 waiting.length] s
    let s := forEach (waiting.map (·.2)) failWaiter s
    fencedTwice x s

/-- The receiver sees the alive counter change and re-arms the crossing (02 R37). -/
def crossingRearm (x : Xing) (s : State) : State :=
  let c := crossing s x
  if c.mark == .normal || !c.moved then s
  else setCrossing x (fun c => { c with mark := .normal, moved := false, rearmDue := c.rearmDue || c.mark == .fenced }) s

/-- A late response is discarded and counted (02 R38). -/
def lateResponseDiscard (x : Xing) (tag : BitVec 6) (s : State) : State :=
  let c := crossing s x
  if !c.failed.contains tag then s
  else
    let s := setPace x.recv.val (fun p => { p with discCnt := satAdd p.discCnt 1 }) s
    setCrossing x (fun c => { c with
      failed := c.failed.erase tag
      discards := if c.mark == .fenced || c.rearmDue then c.discards + 1 else c.discards }) s

def execCrossingTimeout (x : Xing) (waiting : List (BitVec 6 × Waiter)) (s : State) :
    Host.Outcome State Fault Refusal := .next (crossingTimeout x waiting s)
def execCrossingRearm (x : Xing) (s : State) : Host.Outcome State Fault Refusal := .next (crossingRearm x s)
def execRearmEventTimer (x : Xing) (s : State) : Host.Outcome State Fault Refusal := .next (rearmEvent x s)
def execLateResponseDiscard (x : Xing) (tag : BitVec 6) (s : State) : Host.Outcome State Fault Refusal :=
  .next (lateResponseDiscard x tag s)

/-! ### The end of a drain (02 R39, 14 R390) -/

/-- A drained domain's crossings are marked gated; with the last layer of a tower, TLn is switched off, and with ON 2
then TPn. -/
def domainDrainEnd (d : Nat) (s : State) : State :=
  if !(paceAt s d).draining then s
  else
    let s := setPace d (fun p => { p with draining := false, xgated := true }) s
    let t := d / 3
    if d < 24 && (logicLayers t).all (fun l => (paceAt s l).xgated) then
      match tfind? s.power.gating t with
      | some 2 => gateReached t 2 (pondOff t (towerLogicOff t s))
      | some 0 => gateReached t 0 (towerLogicOff t s)
      | _ => s
    else s

def execDomainDrainEnd (d : Fin 64) (s : State) : Host.Outcome State Fault Refusal := .next (domainDrainEnd d.val s)

end Sys2Proof.Machine
end

