-- ==== Sys2Proof/Machine/Ports.lean ====
section
/-! DEFINITION. The PCIe functions: BAR0 with its doorbells and status words, the BAR2 apertures, the DMA engines, and the
messages of mailboxes 64 and 65 (12 R320 to R330, R335, 13 R343 to R347, R354 to R356, R378). -/

namespace Sys2Proof.Machine

/-! ### Functions -/

def fnCode (f : PortFn) : Nat := match f with | .host => 0 | .stor => 1
def fnDie (f : PortFn) : Nat := match f with | .host => dieHost | .stor => dieStor

/-- The function's die works. -/
def fnRuns (s : State) (f : PortFn) : Bool :=
  inReg s (match f with | .host => sdPh | .stor => sdPs) && domainRuns s (fnDie f)

/-- The function answers its link: HOST while PERST_N is released, STOR as an endpoint (12 R330, R335). -/
def fnUp (s : State) (f : PortFn) : Bool :=
  fnRuns s f && (match f with
    | .host => !s.power.perst
    | .stor => s.ports.storRole == 2)

/-- A link that trains below its full rate or width raises event 0x4901 (12 R320, R331, R335). -/
def hostLinkTrained (f : PortFn) (rate width : BitVec 4) (s : State) : State :=
  let up := match f with | .host => fnUp s .host | .stor => fnRuns s .stor
  if !up then s
  else
    let word : Byte := rate ++ width
    let full := match f with | .host => 4 | .stor => if s.ports.storRole == 1 then 2 else 3
    let s := match f with
      | .host => { s with ports := { s.ports with hostLink := word } }
      | .stor => { s with ports := { s.ports with storLink := word } }
    if rate != 6 || decide (width.toNat < full) then
      raise 0x4901 ctrl (fnDie f) [a2 (fnCode f), a2 rate.toNat, a2 width.toNat] s
    else s

def execHostLinkTrained (f : PortFn) (rate width : BitVec 4) (s : State) : Host.Outcome State Fault Refusal :=
  .next (hostLinkTrained f rate width s)

/-- An error that a port reports through AER: bit 16 of the port status word and vector 65 (13 R378). -/
def portAerError (f : PortFn) (s : State) : State :=
  if !fnRuns s f then s
  else { s with
    ports := { s.ports with aer := true }
    porter := { s.porter with msix := (128 * fnCode f + 65) :: s.porter.msix } }

def execPortAerError (f : PortFn) (s : State) : Host.Outcome State Fault Refusal := .next (portAerError f s)

/-- DOE Discovery: the two protocols of 12 R329, indexed as the PCI Express specification indexes them (log 44). -/
def doeDiscovery (index : Byte) (s : State) : State :=
  if !fnUp s .host then s
  else match index.toNat with
    | 0 => emit (.doe 1 0 1) s
    | 1 => emit (.doe 1 1 0) s
    | _ => emit (.doe 0xFFFF 0xFF 0) s

def execDoeDiscovery (index : Byte) (s : State) : Host.Outcome State Fault Refusal := .next (doeDiscovery index s)

/-! ### Status words and pages, as reads return them (13 Tables 13-4, 13-13) -/

def moduleStatus (s : State) : W64 :=
  mkRec 64 [(32, 32, (passNow s).toNat), (16, 16, (ownerSession s).toNat), (10, 2, s.porter.porter.toNat),
    (8, 2, s.porter.keeper.toNat), (3, 1, s.porter.halted.toNat), (2, 1, s.steps.job.isSome.toNat),
    (1, 1, s.porter.bar0Misuse.toNat), (0, 1, s.porter.ready.toNat)]

def portStatus (s : State) : W64 :=
  mkRec 64 [(16, 1, s.ports.aer.toNat), (8, 8, s.ports.storLink.toNat), (0, 8, s.ports.hostLink.toNat)]

def mailboxWord (s : State) (n : Nat) : W64 :=
  let m := mbAt s n
  mkRec 64 [(48, 16, m.session.toNat), (42, 6, m.sqHead.toNat), (40, 2, m.state.toNat), (0, 32, m.lastPass.toNat)]

/-! ### Doorbells (13 R345, R347) -/

/-- A protocol error stops the mailbox: its MBX_ERR bit and event 0x8301 with the offending value. -/
def protocolError (n : Nat) (v : BitVec 6) (s : State) : State :=
  let s := setMb n (fun m => { m with state := 2 }) s
  raiseCtrl 0x8301 [a2 n, a2 v.toNat] { s with porter := { s.porter with mbxErr := s.porter.mbxErr ||| BitVec.ofNat 64 (2 ^ n) } }

/-- The mailbox's doorbell belongs to a function that is up, and the mailbox has not been stopped. -/
def bellHeard (s : State) (n : Nat) : Bool := fnUp s (fnOfMb s n)
def bellChecked (s : State) (n : Nat) : Bool := porterRuns s && (mbAt s n).state != 3

/-- An SQ_TAIL write would lower the number of submitted commands not yet taken. -/
def tailLowers (m : Mailbox) (v : BitVec 6) : Bool := decide ((v - m.sqHead).toNat < (m.sqTail - m.sqHead).toNat)

def doorbellSqTail (n : Nat) (v : BitVec 6) (s : State) : State :=
  if !bellHeard s n then s
  else
    let bad := bellChecked s n && tailLowers (mbAt s n) v
    let s := setMb n (fun m => { m with sqTail := v }) s
    if bad then protocolError n v s else s

/-- A CQ_HEAD write would pass a completion that has not been posted. -/
def headPasses (m : Mailbox) (v : BitVec 6) : Bool := decide ((m.cqTail - m.cqHead).toNat < (v - m.cqHead).toNat)

/-- CQ_HEAD consumes completions; a mailbox of an ended session unbinds behind its last one (13 R345, R359). -/
def doorbellCqHead (n : Nat) (v : BitVec 6) (s : State) : State :=
  if !bellHeard s n then s
  else if bellChecked s n && headPasses (mbAt s n) v then protocolError n v (setMb n (fun m => { m with cqHead := v }) s)
  else settleMb n (setMb n (fun m => { m with cqHead := v, taken := m.taken - (v - m.cqHead).toNat }) s)

/-- Commands of a mailbox that have been taken and have not completed. -/
def openCommands (s : State) (n : Nat) : Nat := (s.porter.outstanding.filter (fun p => p.cmd.mailbox.val == n)).length

/-- Writing 1 to a mailbox's MBX_ERR bit re-arms it (13 R347). -/
def rearmMb (n : Nat) (s : State) : State :=
  let s := { s with porter := { s.porter with mbxErr := s.porter.mbxErr &&& ~~~BitVec.ofNat 64 (2 ^ n) } }
  if (mbAt s n).state != 2 then s
  else setMb n (fun m => { m with
    sqHead := m.sqTail, state := if m.session == 0 then 0 else 1
    taken := openCommands s n + (m.cqTail - m.cqHead).toNat }) s

def mbxErrClear (mask : W64) (s : State) : State :=
  forEach ((List.range 64).filter (fun n => mask.getLsbD n && s.porter.mbxErr.getLsbD n)) rearmMb s

def execDoorbellSqTailWrite (mb : Fin 64) (v : BitVec 6) (s : State) : Host.Outcome State Fault Refusal :=
  .next (doorbellSqTail mb.val v s)
def execDoorbellCqHeadWrite (mb : Fin 64) (v : BitVec 6) (s : State) : Host.Outcome State Fault Refusal :=
  .next (doorbellCqHead mb.val v s)
def execMbxErrClear (mask : W64) (s : State) : Host.Outcome State Fault Refusal := .next (mbxErrClear mask s)

/-! ### BAR0 (12 R322, R323) -/

/-- Naturally aligned accesses of 4 and 8 bytes, and writes of up to 512 bytes within one mailbox page. -/
def bar0Fits (off len : Nat) : Bool :=
  ((len == 4 || len == 8) && off % len == 0) ||
  (decide (0 < len) && decide (len ≤ 512) && decide (off + len ≤ 0x100000) && off / 0x4000 == (off + len - 1) / 0x4000)

def setMisuse (s : State) : State := { s with porter := { s.porter with bar0Misuse := true } }

/-- Mailbox pages and doorbells that the function carries (12 R335). -/
def carries (s : State) (f : PortFn) (n : Nat) : Bool := decide (n < 64) && fnOfMb s n == f

/-- Host software writes bytes of a submission ring. -/
def writeSq (n : Nat) (off : Nat) (bs : List Byte) (s : State) : State :=
  setMb n (fun m => { m with sq := bs.zipIdx.foldl (fun q b =>
    let o := off + b.2
    if o < 0x2000 then tmod q (o / 128) 0 (fun e => putFld e (8 * (o % 128)) 8 b.1.toNat) else q) m.sq }) s

/-- A doorbell's two fields: dword 0 holds SQ_TAIL, dword 1 CQ_HEAD (13 Table 13-3). -/
def writeBell (n o : Nat) (bs : List Byte) (s : State) : State :=
  let v (k : Nat) : BitVec 6 := BitVec.ofNat 6 ((bs.getD k 0).toNat)
  let s := if o == 0 then doorbellSqTail n (v 0) s else s
  if o == 0 && bs.length == 8 then doorbellCqHead n (v 4) s
  else if o == 4 then doorbellCqHead n (v 0) s else s

/-- Status words: write 1 to clear where the map says so (13 R378). -/
def writeStatus (o : Nat) (bs : List Byte) (s : State) : State :=
  let v := natLE bs * 2 ^ (8 * (o % 8))
  match o / 8 with
  | 0 => if v.testBit 1 then { s with porter := { s.porter with bar0Misuse := false } } else s
  | 1 => mbxErrClear (BitVec.ofNat 64 v) s
  | 2 => if v.testBit 16 then { s with ports := { s.ports with aer := false } } else s
  | _ => s

/-- A write to BAR0; a region that is read-only, reserved or another function's discards it. -/
def registerWrite (f : PortFn) (off : Nat) (bs : List Byte) (s : State) : State :=
  if !fnUp s f || 0x4000000 ≤ off then s
  else if !bar0Fits off bs.length then setMisuse s
  else if off < 0x100000 then
    (if carries s f (off / 0x4000) then writeSq (off / 0x4000) (off % 0x4000) bs s else s)
  else if off < 0x100400 then
    (if carries s f ((off - 0x100000) / 16) then writeBell ((off - 0x100000) / 16) (off % 16) bs s else s)
  else if 0x301000 ≤ off && off < 0x302000 then writeStatus (off - 0x301000) bs s
  else if 0x310000 ≤ off && off + bs.length ≤ 0x310420 then
    { s with ports := { s.ports with
      regs := bs.zipIdx.foldl (fun t b => tset t (fnCode f * 2 ^ 32 + off + b.2) b.1) s.ports.regs } }
  else s

/-- An access that R323 does not allow: a write is discarded, a read returns 0. -/
def bar0InvalidAccess (f : PortFn) (isWrite : Bool) (s : State) : State :=
  if !fnUp s f then s
  else
    let s := setMisuse s
    if isWrite then s else emit (.data f [0] false) s

def execRegisterWrite (f : PortFn) (off : Nat) (bs : List Byte) (s : State) : Host.Outcome State Fault Refusal :=
  .next (registerWrite f off bs s)
def execBar0InvalidAccess (f : PortFn) (isWrite : Bool) (s : State) : Host.Outcome State Fault Refusal :=
  .next (bar0InvalidAccess f isWrite s)

/-! ### BAR2 apertures (12 R324 to R326, R335) -/

def apRoom (x : BitVec 128) : Nat := fld x 112 16
def apOffset (x : BitVec 128) : Nat := fld x 72 24
def apPages (x : BitVec 128) : Nat := fld x 48 24
def apValid (x : BitVec 128) : Bool := fld x 34 1 == 1
def apRd (x : BitVec 128) : Bool := fld x 33 1 == 1
def apWr (x : BitVec 128) : Bool := fld x 32 1 == 1

/-- The entry of an aperture that is not mapped: ROOM 0xFFFF. -/
def apNone : BitVec 128 := mkRec 128 [(112, 16, 0xFFFF)]
def apertureAt (s : State) (a : Nat) : BitVec 128 := tget s.ports.apertures a apNone

/-- Aperture of a BAR2 offset: 64 of the HOST function, of which the last 16 are the STOR function's in its endpoint role. -/
def apertureOf (f : PortFn) (off : Nat) : Nat := off / 0x10000000 + (match f with | .host => 0 | .stor => 48)

/-- The module address that a request reaches, or none where it belongs to no memory. -/
def apertureHit (s : State) (f : PortFn) (off len : Nat) (isWrite : Bool) : Option Nat :=
  let a := apertureOf f off
  let x := apertureAt s a
  let o := off % 0x10000000
  if a < 64 && carries s f a && apValid x && (if isWrite then apWr x else apRd x) && o + len ≤ apPages x * pageBytes then
    (roomAt s (apRoom x)).map (fun r => r.base.toNat + apOffset x * pageBytes + o)
  else none

/-- Event 0x4902, once per aperture for each mapping. -/
def noMemory (f : PortFn) (off : Nat) (s : State) : State :=
  let a := apertureOf f off
  if s.ports.apRaised.contains a then s
  else raise 0x4902 data (fnDie f) [a2 (fnCode f), a2 a] { s with ports := { s.ports with apRaised := addNew s.ports.apRaised a } }

/-- A shut crossing on the way discards the write (02 R37; DESIGN CHOICE, log 125). -/
def bar2Write (f : PortFn) (off : Nat) (bs : List Byte) (ep : Bool) (s : State) : State :=
  if !fnUp s f then s
  else match apertureHit s f off bs.length true with
    | none => noMemory f off s
    | some a =>
      if ep then raise 0x4903 data (fnDie f) [a2 (fnCode f), a8 a] s
      else if wayShut s (portPath f a) then s else homeWrite a bs s

/-- Poison comes back with EP set and raises its memory's event (07 R196, R209, 12 R326); over a shut crossing no data comes,
and the completion carries EP (02 R37; DESIGN CHOICE, log 125). -/
def bar2Read (f : PortFn) (off len : Nat) (s : State) : State :=
  if !fnUp s f then s
  else match apertureHit s f off len false with
    | none => noMemory f off (emit (.data f (List.replicate len 0xFF) false) s)
    | some a =>
      if wayShut s (portPath f a) then emit (.data f [] true) s
      else emit (.data f (rd s a len) (s.mem.poisoned a len)) (readEvent a len s)

def execBar2Write (f : PortFn) (off : Nat) (bs : List Byte) (ep : Bool) (s : State) : Host.Outcome State Fault Refusal :=
  .next (bar2Write f off bs ep s)
def execBar2Read (f : PortFn) (off len : Nat) (s : State) : Host.Outcome State Fault Refusal := .next (bar2Read f off len s)

/-! ### DMA (12 R328) -/

def dmaBytes (d : Dma) : Nat := sumNat (d.list.map (fun e => e.2.toNat))

/-- The bytes of a copy, element by element. -/
def dmaSend : List (W64 × W64) → List Byte → State → State
  | [], _, s => s
  | e :: es, bs, s => dmaSend es (bs.drop e.2.toNat) (emit (.dma e.1 (bs.take e.2.toNat)) s)

/-- The oldest copy of a function's engine has moved every byte; its command completes. Bytes for a task room are discarded
(01 R15); a shut crossing on the way fails the copy (02 R37, log 125). -/
def dmaTransferDone (f : PortFn) (bs : List Byte) (s : State) : State :=
  match s.ports.dmas.find? (fun d => d.1 == f) with
  | none => s
  | some d =>
    if !fnRuns s f then s
    else
      let n := dmaBytes d.2
      let a := ((roomAt s d.2.room.toNat).map (fun r => r.base.toNat + d.2.offset)).getD 0
      if wayShut s (portPath f a) then dmaFails f s
      else
        let s := { s with ports := { s.ports with dmas := s.ports.dmas.erase d } }
        let s := match roomAt s d.2.room.toNat with
          | none => s
          | some _ =>
            if d.2.toHost then dmaSend d.2.list (rd s a n) (readEvent a n s) else portWrite (1 + fnCode f) a (fit n 0 bs) s
        finish (fun p => p.wait == Wait.dma && fnOfMb s p.cmd.mailbox.val == f) { st := stDone } s

def execDmaTransferDone (f : PortFn) (bs : List Byte) (s : State) : Host.Outcome State Fault Refusal :=
  .next (dmaTransferDone f bs s)

/-! ### Messages of mailboxes 64 and 65 (13 R354 to R356) -/

/-- A message that cannot be taken completes at once: its CID and opcode stand in the entry (13 Table 13-5). -/
def turnAwayEntry (n : Fin 66) (e : BitVec 1024) (r : Reply) (s : State) : State :=
  let c : Cmd := {
    mailbox := n, cid := bits e 992 16, irq := false, argRoom := 0xFFFF, argVersion := 0, argOffset := 0, argLen := 0,
    crcOk := true, badField := none }
  turnAway { cmd := c, opcode := bits e 1008 16, session := sessionOfMb s n.val, pass := 0, index := 0, wait := .now } r s

def queueMessage (n : Nat) (e : BitVec 1024) (arg : List Byte) (s : State) : State :=
  setMb n (fun m => { m with msgs := m.msgs ++ [(e, arg)] }) s

/-- A command message from the baseboard controller: it waits, or is turned away while 8 are outstanding (13 R354), or is
answered by the boot ROM (17 R460). -/
def bmcMessageArrival (e : BitVec 1024) (arg : List Byte) (s : State) : State :=
  if s.power.phase == .bootStopped then turnAwayEntry 64 e (bootReply s) s
  else if !keeperAlive s then s
  else if 8 ≤ outstandingOf s 64 then turnAwayEntry 64 e { st := stWrongState } s
  else queueMessage 64 e arg s

/-- A command message from the fabric manager: taken by a later pass, 64 at most outstanding. -/
def fmMessageArrival (e : BitVec 1024) (arg : List Byte) (s : State) : State :=
  if !porterRuns s || 64 ≤ outstandingOf s 65 then s else queueMessage 65 e arg s

def execBmcMessageArrival (e : BitVec 1024) (arg : List Byte) (s : State) : Host.Outcome State Fault Refusal :=
  .next (bmcMessageArrival e arg s)
def execFmMessageArrival (e : BitVec 1024) (arg : List Byte) (s : State) : Host.Outcome State Fault Refusal :=
  .next (fmMessageArrival e arg s)

end Sys2Proof.Machine
end

