-- ==== Sys2Proof/Machine/Fp.lean ====
section
/-! DEFINITION. Number formats, rounding and FP32 arithmetic (03 R54 to R86, 05 R141, R142). A value is an exact dyadic
number; every operation computes exactly and rounds once. -/

namespace Sys2Proof.Machine

/-- A decoded value: (-1)^neg × m × 2^e, an infinity, or a NaN. -/
inductive Num where
  | nan
  | inf (neg : Bool)
  | fin (neg : Bool) (m : Nat) (e : Int)
  deriving DecidableEq, Repr

/-- Sticky flags of Table 3-9. -/
abbrev Flags := BitVec 4
def fSat : Flags := 8
def fOvf : Flags := 4
def fInf : Flags := 2
def fNan : Flags := 1

/-- A floating-point format: exponent and mantissa bits, bias, largest finite value fm × 2^fe (Table 3-2). -/
structure Fmt where
  eb : Nat
  mb : Nat
  bias : Int
  fm : Nat
  fe : Int
  hasInf : Bool
  hasNan : Bool
  deriving DecidableEq, Repr

def f32 : Fmt := ⟨8, 23, 127, 2 ^ 24 - 1, 104, true, true⟩
def bf16 : Fmt := ⟨8, 7, 127, 255, 120, true, true⟩
def f16 : Fmt := ⟨5, 10, 15, 2047, 5, true, true⟩

/-- Table 3-2 by code; 0x8 and 0x9 are integers, and reserved codes have no entry. -/
def fmtOf (code : Nat) : Option Fmt :=
  match code with
  | 0x0 => some f32
  | 0x1 => some bf16
  | 0x2 => some f16
  | 0x3 => some ⟨4, 3, 7, 7, 6, false, true⟩
  | 0x4 => some ⟨5, 2, 15, 7, 13, true, true⟩
  | 0x5 => some ⟨3, 2, 3, 7, 2, false, false⟩
  | 0x6 => some ⟨2, 3, 1, 15, -1, false, false⟩
  | 0x7 => some ⟨2, 1, 1, 3, 1, false, false⟩
  | 0xA => some ⟨4, 3, 8, 7, 5, false, true⟩
  | _ => none

/-- Width in bits of a format code (Table 3-1). -/
def fmtBits (code : Nat) : Nat :=
  match code with
  | 0x0 => 32
  | 0x1 => 16
  | 0x2 => 16
  | 0x5 => 6
  | 0x6 => 6
  | 0x7 => 4
  | _ => 8

/-! ### Decoding (03 R55) -/

def decodeF (f : Fmt) (p : Nat) : Num :=
  let neg := p.testBit (f.eb + f.mb)
  let ex := p / 2 ^ f.mb % 2 ^ f.eb
  let mt := p % 2 ^ f.mb
  let top := 2 ^ f.eb - 1
  if f.hasInf && ex == top then (if mt == 0 then .inf neg else .nan)
  else if f.hasNan && !f.hasInf && ex == top && mt == 2 ^ f.mb - 1 then .nan
  else if ex == 0 then .fin neg mt (1 - f.bias - f.mb)
  else .fin neg (mt + 2 ^ f.mb) ((ex : Int) - f.bias - f.mb)

/-- A stored element of any format code; block-scaled INT8 elements carry 2^-6 where `mx` (03 R64). -/
def decodeElem (code : Nat) (mx : Bool) (p : Nat) : Num :=
  match code with
  | 0x8 => let v : Int := if p % 256 < 128 then p % 256 else (p % 256 : Int) - 256
           .fin (decide (v < 0)) v.natAbs (if mx then -6 else 0)
  | 0x9 => .fin false (p % 256) 0
  | _ => match fmtOf code with
    | some f => decodeF f p
    | none => .nan

def of32 (w : W32) : Num := decodeF f32 w.toNat

/-! ### Rounding (03 R61, R80 to R83) -/

/-- Rounding: to nearest even, stochastic under a 24-bit random value, toward zero, toward +infinity. -/
inductive Rnd where
  | rne
  | sr (r : Nat)
  | rz
  | up
  deriving DecidableEq, Repr

/-- Scale a numerator and denominator by 2^k. -/
def scaleQ (n d : Nat) (k : Int) : Nat × Nat := if 0 ≤ k then (n * 2 ^ k.toNat, d) else (n, d * 2 ^ (-k).toNat)

/-- floor(log2 (n / d × 2^e)) of a positive quotient. -/
def log2Q (n d : Nat) (e : Int) : Int :=
  let g : Int := (Nat.log2 n : Int) - (Nat.log2 d : Int)
  let (a, b) := scaleQ n d (-g)
  (if b ≤ a then g else g - 1) + e

/-- The exponent of the format's last place at a value (unbounded above, the subnormal place below). -/
def ulpExp (f : Fmt) (n d : Nat) (e : Int) : Int := max (log2Q n d e) (1 - f.bias) - f.mb

/-- Whole units and remainder of n / d × 2^e at the place u: floor, remainder numerator, denominator. -/
def unitsAt (n d : Nat) (e u : Int) : Nat × Nat × Nat :=
  let (a, b) := scaleQ n d (e - u)
  (a / b, a % b, b)

def roundUnits (r : Rnd) (neg : Bool) (t rem den : Nat) : Nat :=
  match r with
  | .rne => if 2 * rem > den || (2 * rem == den && t % 2 == 1) then t + 1 else t
  | .sr x => if rem == 0 then t else if x < 2 ^ 24 * rem / den then t + 1 else t
  | .rz => t
  | .up => if rem == 0 || neg then t else t + 1

/-- Round a positive quotient to the format's precision with an unbounded exponent range: units and place. -/
def roundQ (f : Fmt) (r : Rnd) (neg : Bool) (n d : Nat) (e : Int) : Nat × Int :=
  if n == 0 then (0, 0)
  else
    let u := ulpExp f n d e
    let (t, rem, den) := unitsAt n d e u
    (roundUnits r neg t rem den, u)

/-- Whether m × 2^e lies beyond the largest finite value. -/
def beyond (f : Fmt) (m : Nat) (e : Int) : Bool :=
  let lo := min e f.fe
  decide (f.fm * 2 ^ (f.fe - lo).toNat < m * 2 ^ (e - lo).toNat)

def signBit (f : Fmt) (neg : Bool) : Nat := if neg then 2 ^ (f.eb + f.mb) else 0
def infPat (f : Fmt) (neg : Bool) : Nat := signBit f neg + (2 ^ f.eb - 1) * 2 ^ f.mb

/-- The canonical NaN (03 R59); 0 in a format without NaN. -/
def nanPat (f : Fmt) : Nat :=
  if f.hasInf then (2 ^ f.eb - 1) * 2 ^ f.mb + 2 ^ (f.mb - 1)
  else if f.hasNan then 2 ^ (f.eb + f.mb) - 1 else 0

/-- FP8 E5M2 writes 0x7E. -/
def canonNan (f : Fmt) : Nat := nanPat f

def encodeFin (f : Fmt) (neg : Bool) (t : Nat) (u : Int) : Nat :=
  if t == 0 then signBit f neg
  else if t < 2 ^ f.mb then signBit f neg + t
  else
    let (t, u) := if t == 2 ^ (f.mb + 1) then (2 ^ f.mb, u + 1) else (t, u)
    signBit f neg + (u + f.mb + f.bias).toNat * 2 ^ f.mb + (t - 2 ^ f.mb)

def maxPat (f : Fmt) (neg : Bool) : Nat := encodeFin f neg f.fm f.fe

/-- Round to FP32 by nearest even: an overflow gives an infinity and sets OVF and INF (03 R61, R86). -/
def to32Q (neg : Bool) (n d : Nat) (e : Int) : W32 × Flags :=
  let (t, u) := roundQ f32 .rne neg n d e
  if beyond f32 t u then (BitVec.ofNat 32 (infPat f32 neg), fOvf ||| fInf)
  else (BitVec.ofNat 32 (encodeFin f32 neg t u), 0)

def nan32 : W32 := 0x7FC00000
def one32 : W32 := 0x3F800000
def zero32 : W32 := 0

/-- FP32 of a value that an operation on values gave: `ovf` says its operands were finite. -/
def to32 (x : Num) : W32 × Flags :=
  match x with
  | .nan => (nan32, fNan)
  | .inf neg => (BitVec.ofNat 32 (infPat f32 neg), fInf)
  | .fin neg m e => to32Q neg m 1 e

/-- Flags of reading an operand: INF for an infinity, NAN for a NaN. -/
def readFlags (x : Num) : Flags :=
  match x with
  | .nan => fNan
  | .inf _ => fInf
  | .fin .. => 0

/-! ### Exact operations on values -/

def negN (x : Num) : Num := match x with | .fin n m e => .fin (!n) m e | .inf n => .inf (!n) | .nan => .nan

def signedInt (neg : Bool) (m : Nat) : Int := if neg then -(m : Int) else m

def addN (x y : Num) : Num :=
  match x, y with
  | .nan, _ => .nan
  | _, .nan => .nan
  | .inf a, .inf b => if a == b then .inf a else .nan
  | .inf a, _ => .inf a
  | _, .inf b => .inf b
  | .fin a m e, .fin b n f =>
    let lo := min e f
    let s := signedInt a (m * 2 ^ (e - lo).toNat) + signedInt b (n * 2 ^ (f - lo).toNat)
    if s == 0 then .fin (a && b) 0 0 else .fin (decide (s < 0)) s.natAbs lo

def mulN (x y : Num) : Num :=
  match x, y with
  | .nan, _ => .nan
  | _, .nan => .nan
  | .inf a, .inf b => .inf (a != b)
  | .inf a, .fin b n _ => if n == 0 then .nan else .inf (a != b)
  | .fin a m _, .inf b => if m == 0 then .nan else .inf (a != b)
  | .fin a m e, .fin b n f => .fin (a != b) (m * n) (e + f)

def isFin (x : Num) : Bool := match x with | .fin .. => true | _ => false
def isZero (x : Num) : Bool := match x with | .fin _ 0 _ => true | _ => false

/-- x < y in value; false when either is a NaN. -/
def ltN (x y : Num) : Bool :=
  match x, y with
  | .nan, _ => false
  | _, .nan => false
  | .inf a, .inf b => a && !b
  | .inf a, _ => a
  | _, .inf b => !b
  | .fin a m e, .fin b n f =>
    let lo := min e f
    decide (signedInt a (m * 2 ^ (e - lo).toNat) < signedInt b (n * 2 ^ (f - lo).toNat))

def eqN (x y : Num) : Bool :=
  match x, y with
  | .nan, _ => false
  | _, .nan => false
  | _, _ => !ltN x y && !ltN y x

/-! ### FP32 arithmetic, nearest even, with its flags (03 R86) -/

/-- Flags of an arithmetic result beside those of its operands. -/
def arith (xs : List Num) (r : W32 × Flags) : W32 × Flags := (r.1, xs.foldl (fun f x => f ||| readFlags x) r.2)

def fadd (a b : W32) : W32 × Flags := let x := of32 a; let y := of32 b; arith [x, y] (to32 (addN x y))
def fsub (a b : W32) : W32 × Flags := let x := of32 a; let y := of32 b; arith [x, y] (to32 (addN x (negN y)))
def fmul (a b : W32) : W32 × Flags := let x := of32 a; let y := of32 b; arith [x, y] (to32 (mulN x y))
/-- a × b + c with one rounding. -/
def ffma (a b c : W32) : W32 × Flags :=
  let x := of32 a; let y := of32 b; let z := of32 c
  arith [x, y, z] (to32 (addN (mulN x y) z))

/-- a / b correctly rounded (05 R141). A finite non-zero number over zero is an infinity produced from finite operands. -/
def fdivN (x y : Num) : W32 × Flags :=
  match x, y with
  | .nan, _ => (nan32, fNan)
  | _, .nan => (nan32, fNan)
  | .inf _, .inf _ => (nan32, fNan)
  | .inf a, .fin b _ _ => (BitVec.ofNat 32 (infPat f32 (a != b)), fInf)
  | .fin a _ _, .inf b => (BitVec.ofNat 32 (signBit f32 (a != b)), 0)
  | .fin a m e, .fin b n f =>
    if n == 0 then
      if m == 0 then (nan32, fNan) else (BitVec.ofNat 32 (infPat f32 (a != b)), fOvf ||| fInf)
    else to32Q (a != b) m n (e - f)

def fdiv (a b : W32) : W32 × Flags := let x := of32 a; let y := of32 b; arith [x, y] (fdivN x y)

/-- Bit by bit from the top: the largest t whose square is at most n. -/
def isqrtGo (n : Nat) : Nat → Nat → Nat
  | 0, t => t
  | k + 1, t => let c := t + 2 ^ k; isqrtGo n k (if c * c ≤ n then c else t)

def isqrt (n : Nat) : Nat := isqrtGo n (Nat.log2 n / 2 + 1) 0

/-- √a correctly rounded. -/
def fsqrt (a : W32) : W32 × Flags :=
  match of32 a with
  | .nan => (nan32, fNan)
  | .inf neg => if neg then (nan32, fNan ||| fInf) else (a, fInf)
  | .fin neg m e =>
    if m == 0 then (a, 0)
    else if neg then (nan32, fNan)
    else
      let u : Int := (log2Q m 1 e) / 2 - 23
      let n := m * 2 ^ (e - 2 * u).toNat
      let t := isqrt n
      (BitVec.ofNat 32 (encodeFin f32 false (if t * t + t < n then t + 1 else t) u), 0)

/-- FP32 arithmetic result rounded on to BF16 by nearest even, held as FP32 (05 R141). -/
def toBf16 (r : W32 × Flags) : W32 × Flags :=
  match of32 r.1 with
  | .fin neg m e =>
    let (t, u) := roundQ bf16 .rne neg m 1 e
    if beyond bf16 t u then (BitVec.ofNat 32 (infPat f32 neg), r.2 ||| fOvf ||| fInf)
    else (BitVec.ofNat 32 (encodeFin bf16 neg t u * 65536), r.2)
  | _ => r

/-! ### Functions within 1 ulp (05 R141): an enclosure of the exact value, then a free pick inside the bound (log 9) -/

/-- The FP32 magnitudes within 1 ulp of a value enclosed by lo and hi (numerator, denominator, exponent), as units and
place; below a power of two the places lie half as far apart. -/
def ulpCands (lo hi : Nat × Nat × Int) (exact : Bool) : List (Nat × Int) :=
  let u := ulpExp f32 hi.1 hi.2.1 hi.2.2
  let c1 := (unitsAt lo.1 lo.2.1 lo.2.2 u).1
  let c2 := (unitsAt hi.1 hi.2.1 hi.2.2 u).1
  let edge (c : Nat) : Bool := c == 2 ^ 23 && decide (-149 < u)
  if exact then (if edge c2 then [(2 * c2 - 2, u - 1), (2 * c2 - 1, u - 1), (c2, u), (c2 + 1, u)] else [(c2 - 1, u), (c2, u), (c2 + 1, u)])
  else if c1 == c2 then
    (if edge c1 && (unitsAt hi.1 hi.2.1 hi.2.2 (u - 1)).1 == 2 * c1 then [(2 * c1 - 1, u - 1), (c1, u), (c1 + 1, u)]
     else [(c1, u), (c1 + 1, u)])
  else [(c2, u)]

/-- One of those values, picked freely. -/
def pickUlp (op : Nat) (ops : List W32) (neg : Bool) (lo hi : Nat × Nat × Int) (exact : Bool) : W32 × Flags :=
  if hi.1 == 0 then (BitVec.ofNat 32 (signBit f32 neg), 0)
  else
    let cs := ulpCands lo hi exact
    let (t, u) := cs.getD (Config.ulpPick op ops % cs.length) (0, -149)
    if beyond f32 t u then (BitVec.ofNat 32 (infPat f32 neg), fOvf ||| fInf)
    else (BitVec.ofNat 32 (encodeFin f32 neg t u), 0)

/-- Fixed-point places of the enclosures. -/
def fxP : Nat := 160
/-- ln 2 and log2 e in units of 2^-160, rounded down. -/
def ln2Fx : Nat := 0xB17217F7D1CF79ABC9E3B39803F2F6AF40F34326
def log2eFx : Nat := 0x171547652B82FE1777D0FFDA0D23A7D11D6AEF551

/-- Σ y^i / i! in fixed point, terms truncated. -/
def expSeries (y : Nat) : Nat → Nat → Nat → Nat → Nat
  | 0, _, _, acc => acc
  | n + 1, i, term, acc =>
    let t := term * y / 2 ^ fxP / (i + 1)
    expSeries y n (i + 1) t (acc + t)

/-- 2^f for f = F × 2^-160 in [0, 1): within 2^20 units of 2^-160 of the sum. -/
def exp2Frac (F : Nat) : Nat := expSeries (F * ln2Fx / 2 ^ fxP) 60 0 (2 ^ fxP) (2 ^ fxP)

/-- 2^x enclosed, x = X × 2^-160: lower and upper bound. -/
def exp2Fx (X : Int) : (Nat × Nat × Int) × (Nat × Nat × Int) :=
  let k := X / (2 ^ fxP : Int)
  let s := exp2Frac (X % (2 ^ fxP : Int)).toNat
  ((s - 2 ^ 20, 1, k - fxP), (s + 2 ^ 20, 1, k - fxP))

/-- A dyadic number in units of 2^-160, truncated. -/
def toFx (neg : Bool) (m : Nat) (e : Int) : Int :=
  let (a, b) := scaleQ m 1 (e + fxP)
  signedInt neg (a / b)

/-- e^x enclosed, for |x| below 2^10. -/
def expFx (neg : Bool) (m : Nat) (e : Int) : (Nat × Nat × Int) × (Nat × Nat × Int) :=
  exp2Fx (toFx neg (m * log2eFx) (e - fxP))

/-- |x| at least 2^k. -/
def atLeast (m : Nat) (e k : Int) : Bool := m != 0 && decide (k ≤ log2Q m 1 e)

def overflow32 : W32 × Flags := (BitVec.ofNat 32 (infPat f32 false), fOvf ||| fInf)
def tinyPos : Nat × Nat × Int := (1, 1, -200)

def fexp2 (a : W32) : W32 × Flags :=
  match of32 a with
  | .nan => (nan32, fNan)
  | .inf neg => if neg then (zero32, fInf) else (a, fInf)
  | .fin neg m e =>
    if m == 0 then pickUlp 0x13 [a] false (1, 1, 0) (1, 1, 0) true
    else if atLeast m e 8 then (if neg then pickUlp 0x13 [a] false tinyPos tinyPos false else overflow32)
    else
      let whole := decide (0 ≤ e) || m % 2 ^ (-e).toNat == 0
      let (lo, hi) := exp2Fx (toFx neg m e)
      if whole then
        let k := (toFx neg m e) / (2 ^ fxP : Int)
        pickUlp 0x13 [a] false (1, 1, k) (1, 1, k) true
      else pickUlp 0x13 [a] false lo hi false

def fexp (a : W32) : W32 × Flags :=
  match of32 a with
  | .nan => (nan32, fNan)
  | .inf neg => if neg then (zero32, fInf) else (a, fInf)
  | .fin neg m e =>
    if m == 0 then pickUlp 0x12 [a] false (1, 1, 0) (1, 1, 0) true
    else if atLeast m e 8 then (if neg then pickUlp 0x12 [a] false tinyPos tinyPos false else overflow32)
    else let (lo, hi) := expFx neg m e; pickUlp 0x12 [a] false lo hi false

/-- Binary digits of log2 of a mantissa in [1, 2), by squaring in units of 2^-256. -/
def log2Digits : Nat → Nat → Nat → Nat
  | 0, _, acc => acc
  | n + 1, x, acc =>
    let y := x * x / 2 ^ 256
    if 2 ^ 257 ≤ y then log2Digits n (y / 2) (2 * acc + 1) else log2Digits n y (2 * acc)

def flog2 (a : W32) : W32 × Flags :=
  match of32 a with
  | .nan => (nan32, fNan)
  | .inf neg => if neg then (nan32, fNan ||| fInf) else (a, fInf)
  | .fin neg m e =>
    if m == 0 then (BitVec.ofNat 32 (infPat f32 true), fOvf ||| fInf)
    else if neg then (nan32, fNan)
    else
      let k := Nat.log2 m
      let ex : Int := e + k
      let frac := log2Digits 80 (m * 2 ^ (256 - k)) 0
      if m == 2 ^ k then
        pickUlp 0x14 [a] (decide (ex < 0)) (ex.natAbs, 1, 0) (ex.natAbs, 1, 0) true
      else
        let v : Int := ex * (2 ^ 80 : Int) + frac
        let (l, h) := if v < 0 then (v.natAbs - 2, v.natAbs + 1) else (v.natAbs - 1, v.natAbs + 2)
        pickUlp 0x14 [a] (decide (v < 0)) (l, 1, -80) (h, 1, -80) false

/-- e^-|x| enclosed, as numerators over 2^k. -/
def expNeg (m : Nat) (e : Int) : (Nat × Nat × Int) × (Nat × Nat × Int) := expFx true m e

/-- E as a fraction of 2^-400. -/
def at400 (q : Nat × Nat × Int) : Nat := let (a, b) := scaleQ q.1 q.2.1 (q.2.2 + 400); a / b

def fsig (a : W32) : W32 × Flags :=
  match of32 a with
  | .nan => (nan32, fNan)
  | .inf neg => if neg then (zero32, fInf) else (one32, fInf)
  | .fin neg m e =>
    if m == 0 then pickUlp 0x16 [a] false (1, 1, -1) (1, 1, -1) true
    else if atLeast m e 8 then
      (if neg then pickUlp 0x16 [a] false tinyPos tinyPos false else pickUlp 0x16 [a] false (2 ^ 60 - 1, 1, -60) (2 ^ 60 - 1, 1, -60) false)
    else
      let (lo, hi) := expNeg m e
      let one := 2 ^ 400
      if neg then pickUlp 0x16 [a] false (at400 lo, one + at400 lo, 0) (at400 hi + 1, one + at400 hi, 0) false
      else pickUlp 0x16 [a] false (one, one + at400 hi + 1, 0) (one, one + at400 lo, 0) false

def ftanh (a : W32) : W32 × Flags :=
  match of32 a with
  | .nan => (nan32, fNan)
  | .inf neg => (if neg then 0xBF800000 else one32, fInf)
  | .fin neg m e =>
    if m == 0 then pickUlp 0x15 [a] neg (0, 1, 0) (0, 1, 0) true
    else if atLeast m e 6 then pickUlp 0x15 [a] neg (2 ^ 60 - 1, 1, -60) (2 ^ 60 - 1, 1, -60) false
    else if !atLeast m e (-12) then
      -- x - x^3/3 <= tanh x <= x - x^3/3 + 2 x^5/15, in fifteenths
      let sc := if e < -160 then 0 else 1
      if sc == 0 then pickUlp 0x15 [a] neg (m * 2 ^ 200 - 1, 1, e - 200) (m * 2 ^ 200 - 1, 1, e - 200) false
      else
        let x := m * 2 ^ (e + 160).toNat
        let one := 2 ^ 160
        let lo := 15 * x * one ^ 4 - 5 * x ^ 3 * one ^ 2
        pickUlp 0x15 [a] neg (lo, 15 * one ^ 5, 0) (lo + 2 * x ^ 5, 15 * one ^ 5, 0) false
    else
      let (lo, hi) := expFx true m (e + 1)
      let one := 2 ^ 400
      pickUlp 0x15 [a] neg (one - at400 hi - 1, one + at400 hi + 1, 0) (one - at400 lo, one + at400 lo, 0) false

def frcp (a : W32) : W32 × Flags :=
  match of32 a with
  | .nan => (nan32, fNan)
  | .inf neg => (BitVec.ofNat 32 (signBit f32 neg), fInf)
  | .fin neg m e =>
    if m == 0 then (BitVec.ofNat 32 (infPat f32 neg), fOvf ||| fInf)
    else
      let exact := (m == 2 ^ Nat.log2 m)
      pickUlp 0x10 [a] neg (1, m, -e) (1, m, -e) exact

/-- 1/√a: floor of the root at 2^-200 relative to the result encloses it. -/
def frsq (a : W32) : W32 × Flags :=
  match of32 a with
  | .nan => (nan32, fNan)
  | .inf neg => if neg then (nan32, fNan ||| fInf) else (zero32, fInf)
  | .fin neg m e =>
    if m == 0 then (BitVec.ofNat 32 (infPat f32 neg), fOvf ||| fInf)
    else if neg then (nan32, fNan)
    else
      let (m2, e2) := if e % 2 == 0 then (m, e) else (2 * m, e - 1)
      let r := isqrt (2 ^ 400 / m2)
      let exact := (r * r * m2 == 2 ^ 400)
      pickUlp 0x11 [a] false (r, 1, -200 - e2 / 2) (if exact then r else r + 1, 1, -200 - e2 / 2) exact

/-! ### Narrowing conversions (03 R61, R62, R71, Table 3-4) -/

/-- A narrowing result: the pattern, its flags, and whether the block's scale is written as NaN. -/
structure Narrow where
  pat : Nat
  flags : Flags
  blockNan : Bool := false
  deriving DecidableEq, Repr

/-- Convert ±(n / d) × 2^e into a float format. -/
def narrowQ (f : Fmt) (nonfin : Bool) (r : Rnd) (neg : Bool) (n d : Nat) (e : Int) : Narrow :=
  let (t, u) := roundQ f r neg n d e
  if !beyond f t u then { pat := encodeFin f neg t u, flags := 0 }
  else if !nonfin then { pat := maxPat f neg, flags := fSat }
  else if f.hasInf then { pat := infPat f neg, flags := fInf }
  else if f.hasNan then { pat := canonNan f, flags := fNan }
  else { pat := 0, flags := fNan, blockNan := true }

def narrowF (f : Fmt) (nonfin : Bool) (r : Rnd) (x : Num) : Narrow :=
  match x with
  | .fin neg m e => narrowQ f nonfin r neg m 1 e
  | .inf neg =>
    if !nonfin then { pat := maxPat f neg, flags := fSat ||| fInf }
    else if f.hasInf then { pat := infPat f neg, flags := fInf }
    else if f.hasNan then { pat := canonNan f, flags := fInf ||| fNan }
    else { pat := 0, flags := fInf ||| fNan, blockNan := true }
  | .nan =>
    if f.hasNan || f.hasInf then { pat := canonNan f, flags := fNan }
    else if !nonfin then { pat := 0, flags := fSat ||| fNan }
    else { pat := 0, flags := fNan, blockNan := true }

/-- Round a quotient to an integer. -/
def roundInt (r : Rnd) (neg : Bool) (n d : Nat) (e : Int) : Nat :=
  let (t, rem, den) := unitsAt n d e 0
  roundUnits r neg t rem den

/-- INT8 never gives -128; UINT8 takes negative values to 0. -/
def narrowIntQ (code : Nat) (r : Rnd) (neg : Bool) (n d : Nat) (e : Int) : Narrow :=
  let t := roundInt r neg n d e
  if code == 0x8 then
    let m := min t 127
    { pat := if neg && m != 0 then 256 - m else m, flags := if 127 < t then fSat else 0 }
  else if neg && t != 0 then { pat := 0, flags := fSat }
  else { pat := min t 255, flags := if 255 < t then fSat else 0 }

def narrowInt (code : Nat) (r : Rnd) (x : Num) : Narrow :=
  match x with
  | .fin neg m e => narrowIntQ code r neg m 1 e
  | .inf neg =>
    if code == 0x8 then { pat := if neg then 129 else 127, flags := fSat ||| fInf }
    else { pat := if neg then 0 else 255, flags := fSat ||| fInf }
  | .nan => { pat := 0, flags := fSat ||| fNan }

/-- Convert a value into a format code; into FP32 it rounds to nearest even (03 R61). -/
def narrow (code : Nat) (nonfin : Bool) (r : Rnd) (x : Num) : Narrow :=
  if code == 0 then let (w, f) := to32 x; { pat := w.toNat, flags := f ||| readFlags x }
  else if code == 0x8 || code == 0x9 then narrowInt code r x
  else match fmtOf code with
    | some f => narrowF f nonfin r x
    | none => { pat := 0, flags := 0 }

/-- The numeric control's RND as a rounding, with the element's random value (03 Table 3-3, R82). -/
def rndOf (code : Nat) (random : Nat) : Rnd := if code == 1 then .sr random else if code == 2 then .rz else .rne

/-! ### Philox-4×32, 10 rounds (03 R82) -/

def philoxRound (k0 k1 : W32) (c : W32 × W32 × W32 × W32) : W32 × W32 × W32 × W32 :=
  let (c0, c1, c2, c3) := c
  let p0 := 0xD2511F53 * c0.toNat
  let p1 := 0xCD9E8D57 * c2.toNat
  (BitVec.ofNat 32 (p1 / 2 ^ 32) ^^^ c1 ^^^ k0, BitVec.ofNat 32 p1, BitVec.ofNat 32 (p0 / 2 ^ 32) ^^^ c3 ^^^ k1,
   BitVec.ofNat 32 p0)

def philoxGo : Nat → W32 → W32 → W32 × W32 × W32 × W32 → W32 × W32 × W32 × W32
  | 0, _, _, c => c
  | n + 1, k0, k1, c => philoxGo n (k0 + 0x9E3779B9) (k1 + 0xBB67AE85) (philoxRound k0 k1 c)

/-- The 24-bit random value of element `i` of a tensor in a step. -/
def randomOf (tensor seed : W32) (step : W64) (i : Nat) : Nat :=
  let q := i / 4
  let (o0, o1, o2, o3) := philoxGo 10 tensor seed
    (BitVec.ofNat 32 q, BitVec.ofNat 32 (q / 2 ^ 32), BitVec.ofNat 32 step.toNat, BitVec.ofNat 32 (step.toNat / 2 ^ 32))
  (match i % 4 with | 0 => o0 | 1 => o1 | 2 => o2 | _ => o3).toNat % 2 ^ 24

/-! ### Scales (03 R69 to R71) -/

/-- Fmax of an element format as m × 2^e; block-scaled INT8 has 127 × 2^-6 (03 R64). -/
def fmaxOf (code : Nat) : Nat × Int :=
  match fmtOf code with
  | some f => (f.fm, f.fe)
  | none => if code == 0x8 then (127, -6) else (255, 0)

/-- a / Fmax rounded toward +infinity in FP32, 1.0 for a = 0, at least 2^-126 (03 R69). -/
def tensorScale (code : Nat) (a : W32) : W32 :=
  match of32 a with
  | .fin _ m e =>
    if m == 0 then one32
    else
      let (fm, fe) := fmaxOf code
      let (t, u) := roundQ f32 .up false m fm (e - fe)
      if log2Q m fm (e - fe) < -126 then 0x00800000
      else if beyond f32 t u then BitVec.ofNat 32 (infPat f32 false)
      else BitVec.ofNat 32 (encodeFin f32 false t u)
  | _ => one32

/-- emax of the MX rule (03 R70). -/
def emaxOf (code : Nat) : Int :=
  match code with
  | 0x3 => 8
  | 0x4 => 15
  | 0x5 => 4
  | 0x6 => 2
  | 0x7 => 2
  | _ => 0

/-- ceil(log2 (n / d × 2^e)). -/
def clog2Q (n d : Nat) (e : Int) : Int :=
  let g := log2Q n d e
  let (a, b) := scaleQ n d (e - g)
  if a == b then g else g + 1

/-- Block exponent and whether it was clamped (03 R70). -/
def blockExp (code : Nat) (mxRule : Bool) (a t : W32) : Int × Bool :=
  match of32 a, of32 t with
  | .fin _ m e, .fin _ n f =>
    if m == 0 || n == 0 then (0, false)
    else
      let x := if mxRule then log2Q m n (e - f) - emaxOf code
        else let (fm, fe) := fmaxOf code; clog2Q m (n * fm) (e - f - fe)
      if x < -127 then (-127, true) else if 127 < x then (127, true) else (x, false)
  | _, _ => (0, false)

/-- q = convert(x / (TSCALE × 2^X)), rounded once; a finite overflow saturates whatever NONFIN holds (03 R71). -/
def quant (code : Nat) (nonfin : Bool) (r : Rnd) (x t : W32) (X : Int) : Narrow :=
  match of32 x, of32 t with
  | .fin neg m e, .fin tn n f =>
    if n == 0 then narrow code nonfin r (if m == 0 then .nan else .inf (neg != tn))
    else if code == 0x8 then narrowIntQ code r (neg != tn) m n (e - f - X + 6)
    else if code == 0x9 then narrowIntQ code r (neg != tn) m n (e - f - X)
    else match fmtOf code with
      | some g => narrowQ g false r (neg != tn) m n (e - f - X)
      | none => { pat := 0, flags := 0 }
  | .fin neg _ _, .inf tn => narrow code nonfin r (.fin (neg != tn) 0 0)
  | v, .fin _ _ _ => narrow code nonfin r v
  | _, _ => narrow code nonfin r .nan

/-- q × 2^X × TSCALE in FP32, one rounding (03 R64). -/
def dequant (code : Nat) (p : Nat) (X : Int) (t : W32) : W32 × Flags :=
  let q := decodeElem code true p
  arith [q, of32 t] (to32 (mulN (mulN q (.fin false 1 X)) (of32 t)))

end Sys2Proof.Machine
end

