-- ==== Sys2Proof/Machine/Streams.lean ====
section
/-! DEFINITION. Streams as the engines walk them: where an element lies, how it is decoded, the chunks of each geometry, how
results are written, and the values of a product (03 R57, R63 to R76, 04 R93 to R103, 05 R128 to R132, R149 to R151). -/

namespace Sys2Proof.Machine

/-! ### Numeric control (03 Table 3-3) -/

def ncAxes (v : Nat) : Nat := v / 16 % 4
def ncRule (v : Nat) : Bool := v / 8 % 2 == 1
def ncNonfin (v : Nat) : Bool := v / 4 % 2 == 1
def ncRnd (v : Nat) : Nat := v % 4

/-! ### Elements (03 R57, R66, R67, 04 R107) -/

def cdiv (a b : Nat) : Nat := (a + b - 1) / b

/-- Logical rows and columns: TRANSPOSE exchanges the two innermost stored dimensions (04 R107). -/
def logRows (x : BitVec 256) : Nat := if sTrans x then sExt0 x else sExt1 x
def logCols (x : BitVec 256) : Nat := if sTrans x then sExt1 x else sExt0 x

/-- Stored element number of batch b, stored row r, stored column c. -/
def storedAt (x : BitVec 256) (b r c : Nat) : Nat := b * sStr2 x + r * sStr1 x + c

/-- The pattern of `w` bits at bit `i` of an address. Elements of 6 and 4 bits are packed from bit 0 up (03 R57). -/
def rdBits (s : State) (base i w : Nat) : Nat :=
  rdNat s (base + i / 8) ((i % 8 + w + 7) / 8) / 2 ^ (i % 8) % 2 ^ w

/-- Place of a block's scale byte in a scale array: axis 0 along the last dimension, 1 along the other (03 R67; log 27). -/
def scaleIndex (axis : Nat) (x : BitVec 256) (b r c : Nat) : Nat :=
  if axis == 0 then (b * sExt1 x + r) * cdiv (sExt0 x) 32 + c / 32
  else (b * sExt0 x + c) * cdiv (sExt1 x) 32 + r / 32

def headerAt (x : BitVec 256) : Nat := sBase x + sScaleOff x
def headAxis (h : Nat) : Nat := h / 2 ^ 104 % 2
def headFmt (h : Nat) : Nat := h / 2 ^ 96 % 16
def scaleHead (s : State) (x : BitVec 256) : Nat := rdNat s (headerAt x) 16

/-- Block scale byte of an element, and TSCALE; a stream without a scale array has exponent 0 and 1.0 (04 R94). A forerunner
operand takes TSCALE from its history record (18 R489; log 29). -/
def blockByte (s : State) (x : BitVec 256) (b r c : Nat) : Nat :=
  if sScaled x && sFmt x != 0xA then
    rdNat s (headerAt x + 16 + scaleIndex (headAxis (scaleHead s x)) x b r c) 1
  else 127
def tscaleOf (s : State) (x : BitVec 256) : W32 :=
  if !sScaled x then one32
  else if sFmt x == 0xA then BitVec.ofNat 32 (rdNat s (headerAt x + 56) 4)
  else BitVec.ofNat 32 (scaleHead s x)

/-- Stored pattern of a logical element. -/
def patAt (s : State) (x : BitVec 256) (b r c : Nat) : Nat :=
  let i := if sTrans x then storedAt x b c r else storedAt x b r c
  rdBits s (sBase x) (i * fmtBits (sFmt x)) (fmtBits (sFmt x))

def scaleExp (e : Nat) : Int := (e : Int) - 127

/-- q of an element and the exponent byte of its block (logical position). -/
def elemAt (s : State) (x : BitVec 256) (b r c : Nat) : Num × Nat :=
  let e := if sTrans x then blockByte s x b c r else blockByte s x b r c
  let q := decodeElem (sFmt x) (sScaled x) (patAt s x b r c)
  (if e == 255 then .nan else q, e)

/-- An element in FP32 with the flags of its decoding; FP32 moves unchanged (03 R64, R86). -/
def value32 (s : State) (x : BitVec 256) (b r c : Nat) : W32 × Flags :=
  if sFmt x == 0 then (BitVec.ofNat 32 (patAt s x b r c), 0)
  else
    let (q, e) := elemAt s x b r c
    let t := of32 (tscaleOf s x)
    if sScaled x then arith [q, t] (to32 (mulN (mulN q (.fin false 1 (scaleExp e))) t)) else arith [q] (to32 q)

/-! ### Chunks of 1,024 lanes (05 R128, R131) -/

/-- A shape: batches, rows, columns. -/
structure Shape where
  b : Nat
  r : Nat
  c : Nat
  deriving DecidableEq, Repr

def shapeOf (x : BitVec 256) : Shape := ⟨sExt2 x, logRows x, logCols x⟩

/-- The shape of a task: of stream A, or M by N for a product (04 Table 4-4). -/
def taskShape (d : BitVec 2048) : Shape :=
  if dKind d == 0 then ⟨sExt2 (dStream d 0), dM d, dN d⟩ else shapeOf (dStream d 0)

/-- Chunks of a shape in a geometry: 0 ROW, 1 TILE, 2 BAND. -/
def chunksIn (geom : Nat) (p : Shape) : Nat :=
  match geom with
  | 0 => p.b * p.r * cdiv p.c 1024
  | 2 => p.b * cdiv p.r 32 * cdiv p.c 128 * 4
  | _ => p.b * cdiv p.r 8 * cdiv p.c 128

/-- Position of lane `l` of chunk `n`; it may lie beyond the extents. `product`: the drain order of 04 R98. -/
def lanePos (geom : Nat) (product : Bool) (p : Shape) (n l : Nat) : Nat × Nat × Nat :=
  match geom with
  | 0 =>
    let q := max 1 (cdiv p.c 1024)
    let ρ := n / q
    (ρ / max 1 p.r, ρ % max 1 p.r, n % q * 1024 + l)
  | 2 =>
    let t := max 1 (cdiv p.c 128)
    let per := t * 4 * max 1 (cdiv p.r 32)
    let m := n % per
    (n / per, m / (t * 4) * 32 + m % 4 * 8 + l / 128, m / 4 % t * 128 + l % 128)
  | _ =>
    let t := max 1 (cdiv p.c 128)
    let per := t * max 1 (cdiv p.r 8)
    let m := n % per
    if product then
      let rb := m / (t * 128)
      let k := m - rb * t * 128
      let e := max 1 (cdiv (min 1024 (p.r - 1024 * rb)) 8)
      (n / per, rb * 1024 + k % e * 8 + l / 128, k / e * 128 + l % 128)
    else (n / per, m / t * 8 + l / 128, m % t * 128 + l % 128)

def inside (p : Shape) (q : Nat × Nat × Nat) : Bool := decide (q.1 < p.b) && decide (q.2.1 < p.r) && decide (q.2.2 < p.c)

/-- Position of a lane of an output's chunk: an output of one row of at most 1,024 elements takes lanes from 0 up (R150). -/
def outPos (geom : Nat) (product : Bool) (p : Shape) (n l : Nat) : Nat × Nat × Nat :=
  if p.b == 1 && p.r == 1 && p.c ≤ 1024 then (n, 0, l) else lanePos geom product p n l

def outChunks (geom : Nat) (p : Shape) : Nat := if p.b == 1 && p.r == 1 && p.c ≤ 1024 then 1 else chunksIn geom p

/-- A padding lane: +0.0 and invalid (05 R129). -/
def padLane : Lane := ⟨0, false⟩

def lanes1024 : List Nat := List.range 1024

def flagsOr (l : List Flags) : Flags := l.foldl (· ||| ·) 0

/-- The words of a stream's bytes seen as packed 32-bit lanes (05 R132 RAW). -/
def rawShape (x : BitVec 256) : Shape := ⟨sExt2 x, sExt1 x, cdiv (sExt0 x * fmtBits (sFmt x)) 32⟩
/-- Bits of a stream's word that lie inside EXT0: 32, or fewer in the last word of a row. -/
def rawBits (x : BitVec 256) (k : Nat) : Nat := min 32 (sExt0 x * fmtBits (sFmt x) - 32 * k)
def rawAddr (x : BitVec 256) (q : Nat × Nat × Nat) : Nat :=
  sBase x + (q.1 * sStr2 x + q.2.1 * sStr1 x) * fmtBits (sFmt x) / 8 + 4 * q.2.2

/-- Whether a stream repeats over batches, rows and columns: an extent of 1, or a stride of 0 (05 R131). -/
def repeats (x : BitVec 256) (raw : Bool) : Bool × Bool × Bool :=
  let turned := sTrans x && !raw
  let r1 := sExt1 x == 1 || sStr1 x == 0
  (sExt2 x == 1 || sStr2 x == 0, if turned then sExt0 x == 1 else r1, if turned then r1 else sExt0 x == 1)

/-- A stream with EXT0 1 and both strides 0: every lane of every chunk receives its one value (05 R131). -/
def isScalar (x : BitVec 256) : Bool := sExt0 x == 1 && sStr1 x == 0 && sStr2 x == 0

/-- One lane of a chunk: the element, or under RAW the word, at a position of the stream; beyond the extents it is padding. -/
def loadLane (s : State) (x : BitVec 256) (raw : Bool) (q : Nat × Nat × Nat) : Lane × Flags :=
  if !inside (if raw then rawShape x else shapeOf x) q then (padLane, 0)
  else if raw then (⟨BitVec.ofNat 32 (rdNat s (rawAddr x q) 4 % 2 ^ rawBits x q.2.2), true⟩, 0)
  else let v := value32 s x q.1 q.2.1 q.2.2; (⟨v.1, true⟩, v.2)

/-- Chunk `n` of an input stream in a task of shape `t`: an extent of 1 or a stride of 0 repeats (05 R131); `widen` 1 BLOCK,
2 COLUMN (05 R132). RAW takes the stored bytes in their stored order (log 121). -/
def loadChunk (s : State) (geom : Nat) (product : Bool) (t : Shape) (x : BitVec 256) (widen : Nat) (raw : Bool) (n : Nat) :
    List Lane × Flags :=
  let own := if raw then rawShape x else shapeOf x
  let rep := repeats x raw
  let p : Shape := ⟨if rep.1 then t.b else own.b, if rep.2.1 || widen == 2 then t.r else own.r,
    if rep.2.2 || widen == 1 then t.c else own.c⟩
  let rs := lanes1024.map (fun l =>
    let q := lanePos geom product p n l
    if isScalar x then loadLane s x raw (0, 0, 0)
    else if !inside p q then (padLane, (0 : Flags))
    else loadLane s x raw (if rep.1 then 0 else q.1, if rep.2.1 then 0 else if widen == 2 then q.2.1 / 32 else q.2.1,
      if rep.2.2 then 0 else if widen == 1 then q.2.2 / 32 else q.2.2))
  (rs.map (·.1), flagsOr (rs.map (·.2)))

/-! ### Writing a chunk (05 R129, R150, 03 R66) -/

/-- Runs of elements at consecutive places: first bit, and the patterns. -/
def runsOf (w : Nat) : List (Nat × Nat) → List (Nat × List Nat)
  | [] => []
  | (i, v) :: t => match runsOf w t with
    | (j, vs) :: rs => if j == i + w then (i, v :: vs) :: rs else (i, [v]) :: (j, vs) :: rs
    | [] => [(i, [v])]

def packPats (w : Nat) : List Nat → Nat
  | [] => 0
  | v :: vs => v % 2 ^ w + 2 ^ w * packPats w vs

/-- Write patterns of `w` bits at bit `i` of a base address, keeping the neighbours' bits in the first and last byte. -/
def wrBits (base w : Nat) (run : Nat × List Nat) (s : State) : State :=
  let i := run.1
  let len := w * run.2.length
  let a := base + i / 8
  let n := (i % 8 + len + 7) / 8
  let old := rdNat s a n
  let lo := old % 2 ^ (i % 8)
  let hi := old / 2 ^ (i % 8 + len)
  engineWrite a (bytesLE n (lo + 2 ^ (i % 8) * packPats w run.2 + 2 ^ (i % 8 + len) * hi)) s

/-- Write elements given as (stored element number, pattern). -/
def wrElems (x : BitVec 256) (es : List (Nat × Nat)) (s : State) : State :=
  let w := fmtBits (sFmt x)
  forEach (runsOf w (es.map (fun e => (e.1 * w, e.2)))) (wrBits (sBase x) w) s

/-- Where a task's output lies in its tensor: first row and column, and the tensor's rows and columns (03 R84; log 122). -/
structure Origin where
  row : Nat
  col : Nat
  rows : Nat
  cols : Nat
  deriving DecidableEq, Repr

/-- What a task's conversions use: tensor, seed, step (03 R82, R84, 05 R151), and the origin of what is written. -/
structure Draw where
  tensor : W32
  seed : W32
  step : W64
  at_ : Origin
  deriving DecidableEq, Repr

/-- Row-major element index in the tensor's logical shape, of a position in the piece written (03 R84). -/
def elemIndex (o : Origin) (q : Nat × Nat × Nat) : Nat := (q.1 * o.rows + o.row + q.2.1) * o.cols + o.col + q.2.2

def rndAt (nc : Nat) (d : Draw) (i : Nat) : Rnd :=
  if ncRnd nc == 1 then .sr (randomOf d.tensor d.seed d.step i) else rndOf (ncRnd nc) 0

/-- FP32 with a NaN in its canonical pattern (03 R59). -/
def canon32 (v : W32) : W32 := match of32 v with | .nan => nan32 | _ => v

/-- Convert a value into a stream's format: FP32 keeps its value, forerunner FP8 divides by its TSCALE (18 R490). -/
def convertTo (fmt nc : Nat) (tscale : W32) (r : Rnd) (v : W32) : Narrow :=
  if fmt == 0 then { pat := (canon32 v).toNat, flags := readFlags (of32 v) }
  else if fmt == 0xA then
    match of32 v, of32 tscale with
    | .fin neg m e, .fin tn n f =>
      if n == 0 then narrow fmt (ncNonfin nc) r (if m == 0 then .nan else .inf (neg != tn))
      else match fmtOf fmt with
        | some g => narrowQ g (ncNonfin nc) r (neg != tn) m n (e - f)
        | none => { pat := 0, flags := 0 }
    | y, _ => narrow fmt (ncNonfin nc) r y
  else narrow fmt (ncNonfin nc) r (of32 v)

/-- Write chunk `n` of an unscaled output from lanes; flags of the conversions. An invalid lane inside the extents is
written as +0.0 (05 R129). -/
def storeChunk (geom : Nat) (product : Bool) (x : BitVec 256) (nc : Nat) (tscale : W32) (d : Draw) (n : Nat)
    (ls : List Lane) (s : State) : State × Flags :=
  let p := shapeOf x
  if outChunks geom p ≤ n then (s, 0)
  else
    let es := ls.zipIdx.filterMap (fun (v, l) =>
      let q := outPos geom product p n l
      if inside p q then
        let r := convertTo (sFmt x) nc tscale (rndAt nc d (elemIndex d.at_ q)) v.val
        some (storedAt x q.1 q.2.1 q.2.2, if v.valid then r.pat else 0, if v.valid then r.flags else 0)
      else none)
    (wrElems x (es.map (fun e => (e.1, e.2.1))) s, flagsOr (es.map (·.2.2)))

/-- RAW: the register's lanes are written unchanged as packed bytes, no bit beyond EXT0. -/
def storeRaw (geom : Nat) (product : Bool) (x : BitVec 256) (n : Nat) (ls : List Lane) (s : State) : State :=
  let p := rawShape x
  if outChunks geom p ≤ n then s
  else
    let es := ls.zipIdx.filterMap (fun (v, l) =>
      let q := outPos geom product p n l
      if inside p q then some (8 * rawAddr x q, rawBits x q.2.2, if v.valid then v.val.toNat else 0) else none)
    let whole := (es.filter (fun e => e.2.1 == 32)).map (fun e => (e.1, e.2.2))
    forEach (es.filter (fun e => e.2.1 != 32)) (fun e => wrBits 0 e.2.1 (e.1, [e.2.2])) (forEach (runsOf 32 whole) (wrBits 0 32) s)

/-- Padding of the last block that an element closes: the places beyond the extent of the scaled dimension, to a multiple
of 32 (03 R66). -/
def padAfter (axis : Nat) (p : Shape) (q : Nat × Nat × Nat) : List (Nat × Nat × Nat) :=
  if axis == 0 then
    if q.2.2 + 1 == p.c then (List.range (cdiv p.c 32 * 32 - p.c)).map (fun i => (q.1, q.2.1, p.c + i)) else []
  else if q.2.1 + 1 == p.r then (List.range (cdiv p.r 32 * 32 - p.r)).map (fun i => (q.1, p.r + i, q.2.2)) else []

/-- Scale bytes of a chunk: place, whether the chunk holds the block's first element, whether QNT marked it 0xFF, exponent.
The first lane of a block gives its exponent. -/
def mergeScales (l : List (Nat × Bool × Bool × W32)) : Table (Bool × Bool × W32) :=
  l.foldl (fun t e => match tfind? t e.1 with
    | some o => tset t e.1 (o.1 || e.2.1, o.2.1 || e.2.2.1, o.2.2)
    | none => tset t e.1 e.2) []

/-- Write the scale bytes of a chunk, E_b = X + 127 (05 R150); a block marked 0xFF in an earlier chunk keeps it. A stream that
names no scale array keeps none (DESIGN CHOICE, log 138). -/
def putScales (x : BitVec 256) (l : Table (Bool × Bool × W32)) (s : State) : State :=
  forEach (if sScaled x then l else []) (fun e s =>
    let a := headerAt x + 16 + e.1
    let bad := e.2.2.1 || (!e.2.1 && rdNat s a 1 == 0xFF)
    engineWrite a [if bad then 0xFF else BitVec.ofNat 8 ((e.2.2.2 + 127).toNat)] s) s

/-- The element is the first of its block. -/
def opensBlock (axis : Nat) (q : Nat × Nat × Nat) : Bool := if axis == 0 then q.2.2 % 32 == 0 else q.2.1 % 32 == 0

/-- Write chunk `n` of a block-scaled output: element codes of `ls`, exponents of `xs`, the padding of the blocks as +0.
A lane marked 0x100 by QNT gives its block the scale 0xFF (03 Table 3-4; log 26). -/
def storeBlocks (geom : Nat) (product : Bool) (x : BitVec 256) (axis n : Nat) (ls xs : List Lane) (s : State) : State :=
  let p := shapeOf x
  if outChunks geom p ≤ n then s
  else
    let cells := ((ls.zip xs).zipIdx.map (fun (v, l) => (outPos geom product p n l, v.1, v.2))).filter (fun e => inside p e.1)
    let es := cells.flatMap (fun (q, v, _) =>
      (storedAt x q.1 q.2.1 q.2.2, if v.valid then v.val.toNat else 0) ::
        (padAfter axis p q).map (fun z => (storedAt x z.1 z.2.1 z.2.2, 0)))
    putScales x (mergeScales (cells.map (fun (q, v, e) =>
      (scaleIndex axis x q.1 q.2.1 q.2.2, opensBlock axis q, v.valid && v.val.getLsbD 8, e.val)))) (wrElems x es s)

/-- Write chunk `n` of a block-scaled output under RAW: the packed words as they stand, and the scale byte of each block from
the lane of the word that holds its first element (log 123). -/
def storeRawBlocks (geom : Nat) (product : Bool) (x : BitVec 256) (axis n : Nat) (ls xs : List Lane) (s : State) : State :=
  let p := rawShape x
  let w := fmtBits (sFmt x)
  let cells := (xs.zipIdx.map (fun (e, l) => (outPos geom product p n l, e))).filter (fun e => inside p e.1)
  let sc := if outChunks geom p ≤ n then [] else cells.flatMap (fun (q, e) =>
    ((List.range 32).map (fun i => (q.1, q.2.1, (32 * q.2.2 + w - 1) / w + i))).filterMap (fun z =>
      if inside (shapeOf x) z && z.2.2 * w < 32 * q.2.2 + 32 then
        some (scaleIndex axis x z.1 z.2.1 z.2.2, opensBlock axis z, false, e.val) else none))
  putScales x (mergeScales sc) (storeRaw geom product x n ls s)

/-- The scale array header (03 Table 3-5). -/
def scaleHeader (numst axis rule fmt tensor : Nat) (tamax tscale : W32) : BitVec 128 :=
  mkRec 128 [(108, 4, numst), (104, 1, axis), (103, 1, rule), (96, 4, fmt), (64, 32, tensor), (32, 32, tamax.toNat),
    (0, 32, tscale.toNat)]

/-! ### Products (03 R73 to R76, 04 R95 to R101) -/

def isWide16 (code : Nat) : Bool := code == 1 || code == 2

def negNum (x : Num) : Bool := match x with | .fin n _ _ => n | .inf n => n | .nan => false

/-- Sum of values, exact; infinities and NaN as IEEE 754 addition gives. The sign of a zero sum is free: 03 R73 states none
(log 115). -/
def sumN (l : List Num) : Num :=
  let r := match l with
    | [] => .fin false 0 0
    | x :: xs => xs.foldl addN x
  if isZero r then .fin (Config.zeroGroupNeg (l.map negNum)) 0 0 else r

/-- floor(log2) of a value's magnitude, none for zero. -/
def magExp (x : Num) : Option Int := match x with
  | .fin _ m e => if m == 0 then none else some ((Nat.log2 m : Int) + e)
  | _ => none

/-- A magnitude cut toward zero at the place 2^u, in units of 2^u. -/
def truncAt (x : Num) (u : Int) : Int := match x with
  | .fin neg m e => signedInt neg (if 0 ≤ e - u then m * 2 ^ (e - u).toNat else m / 2 ^ (u - e).toNat)
  | _ => 0

/-- A group's products through the 48-bit fixed-point adder (03 R74). -/
def adder48 (ps : List Num) : Num :=
  if ps.all isFin then
    match ps.filterMap magExp with
    | [] => .fin false 0 0
    | x :: xs =>
      let u := xs.foldl max x - 40
      let t := (ps.map (fun p => truncAt p u)).foldl (· + ·) 0
      if t == 0 then .fin false 0 0 else .fin (decide (t < 0)) t.natAbs u
  else sumN ps

/-- hi = RNE_BF16(v), lo = RNE_BF16(v - hi) (03 R76). -/
def toBfN (x : Num) : Num := of32 (toBf16 (to32 x)).1
def hiOf (x : Num) : Num := toBfN x
def loOf (x : Num) : Num := toBfN (addN x (negN (hiOf x)))

/-- Add a group's value to the accumulator with one rounding to nearest even. -/
def accAdd (a : W32 × Flags) (g : Num) : W32 × Flags :=
  let x := of32 a.1
  let r := arith [x, g] (to32 (addN x g))
  (r.1, a.2 ||| r.2)

/-- Flags of the operands that a group reads (03 R86). -/
def groupFlags (xs : List ((Num × Nat) × (Num × Nat))) : Flags := flagsOr (xs.map (fun v => readFlags v.1.1 ||| readFlags v.2.1))

/-- Flags of the split of FP32 operands: a half that is an infinity or a NaN was produced by a conversion (03 R76, R86;
DEDUCED, log 115). -/
def halfFlags (x : Num) : Flags := readFlags (hiOf x) ||| readFlags (loOf x)
def splitFlags (xs : List ((Num × Nat) × (Num × Nat))) : Flags := flagsOr (xs.map (fun v => halfFlags v.1.1 ||| halfFlags v.2.1))

/-- One group of 32 elements of both operands, added to the accumulator. -/
def groupStep (fa fw : Nat) (xs : List ((Num × Nat) × (Num × Nat))) (a : W32 × Flags) : W32 × Flags :=
  let a := (a.1, a.2 ||| groupFlags xs)
  if fa == 0 && fw == 0 then
    let a := (a.1, a.2 ||| splitFlags xs)
    let p (f g : Num → Num) := adder48 (xs.map (fun v => mulN (f v.1.1) (g v.2.1)))
    accAdd (accAdd (accAdd a (p hiOf hiOf)) (p hiOf loOf)) (p loOf hiOf)
  else if isWide16 fa && isWide16 fw then accAdd a (adder48 (xs.map (fun v => mulN v.1.1 v.2.1)))
  else
    let e : Int := match xs with | v :: _ => scaleExp v.1.2 + scaleExp v.2.2 | [] => 0
    let sum := sumN (xs.map (fun v => mulN v.1.1 v.2.1))
    accAdd a (mulN sum (.fin false 1 e))

/-- Elements of K in a weight tile, in groups of 32 (04 Table 4-2): with FP32, whose tile has 128 slots of a third of an
element, the tiles' slots in groups. Groups beyond K are padded with zero products (04 R97). -/
def groupsOfK (fmt k : Nat) : Nat :=
  if fmt == 0 then cdiv (cdiv (3 * k) 128 * 128) 96
  else if isWide16 fmt then cdiv k 128 * 4
  else if fmt == 7 then cdiv k 512 * 16
  else cdiv k 256 * 8

/-- The accumulator of output element (b, m, n) over the whole K, from its start value; beyond K the weights and activations
are zero (04 R97). -/
def accumulate (s : State) (d : BitVec 2048) (start : W32) (b m n : Nat) : W32 × Flags :=
  let xa := dStream d 0
  let xw := dStream d 1
  let bw := if sExt2 xw == 1 then 0 else b
  let zero : Num × Nat := (.fin false 0 0, 127)
  (List.range (groupsOfK (sFmt xa) (dK d))).foldl (fun a g =>
    groupStep (sFmt xa) (sFmt xw)
      ((List.range 32).map (fun i =>
        if 32 * g + i < dK d then (elemAt s xa b m (32 * g + i), elemAt s xw bw n (32 * g + i)) else (zero, zero))) a) (start, 0)

/-- Start value of an accumulator (04 R99, R100). -/
def accStart (s : State) (d : BitVec 2048) (held : List W32) (b m n : Nat) : W32 :=
  match dAccInit d with
  | 1 => BitVec.ofNat 32 (patAt s (dStream d 2) b m n)
  | 2 => held.getD (m * dN d + n) 0
  | _ => 0

/-- The raw accumulator of an output element. -/
def productAcc (s : State) (d : BitVec 2048) (held : List W32) (b m n : Nat) : W32 × Flags :=
  accumulate s d (accStart s d held b m n) b m n

/-- The combined scale of R75, 1.0 for a product without scale arrays. -/
def combinedScale (s : State) (d : BitVec 2048) : Option (W32 × Flags) :=
  let xa := dStream d 0
  let xw := dStream d 1
  if sScaled xa || sScaled xw then some (fmul (tscaleOf s xa) (tscaleOf s xw)) else none

/-- An output element as Q2 delivers it (05 R149). -/
def productValue (s : State) (d : BitVec 2048) (held : List W32) (b m n : Nat) : W32 × Flags :=
  let a := productAcc s d held b m n
  match combinedScale s d with
  | some c => let r := fmul a.1 c.1; (r.1, a.2 ||| c.2 ||| r.2)
  | none => a

/-- Units of a product: 1,024 rows by 128 columns within each batch (04 R98). -/
def unitsOf (d : BitVec 2048) : Nat := sExt2 (dStream d 0) * cdiv (dM d) 1024 * cdiv (dN d) 128

/-- The unit of a product that entry `n` drains; units alternate banks, row blocks outer, column tiles inner (04 R98). -/
def unitOfEntry (p : Shape) (n : Nat) : Nat :=
  let t := max 1 (cdiv p.c 128)
  let per := t * max 1 (cdiv p.r 8)
  let m := n % per
  let rb := m / (t * 128)
  let e := max 1 (cdiv (min 1024 (p.r - 1024 * rb)) 8)
  n / per * (t * max 1 (cdiv p.r 1024)) + rb * t + (m - rb * t * 128) / e

/-- What the array accumulates for unit `u`, row-major over the unit's rows and columns. -/
def unitBank (s : State) (d : BitVec 2048) (held : List W32) (u : Nat) : List W32 :=
  let p := taskShape d
  let t := max 1 (cdiv p.c 128)
  let rbs := max 1 (cdiv p.r 1024)
  let b := u / (t * rbs)
  let r0 := u % (t * rbs) / t * 1024
  let c0 := u % t * 128
  (List.range (min 1024 (p.r - r0))).flatMap (fun r => (List.range (min 128 (p.c - c0))).map (fun c =>
    (productAcc s d held b (r0 + r) (c0 + c)).1))

/-- The accumulator bank that an ACC_HOLD task leaves, row-major (04 R100). -/
def heldBank (s : State) (d : BitVec 2048) (held : List W32) : List W32 :=
  (List.range (dM d)).flatMap (fun m => (List.range (dN d)).map (fun n => (productAcc s d held 0 m n).1))

/-- Entries of Q2 that a task produces: a holding task does not drain its one unit (04 R100). -/
def entriesOf (d : BitVec 2048) (geom : Nat) : Nat := if dAccHold d then 0 else chunksIn geom (taskShape d)

/-- Row groups whose last entry is among the first `n` entries: rows under ROW, units of a product, bands otherwise (05 R136). -/
def groupsEnded (geom : Nat) (product : Bool) (p : Shape) (n : Nat) : Nat :=
  if product then unitOfEntry p n
  else match geom with
    | 0 => n / max 1 (cdiv p.c 1024)
    | 2 => n / (max 1 (cdiv p.c 128) * 4)
    | _ => n / max 1 (cdiv p.c 128)

/-- Entry `n` of Q2 (04 R91, 05 R129). -/
def entryOf (s : State) (d : BitVec 2048) (held : List W32) (geom n : Nat) : List Lane × Flags :=
  if dKind d == 0 then
    let p := taskShape d
    let rs := lanes1024.map (fun l =>
      let q := lanePos 1 true p n l
      if inside p q then let (v, f) := productValue s d held q.1 q.2.1 q.2.2; ((⟨v, true⟩ : Lane), f) else (padLane, (0 : Flags)))
    (rs.map (·.1), flagsOr (rs.map (·.2)))
  else loadChunk s geom false (taskShape d) (dStream d 0) 0 false n

/-! ### Amax record (04 R103) -/

def magOf (w : W32) : W32 := w &&& 0x7FFFFFFF
/-- The larger of two magnitudes; a value that is not finite counts as +0.0. -/
def amaxStep (a w : W32) : W32 := if (magOf w).toNat < 0x7F800000 && a.toNat < (magOf w).toNat then magOf w else a
def amaxOf (l : List W32) : W32 := l.foldl amaxStep 0

/-- Number of an element's block along the last dimension, and from 2^48 up along the other, in row order (04 R103). -/
def amaxBlocks (p : Shape) (q : Nat × Nat × Nat) : Nat × Nat :=
  ((q.1 * p.r + q.2.1) * cdiv p.c 32 + q.2.2 / 32, 2 ^ 48 + (q.1 * p.c + q.2.2) * cdiv p.r 32 + q.2.1 / 32)

/-- The amax unit sees the values of stream O as they are written (04 R103). -/
def noteAmax (x : BitVec 256) (vs : List ((Nat × Nat × Nat) × W32)) (r : TaskRun) : TaskRun :=
  vs.foldl (fun r v =>
    let k := amaxBlocks (shapeOf x) v.1
    { r with
      amax := amaxStep r.amax v.2
      blockAmax := tmod (tmod r.blockAmax k.1 0 (fun a => amaxStep a v.2)) k.2 0 (fun a => amaxStep a v.2) }) r

/-- Blocks of the amax record along each axis that AMAX_AXES names. -/
def amaxCounts (x : BitVec 256) (axes : Nat) : Nat × Nat :=
  let p := shapeOf x
  if !sUsed x then (0, 0)
  else (if axes % 2 == 1 then p.b * p.r * cdiv p.c 32 else 0, if axes / 2 % 2 == 1 then p.b * p.c * cdiv p.r 32 else 0)

def amaxLen (x : BitVec 256) (axes : Nat) : Nat := 16 + 4 * ((amaxCounts x axes).1 + (amaxCounts x axes).2)

/-- The record of a task: head, then the block amaxes of its output tile; +0.0 for a block with no value written. -/
def amaxRecord (r : TaskRun) : List Byte :=
  let n := amaxCounts (dStream r.desc 3) (dAmaxAxes r.desc)
  let word (k : Nat) : List Byte := bytesLE 4 (tget r.blockAmax k 0).toNat
  bytesLE 4 r.amax.toNat ++ bytesLE 4 0 ++ bytesLE 4 n.1 ++ bytesLE 4 n.2 ++
    (List.range n.1).flatMap word ++ (List.range n.2).flatMap (fun k => word (2 ^ 48 + k))

end Sys2Proof.Machine
end

