-- ==== Sys2Proof/Machine/Vector.lean ====
section
/-! DEFINITION. The vector engine: one meaning per operation of Table 5-5, on the registers of the core's running task
(05 R125 to R151, 03 R69 to R71, R82, R86). -/

namespace Sys2Proof.Machine

/-! ### The task and its registers -/

/-- The task that a core runs and whose program the engine issues: fetched and checked, not ended, with a program (05 R138). -/
def vectorTask (s : State) (c : Nat) : Option TaskRun :=
  match (coreAt s c).running with
  | some r =>
    if r.checked && r.ended.isNone && dProgLen r.desc != 0 && towerOn s (towerOf c) && domainRuns s (coreDie c) then some r
    else none
  | none => none

def zeroReg : List Lane := List.replicate 1024 ⟨0, true⟩
def vreg (s : State) (c r : Nat) : List Lane := tget (coreAt s c).vregs r zeroReg

def isProduct (r : TaskRun) : Bool := dKind r.desc == 0

/-- The chunk that a register's lanes stand for: that of the entry last taken where none is recorded. -/
def tagOf (s : State) (c reg : Nat) (r : TaskRun) : Nat := tget (coreAt s c).vtags reg (r.taken - 1)

def setTask_ (c : Nat) (f : TaskRun → TaskRun) (s : State) : State :=
  setCore c (fun k => { k with running := k.running.map f }) s

def addFlags (c : Nat) (f : Flags) (s : State) : State := setTask_ c (fun r => { r with flags := r.flags ||| f }) s

def putReg (c d tag : Nat) (ls : List Lane) (s : State) : State :=
  setCore c (fun k => { k with vregs := tset k.vregs d ls, vtags := tset k.vtags d tag }) s

/-- A stream with its address steered to the slot of the version it names (07 R200). -/
def steerStream (s : State) (x : BitVec 256) : BitVec 256 :=
  if sUsed x && sRoom x != 0xFFFF then
    match roomAt s (sRoom x) with
    | some r => putFld x 208 48 (steer r (sVer x) (sBase x))
    | none => x
  else x

/-- An auxiliary stream of the task (05 R131, Table 5-2); stream 0 is steered with the descriptor. -/
def auxAt (s : State) (d : BitVec 2048) (k : Nat) : Option (BitVec 256) :=
  if dNaux d ≤ k then none
  else
    let x := if k == 0 then dAux0 d else steerStream s (BitVec.ofNat 256 (rdNat s (dAuxAddr d + 32 * (k - 1)) 32))
    if sUsed x then some x else none

def auxIn (s : State) (d : BitVec 2048) (k : Nat) : Option (BitVec 256) := if dAuxOut d k then none else auxAt s d k
def auxOut (s : State) (d : BitVec 2048) (k : Nat) : Option (BitVec 256) := if dAuxOut d k then auxAt s d k else none

def seedOf (s : State) (r : TaskRun) : W32 := ((planOf s r.handle).map (·.seed)).getD 0

/-- The streams that a task writes: O, and the auxiliary outputs. -/
def writtenBy (t : PlanTask) : List (BitVec 256) :=
  (if sUsed (dStream t.desc 3) then [dStream t.desc 3] else []) ++
    (auxOf t).zipIdx.filterMap (fun e => if dAuxOut t.desc e.2 && sUsed e.1 then some e.1 else none)

/-- Two streams are pieces of one stored tensor: same room and version slot, format and strides; in a pond, the same slice. -/
def samePiece (x y : BitVec 256) : Bool :=
  sRoom x == sRoom y && sVer x == sVer y && sFmt x == sFmt y && sStr1 x == sStr1 y && sStr2 x == sStr2 y && sStr1 x != 0 &&
    (sRoom x != 0xFFFF || regionOf (sBase x) != .pond || sliceOf (sBase x) == sliceOf (sBase y))

/-- Where the stream that a task writes lies in its tensor: among the plan's outputs under one OUT_TENSOR_ID that are pieces
of one stored tensor, counted from the lowest; a stream of no plan is the whole tensor (03 R84; log 122). -/
def originOf (s : State) (r : TaskRun) (x : BitVec 256) : Origin :=
  let whole : Origin := ⟨0, 0, logRows x, logCols x⟩
  match planOf s r.handle with
  | none => whole
  | some p =>
    match planTask p (dTask r.desc) with
    | none => whole
    | some t =>
      match (writtenBy t).find? (fun y => bits y 0 208 == bits x 0 208) with
      | none => whole
      | some y =>
        let ps := ((p.tasks.filter (fun u => dOutTensor u.desc == dOutTensor r.desc)).flatMap writtenBy).filter (samePiece y)
        let lo := ps.foldl (fun a z => min a (sBase z)) (sBase y)
        let off (z : BitVec 256) : Nat := (sBase z - lo) * 8 / fmtBits (sFmt y)
        let row (z : BitVec 256) : Nat := off z / max 1 (sStr1 y)
        let col (z : BitVec 256) : Nat := off z % max 1 (sStr1 y)
        ⟨row y, col y, ps.foldl (fun a z => max a (row z + sExt1 z)) (sExt1 y), ps.foldl (fun a z => max a (col z + sExt0 z)) (sExt0 y)⟩

def drawOf (s : State) (r : TaskRun) (x : BitVec 256) : Draw :=
  ⟨BitVec.ofNat 32 (dOutTensor r.desc), seedOf s r, BitVec.ofNat 64 (dStep r.desc), originOf s r x⟩

/-- The output under whose index CVT and PACK draw: stream O, or the task's shape where it has none. -/
def drawOfTask (s : State) (r : TaskRun) : Draw :=
  let o := dStream r.desc 3
  if sUsed o then drawOf s r o
  else
    let p := taskShape r.desc
    ⟨BitVec.ofNat 32 (dOutTensor r.desc), seedOf s r, BitVec.ofNat 64 (dStep r.desc), ⟨0, 0, p.r, p.c⟩⟩

/-- The history record of the tensor that a forerunner task writes: its number and address (18 R489). -/
def historyOf (s : State) (r : TaskRun) : Option (Nat × Nat) :=
  match planOf s r.handle with
  | none => none
  | some p => (p.histories.zipIdx).findSome? (fun (h, i) => match histLoc s h with
    | some a => if rdNat s (a + 60) 4 == dOutTensor r.desc then some (i, a) else none
    | none => none)

/-- TSCALE under which the task converts into code 0xA; 1.0 without a record (18 R490). -/
def outScale (s : State) (r : TaskRun) (fmt : Nat) : W32 :=
  if fmt != 0xA then one32
  else match historyOf s r with
    | some h => BitVec.ofNat 32 (rdNat s (h.2 + 56) 4)
    | none => one32

/-- A conversion into code 0xA records the largest finite magnitude of its wide input (18 R491). -/
def noteHistory (r : TaskRun) (fmt : Nat) (ls : List W32) (s : State) : State :=
  if fmt != 0xA then s
  else match historyOf s r with
    | some h => { s with cap := { s.cap with frAmax := tmod s.cap.frAmax h.1 0 (fun a => ls.foldl amaxStep a) } }
    | none => s

/-! ### Instruction words -/

/-- Bits of CTL outside a mask are 0, and TYPE is not reserved (05 R139). -/
def ctlIn (w : VWord) (mask : W16) : Bool := (w.ctl &&& ~~~mask) == 0 && w.type != 3
def ctlNat (w : VWord) (lo n : Nat) : Nat := fld w.ctl lo n
/-- The register count n of CTL[3:0] (05 R140). -/
def nOf (w : VWord) : Nat := ctlNat w 0 4 + 1
def ra (w : VWord) : Nat := w.sa.toNat
def rb (w : VWord) : Nat := w.sb.toNat
def rc (w : VWord) : Nat := w.sc.toNat
def rdst (w : VWord) : Nat := w.d.toNat

/-! ### The program (05 R135 to R138) -/

def hPre (h : BitVec 128) : Nat := fld h 118 10
def hBody (h : BitVec 128) : Nat := fld h 108 10
def hRow (h : BitVec 128) : Nat := fld h 98 10
def hFin (h : BitVec 128) : Nat := fld h 88 10
def hPerRun (h : BitVec 128) : Nat := fld h 85 3
def hGeom (h : BitVec 128) : Nat := fld h 83 2

/-- Where FIN begins, or the program's end. -/
def toFin (r : TaskRun) (p : ProgPos) : ProgPos := { p with sec := if hFin r.head == 0 then 4 else 3, off := 0 }

/-- The next body run while entries remain, else FIN. -/
def toBody (r : TaskRun) (p : ProgPos) : ProgPos :=
  if p.runs * max 1 (hPerRun r.head) < entriesOf r.desc r.geom.toNat then { p with sec := 1, off := 0 } else toFin r p

/-- Row groups that have ended with the body runs done. -/
def groupsDue (r : TaskRun) (runs : Nat) : Nat :=
  groupsEnded r.geom.toNat (isProduct r) (taskShape r.desc)
    (min (runs * max 1 (hPerRun r.head)) (entriesOf r.desc r.geom.toNat))

/-- After a body run or a run of ROW: ROW for the next row group that has ended, or the next body run (05 R136, R137). -/
def toRow (r : TaskRun) (p : ProgPos) : ProgPos :=
  if p.groups < groupsDue r p.runs then
    if hRow r.head == 0 then toBody r { p with groups := groupsDue r p.runs } else { p with sec := 2, off := 0 }
  else toBody r p

/-- Where a program begins. -/
def startPos (r : TaskRun) : ProgPos := if hPre r.head == 0 then toBody r ⟨1, 0, 0, 0⟩ else ⟨0, 0, 0, 0⟩

/-- The place after the instruction at the present one. -/
def nextPos (r : TaskRun) : ProgPos :=
  let p := r.place
  let n := { p with off := p.off + 1 }
  match p.sec with
  | 0 => if n.off < hPre r.head then n else toBody r n
  | 1 => if n.off < hBody r.head then n else toRow r { n with runs := p.runs + 1 }
  | 2 => if n.off < hRow r.head then n else toRow r { n with groups := p.groups + 1 }
  | 3 => if n.off < hFin r.head then n else { n with sec := 4 }
  | _ => p

def stepPast (r : TaskRun) : TaskRun := { r with place := nextPos r }

/-- Every section has run. -/
def programEnded (r : TaskRun) : Bool := r.place.sec == 4

/-- The word that the engine issues next. -/
def expects (r : TaskRun) : Option W64 :=
  let h := r.head
  match r.place.sec with
  | 0 => r.prog[r.place.off]?
  | 1 => r.prog[hPre h + r.place.off]?
  | 2 => r.prog[hPre h + hBody h + r.place.off]?
  | 3 => r.prog[hPre h + hBody h + hRow h + r.place.off]?
  | _ => none

/-- The scalar that the task's next word names as a source, a 0, b 1, c 2: a slot S0 to S3 of a forerunner task (18 R488). -/
def slotNamed (s : State) (r : TaskRun) (i : Nat) : Option W32 :=
  match planOf s r.handle with
  | none => none
  | some p =>
    if !p.forerunner then none
    else match expects r, planTask p (dTask r.desc) with
      | some x, some t => (Config.slotSource x i).map (fun k => t.scalars.getD k.val 0)
      | _, _ => none

/-- A source of the task's next word: a register, or a scalar slot read in every lane. -/
def source (s : State) (c : Nat) (r : TaskRun) (i reg : Nat) : List Lane :=
  match slotNamed s r i with
  | some v => List.replicate 1024 ⟨v, true⟩
  | none => vreg s c reg

/-- An instruction word (05 Table 5-4). -/
def opWord (op : Nat) (w : VWord) : W64 :=
  mkRec 64 [(56, 8, op), (54, 2, w.type.toNat), (49, 5, w.d.toNat), (44, 5, w.sa.toNat), (39, 5, w.sb.toNat), (34, 5, w.sc.toNat),
    (31, 3, w.aux.toNat), (0, 16, w.ctl.toNat)]

/-- The task that issues the word next on a core. -/
def issuing (s : State) (c op : Nat) (w : VWord) : Option TaskRun :=
  match vectorTask s c with
  | some r => if expects r == some (opWord op w) then some r else none
  | none => none

/-- Issue the next instruction of the core's task. The engine issues the program's words in their order and no other word;
one that plan load refuses is in no program (05 R136, R138, R156; log 24). -/
def issue (core : Fin 384) (op : Nat) (w : VWord) (legal : Bool) (f : Nat → TaskRun → State → State) (s : State) : State :=
  match issuing s core.val op w with
  | some r => if legal then setTask_ core.val stepPast (f core.val r s) else s
  | none => s

/-! ### Requests on shut crossings (02 R37, R39) -/

def streamShut (s : State) (c : Nat) (x : BitVec 256) : Bool := wayShut s (pathTo c (sBase x))
def streamGated (s : State) (c : Nat) (x : BitVec 256) : Bool := wayGated s (pathTo c (sBase x))

/-- A request that fails at once: the task is to end with XTIMEOUT, and no event is raised. -/
def failAtOnce (c : Nat) (gated : Bool) (s : State) : State :=
  setTask_ c (fun t => if t.ended.isSome then t else { t with ended := some ccXtimeout, causeGated := gated }) s

/-- What an instruction does through its streams, or the failure of its request. -/
def through (c : Nat) (xs : List (BitVec 256)) (f : State → State) (s : State) : State :=
  if xs.any (streamShut s c) then failAtOnce c (xs.any (streamGated s c)) s else f s

/-- Streams that the next entry is made from. -/
def entryStreams (d : BitVec 2048) : List (BitVec 256) := ([0, 1, 2].map (dStream d)).filter sUsed

/-! ### Lane by lane -/

/-- Result and flags of one lane. -/
abbrev Val := W32 × Flags

/-- Flags that the valid lanes raise. -/
def laneFlags (rs : List (Lane × Flags)) : Flags := rs.foldl (fun f r => if r.1.valid then f ||| r.2 else f) 0

def finishOp (c : Nat) (w : VWord) (r : TaskRun) (rs : List (Lane × Flags)) (s : State) : State :=
  addFlags c (laneFlags rs) (putReg c (rdst w) (tagOf s c (ra w) r) (rs.map (·.1)) s)

def map1 (f : W32 → Val) (w : VWord) (c : Nat) (r : TaskRun) (s : State) : State :=
  finishOp c w r ((source s c r 0 (ra w)).map (fun a => let v := f a.val; (⟨v.1, a.valid⟩, v.2))) s

def map2 (f : W32 → W32 → Val) (w : VWord) (c : Nat) (r : TaskRun) (s : State) : State :=
  finishOp c w r (((source s c r 0 (ra w)).zip (source s c r 1 (rb w))).map (fun (a, b) =>
    let v := f a.val b.val; (⟨v.1, a.valid && b.valid⟩, v.2))) s

def map3 (f : W32 → W32 → W32 → Val) (w : VWord) (c : Nat) (r : TaskRun) (s : State) : State :=
  finishOp c w r (((source s c r 0 (ra w)).zip ((source s c r 1 (rb w)).zip (source s c r 2 (rc w)))).map (fun (a, b, d) =>
    let v := f a.val b.val d.val; (⟨v.1, a.valid && b.valid && d.valid⟩, v.2))) s

/-- The result in the word's TYPE: FP32 as it stands, BF16 rounded (05 R141); for INT32 the spec states none (log 23). -/
def typed (w : VWord) (op : Nat) (ops : List W32) (v : Val) : Val :=
  if w.type == 1 then toBf16 v else if w.type == 2 then (Config.vecFree op (w.ctl.setWidth 32 :: ops), 0) else v

/-- The result of an operation that has one for INT32 lanes too (log 23). -/
def typedOr (w : VWord) (int : Val) (v : Val) : Val := if w.type == 1 then toBf16 v else if w.type == 2 then int else v

/-! ### Values of the operations -/

def fmax (a b : W32) : Val :=
  let x := of32 a; let y := of32 b
  let v := match x, y with
    | .nan, _ => nan32
    | _, .nan => nan32
    | _, _ => if ltN x y then b else if isZero x && isZero y then a &&& b else a
  (v, readFlags x ||| readFlags y)

def fmin (a b : W32) : Val :=
  let x := of32 a; let y := of32 b
  let v := match x, y with
    | .nan, _ => nan32
    | _, .nan => nan32
    | _, _ => if ltN y x then b else if isZero x && isZero y then a ||| b else a
  (v, readFlags x ||| readFlags y)

def fabs (a : W32) : Val := match of32 a with
  | .nan => (nan32, fNan)
  | x => (a &&& 0x7FFFFFFF, readFlags x)

/-- MAX, MIN, ABS and CMP of INT32 lanes; the spec states no |a| for the most negative number (05 Table 5-5; log 23). -/
def imax (a b : W32) : Val := (if a.toInt < b.toInt then b else a, 0)
def imin (a b : W32) : Val := (if b.toInt < a.toInt then b else a, 0)
def iabs (a : W32) : Val := (if a == 0x80000000 then Config.vecFree 0x07 [a] else if a.toInt < 0 then -a else a, 0)
def icmp (rel : Nat) (a b : W32) : Val :=
  let t := match rel with
    | 0 => decide (a.toInt < b.toInt)
    | 1 => decide (a.toInt ≤ b.toInt)
    | 2 => a == b
    | _ => a != b
  (if t then one32 else 0, 0)

/-- CMP by CTL[1:0] (05 R142). -/
def fcmp (rel : Nat) (a b : W32) : Val :=
  let x := of32 a; let y := of32 b
  let t := match rel with
    | 0 => ltN x y
    | 1 => ltN x y || eqN x y
    | 2 => eqN x y
    | _ => !eqN x y
  (if t then one32 else 0, readFlags x ||| readFlags y)

/-- A value other than zero; an INT32 lane by its bits. -/
def nonZero (w : VWord) (a : W32) : Bool := if w.type == 2 then a != 0 else !isZero (of32 a)

def shiftOp (mode : Nat) (a b : W32) : Val :=
  if 32 ≤ b.toNat then (Config.vecFree 0x22 [BitVec.ofNat 32 mode, a, b], 0)
  else match mode with
    | 0 => (a <<< b.toNat, 0)
    | 1 => (a >>> b.toNat, 0)
    | _ => (a.sshiftRight b.toNat, 0)

def logicOp (mode : Nat) (a b : W32) : Val :=
  match mode with
  | 0 => (a &&& b, 0)
  | 1 => (a ||| b, 0)
  | 2 => (a ^^^ b, 0)
  | _ => (~~~a, 0)

def intNum (a : W32) : Num := .fin (decide (a.toInt < 0)) a.toInt.natAbs 0

/-- CVT from source type to TYPE (05 Table 5-5, 03 R61, R80); a value beyond INT32 has no stated result (log 23). -/
def cvtOp (src dst nc : Nat) (r : Rnd) (a : W32) : Val :=
  if src == 2 && dst == 2 then (a, 0)
  else
    let x := if src == 2 then intNum a else of32 a
    if dst == 0 then (if src == 2 then to32 x else (match x with | .nan => nan32 | _ => a, readFlags x))
    else if dst == 1 then let n := narrow 1 (ncNonfin nc) r x; (BitVec.ofNat 32 (n.pat * 65536), n.flags ||| readFlags x)
    else
      let free : Val := (Config.vecFree 0x28 [BitVec.ofNat 32 src, a], readFlags x)
      match x with
      | .fin neg m e =>
        let t := roundInt r neg m 1 e
        if t ≤ (if neg then 2 ^ 31 else 2 ^ 31 - 1) then (BitVec.ofInt 32 (signedInt neg t), 0) else free
      | _ => free

/-- TSC: 1.0 for an amax of zero of either sign; a negative or non-finite amax has no stated result (log 23). -/
def tscOp (code : Nat) (a : W32) : Val :=
  match of32 a with
  | .fin true (m + 1) e => (Config.vecFree 0x29 [BitVec.ofNat 32 code, a], readFlags (.fin true (m + 1) e))
  | .fin _ m e =>
    let t := tensorScale code (to32 (.fin false m e)).1
    (t, if isFin (of32 t) then 0 else fOvf ||| fInf)
  | x => (Config.vecFree 0x29 [BitVec.ofNat 32 code, a], readFlags x)

/-- X of a block, and whether it was clamped (03 R70). -/
def expbOp (code : Nat) (rule : Bool) (a t : W32) : Val × Bool :=
  match of32 a, of32 t with
  | .fin false 0 _, _ => ((0, 0), false)
  | .fin true 0 _, _ => ((0, 0), false)
  | .fin false _ _, .fin false (_ + 1) _ => let x := blockExp code rule a t; ((BitVec.ofInt 32 x.1, 0), x.2)
  | x, y => ((Config.vecFree 0x2A [BitVec.ofNat 32 code, a, t], readFlags x ||| readFlags y), false)

/-- The element code of R71; an exponent that R70 never gives has no stated result. -/
def qntOp (code nc : Nat) (r : Rnd) (x X t : W32) : Val :=
  if X.toInt < -127 || 127 < X.toInt then (Config.vecFree 0x2B [BitVec.ofNat 32 code, x, X, t], 0)
  else
    let n := quant code (ncNonfin nc) r x t X.toInt
    (BitVec.ofNat 32 (n.pat + if n.blockNan then 0x100 else 0), n.flags ||| readFlags (of32 x) ||| readFlags (of32 t))

/-- The value of R64; the exponent 128 is that of the scale byte 0xFF. -/
def dqntOp (code : Nat) (a X t : W32) : Val :=
  if X == 128 then (nan32, fNan)
  else if X.toInt < -127 || 127 < X.toInt then (Config.vecFree 0x2C [BitVec.ofNat 32 code, a, X, t], 0)
  else dequant code (a.toNat % 2 ^ fmtBits code) X.toInt t

/-! ### Arithmetic and comparison (05 R141, R142) -/

def execVecNop (core : Fin 384) (w : VWord) (s : State) : Host.Outcome State Fault Refusal :=
  .next (issue core 0x00 w (ctlIn w 0) (fun _ _ s => s) s)

def execVecAdd (core : Fin 384) (w : VWord) (s : State) : Host.Outcome State Fault Refusal :=
  .next (issue core 0x01 w (ctlIn w 0) (map2 (fun a b => typed w 0x01 [a, b] (fadd a b)) w) s)

def execVecSub (core : Fin 384) (w : VWord) (s : State) : Host.Outcome State Fault Refusal :=
  .next (issue core 0x02 w (ctlIn w 0) (map2 (fun a b => typed w 0x02 [a, b] (fsub a b)) w) s)

def execVecMul (core : Fin 384) (w : VWord) (s : State) : Host.Outcome State Fault Refusal :=
  .next (issue core 0x03 w (ctlIn w 0) (map2 (fun a b => typed w 0x03 [a, b] (fmul a b)) w) s)

def execVecFma (core : Fin 384) (w : VWord) (s : State) : Host.Outcome State Fault Refusal :=
  .next (issue core 0x04 w (ctlIn w 0) (map3 (fun a b c => typed w 0x04 [a, b, c] (ffma a b c)) w) s)

def execVecMax (core : Fin 384) (w : VWord) (s : State) : Host.Outcome State Fault Refusal :=
  .next (issue core 0x05 w (ctlIn w 0) (map2 (fun a b => typedOr w (imax a b) (fmax a b)) w) s)

def execVecMin (core : Fin 384) (w : VWord) (s : State) : Host.Outcome State Fault Refusal :=
  .next (issue core 0x06 w (ctlIn w 0) (map2 (fun a b => typedOr w (imin a b) (fmin a b)) w) s)

def execVecAbs (core : Fin 384) (w : VWord) (s : State) : Host.Outcome State Fault Refusal :=
  .next (issue core 0x07 w (ctlIn w 0) (map1 (fun a => typedOr w (iabs a) (fabs a)) w) s)

def execVecCmp (core : Fin 384) (w : VWord) (s : State) : Host.Outcome State Fault Refusal :=
  .next (issue core 0x08 w (ctlIn w 3) (map2 (fun a b => typedOr w (icmp (ctlNat w 0 2) a b) (fcmp (ctlNat w 0 2) a b)) w) s)

/-- SEL: the chosen value, valid where it and the selector are; bits move unchanged (03 R86). -/
def vecSel (w : VWord) (c : Nat) (r : TaskRun) (s : State) : State :=
  finishOp c w r (((source s c r 0 (ra w)).zip ((source s c r 1 (rb w)).zip (source s c r 2 (rc w)))).map (fun (a, b, d) =>
    let x := if nonZero w d.val then a else b
    (⟨x.val, x.valid && d.valid⟩, 0))) s

def execVecSel (core : Fin 384) (w : VWord) (s : State) : Host.Outcome State Fault Refusal :=
  .next (issue core 0x09 w (ctlIn w 0) (vecSel w) s)

/-- MASK: lanes where b = 0 become invalid. -/
def vecMask (w : VWord) (c : Nat) (r : TaskRun) (s : State) : State :=
  finishOp c w r (((source s c r 0 (ra w)).zip (source s c r 1 (rb w))).map (fun (a, b) =>
    (⟨a.val, a.valid && b.valid && nonZero w b.val⟩, 0))) s

def execVecMask (core : Fin 384) (w : VWord) (s : State) : Host.Outcome State Fault Refusal :=
  .next (issue core 0x0A w (ctlIn w 0) (vecMask w) s)

/-- POS: row or column index of each lane of the entry last taken (log 30). -/
def vecPos (w : VWord) (c : Nat) (r : TaskRun) (s : State) : State :=
  let ls := lanes1024.map (fun l =>
    let q := lanePos r.geom.toNat (isProduct r) (taskShape r.desc) (r.taken - 1) l
    (⟨BitVec.ofNat 32 (if ctlNat w 0 1 == 0 then q.2.1 else q.2.2), true⟩ : Lane))
  putReg c (rdst w) (r.taken - 1) ls s

def execVecPos (core : Fin 384) (w : VWord) (s : State) : Host.Outcome State Fault Refusal :=
  .next (issue core 0x0B w (ctlIn w 1) (vecPos w) s)

def execVecRcp (core : Fin 384) (w : VWord) (s : State) : Host.Outcome State Fault Refusal :=
  .next (issue core 0x10 w (ctlIn w 0) (map1 (fun a => typed w 0x10 [a] (frcp a)) w) s)

def execVecRsq (core : Fin 384) (w : VWord) (s : State) : Host.Outcome State Fault Refusal :=
  .next (issue core 0x11 w (ctlIn w 0) (map1 (fun a => typed w 0x11 [a] (frsq a)) w) s)

def execVecExp (core : Fin 384) (w : VWord) (s : State) : Host.Outcome State Fault Refusal :=
  .next (issue core 0x12 w (ctlIn w 0) (map1 (fun a => typed w 0x12 [a] (fexp a)) w) s)

def execVecExp2 (core : Fin 384) (w : VWord) (s : State) : Host.Outcome State Fault Refusal :=
  .next (issue core 0x13 w (ctlIn w 0) (map1 (fun a => typed w 0x13 [a] (fexp2 a)) w) s)

def execVecLog2 (core : Fin 384) (w : VWord) (s : State) : Host.Outcome State Fault Refusal :=
  .next (issue core 0x14 w (ctlIn w 0) (map1 (fun a => typed w 0x14 [a] (flog2 a)) w) s)

def execVecTanh (core : Fin 384) (w : VWord) (s : State) : Host.Outcome State Fault Refusal :=
  .next (issue core 0x15 w (ctlIn w 0) (map1 (fun a => typed w 0x15 [a] (ftanh a)) w) s)

def execVecSig (core : Fin 384) (w : VWord) (s : State) : Host.Outcome State Fault Refusal :=
  .next (issue core 0x16 w (ctlIn w 0) (map1 (fun a => typed w 0x16 [a] (fsig a)) w) s)

def execVecDiv (core : Fin 384) (w : VWord) (s : State) : Host.Outcome State Fault Refusal :=
  .next (issue core 0x17 w (ctlIn w 0) (map2 (fun a b => typed w 0x17 [a, b] (fdiv a b)) w) s)

def execVecSqrt (core : Fin 384) (w : VWord) (s : State) : Host.Outcome State Fault Refusal :=
  .next (issue core 0x18 w (ctlIn w 0) (map1 (fun a => typed w 0x18 [a] (fsqrt a)) w) s)

/-! ### Integers -/

def execVecIadd (core : Fin 384) (w : VWord) (s : State) : Host.Outcome State Fault Refusal :=
  .next (issue core 0x20 w (ctlIn w 0) (map2 (fun a b => (a + b, 0)) w) s)

def execVecImul (core : Fin 384) (w : VWord) (s : State) : Host.Outcome State Fault Refusal :=
  .next (issue core 0x21 w (ctlIn w 0) (map2 (fun a b => (a * b, 0)) w) s)

def execVecShift (core : Fin 384) (w : VWord) (s : State) : Host.Outcome State Fault Refusal :=
  .next (issue core 0x22 w (ctlIn w 3 && ctlNat w 0 2 != 3) (map2 (shiftOp (ctlNat w 0 2)) w) s)

/-- LOGIC: NOT reads only a. -/
def vecLogic (w : VWord) (c : Nat) (r : TaskRun) (s : State) : State :=
  if ctlNat w 0 2 == 3 then map1 (fun a => logicOp 3 a 0) w c r s else map2 (logicOp (ctlNat w 0 2)) w c r s

def execVecLogic (core : Fin 384) (w : VWord) (s : State) : Host.Outcome State Fault Refusal :=
  .next (issue core 0x23 w (ctlIn w 3) (vecLogic w) s)

/-! ### Conversions (03 R61, R69 to R71, R80, R82) -/

/-- Element index of a lane in a shape, for a register's chunk. -/
def laneIndex (r : TaskRun) (o : Origin) (p : Shape) (tag l : Nat) : Nat := elemIndex o (outPos r.geom.toNat (isProduct r) p tag l)

/-- The shape under which CVT and PACK count their elements. -/
def drawShape (r : TaskRun) : Shape := if sUsed (dStream r.desc 3) then shapeOf (dStream r.desc 3) else taskShape r.desc

/-- CVT rounds under the task's numeric control, also into INT32 (03 R80; log 25). -/
def vecCvt (w : VWord) (c : Nat) (r : TaskRun) (s : State) : State :=
  let nc := dNumctlO r.desc
  let d := drawOfTask s r
  let tag := tagOf s c (ra w) r
  finishOp c w r ((source s c r 0 (ra w)).zipIdx.map (fun (a, l) =>
    let v := cvtOp (ctlNat w 0 2) w.type.toNat nc (rndAt nc d (laneIndex r d.at_ (drawShape r) tag l)) a.val
    (⟨v.1, a.valid⟩, v.2))) s

def execVecCvt (core : Fin 384) (w : VWord) (s : State) : Host.Outcome State Fault Refusal :=
  .next (issue core 0x28 w (ctlIn w 3 && ctlNat w 0 2 != 3) (vecCvt w) s)

def execVecTsc (core : Fin 384) (w : VWord) (s : State) : Host.Outcome State Fault Refusal :=
  .next (issue core 0x29 w (ctlIn w 15 && ctlNat w 0 4 ≤ 0xA) (map1 (fun a => typed w 0x29 [a] (tscOp (ctlNat w 0 4) a)) w) s)

/-- EXPB, and event 0x5002 once for a task in which an exponent is clamped. -/
def vecExpb (w : VWord) (c : Nat) (r : TaskRun) (s : State) : State :=
  let k := ctlNat w 0 3
  match auxOut s r.desc k with
  | none => s
  | some x =>
    let rs := ((source s c r 0 (ra w)).zip (source s c r 1 (rb w))).map (fun (a, b) =>
      let v := expbOp (sFmt x) (ncRule (dAuxNumctl r.desc k)) a.val b.val
      ((⟨v.1.1, a.valid && b.valid⟩ : Lane), v.1.2, v.2))
    let s := finishOp c w r (rs.map (fun v => (v.1, v.2.1))) s
    if !r.clamped && rs.any (fun v => v.1.valid && v.2.2) then
      raise 0x5002 data (coreDie c) [a4 (dTask r.desc), a4 (dOutTensor r.desc)] (setTask_ c (fun r => { r with clamped := true }) s)
    else s

def execVecExpb (core : Fin 384) (w : VWord) (s : State) : Host.Outcome State Fault Refusal :=
  .next (issue core 0x2A w (ctlIn w 7) (vecExpb w) s)

def vecQnt (w : VWord) (c : Nat) (r : TaskRun) (s : State) : State :=
  let k := ctlNat w 0 3
  match auxOut s r.desc k with
  | none => s
  | some x =>
    let nc := dAuxNumctl r.desc k
    let d := drawOf s r x
    let tag := tagOf s c (ra w) r
    let rs := ((source s c r 0 (ra w)).zip ((source s c r 1 (rb w)).zip (source s c r 2 (rc w)))).zipIdx.map (fun ((a, b, t), l) =>
      let v := qntOp (sFmt x) nc (rndAt nc d (laneIndex r d.at_ (shapeOf x) tag l)) a.val b.val t.val
      ((⟨v.1, a.valid && b.valid && t.valid⟩ : Lane), v.2))
    finishOp c w r rs s

def execVecQnt (core : Fin 384) (w : VWord) (s : State) : Host.Outcome State Fault Refusal :=
  .next (issue core 0x2B w (ctlIn w 7) (vecQnt w) s)

def execVecDqnt (core : Fin 384) (w : VWord) (s : State) : Host.Outcome State Fault Refusal :=
  .next (issue core 0x2C w (ctlIn w 15 && ctlNat w 0 4 ≤ 0xA) (map3 (fun a b c => typed w 0x2C [a, b, c] (dqntOp (ctlNat w 0 4) a b c)) w) s)

/-! ### Reordering (05 R143 to R145) -/

def laneAt (ls : Array Lane) (i : Nat) : Lane := ls.getD (i % 1024) padLane

/-- Source of lane i: true for b, and its lane. -/
def shufSource (pat param i : Nat) : Bool × Nat :=
  match pat with
  | 0 => (false, (i + param) % 1024)
  | 1 => (false, i - i % 128 + (i + param) % 128)
  | 2 => (false, i ^^^ param)
  | 3 => (i % 2 == 1, i / 2 + 512 * param)
  | 4 => if i < 512 then (false, 2 * i + param) else (true, 2 * (i - 512) + param)
  | 5 => (false, 128 * param + i % 128)
  | _ => (false, i - i % 128 + param)

def shufLegal (pat param : Nat) : Bool :=
  match pat with
  | 0 => decide (param ≤ 1023)
  | 1 => decide (param ≤ 127)
  | 2 => decide (param ≤ 1023)
  | 3 => decide (param ≤ 1)
  | 4 => decide (param ≤ 1)
  | 5 => decide (param ≤ 7)
  | 6 => decide (param ≤ 127)
  | _ => false

def vecShuf (w : VWord) (c : Nat) (r : TaskRun) (s : State) : State :=
  let a := (source s c r 0 (ra w)).toArray
  let b := (source s c r 1 (rb w)).toArray
  finishOp c w r (lanes1024.map (fun i =>
    let q := shufSource (ctlNat w 12 4) (ctlNat w 0 12) i
    (laneAt (if q.1 then b else a) q.2, 0))) s

def execVecShuf (core : Fin 384) (w : VWord) (s : State) : Host.Outcome State Fault Refusal :=
  .next (issue core 0x30 w (w.type != 3 && shufLegal (ctlNat w 12 4) (ctlNat w 0 12)) (vecShuf w) s)

def vecPerm (w : VWord) (c : Nat) (r : TaskRun) (s : State) : State :=
  let a := (source s c r 0 (ra w)).toArray
  finishOp c w r ((source s c r 1 (rb w)).map (fun b =>
    let x := laneAt a b.val.toNat
    (⟨x.val, x.valid && b.valid⟩, 0))) s

def execVecPerm (core : Fin 384) (w : VWord) (s : State) : Host.Outcome State Fault Refusal :=
  .next (issue core 0x31 w (ctlIn w 0) (vecPerm w) s)

/-- Elements to a lane of a packed register: 2 of 16 bits, 4 of 8; none for a reserved target. -/
def packCount (code : Nat) : Option Nat :=
  match code with
  | 0x1 => some 2
  | 0x2 => some 2
  | 0x8 => some 4
  | 0x9 => some 4
  | _ => none

def packLegal (w : VWord) (lastFrom : Nat) : Bool :=
  packCount (ctlNat w 4 4) == some (nOf w) && decide (lastFrom + nOf w ≤ 32)

/-- A group of elements packed into a lane, the first lowest. -/
def packLane (bitsPer : Nat) (es : List (Nat × Bool)) : Lane :=
  ⟨BitVec.ofNat 32 (packPats bitsPer (es.map (·.1))), es.all (·.2)⟩

def vecPack (w : VWord) (c : Nat) (r : TaskRun) (s : State) : State :=
  let code := ctlNat w 4 4
  let n := nOf w
  let nc := ctlNat w 8 2 + 4 * ctlNat w 10 1
  let d := drawOfTask s r
  let es := (List.range n).flatMap (fun k =>
    (source s c r 0 (ra w + k)).zipIdx.map (fun (a, l) =>
      let v := narrow code (ncNonfin nc) (rndAt nc d (laneIndex r d.at_ (drawShape r) (tagOf s c (ra w + k) r) l)) (of32 a.val)
      (v.pat, a.valid, v.flags ||| readFlags (of32 a.val))))
  let f := es.foldl (fun f e => if e.2.1 then f ||| e.2.2 else f) (0 : Flags)
  addFlags c f (putReg c (rdst w) (tagOf s c (ra w) r)
    ((pieces n (es.map (fun e => (e.1, e.2.1)))).map (packLane (32 / n))) s)

def execVecPack (core : Fin 384) (w : VWord) (s : State) : Host.Outcome State Fault Refusal :=
  .next (issue core 0x32 w (ctlIn w 0x7FF && ctlNat w 8 2 != 3 && packLegal w (ra w)) (vecPack w) s)

def widenElem (code p : Nat) : Val := let q := decodeElem code false p; arith [q] (to32 q)

def vecUnpk (w : VWord) (c : Nat) (r : TaskRun) (s : State) : State :=
  let code := ctlNat w 4 4
  let n := nOf w
  let bitsPer := 32 / n
  let es := (source s c r 0 (ra w)).flatMap (fun a => (List.range n).map (fun j =>
    let v := widenElem code (a.val.toNat / 2 ^ (bitsPer * j) % 2 ^ bitsPer)
    ((⟨v.1, a.valid⟩ : Lane), v.2)))
  let tag := tagOf s c (ra w) r
  addFlags c (laneFlags es)
    (forEach ((pieces 1024 (es.map (·.1))).zipIdx) (fun (ls, k) s => putReg c (rdst w + k) tag ls s) s)

def execVecUnpk (core : Fin 384) (w : VWord) (s : State) : Host.Outcome State Fault Refusal :=
  .next (issue core 0x33 w (ctlIn w 0xFF && packLegal w (rdst w)) (vecUnpk w) s)

/-! ### Reductions (05 R146) -/

def pairUp (op : W32 → W32 → Val) : List (Option Val) → List (Option Val)
  | [] => []
  | [a] => [a]
  | a :: b :: t =>
    (match a, b with
      | some x, some y => let v := op x.1 y.1; some (v.1, x.2 ||| y.2 ||| v.2)
      | some x, none => some x
      | none, y => y) :: pairUp op t

/-- The binary tree over ascending lanes; invalid lanes are left out. -/
def treeGo (op : W32 → W32 → Val) : Nat → List (Option Val) → Option Val
  | 0, l => l.head?.join
  | n + 1, l => treeGo op n (pairUp op l)

def treeOf (op : W32 → W32 → Val) (pre : W32 → Val) (ls : List Lane) : Option Val :=
  treeGo op 10 (ls.map (fun a => if a.valid then some (pre a.val) else none))

/-- A reduction: 0 sum, 1 maximum, 2 sum of squares. -/
def reduceOf (kind : Nat) (ls : List Lane) : Val :=
  match kind with
  | 0 => (treeOf fadd (fun a => (canon32 a, readFlags (of32 a))) ls).getD (0, 0)
  | 1 => (treeOf fmax (fun a => fmax a a) ls).getD (0, 0)
  | _ => (treeOf fadd (fun a => fmul a a) ls).getD (0, 0)

/-- s is 5, 7 or 10; with CTL[4] = 1 it names no segment and is 0 (05 R146, R156; log 127). -/
def segLegal (w : VWord) : Bool := if ctlNat w 4 1 == 1 then ctlNat w 0 4 == 0 else [5, 7, 10].contains (ctlNat w 0 4)

def vecReduce (kind op : Nat) (w : VWord) (c : Nat) (r : TaskRun) (s : State) : State :=
  let a := source s c r 0 (ra w)
  let rs : List Val :=
    if ctlNat w 4 1 == 1 then
      let arr := a.toArray
      let cols := (List.range 128).map (fun i => reduceOf kind ((List.range 8).map (fun k => laneAt arr (128 * k + i))))
      (List.range 8).flatMap (fun _ => cols)
    else
      let len := 2 ^ ctlNat w 0 4
      (pieces len a).flatMap (fun g => List.replicate len (reduceOf kind g))
  let rs := rs.map (fun v => typed w op [v.1] v)
  addFlags c (flagsOr (rs.map (·.2))) (putReg c (rdst w) (tagOf s c (ra w) r) (rs.map (fun v => ⟨v.1, true⟩)) s)

def execVecRsum (core : Fin 384) (w : VWord) (s : State) : Host.Outcome State Fault Refusal :=
  .next (issue core 0x38 w (ctlIn w 31 && segLegal w) (vecReduce 0 0x38 w) s)

def execVecRmax (core : Fin 384) (w : VWord) (s : State) : Host.Outcome State Fault Refusal :=
  .next (issue core 0x39 w (ctlIn w 31 && segLegal w) (vecReduce 1 0x39 w) s)

def execVecRssq (core : Fin 384) (w : VWord) (s : State) : Host.Outcome State Fault Refusal :=
  .next (issue core 0x3A w (ctlIn w 31 && segLegal w) (vecReduce 2 0x3A w) s)

/-! ### Loads (05 R129, R131, R132, R137) -/

/-- Entries of Q2 that make one row, under ROW. -/
def entriesPerRow (r : TaskRun) : Nat := if r.geom == 0 then max 1 (cdiv (taskShape r.desc).c 1024) else 1

/-- The bank of the unit that the entry drains holds what the array has accumulated for it (04 R98). -/
def fillBank (c n : Nat) (r : TaskRun) (s : State) : State :=
  if dKind r.desc != 0 then s
  else
    let u := unitOfEntry (taskShape r.desc) n
    let bank := unitBank s r.desc ((coreAt s c).held.getD []) u
    setCore c (fun k => { k with banks := tset k.banks (u % 2) bank }) s

/-- LDQ: the next Q2 entry, or all lanes invalid beyond the task's entries; CTL[0] places it in D + j. -/
def vecLdq (w : VWord) (c : Nat) (r : TaskRun) (s : State) : State :=
  let n := r.taken
  let j := if ctlNat w 0 1 == 1 then n % entriesPerRow r else 0
  if 31 < rdst w + j then s
  else if n < entriesOf r.desc r.geom.toNat then
    through c (entryStreams r.desc) (fun s =>
      let e := entryOf s r.desc ((coreAt s c).held.getD []) r.geom.toNat n
      addFlags c e.2 (putReg c (rdst w + j) n e.1 (setTask_ c (fun r => { r with taken := n + 1 }) (fillBank c n r s)))) s
  else putReg c (rdst w + j) n (List.replicate 1024 padLane) (setTask_ c (fun r => { r with taken := n + 1 }) s)

def execVecLdq (core : Fin 384) (w : VWord) (s : State) : Host.Outcome State Fault Refusal :=
  .next (issue core 0x40 w (ctlIn w 1) (vecLdq w) s)

def vecLdx (w : VWord) (c : Nat) (r : TaskRun) (s : State) : State :=
  let k := w.aux.toNat
  match auxIn s r.desc k with
  | none => s
  | some x => through c [x] (fun s =>
    let n := r.cursors.getD k 0
    let e := loadChunk s r.geom.toNat (isProduct r) (taskShape r.desc) x (ctlNat w 0 2) (ctlNat w 2 1 == 1) n
    addFlags c e.2 (putReg c (rdst w) n e.1 (setTask_ c (fun r => { r with cursors := lset r.cursors k (n + 1) }) s))) s

/-- COLUMN widening is under BAND only. -/
def ldxLegal (s : State) (core : Fin 384) (w : VWord) : Bool :=
  ctlIn w 7 && ctlNat w 0 2 != 3 && w.aux.toNat < 6 &&
    (ctlNat w 0 2 != 2 || ((vectorTask s core.val).map (fun r => r.geom == 2)).getD false)

def execVecLdx (core : Fin 384) (w : VWord) (s : State) : Host.Outcome State Fault Refusal :=
  .next (issue core 0x41 w (ldxLegal s core w) (vecLdx w) s)

/-! ### Stores (05 R129, R150) -/

/-- The section from which an output is written: a single row of at most 1,024 elements only from FIN, one with EXT0 = 1 only
from ROW, of both kinds from either; others from any (05 R150). -/
def writtenHere (r : TaskRun) (x : BitVec 256) : Bool :=
  let oneRow := sExt2 x == 1 && sExt1 x == 1 && sExt0 x ≤ 1024
  if sExt0 x == 1 && oneRow then r.place.sec == 2 || r.place.sec == 3
  else if oneRow then r.place.sec == 3
  else if sExt0 x == 1 then r.place.sec == 2
  else true

/-- Values of stream O at the positions of a chunk, as they stand in memory. -/
def chunkValues (s : State) (r : TaskRun) (o : BitVec 256) (n : Nat) : List ((Nat × Nat × Nat) × W32) :=
  let p := shapeOf o
  if outChunks r.geom.toNat p ≤ n then []
  else ((lanes1024.map (outPos r.geom.toNat (isProduct r) p n)).filter (inside p)).map (fun q => (q, (value32 s o q.1 q.2.1 q.2.2).1))

/-- The same under RAW: the elements that the chunk's words hold. -/
def rawValues (s : State) (r : TaskRun) (o : BitVec 256) (n : Nat) : List ((Nat × Nat × Nat) × W32) :=
  let p := rawShape o
  let w := fmtBits (sFmt o)
  if outChunks r.geom.toNat p ≤ n then []
  else ((lanes1024.map (outPos r.geom.toNat (isProduct r) p n)).filter (inside p)).flatMap (fun q =>
    (((List.range (cdiv 32 w)).map (fun i => (q.1, q.2.1, 32 * q.2.2 / w + i))).filter (inside (shapeOf o))).map (fun z =>
      (z, (value32 s o z.1 z.2.1 z.2.2).1)))

/-- The amax unit takes in what has just been written to stream O, where the task keeps a record (04 R103). -/
def recordAmax (c : Nat) (o : BitVec 256) (vs : State → List ((Nat × Nat × Nat) × W32)) (s : State) : State :=
  setTask_ c (fun t => if dAmaxAxes t.desc == 0 then t else noteAmax o (vs s) t) s

/-- STQ: the next chunk of stream O. -/
def vecStq (w : VWord) (c : Nat) (r : TaskRun) (s : State) : State :=
  let o := dStream r.desc 3
  if !sUsed o || !writtenHere r o then s
  else through c [o] (fun s =>
    let ls := source s c r 0 (ra w)
    let n := r.ocursor
    let s1 := setTask_ c (fun r => { r with ocursor := n + 1 }) s
    if ctlNat w 2 1 == 1 then
      recordAmax c o (fun s => rawValues s r o n) (storeRaw r.geom.toNat (isProduct r) o n ls s1)
    else
      let p := storeChunk r.geom.toNat (isProduct r) o (dNumctlO r.desc) (outScale s r (sFmt o)) (drawOf s r o) n ls s1
      recordAmax c o (fun s => chunkValues s r o n)
        (addFlags c p.2 (noteHistory r (sFmt o) ((ls.filter (·.valid)).map (·.val)) p.1))) s

def execVecStq (core : Fin 384) (w : VWord) (s : State) : Host.Outcome State Fault Refusal :=
  .next (issue core 0x42 w (ctlIn w 4) (vecStq w) s)

/-- TAMAX and TSCALE of the seed: the first FP32 scalar input is its TSCALE, 4 bytes above its TAMAX (05 R155; log 28). -/
def seedScale (s : State) (d : BitVec 2048) : W32 × W32 :=
  match ((List.range 6).filterMap (auxIn s d)).find? (fun x => sFmt x == 0 && sExt0 x == 1 && sStr1 x == 0 && sStr2 x == 0) with
  | some x => (BitVec.ofNat 32 (rdNat s (sBase x - 4) 4), BitVec.ofNat 32 (rdNat s (sBase x) 4))
  | none => (0, one32)

/-- The axis of a block-scaled output. The pass that SCALE_AXES 0b11 names writes two tensors: its first such output has its
blocks along the last dimension, its second along the other (03 R78; log 126). -/
def outAxis (d : BitVec 2048) (k : Nat) : Nat :=
  match ncAxes (dAuxNumctl d k) with
  | 3 => if (List.range k).any (fun j => dAuxOut d j && ncAxes (dAuxNumctl d j) == 3) then 1 else 0
  | a => a - 1

/-- The header, with the last chunk of a block-scaled output (05 R150); none where the stream names no scale array (log 138). -/
def putHeader (r : TaskRun) (k : Nat) (x : BitVec 256) (s : State) : State :=
  let sc := seedScale s r.desc
  if !sScaled x then s
  else engineWrite (headerAt x) (recBytes (scaleHeader r.flags.toNat (outAxis r.desc k) (ncRule (dAuxNumctl r.desc k)).toNat (sFmt x)
    (dOutTensor r.desc) sc.1 sc.2)) s

/-- STX: the next chunk of an auxiliary output; with the last chunk of a block-scaled output its header. -/
def vecStx (w : VWord) (c : Nat) (r : TaskRun) (s : State) : State :=
  let k := w.aux.toNat
  match auxOut s r.desc k with
  | none => s
  | some x =>
    if !writtenHere r x then s
    else through c [x] (fun s =>
      let g := r.geom.toNat
      let n := r.cursors.getD k 0
      let nc := dAuxNumctl r.desc k
      let ls := source s c r 0 (ra w)
      let s1 := setTask_ c (fun r => { r with cursors := lset r.cursors k (n + 1) }) s
      let raw := ctlNat w 2 1 == 1
      if ncAxes nc == 0 then
        if raw then storeRaw g (isProduct r) x n ls s1
        else
          let p := storeChunk g (isProduct r) x nc (outScale s r (sFmt x)) (drawOf s r x) n ls s1
          addFlags c p.2 (noteHistory r (sFmt x) ((ls.filter (·.valid)).map (·.val)) p.1)
      else
        let s2 := if raw then storeRawBlocks g (isProduct r) x (outAxis r.desc k) n ls (source s c r 1 (rb w)) s1
          else storeBlocks g (isProduct r) x (outAxis r.desc k) n ls (source s c r 1 (rb w)) s1
        if n + 1 == outChunks g (if raw then rawShape x else shapeOf x) then putHeader r k x s2 else s2) s

def execVecStx (core : Fin 384) (w : VWord) (s : State) : Host.Outcome State Fault Refusal :=
  .next (issue core 0x43 w (ctlIn w 4 && w.aux.toNat < 6) (vecStx w) s)

/-! ### Fused kernels (05 R147, R148) -/

def regsFrom (s : State) (c : Nat) (r : TaskRun) (first n : Nat) : List (List Lane) :=
  (List.range n).map (fun k => source s c r 0 (first + k))

/-- Totals of the registers added in ascending order. -/
def addTotals (ts : List Val) : Val :=
  match ts with
  | [] => (0, 0)
  | t :: ts => ts.foldl (fun a b => let v := fadd a.1 b.1; (v.1, a.2 ||| b.2 ||| v.2)) t

def fpOfNat (n : Nat) : W32 := (to32 (.fin false n 0)).1

/-- Mean of the row and its factor for an epsilon; +0.0 and +0.0 for a row without elements. -/
def nstatOf (layer : Bool) (rows : List (List Lane)) (eps : W32) : Val × Val :=
  let e := (rows.map (fun ls => (ls.filter (·.valid)).length)).foldl (· + ·) 0
  if e == 0 then ((0, 0), (0, 0))
  else
    let mean : Val := if layer then
        let s1 := addTotals (rows.map (reduceOf 0))
        let v := fdiv s1.1 (fpOfNat e); (v.1, s1.2 ||| v.2)
      else (0, 0)
    let s2 := addTotals (rows.map (fun ls => if layer then
        (treeOf fadd (fun a => let d := fsub a mean.1; let q := fmul d.1 d.1; (q.1, d.2 ||| q.2)) ls).getD (0, 0)
      else reduceOf 2 ls))
    let v := fdiv s2.1 (fpOfNat e)
    let t := fadd v.1 eps
    let f := frsq t.1
    (mean, (f.1, s2.2 ||| v.2 ||| t.2 ||| f.2))

/-- The two results of a row's statistics in D and D + 1, in the word's TYPE, with their flags. -/
def putPair (c : Nat) (w : VWord) (op tag : Nat) (f : Flags) (st : List (Val × Val)) (s : State) : State :=
  let ty (v : Val) : Lane × Flags := let t := typed w op [v.1] (v.1, 0); (⟨t.1, true⟩, t.2)
  let m := st.map (fun p => ty p.1)
  let q := st.map (fun p => ty p.2)
  addFlags c (f ||| laneFlags (m ++ q)) (putReg c (rdst w + 1) tag (q.map (·.1)) (putReg c (rdst w) tag (m.map (·.1)) s))

def vecNstat (w : VWord) (c : Nat) (r : TaskRun) (s : State) : State :=
  let rows := regsFrom s c r (ra w) (nOf w)
  let bs := source s c r 1 (rb w)
  let eps := ((bs.find? (·.valid)).map (·.val)).getD 0
  let one := nstatOf (ctlNat w 4 1 == 1) rows eps
  let per (b : Lane) : Val × Val := if b.val == eps then one else nstatOf (ctlNat w 4 1 == 1) rows b.val
  let st := bs.map per
  let tag := tagOf s c (ra w) r
  putPair c w 0x50 tag (one.1.2 ||| one.2.2) st s

def execVecNstat (core : Fin 384) (w : VWord) (s : State) : Host.Outcome State Fault Refusal :=
  .next (issue core 0x50 w (ctlIn w 31 && ra w + nOf w ≤ 32 && rdst w ≤ 30) (vecNstat w) s)

/-- A lane's result in the word's TYPE; a lane that takes no part stays as it is. -/
def typedLane (w : VWord) (op : Nat) (l : Lane × Flags) : Lane × Flags :=
  if !l.1.valid then l else let v := typed w op [l.1.val] (l.1.val, l.2); (⟨v.1, true⟩, v.2)

/-- t = x - mean, u = t × f, u × γ + β; an element that takes no part is +0.0. -/
def nappLane (x mean f g b : Lane) : Lane × Flags :=
  if !x.valid then (padLane, 0)
  else
    let t := fsub x.val mean.val
    let u := fmul t.1 f.val
    let v := ffma u.1 g.val b.val
    (⟨v.1, g.valid && b.valid⟩, t.2 ||| u.2 ||| v.2)

def vecNapp (w : VWord) (c : Nat) (r : TaskRun) (s : State) : State :=
  let xs := source s c r 0 (ra w)
  let ms := source s c r 1 (rb w)
  let fs := source s c r 1 (rb w + 1)
  let gs := source s c r 2 (rc w)
  let bs := source s c r 2 (rc w + 1)
  finishOp c w r ((xs.zip (ms.zip (fs.zip (gs.zip bs)))).map (fun (x, m, f, g, b) => typedLane w 0x51 (nappLane x m f g b))) s

def execVecNapp (core : Fin 384) (w : VWord) (s : State) : Host.Outcome State Fault Refusal :=
  .next (issue core 0x51 w (ctlIn w 0 && rb w ≤ 30 && rc w ≤ 30) (vecNapp w) s)

/-- m and r of a row for a scale; +0.0 and +0.0, no flag, for a row without valid lanes. -/
def sstatOf (rows : List (List Lane)) (k : W32) : Val × Val :=
  let any := rows.any (fun ls => ls.any (·.valid))
  if !any then ((0, 0), (0, 0))
  else
    let ms := rows.filterMap (fun ls => treeOf fmax (fun a => fmul a k) ls)
    let m : Val := match ms with
      | [] => (0, 0)
      | t :: ts => ts.foldl (fun a b => let v := fmax a.1 b.1; (v.1, a.2 ||| b.2 ||| v.2)) t
    let l := addTotals (rows.filterMap (fun ls => treeOf fadd (fun a =>
      let p := fmul a k; let d := fsub p.1 m.1; let e := fexp d.1; (e.1, p.2 ||| d.2 ||| e.2)) ls))
    let r := frcp l.1
    (m, (r.1, l.2 ||| r.2))

def vecSstat (w : VWord) (c : Nat) (r : TaskRun) (s : State) : State :=
  let rows := regsFrom s c r (ra w) (nOf w)
  let bs := source s c r 1 (rb w)
  let k := ((bs.find? (·.valid)).map (·.val)).getD 0
  let one := sstatOf rows k
  let st := bs.map (fun b => if b.val == k then one else sstatOf rows b.val)
  let tag := tagOf s c (ra w) r
  putPair c w 0x52 tag (one.1.2 ||| one.2.2) st s

def execVecSstat (core : Fin 384) (w : VWord) (s : State) : Host.Outcome State Fault Refusal :=
  .next (issue core 0x52 w (ctlIn w 15 && ra w + nOf w ≤ 32 && rdst w ≤ 30) (vecSstat w) s)

/-- EXP(x × c - m) × r; the scale c is read from SC (log 31). -/
def sappLane (x m f k : Lane) : Lane × Flags :=
  if !x.valid then (padLane, 0)
  else
    let p := fmul x.val k.val
    let d := fsub p.1 m.val
    let e := fexp d.1
    let v := fmul e.1 f.val
    (⟨v.1, true⟩, p.2 ||| d.2 ||| e.2 ||| v.2)

def vecSapp (w : VWord) (c : Nat) (r : TaskRun) (s : State) : State :=
  let xs := source s c r 0 (ra w)
  let ms := source s c r 1 (rb w)
  let fs := source s c r 1 (rb w + 1)
  let ks := source s c r 2 (rc w)
  finishOp c w r ((xs.zip (ms.zip (fs.zip ks))).map (fun (x, m, f, k) => typedLane w 0x53 (sappLane x m f k))) s

def execVecSapp (core : Fin 384) (w : VWord) (s : State) : Host.Outcome State Fault Refusal :=
  .next (issue core 0x53 w (ctlIn w 0 && rb w ≤ 30) (vecSapp w) s)

end Sys2Proof.Machine
end

