-- ==== Sys2Proof/Machine/Reduce.lean ====
section
/-! DEFINITION. Reductions: layouts, notices, the close, the canonical tree, results and the verdict (09 R247 to R265). -/

namespace Sys2Proof.Machine

/-! ### Layouts (09 Table 9-2) -/

def loRed (l : Layout) : Nat := fld l.raw 480 32
def loFrom (l : Layout) : Nat := fld l.raw 416 64
def loN (l : Layout) : Nat := fld l.raw 400 16
def loQ (l : Layout) : Nat := fld l.raw 384 16
def loMine (l : Layout) : Nat := fld l.raw 368 16
def loCoord (l : Layout) : Nat := fld l.raw 352 16
def loBudget (l : Layout) : Nat := fld l.raw 347 5
def loCarry (l : Layout) : Bool := fld l.raw 346 1 == 1
def loStep (l : Layout) : Bool := fld l.raw 345 1 == 1
def loCfmt (l : Layout) : Nat := fld l.raw 341 4
def loOfmt (l : Layout) : Nat := fld l.raw 337 4
def loShardLog (l : Layout) : Nat := fld l.raw 332 5
def loFirst (l : Layout) : Nat := fld l.raw 288 32
def loEntries (l : Layout) : Nat := fld l.raw 272 16

/-- RED_ID of the step verdict (09 Table 9-2). -/
def verdictRed : Nat := 0xFFFFFFFF

/-- The layout in force at a step: that with the greatest FROM_STEP not above it (09 R248). -/
def layoutFor (s : State) (id step : Nat) : Option Layout :=
  (s.red.layouts.filter (fun l => loRed l == id && decide (loFrom l ≤ step))).foldl
    (fun b l => match b with
      | some m => if loFrom m ≤ loFrom l then some l else b
      | none => some l) none

def loMember (l : Layout) (i : Nat) : W16 := l.members.getD i 0xFFFF
def coordinates (s : State) (l : Layout) : Bool := loMember l (loCoord l) == s.fab.moduleId

/-- Elements in a shard (09 R249). -/
def shardElems (l : Layout) : Nat := 2 ^ loShardLog l / (if loCfmt l == 1 then 2 else 4)

/-! ### Notices (09 Table 9-3) -/

def nStep (n : BitVec 512) : Nat := fld n 448 64
def nRed (n : BitVec 512) : Nat := fld n 416 32
def nIdx (n : BitVec 512) : Nat := fld n 400 16
def nCount (n : BitVec 512) : Nat := fld n 352 32
def nCause (n : BitVec 512) : Nat := fld n 350 2
def nCarried (n : BitVec 512) : Bool := fld n 349 1 == 1
def nNorm (n : BitVec 512) : W32 := bits n 288 32

def noticeOf (step red idx count cause : Nat) (carried : Bool) (norm : W32) : BitVec 512 :=
  recSeal (mkRec 512 [(448, 64, step), (416, 32, red), (400, 16, idx), (352, 32, count), (350, 2, cause),
    (349, 1, carried.toNat), (288, 32, norm.toNat)])

/-! ### Records of a reduction under way -/

def redFind (s : State) (id step : Nat) : Option Red :=
  s.red.open_.find? (fun r => r.id.toNat == id && r.step.toNat == step)

def newRed (id step : Nat) : Red :=
  { id := BitVec.ofNat 32 id, step := BitVec.ofNat 64 step, notices := [], carriedNotices := [], started := false,
    budgetOut := false, close := none, shards := [], results := [], own := none, ownLate := false, committed := false,
    skip := false, pins := [] }

def redAt (s : State) (id step : Nat) : Red := (redFind s id step).getD (newRed id step)

/-- Change the record of (RED_ID, step), which is made where there is none yet. -/
def updRed (id step : Nat) (f : Red → Red) (s : State) : State :=
  if (redFind s id step).isSome then
    { s with red := { s.red with open_ := s.red.open_.map (fun r => if r.id.toNat == id && r.step.toNat == step then f r else r) } }
  else { s with red := { s.red with open_ := s.red.open_ ++ [f (newRed id step)] } }

/-- The reduction of a step has closed, or its step has passed with no record left. -/
def redClosed (s : State) (id step : Nat) : Bool :=
  match redFind s id step with
  | some r => r.close.isSome
  | none => s.steps.anyBoundary && decide (step ≤ s.steps.lastBoundary.toNat)

/-- The Ledger entry of a reduction of the step under way (09 Table 9-6). -/
def setLedgerRed (id : Nat) (f : LedgerRed → LedgerRed) (s : State) : State :=
  { s with steps := { s.steps with record := { s.steps.record with
      reds := s.steps.record.reds.map (fun e => if e.red.toNat == id then f e else e) } } }

def isOpenStep (s : State) (step : Nat) : Bool :=
  match s.steps.job with
  | some j => j.step.toNat == step
  | none => false

def linkDie : Nat := 56
def redEvent (code id step : Nat) (rest : List (Nat × Nat)) (s : State) : State :=
  raise code data linkDie (a4 id :: a8 step :: rest) s

/-! ### The canonical order (09 R260, R261, R265) -/

/-- Levels of the tree over N contributors. -/
def treeDepth (n : Nat) : Nat := if n ≤ 1 then 0 else Nat.log2 (n - 1) + 1

/-- The root of the tree over contributor positions, absent leaves left out. -/
def redTree (n : Nat) (leaves : List (Option W32)) : Option W32 :=
  (treeGo fadd (treeDepth n) (leaves.map (fun x => x.map (fun v => (v, (0 : Flags)))))).map (fun (v : Val) => v.1)

/-- Total of the counted contributions and the carried ones. -/
def redTotal (n : Nat) (own carried : List (Option W32)) : Option W32 :=
  match redTree n own, redTree n carried with
  | some a, some b => some (fadd a b).1
  | some a, none => some a
  | none, c => c

/-- A squared norm over chunks of 1,024 elements, the chunks added in ascending order. -/
def normOf (vs : List W32) : W32 :=
  (addTotals ((pieces 1024 vs).map (fun c => reduceOf 2 (c.map (fun v => (⟨v, true⟩ : Lane)))))).1

/-- Norms of the shards, added in ascending shard order. -/
def normOfShards (l : Layout) (vs : List W32) : W32 :=
  (addTotals ((pieces (shardElems l) vs).map (fun c => (normOf c, (0 : Flags))))).1

/-! ### Local gradients (09 R249, R253) -/

def openPlan (s : State) : Option Plan := s.steps.job.bind (fun j => planOf s j.handle)

/-- Trained parameter entries that a layout covers, with their indices. -/
def coveredEntries (s : State) (l : Layout) : List (BitVec 512 × Nat) :=
  (stepParams s).filter (fun p => decide (loFirst l ≤ p.2) && decide (p.2 < loFirst l + loEntries l) && !peFrozen p.1)

def peRows (e : BitVec 512) : Nat := fld e 424 24
def peCols (e : BitVec 512) : Nat := fld e 400 24
def peGroup (e : BitVec 512) : Nat := fld e 460 10
def peElems (e : BitVec 512) : Nat := peRows e * peCols e

/-- Elements of a reduction, over all its entries. -/
def redElems (s : State) (l : Layout) : Nat :=
  if loRed l == verdictRed then 1 else sumNat ((coveredEntries s l).map (fun p => peElems p.1))

/-- 32-bit words at an address. -/
def words32 (s : State) (a n : Nat) : List W32 := (pieces 4 (rd s a (4 * n))).map (fun b => BitVec.ofNat 32 (natLE b))

/-- Room and byte offset of the local gradient of an entry. -/
def localOf (p : Plan) (i : Nat) : Option (Nat × Nat) := (p.localGrads.find? (fun g => g.1 == i)).map (fun g => (g.2.1.toNat, g.2.2))

/-- The values of an entry's local gradient in a version of its room. -/
def localValues (s : State) (p : Plan) (e : BitVec 512) (i : Nat) (ver : Option Nat) : List W32 :=
  match localOf p i with
  | none => []
  | some (room, off) => match roomAt s room with
    | none => []
    | some r => words32 s (steer r (ver.getD r.current.toNat) (r.base.toNat + off)) (peElems e)

/-- The values a contribution sends: converted to CFMT by nearest even, held in FP32. -/
def toCfmt (l : Layout) (v : W32) : W32 := if loCfmt l == 1 then (toBf16 (v, 0)).1 else v

def isInf32 (v : W32) : Bool := v &&& 0x7FFFFFFF == 0x7F800000
def nonFinite32 (v : W32) : Bool := v &&& 0x7F800000 == 0x7F800000

/-- Every task of the step that writes a local gradient of the reduction has ended. -/
def localsReady (s : State) (l : Layout) : Bool :=
  match s.steps.job, openPlan s with
  | some j, some p => (coveredEntries s l).all (fun e => match localOf p e.2 with
      | none => true
      | some (room, _) => j.tasks.all (fun q => match planTask p q.1 with
        | some t => !(outputsOf t).any (fun o => o.2.1 == room) || (match q.2 with
          | .done => true
          | .endedWith _ => true
          | .lost => true
          | _ => false)
        | none => true))
  | _, _ => false

/-- Room and current version of each local gradient, in entry order. -/
def localVersions (s : State) (l : Layout) : List (W16 × W16) :=
  match openPlan s with
  | none => []
  | some p => (coveredEntries s l).filterMap (fun e => (localOf p e.2).bind (fun ro =>
      (roomAt s ro.1).map (fun r => (BitVec.ofNat 16 ro.1, r.current))))

/-! ### Charged marks (10 R281, R282) -/

def holderAt (e : BitVec 128) (k : Nat) : Nat := fld e (8 + 24 * k) 16
def weightAt (e : BitVec 128) (k : Nat) : Nat := fld e (24 * k) 8
/-- Holders of an entry's slots of non-zero weight, in slot order. -/
def holdersOf (e : BitVec 128) : List Nat := ((List.range 4).filter (fun k => weightAt e k != 0)).map (holderAt e)
def eptIndex (layer expert : Nat) : Nat := layer * 512 + expert

/-- The active entry as the routers read it: a slot that names a removed module has weight 0 (16 R441). -/
def activeEntry (s : State) (layer expert : Nat) : BitVec 128 :=
  (List.range 4).foldl (fun e k =>
    if weightAt e k != 0 && !s.exch.group.contains (some (BitVec.ofNat 16 (holderAt e k))) then putFld e (24 * k) 8 0 else e)
    (tget s.exch.active (eptIndex layer expert) eptReset)

/-- Forward marks of a layer with LOST = 0, sorted by micro-batch and source group rank. -/
def layerMarks (s : State) (layer : Nat) : List (Nat × Nat) :=
  sortBy (fun a b => a.1 < b.1 || (a.1 == b.1 && a.2 ≤ b.2))
    ((s.exch.rounds.filter (fun r => isOpenStep s r.step.toNat && r.layer == layer && !r.backward)).flatMap (fun r =>
      r.marks.filterMap (fun m => if m.2.2 then none else (s.exch.group.idxOf? (some m.1)).map (fun k => (r.mb, k)))))

/-- The module served tokens of an expert in the open step. -/
def servedTokens (s : State) (layer expert : Nat) : Bool :=
  s.exch.rounds.any (fun r => isOpenStep s r.step.toNat && r.layer == layer && !r.backward &&
    r.bundles.any (fun b => b.expert == expert && !b.tokens.isEmpty))

/-- Marks charged to this module as a holder of an expert. -/
def chargedTo (s : State) (layer expert : Nat) : Nat :=
  let hs := holdersOf (activeEntry s layer expert)
  match hs.idxOf? s.fab.moduleId.toNat with
  | none => 0
  | some p => ((List.range (layerMarks s layer).length).filter (fun k => k % hs.length == p)).length

/-- The expert that a reduction's entries belong to, if they are an expert's. -/
def bindingOf (s : State) (l : Layout) : Option Binding :=
  (openPlan s).bind (fun p => p.bindings.find? (fun b => b.mine && b.entries.any (fun i => decide (loFirst l ≤ i) && decide (i < loFirst l + loEntries l))))

/-! ### Closing (09 R255 to R259) -/

def boolBytes (bs : List Bool) : List Byte := (pieces 8 bs).map (fun g => BitVec.ofNat 8 (natOfBits g))
def bitmapBytes (bs : List Bool) : List Byte := let b := boolBytes bs; fit (64 * cdiv b.length 64) 0 b

def crStep (c : CloseRec) : Nat := fld c.head 448 64
def crRed (c : CloseRec) : Nat := fld c.head 416 32
def crCount (c : CloseRec) : Nat := fld c.head 288 0x20
def crCarriedIn (c : CloseRec) : Nat := fld c.head 352 16
def crBy (c : CloseRec) : Nat := fld c.head 350 2
def crSeal (c : CloseRec) : W32 := crc32 ((recBytes c.head).drop 4 ++ bitmapBytes c.counted ++ bitmapBytes c.carried)

/-- The close record of what is in (09 R259, R265). -/
def closeOf (l : Layout) (r : Red) (cause : Nat) : CloseRec :=
  let n := loN l
  let own := (List.range n).map (fun i => (tfind? r.notices i).filter (fun x => nCause x == 0))
  let car := (List.range n).map (fun i => tfind? r.carriedNotices i)
  let counts := (own ++ car).filterMap (fun x => x.map nCount)
  let counted := (own.filter (·.isSome)).length
  let carriedIn := (car.filter (·.isSome)).length
  let sloc := (redTotal n (own.map (fun x => x.map nNorm)) (car.map (fun x => x.map nNorm))).getD 0
  let head : BitVec 512 := mkRec 512 [(448, 64, r.step.toNat), (416, 32, r.id.toNat), (400, 16, n), (384, 16, counted),
    (368, 16, n - r.notices.length), (352, 16, carriedIn), (350, 2, cause), (288, 32, sumNat counts),
    (256, 32, sloc.toNat), (192, 64, sumNat (counts.map (fun c => c * c)))]
  let c : CloseRec := { head := head, counted := own.map (·.isSome), carried := car.map (·.isSome) }
  { c with head := putFld head 0 32 (crSeal c).toNat }

/-! ### Results (09 R261 to R264) -/

/-- Where the reduced elements of an entry go: the fresh gradient version of the step, opened now where Porter has not
opened it (a stack-resident tensor). -/
def freshGradient (step : Nat) (e : BitVec 512) (s : State) : State :=
  let id := peGradRoom e
  match roomAt s id with
  | some r => if r.fresh == 0 then
      match openVer r 1 (BitVec.ofNat 64 step) with
      | some r' => putOpened id r' s
      | none => s
    else s
  | none => s

def gradReady (s : State) (step : Nat) (e : BitVec 512) : Bool :=
  match roomAt s (peGradRoom e) with
  | some r => r.fresh != 0 && r.freshStep.toNat == step
  | none => false

/-- A gradient version head (08 Table 8-7). -/
def gradHead (step count tensor fmt : Nat) (skip carried : Bool) : BitVec 256 :=
  recSeal (mkRec 256 [(192, 64, step), (160, 32, count), (128, 32, tensor), (124, 4, fmt), (123, 1, skip.toNat),
    (122, 1, carried.toNat)])

def elemBytes (fmt : Nat) (v : W32) : List Byte := if fmt == 1 then bytesLE 2 (v.toNat / 65536) else bytesLE 4 v.toNat

/-- Write one entry's gradient version, its elements at byte 256, and commit it. A Cellar-resident version stays pinned
until it is applied (08 R235). -/
def putGradient (step fmt count : Nat) (skip carried : Bool) (e : BitVec 512) (vs : List W32) (s : State) : State :=
  let id := peGradRoom e
  match roomAt s id with
  | none => s
  | some r =>
    let a := r.base.toNat + freshBase r
    let s := wr (a + 256) (vs.flatMap (elemBytes fmt)) s
    let s := wr a (recBytes (gradHead step count (peTensor e) fmt skip carried)) s
    let s := writerDone id (updRoom id (fun r => { r with active := r.active + 1 }) s)
    if peResident e then pinRoom id r.fresh.toNat s else s

def putGradients (step fmt count : Nat) (skip carried : Bool) : List (BitVec 512 × Nat) → List W32 → State → State
  | [], _, s => s
  | e :: es, vs, s =>
    putGradients step fmt count skip carried es (vs.drop (peElems e.1))
      (putGradient step fmt count skip carried e.1 (vs.take (peElems e.1)) s)

/-- The committed version of a step that a gradient room holds, by its slot. -/
def gradVersion (s : State) (e : BitVec 512) (step : Nat) : Option Nat :=
  (roomAt s (peGradRoom e)).bind (fun r =>
    ((List.range r.slots).find? (fun k => r.slotVer.getD k 0 != 0 && !(r.fresh != 0 && r.freshSlot == k) &&
      (r.slotStep.getD k 0).toNat == step)).map (fun k => r.base.toNat + k * slotBytes r))

/-- SKIP is set in every gradient version of the step, and each HEAD_CRC rewritten (09 R264). -/
def skipAll (step : Nat) (s : State) : State :=
  forEach (stepParams s) (fun e s =>
    if peFrozen e.1 then s
    else match gradVersion s e.1 step with
      | some a => wr a (recBytes (recSeal (putFld (BitVec.ofNat 256 (rdNat s a 32)) 123 1 1))) s
      | none => s) s

/-- The module's pins on the local gradients of a reduction are released: under CARRY those of the step before
(09 R254). -/
def releaseLocals (l : Layout) (step : Nat) (s : State) : State :=
  let drop (t : Nat) (s : State) : State :=
    let ps := (redAt s (loRed l) t).pins
    if (redFind s (loRed l) t).isNone then s
    else updRed (loRed l) t (fun r => { r with pins := [] }) (forEach ps (fun p s => unpinRoom p.1.toNat p.2.toNat s) s)
  if loCarry l then drop (step - 1) s else drop (step - 1) (drop step s)

/-- Every tensor of the group holds a committed gradient version of the step (09 R246). -/
def groupReady (s : State) (u : Nat) (es : List (BitVec 512 × Nat)) : Bool := es.all (fun e => (gradVersion s e.1 u).isSome)

def groupsOf (es : List (BitVec 512 × Nat)) : List Nat := es.foldl (fun l e => addNew l (peGroup e.1)) []

/-- Trained tensors of the open step whose optimiser state lies in the stack tier. -/
def stackEntries (s : State) : List (BitVec 512 × Nat) := (stepParams s).filter (fun e => !peFrozen e.1 && !peResident e.1)

/-- Watch groups that have become ready take their place in the order (09 R246). -/
def noteReady (u : W64) (s : State) : State :=
  let es := stackEntries s
  let new := (groupsOf es).filter (fun g => !s.params.readyGroups.contains (u, g) && groupReady s u.toNat (es.filter (fun e => peGroup e.1 == g)))
  if new.isEmpty then s else { s with params := { s.params with readyGroups := s.params.readyGroups ++ new.map (fun g => (u, g)) } }

/-- The result of a reduction is committed once its close record and every result shard are in. -/
def settleResult (l : Layout) (step : Nat) (s : State) : State :=
  let id := loRed l
  let r := redAt s id step
  match r.close with
  | none => s
  | some c =>
    let total := redElems s l
    let nsh := cdiv total (shardElems l)
    let got := (List.range nsh).filterMap (fun k => r.results.find? (fun x => x.1 == k))
    let zero := crCount c == 0
    if r.committed || !isOpenStep s step || (got.length < nsh && !zero) then s
    else if id == verdictRed then
      let v := !zero && got.any (fun x => x.2.1.any (· != 0))
      let s := updRed id step (fun r => { r with committed := true }) s
      let s := { s with steps := { s.steps with verdict := some v, record := { s.steps.record with verdict := v } } }
      if v then raise 0x5303 data linkDie [a8 step] (skipAll step s) else s
    else
      let es := coveredEntries s l
      let s1 := forEach es (fun e s => freshGradient step e.1 s) s
      if !es.all (fun e => gradReady s1 step e.1) then s
      else
        let vs := if zero then List.replicate total 0 else got.flatMap (fun x => x.2.1)
        let bad := vs.any nonFinite32
        let skip := zero || bad
        let sg := if zero then 0 else (addTotals (got.map (fun x => (x.2.2, (0 : Flags))))).1
        let s2 := noteReady (BitVec.ofNat 64 step) (putGradients step (loOfmt l) (crCount c) skip (decide (0 < crCarriedIn c)) es vs s1)
        let s3 := updRed id step (fun r => { r with committed := true, skip := skip }) s2
        let s4 := setLedgerRed id (fun e => { e with sglob := sg, skip := skip }) s3
        let s5 := if skip then { s4 with steps := { s4.steps with record := { s4.steps.record with skipped := s4.steps.record.skipped + 1 } } } else s4
        let s6 := if bad then redEvent 0x5302 id step [] s5 else s5
        releaseLocals l step s6

/-- Reductions whose results wait for a free gradient slot are tried again. -/
def settleResults (s : State) : State :=
  match s.steps.job with
  | none => s
  | some j => forEach (s.red.open_.filter (fun r => r.step == j.step && !r.committed)) (fun r s =>
      match layoutFor s r.id.toNat j.step.toNat with
      | some l => settleResult l j.step.toNat s
      | none => s) s

/-- A result shard at a member. -/
def resultAt (l : Layout) (step k : Nat) (vs : List W32) (sg : W32) (s : State) : State :=
  settleResult l step (updRed (loRed l) step (fun r =>
    if r.results.any (fun x => x.1 == k) then r else { r with results := r.results ++ [(k, vs, sg)] }) s)

/-! ### The root of a shard instance (09 R260 to R262; log 35) -/

def shardOf (r : Red) (idx : Nat) (carried : Bool) (k : Nat) : Option Shard :=
  r.shards.find? (fun x => x.idx == idx && x.carried == carried && x.number == k)

/-- Every counted contribution's shard k is here. -/
def shardsIn (c : CloseRec) (r : Red) (k : Nat) : Bool :=
  (List.range c.counted.length).all (fun i => !c.counted.getD i false || (shardOf r i false k).isSome) &&
  (List.range c.carried.length).all (fun i => !c.carried.getD i false || (shardOf r i true k).isSome)

/-- Result elements of a shard, and its part of S_GLOB. -/
def combine (l : Layout) (c : CloseRec) (r : Red) (k : Nat) : List W32 × W32 :=
  let n := loN l
  let leaf (carried : Bool) (counted : List Bool) (i : Nat) : Option (Array W32) :=
    if counted.getD i false then (shardOf r i carried k).map (fun x => x.values.toArray) else none
  let own := (List.range n).map (leaf false c.counted)
  let car := (List.range n).map (leaf true c.carried)
  let len := listMax ((own ++ car).map (fun x => (x.map (fun a => a.size)).getD 0))
  let totals := (List.range len).map (fun j =>
    (redTotal n (own.map (fun x => x.map (fun a => a.getD j 0))) (car.map (fun x => x.map (fun a => a.getD j 0)))).getD 0)
  if loRed l == verdictRed then
    ([if (own ++ car).any (fun x => (x.map (fun a => a.getD 0 0 != 0)).getD false) then one32 else 0], 0)
  else
    let d := fpOfNat (crCount c)
    (totals.map (fun t => let q := (fdiv t d).1; if loOfmt l == 1 then (toBf16 (q, 0)).1 else q), normOf totals)

/-- A shard instance whose counted shards are all here forms its result and sends it to every member. -/
def trySettleShard (l : Layout) (step k : Nat) (s : State) : State :=
  let r := redAt s (loRed l) step
  match r.close with
  | none => s
  | some c =>
    if crCount c == 0 || !shardsIn c r k || r.results.any (fun x => x.1 == k) then s
    else
      let (vs, sg) := combine l c r k
      let s := if 1 < loN l then emit (.result r.id r.step k vs sg) s else s
      resultAt l step k vs sg s

/-- Contributor `idx` is late under DROP: the layout's rule, or the fabric manager closed the reduction and has removed it
(09 R256, R257). -/
def lateDrops (s : State) (l : Layout) (c : CloseRec) (idx : Nat) : Bool :=
  !loCarry l || (crBy c == 2 && !s.fab.members.any (fun m => m.id == loMember l idx))

/-- A shard at a node (09 R254, R262). -/
def shardReceive (step red idx : Nat) (carried : Bool) (k : Nat) (vs : List W32) (s : State) : State :=
  let t := if carried then step + 1 else step
  let discard := redEvent 0x4504 red step [a2 idx]
  match layoutFor s red t with
  | none => discard s
  | some l =>
    let r := redAt s red t
    match shardOf r idx carried k with
    | some x => if x.values == vs then s else discard s
    | none => match r.close with
      | none => if redClosed s red t then (if loCarry l && !carried then s else discard s)
        else updRed red t (fun r => { r with shards := r.shards ++ [⟨idx, carried, k, vs⟩] }) s
      | some c =>
        if (if carried then c.carried else c.counted).getD idx false then
          trySettleShard l t k (updRed red t (fun r => { r with shards := r.shards ++ [⟨idx, carried, k, vs⟩] }) s)
        else if !carried && !lateDrops s l c idx then s
        else discard s

/-! ### A close record at a member (09 R256, R259) -/

/-- The Ledger entry of a closed reduction (09 Table 9-6). -/
def redEntry (r : Red) (c : CloseRec) : LedgerRed :=
  { red := r.id, count := BitVec.ofNat 32 (crCount c), sloc := bits c.head 256 32, sglob := 0,
    sumc2 := bits c.head 192 64, counted := bits c.head 384 16, lateN := bits c.head 368 16,
    carriedIn := bits c.head 352 16, closeBy := bits c.head 350 2,
    ownCause := ((r.own.map (fun n => BitVec.ofNat 2 (nCause n))).getD 0), skip := false, ownLate := false }

/-- Entries of reductions of a step that closed before it opened here, in the order in which they closed (09 R266). -/
def closedBefore (s : State) (step : Nat) : List LedgerRed :=
  s.red.closeRing.reverse.filterMap (fun c => (s.red.open_.find? (fun r => r.step.toNat == step && r.close == some c)).map (fun r => redEntry r c))

def closeSize (c : CloseRec) : Nat := 64 + (bitmapBytes c.counted).length + (bitmapBytes c.carried).length

/-- The newest records that fit the close ring (09 R259). -/
def closeKeep : Nat → List CloseRec → List CloseRec
  | _, [] => []
  | room, c :: cs => if closeSize c ≤ room then c :: closeKeep (room - closeSize c) cs else []

/-- This module's own contribution was not in at the close. It is carried where it holds values (log 34). -/
def noteLate (l : Layout) (step : Nat) (drops : Bool) (s : State) : State :=
  let r := redAt s (loRed l) step
  let s := updRed (loRed l) step (fun r => { r with ownLate := true }) s
  let s := setLedgerRed (loRed l) (fun e => { e with ownLate := true }) s
  let s := { s with steps := { s.steps with record := { s.steps.record with sentLate := s.steps.record.sentLate + 1 } } }
  match r.own with
  | some n =>
    if !drops && nCause n == 0 then
      { s with
        red := { s.red with carry := s.red.carry ++ [(r.id, n, r.pins)] }
        steps := { s.steps with record := { s.steps.record with carryOut := true } } }
    else s
  | none => s

/-- A member records the close, writes it into its close ring, and combines what waited for it. -/
def closeAt (l : Layout) (c : CloseRec) (s : State) : State :=
  let id := loRed l
  let step := crStep c
  let r := redAt s id step
  if r.close.isSome then s
  else
    let s := updRed id step (fun r => { r with close := some c }) s
    let s := { s with red := { s.red with closeRing := closeKeep 0x1000000 (c :: s.red.closeRing), closeNext := s.red.closeNext + 1 } }
    let e := redEntry r c
    let s := if isOpenStep s step then
        { s with steps := { s.steps with record := { s.steps.record with reds := s.steps.record.reds ++ [e] } } }
      else s
    -- an own notice of CAUSE 0b00 that is not counted came after the close
    let late := match r.own with
      | some n => nCause n == 0 && !c.counted.getD (loMine l) false
      | none => false
    let s := if late then noteLate l step (lateDrops s l c (loMine l)) s else s
    let s := forEach ((r.shards.map (fun x => x.number)).foldl addNew []) (fun k s => trySettleShard l step k s) s
    settleResult l step s

def closeRecordReceive (head : BitVec 512) (counted carried : List Bool) (s : State) : State :=
  let c : CloseRec := { head := head, counted := counted, carried := carried }
  if crSeal c != bits head 0 32 then s
  else match layoutFor s (crRed c) (crStep c) with
    | none => s
    | some l => closeAt l c s

/-- The coordinator closes a reduction and sends the close record to every member (09 R259). -/
def closeNow (l : Layout) (step cause : Nat) (s : State) : State :=
  let r := redAt s (loRed l) step
  let c := closeOf l r cause
  let others := (l.members.take (loN l)).filter (· != s.fab.moduleId)
  let s := forEach others (fun m s => emit (.closeRec m c) s) s
  let late := loN l - r.notices.length
  let s := if cause != 2 && late != 0 then redEvent 0x4501 (loRed l) step [a2 late] s else s
  closeAt l c s

/-- The conditions of 09 R255. -/
def tryClose (l : Layout) (step : Nat) (s : State) : State :=
  let r := redAt s (loRed l) step
  if r.close.isSome then s
  else if r.notices.length == loN l then closeNow l step 0 s
  else if loBudget l != 0 && r.budgetOut && loQ l ≤ r.notices.length then closeNow l step 1 s
  else s

/-- Reductions of this coordinator that name a removed member close (09 R257). -/
def closeByManager (removed : List W16) (s : State) : State :=
  match s.steps.job with
  | none => s
  | some j => forEach (s.red.layouts.filter (fun l =>
      coordinates s l && (l.members.take (loN l)).any (fun m => removed.contains m))) (fun l s =>
        if layoutFor s (loRed l) j.step.toNat == some l && !redClosed s (loRed l) j.step.toNat then closeNow l j.step.toNat 2 s else s) s

/-! ### Notices at the coordinator (09 R254 to R258) -/

def noticeReceive (n : BitVec 512) (s : State) : State :=
  let red := nRed n
  let step := nStep n
  let idx := nIdx n
  let discard := redEvent 0x4504 red step [a2 idx]
  if !recCrcOk n || nCause n == 3 then s
  else if nCarried n then
    let t := step + 1
    match layoutFor s red t with
    | none => discard s
    | some l =>
      if !coordinates s l || loN l ≤ idx then s
      else match tfind? (redAt s red t).carriedNotices idx with
        | some m => if m == n then s else discard s
        | none =>
          if redClosed s red t then redEvent 0x4503 red step [a2 idx] s
          else updRed red t (fun r => { r with carriedNotices := tset r.carriedNotices idx n }) s
  else
    match layoutFor s red step with
    | none => discard s
    | some l =>
      if !coordinates s l || loN l ≤ idx then s
      else match tfind? (redAt s red step).notices idx with
        | some m => if m == n then s else discard s
        | none =>
          if redClosed s red step then
            if lateDrops s l (((redAt s red step).close).getD ⟨0, [], []⟩) idx then discard s else s
          else tryClose l step (updRed red step (fun r => { r with notices := tset r.notices idx n, started := true }) s)

/-- The wait budget of a reduction runs out at the coordinator (09 R255, R258). -/
def reductionBudgetExpiry (red step : Nat) (s : State) : State :=
  match layoutFor s red step, redFind s red step with
  | some l, some r =>
    if !coordinates s l || loBudget l == 0 || !r.started || r.budgetOut || r.close.isSome then s
    else
      let s := updRed red step (fun r => { r with budgetOut := true }) s
      if loQ l ≤ r.notices.length then tryClose l step s
      else redEvent 0x4502 red step [a2 r.notices.length] s
  | _, _ => s

/-! ### The module's own notice (09 R250 to R256, 10 R281, R282) -/

/-- Counts of notices sent (09 Table 9-5). -/
def noteSent (cause : Nat) (s : State) : State :=
  let r := s.steps.record
  let r := { r with
    sent := r.sent + 1
    sentPoisoned := if cause == 1 then r.sentPoisoned + 1 else r.sentPoisoned
    sentLost := if cause == 2 then r.sentLost + 1 else r.sentLost }
  { s with steps := { s.steps with record := r } }

/-- Send a notice to the coordinator, which may be this module, and count it (09 Table 9-5). -/
def sendNotice (l : Layout) (n : BitVec 512) (s : State) : State :=
  let s := noteSent (nCause n) s
  if coordinates s l then noticeReceive n s else emit (.notice (loMember l (loCoord l)) n) s

/-- Send the shards of a contribution; this module's own nodes take them too (log 35). -/
def sendShards (l : Layout) (step : Nat) (carried : Bool) (vs : List W32) (s : State) : State :=
  forEach ((pieces (shardElems l) vs).zipIdx) (fun p s =>
    let s := if 1 < loN l then
        emit (.shard (BitVec.ofNat 32 (loRed l)) (BitVec.ofNat 64 step) ⟨loMine l, carried, p.2, p.1⟩) s else s
    let here := match (redAt s (loRed l) (if carried then step + 1 else step)).close with
      | some c => (if carried then c.carried else c.counted).getD (loMine l) false
      | none => !redClosed s (loRed l) (if carried then step + 1 else step)
    if here then shardReceive step (loRed l) (loMine l) carried p.2 p.1 s else s) s

/-- The values of a contribution whose local versions are pinned. -/
def pinnedValues (s : State) (l : Layout) (pins : List (W16 × W16)) : List W32 :=
  match openPlan s with
  | none => []
  | some p => (coveredEntries s l).flatMap (fun e => match localOf p e.2 with
      | none => []
      | some (room, _) =>
        (localValues s p e.1 e.2 ((pins.find? (fun x => x.1.toNat == room)).map (fun x => x.2.toNat))).map (toCfmt l))

/-- A contribution carried from the step before is sent first, once (09 R256). -/
def sendCarried (l : Layout) (step : Nat) (s : State) : State :=
  match s.red.carry.find? (fun c => c.1.toNat == loRed l && nStep c.2.1 + 1 == step) with
  | none => s
  | some c =>
    let s := { s with red := { s.red with carry := s.red.carry.filter (fun x => !(x == c)) } }
    let n := recSeal (putFld (putFld c.2.1 349 1 1) 400 16 (loMine l))
    let vs := pinnedValues s l c.2.2
    sendShards l (nStep n) true vs (sendNotice l n s)

/-- Every reduction of the plan that this module belongs to has committed (09 R264). -/
def allCommitted (s : State) (p : Plan) (step : Nat) : Bool :=
  p.reductions.all (fun id => (layoutFor s id.toNat step).isNone || (redAt s id.toNat step).committed)

def anySkip (s : State) (p : Plan) (step : Nat) : Bool := p.reductions.any (fun id => (redAt s id.toNat step).skip)

/-- The values, COUNT and CAUSE of a contribution, and whether the expert served tokens though no mark was charged. -/
def contribution (s : State) (p : Plan) (l : Layout) (step : Nat) : List W32 × Nat × Nat × Option (Nat × Nat) :=
  let vs := if loRed l == verdictRed then [if anySkip s p step then one32 else 0]
    else pinnedValues s l []
  if s.steps.workLost then ([], 0, 2, none)
  else if s.steps.nonFinite || vs.any isInf32 then ([], 0, 1, none)
  else if loRed l == verdictRed then (vs, 1, 0, none)
  else match bindingOf s l with
    | some b =>
      let c := chargedTo s b.layer b.expert
      if c == 0 then ([], 0, 2, if servedTokens s b.layer b.expert then some (b.layer, b.expert) else none)
      else (vs, c, 0, none)
    | none => (vs, p.microBatches, 0, none)

/-- The module's reduce engine sends its notice of a reduction of the open step, then its shards. -/
def noticeSend (red : Nat) (s : State) : State :=
  match s.steps.job, openPlan s with
  | some j, some p =>
    let step := j.step.toNat
    match layoutFor s red step with
    | none => s
    | some l =>
      let ready := if red == verdictRed then loStep l && allCommitted s p step
        else p.reductions.any (fun x => x.toNat == red) && (s.steps.workLost || localsReady s l)
      if !ready || (redAt s red step).own.isSome || !domainRuns s linkDie then s
      else
        let s := sendCarried l step s
        let (vs, count, cause, served) := contribution s p l step
        -- from a poisoned notice on, every later notice of the step is poisoned (09 R252)
        let s := if cause == 1 then { s with steps := { s.steps with nonFinite := true } } else s
        let s := if cause == 1 then redEvent 0x5301 red step [] s else s
        let s := match served with
          | some (a, b) => raise 0x4604 data linkDie [a8 step, a2 a, a2 b] s
          | none => s
        let norm := if cause == 0 then normOfShards l vs else 0
        let n := noticeOf step red (loMine l) count cause false norm
        let pins := if red == verdictRed then [] else localVersions s l
        let s := forEach pins (fun v s => pinRoom v.1.toNat v.2.toNat s) s
        let closed := redClosed s red step
        let s := updRed red step (fun r => { r with own := some n, pins := pins }) s
        let s := setLedgerRed red (fun e => { e with ownCause := BitVec.ofNat 2 cause }) s
        let s := sendNotice l n s
        let s := if cause == 0 then sendShards l step false vs s else s
        let s := if closed then noteLate l step (lateDrops s l (((redAt s red step).close).getD ⟨0, [], []⟩) (loMine l)) s else s
        if (redAt s red step).committed then releaseLocals l step s else s
  | _, _ => s

/-! ### Rows -/

def execNoticeSend (red : W32) (s : State) : Host.Outcome State Fault Refusal := .next (noticeSend red.toNat s)
def execNoticeReceive (note : BitVec 512) (s : State) : Host.Outcome State Fault Refusal := .next (noticeReceive note s)
def execReductionBudgetExpiry (red : W32) (step : W64) (s : State) : Host.Outcome State Fault Refusal :=
  .next (reductionBudgetExpiry red.toNat step.toNat s)
def execCloseRecordReceive (head : BitVec 512) (counted carried : List Bool) (s : State) : Host.Outcome State Fault Refusal :=
  .next (closeRecordReceive head counted carried s)
def execShardReceive (step : W64) (red : W32) (idx : W16) (carried : Bool) (shard : Nat) (values : List W32) (s : State) :
    Host.Outcome State Fault Refusal := .next (shardReceive step.toNat red.toNat idx.toNat carried shard values s)

/-- A result shard of a known reduction; one of a step not yet open here waits for it (09 R262). -/
def resultReceive (step red k : Nat) (vs : List W32) (sg : W32) (s : State) : State :=
  match layoutFor s red step with
  | none => s
  | some l =>
    if (redAt s red step).committed || ((redFind s red step).isNone && redClosed s red step) then s else resultAt l step k vs sg s

def execResultReceive (step : W64) (red : W32) (shard : Nat) (values : List W32) (sglob : W32) (s : State) :
    Host.Outcome State Fault Refusal := .next (resultReceive step.toNat red.toNat shard values sglob s)

end Sys2Proof.Machine
end

