-- ==== Sys2Proof/Machine/Links.lean ====
section
/-! DEFINITION. Fabric ports, planes and packet tags: what the exchange and the window both stand on (11 R291 to R299). -/

namespace Sys2Proof.Machine

/-! ### Lanes and ports (11 R291, R293) -/

def laneState (s : State) (l : Nat) : LaneState := tget s.fab.lanes l .out
def setLane (l : Nat) (v : LaneState) (s : State) : State := { s with fab := { s.fab with lanes := tset s.fab.lanes l v } }
def portWidth (s : State) (p : Nat) : Nat := ((List.range 4).filter (fun i => laneState s (4 * p + i) == .inService)).length
def portUp (s : State) (p : Nat) : Bool := tget s.fab.up p false
def portDie (p : Nat) : Nat := linkDie + p / 9

/-! ### The window (11 R294, R299) -/

def windowBase : Nat := 0x1000000000000
def inWindow (a : Nat) : Bool := regionOf a == .window
def segOf (a : Nat) : Nat := (a - windowBase) / 2 ^ 29
def segOff (a : Nat) : Nat := (a - windowBase) % 2 ^ 29
def rackOf (a : Nat) : Nat := segOf a / 512

/-- A port that can carry traffic: up, its LINK die running. -/
def planeUsable (s : State) (p : Nat) : Bool := portUp s p && domainRuns s (portDie p)

def memberMask (s : State) (id : Nat) : Nat := ((s.fab.members.find? (fun m => m.id.toNat == id)).map (fun m => m.planes.toNat)).getD 0

/-- The plane of an address while every plane is up. -/
def homePlane (a : Nat) : Nat := a / 128 % 36

/-- Planes from an address's own upward, wrapping. -/
def planesFrom (a : Nat) : List Nat := (List.range 36).map (fun i => (homePlane a + i) % 36)

/-- Plane of an address: its own, or the next above that is up at both ends; 36 where there is none. -/
def planeFor (s : State) (a id : Nat) : Nat := ((planesFrom a).find? (fun q => planeUsable s q && (memberMask s id).testBit q)).getD 36

/-- New requests to a line that mapped to a plane gone down are held while requests are outstanding on that plane. -/
def lineHeld (s : State) (a id : Nat) : Bool :=
  s.fab.draining.any (fun p => (planesFrom a).find? (fun q => (q == p || planeUsable s q) && (memberMask s id).testBit q) == some p)

/-- Planes that a message travels on: all that are up at both ends; outside the domain those up here. -/
def messagePlanes (s : State) (id : Nat) : List Nat :=
  let known := s.fab.members.any (fun m => m.id.toNat == id)
  (List.range 36).filter (fun q => planeUsable s q && (!known || (memberMask s id).testBit q))

/-- The LINK die that owns a plane's lines: that of the plane, or of the next above that is up here (DESIGN CHOICE, log 145). -/
def planeDie (s : State) (p : Nat) : Option Nat := ((planesFrom (128 * p)).find? (planeUsable s)).map portDie

/-- The tag that this module's packets carry (11 R297, R309). -/
def ownTag (s : State) : PacketTag :=
  { domain := s.fab.domain.getD 0xFFFF, epoch := s.fab.epoch, rack := ⟨s.power.slotId.toNat % 128, Nat.mod_lt _ (by decide)⟩ }

/-- A packet of the module's own domain and epoch, from a member (11 R302 check 5). -/
def tagGood (s : State) (g : PacketTag) : Bool :=
  s.fab.domain == some g.domain && s.fab.epoch == g.epoch && s.fab.members.any (fun m => m.rack.toNat == g.rack.val)

/-- Module id of the member with a rack index. -/
def moduleOfRack (s : State) (r : Nat) : Nat := ((s.fab.members.find? (fun m => m.rack.toNat == r)).map (fun m => m.id.toNat)).getD 0xFFFF

end Sys2Proof.Machine
end

