-- ==== Sys2Proof/Machine/Exchange.lean ====
section
/-! DEFINITION. The exchange of tokens: routers, marks, bundles, rounds and returns (10 R272 to R289). -/

namespace Sys2Proof.Machine

/-! ### Headers (10 Table 10-2) -/

def xStep (h : BitVec 512) : Nat := fld h 448 64
def xSrc (h : BitVec 512) : W16 := bits h 432 16
def xDst (h : BitVec 512) : W16 := bits h 416 16
def xMb (h : BitVec 512) : Nat := fld h 408 8
def xLayer (h : BitVec 512) : Nat := fld h 400 8
def xExpert (h : BitVec 512) : Nat := fld h 391 9
def xBack (h : BitVec 512) : Bool := fld h 390 1 == 1
def xKind (h : BitVec 512) : Nat := fld h 388 2
def xVer (h : BitVec 512) : Nat := fld h 368 16
def xNtok (h : BitVec 512) : Nat := fld h 352 16
def xStatus (h : BitVec 512) : Nat := fld h 344 8
def xFmt (h : BitVec 512) : Nat := fld h 384 4
def xLost (h : BitVec 512) : Bool := fld h 343 1 == 1

/-- The index list as it is sent, padded to 64 bytes. -/
def indexBytes (toks : List W32) : List Byte :=
  let b := toks.flatMap (fun t => bytesLE 4 t.toNat)
  fit (64 * cdiv b.length 64) 0 b

def xCrc (h : BitVec 512) (toks : List W32) : W32 := crc32 ((recBytes h).drop 4 ++ indexBytes toks)
def xSeal (h : BitVec 512) (toks : List W32) : BitVec 512 := putFld h 0 32 (xCrc h toks).toNat

/-- A header: step, source, receiver, micro-batch, layer, expert, direction, kind, format, version, NTOK, LOST, TSCALE. -/
structure XHead where
  step : W64
  src : W16
  dst : W16
  mb : Nat
  layer : Nat
  expert : Nat := 0
  backward : Bool
  kind : Nat
  fmt : Nat := 0
  ver : Nat := 0
  ntok : Nat
  lost : Bool := false
  tscale : W32 := 0x3F800000
  deriving DecidableEq, Repr

def xHead (x : XHead) (toks : List W32) : BitVec 512 :=
  xSeal (mkRec 512 [(448, 64, x.step.toNat), (432, 16, x.src.toNat), (416, 16, x.dst.toNat), (408, 8, x.mb), (400, 8, x.layer),
    (391, 9, x.expert), (390, 1, x.backward.toNat), (388, 2, x.kind), (384, 4, x.fmt), (368, 16, x.ver), (352, 16, x.ntok),
    (343, 1, x.lost.toNat), (288, 32, x.tscale.toNat)]) toks

/-! ### EPT entries (10 Table 10-1) -/

def entVer (e : BitVec 128) : Nat := fld e 112 16
def entClass (e : BitVec 128) : Nat := fld e 108 4
def entValid (e : BitVec 128) : Bool := fld e 107 1 == 1
def entDisabled (e : BitVec 128) : Bool := fld e 106 1 == 1
def entWeights (e : BitVec 128) : List Nat := (List.range 4).map (weightAt e)

/-- Share of slot h (10 R272): none where CAP has no limit. -/
def shareOf (cap : Nat) (e : BitVec 128) (h : Nat) : Option Nat :=
  if cap == 0xFFFF then none else some (cdiv (cap * weightAt e h) (sumNat (entWeights e)))

/-! ### Smooth weighted round-robin (10 R274) -/

/-- One expert's state in a dispatch. -/
structure Rr where
  cur : List Int
  used : List Nat
  deriving DecidableEq, Repr

def Rr.zero : Rr := { cur := [0, 0, 0, 0], used := [0, 0, 0, 0] }

/-- The slot of non-zero weight with the largest `cur`, ties to the lowest. -/
def bestSlot (w : List Nat) (cur : List Int) : Nat :=
  (List.range 4).foldl (fun b h =>
    if w.getD h 0 == 0 then b
    else if w.getD b 0 == 0 || decide (cur.getD b 0 < cur.getD h 0) then h else b) 0

/-- What becomes of one choice: the slot, and whether the capacity rule moved it; none when it is dropped. -/
def routeChoice (cap : Nat) (e : BitVec 128) (r : Rr) : Option (Nat × Bool) × Rr :=
  let w := entWeights e
  if entDisabled e || w.all (· == 0) then (none, r)
  else
    let cur := (r.cur.zip w).map (fun (c, x) => c + (x : Int))
    let h := bestSlot w cur
    let cur := lmod cur h (fun c => c - (sumNat w : Int))
    let full (k : Nat) : Bool := shareOf cap e k == some (r.used.getD k 0)
    let below (k : Nat) : Bool := match shareOf cap e k with
      | some n => decide (r.used.getD k 0 < n)
      | none => true
    let pick := if full h then
        (([h + 1, h + 2, h + 3].map (· % 4)).find? (fun k => w.getD k 0 != 0 && below k)).map (fun k => (k, true))
      else some (h, false)
    match pick with
    | some (k, moved) => (some (k, moved), { cur := cur, used := lmod r.used k (· + 1) })
    | none => (none, { r with cur := cur })

/-- One choice of a route list: token, place, expert and gate (10 R273). -/
structure Choice where
  token : Nat
  order : Nat
  expert : Nat
  gate : W32
  deriving DecidableEq, Repr

/-- The route list in memory. -/
def routeList (s : State) (at_ tokens topk : Nat) : List Choice :=
  (List.range (tokens * topk)).map (fun i =>
    let v := rdNat s (at_ + 8 * i) 8
    { token := i / topk, order := i % topk, expert := v / 2 ^ 55, gate := BitVec.ofNat 32 v })

/-- Counters and assignments as the walk goes on. -/
structure Walk where
  rrs : Table Rr
  moved : Nat
  dropped : Nat
  out : List Assign

def walkChoice (s : State) (p : Plan) (layer : Nat) (a : Walk) (c : Choice) : Walk :=
  let e := activeEntry s layer c.expert
  let cap := (p.capacity.getD (entClass e) 0xFFFF).toNat
  let (pick, r) := routeChoice cap e (tget a.rrs c.expert Rr.zero)
  let rrs := tset a.rrs c.expert r
  match pick with
  | some (h, mv) => {
      rrs := rrs, moved := a.moved + mv.toNat, dropped := a.dropped,
      out := a.out ++ [⟨c.token, c.order, c.expert, c.gate, some (BitVec.ofNat 16 (holderAt e h), BitVec.ofNat 16 (entVer e)), none⟩] }
  | none => {
      rrs := rrs, moved := a.moved, dropped := a.dropped + 1,
      out := a.out ++ [⟨c.token, c.order, c.expert, c.gate, none, none⟩] }

/-! ### Rounds at a holder (10 R278) -/

def sameRound (r : Round) (step layer mb : Nat) (backward : Bool) : Bool :=
  r.step.toNat == step && r.layer == layer && r.mb == mb && r.backward == backward

def roundAt (s : State) (step layer mb : Nat) (backward : Bool) : Option Round :=
  s.exch.rounds.find? (fun r => sameRound r step layer mb backward)

/-- Change a round's record, which is made where there is none. -/
def updRound (step layer mb : Nat) (backward : Bool) (f : Round → Round) (s : State) : State :=
  if (roundAt s step layer mb backward).isSome then
    { s with exch := { s.exch with rounds := s.exch.rounds.map (fun r => if sameRound r step layer mb backward then f r else r) } }
  else
    { s with exch := { s.exch with rounds := s.exch.rounds ++ [f {
      step := BitVec.ofNat 64 step, layer := layer, mb := mb,
      backward := backward, marks := [], bundles := [], unserved := [], started := false, gathered := false, returned := [], raised := false }] } }

def groupMembers (s : State) : List W16 := s.exch.group.filterMap id

def missingMarks (s : State) (r : Round) : List W16 := (groupMembers s).filter (fun m => !r.marks.any (fun k => k.1 == m))

/-- Every member has sent its mark, and every bundle announced has arrived. -/
def roundComplete (s : State) (r : Round) : Bool :=
  (missingMarks s r).isEmpty &&
  r.marks.all (fun m => decide (m.2.1 ≤ (r.bundles.filter (fun b => b.src == m.1)).length + r.unserved.count m.1) || !(groupMembers s).contains m.1)

/-- The rows of a started round: by source group rank, then token index. -/
def orderBundles (s : State) (r : Round) : List Bundle :=
  sortBy (fun a b => ((s.exch.group.idxOf? (some a.src)).getD 128) ≤ ((s.exch.group.idxOf? (some b.src)).getD 128)) r.bundles

/-- The expert products of a complete round begin. -/
def settleRound (step layer mb : Nat) (backward : Bool) (s : State) : State :=
  match roundAt s step layer mb backward with
  | some r => if !r.started && roundComplete s r then
      updRound step layer mb backward (fun r => { r with started := true, bundles := orderBundles s r }) s else s
  | none => s

/-- The step has not passed its boundary on this module. -/
def stepAhead (s : State) (step : Nat) : Bool := !s.steps.anyBoundary || decide (s.steps.lastBoundary.toNat < step)

/-- A mark at a holder; a second one of the same source changes nothing. -/
def markReceive (h : BitVec 512) (s : State) : State :=
  let back := xBack h
  if xCrc h [] != bits h 0 32 || xKind h != 0 || xDst h != s.fab.moduleId || !stepAhead s (xStep h) then s
  else
    let have_ := match roundAt s (xStep h) (xLayer h) (xMb h) back with
      | some r => r.started || r.marks.any (fun m => m.1 == xSrc h)
      | none => false
    if have_ || !(groupMembers s).contains (xSrc h) then s
    else settleRound (xStep h) (xLayer h) (xMb h) back
      (updRound (xStep h) (xLayer h) (xMb h) back
        (fun r => { r with marks := r.marks ++ [(xSrc h, if xLost h then 0 else xNtok h, xLost h)] }) s)

/-- VERSIONs the module honours for an expert: of its active entry, and of its staged one once the stage has completed (10
R285, R287). -/
def honoured (s : State) (layer expert ver : Nat) : Bool :=
  ver == entVer (activeEntry s layer expert) ||
  s.exch.stageDone && (match tfind? s.exch.staged (eptIndex layer expert) with
    | some e => ver == entVer e
    | none => false)

/-- A return bundle for a source: the header of the bundle with its kind and status. -/
def returnHead (h : BitVec 512) (status : Nat) (toks : List W32) : BitVec 512 :=
  xSeal (putFld (putFld (putFld h 388 2 2) 344 8 status) 416 16 (xSrc h).toNat) toks

/-! ### Returns at a source (10 R275, R276) -/

def sameDispatch (d : DispatchList) (step layer mb : Nat) (backward : Bool) : Bool :=
  d.step.toNat == step && d.layer == layer && d.mb == mb && d.backward == backward

def dispatchAt (s : State) (step layer mb : Nat) (backward : Bool) : Option DispatchList :=
  s.exch.dispatches.find? (fun d => sameDispatch d step layer mb backward)

def updDispatch (step layer mb : Nat) (backward : Bool) (f : DispatchList → DispatchList) (s : State) : State :=
  { s with exch := { s.exch with dispatches := s.exch.dispatches.map (fun d => if sameDispatch d step layer mb backward then f d else d) } }

def Router.zero : Router := { choices := 0, moved := 0, dropCap := 0, dropLost := 0, dropVer := 0 }

def updRouter (layer : Nat) (f : Router → Router) (s : State) : State :=
  { s with exch := { s.exch with routers := tmod s.exch.routers layer Router.zero f } }

/-- One token's output: r ← RNE(r + RNE(g × y)) over its choices in order. -/
def combineRow (r : List W32) (c : Assign) : List W32 :=
  match c.holder, c.back with
  | some _, some y => (r.zip y).map (fun (a, b) => (fadd a (fmul c.gate b).1).1)
  | _, _ => r

def rowsFor (p : Plan) (layer mb : Nat) : Option TokenRows := p.tokenRows.find? (fun t => t.layer == layer && t.mb == mb)
def hidOf (p : Plan) (layer : Nat) : Nat := ((p.bindings.find? (fun b => b.layer == layer)).map (·.hid)).getD 0

/-- Bytes of a payload row (10 R277). -/
def rowBytes (fmt hid : Nat) : Nat := hid * fmtBits fmt / 8 + (if fmt == 3 || fmt == 4 then hid / 32 else 0)

/-- Elements of a returned row in FP32; BF16 is widened exactly (10 R276). -/
def rowValues (fmt : Nat) (bs : List Byte) : List W32 :=
  if fmt == 1 then (pieces 2 bs).map (fun b => BitVec.ofNat 32 (natLE b) <<< 16)
  else (pieces 4 bs).map (fun b => BitVec.ofNat 32 (natLE b))

/-- When every return of a forward dispatch is in, its tokens' outputs are combined into the residual buffer; a step
whose work is lost discards them (10 R280). -/
def settleDispatch (step layer mb : Nat) (backward : Bool) (s : State) : State :=
  match dispatchAt s step layer mb backward with
  | none => s
  | some d =>
    if d.combined || d.choices.any (fun c => c.holder.isSome && c.back.isNone) then s
    else
      let s := updDispatch step layer mb backward (fun d => { d with combined := true }) s
      match openPlan s with
      | none => s
      | some p => match rowsFor p layer mb with
        | none => s
        | some t =>
          if backward || s.steps.workLost then s
          else
            let hid := hidOf p layer
            let toks := d.choices.foldl (fun l c => addNew l c.token) []
            forEach toks (fun k s =>
              let at_ := t.residual.toNat + 4 * hid * k
              let r := (d.choices.filter (fun c => c.token == k)).foldl combineRow (words32 s at_ hid)
              wr at_ (r.flatMap (fun v => bytesLE 4 v.toNat)) s) s

/-- Choices of an expert and a token list are dropped: lost target (0) or unhonoured version (1). -/
def dropChoices (step layer mb : Nat) (backward : Bool) (which : Nat) (sel : Assign → Bool) (s : State) : State :=
  match dispatchAt s step layer mb backward with
  | none => s
  | some d =>
    let n := (d.choices.filter (fun c => c.holder.isSome && c.back.isNone && sel c)).length
    if n == 0 then s
    else
      let s := updDispatch step layer mb backward (fun d => { d with
        choices := d.choices.map (fun c => if c.holder.isSome && c.back.isNone && sel c then { c with holder := none } else c) }) s
      let s := updRouter layer (fun r => if which == 0 then { r with dropLost := r.dropLost + n } else { r with dropVer := r.dropVer + n }) s
      settleDispatch step layer mb backward s

/-- The bundles out to a lost target are dropped and not waited for (10 R284). -/
def dropTarget (id : W16) (s : State) : State :=
  forEach (s.exch.dispatches.filter (fun d => !d.combined)) (fun d s =>
    dropChoices d.step.toNat d.layer d.mb d.backward 0 (fun c => match c.holder with
      | some h => h.1 == id
      | none => false) s) s

/-- A return bundle at its source. -/
def returnBundleReceive (h : BitVec 512) (toks : List W32) (rows : List (List Byte)) (s : State) : State :=
  if xCrc h toks != bits h 0 32 || xKind h != 2 || xSrc h != s.fab.moduleId then s
  else
    let mine (c : Assign) : Bool := c.expert == xExpert h && toks.any (fun t => t.toNat == c.token) &&
      (match c.holder with
        | some (_, v) => v.toNat == xVer h
        | none => false)
    if xStatus h == stDone then
      settleDispatch (xStep h) (xLayer h) (xMb h) (xBack h)
        (updDispatch (xStep h) (xLayer h) (xMb h) (xBack h) (fun d => { d with
          choices := d.choices.map (fun c =>
            if mine c && c.back.isNone then { c with back := ((toks.zip rows).find? (fun x => x.1.toNat == c.token)).map (fun x => rowValues (xFmt h) x.2) } else c) }) s)
    else if xStatus h == stWrongState then dropChoices (xStep h) (xLayer h) (xMb h) (xBack h) 1 mine s
    else if xStatus h == stPeerLost then dropChoices (xStep h) (xLayer h) (xMb h) (xBack h) 0 mine s
    else s

/-- A bundle at a holder: gathered, or returned unserved with event 0x4602 (10 R278, R285). -/
def bundleReceive (h : BitVec 512) (toks : List W32) (rows : List (List Byte)) (s : State) : State :=
  if xCrc h toks != bits h 0 32 || xKind h != 1 || xDst h != s.fab.moduleId || !stepAhead s (xStep h) then s
  else
    let back := xBack h
    let put (f : Round → Round) (s : State) : State := settleRound (xStep h) (xLayer h) (xMb h) back (updRound (xStep h) (xLayer h) (xMb h) back f s)
    if !honoured s (xLayer h) (xExpert h) (xVer h) then
      let s := raise 0x4602 data linkDie [a2 (xSrc h).toNat, a2 (xLayer h), a2 (xExpert h), a2 (xVer h)] s
      let r := returnHead h stWrongState toks
      let s := if xSrc h == s.fab.moduleId then returnBundleReceive r toks [] s else emit (.exchange (ownTag s) r toks []) s
      put (fun r => { r with unserved := r.unserved ++ [xSrc h] }) s
    else
      let late := match roundAt s (xStep h) (xLayer h) (xMb h) back with
        | some r => r.started || r.bundles.any (fun b => b.src == xSrc h && b.expert == xExpert h)
        | none => false
      if late then s
      else put (fun r => { r with bundles := r.bundles ++ [⟨xSrc h, xExpert h, BitVec.ofNat 16 (xVer h), toks, rows⟩] }) s

/-- The holder has waited 2^24 LINK beats for marks: 0x4603 once for the round, naming the sources missing (10 R279). -/
def markWaitTimeout (step layer mb : Nat) (backward : Bool) (s : State) : State :=
  match roundAt s step layer mb backward with
  | some r =>
    let miss := missingMarks s r
    if r.raised || r.started || miss.isEmpty then s
    else raise 0x4603 data linkDie (a8 step :: a2 layer :: a2 mb :: aList 12 (miss.map (·.toNat)))
      (updRound step layer mb backward (fun r => { r with raised := true }) s)
  | none => s

/-! ### A dispatch at its source (10 R274 to R277, R280) -/

/-- A target that cannot be reached: PEER_LOST at once (11 R317). -/
def lostTarget (s : State) (id : W16) : Bool :=
  id != s.fab.moduleId && (s.fab.unreachable.contains id || !s.fab.members.any (fun m => m.id == id))

/-- Send an exchange packet; traffic to the module itself takes the same path through the Mere. -/
def sendExchange (h : BitVec 512) (toks : List W32) (rows : List (List Byte)) (s : State) : State :=
  if xDst h != s.fab.moduleId then emit (.exchange (ownTag s) h toks rows) s
  else if xKind h == 0 then markReceive h s
  else bundleReceive h toks rows s

/-- A mark; to a lost target it completes with PEER_LOST, and nothing is sent (10 R284). -/
def sendMark (h : BitVec 512) (s : State) : State := if lostTarget s (xDst h) then s else sendExchange h [] [] s

/-- A row of a dispatch as the plan keeps it and as a bundle carries it (10 R277). -/
def sourceRow (s : State) (fmt hid base k : Nat) : List Byte := rd s (base + 64 + rowBytes fmt hid * k) (rowBytes fmt hid)

/-- Marks to every member, and one bundle per expert to each holder chosen (10 R277). -/
def sendRound (p : Plan) (step : W64) (layer mb : Nat) (backward : Bool) (choices : List Assign) (s : State) : State :=
  let me := s.fab.moduleId
  let live := choices.filter (fun c => c.holder.isSome)
  let keys : List ((W16 × W16) × Nat) := live.foldl (fun l c => match c.holder with
    | some h => if l.contains (h, c.expert) then l else l ++ [(h, c.expert)]
    | none => l) []
  let (fmt, base) := match rowsFor p layer mb with
    | some t => if backward then (t.bwdFmt.toNat, t.bwdRows.toNat) else (t.fwdFmt.toNat, t.fwdRows.toNat)
    | none => (0, 0)
  let ts : W32 := if fmt == 3 || fmt == 4 then BitVec.ofNat 32 (rdNat s base 4) else one32
  let s := forEach (groupMembers s) (fun m s =>
    sendMark (xHead {
      step := step, src := me, dst := m, mb := mb, layer := layer, backward := backward, kind := 0,
      ntok := (keys.filter (fun k => k.1.1 == m)).length } []) s) s
  forEach keys (fun k s =>
    let toks := sortBy (fun a b => a ≤ b) ((live.filter (fun c => c.holder == some k.1 && c.expert == k.2)).map (fun c => c.token))
    let ws := toks.map (fun t => BitVec.ofNat 32 t)
    let rows := toks.map (fun t => sourceRow s fmt (hidOf p layer) base t)
    if lostTarget s k.1.1 then
      dropChoices step.toNat layer mb backward 0 (fun c => c.holder == some k.1 && c.expert == k.2) s
    else
      sendExchange (xHead {
        step := step, src := me, dst := k.1.1, mb := mb, layer := layer, expert := k.2, backward := backward, kind := 1, fmt := fmt,
        ver := k.1.2.toNat, ntok := toks.length, tscale := ts } ws) ws rows s) s

/-- The assignment list of a dispatch, 8 bytes a choice: holder, 0xFFFF where dropped, then VERSION. It follows the route list
in that list's room where the room has the space; place and layout are DESIGN CHOICE (10 R275; log 144). -/
def assignBytes (cs : List Assign) : List Byte :=
  cs.flatMap (fun c => match c.holder with
    | some h => bytesLE 4 0 ++ bytesLE 2 h.2.toNat ++ bytesLE 2 h.1.toNat
    | none => bytesLE 6 0 ++ bytesLE 2 0xFFFF)

def keepAssignment (list : Nat) (cs : List Assign) (s : State) : State :=
  match roomHolding s list with
  | some (_, r) => if list + 16 * cs.length ≤ roomEnd r then homeWrite (list + 8 * cs.length) (assignBytes cs) s else s
  | none => s

/-- The router of LINKn, n = MB mod 4, handles a dispatch: the forward one by the route list, the backward one by the
assignment list that the forward one left. -/
def routerDispatch (layer mb list tokens : Nat) (s : State) : State :=
  match s.steps.job, openPlan s with
  | some j, some p =>
    let step := j.step.toNat
    if !domainRuns s (linkDie + mb % 4) || !(p.bindings.any (fun b => b.layer == layer)) || s.steps.workLost then s
    else match dispatchAt s step layer mb false with
      | none =>
        let w := (routeList s list tokens p.topk).foldl (walkChoice s p layer) { rrs := [], moved := 0, dropped := 0, out := [] }
        let d : DispatchList := {
          step := j.step, layer := layer, mb := mb, backward := false, list := BitVec.ofNat 64 list,
          choices := w.out, combined := false }
        let s := { s with exch := { s.exch with dispatches := s.exch.dispatches ++ [d] } }
        let s := updRouter layer (fun r => { r with
          choices := r.choices + tokens * p.topk
          moved := r.moved + w.moved
          dropCap := r.dropCap + w.dropped }) s
        settleDispatch step layer mb false (sendRound p j.step layer mb false w.out (keepAssignment list w.out s))
      | some d =>
        if !d.combined || (dispatchAt s step layer mb true).isSome then s
        else
          let cs := d.choices.map (fun c => { c with back := none })
          let s := { s with exch := { s.exch with dispatches := s.exch.dispatches ++ [{ d with backward := true, choices := cs, combined := false }] } }
          settleDispatch step layer mb true (sendRound p j.step layer mb true cs s)
  | _, _ => s

/-- A step whose work is lost: a mark with LOST = 1 for every round not yet marked, to every member (10 R280). -/
def abandonRounds (s : State) : State :=
  match s.steps.job, openPlan s with
  | some j, some p =>
    if !s.steps.workLost then s
    else
      let layers := p.bindings.foldl (fun l b => addNew l b.layer) []
      let rounds := layers.flatMap (fun l => (List.range p.microBatches).flatMap (fun mb => [(l, mb, false), (l, mb, true)]))
      forEach (rounds.filter (fun r => (dispatchAt s j.step.toNat r.1 r.2.1 r.2.2).isNone)) (fun r s =>
        let s := { s with exch := { s.exch with dispatches := s.exch.dispatches ++ [{
          step := j.step, layer := r.1, mb := r.2.1, backward := r.2.2,
          list := 0, choices := [], combined := true }] } }
        forEach (groupMembers s) (fun m s =>
          sendMark (xHead {
            step := j.step, src := s.fab.moduleId, dst := m, mb := r.2.1, layer := r.1, backward := r.2.2, kind := 0,
            ntok := 0, lost := true } []) s) s) s
  | _, _ => s

/-- A member leaves the group: open rounds close without its marks (10 R284). -/
def closeRoundsWithout (ids : List W16) (s : State) : State :=
  let s := { s with exch := { s.exch with group := s.exch.group.map (fun g => match g with
    | some m => if ids.contains m then none else some m
    | none => none) } }
  forEach s.exch.rounds (fun r s => settleRound r.step.toNat r.layer r.mb r.backward s) s

/-! ### The product of a round, and its returns (10 R278) -/

/-- The rows of an expert in a round's order. -/
def roundRows (r : Round) (expert : Nat) : List Byte := (r.bundles.filter (fun b => b.expert == expert)).flatMap (fun b => b.rows.flatMap id)

/-- Rows land in a fabric-in room and its version commits (11 R301); none while the version cannot be opened. -/
def gatherRows (x : ExpertRound) (r : Round) (s : State) : Option State :=
  match roomHolding s x.rows.toNat with
  | none => some s
  | some (id, m) => (openVer m 1 0).map (fun m' =>
      commitRoom id (homeWrite (x.rows.toNat + freshBase m') (roundRows r x.expert) (putOpened id m' s)))

def gatherAll (r : Round) : List ExpertRound → State → Option State
  | [], s => some s
  | x :: xs, s => (gatherRows x r s).bind (gatherAll r xs)

def roundPlans (p : Plan) (r : Round) : List ExpertRound :=
  p.rounds.filter (fun x => x.layer == r.layer && x.mb == r.mb && x.backward == r.backward)

def setRound (r : Round) (f : Round → Round) (s : State) : State := updRound r.step.toNat r.layer r.mb r.backward f s

/-- Complete rounds of the open step whose rows can be placed: their products may begin. -/
def gatherRounds (s : State) : State :=
  match s.steps.job, openPlan s with
  | some j, some p =>
    forEach (s.exch.rounds.filter (fun r => r.step == j.step && r.started && !r.gathered)) (fun r s =>
      match gatherAll r (roundPlans p r) s with
      | some s => setRound r (fun r => { r with gathered := true }) s
      | none => s) s
  | _, _ => s

/-- Each bundle's rows go back in the order it sent them. -/
def returnRows (p : Plan) (x : ExpertRound) (r : Round) (s : State) : State :=
  let fmt := x.outFmt.toNat
  let n := rowBytes fmt (hidOf p x.layer)
  let base := match roomHolding s x.out.toNat with
    | some (_, m) => steer m m.current.toNat x.out.toNat
    | none => x.out.toNat
  let bs := r.bundles.filter (fun b => b.expert == x.expert)
  (bs.foldl (fun (a : Nat × State) b =>
    let rows := (List.range b.tokens.length).map (fun i => rd a.2 (base + n * (a.1 + i)) n)
    let h := xHead { step := r.step, src := b.src, dst := b.src, mb := r.mb, layer := r.layer, expert := x.expert, backward := r.backward
                     kind := 2, fmt := fmt, ver := b.ver.toNat, ntok := b.tokens.length } b.tokens
    (a.1 + b.tokens.length,
      if b.src == s.fab.moduleId then returnBundleReceive h b.tokens rows a.2 else emit (.exchange (ownTag s) h b.tokens rows) a.2))
    (0, s)).2

/-- Products whose tasks have all ended with DONE send their returns. -/
def sendReturns (s : State) : State :=
  match s.steps.job, openPlan s with
  | some j, some p =>
    forEach (s.exch.rounds.filter (fun r => r.step == j.step && r.gathered)) (fun r s =>
      forEach ((roundPlans p r).filter (fun x => !r.returned.contains x.expert && x.tasks.all (fun k => taskState j k.toNat == .done)))
        (fun x s => setRound r (fun r => { r with returned := r.returned ++ [x.expert] }) (returnRows p x r s)) s) s
  | _, _ => s

/-! ### Router records (10 R286) -/

/-- Marks charged to this module as holder, summed over its experts of a layer. -/
def chargedInLayer (s : State) (p : Plan) (layer : Nat) : Nat :=
  sumNat ((p.bindings.filter (fun b => b.layer == layer)).map (fun b => chargedTo s layer b.expert))

/-- Router records of the step, one per MoE layer of the plan; 0x4601 where capacity drops exceed 1/64 of the choices. -/
def routerRecords (p : Plan) (step : W64) (s : State) : State :=
  let layers := p.bindings.foldl (fun l b => addNew l b.layer) []
  let s := forEach layers (fun l s =>
    let r := tget s.exch.routers l Router.zero
    let rec_ : RouterRec := { step := step, layer := l, counters := r, charged := chargedInLayer s p l }
    let s := { s with exch := { s.exch with ring := (rec_ :: s.exch.ring).take (0x1000000 / 32), ringNext := s.exch.ringNext + 1 } }
    if r.choices < 64 * r.dropCap then raiseCtrl 0x4601 [a8 step.toNat, a2 l, a2 r.dropCap] s else s) s
  { s with exch := { s.exch with
    routers := []
    dispatches := s.exch.dispatches.filter (fun d => d.step != step)
    rounds := s.exch.rounds.filter (fun r => r.step != step) } }

/-! ### Rows -/

def execRouterDispatch (layer : Fin 256) (mb : Byte) (list : W64) (tokens : Nat) (s : State) : Host.Outcome State Fault Refusal :=
  .next (routerDispatch layer.val mb.toNat list.toNat tokens s)
/-- What arrives through the window passes check 5 of Table 11-5: it is of this module's domain and epoch, from a member
(10 R283, 11 R302). -/
def fromPeer (g : PacketTag) (f : State → State) (s : State) : State := if tagGood s g then f s else s

def execMarkReceive (head : ExchangePacket) (s : State) : Host.Outcome State Fault Refusal :=
  .next (fromPeer head.tag (markReceive head.head) s)
def execBundleReceive (head : ExchangePacket) (tokens : List W32) (rows : List (List Byte)) (s : State) :
    Host.Outcome State Fault Refusal := .next (fromPeer head.tag (bundleReceive head.head tokens rows) s)
def execReturnBundleReceive (head : ExchangePacket) (tokens : List W32) (rows : List (List Byte)) (s : State) :
    Host.Outcome State Fault Refusal := .next (fromPeer head.tag (returnBundleReceive head.head tokens rows) s)
def execMarkWaitTimeout (step : W64) (layer : Fin 256) (mb : Byte) (backward : Bool) (s : State) : Host.Outcome State Fault Refusal :=
  .next (markWaitTimeout step.toNat layer.val mb.toNat backward s)

end Sys2Proof.Machine
end

