-- ==== Sys2Proof/Machine/MemRows.lean ====
section
/-! DEFINITION. Errors and scrubs of the ponds, the Mere, the stack tier and the Cellar (07 R189 to R213). -/

namespace Sys2Proof.Machine

/-! ### Uncorrectable words of ponds and Mere -/

def wordOf (a : Nat) : Nat := a / 8 * 8

/-- A word that reads uncorrectable is poisoned; it is a repeat when a full write had cleared its poison (07 R189, R192). -/
def wordRepeats (m : Mem) (w : Nat) : Bool := m.wasPoisoned.contains w && m.rewritten.contains w && !m.poison.contains w

def poisonWord (w : Nat) (s : State) : State :=
  { s with mem := { s.mem with
    poison := addNew s.mem.poison w, wasPoisoned := addNew s.mem.wasPoisoned w
    rewritten := s.mem.rewritten.filter (· != w) } }

/-- A pond read meets an uncorrectable word: poison, MEM_ERROR, event 0x3102; a repeat then remaps its row (07 R189, R192). -/
def pondUncorrectableRead (core a : Nat) (s : State) : State :=
  let sc := sliceOf a
  if !(regionOf a == .pond) || !pondOn s (towerOf sc) || csBorrowing ≤ chanState s sc then s
  else
    let w := wordOf a
    let again := wordRepeats s.mem w
    let s := failTask core ccMem (raise 0x3102 data (pondDie sc) [a2 core, a8 a] (poisonWord w s))
    if again then remapRow sc ((w - sliceBase sc) / 4096) s else s

def execPondUncorrectableRead (core : Fin 384) (addr : W64) (s : State) : Host.Outcome State Fault Refusal :=
  .next (pondUncorrectableRead core.val addr.toNat s)

/-- A Mere read meets an uncorrectable word: poison, event 0x3202; a repeat withdraws the page (07 R196). -/
def mereUncorrectableRead (reader a : Nat) (s : State) : State :=
  if !(regionOf a == .mere) || !inReg s 16 then s
  else
    let w := wordOf a
    let again := wordRepeats s.mem w
    let room := match roomHolding s a with | some r => r.1 | none => 0xFFFF
    let s := failTask reader ccMem (raise 0x3202 data (mereDie a) [a8 a, a2 room] (poisonWord w s))
    if again then
      let page := w / 4096 * 4096
      if s.mem.withdrawn.contains page then s
      else raise 0x3202 data (mereDie a) [a8 page, a2 room]
        (capBump { s with mem := { s.mem with withdrawn := addNew s.mem.withdrawn page } })
    else s

def execMereUncorrectableRead (reader : Fin 393) (addr : W64) (s : State) : Host.Outcome State Fault Refusal :=
  .next (mereUncorrectableRead reader.val addr.toNat s)

/-! ### Blocks of the tiers -/

/-- A stack's code corrects the wrong bytes of a block, given as (pseudo-channel, codeword): 8 in a codeword; beside one
failed pseudo-channel, whose 9 bytes are erasures, 3 others; two failed ones are judged as lost blocks are (07 R208, R209). -/
def stackCorrects (m : Mem) (b : Nat) (wrong : List (Fin 16 × Fin 2)) : Bool :=
  let x := failedIn m (stackOf b) (stripeGroup b)
  let n (k : Fin 2) : Nat := (wrong.filter (fun w => w.2 == k && !x.getLsbD w.1.val)).length
  if failCount x == 0 then decide (n 0 ≤ 8) && decide (n 1 ≤ 8)
  else if failCount x == 1 then decide (n 0 ≤ 3) && decide (n 1 ≤ 3)
  else !m.lostBlock b

/-- A block of a tier reads uncorrectable: every read of it returns poison, and the reading task ends with MEM_ERROR
(07 R209, R211, R213). -/
def blockUncorrectable (code die reader a : Nat) (s : State) : State :=
  let b := a / blockLen a * blockLen a
  failTask reader ccMem (raise code data die [a8 a] { s with mem := { s.mem with badBlocks := addNew s.mem.badBlocks b } })

def stackUncorrectableRead (reader a : Nat) (wrong : List (Fin 16 × Fin 2)) (s : State) : State :=
  if regionOf a == .stack && inReg s (17 + towerRegion a / 4) && !stackCorrects s.mem (a / 256 * 256) wrong then blockUncorrectable 0x3303 (48 + towerRegion a) reader a s else s

/-- A Cellar block corrects any 8 byte errors (07 R211). -/
def cellarUncorrectableRead (reader a wrong : Nat) (s : State) : State :=
  if regionOf a == .cellar && inReg s sdCel && decide (8 < wrong) then blockUncorrectable 0x3402 dieCellar reader a s else s

def execStackUncorrectableRead (reader : Fin 393) (block : StackError) (s : State) : Host.Outcome State Fault Refusal :=
  .next (stackUncorrectableRead reader.val block.addr.toNat block.wrong s)
def execCellarUncorrectableRead (reader : Fin 393) (block : CellarError) (s : State) : Host.Outcome State Fault Refusal :=
  .next (cellarUncorrectableRead reader.val block.addr.toNat block.wrong s)

/-- A pseudo-channel is marked failed: event 0x3302 (07 R209). -/
def markPch (k g p : Nat) (s : State) : State :=
  let m := tget s.mem.failedPch (4 * k + g) 0
  if m.getLsbD p then s
  else raise 0x3302 data (48 + k / 2) [a2 k, a2 g, a2 p]
    (capBump { s with mem := { s.mem with failedPch := tset s.mem.failedPch (4 * k + g) (m ||| BitVec.ofNat 16 (2 ^ p)) } })

def stackOn (s : State) (k : Nat) : Bool := inReg s (17 + k / 8)

def execPseudoChannelInterfaceCheckFail (stack : Fin 16) (group : Fin 4) (pch : Fin 16) (s : State) :
    Host.Outcome State Fault Refusal :=
  .next (if stackOn s stack.val then markPch stack.val group.val pch.val s else s)

/-! ### Scrubs -/

/-- Requests for a scrub pass of a target end when the pass does (16 Table 16-6). -/
def scrubRequestsEnd (target : Nat) (s : State) : State :=
  { s with tests := { s.tests with reqs := s.tests.reqs.filter (fun r => !(r.kind == 1 && r.target == target && r.begun)) } }

/-- One step of a scrubber: position and corrections of the pass. Event `code` when the pass first exceeds 64. -/
def scrubStep (key len total corrected code die : Nat) (args : List (Nat × Nat)) (s : State) : State × Bool :=
  let (pos, n) := tget s.mem.scrubs key (0, 0)
  let s := if n ≤ 64 && 64 < n + corrected then raise code data die args s else s
  let ends := decide (total ≤ pos + len)
  ({ s with mem := { s.mem with scrubs := tset s.mem.scrubs key (if ends then (0, 0) else (pos + len, n + corrected)) } }, ends)

/-- The scrubber of a slice at `base` corrects the single-bit errors that stand in the next `len` bytes, and those that it
finds there first, and writes them back (07 R191, R196). -/
def wordScrub (key base len total found code die : Nat) (args : List (Nat × Nat)) (s : State) : State × Bool :=
  let lo := base + (tget s.mem.scrubs key (0, 0)).1
  let here (w : Nat) : Bool := decide (lo ≤ w) && decide (w < lo + len)
  let n := (s.mem.singles.filter here).length
  scrubStep key len total (n + found) code die args
    { s with mem := { s.mem with singles := s.mem.singles.filter (fun w => !here w) } }

/-- The pond scrubber reads 512 B; it runs while TPn is on and stops in a fenced slice (07 R191). -/
def pondScrubStep (c found : Nat) (s : State) : State :=
  if !pondOn s (towerOf c) || !domainRuns s (pondDie c) || (chan s c).fenced || s.tests.tower == some (towerOf c) then s
  else
    let (s, ends) := wordScrub c (sliceBase c) 512 sliceLen found 0x3101 (pondDie c) [a2 c] s
    if ends then scrubRequestsEnd c s else s

/-- Each Mere slice's scrubber reads 64 B (07 R196). -/
def mereScrubStep (k found : Nat) (s : State) : State :=
  if !inReg s 16 || !domainRuns s (48 + k) then s
  else
    let (s, ends) := wordScrub (384 + k) (0x80000000000 + k * 0x10000000) 64 0x10000000 found 0x3201 (48 + k) [a2 k] s
    if ends then scrubRequestsEnd (0x200 + k) s else s

/-- The stack patrol scrubber reads a block: a pseudo-channel with more than 16 blocks of its own in a pass is marked
failed (07 R209, R210). -/
def stackPatrolScrub (k : Nat) (only : Option (Nat × Nat)) (passEnds : Bool) (s : State) : State :=
  if !stackOn s k || !domainRuns s (48 + k / 2) then s
  else
    let s := match only with
      | none => s
      | some (g, p) =>
        let key := 64 * k + 16 * g + p
        let n := tget s.mem.pchHits key 0 + 1
        let s := { s with mem := { s.mem with pchHits := tset s.mem.pchHits key n } }
        if 16 < n then markPch k g p s else s
    let (pos, n) := tget s.mem.scrubs (400 + k) (0, 0)
    { s with mem := { s.mem with
      scrubs := tset s.mem.scrubs (400 + k) (if passEnds then (0, 0) else (pos + 256, n + (if only.isSome then 1 else 0)))
      pchHits := if passEnds then s.mem.pchHits.filter (fun h => h.1 / 64 != k) else s.mem.pchHits } }

/-- The Cellar patrol scrubber reads a block: event 0x3401 when a pass corrects more than 64 (07 R211). -/
def cellarPatrolScrub (corrected passEnds : Bool) (s : State) : State :=
  if !inReg s sdCel || !domainRuns s dieCellar then s
  else
    let (s, _) := scrubStep 416 128 0x20000000000 corrected.toNat 0x3401 dieCellar [] s
    if passEnds then { s with mem := { s.mem with scrubs := tset s.mem.scrubs 416 (0, 0) } } else s

def execPondScrubStep (slice : Fin 384) (corrected : Nat) (s : State) : Host.Outcome State Fault Refusal :=
  .next (pondScrubStep slice.val corrected s)
def execMereScrubStep (slice : Fin 8) (corrected : Nat) (s : State) : Host.Outcome State Fault Refusal :=
  .next (mereScrubStep slice.val corrected s)
def execStackPatrolScrub (stack : Fin 16) (only : Option (Fin 4 × Fin 16)) (passEnds : Bool) (s : State) :
    Host.Outcome State Fault Refusal :=
  .next (stackPatrolScrub stack.val (only.map (fun x => (x.1.val, x.2.val))) passEnds s)
def execCellarPatrolScrub (corrected passEnds : Bool) (s : State) : Host.Outcome State Fault Refusal :=
  .next (cellarPatrolScrub corrected passEnds s)

end Sys2Proof.Machine
end

