-- ==== Sys2Proof/Machine/Fabric.lean ====
section
/-! DEFINITION. The Tuntound fabric: lanes and ports, the rack shared window, request rings, atomics and their receipts,
coalescers, messages and dead targets (11). -/

namespace Sys2Proof.Machine

/-! ### Lanes and ports (11 R292, R293, R296) -/

/-- Requests outstanding on a plane. -/
def onPlane (s : State) (p : Nat) : Bool := s.fab.rings.any (fun r => r.2.issued.any (fun q => q.plane == p))

/-- A port goes down below 2 lanes, and comes up again with 2 (11 R293, R294). -/
def settlePort (p : Nat) (s : State) : State :=
  let w := portWidth s p
  if portUp s p && w < 2 then
    let s := { s with fab := { s.fab with
      up := tset s.fab.up p false
      draining := if onPlane s p then addNew s.fab.draining p else s.fab.draining } }
    raise 0x4102 data (portDie p) [a2 p] (capBump s)
  else if !portUp s p && 2 ≤ w && (tfind? s.fab.up p).isSome then
    raise 0x4103 data (portDie p) [a2 p, a2 w] (capBump { s with fab := { s.fab with up := tset s.fab.up p true } })
  else s

/-- A lane above its error threshold is taken out of service. -/
def laneOutOfService (l : Nat) (s : State) : State :=
  if laneState s l != .inService then s
  else
    let s := capBump (setLane l .out s)
    settlePort (l / 4) (raise 0x4101 data (portDie (l / 4)) [a2 (l / 4), a2 l, a2 (portWidth s (l / 4))] s)

/-- A request for recalibration of the lane's port begins with its first lane, and ends with its last (16 Table 16-6). -/
def laneTestBegins (l : Nat) (s : State) : State :=
  { s with tests := { s.tests with
    reqs := s.tests.reqs.map (fun r => if r.kind == 0 && r.target == l / 4 then { r with begun := true } else r) } }

def laneTestEnds (l : Nat) (s : State) : State :=
  let f (r : TestReq) : TestReq := if r.kind == 0 && r.target == l / 4 then { r with todo := r.todo.erase l } else r
  let ended (r : TestReq) : Bool := r.kind == 0 && r.target == l / 4 && r.begun && r.todo.isEmpty
  let reqs := (s.tests.reqs.map f).filter (fun r => !ended r)
  { s with tests := { s.tests with reqs := reqs } }

/-- Recalibration takes a lane out, at most one at a time on a LINK die. -/
def laneRecalibrationStart (l : Nat) (s : State) : State :=
  let busy := s.fab.lanes.any (fun x => x.1 / 36 == l / 36 && x.2 == LaneState.recalibrating)
  if busy || (tfind? s.fab.up (l / 4)).isNone || !domainRuns s (portDie (l / 4)) then s
  else laneTestBegins l (settlePort (l / 4) (capBump (setLane l .recalibrating s)))

/-- A lane that retrains cleanly returns to service. -/
def laneRecalibrationEnd (l : Nat) (clean : Bool) (s : State) : State :=
  if laneState s l != .recalibrating then s
  else laneTestEnds l (settlePort (l / 4) (capBump (setLane l (if clean then .inService else .out) s)))

/-- A port has trained: it comes up where the switch port number is the rack index. In a bench the peer's rack index stands in
the number's place, and must differ from the own (11 R296; log 39). -/
def linkPortTrained (p : Nat) (bench : Bool) (reported lanes : Nat) (s : State) : State :=
  if !domainRuns s (portDie p) || portUp s p then s
  else if (reported == s.power.slotId.toNat % 128) == bench || s.power.slotId.getLsbD 7 then
    raise 0x4104 data (portDie p) [a2 p] s
  else
    let s := forEach [0, 1, 2, 3] (fun i s => if lanes.testBit i then setLane (4 * p + i) .inService s else s) s
    if (tfind? s.fab.up p).isSome then settlePort p (capBump s)
    else
      let s := capBump { s with fab := { s.fab with up := tset s.fab.up p (decide (2 ≤ portWidth s p)) } }
      if portWidth s p < 2 then raise 0x4102 data (portDie p) [a2 p] s else s

def execLaneOutOfService (lane : Fin 144) (s : State) : Host.Outcome State Fault Refusal := .next (laneOutOfService lane.val s)
def execLaneRecalibrationStart (lane : Fin 144) (s : State) : Host.Outcome State Fault Refusal :=
  .next (laneRecalibrationStart lane.val s)
def execLaneRecalibrationEnd (lane : Fin 144) (clean : Bool) (s : State) : Host.Outcome State Fault Refusal :=
  .next (laneRecalibrationEnd lane.val clean s)
def execLinkPortTrained (port : Fin 36) (reported : PortReport) (lanes : BitVec 4) (s : State) :
    Host.Outcome State Fault Refusal := .next (linkPortTrained port.val reported.bench reported.number.toNat lanes.toNat s)

/-! ### The window (11 R294, R299 to R302) -/

/-- An RST entry (11 Table 11-3). -/
def rstAt (s : State) (j : Nat) : W64 := tget s.fab.rst j 0xFFFF000000000000
def rstModule (e : W64) : Nat := fld e 48 16
def rstEpoch (e : W64) : Nat := fld e 32 16
def rstValid (e : W64) : Bool := fld e 3 1 == 1

/-- Rights of Tables 11-3 and 11-4, as the bit they hold in an RST entry. -/
def rightRd : Nat := 2
def rightWr : Nat := 1
def rightAt : Nat := 0

/-- The module stands between teardown and formation, or has never been formed into a domain. -/
def betweenDomains (s : State) : Bool := s.fab.domain.isNone

/-- Checks 1 to 4 of Table 11-5 at the source: the status that refuses the request, or none. -/
def sourceCheck (s : State) (a right : Nat) : Option Nat :=
  let e := rstAt s (segOf a)
  if betweenDomains s then some stPeerLost
  else if !rstValid e || rstEpoch e != s.fab.epoch.toNat then some stBadArg
  else if !e.getLsbD right then some stDenied
  else if s.fab.unreachable.contains (BitVec.ofNat 16 (rstModule e)) then some stPeerLost
  else none

/-- An export entry (11 Table 11-4). -/
def exportAt (s : State) (k : Nat) : BitVec 128 := tget s.fab.exports k (BitVec.ofNat 128 (0xFFFF * 2 ^ 112))
def exRoom (e : BitVec 128) : Nat := fld e 112 16
def exEpoch (e : BitVec 128) : Nat := fld e 96 16
def exOffset (e : BitVec 128) : Nat := fld e 72 24
def exPages (e : BitVec 128) : Nat := fld e 48 24
def exValid (e : BitVec 128) : Bool := fld e 35 1 == 1

/-- Checks 5 to 7 at the target: the status that refuses, whether it raises 0x4201, else the address in the room. -/
def targetCheck (s : State) (src : Nat) (domain epoch : W16) (a n right : Nat) : (Nat × Bool) ⊕ Nat :=
  let k := segOf a % 512
  let e := exportAt s k
  if s.fab.domain != some domain || s.fab.epoch != epoch || !s.fab.members.any (fun m => m.rack.toNat == src) then .inl (stPeerLost, false)
  else if !exValid e || exEpoch e != s.fab.epoch.toNat || exPages e * 4096 < segOff a + n then .inl (stBadArg, true)
  else if fld e (32 + right) 1 == 0 then .inl (stDenied, true)
  else match roomAt s (exRoom e) with
    | none => .inl (stBadArg, true)
    | some r => .inr (r.base.toNat + exOffset e * 4096 + segOff a)

/-- The plane that a reply about `a` to the source of rack index `src` travels on. -/
def replyPlane (s : State) (a src : Nat) : Nat :=
  let p := planeFor s a (moduleOfRack s src)
  if p == 36 then ((planesFrom a).find? (planeUsable s)).getD 36 else p

/-- A response or acknowledgement of the target (11 R294, R297). -/
def winReply (a src st : Nat) (bytes : List Byte) (s : State) : State :=
  emit (.winReply (ownTag s) src (replyPlane s a src) (BitVec.ofNat 8 st) bytes) s

/-- Refuse a request at the target; 0x4201 once per source and segment in each epoch. -/
def refuseAt (src a st : Nat) (ev : Bool) (s : State) : State :=
  let k := segOf a % 512
  let s := winReply a src st [] s
  if ev && !s.fab.refused.contains (src, k) then
    raise 0x4201 data ((planeDie s (homePlane a)).getD linkDie) [a2 src, a2 k] { s with fab := { s.fab with refused := s.fab.refused ++ [(src, k)] } }
  else s

/-! ### Request entries (11 Table 11-6) and their completions -/

def rqOp (e : BitVec 512) : Nat := fld e 508 4
def rqAop (e : BitVec 512) : Nat := fld e 504 4
def rqRelease (e : BitVec 512) : Bool := fld e 503 1 == 1
def rqAcquire (e : BitVec 512) : Bool := fld e 502 1 == 1
def rqRetry (e : BitVec 512) : Bool := fld e 501 1 == 1
def rqLen (e : BitVec 512) : Nat := fld e 480 20
def rqTag (e : BitVec 512) : Nat := fld e 448 32
def rqRemote (e : BitVec 512) : Nat := fld e 384 64
def rqLocal (e : BitVec 512) : Nat := fld e 320 64
def rqOp1 (e : BitVec 512) : Nat := fld e 256 64
def rqOp2 (e : BitVec 512) : Nat := fld e 192 64
def rqDest (e : BitVec 512) : Nat := fld e 176 16
def rqRing (e : BitVec 512) : Nat := fld e 170 6
def rqCpl (e : BitVec 512) : Nat := fld e 104 64
def rqSeq (e : BitVec 512) : Nat := fld e 72 32

/-- [a, a + n) lies in a room homed in the Mere or the stack tier. -/
def inLocalRoom (s : State) (a n : Nat) : Bool :=
  match roomHolding s a with
  | some (_, r) => r.home != 2 && decide (a + n ≤ roomEnd r)
  | none => false

/-- A completion and its RESULT lie in the Mere outside Porter's reserve, in one slice: what the LINK dies may write there
(07 R184, R193; log 146). -/
def completionFits (a : Nat) : Bool := regionOf a == .mere && !inReserve a && decide (a % 0x10000000 + 24 ≤ 0x10000000)

/-- An entry that breaks Table 11-6 (11 R304), or whose addresses the LINK dies do not reach. -/
def badEntry (s : State) (e : BitVec 512) : Bool :=
  let op := rqOp e
  let win := op == 1 || op == 2 || op == 3
  !recCrcOk e || fld e 500 1 != 0 || fld e 168 2 != 0 || fld e 32 40 != 0 ||
  (op != 3 && (rqAop e != 0 || rqRetry e)) || (op == 3 && decide (5 < rqAop e)) ||
  (op == 0 || decide (5 < op)) ||
  ((op == 1 || op == 2) && (rqLen e == 0 || decide (8192 < rqLen e) || decide (2 ^ 29 < segOff (rqRemote e) + 128 * rqLen e))) ||
  (op == 5 && (rqLen e == 0 || decide (4032 < rqLen e))) || ((op == 3 || op == 4) && rqLen e != 0) ||
  (win && !inWindow (rqRemote e)) || (!win && rqRemote e != 0) ||
  (op == 3 && rqRemote e % 8 != 0) ||
  (op == 2 && rqLen e != 1 && (rqOp1 e != 2 ^ 64 - 1 || rqOp2 e != 2 ^ 64 - 1)) ||
  ((op == 1 || op == 2) && !inLocalRoom s (rqLocal e) (128 * rqLen e)) ||
  (op == 5 && !inLocalRoom s (rqLocal e) (rqLen e)) || ((op == 3 || op == 4) && rqLocal e != 0) || !completionFits (rqCpl e)

/-- The 16-byte completion and its RESULT (11 Table 11-7a); one that the LINK dies do not reach is not written. -/
def putCompletion (e : BitVec 512) (st seq result : Nat) (s : State) : State :=
  let c : BitVec 128 := mkRec 128 [(96, 32, rqTag e), (88, 8, st), (32, 32, seq)]
  if completionFits (rqCpl e) then portWrite 3 (rqCpl e) (recBytes c ++ bytesLE 8 result) s else s

def ringAt (s : State) (k : Nat) : Option ReqRing := tfind? s.fab.rings k
def setRing (k : Nat) (f : ReqRing → ReqRing) (s : State) : State := { s with fab := { s.fab with rings := tupd s.fab.rings k f } }

/-- Entry `pos` of a ring. -/
def ringEntry (s : State) (r : ReqRing) (pos : Nat) : Option (BitVec 512) :=
  (roomAt s r.room.toNat).bind (fun m =>
    if 64 * pos + 64 ≤ slotBytes m then some (BitVec.ofNat 512 (rdNat s (m.base.toNat + 64 * pos) 64)) else none)

/-- The ring's next entry. -/
def nextEntry (s : State) (k : Nat) : Option (BitVec 512) :=
  match ringAt s k with
  | some r => if r.version == 0 then none else ringEntry s r r.next
  | none => none

/-- What ends a version: its first entry with OP = 0x0 or its last entry, once every entry has completed. Entries whose OP
or AOP is reserved complete with BAD_ARG as they are reached (11 R303, R304). -/
def settleRing (k : Nat) : Nat → State → State
  | 0, s => s
  | n + 1, s =>
    match ringAt s k with
    | none => s
    | some r =>
      if r.version == 0 then s
      else match nextEntry s k with
        | some e =>
          if rqOp e == 0 then (if r.issued.isEmpty then close r s else s)
          else if 5 < rqOp e || (rqOp e == 3 && 5 < rqAop e) then
            settleRing k n (setRing k (fun r => { r with next := r.next + 1 }) (putCompletion e stBadArg 0 0 s))
          else s
        | none => if r.issued.isEmpty then close r s else s
where
  /-- The version is done: its pin ends, and the next may be opened. -/
  close (r : ReqRing) (s : State) : State :=
    unpinRoom r.room.toNat r.version.toNat (setRing k (fun r => { r with version := 0, next := 0 }) s)

def ringFuel : Nat := 4096
def settleRings (s : State) : State := forEach (s.fab.rings.map (·.1)) (fun k s => settleRing k ringFuel s) s

/-- A plane that has drained takes new requests again. -/
def settleDrain (s : State) : State :=
  { s with fab := { s.fab with draining := s.fab.draining.filter (fun p => onPlane s p) } }

/-- [a, a + n) holds no good data: poisoned words, or uncorrectable blocks of the stack tier (07 R189, R196, R209). -/
def poisonRange (a n : Nat) (s : State) : State :=
  if n == 0 then s
  else if regionOf a == .stack then
    forEach ((List.range ((a % 256 + n + 255) / 256)).map (fun i => a / 256 * 256 + 256 * i)) (fun b s =>
      { s with mem := { s.mem with badBlocks := addNew s.mem.badBlocks b } }) s
  else forEach (wordsOf a n) (fun w s => { s with mem := { s.mem with poison := addNew s.mem.poison w } }) s

/-- An issued request ends. -/
def endRequest (k pos st seq result : Nat) (s : State) : State :=
  match (ringAt s k).bind (fun r => r.issued.find? (fun q => q.pos == pos)) with
  | none => s
  | some q =>
    let s := setRing k (fun r => { r with issued := r.issued.filter (fun x => x.pos != pos) }) s
    settleRing k ringFuel (settleDrain (putCompletion q.entry st seq result s))

/-- A request lost with its target: PEER_LOST, the unfilled READ destination poisoned, an atomic's tag kept (11 R311, R317). -/
def loseRequest (k : Nat) (q : Request) (s : State) : State :=
  let s := if rqOp q.entry == 1 then poisonRange (rqLocal q.entry) (128 * rqLen q.entry) s else s
  let s := if rqOp q.entry == 3 then
      { s with fab := { s.fab with lostAtomics := s.fab.lostAtomics ++ [(q.target, q.seq, s.fab.epoch)] } } else s
  endRequest k q.pos stPeerLost (if rqOp q.entry == 3 then q.seq.toNat else 0) 0 s

def loseRequests (sel : Request → Bool) (s : State) : State :=
  forEach (s.fab.rings.flatMap (fun r => (r.2.issued.filter sel).map (fun q => (r.1, q)))) (fun x s => loseRequest x.1 x.2 s) s

/-- A target becomes unreachable (11 R317, 10 R284, 12 R342). -/
def markUnreachable (id : W16) (s : State) : State :=
  if s.fab.unreachable.contains id then s
  else
    let s := { s with fab := { s.fab with unreachable := s.fab.unreachable ++ [id] } }
    let s := emit (.management "unreachable" [id.toNat]) (raise 0x4701 data linkDie [a2 id.toNat] s)
    let s := dropTarget id (loseRequests (fun q => q.target == id.toNat) s)
    match s.snap with
    | some x => if snapDest x == 2 && fld x.req 416 16 == id.toNat then endSnapshot stPeerLost s else s
    | none => s

/-! ### Issuing (11 R303 to R309) -/

/-- The ordering of Table 11-7 lets the next entry go. -/
def mayIssue (r : ReqRing) (e : BitVec 512) : Bool :=
  !(rqRelease e && !r.issued.isEmpty) &&
  !(r.issued.any (fun q => rqAcquire q.entry && (rqOp q.entry == 1 || rqOp q.entry == 3)))

/-- The next entry completes without being sent. -/
def refuseEntry (k : Nat) (e : BitVec 512) (st : Nat) (s : State) : State :=
  settleRing k ringFuel (setRing k (fun r => { r with next := r.next + 1 }) (putCompletion e st (if rqOp e == 3 then rqSeq e else 0) 0 s))

/-- The next entry is sent. -/
def issueEntry (k : Nat) (e : BitVec 512) (target plane : Nat) (seq : W32) (o : Out) (s : State) : State :=
  emit o (setRing k (fun r => { r with
    next := r.next + 1
    issued := r.issued ++ [{ entry := e, pos := r.next, target := target, attempts := 1, seq := seq, plane := plane }] }) s)

/-- A LINK die runs; one that owns an entry's plane issues it (11 R303). -/
def linksRun (s : State) : Bool := (List.range 4).any (fun i => domainRuns s (linkDie + i))

/-- A row that executes an entry of its own kind: the entry is the ring's next one, and the order lets it go. -/
def entryRow (k : Nat) (e : BitVec 512) (kind : Bool) (f : ReqRing → State) (s : State) : State :=
  match ringAt s k with
  | none => s
  | some r =>
    if nextEntry s k != some e || !kind || !linksRun s || !mayIssue r e then s
    else if badEntry s e then refuseEntry k e stBadArg s
    else f r

/-- The packet of a request. -/
def packetOf (s : State) (e : BitVec 512) (target plane : Nat) (seq : W32) : Out :=
  let payload := if rqOp e == 2 then rd s (rqLocal e) (128 * rqLen e) else if rqOp e == 5 then rd s (rqLocal e) (rqLen e) else []
  if rqOp e == 5 then .message (BitVec.ofNat 16 (rqDest e)) (rqRing e) seq (messagePlanes s (rqDest e)) payload
  else .window (ownTag s) target plane seq e payload

/-- A load or store of the window. -/
def accessRow (op right k : Nat) (e : BitVec 512) (s : State) : State :=
  entryRow k e (rqOp e == op) (fun _ =>
    match sourceCheck s (rqRemote e) right with
    | some st => refuseEntry k e st s
    | none =>
      let id := rstModule (rstAt s (segOf (rqRemote e)))
      let p := planeFor s (rqRemote e) id
      if p == 36 || lineHeld s (rqRemote e) id then s
      else issueEntry k e id p 0 (packetOf s e id p 0) s) s

def outstandingAtomics (s : State) (id : Nat) : Nat :=
  sumNat (s.fab.rings.map (fun r => (r.2.issued.filter (fun q => rqOp q.entry == 3 && q.target == id)).length))

/-- A new atomic: the next sequence number to its target; the 65th outstanding one waits (11 R309). -/
def atomicRow (aop k : Nat) (e : BitVec 512) (s : State) : State :=
  entryRow k e (rqOp e == 3 && rqAop e == aop && !rqRetry e) (fun _ =>
    match sourceCheck s (rqRemote e) rightAt with
    | some st => refuseEntry k e st s
    | none =>
      let id := rstModule (rstAt s (segOf (rqRemote e)))
      let p := planeFor s (rqRemote e) id
      if p == 36 || lineHeld s (rqRemote e) id || 64 ≤ outstandingAtomics s id then s
      else
        let seq := tget s.fab.nextSeq id 1
        let s' := { s with fab := { s.fab with nextSeq := tset s.fab.nextSeq id (seq + 1) } }
        issueEntry k e id p seq (packetOf s e id p seq) s') s

/-- A resubmission carries its old tag; one of an earlier epoch is INDETERMINATE (11 R311; log 40). -/
def resubmitRow (k : Nat) (e : BitVec 512) (s : State) : State :=
  entryRow k e (rqOp e == 3 && rqRetry e) (fun _ =>
    match sourceCheck s (rqRemote e) rightAt with
    | some st => refuseEntry k e st s
    | none =>
      let id := rstModule (rstAt s (segOf (rqRemote e)))
      let p := planeFor s (rqRemote e) id
      let seq := BitVec.ofNat 32 (rqSeq e)
      let old := (s.fab.lostAtomics.filter (fun x => x.1 == id && x.2.1 == seq)).getLast?
      let now := match old with
        | some x => x.2.2 == s.fab.epoch
        | none => seq != 0 && decide (seq.toNat < (tget s.fab.nextSeq id 1).toNat)
      if !now then
        raise 0x4302 data linkDie [a2 (s.power.slotId.toNat % 128), a4 seq.toNat, a4 1] (refuseEntry k e stIndeterminate s)
      else if p == 36 || lineHeld s (rqRemote e) id || 64 ≤ outstandingAtomics s id then s
      else
        let s' := { s with fab := { s.fab with lostAtomics := s.fab.lostAtomics.filter (fun x => !(x.1 == id && x.2.1 == seq)) } }
        issueEntry k e id p seq (packetOf s e id p seq) s') s

/-- A FENCE completes once every earlier request of its stream has (11 Table 11-7). -/
def fenceRow (k : Nat) (e : BitVec 512) (s : State) : State :=
  entryRow k e (rqOp e == 4) (fun r => if r.issued.isEmpty then refuseEntry k e stDone s else s) s

/-- A message takes the next sequence number to its destination ring (11 R315, R316). -/
def msgRow (k : Nat) (e : BitVec 512) (s : State) : State :=
  entryRow k e (rqOp e == 5) (fun _ =>
    if s.fab.unreachable.contains (BitVec.ofNat 16 (rqDest e)) then refuseEntry k e stPeerLost s
    else if (messagePlanes s (rqDest e)).isEmpty then s
    else
      let key := rqDest e * 64 + rqRing e
      let seq := tget s.fab.nextMsg key 1
      let s' := { s with fab := { s.fab with nextMsg := tset s.fab.nextMsg key (seq + 1) } }
      issueEntry k e (rqDest e) 36 seq (packetOf s e (rqDest e) 36 seq) s') s

def execFabRead (ring : Fin 16) (e : BitVec 512) (s : State) : Host.Outcome State Fault Refusal := .next (accessRow 1 rightRd ring.val e s)
def execFabWrite (ring : Fin 16) (e : BitVec 512) (s : State) : Host.Outcome State Fault Refusal := .next (accessRow 2 rightWr ring.val e s)
def execFabAtomicAdd (ring : Fin 16) (e : BitVec 512) (s : State) : Host.Outcome State Fault Refusal := .next (atomicRow 0 ring.val e s)
def execFabAtomicSwap (ring : Fin 16) (e : BitVec 512) (s : State) : Host.Outcome State Fault Refusal := .next (atomicRow 1 ring.val e s)
def execFabAtomicCas (ring : Fin 16) (e : BitVec 512) (s : State) : Host.Outcome State Fault Refusal := .next (atomicRow 2 ring.val e s)
def execFabAtomicAnd (ring : Fin 16) (e : BitVec 512) (s : State) : Host.Outcome State Fault Refusal := .next (atomicRow 3 ring.val e s)
def execFabAtomicOr (ring : Fin 16) (e : BitVec 512) (s : State) : Host.Outcome State Fault Refusal := .next (atomicRow 4 ring.val e s)
def execFabAtomicMax (ring : Fin 16) (e : BitVec 512) (s : State) : Host.Outcome State Fault Refusal := .next (atomicRow 5 ring.val e s)
def execFabAtomicResubmit (ring : Fin 16) (e : BitVec 512) (s : State) : Host.Outcome State Fault Refusal := .next (resubmitRow ring.val e s)
def execFabFence (ring : Fin 16) (e : BitVec 512) (s : State) : Host.Outcome State Fault Refusal := .next (fenceRow ring.val e s)
def execFabMsg (ring : Fin 16) (e : BitVec 512) (s : State) : Host.Outcome State Fault Refusal := .next (msgRow ring.val e s)

/-! ### Answers, timeouts, lost targets (11 R306, R311, R316, R317) -/

def issuedAt (s : State) (k pos : Nat) : Option Request := (ringAt s k).bind (fun r => r.issued.find? (fun q => q.pos == pos))

/-- A response of another domain or epoch, or one whose data has no way to LOCAL, is not taken (11 R297, 02 R37). -/
def requestResponseArrival (k pos : Nat) (tag : PacketTag) (st : Nat) (bytes : List Byte) (s : State) : State :=
  match issuedAt s k pos with
  | none => s
  | some q =>
    let op := rqOp q.entry
    if op == 5 then (if st == stDone then endRequest k pos stDone 0 0 s else s)
    else if !tagGood s tag || (op == 1 && wayShut s (linkPath ((planeDie s q.plane).getD linkDie) (rqLocal q.entry))) then s
    else
      let s := if op == 1 && st == stDone then portWrite 3 (rqLocal q.entry) (fit (128 * rqLen q.entry) 0 bytes) s else s
      endRequest k pos st (if op == 3 then q.seq.toNat else 0) (if op == 3 && st == stDone then natLE (bytes.take 8) else 0) s

/-- A request goes out again on the same plane, or where that is down on the next above (11 R294, R311). -/
def planeAgain (s : State) (q : Request) : Nat :=
  if planeUsable s q.plane && (memberMask s q.target).testBit q.plane then q.plane else planeFor s (rqRemote q.entry) q.target

/-- A message is sent again while a plane is up. -/
def sendAgain (q : Request) (s : State) : State :=
  if (messagePlanes s (rqDest q.entry)).isEmpty then s else emit (packetOf s q.entry q.target q.plane q.seq) s

/-- A request without an answer is sent again; after the third attempt its target is unreachable. -/
def requestTimeout (isAtomic : Bool) (k pos : Nat) (s : State) : State :=
  match issuedAt s k pos with
  | none => s
  | some q =>
    let op := rqOp q.entry
    if (op == 3) != isAtomic || op == 5 then s
    else if q.attempts < 3 then
      let p := planeAgain s q
      let s := settleDrain (setRing k (fun r => { r with
        issued := r.issued.map (fun x => if x.pos == pos then { x with attempts := x.attempts + 1, plane := p } else x) }) s)
      if p == 36 then s else emit (packetOf s q.entry q.target p q.seq) s
    else markUnreachable (BitVec.ofNat 16 q.target) (loseRequest k q s)

def switchPortDownReport (rack : Nat) (s : State) : State :=
  match s.fab.members.find? (fun m => m.rack.toNat == rack) with
  | some m => markUnreachable m.id s
  | none => s

/-- A refused message is sent again, or has been refused for 2^26 LINK beats: NO_ROOM and 0x4801. -/
def messageResendTimer (k pos : Nat) (expired : Bool) (s : State) : State :=
  match issuedAt s k pos with
  | none => s
  | some q =>
    if rqOp q.entry != 5 then s
    else if expired then
      raise 0x4801 data linkDie [a2 (rqDest q.entry), a2 (rqRing q.entry)] (endRequest k pos stNoRoom 0 0 s)
    else sendAgain q s

/-- The acknowledgement of a message is lost: it is sent once more, with 0x4802. -/
def messageAckTimeout (k pos : Nat) (s : State) : State :=
  match issuedAt s k pos with
  | none => s
  | some q =>
    if rqOp q.entry != 5 || 2 ≤ q.attempts then s
    else
      let s := setRing k (fun r => { r with issued := r.issued.map (fun x => if x.pos == pos then { x with attempts := 2 } else x) }) s
      raise 0x4802 data linkDie [a2 (rqDest q.entry), a2 (rqRing q.entry), a4 q.seq.toNat]
        (sendAgain q s)

def execRequestResponseArrival (ring : Fin 16) (pos : Nat) (status : TaggedStatus) (data : List Byte) (s : State) :
    Host.Outcome State Fault Refusal := .next (requestResponseArrival ring.val pos status.tag status.status.toNat data s)
def execAtomicReplyTimeout (ring : Fin 16) (pos : Nat) (s : State) : Host.Outcome State Fault Refusal :=
  .next (requestTimeout true ring.val pos s)
def execWindowRequestTimeout (ring : Fin 16) (pos : Nat) (s : State) : Host.Outcome State Fault Refusal :=
  .next (requestTimeout false ring.val pos s)
def execSwitchPortDownReport (rack : Fin 128) (s : State) : Host.Outcome State Fault Refusal :=
  .next (switchPortDownReport rack.val s)
def execMessageResendTimer (ring : Fin 16) (pos : Nat) (expired : Bool) (s : State) : Host.Outcome State Fault Refusal :=
  .next (messageResendTimer ring.val pos expired s)
def execMessageAckTimeout (ring : Fin 16) (pos : Nat) (s : State) : Host.Outcome State Fault Refusal :=
  .next (messageAckTimeout ring.val pos s)

/-! ### The target's coalescers (11 R308 to R314) -/

def lineKey (a : Nat) : Nat := a / 128
def lineAt (s : State) (k : Nat) : Line := tget s.fab.lines k { queue := [], stopped := [], hot := none, plane := 0 }
def putLine (k : Nat) (l : Line) (s : State) : State :=
  { s with fab := { s.fab with
    lines := if l.queue.isEmpty && l.stopped.isEmpty && l.hot.isNone then tdel s.fab.lines k else tset s.fab.lines k l } }

def waitingSrc (w : Waiting) : Fin 128 := match w with
  | .access r _ => r.srcRack
  | .atomic r _ => r.srcRack
  | .load _ _ src => src

/-- Put a request at the end of a line's queue; with 64 waiting, the sources that wait get no more credits. -/
def enqueue (k plane : Nat) (w : Waiting) (s : State) : State :=
  let l := lineAt s k
  let q := l.queue ++ [w]
  let st := if q.length == 64 then q.foldl (fun l x => if l.contains (waitingSrc x) then l else l ++ [waitingSrc x]) [] else l.stopped
  putLine k { l with queue := q, stopped := st, plane := plane } s

/-- The line has room, and the source has credits on its plane: no line of the plane has stopped it (11 R313). -/
def lineOpen (s : State) (k plane : Nat) (src : Fin 128) : Bool :=
  decide ((lineAt s k).queue.length < 64) && !s.fab.lines.any (fun l => l.2.plane == plane && l.2.stopped.contains src)

def linesOf (home n : Nat) : List Nat := (List.range n).map (fun i => lineKey home + i)

/-- The bytes of a masked line store, joined into runs. -/
def storeLine (home : Nat) (mask : BitVec 128) (bytes : List Byte) (s : State) : State :=
  if mask = BitVec.allOnes 128 then wr home bytes s
  else forEach (bytes.zipIdx) (fun x s => if mask.getLsbD x.2 then wr (home + x.2) [x.1] s else s) s

/-- One line of a load is read as it stands; with the last one the data goes back (11 R308). -/
def readLine (id line : Nat) (s : State) : State :=
  match tfind? s.fab.loads id with
  | none => s
  | some w =>
    let a := w.home + 128 * line
    let got := w.got ++ [(line, rd s a 128)]
    let s := readEvent a 128 s
    if got.length < w.req.lines then { s with fab := { s.fab with loads := tset s.fab.loads id { w with got := got } } }
    else
      winReply w.req.addr.toNat w.req.srcRack.val 0
        ((List.range w.req.lines).flatMap (fun i => ((got.find? (fun x => x.1 == i)).map (fun x => x.2)).getD []))
        { s with fab := { s.fab with loads := tdel s.fab.loads id } }

/-- Loads at the front of a line's queue are read. -/
def drainLoads (k : Nat) : Nat → State → State
  | 0, s => s
  | n + 1, s => match (lineAt s k).queue with
    | .load id line _ :: t => drainLoads k n (readLine id line (putLine k { lineAt s k with queue := t } s))
    | _ => s

/-- A LINK die of this module takes what arrives about `a` and has a way to its home (11 R312, 02 R37). -/
def arrives (s : State) (a : Nat) (home : Option Nat) : Bool :=
  match planeDie s (homePlane a) with
  | none => false
  | some d => inWindow a && rackOf a == s.power.slotId.toNat % 128 && !((home.map (fun h => wayShut s (linkPath d h))).getD false)

/-- A load or store of another module arrives: each of its lines takes its place behind what waits for that line
(11 R302, R307, R308, R312). -/
def remoteRequestArrival (r : WinReq) (s : State) : State :=
  let a := r.addr.toNat
  let src := r.srcRack
  if !arrives s a none || r.lines == 0 then s
  else match targetCheck s src.val r.domain r.epoch a (128 * r.lines) (if r.write then rightWr else rightRd) with
    | .inl (st, ev) => refuseAt src.val a st ev s
    | .inr home =>
      let is := List.range r.lines
      if !arrives s a (some home) || !is.all (fun i => lineOpen s (lineKey home + i) (homePlane (a + 128 * i)) src) then s
      else if r.write then
        forEach is (fun i s => enqueue (lineKey home + i) (homePlane (a + 128 * i))
          (.access { r with addr := r.addr + BitVec.ofNat 64 (128 * i), data := (r.data.drop (128 * i)).take 128, lines := 1 } (home + 128 * i)) s) s
      else
        let id := s.fab.nextLoad
        let s := { s with fab := { s.fab with nextLoad := id + 1, loads := tset s.fab.loads id ⟨r, home, []⟩ } }
        forEach is (fun i s =>
          if (lineAt s (lineKey home + i)).queue.isEmpty then readLine id i s
          else enqueue (lineKey home + i) (homePlane (a + 128 * i)) (.load id i src) s) s

/-- Receipts of a source: the 64 highest-numbered atomics performed. -/
def receiptsOf (s : State) (src : Nat) : List Receipt := tget s.fab.receipts src []
/-- L(src): the lowest sequence number held, 1 with fewer than 64. -/
def lowestHeld (s : State) (src : Nat) : Nat :=
  let rs := receiptsOf s src
  if rs.length < 64 then 1 else ((argMin (fun r => r.seq) rs).map (fun r => r.seq)).getD 1

def atomicNew (aop : Nat) (old op1 op2 : W64) : W64 :=
  match aop with
  | 0 => old + op1
  | 1 => op1
  | 2 => if old = op2 then op1 else old
  | 3 => old &&& op1
  | 4 => old ||| op1
  | _ => if old.toNat < op1.toNat then op1 else old

def addReceipt (src : Nat) (r : Receipt) (s : State) : State :=
  let rs := receiptsOf s src
  let rs := if rs.length < 64 then rs else
    match argMin (fun x => x.seq) rs with
    | some m => rs.filter (fun x => !(x == m))
    | none => rs
  { s with fab := { s.fab with receipts := tset s.fab.receipts src (rs ++ [r]) } }

def winAnswer (a src st : Nat) (old : W64) (s : State) : State := winReply a src st (bytesLE 8 old.toNat) s

/-- An atomic meets the receipt table (11 Table 11-9), and where it is new it is applied. -/
def performAtomic (r : AtomReq) (home : Nat) (s : State) : State :=
  let src := r.srcRack.val
  match (receiptsOf s src).find? (fun x => x.seq == r.seq.toNat) with
  | some x => raise 0x4301 data ((planeDie s (homePlane r.addr.toNat)).getD linkDie) [a2 src, a4 r.seq.toNat] (winAnswer r.addr.toNat src stDone x.old s)
  | none =>
    if r.seq.toNat < lowestHeld s src then
      raise 0x4302 data ((planeDie s (homePlane r.addr.toNat)).getD linkDie) [a2 src, a4 r.seq.toNat, a4 (lowestHeld s src)] (winReply r.addr.toNat src stIndeterminate [] s)
    else
      let old := BitVec.ofNat 64 (rdNat s home 8)
      let s := wr home (bytesLE 8 (atomicNew r.aop.toNat old r.operand1 r.operand2).toNat) s
      winAnswer r.addr.toNat src stDone old (addReceipt src { seq := r.seq.toNat, addr := BitVec.ofNat 64 home, old := old } s)

/-- An atomic arrives: answered at once from the table, or it waits at its line (11 R310, R312). -/
def atomicArrival (r : AtomReq) (s : State) : State :=
  let a := r.addr.toNat
  if !arrives s a none || a % 8 != 0 || 5 < r.aop.toNat then s
  else match targetCheck s r.srcRack.val r.domain r.epoch a 8 rightAt with
    | .inl (st, ev) => refuseAt r.srcRack.val a st ev s
    | .inr home =>
      if !arrives s a (some home) then s
      else if (receiptsOf s r.srcRack.val).any (fun x => x.seq == r.seq.toNat) || r.seq.toNat < lowestHeld s r.srcRack.val then
        performAtomic r home s
      else if lineOpen s (lineKey home) (homePlane a) r.srcRack then enqueue (lineKey home) (homePlane a) (.atomic r home) s else s

/-- ADDs on one word at the front of a queue, at most 8. -/
def leadingAdds (word : Nat) : Nat → List Waiting → List (AtomReq × Nat)
  | n + 1, .atomic r h :: t => if r.aop.toNat == 0 && h == word then (r, h) :: leadingAdds word n t else []
  | _, _ => []

/-- One slot of a line's coalescer: the first store or atomic that waits, or up to 8 ADDs on a word, and the loads behind it
(11 R312, R313). -/
def coalescerSlot (a : Nat) (s : State) : State :=
  let k := lineKey a
  let l := lineAt s k
  match l.queue with
  | [] => s
  | w :: _ =>
    let adds := match w with
      | .atomic r h => if r.aop.toNat == 0 then leadingAdds h 8 l.queue else [(r, h)]
      | _ => []
    let q := l.queue.drop (max 1 adds.length)
    if (planeDie s l.plane).isNone then s
    else
      let s := putLine k { l with queue := q, stopped := if q.length < 32 then [] else l.stopped } s
      drainLoads k q.length (match w with
        | .access r home => winReply r.addr.toNat r.srcRack.val 0 [] (storeLine home r.mask r.data s)
        | .load id line _ => readLine id line s
        | .atomic _ _ => forEach adds (fun x s => performAtomic x.1 x.2 s) s)

/-- A line that has had 32 waiting for 2^16 LINK beats: 0x4401 with the three leading sources, raised by the line's LINK die
at most once in 2^20 of its beats (11 R314). -/
def hotLineTimeout (a : Nat) (s : State) : State :=
  let k := lineKey a
  let l := lineAt s k
  let die := (planeDie s l.plane).getD linkDie
  let now := (paceAt s die).beats
  let recent := match l.hot with
    | some b => decide ((now - b).toNat < 2 ^ 20)
    | none => false
  if l.queue.length < 32 || recent then s
  else
    let srcs := l.queue.foldl (fun m w => addNew m (waitingSrc w).val) []
    let cnt (x : Nat) : Nat := (l.queue.filter (fun w => (waitingSrc w).val == x)).length
    let top := ((sortBy (fun x y => decide (cnt y ≤ cnt x)) srcs) ++ [0xFFFF, 0xFFFF, 0xFFFF]).take 3
    raise 0x4401 data die (a8 (128 * k) :: top.map a2) (putLine k { l with hot := some now } s)

def execRemoteRequestArrival (r : WinReq) (s : State) : Host.Outcome State Fault Refusal := .next (remoteRequestArrival r s)
def execAtomicArrival (r : AtomReq) (s : State) : Host.Outcome State Fault Refusal := .next (atomicArrival r s)
def execCoalescerSlot (line : W64) (s : State) : Host.Outcome State Fault Refusal := .next (coalescerSlot line.toNat s)
def execHotLineTimeout (line : W64) (s : State) : Host.Outcome State Fault Refusal := .next (hotLineTimeout line.toNat s)

/-! ### Receive rings (11 R315, R316) -/

/-- The 64-byte message head; its CRC covers the rest of the head and the payload. -/
def messageHead (src seq : Nat) (payload : List Byte) : List Byte :=
  let h := bytesLE 4 src ++ bytesLE 4 seq ++ bytesLE 4 payload.length ++ List.replicate 48 0
  h ++ bytesLE 4 (crc32 (h ++ payload)).toNat

/-- A message is written whole into the next free slot, or refused (log 41). -/
def messageArrival (src ring seq : Nat) (payload : List Byte) (s : State) : State :=
  let refuse := emit (.msgAck (BitVec.ofNat 16 src) ring false) s
  match (tfind? s.fab.receive ring).bind (fun r => roomAt s r.toNat) with
  | none => refuse
  | some r =>
    let base := r.base.toNat
    let w := rdNat s base 4
    let d := rdNat s (base + 4) 4
    let n := rdNat s (base + 8) 4
    if n == 0 || 4032 < payload.length || n ≤ (w + 2 ^ 32 - d) % 2 ^ 32 then refuse
    else
      let s := wr (base + 64 + 4096 * (w % n)) (messageHead src seq payload ++ payload) s
      emit (.msgAck (BitVec.ofNat 16 src) ring true) (wr base (bytesLE 4 (w + 1)) s)

def execMessageArrival (src : W16) (ring : Fin 64) (seq : W32) (payload : List Byte) (s : State) : Host.Outcome State Fault Refusal :=
  .next (messageArrival src.toNat ring.val seq.toNat payload s)

end Sys2Proof.Machine
end

