-- ==== Sys2Proof/Machine/PowerUp.lean ====
section
/-! DEFINITION. Pins, power-up, bring-up, resets and power-down (chapter 14, 17 R457 to R461, R476, R481, 19 R496 to R500). -/

namespace Sys2Proof.Machine

/-! ### What survives -/

/-- The CONTROL die resets: what is left is the queue, the outputs, the pins and straps, the FRU EEPROM, the fuses, and
the supply of CTL and SNS (14 Table 14-8, R399). -/
def controlReset (s : State) : State :=
  { State.reset with
    pending := s.pending, freeCount := s.freeCount, outs := s.outs
    pace := [(63, { Pace.reset with gated := false, xgated := false, beats := (paceAt s 63).beats, alive := (paceAt s 63).alive })]
    power := { Power.reset with
      pwrEn := s.power.pwrEn, modRst := s.power.modRst, perst := s.power.perst, zeroPin := s.power.zeroPin,
      vralert := s.power.vralert, coolFail := s.power.coolFail, inputLow := s.power.inputLow,
      convertersFailed := s.power.convertersFailed, strapSlot := s.power.strapSlot, strapFeed := s.power.strapFeed,
      fruStorRole := s.power.fruStorRole, fruRecord := s.power.fruRecord,
      domains := [(sdCtl, .inRegulation), (sdSns, .inRegulation)] }
    sec := { Security.reset with counters := s.sec.counters, ownerKeys := s.sec.ownerKeys } }

/-- Every domain has lost its power. -/
def powerLost (s : State) : State :=
  let r := controlReset s
  { r with pace := [], power := { r.power with domains := [], inputLow := false, convertersFailed := [], phase := .off } }

/-- MOD_RST_N holds the CONTROL die with only CTL and SNS on, or the boot ROM starts. -/
def resetTo (s : State) : State :=
  let r := controlReset s
  { r with power := { r.power with phase := if s.power.modRst then .held else .bootRom } }

/-! ### Firmware images (17 R457, R458) -/

def imgKind (h : BitVec 1024) : Nat := fld h 1016 8
def imgSvn (h : BitVec 1024) : Nat := fld h 1000 8
def imgOwnerSigned (h : BitVec 1024) : Bool := fld h 999 1 == 1
def imgValidated (h : BitVec 1024) : Bool := fld h 998 1 == 1
def imgRoot (h : BitVec 1024) : Nat := fld h 997 1
def imgRelease (h : BitVec 1024) : Nat := fld h 960 32
def imgBodyLen (h : BitVec 1024) : Nat := fld h 928 32
def imgMinKeeper (h : BitVec 1024) : Nat := fld h 896 32
def imgSerial (h : BitVec 1024) : Nat := fld h 832 64
def imgDigest (h : BitVec 1024) : BitVec 512 := bits h 0 512
def imgHead (bs : List Byte) : BitVec 1024 := BitVec.ofNat 1024 (natLE (bs.take 128))

def bodyLimit (kind : Nat) : Nat := match kind with | 1 => 262144 | 2 => 1048576 | 3 => 262144 | 4 => 64 | _ => 0

/-- Bytes of a whole image: header, body, trailer. -/
def imgTotal (h : BitVec 1024) : Nat := 128 + imgBodyLen h + 265 + (if imgOwnerSigned h then 265 else 0)

def counterOf (s : State) (kind : Nat) : Nat := max (Config.fusedCounter kind) (tget s.sec.counters kind 0)
def keeperRel (s : State) : Nat := match tfind? s.sec.images 1 with | some i => imgRelease i.head | none => 0
def porterRel (s : State) : Nat := match tfind? s.sec.images 2 with | some i => imgRelease i.head | none => 0

/-- The owner key hash in force: the highest written slot (17 R466). -/
def ownerKeyHash (s : State) : Option (BitVec 512) := s.sec.ownerKeys.getLast?

/-- The reason that refuses an image of the kind expected, if any: the first check that fails (17 R458). -/
def refusal (s : State) (kind : Nat) (bs : List Byte) : Option Nat :=
  let h := imgHead bs
  let body := (bs.drop 128).take (imgBodyLen h)
  let signed := bs.take (128 + imgBodyLen h)
  let tail := bs.drop (128 + imgBodyLen h)
  let vkey := tail.take 133
  let vsig := (tail.drop 133).take 132
  let okey := (tail.drop 265).take 133
  let osig := (tail.drop 398).take 132
  if bs.length < 128 || imgKind h != kind || kind == 0 || 5 ≤ kind || fld h 1008 8 != 1 || 64 ≤ imgSvn h || fld h 992 5 != 0 ||
      fld h 512 320 != 0 || bodyLimit kind < imgBodyLen h || bs.length != imgTotal h ||
      !(imgSerial h == Config.deviceSerial.toNat || (imgSerial h == 0 && kind != 4)) then some 7
  else if Config.sha512 vkey != Config.rootHash (imgRoot h) || Config.rootRevoked (imgRoot h) then some 2
  else if Config.sha512 body != imgDigest h || !Config.ecdsaVerify vkey signed vsig then some 1
  else if (match ownerKeyHash s with
      | some k => !(imgOwnerSigned h && Config.sha512 okey == k && Config.ecdsaVerify okey signed osig)
      | none => false) then some 4
  else if kind ≤ 3 && imgSvn h < counterOf s kind then some 3
  else if (kind == 2 || kind == 3) && keeperRel s < imgMinKeeper h then some 5
  else if kind == 1 && Config.certified && !imgValidated h then some 6
  else none

/-- SHA-512 of the owner key whose signature the image carries and that verifies (17 R466). -/
def ownerSigner (bs : List Byte) : Option (BitVec 512) :=
  let n := 128 + imgBodyLen (imgHead bs)
  let okey := ((bs.drop n).drop 265).take 133
  if imgOwnerSigned (imgHead bs) && Config.ecdsaVerify okey (bs.take n) (((bs.drop n).drop 398).take 132) then some (Config.sha512 okey)
  else none

def imageOf (bs : List Byte) : Image := { head := imgHead bs, digest := Config.sha512 bs, owner := ownerSigner bs }

/-! ### Fetching images (17 R459) -/

/-- Bytes that the fetch under way still asks for: the header first, then pieces of at most 4,096. -/
def fetchLen (f : Fetch) : Nat :=
  if f.got.length < 128 then 128 - f.got.length else min 4096 (imgTotal (imgHead f.got) - f.got.length)

def fetchSend (s : State) : State :=
  match s.sec.fetch with
  | some f => emit (.fetchReq f.kind f.slot f.got.length (fetchLen f)) s
  | none => s

def fetchBegin (kind slot : Nat) (s : State) : State :=
  fetchSend { s with sec := { s.sec with fetch := some { kind := kind, slot := slot, got := [], again := false } } }

/-- Event 0x7101: kind, source, reason. -/
def imageRefused (kind source reason : Nat) (s : State) : State := raiseMgmt 0x7101 [a2 kind, a2 source, a2 reason] s

/-- Bring-up stops: the capability record is closed with what is known, event 0x6006 (14 R394). -/
def bringupStop (why : Nat) (s : State) : State :=
  let s := { s with power := { s.power with phase := .stopped why }, sec := { s.sec with fetch := none } }
  let s := if s.cap.gen.getLsbD 0 then { s with cap := { s.cap with gen := s.cap.gen + 1 } } else s
  raiseMgmt 0x6006 [a2 why] s

/-- Domains that must be in regulation before Porter starts (14 Table 14-6). -/
def baseDomainsUp (s : State) : Bool := (List.range 10).all (fun i => inReg s (16 + i))

/-- Measurement 5, the hardware configuration, as the spec lists its parts (17 Table 17-4). -/
def hwMeasurement (s : State) : BitVec 512 :=
  mkRec 512 [(448, 64, Config.deviceSerial.toNat), (447, 1, Config.certified.toNat), (445, 1, (Config.rootRevoked 0).toNat),
    (444, 1, (Config.rootRevoked 1).toNat), (442, 2, s.sec.ownerKeys.length), (436, 6, counterOf s 1), (430, 6, counterOf s 2),
    (424, 6, counterOf s 3), (423, 1, s.sec.debugOpen.toNat)]

def setMeasured (i : Nat) (v : BitVec 512) (s : State) : State :=
  { s with sec := { s.sec with measured := tset s.sec.measured i v } }

/-- The measurement block as it stands, for a certificate or an attestation (17 R468). -/
def measurementBlock (s : State) : List Byte := (List.range 6).flatMap (fun i => recBytes (tget s.sec.measured (i + 1) 0))

/-- Keeper derives the attestation key from measurements 2 and 5, and issues its certificate (17 R463, R465; log 43). -/
def issueCert (s : State) : State := { s with sec := { s.sec with issued := Config.sha512 (measurementBlock s) } }
def deriveKeys (s : State) : State :=
  issueCert { s with sec := { s.sec with
    ak := Config.sha512 (recBytes (tget s.sec.measured 2 0) ++ recBytes (tget s.sec.measured 5 0)) } }

/-- Porter starts from verified images once the base domains are up and the Mere is +0; TPn of every tower ramps. -/
def tryPorter (s : State) : State :=
  if s.power.phase == .keeper && s.sec.fetch.isNone && (tfind? s.sec.images 2).isSome && (tfind? s.sec.images 3).isSome &&
      baseDomainsUp s then
    let s := issueCert { s with porter := { s.porter with porter := 1 }, power := { s.power with phase := .training, mereZeroed := true } }
    forEach (List.range 8) (fun t s => switchOn (8 + t) s) s
  else s

/-- The next image that Keeper fetches. -/
def fetchNext (kind : Nat) (s : State) : State :=
  if kind == 2 || kind == 3 then fetchBegin kind 0 s
  else tryPorter { s with sec := { s.sec with fetch := none } }

/-- A fetched image has passed R458. -/
def imageTaken (kind slot : Nat) (bs : List Byte) (s : State) : State :=
  let s := { s with sec := { s.sec with fetch := none } }
  if kind == 4 then
    fetchNext 2 (deriveKeys (raiseMgmt 0x7203 [] (let s := { s with sec := { s.sec with debugOpen := true } }; setMeasured 5 (hwMeasurement s) s)))
  else
    let s := { s with sec := { s.sec with images := tset s.sec.images kind (imageOf bs) } }
    let s := setMeasured (kind + 1) (imageOf bs).digest s
    if kind == 1 then { s with sec := { s.sec with refusals := s.sec.refusals.filter (fun r => r.2.1 < slot) } }
    else fetchNext (kind + 1) s

/-- A slot gave no image: `why` is the reason that refused it, none where it holds none (17 R460, R461). -/
def slotFailed (kind slot : Nat) (why : Option Nat) (s : State) : State :=
  let reason := why.getD 0xFF
  let s := { s with sec := { s.sec with fetch := none, refusals := s.sec.refusals ++ [(kind, slot, reason)] } }
  let s := if kind != 1 && why.isSome then imageRefused kind slot reason s else s
  if kind == 4 then fetchNext 2 (deriveKeys s)
  else if slot == 0 then fetchBegin kind 1 s
  else if kind == 1 then
    { s with power := { s.power with phase := .bootStopped, alert := true } }
  else
    let empties := s.sec.refusals.filter (fun r => r.1 == kind && r.2.2 == 0xFF)
    let s := forEach empties (fun r s => imageRefused kind r.2.1 Config.emptySlotReason s) s
    bringupStop 2 (raiseMgmt 0x8101 [a2 kind] s)

/-- A fetch has all the bytes it will get. -/
def fetchEnd (f : Fetch) (s : State) : State :=
  match refusal s f.kind f.got with
  | some r => slotFailed f.kind f.slot (some r) s
  | none => imageTaken f.kind f.slot f.got s

/-- Fetch data: the bytes asked for, or none where the slot holds no image (17 R459). -/
def fetchDataReceive (data : List Byte) (s : State) : State :=
  match s.sec.fetch with
  | none => s
  | some f =>
    if data.isEmpty && f.got.isEmpty then slotFailed f.kind f.slot none s
    else
      let asked := fetchLen f
      let g := { f with got := f.got ++ data, again := false }
      if data.length != asked || (128 ≤ g.got.length && (bodyLimit f.kind < imgBodyLen (imgHead g.got) || fetchLen g == 0)) then
        fetchEnd g s
      else fetchSend { s with sec := { s.sec with fetch := some g } }

/-- An unanswered request is sent once more; after the second the slot counts as empty (17 R459). -/
def fetchRequestTimeout (s : State) : State :=
  match s.sec.fetch with
  | none => s
  | some f =>
    if f.again then slotFailed f.kind f.slot none s
    else fetchSend { s with sec := { s.sec with fetch := some { f with again := true } } }

def execFetchDataReceive (data : List Byte) (s : State) : Host.Outcome State Fault Refusal := .next (fetchDataReceive data s)
def execFetchRequestTimeout (s : State) : Host.Outcome State Fault Refusal := .next (fetchRequestTimeout s)

/-- The boot ROM fetches the Keeper image from slot 0 (17 R460). -/
def bootRomStart (s : State) : State :=
  if s.power.phase == .bootRom && s.sec.fetch.isNone && (tfind? s.sec.images 1).isNone then
    fetchBegin 1 0 (setMeasured 1 Config.romDigest s)
  else s

def execBootRomStart (s : State) : Host.Outcome State Fault Refusal := .next (bootRomStart s)

/-! ### Keeper starts (14 Table 14-6, 17 R461, R464, R474, R476) -/

/-- The policy in force at bring-up: POLICY_SEQ 0, O_FW 0, DOE_ATTEST 1, each MIN_SVN its counter (17 R474). -/
def bringupPolicy (s : State) : BitVec 512 :=
  mkRec 512 [(448, 64, Config.deviceSerial.toNat), (414, 1, 1), (408, 6, counterOf s 1), (402, 6, counterOf s 2),
    (396, 6, counterOf s 3)]

def keeperStart (selfTest certOk : Bool) (s : State) : State :=
  if !(s.power.phase == .bootRom && (tfind? s.sec.images 1).isSome && s.sec.fetch.isNone) then s
  else
    -- the event log begins; a Keeper from slot 1 reports what refused slot 0
    let s := { s with power := { s.power with
      phase := .keeper, slotId := s.power.strapSlot &&& 0x7F, feedTag := s.power.strapFeed,
      fruRecord := putFld s.power.fruRecord 0 32 0xFFFFFFFF } }
    let s := match s.sec.refusals.find? (fun r => r.1 == 1) with
      | some r => imageRefused 1 0 (if r.2.2 == 0xFF then Config.emptySlotReason else r.2.2) s
      | none => s
    if !selfTest then
      bringupStop 1 { s with porter := { s.porter with keeper := 2 }, sec := { s.sec with errorState := true } }
    else
      let role := if 3 ≤ s.power.fruStorRole.toNat then 0 else s.power.fruStorRole
      let s := { s with
        porter := { s.porter with keeper := 1 }
        ports := { s.ports with storRole := role }
        cap := { s.cap with gen := 1 }
        sec := { s.sec with policy := bringupPolicy s, secrets := true, certSlot := certOk } }
      let s := if 3 ≤ s.power.fruStorRole.toNat then raise 0x4907 ctrl dieStor [] s else s
      let s := if certOk then s else raiseMgmt 0x7104 [] s
      let s := setMeasured 6 (bringupPolicy s) (setMeasured 5 (hwMeasurement s) s)
      let s := switchOn sdMere s
      if Config.certified then fetchNext 2 (deriveKeys s) else fetchBegin 4 0 s

def execKeeperStart (selfTest certOk : Bool) (s : State) : Host.Outcome State Fault Refusal :=
  .next (keeperStart selfTest certOk s)

/-! ### Domains (14 R385 to R387, R390) -/

/-- Towers whose bring-up test waits for TLn: TPn up, not tested, and no honoured COOL_FAIL_N (19 R497). -/
def startTowerTests (s : State) : State :=
  if s.power.phase == .training && !(s.power.coolFail && coolHonoured s) then
    forEach ((List.range 8).filter (fun t => inReg s (8 + t) && !(s.power.towersTested.map (·.val)).contains t)) logicOn s
  else s

def domainInRegulation (d : Nat) (s : State) : State :=
  match supplyAt s d with
  | .ramping _ =>
    if d < 8 then
      let s := logicUp d s
      if tfind? s.power.gating d == some 1 then gateReached d 1 s else s
    else
      let s := pacersStart d (setSupply d .inRegulation s)
      if d < 16 then
        let t := d - 8
        let s := unprime [2, 4, 6] t (pondLost t s)
        if tfind? s.power.gating t == some 1 then logicOn t s else startTowerTests s
      else if d == sdCtl then switchOn sdSns (setSupply sdSns .off s)
      else if d == sdSns then { s with power := { s.power with phase := if s.power.modRst then .held else .bootRom } }
      else tryPorter (if d < sdPs then switchOn (d + 1) s else s)
  | _ => s

def execDomainInRegulation (d : Fin 28) (s : State) : Host.Outcome State Fault Refusal := .next (domainInRegulation d.val s)

/-- TLn or TPn has failed twice: both off and every core of the tower retired (14 R386). -/
def towerLost (t : Nat) (s : State) : State :=
  let s := pondOff t (towerLogicOff t s)
  let s := forEach (coresOfTower t) (retireCore false) s
  let s := { s with power := { s.power with towersTested := if t < 8 && !(s.power.towersTested.map (·.val)).contains t
    then s.power.towersTested ++ [Fin.ofNat 8 t] else s.power.towersTested } }
  gateEnded stDeviceFault t s

def domainRegulationTimeout (d : Nat) (s : State) : State :=
  match supplyAt s d with
  | .ramping a =>
    let s := if keeperAlive s then raiseMgmt 0x6004 [a2 d, a2 a] s else s
    if a == 1 then setSupply d (.ramping 2) s
    else if d < 16 then towerLost (d % 8) s
    else if keeperAlive s then bringupStop 3 (setSupply d .off s)
    else powerLost s
  | _ => s

def execDomainRegulationTimeout (d : Fin 28) (s : State) : Host.Outcome State Fault Refusal :=
  .next (domainRegulationTimeout d.val s)

/-! ### Training and tower tests (14 R393, R394, 02 R44, 07 R188) -/

def stackTrainingDone (k : Fin 16) (passed : Bool) (s : State) : State :=
  if s.power.phase != .training || s.power.stacksDone.contains k then s
  else if passed then { s with power := { s.power with stacksDone := s.power.stacksDone ++ [k] } }
  else
    let n := tget s.power.stackAttempts k.val 0 + 1
    let s := { s with power := { s.power with stackAttempts := tset s.power.stackAttempts k.val n } }
    if n < 2 then s
    else raise 0x3301 data (48 + k.val / 2) [a2 k.val] { s with
      power := { s.power with stacksDone := s.power.stacksDone ++ [k] }
      mem := { s.mem with failedPch := (List.range 4).foldl (fun t g => tset t (4 * k.val + g) 0xFFFF) s.mem.failedPch } }

def execStackTrainingDone (stack : Fin 16) (passed : Bool) (s : State) : Host.Outcome State Fault Refusal :=
  .next (stackTrainingDone stack passed s)

/-- A round trains packages 4r to 4r + 3; a round with a package that failed once is trained again. -/
def cellarTrainingDone (r : Fin 8) (failed : List (Fin 32)) (s : State) : State :=
  if s.power.phase != .training || s.power.cellarRounds.contains r then s
  else
    let mine := (failed.map (·.val)).filter (fun p => p / 4 == r.val)
    let att := mine.foldl (fun t p => tmod t p 0 (· + 1)) s.power.cellarAttempts
    let twice := mine.filter (fun p => decide (2 ≤ tget att p 0))
    let s := { s with power := { s.power with cellarAttempts := att } }
    let s := forEach twice (fun p s => if s.power.cellarWithdrawn then s
      else raise 0x3403 data dieCellar [a2 p] { s with power := { s.power with cellarWithdrawn := true } }) s
    if mine.all (fun p => twice.contains p) then
      { s with power := { s.power with cellarRounds := s.power.cellarRounds ++ [r] } }
    else s

def execCellarTrainingDone (round : Fin 8) (failed : List (Fin 32)) (s : State) : Host.Outcome State Fault Refusal :=
  .next (cellarTrainingDone round failed s)

/-- A finding of the power-up bond test: spares first, then a failed group (02 R44). -/
def powerUpBond (f : BondFind) (s : State) : State :=
  let c := f.core.val
  let g := f.group.val
  let left := sparesLeft c g (chan s c)
  setChan c (fun x => { x with groups := tmod x.groups g .reset (fun r => { r with
    used := r.used + min left f.bonds, failed := r.failed || decide (left < f.bonds) }) }) s

def towerBringupTestDone (t : Fin 8) (rows : List (Fin 384 × Nat)) (bonds : List BondFind) (arrays : List (Fin 384))
    (needs : List (List Nat)) (s : State) : State :=
  if s.power.phase != .training || s.power.towersTested.contains t || !towerOn s t.val then s
  else
    let mine (c : Fin 384) : Bool := towerOf c.val == t.val
    let s := pondLost t.val s
    -- the test alone sets every channel's state
    let s := { s with channels := s.channels.filter (fun p => towerOf p.1 != t.val) }
    let s := forEach (rows.filter (fun r => mine r.1)) (fun r s => remapRow r.1.val r.2 s) s
    let bs := bonds.filter (fun b => mine b.core)
    let s := forEach bs powerUpBond s
    let cs := bs.foldl (fun l b => addNew l b.core.val) []
    let s := forEach cs (settleChannel true) s
    let s := forEach (arrays.filter mine) (fun c => retireCore false c.val) s
    let s := forEach (needs.zipIdx.take 3) (fun n s => bringupMargin (3 * t.val + n.2) n.1 s) s
    let s := towerLogicOff t.val s
    { s with power := { s.power with towersTested := s.power.towersTested ++ [t] } }

def execTowerBringupTestDone (tower : Fin 8) (rows : List (Fin 384 × Nat)) (bonds : List BondFind)
    (arrays : List (Fin 384)) (needs : List (List Nat)) (s : State) : Host.Outcome State Fault Refusal :=
  .next (towerBringupTestDone tower rows bonds arrays needs s)

/-- Porter sets READY once the conditions of 14 R396 hold; the capability record is then complete and CAP_GEN even. The
drives that Porter enumerated at bring-up are given with it (12 R332). -/
def readySet (drives : List (Fin 16 × Nat)) (s : State) : State :=
  if s.power.phase == .training && porterRuns s && s.power.mereZeroed && s.power.stacksDone.length == 16 &&
      (s.power.cellarRounds.length == 8 || s.power.cellarWithdrawn) && s.power.towersTested.length == 8 then
    let s := enumerateDrives drives s
    { s with
      power := { s.power with phase := .ready }
      porter := { s.porter with ready := true }
      cap := { s.cap with gen := if s.cap.gen.getLsbD 0 then s.cap.gen + 1 else s.cap.gen } }
  else s

def execReadySet (drives : List (Fin 16 × Nat)) (s : State) : Host.Outcome State Fault Refusal := .next (readySet drives s)

/-! ### Power-down (14 R397 to R399) -/

def drivesUsed (s : State) : List Nat := (s.ports.drives.filter (fun d => d.2.used && !d.2.failed)).map (·.1)

/-- The first row of Table 14-9. CAUSE 3 where bring-up had stopped. -/
def powerDownStart (cause : Nat) (s : State) : State :=
  let c := match s.power.phase with | .stopped _ => 3 | _ => cause
  let s := { s with porter := { s.porter with ready := false } }
  let s := failStep stDeviceFault 0 s
  let s := endSnapshot (Config.snapCause 2) s
  let s := stopDma .stor (stopDma .host s)
  let s := forEach (drivesUsed s) (fun d s => setDrive d (fun x => { x with busy := true, reissued := false }) (emit (.driveCmd d "Flush" 0) s)) s
  let s := { s with ports := { s.ports with flushing := !(drivesUsed s).isEmpty } }
  let s := emit (.management "leaving" [s.fab.moduleId.toNat]) (raiseMgmt 0x6005 [a2 c] s)
  { s with power := { s.power with phase := .down 0, downCause := c } }

/-- The power-down record (14 Table 14-10). -/
def powerDownRecord (s : State) : BitVec 512 :=
  let evs := s.log.entries.take 16
  recSeal (mkRec 512 ([(448, 64, s.steps.lastBoundary.toNat), (416, 32, s.log.next - 1), (408, 8, s.power.downCause),
    (400, 8, evs.length)] ++ evs.zipIdx.map (fun e => (368 - 16 * e.2, 16, e.1.code.toNat))))

def writeRecord (s : State) : State :=
  emit (.fruWrite (powerDownRecord s)) { s with power := { s.power with fruRecord := powerDownRecord s } }

/-- The end of Table 14-9: off, or the CONTROL die resets. -/
def powerDownEnd (s : State) : State := if s.power.pwrEn then resetTo s else powerLost s

/-- The next timed phase (14 R398). On I3C, Keeper writes the record once it has the controller role (19 R500). -/
def powerDownStageAdvance (s : State) : State :=
  match s.power.phase with
  | .down 0 =>
    let s := { s with ports := { s.ports with flushing := false } }
    let s := forEach (List.range 8) towerLogicOff s
    let s := forEach (List.range 8) pondOff s
    { s with power := { s.power with phase := .down 1 } }
  | .down 1 =>
    let s := forEach [20, 21, 22, 23, 24, 25, 19, 17, 18, 16] switchOff s
    { s with power := { s.power with phase := .down 2 }, mem := .reset }
  | .down 2 =>
    if s.power.i3cAddr.isNone || s.power.roleGranted then powerDownEnd (writeRecord s)
    else { s with power := { s.power with phase := .down 3, roleRequested := true } }
  | _ => s

def execPowerDownStageAdvance (s : State) : Host.Outcome State Fault Refusal := .next (powerDownStageAdvance s)

/-! ### Pins -/

def pwrEnAssert (s : State) : State :=
  if s.power.pwrEn then s
  else
    let s := { s with power := { s.power with pwrEn := true } }
    match s.power.phase with
    | .off => switchOn sdCtl { s with power := { s.power with phase := .ramp } }
    | _ => s

/-- Keeper is not yet running: there is nothing to power down in order (log 21). -/
def beforeKeeper (p : Phase) : Bool := p == .off || p == .ramp || p == .bootRom || p == .bootStopped || p == .held

def pwrEnDeassert (s : State) : State :=
  if !s.power.pwrEn then s
  else
    let s := { s with power := { s.power with pwrEn := false } }
    match s.power.phase with
    | .down _ => { s with power := { s.power with downCause := if s.power.downCause == 2 then 1 else s.power.downCause } }
    | p => if beforeKeeper p then powerLost s else powerDownStart 1 s

def modRstNAssert (s : State) : State :=
  if s.power.modRst then s
  else
    let s := { s with power := { s.power with modRst := true } }
    match s.power.phase with
    | .off => s
    | .ramp => s
    | .down _ => s
    | .held => s
    | .bootRom => resetTo s
    | .bootStopped => resetTo s
    | _ => powerDownStart 2 s

def modRstNDeassert (s : State) : State :=
  let s := { s with power := { s.power with modRst := false } }
  if s.power.phase == .held then resetTo s else s

def perstNAssert (s : State) : State :=
  let s := { s with power := { s.power with perst := true } }
  if inReg s sdPh then resetFunction .host { s with ports := { s.ports with hostLink := 0 } } else s

def perstNDeassert (s : State) : State := { s with power := { s.power with perst := false } }

/-- A Function Level Reset of a function that the module presents: STOR only as an endpoint (12 R330, R335). -/
def functionLevelReset (f : PortFn) (s : State) : State :=
  match f with
  | .host => if inReg s sdPh then resetFunction .host s else s
  | .stor => if inReg s sdPs && s.ports.storRole == 2 then resetFunction .stor s else s

def storHotReset (s : State) : State :=
  if inReg s sdPs && s.ports.storRole == 2 then resetFunction .stor { s with ports := { s.ports with storLink := 0 } } else s

def execPwrEnAssert (s : State) : Host.Outcome State Fault Refusal := .next (pwrEnAssert s)
def execPwrEnDeassert (s : State) : Host.Outcome State Fault Refusal := .next (pwrEnDeassert s)
def execModRstNAssert (s : State) : Host.Outcome State Fault Refusal := .next (modRstNAssert s)
def execModRstNDeassert (s : State) : Host.Outcome State Fault Refusal := .next (modRstNDeassert s)
def execPerstNAssert (s : State) : Host.Outcome State Fault Refusal := .next (perstNAssert s)
def execPerstNDeassert (s : State) : Host.Outcome State Fault Refusal := .next (perstNDeassert s)
def execFunctionLevelReset (f : PortFn) (s : State) : Host.Outcome State Fault Refusal := .next (functionLevelReset f s)
def execStorHotReset (s : State) : Host.Outcome State Fault Refusal := .next (storHotReset s)

/-! ### Input supervision (14 R380, R381) -/

def inputUndervoltage (mv : Nat) (s : State) : State :=
  if s.power.inputLow || s.power.phase == .off then s
  else
    let s := { s with power := { s.power with inputLow := true } }
    if keeperAlive s then raiseMgmt 0x6001 [a2 mv] s else s

def inputUndervoltageClear (s : State) : State := { s with power := { s.power with inputLow := false } }
def inputOvervoltage (mv : Nat) (s : State) : State := if keeperAlive s then raiseMgmt 0x6002 [a2 mv] s else s

/-- The converters stop: the module stays off until PWR_EN is deasserted and asserted again. -/
def inputSupplyCollapse (s : State) : State := powerLost s

def converterFail (n : Fin 4) (s : State) : State :=
  if s.power.phase == .off || s.power.convertersFailed.contains n then s
  else
    let s := { s with power := { s.power with convertersFailed := s.power.convertersFailed ++ [n] } }
    if keeperAlive s then raiseMgmt 0x6007 [a2 n.val] s else s

def execInputUndervoltage (mv : W16) (s : State) : Host.Outcome State Fault Refusal := .next (inputUndervoltage mv.toNat s)
def execInputUndervoltageClear (s : State) : Host.Outcome State Fault Refusal := .next (inputUndervoltageClear s)
def execInputOvervoltage (mv : W16) (s : State) : Host.Outcome State Fault Refusal := .next (inputOvervoltage mv.toNat s)
def execInputSupplyCollapse (s : State) : Host.Outcome State Fault Refusal := .next (inputSupplyCollapse s)
def execConverterFail (n : Fin 4) (s : State) : Host.Outcome State Fault Refusal := .next (converterFail n s)

/-! ### Management bus (19 R498, R500) -/

def dynamicAddressAssign (addr : BitVec 7) (s : State) : State :=
  if inReg s sdCtl then { s with power := { s.power with i3cAddr := some addr } } else s

/-- The role is granted for the access under way: at power-down, the record is written and the power-down ends. -/
def controllerRoleGrant (s : State) : State :=
  if !s.power.roleRequested then s
  else
    let s := { s with power := { s.power with roleRequested := false, roleGranted := true } }
    if s.power.phase == .down 3 then powerDownEnd (writeRecord s) else s

def controllerRoleGrantTimeout (s : State) : State :=
  if !s.power.roleRequested then s
  else
    let s := { s with power := { s.power with roleRequested := false } }
    if s.power.phase == .down 3 then powerDownEnd s else s

def execDynamicAddressAssign (addr : BitVec 7) (s : State) : Host.Outcome State Fault Refusal := .next (dynamicAddressAssign addr s)
def execControllerRoleGrant (s : State) : Host.Outcome State Fault Refusal := .next (controllerRoleGrant s)
def execControllerRoleGrantTimeout (s : State) : Host.Outcome State Fault Refusal := .next (controllerRoleGrantTimeout s)

end Sys2Proof.Machine
end

