-- ==== Sys2Proof/Machine/Records.lean ====
section
/-! DEFINITION. Records as reads return them: the event log, the Ledger, the close and router rings, the capability record,
telemetry (09 Tables 9-4 to 9-7, 10 Table 10-3, 13 Table 13-12, 15 Tables 15-4, 15-8 to 15-10, 16 Table 16-1). -/

namespace Sys2Proof.Machine

/-! ### Event log (16 Table 16-1) -/

def eventRecord (e : Event) : BitVec 512 :=
  recSeal (mkRec 512 [(448, 64, e.seq), (384, 64, e.step.toNat), (368, 16, e.code.toNat), (366, 2, e.plane.toNat),
    (360, 6, e.die.toNat), (357, 3, e.severity), (32, 320, natLE (fit 40 0 e.args))])

/-! ### Ledger (09 Tables 9-5 to 9-7) -/

def ledgerRedRecord (r : LedgerRed) : BitVec 256 :=
  mkRec 256 [(224, 32, r.red.toNat), (192, 32, r.count.toNat), (160, 32, r.sloc.toNat), (128, 32, r.sglob.toNat),
    (64, 64, r.sumc2.toNat), (48, 16, r.counted.toNat), (32, 16, r.lateN.toNat), (16, 16, r.carriedIn.toNat),
    (14, 2, r.closeBy.toNat), (12, 2, r.ownCause.toNat), (11, 1, r.skip.toNat), (10, 1, r.ownLate.toNat)]

def ledgerRatioRecord (r : LedgerRatio) : BitVec 64 :=
  mkRec 64 [(32, 32, r.gstep.toNat), (22, 10, r.group), (21, 1, r.limited.toNat), (0, 16, r.ratio.toNat)]

def pad64 (bs : List Byte) : List Byte := fit ((bs.length + 63) / 64 * 64) 0 bs

/-- A whole record, its CRC over everything from byte 0x04 (log 45). -/
def ledgerBytes (r : LedgerRec) : List Byte :=
  let head : BitVec 512 := mkRec 512 [(448, 64, r.step.toNat), (416, 32, r.seq.toNat), (400, 16, dieControl),
    (384, 16, r.reds.length), (368, 16, r.ratios.length), (352, 16, r.micro.toNat), (336, 16, r.sent.toNat),
    (320, 16, r.sentPoisoned.toNat), (304, 16, r.sentLost.toNat), (288, 16, r.sentLate.toNat), (272, 16, r.skipped.toNat),
    (271, 1, r.verdict.toNat), (270, 1, r.carryOut.toNat), (224, 32, r.lagStalls.toNat), (160, 64, r.lagBeats.toNat),
    (144, 16, r.firstPoison.toNat)]
  let body := (recBytes head).drop 4 ++ pad64 (r.reds.flatMap (fun e => recBytes (ledgerRedRecord e)) ++
    r.ratios.flatMap (fun e => recBytes (ledgerRatioRecord e)))
  bytesLE 4 (crc32 body).toNat ++ body

/-- Records, newest first, that fit a ring of `room` bytes. -/
def ringKeep (size : LedgerRec → Nat) : Nat → List LedgerRec → List LedgerRec
  | _, [] => []
  | room, r :: rs => if size r ≤ room then r :: ringKeep size (room - size r) rs else []

def ledgerRing : Nat := 0x4000000

/-! ### Close and router rings -/

def closeBytes (c : CloseRec) : List Byte := recBytes c.head ++ bitmapBytes c.counted ++ bitmapBytes c.carried

def routerBytes (r : RouterRec) : List Byte :=
  recBytes (recSeal (mkRec 256 [(192, 64, r.step.toNat), (184, 8, r.layer), (144, 32, r.counters.choices),
    (112, 32, r.counters.moved), (80, 32, r.counters.dropCap), (64, 16, r.counters.dropLost), (48, 16, r.counters.dropVer),
    (32, 16, r.charged)]))

/-! ### Capability record (13 Table 13-12) -/

/-- "FM-LH964-A". -/
def partNumber : List Byte := fit 16 0 [0x46, 0x4D, 0x2D, 0x4C, 0x48, 0x39, 0x36, 0x34, 0x2D, 0x41]

def ceilingNibbles (s : State) : Nat := (List.range 8).foldl (fun n t => n + effCeiling s t * 16 ^ t) 0
def portsUp (s : State) : Nat := natOfBits ((List.range 36).map (fun p => portUp s p))
def portLanes (s : State) : Nat := (List.range 36).foldl (fun n p => n + portWidth s p % 8 * 16 ^ p) 0
def driveBits (s : State) (f : Drive → Bool) : Nat := natOfBits ((List.range 16).map (fun d => match tfind? s.ports.drives d with
  | some x => f x
  | none => false))

def capHead (s : State) : List Byte :=
  bytesLE 8 s.cap.gen.toNat ++ partNumber ++ [0xB1,
    BitVec.ofNat 8 (Config.certified.toNat + 2 * (s.lodge.correlated || s.lodge.correlatedIn).toNat + 4 * (!s.sec.ownerKeys.isEmpty).toNat),
    s.power.feedTag.setWidth 8, s.power.slotId] ++
  bytesLE 2 s.fab.moduleId.toNat ++ bytesLE 2 (ownerSession s).toNat ++ bytesLE 4 (keeperRel s) ++ bytesLE 4 (porterRel s) ++
  bytesLE 2 s.lodge.partner.toNat ++ bytesLE 2 s.lodge.lodgedFor.toNat ++
  [s.gov.lastLine.setWidth 8, s.ports.storRole, s.cap.frTowers.setWidth 8, 0] ++
  bytesLE 4 (coreMapCheck s).toNat ++ bytesLE 4 (ceilingNibbles s) ++ bytesLE 4 s.mem.withdrawn.length ++ bytesLE 4 0 ++
  bytesLE 48 (coreMap s) ++ bytesLE 144 (channelBits s) ++
  (List.range 64).flatMap (fun i => bytesLE 2 (tget s.mem.failedPch i 0).toNat) ++
  bytesLE 8 (portsUp s) ++ bytesLE 24 (portLanes s) ++ bytesLE 2 (driveBits s (fun d => d.used)) ++ bytesLE 2 (driveBits s (fun d => d.failed))

/-- The 64 KiB record; bytes from 0x01A4 on are 0. -/
def capRecord (s : State) : List Byte := fit 65536 0 (capHead s)

/-! ### Telemetry (15 R426, 02 R29) -/

/-- The pace status and beat count words of the 64 domains, as they lie in the records and control region. -/
def paceWords (s : State) : List Byte :=
  (List.range 64).flatMap (fun d => recBytes (paceStatus s d) ++ recBytes (paceAt s d).beats)

/-- Thermal level in force at a tower: the larger of b and its own (15 R408). -/
def bubbleLevel (s : State) (t : Nat) : Nat := max s.gov.b (towerGov s t).level

def windowSamples (ms : Nat) : Nat := (ms * 1000000 + 8192) / 16384

/-- The governor record (15 Table 15-9). -/
def govRecord (s : State) : BitVec 512 :=
  let g := s.gov
  let causes := s.power.inputLow.toNat + 2 * (!s.power.convertersFailed.isEmpty).toNat + 4 * (vrHolding s).toNat +
    8 * ((List.range 8).any (fun t => (towerGov s t).stoppedCool)).toNat + 16 * g.tripped.toNat
  recSeal (mkRec 512 ([(448, 64, g.sample), (432, 16, g.pIn), (416, 16, g.allow.toNat), (400, 16, g.pC), (384, 16, g.pM),
    (368, 16, g.pL), (352, 16, g.lastEff.1), (336, 16, g.lastEff.2), (324, 12, windowSamples g.window), (318, 6, g.b),
    (312, 6, g.m), (306, 6, g.l), (216, 8, causes)] ++
    (List.range 8).map (fun t => (272 + 4 * t, 4, pointOf s t)) ++
    (List.range 8).map (fun t => (224 + 6 * t, 6, bubbleLevel s t))))

def temp16 (x : Int) : Nat := (BitVec.ofInt 16 x).toNat

/-- A layer's thermal entry (15 Table 15-10). -/
def layerEntry (s : State) (i : Nat) : BitVec 64 :=
  let l := layerAt s i
  mkRec 64 [(48, 16, temp16 l.est), (32, 16, temp16 l.sens), (16, 16, temp16 l.model), (3, 1, l.suspect.toNat),
    (2, 1, l.throttle.toNat),
    (1, 1, ((towerGov s (i / 7)).stoppedPond || s.gov.tripped || (towerGov s (i / 7)).stoppedCool).toNat), (0, 1, (!l.badDiodes.isEmpty).toNat)]

/-- A pace table entry (15 Table 15-8). -/
def paceEntry (s : State) (l p : Nat) : W32 :=
  mkRec 32 [(20, 12, Config.fusedSetpoint l p), (14, 6, tget s.gov.margins l 0), (0, 1, ((tget s.gov.outs l []).contains p).toNat)]

end Sys2Proof.Machine
end

