-- ==== Sys2Proof/Machine/Commands.lean ====
section
/-! DEFINITION. Mailbox commands of groups 0x01, 0x02 and 0x0A: sessions, rooms, apertures, copies and reads
(13 Table 13-7, R357 to R363, 07 R198, R205, R206, 12 R324 to R328, 16 R432). -/

namespace Sys2Proof.Machine

/-! ### NOP and sessions (13 R357 to R359, 18 R482, R483) -/

def execCmdNop (c : Cmd) (s : State) : Host.Outcome State Fault Refusal := .next (order 0x0100 c [] (fun _ s => ok s) s)

/-- The lowest session number not in use; a number stays in use while a mailbox is still bound to it. -/
def freeSession (s : State) : Nat :=
  (((List.range (s.porter.sessions.length + s.porter.mailboxes.length + 1)).map (· + 1)).find? (fun n =>
    (tfind? s.porter.sessions n).isNone && !s.porter.mailboxes.any (fun m => m.2.session.toNat == n))).getD 0xFFFC

def bindMb (n : Nat) (id : W16) (s : State) : State := setMb n (fun m => { m with state := 1, session := id }) s

/-- A forerunner tower that SESSION_OPEN may not name: one whose cores are all retired, or one that runs or is leaving. -/
def towerRetired (s : State) (t : Nat) : Bool := (coresOfTower t).all (fun c => !present s c)
def towerBusy (s : State) (t : Nat) : Bool := tget s.power.domains t .off != .off || s.cap.leaving.getLsbD t

def openSession (owner : Bool) (fr consent : Byte) (n : Nat) (s : State) : Ans × State :=
  let id := freeSession s
  let q : Session := { owner := owner, consent := consent, fn := fnOfMb s n }
  let s := bindMb n (BitVec.ofNat 16 id) { s with porter := { s.porter with sessions := tset s.porter.sessions id q } }
  let s := if owner then capBump { s with cap := { s.cap with entering := fr.setWidth 4 } } else s
  (.done { st := stDone, r0 := id }, s)

/-- SESSION_OPEN (13 R358, 18 R482, R483). -/
def sessionOpen (role : Byte) (join : W16) (fr consent : Byte) : Handler := fun p s =>
  let n := p.cmd.mailbox.val
  if 1 < role.toNat then badInline 0 s
  else if join != 0 then
    if (tfind? s.porter.sessions join.toNat).isSome then (.done { st := stDone, r0 := join.toNat }, bindMb n join s)
    else badInline 2 s
  else if 1 < consent.toNat then badInline 5 s
  else if role == 0 then openSession false 0 consent n s
  else
    let named := (List.range 4).filter (fun t => fr.getLsbD t)
    if 16 ≤ fr.toNat || named.any (towerRetired s) then badInline 4 s
    else if ownerSession s != 0 || s.cap.leaving != 0 || named.any (towerBusy s) then reply stWrongState s
    else openSession true fr consent n s

def execCmdSessionOpen (c : Cmd) (role : Byte) (join : W16) (frTowers consent : Byte) (s : State) :
    Host.Outcome State Fault Refusal := .next (order 0x0101 c [] (sessionOpen role join frTowers consent) s)

/-- SESSION_CLOSE: DONE once every forerunner tower has left the mode (13 R359, 18 R483). -/
def sessionClose : Handler := fun p s =>
  let owner := p.session == ownerSession s
  let s := endSession p.session (some p.cmd.mailbox.val) s
  if owner && s.cap.leaving != 0 then (.wait .close, s) else ok s

def execCmdSessionClose (c : Cmd) (s : State) : Host.Outcome State Fault Refusal := .next (order 0x0102 c [] sessionClose s)

def sessionConsent (consent : Byte) : Handler := fun p s =>
  if 1 < consent.toNat then badInline 0 s
  else
    let s := { s with porter := { s.porter with
      sessions := tupd s.porter.sessions p.session.toNat (fun q => { q with consent := consent }) } }
    ok (if consent == 0 then cancelTowerTests s else s)

def execCmdSessionConsent (c : Cmd) (consent : Byte) (s : State) : Host.Outcome State Fault Refusal :=
  .next (order 0x0103 c [] (sessionConsent consent) s)

/-! ### Rooms (07 R198, R205, R206, 12 R327) -/

def roomRequest (q : RoomReq) (fallback : Byte) : Handler := fun p s =>
  if 7 < q.cls then badInline 0 s
  else if 3 < q.home || !homeAllowed q then badInline 1 s
  else if (q.home == 0 || q.home == 2) && 7 < q.index then badInline 2 s
  else if q.slots == 0 || 5 < q.slots then badInline 3 s
  else if 1 < fallback.toNat then badInline 4 s
  else if q.pages == 0 then badInline 8 s
  else match grantRoom q p.session s with
    | some (id, s) => (.done { st := stDone, r0 := id }, s)
    | none => reply stNoRoom s

def execCmdRoomRequest (c : Cmd) (cls home index slots fallback : Byte) (pages : W32) (s : State) :
    Host.Outcome State Fault Refusal :=
  .next (order 0x0201 c [] (roomRequest {
    cls := cls.toNat, home := home.toNat, index := index.toNat, slots := slots.toNat,
    fallback := fallback == 1, pages := pages.toNat } fallback) s)

/-- A room that a command names must exist and be the session's. -/
def ownRoom (room : W16) (off : Nat) (p : Pending) (s : State) (k : Room → Ans × State) : Ans × State :=
  match roomAt s room.toNat with
  | none => badInline off s
  | some r => if r.owner != p.session then reply stNotOwner s else k r

/-- Mapped by an aperture, exported, or registered as a ring (12 R325, 11 R301, R303, R315). -/
def roomInUse (s : State) (id : Nat) : Bool :=
  s.ports.apertures.any (fun a => apValid a.2 && apRoom a.2 == id) || s.fab.exports.any (fun e => exValid e.2 && exRoom e.2 == id) ||
  s.fab.rings.any (fun r => r.2.room.toNat == id) || s.fab.receive.any (fun r => r.2.toNat == id)

def roomRelease (room : W16) : Handler := fun p s =>
  ownRoom room 0 p s (fun r =>
    if r.releasing then ok s
    else if roomInUse s room.toNat || (r.fresh != 0 && r.active != 0) then reply stWrongState s
    else ok (releaseNow room.toNat s))

def execCmdRoomRelease (c : Cmd) (room : W16) (s : State) : Host.Outcome State Fault Refusal :=
  .next (order 0x0202 c [.room room.toNat] (roomRelease room) s)

/-- ROOM_COMMIT: a version of what lies in the slot (12 R327). -/
def roomCommit (room : W16) : Handler := fun p s =>
  ownRoom room 0 p s (fun r =>
    if r.releasing then reply stWrongState s
    else match openVer r 0 0 with
      | none => reply stWrongState s
      | some r' =>
        (.done { st := stDone, r0 := r'.fresh.toNat, r1 := r'.freshSlot }, commitRoom room.toNat (updRoom room.toNat (fun _ => r') s)))

def execCmdRoomCommit (c : Cmd) (room : W16) (s : State) : Host.Outcome State Fault Refusal :=
  .next (order 0x0203 c [.room room.toNat] (roomCommit room) s)

/-- QUOTA_SET (07 R198). -/
def quotaSet (floors ceils : List Nat) : Handler := fun _ s =>
  let fs := fit 8 0 floors
  let cs := fit 8 0 ceils
  if 1920 < sumNat fs then badInline 0 s
  else match (List.range 8).find? (fun c => cs.getD c 0 < fs.getD c 0) with
    | some c => badInline (4 * c + 2) s
    | none =>
      if (List.range 8).any (fun c => cs.getD c 0 * mib < classUse s c) then reply stWrongState s
      else ok { s with floors := fs, ceilings := cs }

def execCmdQuotaSet (c : Cmd) (floors ceils : List W16) (s : State) : Host.Outcome State Fault Refusal :=
  .next (order 0x0204 c [] (quotaSet (floors.map (fun x => x.toNat)) (ceils.map (fun x => x.toNat))) s)

def roomQuery (room : W16) : Handler := fun _ s =>
  match roomAt s room.toNat with
  | none => if room == 0xFFFF then badInline 0 s
    else (.done { st := stDone, out := some (recBytes (vacantEntry room.toNat)) }, s)
  | some r => (.done { st := stDone, out := some (recBytes (roomEntry room.toNat r)) }, s)

def execCmdRoomQuery (c : Cmd) (room : W16) (s : State) : Host.Outcome State Fault Refusal :=
  .next (order 0x0205 c [.room room.toNat] (roomQuery room) s)

/-! ### Apertures (12 R324, R325) -/

/-- Porter writes an aperture's entry; a new mapping may raise 0x4902 again (12 R326). -/
def setAperture (a : Nat) (x : BitVec 128) (s : State) : State :=
  { s with ports := { s.ports with
    apertures := if x == apNone then tdel s.ports.apertures a else tset s.ports.apertures a x
    apRaised := s.ports.apRaised.filter (fun b => b != a) } }

def apertureMap (ap rd_ wr_ : Byte) (room : W16) (offset pages : Nat) : Handler := fun p s =>
  if 63 < ap.toNat then badInline 0 s
  else if 1 < rd_.toNat then badInline 1 s
  else if 1 < wr_.toNat then badInline 2 s
  else ownRoom room 4 p s (fun r =>
    if !(r.cls == 5 || r.cls == 6) || r.home == 2 then badInline 4 s
    else if pages == 0 || 65536 < pages then badInline 12 s
    else if r.slots * r.pages < offset + pages then badInline 8 s
    else ok (setAperture ap.toNat (mkRec 128 [(112, 16, room.toNat), (96, 16, p.session.toNat), (72, 24, offset), (48, 24, pages),
      (34, 1, 1), (33, 1, rd_.toNat), (32, 1, wr_.toNat)]) s))

def execCmdApertureMap (c : Cmd) (aperture rd wr : Byte) (room : W16) (offset pages : W32) (s : State) :
    Host.Outcome State Fault Refusal :=
  .next (order 0x0206 c [.room room.toNat] (apertureMap aperture rd wr room offset.toNat pages.toNat) s)

def apertureUnmap (ap : Byte) : Handler := fun _ s =>
  if 63 < ap.toNat then badInline 0 s else ok (setAperture ap.toNat apNone s)

def execCmdApertureUnmap (c : Cmd) (aperture : Byte) (s : State) : Host.Outcome State Fault Refusal :=
  .next (order 0x0207 c [] (apertureUnmap aperture) s)

/-! ### DMA_COPY (12 R328) -/

/-- `lens` is the list in host memory: address and length of each element. -/
def dmaCopy (dir : Byte) (room : W16) (offset elements : Nat) (lens : List (W64 × W64)) : Handler := fun p s =>
  let total := sumNat (lens.map (fun e => e.2.toNat))
  if 1 < dir.toNat then badInline 0 s
  else ownRoom room 2 p s (fun r =>
    if r.home == 2 then badInline 2 s
    else if slotBytes r < offset + total then badInline 4 s
    else if lens.any (fun e => e.1.toNat % 4096 != 0 || e.2.toNat % 4096 != 0) then badInline 8 s
    else if elements == 0 || 65536 < elements || lens.length != elements then badInline 16 s
    else
      let d : Dma := { toHost := dir == 0, room := room, offset := offset, list := lens }
      (.wait .dma, { s with ports := { s.ports with dmas := s.ports.dmas ++ [(fnOfMb s p.cmd.mailbox.val, d)] } }))

def execCmdDmaCopy (c : Cmd) (dir : Byte) (room : W16) (offset : W32) (list : W64) (elements : W32) (lens : List (W64 × W64))
    (s : State) : Host.Outcome State Fault Refusal :=
  let _ := list
  .next (order 0x0208 c [.room room.toNat] (dmaCopy dir room offset.toNat elements.toNat lens) s)

/-! ### Reads (13 Table 13-7, 09 R266, 10 R286, 16 R429, R432) -/

/-- The records asked for; PARTIAL where some are not present. -/
def readReply {α : Type} (f : α → List Byte) (count : Nat) (found : List α) : Ans :=
  .done { st := if found.length < count then stPartial else stDone, out := some (found.flatMap f) }

def ledgerRead (first count : W32) : Handler := fun _ s =>
  let found := s.steps.ledger.reverse.filter (fun r => decide ((r.seq - first).toNat < count.toNat))
  (readReply ledgerBytes count.toNat found, s)

/-- EVENT_READ: a read through mailbox 64 releases ALERT_N once it reaches every entry of severity 4 or above. -/
def eventRead (first : W64) (count : W32) : Handler := fun p s =>
  let found := s.log.entries.reverse.filter (fun e => decide (first.toNat ≤ e.seq) && decide (e.seq < first.toNat + count.toNat))
  let got := found.take (p.cmd.argLen.toNat / 64)
  let seen := listMax (s.log.seen64 :: got.map (fun e => e.seq))
  let s := if p.cmd.mailbox.val == 64 then { s with
      log := { s.log with seen64 := seen }, power := { s.power with alert := s.power.alert && alertNow s seen } } else s
  (readReply (fun e => recBytes (eventRecord e)) count.toNat found, s)

/-- Records numbered from 0 as they were written, the newest first in the list. -/
def numbered {α : Type} (next : Nat) (l : List α) (first count : Nat) : List α :=
  (l.zipIdx.filterMap (fun (r, i) =>
    let n := next - 1 - i
    if first ≤ n && n < first + count then some r else none)).reverse

def ringRead (ring : Byte) (first count : Nat) : Handler := fun _ s =>
  if ring == 0 then (readReply closeBytes count (numbered s.red.closeNext s.red.closeRing first count), s)
  else if ring == 1 then (readReply routerBytes count (numbered s.exch.ringNext s.exch.ring first count), s)
  else badInline 0 s

def telemetryRead (kind : Byte) : Handler := fun _ s =>
  match kind.toNat with
  | 0 => (.done { st := stDone, out := some (paceWords s) }, s)
  | 1 => (.done { st := stDone, out := some (recBytes (govRecord s)) }, s)
  | 2 => (.done { st := stDone, out := some ((List.range 56).flatMap (fun i => recBytes (layerEntry s i))) }, s)
  | _ => badInline 0 s

def execCmdLedgerRead (c : Cmd) (first count : W32) (s : State) : Host.Outcome State Fault Refusal :=
  .next (order 0x0A01 c [] (ledgerRead first count) s)
def execCmdEventRead (c : Cmd) (first : W64) (count : W32) (s : State) : Host.Outcome State Fault Refusal :=
  .next (order 0x0A02 c [] (eventRead first count) s)
def execCmdRingRead (c : Cmd) (ring : Byte) (first count : W32) (s : State) : Host.Outcome State Fault Refusal :=
  .next (order 0x0A03 c [] (ringRead ring first.toNat count.toNat) s)
def execCmdTelemetryRead (c : Cmd) (kind : Byte) (s : State) : Host.Outcome State Fault Refusal :=
  .next (order 0x0A04 c [] (telemetryRead kind) s)
def execCmdCapRead (c : Cmd) (s : State) : Host.Outcome State Fault Refusal :=
  .next (order 0x0A05 c [] (fun _ s => (.done { st := stDone, out := some (capRecord s) }, s)) s)

end Sys2Proof.Machine
end

