-- ==== Sys2Proof/Machine/Cores.lean ====
section
/-! DEFINITION. Cores and movers: the fetch and the checks of a task, its ending, and what a task without a program computes
(03 R68, R86, R87, 04 R91 to R121, 05 R138, R149, 07 R183 to R213). -/

namespace Sys2Proof.Machine

/-! ### What an initiator reaches (07 Table 7-2, R187, 04 R104, 18 R486) -/

def reachesPond (s : State) (c a n : Nat) : Bool :=
  let st := chanState s c
  let fr := isForerunner s (towerOf c)
  let lo := if st == csBorrowing then sliceBase (partner c) + halfSlice else sliceBase c
  let len := if fr then 0x800000 else if st == csBorrowing || st == csLending then halfSlice else sliceLen
  decide (st < 5) && decide (lo ≤ a) && decide (a + n ≤ lo + len)

/-- Inside one Mere slice, above Porter's reserve (07 R193); no stream's row runs on into the next slice. -/
def reachesMere (a n : Nat) : Bool :=
  regionOf a == .mere && !inReserve a && (a - 0x80000000000) / 0x10000000 == (a + n - 1 - 0x80000000000) / 0x10000000

def reaches (s : State) (c a n : Nat) : Bool :=
  if n == 0 then true
  else if c < 384 then reachesMere a n || reachesPond s c a n
  else
    let stack := regionOf a == .stack && regionOf (a + n - 1) == .stack
    if c == 0x188 then reachesMere a n || stack || (regionOf a == .cellar && regionOf (a + n - 1) == .cellar)
    else reachesMere a n || (stack && towerRegion a == c - 0x180 && towerRegion (a + n - 1) == c - 0x180)

/-- Byte ranges of a stream: its elements, and its scale array. -/
def spansOf (x : BitVec 256) : List (Nat × Nat) :=
  let w := fmtBits (sFmt x)
  let last := (sExt2 x - 1) * sStr2 x + (sExt1 x - 1) * sStr1 x + sExt0 x
  let blocks := sExt2 x * max (sExt1 x * cdiv (sExt0 x) 32) (sExt0 x * cdiv (sExt1 x) 32)
  (sBase x, (last * w + 7) / 8) :: (if sScaled x && sFmt x != 0xA then [(headerAt x, 16 + blocks)] else [])

/-- Rows of a stream that hold elements, and its scale array: what the engines read or write (07 R183). -/
def rowsOf (x : BitVec 256) : List (Nat × Nat) :=
  let w := fmtBits (sFmt x)
  (List.range (sExt2 x)).flatMap (fun b => (List.range (sExt1 x)).map (fun r =>
    let i := (b * sStr2 x + r * sStr1 x) * w
    (sBase x + i / 8, (i % 8 + sExt0 x * w + 7) / 8))) ++ (spansOf x).drop 1

/-- The stream stays in slot 0 of its room (07 R200). -/
def insideRoom (s : State) (room a n : Nat) : Bool :=
  room == 0xFFFF || (match roomAt s room with
    | some r => decide (r.base.toNat ≤ a) && decide (a + n ≤ r.base.toNat + slotBytes r)
    | none => false)

/-- Every stream of a descriptor, with whether it is an input; auxiliary streams 1 and up as they stand at AUX_ADDR. -/
def streamsOf (s : State) (d : BitVec 2048) : List (BitVec 256 × Bool) :=
  let main := [(dStream d 0, true), (dStream d 1, true), (dStream d 2, true), (dStream d 3, false)]
  let aux := (List.range (dNaux d)).map (fun k =>
    (if k == 0 then dAux0 d else BitVec.ofNat 256 (rdNat s (dAuxAddr d + 32 * (k - 1)) 32), !dAuxOut d k))
  (main ++ aux).filter (fun x => sUsed x.1)

/-- Every address that the task names is one that its initiator reaches: the rows and scale arrays of its streams, its
program, the table of its auxiliary streams, its amax record (04 R104, 07 R183, R184). -/
def addressesOk (s : State) (c : Nat) (d : BitVec 2048) : Bool :=
  (streamsOf s d).all (fun x => (rowsOf x.1).all (fun p =>
    insideRoom s (sRoom x.1) p.1 p.2 && reaches s c (sBase (steerStream s x.1) + p.1 - sBase x.1) p.2)) &&
  (dProgLen d == 0 || (insideRoom s (dProgRoom d) (dProgAddr d) (16 + 8 * dProgLen d) &&
    reaches s c (dProgAddr d) (16 + 8 * dProgLen d))) &&
  (dNaux d ≤ 1 || reaches s c (dAuxAddr d) (32 * (dNaux d - 1))) &&
  (dAmaxAxes d == 0 || reaches s c (dAmaxAddr d) (amaxLen (dStream d 3) (dAmaxAxes d)))

/-- Every input room holds the version its stream names, every output room has it fresh (04 R120, 05 R138). -/
def versionsOk (s : State) (d : BitVec 2048) : Bool :=
  (streamsOf s d).all (fun x =>
    if sRoom x.1 == 0xFFFF then true
    else match roomAt s (sRoom x.1) with
      | none => false
      | some r => sVer x.1 != 0 && (if x.2 then (holdsVer r (sVer x.1) || (r.slots == 1 && r.current.toNat == sVer x.1))
          else r.fresh.toNat == sVer x.1)) &&
  (dProgLen d == 0 || dProgRoom d == 0xFFFF || (match roomAt s (dProgRoom d) with
    | none => false
    | some r => dProgVer d != 0 && holdsVer r (dProgVer d)))

/-- Scale array headers of the inputs: FMT as the stream names it, AXIS of a product's operand as TRANSPOSE (03 R68, 04 R109). -/
def headersOk (s : State) (d : BitVec 2048) : Bool :=
  (streamsOf s d).all (fun x =>
    let x' := steerStream s x.1
    !x.2 || !sScaled x' || sFmt x' == 0xA ||
      (headFmt (scaleHead s x') == sFmt x' && decide (headFmt (scaleHead s x') ≤ 0xA))) &&
  (dKind d != 0 || [0, 1].all (fun k =>
    let x := steerStream s (dStream d k)
    !sScaled x || sFmt x == 0xA || headAxis (scaleHead s x) == (sTrans x).toNat))

/-! ### Crossings on the way to memory (02 R31, R37, R39, 07 R195) -/

/-- Ways to what a task reads and writes: its streams, its program, its task room. -/
def waysOf (s : State) (c : Nat) (d : BitVec 2048) : List (Nat × Nat) :=
  (streamsOf s d).flatMap (fun x => pathTo c (sBase (steerStream s x.1))) ++
    (if dProgLen d == 0 then [] else pathTo c (dProgAddr d))

def pathShut (s : State) (c : Nat) (d : BitVec 2048) : Bool := wayShut s (waysOf s c d)

/-! ### Poison met by a read (07 R189, R196, R209, R211, R213) -/

/-- Row by row, so that what lies between the rows is not read. -/
def poisonInStream (s : State) (x : BitVec 256) : Option Nat :=
  if s.mem.sound then none else (rowsOf x).findSome? (fun p => s.mem.poisonAt p.1 p.2)

/-! ### DESCRIPTOR_FETCH -/

/-- The initiator has power and its pacer runs. -/
def initiatorRuns (s : State) (c : Nat) : Bool :=
  if c < 384 then towerOn s (towerOf c) && domainRuns s (coreDie c)
  else if c == 0x188 then inReg s sdCel && domainRuns s dieCellar
  else inReg s sdMere && domainRuns s (coreDie c)

/-- The event of a descriptor or program mismatch. -/
def descEvent (c : Nat) (d : BitVec 2048) (s : State) : State := raise 0x2202 data (coreDie c) [a4 (dTask d), a2 c] s

/-- The descriptor as the engines use it: every address steered to its version's slot (07 R200). -/
def steerDesc (s : State) (d : BitVec 2048) : BitVec 2048 :=
  let put (d : BitVec 2048) (lo : Nat) : BitVec 2048 := putFld d lo 256 (steerStream s (bits d lo 256)).toNat
  let d := [512, 768, 1024, 1280, 1536].foldl put d
  if dProgLen d != 0 && dProgRoom d != 0xFFFF then
    match roomAt s (dProgRoom d) with
    | some r => putFld d 1984 64 (steer r (dProgVer d) (dProgAddr d))
    | none => d
  else d

/-- The program at PROG_ADDR: header and instructions, with its CRC checked. -/
def programBytes (s : State) (d : BitVec 2048) : List Byte := rd s (dProgAddr d) (16 + 8 * dProgLen d)
def programOk (s : State) (d : BitVec 2048) : Bool :=
  let bs := programBytes s d
  natLE (bs.take 4) == (crc32 (bs.drop 4)).toNat

/-- The first poisoned word that the fetch reads: descriptor, table of auxiliary streams, program, the last two where the
initiator reaches them (07 R189, R196). -/
def fetchPoison (s : State) (c : Nat) (room : Room) (d : BitVec 2048) : Option Nat :=
  if s.mem.sound then none
  else
    match s.mem.poisonAt room.base.toNat 256 with
    | some a => some a
    | none =>
      if !recCrcOk d || !addressesOk s c d then none
      else match if dNaux d ≤ 1 then none else s.mem.poisonAt (dAuxAddr d) (32 * (dNaux d - 1)) with
        | some a => some a
        | none => if dProgLen d == 0 then none else s.mem.poisonAt (dProgAddr (steerDesc s d)) (16 + 8 * dProgLen d)

/-- Checks of a fetched descriptor; the code that ends the task, and whether event 0x2202 is raised (04 R115, R120, 05 R138,
03 R68). The fetch is one step, so that its causes arise together: the first in the order of R115, with HELD_LOST, which
R115 does not list, behind them (log 32). -/
def fetchVerdict (s : State) (c : Nat) (k : Core) (d : BitVec 2048) : Option (Nat × Bool) :=
  let e := steerDesc s d
  if !recCrcOk d || dCore d != c then some (ccDesc, true)
  else
    let reach := addressesOk s c d
    if reach && dProgLen d != 0 && !programOk s e then some (ccDesc, true)
    else if !reach then some (ccAddress, false)
    else if !headersOk s d then some (ccFormat, false)
    else if !versionsOk s d then some (ccVersion, false)
    else if pathShut s c d then some (ccXtimeout, false)
    else if dAccInit d == 2 && (k.heldLost || k.held.isNone) then some (ccHeldLost, false)
    else none

/-- A task of a core, the running one or the admitted one. -/
def setRun (c : Nat) (first : Bool) (f : TaskRun → TaskRun) (s : State) : State :=
  setCore c (fun k => if first then { k with running := k.running.map f } else { k with admitted := k.admitted.map f }) s

/-- The header of a task's program; without a program, one of geometry TILE that has run to its end (05 Table 5-3). -/
def programHead (s : State) (d : BitVec 2048) : BitVec 128 :=
  if dProgLen d == 0 then mkRec 128 [(83, 2, 1)] else BitVec.ofNat 128 (natLE ((programBytes s d).take 16))

/-- The instructions of a task's program as fetched into its store. -/
def programWords (s : State) (d : BitVec 2048) : List W64 :=
  (pieces 8 ((programBytes s d).drop 16)).map (fun b => BitVec.ofNat 64 (natLE b))

/-- A task whose checks have passed: its addresses steered, its program in an instruction store (05 R138, 07 R200). -/
def checkedRun (s : State) (d : BitVec 2048) (t : TaskRun) : TaskRun :=
  let e := steerDesc s d
  let h := programHead s e
  let t := { t with
    desc := e, checked := true, geom := BitVec.ofNat 2 (hGeom h), head := h
    prog := if dProgLen e == 0 then [] else programWords s e }
  { t with place := if dProgLen e == 0 then ⟨4, 0, 0, 0⟩ else startPos t }

/-- What the verdict on a fetched descriptor does: the task is checked, or is to end with a code; a follower takes the loss of
its bank with it (04 R115, R120, R138). -/
def settleVerdict (c : Nat) (first : Bool) (t : TaskRun) (d : BitVec 2048) (v : Option (Nat × Bool)) (s : State) : State :=
  match v with
  | some (code, ev) =>
    let gated := code == ccXtimeout && wayGated s (waysOf s c d)
    let s := if code == ccHeldLost then setCore c (fun k => { k with heldLost := false, held := none }) s else s
    let s := if ev then descEvent c t.desc s else s
    endRun c first code gated s
  | none => setRun c first (checkedRun s d) s

/-- The descriptor of a task that has been read is checked. -/
def descriptorRead (c : Nat) (first : Bool) (t : TaskRun) (d : BitVec 2048) (s : State) : State :=
  settleVerdict c first t d (fetchVerdict s c (coreAt s c) d) s

/-- A core or mover reads the descriptor of a task from its task room; a shut crossing on the way fails the read, and poison in
what is fetched ends the task (02 R37, 07 R189). -/
def fetchRun (c : Nat) (first : Bool) (t : TaskRun) (s : State) : State :=
  match roomAt s t.room.toNat with
  | none => s
  | some r =>
    let way := pathTo c r.base.toNat
    let d : BitVec 2048 := BitVec.ofNat 2048 (rdNat s r.base.toNat 256)
    if wayShut s way then endRun c first ccXtimeout (wayGated s way) s
    else match fetchPoison s c r d with
      | some a => endRun c first ccMem false (poisonEvent c a s)
      | none => descriptorRead c first t d s

/-- A core or mover fetches and checks the descriptor and program of the task it holds unchecked, the running one first. -/
def descriptorFetch (c : Nat) (s : State) : State :=
  if !initiatorRuns s c then s
  else match (coreAt s c).running, (coreAt s c).admitted with
    | some t, a =>
      if !t.checked && t.ended.isNone then fetchRun c true t s
      else match a with
        | some u => if !u.checked && u.ended.isNone then fetchRun c false u s else s
        | none => s
    | none, _ => s

def execDescriptorFetch (core : Fin 393) (s : State) : Host.Outcome State Fault Refusal := .next (descriptorFetch core.val s)

/-! ### STALL_BUDGET_EXPIRY, ACCUMULATOR_PARITY_ERROR -/

/-- An engine has made no progress for the stall budget: STALL and event 0x2201, unless a cause stands (04 R112, R115). -/
def stallBudgetExpiry (c : Nat) (eng : BitVec 2) (s : State) : State :=
  match (coreAt s c).running with
  | some t =>
    if t.ended.isSome || !initiatorRuns s c then s
    else
      let s := setCore c (fun k => { k with running := k.running.map (fun t => { t with ended := some ccStall, stallEng := eng }) }) s
      raise 0x2201 data (coreDie c) [a4 (dTask t.desc), a2 c, a2 eng.toNat] s
  | none => s

def execStallBudgetExpiry (core : Fin 384) (eng : BitVec 2) (s : State) : Host.Outcome State Fault Refusal :=
  .next (stallBudgetExpiry core.val eng s)

/-- A parity error in an accumulator word: the bank is cleared, the task ends with MEM_ERROR, event 0x2203 (04 R102). -/
def accumulatorParityError (c : Nat) (bank : Fin 2) (s : State) : State :=
  match (coreAt s c).running with
  | some _ =>
    if !initiatorRuns s c then s
    else
      let s := failTask c ccMem (setCore c (fun k => { k with held := none, banks := tdel k.banks bank.val, cleared := some bank }) s)
      raise 0x2203 data (coreDie c) [a4 (((coreAt s c).running.map (fun t => dTask t.desc)).getD 0), a2 c, a2 bank.val] s
  | none => s

def execAccumulatorParityError (core : Fin 384) (bank : Fin 2) (s : State) : Host.Outcome State Fault Refusal :=
  .next (accumulatorParityError core.val bank s)

/-! ### TASK_COMPLETE -/

/-- Positions of a shape in row-major order. -/
def positions (p : Shape) : List (Nat × Nat × Nat) :=
  (List.range p.b).flatMap (fun b => (List.range p.r).flatMap (fun r => (List.range p.c).map (fun c => (b, r, c))))

/-- Write converted elements of stream O; the flags of the conversions (05 R149). -/
def writeOut (r : TaskRun) (vals : List ((Nat × Nat × Nat) × Val)) (moved : Bool) (s : State) : State × Flags :=
  let o := dStream r.desc 3
  let nc := dNumctlO r.desc
  let d := drawOf s r o
  let t := outScale s r (sFmt o)
  let es := vals.map (fun (q, v) =>
    if moved then (storedAt o q.1 q.2.1 q.2.2, v.1.toNat, (0 : Flags))
    else
      let n := convertTo (sFmt o) nc t (rndAt nc d (elemIndex d.at_ q)) v.1
      (storedAt o q.1 q.2.1 q.2.2, n.pat, n.flags ||| v.2))
  let s := if moved then s else noteHistory r (sFmt o) (vals.map (fun v => v.2.1)) s
  (wrElems o (es.map (fun e => (e.1, e.2.1))) s, flagsOr (es.map (fun e => e.2.2)))

/-- The amax unit takes in all of stream O as it has been written. -/
def recordAll (c : Nat) (r : TaskRun) (s : State) : State :=
  let o := dStream r.desc 3
  if !sUsed o then s
  else recordAmax c o (fun s => (positions (shapeOf o)).map (fun q => (q, (value32 s o q.1 q.2.1 q.2.2).1))) s

/-- The banks after a product: its last two units (04 R98). -/
def fillBanks (c : Nat) (r : TaskRun) (held : List W32) (s : State) : State :=
  let n := unitsOf r.desc
  let put (u : Nat) (b : Table (List W32)) : Table (List W32) := tset b (u % 2) (unitBank s r.desc held u)
  setCore c (fun k => { k with banks :=
    if n == 0 then k.banks else if n == 1 then put 0 k.banks else put (n - 1) (put (n - 2) k.banks) }) s

/-- A holding task, with or without a program, leaves its unit in the bank for its follower (04 R100). -/
def holdProduct (c : Nat) (r : TaskRun) (s : State) : State :=
  let d := r.desc
  let held := (coreAt s c).held.getD []
  let bank := heldBank s d held
  let f := flagsOr ((positions ⟨1, dM d, dN d⟩).map (fun q => (productAcc s d held 0 q.2.1 q.2.2).2))
  addFlags c f (setCore c (fun k => { k with held := some bank }) (fillBanks c r held s))

/-- A product without a program that drains (03 R73 to R76, 04 R98 to R100, 05 R149). -/
def runProduct (c : Nat) (r : TaskRun) (s : State) : State :=
  let d := r.desc
  let held := (coreAt s c).held.getD []
  let vals := (positions (taskShape d)).map (fun q => (q, productValue s d held q.1 q.2.1 q.2.2))
  let p := writeOut r vals false s
  recordAll c r (addFlags c p.2 (fillBanks c r held p.1))

/-- A copy or a vector task without a program: bits move unchanged where the formats are the same, else they are converted
(03 R86, 05 R149). -/
def runCopy (c : Nat) (r : TaskRun) (s : State) : State :=
  let d := r.desc
  let a := dStream d 0
  let o := dStream d 3
  let moved := sFmt a == sFmt o && ncAxes (dNumctlO d) == 0
  let vals := (positions (shapeOf a)).map (fun q =>
    (q, if moved then (BitVec.ofNat 32 (patAt s a q.1 q.2.1 q.2.2), (0 : Flags)) else value32 s a q.1 q.2.1 q.2.2))
  let p := writeOut r vals moved s
  recordAll c r (addFlags c p.2 p.1)

/-- Blocks of a stream along the axis of a header (03 R66, R67). -/
def blocksOf (x : BitVec 256) (axis : Nat) : Nat :=
  sExt2 x * (if axis == 0 then sExt1 x * cdiv (sExt0 x) 32 else sExt0 x * cdiv (sExt1 x) 32)

/-- A mover copies elements and, where both streams name one, the scale array header and the scale bytes of its axis, bytes
unchanged (07 R212). -/
def runMover (r : TaskRun) (s : State) : State :=
  let a := dStream r.desc 0
  let o := dStream r.desc 3
  let vals := (positions (shapeOf a)).map (fun q => (q, (BitVec.ofNat 32 (patAt s a q.1 q.2.1 q.2.2), (0 : Flags))))
  let s1 := (writeOut r vals true s).1
  if sScaled a && sScaled o && sFmt a != 0xA then
    engineWrite (headerAt o) (rd s (headerAt a) (16 + blocksOf a (headAxis (scaleHead s a)))) s1
  else s1

/-- Poison in what the task reads: its steered inputs. -/
def taskPoison (s : State) (d : BitVec 2048) : Option Nat :=
  (([0, 1, 2].map (dStream d)).filter sUsed ++ (List.range 6).filterMap (auxIn s d)).findSome? (poisonInStream s)

/-- Ranges that a task reads: its inputs and its program. -/
def readSpans (s : State) (d : BitVec 2048) : List (Nat × Nat) :=
  (([0, 1, 2].map (dStream d)).filter sUsed ++ (List.range 6).filterMap (auxIn s d)).flatMap rowsOf ++
    (if dProgLen d == 0 then [] else [(dProgAddr d, 16 + 8 * dProgLen d)])

/-- CORR of a task: the single-bit errors that stand in what it read, each counted again, those found first, and the repeats
that the operand counts (07 R189, R196; one count of each standing error is DESIGN CHOICE, log 131). -/
def correctedReads (s : State) (d : BitVec 2048) (ctr : Counters) : Counters :=
  let spans := if s.mem.singles.isEmpty then [] else readSpans s d
  let met := s.mem.singles.filter (fun w => spans.any (fun p => decide (w < p.1 + p.2) && decide (p.1 < w + 8)))
  { ctr with corr := satAdd ctr.corr (met.length + ctr.singles.length) }

/-- A correcting read leaves the error in storage (07 R189). -/
def noteSingles (ctr : Counters) (s : State) : State :=
  forEach (ctr.singles.map (fun w => w.toNat / 8 * 8)) (fun w s =>
    if regionOf w == .pond || regionOf w == .mere then { s with mem := { s.mem with singles := addNew s.mem.singles w } } else s) s

/-- Crossings that the end of a task waits on: those of its work where no program has issued it before, else the one to its
completion record. -/
def endWays (s : State) (c : Nat) (d : BitVec 2048) : List (Nat × Nat) :=
  if dProgLen d == 0 then waysOf s c d else pathTo c (dCplAddr d)

/-- Work of a task whose program issues nothing, the bank that a holding task leaves, and the amax record of every task that
keeps one (04 R100, R103). -/
def taskWork (c : Nat) (r : TaskRun) (s : State) : State :=
  let d := r.desc
  let s := if dKind d == 0 && dAccHold d then holdProduct c r s
    else if dProgLen d != 0 then s
    else if 384 ≤ c then recordAll c r (runMover r s)
    else if dKind d == 0 then runProduct c r s
    else runCopy c r s
  let s := if dKind d == 0 && dAccInit d == 2 && !dAccHold d then setCore c (fun k => { k with held := none }) s else s
  if dAmaxAxes d != 0 then
    match (coreAt s c).running with
    | some t => engineWrite (dAmaxAddr d) (amaxRecord t) s
    | none => s
  else s

/-- A mover's record holds no queue counter, no bubble and no flag (07 R212). -/
def moverCounters (k : Counters) : Counters :=
  { k with q1Full := 0, q1Empty := 0, q2Full := 0, q2Empty := 0, q3Full := 0, q3Empty := 0, bubbles := 0 }

/-- Counters as the record carries them. -/
def counted (c : Nat) (k : Counters) : Counters := if c < 384 then k else moverCounters k

/-- A task of the open step has completed with NAN or INF set: notices sent from now on say so (09 R252). -/
def noteNonFinite (t : TaskRun) (numst : Nat) (s : State) : State :=
  match s.steps.job with
  | some j => if j.handle == t.handle && j.step.toNat == dStep t.desc && j.step != 0 && numst % 4 != 0
    then { s with steps := { s.steps with nonFinite := true } } else s
  | none => s

/-- The completion record is written, the room handed back and the admitted task becomes the running one with fresh
registers (04 R121, 05 R125). -/
def writeCompletion (c : Nat) (t : TaskRun) (code : Nat) (ctr : Counters) (s : State) : State :=
  let eng := if code == ccStall then t.stallEng.toNat else ctr.stallEng.toNat
  let numst := if c < 384 then t.flags.toNat else 0
  let rec_ := cplRecord t.desc c code numst t.attempt eng (outVersion t.desc) (some (counted c ctr))
  let s := wr (dCplAddr t.desc) (recBytes rec_) s
  let s := if code == ccDone && numst % 4 != 0 then raise 0x5001 data (coreDie c) [a4 (dTask t.desc), a2 c] s else s
  let s := if code == ccDone then noteNonFinite t numst s else s
  let s := flipRoom t.room.toNat false s
  setCore c (fun k => { k with
    running := k.admitted, admitted := none, vregs := [], vtags := [], cleared := none
    heldLost := if dAccHold t.desc then code != ccDone else k.heldLost
    held := if dAccHold t.desc && code != ccDone then none else k.held }) s

/-- A core or mover ends its task (04 R121). A task that has not been fetched, or whose program has not run to its end, cannot
complete (05 R136); poison that its own engines read ends it with MEM_ERROR, a shut crossing on its way with XTIMEOUT (02 R37,
07 R189, R213). -/
def taskComplete (c : Nat) (ctr : Counters) (s : State) : State :=
  if !initiatorRuns s c then s
  else match (coreAt s c).running with
    | none => s
    | some t =>
      let ctr' := correctedReads s t.desc ctr
      match t.ended with
      | some code => writeCompletion c t code ctr' (noteSingles ctr s)
      | none =>
        if !t.checked || !programEnded t then s
        else if wayShut s (endWays s c t.desc) then
          let t := { t with ended := some ccXtimeout, causeGated := wayGated s (endWays s c t.desc) }
          writeCompletion c t ccXtimeout ctr' (setRun c true (fun _ => t) (noteSingles ctr s))
        else match taskPoison s t.desc with
          | some a => writeCompletion c t ccMem ctr' (poisonEvent c a (noteSingles ctr s))
          | none =>
            let s := taskWork c t (noteSingles ctr s)
            match (coreAt s c).running with
            | some t => writeCompletion c t ccDone ctr' s
            | none => s

def execTaskComplete (core : Fin 393) (ctr : Counters) (s : State) : Host.Outcome State Fault Refusal :=
  .next (taskComplete core.val ctr s)

end Sys2Proof.Machine
end

