-- ==== Sys2Proof/Machine/Params.lean ====
section
/-! DEFINITION. Parameter state: the split master, optimiser moments, the update recipes, the consistency digest, the
update-ratio watch, the Cellar update engine, and state fetched from a source (08 R214 to R242). -/

namespace Sys2Proof.Machine

/-! ### Parameter entries (08 Table 8-1) and optimiser sets (08 Table 8-2) -/

def peRecipe (e : BitVec 512) : Nat := fld e 478 2
def peCFirst (e : BitVec 512) : Bool := fld e 477 1 == 1
def peMrnd (e : BitVec 512) : Nat := fld e 470 2
def peOptSet (e : BitVec 512) : Nat := fld e 456 4
def peMomId (e : BitVec 512) : Nat := fld e 368 32
def peDigestIdx (e : BitVec 512) : Nat := fld e 320 32
def peRem (e : BitVec 512) : Nat := fld e 240 40
def peMom1 (e : BitVec 512) : Nat := fld e 200 40
def peMom2 (e : BitVec 512) : Nat := fld e 160 40
def peColf (e : BitVec 512) : Nat := fld e 120 40

/-- Address of a locator: an offset in pages into slot 0 of its room (08 R218). -/
def locAddr (s : State) (l : Nat) : Nat := ((roomAt s (locRoom l)).map (fun r => r.base.toNat + 4096 * (l % 2 ^ 24))).getD 0

def setWord (x : BitVec 512) (lo : Nat) : W32 := bits x lo 32

/-- The optimiser set of a step (08 R220); a set that the step command did not carry is log 33. -/
def optSet (s : State) (u : Nat) (k : Nat) : BitVec 512 :=
  (((s.steps.sets.find? (fun x => x.1.toNat == u)).map (fun x => x.2[k]?)).join).getD (Config.missingSet u k)

/-- The plan whose entries the update engines follow: the open step's, else the last one loaded that has entries. -/
def trainPlan (s : State) : Option Plan :=
  (openPlan s).orElse (fun _ => ((s.porter.plans.map (fun p => p.2)).filter (fun p => !p.params.isEmpty)).getLast?)

def trainedEntries (s : State) : List (BitVec 512 × Nat) :=
  ((trainPlan s).map (fun p => p.params.zipIdx.filter (fun e => !peFrozen e.1))).getD []

/-! ### The split master (08 R214 to R216) -/

def masterOf (h l : BitVec 16) : W32 := (h.setWidth 32 <<< 16) + l.signExtend 32
/-- RNE_BF16 of a finite master, as its pattern. -/
def highOf (u : W32) : BitVec 16 := BitVec.ofNat 16 ((toBf16 (u, 0)).1.toNat / 65536)
/-- The nudge of R215. -/
def nudge (u : W32) : W32 := if u &&& 0xFFFF == 0x8000 && !u.getLsbD 16 then (u &&& 0xFFFF0000) ||| 0x7FFF else u
def lowOf (u : W32) : BitVec 16 := u.setWidth 16

/-- A legal pair (08 R216). -/
def legalPair (h l : BitVec 16) : Bool :=
  let u := masterOf h l
  !nonFinite32 (h.setWidth 32 <<< 16) && !nonFinite32 u && highOf u == h && (l != 0x8000 || !h.getLsbD 0)

def pairWord (h l : BitVec 16) : W32 := (h.setWidth 32 <<< 16) ||| l.setWidth 32

def words16 (s : State) (a n : Nat) : List (BitVec 16) := (pieces 2 (rd s a (2 * n))).map (fun b => BitVec.ofNat 16 (natLE b))

/-! ### Moments (08 R221, R222) -/

def momPad (e : BitVec 512) : Nat := cdiv (peCols e) 128 * 128
/-- Offset of the block scales: the next 256-byte boundary after the rows. -/
def momScales (e : BitVec 512) : Nat := cdiv (peRows e * momPad e) 256 * 256
def momBlocks (e : BitVec 512) : Nat := cdiv (peCols e) 128
def momLen (e : BitVec 512) : Nat := momScales e + 2 * peRows e * momBlocks e

def bf32 (h : BitVec 16) : W32 := h.setWidth 32 <<< 16

/-- Decoded moments in row-major order. -/
def readMoments (s : State) (e : BitVec 512) (a code : Nat) : Array W32 :=
  ((List.range (peRows e)).flatMap (fun r => (List.range (peCols e)).map (fun c =>
    let q := rdNat s (a + r * momPad e + c) 1
    let sc := bf32 (BitVec.ofNat 16 (rdNat s (a + momScales e + 2 * (r * momBlocks e + c / 128)) 2))
    (to32 (mulN (decodeElem code false q) (of32 sc))).1))).toArray

/-- The largest magnitude, as a pattern. -/
def magMax (vs : List W32) : W32 := vs.foldl (fun a v => if a.toNat < (magOf v).toNat then magOf v else a) 0

/-- a / Qmax in FP32 by nearest even, then toward positive infinity to BF16. -/
def momScale (code : Nat) (a : W32) : BitVec 16 :=
  if a = 0 then 0
  else
    let q := (fdiv a (fpOfNat (if code == 8 then 127 else 255))).1
    if nonFinite32 q then BitVec.ofNat 16 (q.toNat / 65536) else BitVec.ofNat 16 ((q.toNat + 0xFFFF) / 65536)

/-- convert(x / s) into the moment's integer, rounded once; a quotient by +0 is an infinity, and 0 / 0 gives 0. -/
def momQuant (code : Nat) (r : Rnd) (x : W32) (sc : BitVec 16) : Nat :=
  match of32 x, of32 (bf32 sc) with
  | .fin neg m e, .fin tn n f =>
    if n == 0 then (if m == 0 then 0 else (narrowInt code r (.inf (neg != tn))).pat)
    else (narrowIntQ code r (neg != tn) m n (e - f)).pat
  | .fin _ _ _, .inf _ => 0
  | .inf neg, .fin tn _ _ => (narrowInt code r (.inf (neg != tn))).pat
  | _, _ => (narrowInt code r .nan).pat

/-- The scale of a block of new values; a NaN has no magnitude, and the spec gives no scale for a block with one (log 56). -/
def blockScale (code : Nat) (vs : List W32) : BitVec 16 :=
  if vs.any (fun v => decide (0x7F800000 < (magOf v).toNat)) then Config.nanBlockScale vs else momScale code (magMax vs)

/-- Writes of a moment tensor's new values: the stored bytes of each block and its scale, for blocks that `keep` passes. -/
def momWrites (e : BitVec 512) (a code tensor : Nat) (seed : W32) (u : Nat) (keep : Nat → Bool) (xs : Array W32) :
    List (Nat × List Byte) :=
  (List.range (peRows e)).flatMap (fun r => (List.range (momBlocks e)).flatMap (fun b =>
    let n := min 128 (peCols e - 128 * b)
    let i0 := r * peCols e + 128 * b
    if !keep i0 then []
    else
      let vs := (List.range n).map (fun k => xs.getD (i0 + k) 0)
      let sc := blockScale code vs
      let qs := vs.zipIdx.map (fun (v, k) =>
        BitVec.ofNat 8 (momQuant code (rndOf (peMrnd e) (randomOf (BitVec.ofNat 32 tensor) seed (BitVec.ofNat 64 u) (i0 + k))) v sc))
      [(a + r * momPad e + 128 * b, fit 128 0 qs), (a + momScales e + 2 * (r * momBlocks e + b), bytesLE 2 sc.toNat)]))

/-! ### The recipes (08 R224, R225): FP32, each operation rounded to nearest even -/

def fpA (a b : W32) : W32 := (fadd a b).1
def fpM (a b : W32) : W32 := (fmul a b).1
def fpF (a b c : W32) : W32 := (ffma a b c).1
def fpD (a b : W32) : W32 := (fdiv a b).1
def fpS (a : W32) : W32 := (fsqrt a).1
def fpNeg (a : W32) : W32 := a ^^^ 0x80000000
def fpLt (a b : W32) : Bool := ltN (of32 a) (of32 b)

/-- Sums of a list in chunks of 1,024, each a tree, the chunks added in ascending order (05 R146). -/
def chunkSum (vs : List W32) : W32 :=
  (addTotals ((pieces 1024 vs).map (fun c => reduceOf 0 (c.map (fun v => (⟨v, true⟩ : Lane)))))).1

/-- What an update of one element gives: dw, the new first moment and the new root of the second. -/
structure ElemUpd where
  dw : W32
  m : W32
  u : W32
  deriving DecidableEq, Repr

def recipeA (x : BitVec 512) (w g m u : W32) : ElemUpd :=
  let b1 := setWord x 384; let c1 := setWord x 352; let b2 := setWord x 320; let c2 := setWord x 288
  let m' := fpF b1 m (fpM c1 g)
  let v := fpF b2 (fpM u u) (fpM c2 (fpM g g))
  let u' := fpS v
  let d := fpA (fpM u' (setWord x 160)) (setWord x 256)
  let q := fpD (fpM m' (setWord x 192)) d
  ⟨fpNeg (fpM (setWord x 416) (fpF (setWord x 224) w q)), m', u'⟩

def recipeB (x : BitVec 512) (w g m : W32) : ElemUpd :=
  let c := fpF (setWord x 384) m (fpM (setWord x 352) g)
  let sg : W32 := if fpLt 0 c then one32 else if fpLt c 0 then 0xBF800000 else 0
  ⟨fpNeg (fpM (setWord x 416) (fpF (setWord x 224) w sg)), fpF (setWord x 320) m (fpM (setWord x 288) g), 0⟩

/-- The apply pass of recipe C for one element. -/
def recipeC (x : BitVec 512) (cFirst : Bool) (row col tot w g m : W32) : ElemUpd :=
  let m' := if cFirst then fpF (setWord x 384) m (fpM (setWord x 352) g) else 0
  let v := fpD (fpM row col) tot
  let d := fpA (fpM (fpS v) (setWord x 160)) (setWord x 256)
  let q := if cFirst then fpD (fpM m' (setWord x 192)) d else fpD g d
  ⟨fpNeg (fpM (setWord x 416) (fpF (setWord x 224) w q)), m', 0⟩

/-- The factor pass of recipe C over the whole tensor: row factors, column factors, and their total. -/
def factorPass (x : BitVec 512) (rows cols : Nat) (g : Array W32) (row col : List W32) : List W32 × List W32 × W32 :=
  let b2 := setWord x 320; let c2 := setWord x 288; let eps1 := setWord x 128
  let e (r c : Nat) : W32 := let v := g.getD (r * cols + c) 0; fpA (fpM v v) eps1
  let row' := row.zipIdx.map (fun (f, r) =>
    fpF b2 f (fpM c2 (fpD (chunkSum ((List.range cols).map (e r))) (fpOfNat cols))))
  let col' := col.zipIdx.map (fun (f, c) =>
    let t := (addTotals ((List.range rows).map (fun r => (e r c, (0 : Flags))))).1
    fpF b2 f (fpM c2 (fpD t (fpOfNat rows))))
  (row', col', chunkSum row')

/-! ### One tensor's update -/

/-- Stored state of a tensor, as an update reads it. -/
structure TensorIn where
  h : Array (BitVec 16)
  l : Array (BitVec 16)
  g : Array W32
  m1 : Array W32
  m2 : Array W32
  row : List W32
  col : List W32
  deriving DecidableEq, Repr

/-- Gradient elements of a version in FP32 (08 R242). -/
def gradValues (s : State) (a fmt n : Nat) : List W32 :=
  if fmt == 1 then (words16 s (a + 256) n).map bf32 else words32 s (a + 256) n

def keepsM1 (e : BitVec 512) : Bool := peRecipe e == 0 || peRecipe e == 1 || (peRecipe e == 2 && peCFirst e)

def readTensor (s : State) (e : BitVec 512) (gradAt : Nat) : TensorIn :=
  let n := peElems e
  { h := (words16 s (locAddr s (peWork e)) n).toArray
    l := (words16 s (locAddr s (peRem e)) n).toArray
    g := (gradValues s gradAt (fld (BitVec.ofNat 256 (rdNat s gradAt 32)) 124 4) n).toArray
    m1 := if keepsM1 e then readMoments s e (locAddr s (peMom1 e)) 8 else #[]
    m2 := if peRecipe e == 0 then readMoments s e (locAddr s (peMom2 e)) 9 else #[]
    row := if peRecipe e == 2 then words32 s (locAddr s (peMom2 e)) (peRows e) else []
    col := if peRecipe e == 2 then words32 s (locAddr s (peColf e)) (peCols e) else [] }

def TensorIn.master (t : TensorIn) (i : Nat) : W32 := masterOf (t.h.getD i 0) (t.l.getD i 0)

/-- Every element's dw and new moments, the factors, by recipe. -/
def tensorUpd (e x : BitVec 512) (t : TensorIn) : List ElemUpd × List W32 × List W32 :=
  let n := peElems e
  let cols := peCols e
  let at0 (a : Array W32) (i : Nat) : W32 := a.getD i 0
  match peRecipe e with
  | 0 => ((List.range n).map (fun i => recipeA x (t.master i) (at0 t.g i) (at0 t.m1 i) (at0 t.m2 i)), [], [])
  | 1 => ((List.range n).map (fun i => recipeB x (t.master i) (at0 t.g i) (at0 t.m1 i)), [], [])
  | _ =>
    let (row, col, tot) := factorPass x (peRows e) cols t.g t.row t.col
    let ra := row.toArray
    let ca := col.toArray
    ((List.range n).map (fun i => recipeC x (peCFirst e) (at0 ra (i / cols)) (at0 ca (i % cols)) tot (t.master i) (at0 t.g i) (at0 t.m1 i)),
      row, col)

/-- w + RNE(k × dw), and whether the element keeps its old master (08 R224, R228). -/
def newMaster (k w dw : W32) : W32 × Bool :=
  let w' := fpA w (fpM k dw)
  if nonFinite32 w' || nonFinite32 (toBf16 (w', 0)).1 then (w, true) else (nudge w', false)

def digestBlock : Nat := 65536

/-- CRC-32C over the pairs of a digest block (08 R230). -/
def digestOf (hs ls : List (BitVec 16)) : W32 :=
  crc32c ((hs.zip ls).flatMap (fun p => bytesLE 4 (pairWord p.1 p.2).toNat))

/-- Address of a tensor's digest entry. -/
def digestAddr (s : State) (p : Plan) (e : BitVec 512) (b : Nat) : Nat :=
  ((roomAt s p.digestRoom.toNat).map (fun r => r.base.toNat)).getD 0 + 8 * (peDigestIdx e + b)

/-- Digest blocks of a tensor that fail R231 before the update of step u. -/
def failedBlocks (s : State) (p : Plan) (e : BitVec 512) (i u : Nat) (t : TensorIn) : List Nat :=
  if p.checkPeriod == 0 || u == 0 || u % p.checkPeriod != 0 then []
  else (List.range (cdiv (peElems e) digestBlock)).filter (fun b =>
    let hs := (t.h.toList.drop (b * digestBlock)).take digestBlock
    let ls := (t.l.toList.drop (b * digestBlock)).take digestBlock
    let ent := rdNat s (digestAddr s p e b) 8
    let prev := tfind? s.params.digested i
    !((hs.zip ls).all (fun q => legalPair q.1 q.2) && ent % 2 ^ 32 == (digestOf hs ls).toNat &&
      (match prev with
        | some v => ent / 2 ^ 32 == v.toNat % 2 ^ 32
        | none => true)))

/-- What an update writes: the new state of its blocks as home writes, the digest entries, and how many elements kept their
master. -/
structure NewState where
  blocks : List (List (Nat × List Byte))
  digests : List (Nat × W64)
  kept : Nat
  deriving DecidableEq, Repr

/-- The update of a tensor, by digest blocks; `bad` are blocks that are not updated. The factors of recipe C come last. -/
def updateWrites (s : State) (p : Plan) (e x : BitVec 512) (u : Nat) (k : W32) (bad : List Nat) (t : TensorIn) : NewState :=
  let (us, row, col) := tensorUpd e x t
  let res := us.zipIdx.map (fun (v, i) => let r := newMaster k (t.master i) v.dw; (i, v, r.1, r.2))
  let blocks := (List.range (cdiv (peElems e) digestBlock)).filter (fun b => !bad.contains b)
  let halves (b : Nat) : List (BitVec 16 × BitVec 16) := ((res.drop (b * digestBlock)).take digestBlock).map (fun (i, _, w, kept) =>
    if kept then (t.h.getD i 0, t.l.getD i 0) else (highOf w, lowOf w))
  let m1 := (res.map (fun (i, v, _, kept) => if kept then t.m1.getD i 0 else v.m)).toArray
  let m2 := (res.map (fun (i, v, _, kept) => if kept then t.m2.getD i 0 else v.u)).toArray
  let part (b : Nat) : List (Nat × List Byte) :=
    let hl := halves b
    let mine (i : Nat) : Bool := i / digestBlock == b
    [(locAddr s (peWork e) + 2 * b * digestBlock, hl.flatMap (fun q => bytesLE 2 q.1.toNat)),
     (locAddr s (peRem e) + 2 * b * digestBlock, hl.flatMap (fun q => bytesLE 2 q.2.toNat))] ++
    (if keepsM1 e then momWrites e (locAddr s (peMom1 e)) 8 (peMomId e) p.seed u mine m1 else []) ++
    (if peRecipe e == 0 then momWrites e (locAddr s (peMom2 e)) 9 (peMomId e + 1) p.seed u mine m2 else [])
  let fac : List (List (Nat × List Byte)) := if peRecipe e == 2 then
      [[(locAddr s (peMom2 e), row.flatMap (fun w => bytesLE 4 w.toNat)), (locAddr s (peColf e), col.flatMap (fun w => bytesLE 4 w.toNat))]]
    else []
  { blocks := blocks.map part ++ fac
    digests := blocks.map (fun b => (digestAddr s p e b,
      BitVec.ofNat 64 ((digestOf ((halves b).map (fun q => q.1)) ((halves b).map (fun q => q.2))).toNat + u % 2 ^ 32 * 2 ^ 32)))
    kept := (res.filter (fun (i, _, _, kept) => kept && !bad.contains (i / digestBlock))).length }

/-! ### Update-ratio watch (08 R238, R239) -/

/-- Sums Sw and Sd of one tensor. -/
def tensorSums (e x : BitVec 512) (t : TensorIn) : W32 × W32 :=
  (normOf ((List.range (peElems e)).map t.master), normOf ((tensorUpd e x t).1.map (fun v => v.dw)))

/-! Head of a gradient version (08 R242). -/

def headGood (s : State) (e : BitVec 512) (a : Nat) : Bool :=
  let h := BitVec.ofNat 256 (rdNat s a 32)
  recCrcOk h && fld h 128 32 == peTensor e
def headSkip (s : State) (a : Nat) : Bool := rdNat s a 32 / 2 ^ 123 % 2 == 1
def headStep (s : State) (a : Nat) : Nat := rdNat s (a + 24) 8

/-- Address of the version of step u in an entry's gradient room, its head good and its SKIP bit clear. -/
def liveGradient (s : State) (u : Nat) (e : BitVec 512) : Option Nat :=
  (gradVersion s e u).filter (fun a => headGood s e a && !headSkip s a)

/-- The first entry of a watch group in parameter-entry order, a frozen one too: its set gives mode and threshold (08 R239). -/
def groupFirst (s : State) (g : Nat) : Option (BitVec 512) := (trainPlan s).bind (fun p => p.params.find? (fun e => peGroup e == g))

/-- FP16 of the ratio, saturating. -/
def ratioHalf (r : W32) : W16 := BitVec.ofNat 16 (narrowF f16 false .rne (of32 r)).pat

/-- The ratio entry of a watch group at step u, its factor k, and the event that it raises. -/
def watchGroup (s : State) (u group : Nat) (es : List (BitVec 512 × Nat)) : W32 × LedgerRatio × Option (Nat × List (Nat × Nat)) :=
  let sums := es.filterMap (fun e => (liveGradient s u e.1).map (fun a => tensorSums e.1 (optSet s u (peOptSet e.1)) (readTensor s e.1 a)))
  let sw := (addTotals (sums.map (fun x => (x.1, (0 : Flags))))).1
  let sd := (addTotals (sums.map (fun x => (x.2, (0 : Flags))))).1
  let x := match groupFirst s group with
    | some e => optSet s u (peOptSet e)
    | none => 0
  let thr := setWord x 96
  let rho : W32 := if isZero (of32 sw) then (if fpLt 0 sd then 0x477FE000 else 0) else fpS (fpD sd sw)
  let exceeds := fpLt thr rho && fpLt 0 sw
  let limit := exceeds && fld x 95 1 == 1
  let k := if limit then fpD thr rho else one32
  let half := if isZero (of32 sw) then (if fpLt 0 sd then 0x7BFF else 0) else ratioHalf rho
  (k, { gstep := BitVec.ofNat 32 u, group := group, limited := limit, ratio := half },
    if limit then some (0x5202, [a2 group, a8 u, a4 rho.toNat, a4 k.toNat])
    else if exceeds then some (0x5201, [a2 group, a8 u, a4 rho.toNat]) else none)

def putRatio (r : LedgerRatio) (s : State) : State :=
  { s with steps := { s.steps with record := { s.steps.record with ratios := s.steps.record.ratios ++ [r] } } }

/-! ### Parts of a tensor (12 Table 12-9) and the lodged copy (16 R436, R438) -/

/-- Parts 0 to 5 of an entry: PART code, home address, bytes. A frozen tensor has its working copy only. -/
def tensorParts (s : State) (p : Plan) (e : BitVec 512) (full : Bool) : List (Nat × Nat × Nat) :=
  let n := peElems e
  let work := [(0, locAddr s (peWork e), 2 * n)]
  if !full || peFrozen e then work
  else
    let m1 := if keepsM1 e then [(2, locAddr s (peMom1 e), momLen e)] else []
    let m2 := match peRecipe e with
      | 0 => [(3, locAddr s (peMom2 e), momLen e)]
      | 2 => [(3, locAddr s (peMom2 e), 4 * peRows e), (4, locAddr s (peColf e), 4 * peCols e)]
      | _ => []
    work ++ [(1, locAddr s (peRem e), 2 * n)] ++ m1 ++ m2 ++ [(5, digestAddr s p e 0, 8 * cdiv n digestBlock)]

def lodgedBytes (s : State) (p : Plan) (e : BitVec 512) : List Byte := (tensorParts s p e true).flatMap (fun q => rd s q.2.1 q.2.2)

/-- After an update of a lodged tensor commits, its new state is sent to the partner (16 R438). -/
def refreshLodged (p : Plan) (e : BitVec 512 × Nat) (u : Nat) (s : State) : State :=
  if s.lodge.partner == 0xFFFF || !isLodged p e then s
  else emit (.lodge s.lodge.partner "refresh" [peTensor e.1, u] (lodgedBytes s p e.1)) s

/-! ### Digest failures and state from a source (08 R232, R237) -/

def digestEvent (e : BitVec 512) (b : Nat) (s : State) : State := raiseCtrl 0x5103 [a4 (peTensor e), a2 b] s

def wholeBlock : Nat := 0xFFFF

def setApplied (i u : Nat) (s : State) : State := { s with params := { s.params with applied := tset s.params.applied i (BitVec.ofNat 64 u) } }
def setDigested (i u : Nat) (s : State) : State := { s with params := { s.params with digested := tset s.params.digested i (BitVec.ofNat 64 u) } }

/-- Lag stalls of an entry end: their number and beats go to the record of the waiting step (08 R234). -/
def endStalls (i : Nat) (s : State) : State :=
  match s.steps.job with
  | none => s
  | some j =>
    if s.params.fetching.any (fun f => f.1 == i) then s
    else
      let mine := j.stalled.filter (fun x => x.1 == i)
      let beats := sumNat (mine.map (fun x => ((paceAt s 63).beats - x.2).toNat))
      let r := s.steps.record
      { s with steps := { s.steps with
        job := some { j with stalled := j.stalled.filter (fun x => x.1 != i) }
        record := { r with lagStalls := r.lagStalls + BitVec.ofNat 32 mine.length, lagBeats := r.lagBeats + BitVec.ofNat 64 beats } } }

/-- No LAG is in force once no gradient version is unapplied (08 R219). -/
def settleLag (s : State) : State :=
  if s.rooms.any (fun r => !r.2.unapplied.isEmpty) then s else { s with steps := { s.steps with lagInForce := none } }

/-- The version of step u has been applied: it is no longer pinned for the engine. -/
def releaseGradient (u : Nat) (e : BitVec 512) (s : State) : State :=
  match (roomAt s (peGradRoom e)).bind (fun r => r.unapplied.find? (fun x => x.2.toNat == u)) with
  | none => s
  | some v =>
    let s := updRoom (peGradRoom e) (fun r => { r with unapplied := r.unapplied.filter (fun x => !(x == v)) }) s
    settleLag (unpinRoom (peGradRoom e) v.1.toNat (saveVersion (peGradRoom e) v.1.toNat s))

/-! ### Staging (08 R217, R227; log 36)

A staging room of class parameter stream in the Mere has two slots: one version copies a block's homes as they stand, the
next holds its new state. Only what a committed version holds is copied home. -/

/-- A writer puts the next version of a staging room, which commits. -/
def putVersion (id : Nat) (bs : List Byte) (s : State) : State :=
  match (roomAt s id).bind (fun r => openVer r 1 0) with
  | some r => commitRoom id (wr (r.base.toNat + freshBase r) bs (putOpened id r s))
  | none => s

/-- Copy a block's homes into the room, and then put its new state. -/
def stageBlock (id : Nat) (ws : List (Nat × List Byte)) (s : State) : State :=
  putVersion id (ws.flatMap (fun w => w.2)) (putVersion id (ws.flatMap (fun w => rd s w.1 w.2.length)) s)

def spansOfWrites (ws : List (Nat × List Byte)) : List (Nat × Nat) := ws.map (fun w => (w.1, w.2.length))

/-- Movers copy what stands at `src` to the homes in order. -/
def copyHome : List (Nat × Nat) → Nat → State → State
  | [], _, s => s
  | p :: ps, src, s => copyHome ps (src + p.2) (homeWrite p.1 (rd s src p.2) s)

/-- The committed version of the room goes home. -/
def blockHome (id : Nat) (spans : List (Nat × Nat)) (s : State) : State :=
  match roomAt s id with
  | some r => copyHome spans (r.base.toNat + r.curSlot * slotBytes r) s
  | none => s

/-- The staging room for an update, as large as its largest block; none where the Mere has no space, and the update waits. -/
def stagingRoom (blocks : List (List (Nat × List Byte))) (s : State) : Option (Nat × State) :=
  grantRoom { cls := 1, home := 1, index := 0, slots := 2, fallback := false
              pages := max 1 (cdiv (listMax (blocks.map (fun ws => sumNat (ws.map (fun w => w.2.length))))) pageBytes) } 0xFFFF s

/-- Compute a tensor's update and stage its first block. `tell` raises the engine's event; blocks that fail their digest are
fetched from a source (08 R228, R231, R232). -/
def stageUpdate (tell : Nat → List (Nat × Nat) → State → State) (p : Plan) (u : Nat) (k : W32) (ratio : Option LedgerRatio)
    (e : BitVec 512 × Nat) (a : Nat) (s : State) : Option (Staged × State) :=
  let t := readTensor s e.1 a
  let bad := failedBlocks s p e.1 e.2 u t
  let n := updateWrites s p e.1 (optSet s u (peOptSet e.1)) u k bad t
  (stagingRoom n.blocks s).map (fun g =>
    let s := forEach bad (fun b s => requestState p e (some b) (BitVec.ofNat 64 u) (digestEvent e.1 b s)) g.2
    let s := if n.kept != 0 then tell 0x5101 [a4 (peTensor e.1), a8 u, a2 n.kept] s else s
    let first := n.blocks.headD []
    ({ step := BitVec.ofNat 64 u, entry := e.2, room := BitVec.ofNat 16 g.1, spans := spansOfWrites first, writes := n.blocks.drop 1
       digests := n.digests, ratio := ratio, skip := false },
     stageBlock g.1 first s))

/-- A staged update goes home: the block staged, then each later one through the same room, then the digest entries. -/
def putHome (x : Staged) (s : State) : State :=
  let s := blockHome x.room.toNat x.spans s
  let s := forEach x.writes (fun ws s => blockHome x.room.toNat (spansOfWrites ws) (stageBlock x.room.toNat ws s)) s
  forEach x.digests (fun d s => homeWrite d.1 (bytesLE 8 d.2.toNat) s) s

/-- A staging room is given back. -/
def freeStaging (x : Staged) (s : State) : State := if x.room == 0xFFFF then s else releaseNow x.room.toNat s

/-- What is staged for a tensor up to a step is dropped, its home state having been replaced (08 R232). -/
def dropStaged (i u : Nat) (s : State) : State :=
  let mine (x : Staged) : Bool := x.entry == i && decide (x.step.toNat ≤ u)
  let gone := s.params.homing.filter mine ++ s.params.staged.toList.filter mine
  forEach gone freeStaging { s with params := { s.params with
    homing := s.params.homing.filter (fun x => !mine x), staged := s.params.staged.filter (fun x => !mine x) } }

/-- The working copy of a one-slot room commits in place (07 R204, 08 R234). -/
def commitWork (e : BitVec 512) (s : State) : State :=
  let id := locRoom (peWork e)
  match (roomAt s id).filter (fun r => r.slots == 1) with
  | some r => match openVer r 1 0 with
    | some r' => commitRoom id (updRoom id (fun _ => r') s)
    | none => s
  | none => s

/-- A pinned version of the working copy, or one being written, makes its writer wait (06 R171, 07 R204). -/
def workPinned (s : State) (e : BitVec 512) : Bool :=
  ((roomAt s (locRoom (peWork e))).map (fun r => pinned r || r.fresh != 0)).getD false

/-- The whole tensor failed: event 0x5103 for every block, and its state is fetched (08 R242). -/
def failTensor (p : Plan) (u : Nat) (e : BitVec 512 × Nat) (s : State) : State :=
  requestState p e none (BitVec.ofNat 64 u) (forEach (List.range (cdiv (peElems e.1) digestBlock)) (fun b s => digestEvent e.1 b s) s)

def putRun (r : Nat × W64 × W32 × LedgerRatio) (s : State) : State :=
  { s with params := { s.params with groupRuns := s.params.groupRuns ++ [r] } }
def runOf (s : State) (g u : Nat) : Option (Nat × W64 × W32 × LedgerRatio) :=
  s.params.groupRuns.find? (fun x => x.1 == g && x.2.1.toNat == u)
def dropRun (g u : Nat) (s : State) : State :=
  { s with params := { s.params with groupRuns := s.params.groupRuns.filter (fun r => !(r.1 == g && r.2.1.toNat == u)) } }

/-- The group's sums come first, over every tensor of it: its factor k, and the event of its ratio (08 R238, R239, log 37). -/
def beginRun (tell : Nat → List (Nat × Nat) → State → State) (g u : Nat) (es : List (BitVec 512 × Nat)) (s : State) : State :=
  let (k, ratio, ev) := watchGroup s u g es
  let s := putRun (g, BitVec.ofNat 64 u, k, ratio) s
  match ev with
  | some (c, as) => tell c as s
  | none => s

/-! ### Stack-resident updates (08 R227, 09 R246): staged in one pass, home in the next (log 36) -/

/-- The verdict of a step under step scope (09 R264). -/
def verdictHeld (s : State) (u : Nat) : Bool :=
  isOpenStep s u && (match layoutFor s verdictRed u with
    | some l => loStep l && s.steps.verdict.isNone
    | none => false)

/-- The update of a tensor is applied, or staged. -/
def updateTaken (s : State) (u : W64) (i : Nat) : Bool :=
  tget s.params.applied i 0 == u || s.params.homing.any (fun x => x.entry == i && x.step == u)

/-- Take one tensor's update: staged, released on SKIP, or held for a source. -/
def takeTensor (p : Plan) (u : Nat) (k : W32) (e : BitVec 512 × Nat) (s : State) : State :=
  match gradVersion s e.1 u with
  | none => s
  | some a =>
    if updateTaken s (BitVec.ofNat 64 u) e.2 then s
    else if !headGood s e.1 a then failTensor p u e (setApplied e.2 u s)
    else if headSkip s a then refreshLodged p e u (setApplied e.2 u s)
    else match stageUpdate raiseCtrl p u k none e a s with
      | some (x, s) => { s with params := { s.params with homing := s.params.homing ++ [x] } }
      | none => s

/-- Take the updates of one ready group. -/
def takeGroup (p : Plan) (u g : Nat) (s : State) : State :=
  let mine := (stackEntries s).filter (fun e => peGroup e.1 == g)
  if mine.all (fun e => updateTaken s (BitVec.ofNat 64 u) e.2) then s
  else
    let s := if (runOf s g u).isSome || !mine.any (fun e => (liveGradient s u e.1).isSome) then s
      else
        let s := beginRun raiseCtrl g u mine s
        match runOf s g u with
        | some r => putRatio r.2.2.2 s
        | none => s
    let k := ((runOf s g u).map (fun r => r.2.2.1)).getD one32
    let s := forEach mine (takeTensor p u k) s
    if mine.all (fun e => updateTaken s (BitVec.ofNat 64 u) e.2) then dropRun g u s else s

/-- The staged updates whose homes no reader holds go home. -/
def settleHoming (s : State) : State :=
  forEach s.params.homing (fun x s =>
    match (trainedEntries s).find? (fun e => e.2 == x.entry), trainPlan s with
    | some e, some p =>
      if workPinned s e.1 then s
      else
        let s := { s with params := { s.params with homing := s.params.homing.filter (fun y => !(y == x)) } }
        let s := freeStaging x (commitWork e.1 (putHome x s))
        let u := x.step.toNat
        refreshLodged p e u (setDigested x.entry u (setApplied x.entry u s))
    | _, _ => freeStaging x { s with params := { s.params with homing := s.params.homing.filter (fun y => !(y == x)) } }) s

/-- Updates of the open step whose groups are ready, in the order in which they became ready. -/
def stackUpdates (s : State) : State :=
  let s := settleHoming s
  match s.steps.job, openPlan s with
  | some j, some p =>
    let u := j.step.toNat
    if u == 0 then s
    else
      let s := noteReady j.step s
      if verdictHeld s u then s
      else forEach ((s.params.readyGroups.filter (fun x => x.1 == j.step)).map (·.2)) (takeGroup p u) s
  | _, _ => s

/-! ### The Cellar update engine (08 R233 to R236) -/

/-- Entries whose updates the engine applies. -/
def residentEntries (s : State) : List (BitVec 512 × Nat) := (trainedEntries s).filter (fun e => peResident e.1)

def oldestUnapplied (s : State) (e : BitVec 512) : Option (W16 × W64) := (roomAt s (peGradRoom e)).bind (fun r => r.unapplied.head?)

/-- The tensor's update of step u awaits its whole state from a source. -/
def fetchesWhole (s : State) (i u : Nat) : Bool := s.params.fetching.any (fun f => f.1 == i && f.2.1.isNone && f.2.2.toNat == u)

/-- The next update in step order, then entry order. -/
def nextUpdate (s : State) : Option ((BitVec 512 × Nat) × W16 × Nat) :=
  let c := (residentEntries s).filterMap (fun e =>
    if s.params.stopped.contains e.2 then none
    else ((oldestUnapplied s e.1).filter (fun v => !fetchesWhole s e.2 v.2.toNat)).map (fun v => (e, v.1, v.2.toNat)))
  argMin (fun x => x.2.2 * 2 ^ 32 + x.1.2) c

/-- State fetched for step u of this tensor, or for an earlier step of any, comes first (08 R236, R237). -/
def fetchHolds (s : State) (i u : Nat) : Bool :=
  s.params.fetching.any (fun f => (f.1 == i && decide (f.2.2.toNat ≤ u)) ||
    (decide (f.2.2.toNat < u) && (residentEntries s).any (fun e => e.2 == f.1)))

/-- A group of Cellar-resident tensors is ready: each holds its committed version, has applied it, or takes its state from a
source. -/
def cellarGroupReady (s : State) (u : Nat) (es : List (BitVec 512 × Nat)) : Bool :=
  es.all (fun e => (gradVersion s e.1 u).isSome || fetchesWhole s e.2 u || decide (u ≤ (tget s.params.applied e.2 0).toNat))

/-- With the last of a group's updates of step u, its ratio goes into the record under way (08 R238). -/
def settleGroup (g u : Nat) (s : State) : State :=
  let open_ := (residentEntries s).any (fun e => peGroup e.1 == g && !s.params.stopped.contains e.2 && !fetchesWhole s e.2 u &&
    ((roomAt s (peGradRoom e.1)).map (fun r => r.unapplied.any (fun v => v.2.toNat == u))).getD false)
  match runOf s g u with
  | some r => if open_ then s else putRatio r.2.2.2 (dropRun g u s)
  | none => s

/-- Stage what a start computed. -/
def stage (x : Staged) (s : State) : State := { s with params := { s.params with staged := some x } }

def cellarTell (code : Nat) (as : List (Nat × Nat)) (s : State) : State := raise code data dieCellar as s

/-- The step that a tensor's next version must carry: that after the last one applied (08 R236). -/
def expectedStep (s : State) (i u : Nat) : Nat :=
  match tfind? s.params.applied i with
  | some a => a.toNat + 1
  | none => u

/-- Compute one tensor's new state with the factor of its group and stage it. -/
def stageTensor (p : Plan) (e : BitVec 512 × Nat) (u a : Nat) (s : State) : State :=
  match runOf s (peGroup e.1) u with
  | none => s
  | some r => match stageUpdate cellarTell p u r.2.2.1 (some r.2.2.2) e a s with
    | some (x, s) => stage x s
    | none => s

/-- The engine begins the next update (08 R231 to R239, R242). -/
def cellarUpdateStart (s : State) : State :=
  if s.params.staged.isSome || s.restore.isSome || !inReg s sdCel || !domainRuns s dieCellar then s
  else match nextUpdate s, trainPlan s with
    | some (e, _, u), some p =>
      let i := e.2
      let g := peGroup e.1
      match gradVersion s e.1 u with
      | some a =>
        if verdictHeld s u || fetchHolds s i u then s
        else if !headGood s e.1 a then settleGroup g u (failTensor p u e s)
        else if headStep s a != expectedStep s i u then
          let s := { s with params := { s.params with stopped := addNew s.params.stopped i } }
          failStep stDeviceFault 3 (raise 0x5102 data dieCellar [a4 (peTensor e.1), a8 (expectedStep s i u), a8 (headStep s a)] (settleGroup g u s))
        else if headSkip s a then
          stage { step := BitVec.ofNat 64 u, entry := i, room := 0xFFFF, spans := [], writes := [], digests := [], ratio := none, skip := true } s
        else
          let mine := (residentEntries s).filter (fun x => peGroup x.1 == g)
          if (runOf s g u).isSome then stageTensor p e u a s
          else if !cellarGroupReady s u mine then s
          else stageTensor p e u a (beginRun cellarTell g u mine s)
      | none => s
    | _, _ => s

/-- The scale pass of a step has completed for a tensor: the step has passed its boundary, or every task of the open step
that reads the working copy has ended (08 R234). -/
def scaleDone (s : State) (t : Nat) (e : BitVec 512 × Nat) : Bool :=
  decide (t ≤ (tget s.params.scaled e.2 0).toNat) ||
  (match s.steps.job, openPlan s with
    | some j, some p => j.step.toNat == t && j.tasks.all (fun q => match planTask p q.1 with
        | some task => !(inputsOf task).any (fun k => k.2 == locRoom (peWork e.1)) || (match q.2 with
          | .done => true
          | .endedWith _ => true
          | .lost => true
          | _ => false)
        | none => true)
    | _, _ => false)

/-- Every scale pass up to a step is complete (08 R234). -/
def setScaled (t : W64) (s : State) : State :=
  { s with params := { s.params with scaled := ((trainPlan s).map (fun p => (List.range p.params.length).map (fun i => (i, t)))).getD [] } }

/-- The engine writes the staged state home and commits it (08 R227, R234, R238). -/
def cellarUpdateCommit (s : State) : State :=
  match s.params.staged with
  | none => s
  | some x =>
    match (trainedEntries s).find? (fun e => e.2 == x.entry) with
    | none => s
    | some e =>
      let u := x.step.toNat
      if !inReg s sdCel || !domainRuns s dieCellar then s
      else if !x.skip && (!scaleDone s (u + peLag e.1 - 1) e || workPinned s e.1) then s
      else
        let s := { s with params := { s.params with staged := none } }
        let s := if x.skip then s else setDigested x.entry u (freeStaging x (commitWork e.1 (putHome x s)))
        let s := endStalls x.entry (releaseGradient u e.1 (setApplied x.entry u s))
        let s := match trainPlan s with
          | some p => refreshLodged p e u s
          | none => s
        settleGroup (peGroup e.1) u s

/-! ### State from a source (08 R232, R237) -/

/-- Bytes of one block's moments: the quotients of its elements in order, then the scales of the blocks that begin in it. -/
def putMoments (e : BitVec 512) (a b : Nat) (bs : List Byte) (st : State) : State :=
  let n := peElems e
  let is := (List.range (min digestBlock (n - b * digestBlock))).map (· + b * digestBlock)
  let st := forEach (is.zip bs) (fun (ib : Nat × Byte) st => homeWrite (a + ib.1 / peCols e * momPad e + ib.1 % peCols e) [ib.2] st) st
  let starts := is.filter (fun i => i % peCols e % 128 == 0)
  forEach (starts.zip (pieces 2 (bs.drop is.length))) (fun (ib : Nat × List Byte) st =>
    homeWrite (a + momScales e + 2 * (ib.1 / peCols e * momBlocks e + ib.1 % peCols e / 128)) ib.2 st) st

/-- Write a fetched block, or the whole tensor, with fresh digest entries. -/
def installState (p : Plan) (f : Fetched) (e : BitVec 512) (s : State) : State :=
  let off := match f.block with
    | some b => 2 * b * digestBlock
    | none => 0
  let put (loc : Nat) (bs : List Byte) (s : State) : State := if bs.isEmpty then s else homeWrite (locAddr s loc) bs s
  let s := homeWrite (locAddr s (peWork e) + off) f.work s
  let s := homeWrite (locAddr s (peRem e) + off) f.rem s
  let s := match f.block with
    | some b =>
      let s := if keepsM1 e then putMoments e (locAddr s (peMom1 e)) b f.mom1 s else s
      if peRecipe e == 0 then putMoments e (locAddr s (peMom2 e)) b f.mom2 s
      else if peRecipe e == 2 then put (peColf e) f.colf (put (peMom2 e) f.mom2 s) else s
    | none =>
      let s := if keepsM1 e then put (peMom1 e) f.mom1 s else s
      if peRecipe e == 1 then s
      else
        let s := put (peMom2 e) f.mom2 s
        if peRecipe e == 2 then put (peColf e) f.colf s else s
  let blocks := match f.block with
    | some b => [b]
    | none => List.range (cdiv (peElems e) digestBlock)
  forEach blocks (fun b s =>
    let n := min digestBlock (peElems e - b * digestBlock)
    let hs := words16 s (locAddr s (peWork e) + 2 * b * digestBlock) n
    let ls := words16 s (locAddr s (peRem e) + 2 * b * digestBlock) n
    homeWrite (digestAddr s p e b) (bytesLE 4 (digestOf hs ls).toNat ++ bytesLE 4 f.step.toNat) s) s

/-- Source 0xFFFF: no source holds the state (08 R232). -/
def noSource : W16 := 0xFFFF

/-- The state of a whole tensor after a step stands for its update, and for earlier ones not yet applied (log 139). -/
def releaseThrough (u : Nat) (e : BitVec 512) (s : State) : State :=
  forEach (((roomAt s (peGradRoom e)).map (fun r => r.unapplied.filter (fun v => decide (v.2.toNat ≤ u)))).getD [])
    (fun v s => releaseGradient v.2.toNat e s) s

/-- What Porter waits for from a source: the entry's tensor, and the block. -/
def awaits (s : State) (f : Fetched) (e : BitVec 512 × Nat) (u : W64) : Bool :=
  peTensor e.1 == f.tensor.toNat && s.params.fetching.any (fun x => x.1 == e.2 && x.2.1 == f.block && x.2.2 == u)

def endFetch (f : Fetched) (i : Nat) (s : State) : State :=
  { s with params := { s.params with fetching := s.params.fetching.filter (fun x => !(x.1 == i && x.2.1 == f.block && x.2.2 == f.step)) } }

/-- The partner answers with a state at another step: Porter turns to the replicas (08 R232). -/
def askReplicas (f : Fetched) (s : State) : State :=
  match s.params.fetching.find? (fun x => x.2.1 == f.block && (trainedEntries s).any (fun e => e.2 == x.1 && peTensor e.1 == f.tensor.toNat)) with
  | some x => if f.source == s.lodge.partner && f.source != noSource then emit (.stateRequest 0xFFFF f.tensor x.2.1 x.2.2) s else s
  | none => s

/-- A fetched block or tensor arrives, or no source holds it. Only a state at exactly the step asked for is taken. -/
def stateFetchInstall (f : Fetched) (s : State) : State :=
  match trainPlan s with
  | none => s
  | some p =>
    match (trainedEntries s).find? (fun e => awaits s f e f.step) with
    | none => askReplicas f s
    | some e =>
      let u := f.step.toNat
      if f.source == noSource then failStep stDeviceFault 2 (raiseCtrl 0x5105 [] (endFetch f e.2 s))
      else
        let s := endFetch f e.2 (installState p f e.1 s)
        let s := raiseCtrl 0x5104 [a4 f.tensor.toNat, a2 (f.block.getD wholeBlock), a8 u, a2 f.source.toNat] s
        let s := if f.block.isNone then
            settleGroup (peGroup e.1) u (releaseThrough u e.1 (dropStaged e.2 u (setDigested e.2 u
              (if (tget s.params.applied e.2 0).toNat < u then setApplied e.2 u s else s))))
          else s
        endStalls e.2 s

/-! ### Rows -/

def execCellarUpdateStart (s : State) : Host.Outcome State Fault Refusal := .next (cellarUpdateStart s)
def execCellarUpdateCommit (s : State) : Host.Outcome State Fault Refusal := .next (cellarUpdateCommit s)
def execStateFetchInstall (f : Fetched) (s : State) : Host.Outcome State Fault Refusal := .next (stateFetchInstall f s)

end Sys2Proof.Machine
end

