-- ==== Sys2Proof/Machine/Snap.lean ====
section
/-! DEFINITION. Snapshots: the request, the mark, the chunks, the manifest, and the commands of the snapshot store
(12 R332, R336 to R342, 17 R471, R477, R479). -/

namespace Sys2Proof.Machine

/-! ### The request (12 Table 12-6) -/

def sqContent (x : BitVec 512) : Nat := fld x 446 2
def sqSel (x : BitVec 512) : Nat := fld x 444 2
def sqDest (x : BitVec 512) : Nat := fld x 442 2
def sqDestAddr (x : BitVec 512) : Nat := fld x 336 64
def sqDestLen (x : BitVec 512) : Nat := fld x 256 64

/-- Byte of the first field that breaks the request, if any. -/
def badRequest (s : State) (x : BitVec 512) : Option Nat :=
  if !recCrcOk x then some 0
  else if fld x 32 224 != 0 then some 4
  else if (sqDest x == 0 && sqDestAddr x % chunkLen != 0) || (sqDest x == 2 && sqDestAddr x != 0) then some 42
  else if fld x 400 10 != 0 then some 50
  else if fld x 432 8 != 0 then some 54
  else if sqContent x > 1 || sqSel x == 3 || sqDest x == 3 || (sqDest x == 1 && fld x 440 1 == 1 && s.ports.storRole != 2) then some 55
  else if fld x 448 64 == 0 then some 56
  else none

/-- Keeper signs: it runs, and holds its secrets (17 R477, R479). -/
def keeperSigns (s : State) : Bool := s.porter.keeper == 1 && !s.sec.zeroised

/-- SNAP_TAKE: one snapshot at a time; it takes effect at the next boundary (12 R336, R337). -/
def snapTake (x : BitVec 512) : Handler := fun _ s =>
  match badRequest s x with
  | some o => badInline o s
  | none =>
    if s.snap.isSome || (fld x 441 1 == 1 && !keeperSigns s) || (sqDest x == 0 && (s.ports.store.isEmpty || !storRoot s)) then
      reply stWrongState s
    else
      let n : Snapshot := {
        req := x, step := 0, marked := false, parts := [], room := 0xFFFF, staging := 0xFFFF, sets := [], lag := 0,
        seed := 0, digests := [], chunks := [], saved := [], pins := [] }
      reply stAccepted { s with snap := some n, steps := { s.steps with actions := s.steps.actions ++ [.snapshot] } }

/-- SNAP_ABORT of the snapshot in progress (12 R342). -/
def snapAbort (id : W64) : Handler := fun _ s =>
  match s.snap with
  | some x =>
    if snapId x == id.toNat then
      let s := driveRest (endSnapshot (Config.snapCause 1) s)
      ok s
    else reply stWrongState s
  | none => reply stWrongState s

def execCmdSnapTake (c : Cmd) (req : BitVec 512) (s : State) : Host.Outcome State Fault Refusal :=
  .next (order 0x0901 c [.snapshot] (snapTake req) s)
def execCmdSnapAbort (c : Cmd) (id : W64) (s : State) : Host.Outcome State Fault Refusal :=
  .next (order 0x0902 c [.snapshot] (snapAbort id) s)

/-! ### The store and the drives (12 R332, section "Snapshot store") -/

/-- STORE_FORM: up to 16 namespaces of drives in use. -/
def storeForm (pairs : List (Nat × Nat)) : Handler := fun _ s =>
  if !storRoot s then reply stWrongState s
  else if pairs.isEmpty || 16 < pairs.length ||
      pairs.any (fun p => !(driveAt s p.1).used || (driveAt s p.1).failed) || pairs.eraseDups.length != pairs.length then badExt 0 s
  else ok { s with ports := { s.ports with store := pairs } }

def driveRescan (found : List (Fin 16 × Nat)) : Handler := fun _ s =>
  if !storRoot s then reply stWrongState s else ok (enumerateDrives found s)

def execCmdStoreForm (c : Cmd) (pairs : List (Nat × Nat)) (s : State) : Host.Outcome State Fault Refusal :=
  .next (order 0x0903 c [.snapshot] (storeForm pairs) s)
def execCmdDriveRescan (c : Cmd) (found : List (Fin 16 × Nat)) (s : State) : Host.Outcome State Fault Refusal :=
  .next (order 0x0904 c [] (driveRescan found) s)

/-- Namespace (index in the store) and LBA of a store byte. -/
def storePlace (d b : Nat) : Nat × Nat := (b / chunkLen % d, b / chunkLen / d * 16384 + b % chunkLen / 4096)

/-- Bytes of a store over namespaces of these sizes: each contributes as much as the smallest, rounded down to a multiple
of 64 MiB. -/
def storeCapacity (sizes : List Nat) : Nat :=
  match sizes with
  | [] => 0
  | n :: ns => (ns.foldl min n) / chunkLen * chunkLen * sizes.length

/-- Drive and LBA at which each piece of `n` store bytes from byte `b` begins: one piece for each 64 MiB of the store. -/
def storePieces (s : State) (b n : Nat) : List (Nat × Nat) :=
  (List.range ((b + n + chunkLen - 1) / chunkLen - b / chunkLen)).map (fun i =>
    let (k, lba) := storePlace s.ports.store.length (max b ((b / chunkLen + i) * chunkLen))
    ((s.ports.store.getD k (0, 0)).1, lba))

/-! ### The image (12 R339, Table 12-9) -/

/-- Gradient versions of an entry that have not been applied, in ascending step: room, version, step. -/
def unappliedOf (s : State) (e : BitVec 512) : List (Nat × W16 × W64) :=
  match roomAt s (peGradRoom e) with
  | none => []
  | some r => (sortBy (fun a b => a.2 ≤ b.2) (r.unapplied.filter (fun u => u.1 != r.fresh))).map (fun u => (peGradRoom e, u.1, u.2))

/-- Bytes of a gradient version with its head (08 R242). -/
def versionLen (s : State) (e : BitVec 512) (a : Nat) : Nat :=
  256 + peElems e * (if rdNat s a 32 / 2 ^ 124 % 16 == 1 then 2 else 4)

def selected (p : Plan) (sel : Nat) (i : Nat) : Bool :=
  match sel with
  | 1 => !(expertEntries p).contains i
  | 2 => (expertEntries p).contains i
  | _ => true

/-- Parts of one entry, without their offsets, and the versions that the image holds. -/
def entryParts (s : State) (p : Plan) (full : Bool) (e : BitVec 512) (i : Nat) : List Part × List (W16 × W16) :=
  let ap := tget s.params.applied i 0
  let own := (tensorParts s p e full).map (fun q => ({ entry := e, part := q.1, addr := q.2.1, len := q.2.2, step := ap, offset := 0 } : Part))
  let vs := if full && !peFrozen e then unappliedOf s e else []
  let grads := vs.map (fun v =>
    let a := verAddr s v.1 v.2.1.toNat
    ({ entry := e, part := 6, addr := a, len := versionLen s e a, step := v.2.2, offset := 0 } : Part))
  (own ++ grads, vs.map (fun v => (BitVec.ofNat 16 v.1, v.2.1)))

/-- Each part begins at a multiple of 4 KiB. -/
def layParts : Nat → List Part → List Part
  | _, [] => []
  | o, p :: ps => { p with offset := o } :: layParts ((o + p.len + 4095) / 4096 * 4096) ps

/-- Steps of the gradient versions, ascending, each once. -/
def gradSteps (ps : List Part) : List Nat := (ps.filter (fun p => p.part == 6)).foldl (fun l p => addNew l p.step.toNat) []

/-- Sets that Porter keeps for a step (08 R220). -/
def setsOf (s : State) (u : Nat) : List (BitVec 512) := ((s.steps.sets.find? (fun x => x.1.toNat == u)).map (fun x => x.2)).getD []

/-- Parts of the whole image and the versions it holds. -/
def imageParts (s : State) (p : Plan) (x : BitVec 512) : List Part × List (W16 × W16) :=
  let full := sqContent x == 1
  let each := (p.params.zipIdx.filter (fun e => selected p (sqSel x) e.2)).map (fun e => entryParts s p full e.1 e.2)
  let ps := each.flatMap (fun q => q.1)
  let opt := (gradSteps ps).map (fun u =>
    ({ entry := 0, part := 7, addr := 0, len := 64 * (setsOf s u).length, step := BitVec.ofNat 64 u, offset := 0 } : Part))
  (layParts 0 (ps ++ opt), each.flatMap (fun q => q.2))

def chunkCount (n : Nat) : Nat := (n + chunkLen - 1) / chunkLen

/-- The signature block: chain length, slot-0 chain, signature by the attestation key (17 R471). -/
def signatureBlock (s : State) (msg : List Byte) : List Byte :=
  let chain := Config.certChain s.sec.ak s.sec.issued
  bytesLE 2 chain.length ++ chain ++ Config.akSign s.sec.ak msg

/-- Manifest bytes before its SHA-512: header, entries, digests (12 R340, Tables 12-8, 12-9). -/
def manifestHead (s : State) (x : Snapshot) : List Byte :=
  let n := chunkCount (payloadLen x)
  let head : BitVec 512 := recSeal (mkRec 512 [(448, 64, snapId x), (384, 64, x.step.toNat), (368, 16, s.fab.moduleId.toNat),
    (366, 2, sqContent x.req), (364, 2, sqSel x.req), (363, 1, (snapSigned x).toNat), (360, 3, x.lag), (320, 32, x.parts.length),
    (288, 32, n), (256, 32, x.seed.toNat), (192, 64, payloadLen x), (160, 32, porterRel s)])
  let entry (p : Part) : BitVec 256 := mkRec 256 [(224, 32, peTensor p.entry), (220, 4, p.part), (218, 2, peRecipe p.entry),
    (217, 1, (peResident p.entry).toNat), (193, 24, peRows p.entry), (169, 24, peCols p.entry), (96, 64, p.step.toNat),
    (48, 48, p.offset), (0, 48, p.len)]
  recBytes head ++ x.parts.flatMap (fun p => recBytes (entry p)) ++
    (List.range n).flatMap (fun k => recBytes (tget x.digests k 0))

def manifestBytes (s : State) (x : Snapshot) : List Byte :=
  let m := manifestHead s x
  m ++ recBytes (Config.sha512 m) ++ (if snapSigned x then signatureBlock s m else [])

def padTo4K (bs : List Byte) : List Byte := fit ((bs.length + 4095) / 4096 * 4096) 0 bs

/-- Bytes of the padded manifest. -/
def manifestLen (s : State) (x : Snapshot) : Nat := (padTo4K (manifestBytes s x)).length

/-! ### The destinations (12 R341) -/

/-- Payload of the message that carries the image bytes from `off` on: SNAP_ID, the offset, up to 4,016 bytes. -/
def imagePayload (id off : Nat) (bs : List Byte) : List Byte := bytesLE 8 id ++ bytesLE 8 off ++ bs.take 4016

/-- Image bytes from `off` on, sent to DEST_RING of DEST_ID as messages with the ring's next sequence numbers. -/
def shipMessages (x : Snapshot) (off : Nat) (bs : List Byte) (s : State) : State :=
  let dest := fld x.req 416 16
  let ring := fld x.req 410 6
  forEach (List.range (cdiv bs.length 4016)) (fun i s =>
    let key := dest * 64 + ring
    let seq := tget s.fab.nextMsg key 1
    emit (.message (BitVec.ofNat 16 dest) ring seq (messagePlanes s dest)
        (imagePayload (snapId x) (off + 4016 * i) (bs.drop (4016 * i))))
      { s with fab := { s.fab with nextMsg := tset s.fab.nextMsg key (seq + 1) } }) s

/-- Image bytes written into the store from DEST_ADDR on, piece by piece; `fua`: the last write carries FUA. -/
def shipWrites (x : Snapshot) (off : Nat) (fua : Bool) (n : Nat) (s : State) : State :=
  let ps := storePieces s (sqDestAddr x.req + off) n
  forEach ps.zipIdx (fun p s =>
    emit (.driveCmd p.1.1 (if fua && p.2 + 1 == ps.length then "WriteFua" else "Write") p.1.2) s) s

/-- Image bytes on their way to the destination; `last`: the manifest, which is written last. -/
def ship (x : Snapshot) (off : Nat) (last : Bool) (bs : List Byte) (s : State) : State :=
  let s := emit (.image (snapId x) (snapDest x) off bs) s
  if snapDest x == 0 then shipWrites x off last bs.length s
  else if snapDest x == 2 then shipMessages x off bs s
  else s

/-! ### The mark (12 R337) -/

/-- Nothing of the next step has been dispatched. -/
def atBoundary (s : State) : Bool := s.steps.job.isNone || !s.steps.begun

/-- The copy-on-write room in the Cellar, as large as the payload, and the staging room in the Mere, two chunks deep
(12 R337, R341). -/
def snapRooms (len : Nat) (s : State) : Option (W16 × W16 × State) :=
  if len == 0 then some (0xFFFF, 0xFFFF, s)
  else match grantRoom { cls := 6, home := 3, index := 0, slots := 1, fallback := false, pages := (len + 4095) / 4096 } 0xFFFF s with
    | none => none
    | some (a, s) =>
      match grantRoom { cls := 6, home := 1, index := 0, slots := 1, fallback := false, pages := (min len (2 * chunkLen) + 4095) / 4096 } 0xFFFF s with
      | none => none
      | some (b, s) => some (BitVec.ofNat 16 a, BitVec.ofNat 16 b, s)

/-- The last chunk and the manifest are shipped: event 0x8901, and the rooms are released. -/
def snapShipped (s : State) : State :=
  match s.snap with
  | none => s
  | some x =>
    let s := ship x 0 true (padTo4K (manifestBytes s x)) s
    let s := if snapDest x == 0 then forEach (drivesUsed s) (fun d s => emit (.driveCmd d "Flush" 0) s) s else s
    driveRest (dropSnapshot (raiseCtrl 0x8901 [a8 (snapId x), a8 x.step.toNat, a2 (snapDest x)] s))

/-- The snapshot takes effect: every chunk of the image becomes PENDING. -/
def snapshotMark (s : State) : State :=
  match s.snap with
  | none => s
  | some x =>
    if x.marked || !porterRuns s || !atBoundary s then s
    else
      let empty : List Part × List (W16 × W16) := ([], [])
      let (ps, pins) := ((trainPlan s).map (fun p => imageParts s p x.req)).getD empty
      let n := { x with
        marked := true, step := s.steps.lastBoundary, parts := ps
        sets := (gradSteps ps).map (fun u => (BitVec.ofNat 64 u, setsOf s u))
        lag := ((trainPlan s).map (fun p => if p.params.any peResident then p.lag else 0)).getD 0
        seed := ((trainPlan s).map (fun p => p.seed)).getD 0, pins := pins }
      let len := payloadLen n
      if sqDestLen x.req < manifestLen s n + len then endSnapshot stNoRoom s
      else match snapRooms len s with
        | none => endSnapshot stNoRoom s
        | some (a, b, s) =>
          let s := forEach pins (fun rv s => pinRoom rv.1.toNat rv.2.toNat s) s
          let s := { s with
            snap := some { n with room := a, staging := b, chunks := List.replicate (chunkCount len) .pending }
            steps := { s.steps with actions := s.steps.actions.filter (fun t => !(t == Boundary.snapshot)) } }
          let s := if snapDest x == 0 then
              driveWork (((roomAt s b.toNat).map (fun r => r.base.toNat)).getD 0) (2 * chunkLen) s else s
          if len == 0 then snapShipped s else s

/-! ### Shipping (12 R338, R341, R342) -/

/-- The shipper finishes a chunk: from its home, or from the copy-on-write room. `refused`: the receive ring of another
module refused it under 11 R316. -/
def snapshotChunkShipped (k : Nat) (refused : Bool) (s : State) : State :=
  match s.snap with
  | none => s
  | some x =>
    let st := x.chunks.getD k .shipped
    if !x.marked || st == Chunk.shipped then s
    else if refused && snapDest x == 2 then driveRest (endSnapshot stNoRoom s)
    else match (chunkPoison s x k).filter (fun _ => st == Chunk.pending) with
    | some w => driveRest (endSnapshot stDeviceFault (poisonEvent 0xFFFF w s))
    | none =>
      let bs := (tfind? x.saved k).getD (chunkBytes s x k)
      let s := ship x (manifestLen s x + k * chunkLen) false bs s
      let y := { x with
        chunks := lset x.chunks k .shipped, saved := tdel x.saved k
        digests := tset x.digests k (Config.sha512 bs) }
      let s := settleSnapPins { s with snap := some y }
      if y.chunks.all (fun c => c == Chunk.shipped) then snapShipped s else s

def execSnapshotMark (s : State) : Host.Outcome State Fault Refusal := .next (snapshotMark s)
def execSnapshotChunkShipped (chunk : Nat) (refused : Bool) (s : State) : Host.Outcome State Fault Refusal :=
  .next (snapshotChunkShipped chunk refused s)

end Sys2Proof.Machine
end

