-- ==== Sys2Proof/Machine/Lodge.lean ====
section
/-! DEFINITION. Lodged copies: the pairing of a lodger and its partner, the refresh, promotion, and the answers of a source
of parameter state (08 R232, 13 R362, 16 R436 to R444). -/

namespace Sys2Proof.Machine

def noModule : W16 := 0xFFFF

def setLodge (f : Lodging → Lodging) (s : State) : State := { s with lodge := f s.lodge }

/-! ### The lodger (13 R362, 16 R437, R439) -/

/-- Entries that this module lodges. -/
def lodgedEntries (s : State) : List (BitVec 512 × Nat) :=
  ((trainPlan s).map (fun p => p.params.zipIdx.filter (isLodged p))).getD []

def lodgedTensors (s : State) : List Nat := (lodgedEntries s).foldl (fun l e => addNew l (peTensor e.1)) []

/-- Bytes of the largest lodged tensor, in whole pages, for every area and the spare one (16 R436; log 47). -/
def lodgeBytes (s : State) : Nat :=
  let sizes := ((trainPlan s).map (fun p => (lodgedEntries s).map (fun e =>
    sumNat ((tensorParts s p e.1 true).map (fun q => q.2.2))))).getD []
  ((listMax sizes + 4095) / 4096 * 4096) * (sizes.length + 1)

/-- The lodging request: module id, feed tag, OVERRIDE, tensors and bytes. -/
def sendLodgeRequest (partner : W16) (override : Bool) (s : State) : State :=
  emit (.lodge partner "request" [s.fab.moduleId.toNat, s.power.feedTag.toNat, override.toNat, (lodgedTensors s).length,
      lodgeBytes s] [])
    (setLodge (fun l => { l with asking := some (partner, override), counted := lodgedTensors s }) s)

def lodgeWaits (s : State) : Bool := s.porter.outstanding.any (fun p => match p.wait with
  | .lodge _ => true
  | _ => false)

/-- LODGE_PAIR. -/
def lodgePair (partner : W16) (override pfeed : Byte) : Handler := fun p s =>
  if 1 < override.toNat then badInline 2 s
  else if override == 1 && p.cmd.mailbox.val != 65 then reply stDenied s
  else if override != 1 && pfeed.toNat == s.power.feedTag.toNat then reply stDenied s
  else if lodgeWaits s then reply stWrongState s
  else (.wait (.lodge partner), sendLodgeRequest partner (override == 1) s)

def execCmdLodgePair (c : Cmd) (partner : W16) (override pfeed : Byte) (s : State) : Host.Outcome State Fault Refusal :=
  .next (order 0x0905 c [.lodge] (lodgePair partner override pfeed) s)

def isLodgeWait (p : Pending) : Bool := match p.wait with
  | .lodge _ => true
  | _ => false

/-- The partner has answered. -/
def lodgingAnswerArrival (status feed : Byte) (s : State) : State :=
  match s.lodge.asking with
  | none => s
  | some (partner, override) =>
    let s := setLodge (fun l => { l with asking := none }) s
    if status == 0 then
      let s := setLodge (fun l => { l with partner := partner, correlated := override, refreshed := [] }) s
      let s := capBump (raiseCtrl 0x8903 [a2 partner.toNat, a2 s.power.feedTag.toNat, a2 feed.toNat, a2 override.toNat] s)
      finish isLodgeWait { st := stDone } s
    else
      finish isLodgeWait { st := status.toNat } (raiseCtrl 0x8904 [a2 partner.toNat, a2 status.toNat] s)

/-- No answer within 2^26 LINK beats. -/
def lodgingAnswerTimeout (s : State) : State := lodgingAnswerArrival 0x21 0 s

def execLodgingAnswerArrival (status feed : Byte) (s : State) : Host.Outcome State Fault Refusal :=
  .next (lodgingAnswerArrival status feed s)
def execLodgingAnswerTimeout (s : State) : Host.Outcome State Fault Refusal := .next (lodgingAnswerTimeout s)

/-- The partner is lost, or has promoted its copy: event 0x890A (16 R439). -/
def partnerLost (s : State) : State :=
  if s.lodge.partner == noModule then s
  else
    let former := s.lodge.partner
    capBump (raiseCtrl 0x890A [a2 former.toNat] (setLodge (fun l => { l with partner := noModule, refreshed := [], correlated := false }) s))

/-- At a boundary: what the partner has acknowledged, or none where it refuses because it has promoted its copy; event
0x8905 for tensors more than two steps behind; the Ledger tail; a new request when the set of tensors has changed
(16 R437 to R439). -/
def lodgeBoundary (acks : Option (List (Nat × W64))) (tail : List Byte) (s : State) : State :=
  if s.lodge.partner == noModule then s
  else match acks with
    | none => partnerLost s
    | some acks =>
      let s := setLodge (fun l => { l with refreshed := acks.foldl (fun t a => tset t a.1 a.2) l.refreshed }) s
      let late := (lodgedEntries s).filter (fun e =>
        decide ((tget s.lodge.refreshed e.2 0).toNat + 2 < (tget s.params.applied e.2 0).toNat))
      let s := if late.isEmpty then s else raiseCtrl 0x8905 [a2 s.lodge.partner.toNat, a2 late.length] s
      let s := emit (.lodge s.lodge.partner "ledger" [] tail) s
      if lodgedTensors s == s.lodge.counted || s.lodge.asking.isSome then s
      else sendLodgeRequest s.lodge.partner s.lodge.correlated s

/-! ### The partner (16 R436 to R438, R442) -/

/-- The lodging room: class fabric in, the Cellar, one slot, owned as Porter. -/
def lodgingRoom (bytes : Nat) (s : State) : Option (W16 × State) :=
  (grantRoom { cls := 3, home := 3, index := 0, slots := 1, fallback := false, pages := max 1 ((bytes + 4095) / 4096) }
    0xFFFF s).map (fun g => (BitVec.ofNat 16 g.1, g.2))

def answerLodger (lodger : W16) (st : Nat) (s : State) : State :=
  emit (.lodge lodger "answer" [st, s.power.feedTag.toNat] []) s

def lodgingRequestArrival (lodger : W16) (feed : Byte) (override : Bool) (tensors bytes : Nat) (s : State) : State :=
  if !porterRuns s || !s.porter.ready then s
  else
    let l := s.lodge
    if l.lodgedFor != noModule && l.lodgedFor != lodger && l.promoted.isNone then answerLodger lodger stWrongState s
    else if feed.toNat == s.power.feedTag.toNat && !override then answerLodger lodger stDenied s
    else match lodgingRoom bytes (releaseNow l.room.toNat s) with
      | none => answerLodger lodger stNoRoom s
      | some (r, s) =>
        let s := setLodge (fun l => { l with
          lodgedFor := lodger, promoted := none, room := r, areas := tensors + 1, directory := [], spare := 0, resent := [],
          tail := [], correlatedIn := override }) s
        let s := capBump (raiseCtrl 0x8903 [a2 lodger.toNat, a2 s.power.feedTag.toNat, a2 feed.toNat, a2 override.toNat] s)
        answerLodger lodger stDone s

def execLodgingRequestArrival (lodger : W16) (feed : Byte) (override : Bool) (tensors bytes : Nat) (s : State) :
    Host.Outcome State Fault Refusal := .next (lodgingRequestArrival lodger feed override tensors bytes s)

/-- Bytes of an area, and its address. -/
def areaLen (s : State) : Nat := ((roomAt s s.lodge.room.toNat).map (fun r => extent r / max 1 s.lodge.areas / 4096 * 4096)).getD 0
def areaAddr (s : State) (k : Nat) : Nat := ((roomAt s s.lodge.room.toNat).map (fun r => r.base.toNat + k * areaLen s)).getD 0

def dirEntry (s : State) (tensor : W32) : Option (W32 × Nat × W64) := s.lodge.directory.find? (fun d => d.1 == tensor)

/-- The last byte of a refreshed tensor has arrived: with good digests the directory entry flips to the new area, and the
old area becomes the spare; otherwise the tensor is discarded and sent once more. A Ledger tail that came with it replaces
the previous one. -/
def lodgedTensorReceived (tensor : W32) (step : W64) (bytes : List Byte) (good : Bool) (tail : Option (List Byte)) (s : State) : State :=
  let l := s.lodge
  if l.lodgedFor == noModule || l.promoted.isSome || (roomAt s l.room.toNat).isNone then s
  else
    let s := match tail with
      | some t => setLodge (fun l => { l with tail := t }) s
      | none => s
    let fits := decide (bytes.length ≤ areaLen s) && decide (l.spare < l.areas)
    if !good || !fits then
      if l.resent.contains tensor then setLodge (fun l => { l with resent := l.resent.filter (· != tensor) }) s
      else emit (.lodge l.lodgedFor "resend" [tensor.toNat] []) (setLodge (fun l => { l with resent := tensor :: l.resent }) s)
    else
      let s := wr (areaAddr s l.spare) bytes s
      match dirEntry s tensor with
      | some d => setLodge (fun l => { l with
          directory := l.directory.map (fun x => if x.1 == tensor then (tensor, l.spare, step) else x), spare := d.2.1,
          resent := l.resent.filter (· != tensor) }) s
      | none =>
        let used := l.spare :: l.directory.map (fun x => x.2.1)
        setLodge (fun l => { l with
          directory := l.directory ++ [(tensor, l.spare, step)]
          spare := ((List.range l.areas).find? (fun k => !used.contains k)).getD l.areas
          resent := l.resent.filter (· != tensor) }) s

def execLodgedTensorReceived (tensor : W32) (step : W64) (bytes : List Byte) (digestOk : Bool) (tail : Option (List Byte))
    (s : State) : Host.Outcome State Fault Refusal := .next (lodgedTensorReceived tensor step bytes digestOk tail s)

/-- The room of class host DMA that receives the Ledger tail at a promotion. -/
def tailRoom (s : State) : Option (W16 × State) :=
  if ownerSession s == 0 then some (0xFFFF, s)
  else (grantRoom { cls := 5, home := 1, index := 0, slots := 1, fallback := true, pages := max 1 ((s.lodge.tail.length + 4095) / 4096) }
    (ownerSession s) s).map (fun g => (BitVec.ofNat 16 g.1, g.2))

def isMember (s : State) (id : W16) : Bool := s.fab.domain.isSome && s.fab.members.any (fun m => m.id == id)

/-- LODGE_PROMOTE (16 R442). -/
def lodgePromote (failed : W16) : Handler := fun _ s =>
  let l := s.lodge
  if l.lodgedFor == noModule || l.lodgedFor != failed || isMember s failed then reply stWrongState s
  else match tailRoom s with
    | none => reply stNoRoom s
    | some (r, s) =>
      let s := match roomAt s r.toNat with
        | some x => if r == 0xFFFF then s else wr x.base.toNat l.tail s
        | none => s
      let n := l.directory.length
      let low := ((argMin id (l.directory.map (fun d => d.2.2.toNat))).getD 0)
      let s := raiseCtrl 0x8906 [a2 failed.toNat, a2 n] (setLodge (fun l => { l with promoted := some failed }) s)
      (.done { st := stDone, r0 := r.toNat, r1 := n, r2 := low }, s)

def execCmdLodgePromote (c : Cmd) (failed : W16) (s : State) : Host.Outcome State Fault Refusal :=
  .next (order 0x0906 c [.lodge] (lodgePromote failed) s)

/-! ### A source of parameter state (08 R232, R237, R288, 16 R442) -/

/-- One digest block of a tensor: pairs, moments, factors. -/
def blockState (s : State) (p : Plan) (e : BitVec 512) (b : Nat) : List Byte :=
  let is := (List.range (min digestBlock (peElems e - b * digestBlock))).map (· + b * digestBlock)
  let mom (a : Nat) : List Byte := is.flatMap (fun i => rd s (a + i / peCols e * momPad e + i % peCols e) 1) ++
    (is.filter (fun i => i % peCols e % 128 == 0)).flatMap (fun i =>
      rd s (a + momScales e + 2 * (i / peCols e * momBlocks e + i % peCols e / 128)) 2)
  rd s (locAddr s (peWork e) + 2 * b * digestBlock) (2 * is.length) ++ rd s (locAddr s (peRem e) + 2 * b * digestBlock) (2 * is.length) ++
    ((tensorParts s p e true).filter (fun q => 2 ≤ q.1 && q.1 ≤ 4)).flatMap (fun q =>
      if q.2.2 == momLen e && (q.1 == 2 || peRecipe e == 0) then mom q.2.1 else rd s q.2.1 q.2.2)

/-- Homes that the state of a tensor, or of one block, is read from. -/
def heldSpans (s : State) (p : Plan) (e : BitVec 512) (block : Option Nat) : List (Nat × Nat) :=
  (tensorParts s p e true).map (fun q => match block with
    | some b => if q.1 ≤ 1 then (q.2.1 + 2 * b * digestBlock, min (2 * digestBlock) (q.2.2 - 2 * b * digestBlock)) else (q.2.1, q.2.2)
    | none => (q.2.1, q.2.2))

/-- The state this module holds of a tensor at exactly a step, with the homes that it is read from: its own, or a lodged
copy that its lodger asks for or that has been promoted. -/
def heldState (s : State) (src : W16) (tensor : W32) (block : Option Nat) (step : W64) : Option (List Byte × List (Nat × Nat)) :=
  let has (e : BitVec 512 × Nat) : Bool := peTensor e.1 == tensor.toNat && tget s.params.applied e.2 0 == step &&
    !s.params.fetching.any (fun f => f.1 == e.2 && (f.2.1 == block || f.2.1.isNone || block.isNone))
  let own : Option (List Byte × List (Nat × Nat)) := match trainPlan s with
    | none => none
    | some p => ((trainedEntries s).find? has).map (fun (e : BitVec 512 × Nat) => (match block with
      | some b => blockState s p e.1 b
      | none => lodgedBytes s p e.1, heldSpans s p e.1 block))
  own.orElse (fun _ =>
    if s.lodge.promoted.isSome || s.lodge.lodgedFor == src then
      (dirEntry s tensor).bind (fun d => if d.2.2 == step then
        some (rd s (areaAddr s d.2.1) (areaLen s), [(areaAddr s d.2.1, areaLen s)]) else none)
    else none)

/-- The source answers; a state that it cannot read without an error it does not report as held (07 R209, R211). -/
def stateFetchRequestArrival (src : W16) (tensor : W32) (block : Option Nat) (step : W64) (s : State) : State :=
  if !porterRuns s then s
  else match heldState s src tensor block step with
    | none => emit (.stateReply src tensor step false []) s
    | some (bs, spans) => match spans.findSome? (fun q => s.mem.poisonAt q.1 q.2) with
      | some w => emit (.stateReply src tensor step false []) (poisonEvent 0xFFFF w s)
      | none => emit (.stateReply src tensor step true bs) s

def execStateFetchRequestArrival (src : W16) (tensor : W32) (block : Option Nat) (step : W64) (s : State) :
    Host.Outcome State Fault Refusal := .next (stateFetchRequestArrival src tensor block step s)

end Sys2Proof.Machine
end

