-- ==== Sys2Proof/Machine/Restore.lean ====
section
/-! DEFINITION. Restore: the checks of the manifest, the chunks, and the state that a restore installs (16 R445 to R448). -/

namespace Sys2Proof.Machine

/-! ### The manifest (12 Tables 12-8, 12-9, 16 R446, 17 R471) -/

def mfId (m : Manifest) : Nat := fld m.header 448 64
def mfStep (m : Manifest) : W64 := bits m.header 384 64
def mfContent (m : Manifest) : Nat := fld m.header 366 2
def mfSigned (m : Manifest) : Bool := fld m.header 363 1 == 1
def mfLag (m : Manifest) : Nat := fld m.header 360 3
def mfChunks (m : Manifest) : Nat := fld m.header 288 32
def mfSeed (m : Manifest) : Nat := fld m.header 256 32
def mfPayload (m : Manifest) : Nat := fld m.header 192 64

def meTensor (e : BitVec 256) : Nat := fld e 224 32
def mePart (e : BitVec 256) : Nat := fld e 220 4
def meStep (e : BitVec 256) : W64 := bits e 96 64
def meOffset (e : BitVec 256) : Nat := fld e 48 48
def meLen (e : BitVec 256) : Nat := fld e 0 48

def manifestMsg (m : Manifest) : List Byte :=
  recBytes m.header ++ m.entries.flatMap recBytes ++ m.digests.flatMap recBytes

/-- The signature block: chain length, chain, signature by the leaf's key; the chain ends at a vendor root fused here and
not revoked. -/
def signatureOk (m : Manifest) : Bool :=
  let n := natLE (m.signature.take 2)
  let chain := (m.signature.drop 2).take n
  Config.chainValid chain &&
    [0, 1].any (fun r => Config.chainRoot chain == Config.rootHash r && !Config.rootRevoked r) &&
    Config.ecdsaVerify (Config.chainKey chain) (manifestMsg m) (m.signature.drop (2 + n))

/-- Parameter entry of the plan that a tensor entry names. -/
def entryFor (es : List (BitVec 512 × Nat)) (e : BitVec 256) : Option (BitVec 512 × Nat) :=
  es.find? (fun q => peTensor q.1 == meTensor e && peRecipe q.1 == fld e 218 2 && (peResident q.1).toNat == fld e 217 1 &&
    peRows q.1 == fld e 193 24 && peCols q.1 == fld e 169 24)

/-- Parameter entries of the plan that a restore installs into. -/
def planEntries (s : State) : List (BitVec 512 × Nat) := ((trainPlan s).map (fun p => p.params.zipIdx)).getD []

/-- The first check of R446 that the manifest fails, if any. -/
def manifestBad (s : State) (id : W64) (m : Manifest) : Option Nat :=
  let es := planEntries s
  let lag := ((trainPlan s).map (fun p => if p.params.any peResident then p.lag else 0)).getD 0
  if !recCrcOk m.header || Config.sha512 (manifestMsg m) != m.own then some 0
  else if mfSigned m && (!keeperSigns s || !signatureOk m) then some 1
  else if mfId m != id.toNat then some 2
  else if mfChunks m != chunkCount (mfPayload m) || m.digests.length != mfChunks m then some 3
  else if m.entries.any (fun e => mePart e != 7 && (entryFor es e).isNone) then some 4
  else if m.entries.any (fun e => mePart e == 6 && !m.entries.any (fun q => mePart q == 7 && meStep q == meStep e)) then some 5
  else if mfSeed m != (((trainPlan s).map (fun p => p.seed.toNat)).getD 0) then some 6
  else if mfLag m != lag then some 7
  else none

/-! ### Gradient versions of the image (16 R448, 08 R235) -/

/-- Gradient versions of an entry of the plan, in ascending step. -/
def imageGrads (m : Manifest) (tensor : Nat) : List W64 :=
  (sortBy (fun a b => a ≤ b) ((m.entries.filter (fun e => mePart e == 6 && meTensor e == tensor)).map (fun e => (meStep e).toNat))).map
    (BitVec.ofNat 64)

/-- Unapplied versions of the gradient room are dropped. -/
def dropUnapplied (room : Nat) (s : State) : State :=
  match roomAt s room with
  | none => s
  | some r => forEach r.unapplied (fun u s => unpinRoom room u.1.toNat s) (updRoom room (fun r => { r with unapplied := [] }) s)

/-- A version of the gradient room for one step of the image: committed, pinned and unapplied. None where no slot is free. -/
def addVersion (room : Nat) (step : W64) (s : State) : Option State :=
  (roomAt s room).bind (fun r => (openVer r 1 step).map (fun r' =>
    let v := r'.fresh
    updRoom room (fun r => { r with unapplied := r.unapplied ++ [(v, step)] })
      (pinRoom room v.toNat (updRoom room (fun _ => commitVer r') s))))

def addVersions (room : Nat) : List W64 → State → Option State
  | [], s => some s
  | u :: us, s => (addVersion room u s).bind (addVersions room us)

/-- Entries of the plan that the image holds and that are trained. -/
def restored (s : State) (m : Manifest) : List (BitVec 512 × Nat) :=
  (planEntries s).filter (fun q => m.entries.any (fun e => mePart e != 7 && meTensor e == peTensor q.1) && !peFrozen q.1)

def openImage (m : Manifest) : List (BitVec 512 × Nat) → State → Option State
  | [], s => some s
  | e :: es, s => (addVersions (peGradRoom e.1) (imageGrads m (peTensor e.1)) (dropUnapplied (peGradRoom e.1) s)).bind (openImage m es)

/-! ### Homes -/

/-- Home and length of a part of the image; none for an optimiser-set block, or for a part that the plan's entry lacks. -/
def partHome (s : State) (e : BitVec 256) : Option (Nat × Nat) :=
  match trainPlan s, entryFor (planEntries s) e with
  | some p, some q =>
    if mePart e == 6 then
      ((roomAt s (peGradRoom q.1)).bind (fun r => r.unapplied.find? (fun u => u.2 == meStep e))).map
        (fun u => (verAddr s (peGradRoom q.1) u.1.toNat, meLen e))
    else ((tensorParts s p q.1 true).find? (fun t => t.1 == mePart e)).map (fun t => (t.2.1, t.2.2))
  | _, _ => none

/-- Overwrite bytes from an offset on. -/
def overlay (old : List Byte) (at_ : Nat) (new : List Byte) : List Byte :=
  fit old.length 0 (old.take at_ ++ new ++ old.drop (at_ + new.length))

/-- Bytes of a part, from offset `o` in it on, go to its home or into its optimiser-set block. -/
def putPart (e : BitVec 256) (o : Nat) (bs : List Byte) (s : State) : State :=
  if mePart e == 7 then
    { s with restore := s.restore.map (fun r => { r with
      sets := r.sets.map (fun q => if q.1 == meStep e then (q.1, overlay q.2 o bs) else q) }) }
  else match partHome s e with
    | some (a, n) => if o < n then wr (a + o) (bs.take (n - o)) s else s
    | none => s

/-- Parts that a chunk touches: the entry, the offset in the part, the offset in the chunk, the bytes. -/
def partsIn (m : Manifest) (k : Nat) : List (BitVec 256 × Nat × Nat × Nat) :=
  m.entries.filterMap (fun e =>
    let a := max (k * chunkLen) (meOffset e)
    let b := min ((k + 1) * chunkLen) (meOffset e + meLen e)
    if b ≤ a then none else some (e, a - meOffset e, a - k * chunkLen, b - a))

/-! ### The end of a restore (16 R448) -/

/-- Of an image with CONTENT 0b00: each remainder 0, each moment, scale and factor +0.0. -/
def zeroState (p : Plan) (e : BitVec 512) (s : State) : State :=
  forEach ((tensorParts s p e true).filter (fun t => 1 ≤ t.1 && t.1 ≤ 4)) (fun t s => { s with mem := s.mem.zero t.2.1 t.2.2 }) s

/-- Fresh digest-table entries of a tensor. -/
def freshDigests (p : Plan) (e : BitVec 512) (u : W64) (s : State) : State :=
  forEach (List.range (cdiv (peElems e) digestBlock)) (fun b s =>
    let n := min digestBlock (peElems e - b * digestBlock)
    let hs := words16 s (locAddr s (peWork e) + 2 * b * digestBlock) n
    let ls := words16 s (locAddr s (peRem e) + 2 * b * digestBlock) n
    wr (digestAddr s p e b) (bytesLE 4 (digestOf hs ls).toNat ++ bytesLE 4 u.toNat) s) s

/-- APPLIED_STEP of the image for a tensor. -/
def imageStep (m : Manifest) (e : BitVec 512) : W64 :=
  ((m.entries.find? (fun x => mePart x == 0 && meTensor x == peTensor e)).map meStep).getD (mfStep m)

def restoreDone (s : State) : State :=
  match s.restore, trainPlan s with
  | some r, some p =>
    let m := r.manifest
    let es := restored s m
    let s := if mfContent m == 0 then forEach es (fun e s => zeroState p e.1 s) s else s
    let s := forEach es (fun e s =>
      let u := imageStep m e.1
      setDigested e.2 u.toNat (setApplied e.2 u.toNat (freshDigests p e.1 u s))) s
    let s := setScaled (mfStep m) (forEach (s.params.homing ++ s.params.staged.toList) freeStaging s)
    let left := s.rooms.any (fun r => !r.2.unapplied.isEmpty)
    let s := { s with
      restore := none
      params := { s.params with lost := false, fetching := [], stopped := [], staged := none, homing := [], groupRuns := [] }
      steps := { s.steps with
        sets := r.sets.map (fun q => (q.1, (pieces 64 q.2).map (fun b => BitVec.ofNat 512 (natLE b))))
        afterRestore := some (mfStep m + 1), stepFree := false, lagInForce := if left then some p.lag else none } }
    driveRest (releaseNow r.room.toNat (raiseCtrl 0x8907 [a8 r.id.toNat, a8 (mfStep m).toNat] s))
  | some _, none => driveRest (endRestore (Config.restoreCause 9) true s)
  | none, _ => s

/-! ### RESTORE and its chunks -/

/-- Chunks are read two at a time into the staging room; a store's drives write it. -/
def beginRestore (src : Byte) (id addr : W64) (m : Manifest) (room : W16) (s : State) : State :=
  match manifestBad s id m, openImage m (restored s m) s with
  | none, some t =>
    let r : Restoring := {
      source := src, id := id, addr := addr, manifest := m, room := room, done := []
      sets := (m.entries.filter (fun e => mePart e == 7)).map (fun e => (meStep e, List.replicate (meLen e) 0)) }
    let t := forEach (t.params.homing ++ t.params.staged.toList) freeStaging
        { t with restore := some r, params := { t.params with staged := none, homing := [] } }
    let t := if src == 0 then driveWork (((roomAt t room.toNat).map (fun r => r.base.toNat)).getD 0) (2 * chunkLen) t else t
    if mfChunks m == 0 then restoreDone t else t
  | some why, _ => releaseNow room.toNat (raiseCtrl 0x8909 [a8 id.toNat, a2 (Config.restoreCause why)] s)
  | none, none => releaseNow room.toNat (raiseCtrl 0x8909 [a8 id.toNat, a2 (Config.restoreCause 8)] s)

def stepOpen (s : State) : Bool := s.steps.job.isSome || s.steps.queued.isSome

def restore (src : Byte) (id addr : W64) (m : Manifest) : Handler := fun _ s =>
  if 1 < src.toNat then badInline 0 s
  else if src == 0 && addr.toNat % chunkLen != 0 then badInline 16 s
  else if !(s.porter.plans.any (fun p => !s.porter.unloaded.contains p.1)) || stepOpen s || s.snap.isSome || s.restore.isSome ||
      (src == 0 && (s.ports.store.isEmpty || !storRoot s)) then reply stWrongState s
  else match grantRoom { cls := 6, home := 1, index := 0, slots := 1, fallback := false, pages := 2 * chunkLen / 4096 } 0xFFFF s with
    | none => reply stNoRoom s
    | some (k, s) => reply stAccepted (beginRestore src id addr m (BitVec.ofNat 16 k) s)

def execCmdRestore (c : Cmd) (source : Byte) (id addr : W64) (m : Manifest) (s : State) : Host.Outcome State Fault Refusal :=
  .next (order 0x0907 c [] (restore source id addr m) s)

/-- The source that reports a part at exactly its step, if any. -/
def partSource (s : State) (e : BitVec 256) (parts : List PartState) : Option PartState :=
  let good := parts.filter (fun q =>
    q.part == mePart e && (q.part == 7 || q.tensor.toNat == meTensor e) && q.step == meStep e && q.source != 0xFFFF)
  match good.find? (fun q => q.source == s.lodge.partner) with
  | some q => some q
  | none => good.head?

/-- A chunk has been read into staging, or could not be read: `parts` is what the sources supply for a chunk that fails
(16 R447). -/
def restoreChunkRead (k : Nat) (bytes : Option (List Byte)) (parts : List PartState) (s : State) : State :=
  match s.restore with
  | none => s
  | some r =>
    let m := r.manifest
    if mfChunks m ≤ k || r.done.contains k then s
    else
      let touched := partsIn m k
      let good := match bytes with
        | some bs => Config.sha512 bs == m.digests.getD k 0
        | none => false
      let step (s : State) : State :=
        let s := { s with restore := s.restore.map (fun r => { r with done := k :: r.done }) }
        if r.done.length + 1 == mfChunks m then restoreDone s else s
      if good then
        step (forEach touched (fun t s => putPart t.1 t.2.1 (((bytes.getD []).drop t.2.2.1).take t.2.2.2) s) s)
      else match touched.find? (fun t => (partSource s t.1 parts).isNone) with
        | some t => driveRest (endRestore (Config.restoreCause (0x100 + mePart t.1)) true s)
        | none =>
          step (forEach touched (fun t s => match partSource s t.1 parts with
            | some q => raiseCtrl 0x8908 [a4 (meTensor t.1), a2 (mePart t.1), a2 q.source.toNat] (putPart t.1 0 q.bytes s)
            | none => s) s)

def execRestoreChunkRead (chunk : Nat) (bytes : Option (List Byte)) (parts : List PartState) (s : State) :
    Host.Outcome State Fault Refusal := .next (restoreChunkRead chunk bytes parts s)

end Sys2Proof.Machine
end

