-- ==== Sys2Proof/Machine/Members.lean ====
section
/-! DEFINITION. Commands of group 0x05: module id, domain, Remote Segment Table, exports, rings, reduction layouts, and the
swap of expert placements (09 R247, R248, 10 R269 to R271, R287 to R289, 11 R297 to R303, R315 to R319, 16 R441). -/

namespace Sys2Proof.Machine

def setFab (f : Fabric → Fabric) (s : State) : State := { s with fab := f s.fab }

/-! ### Module id and domain (11 R297, R298, R317 to R319) -/

def moduleIdSet (id : W16) : Handler := fun _ s =>
  if s.fab.domain.isSome then reply stWrongState s else ok (capBump (setFab (fun f => { f with moduleId := id }) s))

def execCmdModuleIdSet (c : Cmd) (id : W16) (s : State) : Host.Outcome State Fault Refusal :=
  .next (order 0x0501 c [.domain] (moduleIdSet id) s)

/-- Exports whose rooms the session still owns become valid in the new epoch (11 R319). -/
def revalidate (epoch : W16) (s : State) : State :=
  setFab (fun f => { f with exports := f.exports.map (fun e => match roomAt s (exRoom e.2) with
    | some r => if r.owner == ownerSession s && r.owner != 0 then (e.1, putFld (putFld e.2 96 16 epoch.toNat) 35 1 1) else e
    | none => e) }) s

/-- Modules of the former member list that the new one does not name. -/
def removedMembers (s : State) (members : List Member) : List W16 :=
  (s.fab.members.map (fun m => m.id)).filter (fun id => !members.any (fun m => m.id == id))

/-- Choices outstanding at lost targets are dropped (10 R284). -/
def dropTargets (ids : List W16) (s : State) : State := forEach ids dropTarget s

/-- What a formation does to the group list, the reductions, the rounds and the lodging pair (09 R257, 10 R284, 16 R439, R441). -/
def afterFormation (gone : List W16) (members : List Member) (s : State) : State :=
  let out := (groupMembers s).filter (fun g => !members.any (fun m => m.id == g))
  let s := dropTargets gone (closeRoundsWithout out (closeByManager gone s))
  if gone.contains s.lodge.partner then partnerLost s else s

def domainForm (domain epoch : W16) (list : List (W16 × BitVec 7 × BitVec 36)) : Handler := fun _ s =>
  let members := list.map (fun m => ({ id := m.1, rack := m.2.1, planes := m.2.2 } : Member))
  if 128 < members.length then badExt 0 s
  else if s.fab.everFormed && epoch == s.fab.epoch then badInline 2 s
  else if s.fab.everFormed && !s.fab.tornDown then reply stWrongState s
  else
    let gone := removedMembers s members
    let s := setFab (fun f => { f with
      domain := some domain, epoch := epoch, members := members, everFormed := true, tornDown := false, nextSeq := [], nextMsg := [],
      refused := [] }) s
    let s := afterFormation gone members (revalidate epoch s)
    ok (raiseCtrl 0x4703 [a2 domain.toNat, a2 epoch.toNat, a2 members.length] s)

def execCmdDomainForm (c : Cmd) (domain epoch : W16) (members : List (W16 × BitVec 7 × BitVec 36)) (s : State) :
    Host.Outcome State Fault Refusal := .next (order 0x0502 c [.domain] (domainForm domain epoch members) s)

/-- Open rounds go on without the marks of lost sources (10 R284). -/
def closeLostMarks (lost : List W16) (s : State) : State :=
  forEach (s.exch.rounds.filter (fun r => !r.started)) (fun r s =>
    let miss := (missingMarks s r).filter (fun m => lost.contains m)
    settleRound r.step.toNat r.layer r.mb r.backward
      (updRound r.step.toNat r.layer r.mb r.backward (fun r => { r with
        marks := r.marks ++ miss.map (fun m => (m, 0, true)) }) s)) s

def clearValid (s : State) : State :=
  setFab (fun f => { f with
    rst := f.rst.map (fun e => (e.1, putFld e.2 3 1 0)), exports := f.exports.map (fun e => (e.1, putFld e.2 35 1 0))
    receipts := [], domain := none, tornDown := true }) s

/-- DOMAIN_TEARDOWN (11 R318): requests end, bundles out to other members among them, tables are cleared, reductions and
rounds close. -/
def domainTeardown (domain : W16) : Handler := fun _ s =>
  match s.fab.domain with
  | none => reply stWrongState s
  | some d =>
    if d != domain then badInline 0 s
    else
      let lost := s.fab.unreachable.filter (fun id => s.fab.members.any (fun m => m.id == id))
      let s := loseRequests (fun q => decide (rqOp q.entry ≤ 3)) s
      let s := match s.snap with
        | some x => if snapDest x == 2 && isMember s (bits x.req 416 16) then endSnapshot stPeerLost s else s
        | none => s
      let others := (s.fab.members.map (fun m => m.id)).filter (fun id => id != s.fab.moduleId)
      let s := dropTargets others (closeLostMarks lost (closeByManager lost (clearValid s)))
      ok (raiseCtrl 0x4702 [a2 domain.toNat, a2 s.fab.epoch.toNat] s)

def execCmdDomainTeardown (c : Cmd) (domain : W16) (s : State) : Host.Outcome State Fault Refusal :=
  .next (order 0x0503 c [.domain] (domainTeardown domain) s)

/-- MODULE_ID that an RST entry of rack `r` may hold. -/
def rackModule (s : State) (r : Nat) : Nat := ((s.fab.members.find? (fun m => m.rack.toNat == r)).map (fun m => m.id.toNat)).getD 0xFFFF

/-- RST_WRITE; EPOCH is the domain epoch in which the entry is written (11 R300). -/
def rstWrite (first count : Nat) (entries : List W64) : Handler := fun _ s =>
  if 65536 ≤ first then badInline 0 s
  else if 65536 < first + count || entries.length != count then badInline 4 s
  else match entries.zipIdx.find? (fun e => rstModule e.1 != rackModule s ((first + e.2) / 512) || fld e.1 4 28 != 0) with
    | some e => badExt (8 * e.2) s
    | none => ok (setFab (fun f => { f with rst := entries.zipIdx.foldl (fun t e => tset t (first + e.2) (putFld e.1 32 16 f.epoch.toNat)) f.rst }) s)

def execCmdRstWrite (c : Cmd) (first count : W32) (entries : List W64) (s : State) : Host.Outcome State Fault Refusal :=
  .next (order 0x0504 c [.domain] (rstWrite first.toNat count.toNat entries) s)

def unreachableClear (id : W16) : Handler := fun _ s =>
  ok (setFab (fun f => { f with unreachable := f.unreachable.filter (· != id) }) s)

def execCmdUnreachableClear (c : Cmd) (id : W16) (s : State) : Host.Outcome State Fault Refusal :=
  .next (order 0x0505 c [.domain] (unreachableClear id) s)

/-! ### Exports and rings (11 R301, R303, R315) -/

/-- The export breaks R301. -/
def badExport (s : State) (session : W16) (e : BitVec 128) : Bool :=
  match roomAt s (exRoom e) with
  | none => true
  | some r => r.home == 2 || r.cls == 7 || r.owner != session || r.slots * r.pages < exOffset e + exPages e ||
      exPages e == 0 || decide (131072 < exPages e)

def exportSet (segment : Nat) (e : BitVec 128) : Handler := fun p s =>
  if 512 ≤ segment then badInline 0 s
  else if !exValid e then ok (setFab (fun f => { f with exports := tdel f.exports segment }) s)
  else if fld e 0 32 != 0 || fld e 36 12 != 0 || badExport s p.session e then badInline 16 s
  else ok (setFab (fun f => { f with exports := tset f.exports segment (putFld e 96 16 f.epoch.toNat) }) s)

def execCmdExportSet (c : Cmd) (segment : W16) (entry : BitVec 128) (s : State) : Host.Outcome State Fault Refusal :=
  .next (order 0x0506 c [.room (exRoom entry)] (exportSet segment.toNat entry) s)

/-- RING_REGISTER: 0 a request ring, 1 a receive ring. -/
def ringRegister (kind index : Nat) (room : W16) (valid : Nat) : Handler := fun p s =>
  if 1 < kind then badInline 0 s
  else if (if kind == 0 then 16 else 64) ≤ index then badInline 1 s
  else if 1 < valid then badInline 4 s
  else if valid == 0 then
    if kind == 0 then ok (endRing index s) else ok (setFab (fun f => { f with receive := tdel f.receive index }) s)
  else ownRoom room 2 p s (fun r =>
    if kind == 0 then
      if r.cls != 4 || r.slots != 1 then badInline 2 s
      else ok (setFab (fun f => { f with rings := tset f.rings index { room := room, version := 0, next := 0, issued := [] } })
        (endRing index s))
    else if r.cls != 3 || r.home == 2 then badInline 2 s
    else ok (setFab (fun f => { f with receive := tset f.receive index room }) s))

def execCmdRingRegister (c : Cmd) (kind index : Byte) (room : W16) (valid : Byte) (s : State) :
    Host.Outcome State Fault Refusal :=
  .next (order 0x0507 c [.room room.toNat] (ringRegister kind.toNat index.toNat room valid.toNat) s)

/-! ### Reduction layouts (09 R247, R248) -/

/-- The next step to be dispatched. -/
def nextStep (s : State) : Nat :=
  match s.steps.job with
  | some j => j.step.toNat + s.steps.begun.toNat
  | none => match s.steps.afterRestore with
    | some n => n.toNat
    | none => if s.steps.stepFree then 1 else s.steps.lastBoundary.toNat + 1

/-- Pages of a gradient version: its head to byte 256, then the elements (08 R242). -/
def versionPages (e : BitVec 512) (fmt : Nat) : Nat := cdiv (256 + peElems e * (if fmt == 1 then 2 else 4)) pageBytes

/-- The gradient rooms of the layout's entries hold its result format: a slot that is as large as a version of the other
format, and not of this one, is of that format (log 140). -/
def formatFits (s : State) (l : Layout) : Bool :=
  match trainPlan s with
  | none => true
  | some p => ((p.params.drop (loFirst l)).take (loEntries l)).all (fun e => match roomAt s (peGradRoom e) with
    | some r => decide (versionPages e (loOfmt l) ≤ r.pages) &&
        (r.pages == versionPages e (loOfmt l) || r.pages != versionPages e (1 - loOfmt l))
    | none => true)

def badLayout (s : State) (l : Layout) : Bool :=
  let n := loN l
  let sh := loShardLog l
  n == 0 || decide (16384 < n) || loQ l == 0 || decide (n < loQ l) || decide (n ≤ loMine l) || decide (n ≤ loCoord l) ||
  (loBudget l != 0 && decide (loBudget l < 16)) || decide (1 < loCfmt l) || decide (1 < loOfmt l) || decide (sh < 16) || decide (26 < sh) ||
  fld l.raw 320 12 != 0 || fld l.raw 256 16 != 0 || fld l.raw 32 160 != 0 || (loEntries l == 0 && loRed l != verdictRed) ||
  !recCrcOk l.raw || decide (l.members.length < n) || loMember l (loMine l) != s.fab.moduleId || !formatFits s l ||
  s.red.layouts.any (fun m => loStep m != loStep l)

def redLayout (raw : BitVec 512) (members : List W16) : Handler := fun _ s =>
  let l : Layout := { raw := raw, members := members.take (fld raw 400 16) }
  if badLayout s l then badExt 0 s
  else if loFrom l < nextStep s then reply stWrongState s
  else ok { s with red := { s.red with
    layouts := s.red.layouts.filter (fun m => !(loRed m == loRed l && loFrom m == loFrom l)) ++ [l] } }

def execCmdRedLayout (c : Cmd) (layout : BitVec 512) (members : List W16) (s : State) : Host.Outcome State Fault Refusal :=
  .next (order 0x0508 c [.domain] (redLayout layout members) s)

/-! ### Expert placement (10 R269 to R271) -/

def setExch (f : Exchange → Exchange) (s : State) : State := { s with exch := f s.exch }

def planBindings (s : State) : List Binding := ((trainPlan s).map (fun p => p.bindings)).getD []

def holderSlots (e : BitVec 128) : List (Nat × Nat) := (List.range 4).map (fun k => (holderAt e k, weightAt e k))

/-- An entry breaks R271. -/
def badEptEntry (s : State) (group : List W16) (i : Nat) (e : BitVec 128) : Bool :=
  let b := (planBindings s).find? (fun b => eptIndex b.layer b.expert == i)
  let slots := holderSlots e
  let used := (slots.filter (fun h => h.2 != 0)).map (fun h => h.1)
  let inDomain (h : Nat) : Bool := group.any (fun g => g.toNat == h) && isMember s (BitVec.ofNat 16 h)
  b.isSome != entValid e || fld e 96 10 != 0 || (entValid e && !entDisabled e && used.isEmpty) ||
    (slots.map (fun h => h.2 != 0)) != (List.range 4).map (fun k => decide (k < used.length)) ||
    slots.any (fun h => h.2 == 0 && h.1 != 0xFFFF) || used.eraseDups.length != used.length ||
    used.any (fun h => !inDomain h) ||
    (used.contains s.fab.moduleId.toNat && !((b.map (fun b => b.mine && b.entries.length == 3)).getD false))

/-- EPT_LOAD: the group list and the whole EPT; an entry that the argument does not carry is as after reset. -/
def eptLoad (group : List W16) (entries : List (BitVec 128)) : Handler := fun _ s =>
  let all := entries.zipIdx
  let missing := (planBindings s).any (fun b => decide (entries.length ≤ eptIndex b.layer b.expert))
  if s.steps.job.isSome then reply stWrongState s
  else if 128 < group.length || 131072 < entries.length || missing then badExt 0 s
  else match all.find? (fun e => badEptEntry s group e.2 e.1) with
    | some e => badExt (2 * group.length + 16 * e.2) s
    | none => ok (setExch (fun x => { x with
        group := group.map some, active := (all.filter (fun e => e.1 != eptReset)).map (fun e => (e.2, e.1)) }) s)

def execCmdEptLoad (c : Cmd) (group : List W16) (entries : List (BitVec 128)) (s : State) : Host.Outcome State Fault Refusal :=
  .next (order 0x0509 c [.ept] (eptLoad group entries) s)

/-! ### Swaps (10 R287 to R289, 16 R443) -/

def rawActive (s : State) (i : Nat) : BitVec 128 := tget s.exch.active i eptReset

def holds (s : State) (e : BitVec 128) : Bool :=
  (holderSlots e).any (fun h => h.2 != 0 && h.1 == s.fab.moduleId.toNat)

/-- Indices of the staged experts that this module gains. -/
def gainedBy (s : State) (entries : List (Nat × BitVec 128)) : List Nat :=
  (entries.filter (fun e => holds s e.2 && !holds s (rawActive s e.1))).map (fun e => e.1)

/-- Parameter entries of the gained experts. -/
def gainedEntries (s : State) : List (BitVec 512 × Nat) :=
  let is := (planBindings s).flatMap (fun b => if s.exch.gained.contains (eptIndex b.layer b.expert) then b.entries else [])
  (trainedEntries s).filter (fun e => is.contains e.2)

/-- The gradient versions a + 1 to u, each once and in order; a promoted lodged copy brings none (10 R288, 16 R443). -/
def gradsWhole (u : Nat) (g : Gained) : Bool :=
  let a := g.state.step.toNat
  g.failed.isSome || g.grads.map (fun x => x.1.toNat) == (List.range (u - a)).map (fun i => a + 1 + i)

/-- The state fetched for an entry, from a source at a step not above the install step. -/
def gainFor (s : State) (u : Nat) (e : BitVec 512) : Option Gained :=
  s.exch.installs.find? (fun g => g.state.tensor.toNat == peTensor e && g.state.source != noSource &&
    decide (g.state.step.toNat ≤ u) && gradsWhole u g)

/-- A present holder of an expert, which is asked first; without one the lodging partner, else what the fabric manager names
(10 R288, 16 R443). -/
def gainSource (s : State) (i : Nat) : W16 :=
  let hs := ((holderSlots (rawActive s i)).filter (fun h => h.2 != 0)).map (fun h => BitVec.ofNat 16 h.1)
  (hs.find? (fun h => h != s.fab.moduleId && !s.fab.unreachable.contains h)).getD s.lodge.partner

/-- The state of the gained experts is asked for. -/
def requestGained (u : W64) (s : State) : State :=
  forEach (planBindings s) (fun b s =>
    let i := eptIndex b.layer b.expert
    if !s.exch.gained.contains i then s
    else forEach ((trainedEntries s).filter (fun e => b.entries.contains e.2)) (fun e s =>
      emit (.stateRequest (gainSource s i) (BitVec.ofNat 32 (peTensor e.1)) none u) s) s) s

/-- Gradient versions that come with the state become unapplied versions. -/
def gainGrads (e : BitVec 512) (gs : List (W64 × List Byte)) (s : State) : State :=
  forEach gs (fun g s => match addVersion (peGradRoom e) g.1 s with
    | none => s
    | some s => match (roomAt s (peGradRoom e)).bind (fun r => r.unapplied.find? (fun u => u.2 == g.1)) with
      | some u => wr (verAddr s (peGradRoom e) u.1.toNat) g.2 s
      | none => s) s

/-- Install one tensor of a gained expert: the state after gradient step a, with the unapplied versions a + 1 to u; after a
promoted lodged copy those steps are lost (16 R443). -/
def installGained (p : Plan) (u : Nat) (e : BitVec 512 × Nat) (g : Gained) (s : State) : State :=
  let a := g.state.step.toNat
  let s := setDigested e.2 a (installState p g.state e.1 s)
  match g.failed with
  | some x => raiseCtrl 0x8906 [a2 x.toNat, a2 (u - a)] (setApplied e.2 u s)
  | none => gainGrads e.1 g.grads (setApplied e.2 a s)

def clearStage (s : State) : State :=
  setExch (fun x => { x with staged := [], installStep := none, stageDone := false, gained := [], installs := [] }) s

/-- The boundary of the install step: the gained experts' state is installed and EPT_STAGE completes (10 R288, R289). -/
def stageInstall (s : State) : State :=
  match s.exch.installStep, trainPlan s with
  | some u, some p =>
    let es := gainedEntries s
    if s.exch.stageDone then s
    else if es.any (fun e => (gainFor s u.toNat e.1).isNone) then
      finish (fun q => q.wait == Wait.stage) { st := stDeviceFault } (clearStage s)
    else
      let s := forEach es (fun e s => match gainFor s u.toNat e.1 with
        | some g => installGained p u.toNat e g s
        | none => s) s
      finish (fun q => q.wait == Wait.stage) { st := stDone } (setExch (fun x => { x with stageDone := true, installs := [] }) s)
  | _, _ => s

def passedBoundary (s : State) (u : W64) : Bool := s.steps.anyBoundary && decide (u.toNat ≤ s.steps.lastBoundary.toNat)

def eptStage (u : W64) (entries : List (W32 × BitVec 128)) (gained : List Gained) : Handler := fun _ s =>
  let es := entries.map (fun e => (e.1.toNat, e.2))
  if !s.exch.staged.isEmpty || s.exch.installStep.isSome || passedBoundary s u then reply stWrongState s
  else match es.zipIdx.find? (fun e => decide (131072 ≤ e.1.1) || badEptEntry s (groupMembers s) e.1.1 e.1.2 ||
      entVer e.1.2 != (nextVer (BitVec.ofNat 16 (entVer (rawActive s e.1.1)))).toNat) with
    | some e => badExt (20 * e.2) s
    | none =>
      let mine := gainedBy s es
      let s := setExch (fun x => { x with
        staged := es.foldl (fun t e => tset t e.1 e.2) [], installStep := some u, stageDone := mine.isEmpty, activated := false
        gained := mine, installs := gained }) s
      if mine.isEmpty then ok s else (.wait .stage, requestGained u s)

def execCmdEptStage (c : Cmd) (step : W64) (entries : List (W32 × BitVec 128)) (gained : List Gained) (s : State) :
    Host.Outcome State Fault Refusal := .next (order 0x050A c [.ept] (eptStage step entries gained) s)

/-- EPT_ACTIVATE: pending until the routers switch at the first dispatch of step v + 1. -/
def eptActivate (v : W64) : Handler := fun _ s =>
  match s.exch.installStep with
  | none => reply stWrongState s
  | some u =>
    if !s.exch.stageDone || s.exch.activated || s.exch.activateStep.isSome || v.toNat ≤ u.toNat || v.toNat + 1 < nextStep s then
      reply stWrongState s
    else (.wait (.activate v), setExch (fun x => { x with activateStep := some v }) s)

def execCmdEptActivate (c : Cmd) (step : W64) (s : State) : Host.Outcome State Fault Refusal :=
  .next (order 0x050B c [.ept] (eptActivate step) s)

/-- The state of an expert that a cleared stage had gained is released. -/
def releaseGained (s : State) : State :=
  forEach (gainedEntries s) (fun e s => { s with params := { s.params with
    applied := tdel s.params.applied e.2, digested := tdel s.params.digested e.2 } }) s

def isActivateWait (p : Pending) : Bool := match p.wait with
  | .activate _ => true
  | _ => false

/-- EPT_RETIRE: the staged image is cleared; a stage or an activation still pending is superseded. -/
def eptRetire : Handler := fun _ s =>
  let s := finish (fun q => q.wait == Wait.stage) { st := stSuperseded } (finish isActivateWait { st := stSuperseded } s)
  let s := if s.exch.activated then s else releaseGained s
  ok (setExch (fun x => { x with activateStep := none, activated := false }) (clearStage s))

def execCmdEptRetire (c : Cmd) (s : State) : Host.Outcome State Fault Refusal := .next (order 0x050C c [.ept] eptRetire s)

end Sys2Proof.Machine
end

