-- ==== Sys2Proof/Machine/PlanCheck.lean ====
section
/-! DEFINITION. The checks of a plan at its load (03 R54 to R63, R90, 04 R93, R100, R107, R113, R114, R117 to R119, 05 R156,
06 R165, R170, 07 R212, 08 R219, 10 R277, 13 R372, 18 R485, R488). Each says whether the plan breaks it. -/

namespace Sys2Proof.Machine

/-! ### Streams (03 R54, R56, R62, R63, 04 R107, R118) -/

/-- Streams of a plan's task: A, W, C, O and the auxiliary streams, with whether each is an output. -/
def taskStreams (t : PlanTask) : List (BitVec 256 × Bool) :=
  [(dStream t.desc 0, false), (dStream t.desc 1, false), (dStream t.desc 2, false), (dStream t.desc 3, true)] ++
    (auxOf t).zipIdx.map (fun x => (x.1, dAuxOut t.desc x.2))

def formatBad (fore : Bool) (f : Nat) : Bool := decide (0xB ≤ f) || (if fore then !List.contains [0, 1, 2, 0xA] f else f == 0xA)
def transBad (fore : Bool) (f : Nat) : Bool := if fore then !List.contains [1, 2, 0xA] f else !List.contains [1, 2, 3, 4] f

/-- A block-scaled format that only exists with scales (03 R63). -/
def needsScale (f : Nat) : Bool := f == 5 || f == 6 || f == 7

def streamBad (fore : Bool) (x : BitVec 256) (isOut : Bool) : Bool :=
  if !sUsed x then x != 0
  else fld x 40 8 != 0 || fld x 32 2 != 0 || formatBad fore (sFmt x) ||
    (sTrans x && (isOut || transBad fore (sFmt x))) || (!isOut && needsScale (sFmt x) && !sScaled x)

/-- Numeric control that no output may carry: a reserved bit or encoding (03 Table 3-3). -/
def controlReserved (nc : Nat) : Bool := decide (64 ≤ nc) || ncRnd nc == 3

/-- Numeric control of an output in a format (03 R62, R63). -/
def controlBad (fore : Bool) (nc fmt : Nat) : Bool :=
  controlReserved nc || (ncNonfin nc && (fmt == 8 || fmt == 9)) || (needsScale fmt && ncAxes nc == 0) ||
  (fore && (ncRnd nc != 0 || ncAxes nc != 0))

/-! ### Header and epilogue unit (04 Table 4-6, 05 Table 5-2) -/

def headerBad (d : BitVec 2048) : Bool :=
  decide (2 < dKind d) || decide (8 < dTowerPref d) || (dStallLog d != 0 && (decide (dStallLog d < 16) || dStallLog d == 31)) ||
  dQ1 d == 0 || decide (16 < dQ1 d) || dQ2 d == 0 || decide (8 < dQ2 d) || dQ3 d == 0 || decide (8 < dQ3 d) ||
  dCore d != 0x1FF || dAccInit d == 3 || fld d 424 5 != 0 || fld d 65 63 != 0 || dM d == 0 || dN d == 0 || dK d == 0 ||
  ((dAmaxAxes d == 0) != (dAmaxAddr d == 0)) || (!dRerun d && dRerunOf d != 0)

def epilogueBad (t : PlanTask) : Bool :=
  let d := t.desc
  let n := dNaux d
  n == 7 || fld d 1920 13 != 0 || fld d 1792 16 != 0 || (dProgLen d == 0 && dProgAddr d != 0) || decide (512 < dProgLen d) ||
  (decide (n ≤ 1) && dAuxAddr d != 0) || (n == 0 && dAux0 d != 0) || t.auxRest.length != n - 1 ||
  (List.range 6).any (fun k => (decide (n ≤ k) && dAuxOut d k) || (!dAuxOut d k && dAuxNumctl d k != 0))

/-- Auxiliary outputs that together are the two orientations of SCALE_AXES 0b11, with their formats (03 R78; log 126). -/
def bothAxes (t : PlanTask) : List Nat :=
  (auxOf t).zipIdx.filterMap (fun x => if dAuxOut t.desc x.2 && ncAxes (dAuxNumctl t.desc x.2) == 3 then some (sFmt x.1) else none)

/-- Outputs with their numeric control; SCALE_AXES of stream O is 0b00 (04 Table 4-6), and 0b11 stands on both of the two
outputs of one tensor or on none. -/
def controlsBad (fore : Bool) (t : PlanTask) : Bool :=
  let d := t.desc
  let both := bothAxes t
  ncAxes (dNumctlO d) != 0 || controlReserved (dNumctlO d) ||
  (auxOf t).zipIdx.any (fun x => dAuxOut d x.2 && controlBad fore (dAuxNumctl d x.2) (sFmt x.1)) ||
  !(both.isEmpty || (both.length == 2 && both.getD 0 0 == both.getD 1 0))

/-- Numeric control of stream O, once its addresses are known: a mover's copy of FP6 or FP4 elements with their scale array
writes no format on its own, and R63 does not apply to it (07 R212; DESIGN CHOICE, log 133). -/
def outputBad (fore : Bool) (t : PlanTask) : Bool :=
  let o := dStream t.desc 3
  sUsed o && controlBad fore (dNumctlO t.desc) (sFmt o) &&
    !((moverOf t).isSome && sScaled o && needsScale (sFmt o) && !controlBad fore (dNumctlO t.desc) 3)

/-! ### Shapes, operands and reservations (04 R93, R113, R119) -/

def shapeIs (x : BitVec 256) (b r c : Nat) : Bool := sExt2 x == b && logRows x == r && logCols x == c

def operandClass (f : Nat) : Nat :=
  if f == 3 || f == 4 then 1 else if f == 5 || f == 6 then 2 else if f == 7 then 3 else if f == 1 || f == 2 then 4
  else if f == 0 then 5 else if f == 0xA then 6 else 0

def productBad (fore : Bool) (d : BitVec 2048) : Bool :=
  let a := dStream d 0
  let w := dStream d 1
  let c := dStream d 2
  let o := dStream d 3
  let b := sExt2 a
  !sUsed a || !sUsed w || (dAccInit d == 1 && !sUsed c) || !shapeIs a b (dM d) (dK d) ||
  !(shapeIs w b (dN d) (dK d) || (shapeIs w 1 (dN d) (dK d) && sStr2 w == 0)) ||
  (sUsed c && (!shapeIs c b (dM d) (dN d) || sFmt c != 0)) ||
  (sUsed o && (!shapeIs o b (dM d) (dN d) || decide (2 < sFmt o))) ||
  operandClass (sFmt a) == 0 || operandClass (sFmt a) != operandClass (sFmt w) ||
  (fore && operandClass (sFmt a) != 4 && operandClass (sFmt a) != 6) ||
  decide (dQ1 d < if operandClass (sFmt w) == 2 then 7 else 9)

def plainBad (d : BitVec 2048) : Bool :=
  let a := dStream d 0
  let o := dStream d 3
  dStream d 1 != 0 || dStream d 2 != 0 || dAccInit d != 0 || dAccHold d || (dKind d == 2 && dProgLen d != 0) ||
  (sUsed a && !shapeIs a (sExt2 a) (dM d) (dK d)) || (sUsed o && !shapeIs o (sExt2 a) (dM d) (dN d))

/-- A mover's task (07 R212). -/
def moverBad (t : PlanTask) : Bool :=
  let a := dStream t.desc 0
  let o := dStream t.desc 3
  (moverOf t).isSome && (sFmt a != sFmt o || sTrans a || sTrans o || dProgLen t.desc != 0 || sScaled a != sScaled o)

/-- The completion record lies in the task's own room and outside the descriptor (04 R119). -/
def recordBad (s : State) (t : PlanTask) : Bool :=
  match roomAt s t.room.toNat with
  | none => true
  | some r => r.cls != 7 || decide (dCplAddr t.desc < r.base.toNat + 256) || decide (r.base.toNat + slotBytes r < dCplAddr t.desc + 64)

/-- Bytes that a stream reaches; a repeated dimension reaches its bytes once. -/
def rangesMeet (x y : BitVec 256) : Bool :=
  (spansOf x).any (fun p => (spansOf y).any (fun q => decide (p.1 < q.1 + q.2) && decide (q.1 < p.1 + p.2)))

/-- An output that overlaps an input: in a room of two or more slots they lie in different slots (04 R114). -/
def overlapBad (s : State) (t : PlanTask) : Bool :=
  let xs := (taskStreams t).filter (fun x => sUsed x.1)
  (xs.filter (fun x => x.2)).any (fun o => (xs.filter (fun x => !x.2)).any (fun i =>
    let apart := sRoom o.1 == sRoom i.1 && sRoom o.1 != 0xFFFF && ((roomAt s (sRoom o.1)).map (fun r => decide (2 ≤ r.slots))).getD false
    !apart && rangesMeet o.1 i.1))

/-! ### Programs (05 R135 to R151, R156) -/

def wOp (w : W64) : Nat := fld w 56 8
def wType (w : W64) : Nat := fld w 54 2
def wD (w : W64) : Nat := fld w 49 5
def wSA (w : W64) : Nat := fld w 44 5
def wSB (w : W64) : Nat := fld w 39 5
def wSC (w : W64) : Nat := fld w 34 5
def wAux (w : W64) : Nat := fld w 31 3
def wCtl (w : W64) (lo n : Nat) : Nat := fld w lo n

/-- Register count of a multi-register operand. -/
def wN (w : W64) : Nat := wCtl w 0 4 + 1

/-- CTL bits that an operation defines (Table 5-5, R143 to R148); none for a reserved OP. -/
def ctlMask (op : Nat) : Option Nat :=
  if [0x00, 0x01, 0x02, 0x03, 0x04, 0x05, 0x06, 0x07, 0x09, 0x0A, 0x10, 0x11, 0x12, 0x13, 0x14, 0x15, 0x16, 0x17, 0x18, 0x20,
      0x21, 0x31, 0x51, 0x53].contains op then some 0
  else if [0x08, 0x22, 0x23, 0x28].contains op then some 3
  else if op == 0x0B || op == 0x40 then some 1
  else if op == 0x29 || op == 0x2C || op == 0x52 then some 0xF
  else if op == 0x2A || op == 0x2B || op == 0x41 then some 7
  else if op == 0x30 then some 0xFFFF
  else if op == 0x32 then some 0x7FF
  else if op == 0x33 then some 0xFF
  else if op == 0x38 || op == 0x39 || op == 0x3A || op == 0x50 then some 0x1F
  else if op == 0x42 || op == 0x43 then some 4
  else none

def shufBad (w : W64) : Bool :=
  let p := wCtl w 0 12
  match wCtl w 12 4 with
  | 0 => decide (1023 < p)
  | 1 => decide (127 < p)
  | 2 => decide (1023 < p)
  | 3 => decide (1 < p)
  | 4 => decide (1 < p)
  | 5 => decide (7 < p)
  | 6 => decide (127 < p)
  | _ => true

def packBad (w : W64) : Bool :=
  match wCtl w 4 4 with
  | 1 => wN w != 2
  | 2 => wN w != 2
  | 8 => wN w != 4 || wCtl w 10 1 == 1
  | 9 => wN w != 4 || wCtl w 10 1 == 1
  | _ => true

/-- A stream that LDX, STX, EXPB or QNT names: an input or an output below NAUX. -/
def auxBad (d : BitVec 2048) (k : Nat) (isOut : Bool) : Bool := decide (dNaux d ≤ k) || dAuxOut d k != isOut

/-- Entries in one row of the task's shape, less one: the largest index that an indexed LDQ adds. -/
def ldqSpan (d : BitVec 2048) (geom : Nat) : Nat :=
  let p := taskShape d
  max 1 (cdiv p.c (if geom == 0 then 1024 else 128)) - 1

def wordBad (d : BitVec 2048) (geom : Nat) (fore : Bool) (w : W64) : Bool :=
  let op := wOp w
  let past (r n : Nat) : Bool := decide (32 < r + n)
  match ctlMask op with
  | none => true
  | some m =>
    wType w == 3 || fld w 16 15 != 0 || decide (6 ≤ wAux w) || wCtl w 0 16 &&& m != wCtl w 0 16 ||
    ((op == 0x22 || op == 0x28) && wCtl w 0 2 == 3) ||
    ((op == 0x29 || op == 0x2C) && formatBad fore (wCtl w 0 4)) ||
    ((op == 0x2A || op == 0x2B) && auxBad d (wCtl w 0 3) true) ||
    (op == 0x30 && shufBad w) || ((op == 0x32 || op == 0x33) && packBad w) || (op == 0x32 && wCtl w 8 2 == 3) ||
    ((op == 0x38 || op == 0x39 || op == 0x3A) &&
      (if wCtl w 4 1 == 0 then !List.contains [5, 7, 10] (wCtl w 0 4) else wCtl w 0 4 != 0)) ||
    (op == 0x41 && (auxBad d (wAux w) false || wCtl w 0 2 == 3 || (wCtl w 0 2 == 2 && geom != 2))) ||
    (op == 0x43 && auxBad d (wAux w) true) ||
    (op == 0x32 && past (wSA w) (wN w)) || (op == 0x33 && past (wD w) (wN w)) ||
    ((op == 0x50 || op == 0x52) && (past (wSA w) (wN w) || past (wD w) 2)) ||
    (op == 0x51 && (past (wSB w) 2 || past (wSC w) 2)) || (op == 0x53 && past (wSB w) 2) ||
    (op == 0x40 && wCtl w 0 1 == 1 && past (wD w) (1 + ldqSpan d geom))

/-- Registers that an instruction reads and writes (05 R139, R140, R145, R147, R148). -/
def wSources (w : W64) : List Nat :=
  let run (a n : Nat) : List Nat := (List.range n).map (a + ·)
  match wOp w with
  | 0x00 => []
  | 0x40 => []
  | 0x41 => []
  | 0x32 => run (wSA w) (wN w)
  | 0x50 => wSB w :: run (wSA w) (wN w)
  | 0x52 => wSB w :: run (wSA w) (wN w)
  | 0x51 => wSA w :: run (wSB w) 2 ++ run (wSC w) 2
  | 0x53 => wSA w :: run (wSB w) 2
  | _ => [wSA w, wSB w, wSC w]

def wTargets (w : W64) : List Nat :=
  match wOp w with
  | 0x00 => []
  | 0x42 => []
  | 0x43 => []
  | 0x33 => (List.range (wN w)).map (wD w + ·)
  | 0x50 => [wD w, wD w + 1]
  | 0x52 => [wD w, wD w + 1]
  | _ => [wD w]

/-- The instruction itself converts stochastically into a register: PACK with that rounding, or CVT under such a NUMCTL_O. -/
def drawsInto (d : BitVec 2048) (w : W64) : Bool :=
  (wOp w == 0x32 && wCtl w 8 2 == 1) || (wOp w == 0x28 && ncRnd (dNumctlO d) == 1)

/-- One instruction of a walk through a program: registers that hold values converted stochastically, and the streams that
such values have been written to, 6 for stream O. -/
def drawStep (d : BitVec 2048) (x : List Nat × List Nat) (w : W64) : List Nat × List Nat :=
  let drawn := drawsInto d w || (wSources w).any x.1.contains
  let outs := if !drawn then x.2 else if wOp w == 0x42 then addNew x.2 6 else if wOp w == 0x43 then addNew x.2 (wAux w) else x.2
  let kept := x.1.filter (fun r => !(wTargets w).contains r)
  (if drawn then (wTargets w).foldl addNew kept else kept, outs)

/-- Streams to which a task's program writes values that it converted stochastically in a register; the sections repeat, so
that the walk goes through them twice. -/
def drawnStreams (t : PlanTask) : List Nat := ((t.prog ++ t.prog).foldl (drawStep t.desc) ([], [])).2

/-- Tensors that the task converts stochastically: at most one, or the two orientations of one (05 R151). -/
def stochasticBad (t : PlanTask) : Bool :=
  let d := t.desc
  let o := if sUsed (dStream d 3) && ncRnd (dNumctlO d) == 1 then [6] else []
  let as := (List.range (dNaux d)).filter (fun k => dAuxOut d k && ncRnd (dAuxNumctl d k) == 1)
  let all := (drawnStreams t).foldl addNew (o ++ as)
  let axes := all.map (fun k => if k < 6 then ncAxes (dAuxNumctl d k) else 0)
  !(decide (all.length ≤ 1) || axes == [1, 2] || axes == [2, 1] || axes == [3, 3])

def programBad (fore : Bool) (t : PlanTask) : Bool :=
  let d := t.desc
  if dProgLen d == 0 then !t.prog.isEmpty
  else
    let h := t.progHead
    let pre := fld h 118 10
    let body := fld h 108 10
    let row := fld h 98 10
    let fin := fld h 88 10
    let entries := fld h 85 3
    let geom := fld h 83 2
    let isLdq (w : W64) : Bool := wOp w == 0x40
    let inBody := (t.prog.drop pre).take body
    let bandUse := t.prog.any (fun w => (wOp w == 0x41 && wCtl w 0 2 == 2) || wOp w == 0x42 || wOp w == 0x43)
    t.prog.length != dProgLen d || pre + body + row + fin != dProgLen d || body == 0 || entries == 0 || decide (4 < entries) ||
    geom == 3 || fld h 32 51 != 0 || (dKind d == 0 && geom != 1) || (geom == 2 && !bandUse) ||
    (inBody.filter isLdq).length != entries || (t.prog.filter isLdq).length != entries ||
    t.prog.any (wordBad d geom fore) || stochasticBad t

/-! ### Chains of held banks (04 R100, 13 R372) -/

def unitBad (d : BitVec 2048) : Bool := dKind d != 0 || unitsOf d != 1

/-- Pond slices that a task names. -/
def slicesOf (t : PlanTask) : List Nat := ((addrsOf t).filter (fun a => regionOf a == .pond)).map sliceOf

def followersOf (p : Plan) (t : PlanTask) : List PlanTask :=
  p.tasks.filter (fun u => dAccInit u.desc == 2 && u.deps.any (fun x => x.toNat == dTask t.desc))

def holdBad (p : Plan) (t : PlanTask) : Bool :=
  let chain := chainOf p 17 t
  (dAccHold t.desc && (unitBad t.desc || (match followersOf p t with
    | [u] => unitBad u.desc || dM u.desc != dM t.desc || dN u.desc != dN t.desc ||
        !(slicesOf u).all (fun k => (chain.flatMap slicesOf).contains k)
    | _ => true))) ||
  (dAccInit t.desc == 2 && ((t.deps.filterMap (fun x => planTask p x.toNat)).filter (fun u => dAccHold u.desc)).length != 1) ||
  decide (16 < chain.length)

/-! ### The task graph (04 R114) -/

/-- Peel tasks whose dependencies are gone; what is left lies on a cycle or behind one. -/
def peel : Nat → List (Nat × List Nat) → List (Nat × List Nat)
  | 0, l => l
  | n + 1, l =>
    let next := l.filter (fun t => t.2.any (fun x => l.any (fun u => u.1 == x)))
    if next.length == l.length then l else peel n next

def graphBad (p : Plan) : Bool :=
  let ids := p.tasks.map (fun t => dTask t.desc)
  let g := p.tasks.map (fun t => (dTask t.desc, t.deps.map (fun x => x.toNat)))
  ids.eraseDups.length != ids.length || g.any (fun t => t.2.any (fun x => !ids.contains x)) || !(peel g.length g).isEmpty

/-! ### One task -/

/-- Checks of a task that its rooms do not enter into. -/
def taskFormBad (p : Plan) (t : PlanTask) : Bool :=
  let fore := p.forerunner
  headerBad t.desc || epilogueBad t || controlsBad fore t || (taskStreams t).any (fun x => streamBad fore x.1 x.2) ||
  (if dKind t.desc == 0 then productBad fore t.desc else plainBad t.desc) ||
  programBad fore t || holdBad p t || (t.slot != 0xFF && decide (3 < t.slot.toNat)) ||
  (fore && (auxOf t).any (fun x => sUsed x && (sExt0 x == 1 || sStr1 x == 0 || sStr2 x == 0)))

def taskBad (s : State) (p : Plan) (t : PlanTask) : Bool :=
  taskFormBad p t || outputBad p.forerunner t || moverBad t || recordBad s t || overlapBad s t

/-- The auxiliary input that holds the tensor scale of a scale pass: what EXPB reads as its second operand (05 R155). -/
def seedStream (t : PlanTask) : Option Nat :=
  (t.prog.zipIdx.findSome? (fun x =>
    if wOp x.1 != 0x2A then none
    else ((t.prog.take x.2).reverse.find? (fun w => (wTargets w).contains (wSB x.1))).bind (fun w =>
      if wOp w == 0x41 then some (wAux w) else none)))

/-- What tells pieces of one tensor: they read one scale seed, or write into one scale array; room, place and version mark
(03 R67, 05 R155; log 49). -/
def pieceKeys (t : PlanTask) : List (Nat × Nat × Nat × Nat × Nat) :=
  let aux (k : Nat) : BitVec 256 := (auxOf t).getD k 0
  let scaled := (List.range (dNaux t.desc)).filter (fun k => dAuxOut t.desc k && ncAxes (dAuxNumctl t.desc k) != 0)
  let seed := match seedStream t with
    | some k => [(0, t.slot.toNat, sRoom (aux k), sBase (aux k), sVer (aux k))]
    | none => []
  if scaled.isEmpty then []
  else seed ++ (scaled.filter (fun k => sScaled (aux k))).map (fun k =>
    (1, t.slot.toNat, sRoom (aux k), sBase (aux k) + sScaleOff (aux k), sVer (aux k)))

/-- Every scale-pass task of one tensor carries one OUT_TENSOR_ID (05 R155, R156). -/
def piecesBad (p : Plan) : Bool :=
  let outs := p.tasks.flatMap (fun t => (pieceKeys t).map (fun k => (k, dOutTensor t.desc)))
  outs.any (fun a => outs.any (fun b => a.1 == b.1 && a.2 != b.2))

/-- A version of a room with more than 65,535 writers (07 R201). -/
def writersBad (p : Plan) : Bool :=
  let outs := p.tasks.flatMap (fun t => ((outputsOf t).map (fun o => (o.2.1, o.2.2))).eraseDups)
  decide (65535 < outs.length) && outs.any (fun a => decide (65535 < (outs.filter (· == a)).length))

/-! ### Saved state (06 R163 to R170, 03 R90) -/

def svTensor (e : BitVec 256) : Nat := fld e 224 32
def svPolicy (e : BitVec 256) : Nat := fld e 221 3
def svFmt (e : BitVec 256) : Nat := fld e 217 4
def svAxes (e : BitVec 256) : Nat := fld e 215 2
def svFn (e : BitVec 256) : Nat := fld e 212 3
def svResidual (e : BitVec 256) : Bool := fld e 211 1 == 1
def svRoom (e : BitVec 256) : Nat := fld e 192 16
def svBase (e : BitVec 256) : Nat := fld e 128 64
def svFirst (e : BitVec 256) : Nat := fld e 96 32
def svCount (e : BitVec 256) : Nat := fld e 88 8
def svLast (e : BitVec 256) : Nat := fld e 32 32
def svScores (e : BitVec 256) : Nat := fld e 0 32

/-- Forward tasks that produce a tensor. -/
def producers (p : Plan) (tensor : Nat) : List PlanTask :=
  p.tasks.filter (fun t => dOutTensor t.desc == tensor && !t.backward && sUsed (dStream t.desc 3))

/-- Fields in which a re-run task may differ from its forward task, cleared (06 R170). -/
def rerunKey (t : PlanTask) : BitVec 2048 × List (BitVec 256) × BitVec 128 × List W64 :=
  let d := [(480, 32), (192, 64), (64, 1), (32, 32), (0, 32), (1280, 16)].foldl (fun d f => putFld d f.1 f.2 0) t.desc
  (d, t.auxRest, t.progHead, t.prog)

/-- A room that holds parameters: of class parameter stream, or named by an entry (07 Table 7-4, 08 R218; log 135). -/
def paramRoom (s : State) (p : Plan) (room : Nat) : Bool :=
  ((roomAt s room).map (fun r => r.cls == 1)).getD false ||
  p.params.any (fun e => [peWork e, peRem e].any (fun l => l != 0 && locRoom l == room))

/-- An input that starts inside a kept pond copy: at its base, or inside what a forward task writes of its tensor there. -/
def keptPond (p : Plan) (e : BitVec 256) (a : Nat) : Bool :=
  svRoom e == 0xFFFF && (svBase e == a || p.tasks.any (fun u => !u.backward && dOutTensor u.desc == svTensor e &&
    (taskStreams u).any (fun y => y.2 && sUsed y.1 && sRoom y.1 == 0xFFFF &&
      (spansOf y.1).any (fun q => decide (q.1 ≤ a) && decide (a < q.1 + q.2)))))

/-- Inputs of a task that may be re-run: parameter rooms, kept activations, rooms that no task writes (06 R165). -/
def rerunInputsBad (s : State) (p : Plan) (t : PlanTask) : Bool :=
  let kept := p.saved.filter (fun e => svPolicy e != 5)
  let written := p.tasks.flatMap (fun u => (outputsOf u).map (fun o => o.2.1))
  ((taskStreams t).filter (fun x => sUsed x.1 && !x.2)).any (fun x =>
    if sRoom x.1 == 0xFFFF then !kept.any (fun e => keptPond p e (sBase x.1))
    else !(paramRoom s p (sRoom x.1) || kept.any (fun e => svRoom e == sRoom x.1) || !written.contains (sRoom x.1)))

/-- The task writes something beside the activation `tensor` and its amax record: another OUT_TENSOR_ID, or an unscaled
auxiliary output beside its first output (06 R165; a block-scaled output carries OUT_TENSOR_ID, 05 R150). -/
def writesOther (t : PlanTask) (tensor : Nat) : Bool :=
  let plain := (List.range (dNaux t.desc)).filter (fun k => dAuxOut t.desc k && ncAxes (dAuxNumctl t.desc k) == 0)
  dOutTensor t.desc != tensor || decide (1 < plain.length + (sUsed (dStream t.desc 3)).toNat)

def recomputeBad (p : Plan) (e : BitVec 256) : Bool :=
  svCount e == 0 || svBase e != 0 || (List.range (svCount e)).any (fun i =>
    match planTask p (svFirst e + i) with
    | none => true
    | some t => t.backward || dRerun t.desc || writesOther t (svTensor e) ||
      (match p.tasks.filter (fun u => dRerun u.desc && dRerunOf u.desc == svFirst e + i) with
        | [u] => rerunKey u != rerunKey t
        | _ => true))

/-- The inputs of every task that an entry re-runs are held. -/
def recomputeHeldBad (s : State) (p : Plan) (e : BitVec 256) : Bool :=
  svPolicy e == 5 && (List.range (svCount e)).any (fun i => ((planTask p (svFirst e + i)).map (rerunInputsBad s p)).getD false)

/-- The task narrows a residual tensor: it writes it, or its block-scaled copy, under the tensor's own TENSOR_ID in another
format than FP32, or copies what a task before it wrote of it (03 R90; log 136). -/
def narrowsResidual (p : Plan) (tensor : Nat) (t : PlanTask) : Bool :=
  let o := dStream t.desc 3
  let outs := (auxOf t).zipIdx.filter (fun x => dAuxOut t.desc x.2 && sUsed x.1)
  let mine := dOutTensor t.desc == tensor &&
    (if sUsed o then sFmt o != 0 || outs.any (fun x => ncAxes (dAuxNumctl t.desc x.2) != 0)
     else outs.any (fun x => sFmt x.1 != 0))
  let a := dStream t.desc 0
  let source (u : PlanTask) : Bool := dOutTensor u.desc == tensor && (taskStreams u).any (fun y =>
    y.2 && sUsed y.1 && sFmt y.1 == 0 && sRoom y.1 == sRoom a && sBase y.1 == sBase a)
  let copied := dKind t.desc != 0 && dProgLen t.desc == 0 && sUsed a && sUsed o && sFmt o != 0 &&
    t.deps.any (fun x => ((planTask p x.toNat).map source).getD false)
  mine || copied

def savedBad (p : Plan) (e : BitVec 256) : Bool :=
  let pol := svPolicy e
  let prods := producers p (svTensor e)
  decide (5 < pol) || decide (4 < svFn e) || fld e 208 3 != 0 || fld e 64 24 != 0 || ((svFn e != 0) != (pol == 4)) ||
  (match pol with
    | 0 => formatBad p.forerunner (svFmt e) || prods.any (fun t => sFmt (dStream t.desc 3) != svFmt e)
    | 1 => svFmt e != 3 && svFmt e != 4
    | _ => svFmt e != 0) ||
  (pol != 1 && svAxes e != 0) || (pol != 5 && (svFirst e != 0 || svCount e != 0)) || (pol == 5 && recomputeBad p e) ||
  (svResidual e && (!((pol == 0 && svFmt e == 0) || pol == 5) || p.tasks.any (narrowsResidual p (svTensor e)))) ||
  (if svFn e == 4 then !p.saved.any (fun x => svTensor x == svScores e && x != e && (svPolicy x == 0 || svPolicy x == 5))
   else svScores e != 0) ||
  !((planTask p (svLast e)).map (fun t => t.backward)).getD false

/-- A task with RERUN = 1 that no entry's forward task answers for. -/
def rerunBad (p : Plan) (t : PlanTask) : Bool :=
  dRerun t.desc && !p.saved.any (fun e => svPolicy e == 5 && decide (svFirst e ≤ dRerunOf t.desc) && decide (dRerunOf t.desc < svFirst e + svCount e))

/-! ### Parameter entries (08 R218, R219) -/

def locHome (s : State) (l : Nat) : Option Nat := (roomAt s (locRoom l)).map (fun r => r.home.toNat)

/-- Checks of an entry that its rooms do not enter into. -/
def paramFormBad (p : Plan) (e : BitVec 512) : Bool :=
  let r := peRecipe e
  let m1 := r == 0 || r == 1 || (r == 2 && peCFirst e)
  let m2 := r == 0 || r == 2
  !recCrcOk e || r == 3 || (peCFirst e && r != 2) || decide (2 ≤ peMrnd e) || fld e 448 8 != 0 || fld e 32 88 != 0 ||
  (if peResident e then peLag e == 0 || decide (4 < peLag e) || peLag e != p.lag else peLag e != 0) ||
  (r == 2 && (decide (peRows e < 128) || decide (peCols e < 128))) ||
  (!peFrozen e && (peWork e == 0 || peRem e == 0 || peGradRoom e == 0 ||
    (m1 != (peMom1 e != 0)) || (m2 != (peMom2 e != 0)) || ((r == 2) != (peColf e != 0))))

/-- What R234 and R235 say of the rooms of a trained Cellar-resident entry: one slot for the working copy; a stack-tier room of
class gradient with LAG + 1 slots for its gradients (the refusal is DESIGN CHOICE, log 134). -/
def residentRoomsBad (s : State) (e : BitVec 512) : Bool :=
  !((roomAt s (locRoom (peWork e))).map (fun r => r.slots == 1)).getD false ||
  !((roomAt s (peGradRoom e)).map (fun r => r.cls == 2 && r.home == 1 && r.slots == peLag e + 1)).getD false

/-- The homes of an entry's locators (08 R219). -/
def paramBad (s : State) (e : BitVec 512) : Bool :=
  let home := if peResident e then 2 else 1
  let moments := [peMom1 e, peMom2 e, peColf e].filter (fun l => l != 0)
  moments.any (fun l => locHome s l != some home) || (peWork e != 0 && (locHome s (peWork e)).isNone) ||
  (!peFrozen e && ((roomAt s (peGradRoom e)).isNone || (locHome s (peRem e)).isNone || (peResident e && residentRoomsBad s e)))

/-- The digest table of a plan that trains a tensor is a room of class parameter stream in the stack tier (08 R230; the refusal
is DESIGN CHOICE, log 134). -/
def digestBad (s : State) (p : Plan) : Bool :=
  p.params.any (fun e => !peFrozen e) &&
    !((roomAt s p.digestRoom.toNat).map (fun r => r.cls == 1 && r.home == 1)).getD false

/-- Entries of one watch group share RESIDENT and LAG. -/
def groupsBad (p : Plan) : Bool :=
  p.params.any (fun a => p.params.any (fun b => peGroup a == peGroup b && (peResident a != peResident b || peLag a != peLag b)))

/-- MOM_ID and MOM_ID + 1 of each entry, a frozen one too, differ from every other TENSOR_ID of the plan. -/
def momIdsBad (p : Plan) : Bool :=
  let tensors := p.params.map peTensor ++ p.saved.map svTensor ++ p.tasks.map (fun t => dOutTensor t.desc)
  let moms := p.params.flatMap (fun e => [peMomId e, peMomId e + 1])
  moms.any (fun m => tensors.contains m) || moms.eraseDups.length != moms.length

/-! ### Expert bindings (10 R277) and the whole plan -/

def exchangeBad (p : Plan) : Bool :=
  p.bindings.any (fun b => decide (256 ≤ b.layer) || decide (512 ≤ b.expert) || b.hid % 32 != 0 || b.hid == 0 || decide (65536 < b.hid) ||
    b.entries.any (fun i => decide (p.params.length ≤ i))) ||
  p.tokenRows.any (fun t => !List.contains [1, 3, 4] t.fwdFmt.toNat || !List.contains [0, 1] t.bwdFmt.toNat) ||
  p.rounds.any (fun x => !List.contains [0, 1] x.outFmt.toNat || !p.bindings.any (fun b => b.layer == x.layer && b.expert == x.expert && b.mine))

/-- The plan breaks a check that its rooms do not enter into: reserved encodings, formats, layouts (01 R10, 03 R54). -/
def planFormBad (p : Plan) : Bool :=
  p.inFlight == 0 || decide (4 < p.inFlight) ||
  graphBad p || p.tasks.any (taskFormBad p) || p.tasks.any (rerunBad p) || p.saved.any (savedBad p) ||
  p.params.any (paramFormBad p) || groupsBad p || momIdsBad p || exchangeBad p || writersBad p

/-- The plan, its rooms granted, breaks a check whose status is BAD_ARG. -/
def planBad (s : State) (p : Plan) : Bool :=
  planFormBad p || p.tasks.any (taskBad s p) || piecesBad p || p.saved.any (recomputeHeldBad s p) || p.params.any (paramBad s) ||
  digestBad s p

end Sys2Proof.Machine
end

