-- ==== Sys2Proof/Machine/Plans.lean ====
section
/-! DEFINITION. Commands of groups 0x03 and 0x04: plans, runs of tasks outside a step, steps, HALT and RESUME
(02 R51, 07 R205, 08 R219, R220, 13 R353, R364, R368, R369, R508, 14 R389, 18 R484). -/

namespace Sys2Proof.Machine

/-! ### Rooms of a plan (07 R205). In a plan image the requested room k is written 0xE000 + k (log 50). -/

/-- The room that a plan's reference names once its rooms are granted; `ids` has the rooms in the plan's order. -/
def planRoomId (ids : List Nat) (r : Nat) : Nat :=
  if 0xE000 ≤ r && r < 0xE000 + ids.length then ids.getD (r - 0xE000) r else r

def planRoomBase (s : State) (ids : List Nat) (r : Nat) : Nat :=
  ((roomAt s (planRoomId ids r)).map (fun m => m.base.toNat)).getD 0

/-- An address whose upper 16 bits name a requested room is that room's base plus its lower 48 bits. -/
def planAddr (s : State) (ids : List Nat) (a : Nat) : Nat :=
  let r := a / 2 ^ 48
  if 0xE000 ≤ r && r < 0xE000 + ids.length then planRoomBase s ids r + a % 2 ^ 48 else a

/-- A stream of a requested room gives its first address from the room's base. -/
def resolveStream (s : State) (ids : List Nat) (x : BitVec 256) : BitVec 256 :=
  let r := sRoom x
  if 0xE000 ≤ r && r < 0xE000 + ids.length then
    putFld (putFld x 208 48 (planRoomBase s ids r + sBase x)) 16 16 (planRoomId ids r)
  else x

def resolveDesc (s : State) (ids : List Nat) (d : BitVec 2048) : BitVec 2048 :=
  let d := [512, 768, 1024, 1280, 1536].foldl (fun d lo => putFld d lo 256 (resolveStream s ids (bits d lo 256)).toNat) d
  let d := [192, 128, 1984, 1856].foldl (fun d lo => putFld d lo 64 (planAddr s ids (fld d lo 64))) d
  putFld d 1968 16 (planRoomId ids (dProgRoom d))

def resolveTask (s : State) (ids : List Nat) (t : PlanTask) : PlanTask :=
  { t with
    desc := resolveDesc s ids t.desc
    auxRest := t.auxRest.map (resolveStream s ids)
    room := BitVec.ofNat 16 (planRoomId ids t.room.toNat) }

/-- A parameter entry's rooms; an entry whose CRC fails stays as it is. -/
def resolveEntry (ids : List Nat) (e : BitVec 512) : BitVec 512 :=
  if !recCrcOk e then e
  else
    let loc (e : BitVec 512) (lo : Nat) : BitVec 512 := putFld e (lo + 24) 16 (planRoomId ids (fld e (lo + 24) 16))
    recSeal (putFld ([280, 240, 200, 160, 120].foldl loc e) 352 16 (planRoomId ids (peGradRoom e)))

def resolveSaved (s : State) (ids : List Nat) (e : BitVec 256) : BitVec 256 :=
  putFld (putFld e 192 16 (planRoomId ids (fld e 192 16))) 128 64 (planAddr s ids (fld e 128 64))

def resolvePlan (s : State) (ids : List Nat) (p : Plan) : Plan :=
  let room (r : W16) : W16 := BitVec.ofNat 16 (planRoomId ids r.toNat)
  let addr (a : W64) : W64 := BitVec.ofNat 64 (planAddr s ids a.toNat)
  { p with
    tasks := p.tasks.map (resolveTask s ids)
    params := p.params.map (resolveEntry ids)
    saved := p.saved.map (resolveSaved s ids)
    localGrads := p.localGrads.map (fun g => (g.1, room g.2.1, g.2.2))
    tokenRows := p.tokenRows.map (fun t => { t with fwdRows := addr t.fwdRows, bwdRows := addr t.bwdRows, residual := addr t.residual })
    rounds := p.rounds.map (fun x => { x with rows := addr x.rows, out := addr x.out })
    digestRoom := room p.digestRoom
    histories := p.histories.map (fun h => (room h.1, h.2)) }

def planRoomReq (r : PlanRoom) : RoomReq :=
  { cls := r.cls, home := r.home, index := r.index, slots := r.slots, fallback := r.fallback, pages := r.pages }

/-- A room of the plan breaks R205: a home or size that no room has, or one to take over that the session does not own. -/
def planRoomBad (s : State) (owner : W16) (r : PlanRoom) : Bool :=
  match r.given with
  | some id => ((roomAt s id.toNat).map (fun m => m.owner != owner)).getD true
  | none => decide (7 < r.cls) || decide (3 < r.home) || !homeAllowed (planRoomReq r) ||
      ((r.home == 0 || r.home == 2) && decide (7 < r.index)) || r.slots == 0 || decide (5 < r.slots) || r.pages == 0

/-- Grant every requested room, as one request: the rooms in the plan's order, or none. -/
def grantPlan (owner : W16) : List PlanRoom → List Nat → State → Option (List Nat × State)
  | [], ids, s => some (ids, s)
  | r :: rs, ids, s =>
    match r.given with
    | some id => grantPlan owner rs (ids ++ [id.toNat]) s
    | none => match grantRoom (planRoomReq r) owner s with
      | some (id, s) => grantPlan owner rs (ids ++ [id]) s
      | none => none

/-- Rooms among `ids` that the plan asked for. -/
def freshRooms (p : Plan) (ids : List Nat) : List Nat := ((p.rooms.zip ids).filter (fun x => x.1.given.isNone)).map (fun x => x.2)

/-- The programs of the tasks are written into the requested rooms, whose first version is then committed (05 R155;
log 50). -/
def writePrograms (p : Plan) (fresh : List Nat) (s : State) : State :=
  let mine := p.tasks.filter (fun t => dProgLen t.desc != 0 && fresh.contains (dProgRoom t.desc))
  let s := forEach mine (fun t s =>
    wr (dProgAddr t.desc) (recBytes t.progHead ++ t.prog.flatMap recBytes) s) s
  forEach ((mine.map (fun t => dProgRoom t.desc)).foldl addNew []) (fun r s =>
    commitRoom r (updRoom r (fun m => (openVer m 1 0).getD m) s)) s

/-! ### PLAN_LOAD (08 R219, 13 R353, 18 R484) -/

/-- BAD_ARG at the item of the image that breaks a check (log 48). -/
def planRefused (p : Plan) (s : State) : Ans × State :=
  let off := Config.planOffset p
  (.done { st := stBadArg, detail := 0x8000 + min (off / 128) 0x7FFF, r0 := off }, s)

/-- An unapplied gradient version keeps its LAG in force. -/
def lagBad (s : State) (p : Plan) : Bool :=
  p.params.any peResident && s.rooms.any (fun r => !r.2.unapplied.isEmpty) && s.steps.lagInForce != some p.lag

def liveOfKind (s : State) (fore : Bool) : Bool :=
  s.porter.plans.any (fun q => q.2.forerunner == fore && !s.porter.unloaded.contains q.1)

/-- Conditions of R484: a forerunner tower for a forerunner plan; no pond of one in a native plan; one plan of a kind. -/
def kindBad (s : State) (p : Plan) : Bool :=
  let towers := s.cap.frTowers ||| s.cap.entering
  liveOfKind s p.forerunner ||
  (if p.forerunner then towers == 0
   else p.tasks.any (fun t => (addrsOf t).any (fun a => regionOf a == .pond && decide (sliceOf a / 48 < 4) && towers.getLsbD (sliceOf a / 48))))

def planLoad (p : Plan) : Handler := fun q s =>
  if planFormBad p || p.rooms.any (planRoomBad s q.session) then planRefused p s
  else match grantPlan q.session p.rooms [] s with
    | none => reply stNoRoom s
    | some (ids, t) =>
      let p' := resolvePlan t ids p
      if planBad t p' then planRefused p s
      else if kindBad t p' || lagBad t p' then reply stWrongState s
      else
        let h := s.porter.nextHandle
        let t := writePrograms p' (freshRooms p ids) t
        (.done { st := stDone, r0 := h }, { t with
          porter := { t.porter with plans := tset t.porter.plans h p', nextHandle := h + 1 }
          steps := { t.steps with stepFree := true } })

def execCmdPlanLoad (c : Cmd) (plan : Plan) (s : State) : Host.Outcome State Fault Refusal :=
  .next (order 0x0301 c [.plan] (planLoad plan) s)

/-- A step of the plan is open or queued. -/
def planInStep (s : State) (h : W32) : Bool :=
  s.steps.job.any (fun j => j.handle == h) || s.steps.queued.any (fun q => q.2 == h)

def planUnload (h : W32) : Handler := fun _ s =>
  if (livePlan s h).isNone then badInline 0 s
  else if planInStep s h then reply stWrongState s
  else ok (dropPlan h.toNat s)

def execCmdPlanUnload (c : Cmd) (handle : W32) (s : State) : Host.Outcome State Fault Refusal :=
  .next (order 0x0302 c [.plan] (planUnload handle) s)

/-! ### TASKS_RUN (13 R508) -/

def newJob (id : Nat) (step : W64) (handle : W32) (tasks : List PlanTask) : Job :=
  { id := id, step := step, handle := handle, tasks := tasks.foldl (fun t k => tset t (dTask k.desc) (.waiting none)) [],
    failing := none, outs := [], reads := [], keeps := [], holds := [], only := [], stalled := [] }

def tasksRun (h : W32) (first count : Nat) : Handler := fun _ s =>
  match livePlan s h with
  | none => badInline 0 s
  | some p =>
    let ts := p.tasks.filter (fun t => decide (first ≤ dTask t.desc) && decide (dTask t.desc < first + count))
    if (planTask p first).isNone && count != 0 then badInline 4 s
    else if ts.length != count then badInline 8 s
    else
      let id := s.steps.nextRun
      if count == 0 then ok s
      else (.wait (.tasks id), { s with steps := { s.steps with
        runs := s.steps.runs ++ [newJob id 0 h ts], nextRun := id + 1 } })

def execCmdTasksRun (c : Cmd) (handle first count : W32) (s : State) : Host.Outcome State Fault Refusal :=
  .next (order 0x0303 c [.plan] (tasksRun handle first.toNat count.toNat) s)

/-! ### STEP_RUN (13 R364) -/

/-- The blocks of the last five steps, and that of a queued step (08 R220). -/
def keepSets (n : W64) (l : List (W64 × List (BitVec 512))) : List (W64 × List (BitVec 512)) :=
  let old := sortBy (fun a b => b.1.toNat ≤ a.1.toNat) (l.filter (fun q => q.1.toNat ≤ n.toNat))
  l.filter (fun q => n.toNat < q.1.toNat) ++ old.take 5

/-- What an earlier run of the step, or of one after it, left is dropped: its notices, with their pins, its dispatches and its
rounds. -/
def forgetStep (n : W64) (s : State) : State :=
  let old (r : Red) : Bool := decide (n.toNat ≤ r.step.toNat) && r.own.isSome
  let s := forEach ((s.red.open_.filter old).flatMap (fun r => r.pins)) (fun p s => unpinRoom p.1.toNat p.2.toNat s) s
  { s with
    red := { s.red with
      open_ := s.red.open_.filter (fun r => !old r)
      carry := s.red.carry.filter (fun c => decide (nStep c.2.1 < n.toNat)) }
    exch := { s.exch with
      dispatches := s.exch.dispatches.filter (fun d => d.step != n)
      rounds := s.exch.rounds.filter (fun r => !(r.step == n && r.started)) } }

/-- The step opens: its Ledger record begins, and its tasks wait for dispatch. -/
def openStep (n : W64) (h : W32) (p : Plan) (s : State) : State :=
  let s := forgetStep n s
  setScaled (n - 1) { s with
    params := { s.params with readyGroups := [] }
    steps := { s.steps with
      job := some (newJob 0 n h (p.tasks.filter (fun t => t.inStep))), begun := false, workLost := false, nonFinite := false
      verdict := none, record := { LedgerRec.reset with step := n, reds := closedBefore s n.toNat }, sets := keepSets n s.steps.sets } }

def optSetBad (n : W64) (x : BitVec 512) : Bool := bits x 448 64 != n || fld x 32 63 != 0 || !recCrcOk x

/-- The plan places a task on a core of a gated tower (14 R389). -/
def gatedTask (s : State) (p : Plan) : Bool :=
  (p.tasks.filter (fun t => t.inStep)).any (fun t => match pondCore s t with
    | some c => !towerOn s (towerOf c) || (tfind? s.power.gating (towerOf c)).isSome
    | none => false)

/-- The next step (13 R364). -/
def stepExpected (s : State) (n : W64) : Bool :=
  match s.steps.job with
  | some j => n == j.step + 1
  | none => match s.steps.afterRestore with
    | some m => n == m
    | none => if s.steps.stepFree then n != 0 else n == s.steps.lastBoundary + 1

def stepRun (h : W32) (n : W64) (sets : List (BitVec 512)) : Handler := fun _ s =>
  match livePlan s h with
  | none => badInline 0 s
  | some p =>
    if sets.isEmpty || 16 < sets.length then badExt 0 s
    else match sets.zipIdx.find? (fun x => optSetBad n x.1) with
      | some x => badExt (64 * x.2) s
      | none =>
        if s.steps.queued.isSome || p.coreMapCheck != coreMapCheck s || gatedTask s p || s.params.lost || s.restore.isSome then
          reply stWrongState s
        else if !stepExpected s n then badInline 8 s
        else
          let s := { s with steps := { s.steps with
            sets := s.steps.sets.filter (fun (q : W64 × List (BitVec 512)) => q.1 != n) ++ [(n, sets)] } }
          let s := if s.steps.job.isSome then { s with steps := { s.steps with queued := some (n, h) } } else openStep n h p s
          (.wait (.step n), s)

def execCmdStepRun (c : Cmd) (handle : W32) (step : W64) (sets : List (BitVec 512)) (s : State) :
    Host.Outcome State Fault Refusal := .next (order 0x0401 c [.plan] (stepRun handle step sets) s)

/-- A queued STEP_RUN's step opens at the boundary, if its plan still fits (02 R51, 14 R389). -/
def openQueued (s : State) : State :=
  match s.steps.queued with
  | none => s
  | some (n, h) =>
    let s := { s with steps := { s.steps with queued := none } }
    let refuse := finish (fun q => q.wait == Wait.step n) { st := stWrongState }
    match livePlan s h with
    | none => refuse s
    | some p => if p.coreMapCheck != coreMapCheck s || gatedTask s p then refuse s else openStep n h p s

/-- STEP_ABORT (13 R369). -/
def stepAbort (n : W64) : Handler := fun _ s =>
  if s.steps.job.any (fun j => j.step == n) then ok (failStep stSuperseded 0 s)
  else if s.steps.queued.any (fun q => q.1 == n) then
    ok (finish (fun q => q.wait == Wait.step n) { st := stSuperseded } { s with steps := { s.steps with queued := none } })
  else reply stWrongState s

def execCmdStepAbort (c : Cmd) (step : W64) (s : State) : Host.Outcome State Fault Refusal :=
  .next (order 0x0402 c [.plan] (stepAbort step) s)

/-! ### Safety settings (13 R368) -/

/-- The sender of a safety order as a setter. -/
def setterOf (n : Nat) : Setter := if n == 64 then .baseboard else .owner

/-- The sender may relax a setting that `cur` made. -/
def mayRelax (n : Nat) (cur : Setter) : Bool := n == 64 || cur == .owner

/-- DENIED, with event 0x8302; `subject` is the line of Table 13-9 that the order names, from 0. -/
def denySafety (n code subject : Nat) (s : State) : Ans × State :=
  reply stDenied (raiseCtrl 0x8302 [a2 n, a2 code, a2 subject] s)

/-! ### HALT and RESUME -/

def halt : Handler := fun p s =>
  ok (if s.porter.halted then s
    else { s with porter := { s.porter with halted := true, haltSetter := setterOf p.cmd.mailbox.val } })

def execCmdHalt (c : Cmd) (s : State) : Host.Outcome State Fault Refusal := .next (order 0x0403 c [.dispatch] halt s)

def resume : Handler := fun p s =>
  let n := p.cmd.mailbox.val
  if !s.porter.halted then ok s
  else if !mayRelax n s.porter.haltSetter then denySafety n 0x0404 2 s
  else ok { s with porter := { s.porter with halted := false, haltSetter := setterOf n } }

def execCmdResume (c : Cmd) (s : State) : Host.Outcome State Fault Refusal := .next (order 0x0404 c [.dispatch] resume s)

end Sys2Proof.Machine
end

