-- ==== Sys2Proof/Machine/Gates.lean ====
section
/-! DEFINITION. TOWER_GATE, the last lines VRALERT_N, COOL_FAIL_N and THERM_TRIP_N, and forerunner exit
(14 R388 to R391, 15 R419 to R422, 18 R483). -/

namespace Sys2Proof.Machine

/-! ### TOWER_GATE (14 R388 to R390) -/

def namedTowers (towers : Byte) : List Nat := (List.range 8).filter (fun t => towers.getLsbD t)

/-- A snapshot in progress has a pond copy of its chunks in the tower. -/
def snapInPond (s : State) (t : Nat) : Bool :=
  match s.snap with
  | some x => x.parts.any (fun p => regionOf p.addr == .pond && sliceOf p.addr / 48 == t)
  | none => false

/-- A gate with ON 0 or 2 is refused (14 R389). -/
def gateRefused (s : State) (towers : Byte) : Bool :=
  s.steps.job.isSome || s.steps.queued.isSome || !s.steps.runs.isEmpty ||
  (namedTowers towers).any (fun t => s.tests.tower == some t || snapInPond s t)

/-- The tower's own order under way for another state ends as superseded (log 52). -/
def retarget (t : Nat) (s : State) : State :=
  if (tfind? s.power.gating t).isSome then gateEnded stSuperseded t s else s

def setGating (t on : Nat) (s : State) : State := { s with power := { s.power with gating := tset s.power.gating t on } }

/-- TLn of a tower stops ramping, or drains. -/
def logicDown (t on : Nat) (s : State) : State :=
  match supplyAt s t with
  | .inRegulation => startDrain t (setGating t on s)
  | .ramping _ => gateReached t on (when_ (on == 2) (pondOff t) (switchOff t (setGating t on s)))
  | .off =>
    if on == 2 && supplyAt s (8 + t) != .off then gateReached t on (pondOff t (setGating t on s)) else s

/-- ON 1: TPn where it is off, then TLn. A drain under way ends. -/
def logicUpward (t : Nat) (s : State) : State :=
  match supplyAt s t with
  | .inRegulation => forEach (logicLayers t) (fun d s => setPace d (fun p => { p with draining := false, xgated := false }) s) s
  | .ramping _ => setGating t 1 s
  | .off =>
    let s := setGating t 1 s
    match supplyAt s (8 + t) with
    | .inRegulation => logicOn t s
    | .ramping _ => s
    | .off => switchOn (8 + t) s

/-- DONE once every named tower has reached the state. -/
def gateAnswer (towers : Byte) (on : Nat) (s : State) : Ans × State :=
  if (namedTowers towers).all (fun t => (tfind? s.power.gating t).isNone) then ok s else (.wait (.gate on towers), s)

def towerSubjects (towers : Byte) : List Subject := (namedTowers towers).map Subject.tower

/-- ON 0x00 and 0x02. -/
def gateDown (towers : Byte) (on : Nat) : Handler := fun _ s =>
  if gateRefused s towers then reply stWrongState s
  else gateAnswer towers on (forEach (namedTowers towers) (fun t s =>
    if tfind? s.power.gating t == some on then s else logicDown t on (retarget t s)) s)

/-- ON 0x01. -/
def gateUp (towers : Byte) : Handler := fun _ s =>
  if (namedTowers towers).any (heldStopped s) then reply stWrongState s
  else gateAnswer towers 1 (forEach (namedTowers towers) (fun t s =>
    if tfind? s.power.gating t == some 1 then s else logicUpward t (retarget t s)) s)

def execCmdTowerGateLogicOff (c : Cmd) (towers : Byte) (s : State) : Host.Outcome State Fault Refusal :=
  .next (order 0x0605 c (towerSubjects towers) (gateDown towers 0) s)
def execCmdTowerGateOn (c : Cmd) (towers : Byte) (s : State) : Host.Outcome State Fault Refusal :=
  .next (order 0x0605 c (towerSubjects towers) (gateUp towers) s)
def execCmdTowerGateAllOff (c : Cmd) (towers : Byte) (s : State) : Host.Outcome State Fault Refusal :=
  .next (order 0x0605 c (towerSubjects towers) (gateDown towers 2) s)

/-! ### Removal by a last line (14 R391, 15 R422) -/

/-- Keeper or the sensors hub removes TLn; an order that was switching the tower on ends with WRONG_STATE, one that was
gating it has its state. -/
def forcedOff (t : Nat) (s : State) : State :=
  let s := setTower t (fun g => { g with suspend := 64 }) (removeTower t s)
  match tfind? s.power.gating t with
  | some 1 => gateEnded stWrongState t s
  | some 2 => gateReached t 2 (pondOff t s)
  | some on => gateReached t on s
  | none => s

/-! ### VRALERT_N (15 R421, R422) -/

/-- The regulators of TL0 to TL7 move to the setpoint of point 0, and MAX_CLASS reads 0. -/
def holdPoints (s : State) : State :=
  let s := forEach (List.range 8) (fun t s =>
    let s := when_ (decide (pointOf s t ≠ 0) && towerOn s t) (setTower t (fun g => { g with ramping := true })) s
    let s := if towerOn s t then forEach (logicLayers t) (setPace · (fun p => { p with point := 0 })) s else s
    setTower t (fun g => { g with suspend := 64 }) s) s
  { s with gov := { s.gov with budget := putFld s.gov.budget 33 3 0 } }

/-- VRALERT_N acts: the hold begins, event 0x6401. -/
def vrAct (s : State) : State :=
  let s := holdPoints { s with gov := { s.gov with vrHold := true, vrTail := 0 } }
  if keeperAlive s then raiseMgmt 0x6401 [] s else s

def vralertNAssert (s : State) : State :=
  if s.power.vralert then s
  else
    let s := { s with power := { s.power with vralert := true } }
    if !inReg s sdSns then s
    else if vrHonoured s then vrAct s
    else if keeperAlive s then raiseMgmt 0x6405 [a2 0] s else s

def vralertNRelease (s : State) : State :=
  let s := { s with power := { s.power with vralert := false } }
  if s.gov.vrHold then { s with gov := { s.gov with vrHold := false, vrTail := 1024 } } else s

def execVralertNAssert (s : State) : Host.Outcome State Fault Refusal := .next (vralertNAssert s)
def execVralertNRelease (s : State) : Host.Outcome State Fault Refusal := .next (vralertNRelease s)

/-! ### COOL_FAIL_N (15 R421, R422, 19 R497) -/

/-- COOL_FAIL_N acts: event 0x6403, and every TLn is removed. -/
def coolAct (s : State) : State :=
  let s := if keeperAlive s then raiseMgmt 0x6403 [] s else s
  forEach ((List.range 8).filter (fun t => supplyAt s t != .off)) (fun t s =>
    setTower t (fun g => { g with stoppedCool := true }) (forcedOff t s)) s

def coolFailNAssert (s : State) : State :=
  if s.power.coolFail then s
  else
    let s := { s with power := { s.power with coolFail := true } }
    if !inReg s sdSns then s
    else if coolHonoured s then coolAct s
    else if keeperAlive s then raiseMgmt 0x6405 [a2 1] s else s

def coolFailNRelease (s : State) : State :=
  if !s.power.coolFail then s
  else
    let s := { s with power := { s.power with coolFail := false } }
    let s := if coolHonoured s && keeperAlive s then raiseMgmt 0x6404 [] s else s
    startTowerTests s

def execCoolFailNAssert (s : State) : Host.Outcome State Fault Refusal := .next (coolFailNAssert s)
def execCoolFailNRelease (s : State) : Host.Outcome State Fault Refusal := .next (coolFailNRelease s)

/-! ### THERM_TRIP_N (15 R420) -/

/-- Pond layers of a tower are 2, 4 and 6 in the order of 15 R416. -/
def isPondLayer (i : Nat) : Bool := [2, 4, 6].contains (i % 7)

/-- THERM_TRIP_N is asserted: event 0x6203, and every TLn is removed. -/
def tripNow (layer : Nat) (reading : Int) (s : State) : State :=
  if s.gov.tripped then s
  else
    let s := { s with power := { s.power with thermTrip := true }, gov := { s.gov with tripped := true } }
    let s := if keeperAlive s then raiseMgmt 0x6203 [a2 layer, a2 (temp16 reading)] s else s
    forEach (List.range 8) forcedOff s

/-- A logic or base diode reads 115 degrees or above. -/
def thermTrip (layer : Nat) (reading : Int) (s : State) : State :=
  if !inReg s sdSns || isPondLayer layer || reading < 115 * 64 then s else tripNow layer reading s

def execThermTrip (layer : Fin 56) (reading : Int) (s : State) : Host.Outcome State Fault Refusal :=
  .next (thermTrip layer.val reading s)

/-! ### PACE_RAMP_END (15 R410) -/

/-- TLn has reached its new supply: the bounds of the point hold. -/
def paceRampEnd (t : Nat) (s : State) : State := setTower t (fun g => { g with ramping := false }) s

def execPaceRampEnd (tower : Fin 8) (s : State) : Host.Outcome State Fault Refusal := .next (paceRampEnd tower.val s)

/-! ### FORERUNNER_EXIT_DONE (18 R483) -/

/-- A tower has left forerunner mode: gated, its slices written to +0, and its FR_TOWERS bit cleared. SESSION_CLOSE
completes when the last one has. -/
def forerunnerExitDone (t : Nat) (s : State) : State :=
  if !s.cap.leaving.getLsbD t then s
  else
    let bit := BitVec.ofNat 4 (2 ^ t)
    let s := pondLost t (if supplyAt s t == .off then s else towerLogicOff t s)
    let s := capBump { s with cap := { s.cap with frTowers := s.cap.frTowers &&& ~~~bit, leaving := s.cap.leaving &&& ~~~bit } }
    if s.cap.leaving == 0 then finish (fun p => p.wait == Wait.close) { st := stDone } s else s

def execForerunnerExitDone (tower : Fin 8) (s : State) : Host.Outcome State Fault Refusal :=
  .next (forerunnerExitDone tower.val s)

end Sys2Proof.Machine
end

