-- ==== Sys2Proof/Machine/Limits.lean ====
section
/-! DEFINITION. POWER_LIMITS, CAP_SHARE, PACE_CEILING and LAST_LINE: who may change a safety setting, and how two orders of
one pass settle (13 R366 to R368, 15 R400, R406, R409, R421, R422). -/

namespace Sys2Proof.Machine

/-! ### The safety settings, numbered as `LimitOrder` numbers them -/

def settingAt (s : State) (f : Nat) : Nat :=
  match f with
  | 0 => s.gov.sustain
  | 1 => s.gov.peak
  | 2 => s.gov.window
  | t + 3 => (towerGov s t).ceiling.toNat

def setterAt (s : State) (f : Nat) : Setter :=
  match f with
  | 0 => s.porter.sustainSetter
  | 1 => s.porter.peakSetter
  | 2 => s.porter.windowSetter
  | t + 3 => tget s.porter.ceilSetter t .baseboard

/-- Set a setting; a setting relaxed or tightened takes its sender as setter (13 R368). -/
def putSetting (f v : Nat) (by_ : Setter) (s : State) : State :=
  if settingAt s f == v then s
  else match f with
    | 0 => { s with gov := { s.gov with sustain := v }, porter := { s.porter with sustainSetter := by_ } }
    | 1 => { s with gov := { s.gov with peak := v }, porter := { s.porter with peakSetter := by_ } }
    | 2 => { s with gov := { s.gov with window := v }, porter := { s.porter with windowSetter := by_ } }
    | t + 3 => capBump (setTower t (fun g => { g with ceiling := BitVec.ofNat 4 v })
        { s with porter := { s.porter with ceilSetter := tset s.porter.ceilSetter t by_ } })

/-- An earlier order of the pass from another mailbox whose value of the setting stands. -/
def settingHolder (s : State) (n f : Nat) : Option LimitOrder :=
  s.porter.limitOrders.find? (fun o => o.mailbox != n && o.held.contains f)

/-- The setting would be relaxed by an order whose party did not make it, in a later pass than the one that did. -/
def relaxes (s : State) (n f v : Nat) : Bool :=
  decide (settingAt s f < v) && !mayRelax n (setterAt s f) && (settingHolder s n f).isNone

/-- An earlier order loses a setting: it completes with PARTIAL, or with SUPERSEDED when nothing is left to it. -/
def loseSetting (f : Nat) (o : LimitOrder) (s : State) : State :=
  let left := o.held.filter (· != f)
  let s := restate o.mailbox o.cid (if left.isEmpty then stSuperseded else stPartial) s
  { s with porter := { s.porter with
    limitOrders := s.porter.limitOrders.map (fun (x : LimitOrder) => if x.mailbox == o.mailbox && x.cid == o.cid then { x with held := left } else x) } }

/-- One setting of an order: taken unless an order of the pass holds it with a value as low (13 R367). -/
def takeSetting (n f v : Nat) (sw : State × List Nat) : State × List Nat :=
  let (s, won) := sw
  match settingHolder s n f with
  | some o => if settingAt s f ≤ v then (s, won) else (putSetting f v (setterOf n) (loseSetting f o s), won ++ [f])
  | none => (putSetting f v (setterOf n) s, won ++ [f])

/-- Carry out an order that names settings with values. -/
def takeSettings (code subject : Nat) (fs : List (Nat × Nat)) : Handler := fun p s =>
  let n := p.cmd.mailbox.val
  if fs.any (fun x => relaxes s n x.1 x.2) then denySafety n code subject s
  else
    let (s, won) := fs.foldl (fun sw x => takeSetting n x.1 x.2 sw) (s, [])
    let inPass := porterRuns s && s.porter.ready
    let drop (o : LimitOrder) : LimitOrder := if o.mailbox == n then { o with held := o.held.filter (fun f => !won.contains f) } else o
    let mine : LimitOrder := { mailbox := n, cid := p.cmd.cid, given := fs.map (fun x => x.1), held := won }
    let s := if inPass then { s with porter := { s.porter with limitOrders := s.porter.limitOrders.map drop ++ [mine] } } else s
    if won.length == fs.length then ok s else reply (if won.isEmpty then stSuperseded else stPartial) s

/-! ### The orders -/

/-- POWER_LIMITS (15 R400): a field of 0 is left unchanged. -/
def powerLimits (sustain peak window : Nat) : Handler := fun p s =>
  if sustain != 0 && (sustain < 800 || 3600 < sustain) then badInline 0 s
  else if peak != 0 && (peak < 3600 || 4400 < peak) then badInline 2 s
  else if 10 < window then badInline 4 s
  else takeSettings 0x0601 0 ([(0, sustain), (1, peak), (2, window)].filter (fun x => x.2 != 0)) p s

def execCmdPowerLimits (c : Cmd) (sustain peak : W16) (window : Byte) (s : State) : Host.Outcome State Fault Refusal :=
  .next (order 0x0601 c [.limits] (powerLimits sustain.toNat peak.toNat window.toNat) s)

/-- CAP_SHARE (15 R406). -/
def capShare (ord floor : Nat) : Handler := fun _ s =>
  if 5 < ord then badInline 0 s
  else if floor != 0 && (floor < 80 || 200 < floor) then badInline 2 s
  else ok { s with gov := { s.gov with order := ord, linkFloor := if floor == 0 then s.gov.linkFloor else floor } }

def execCmdCapShare (c : Cmd) (order_ : Byte) (linkFloor : W16) (s : State) : Host.Outcome State Fault Refusal :=
  .next (order 0x0602 c [.capShare] (capShare order_.toNat linkFloor.toNat) s)

/-- PACE_CEILING (15 R409): a POINT above the ageing ceiling is taken as that ceiling. -/
def paceCeiling (t point : Nat) : Handler := fun p s =>
  if 7 < t then badInline 0 s
  else if 15 < point then badInline 1 s
  else takeSettings 0x0603 1 [(3 + t, min point (ageingCeiling s t))] p s

def execCmdPaceCeiling (c : Cmd) (tower point : Byte) (s : State) : Host.Outcome State Fault Refusal :=
  .next (order 0x0603 c [.ceiling tower.toNat] (paceCeiling tower.toNat point.toNat) s)

/-- LAST_LINE: the new mode takes effect at the next sample (15 R422). -/
def lastLine (mode : Nat) : Handler := fun p s =>
  let n := p.cmd.mailbox.val
  if 2 < mode then badInline 0 s
  else if s.gov.lastLineNext.toNat == mode then ok s
  else if s.gov.lastLineNext == 0 && !mayRelax n s.porter.lastLineSetter then denySafety n 0x0604 3 s
  else ok { s with gov := { s.gov with lastLineNext := BitVec.ofNat 2 mode }, porter := { s.porter with lastLineSetter := setterOf n } }

def execCmdLastLine (c : Cmd) (mode : Byte) (s : State) : Host.Outcome State Fault Refusal :=
  .next (order 0x0604 c [.lastLine] (lastLine mode.toNat) s)

end Sys2Proof.Machine
end

