-- ==== Sys2Proof/Machine/Governor.lean ====
section
/-! DEFINITION. The governor sample and the ageing margins (15 R401 to R425). -/

namespace Sys2Proof.Machine

def setGov (f : Governor → Governor) (s : State) : State := { s with gov := f s.gov }

/-! ### Limits and allowance (15 R401, R402, R404) -/

/-- SUSTAIN_EFF and PEAK_EFF (15 Table 15-1). -/
def effLimits (s : State) : Nat × Nat :=
  let l := (s.gov.sustain, s.gov.peak)
  let l := if s.power.inputLow then (min l.1 3000, min l.2 3000) else l
  if s.power.convertersFailed.isEmpty then l else (min l.1 2700, min l.2 3000)

def sustainSamples : Nat := 65536

/-- The allowance over a window of `w` samples; `h` has the samples since the last limit change, newest first. -/
def allowOver (limit w : Nat) (h : List Nat) : Int :=
  ((limit * min (h.length + 1) w : Nat) : Int) - ((sumNat (h.take (w - 1)) : Nat) : Int)

/-- An inexact quotient, up or down as the free value says (log 51). -/
def govDiv (sample what : Nat) (a b : Int) : Int :=
  let q := a / b
  if a % b == 0 then q else if Config.govRoundUp sample what then q + 1 else q

/-! ### Levels (15 R405 to R407). Powers are scaled by 64 x (64 - b)(64 - m)(64 - l) of the sample's levels, which makes
every power without throttle a whole number. -/

def scaleOf (g : Governor) : Nat := 64 * ((64 - g.b) * ((64 - g.m) * (64 - g.l)))

/-- Class power with no throttle, scaled. -/
def freePower (g : Governor) (px lv : Nat) : Nat := px * 64 * (scaleOf g / (64 - lv))

/-- Classes 0 compute, 1 memory, 2 links in the order in which they are visited (15 Table 15-3). -/
def visitOrder (ord : Nat) : List Nat :=
  match ord with
  | 0 => [0, 1, 2]
  | 1 => [1, 0, 2]
  | 2 => [0, 2, 1]
  | 3 => [2, 0, 1]
  | 4 => [1, 2, 0]
  | _ => [2, 1, 0]

/-- The highest link level for which the links keep LINK_FLOOR (15 R407 item 3). -/
def linkCap (scale free floor : Nat) : Nat :=
  ((List.range 49).reverse.find? (fun v => decide (floor * scale * 64 ≤ free * (64 - v)))).getD 0

def maxLevel (scale : Nat) (g : Governor) (free : List Nat) (x : Nat) : Nat :=
  if x == 0 then 56 else if x == 1 then 48 else linkCap scale (free.getD 2 0) g.linkFloor

/-- Visit the classes while excess remains: the levels, and what remains (15 R407). -/
def levelsFor (sample scale : Nat) (g : Governor) (free : List Nat) : List Nat → Nat → List Nat → List Nat × Nat
  | [], r, lv => (lv, r)
  | x :: xs, r, lv =>
    if r == 0 then (lv, 0)
    else
      let f := free.getD x 0
      let top := maxLevel scale g free x
      let v := if f == 0 then min top (Config.idleClassLevel sample x) else min top ((64 * r + f - 1) / f)
      levelsFor sample scale g free xs (r - f / 64 * v) (lset lv x v)

/-- At most once in 2^16 samples. -/
def mayRaise (since : Option Nat) : Bool := match since with
  | none => true
  | some n => decide (65536 ≤ n)

/-- Power of the sample: history, levels, events 0x6101 and 0x6104. Answers the headroom, scaled. -/
def powerPart (m : Sample) (s : State) : State × Int :=
  let g := s.gov
  let lim := effLimits s
  let h := ((m.p :: (if lim == g.lastEff then g.history else [])).take sustainSamples)
  let allow := min (allowOver lim.2 (windowSamples g.window) h) (allowOver lim.1 sustainSamples h)
  let scale := scaleOf g
  let free := [freePower g m.pc g.b, freePower g m.pm g.m, freePower g m.pl g.l]
  let pFree : Int := ((m.p * scale : Nat) : Int) + ((sumNat free : Nat) : Int) - (((m.pc + m.pm + m.pl) * scale : Nat) : Int)
  let excess := pFree - allow * (scale : Int)
  let (lv, left) := levelsFor g.sample scale g free (visitOrder g.order) excess.toNat [0, 0, 0]
  let full := left != 0
  let rises := (g.b == 0 && lv.getD 0 0 != 0) || (g.m == 0 && lv.getD 1 0 != 0) || (g.l == 0 && lv.getD 2 0 != 0)
  let e1 := rises && mayRaise g.sinceExcess
  let e4 := full && mayRaise g.sinceFull
  let s := setGov (fun g => { g with
    history := h, lastEff := lim, b := lv.getD 0 0, m := lv.getD 1 0, l := lv.getD 2 0, pIn := m.p, allow := allow, pC := m.pc,
    pM := m.pm, pL := m.pl, bRun := if 32 ≤ lv.getD 0 0 then min 1024 (g.bRun + 1) else 0
    fullRun := if full then min 64 (g.fullRun + 1) else 0
    sinceExcess := if e1 then some 0 else g.sinceExcess, sinceFull := if e4 then some 0 else g.sinceFull }) s
  let s := if e4 then raiseMgmt 0x6104 [a2 (govDiv g.sample 56 excess scale).toNat] s else s
  let s := if e1 then raiseMgmt 0x6101 [a2 m.p, a2 allow.toNat] s else s
  (s, -excess)

/-! ### Sensors and the model (15 R416, R417) -/

/-- The median of a layer's readings, doubled. -/
def median2 (l : List Int) : Int :=
  let r := sortBy (fun a b => decide (a ≤ b)) l
  r.getD ((l.length - 1) / 2) 0 + r.getD (l.length / 2) 0

def diodeBad (l : List Int) (x : Int) : Bool :=
  decide (x < -20 * 64) || decide (150 * 64 < x) || decide (25 * 64 * 2 < (2 * x - median2 l).natAbs)

/-- N of a neighbour: its S, or its M when it is suspect. -/
def neighbour (s : State) (sens : List Int) (i : Nat) : Int := if (layerAt s i).suspect then (layerAt s i).model else sens.getD i 0

/-- M of a layer after the sample (log 51). -/
def nextModel (s : State) (m : Sample) (sens : List Int) (i : Nat) : Int :=
  let l := layerAt s i
  if !l.primed then sens.getD i 0
  else
    let gd : Int := if i % 7 == 0 then 0 else Config.conductanceDown i
    let gu : Int := Config.conductanceUp i
    let below := if i % 7 == 0 then 0 else neighbour s sens (i - 1)
    let above := if i % 7 == 6 then m.coldPlate else neighbour s sens (i + 1)
    let a : Int := Config.modelWeight i
    let heat : Int := ((m.layerMw.getD i 0 * 64 : Nat) : Int) + gd * below + gu * above
    govDiv s.gov.sample i (l.model * 65536 * (gd + gu) + a * (heat - l.model * (gd + gu))) (65536 * (gd + gu))

/-- Temperature at which a layer's tower is throttled, in 1/64 of a degree (15 Table 15-6). -/
def throttleAt (i : Nat) : Int := if isPondLayer i then 95 * 64 else 100 * 64

def suspectBad (i bad : Nat) : Bool := if [1, 3, 5].contains (i % 7) then decide (4 < bad) else decide (1 < bad)

/-- S of every layer. -/
def sensed (s : State) (m : Sample) : List Int :=
  (List.range 56).map (fun i =>
    let l := m.diodes.getD i []
    match l.filter (fun x => !diodeBad l x) with
    | [] => Config.noDiode s.gov.sample i
    | x :: xs => xs.foldl max x)

/-- One layer of the sample: validity of its diodes, model, suspicion, estimate. -/
def layerPart (m : Sample) (sens : List Int) (models : List Int) (i : Nat) (s : State) : State :=
  let l := layerAt s i
  let ds := m.diodes.getD i []
  let bad := (List.range ds.length).filter (fun k => diodeBad ds (ds.getD k 0))
  let s := forEach (bad.filter (fun k => !l.badDiodes.contains k)) (fun k s =>
    raiseMgmt 0x6205 [a2 i, a2 k, a2 (temp16 (ds.getD k 0))] s) s
  let sv := sens.getD i 0
  let mv := models.getD i 0
  let div := if (towerGov s (i / 7)).suspend != 0 then 0 else if 8 * 64 < mv - sv then l.divergent + 1 else 0
  let found := !l.suspect && (decide (16 ≤ div) || suspectBad i bad.length)
  let s := if found then raiseMgmt 0x6204 [a2 i, a2 (temp16 sv), a2 (temp16 mv)] s else s
  let e := if l.suspect || found then mv else max sv mv
  setLayer i (fun l => { l with
    est := e, sens := sv, model := mv, primed := true, suspect := l.suspect || found, throttle := decide (throttleAt i < e),
    badDiodes := bad, divergent := min 16 div, pondRun := if isPondLayer i && decide (95 * 64 ≤ e) then min 64 (l.pondRun + 1) else 0 }) s

def thermalPart (m : Sample) (s : State) : State :=
  let sens := sensed s m
  let models := (List.range 56).map (nextModel s m sens)
  forEach (List.range 56) (layerPart m sens models) s

/-! ### Thermal levels and stops (15 R419, R420) -/

def layersOfTower (t : Nat) : List Nat := (List.range 7).map (fun j => 7 * t + j)

/-- The layer with the largest estimate above its throttle temperature, and that excess. -/
def hottest (s : State) (t : Nat) : Nat × Int :=
  (layersOfTower t).foldl (fun b i =>
    let x := (layerAt s i).est - throttleAt i
    if b.2 < x then (i, x) else b) (7 * t, (layerAt s (7 * t)).est - throttleAt (7 * t))

/-- b_T of a tower, and event 0x6201. -/
def thermalLevel (t : Nat) (s : State) : State :=
  let (i, x) := hottest s t
  let g := towerGov s t
  let lv := if 0 < x then min 56 (g.level + ((4 * x + 63) / 64).toNat) else if x ≤ -128 then g.level - 1 else g.level
  let ev := decide (0 < x) && mayRaise g.sinceThrottle
  let s := setTower t (fun g => { g with
    level := lv, hotRun := if 32 ≤ lv then min 1024 (g.hotRun + 1) else 0
    quiet := if s.gov.b == 0 && lv == 0 then min 4096 (g.quiet + 1) else 0
    sinceThrottle := if ev then some 0 else g.sinceThrottle }) s
  if ev then raiseMgmt 0x6201 [a2 t, a2 i, a2 (temp16 (layerAt s i).est)] s else s

/-- A pond layer at 95 degrees for 64 samples stops the tower; at 85 degrees and below it may be brought up again. -/
def pondLimit (t : Nat) (s : State) : State :=
  let ponds := (layersOfTower t).filter isPondLayer
  match ponds.find? (fun i => decide (64 ≤ (layerAt s i).pondRun)) with
  | some i =>
    if supplyAt s t == .off then s
    else forcedOff t (raiseMgmt 0x6202 [a2 t, a2 i] (setTower t (fun g => { g with stoppedPond := true }) s))
  | none =>
    if ponds.all (fun i => decide ((layerAt s i).est ≤ 85 * 64)) then setTower t (fun g => { g with stoppedPond := false }) s else s

/-- A logic or base estimate at 115 degrees. -/
def estimateTrip (s : State) : State :=
  match (List.range 56).find? (fun i => !isPondLayer i && decide (115 * 64 ≤ (layerAt s i).est)) with
  | some i => tripNow i (layerAt s i).est s
  | none => s

/-! ### Pace points (15 R409 to R411, R419) -/

/-- TLn ramps to a new point. -/
def setPoint (t p : Nat) (s : State) : State :=
  setTower t (fun g => { g with ramping := true, suspend := 64 })
    (forEach (logicLayers t) (fun d s => setPace d (fun x => { x with point := BitVec.ofNat 4 p }) s) s)

/-- The cause for which the governor lowers every running tower in this sample. -/
def powerCause (g : Governor) : Option Nat :=
  if g.sinceLower.any (fun n => decide (n < 4096)) then none
  else if 1024 ≤ g.bRun then some 1
  else if 64 ≤ g.fullRun then some 2
  else none

def at105Now (s : State) (t : Nat) : Bool :=
  (layersOfTower t).any (fun i => !isPondLayer i && decide (105 * 64 ≤ (layerAt s i).est))

/-- Lowered points of a tower in this sample, with their causes. -/
def lowerings (s : State) (power : Option Nat) (t : Nat) : List (Nat × Nat) :=
  let p := pointOf s t
  let g := towerGov s t
  (power.map (fun c => (p - 1, c))).toList ++
    (if at105Now s t && (g.at105 == 0 || g.at105 == 64) then [(p - 1, 3)] else []) ++
    (if 1024 ≤ g.hotRun && g.hotWait == 0 then [(p - 1, 4)] else []) ++
    (if effCeiling s t < p then [(effCeiling s t, 5)] else [])

/-- P_C × (f'/f) × (V'/V)² − P_C ≤ allow − p_free, both sides scaled (15 R411). -/
def roomToRaise (s : State) (scale : Nat) (head : Int) (t : Nat) : Bool :=
  let p := pointOf s t
  let f := ratedRate p
  let f' := ratedRate (p + 1)
  let v := towerSetpoint s t p
  let v' := towerSetpoint s t (p + 1)
  let one : Int := ((f * v * v : Nat) : Int)
  decide (((s.gov.pC * f' * v' * v' * scale : Nat) : Int) - (s.gov.pC * scale : Nat) * one ≤ head * one)

def mayRaiseTower (s : State) (scale : Nat) (head : Int) (t : Nat) : Bool :=
  towerOn s t && decide (pointOf s t < effCeiling s t) && decide (4096 ≤ (towerGov s t).quiet) &&
  (layersOfTower t).all (fun i => decide ((layerAt s i).est + 5 * 64 ≤ throttleAt i)) && roomToRaise s scale head t

/-- The towers in ascending order of their hottest logic-layer estimate, those not running last (15 R413). -/
def coolTowers (s : State) : List Nat :=
  let hot (t : Nat) : Int := [1, 3, 5].foldl (fun x j => max x (layerAt s (7 * t + j)).est) (layerAt s (7 * t + 1)).est
  sortBy (fun a b => decide (hot a ≤ hot b)) ((List.range 8).filter (towerOn s)) ++ (List.range 8).filter (fun t => !towerOn s t)

/-- Points of one tower: the lowest of the points that a raise, a lowering and a ceiling change give. -/
def towerPoint (power : Option Nat) (raised : Option Nat) (t : Nat) (s : State) : State :=
  let p := pointOf s t
  if !towerOn s t || vrHolding s then s
  else
    let ls := lowerings s power t
    let s := setTower t (fun g => { g with hotWait := if 1024 ≤ g.hotRun && g.hotWait == 0 then 4096 else g.hotWait }) s
    match argMin (fun x => x.1) ls with
    | some (q, c) => if q < p then raiseMgmt 0x6102 [a2 t, a2 q, a2 c] (setPoint t q s) else s
    | none => if raised == some t then raiseMgmt 0x6103 [a2 t, a2 (p + 1)] (setPoint t (p + 1) s) else s

def pointPart (scale : Nat) (head : Int) (s : State) : State :=
  let power := powerCause s.gov
  let raised := if s.gov.sample % 4096 == 0 && !vrHolding s then (coolTowers s).find? (mayRaiseTower s scale head) else none
  let s := forEach (List.range 8) (towerPoint power raised) s
  let s := if power.isSome then setGov (fun g => { g with sinceLower := some 0 }) s else s
  forEach (List.range 8) (fun t s => setTower t (fun g => { g with
    at105 := if at105Now s t then (if g.at105 == 64 then 1 else g.at105 + 1) else 0 }) s) s

/-! ### Last lines and margins in the sample (15 R421, R422, R425) -/

/-- A new LAST_LINE_MODE takes effect; a signal that becomes honoured acts at once. -/
def lastLinePart (s : State) : State :=
  if s.gov.lastLine == s.gov.lastLineNext then s
  else
    let vr := vrHonoured s
    let cool := coolHonoured s
    let s := capBump (setGov (fun g => { g with lastLine := g.lastLineNext }) s)
    let s := forEach (List.range 8) (fun t s => setTower t (fun g => { g with suspend := 64 }) s) s
    let s := if !vr && vrHonoured s && s.power.vralert then vrAct s else s
    let s := if vr && !vrHonoured s && vrHolding s then
        raiseMgmt 0x6402 [] (setGov (fun g => { g with vrHold := false, vrTail := 0 }) s) else s
    if !cool && coolHonoured s && s.power.coolFail then coolAct s else s

/-- The tail of the hold runs down; at its end, event 0x6402. -/
def tailPart (s : State) : State :=
  if s.gov.vrTail == 0 then s
  else
    let s := setGov (fun g => { g with vrTail := g.vrTail - 1 }) s
    if s.gov.vrTail == 0 then
      raiseMgmt 0x6402 [] (forEach (List.range 8) (fun t s => setTower t (fun g => { g with suspend := 64 }) s) s) else s

/-- MARGIN rises by 5 mV per sample to its target. -/
def marginPart (s : State) : State :=
  forEach (List.range 24) (fun l s =>
    let m := tget s.gov.margins l 0
    let t := tget s.gov.targets l 0
    if m < t then setGov (fun g => { g with margins := tset g.margins l (min t (m + 5)) }) s else s) s

/-- Counters of samples. -/
def countPart (s : State) : State :=
  let up (n : Option Nat) : Option Nat := n.map (fun n => min 65536 (n + 1))
  let s := setGov (fun g => { g with
    sample := g.sample + 1, sinceLower := up g.sinceLower, sinceExcess := up g.sinceExcess, sinceFull := up g.sinceFull }) s
  forEach (List.range 8) (fun t s => setTower t (fun g => { g with
    hotWait := g.hotWait - 1, suspend := g.suspend - 1, sinceThrottle := up g.sinceThrottle }) s) s

/-! ### Budget word (15 R412 to R414) -/

def maxClass (s : State) : Nat :=
  if vrHolding s then 0 else if s.gov.b == 0 then 7 else if s.gov.b < 16 then 5 else if s.gov.b < 32 then 3 else 1

def budgetWord (scale : Nat) (head : Int) (s : State) : W64 :=
  let room := min 0xFFF (govDiv s.gov.sample 57 head (4 * scale)).toNat
  mkRec 64 ([(48, 16, s.gov.sample), (36, 12, room), (33, 3, maxClass s)] ++
    (coolTowers s).zipIdx.map (fun x => (4 * x.2, 4, x.1)))

/-- GOVERNOR_SAMPLE: 2^14 CONTROL beats. -/
def governorSample (m : Sample) (s : State) : State :=
  if !keeperAlive s then s
  else
    let s := tailPart (lastLinePart (countPart s))
    let scale := scaleOf s.gov
    let (s, head) := powerPart m s
    let s := thermalPart m s
    let s := forEach (List.range 8) (fun t s => pondLimit t (thermalLevel t s)) s
    let s := marginPart (pointPart scale head (estimateTrip s))
    setGov (fun g => { g with budget := budgetWord scale head s }) s

def execGovernorSample (m : Sample) (s : State) : Host.Outcome State Fault Refusal := .next (governorSample m s)

/-! ### Margins (15 R424, R425) -/

def lowerMargin (l m : Nat) (s : State) : State :=
  raiseMgmt 0x6303 [a2 l, a2 m] (setGov (fun g => { g with margins := tset g.margins l m, targets := tset g.targets l m }) s)

def pointBack (l p : Nat) (s : State) : State :=
  raiseMgmt 0x6304 [a2 l, a2 p] (capBump (setGov (fun g => { g with outs := tset g.outs l ((tget g.outs l []).filter (· != p)) }) s))

/-- Now, or as a step-boundary action while a step is open or queued. -/
def atBoundaryOr (b : Boundary) (now : State → State) (s : State) : State :=
  if stepOpen s then { s with steps := { s.steps with actions := s.steps.actions ++ [b] } } else now s

/-- Actions of a layer that an earlier measurement left pending. -/
def dropMarginActions (l : Nat) (s : State) : State :=
  { s with steps := { s.steps with actions := s.steps.actions.filter (fun a => match a with
    | .marginLower k _ => k != l
    | .pointBack k _ => k != l
    | _ => true) } }

/-- A new measurement of a logic layer: the need at each point. -/
def applyMargin (l : Nat) (needs : List Nat) (s : State) : State :=
  let s := dropMarginActions l s
  let m := min 40 (listMax (needs.map marginOf))
  let cur := tget s.gov.margins l 0
  let s :=
    if cur < m then raiseMgmt 0x6302 [a2 l, a2 m] (setGov (fun g => { g with targets := tset g.targets l m }) s)
    else if m < cur then
      atBoundaryOr (.marginLower l m) (lowerMargin l m) (setGov (fun g => { g with targets := tset g.targets l cur }) s)
    else setGov (fun g => { g with targets := tset g.targets l cur }) s
  let old := tget s.gov.outs l []
  let now := pointsOut needs
  let fresh := now.filter (fun p => !old.contains p)
  let s := setGov (fun g => { g with outs := tset g.outs l (old ++ fresh) }) s
  let s := if fresh.isEmpty then s else raiseMgmt 0x6301 [a2 l, a2 (ageingCeiling s (l / 3))] (capBump s)
  forEach (old.filter (fun p => !now.contains p)) (fun p s => atBoundaryOr (.pointBack l p) (pointBack l p) s) s

/-- A measurement ends: `needs` lists the logic layers, an empty entry one that was not measured. The margin measurements
requested of its towers end with it (log 53). -/
def marginMeasurementPeriod (needs : List (List Nat)) (s : State) : State :=
  if !keeperAlive s then s
  else
    let ls := (needs.take 24).zipIdx.filter (fun x => !x.1.isEmpty && towerOn s (x.2 / 3))
    let s := forEach ls (fun x s => applyMargin x.2 x.1 s) s
    { s with tests := { s.tests with reqs := s.tests.reqs.filter (fun r => !(r.kind == 4 && ls.any (fun x => x.2 / 3 == r.target))) } }

def execMarginMeasurementPeriod (needs : List (List Nat)) (s : State) : Host.Outcome State Fault Refusal :=
  .next (marginMeasurementPeriod needs s)

end Sys2Proof.Machine
end

