-- ==== Sys2Proof/Machine/SelfTests.lean ====
section
/-! DEFINITION. In-service tests: requests, the per-core rotation, and whole-tower self-tests (16 R449 to R454). -/

namespace Sys2Proof.Machine

def setTests (f : Tests → Tests) (s : State) : State := { s with tests := f s.tests }

/-! ### Requests (16 R449, R450) -/

/-- File a request of a session; its number. -/
def addRequest (kind target : Nat) (session : W16) (begun : Bool) (s : State) : State :=
  let r : TestReq := {
    number := s.tests.nextReq, kind := kind, target := target, session := session, filed := false, begun := begun,
    todo := if kind == 0 then [0, 1, 2, 3].map (fun i => 4 * target + i) else [] }
  setTests (fun t => { t with reqs := t.reqs ++ [r], nextReq := t.nextReq + 1 }) s

/-- Tower of a request, for the conflict of Table 13-9. -/
def testTower (kind target : Nat) : Option Nat := if kind == 2 then some (target / 48) else if kind == 3 || kind == 4 then some target else none

def testSubjects (kind target : Nat) : List Subject := ((testTower kind target).map Subject.tower).toList

/-- A request of the baseboard controller that the owner's order of the same pass supersedes does not run (13 R366). -/
def dropRivalTest (p : Pending) (tower : Nat) (s : State) : State :=
  let won := (rivals s p.cmd.mailbox.val [.tower tower]).any (fun o => o.opcode == 0x0701)
  match (s.tests.reqs.filter (fun r => r.session == 0xFFFD && testTower r.kind r.target == some tower)).getLast? with
  | some r => if won && p.session != 0xFFFD then setTests (fun t => { t with reqs := t.reqs.filter (fun x => x.number != r.number) }) s else s
  | none => s

/-- ACCEPTED with the request's number. -/
def accepted (kind target : Nat) (begun : Bool) (p : Pending) (s : State) : Ans × State :=
  let s := match testTower kind target with
    | some t => dropRivalTest p t s
    | none => s
  (.done { st := stAccepted, r0 := s.tests.nextReq }, addRequest kind target p.session begun s)

def testLane (target : Nat) : Handler := fun p s => if 36 ≤ target then badInline 2 s else accepted 0 target false p s

def testScrub (target : Nat) : Handler := fun p s =>
  if target < 384 then accepted 1 target (pondOn s (towerOf target)) p s
  else if 0x200 ≤ target && target < 0x208 then accepted 1 target true p s
  else badInline 2 s

def testCore (target : Nat) : Handler := fun p s => if 384 ≤ target then badInline 2 s else accepted 2 target false p s

def testMargin (target : Nat) : Handler := fun p s => if 8 ≤ target then badInline 2 s else accepted 4 target (towerOn s target) p s

/-- The owner session's consent to whole-tower tests. -/
def ownerConsents (s : State) : Bool := s.porter.sessions.any (fun q => q.2.owner && q.2.consent == 1)

/-- Whole-tower tests that run or wait. -/
def towerTests (s : State) : Nat := (s.tests.reqs.filter (fun r => r.kind == 3)).length

/-- Porter withholds the tower's cores and the test begins: event 0x2302 (16 R453). -/
def beginTowerTest (r : TestReq) (s : State) : State :=
  let s := setTests (fun t => { t with
    tower := some r.target, reqs := t.reqs.map (fun x => if x.number == r.number then { x with begun := true } else x) }) s
  raiseCtrl 0x2302 [a2 r.target, a8 s.steps.lastBoundary.toNat] s

/-- The whole-tower test that may begin now: one at a time, on a tower that is on. -/
def nextTowerTest (s : State) : Option TestReq :=
  if s.tests.tower.isSome then none
  else s.tests.reqs.find? (fun r => r.kind == 3 && !r.begun && towerOn s r.target && (tfind? s.power.gating r.target).isNone)

def startTowerTest (s : State) : State :=
  match nextTowerTest s with
  | some r => beginTowerTest r s
  | none => s

def testWholeTower (target : Nat) : Handler := fun p s =>
  if 8 ≤ target then badInline 2 s
  else if !ownerConsents s then (.done { st := stDeferred, detail := 0xFFFF }, s)
  else if towerTests s != 0 then (.done { st := stDeferred, detail := s.steps.job.isSome.toNat + towerTests s }, s)
  else
    let (a, s) := accepted 3 target false p s
    (a, if stepOpen s then s else startTowerTest s)

def execCmdTestLaneRecalibration (c : Cmd) (target : W16) (s : State) : Host.Outcome State Fault Refusal :=
  .next (order 0x0701 c [] (testLane target.toNat) s)
def execCmdTestScrubPass (c : Cmd) (target : W16) (s : State) : Host.Outcome State Fault Refusal :=
  .next (order 0x0701 c [] (testScrub target.toNat) s)
def execCmdTestCoreSelfTest (c : Cmd) (target : W16) (s : State) : Host.Outcome State Fault Refusal :=
  .next (order 0x0701 c (testSubjects 2 target.toNat) (testCore target.toNat) s)
def execCmdTestTowerSelfTest (c : Cmd) (target : W16) (s : State) : Host.Outcome State Fault Refusal :=
  .next (order 0x0701 c (testSubjects 3 target.toNat) (testWholeTower target.toNat) s)
def execCmdTestMarginMeasurement (c : Cmd) (target : W16) (s : State) : Host.Outcome State Fault Refusal :=
  .next (order 0x0701 c (testSubjects 4 target.toNat) (testMargin target.toNat) s)

/-- TEST_CANCEL (16 R454). -/
def testCancel (n : Nat) : Handler := fun _ s =>
  match s.tests.reqs.find? (fun r => r.number == n) with
  | none => badInline 0 s
  | some r =>
    if r.filed then reply stDenied s
    else if r.begun then reply stWrongState s
    else ok (setTests (fun t => { t with reqs := t.reqs.filter (fun x => x.number != n) }) s)

def execCmdTestCancel (c : Cmd) (request : W32) (s : State) : Host.Outcome State Fault Refusal :=
  .next (order 0x0702 c (match s.tests.reqs.find? (fun r => r.number == request.toNat) with
    | some r => testSubjects r.kind r.target
    | none => []) (testCancel request.toNat) s)

/-- Scrub passes and margin measurements that waited for their tower begin once it is on (16 R450). -/
def beginWaitingTests (s : State) : State :=
  setTests (fun t => { t with reqs := t.reqs.map (fun r =>
    if r.kind == 1 && r.target < 384 && pondOn s (towerOf r.target) then { r with begun := true }
    else if r.kind == 4 && towerOn s r.target then { r with begun := true } else r) }) s

/-! ### Per-core rotation (16 R451, R452) -/

/-- The core's test can run: present, its tower on and not under another test. -/
def testable (s : State) (c : Nat) : Bool :=
  present s c && towerOn s (towerOf c) && s.tests.tower != some (towerOf c) && (tfind? s.power.gating (towerOf c)).isNone

/-- The next core: filed tests, then requested ones, then the rotation. -/
def nextTestCore (s : State) : Option (Nat × Bool) :=
  let rs := s.tests.reqs.filter (fun r => r.kind == 2 && testable s r.target && !s.tests.skipped.contains r.target)
  match rs.find? (fun r => r.filed), rs.head? with
  | some r, _ => some (r.target, false)
  | none, some r => some (r.target, false)
  | none, none =>
    let order := (List.range 384).map (fun i => (s.tests.nextCore + i) % 384)
    (order.find? (testable s)).map (fun c => (c, true))

/-- The next core is taken: it admits nothing more. -/
def coreTestRotation (s : State) : State :=
  if s.tests.underTest.isSome || !(porterRuns s && s.porter.ready) then s
  else match nextTestCore s with
    | none => s
    | some (c, rot) =>
      let wraps := rot && c < s.tests.nextCore
      setTests (fun t => { t with
        underTest := some (c, 1)
        nextCore := if rot then c + 1 else t.nextCore
        skipped := if wraps then [] else t.skipped
        reqs := t.reqs.map (fun r => if r.kind == 2 && r.target == c then { r with begun := true } else r) }) s

/-- A core whose tasks have not ended is released; its turn comes again after the next full rotation. -/
def coreTestDrainTimeout (s : State) : State :=
  match s.tests.underTest with
  | some (c, _) =>
    if (tasksOn s c).isEmpty then s
    else setTests (fun t => { t with
      underTest := none, skipped := addNew t.skipped c
      reqs := t.reqs.map (fun r => if r.kind == 2 && r.target == c then { r with begun := false } else r) }) s
  | none => s

/-- The core is released; its requests have run. -/
def releaseCore (c : Nat) (s : State) : State :=
  setTests (fun t => { t with
    underTest := none, skipped := t.skipped.filter (· != c), reqs := t.reqs.filter (fun r => !(r.kind == 2 && r.target == c)) }) s

/-- A test that fails is run once more; a second failure retires the core: event 0x2301. -/
def coreSelfTestDone (passed : Bool) (s : State) : State :=
  match s.tests.underTest with
  | none => s
  | some (c, run) =>
    if !(tasksOn s c).isEmpty then s
    else if passed then
      let s := if run == 2 then setChan c (fun x => { x with transients := x.transients + 1 }) s else s
      releaseCore c (setCore c (fun k => { k with withheld := false }) s)
    else if run == 1 then setTests (fun t => { t with underTest := some (c, 2) }) s
    else releaseCore c (retireCore false c (raise 0x2301 data (coreDie c) [a2 c] s))

def execCoreTestRotation (s : State) : Host.Outcome State Fault Refusal := .next (coreTestRotation s)
def execCoreTestDrainTimeout (s : State) : Host.Outcome State Fault Refusal := .next (coreTestDrainTimeout s)
def execCoreSelfTestDone (passed : Bool) (s : State) : Host.Outcome State Fault Refusal := .next (coreSelfTestDone passed s)

/-! ### Whole-tower self-test (16 R453) -/

/-- The test ends: failing cores are retired, failing rows remapped, the margin applied, every slice written to +0, and the
cores released: event 0x2303. -/
def towerSelfTestDone (t : Nat) (failed : List Nat) (rows : List (Nat × Nat)) (needs : List (List Nat)) (s : State) : State :=
  if s.tests.tower != some t then s
  else
    let bad := (failed.filter (fun c => towerOf c == t && present s c)).eraseDups
    let rs := rows.filter (fun r => towerOf r.1 == t)
    let s := forEach bad (fun c s => retireCore false c (raise 0x2301 data (coreDie c) [a2 c] s)) s
    let s := forEach rs (fun r s => remapRow r.1 r.2 s) s
    let s := forEach (needs.zipIdx.take 3) (fun n s => if n.1.isEmpty then s else applyMargin (3 * t + n.2) n.1 s) s
    let s := setTests (fun x => { x with
      tower := none, reqs := x.reqs.filter (fun r => !(r.kind == 3 && r.begun && r.target == t)) }) (pondLost t s)
    raiseCtrl 0x2303 [a2 t, a2 bad.length, a2 rs.length] s

def execTowerSelfTestDone (tower : Fin 8) (failed : List (Fin 384)) (rows : List (Fin 384 × Nat)) (needs : List (List Nat))
    (s : State) : Host.Outcome State Fault Refusal :=
  .next (towerSelfTestDone tower.val (failed.map (·.val)) (rows.map (fun r => (r.1.val, r.2))) needs s)

end Sys2Proof.Machine
end

