-- ==== Sys2Proof/Machine/Firmware.lean ====
section
/-! DEFINITION. Firmware, keys, policy and zeroisation (17 R455 to R480), and Keeper's SPDM responder (17 R467 to R470). -/

namespace Sys2Proof.Machine

def setSec (f : Security → Security) (s : State) : State := { s with sec := f s.sec }

/-- Keeper is in its error state, or zeroised and answers as in it (17 R477, R479). -/
def trustGone (s : State) : Bool := s.sec.errorState || s.sec.zeroised

/-- A firmware-class order while Keeper can serve it. -/
def trusted (h : Handler) : Handler := fun p s => if trustGone s then reply stWrongState s else h p s

/-! ### FW_STAGE (17 R472) -/

/-- The last segment has come: the image is verified. -/
def stageVerify (kind mailbox : Nat) (bs : List Byte) (s : State) : Ans × State :=
  let s := setSec (fun x => { x with staging := tdel x.staging kind }) s
  match refusal s kind bs with
  | some r => reply stDenied (imageRefused kind mailbox r s)
  | none =>
    let h := imgHead bs
    let s := if kind == 2 || kind == 3 then setSec (fun x => { x with staged := tset x.staged kind (imageOf bs) }) s else s
    (.done { st := stDone, r0 := imgRelease h, r1 := imgSvn h }, s)

/-- One segment; a reserved KIND in its head is refused (00 R10). -/
def fwStage (head : BitVec 128) (bs : List Byte) : Handler := fun p s =>
  let kind := fld head 0 8
  let off := fld head 32 32
  let total := fld head 64 32
  let have_ : Nat × List Byte := if off == 0 then (total, []) else tget s.sec.staging kind (0, [])
  if kind == 0 || 4 < kind then badExt 0 s
  else if off != have_.2.length || total != have_.1 || total < off + bs.length || bs.isEmpty then badExt 4 s
  else
    let got := have_.2 ++ bs
    if got.length == total then stageVerify kind p.cmd.mailbox.val got s
    else ok (setSec (fun x => { x with staging := tset x.staging kind (total, got) }) s)

def execCmdFwStage (c : Cmd) (head : BitVec 128) (bytes : List Byte) (s : State) : Host.Outcome State Fault Refusal :=
  .next (order 0x0801 c [.firmware] (trusted (fwStage head bytes)) s)

/-! ### FW_ACTIVATE (17 R473) -/

def isFwWait (p : Pending) : Bool := p.wait == Wait.fwActivate

/-- A TASKS_RUN, DMA_COPY, snapshot, restore or whole-tower self-test is in progress. -/
def swapBlocked (s : State) : Bool :=
  !s.steps.runs.isEmpty || !s.ports.dmas.isEmpty || s.snap.isSome || s.restore.isSome || s.tests.tower.isSome ||
  !(s.sec.staged.any (fun x => x.1 == 2 || x.1 == 3)) || !porterRuns s

/-- Every command that Porter has taken completes, but for STEP_RUN and the activation itself (17 R473 item 1, 13 R375). -/
def endTaken (s : State) : State :=
  finishAll s.porter.outstanding.length (fun p => match p.wait with
    | .step _ => false
    | .fwActivate => false
    | _ => true) { st := stDeviceFault, detail := 1 } s

/-- Keeper loads the staged Porter and microcode images. PORTER becomes 0b01 also where a restart had left it at 0b10: R473 item
4 says so, though R19 keeps 0b10 until a module reset (DESIGN CHOICE, log 109). -/
def swapImages (s : State) : State :=
  let s := forEach (s.sec.staged.filter (fun x => x.1 == 2 || x.1 == 3)) (fun x s =>
    setMeasured (x.1 + 1) x.2.digest (setSec (fun y => { y with images := tset y.images x.1 x.2 }) s)) s
  capBump (setSec (fun x => { x with staged := [] }) { s with porter := { s.porter with porter := 1 } })

def imageSvn (s : State) (kind : Nat) : Nat := ((tfind? s.sec.images kind).map (fun i => imgSvn i.head)).getD 0
def imageRel (s : State) (kind : Nat) : Nat := ((tfind? s.sec.images kind).map (fun i => imgRelease i.head)).getD 0

/-- The swap, at the boundary of a step or, with `step` 0, outside any. -/
def swapNow (step : Nat) (s : State) : State :=
  if swapBlocked s then finishAll s.porter.outstanding.length isFwWait { st := stWrongState } s
  else
    let s := swapImages (endTaken s)
    let s := raiseMgmt 0x7102 [a2 (imageRel s 2), a2 (imageRel s 3), a2 (imageSvn s 2), a2 (imageSvn s 3), a8 step] s
    finishAll s.porter.outstanding.length isFwWait { st := stDone, r0 := step } s

def fwActivate : Handler := fun _ s =>
  if stepOpen s then
    if s.sec.staged.isEmpty then reply stWrongState s
    else (.wait .fwActivate, { s with steps := { s.steps with
      actions := s.steps.actions.filter (fun a => !(a == Boundary.fwActivate)) ++ [.fwActivate] } })
  else if swapBlocked s then reply stWrongState s
  else ok (swapNow 0 s)

def execCmdFwActivate (c : Cmd) (s : State) : Host.Outcome State Fault Refusal :=
  .next (order 0x0802 c [.firmware] (trusted fwActivate) s)

/-! ### OWNER_KEY and POLICY_SET (17 R466, R474) -/

/-- DENIED with event 0x7107: opcode and cause (log 54). -/
def trustDenied (code why : Nat) (s : State) : Ans × State :=
  reply stDenied (raiseMgmt 0x7107 [a2 code, a2 (Config.trustCause code why)] s)

/-- What an owner key's signatures are taken over. -/
def keyMessage (s : State) (key : List Byte) : List Byte :=
  bytesLE 8 Config.deviceSerial.toNat ++ bytesLE 8 s.sec.ownerKeys.length ++ key

/-- `inForce` is the public key of the key in force with its signature, where one is in force. -/
def keyInForceSigned (s : State) (key : List Byte) (sig : Option (List Byte)) : Bool :=
  match ownerKeyHash s with
  | none => true
  | some k => match sig with
    | some bs => Config.sha512 (bs.take 133) == k && Config.ecdsaVerify (bs.take 133) (keyMessage s key) (bs.drop 133)
    | none => false

def ownerKey (key sig : List Byte) (inForce : Option (List Byte)) : Handler := fun _ s =>
  let n := s.sec.ownerKeys.length
  if 3 ≤ n then trustDenied 0x0803 2 s
  else if key.length != 133 || !Config.ecdsaVerify key (keyMessage s key) sig then trustDenied 0x0803 0 s
  else if !keyInForceSigned s key inForce then trustDenied 0x0803 1 s
  else
    let h := Config.sha512 key
    let s := setSec (fun x => { x with ownerKeys := x.ownerKeys ++ [h], staged := x.staged.filter (fun i => i.2.owner == some h) }) s
    ok (raiseMgmt 0x7105 [a2 n] (capBump (setMeasured 5 (hwMeasurement s) s)))

def execCmdOwnerKey (c : Cmd) (key sig : List Byte) (sigInForce : Option (List Byte)) (s : State) :
    Host.Outcome State Fault Refusal := .next (order 0x0803 c [.firmware] (trusted (ownerKey key sig sigInForce)) s)

def polMin (r : BitVec 512) (kind : Nat) : Nat := if kind == 1 then fld r 408 6 else if kind == 2 then fld r 402 6 else fld r 396 6

/-- The signer is the owner key in force, or a vendor root that is not revoked where no owner key is installed. -/
def policySigner (s : State) (key : List Byte) : Bool :=
  match ownerKeyHash s with
  | some k => Config.sha512 key == k
  | none => [0, 1].any (fun i => Config.sha512 key == Config.rootHash i && !Config.rootRevoked i)

/-- Keeper blows a counter up to its MIN_SVN: event 0x7103. -/
def raiseCounter (r : BitVec 512) (kind : Nat) (s : State) : State :=
  if counterOf s kind < polMin r kind then
    raiseMgmt 0x7103 [a2 kind, a2 (polMin r kind)] (setSec (fun x => { x with counters := tset x.counters kind (polMin r kind) }) s)
  else s

def policySet (r : BitVec 512) (key sig : List Byte) : Handler := fun _ s =>
  if fld r 32 364 != 0 || !recCrcOk r then badExt 0 s
  else if !policySigner s key || !Config.ecdsaVerify key (recBytes r) sig then trustDenied 0x0804 0 s
  else if fld r 448 64 != Config.deviceSerial.toNat then trustDenied 0x0804 1 s
  else if fld r 416 32 ≤ fld s.sec.policy 416 32 then trustDenied 0x0804 2 s
  else if [1, 2, 3].any (fun k => decide (imageSvn s k < polMin r k)) then trustDenied 0x0804 3 s
  else
    let s := forEach [1, 2, 3] (raiseCounter r) s
    let s := setMeasured 6 r (setMeasured 5 (hwMeasurement s) (setSec (fun x => { x with policy := r }) s))
    ok (raiseMgmt 0x7106 [a4 (fld r 416 32)] s)

def execCmdPolicySet (c : Cmd) (record : BitVec 512) (key sig : List Byte) (s : State) : Host.Outcome State Fault Refusal :=
  .next (order 0x0804 c [.firmware] (trusted (policySet record key sig)) s)

/-! ### Zeroisation and the error state (17 R477 to R479) -/

/-- Every secret of the boundary is erased, and the engine's KDF is locked: event 0x7202. -/
def zeroise (source : Nat) (s : State) : State :=
  let s := setSec (fun x => { x with
    secrets := false, zeroised := true, staging := [], staged := [], sessions := [], ak := 0 }) s
  let s := finishAll s.porter.outstanding.length isFwWait { st := stSuperseded } { s with steps := { s.steps with
    actions := s.steps.actions.filter (fun a => !(a == Boundary.fwActivate)) } }
  let s := if (s.snap.map snapSigned).getD false then driveRest (endSnapshot (Config.snapCause 1) s) else s
  if keeperAlive s then raiseMgmt 0x7202 [a2 source] s else s

def execCmdZeroise (c : Cmd) (s : State) : Host.Outcome State Fault Refusal :=
  .next (order 0x0805 c [.firmware] (fun p s => ok (zeroise p.cmd.mailbox.val s)) s)

/-- ZERO_N held low for 10 µs, while CTL is on (17 R478, 19 R497). -/
def zeroNAssert (us : Nat) (s : State) : State := if us < 10 || !inReg s sdCtl then s else zeroise 0xFFFF s

def execZeroNAssert (us : Nat) (s : State) : Host.Outcome State Fault Refusal := .next (zeroNAssert us s)

/-- A conditional test other than R458 fails: Keeper enters its error state. -/
def conditionalTestFail (test : Nat) (s : State) : State :=
  if !keeperRuns s then s
  else raiseMgmt 0x7201 [a2 test] (setSec (fun x => { x with errorState := true, sessions := [] })
    { s with porter := { s.porter with keeper := 2 } })

def execConditionalTestFail (test : W16) (s : State) : Host.Outcome State Fault Refusal := .next (conditionalTestFail test.toNat s)

/-- An access from outside the boundary is discarded, or reads 0; event 0x7301 once per boot for each core (17 R456). -/
def keeperBoundaryAccess (core : Nat) (addr : W64) (isWrite : Bool) (s : State) : State :=
  let s := if isWrite then s else emit (.management "boundary read" [core, 0]) s
  if s.sec.accessed.contains core || !keeperAlive s then s
  else raiseMgmt 0x7301 [a2 core, a8 addr.toNat] (setSec (fun x => { x with accessed := addNew x.accessed core }) s)

def execKeeperBoundaryAccess (core : Nat) (addr : W64) (isWrite : Bool) (s : State) : Host.Outcome State Fault Refusal :=
  .next (keeperBoundaryAccess core addr isWrite s)

/-! ### The certificate chain (17 R464, R470) -/

def chainNow (s : State) : List Byte := Config.certChain s.sec.ak s.sec.issued

def certRead (slot : Nat) : Handler := fun _ s =>
  if slot != 0 then badInline 0 s
  else if !s.sec.certSlot then reply stWrongState s
  else (.done { st := stDone, out := some (chainNow s) }, s)

def execCmdCertRead (c : Cmd) (slot : Byte) (s : State) : Host.Outcome State Fault Refusal :=
  .next (order 0x0806 c [] (trusted (certRead slot.toNat)) s)

/-! ### SPDM (17 R467 to R469): transport 0 is DOE, 1 MCTP -/

def spdmError (t : Nat) (s : State) : State := emit (.spdm t "ERROR" [] []) s

/-- Keeper answers the transport: not in its error state, not zeroised, and DOE only where the policy permits. -/
def spdmServes (s : State) (t : Nat) : Bool := keeperRuns s && !trustGone s && (t != 0 || (bits s.sec.policy 414 1) == 1)

/-- A request that Keeper serves, where `c` holds; ERROR otherwise. While Keeper does not run, nothing answers. -/
def spdmAnswer (t : Nat) (c : Bool) (f : State → State) (s : State) : State :=
  if !keeperAlive s then s else if spdmServes s t && c then f s else spdmError t s

def negotiated (s : State) (t : Nat) : Bool := s.sec.negotiated.contains t

/-- Signed by the attestation key, with a fresh nonce of the responder (17 R463). -/
def signedAnswer (t : Nat) (what : String) (args : List Nat) (body : List Byte) (s : State) : State :=
  emit (.spdm t what args (body ++ Config.akSign s.sec.ak body)) (tick s)

def execSpdmGetVersion (transport : Fin 2) (s : State) : Host.Outcome State Fault Refusal :=
  .next (spdmAnswer transport.val true (fun s =>
    emit (.spdm transport.val "VERSION" [0x12, 0x13] []) (setSec (fun x => { x with negotiated := x.negotiated.filter (· != transport.val) }) s)) s)

/-- Capabilities of Table 17-3, by name. -/
def execSpdmGetCapabilities (transport : Fin 2) (s : State) : Host.Outcome State Fault Refusal :=
  .next (spdmAnswer transport.val true
    (emit (.spdm transport.val "CAPABILITIES CERT CHAL MEAS_SIG KEY_EX ENCRYPT MAC HBEAT KEY_UPD" [] [])) s)

def execSpdmNegotiateAlgorithms (transport : Fin 2) (supported : Bool) (s : State) : Host.Outcome State Fault Refusal :=
  .next (spdmAnswer transport.val supported (fun s =>
    emit (.spdm transport.val "ALGORITHMS ECDSA_P521 SHA_512 SECP521R1 AES_256_GCM" [] [])
      (setSec (fun x => { x with negotiated := addNew x.negotiated transport.val }) s)) s)

def execSpdmGetDigests (transport : Fin 2) (s : State) : Host.Outcome State Fault Refusal :=
  .next (spdmAnswer transport.val (negotiated s transport.val) (fun s =>
    emit (.spdm transport.val "DIGESTS" [s.sec.certSlot.toNat] (if s.sec.certSlot then recBytes (Config.sha512 (chainNow s)) else [])) s) s)

def execSpdmGetCertificate (transport : Fin 2) (slot : Byte) (offset len : W16) (s : State) : Host.Outcome State Fault Refusal :=
  .next (spdmAnswer transport.val (negotiated s transport.val && slot == 0 && s.sec.certSlot && decide (offset.toNat < (chainNow s).length))
    (fun s =>
      let part := ((chainNow s).drop offset.toNat).take len.toNat
      emit (.spdm transport.val "CERTIFICATE" [0, part.length, (chainNow s).length - offset.toNat - part.length] part) s) s)

def execSpdmChallenge (transport : Fin 2) (slot : Byte) (nonce : BitVec 256) (s : State) : Host.Outcome State Fault Refusal :=
  .next (spdmAnswer transport.val (negotiated s transport.val && slot == 0 && s.sec.certSlot) (fun s =>
    signedAnswer transport.val "CHALLENGE_AUTH" [0] (recBytes nonce ++ recBytes (Config.sha512 (chainNow s)) ++
      recBytes (Config.sha512 (measurementBlock s))) s) s)

/-- INDEX 0 asks for the number of indices, 0xFF for all of them. -/
def spdmGetMeasurements (t index : Nat) (nonce : BitVec 256) (s : State) : State :=
  let block : List Byte := if index == 0xFF then measurementBlock s
    else if index == 0 then [] else recBytes (tget s.sec.measured index 0)
  spdmAnswer t (negotiated s t && (decide (index ≤ 6) || index == 0xFF))
    (signedAnswer t "MEASUREMENTS" [if index == 0 then 6 else if index == 0xFF then 6 else 1] (recBytes nonce ++ block)) s

def execSpdmGetMeasurements (transport : Fin 2) (index : Byte) (nonce : BitVec 256) (s : State) :
    Host.Outcome State Fault Refusal := .next (spdmGetMeasurements transport.val index.toNat nonce s)

def spdmSession (s : State) (t : Nat) (id : W16) : Option Bool :=
  (s.sec.sessions.find? (fun q => q.1 == t && q.2.1 == id)).map (fun q => q.2.2)

/-- At most two secure sessions per transport. -/
def spdmKeyExchange (t : Nat) (id : W16) (share : List Byte) (s : State) : State :=
  let room := decide ((s.sec.sessions.filter (fun q => q.1 == t)).length < 2)
  spdmAnswer t (negotiated s t && room && (spdmSession s t id).isNone && s.sec.certSlot) (fun s =>
    signedAnswer t "KEY_EXCHANGE_RSP" [id.toNat] share (setSec (fun x => { x with sessions := x.sessions ++ [(t, id, false)] }) s)) s

def execSpdmKeyExchange (transport : Fin 2) (id : W16) (share : List Byte) (s : State) : Host.Outcome State Fault Refusal :=
  .next (spdmKeyExchange transport.val id share s)

/-- A session that verifies is established. -/
def spdmFinish (t : Nat) (id : W16) (verify : List Byte) (s : State) : State :=
  spdmAnswer t (spdmSession s t id == some false && Config.finishVerifies s.sec.ak id verify) (fun s =>
    emit (.spdm t "FINISH_RSP" [id.toNat] []) (setSec (fun x => { x with
      sessions := x.sessions.map (fun q => if q.1 == t && q.2.1 == id then (t, id, true) else q) }) s)) s

def execSpdmFinish (transport : Fin 2) (id : W16) (verify : List Byte) (s : State) : Host.Outcome State Fault Refusal :=
  .next (spdmFinish transport.val id verify s)

def execSpdmHeartbeat (transport : Fin 2) (id : W16) (s : State) : Host.Outcome State Fault Refusal :=
  .next (spdmAnswer transport.val (spdmSession s transport.val id == some true) (emit (.spdm transport.val "HEARTBEAT_ACK" [id.toNat] [])) s)

/-- Operations 1 to 3: update the requester's key, both keys, verify the new key. -/
def execSpdmKeyUpdate (transport : Fin 2) (id : W16) (op : Byte) (s : State) : Host.Outcome State Fault Refusal :=
  .next (spdmAnswer transport.val (spdmSession s transport.val id == some true && [1, 2, 3].contains op.toNat)
    (emit (.spdm transport.val "KEY_UPDATE_ACK" [id.toNat, op.toNat] [])) s)

def execSpdmEndSession (transport : Fin 2) (id : W16) (s : State) : Host.Outcome State Fault Refusal :=
  .next (spdmAnswer transport.val (spdmSession s transport.val id == some true) (fun s =>
    emit (.spdm transport.val "END_SESSION_ACK" [id.toNat] []) (setSec (fun x => { x with
      sessions := x.sessions.filter (fun q => !(q.1 == transport.val && q.2.1 == id)) }) s)) s)

/-- Any other request receives ERROR (17 R467). -/
def execSpdmUnsupportedRequest (transport : Fin 2) (_code : Byte) (s : State) : Host.Outcome State Fault Refusal :=
  .next (spdmAnswer transport.val false (fun s => s) s)

end Sys2Proof.Machine
end

