-- ==== Sys2Proof/Machine/Passes.lean ====
section
/-! DEFINITION. Porter's dispatch passes, its heartbeat, the processing of completion records, and the step boundary
(01 R15 to R21, 09 R266, 13 R364, R365, R372, R375, 18 R490, R491). -/

namespace Sys2Proof.Machine

/-! ### Task rooms (01 R15) -/

/-- A write to a task room by a party that is not its writer is discarded: event 0x8104. -/
def taskRoomForeignWrite (room writer : Nat) (s : State) : State :=
  match roomAt s room with
  | some r => if r.cls == 7 then raiseCtrl 0x8104 [a2 room, a2 writer] s else s
  | none => s

def execTaskRoomForeignWrite (room writer : W16) (s : State) : Host.Outcome State Fault Refusal :=
  .next (taskRoomForeignWrite room.toNat writer.toNat s)

/-! ### Heartbeat (01 R19, 13 R375) -/

def setPorter (f : Porter → Porter) (s : State) : State := { s with porter := f s.porter }

def porterHeartbeat (s : State) : State := if porterRuns s then setPorter (fun p => { p with heartbeats := p.heartbeats + 1 }) s else s

def isStepWait (p : Pending) : Bool := match p.wait with
  | .step _ => true
  | _ => false

/-- The restarted Porter: every command taken but STEP_RUN ends with DEVICE_FAULT, DETAIL 1, and PASS goes on from the
journal's highest. Work of the journal is replayed, that of a TASKS_RUN too (01 R19, 13 R375). -/
def porterRestart (s : State) : State :=
  let s := setPorter (fun p => { p with
    porter := 2, restarts := p.restarts + 1, stoppedSince := true, heartbeats := 0, passOrders := [], limitOrders := []
    pass := if p.journal.isEmpty then p.pass else listMax (p.journal.map (fun e => e.pass.toNat)) }) s
  let s := raiseMgmt 0x8102 [a2 s.porter.restarts] s
  stopRuns false (finishAll s.porter.outstanding.length (fun p => !isStepWait p) { st := stDeviceFault, detail := 1 } s)

/-- Porter is out of service: the host mailboxes and the fabric manager's accept nothing more. -/
def porterLost (s : State) : State :=
  let s := raiseMgmt 0x8103 [] s
  let s := forEach (List.range 64 ++ [65]) (fun n s => setMb n (fun m => { m with state := 3 }) s) s
  setPorter (fun p => { p with porter := 3, heartbeats := 0 }) s

def porterHeartbeatTimeout (s : State) : State :=
  if !keeperAlive s || !(s.porter.porter == 1 || s.porter.porter == 2) then s
  else if s.porter.stoppedSince then porterLost s
  else porterRestart s

def execPorterHeartbeat (s : State) : Host.Outcome State Fault Refusal := .next (porterHeartbeat s)
def execPorterHeartbeatTimeout (s : State) : Host.Outcome State Fault Refusal := .next (porterHeartbeatTimeout s)

/-! ### Forerunner history (18 R489 to R491) -/

def hHead (h : BitVec 1024) : Nat := fld h 444 4
def hCount (h : BitVec 1024) : Nat := min 16 (fld h 439 5)

/-- The entries present, newest first. -/
def hEntries (h : BitVec 1024) : List Nat := (List.range (hCount h)).map (fun i => fld h (512 + 32 * ((hHead h + 15 - i) % 16)) 32)

/-- A_h / 224 rounded toward positive infinity in FP32, at least 2^-126; 1.0 where A_h is 0. -/
def historyScale (a : Nat) : Nat :=
  if a == 0 then 0x3F800000
  else
    let e := max 1 (a / 2 ^ 23)
    let m := a % 2 ^ 23 + (if a / 2 ^ 23 == 0 then 0 else 2 ^ 23)
    -- 224 is 7 x 32: the 24-bit quotient of m x 2^26 by 7, rounded up
    let n := m * 2 ^ 26
    let k := Nat.log2 (n / 7) - 23
    let q := (n + 7 * 2 ^ k - 1) / (7 * 2 ^ k)
    let (q, k) := if q == 2 ^ 24 then (2 ^ 23, k + 1) else (q, k)
    if e + k ≤ 31 then 0x00800000 else (e + k - 31) * 2 ^ 23 + (q - 2 ^ 23)

def historyAt (s : State) (a : Nat) : BitVec 1024 := BitVec.ofNat 1024 (rdNat s a 128)

/-- TSCALE of every record is set at the first dispatch of a step. -/
def setHistories (p : Plan) (s : State) : State :=
  forEach (p.histories.filterMap (histLoc s)) (fun a s =>
    let h := historyAt s a
    wr a (recBytes (recSeal (putFld h 448 32 (historyScale (listMax (hEntries h)))))) s) s

/-- At the boundary the largest magnitude met enters at HEAD. -/
def advanceHistories (p : Plan) (s : State) : State :=
  let s := forEach p.histories.zipIdx (fun x s => match histLoc s x.1 with
    | none => s
    | some a =>
      let h := historyAt s a
      let h := putFld h (512 + 32 * hHead h) 32 (tget s.cap.frAmax x.2 0).toNat
      wr a (recBytes (recSeal (putFld (putFld h 439 5 (min 16 (hCount h + 1))) 444 4 ((hHead h + 1) % 16)))) s) s
  { s with cap := { s.cap with frAmax := [] } }

/-! ### The dispatch pass (13 R365) -/

/-- What Porter does as it dispatches the first task of the open step (08 R235, 10 R287, 18 R490). -/
def firstDispatch (s : State) : State :=
  match s.steps.job with
  | none => s
  | some j =>
    let es := stepParams s
    let s := eptSwitch j.step s
    let s := forEach (es.map (·.1)) (openGradient j.step) s
    let s := match planOf s j.handle with
      | some p => setHistories p (if es.any (fun e => peResident e.1 && !peFrozen e.1)
          then { s with steps := { s.steps with lagInForce := some p.lag } } else s)
      | none => s
    { s with steps := { s.steps with begun := true }, cap := { s.cap with frAmax := [] } }

/-- Actions that wait for a boundary begin: `step` is the step that has ended, 0 outside any (01 R21). A snapshot begins
with its own row. -/
def runActions (step : Nat) (s : State) : State :=
  let mine := s.steps.actions.filter (fun a => !(a == Boundary.snapshot))
  let s := { s with steps := { s.steps with actions := s.steps.actions.filter (fun a => a == Boundary.snapshot) } }
  startTowerTest (forEach mine (fun a s => match a with
    | .marginLower l m => lowerMargin l m s
    | .pointBack l p => pointBack l p s
    | .fwActivate => swapNow step s
    | .snapshot => s) s)

/-- Plans unloaded are dropped once no journal entry and no job names them. -/
def sweepPlans (s : State) : State :=
  let used (h : Nat) : Bool := s.porter.journal.any (fun e => e.handle.toNat == h) || (jobs s).any (fun j => j.handle.toNat == h)
  let gone := s.porter.unloaded.filter (fun h => !used h)
  setPorter (fun p => { p with
    plans := p.plans.filter (fun q => !gone.contains q.1), unloaded := p.unloaded.filter (fun h => !gone.contains h) }) s

/-- A pass: the orders taken since the last one are complete and their interrupts are raised; actions asked for
before the open step's first dispatch begin (01 R21); ready tasks are dispatched (log 5). -/
def dispatchPass (s : State) : State :=
  if !porterRuns s || !s.porter.ready then s
  else
    let s := forEach mergedOrder (takeUnknown 64) s
    let s := setPorter (fun p => { p with pass := p.pass + 1, budgetRead := s.gov.budget, passOrders := [], limitOrders := [] }) s
    let s := raiseIrqs s
    let s := stackUpdates (sendReturns (gatherRounds (abandonRounds (settleRings (settleResults s)))))
    let s := beginWaitingTests (sweepPlans s)
    let s := if s.steps.job.isSome && s.steps.begun then s
      else runActions (if s.steps.job.isSome && s.steps.anyBoundary then s.steps.lastBoundary.toNat else 0) s
    dispatchReady firstDispatch s

def execDispatchPass (s : State) : Host.Outcome State Fault Refusal := .next (dispatchPass s)

/-! ### COMPLETION_RECORD_PROCESSED (13 R372) -/

/-- The journal entry whose record lies in a room that the engines have handed back. -/
def recordEntry (s : State) (room : Nat) : Option Journal :=
  s.porter.journal.find? (fun e => e.room.toNat == room && (e.state == 5 ||
    ((jobAt s e.job).map (fun j => taskState j e.taskId.toNat == .running)).getD false))

def completionRecordProcessed (room : Nat) (s : State) : State :=
  match roomAt s room, recordEntry s room with
  | some r, some e =>
    if r.engines || !porterRuns s then s
    else closeRoom room (match (planOf s e.handle).bind (fun p => planTask p e.taskId.toNat) with
      | some t => processRecord e (BitVec.ofNat 512 (rdNat s (dCplAddr t.desc) 64)) s
      | none => retireJournal e.job e.taskId.toNat s)
  | _, _ => s

def execCompletionRecordProcessed (room : W16) (s : State) : Host.Outcome State Fault Refusal :=
  .next (completionRecordProcessed room.toNat s)

/-! ### The step boundary (01 R20, R21, 09 R266) -/

/-- Parameter entries that a reduction laid out for the step covers. -/
def reducedEntries (s : State) (p : Plan) (u : Nat) : List Nat :=
  (p.reductions.filterMap (fun id => layoutFor s id.toNat u)).flatMap (fun l => (coveredEntries s l).map (·.2))

/-- Every update of the step with stack-resident state is applied, and every Cellar-resident gradient lodged. -/
def entriesDone (s : State) (p : Plan) (u : W64) : Bool :=
  let covered := reducedEntries s p u.toNat
  p.params.zipIdx.all (fun e =>
    peFrozen e.1 || !covered.contains e.2 ||
    (if peResident e.1 then match roomAt s (peGradRoom e.1) with
        | some r => !(r.fresh != 0 && r.freshStep == u) && (r.unapplied.any (fun x => x.2 == u) || decide (u.toNat ≤ (tget s.params.applied e.2 0).toNat))
        | none => true
     else tget s.params.applied e.2 0 == u && !s.params.fetching.any (fun f => f.1 == e.2)))

/-- The moment that R20 defines has come for the open step. -/
def boundaryReached (s : State) : Bool :=
  match s.steps.job, openPlan s with
  | some j, some p =>
    jobSettled j && j.failing.isNone && allCommitted s p j.step.toNat && !verdictHeld s j.step.toNat &&
      (j.tasks.isEmpty || s.steps.begun) && entriesDone s p j.step
  | _, _ => false

/-- Micro-batches whose work is lost. Micro-batch i of the step runs in the plan's slots by turns, and the tasks of a slot
are shared out to its micro-batches in the plan's order (DESIGN CHOICE, log 142). -/
def lostMicro (p : Plan) (j : Job) : List Nat :=
  let tasks := p.tasks.filter (fun t => t.inStep && decide (t.slot.toNat < 4))
  let slots := (List.range 4).filter (fun n => tasks.any (fun t => t.slot.toNat == n))
  (List.range p.microBatches).filter (fun i =>
    let mine := tasks.filter (fun t => some t.slot.toNat == slots[i % slots.length]?)
    let turns := cdiv (p.microBatches - i % slots.length) slots.length
    let share := cdiv mine.length turns
    ((mine.drop (i / slots.length * share)).take share).any (fun t => match taskState j (dTask t.desc) with
      | .lost => true
      | .endedWith _ => true
      | _ => false))

/-- The record as Porter closes it. -/
def closedRecord (s : State) (p : Plan) (j : Job) : LedgerRec :=
  let r := s.steps.record
  let first := r.reds.findIdx? (fun e => e.ownCause == 1)
  { r with
    step := j.step, seq := s.steps.nextSeq, micro := BitVec.ofNat 16 (p.microBatches - (lostMicro p j).length)
    firstPoison := match first with
      | some i => BitVec.ofNat 16 i
      | none => 0xFFFF }

/-- The last 16 records, as the lodging partner is given them (16 R436). -/
def ledgerTail (s : State) : List Byte := (s.steps.ledger.take 16).reverse.flatMap ledgerBytes

/-- Reductions of steps before this one are over. -/
def pruneReds (step : W64) (s : State) : State :=
  let old := s.red.open_.filter (fun r => decide (r.step.toNat < step.toNat))
  let s := { s with red := { s.red with open_ := s.red.open_.filter (fun r => !decide (r.step.toNat < step.toNat)) } }
  forEach (old.flatMap (fun r => r.pins)) (fun p s => unpinRoom p.1.toNat p.2.toNat s) s

/-- What the step's tasks leave is released: pins, journal entries, versions that lost work left fresh (log 55), and the
movers withheld to the boundary. -/
def endJob (j : Job) (s : State) : State :=
  let s := forEach j.keeps (fun k s => unpinRoom k.2.1 k.2.2 s) s
  let s := forEach (s.porter.journal.filter (fun e => e.job == 0)) releasePins s
  let s := forEach ((s.rooms.filter (fun r => r.2.fresh != 0 && r.2.freshStep == j.step && j.step != 0)).map (·.1)) abandonFresh s
  let s := setPorter (fun p => { p with journal := p.journal.filter (fun e => e.job != 0), stoppedSince := false }) s
  { s with cores := s.cores.map (fun c => (c.1, { c.2 with toBoundary := false })) }

def stepBoundary (lodged : Option (List (Nat × W64))) (s : State) : State :=
  match s.steps.job, openPlan s with
  | some j, some p =>
    if !boundaryReached s || !porterRuns s then s
    else
      let r := closedRecord s p j
      let st := if s.steps.workLost then stPartial else stDone
      let s := routerRecords p j.step s
      let s := setScaled j.step (advanceHistories p (pruneReds j.step (endJob j s)))
      let s := { s with steps := { s.steps with
        job := none, begun := false, lastBoundary := j.step, anyBoundary := true, afterRestore := none, stepFree := false
        workLost := false, nonFinite := false, verdict := none, record := .reset
        ledger := ringKeep (fun r => (ledgerBytes r).length) ledgerRing (r :: s.steps.ledger), nextSeq := s.steps.nextSeq + 1 } }
      let s := finish (fun q => q.wait == Wait.step j.step) { st := st, r0 := r.seq.toNat, r1 := r.micro.toNat } s
      let s := if s.exch.installStep == some j.step then stageInstall s else s
      let s := lodgeBoundary lodged (ledgerTail s) s
      openQueued (runActions j.step.toNat s)
  | _, _ => s

def execStepBoundary (lodged : Option (List (Nat × W64))) (s : State) : Host.Outcome State Fault Refusal :=
  .next (stepBoundary lodged s)

end Sys2Proof.Machine
end

