-- ==== Sys2Proof/Machine/Dispatch.lean ====
section
/-! DEFINITION. What each command does: one arm per row of the table. -/

namespace Sys2Proof.Machine

/-- The effect of a command on everything but the queue. -/
def exec (i : Instr) (s : State) : Host.Outcome State Fault Refusal :=
  match i with
  | .pwrEnAssert => Sys2Proof.Machine.execPwrEnAssert s
  | .pwrEnDeassert => Sys2Proof.Machine.execPwrEnDeassert s
  | .modRstNAssert => Sys2Proof.Machine.execModRstNAssert s
  | .modRstNDeassert => Sys2Proof.Machine.execModRstNDeassert s
  | .powerDownStageAdvance => Sys2Proof.Machine.execPowerDownStageAdvance s
  | .perstNAssert => Sys2Proof.Machine.execPerstNAssert s
  | .functionLevelReset f => Sys2Proof.Machine.execFunctionLevelReset f s
  | .storHotReset => Sys2Proof.Machine.execStorHotReset s
  | .inputUndervoltage mv => Sys2Proof.Machine.execInputUndervoltage mv s
  | .inputUndervoltageClear => Sys2Proof.Machine.execInputUndervoltageClear s
  | .inputOvervoltage mv => Sys2Proof.Machine.execInputOvervoltage mv s
  | .inputSupplyCollapse => Sys2Proof.Machine.execInputSupplyCollapse s
  | .converterFail n => Sys2Proof.Machine.execConverterFail n s
  | .domainInRegulation d => Sys2Proof.Machine.execDomainInRegulation d s
  | .domainRegulationTimeout d => Sys2Proof.Machine.execDomainRegulationTimeout d s
  | .bootRomStart => Sys2Proof.Machine.execBootRomStart s
  | .fetchDataReceive data => Sys2Proof.Machine.execFetchDataReceive data s
  | .fetchRequestTimeout => Sys2Proof.Machine.execFetchRequestTimeout s
  | .keeperStart selfTest certOk => Sys2Proof.Machine.execKeeperStart selfTest certOk s
  | .stackTrainingDone stack passed => Sys2Proof.Machine.execStackTrainingDone stack passed s
  | .cellarTrainingDone round failed => Sys2Proof.Machine.execCellarTrainingDone round failed s
  | .towerBringupTestDone tower rows bonds arrays needs => Sys2Proof.Machine.execTowerBringupTestDone tower rows bonds arrays needs s
  | .readySet drives => Sys2Proof.Machine.execReadySet drives s
  | .lowSupplyHalt d => Sys2Proof.Machine.execLowSupplyHalt d s
  | .pacerRestart d => Sys2Proof.Machine.execPacerRestart d s
  | .aliveTick d => Sys2Proof.Machine.execAliveTick d s
  | .crossingTimeout x waiting => Sys2Proof.Machine.execCrossingTimeout x waiting s
  | .crossingRearm x => Sys2Proof.Machine.execCrossingRearm x s
  | .rearmEventTimer x => Sys2Proof.Machine.execRearmEventTimer x s
  | .lateResponseDiscard x tag => Sys2Proof.Machine.execLateResponseDiscard x tag s
  | .domainDrainEnd d => Sys2Proof.Machine.execDomainDrainEnd d s
  | .channelParityError core group again => Sys2Proof.Machine.execChannelParityError core group again s
  | .bondTestDone core groups also => Sys2Proof.Machine.execBondTestDone core groups also s
  | .commandLaneBondFail core lane bit => Sys2Proof.Machine.execCommandLaneBondFail core lane bit s
  | .taskRoomForeignWrite room writer => Sys2Proof.Machine.execTaskRoomForeignWrite room writer s
  | .porterHeartbeat => Sys2Proof.Machine.execPorterHeartbeat s
  | .porterHeartbeatTimeout => Sys2Proof.Machine.execPorterHeartbeatTimeout s
  | .dispatchPass => Sys2Proof.Machine.execDispatchPass s
  | .descriptorFetch core => Sys2Proof.Machine.execDescriptorFetch core s
  | .stallBudgetExpiry core eng => Sys2Proof.Machine.execStallBudgetExpiry core eng s
  | .accumulatorParityError core bank => Sys2Proof.Machine.execAccumulatorParityError core bank s
  | .taskComplete core ctr => Sys2Proof.Machine.execTaskComplete core ctr s
  | .completionRecordProcessed room => Sys2Proof.Machine.execCompletionRecordProcessed room s
  | .stepBoundary lodged => Sys2Proof.Machine.execStepBoundary lodged s
  | .vecNop core w => Sys2Proof.Machine.execVecNop core w s
  | .vecAdd core w => Sys2Proof.Machine.execVecAdd core w s
  | .vecSub core w => Sys2Proof.Machine.execVecSub core w s
  | .vecMul core w => Sys2Proof.Machine.execVecMul core w s
  | .vecFma core w => Sys2Proof.Machine.execVecFma core w s
  | .vecMax core w => Sys2Proof.Machine.execVecMax core w s
  | .vecMin core w => Sys2Proof.Machine.execVecMin core w s
  | .vecAbs core w => Sys2Proof.Machine.execVecAbs core w s
  | .vecCmp core w => Sys2Proof.Machine.execVecCmp core w s
  | .vecSel core w => Sys2Proof.Machine.execVecSel core w s
  | .vecMask core w => Sys2Proof.Machine.execVecMask core w s
  | .vecPos core w => Sys2Proof.Machine.execVecPos core w s
  | .vecRcp core w => Sys2Proof.Machine.execVecRcp core w s
  | .vecRsq core w => Sys2Proof.Machine.execVecRsq core w s
  | .vecExp core w => Sys2Proof.Machine.execVecExp core w s
  | .vecExp2 core w => Sys2Proof.Machine.execVecExp2 core w s
  | .vecLog2 core w => Sys2Proof.Machine.execVecLog2 core w s
  | .vecTanh core w => Sys2Proof.Machine.execVecTanh core w s
  | .vecSig core w => Sys2Proof.Machine.execVecSig core w s
  | .vecDiv core w => Sys2Proof.Machine.execVecDiv core w s
  | .vecSqrt core w => Sys2Proof.Machine.execVecSqrt core w s
  | .vecIadd core w => Sys2Proof.Machine.execVecIadd core w s
  | .vecImul core w => Sys2Proof.Machine.execVecImul core w s
  | .vecShift core w => Sys2Proof.Machine.execVecShift core w s
  | .vecLogic core w => Sys2Proof.Machine.execVecLogic core w s
  | .vecCvt core w => Sys2Proof.Machine.execVecCvt core w s
  | .vecTsc core w => Sys2Proof.Machine.execVecTsc core w s
  | .vecExpb core w => Sys2Proof.Machine.execVecExpb core w s
  | .vecQnt core w => Sys2Proof.Machine.execVecQnt core w s
  | .vecDqnt core w => Sys2Proof.Machine.execVecDqnt core w s
  | .vecShuf core w => Sys2Proof.Machine.execVecShuf core w s
  | .vecPerm core w => Sys2Proof.Machine.execVecPerm core w s
  | .vecPack core w => Sys2Proof.Machine.execVecPack core w s
  | .vecUnpk core w => Sys2Proof.Machine.execVecUnpk core w s
  | .vecRsum core w => Sys2Proof.Machine.execVecRsum core w s
  | .vecRmax core w => Sys2Proof.Machine.execVecRmax core w s
  | .vecRssq core w => Sys2Proof.Machine.execVecRssq core w s
  | .vecLdq core w => Sys2Proof.Machine.execVecLdq core w s
  | .vecLdx core w => Sys2Proof.Machine.execVecLdx core w s
  | .vecStq core w => Sys2Proof.Machine.execVecStq core w s
  | .vecStx core w => Sys2Proof.Machine.execVecStx core w s
  | .vecNstat core w => Sys2Proof.Machine.execVecNstat core w s
  | .vecNapp core w => Sys2Proof.Machine.execVecNapp core w s
  | .vecSstat core w => Sys2Proof.Machine.execVecSstat core w s
  | .vecSapp core w => Sys2Proof.Machine.execVecSapp core w s
  | .pondUncorrectableRead core addr => Sys2Proof.Machine.execPondUncorrectableRead core addr s
  | .mereUncorrectableRead reader addr => Sys2Proof.Machine.execMereUncorrectableRead reader addr s
  | .pondScrubStep slice corrected => Sys2Proof.Machine.execPondScrubStep slice corrected s
  | .mereScrubStep slice corrected => Sys2Proof.Machine.execMereScrubStep slice corrected s
  | .stackPatrolScrub stack only passEnds => Sys2Proof.Machine.execStackPatrolScrub stack only passEnds s
  | .cellarPatrolScrub corrected passEnds => Sys2Proof.Machine.execCellarPatrolScrub corrected passEnds s
  | .cellarUpdateStart => Sys2Proof.Machine.execCellarUpdateStart s
  | .cellarUpdateCommit => Sys2Proof.Machine.execCellarUpdateCommit s
  | .stateFetchInstall f => Sys2Proof.Machine.execStateFetchInstall f s
  | .noticeSend red => Sys2Proof.Machine.execNoticeSend red s
  | .noticeReceive note => Sys2Proof.Machine.execNoticeReceive note s
  | .reductionBudgetExpiry red step => Sys2Proof.Machine.execReductionBudgetExpiry red step s
  | .closeRecordReceive head counted carried => Sys2Proof.Machine.execCloseRecordReceive head counted carried s
  | .shardReceive step red idx carried shard values => Sys2Proof.Machine.execShardReceive step red idx carried shard values s
  | .resultReceive step red shard values sglob => Sys2Proof.Machine.execResultReceive step red shard values sglob s
  | .routerDispatch layer mb list tokens => Sys2Proof.Machine.execRouterDispatch layer mb list tokens s
  | .markReceive head => Sys2Proof.Machine.execMarkReceive head s
  | .bundleReceive head tokens rows => Sys2Proof.Machine.execBundleReceive head tokens rows s
  | .returnBundleReceive head tokens rows => Sys2Proof.Machine.execReturnBundleReceive head tokens rows s
  | .markWaitTimeout step layer mb backward => Sys2Proof.Machine.execMarkWaitTimeout step layer mb backward s
  | .laneOutOfService lane => Sys2Proof.Machine.execLaneOutOfService lane s
  | .laneRecalibrationStart lane => Sys2Proof.Machine.execLaneRecalibrationStart lane s
  | .laneRecalibrationEnd lane clean => Sys2Proof.Machine.execLaneRecalibrationEnd lane clean s
  | .linkPortTrained port reported lanes => Sys2Proof.Machine.execLinkPortTrained port reported lanes s
  | .hostLinkTrained f rate width => Sys2Proof.Machine.execHostLinkTrained f rate width s
  | .fabRead ring e => Sys2Proof.Machine.execFabRead ring e s
  | .fabWrite ring e => Sys2Proof.Machine.execFabWrite ring e s
  | .fabAtomicAdd ring e => Sys2Proof.Machine.execFabAtomicAdd ring e s
  | .fabAtomicSwap ring e => Sys2Proof.Machine.execFabAtomicSwap ring e s
  | .fabAtomicCas ring e => Sys2Proof.Machine.execFabAtomicCas ring e s
  | .fabAtomicAnd ring e => Sys2Proof.Machine.execFabAtomicAnd ring e s
  | .fabAtomicOr ring e => Sys2Proof.Machine.execFabAtomicOr ring e s
  | .fabAtomicMax ring e => Sys2Proof.Machine.execFabAtomicMax ring e s
  | .fabAtomicResubmit ring e => Sys2Proof.Machine.execFabAtomicResubmit ring e s
  | .fabFence ring e => Sys2Proof.Machine.execFabFence ring e s
  | .fabMsg ring e => Sys2Proof.Machine.execFabMsg ring e s
  | .remoteRequestArrival r => Sys2Proof.Machine.execRemoteRequestArrival r s
  | .atomicArrival r => Sys2Proof.Machine.execAtomicArrival r s
  | .coalescerSlot line => Sys2Proof.Machine.execCoalescerSlot line s
  | .hotLineTimeout line => Sys2Proof.Machine.execHotLineTimeout line s
  | .requestResponseArrival ring pos status data => Sys2Proof.Machine.execRequestResponseArrival ring pos status data s
  | .atomicReplyTimeout ring pos => Sys2Proof.Machine.execAtomicReplyTimeout ring pos s
  | .switchPortDownReport rack => Sys2Proof.Machine.execSwitchPortDownReport rack s
  | .messageArrival src ring seq payload => Sys2Proof.Machine.execMessageArrival src ring seq payload s
  | .messageResendTimer ring pos expired => Sys2Proof.Machine.execMessageResendTimer ring pos expired s
  | .messageAckTimeout ring pos => Sys2Proof.Machine.execMessageAckTimeout ring pos s
  | .doorbellSqTailWrite mb v => Sys2Proof.Machine.execDoorbellSqTailWrite mb v s
  | .doorbellCqHeadWrite mb v => Sys2Proof.Machine.execDoorbellCqHeadWrite mb v s
  | .mbxErrClear mask => Sys2Proof.Machine.execMbxErrClear mask s
  | .bmcMessageArrival e arg => Sys2Proof.Machine.execBmcMessageArrival e arg s
  | .fmMessageArrival e arg => Sys2Proof.Machine.execFmMessageArrival e arg s
  | .registerWrite f off data => Sys2Proof.Machine.execRegisterWrite f off data s
  | .bar0InvalidAccess f isWrite => Sys2Proof.Machine.execBar0InvalidAccess f isWrite s
  | .bar2Write f off data ep => Sys2Proof.Machine.execBar2Write f off data ep s
  | .bar2Read f off len => Sys2Proof.Machine.execBar2Read f off len s
  | .dmaTransferDone f data => Sys2Proof.Machine.execDmaTransferDone f data s
  | .driveMemoryRequest drive addr len isWrite data => Sys2Proof.Machine.execDriveMemoryRequest drive addr len isWrite data s
  | .driveCommandComplete drive ok => Sys2Proof.Machine.execDriveCommandComplete drive ok s
  | .driveCommandTimeout drive => Sys2Proof.Machine.execDriveCommandTimeout drive s
  | .snapshotMark => Sys2Proof.Machine.execSnapshotMark s
  | .snapshotChunkShipped chunk refused => Sys2Proof.Machine.execSnapshotChunkShipped chunk refused s
  | .cmdNop c => Sys2Proof.Machine.execCmdNop c s
  | .cmdSessionOpen c role join frTowers consent => Sys2Proof.Machine.execCmdSessionOpen c role join frTowers consent s
  | .cmdSessionClose c => Sys2Proof.Machine.execCmdSessionClose c s
  | .cmdSessionConsent c consent => Sys2Proof.Machine.execCmdSessionConsent c consent s
  | .cmdRoomRequest c cls home index slots fallback pages => Sys2Proof.Machine.execCmdRoomRequest c cls home index slots fallback pages s
  | .cmdRoomRelease c room => Sys2Proof.Machine.execCmdRoomRelease c room s
  | .cmdRoomCommit c room => Sys2Proof.Machine.execCmdRoomCommit c room s
  | .cmdQuotaSet c floors ceils => Sys2Proof.Machine.execCmdQuotaSet c floors ceils s
  | .cmdRoomQuery c room => Sys2Proof.Machine.execCmdRoomQuery c room s
  | .cmdApertureMap c aperture rd wr room offset pages => Sys2Proof.Machine.execCmdApertureMap c aperture rd wr room offset pages s
  | .cmdApertureUnmap c aperture => Sys2Proof.Machine.execCmdApertureUnmap c aperture s
  | .cmdDmaCopy c dir room offset list elements lens => Sys2Proof.Machine.execCmdDmaCopy c dir room offset list elements lens s
  | .cmdPlanLoad c plan => Sys2Proof.Machine.execCmdPlanLoad c plan s
  | .cmdPlanUnload c handle => Sys2Proof.Machine.execCmdPlanUnload c handle s
  | .cmdTasksRun c handle first count => Sys2Proof.Machine.execCmdTasksRun c handle first count s
  | .cmdStepRun c handle step sets => Sys2Proof.Machine.execCmdStepRun c handle step sets s
  | .cmdStepAbort c step => Sys2Proof.Machine.execCmdStepAbort c step s
  | .cmdHalt c => Sys2Proof.Machine.execCmdHalt c s
  | .cmdResume c => Sys2Proof.Machine.execCmdResume c s
  | .cmdModuleIdSet c id => Sys2Proof.Machine.execCmdModuleIdSet c id s
  | .cmdDomainForm c domain epoch members => Sys2Proof.Machine.execCmdDomainForm c domain epoch members s
  | .cmdDomainTeardown c domain => Sys2Proof.Machine.execCmdDomainTeardown c domain s
  | .cmdRstWrite c first count entries => Sys2Proof.Machine.execCmdRstWrite c first count entries s
  | .cmdUnreachableClear c id => Sys2Proof.Machine.execCmdUnreachableClear c id s
  | .cmdExportSet c segment entry => Sys2Proof.Machine.execCmdExportSet c segment entry s
  | .cmdRingRegister c kind index room valid => Sys2Proof.Machine.execCmdRingRegister c kind index room valid s
  | .cmdRedLayout c layout members => Sys2Proof.Machine.execCmdRedLayout c layout members s
  | .cmdEptLoad c group entries => Sys2Proof.Machine.execCmdEptLoad c group entries s
  | .cmdEptStage c step entries gained => Sys2Proof.Machine.execCmdEptStage c step entries gained s
  | .cmdEptActivate c step => Sys2Proof.Machine.execCmdEptActivate c step s
  | .cmdEptRetire c => Sys2Proof.Machine.execCmdEptRetire c s
  | .cmdPowerLimits c sustain peak window => Sys2Proof.Machine.execCmdPowerLimits c sustain peak window s
  | .cmdCapShare c order linkFloor => Sys2Proof.Machine.execCmdCapShare c order linkFloor s
  | .cmdPaceCeiling c tower point => Sys2Proof.Machine.execCmdPaceCeiling c tower point s
  | .cmdLastLine c mode => Sys2Proof.Machine.execCmdLastLine c mode s
  | .cmdTowerGateLogicOff c towers => Sys2Proof.Machine.execCmdTowerGateLogicOff c towers s
  | .cmdTowerGateOn c towers => Sys2Proof.Machine.execCmdTowerGateOn c towers s
  | .cmdTowerGateAllOff c towers => Sys2Proof.Machine.execCmdTowerGateAllOff c towers s
  | .cmdTestLaneRecalibration c target => Sys2Proof.Machine.execCmdTestLaneRecalibration c target s
  | .cmdTestScrubPass c target => Sys2Proof.Machine.execCmdTestScrubPass c target s
  | .cmdTestCoreSelfTest c target => Sys2Proof.Machine.execCmdTestCoreSelfTest c target s
  | .cmdTestTowerSelfTest c target => Sys2Proof.Machine.execCmdTestTowerSelfTest c target s
  | .cmdTestMarginMeasurement c target => Sys2Proof.Machine.execCmdTestMarginMeasurement c target s
  | .cmdTestCancel c request => Sys2Proof.Machine.execCmdTestCancel c request s
  | .cmdFwStage c head bytes => Sys2Proof.Machine.execCmdFwStage c head bytes s
  | .cmdFwActivate c => Sys2Proof.Machine.execCmdFwActivate c s
  | .cmdOwnerKey c key sig sigInForce => Sys2Proof.Machine.execCmdOwnerKey c key sig sigInForce s
  | .cmdPolicySet c record key sig => Sys2Proof.Machine.execCmdPolicySet c record key sig s
  | .cmdZeroise c => Sys2Proof.Machine.execCmdZeroise c s
  | .cmdCertRead c slot => Sys2Proof.Machine.execCmdCertRead c slot s
  | .cmdSnapTake c req => Sys2Proof.Machine.execCmdSnapTake c req s
  | .cmdSnapAbort c id => Sys2Proof.Machine.execCmdSnapAbort c id s
  | .cmdStoreForm c pairs => Sys2Proof.Machine.execCmdStoreForm c pairs s
  | .cmdDriveRescan c found => Sys2Proof.Machine.execCmdDriveRescan c found s
  | .cmdLodgePair c partner override pfeed => Sys2Proof.Machine.execCmdLodgePair c partner override pfeed s
  | .cmdLodgePromote c failed => Sys2Proof.Machine.execCmdLodgePromote c failed s
  | .cmdRestore c source id addr m => Sys2Proof.Machine.execCmdRestore c source id addr m s
  | .cmdLedgerRead c first count => Sys2Proof.Machine.execCmdLedgerRead c first count s
  | .cmdEventRead c first count => Sys2Proof.Machine.execCmdEventRead c first count s
  | .cmdRingRead c ring first count => Sys2Proof.Machine.execCmdRingRead c ring first count s
  | .cmdTelemetryRead c kind => Sys2Proof.Machine.execCmdTelemetryRead c kind s
  | .cmdCapRead c => Sys2Proof.Machine.execCmdCapRead c s
  | .lodgingRequestArrival lodger feed override tensors bytes => Sys2Proof.Machine.execLodgingRequestArrival lodger feed override tensors bytes s
  | .lodgingAnswerArrival status feed => Sys2Proof.Machine.execLodgingAnswerArrival status feed s
  | .lodgingAnswerTimeout => Sys2Proof.Machine.execLodgingAnswerTimeout s
  | .lodgedTensorReceived tensor step bytes digestOk tail => Sys2Proof.Machine.execLodgedTensorReceived tensor step bytes digestOk tail s
  | .restoreChunkRead chunk bytes parts => Sys2Proof.Machine.execRestoreChunkRead chunk bytes parts s
  | .coreTestRotation => Sys2Proof.Machine.execCoreTestRotation s
  | .coreTestDrainTimeout => Sys2Proof.Machine.execCoreTestDrainTimeout s
  | .coreSelfTestDone passed => Sys2Proof.Machine.execCoreSelfTestDone passed s
  | .towerSelfTestDone tower failed rows needs => Sys2Proof.Machine.execTowerSelfTestDone tower failed rows needs s
  | .governorSample m => Sys2Proof.Machine.execGovernorSample m s
  | .paceRampEnd tower => Sys2Proof.Machine.execPaceRampEnd tower s
  | .thermTrip layer reading => Sys2Proof.Machine.execThermTrip layer reading s
  | .vralertNAssert => Sys2Proof.Machine.execVralertNAssert s
  | .vralertNRelease => Sys2Proof.Machine.execVralertNRelease s
  | .coolFailNAssert => Sys2Proof.Machine.execCoolFailNAssert s
  | .coolFailNRelease => Sys2Proof.Machine.execCoolFailNRelease s
  | .marginMeasurementPeriod needs => Sys2Proof.Machine.execMarginMeasurementPeriod needs s
  | .zeroNAssert us => Sys2Proof.Machine.execZeroNAssert us s
  | .keeperBoundaryAccess core addr isWrite => Sys2Proof.Machine.execKeeperBoundaryAccess core addr isWrite s
  | .conditionalTestFail test => Sys2Proof.Machine.execConditionalTestFail test s
  | .spdmGetVersion transport => Sys2Proof.Machine.execSpdmGetVersion transport s
  | .spdmGetCapabilities transport => Sys2Proof.Machine.execSpdmGetCapabilities transport s
  | .spdmNegotiateAlgorithms transport supported => Sys2Proof.Machine.execSpdmNegotiateAlgorithms transport supported s
  | .spdmGetDigests transport => Sys2Proof.Machine.execSpdmGetDigests transport s
  | .spdmGetCertificate transport slot offset len => Sys2Proof.Machine.execSpdmGetCertificate transport slot offset len s
  | .spdmChallenge transport slot nonce => Sys2Proof.Machine.execSpdmChallenge transport slot nonce s
  | .spdmGetMeasurements transport index nonce => Sys2Proof.Machine.execSpdmGetMeasurements transport index nonce s
  | .spdmKeyExchange transport id share => Sys2Proof.Machine.execSpdmKeyExchange transport id share s
  | .spdmFinish transport id verify => Sys2Proof.Machine.execSpdmFinish transport id verify s
  | .spdmHeartbeat transport id => Sys2Proof.Machine.execSpdmHeartbeat transport id s
  | .spdmKeyUpdate transport id op => Sys2Proof.Machine.execSpdmKeyUpdate transport id op s
  | .spdmEndSession transport id => Sys2Proof.Machine.execSpdmEndSession transport id s
  | .spdmUnsupportedRequest transport code => Sys2Proof.Machine.execSpdmUnsupportedRequest transport code s
  | .forerunnerExitDone tower => Sys2Proof.Machine.execForerunnerExitDone tower s
  | .perstNDeassert => Sys2Proof.Machine.execPerstNDeassert s
  | .doeDiscovery index => Sys2Proof.Machine.execDoeDiscovery index s
  | .portAerError f => Sys2Proof.Machine.execPortAerError f s
  | .dynamicAddressAssign addr => Sys2Proof.Machine.execDynamicAddressAssign addr s
  | .controllerRoleGrant => Sys2Proof.Machine.execControllerRoleGrant s
  | .controllerRoleGrantTimeout => Sys2Proof.Machine.execControllerRoleGrantTimeout s
  | .windowRequestTimeout ring pos => Sys2Proof.Machine.execWindowRequestTimeout ring pos s
  | .stackUncorrectableRead reader block => Sys2Proof.Machine.execStackUncorrectableRead reader block s
  | .cellarUncorrectableRead reader block => Sys2Proof.Machine.execCellarUncorrectableRead reader block s
  | .pseudoChannelInterfaceCheckFail stack group pch => Sys2Proof.Machine.execPseudoChannelInterfaceCheckFail stack group pch s
  | .stateFetchRequestArrival src tensor block step => Sys2Proof.Machine.execStateFetchRequestArrival src tensor block step s

end Sys2Proof.Machine
end

