-- ==== Sys2Proof/WellFormed.lean ====
section
/-! DEFINITION. Which commands are well formed: operands that the ports of the block can carry, and lists as long as what
they stand for. -/

namespace Sys2Proof

/-- A crossing joins two domains (02 R31). -/
def Xing.wf (x : Xing) : Bool := x.recv != x.send

/-- A sample reports the power and the diodes of all 56 layers (15 R416). -/
def Sample.wf (m : Sample) : Bool := m.layerMw.length == 56 && m.diodes.length == 56

/-- A measurement yields a need at each of the 16 points of a layer, or was not taken (15 R424). -/
def needsWf (layers : Nat) (needs : List (List Nat)) : Bool :=
  decide (needs.length ≤ layers) && needs.all (fun l => l.isEmpty || l.length == 16)

/-- A packet carries at least one line, and a store all its bytes (11 R302). -/
def WinReq.wf (r : WinReq) : Bool := r.lines != 0 && (!r.write || r.data.length == 128 * r.lines)

/-- A command whose operands the spec admits; what an order's fields hold is for the order's own checks. -/
def Instr.wf : Instr → Bool
  | .crossingTimeout x _ => x.wf
  | .crossingRearm x => x.wf
  | .rearmEventTimer x => x.wf
  | .lateResponseDiscard x _ => x.wf
  | .cmdQuotaSet _ floors ceils => floors.length == 8 && ceils.length == 8
  | .cmdDmaCopy _ _ _ _ _ elements lens => lens.length == elements.toNat
  | .governorSample m => m.wf
  | .marginMeasurementPeriod needs => needsWf 24 needs
  | .towerBringupTestDone _ _ _ _ needs => needsWf 3 needs
  | .towerSelfTestDone _ _ _ needs => needsWf 3 needs
  | .remoteRequestArrival r => r.wf
  | .registerWrite _ _ data => !data.isEmpty
  | .bar2Write _ _ data _ => !data.isEmpty
  | .bar2Read _ _ len => len != 0
  | _ => true

end Sys2Proof
end

