-- ==== Sys2Proof/Safety.lean ====
section
/-! DEFINITION. The words in which statements are made: a completed command, the parts of the state that it may change, the
canonical memory. -/

namespace Sys2Proof.Safety

open Sys2Proof.Machine

/-- The command answers a next state, and P holds of it. -/
def Completes (i : Instr) (s : State) (P : State → Prop) : Prop := ∃ t, exec i s = .next t ∧ P t

/-- A step that neither faults nor refuses. -/
def Goes (s : State) : Prop := ∃ t, step s = .next t

/-- The memory keeps its one canonical form. -/
def MemGood (s : State) : Prop := Memory.wf s.mem.cells

/-- `t` is `s` with one event more, and with nothing else changed but what an event entails: ALERT_N, and the vector that
Keeper raises for Porter (16 R427, R432). -/
def OnlyEvent (code plane die : Nat) (args : List (Nat × Nat)) (s t : State) : Prop :=
  t.log.entries = (eventOf code plane die args s :: s.log.entries).take 262144 ∧ t.log.next = s.log.next + 1 ∧
  t.log.seen64 = s.log.seen64 ∧
  t = { s with log := t.log, power := { s.power with alert := t.power.alert }, porter := { s.porter with msix := t.porter.msix } }

/-- An event with these arguments has been logged since `s`. -/
def Logged (code : Nat) (args : List (Nat × Nat)) (s t : State) : Prop :=
  ∃ e ∈ t.log.entries, s.log.next ≤ e.seq ∧ e.code = BitVec.ofNat 16 code ∧
    e.args = fit 40 0 (args.flatMap (fun a => bytesLE a.1 a.2))

/-- Nothing changes but the cores, and of these only core c. -/
def OnlyCore (c : Nat) (s t : State) : Prop := t = { s with cores := t.cores } ∧ ∀ k, k ≠ c → coreAt t k = coreAt s k

/-- A vector instruction on core `c`, whose task becomes `r'` with the flags `f` added: of the registers only those in
`ds` change, and nothing of any other part of the machine. -/
def OnlyRegs (c : Nat) (ds : List Nat) (r' : TaskRun) (f : Flags) (s t : State) : Prop :=
  OnlyCore c s t ∧ (∀ q, q ∉ ds → vreg t c q = vreg s c q) ∧
  coreAt t c = { coreAt s c with
    vregs := (coreAt t c).vregs, vtags := (coreAt t c).vtags, running := some { r' with flags := r'.flags ||| f } }

/-- A lane-by-lane instruction gives register D these lanes, ORs the flags of its valid lanes into the task's, and changes
nothing else. -/
def GivesLanes (c : Nat) (w : VWord) (r : TaskRun) (rs : List (Lane × Flags)) (s t : State) : Prop :=
  vreg t c w.d.toNat = rs.map (·.1) ∧ OnlyRegs c [w.d.toNat] r (laneFlags rs) s t

/-- One, two and three sources, as operation `op`, where the word is the program's next: lane i of D from lane i of the sources,
valid where they are. -/
def LaneOp1 (mk : Fin 384 → VWord → Instr) (op : Nat) (legal : VWord → Bool) (f : VWord → W32 → W32 × Flags) : Prop :=
  ∀ core w s r, issuing s core.val op w = some r → legal w = true →
    Completes (mk core w) s (GivesLanes core.val w (stepPast r)
      ((source s core.val r 0 w.sa.toNat).map (fun a => (⟨(f w a.val).1, a.valid⟩, (f w a.val).2))) s)

def LaneOp2 (mk : Fin 384 → VWord → Instr) (op : Nat) (legal : VWord → Bool) (f : VWord → W32 → W32 → W32 × Flags) : Prop :=
  ∀ core w s r, issuing s core.val op w = some r → legal w = true →
    Completes (mk core w) s (GivesLanes core.val w (stepPast r)
      (((source s core.val r 0 w.sa.toNat).zip (source s core.val r 1 w.sb.toNat)).map (fun p =>
        (⟨(f w p.1.val p.2.val).1, p.1.valid && p.2.valid⟩, (f w p.1.val p.2.val).2))) s)

def LaneOp3 (mk : Fin 384 → VWord → Instr) (op : Nat) (legal : VWord → Bool) (f : VWord → W32 → W32 → W32 → W32 × Flags) : Prop :=
  ∀ core w s r, issuing s core.val op w = some r → legal w = true →
    Completes (mk core w) s (GivesLanes core.val w (stepPast r)
      (((source s core.val r 0 w.sa.toNat).zip ((source s core.val r 1 w.sb.toNat).zip (source s core.val r 2 w.sc.toNat))).map (fun p =>
        (⟨(f w p.1.val p.2.1.val p.2.2.val).1, p.1.valid && p.2.1.valid && p.2.2.valid⟩,
         (f w p.1.val p.2.1.val p.2.2.val).2))) s)

/-- CTL is 0 outside a mask, and TYPE is FP32 (05 Table 5-4). -/
def fp32Word (mask : W16) (w : VWord) : Bool := (w.ctl &&& ~~~mask) == 0 && w.type == 0
/-- CTL is 0 outside a mask, and TYPE is BF16. -/
def bf16Word (mask : W16) (w : VWord) : Bool := (w.ctl &&& ~~~mask) == 0 && w.type == 1
/-- CTL is 0 outside a mask, and TYPE is not reserved. -/
def anyWord (mask : W16) (w : VWord) : Bool := (w.ctl &&& ~~~mask) == 0 && w.type != 3

/-- An FP32 pattern that is a NaN. -/
def isNan32 (w : W32) : Prop := 0x7F800000 < (w &&& 0x7FFFFFFF).toNat

/-- The element of a stream at a logical position inside its extents covers a bit of byte address `a` (03 R57, 04 R118). -/
def onElement (x : BitVec 256) (q : Nat × Nat × Nat) (a : Nat) : Prop :=
  inside (shapeOf x) q = true ∧
  sBase x + storedAt x q.1 q.2.1 q.2.2 * fmtBits (sFmt x) / 8 ≤ a ∧
  a ≤ sBase x + (storedAt x q.1 q.2.1 q.2.2 * fmtBits (sFmt x) + fmtBits (sFmt x) - 1) / 8

/-! ### Staged updates (08) -/

/-- The update of step `u` from the gradient at `a`, with the factor `k` of the tensor's group (08 R228, R229, R239). -/
def liveUpdate (s : State) (p : Plan) (e : BitVec 512 × Nat) (u a : Nat) (k : W32) : NewState :=
  updateWrites s p e.1 (optSet s u (peOptSet e.1)) u k (failedBlocks s p e.1 e.2 u (readTensor s e.1 a)) (readTensor s e.1 a)

/-- The Cellar-resident tensors of an entry's watch group. -/
def groupMates (s : State) (e : BitVec 512 × Nat) : List (BitVec 512 × Nat) :=
  (residentEntries s).filter (fun x => peGroup x.1 == peGroup e.1)

/-- What is staged for an update: its first block in the room, the later ones and the digests to come. -/
def stagedOf (n : NewState) (e : BitVec 512 × Nat) (u room : Nat) (ratio : LedgerRatio) : Staged :=
  { step := BitVec.ofNat 64 u, entry := e.2, room := BitVec.ofNat 16 room, spans := spansOfWrites (n.blocks.headD [])
    writes := n.blocks.drop 1, digests := n.digests, ratio := some ratio, skip := false }

def stagedLen (ws : List (Nat × List Byte)) : Nat := sumNat (ws.map (fun w => w.2.length))

/-- Where a room's committed version begins. -/
def slotStart (m : Room) : Nat := m.base.toNat + m.curSlot * slotBytes m

/-- Every home that a staged update writes: address and bytes. -/
def homesOf (x : Staged) : List (Nat × Nat) :=
  x.spans ++ x.writes.flatMap spansOfWrites ++ x.digests.map (fun d => (d.1, 8))

/-- A staging room as staging leaves it, whose blocks fit a slot, and homes that overlap neither each other nor the room. -/
def StagingGood (x : Staged) (m : Room) (s : State) : Prop :=
  m.slots = 2 ∧ m.fresh = 0 ∧ m.current ≠ 0 ∧ m.curSlot < 2 ∧ m.slotVer.length = 5 ∧ m.slotVer.getD (1 - m.curSlot) 0 = 0 ∧
  (∀ k, m.pins.getD k 0 = 0) ∧ (∀ r ∈ s.fab.rings, r.2.room ≠ x.room) ∧
  sumNat (x.spans.map (fun h => h.2)) ≤ slotBytes m ∧ (∀ ws ∈ x.writes, stagedLen ws ≤ slotBytes m) ∧
  (homesOf x).Pairwise (fun h g => h.1 + h.2 ≤ g.1 ∨ g.1 + g.2 ≤ h.1) ∧
  ∀ h ∈ homesOf x, h.1 + h.2 ≤ m.base.toNat ∨ roomEnd m ≤ h.1

/-! ### Request rings (11) -/

/-- The ring's next entry is `e`, and nothing keeps it from being carried out. -/
def AtEntry (k : Nat) (e : BitVec 512) (r : ReqRing) (s : State) : Prop :=
  ringAt s k = some r ∧ nextEntry s k = some e ∧ linksRun s = true ∧ mayIssue r e = true

/-- The ring stands at an entry that is still to be issued, so that nothing more completes. -/
def Stands (k : Nat) (u : State) : Prop := ∃ e, nextEntry u k = some e ∧ rqOp e ∈ [1, 2, 4, 5]

/-- The next entry has been sent to a target on a plane with a sequence number. -/
def Issued (k : Nat) (e : BitVec 512) (r : ReqRing) (target plane : Nat) (seq : W32) (s t : State) : Prop :=
  t.outs = packetOf s e target plane seq :: s.outs ∧
  ringAt t k = some { r with
    next := r.next + 1
    issued := r.issued ++ [{ entry := e, pos := r.next, target := target, attempts := 1, seq := seq, plane := plane }] } ∧
  (∀ q, q ≠ k → ringAt t q = ringAt s q) ∧ t = { s with fab := t.fab, outs := t.outs }

/-- The state in which the ring's next entry has completed with a status. -/
def refusedState (k : Nat) (e : BitVec 512) (st : Nat) (s : State) : State :=
  setRing k (fun r => { r with next := r.next + 1 }) (putCompletion e st (if rqOp e == 3 then rqSeq e else 0) 0 s)

/-- A module has become unreachable: reported once, and nothing to it is outstanding. (What ends with it may raise events of
its own where completions lie in task rooms or a snapshot runs, and the log is bounded.) -/
def Unreachable (id : W16) (s t : State) : Prop :=
  id ∈ t.fab.unreachable ∧ ((∀ m ∈ s.rooms, m.2.cls ≠ 7) → s.snap = none → Logged 0x4701 [a2 id.toNat] s t) ∧ .management "unreachable" [id.toNat] ∈ t.outs ∧
  ∀ k r, ringAt t k = some r → ∀ q ∈ r.issued, q.target ≠ id.toNat

/-! ### Orders of a mailbox (13) -/

/-- The order as it is taken. -/
def pendingOf (code : Nat) (c : Cmd) (s : State) : Pending :=
  { cmd := c, opcode := BitVec.ofNat 16 code, session := sessionOfMb s c.mailbox.val, pass := orderPass s,
    index := (mbAt s c.mailbox.val).sqHead, wait := .now }

/-- The mailbox can take the order, its sender may give it, its entry and its argument are good, and no other order of the
pass names its subjects (13 R350, R352, R354, R355, R361, R366). -/
def Passes (code : Nat) (c : Cmd) (subs : List Subject) (s : State) : Prop :=
  canTake s c.mailbox.val = true ∧
  (c.mailbox.val = 64 → s.power.phase ≠ .bootStopped ∧ ((mbAt s 64).msgs ≠ [] ∨ outstandingOf s 64 < 8) ∧
    (keeperTakes code = true ∨ (porterRuns s && s.porter.ready) = true)) ∧
  c.crcOk = true ∧ c.badField = none ∧
  (∃ row, opRow code = some row ∧ standing s c.mailbox.val code row (mbAt s c.mailbox.val).sqHead = 0 ∧
    argBad s row (pendingOf code c s) = none) ∧
  rivals s c.mailbox.val subs = []

/-- The entry that reports a reply. -/
def entryOf (code : Nat) (c : Cmd) (r : Reply) (s : State) (e : Cpl) : Prop :=
  e.cid = c.cid ∧ e.opcode = BitVec.ofNat 16 code ∧ e.status = BitVec.ofNat 8 r.st ∧ e.detail = BitVec.ofNat 16 r.detail ∧
  e.session = sessionOfMb s c.mailbox.val ∧ e.pass = orderPass s ∧ e.result0 = BitVec.ofNat 64 r.r0 ∧
  e.result1 = BitVec.ofNat 64 r.r1 ∧ e.result2 = BitVec.ofNat 64 r.r2

/-- The order has been answered: an entry of a host mailbox's completion ring, or a message. -/
def Answered (code : Nat) (c : Cmd) (r : Reply) (s t : State) : Prop :=
  ∃ e, entryOf code c r s e ∧
    (c.mailbox.val < 64 → ∃ k, tfind? (mbAt t c.mailbox.val).cq k = some e) ∧
    (64 ≤ c.mailbox.val → ∃ bs, .mctpCpl c.mailbox.val e bs ∈ t.outs)

/-- The order has been answered at the completion index that came next. -/
def Posted (code : Nat) (c : Cmd) (r : Reply) (s t : State) : Prop :=
  ∃ e, entryOf code c r s e ∧
    (c.mailbox.val < 64 → tfind? (mbAt t c.mailbox.val).cq (mbAt s c.mailbox.val).cqTail.toNat = some e ∧
      (mbAt t c.mailbox.val).cqTail = (mbAt s c.mailbox.val).cqTail + 1) ∧
    (64 ≤ c.mailbox.val → ∃ bs, .mctpCpl c.mailbox.val e bs ∈ t.outs)

/-- `t` is `u` but for what taking and answering an order of mailbox `n` changes: that mailbox, the notes of the pass,
interrupts owed, and the answer sent. -/
def ButMailbox (n : Nat) (u t : State) : Prop :=
  t = { u with
    porter := { u.porter with
      mailboxes := t.porter.mailboxes, passOrders := t.porter.passOrders, limitOrders := t.porter.limitOrders
      irqDue := t.porter.irqDue }
    outs := t.outs } ∧
  ∀ k, k ≠ n → mbAt t k = mbAt u k

/-- The order is answered with `r`, and its effect is `u`. -/
def Gives (code : Nat) (c : Cmd) (r : Reply) (u s t : State) : Prop := Posted code c r s t ∧ ButMailbox c.mailbox.val u t

/-- The order waits: its effect so far is `u`, and its completion is owed. Its extended argument is pinned (13 R352). -/
def WaitsFor (code : Nat) (c : Cmd) (w : Wait) (u s t : State) : Prop :=
  t.porter.outstanding = u.porter.outstanding ++ [{ pendingOf code c s with wait := w }] ∧
  ButMailbox c.mailbox.val
    { u with rooms := t.rooms, porter := { u.porter with outstanding := t.porter.outstanding } } t ∧
  (c.argLen = 0 → t.rooms = u.rooms)

/-- The state after an output argument has been written into the order's argument room, cut at ARG_LEN (13 R350). -/
def withOutput (c : Cmd) (bs : List Byte) (s : State) : State :=
  if c.mailbox.val < 64 then
    match roomAt s c.argRoom.toNat with
    | some m => wr (m.base.toNat + c.argOffset.toNat) (bs.take c.argLen.toNat) s
    | none => s
  else s

/-- The order answers these bytes; what does not fit its argument is cut, with PARTIAL. -/
def Reads (code : Nat) (c : Cmd) (st : Nat) (bs : List Byte) (s t : State) : Prop :=
  Gives code c { st := if c.argLen.toNat < bs.length && st == stDone then stPartial else st } (withOutput c bs s) s t ∧
  (64 ≤ c.mailbox.val → ∃ e, .mctpCpl c.mailbox.val e (bs.take c.argLen.toNat) ∈ t.outs)

/-- A test is filed with the next request number, and ACCEPTED answers with it (16 R449, R450). -/
def Filed (c : Cmd) (kind target : Nat) (begun : Bool) (s t : State) : Prop :=
  Gives 0x0701 c { st := stAccepted, r0 := s.tests.nextReq }
    { s with tests := { s.tests with
      nextReq := s.tests.nextReq + 1
      reqs := s.tests.reqs ++ [{
        number := s.tests.nextReq, kind := kind, target := target, session := sessionOfMb s c.mailbox.val, filed := false,
        begun := begun, todo := if kind = 0 then [4 * target, 4 * target + 1, 4 * target + 2, 4 * target + 3] else [] }] } } s t

/-- Only one mailbox changes. -/
def OnlyMb (n : Nat) (s t : State) : Prop :=
  t = { s with porter := { s.porter with mailboxes := t.porter.mailboxes } } ∧ ∀ k, k ≠ n → mbAt t k = mbAt s k

/-- The core of a vector command. -/
def vecCore : Instr → Option (Fin 384)
  | .vecNop c _ => some c
  | .vecAdd c _ => some c
  | .vecSub c _ => some c
  | .vecMul c _ => some c
  | .vecFma c _ => some c
  | .vecMax c _ => some c
  | .vecMin c _ => some c
  | .vecAbs c _ => some c
  | .vecCmp c _ => some c
  | .vecSel c _ => some c
  | .vecMask c _ => some c
  | .vecPos c _ => some c
  | .vecRcp c _ => some c
  | .vecRsq c _ => some c
  | .vecExp c _ => some c
  | .vecExp2 c _ => some c
  | .vecLog2 c _ => some c
  | .vecTanh c _ => some c
  | .vecSig c _ => some c
  | .vecDiv c _ => some c
  | .vecSqrt c _ => some c
  | .vecIadd c _ => some c
  | .vecImul c _ => some c
  | .vecShift c _ => some c
  | .vecLogic c _ => some c
  | .vecCvt c _ => some c
  | .vecTsc c _ => some c
  | .vecExpb c _ => some c
  | .vecQnt c _ => some c
  | .vecDqnt c _ => some c
  | .vecShuf c _ => some c
  | .vecPerm c _ => some c
  | .vecPack c _ => some c
  | .vecUnpk c _ => some c
  | .vecRsum c _ => some c
  | .vecRmax c _ => some c
  | .vecRssq c _ => some c
  | .vecLdq c _ => some c
  | .vecLdx c _ => some c
  | .vecStq c _ => some c
  | .vecStx c _ => some c
  | .vecNstat c _ => some c
  | .vecNapp c _ => some c
  | .vecSstat c _ => some c
  | .vecSapp c _ => some c
  | _ => none

/-- The vector commands that store. -/
def isVecStore : Instr → Bool
  | .vecStq _ _ => true
  | .vecStx _ _ => true
  | _ => false

end Sys2Proof.Safety
end

