-- ==== Sys2Proof/Certificates/Slice0/Obligations.lean ====
section
/-! DEFINITION. What the provers are asked: each statement says which rules it follows. -/

open Sys2Proof Sys2Proof.Machine Sys2Proof.Safety

/-- Where the word is the one that the program of the core's checked task gives next, ADD, SUB, MUL, FMA, DIV, SQRT, IADD,
IMUL, SHIFT and LOGIC complete: lane i of D is the operation on lane i of the sources, in FP32, or for TYPE BF16
rounded on to BF16, or on 32-bit integers; a lane is valid where its sources are; the flags of the valid lanes are
ORed into the task's, whose place in the program advances; no other register and no other part of the machine changes.
For a shift by 32 or more the value is the free value of log 23. (R129, R141, 05 Table 5-5) -/
def Obligations.VecArithmeticLaneByLane : Prop :=
  LaneOp2 .vecAdd 0x01 (fp32Word 0) (fun _ => fadd) ∧ LaneOp2 .vecAdd 0x01 (bf16Word 0) (fun _ a b => toBf16 (fadd a b)) ∧
  LaneOp2 .vecSub 0x02 (fp32Word 0) (fun _ => fsub) ∧ LaneOp2 .vecSub 0x02 (bf16Word 0) (fun _ a b => toBf16 (fsub a b)) ∧
  LaneOp2 .vecMul 0x03 (fp32Word 0) (fun _ => fmul) ∧ LaneOp2 .vecMul 0x03 (bf16Word 0) (fun _ a b => toBf16 (fmul a b)) ∧
  LaneOp3 .vecFma 0x04 (fp32Word 0) (fun _ => ffma) ∧ LaneOp3 .vecFma 0x04 (bf16Word 0) (fun _ a b c => toBf16 (ffma a b c)) ∧
  LaneOp2 .vecDiv 0x17 (fp32Word 0) (fun _ => fdiv) ∧ LaneOp2 .vecDiv 0x17 (bf16Word 0) (fun _ a b => toBf16 (fdiv a b)) ∧
  LaneOp1 .vecSqrt 0x18 (fp32Word 0) (fun _ => fsqrt) ∧ LaneOp1 .vecSqrt 0x18 (bf16Word 0) (fun _ a => toBf16 (fsqrt a)) ∧
  LaneOp2 .vecIadd 0x20 (anyWord 0) (fun _ a b => (a + b, 0)) ∧ LaneOp2 .vecImul 0x21 (anyWord 0) (fun _ a b => (a * b, 0)) ∧
  LaneOp2 .vecShift 0x22 (fun w => anyWord 3 w && w.ctl != 3) (fun w a b =>
    (if 32 ≤ b.toNat then Config.vecFree 0x22 [w.ctl.setWidth 32, a, b]
     else if w.ctl = 0 then a <<< b.toNat else if w.ctl = 1 then a >>> b.toNat else a.sshiftRight b.toNat, 0)) ∧
  LaneOp2 .vecLogic 0x23 (fun w => anyWord 3 w && w.ctl != 3) (fun w a b =>
    (if w.ctl = 0 then a &&& b else if w.ctl = 1 then a ||| b else a ^^^ b, 0)) ∧
  LaneOp1 .vecLogic 0x23 (fun w => anyWord 3 w && w.ctl == 3) (fun _ a => (~~~a, 0))

/-- As the word that the program gives next, MAX and MIN return the canonical NaN if either source lane is NaN, order +0.0
above -0.0, and CMP with a NaN source yields +0.0 for every relation but a ≠ b, which yields 1.0, under TYPE FP32 and
BF16; each completes. (R142) -/
def Obligations.VecMaxMinCmpOrder : Prop :=
  ∀ (core : Fin 384) (w : VWord) (s : State) (r : TaskRun),
    (fp32Word 3 w = true ∨ bf16Word 3 w = true) →
    (w.ctl = 0 → issuing s core.val 0x05 w = some r → Completes (.vecMax core w) s (fun t => ∀ (l : Nat) (a b d : Lane),
      (source s core.val r 0 w.sa.toNat)[l]? = some a → (source s core.val r 1 w.sb.toNat)[l]? = some b →
      (vreg t core.val w.d.toNat)[l]? = some d →
      (isNan32 a.val ∨ isNan32 b.val → d.val = 0x7FC00000) ∧
      (a.val = 0 ∧ b.val = 0x80000000 ∨ a.val = 0x80000000 ∧ b.val = 0 → d.val = 0))) ∧
    (w.ctl = 0 → issuing s core.val 0x06 w = some r → Completes (.vecMin core w) s (fun t => ∀ (l : Nat) (a b d : Lane),
      (source s core.val r 0 w.sa.toNat)[l]? = some a → (source s core.val r 1 w.sb.toNat)[l]? = some b →
      (vreg t core.val w.d.toNat)[l]? = some d →
      (isNan32 a.val ∨ isNan32 b.val → d.val = 0x7FC00000) ∧
      (a.val = 0 ∧ b.val = 0x80000000 ∨ a.val = 0x80000000 ∧ b.val = 0 → d.val = 0x80000000))) ∧
    (issuing s core.val 0x08 w = some r → Completes (.vecCmp core w) s (fun t => ∀ (l : Nat) (a b d : Lane),
      (source s core.val r 0 w.sa.toNat)[l]? = some a → (source s core.val r 1 w.sb.toNat)[l]? = some b →
      (vreg t core.val w.d.toNat)[l]? = some d → (isNan32 a.val ∨ isNan32 b.val) →
      d.val = if w.ctl = 3 then 0x3F800000 else 0))

/-- RCP, RSQ, EXP, EXP2, LOG2, TANH, SIG, ABS, MAX, MIN, CMP and TSC complete as the word that the program of the core's
checked task gives next: lane i of D is the function of lane i of its sources, valid where they are; flags are ORed in
and nothing else changes. Which value within 1 ulp the first seven give is free (log 9). (R129, R141, 05 Table 5-5) -/
def Obligations.VecFunctionLanes : Prop :=
  LaneOp1 .vecRcp 0x10 (fp32Word 0) (fun _ => frcp) ∧ LaneOp1 .vecRsq 0x11 (fp32Word 0) (fun _ => frsq) ∧
  LaneOp1 .vecExp 0x12 (fp32Word 0) (fun _ => fexp) ∧ LaneOp1 .vecExp2 0x13 (fp32Word 0) (fun _ => fexp2) ∧
  LaneOp1 .vecLog2 0x14 (fp32Word 0) (fun _ => flog2) ∧ LaneOp1 .vecTanh 0x15 (fp32Word 0) (fun _ => ftanh) ∧
  LaneOp1 .vecSig 0x16 (fp32Word 0) (fun _ => fsig) ∧
  LaneOp1 .vecRcp 0x10 (bf16Word 0) (fun _ a => toBf16 (frcp a)) ∧ LaneOp1 .vecRsq 0x11 (bf16Word 0) (fun _ a => toBf16 (frsq a)) ∧
  LaneOp1 .vecExp 0x12 (bf16Word 0) (fun _ a => toBf16 (fexp a)) ∧ LaneOp1 .vecExp2 0x13 (bf16Word 0) (fun _ a => toBf16 (fexp2 a)) ∧
  LaneOp1 .vecLog2 0x14 (bf16Word 0) (fun _ a => toBf16 (flog2 a)) ∧ LaneOp1 .vecTanh 0x15 (bf16Word 0) (fun _ a => toBf16 (ftanh a)) ∧
  LaneOp1 .vecSig 0x16 (bf16Word 0) (fun _ a => toBf16 (fsig a)) ∧
  LaneOp1 .vecAbs 0x07 (fp32Word 0) (fun _ => fabs) ∧ LaneOp2 .vecMax 0x05 (fp32Word 0) (fun _ => fmax) ∧
  LaneOp2 .vecMin 0x06 (fp32Word 0) (fun _ => fmin) ∧ LaneOp2 .vecCmp 0x08 (fp32Word 3) (fun w => fcmp w.ctl.toNat) ∧
  LaneOp1 .vecTsc 0x29 (fun w => anyWord 15 w && w.ctl.toNat ≤ 0xA) (fun w a => typed w 0x29 [a] (tscOp w.ctl.toNat a))

/-- As the word that the program gives next, each completes and the task goes on to the word after it; a NOP that is not
next changes nothing, and one that is, nothing else. SEL gives a where c is not 0 and else b; MASK gives a with the
lanes where b = 0 made invalid; SHUF gives lane i the lane that its pattern and PARAM name; POS gives each lane its
logical row or column in the task's shape. No other register and no other part of the machine changes. (R129, R143, 05
Table 5-5) -/
def Obligations.VecSelectMaskReorder : Prop :=
  ∀ (core : Fin 384) (w : VWord) (s : State) (r : TaskRun),
    (issuing s core.val 0x00 w = none → Completes (.vecNop core w) s (fun t => t = s)) ∧
    (fp32Word 0 w = true →
      (issuing s core.val 0x00 w = some r → Completes (.vecNop core w) s (fun t => t = setTask_ core.val stepPast s)) ∧
      (issuing s core.val 0x09 w = some r → Completes (.vecSel core w) s (GivesLanes core.val w (stepPast r)
        (((source s core.val r 0 w.sa.toNat).zip ((source s core.val r 1 w.sb.toNat).zip (source s core.val r 2 w.sc.toNat))).map (fun p =>
          let x := if isZero (of32 p.2.2.val) then p.2.1 else p.1
          (⟨x.val, x.valid && p.2.2.valid⟩, 0))) s)) ∧
      (issuing s core.val 0x0A w = some r → Completes (.vecMask core w) s (GivesLanes core.val w (stepPast r)
        (((source s core.val r 0 w.sa.toNat).zip (source s core.val r 1 w.sb.toNat)).map (fun p =>
          (⟨p.1.val, p.1.valid && p.2.valid && !isZero (of32 p.2.val)⟩, 0))) s))) ∧
    (w.type ≠ 3 → shufLegal (fld w.ctl 12 4) (fld w.ctl 0 12) = true → issuing s core.val 0x30 w = some r →
      Completes (.vecShuf core w) s (GivesLanes core.val w (stepPast r)
        ((List.range 1024).map (fun i =>
          let q := shufSource (fld w.ctl 12 4) (fld w.ctl 0 12) i
          (laneAt (if q.1 then source s core.val r 1 w.sb.toNat else source s core.val r 0 w.sa.toNat).toArray q.2, 0))) s)) ∧
    (anyWord 1 w = true → issuing s core.val 0x0B w = some r →
      Completes (.vecPos core w) s (fun t => OnlyRegs core.val [w.d.toNat] (stepPast r) 0 s t ∧
        ∀ l, l < 1024 → (vreg t core.val w.d.toNat)[l]? =
          some ⟨BitVec.ofNat 32 (if w.ctl = 0
            then (lanePos r.geom.toNat (isProduct r) (taskShape r.desc) (r.taken - 1) l).2.1
            else (lanePos r.geom.toNat (isProduct r) (taskShape r.desc) (r.taken - 1) l).2.2), true⟩))

/-- As the word that the program gives next PERM completes and sets lane i of D to lane b[i] mod 1,024 of a, for every
index, also one beyond 1,023; it raises no error: the task's flags and every other part of the machine stay as they
were. (R144) -/
def Obligations.VecPermTakesIndexedLane : Prop :=
  ∀ (core : Fin 384) (w : VWord) (s : State) (r : TaskRun), issuing s core.val 0x31 w = some r → anyWord 0 w = true →
    (source s core.val r 0 w.sa.toNat).length = 1024 →
    Completes (.vecPerm core w) s (fun t => OnlyRegs core.val [w.d.toNat] (stepPast r) 0 s t ∧
      ∀ (l : Nat) (b a : Lane), (source s core.val r 1 w.sb.toNat)[l]? = some b →
        (source s core.val r 0 w.sa.toNat)[b.val.toNat % 1024]? = some a →
        (vreg t core.val w.d.toNat)[l]? = some ⟨a.val, a.valid && b.valid⟩)

/-- CVT, EXPB, QNT, DQNT, PACK and UNPK complete as the word that the program of the core's checked task gives next: CVT
gives each lane its value in TYPE under the task's numeric control, EXPB the block exponent and QNT the element code
under the auxiliary output named, DQNT the value of a code, PACK n narrowed elements to a lane, UNPK n widened
elements from each. Apart from the event of a clamped exponent nothing but the registers named, the task's flags and
its place in the program changes. (R64, R70, R71, R145, 05 Table 5-5) -/
def Obligations.VecConversionLanes : Prop :=
  (∀ (core : Fin 384) (w : VWord) (s : State) (r : TaskRun),
    (anyWord 3 w = true → w.ctl ≠ 3 → issuing s core.val 0x28 w = some r →
      Completes (.vecCvt core w) s (GivesLanes core.val w (stepPast r)
        ((source s core.val r 0 w.sa.toNat).zipIdx.map (fun p =>
          let d := drawOfTask s r
          let v := cvtOp w.ctl.toNat w.type.toNat (dNumctlO r.desc) (rndAt (dNumctlO r.desc) d
            (laneIndex r d.at_ (drawShape r) (tagOf s core.val w.sa.toNat r) p.2)) p.1.val
          (⟨v.1, p.1.valid⟩, v.2))) s)) ∧
    (∀ x, anyWord 7 w = true → auxOut s r.desc w.ctl.toNat = some x →
      (issuing s core.val 0x2A w = some r → Completes (.vecExpb core w) s (fun t => vreg t core.val w.d.toNat =
          ((source s core.val r 0 w.sa.toNat).zip (source s core.val r 1 w.sb.toNat)).map (fun p =>
            ⟨(expbOp (sFmt x) (ncRule (dAuxNumctl r.desc w.ctl.toNat)) p.1.val p.2.val).1.1, p.1.valid && p.2.valid⟩) ∧
        t.mem = s.mem ∧ t.rooms = s.rooms ∧ ∀ q, q ≠ w.d.toNat → vreg t core.val q = vreg s core.val q)) ∧
      (issuing s core.val 0x2B w = some r → Completes (.vecQnt core w) s (GivesLanes core.val w (stepPast r)
        (((source s core.val r 0 w.sa.toNat).zip ((source s core.val r 1 w.sb.toNat).zip (source s core.val r 2 w.sc.toNat))).zipIdx.map (fun p =>
          let nc := dAuxNumctl r.desc w.ctl.toNat
          let d := drawOf s r x
          let v := qntOp (sFmt x) nc (rndAt nc d (laneIndex r d.at_ (shapeOf x) (tagOf s core.val w.sa.toNat r) p.2))
            p.1.1.val p.1.2.1.val p.1.2.2.val
          (⟨v.1, p.1.1.valid && p.1.2.1.valid && p.1.2.2.valid⟩, v.2))) s))) ∧
    (anyWord 0x7FF w = true → fld w.ctl 8 2 ≠ 3 → packLegal w w.sa.toNat = true → issuing s core.val 0x32 w = some r →
      Completes (.vecPack core w) s (fun t => OnlyCore core.val s t ∧
        vreg t core.val w.d.toNat = (pieces (nOf w) ((List.range (nOf w)).flatMap (fun k =>
          (source s core.val r 0 (w.sa.toNat + k)).zipIdx.map (fun p =>
            let d := drawOfTask s r
            ((narrow (fld w.ctl 4 4) (w.ctl.getLsbD 10)
              (rndAt (fld w.ctl 8 2) d (laneIndex r d.at_ (drawShape r) (tagOf s core.val (w.sa.toNat + k) r) p.2))
              (of32 p.1.val)).pat, p.1.valid))))).map (packLane (32 / nOf w)) ∧
        ∀ q, q ≠ w.d.toNat → vreg t core.val q = vreg s core.val q)) ∧
    (anyWord 0xFF w = true → packLegal w w.d.toNat = true → (source s core.val r 0 w.sa.toNat).length = 1024 →
      issuing s core.val 0x33 w = some r →
      Completes (.vecUnpk core w) s (fun t => OnlyCore core.val s t ∧
        (∀ k, k < nOf w → vreg t core.val (w.d.toNat + k) =
          (((source s core.val r 0 w.sa.toNat).flatMap (fun a => (List.range (nOf w)).map (fun j =>
            (⟨(widenElem (fld w.ctl 4 4) (a.val.toNat / 2 ^ (32 / nOf w * j) % 2 ^ (32 / nOf w))).1, a.valid⟩ : Lane)))).drop
              (1024 * k)).take 1024) ∧
        ∀ q, q < w.d.toNat ∨ w.d.toNat + nOf w ≤ q → vreg t core.val q = vreg s core.val q))) ∧
  LaneOp3 .vecDqnt 0x2C (fun w => anyWord 15 w && w.ctl.toNat ≤ 0xA) (fun w a b c => typed w 0x2C [a, b, c] (dqntOp w.ctl.toNat a b c))

/-- As the word that the program gives next RSUM, RMAX and RSSQ under TYPE FP32 complete: with CTL[4] = 0 every lane of an
aligned segment of 2^s lanes holds the tree result over the valid lanes of that segment, with CTL[4] = 1 every lane of
a TILE column that of the column's 8 rows; every lane of D is valid and no other register changes. (R146) -/
def Obligations.VecReductionsFillSegments : Prop :=
  ∀ (core : Fin 384) (w : VWord) (s : State) (r : TaskRun) (kind op : Nat) (mk : Fin 384 → VWord → Instr),
    issuing s core.val op w = some r → (source s core.val r 0 w.sa.toNat).length = 1024 → fp32Word 31 w = true →
    (kind, op, mk) ∈ [(0, 0x38, Instr.vecRsum), (1, 0x39, Instr.vecRmax), (2, 0x3A, Instr.vecRssq)] →
    (∀ sz, sz ∈ [5, 7, 10] → w.ctl = BitVec.ofNat 16 sz →
      Completes (mk core w) s (fun t => OnlyCore core.val s t ∧
        (∀ q, q ≠ w.d.toNat → vreg t core.val q = vreg s core.val q) ∧
        ∀ l, l < 1024 → (vreg t core.val w.d.toNat)[l]? =
          some ⟨(reduceOf kind (((source s core.val r 0 w.sa.toNat).drop (l / 2 ^ sz * 2 ^ sz)).take (2 ^ sz))).1, true⟩)) ∧
    (w.ctl = 0x10 →
      Completes (mk core w) s (fun t => OnlyCore core.val s t ∧
        (∀ q, q ≠ w.d.toNat → vreg t core.val q = vreg s core.val q) ∧
        ∀ l, l < 1024 → (vreg t core.val w.d.toNat)[l]? =
          some ⟨(reduceOf kind ((List.range 8).map (fun k => laneAt (source s core.val r 0 w.sa.toNat).toArray (128 * k + l % 128)))).1, true⟩))

/-- With epsilon or the scale broadcast in SB, NSTAT writes the mean and the factor, SSTAT the maximum and the reciprocal
sum of the row in SA to SA + n - 1, to every lane of D and D + 1; NAPP and SAPP apply them lane by lane, an invalid
lane giving +0.0; results are in the word's TYPE. All four complete as the word that the program gives next; only the
registers named, the task's flags and its place in the program change. (R147, R148) -/
def Obligations.VecFusedKernels : Prop :=
  ∀ (core : Fin 384) (w : VWord) (s : State) (r : TaskRun),
    (∀ e, anyWord 31 w = true → w.sa.toNat + nOf w ≤ 32 → w.d.toNat ≤ 30 → issuing s core.val 0x50 w = some r →
      source s core.val r 1 w.sb.toNat = List.replicate 1024 ⟨e, true⟩ →
      Completes (.vecNstat core w) s (fun t =>
        let q := nstatOf (w.ctl.getLsbD 4) (regsFrom s core.val r w.sa.toNat (nOf w)) e
        let a := typed w 0x50 [q.1.1] (q.1.1, 0)
        let b := typed w 0x50 [q.2.1] (q.2.1, 0)
        OnlyRegs core.val [w.d.toNat, w.d.toNat + 1] (stepPast r) (q.1.2 ||| q.2.2 ||| a.2 ||| b.2) s t ∧
        vreg t core.val w.d.toNat = List.replicate 1024 ⟨a.1, true⟩ ∧
        vreg t core.val (w.d.toNat + 1) = List.replicate 1024 ⟨b.1, true⟩)) ∧
    (∀ k, anyWord 15 w = true → w.sa.toNat + nOf w ≤ 32 → w.d.toNat ≤ 30 → issuing s core.val 0x52 w = some r →
      source s core.val r 1 w.sb.toNat = List.replicate 1024 ⟨k, true⟩ →
      Completes (.vecSstat core w) s (fun t =>
        let q := sstatOf (regsFrom s core.val r w.sa.toNat (nOf w)) k
        let a := typed w 0x52 [q.1.1] (q.1.1, 0)
        let b := typed w 0x52 [q.2.1] (q.2.1, 0)
        OnlyRegs core.val [w.d.toNat, w.d.toNat + 1] (stepPast r) (q.1.2 ||| q.2.2 ||| a.2 ||| b.2) s t ∧
        vreg t core.val w.d.toNat = List.replicate 1024 ⟨a.1, true⟩ ∧
        vreg t core.val (w.d.toNat + 1) = List.replicate 1024 ⟨b.1, true⟩)) ∧
    (anyWord 0 w = true → w.sb.toNat ≤ 30 → w.sc.toNat ≤ 30 → issuing s core.val 0x51 w = some r →
      Completes (.vecNapp core w) s (GivesLanes core.val w (stepPast r)
        (((source s core.val r 0 w.sa.toNat).zip ((source s core.val r 1 w.sb.toNat).zip ((source s core.val r 1 (w.sb.toNat + 1)).zip
          ((source s core.val r 2 w.sc.toNat).zip (source s core.val r 2 (w.sc.toNat + 1)))))).map (fun p =>
            typedLane w 0x51 (nappLane p.1 p.2.1 p.2.2.1 p.2.2.2.1 p.2.2.2.2))) s)) ∧
    (anyWord 0 w = true → w.sb.toNat ≤ 30 → issuing s core.val 0x53 w = some r →
      Completes (.vecSapp core w) s (GivesLanes core.val w (stepPast r)
        (((source s core.val r 0 w.sa.toNat).zip ((source s core.val r 1 w.sb.toNat).zip ((source s core.val r 1 (w.sb.toNat + 1)).zip
          (source s core.val r 2 w.sc.toNat)))).map (fun p => typedLane w 0x53 (sappLane p.1 p.2.1 p.2.2.1 p.2.2.2))) s))

/-- As the word that the program gives next and with no crossing to its streams shut, LDQ places the next Q2 entry in D,
or with CTL[0] = 1 in D + j, j being its index within its row, and counts it as taken; a product's entry fills the
accumulator bank that it drains; once the task's entries are used up, every lane is an invalid +0.0. LDX places the
next chunk of an auxiliary input in D, widened or RAW as CTL says, and advances that stream's cursor. Memory, rooms
and every other register stay as they were. (R129, R131, R132, R137, 05 Table 5-5) -/
def Obligations.VecLoadsTakeNextChunk : Prop :=
  ∀ (core : Fin 384) (w : VWord) (s : State) (r : TaskRun),
    (∀ j, anyWord 1 w = true → j = (if w.ctl = 1 then r.taken % entriesPerRow r else 0) → w.d.toNat + j ≤ 31 →
      issuing s core.val 0x40 w = some r → (∀ x ∈ entryStreams r.desc, streamShut s core.val x = false) →
      Completes (.vecLdq core w) s (fun t =>
        let e := entryOf s r.desc ((coreAt s core.val).held.getD []) r.geom.toNat r.taken
        let more := r.taken < entriesOf r.desc r.geom.toNat
        (more → vreg t core.val (w.d.toNat + j) = e.1 ∧
          OnlyRegs core.val [w.d.toNat + j] { stepPast r with taken := r.taken + 1 } e.2 (fillBank core.val r.taken r s) t) ∧
        (¬ more → vreg t core.val (w.d.toNat + j) = List.replicate 1024 ⟨0, false⟩ ∧
          OnlyRegs core.val [w.d.toNat + j] { stepPast r with taken := r.taken + 1 } 0 s t))) ∧
    (∀ x, anyWord 7 w = true → (w.ctl.toNat % 4 < 2 ∨ (w.ctl.toNat % 4 = 2 ∧ r.geom = 2)) → w.aux.toNat < 6 →
      auxIn s r.desc w.aux.toNat = some x → issuing s core.val 0x41 w = some r → streamShut s core.val x = false →
      Completes (.vecLdx core w) s (fun t =>
        let n := r.cursors.getD w.aux.toNat 0
        let e := loadChunk s r.geom.toNat (isProduct r) (taskShape r.desc) x (w.ctl.toNat % 4) (w.ctl.getLsbD 2) n
        vreg t core.val w.d.toNat = e.1 ∧
        OnlyRegs core.val [w.d.toNat] { stepPast r with cursors := lset r.cursors w.aux.toNat (n + 1) } e.2 s t))

/-- As the word that the program gives next, from a section that writes the stream, with no crossing shut and no snapshot
under way, STQ and STX complete in every form, RAW and block-scaled ones too: the stream's cursor advances by one, and
no room or register changes, and no event is raised where every task room stands handed over. In the unscaled forms
without RAW a byte of memory changes only if an element of that chunk inside the stream's extents lies on it. (R129,
R150) -/
def Obligations.VecStoresWriteOnlyTheirElements : Prop :=
  ∀ (core : Fin 384) (w : VWord) (s : State) (r : TaskRun), anyWord 4 w = true → s.snap = none →
    (sUsed (dStream r.desc 3) = true → writtenHere r (dStream r.desc 3) = true → issuing s core.val 0x42 w = some r →
      streamShut s core.val (dStream r.desc 3) = false →
      Completes (.vecStq core w) s (fun t =>
        (vectorTask t core.val).map (fun q => q.ocursor) = some (r.ocursor + 1) ∧
        t.rooms = s.rooms ∧ ((∀ p ∈ s.rooms, p.2.cls = 7 → p.2.engines = true) → t.log = s.log) ∧
        (∀ q, vreg t core.val q = vreg s core.val q) ∧
        (w.ctl = 0 → ∀ a, (∀ l, l < 1024 → ¬ onElement (dStream r.desc 3)
            (outPos r.geom.toNat (isProduct r) (shapeOf (dStream r.desc 3)) r.ocursor l) a) →
          cellsGet t.mem.cells a = cellsGet s.mem.cells a))) ∧
    (∀ x, w.aux.toNat < 6 → auxOut s r.desc w.aux.toNat = some x → writtenHere r x = true →
      issuing s core.val 0x43 w = some r → streamShut s core.val x = false →
      Completes (.vecStx core w) s (fun t =>
        (vectorTask t core.val).map (fun q => q.cursors) =
          some (lset r.cursors w.aux.toNat (r.cursors.getD w.aux.toNat 0 + 1)) ∧
        t.rooms = s.rooms ∧ ((∀ p ∈ s.rooms, p.2.cls = 7 → p.2.engines = true) → t.log = s.log) ∧
        (∀ q, vreg t core.val q = vreg s core.val q) ∧
        (w.ctl = 0 → ncAxes (dAuxNumctl r.desc w.aux.toNat) = 0 → ∀ a, (∀ l, l < 1024 → ¬ onElement x
            (outPos r.geom.toNat (isProduct r) (shapeOf x) (r.cursors.getD w.aux.toNat 0) l) a) →
          cellsGet t.mem.cells a = cellsGet s.mem.cells a)))

/-- Every one of the 43 vector commands answers a next state in which every core but its own, every room but for the pins
of a snapshot's versions, every mailbox, session, limit, parameter and reduction is as before; memory changes only by
STQ and STX; on a core that runs no checked task nothing changes at all. (R125, R129, R138, 05 Table 5-5) -/
def Obligations.VecFrame : Prop :=
  ∀ (i : Instr) (core : Fin 384) (s : State), vecCore i = some core →
    Completes i s (fun t =>
      (vectorTask s core.val = none → t = s) ∧
      (∀ k, k ≠ core.val → coreAt t k = coreAt s k) ∧
      (isVecStore i = false → t.mem = s.mem ∧ t.rooms = s.rooms ∧ t.snap = s.snap) ∧
      t.pace = s.pace ∧ t.crossings = s.crossings ∧ t.channels = s.channels ∧ t.gov = s.gov ∧ t.sec = s.sec ∧
      t.fab = s.fab ∧ t.red = s.red ∧ t.exch = s.exch ∧ t.params = s.params ∧ t.lodge = s.lodge ∧ t.tests = s.tests ∧
      t.porter.mailboxes = s.porter.mailboxes ∧ t.porter.sessions = s.porter.sessions ∧ t.pending = s.pending)

/-- LOW_SUPPLY_HALT of a running domain halts its pacer, adds 1 to its saturating halt count and raises event 0x1001.
PACER_RESTART of a powered halted domain ends the halt, advances the alive counter by one Gray step, which the
crossings that it feeds see, and raises event 0x1002. ALIVE_TICK of a running domain adds 64 beats and advances the
alive counter. No other domain's words change, and nothing else but the log. (R28, R35, R39, 16 Table 16-3) -/
def Obligations.PacersHaltRestartTick : Prop :=
  ∀ (d : Fin 64) (s : State),
    (domainRuns s d.val = true → Completes (.lowSupplyHalt d) s (fun t =>
      OnlyEvent 0x1001 data d.val [] { s with pace := t.pace } t ∧ (∀ k, k ≠ d.val → paceAt t k = paceAt s k) ∧
      paceAt t d.val = { paceAt s d.val with halted := true, haltCnt := satAdd (paceAt s d.val).haltCnt 1 })) ∧
    ((paceAt s d.val).gated = false → (paceAt s d.val).halted = true → Completes (.pacerRestart d) s (fun t =>
      OnlyEvent 0x1002 data d.val [] { s with pace := t.pace, crossings := t.crossings } t ∧
      (∀ k, k ≠ d.val → paceAt t k = paceAt s k) ∧
      paceAt t d.val = { paceAt s d.val with halted := false, alive := grayNext (paceAt s d.val).alive } ∧
      ∀ x : Xing, x.send = d → tfind? s.crossings (xKey x) ≠ none → (crossing t x).moved = true)) ∧
    (domainRuns s d.val = true → Completes (.aliveTick d) s (fun t =>
      t = { s with pace := t.pace, crossings := t.crossings } ∧ (∀ k, k ≠ d.val → paceAt t k = paceAt s k) ∧
      paceAt t d.val = { paceAt s d.val with beats := (paceAt s d.val).beats + 64, alive := grayNext (paceAt s d.val).alive }))

/-- A crossing whose running receiver has seen no alive change is marked stale if no request waits; if requests wait it is
fenced, XTO_CNT of the receiver grows by one (saturating), event 0x1003 is logged, and the running task of every core
that waits ends with XTIMEOUT unless a cause already stands; a copy of a DMA engine that waits ends its command (log
125). Once the sender has moved, CROSSING_REARM makes the crossing normal again; the timer's row raises the due event
0x1004 once; a late response is discarded and counted. Memory and supplies stay as they were, and where no DMA engine
waits rooms and mailboxes too. (R36, R37, R38, 16 Table 16-3) -/
def Obligations.CrossingFencesAndRearms : Prop :=
  ∀ (x : Xing) (s : State),
    (domainRuns s x.recv.val = true → (paceAt s x.send.val).xgated = false → (crossing s x).mark = .normal →
      Completes (.crossingTimeout x []) s (fun t =>
        t = { s with crossings := t.crossings } ∧ (crossing t x).mark = .stale ∧ (crossing t x).moved = false) ∧
      ∀ waiting, waiting ≠ [] → Completes (.crossingTimeout x waiting) s (fun t =>
        (crossing t x).mark = .fenced ∧ (crossing t x).moved = false ∧
        (paceAt t x.recv.val).xtoCnt = satAdd (paceAt s x.recv.val).xtoCnt 1 ∧
        Logged 0x1003 [a2 x.recv.val, a2 x.send.val, a2 x.kind.val, a2 waiting.length] s t ∧
        (∀ g c r, (g, .task c false) ∈ waiting → (coreAt s c.val).running = some r →
          (coreAt t c.val).running.map (fun q => q.ended) = some (some (r.ended.getD ccXtimeout))) ∧
        t.mem = s.mem ∧ t.power.domains = s.power.domains ∧
        ((∀ g f, (g, .dma f) ∉ waiting) → t.rooms = s.rooms ∧ t.porter.mailboxes = s.porter.mailboxes))) ∧
    ((crossing s x).mark ≠ .normal → (crossing s x).moved = true → Completes (.crossingRearm x) s (fun t =>
      t = { s with crossings := t.crossings } ∧ (crossing t x).mark = .normal ∧
      (crossing t x).rearmDue = ((crossing s x).rearmDue || (crossing s x).mark == .fenced))) ∧
    ((crossing s x).rearmDue = true → Completes (.rearmEventTimer x) s (fun t =>
      OnlyEvent 0x1004 data x.recv.val [a2 x.recv.val, a2 x.send.val, a2 (crossing s x).discards]
        { s with crossings := t.crossings } t ∧ (crossing t x).rearmDue = false ∧ (crossing t x).discards = 0)) ∧
    (∀ tag, tag ∈ (crossing s x).failed → Completes (.lateResponseDiscard x tag) s (fun t =>
      t = { s with crossings := t.crossings, pace := t.pace } ∧
      (paceAt t x.recv.val).discCnt = satAdd (paceAt s x.recv.val).discCnt 1 ∧
      (crossing t x).failed = (crossing s x).failed.erase tag))

/-- DOMAIN_DRAIN_END of a draining domain ends the drain and marks the domain's crossings gated. When that was the last
layer of a tower that an order is gating with ON 0, TLn is off afterwards, the tower is no longer under way, and event
0x6003 is logged with the tower and ON. (R39, R390, 14 Table 14-7) -/
def Obligations.DrainEndGatesCrossings : Prop :=
  ∀ (d : Fin 64) (s : State), (paceAt s d.val).draining = true →
    Completes (.domainDrainEnd d) s (fun t =>
      (paceAt t d.val).draining = false ∧ (paceAt t d.val).xgated = true ∧
      (d.val < 24 → (∀ l, l ∈ logicLayers (d.val / 3) → l ≠ d.val → (paceAt s l).xgated = true) →
        tfind? s.power.gating (d.val / 3) = some 0 →
        supplyAt t (d.val / 3) = .off ∧ tfind? t.power.gating (d.val / 3) = none ∧
        Logged 0x6003 [a2 (d.val / 3), a2 0] s t))

/-- In a group in use a first parity error is counted and a second one starts the group's bond test. A bond test that
finds one failing bond in a group with a spare uses the spare and raises event 0x2101 with the channel's state
unchanged. A command-lane bond that fails in one copy of the upward or the downward lane is outvoted and recorded; the
same bit failing in a second copy of that lane retires the core, a borrower too, with event 0x2104. (R42, R43, R45, 02
Table 2-8) -/
def Obligations.ChannelRepairLadder : Prop :=
  ∀ (core : Fin 384) (s : State),
    (∀ g : Fin 64, groupInUse (chanState s core.val) g.val = true →
      Completes (.channelParityError core g false) s (fun t =>
        t = { s with channels := t.channels } ∧ (chan t core.val).transients = (chan s core.val).transients + 1 ∧
        ∀ k, k ≠ core.val → chan t k = chan s k) ∧
      Completes (.channelParityError core g true) s (fun t =>
        t = { s with channels := t.channels } ∧ (tget (chan t core.val).groups g.val .reset).testing = true ∧
        ∀ k, k ≠ core.val → chan t k = chan s k) ∧
      (sparesLeft core.val g.val (chan s core.val) ≠ 0 → halfFailed (chan s core.val) 0 = false →
        halfFailed (chan s core.val) 1 = false → Completes (.bondTestDone core [g] []) s (fun t =>
          OnlyEvent 0x2101 data (coreDie core.val) [a2 core.val, a2 (chanState s core.val)] { s with channels := t.channels } t ∧
          chanState t core.val = chanState s core.val ∧
          (tget (chan t core.val).groups g.val .reset).used = (tget (chan s core.val).groups g.val .reset).used + 1))) ∧
    (∀ (up : Bool) (copy : Fin 3) (bit : Nat), chanState s core.val ≠ 5 →
      ((chan s core.val).laneFails.all (fun f => f.1 != up || f.2.1 == copy || f.2.2 != bit) = true →
        Completes (.commandLaneBondFail core ⟨up, copy⟩ bit) s (fun t =>
          t = { s with channels := t.channels } ∧ (up, copy, bit) ∈ (chan t core.val).laneFails ∧
          chanState t core.val = chanState s core.val)) ∧
      (∀ other, other ≠ copy → (up, other, bit) ∈ (chan s core.val).laneFails →
        Completes (.commandLaneBondFail core ⟨up, copy⟩ bit) s (fun t =>
          chanState t core.val = 5 ∧ Logged 0x2104 [a2 core.val, a2 5] s t)))

/-- While Keeper is alive a first under-voltage marks the input low and raises event 0x6001 with the millivolts; an over-
voltage raises 0x6002; the first failure of a converter is recorded and raises 0x6007; nothing else changes. The end
of an under-voltage only clears its mark. A collapse of the input switches everything off: no domain is powered,
memory and Porter's state are lost, while the pins, the FRU record, the fused counters and owner keys, the waiting
commands and what was sent stay. (R380, R381, 14 Table 14-2, 16 Table 16-2) -/
def Obligations.InputSupplyEvents : Prop :=
  ∀ (mv : W16) (n : Fin 4) (s : State),
    (keeperAlive s = true → s.power.phase ≠ .off → s.power.inputLow = false → Completes (.inputUndervoltage mv) s
      (OnlyEvent 0x6001 mgmt dieControl [a2 mv.toNat] { s with power := { s.power with inputLow := true } })) ∧
    Completes .inputUndervoltageClear s (fun t => t = { s with power := { s.power with inputLow := false } }) ∧
    (keeperAlive s = true → Completes (.inputOvervoltage mv) s (OnlyEvent 0x6002 mgmt dieControl [a2 mv.toNat] s)) ∧
    (keeperAlive s = true → s.power.phase ≠ .off → n ∉ s.power.convertersFailed → Completes (.converterFail n) s
      (OnlyEvent 0x6007 mgmt dieControl [a2 n.val]
        { s with power := { s.power with convertersFailed := s.power.convertersFailed ++ [n] } })) ∧
    Completes .inputSupplyCollapse s (fun t =>
      t.power.phase = .off ∧ t.power.domains = [] ∧ t.pace = [] ∧ t.mem = .reset ∧ t.porter = .reset ∧ t.log = .reset ∧
      t.rooms = [] ∧ t.power.pwrEn = s.power.pwrEn ∧ t.power.modRst = s.power.modRst ∧
      t.power.fruRecord = s.power.fruRecord ∧ t.power.fruStorRole = s.power.fruStorRole ∧
      t.sec.counters = s.sec.counters ∧ t.sec.ownerKeys = s.sec.ownerKeys ∧ t.pending = s.pending ∧ t.outs = s.outs)

/-- PWR_EN on an unpowered module ramps CTL. With the module READY, the end of PWR_EN or the start of MOD_RST_N begins the
orderly power-down with CAUSE 1 or 2: READY falls, the open step, a snapshot and every DMA transfer end, every drive
in use is flushed, and event 0x6005 is logged. Its stages switch off the towers with the loss of their ponds, then the
base domains with all memory; the last writes the FRU record and the module is off or in the boot ROM, or asks for the
controller role where it has a management address. A granted role writes the record and ends the power-down; one not
granted ends it without the record. The end of MOD_RST_N starts the boot ROM of a held module. PERST_N, its end, a
Function Level Reset and a hot reset of STOR complete in every state: the pin follows, and where the function is
present its DMA transfers are gone, its sessions have ended, and PERST_N and the hot reset have taken its link down.
(R330, R335, R380, R382, R397, R398, R399, R500, 14 Table 14-9, 14 Table 14-10) -/
def Obligations.PowerPinsAndPowerDown : Prop :=
  ∀ (s : State),
    (s.power.pwrEn = false → s.power.phase = .off → supplyAt s 26 = .off → Completes .pwrEnAssert s (fun t =>
      t = { s with power := { s.power with pwrEn := true, phase := .ramp, domains := tset s.power.domains 26 (.ramping 1) } })) ∧
    (s.power.phase = .ready → s.power.pwrEn = true → Completes .pwrEnDeassert s (fun t =>
      t.power.pwrEn = false ∧ t.power.phase = .down 0 ∧ t.power.downCause = 1 ∧ t.porter.ready = false ∧ t.steps.job = none ∧
      t.snap = none ∧ t.ports.dmas = [] ∧ Logged 0x6005 [a2 1] s t ∧ ∀ d, d ∈ drivesUsed s → .driveCmd d "Flush" 0 ∈ t.outs)) ∧
    (s.power.phase = .ready → s.power.modRst = false → Completes .modRstNAssert s (fun t =>
      t.power.modRst = true ∧ t.power.phase = .down 0 ∧ t.power.downCause = 2 ∧ t.porter.ready = false ∧ t.steps.job = none ∧
      t.snap = none ∧ t.ports.dmas = [] ∧ Logged 0x6005 [a2 2] s t ∧ ∀ d, d ∈ drivesUsed s → .driveCmd d "Flush" 0 ∈ t.outs)) ∧
    (s.power.phase = .down 0 → Completes .powerDownStageAdvance s (fun t =>
      t = { s with power := t.power, pace := t.pace, cores := t.cores, mem := t.mem, ports := { s.ports with flushing := false } } ∧
      t.power.phase = .down 1 ∧ (∀ d, d < 16 → supplyAt t d = .off) ∧
      ∀ a, regionOf a = .pond → cellsGet t.mem.cells a = 0)) ∧
    (s.power.phase = .down 1 → Completes .powerDownStageAdvance s (fun t =>
      t = { s with power := t.power, pace := t.pace, mem := .reset } ∧ t.power.phase = .down 2 ∧
      ∀ d, 16 ≤ d → d < 26 → supplyAt t d = .off)) ∧
    (s.power.phase = .down 2 → s.power.i3cAddr = none → Completes .powerDownStageAdvance s (fun t =>
      .fruWrite (powerDownRecord s) ∈ t.outs ∧ t.power.fruRecord = powerDownRecord s ∧ t.mem = .reset ∧ t.porter = .reset ∧
      t.power.phase = if s.power.pwrEn then (if s.power.modRst then .held else .bootRom) else .off)) ∧
    (s.power.phase = .down 2 → s.power.i3cAddr ≠ none → s.power.roleGranted = false →
      Completes .powerDownStageAdvance s (fun t =>
        t = { s with power := { s.power with phase := .down 3, roleRequested := true } })) ∧
    (s.power.roleRequested = true → s.power.phase ≠ .down 3 → Completes .controllerRoleGrant s (fun t =>
      t = { s with power := { s.power with roleRequested := false, roleGranted := true } })) ∧
    (s.power.roleRequested = true → s.power.phase = .down 3 → Completes .controllerRoleGrant s (fun t =>
      .fruWrite (powerDownRecord s) ∈ t.outs ∧ t.power.fruRecord = powerDownRecord s ∧
      t.power.phase = if s.power.pwrEn then (if s.power.modRst then .held else .bootRom) else .off)) ∧
    (s.power.roleRequested = true → s.power.phase = .down 3 → Completes .controllerRoleGrantTimeout s (fun t =>
      t.outs = s.outs ∧ t.power.fruRecord = s.power.fruRecord ∧
      t.power.phase = if s.power.pwrEn then (if s.power.modRst then .held else .bootRom) else .off)) ∧
    (s.power.phase = .held → Completes .modRstNDeassert s (fun t =>
      t.power.modRst = false ∧ t.power.phase = .bootRom ∧ t.mem = .reset ∧ t.porter = .reset ∧
      inReg t 26 = true ∧ inReg t 27 = true)) ∧
    (s.power.phase ≠ .held → Completes .modRstNDeassert s (fun t =>
      t = { s with power := { s.power with modRst := false } })) ∧
    (∀ addr, inReg s 26 = true → Completes (.dynamicAddressAssign addr) s (fun t =>
      t = { s with power := { s.power with i3cAddr := some addr } })) ∧
    Completes .perstNAssert s (fun t => t.power.perst = true ∧ (inReg s 24 = true → t.ports.hostLink = 0 ∧
      (∀ d ∈ t.ports.dmas, d.1 = .stor) ∧ ∀ x ∈ t.porter.sessions, x.1 < 65536 → x.2.fn = .stor)) ∧
    Completes .perstNDeassert s (fun t => t = { s with power := { s.power with perst := false } }) ∧
    (∀ f, Completes (.functionLevelReset f) s (fun t => t.power.perst = s.power.perst ∧ t.ports.hostLink = s.ports.hostLink ∧
      t.ports.storLink = s.ports.storLink ∧
      ((f = .host ∧ inReg s 24 = true ∨ f = .stor ∧ inReg s 25 = true ∧ s.ports.storRole = 2) →
        (∀ d ∈ t.ports.dmas, d.1 ≠ f) ∧ ∀ x ∈ t.porter.sessions, x.1 < 65536 → x.2.fn ≠ f))) ∧
    Completes .storHotReset s (fun t => t.power.perst = s.power.perst ∧ t.ports.hostLink = s.ports.hostLink ∧
      (inReg s 25 = true → s.ports.storRole = 2 → t.ports.storLink = 0 ∧
        (∀ d ∈ t.ports.dmas, d.1 = .host) ∧ ∀ x ∈ t.porter.sessions, x.1 < 65536 → x.2.fn = .host))

/-- PERST_N of the powered HOST port, a Function Level Reset of a function that the module presents, and a hot reset of
STOR as an endpoint each complete: every session opened through the function ends and those through the other function
continue, every DMA transfer of it stops, its registers read as after reset and the other function's stay; PERST_N and
the hot reset also take the link down; no supply changes and no step boundary passes. Of a function that is not
presented a reset changes nothing, and PERST_N of an unpowered port changes the pin alone, as its end does. (R330,
R335, R342, 14 Table 14-8) -/
def Obligations.PortFunctionResets : Prop :=
  ∀ (s : State), s.porter.sessions.Pairwise (fun a b => a.1 ≠ b.1) → (∀ x ∈ s.porter.sessions, x.1 < 65536) →
    (inReg s 24 = true → Completes .perstNAssert s (fun t =>
      t.power.perst = true ∧ t.ports.hostLink = 0 ∧ t.ports.storLink = s.ports.storLink ∧
      (∀ x, x ∈ t.porter.sessions ↔ x ∈ s.porter.sessions ∧ x.2.fn = .stor) ∧ (∀ d ∈ t.ports.dmas, d.1 = .stor) ∧
      (∀ r, r ∈ t.ports.regs ↔ r ∈ s.ports.regs ∧ r.1 / 2 ^ 32 ≠ 0) ∧
      t.power.domains = s.power.domains ∧ t.steps.lastBoundary = s.steps.lastBoundary)) ∧
    (inReg s 24 = false → Completes .perstNAssert s (fun t => t = { s with power := { s.power with perst := true } })) ∧
    Completes .perstNDeassert s (fun t => t = { s with power := { s.power with perst := false } }) ∧
    (inReg s 24 = true → Completes (.functionLevelReset .host) s (fun t =>
      t.ports.hostLink = s.ports.hostLink ∧ t.ports.storLink = s.ports.storLink ∧
      (∀ x, x ∈ t.porter.sessions ↔ x ∈ s.porter.sessions ∧ x.2.fn = .stor) ∧ (∀ d ∈ t.ports.dmas, d.1 = .stor) ∧
      (∀ r, r ∈ t.ports.regs ↔ r ∈ s.ports.regs ∧ r.1 / 2 ^ 32 ≠ 0) ∧
      t.power.domains = s.power.domains ∧ t.steps.lastBoundary = s.steps.lastBoundary)) ∧
    (inReg s 24 = false → Completes (.functionLevelReset .host) s (fun t => t = s)) ∧
    (inReg s 25 = true → s.ports.storRole = 2 → Completes (.functionLevelReset .stor) s (fun t =>
      t.ports.storLink = s.ports.storLink ∧ t.ports.hostLink = s.ports.hostLink ∧
      (∀ x, x ∈ t.porter.sessions ↔ x ∈ s.porter.sessions ∧ x.2.fn = .host) ∧ (∀ d ∈ t.ports.dmas, d.1 = .host) ∧
      (∀ r, r ∈ t.ports.regs ↔ r ∈ s.ports.regs ∧ r.1 / 2 ^ 32 ≠ 1) ∧
      t.power.domains = s.power.domains ∧ t.steps.lastBoundary = s.steps.lastBoundary)) ∧
    (inReg s 25 = true → s.ports.storRole = 2 → Completes .storHotReset s (fun t =>
      t.ports.storLink = 0 ∧ t.ports.hostLink = s.ports.hostLink ∧
      (∀ x, x ∈ t.porter.sessions ↔ x ∈ s.porter.sessions ∧ x.2.fn = .host) ∧ (∀ d ∈ t.ports.dmas, d.1 = .host) ∧
      (∀ r, r ∈ t.ports.regs ↔ r ∈ s.ports.regs ∧ r.1 / 2 ^ 32 ≠ 1) ∧
      t.power.domains = s.power.domains ∧ t.steps.lastBoundary = s.steps.lastBoundary)) ∧
    (inReg s 25 = false ∨ s.ports.storRole ≠ 2 →
      Completes (.functionLevelReset .stor) s (fun t => t = s) ∧ Completes .storHotReset s (fun t => t = s))

/-- The boot ROM measures itself and asks for the 128-byte header of the Keeper image in slot 0. An unanswered request is
sent once more; after a second silence the slot counts as empty, and after both Keeper slots the module stays in the
boot ROM with ALERT_N asserted. Bytes that do not end the image are kept and the next piece is asked for. A complete
image that fails the checks sends the fetch to the other slot, with event 0x7101 for a Porter image; one that passes
is installed, its digest is measured, and the fetch goes on. Keeper then starts with the bring-up policy and ramps the
Mere; a failed self-test leaves it in its error state with bring-up stopped. (R457, R458, R459, R460, R461, R474,
R476, 17 Table 17-2) -/
def Obligations.ImageFetchAndKeeperStart : Prop :=
  ∀ (s : State) (f : Fetch),
    (s.power.phase = .bootRom → s.sec.fetch = none → tfind? s.sec.images 1 = none → Completes .bootRomStart s (fun t =>
      t = { s with
        sec := { s.sec with
          fetch := some { kind := 1, slot := 0, got := [], again := false }, measured := tset s.sec.measured 1 Config.romDigest }
        outs := .fetchReq 1 0 0 128 :: s.outs })) ∧
    (s.sec.fetch = some f → f.again = false → Completes .fetchRequestTimeout s (fun t =>
      t = { s with
        sec := { s.sec with fetch := some { f with again := true } }
        outs := .fetchReq f.kind f.slot f.got.length (fetchLen f) :: s.outs })) ∧
    (s.sec.fetch = some f → f.again = true → f.kind = 1 → f.slot = 0 → Completes .fetchRequestTimeout s (fun t =>
      t = { s with
        sec := { s.sec with
          fetch := some { kind := 1, slot := 1, got := [], again := false }, refusals := s.sec.refusals ++ [(1, 0, 0xFF)] }
        outs := .fetchReq 1 1 0 128 :: s.outs })) ∧
    (s.sec.fetch = some f → f.again = true → f.kind = 1 → f.slot = 1 → Completes .fetchRequestTimeout s (fun t =>
      t = { s with
        sec := { s.sec with fetch := none, refusals := s.sec.refusals ++ [(1, 1, 0xFF)] }
        power := { s.power with phase := .bootStopped, alert := true } })) ∧
    (∀ data, s.sec.fetch = some f → data ≠ [] → data.length = fetchLen f →
      ((f.got ++ data).length < 128 ∨ (imgBodyLen (imgHead (f.got ++ data)) ≤ bodyLimit f.kind ∧
        fetchLen { f with got := f.got ++ data } ≠ 0)) →
      Completes (.fetchDataReceive data) s (fun t =>
        t = { s with
          sec := { s.sec with fetch := some { f with got := f.got ++ data, again := false } }
          outs := .fetchReq f.kind f.slot (f.got ++ data).length (fetchLen { f with got := f.got ++ data }) :: s.outs })) ∧
    (∀ data r, s.sec.fetch = some f → data ≠ [] → data.length = fetchLen f → 128 ≤ (f.got ++ data).length →
      fetchLen { f with got := f.got ++ data } = 0 → f.kind = 2 → f.slot = 0 → refusal s 2 (f.got ++ data) = some r →
      Completes (.fetchDataReceive data) s (fun t =>
        Logged 0x7101 [a2 2, a2 0, a2 r] s t ∧ t.sec.images = s.sec.images ∧
        t.sec.fetch = some { kind := 2, slot := 1, got := [], again := false } ∧ (2, 0, r) ∈ t.sec.refusals)) ∧
    (∀ data, s.sec.fetch = some f → data ≠ [] → data.length = fetchLen f → 128 ≤ (f.got ++ data).length →
      fetchLen { f with got := f.got ++ data } = 0 → f.kind = 2 → refusal s 2 (f.got ++ data) = none →
      Completes (.fetchDataReceive data) s (fun t =>
        tfind? t.sec.images 2 = some (imageOf (f.got ++ data)) ∧
        tfind? t.sec.measured 3 = some (Config.sha512 (f.got ++ data)) ∧
        t.sec.fetch = some { kind := 3, slot := 0, got := [], again := false } ∧ t.log = s.log)) ∧
    (∀ certOk, s.power.phase = .bootRom → tfind? s.sec.images 1 ≠ none → s.sec.fetch = none → inReg s 26 = true →
      inReg s 27 = true → supplyAt s 16 = .off → Completes (.keeperStart true certOk) s (fun t =>
        t.power.phase = .keeper ∧ t.porter.keeper = 1 ∧ supplyAt t 16 = .ramping 1 ∧ t.cap.gen = 1 ∧
        t.sec.policy = bringupPolicy s ∧ t.power.slotId = s.power.strapSlot &&& 0x7F ∧ t.power.feedTag = s.power.strapFeed ∧
        t.sec.fetch = some { kind := if Config.certified then 2 else 4, slot := 0, got := [], again := false } ∧
        (certOk = false → Logged 0x7104 [] s t))) ∧
    (∀ certOk, s.power.phase = .bootRom → tfind? s.sec.images 1 ≠ none → s.sec.fetch = none →
      Completes (.keeperStart false certOk) s (fun t =>
        t.power.phase = .stopped 1 ∧ t.porter.keeper = 2 ∧ t.sec.errorState = true ∧ Logged 0x6006 [a2 1] s t ∧
        t.power.domains = s.power.domains))

/-- CTL in regulation starts the CONTROL pacer and ramps SNS; SNS in regulation lets the boot ROM start; each base domain
ramps the next; the last of them lets Porter start and ramps TPn of every tower. TLn in regulation starts the pacers
of its three layers at their point, limited by the ceiling in force, or at point 0 while VRALERT_N is held, and ends a
gating order with event 0x6003. A first failure to reach regulation ramps again, with event 0x6004; a second one of a
tower switches it off and retires its cores where lending is paired; of a base domain it stops bring-up with phase 3.
(R385, R386, R387, R391, R394, 14 Table 14-6, 16 Table 16-2) -/
def Obligations.DomainSwitching : Prop :=
  ∀ (s : State),
    (∀ a, supplyAt s 26 = .ramping a → Completes (.domainInRegulation 26) s (fun t =>
      supplyAt t 26 = .inRegulation ∧ supplyAt t 27 = .ramping 1 ∧ (paceAt t 63).gated = false ∧ (paceAt t 63).beats = 0)) ∧
    (∀ a, supplyAt s 27 = .ramping a → Completes (.domainInRegulation 27) s (fun t =>
      t = { s with power := { s.power with
        domains := tset s.power.domains 27 .inRegulation, phase := if s.power.modRst then .held else .bootRom } })) ∧
    (∀ (d : Fin 28) a, 16 ≤ d.val → d.val < 25 → supplyAt s d.val = .ramping a → (d.val = 16 ∨ inReg s 16 = true) →
      supplyAt s (d.val + 1) = .off → Completes (.domainInRegulation d) s (fun t =>
        t = { s with power := t.power, pace := t.pace, crossings := t.crossings } ∧
        supplyAt t d.val = .inRegulation ∧ supplyAt t (d.val + 1) = .ramping 1 ∧
        ∀ k, k ∈ timingOf d.val → (paceAt t k).gated = false)) ∧
    (∀ a, supplyAt s 25 = .ramping a → (∀ k, 16 ≤ k → k < 25 → inReg s k = true) → s.power.phase = .keeper →
      s.sec.fetch = none → tfind? s.sec.images 2 ≠ none → tfind? s.sec.images 3 ≠ none →
      Completes (.domainInRegulation 25) s (fun t =>
        t.porter.porter = 1 ∧ t.power.phase = .training ∧ t.power.mereZeroed = true ∧
        ∀ k, k < 8 → supplyAt s (8 + k) = .off → supplyAt t (8 + k) = .ramping 1)) ∧
    (∀ (d : Fin 28) a, d.val < 8 → supplyAt s d.val = .ramping a → Completes (.domainInRegulation d) s (fun t =>
      supplyAt t d.val = .inRegulation ∧ (∀ j, j < 3 → (paceAt t (3 * d.val + j)).gated = false ∧
        (paceAt t (3 * d.val + j)).point.toNat =
          min (paceAt s (3 * d.val + j)).point.toNat (if vrHolding s then 0 else effCeiling s d.val)) ∧
      (tfind? s.power.gating d.val = some 1 →
        tfind? t.power.gating d.val = none ∧ Logged 0x6003 [a2 d.val, a2 1] s t))) ∧
    (∀ (d : Fin 28) a, 8 ≤ d.val → d.val < 16 → supplyAt s d.val = .ramping a → Completes (.domainInRegulation d) s (fun t =>
      supplyAt t d.val = .inRegulation ∧
      (tfind? s.power.gating (d.val - 8) = some 1 → supplyAt s (d.val - 8) = .off → inReg s 17 = true → inReg s 18 = true →
        supplyAt t (d.val - 8) = .ramping 1))) ∧
    (∀ (d : Fin 28), supplyAt s d.val = .ramping 1 → keeperAlive s = true → Completes (.domainRegulationTimeout d) s
      (OnlyEvent 0x6004 mgmt dieControl [a2 d.val, a2 1]
        { s with power := { s.power with domains := tset s.power.domains d.val (.ramping 2) } })) ∧
    (∀ (d : Fin 28), d.val < 16 → supplyAt s d.val = .ramping 2 →
      (∀ c, c < 384 → chanState s c = 4 → chanState s (c ^^^ 1) = 3) → Completes (.domainRegulationTimeout d) s (fun t =>
        supplyAt t (d.val % 8) = .off ∧ supplyAt t (8 + d.val % 8) = .off ∧
        ∀ c, c < 384 → towerOf c = d.val % 8 → chanState t c = 5)) ∧
    (∀ (d : Fin 28), 16 ≤ d.val → supplyAt s d.val = .ramping 2 → keeperAlive s = true →
      Completes (.domainRegulationTimeout d) s (fun t =>
        supplyAt t d.val = .off ∧ t.power.phase = .stopped 3 ∧ Logged 0x6004 [a2 d.val, a2 2] s t ∧ Logged 0x6006 [a2 3] s t))

/-- A stack that trains is recorded; one that fails is trained again, and at its second failure is recorded with every
pseudo-channel failed and event 0x3301. A round of the Cellar that trains is recorded; a package that fails twice
withdraws the Cellar with event 0x3403. The bring-up test of a powered tower sets every channel of it: whole where
nothing failed, retired where an array failed; its margins follow the needs found, and TLn is switched off again. With
all of that done Porter sets READY and the capability record is complete. (R188, R393, R394, R396, R425, R44, 14 Table
14-7) -/
def Obligations.BringupTraining : Prop :=
  ∀ (s : State), s.power.phase = .training →
    (∀ k, k ∉ s.power.stacksDone → Completes (.stackTrainingDone k true) s (fun t =>
      t = { s with power := { s.power with stacksDone := s.power.stacksDone ++ [k] } })) ∧
    (∀ k, k ∉ s.power.stacksDone → tget s.power.stackAttempts k.val 0 = 0 → Completes (.stackTrainingDone k false) s (fun t =>
      t = { s with power := { s.power with stackAttempts := tset s.power.stackAttempts k.val 1 } })) ∧
    (∀ k, k ∉ s.power.stacksDone → tget s.power.stackAttempts k.val 0 = 1 → Completes (.stackTrainingDone k false) s (fun t =>
      k ∈ t.power.stacksDone ∧ Logged 0x3301 [a2 k.val] s t ∧
      ∀ g, g < 4 → tfind? t.mem.failedPch (4 * k.val + g) = some 0xFFFF)) ∧
    (∀ r, r ∉ s.power.cellarRounds → Completes (.cellarTrainingDone r []) s (fun t =>
      t = { s with power := { s.power with cellarRounds := s.power.cellarRounds ++ [r] } })) ∧
    (∀ r (p : Fin 32), r ∉ s.power.cellarRounds → p.val / 4 = r.val → tget s.power.cellarAttempts p.val 0 = 1 →
      s.power.cellarWithdrawn = false → Completes (.cellarTrainingDone r [p]) s (fun t =>
        t.power.cellarWithdrawn = true ∧ r ∈ t.power.cellarRounds ∧ Logged 0x3403 [a2 p.val] s t)) ∧
    (∀ (t8 : Fin 8) arrays needs, t8 ∉ s.power.towersTested → towerOn s t8.val = true → needs.length = 3 →
      Completes (.towerBringupTestDone t8 [] [] arrays needs) s (fun t =>
        t8 ∈ t.power.towersTested ∧ supplyAt t t8.val = .off ∧
        (∀ c : Fin 384, towerOf c.val = t8.val → chanState t c.val = if c ∈ arrays then 5 else 0) ∧
        (∀ c : Fin 384, towerOf c.val ≠ t8.val → chan t c.val = chan s c.val) ∧
        ∀ j, j < 3 → tfind? t.gov.margins (3 * t8.val + j) = some (min 40 (listMax ((needs.getD j []).map marginOf))))) ∧
    (∀ drives, porterRuns s = true → s.power.mereZeroed = true → s.power.stacksDone.length = 16 →
      (s.power.cellarRounds.length = 8 ∨ s.power.cellarWithdrawn = true) → s.power.towersTested.length = 8 →
      Completes (.readySet drives) s (fun t =>
        t.power.phase = .ready ∧ t.porter.ready = true ∧ t.cap.gen.getLsbD 0 = false))

/-- A write to a task room by a party that is not its writer changes nothing but the log, with event 0x8104. A heartbeat
of a running Porter is counted. A missing one restarts Porter: event 0x8102 with the number of restarts, and no
command but STEP_RUN stays outstanding while the open step goes on; missing once more before a boundary, Porter is out
of service, with event 0x8103, and every mailbox but the baseboard controller's reports it. A dispatch pass of a ready
Porter is the next one, it reads the budget word, and while HALT is in force it dispatches nothing. (R15, R19, R365,
R375, 01 Table 1-3, 16 Table 16-2) -/
def Obligations.PorterHeartbeatAndPasses : Prop :=
  ∀ (s : State),
    (∀ (room writer : W16) r, roomAt s room.toNat = some r → r.cls = 7 → Completes (.taskRoomForeignWrite room writer) s
      (OnlyEvent 0x8104 ctrl dieControl [a2 room.toNat, a2 writer.toNat] s)) ∧
    (porterRuns s = true → Completes .porterHeartbeat s (fun t =>
      t = { s with porter := { s.porter with heartbeats := s.porter.heartbeats + 1 } })) ∧
    (keeperAlive s = true → (s.porter.porter = 1 ∨ s.porter.porter = 2) → s.porter.stoppedSince = false →
      Completes .porterHeartbeatTimeout s (fun t =>
        t.porter.porter = 2 ∧ t.porter.restarts = s.porter.restarts + 1 ∧ t.porter.stoppedSince = true ∧
        Logged 0x8102 [a2 (s.porter.restarts + 1)] s t ∧ (∀ p, p ∈ t.porter.outstanding → isStepWait p = true) ∧
        t.steps.job = s.steps.job ∧ t.porter.plans = s.porter.plans ∧ t.porter.sessions = s.porter.sessions)) ∧
    (keeperAlive s = true → (s.porter.porter = 1 ∨ s.porter.porter = 2) → s.porter.stoppedSince = true →
      Completes .porterHeartbeatTimeout s (fun t =>
        t = { s with porter := t.porter, log := t.log, power := { s.power with alert := t.power.alert } } ∧
        t.porter.porter = 3 ∧ Logged 0x8103 [] s t ∧ (∀ n, n < 64 → (mbAt t n).state = 3) ∧ (mbAt t 65).state = 3 ∧
        mbAt t 64 = mbAt s 64)) ∧
    (porterRuns s = true → s.porter.ready = true → Completes .dispatchPass s (fun t =>
      t.porter.pass = s.porter.pass + 1 ∧ t.porter.budgetRead = s.gov.budget ∧
      (s.porter.halted = true → t.cores = s.cores ∧ t.steps.highest = s.steps.highest)))

/-- A core or mover that runs fetches the descriptor of its running task from the task room. Where every check passes the
task is marked checked with the addresses steered to its versions, its program fetched and its place at the program's
first word; where one fails, the task is to end with the code of that check, with event 0x2202 for a bad descriptor or
program; a descriptor whose CRC fails ends with the descriptor code. No other core and no other part of the machine
changes. A shut crossing to the room ends the task with XTIMEOUT, poison in what is fetched with MEM_ERROR. (R37,
R115, R120, R121, R138, R189, 04 Table 4-10) -/
def Obligations.TaskFetchChecks : Prop :=
  ∀ (c : Fin 393) (s : State) r room, initiatorRuns s c.val = true → (coreAt s c.val).running = some r →
    r.checked = false → r.ended = none → roomAt s r.room.toNat = some room →
    (wayShut s (pathTo c.val room.base.toNat) = true → Completes (.descriptorFetch c) s (fun t => OnlyCore c.val s t ∧
      coreAt t c.val = { coreAt s c.val with running := some { r with
        ended := some ccXtimeout, causeGated := wayGated s (pathTo c.val room.base.toNat) } })) ∧
    (∀ a, wayShut s (pathTo c.val room.base.toNat) = false →
      fetchPoison s c.val room (BitVec.ofNat 2048 (rdNat s room.base.toNat 256)) = some a →
      Completes (.descriptorFetch c) s (fun t => (∀ k, k ≠ c.val → coreAt t k = coreAt s k) ∧
        coreAt t c.val = { coreAt s c.val with running := some { r with ended := some ccMem, causeGated := false } })) ∧
    (wayShut s (pathTo c.val room.base.toNat) = false →
      fetchPoison s c.val room (BitVec.ofNat 2048 (rdNat s room.base.toNat 256)) = none →
      (fetchVerdict s c.val (coreAt s c.val) (BitVec.ofNat 2048 (rdNat s room.base.toNat 256)) = none →
        Completes (.descriptorFetch c) s (fun t => OnlyCore c.val s t ∧ coreAt t c.val = { coreAt s c.val with
          running := some (checkedRun s (BitVec.ofNat 2048 (rdNat s room.base.toNat 256)) r) })) ∧
      (∀ code, code ≠ ccHeldLost →
        fetchVerdict s c.val (coreAt s c.val) (BitVec.ofNat 2048 (rdNat s room.base.toNat 256)) = some (code, false) →
        Completes (.descriptorFetch c) s (fun t => OnlyCore c.val s t ∧
          coreAt t c.val = { coreAt s c.val with running := some { r with
            ended := some code
            causeGated := code == ccXtimeout &&
              wayGated s (waysOf s c.val (BitVec.ofNat 2048 (rdNat s room.base.toNat 256))) } })) ∧
      (recCrcOk (BitVec.ofNat 2048 (rdNat s room.base.toNat 256)) = false → Completes (.descriptorFetch c) s (fun t =>
        OnlyEvent 0x2202 data (coreDie c.val) [a4 (dTask r.desc), a2 c.val] { s with cores := t.cores } t ∧
        (∀ k, k ≠ c.val → coreAt t k = coreAt s k) ∧
        coreAt t c.val = { coreAt s c.val with running := some { r with ended := some ccDesc, causeGated := false } })))

/-- A running core that makes no progress for its stall budget is to end its task with STALL and the engine that stalled,
with event 0x2201, unless a cause already stands. A parity error in an accumulator clears the bank and what it held,
and the task is to end with MEM_ERROR unless a cause stands, with event 0x2203. Only that core and the log change.
(R102, R112, R115, 16 Table 16-2) -/
def Obligations.StallAndAccumulatorErrors : Prop :=
  ∀ (c : Fin 384) (s : State) r, initiatorRuns s c.val = true → (coreAt s c.val).running = some r →
    (∀ eng, r.ended = none → Completes (.stallBudgetExpiry c eng) s (fun t =>
      OnlyEvent 0x2201 data (coreDie c.val) [a4 (dTask r.desc), a2 c.val, a2 eng.toNat] { s with cores := t.cores } t ∧
      (∀ k, k ≠ c.val → coreAt t k = coreAt s k) ∧
      coreAt t c.val = { coreAt s c.val with running := some { r with ended := some ccStall, stallEng := eng } })) ∧
    (∀ bank, Completes (.accumulatorParityError c bank) s (fun t =>
      OnlyEvent 0x2203 data (coreDie c.val) [a4 (dTask r.desc), a2 c.val, a2 bank.val] { s with cores := t.cores } t ∧
      (∀ k, k ≠ c.val → coreAt t k = coreAt s k) ∧
      coreAt t c.val = { coreAt s c.val with
        held := none, banks := tdel (coreAt s c.val).banks bank.val, cleared := some bank, running := some { r with ended := some (r.ended.getD ccMem) } }))

/-- Where a cause stands, or where the task's program has run to its end, no crossing to its record is shut and its inputs
hold no poison, the core or mover writes the 64-byte record of Table 4-9 at CPL_ADDR with the completion code, its
flags, and the single-bit errors met in CORR (log 131); no other byte of memory changes. The task room goes back to
Porter, the admitted task becomes the running one with fresh registers, and a completed task whose flags hold an
infinity or a NaN raises event 0x5001. (R15, R103, R121, R125, 04 Table 4-9) -/
def Obligations.TaskCompletionRecord : Prop :=
  let written := fun (c : Nat) (r : TaskRun) (code : Nat) (ctr : Counters) (s t : State) =>
    rd t (dCplAddr r.desc) 64 = recBytes (cplRecord r.desc c code (if c < 384 then r.flags.toNat else 0) r.attempt
      (if code == ccStall then r.stallEng.toNat else ctr.stallEng.toNat) (outVersion r.desc)
      (some (counted c (correctedReads s r.desc ctr)))) ∧
    (∀ a, (a < dCplAddr r.desc ∨ dCplAddr r.desc + 64 ≤ a) → cellsGet t.mem.cells a = cellsGet s.mem.cells a) ∧
    (coreAt t c).running = (coreAt s c).admitted ∧ (coreAt t c).admitted = none ∧ (coreAt t c).vregs = [] ∧
    (∀ k, k ≠ c → coreAt t k = coreAt s k) ∧ (∀ m, roomAt t r.room.toNat = some m → m.engines = false)
  ∀ (c : Fin 393) (s : State) r ctr, MemGood s → initiatorRuns s c.val = true → (coreAt s c.val).running = some r →
    (∀ code, r.ended = some code → code ≠ ccDone → Completes (.taskComplete c ctr) s (fun t =>
      written c.val r code ctr s t ∧ t.log = s.log)) ∧
    (r.ended = none → r.checked = true → programEnded r = true → dProgLen r.desc ≠ 0 → dAmaxAxes r.desc = 0 →
      (dKind r.desc ≠ 0 ∨ dAccHold r.desc = false) → wayShut s (endWays s c.val r.desc) = false →
      taskPoison s r.desc = none →
      Completes (.taskComplete c ctr) s (fun t => written c.val r ccDone ctr s t ∧
        (c.val < 384 → r.flags.toNat % 4 ≠ 0 → Logged 0x5001 [a4 (dTask r.desc), a2 c.val] s t)))

/-- For a task of the open step whose room the engines have handed back: a record with DONE makes the task done and
retires its journal entry, except where it holds an accumulator bank; a record with a code marked for replay, of a
task that ran for the first time, leaves the task owing a replay with ATTEMPT 1 on the same initiator, with the code
in the journal. (R201, R202, R372, R373, 04 Table 4-10, 13 Table 13-11) -/
def Obligations.CompletionRecordsProcessed : Prop :=
  ∀ (room : W16) (s : State) m e p task j, roomAt s room.toNat = some m → recordEntry s room.toNat = some e →
    m.engines = false → porterRuns s = true → e.state ≠ 5 → e.job = 0 → planOf s e.handle = some p →
    planTask p e.taskId.toNat = some task → s.steps.job = some j → j.id = 0 → j.failing = none → dAccHold task.desc = false →
    (recCode (BitVec.ofNat 512 (rdNat s (dCplAddr task.desc) 64)) = ccDone →
      Completes (.completionRecordProcessed room) s (fun t =>
        (∃ j', t.steps.job = some j' ∧ taskState j' e.taskId.toNat = .done ∧ j'.step = j.step) ∧
        ∀ x, x ∈ t.porter.journal → ¬ (x.job = 0 ∧ x.taskId = e.taskId))) ∧
    (∀ code, recCode (BitVec.ofNat 512 (rdNat s (dCplAddr task.desc) 64)) = code → code ∈ [3, 4, 5, 6] → e.attempt = 0 →
      Completes (.completionRecordProcessed room) s (fun t =>
        (∃ j', t.steps.job = some j' ∧ taskState j' e.taskId.toNat = .again 1 ∧
          tfind? j'.only e.taskId.toNat = some [e.core]) ∧
        ∀ x, x ∈ t.porter.journal → x.job = 0 → x.taskId = e.taskId → x.lastCode = code))

/-- When every task of the open step has settled and its reductions, verdict and updates are done, the boundary records
the step as the last one passed, numbers the next Ledger record, retires the step's journal entries, ends the wait of
its STEP_RUN, and leaves no step open where none was queued; a mover withheld to the boundary is used again. (R20,
R21, R266, R364, 09 Table 9-5) -/
def Obligations.StepBoundaryCloses : Prop :=
  ∀ (lodged : Option (List (Nat × W64))) (s : State) j p, s.steps.job = some j → openPlan s = some p →
    boundaryReached s = true → porterRuns s = true → s.steps.queued = none → s.steps.actions = [] →
    Completes (.stepBoundary lodged) s (fun t =>
      t.steps.job = none ∧ t.steps.lastBoundary = j.step ∧ t.steps.anyBoundary = true ∧
      t.steps.nextSeq = s.steps.nextSeq + 1 ∧ t.porter.stoppedSince = false ∧
      (∀ e, e ∈ t.porter.journal → e.job ≠ 0) ∧ (∀ c, (coreAt t c).toBoundary = false) ∧
      ∀ q, s.porter.outstanding.find? (fun q => q.wait == Wait.step j.step) = some q → q ∉ t.porter.outstanding)

/-- A pond or Mere word that reads uncorrectable for the first time is poisoned with its bytes kept, the reader's task is
to end with MEM_ERROR unless a cause stands, and event 0x3102 or 0x3202 is logged. A word that does so again after its
poison was written away costs the pond row, which is remapped to a spare and reads 0 (event 0x3103), or the Mere page,
which is withdrawn. A block of a tier whose wrong bytes its code cannot correct is marked, with event 0x3303 or
0x3402. A pseudo-channel that fails its interface check is marked failed, with event 0x3302. (R189, R192, R196, R208,
R209, R211, R213, 07 Table 7-3, 16 Table 16-2) -/
def Obligations.UncorrectableReads : Prop :=
  let failed := fun (c : Nat) (s t : State) =>
    (∀ k, k ≠ c → coreAt t k = coreAt s k) ∧
    coreAt t c = { coreAt s c with running := (coreAt s c).running.map (fun r => { r with ended := some (r.ended.getD ccMem) }) }
  ∀ (s : State) (addr : W64),
    (∀ core : Fin 384, regionOf addr.toNat = .pond → pondOn s (towerOf (sliceOf addr.toNat)) = true →
      chanState s (sliceOf addr.toNat) < 4 → wordRepeats s.mem (wordOf addr.toNat) = false →
      Completes (.pondUncorrectableRead core addr) s (fun t =>
        OnlyEvent 0x3102 data (pondDie (sliceOf addr.toNat)) [a2 core.val, a8 addr.toNat]
          { s with mem := t.mem, cores := t.cores } t ∧
        t.mem.cells = s.mem.cells ∧ wordOf addr.toNat ∈ t.mem.poison ∧ failed core.val s t)) ∧
    (∀ core : Fin 384, regionOf addr.toNat = .pond → pondOn s (towerOf (sliceOf addr.toNat)) = true →
      chanState s (sliceOf addr.toNat) < 4 → wordRepeats s.mem (wordOf addr.toNat) = true →
      (tget s.mem.sparedRows (sliceOf addr.toNat) []).length < 16 →
      Completes (.pondUncorrectableRead core addr) s (fun t =>
        let row := (wordOf addr.toNat - sliceBase (sliceOf addr.toNat)) / 4096
        Logged 0x3102 [a2 core.val, a8 addr.toNat] s t ∧ Logged 0x3103 [a2 (sliceOf addr.toNat), a2 row] s t ∧
        row ∈ tget t.mem.sparedRows (sliceOf addr.toNat) [] ∧ failed core.val s t ∧
        (∀ a, sliceBase (sliceOf addr.toNat) + 4096 * row ≤ a → a < sliceBase (sliceOf addr.toNat) + 4096 * row + 4096 →
          cellsGet t.mem.cells a = 0) ∧
        ∀ a, (a < sliceBase (sliceOf addr.toNat) + 4096 * row ∨ sliceBase (sliceOf addr.toNat) + 4096 * row + 4096 ≤ a) →
          cellsGet t.mem.cells a = cellsGet s.mem.cells a)) ∧
    (∀ reader : Fin 393, regionOf addr.toNat = .mere → inReg s 16 = true → wordRepeats s.mem (wordOf addr.toNat) = false →
      Completes (.mereUncorrectableRead reader addr) s (fun t =>
        (∃ room, OnlyEvent 0x3202 data (mereDie addr.toNat) [a8 addr.toNat, a2 room]
          { s with mem := t.mem, cores := t.cores } t) ∧
        t.mem.cells = s.mem.cells ∧ wordOf addr.toNat ∈ t.mem.poison ∧ failed reader.val s t)) ∧
    (∀ reader : Fin 393, regionOf addr.toNat = .mere → inReg s 16 = true → wordRepeats s.mem (wordOf addr.toNat) = true →
      Completes (.mereUncorrectableRead reader addr) s (fun t =>
        t.mem.cells = s.mem.cells ∧ wordOf addr.toNat / 4096 * 4096 ∈ t.mem.withdrawn ∧ failed reader.val s t)) ∧
    (∀ (reader : Fin 393) wrong, regionOf addr.toNat = .stack → inReg s (17 + towerRegion addr.toNat / 4) = true →
      stackCorrects s.mem (addr.toNat / 256 * 256) wrong = false → Completes (.stackUncorrectableRead reader ⟨addr, wrong⟩) s (fun t =>
        OnlyEvent 0x3303 data (48 + towerRegion addr.toNat) [a8 addr.toNat] { s with mem := t.mem, cores := t.cores } t ∧
        addr.toNat / 256 * 256 ∈ t.mem.badBlocks ∧ t.mem.cells = s.mem.cells ∧ failed reader.val s t)) ∧
    (∀ (reader : Fin 393) wrong, regionOf addr.toNat = .cellar → inReg s 19 = true → 8 < wrong →
      Completes (.cellarUncorrectableRead reader ⟨addr, wrong⟩) s (fun t =>
        OnlyEvent 0x3402 data dieCellar [a8 addr.toNat] { s with mem := t.mem, cores := t.cores } t ∧
        addr.toNat / 128 * 128 ∈ t.mem.badBlocks ∧ t.mem.cells = s.mem.cells ∧ failed reader.val s t)) ∧
    (∀ (k : Fin 16) (g : Fin 4) (p : Fin 16), stackOn s k.val = true →
      (tget s.mem.failedPch (4 * k.val + g.val) 0).getLsbD p.val = false →
      Completes (.pseudoChannelInterfaceCheckFail k g p) s (fun t =>
        OnlyEvent 0x3302 data (48 + k.val / 2) [a2 k.val, a2 g.val, a2 p.val]
          { s with mem := { s.mem with failedPch := t.mem.failedPch }, cap := t.cap } t ∧
        (tget t.mem.failedPch (4 * k.val + g.val) 0).getLsbD p.val = true))

/-- Where its domain runs, a scrub step of a powered pond slice that is not fenced or under a tower test advances it by
512 bytes, of a Mere slice by 64 bytes, writes back the single-bit errors that stand there, and adds them and those it
finds first to the pass; at the end of the slice the pass starts over and the scrub requests of the slice end. The
first step that takes the pass above 64 corrections logs event 0x3101 or 0x3201. A patrol step of a stack advances it
by 256 bytes; a pseudo-channel with its seventeenth block of its own in a pass is marked failed. A patrol step of the
Cellar advances by 128 bytes until the pass ends. No byte of memory changes. (R191, R196, R209, R210, R211, 16 Table
16-2) -/
def Obligations.ScrubSteps : Prop :=
  let stand := fun (s : State) (lo len : Nat) => (s.mem.singles.filter (fun w => decide (lo ≤ w) && decide (w < lo + len))).length
  ∀ (s : State),
    (∀ (k : Fin 384) found n, pondOn s (towerOf k.val) = true → domainRuns s (pondDie k.val) = true → (chan s k.val).fenced = false →
      s.tests.tower ≠ some (towerOf k.val) →
      n = stand s (sliceBase k.val + (tget s.mem.scrubs k.val (0, 0)).1) 512 + found → Completes (.pondScrubStep k found) s (fun t =>
        t.mem = { s.mem with scrubs := t.mem.scrubs, singles := t.mem.singles } ∧
        (∀ w, w ∈ t.mem.singles ↔ w ∈ s.mem.singles ∧ ¬(sliceBase k.val + (tget s.mem.scrubs k.val (0, 0)).1 ≤ w ∧
          w < sliceBase k.val + (tget s.mem.scrubs k.val (0, 0)).1 + 512)) ∧
        tfind? t.mem.scrubs k.val = some (if sliceLen ≤ (tget s.mem.scrubs k.val (0, 0)).1 + 512 then (0, 0)
          else ((tget s.mem.scrubs k.val (0, 0)).1 + 512, (tget s.mem.scrubs k.val (0, 0)).2 + n)) ∧
        ((tget s.mem.scrubs k.val (0, 0)).2 ≤ 64 → 64 < (tget s.mem.scrubs k.val (0, 0)).2 + n → Logged 0x3101 [a2 k.val] s t))) ∧
    (∀ (k : Fin 8) found lo n, inReg s 16 = true → domainRuns s (48 + k.val) = true →
      lo = 0x80000000000 + k.val * 0x10000000 + (tget s.mem.scrubs (384 + k.val) (0, 0)).1 → n = stand s lo 64 + found →
      Completes (.mereScrubStep k found) s (fun t =>
        t.mem = { s.mem with scrubs := t.mem.scrubs, singles := t.mem.singles } ∧
        (∀ w, w ∈ t.mem.singles ↔ w ∈ s.mem.singles ∧ ¬(lo ≤ w ∧ w < lo + 64)) ∧
        tfind? t.mem.scrubs (384 + k.val) = some (if 0x10000000 ≤ (tget s.mem.scrubs (384 + k.val) (0, 0)).1 + 64 then (0, 0)
          else ((tget s.mem.scrubs (384 + k.val) (0, 0)).1 + 64, (tget s.mem.scrubs (384 + k.val) (0, 0)).2 + n)) ∧
        ((tget s.mem.scrubs (384 + k.val) (0, 0)).2 ≤ 64 → 64 < (tget s.mem.scrubs (384 + k.val) (0, 0)).2 + n →
          Logged 0x3201 [a2 k.val] s t))) ∧
    (∀ (k : Fin 16) (g : Fin 4) (p : Fin 16), stackOn s k.val = true → domainRuns s (48 + k.val / 2) = true →
      tget s.mem.pchHits (64 * k.val + 16 * g.val + p.val) 0 = 16 → Completes (.stackPatrolScrub k (some (g, p)) false) s (fun t =>
        (tget t.mem.failedPch (4 * k.val + g.val) 0).getLsbD p.val = true ∧ t.mem.cells = s.mem.cells ∧
        tfind? t.mem.scrubs (400 + k.val) =
          some ((tget s.mem.scrubs (400 + k.val) (0, 0)).1 + 256, (tget s.mem.scrubs (400 + k.val) (0, 0)).2 + 1))) ∧
    (∀ (k : Fin 16), stackOn s k.val = true → domainRuns s (48 + k.val / 2) = true → Completes (.stackPatrolScrub k none true) s (fun t =>
        t = { s with mem := { s.mem with scrubs := t.mem.scrubs, pchHits := t.mem.pchHits } } ∧
        tfind? t.mem.scrubs (400 + k.val) = some (0, 0) ∧ ∀ h, h ∈ t.mem.pchHits → h.1 / 64 ≠ k.val)) ∧
    (∀ corrected, inReg s 19 = true → domainRuns s dieCellar = true → Completes (.cellarPatrolScrub corrected true) s (fun t =>
        t.mem = { s.mem with scrubs := t.mem.scrubs } ∧ tfind? t.mem.scrubs 416 = some (0, 0))) ∧
    (∀ corrected, inReg s 19 = true → domainRuns s dieCellar = true → (tget s.mem.scrubs 416 (0, 0)).1 + 128 < 0x20000000000 →
      Completes (.cellarPatrolScrub corrected false) s (fun t =>
        t.mem = { s.mem with scrubs := t.mem.scrubs } ∧ tfind? t.mem.scrubs 416 =
          some ((tget s.mem.scrubs 416 (0, 0)).1 + 128, (tget s.mem.scrubs 416 (0, 0)).2 + corrected.toNat)))

/-- When the engine is free and its next update is due: a version whose head names another step than the one after the
last update stops the tensor with event 0x5102 and fails the step; a version whose head fails asks a source for the
tensor's state; a version with SKIP is staged without writes; a live version stages in a Mere room exactly the first
block that the recipe gives, the later blocks and the digests waiting, with no home changed yet; where the sums of its
watch group are not there they are formed and kept. A commit whose scale pass is done and whose working copy is not
pinned writes those bytes and no others outside the staging room, sets the applied step, and at most adds its group's
ratio to the record. Fetched state is installed with event 0x5104; where no source holds it, event 0x5105; at another
step it changes nothing. A request for state is answered with what the module holds at exactly that step and can read
without an error. (R227, R231, R232, R234, R236, R237, R242, 16 Table 16-2) -/
def Obligations.CellarUpdatesAndFetchedState : Prop :=
  ∀ (s : State),
    (∀ e ver u p a, s.params.staged = none → s.restore = none → inReg s sdCel = true → domainRuns s dieCellar = true →
      nextUpdate s = some (e, ver, u) → trainPlan s = some p → gradVersion s e.1 u = some a → verdictHeld s u = false →
      fetchHolds s e.2 u = false →
      (headGood s e.1 a = false → Completes .cellarUpdateStart s (fun t =>
        t.mem = s.mem ∧ t.params.staged = none ∧ (e.2, none, BitVec.ofNat 64 u) ∈ t.params.fetching)) ∧
      (headGood s e.1 a = true → headStep s a ≠ expectedStep s e.2 u → Completes .cellarUpdateStart s (fun t =>
        t.params.staged = none ∧ e.2 ∈ t.params.stopped ∧ t.steps.job = none ∧
        Logged 0x5102 [a4 (peTensor e.1), a8 (expectedStep s e.2 u), a8 (headStep s a)] s t)) ∧
      (headGood s e.1 a = true → headStep s a = expectedStep s e.2 u →
        (headSkip s a = true → Completes .cellarUpdateStart s (fun t => t = { s with params := { s.params with
          staged := some { step := BitVec.ofNat 64 u, entry := e.2, room := 0xFFFF, spans := [], writes := [], digests := []
                           ratio := none, skip := true } } })) ∧
        (∀ x g, headSkip s a = false → runOf s (peGroup e.1) u = some x →
          stagingRoom (liveUpdate s p e u a x.2.2.1).blocks s = some g → Completes .cellarUpdateStart s (fun t =>
            t.params.staged = some (stagedOf (liveUpdate s p e u a x.2.2.1) e u g.1 x.2.2.2) ∧
            ∃ m, roomAt t g.1 = some m ∧
              (∀ b, b < m.base.toNat ∨ roomEnd m ≤ b → cellsGet t.mem.cells b = cellsGet s.mem.cells b) ∧
              (MemGood s → rd t (slotStart m) (stagedLen ((liveUpdate s p e u a x.2.2.1).blocks.headD [])) =
                ((liveUpdate s p e u a x.2.2.1).blocks.headD []).flatMap (fun w => w.2)))) ∧
        (headSkip s a = false → runOf s (peGroup e.1) u = none → cellarGroupReady s u (groupMates s e) = true →
          (∀ k, (stagingRoom (liveUpdate s p e u a k).blocks s).isSome = true) → Completes .cellarUpdateStart s (fun t =>
            t.params.staged.isSome = true ∧ ∃ k ratio ev, watchGroup s u (peGroup e.1) (groupMates s e) = (k, ratio, ev) ∧
              (peGroup e.1, BitVec.ofNat 64 u, k, ratio) ∈ t.params.groupRuns)))) ∧
    (∀ x e m, MemGood s → s.params.staged = some x → (trainedEntries s).find? (fun e => e.2 == x.entry) = some e →
      inReg s sdCel = true → domainRuns s dieCellar = true → s.snap = none → x.skip = false →
      scaleDone s (x.step.toNat + peLag e.1 - 1) e = true → workPinned s e.1 = false →
      x.room ≠ 0xFFFF → roomAt s x.room.toNat = some m → StagingGood x m s → Completes .cellarUpdateCommit s (fun t =>
        (∀ b, (∀ h ∈ homesOf x, b < h.1 ∨ h.1 + h.2 ≤ b) → (b < m.base.toNat ∨ roomEnd m ≤ b) →
          cellsGet t.mem.cells b = cellsGet s.mem.cells b) ∧
        x.spans.flatMap (fun h => rd t h.1 h.2) = rd s (slotStart m) (sumNat (x.spans.map (fun h => h.2))) ∧
        (∀ ws ∈ x.writes, ∀ w ∈ ws, rd t w.1 w.2.length = w.2) ∧ (∀ d ∈ x.digests, rd t d.1 8 = bytesLE 8 d.2.toNat) ∧
        t.params.staged = none ∧ tfind? t.params.applied x.entry = some x.step ∧ tfind? t.params.digested x.entry = some x.step ∧
        (t.steps.record.ratios = s.steps.record.ratios ∨ ∃ r, runOf s (peGroup e.1) x.step.toNat = some r ∧
          t.steps.record.ratios = s.steps.record.ratios ++ [r.2.2.2]))) ∧
    (∀ f p, trainPlan s = some p → s.snap = none →
      ((trainedEntries s).find? (fun e => awaits s f e f.step) = none →
        Completes (.stateFetchInstall f) s (fun t => t = { s with outs := t.outs })) ∧
      (∀ e, (trainedEntries s).find? (fun e => awaits s f e f.step) = some e → Completes (.stateFetchInstall f) s (fun t =>
        (f.source = noSource → Logged 0x5105 [] s t ∧ t.steps.job = none) ∧
        (f.source ≠ noSource → (e.2, f.block, f.step) ∉ t.params.fetching ∧ t.mem = (installState p f e.1 s).mem ∧
          Logged 0x5104 [a4 f.tensor.toNat, a2 (f.block.getD wholeBlock), a8 f.step.toNat, a2 f.source.toNat] s t)))) ∧
    (∀ src tensor block step, porterRuns s = true →
      (heldState s src tensor block step = none → Completes (.stateFetchRequestArrival src tensor block step) s (fun t =>
        t = emit (.stateReply src tensor step false []) s)) ∧
      (∀ bs spans, heldState s src tensor block step = some (bs, spans) →
        Completes (.stateFetchRequestArrival src tensor block step) s (fun t =>
          if (∀ q ∈ spans, s.mem.poisonAt q.1 q.2 = none) then t = emit (.stateReply src tensor step true bs) s
          else Out.stateReply src tensor step false [] ∈ t.outs ∧ t.mem = s.mem)))

/-- The reduce engine sends a reduction's notice once its local gradients are there, with the count, cause and norm of
R250 to R253, records it as its own, and sends the shards of a contribution that holds values; a poisoned notice is
logged with event 0x5301. At the coordinator a new notice of an open reduction is recorded and nothing else changes,
the last one closes the reduction with a close record to every other member; the same notice again changes nothing,
another one from the same index is discarded with event 0x4504. When the wait budget runs out the reduction closes
with at least Q notices in, with event 0x4501, and waits on with event 0x4502 below Q. (R250, R252, R253, R254, R255,
R256, R258, R259, 16 Table 16-2) -/
def Obligations.ReductionNotices : Prop :=
  let addIn := fun (r : Red) (n : BitVec 512) => { r with notices := tset r.notices (nIdx n) n, started := true }
  let closed := fun (l : Layout) (c : CloseRec) (id step : Nat) (s t : State) =>
    (redAt t id step).close = some c ∧ t.red.closeRing.head? = some c ∧ t.red.closeNext = s.red.closeNext + 1 ∧
    ∀ m ∈ l.members.take (loN l), m ≠ s.fab.moduleId → .closeRec m c ∈ t.outs
  ∀ (s : State),
    (∀ (red : W32) j p l, s.steps.job = some j → openPlan s = some p → layoutFor s red.toNat j.step.toNat = some l →
      red.toNat ≠ verdictRed → red ∈ p.reductions → (s.steps.workLost = true ∨ localsReady s l = true) →
      (redAt s red.toNat j.step.toNat).own = none → domainRuns s linkDie = true → coordinates s l = false →
      (∀ c ∈ s.red.carry, c.1 ≠ red) → Completes (.noticeSend red) s (fun t =>
        let k := contribution s p l j.step.toNat
        let n := noticeOf j.step.toNat red.toNat (loMine l) k.2.1 k.2.2.1 false (if k.2.2.1 = 0 then normOfShards l k.1 else 0)
        .notice (loMember l (loCoord l)) n ∈ t.outs ∧ (redAt t red.toNat j.step.toNat).own = some n ∧
        t.steps.record.sent = s.steps.record.sent + 1 ∧
        (k.2.2.1 = 0 → 1 < loN l → ∀ x ∈ (pieces (shardElems l) k.1).zipIdx,
          .shard red j.step ⟨loMine l, false, x.2, x.1⟩ ∈ t.outs) ∧
        (k.2.2.1 = 1 → Logged 0x5301 [a4 red.toNat, a8 j.step.toNat] s t))) ∧
    (∀ n l, recCrcOk n = true → nCause n ≠ 3 → nCarried n = false → layoutFor s (nRed n) (nStep n) = some l →
      coordinates s l = true → nIdx n < loN l →
      (∀ m, tfind? (redAt s (nRed n) (nStep n)).notices (nIdx n) = some m → Completes (.noticeReceive n) s (fun t =>
        (m = n → t = s) ∧ (m ≠ n → OnlyEvent 0x4504 data linkDie [a4 (nRed n), a8 (nStep n), a2 (nIdx n)] s t))) ∧
      (tfind? (redAt s (nRed n) (nStep n)).notices (nIdx n) = none → redClosed s (nRed n) (nStep n) = false →
        (addIn (redAt s (nRed n) (nStep n)) n).notices.length ≠ loN l →
        ¬ (loBudget l ≠ 0 ∧ (redAt s (nRed n) (nStep n)).budgetOut = true ∧
          loQ l ≤ (addIn (redAt s (nRed n) (nStep n)) n).notices.length) →
        Completes (.noticeReceive n) s (fun t => t = { s with red := { s.red with open_ := t.red.open_ } } ∧
          redAt t (nRed n) (nStep n) = addIn (redAt s (nRed n) (nStep n)) n ∧
          ∀ id step, (id ≠ nRed n ∨ step ≠ nStep n) → redAt t id step = redAt s id step)) ∧
      (tfind? (redAt s (nRed n) (nStep n)).notices (nIdx n) = none → redClosed s (nRed n) (nStep n) = false →
        (addIn (redAt s (nRed n) (nStep n)) n).notices.length = loN l →
        Completes (.noticeReceive n) s (closed l (closeOf l (addIn (redAt s (nRed n) (nStep n)) n) 0) (nRed n) (nStep n) s))) ∧
    (∀ (red : W32) (step : W64) l r, layoutFor s red.toNat step.toNat = some l → redFind s red.toNat step.toNat = some r →
      coordinates s l = true → loBudget l ≠ 0 → r.started = true → r.budgetOut = false → r.close = none →
      (loQ l ≤ r.notices.length → r.notices.length < loN l → Completes (.reductionBudgetExpiry red step) s (fun t =>
        closed l (closeOf l r 1) red.toNat step.toNat s t ∧
        Logged 0x4501 [a4 red.toNat, a8 step.toNat, a2 (loN l - r.notices.length)] s t)) ∧
      (r.notices.length < loQ l → Completes (.reductionBudgetExpiry red step) s (fun t =>
        OnlyEvent 0x4502 data linkDie [a4 red.toNat, a8 step.toNat, a2 r.notices.length]
          { s with red := { s.red with open_ := t.red.open_ } } t ∧
        redAt t red.toNat step.toNat = { r with budgetOut := true })))

/-- A close record whose CRC is right is recorded once and put into the close ring; one whose CRC is wrong changes
nothing. A shard of an open reduction is gathered; the same again changes nothing, and another for the same place is
discarded with event 0x4504. The last counted shard of a closed reduction forms the shard's result by the canonical
tree and sends it. A result shard is recorded; the last one, with the gradient versions open, writes them with their
heads and commits the reduction, SKIP set and event 0x5302 logged when an element is not finite; a verdict of 1 is
logged with event 0x5303. (R254, R256, R259, R260, R261, R262, R264, 16 Table 16-2) -/
def Obligations.ReductionShardsAndResults : Prop :=
  ∀ (s : State),
    (∀ head counted carried, let c : CloseRec := ⟨head, counted, carried⟩
      (crSeal c ≠ bits head 0 32 → Completes (.closeRecordReceive head counted carried) s (fun t => t = s)) ∧
      (∀ l, crSeal c = bits head 0 32 → layoutFor s (crRed c) (crStep c) = some l → (redAt s (crRed c) (crStep c)).close = none →
        counted.length ≤ 65536 → carried.length ≤ 65536 →
        Completes (.closeRecordReceive head counted carried) s (fun t =>
          (redAt t (crRed c) (crStep c)).close = some c ∧ t.red.closeRing.head? = some c ∧
          t.red.closeNext = s.red.closeNext + 1 ∧ Completes (.closeRecordReceive head counted carried) t (fun u => u = t)))) ∧
    (∀ (step : W64) (red : W32) (idx : W16) k vs l, layoutFor s red.toNat step.toNat = some l →
      (∀ x, shardOf (redAt s red.toNat step.toNat) idx.toNat false k = some x →
        Completes (.shardReceive step red idx false k vs) s (fun t => (x.values = vs → t = s) ∧
          (x.values ≠ vs → OnlyEvent 0x4504 data linkDie [a4 red.toNat, a8 step.toNat, a2 idx.toNat] s t))) ∧
      (shardOf (redAt s red.toNat step.toNat) idx.toNat false k = none → redClosed s red.toNat step.toNat = false →
        Completes (.shardReceive step red idx false k vs) s (fun t => t = { s with red := { s.red with open_ := t.red.open_ } } ∧
          (redAt t red.toNat step.toNat).shards = (redAt s red.toNat step.toNat).shards ++ [⟨idx.toNat, false, k, vs⟩])) ∧
      (∀ c, shardOf (redAt s red.toNat step.toNat) idx.toNat false k = none → (redAt s red.toNat step.toNat).close = some c →
        c.counted.getD idx.toNat false = true → crCount c ≠ 0 → 1 < loN l →
        let r := redAt s red.toNat step.toNat
        let r' := { r with shards := r.shards ++ [⟨idx.toNat, false, k, vs⟩] }
        shardsIn c r' k = true → (∀ x ∈ r.results, x.1 ≠ k) → Completes (.shardReceive step red idx false k vs) s (fun t =>
          .result red step k (combine l c r' k).1 (combine l c r' k).2 ∈ t.outs))) ∧
    (∀ (step : W64) (red : W32) k vs sg l c, layoutFor s red.toNat step.toNat = some l → isOpenStep s step.toNat = true →
      let r := redAt s red.toNat step.toNat
      r.committed = false → (∀ x ∈ r.results, x.1 ≠ k) → r.close = some c → crCount c ≠ 0 →
      let got := (List.range (cdiv (redElems s l) (shardElems l))).filterMap
        (fun n => (r.results ++ [(k, vs, sg)]).find? (fun x => x.1 == n))
      (got.length < cdiv (redElems s l) (shardElems l) → Completes (.resultReceive step red k vs sg) s (fun t =>
        t = { s with red := { s.red with open_ := t.red.open_ } } ∧
        redAt t red.toNat step.toNat = { r with results := r.results ++ [(k, vs, sg)] })) ∧
      (got.length = cdiv (redElems s l) (shardElems l) → red.toNat ≠ verdictRed →
        (∀ e ∈ coveredEntries s l, gradReady s step.toNat e.1 = true) → Completes (.resultReceive step red k vs sg) s (fun t =>
          let es := got.flatMap (fun x => x.2.1)
          t.mem = (putGradients step.toNat (loOfmt l) (crCount c) (es.any nonFinite32) (decide (0 < crCarriedIn c))
            (coveredEntries s l) es s).mem ∧
          (redAt t red.toNat step.toNat).committed = true ∧ (redAt t red.toNat step.toNat).skip = es.any nonFinite32 ∧
          (es.any nonFinite32 = true → Logged 0x5302 [a4 red.toNat, a8 step.toNat] s t))) ∧
      (got.length = cdiv (redElems s l) (shardElems l) → red.toNat = verdictRed → Completes (.resultReceive step red k vs sg) s (fun t =>
        t.steps.verdict = some (got.any (fun x => x.2.1.any (· != 0))) ∧ (redAt t red.toNat step.toNat).committed = true ∧
        (got.any (fun x => x.2.1.any (· != 0)) = true → Logged 0x5303 [a8 step.toNat] s t))))

/-- A mark or an honoured bundle of a step still ahead, addressed to this module, is recorded in its round, which starts,
with its bundles in group order, once every member's mark and every announced bundle are in; nothing else changes. A
second mark of a source, or one of a started round, changes nothing, nor does a packet whose tag is of another domain
or epoch or of no member. A bundle for a version that the module does not honour goes back unserved with WRONG_STATE
and event 0x4602, and counts as arrived. A wait for marks that runs out is logged once, with event 0x4603 naming the
sources that are missing. (R276, R277, R278, R279, R280, R283, R285, 10 Table 10-2, 16 Table 16-2) -/
def Obligations.ExchangeRounds : Prop :=
  let fresh := fun (h : BitVec 512) => ({ step := BitVec.ofNat 64 (xStep h), layer := xLayer h, mb := xMb h, backward := xBack h, marks := [], bundles := [], unserved := [], started := false, gathered := false, returned := [], raised := false } : Round)
  let here := fun (s : State) (h : BitVec 512) => (roundAt s (xStep h) (xLayer h) (xMb h) (xBack h)).getD (fresh h)
  let settled := fun (s : State) (r : Round) =>
    if !r.started && roundComplete s r then { r with started := true, bundles := orderBundles s r } else r
  ∀ (s : State),
    (∀ g, tagGood s g = false → ∀ h toks rows, Completes (.markReceive ⟨g, h⟩) s (fun t => t = s) ∧
      Completes (.bundleReceive ⟨g, h⟩ toks rows) s (fun t => t = s) ∧ Completes (.returnBundleReceive ⟨g, h⟩ toks rows) s (fun t => t = s)) ∧
    (∀ g h, tagGood s g = true → xCrc h [] = bits h 0 32 → xKind h = 0 → xDst h = s.fab.moduleId → stepAhead s (xStep h) = true →
      xSrc h ∈ groupMembers s →
      ((here s h).started = false → (∀ m ∈ (here s h).marks, m.1 ≠ xSrc h) → Completes (.markReceive ⟨g, h⟩) s (fun t =>
        t = { s with exch := { s.exch with rounds := t.exch.rounds } } ∧
        roundAt t (xStep h) (xLayer h) (xMb h) (xBack h) = some (settled s { here s h with
          marks := (here s h).marks ++ [(xSrc h, if xLost h then 0 else xNtok h, xLost h)] }))) ∧
      (((here s h).started = true ∨ ∃ m ∈ (here s h).marks, m.1 = xSrc h) → Completes (.markReceive ⟨g, h⟩) s (fun t => t = s))) ∧
    (∀ g h toks rows, tagGood s g = true → xCrc h toks = bits h 0 32 → xKind h = 1 → xDst h = s.fab.moduleId → stepAhead s (xStep h) = true →
      (honoured s (xLayer h) (xExpert h) (xVer h) = true → (here s h).started = false →
        (∀ b ∈ (here s h).bundles, b.src ≠ xSrc h ∨ b.expert ≠ xExpert h) → Completes (.bundleReceive ⟨g, h⟩ toks rows) s (fun t =>
          t = { s with exch := { s.exch with rounds := t.exch.rounds } } ∧
          roundAt t (xStep h) (xLayer h) (xMb h) (xBack h) = some (settled s { here s h with
            bundles := (here s h).bundles ++ [⟨xSrc h, xExpert h, BitVec.ofNat 16 (xVer h), toks, rows⟩] }))) ∧
      (honoured s (xLayer h) (xExpert h) (xVer h) = false → xSrc h ≠ s.fab.moduleId →
        Completes (.bundleReceive ⟨g, h⟩ toks rows) s (fun t =>
          OnlyEvent 0x4602 data linkDie [a2 (xSrc h).toNat, a2 (xLayer h), a2 (xExpert h), a2 (xVer h)]
            (emit (.exchange (ownTag s) (returnHead h stWrongState toks) toks [])
              { s with exch := { s.exch with rounds := t.exch.rounds } }) t ∧
          roundAt t (xStep h) (xLayer h) (xMb h) (xBack h) = some (settled s { here s h with
            unserved := (here s h).unserved ++ [xSrc h] })))) ∧
    (∀ (step : W64) (layer : Fin 256) (mb : Byte) back r, roundAt s step.toNat layer.val mb.toNat back = some r →
      (missingMarks s r ≠ [] → r.raised = false → r.started = false → Completes (.markWaitTimeout step layer mb back) s (fun t =>
        OnlyEvent 0x4603 data linkDie
          (a8 step.toNat :: a2 layer.val :: a2 mb.toNat :: aList 12 ((missingMarks s r).map (fun m => m.toNat)))
          { s with exch := { s.exch with rounds := t.exch.rounds } } t ∧
        roundAt t step.toNat layer.val mb.toNat back = some { r with raised := true })) ∧
      ((missingMarks s r = [] ∨ r.raised = true) → Completes (.markWaitTimeout step layer mb back) s (fun t => t = s)))

/-- The router takes a forward dispatch of the open step: every choice of the route list is in its assignment list, the
layer's counters grow by the choices, those moved and those dropped for capacity, and a mark goes to every other
member that can be reached. A backward dispatch follows the forward one's assignment list. A return bundle with DONE
gives its rows, widened to FP32, to the choices that it answers; once every return is in, the dispatch is combined,
and of a forward one each token's outputs are added into the residual buffer in the order of its choices. A return
bundle with WRONG_STATE drops its choices and counts them. (R273, R274, R275, R276, R277, R285, R286) -/
def Obligations.ExchangeDispatchAndReturns : Prop :=
  let mine := fun (h : BitVec 512) (toks : List W32) (c : Assign) => c.expert == xExpert h && toks.any (fun t => t.toNat == c.token) &&
    (match c.holder with | some x => x.2.toNat == xVer h | none => false)
  let marked := fun (s t : State) (step : W64) (layer mb : Nat) (back : Bool) => ∀ m ∈ groupMembers s, m ≠ s.fab.moduleId → lostTarget s m = false →
    ∃ h, .exchange (ownTag s) h [] [] ∈ t.outs ∧ xKind h = 0 ∧ xDst h = m ∧ xStep h = step.toNat ∧ xLayer h = layer ∧ xMb h = mb ∧
      xBack h = back ∧ xLost h = false
  let names := fun (l : List Assign) => l.map (fun c => (c.token, c.order, c.expert, c.gate))
  ∀ (s : State),
    (∀ (layer : Fin 256) (mb : Byte) (list : W64) tokens j p, s.steps.job = some j → openPlan s = some p →
      domainRuns s (linkDie + mb.toNat % 4) = true → (∃ b ∈ p.bindings, b.layer = layer.val) → s.steps.workLost = false →
      (dispatchAt s j.step.toNat layer.val mb.toNat false = none → Completes (.routerDispatch layer mb list tokens) s (fun t =>
        let cs := routeList s list.toNat tokens p.topk
        let w := cs.foldl (walkChoice s p layer.val) { rrs := [], moved := 0, dropped := 0, out := [] }
        let old := tget s.exch.routers layer.val Router.zero
        let new := tget t.exch.routers layer.val Router.zero
        (∃ d, dispatchAt t j.step.toNat layer.val mb.toNat false = some d ∧
          names d.choices = cs.map (fun c => (c.token, c.order, c.expert, c.gate))) ∧
        new.choices = old.choices + tokens * p.topk ∧ new.moved = old.moved + w.moved ∧ new.dropCap = old.dropCap + w.dropped ∧
        marked s t j.step layer.val mb.toNat false)) ∧
      (∀ d, dispatchAt s j.step.toNat layer.val mb.toNat false = some d → d.combined = true →
        dispatchAt s j.step.toNat layer.val mb.toNat true = none → Completes (.routerDispatch layer mb list tokens) s (fun t =>
        (∃ d', dispatchAt t j.step.toNat layer.val mb.toNat true = some d' ∧ names d'.choices = names d.choices) ∧
        marked s t j.step layer.val mb.toNat true))) ∧
    (∀ g h toks rows d, tagGood s g = true → xCrc h toks = bits h 0 32 → xKind h = 2 → xSrc h = s.fab.moduleId →
      dispatchAt s (xStep h) (xLayer h) (xMb h) (xBack h) = some d → d.combined = false →
      (xStatus h = stDone →
        let cs := d.choices.map (fun c => if mine h toks c && c.back.isNone then
          { c with back := ((toks.zip rows).find? (fun x => x.1.toNat == c.token)).map (fun x => rowValues (xFmt h) x.2) } else c)
        ((∃ c ∈ cs, c.holder ≠ none ∧ c.back = none) → Completes (.returnBundleReceive ⟨g, h⟩ toks rows) s (fun t =>
          t = { s with exch := { s.exch with dispatches := t.exch.dispatches } } ∧
          dispatchAt t (xStep h) (xLayer h) (xMb h) (xBack h) = some { d with choices := cs })) ∧
        (∀ p tr, (∀ c ∈ cs, c.holder ≠ none → c.back ≠ none) → openPlan s = some p → rowsFor p (xLayer h) (xMb h) = some tr →
          xBack h = false → s.steps.workLost = false → Completes (.returnBundleReceive ⟨g, h⟩ toks rows) s (fun t =>
            dispatchAt t (xStep h) (xLayer h) (xMb h) (xBack h) = some { d with choices := cs, combined := true } ∧
            t = { s with mem := t.mem, exch := { s.exch with dispatches := t.exch.dispatches } } ∧
            t.mem = (forEach (cs.foldl (fun l c => addNew l c.token) []) (fun k u =>
              wr (tr.residual.toNat + 4 * hidOf p (xLayer h) * k)
                (((cs.filter (fun c => c.token == k)).foldl combineRow
                  (words32 u (tr.residual.toNat + 4 * hidOf p (xLayer h) * k) (hidOf p (xLayer h)))).flatMap
                    (fun v => bytesLE 4 v.toNat)) u) s).mem))) ∧
      (xStatus h = stWrongState → Completes (.returnBundleReceive ⟨g, h⟩ toks rows) s (fun t =>
        (tget t.exch.routers (xLayer h) Router.zero).dropVer = (tget s.exch.routers (xLayer h) Router.zero).dropVer +
          (d.choices.filter (fun c => c.holder.isSome && c.back.isNone && mine h toks c)).length ∧
        ∃ d', dispatchAt t (xStep h) (xLayer h) (xMb h) (xBack h) = some d' ∧ d'.choices = d.choices.map (fun c =>
          if c.holder.isSome && c.back.isNone && mine h toks c then { c with holder := none } else c))))

/-- A lane in service that passes its error threshold goes out with event 0x4101, and a port left with fewer than 2 lanes
goes down with event 0x4102. A lane recalibrates where no other lane of its die does; a clean end returns it to
service, and a port that was down comes up with 2 lanes, with event 0x4103. A trained port whose switch port number is
the rack index takes its lanes into service and is up with 2 or more; another number is event 0x4104; in a bench the
peer's rack index must differ from the own. A trained link's rate and width stand in the port status word, with event
0x4901 below the full ones. An AER error sets its bit and raises vector 65; DOE Discovery answers its two protocols.
(R292, R293, R294, R296, R320, R329, R378, 11 Table 11-2, 16 Table 16-2) -/
def Obligations.LanesPortsAndLinks : Prop :=
  let onlyPorts := fun (s t : State) => t = { s with fab := { s.fab with lanes := t.fab.lanes, up := t.fab.up, draining := t.fab.draining }, tests := t.tests, cap := t.cap, log := t.log, power := { s.power with alert := t.power.alert }, porter := { s.porter with msix := t.porter.msix } }
  ∀ (s : State),
    (∀ l : Fin 144, laneState s l.val = .inService → Completes (.laneOutOfService l) s (fun t =>
      onlyPorts s t ∧ laneState t l.val = .out ∧ (∀ k, k ≠ l.val → laneState t k = laneState s k) ∧
      Logged 0x4101 [a2 (l.val / 4), a2 l.val, a2 (portWidth s (l.val / 4) - 1)] s t ∧
      (portUp s (l.val / 4) = true → portWidth s (l.val / 4) ≤ 2 →
        portUp t (l.val / 4) = false ∧ Logged 0x4102 [a2 (l.val / 4)] s t) ∧
      (portUp s (l.val / 4) = true → 2 < portWidth s (l.val / 4) → portUp t (l.val / 4) = true))) ∧
    (∀ l : Fin 144, (∀ x ∈ s.fab.lanes, x.1 / 36 = l.val / 36 → x.2 ≠ .recalibrating) → tfind? s.fab.up (l.val / 4) ≠ none →
      domainRuns s (portDie (l.val / 4)) = true → Completes (.laneRecalibrationStart l) s (fun t =>
        onlyPorts s t ∧ laneState t l.val = .recalibrating ∧ ∀ k, k ≠ l.val → laneState t k = laneState s k)) ∧
    (∀ (l : Fin 144) clean, laneState s l.val = .recalibrating → Completes (.laneRecalibrationEnd l clean) s (fun t =>
      onlyPorts s t ∧ laneState t l.val = (if clean then .inService else .out) ∧
      (∀ k, k ≠ l.val → laneState t k = laneState s k) ∧
      (clean = true → tfind? s.fab.up (l.val / 4) = some false → 1 ≤ portWidth s (l.val / 4) →
        portUp t (l.val / 4) = true ∧ Logged 0x4103 [a2 (l.val / 4), a2 (portWidth s (l.val / 4) + 1)] s t))) ∧
    (∀ (p : Fin 36) bench reported lanes, domainRuns s (portDie p.val) = true → portUp s p.val = false →
      let right := (reported.toNat = s.power.slotId.toNat % 128 ↔ bench = false) ∧ s.power.slotId.getLsbD 7 = false
      (right → tfind? s.fab.up p.val = none →
        Completes (.linkPortTrained p ⟨bench, reported⟩ lanes) s (fun t =>
          onlyPorts s t ∧ (∀ i, i < 4 → lanes.getLsbD i = true → laneState t (4 * p.val + i) = .inService) ∧
          portUp t p.val = decide (2 ≤ portWidth t p.val))) ∧
      (¬ right → Completes (.linkPortTrained p ⟨bench, reported⟩ lanes) s
        (OnlyEvent 0x4104 data (portDie p.val) [a2 p.val] s))) ∧
    (∀ (rate width : BitVec 4),
      (fnUp s .host = true → Completes (.hostLinkTrained .host rate width) s (fun t =>
        let u := { s with ports := { s.ports with hostLink := rate ++ width } }
        if rate = 6 ∧ 4 ≤ width.toNat then t = u
        else OnlyEvent 0x4901 ctrl dieHost [a2 0, a2 rate.toNat, a2 width.toNat] u t)) ∧
      (fnRuns s .stor = true → Completes (.hostLinkTrained .stor rate width) s (fun t =>
        let u := { s with ports := { s.ports with storLink := rate ++ width } }
        if rate = 6 ∧ (if s.ports.storRole = 1 then 2 else 3) ≤ width.toNat then t = u
        else OnlyEvent 0x4901 ctrl dieStor [a2 1, a2 rate.toNat, a2 width.toNat] u t))) ∧
    (∀ f : PortFn, fnRuns s f = true → Completes (.portAerError f) s (fun t =>
      t = { s with ports := { s.ports with aer := true }, porter := { s.porter with msix := (128 * fnCode f + 65) :: s.porter.msix } })) ∧
    (∀ i : Byte, fnUp s .host = true → Completes (.doeDiscovery i) s (fun t =>
      (i = 0 → t = emit (.doe 1 0 1) s) ∧ (i = 1 → t = emit (.doe 1 1 0) s) ∧
      (i ≠ 0 → i ≠ 1 → t = { s with outs := t.outs } ∧ t.outs.length = s.outs.length + 1)))

/-- The next entry of a ring, with the ordering of Table 11-7 met and nothing of Table 11-6 broken, is sent on its
address's plane to the module of its RST entry: a READ, a WRITE, or one of the six atomics, each atomic with the next
sequence number to its target; a resubmitted atomic keeps its number, and is INDETERMINATE with event 0x4302 when its
tag is of an earlier epoch; a MSG takes the next number to its destination ring; a READ or WRITE without an open plane
waits. A FENCE completes with DONE once nothing of its ring is outstanding. An entry that breaks Table 11-6, or that a
check at the source refuses, completes at once with that status and is not sent. (R299, R302, R303, R304, R306, R309,
R311, R315, R317, 11 Table 11-5, 11 Table 11-6, 11 Table 11-7) -/
def Obligations.FabricRequestsIssue : Prop :=
  let target := fun (s : State) (e : BitVec 512) => rstModule (rstAt s (segOf (rqRemote e)))
  let free := fun (s : State) (e : BitVec 512) => planeFor s (rqRemote e) (target s e) ≠ 36 ∧ lineHeld s (rqRemote e) (target s e) = false
  let current := fun (s : State) (e : BitVec 512) =>
    match (s.fab.lostAtomics.filter (fun x => x.1 == target s e && x.2.1 == BitVec.ofNat 32 (rqSeq e))).getLast? with
    | some x => x.2.2 = s.fab.epoch
    | none => 0 < rqSeq e ∧ rqSeq e < (tget s.fab.nextSeq (target s e) 1).toNat
  ∀ (s : State) (ring : Fin 16) e r, AtEntry ring.val e r s →
    (badEntry s e = false → free s e →
      (rqOp e = 1 → sourceCheck s (rqRemote e) rightRd = none → Completes (.fabRead ring e) s (fun t =>
        Issued ring.val e r (target s e) (planeFor s (rqRemote e) (target s e)) 0 s t)) ∧
      (rqOp e = 2 → sourceCheck s (rqRemote e) rightWr = none → Completes (.fabWrite ring e) s (fun t =>
        Issued ring.val e r (target s e) (planeFor s (rqRemote e) (target s e)) 0 s t)) ∧
      (rqOp e = 3 → sourceCheck s (rqRemote e) rightAt = none → outstandingAtomics s (target s e) < 64 →
        (∀ c, rqRetry e = false → (rqAop e, c) ∈ [(0, Instr.fabAtomicAdd ring e), (1, .fabAtomicSwap ring e), (2, .fabAtomicCas ring e),
            (3, .fabAtomicAnd ring e), (4, .fabAtomicOr ring e), (5, .fabAtomicMax ring e)] → Completes c s (fun t =>
          Issued ring.val e r (target s e) (planeFor s (rqRemote e) (target s e)) (tget s.fab.nextSeq (target s e) 1) s t ∧
          tget t.fab.nextSeq (target s e) 1 = tget s.fab.nextSeq (target s e) 1 + 1)) ∧
        (rqRetry e = true → current s e → Completes (.fabAtomicResubmit ring e) s (fun t =>
            Issued ring.val e r (target s e) (planeFor s (rqRemote e) (target s e)) (BitVec.ofNat 32 (rqSeq e)) s t ∧
            t.fab.nextSeq = s.fab.nextSeq)))) ∧
    (badEntry s e = false → ¬ free s e →
      (rqOp e = 1 → sourceCheck s (rqRemote e) rightRd = none → Completes (.fabRead ring e) s (fun t => t = s)) ∧
      (rqOp e = 2 → sourceCheck s (rqRemote e) rightWr = none → Completes (.fabWrite ring e) s (fun t => t = s))) ∧
    (badEntry s e = false → rqOp e = 3 → rqRetry e = true → sourceCheck s (rqRemote e) rightAt = none →
      ¬ current s e → Stands ring.val (refusedState ring.val e stIndeterminate s) →
      Completes (.fabAtomicResubmit ring e) s (OnlyEvent 0x4302 data linkDie
        [a2 (s.power.slotId.toNat % 128), a4 (rqSeq e), a4 1] (refusedState ring.val e stIndeterminate s))) ∧
    (badEntry s e = false → rqOp e = 4 → r.issued = [] → Stands ring.val (refusedState ring.val e stDone s) →
      Completes (.fabFence ring e) s (fun t => t = refusedState ring.val e stDone s)) ∧
    (badEntry s e = false → rqOp e = 5 → BitVec.ofNat 16 (rqDest e) ∉ s.fab.unreachable → messagePlanes s (rqDest e) ≠ [] → Completes (.fabMsg ring e) s (fun t =>
      Issued ring.val e r (rqDest e) 36 (tget s.fab.nextMsg (rqDest e * 64 + rqRing e) 1) s t ∧
      tget t.fab.nextMsg (rqDest e * 64 + rqRing e) 1 = tget s.fab.nextMsg (rqDest e * 64 + rqRing e) 1 + 1)) ∧
    (badEntry s e = true → Stands ring.val (refusedState ring.val e stBadArg s) →
      (rqOp e = 1 → Completes (.fabRead ring e) s (fun t => t = refusedState ring.val e stBadArg s)) ∧
      (rqOp e = 2 → Completes (.fabWrite ring e) s (fun t => t = refusedState ring.val e stBadArg s)) ∧
      (rqOp e = 5 → Completes (.fabMsg ring e) s (fun t => t = refusedState ring.val e stBadArg s))) ∧
    (∀ st, badEntry s e = false → Stands ring.val (refusedState ring.val e st s) →
      (rqOp e = 1 → sourceCheck s (rqRemote e) rightRd = some st → Completes (.fabRead ring e) s (fun t =>
        t = refusedState ring.val e st s)) ∧
      (rqOp e = 2 → sourceCheck s (rqRemote e) rightWr = some st → Completes (.fabWrite ring e) s (fun t =>
        t = refusedState ring.val e st s)))

/-- The answer to an issued request ends it with its status: a READ's data goes to its local buffer, an atomic's
completion carries its sequence number and the old value, and the ring advances. An answer of another domain or epoch
is not taken. Without an answer the request is sent again, on a plane that is up; after the third attempt it ends and
its target becomes unreachable, with event 0x4701, a report to the fabric manager, and nothing outstanding to it; a
switch's report of a member's port does the same. A refused message is sent again until it has been refused too long,
then it ends with event 0x4801; a lost acknowledgement sends it once more with event 0x4802. (R294, R297, R306, R310,
R311, R315, R316, R317, 16 Table 16-2) -/
def Obligations.RequestAnswersAndTimeouts : Prop :=
  let ended := fun (k pos : Nat) (q : Request) (st seq result : Nat) (s : State) => settleDrain (putCompletion q.entry st seq result
    (setRing k (fun r => { r with issued := r.issued.filter (fun x => x.pos != pos) }) s))
  ∀ (s : State) (ring : Fin 16) pos q, issuedAt s ring.val pos = some q →
    (∀ tag (st : Byte) bytes,
      (tagGood s tag = false → rqOp q.entry ≠ 5 → Completes (.requestResponseArrival ring pos ⟨tag, st⟩ bytes) s (fun t => t = s)) ∧
      (tagGood s tag = true →
      (rqOp q.entry = 1 → wayShut s (linkPath ((planeDie s q.plane).getD linkDie) (rqLocal q.entry)) = false →
        let u := ended ring.val pos q st.toNat 0 0
          (if st.toNat = stDone then portWrite 3 (rqLocal q.entry) (fit (128 * rqLen q.entry) 0 bytes) s else s)
        Stands ring.val u → Completes (.requestResponseArrival ring pos ⟨tag, st⟩ bytes) s (fun t => t = u)) ∧
      (rqOp q.entry = 2 →
        Stands ring.val (ended ring.val pos q st.toNat 0 0 s) → Completes (.requestResponseArrival ring pos ⟨tag, st⟩ bytes) s (fun t =>
          t = ended ring.val pos q st.toNat 0 0 s)) ∧
      (rqOp q.entry = 3 → st.toNat = stDone →
        let u := ended ring.val pos q stDone q.seq.toNat (natLE (bytes.take 8)) s
        Stands ring.val u → Completes (.requestResponseArrival ring pos ⟨tag, st⟩ bytes) s (fun t => t = u))) ∧
      (rqOp q.entry = 5 → st.toNat = stDone →
        Stands ring.val (ended ring.val pos q stDone 0 0 s) → Completes (.requestResponseArrival ring pos ⟨tag, st⟩ bytes) s (fun t =>
          t = ended ring.val pos q stDone 0 0 s))) ∧
    (∀ c, (rqOp q.entry = 3 ∧ c = Instr.atomicReplyTimeout ring pos ∨
        rqOp q.entry ≠ 3 ∧ rqOp q.entry ≠ 5 ∧ c = .windowRequestTimeout ring pos) →
      (q.attempts < 3 → Completes c s (fun t =>
        let p := planeAgain s q
        t.outs = (if p = 36 then s.outs else packetOf s q.entry q.target p q.seq :: s.outs) ∧
        t = { s with fab := t.fab, outs := t.outs } ∧
        issuedAt t ring.val pos = some { q with attempts := q.attempts + 1, plane := p })) ∧
      (3 ≤ q.attempts → BitVec.ofNat 16 q.target ∉ s.fab.unreachable → Completes c s (fun t =>
        issuedAt t ring.val pos = none ∧ Unreachable (BitVec.ofNat 16 q.target) s t))) ∧
    (∀ rack : Fin 128, ∀ m, s.fab.members.find? (fun m => m.rack.toNat == rack.val) = some m → m.id ∉ s.fab.unreachable →
      Completes (.switchPortDownReport rack) s (Unreachable m.id s)) ∧
    (rqOp q.entry = 5 →
      Completes (.messageResendTimer ring pos false) s (fun t => t = sendAgain q s) ∧
      Completes (.messageResendTimer ring pos true) s (fun t =>
        issuedAt t ring.val pos = none ∧ Logged 0x4801 [a2 (rqDest q.entry), a2 (rqRing q.entry)] s t) ∧
      (q.attempts < 2 → Completes (.messageAckTimeout ring pos) s (fun t =>
        OnlyEvent 0x4802 data linkDie [a2 (rqDest q.entry), a2 (rqRing q.entry), a4 q.seq.toNat]
          (sendAgain q { s with fab := t.fab }) t ∧
        issuedAt t ring.val pos = some { q with attempts := 2 })) ∧
      (2 ≤ q.attempts → Completes (.messageAckTimeout ring pos) s (fun t => t = s)))

/-- A request that fails a check at the target is refused with its status, with event 0x4201 once for its source and
segment. A store waits in its lines' queues; so does a load for each of its lines where something waits, and one whose
lines are free is answered with the bytes. An atomic whose receipt is held is answered from it with event 0x4301, one
older than every receipt held is INDETERMINATE with event 0x4302, a new one waits at its line. A line's slot performs
the oldest: the store's bytes are written, the atomic's word takes the value of its operation, a receipt is kept and
the old value goes back. A line with 32 waiting is reported hot with event 0x4401, at most once in 2^20 beats. A
message goes whole into the next slot of its receive ring, or is refused where there is none. (R302, R307, R308, R309,
R310, R312, R313, R314, R315, 11 Table 11-9, 16 Table 16-2) -/
def Obligations.TargetAccessesAndAtomics : Prop :=
  let reply := fun (s : State) (a : W64) (src : Fin 128) (st : Nat) (bytes : List Byte) =>
    Out.winReply (ownTag s) src.val (replyPlane s a.toNat src.val) (BitVec.ofNat 8 st) bytes
  let die := fun (s : State) (a : W64) => (planeDie s (homePlane a.toNat)).getD linkDie
  let isLoad := fun (w : Waiting) => match w with
    | .load _ _ _ => true
    | _ => false
  ∀ (s : State),
    (∀ (r : WinReq), arrives s r.addr.toNat none = true → r.lines ≠ 0 → ∀ res, targetCheck s r.srcRack.val r.domain r.epoch r.addr.toNat (128 * r.lines)
        (if r.write then rightWr else rightRd) = res →
      (∀ st ev, res = .inl (st, ev) → Completes (.remoteRequestArrival r) s (fun t =>
        t.outs = reply s r.addr r.srcRack st [] :: s.outs ∧ t.mem = s.mem ∧
        (ev = true → (r.srcRack.val, segOf r.addr.toNat % 512) ∉ s.fab.refused →
          Logged 0x4201 [a2 r.srcRack.val, a2 (segOf r.addr.toNat % 512)] s t))) ∧
      (∀ home, res = .inr home → arrives s r.addr.toNat (some home) = true → r.write = true →
        (∀ i, i < r.lines → lineOpen s (lineKey home + i) (homePlane (r.addr.toNat + 128 * i)) r.srcRack = true) →
        Completes (.remoteRequestArrival r) s (fun t => t = { s with fab := { s.fab with lines := t.fab.lines } } ∧
          ∀ i, i < r.lines → (lineAt t (lineKey home + i)).queue = (lineAt s (lineKey home + i)).queue ++
            [.access { r with addr := r.addr + BitVec.ofNat 64 (128 * i), data := (r.data.drop (128 * i)).take 128, lines := 1 } (home + 128 * i)])) ∧
      (∀ home, res = .inr home → arrives s r.addr.toNat (some home) = true → r.write = false →
        (∀ i, i < r.lines → lineOpen s (lineKey home + i) (homePlane (r.addr.toNat + 128 * i)) r.srcRack = true) →
        Completes (.remoteRequestArrival r) s (fun t => t.mem = s.mem ∧
          ((∀ i, i < r.lines → (lineAt s (lineKey home + i)).queue = []) →
            t.outs = reply s r.addr r.srcRack 0 (rd s home (128 * r.lines)) :: s.outs) ∧
          ((∃ i, i < r.lines ∧ (lineAt s (lineKey home + i)).queue ≠ []) → t.outs = s.outs) ∧
          ∀ i, i < r.lines → (lineAt t (lineKey home + i)).queue = (lineAt s (lineKey home + i)).queue ++
            (if (lineAt s (lineKey home + i)).queue = [] then [] else [.load s.fab.nextLoad i r.srcRack])))) ∧
    (∀ (r : AtomReq) home, arrives s r.addr.toNat (some home) = true → r.addr.toNat % 8 = 0 → r.aop.toNat ≤ 5 →
      targetCheck s r.srcRack.val r.domain r.epoch r.addr.toNat 8 rightAt = .inr home →
      (∀ x, (receiptsOf s r.srcRack.val).find? (fun x => x.seq == r.seq.toNat) = some x → Completes (.atomicArrival r) s
        (OnlyEvent 0x4301 data (die s r.addr) [a2 r.srcRack.val, a4 r.seq.toNat] (winAnswer r.addr.toNat r.srcRack.val stDone x.old s))) ∧
      ((∀ x ∈ receiptsOf s r.srcRack.val, x.seq ≠ r.seq.toNat) → r.seq.toNat < lowestHeld s r.srcRack.val →
        Completes (.atomicArrival r) s
          (OnlyEvent 0x4302 data (die s r.addr) [a2 r.srcRack.val, a4 r.seq.toNat, a4 (lowestHeld s r.srcRack.val)]
            (emit (reply s r.addr r.srcRack stIndeterminate []) s))) ∧
      ((∀ x ∈ receiptsOf s r.srcRack.val, x.seq ≠ r.seq.toNat) → lowestHeld s r.srcRack.val ≤ r.seq.toNat →
        lineOpen s (lineKey home) (homePlane r.addr.toNat) r.srcRack = true → Completes (.atomicArrival r) s (fun t =>
          t = { s with fab := { s.fab with lines := t.fab.lines } } ∧
          (lineAt t (lineKey home)).queue = (lineAt s (lineKey home)).queue ++ [.atomic r home]))) ∧
    (∀ (line : W64) rest, (planeDie s (lineAt s (lineKey line.toNat)).plane).isSome = true →
      (∀ r home, (lineAt s (lineKey line.toNat)).queue = .access r home :: rest →
        Completes (.coalescerSlot line) s (fun t => t.mem = (storeLine home r.mask r.data s).mem ∧
          reply s r.addr r.srcRack 0 [] ∈ t.outs ∧ (lineAt t (lineKey line.toNat)).queue = rest.dropWhile isLoad)) ∧
      (∀ r home, MemGood s → (lineAt s (lineKey line.toNat)).queue = [.atomic r home] →
        (∀ x ∈ receiptsOf s r.srcRack.val, x.seq ≠ r.seq.toNat) → lowestHeld s r.srcRack.val ≤ r.seq.toNat →
        Completes (.coalescerSlot line) s (fun t =>
          rdNat t home 8 = (atomicNew r.aop.toNat (BitVec.ofNat 64 (rdNat s home 8)) r.operand1 r.operand2).toNat ∧
          (∀ a, (a < home ∨ home + 8 ≤ a) → cellsGet t.mem.cells a = cellsGet s.mem.cells a) ∧
          t.outs = reply s r.addr r.srcRack stDone (bytesLE 8 (rdNat s home 8)) :: s.outs ∧
          { seq := r.seq.toNat, addr := BitVec.ofNat 64 home, old := BitVec.ofNat 64 (rdNat s home 8) } ∈ receiptsOf t r.srcRack.val)) ∧
      (32 ≤ (lineAt s (lineKey line.toNat)).queue.length →
        let d := (planeDie s (lineAt s (lineKey line.toNat)).plane).getD linkDie
        (∀ b, (lineAt s (lineKey line.toNat)).hot = some b → ((paceAt s d).beats - b).toNat < 2 ^ 20 →
          Completes (.hotLineTimeout line) s (fun t => t = s)) ∧
        ((∀ b, (lineAt s (lineKey line.toNat)).hot = some b → 2 ^ 20 ≤ ((paceAt s d).beats - b).toNat) →
        Completes (.hotLineTimeout line) s (fun t => (lineAt t (lineKey line.toNat)).hot = some (paceAt s d).beats ∧ ∃ x y z,
          OnlyEvent 0x4401 data d [a8 (128 * lineKey line.toNat), a2 x, a2 y, a2 z]
            { s with fab := { s.fab with lines := t.fab.lines } } t)))) ∧
    (∀ (src : W16) (ring : Fin 64) (seq : W32) payload,
      (tfind? s.fab.receive ring.val = none → Completes (.messageArrival src ring seq payload) s (fun t =>
        t = emit (.msgAck src ring.val false) s)) ∧
      (∀ k r, MemGood s → tfind? s.fab.receive ring.val = some k → roomAt s k.toNat = some r → payload.length ≤ 4032 →
        rdNat s (r.base.toNat + 8) 4 ≠ 0 →
        (rdNat s r.base.toNat 4 + 2 ^ 32 - rdNat s (r.base.toNat + 4) 4) % 2 ^ 32 < rdNat s (r.base.toNat + 8) 4 →
        Completes (.messageArrival src ring seq payload) s (fun t =>
          let w := rdNat s r.base.toNat 4
          t.outs = .msgAck src ring.val true :: s.outs ∧ rd t r.base.toNat 4 = bytesLE 4 (w + 1) ∧
          rd t (r.base.toNat + 64 + 4096 * (w % rdNat s (r.base.toNat + 8) 4)) (64 + payload.length) =
            messageHead src.toNat seq.toNat payload ++ payload)))

/-- A doorbell of a function that is up takes its value and changes only its mailbox; an SQ_TAIL that would lower the
commands submitted, or a CQ_HEAD beyond the completions posted, also stops the mailbox, sets its MBX_ERR bit and is
logged with event 0x8301. A mailbox whose session has ended unbinds once CQ_HEAD passes its last completion. Writing 1
to its bit re-arms a stopped mailbox with its ring empty. A message of the baseboard controller or the fabric manager
waits at its mailbox; with 8 of the controller outstanding it is turned away, and while only the boot ROM runs it is
answered with the cause. (R345, R346, R347, R354, R355, R359, R460, 13 Table 13-3, 13 Table 13-4) -/
def Obligations.DoorbellsAndMessages : Prop :=
  ∀ (s : State),
    (∀ (mb : Fin 64) (v : BitVec 6), bellHeard s mb.val = true →
      (¬ (bellChecked s mb.val = true ∧ tailLowers (mbAt s mb.val) v = true) → Completes (.doorbellSqTailWrite mb v) s (fun t =>
        OnlyMb mb.val s t ∧ mbAt t mb.val = { mbAt s mb.val with sqTail := v })) ∧
      (bellChecked s mb.val = true → tailLowers (mbAt s mb.val) v = true → Completes (.doorbellSqTailWrite mb v) s (fun t =>
        OnlyEvent 0x8301 ctrl dieControl [a2 mb.val, a2 v.toNat] { s with porter := { s.porter with
          mailboxes := t.porter.mailboxes, mbxErr := s.porter.mbxErr ||| BitVec.ofNat 64 (2 ^ mb.val) } } t ∧
        mbAt t mb.val = { mbAt s mb.val with sqTail := v, state := 2 } ∧ ∀ k, k ≠ mb.val → mbAt t k = mbAt s k)) ∧
      (¬ (bellChecked s mb.val = true ∧ headPasses (mbAt s mb.val) v = true) → Completes (.doorbellCqHeadWrite mb v) s (fun t =>
        OnlyMb mb.val s t ∧
        ((mbAt s mb.val).ending = false → mbAt t mb.val = { mbAt s mb.val with
          cqHead := v, taken := (mbAt s mb.val).taken - (v - (mbAt s mb.val).cqHead).toNat }) ∧
        ((mbAt s mb.val).ending = true → v = (mbAt s mb.val).cqTail → mbAt t mb.val = { mbAt s mb.val with
          cq := [], sqTail := 0, sqHead := 0, cqHead := 0, cqTail := 0, phase := true, state := 0, session := 0, taken := 0,
          ending := false }))) ∧
      (bellChecked s mb.val = true → headPasses (mbAt s mb.val) v = true → Completes (.doorbellCqHeadWrite mb v) s (fun t =>
        Logged 0x8301 [a2 mb.val, a2 v.toNat] s t ∧ (mbAt t mb.val).state = 2 ∧ t.porter.mbxErr.getLsbD mb.val = true))) ∧
    (∀ (mask : W64) (n : Nat), n < 64 → mask.getLsbD n = true → s.porter.mbxErr.getLsbD n = true → (mbAt s n).state = 2 →
      Completes (.mbxErrClear mask) s (fun t =>
        t = { s with porter := { s.porter with mailboxes := t.porter.mailboxes, mbxErr := t.porter.mbxErr } } ∧
        t.porter.mbxErr = s.porter.mbxErr &&& ~~~mask ∧ (mbAt t n).sqHead = (mbAt s n).sqTail ∧
        (mbAt t n).state = (if (mbAt s n).session = 0 then 0 else 1) ∧
        ∀ k, k < 64 → mask.getLsbD k = false → mbAt t k = mbAt s k)) ∧
    (∀ e arg,
      (s.power.phase ≠ .bootStopped → keeperAlive s = true → outstandingOf s 64 < 8 → Completes (.bmcMessageArrival e arg) s (fun t =>
        OnlyMb 64 s t ∧ mbAt t 64 = { mbAt s 64 with msgs := (mbAt s 64).msgs ++ [(e, arg)] })) ∧
      (s.power.phase ≠ .bootStopped → keeperAlive s = true → 8 ≤ outstandingOf s 64 → Completes (.bmcMessageArrival e arg) s (fun t =>
        mbAt t 64 = mbAt s 64 ∧ ∃ x, .mctpCpl 64 x [] ∈ t.outs ∧ x.cid = bits e 992 16 ∧ x.status = BitVec.ofNat 8 stWrongState)) ∧
      (s.power.phase = .bootStopped → Completes (.bmcMessageArrival e arg) s (fun t =>
        mbAt t 64 = mbAt s 64 ∧ ∃ x, .mctpCpl 64 x [] ∈ t.outs ∧ x.cid = bits e 992 16 ∧ x.status = BitVec.ofNat 8 stWrongState ∧
          x.result0 = BitVec.ofNat 64 (bootReply s).r0 ∧ x.result1 = BitVec.ofNat 64 (bootReply s).r1)) ∧
      (porterRuns s = true → outstandingOf s 65 < 64 → Completes (.fmMessageArrival e arg) s (fun t =>
        OnlyMb 65 s t ∧ mbAt t 65 = { mbAt s 65 with msgs := (mbAt s 65).msgs ++ [(e, arg)] })))

/-- A write to BAR0 of a shape that is not allowed is discarded and sets the misuse bit, as every invalid access does; an
allowed one puts its bytes into the submission ring that lies there, rings a doorbell, clears a status bit, or sets
the MSI-X words; one to a reserved region changes nothing. A BAR2 request inside a mapped aperture with the right for
it reads or writes exactly the room's bytes; a write with poison is discarded with event 0x4903; one that reaches no
memory is discarded or reads ones, with event 0x4902 once for the mapping. A finished DMA copy has moved its bytes,
element by element, and its command is no longer outstanding; bytes for a task room are discarded with event 0x8104.
Over a crossing that is shut nothing is written and no data comes. (R15, R37, R322, R323, R324, R326, R328, R335,
R378, 12 Table 12-1, 16 Table 16-2) -/
def Obligations.BarAccessesAndDma : Prop :=
  ∀ (s : State) (f : PortFn), fnUp s f = true →
    (∀ off bs, off < 0x4000000 →
      (bar0Fits off bs.length = false → Completes (.registerWrite f off bs) s (fun t =>
        t = { s with porter := { s.porter with bar0Misuse := true } })) ∧
      (bar0Fits off bs.length = true →
        (carries s f (off / 0x4000) = true → off < 0x100000 → off % 0x4000 + bs.length ≤ 0x2000 →
          Completes (.registerWrite f off bs) s (fun t => OnlyMb (off / 0x4000) s t ∧ ∀ i (h : i < bs.length),
            fld (tget (mbAt t (off / 0x4000)).sq ((off % 0x4000 + i) / 128) 0) (8 * ((off % 0x4000 + i) % 128)) 8 = bs[i].toNat)) ∧
        (0x310000 ≤ off → off + bs.length ≤ 0x310420 → Completes (.registerWrite f off bs) s (fun t =>
          t = { s with ports := { s.ports with regs := t.ports.regs } } ∧ ∀ i (h : i < bs.length),
            tfind? t.ports.regs (fnCode f * 2 ^ 32 + off + i) = some bs[i])) ∧
        (0x100400 ≤ off → off < 0x301000 → Completes (.registerWrite f off bs) s (fun t => t = s)))) ∧
    (∀ (n : Fin 64) (b0 b1 b2 b3 : Byte), carries s f n.val = true →
      (∀ u, exec (.doorbellSqTailWrite n (b0.setWidth 6)) s = .next u →
        Completes (.registerWrite f (0x100000 + 16 * n.val) [b0, b1, b2, b3]) s (fun t => t = u)) ∧
      (∀ u, exec (.doorbellCqHeadWrite n (b0.setWidth 6)) s = .next u →
        Completes (.registerWrite f (0x100000 + 16 * n.val + 4) [b0, b1, b2, b3]) s (fun t => t = u))) ∧
    (∀ b1 b2 b3 : Byte,
      Completes (.registerWrite f 0x301000 [2, b1, b2, b3]) s (fun t => t = { s with porter := { s.porter with bar0Misuse := false } }) ∧
      Completes (.registerWrite f 0x301010 [0, 0, 1, b3]) s (fun t => t = { s with ports := { s.ports with aer := false } })) ∧
    (∀ w, Completes (.bar0InvalidAccess f w) s (fun t => t = (if w then id else emit (.data f [0] false))
      { s with porter := { s.porter with bar0Misuse := true } })) ∧
    (∀ off bs ep,
      (∀ a, apertureHit s f off bs.length true = some a →
        (ep = true → Completes (.bar2Write f off bs ep) s (OnlyEvent 0x4903 data (fnDie f) [a2 (fnCode f), a8 a] s)) ∧
        (ep = false → wayShut s (portPath f a) = true → Completes (.bar2Write f off bs ep) s (fun t => t = s)) ∧
        (ep = false → wayShut s (portPath f a) = false → MemGood s → s.snap = none → Completes (.bar2Write f off bs ep) s (fun t =>
          t = { s with mem := t.mem } ∧ rd t a bs.length = bs ∧
          ∀ b, (b < a ∨ a + bs.length ≤ b) → cellsGet t.mem.cells b = cellsGet s.mem.cells b))) ∧
      (apertureHit s f off bs.length true = none →
        (apertureOf f off ∉ s.ports.apRaised → Completes (.bar2Write f off bs ep) s (fun t =>
          OnlyEvent 0x4902 data (fnDie f) [a2 (fnCode f), a2 (apertureOf f off)]
            { s with ports := { s.ports with apRaised := t.ports.apRaised } } t ∧ apertureOf f off ∈ t.ports.apRaised)) ∧
        (apertureOf f off ∈ s.ports.apRaised → Completes (.bar2Write f off bs ep) s (fun t => t = s)))) ∧
    (∀ off len,
      (∀ a, apertureHit s f off len false = some a → Completes (.bar2Read f off len) s (fun t =>
        t = if wayShut s (portPath f a) then emit (.data f [] true) s
          else emit (.data f (rd s a len) (s.mem.poisoned a len)) (readEvent a len s))) ∧
      (apertureHit s f off len false = none → Completes (.bar2Read f off len) s (fun t =>
        .data f (List.replicate len 0xFF) false ∈ t.outs ∧ t.mem = s.mem))) ∧
    (∀ d r bs, s.ports.dmas.find? (fun d => d.1 == f) = some d → roomAt s d.2.room.toNat = some r →
      let base := r.base.toNat + d.2.offset
      (wayShut s (portPath f base) = true → Completes (.dmaTransferDone f bs) s (fun t =>
        t.ports.dmas = s.ports.dmas.erase d ∧ t.mem = s.mem)) ∧
      (wayShut s (portPath f base) = false → Completes (.dmaTransferDone f bs) s (fun t =>
        t.ports.dmas = s.ports.dmas.erase d ∧
        (∀ p, s.porter.outstanding.find? (fun p => p.wait == Wait.dma && fnOfMb s p.cmd.mailbox.val == f) = some p →
          p ∉ t.porter.outstanding) ∧
        (d.2.toHost = true → t.mem = s.mem ∧ ∀ pre e post, d.2.list = pre ++ e :: post →
          .dma e.1 (rd s (base + sumNat (pre.map (fun x => x.2.toNat))) e.2.toNat) ∈ t.outs) ∧
        (d.2.toHost = false → MemGood s → s.snap = none → taskRoomUnder s base (dmaBytes d.2) = none →
          rd t base (dmaBytes d.2) = fit (dmaBytes d.2) 0 bs) ∧
        (∀ q, d.2.toHost = false → taskRoomUnder s base (dmaBytes d.2) = some q → t.mem = s.mem ∧
          Logged 0x8104 [a2 q.1, a2 (Config.writerCode (1 + fnCode f))] s t))))

/-- A drive in use reads or writes memory inside its queues, or inside a range of the Mere that its command names; any
other request is answered as unsupported, with event 0x4904. A command that fails or times out is issued once more; a
second failure marks the drive failed, with event 0x4906. The mark of a snapshot at a boundary lists the parts of the
whole image and makes every chunk PENDING, or ends it with event 0x8902 where there is no room. A chunk is shipped
with the bytes its homes or the copy-on-write room hold, as writes to the places of the store or as messages with
their image offsets, and its digest is kept; with the last one the snapshot ends with event 0x8901; a refused one, or
one with a memory error, ends it with event 0x8902. (R333, R334, R337, R338, R339, R340, R341, R342, 16 Table 16-2) -/
def Obligations.DrivesAndSnapshotChunks : Prop :=
  let mayReach := fun (s : State) (d : Nat) (a len : Nat) => (driveAt s d).used = true ∧ (driveAt s d).failed = false ∧
    ((∃ b, queueBase s d = some b ∧ b ≤ a ∧ a + len ≤ b + queuePages * pageBytes) ∨
      (regionOf a = .mere ∧ ∃ r ∈ (driveAt s d).ranges, r.1.toNat ≤ a ∧ a + len ≤ r.1.toNat + r.2))
  let image := fun (s : State) (x : Snapshot) (p : Plan) => ({ x with
    marked := true, step := s.steps.lastBoundary, parts := (imageParts s p x.req).1,
    sets := (gradSteps (imageParts s p x.req).1).map (fun u => (BitVec.ofNat 64 u, setsOf s u)),
    lag := (if p.params.any peResident then p.lag else 0), seed := p.seed, pins := (imageParts s p x.req).2 } : Snapshot)
  ∀ (s : State),
    (∀ (d : Fin 16) (addr : W64) len bs, storWorks s = true →
      (mayReach s d.val addr.toNat len → wayShut s (portPath .stor addr.toNat) = true →
        Completes (.driveMemoryRequest d addr len true bs) s (fun t => t = s)) ∧
      (mayReach s d.val addr.toNat len → wayShut s (portPath .stor addr.toNat) = false → MemGood s → s.snap = none →
        taskRoomUnder s addr.toNat len = none → Completes (.driveMemoryRequest d addr len true bs) s (fun t =>
        t = { s with mem := t.mem } ∧ rd t addr.toNat len = fit len 0 bs ∧
        ∀ b, (b < addr.toNat ∨ addr.toNat + len ≤ b) → cellsGet t.mem.cells b = cellsGet s.mem.cells b)) ∧
      (mayReach s d.val addr.toNat len → Completes (.driveMemoryRequest d addr len false bs) s (fun t =>
        t = if wayShut s (portPath .stor addr.toNat) then emit (.data .stor [] true) s
          else emit (.data .stor (rd s addr.toNat len) (s.mem.poisoned addr.toNat len)) (readEvent addr.toNat len s))) ∧
      (∀ w, ¬ mayReach s d.val addr.toNat len → Completes (.driveMemoryRequest d addr len w bs) s
        (OnlyEvent 0x4904 data dieStor [a2 d.val] (emit (.unsupported d.val) s)))) ∧
    (∀ d : Fin 16, storWorks s = true → (driveAt s d.val).busy = true →
      (inStore s d.val = false → Completes (.driveCommandComplete d true) s (fun t =>
        t = { s with ports := { s.ports with drives := t.ports.drives, flushing := t.ports.flushing } } ∧
        driveAt t d.val = { driveAt s d.val with reissued := false, busy := false, ranges := [] } ∧
        ∀ k, k ≠ d.val → driveAt t k = driveAt s k)) ∧
      (∀ c, (c = Instr.driveCommandComplete d false ∨ c = .driveCommandTimeout d) →
        ((driveAt s d.val).reissued = false → Completes c s (fun t =>
          t.outs = .driveCmd d.val "Reissue" 0 :: .driveCmd d.val "Reset" 0 :: s.outs ∧
          driveAt t d.val = { driveAt s d.val with reissued := true } ∧
          t = { s with ports := { s.ports with drives := t.ports.drives }, outs := t.outs })) ∧
        ((driveAt s d.val).reissued = true → Completes c s (fun t =>
          (driveAt t d.val).failed = true ∧ (driveAt t d.val).busy = false ∧ Logged 0x4906 [a2 d.val] s t ∧
          (inStore s d.val = true → snapOnStore s = true → t.snap = none))))) ∧
    (∀ x p, s.snap = some x → x.marked = false → porterRuns s = true → atBoundary s = true → trainPlan s = some p →
      payloadLen (image s x p) ≠ 0 →
      (∀ a b u, manifestLen s (image s x p) + payloadLen (image s x p) ≤ sqDestLen x.req →
        snapRooms (payloadLen (image s x p)) s = some (a, b, u) → Completes .snapshotMark s (fun t =>
          t.snap = some { (image s x p) with
            room := a, staging := b, chunks := List.replicate (chunkCount (payloadLen (image s x p))) Chunk.pending } ∧
          t.mem = s.mem ∧ Boundary.snapshot ∉ t.steps.actions)) ∧
      ((sqDestLen x.req < manifestLen s (image s x p) + payloadLen (image s x p) ∨
          snapRooms (payloadLen (image s x p)) s = none) → Completes .snapshotMark s (fun t =>
        t.snap = none ∧ Logged 0x8902 [a8 (snapId x), a2 stNoRoom] s t))) ∧
    (∀ x k, s.snap = some x → x.marked = true → x.chunks.getD k .shipped ≠ .shipped →
      (∀ refused bs, (refused = false ∨ snapDest x ≠ 2) → (x.chunks.getD k .shipped = .pending → chunkPoison s x k = none) →
        (tfind? x.saved k).getD (chunkBytes s x k) = bs → Completes (.snapshotChunkShipped k refused) s (fun t =>
          .image (snapId x) (snapDest x) (manifestLen s x + k * chunkLen) bs ∈ t.outs ∧ t.mem = s.mem ∧
          (snapDest x = 0 → ∀ p, p ∈ storePieces s (sqDestAddr x.req + (manifestLen s x + k * chunkLen)) bs.length →
            .driveCmd p.1 "Write" p.2 ∈ t.outs) ∧
          (snapDest x = 2 → ∀ i, i < cdiv bs.length 4016 → ∃ seq,
            .message (BitVec.ofNat 16 (fld x.req 416 16)) (fld x.req 410 6) seq (messagePlanes s (fld x.req 416 16))
              (imagePayload (snapId x) (manifestLen s x + k * chunkLen + 4016 * i) (bs.drop (4016 * i))) ∈ t.outs) ∧
          ((∃ j, j ≠ k ∧ x.chunks.getD j .shipped ≠ .shipped) → ∃ y, t.snap = some y ∧ y.chunks = lset x.chunks k .shipped ∧
            tfind? y.digests k = some (Config.sha512 bs)) ∧
          ((∀ j, j ≠ k → x.chunks.getD j .shipped = .shipped) → t.snap = none ∧
            Logged 0x8901 [a8 (snapId x), a8 x.step.toNat, a2 (snapDest x)] s t))) ∧
      (∀ w, snapDest x ≠ 2 → x.chunks.getD k .shipped = .pending → chunkPoison s x k = some w →
        Completes (.snapshotChunkShipped k false) s (fun t => t.snap = none ∧ Logged 0x8902 [a8 (snapId x), a2 stDeviceFault] s t)) ∧
      (snapDest x = 2 → Completes (.snapshotChunkShipped k true) s (fun t =>
        t.snap = none ∧ Logged 0x8902 [a8 (snapId x), a2 stNoRoom] s t)))

/-- An order that its mailbox can take is answered with BAD_ARG where its entry's CRC fails, with the status that its
sender's standing gives, with BAD_ARG at the byte of a reserved field that is not 0, with what is wrong with its
argument room, with BAD_ARG where its own fields are wrong, and else with SUPERSEDED where it loses to an earlier
order of the pass, and then has no other effect. A NOP is answered with DONE: in a host mailbox the entry stands at
the next completion index with the phase of the round and the new SQ_HEAD, the index advances, the phase turns with
index 63, an interrupt is owed where the order asks for one, and nothing else changes. (R10, R346, R348, R350, R352,
R353, R358, R360, R361, R363, R366, 13 Table 13-8) -/
def Obligations.OrdersAreCheckedAndAnswered : Prop :=
  ∀ (s : State) (c : Cmd), canTake s c.mailbox.val = true → c.mailbox.val ≠ 64 →
    (∀ code subs h, code < 65536 →
      (c.crcOk = false → Gives code c { st := stBadArg } s s (order code c subs h s)) ∧
      (∀ row, c.crcOk = true → opRow code = some row →
        (standing s c.mailbox.val code row (mbAt s c.mailbox.val).sqHead ≠ 0 →
          Gives code c { st := standing s c.mailbox.val code row (mbAt s c.mailbox.val).sqHead } s s (order code c subs h s)) ∧
        (standing s c.mailbox.val code row (mbAt s c.mailbox.val).sqHead = 0 →
          (∀ o, c.badField = some o → Gives code c { st := stBadArg, detail := o % 128 } s s (order code c subs h s)) ∧
          (∀ r, c.badField = none → argBad s row (pendingOf code c s) = some r → Gives code c r s s (order code c subs h s)) ∧
          (∀ r, c.badField = none → argBad s row (pendingOf code c s) = none → r.st = stBadArg →
            (∀ u, (h (pendingOf code c s) u).1 = .done r) → Gives code c r s s (order code c subs h s)) ∧
          (c.badField = none → argBad s row (pendingOf code c s) = none →
            (∀ u r, ButMailbox c.mailbox.val s u → (h (pendingOf code c s) u).1 = .done r → r.st ≠ stBadArg) →
            (∃ o ∈ rivals s c.mailbox.val subs, losesTo s c.mailbox.val code o = true) →
            Gives code c { st := stSuperseded } s s (order code c subs h s))))) ∧
    (Passes 0x0100 c [] s → Completes (.cmdNop c) s (fun t => Gives 0x0100 c { st := stDone } s s t ∧
      (c.mailbox.val < 64 → ∃ e, tfind? (mbAt t c.mailbox.val).cq (mbAt s c.mailbox.val).cqTail.toNat = some e ∧
        e.phase = (mbAt s c.mailbox.val).phase ∧ e.sqHead = (mbAt s c.mailbox.val).sqHead + 1 ∧
        (mbAt t c.mailbox.val).sqHead = (mbAt s c.mailbox.val).sqHead + 1 ∧
        (mbAt t c.mailbox.val).phase = ((mbAt s c.mailbox.val).phase != ((mbAt s c.mailbox.val).cqTail == 63)) ∧
        (c.irq = true → c.mailbox.val ∈ t.porter.irqDue))))

/-- SESSION_OPEN joins a session in use, opens an observer session, or the owner session where there is none, with a
number not in use, and binds the mailbox; a second owner session is refused with WRONG_STATE. SESSION_CONSENT records
the owner's consent, and without it no whole-tower test waits any more. SESSION_CLOSE ends the session: it is in use
no more, its rooms are released or RELEASING, and the answer is DONE. (R357, R358, R359, R366, R482, R483, 07 R206) -/
def Obligations.SessionOrders : Prop :=
  ∀ (s : State) (c : Cmd),
    (∀ role join fr consent, Passes 0x0101 c [] s → role.toNat ≤ 1 → consent.toNat ≤ 1 →
      (join ≠ 0 → tfind? s.porter.sessions join.toNat ≠ none → Completes (.cmdSessionOpen c role join fr consent) s (fun t =>
        Gives 0x0101 c { st := stDone, r0 := join.toNat } s s t ∧ (mbAt t c.mailbox.val).session = join ∧
        (mbAt t c.mailbox.val).state = 1)) ∧
      (join = 0 → role = 0 → Completes (.cmdSessionOpen c role join fr consent) s (fun t =>
        Gives 0x0101 c { st := stDone, r0 := freeSession s }
          { s with porter := { s.porter with sessions := (tset s.porter.sessions (freeSession s) { owner := false, consent := consent, fn := fnOfMb s c.mailbox.val }) } } s t ∧
        tfind? s.porter.sessions (freeSession s) = none ∧ (mbAt t c.mailbox.val).session = BitVec.ofNat 16 (freeSession s))) ∧
      (join = 0 → role = 1 → fr.toNat < 16 → (∀ t, t < 4 → fr.getLsbD t = true → towerRetired s t = false ∧ towerBusy s t = false) →
        s.cap.leaving = 0 →
        (ownerSession s = 0 → Completes (.cmdSessionOpen c role join fr consent) s (fun t =>
          Gives 0x0101 c { st := stDone, r0 := freeSession s }
            (capBump { s with
              porter := { s.porter with sessions := (tset s.porter.sessions (freeSession s) { owner := true, consent := consent, fn := fnOfMb s c.mailbox.val }) },
              cap := { s.cap with entering := fr.setWidth 4 } }) s t ∧
          (mbAt t c.mailbox.val).session = BitVec.ofNat 16 (freeSession s))) ∧
        (ownerSession s ≠ 0 → Completes (.cmdSessionOpen c role join fr consent) s (fun t =>
          Gives 0x0101 c { st := stWrongState } s s t)))) ∧
    (∀ consent : Byte, Passes 0x0103 c [] s →
      (consent = 1 → Completes (.cmdSessionConsent c consent) s (fun t => Gives 0x0103 c { st := stDone }
        { s with porter := { s.porter with sessions := (tupd s.porter.sessions (sessionOfMb s c.mailbox.val).toNat (fun q => { q with consent := 1 })) } } s t)) ∧
      (consent = 0 → Completes (.cmdSessionConsent c consent) s (fun t => Posted 0x0103 c { st := stDone } s t ∧
        ∀ r ∈ t.tests.reqs, r.kind = 3 → r.begun = true ∨ r.filed = true))) ∧
    (∀ q, Passes 0x0102 c [] s → tfind? s.porter.sessions (sessionOfMb s c.mailbox.val).toNat = some q →
      s.cap.leaving = 0 → s.cap.frTowers = 0 → Completes (.cmdSessionClose c) s (fun t =>
        Answered 0x0102 c { st := stDone } s t ∧ tfind? t.porter.sessions (sessionOfMb s c.mailbox.val).toNat = none ∧
        ∀ k r, roomAt t k = some r → r.owner = sessionOfMb s c.mailbox.val → r.releasing = true))

/-- ROOM_REQUEST grants the room that R205 places, or answers NO_ROOM with nothing allocated. ROOM_RELEASE refuses a room
in use, and otherwise releases it. ROOM_COMMIT makes what lies in the slot the room's next version. QUOTA_SET sets the
floors and ceilings. ROOM_QUERY answers the room's entry. APERTURE_MAP maps pages of a host or snapshot room with
their rights, APERTURE_UNMAP removes the mapping. DMA_COPY begins a transfer and waits. (R198, R201, R205, R206, R324,
R325, R327, R328, 07 Table 7-5, 12 Table 12-2) -/
def Obligations.RoomApertureAndCopyOrders : Prop :=
  ∀ (s : State) (c : Cmd),
    (∀ cls home index slots fallback : Byte, ∀ pages : W32, Passes 0x0201 c [] s →
      let q : RoomReq := { cls := cls.toNat, home := home.toNat, index := index.toNat, slots := slots.toNat, fallback := fallback == 1, pages := pages.toNat }
      q.cls ≤ 7 → q.home ≤ 3 → homeAllowed q = true → ((q.home = 0 ∨ q.home = 2) → q.index ≤ 7) → 1 ≤ q.slots → q.slots ≤ 5 →
      fallback.toNat ≤ 1 → q.pages ≠ 0 →
      (∀ id u, grantRoom q (sessionOfMb s c.mailbox.val) s = some (id, u) →
        Completes (.cmdRoomRequest c cls home index slots fallback pages) s (fun t =>
          Gives 0x0201 c { st := stDone, r0 := id } u s t ∧ roomAt s id = none ∧
          roomAt t id = (placeRoom s q).map (newRoom q (sessionOfMb s c.mailbox.val)))) ∧
      (grantRoom q (sessionOfMb s c.mailbox.val) s = none →
        Completes (.cmdRoomRequest c cls home index slots fallback pages) s (Gives 0x0201 c { st := stNoRoom } s s))) ∧
    (∀ (room : W16) r, roomAt s room.toNat = some r → r.owner = sessionOfMb s c.mailbox.val → r.releasing = false →
      (Passes 0x0202 c [.room room.toNat] s →
        ((roomInUse s room.toNat = true ∨ (r.fresh ≠ 0 ∧ r.active ≠ 0)) → Completes (.cmdRoomRelease c room) s
          (Gives 0x0202 c { st := stWrongState } s s)) ∧
        (roomInUse s room.toNat = false → (r.fresh = 0 ∨ r.active = 0) → Completes (.cmdRoomRelease c room) s (fun t =>
          Gives 0x0202 c { st := stDone } (releaseNow room.toNat s) s t ∧
          (pinned r = false → r.active = 0 → roomAt t room.toNat = none)))) ∧
      (∀ r', Passes 0x0203 c [.room room.toNat] s → openVer r 0 0 = some r' → Completes (.cmdRoomCommit c room) s (fun t =>
        Gives 0x0203 c { st := stDone, r0 := r'.fresh.toNat, r1 := r'.freshSlot }
          (commitRoom room.toNat (updRoom room.toNat (fun _ => r') s)) s t ∧
        ∃ v, roomAt t room.toNat = some v ∧ v.current = nextVer r.lastOpened ∧ v.fresh = 0 ∧ v.commits = r.commits + 1)) ∧
      (∀ ap rd_ wr_ : Byte, ∀ offset pages : W32, Passes 0x0206 c [.room room.toNat] s → ap.toNat ≤ 63 → rd_.toNat ≤ 1 → wr_.toNat ≤ 1 →
        (r.cls = 5 ∨ r.cls = 6) → r.home ≠ 2 → pages ≠ 0 → pages.toNat ≤ 65536 → offset.toNat + pages.toNat ≤ r.slots * r.pages →
        offset.toNat < 2 ^ 24 → Completes (.cmdApertureMap c ap rd_ wr_ room offset pages) s (fun t =>
          Posted 0x0206 c { st := stDone } s t ∧
          ButMailbox c.mailbox.val { s with ports := { s.ports with apertures := t.ports.apertures, apRaised := t.ports.apRaised } } t ∧
          (∀ k, k ≠ ap.toNat → apertureAt t k = apertureAt s k) ∧ ap.toNat ∉ t.ports.apRaised ∧
          apRoom (apertureAt t ap.toNat) = room.toNat ∧ apOffset (apertureAt t ap.toNat) = offset.toNat ∧
          apPages (apertureAt t ap.toNat) = pages.toNat ∧ apValid (apertureAt t ap.toNat) = true ∧
          apRd (apertureAt t ap.toNat) = (rd_ == 1) ∧ apWr (apertureAt t ap.toNat) = (wr_ == 1))) ∧
      (∀ (dir : Byte) (offset : W32) list (elements : W32) lens, Passes 0x0208 c [.room room.toNat] s → dir.toNat ≤ 1 → r.home ≠ 2 →
        offset.toNat + sumNat (lens.map (fun (e : W64 × W64) => e.2.toNat)) ≤ slotBytes r →
        (∀ e ∈ lens, e.1.toNat % 4096 = 0 ∧ e.2.toNat % 4096 = 0) → elements ≠ 0 → elements.toNat ≤ 65536 → lens.length = elements.toNat →
        Completes (.cmdDmaCopy c dir room offset list elements lens) s (WaitsFor 0x0208 c .dma
          { s with ports := { s.ports with dmas := (s.ports.dmas ++ [(fnOfMb s c.mailbox.val, { toHost := dir == 0, room := room, offset := offset.toNat, list := lens })]) } } s))) ∧
    (∀ (room : W16) r, Passes 0x0205 c [.room room.toNat] s → roomAt s room.toNat = some r →
      Completes (.cmdRoomQuery c room) s (Reads 0x0205 c stDone (recBytes (roomEntry room.toNat r)) s)) ∧
    (∀ floors ceils : List W16, Passes 0x0204 c [] s → floors.length = 8 → ceils.length = 8 →
      sumNat (floors.map (fun x => x.toNat)) ≤ 1920 →
      (∀ k, k < 8 → (floors.getD k 0).toNat ≤ (ceils.getD k 0).toNat ∧ classUse s k ≤ (ceils.getD k 0).toNat * mib) →
      Completes (.cmdQuotaSet c floors ceils) s (Gives 0x0204 c { st := stDone }
        { s with floors := floors.map (fun x => x.toNat), ceilings := ceils.map (fun x => x.toNat) } s)) ∧
    (∀ ap : Byte, Passes 0x0207 c [] s → ap.toNat ≤ 63 → Completes (.cmdApertureUnmap c ap) s (fun t =>
      Gives 0x0207 c { st := stDone } (setAperture ap.toNat apNone s) s t ∧ apValid (apertureAt t ap.toNat) = false))

/-- LEDGER_READ, EVENT_READ and RING_READ answer the records of the numbers asked for that are present, with PARTIAL where
fewer are; TELEMETRY_READ answers the pace words, the governor record or the thermal entries; CAP_READ the capability
record; CERT_READ the slot-0 chain. They change nothing but the argument room; EVENT_READ through mailbox 64 also
remembers the highest entry it has returned, and releases ALERT_N once nothing of severity 4 or above is unread.
(R266, R286, R350, R377, R426, R429, R432, R470, 13 Table 13-7, 13 Table 13-12) -/
def Obligations.ReadOrders : Prop :=
  ∀ (s : State) (c : Cmd),
    (∀ first count : W32, Passes 0x0A01 c [] s → Completes (.cmdLedgerRead c first count) s (
      let found := s.steps.ledger.reverse.filter (fun r => decide ((r.seq - first).toNat < count.toNat))
      Reads 0x0A01 c (if found.length < count.toNat then stPartial else stDone) (found.flatMap ledgerBytes) s)) ∧
    (∀ (first : W64) (count : W32), Passes 0x0A02 c [] s →
      let found := s.log.entries.reverse.filter (fun e => decide (first.toNat ≤ e.seq) && decide (e.seq < first.toNat + count.toNat))
      let bs := found.flatMap (fun e => recBytes (eventRecord e))
      let st := if found.length < count.toNat then stPartial else stDone
      (c.mailbox.val ≠ 64 → Completes (.cmdEventRead c first count) s (Reads 0x0A02 c st bs s)) ∧
      (c.mailbox.val = 64 → Completes (.cmdEventRead c first count) s (fun t =>
        let seen := listMax (s.log.seen64 :: (found.take (c.argLen.toNat / 64)).map (fun e => e.seq))
        Gives 0x0A02 c { st := if c.argLen.toNat < bs.length && st == stDone then stPartial else st }
          { s with log := { s.log with seen64 := seen }, power := { s.power with alert := s.power.alert && alertNow s seen } } s t ∧
        ∃ e, .mctpCpl 64 e (bs.take c.argLen.toNat) ∈ t.outs))) ∧
    (∀ first count : W32, Passes 0x0A03 c [] s →
      Completes (.cmdRingRead c 0 first count) s (
        let found := numbered s.red.closeNext s.red.closeRing first.toNat count.toNat
        Reads 0x0A03 c (if found.length < count.toNat then stPartial else stDone) (found.flatMap closeBytes) s) ∧
      Completes (.cmdRingRead c 1 first count) s (
        let found := numbered s.exch.ringNext s.exch.ring first.toNat count.toNat
        Reads 0x0A03 c (if found.length < count.toNat then stPartial else stDone) (found.flatMap routerBytes) s)) ∧
    (Passes 0x0A04 c [] s →
      Completes (.cmdTelemetryRead c 0) s (Reads 0x0A04 c stDone (paceWords s) s) ∧
      Completes (.cmdTelemetryRead c 1) s (Reads 0x0A04 c stDone (recBytes (govRecord s)) s) ∧
      Completes (.cmdTelemetryRead c 2) s (Reads 0x0A04 c stDone ((List.range 56).flatMap (fun i => recBytes (layerEntry s i))) s) ∧
      ∀ k : Byte, 3 ≤ k.toNat → Completes (.cmdTelemetryRead c k) s (Gives 0x0A04 c { st := stBadArg, detail := 4 } s s)) ∧
    (Passes 0x0A05 c [] s → Completes (.cmdCapRead c) s (Reads 0x0A05 c stDone (capRecord s) s)) ∧
    (Passes 0x0806 c [] s → trustGone s = false →
      (s.sec.certSlot = true → Completes (.cmdCertRead c 0) s (Reads 0x0806 c stDone (chainNow s) s)) ∧
      (s.sec.certSlot = false → Completes (.cmdCertRead c 0) s (Gives 0x0806 c { st := stWrongState } s s)))

/-- PLAN_LOAD grants the plan's rooms, checks the image and gives it a handle; a plan that breaks a check is refused with
BAD_ARG, one whose rooms cannot be granted with NO_ROOM, and nothing is allocated. PLAN_UNLOAD ends it where no step
of it is open or queued. TASKS_RUN and STEP_RUN wait: the one starts a job of the tasks named, the other opens the
next step, or queues it behind the open one. STEP_ABORT fails the open step. HALT stops dispatch and RESUME lets it go
on, except that only the baseboard controller relaxes what it has set: DENIED, with event 0x8302. (R205, R219, R220,
R353, R364, R368, R369, R508, 13 Table 13-7, 16 Table 16-2) -/
def Obligations.PlanAndStepOrders : Prop :=
  ∀ (s : State) (c : Cmd),
    (∀ p, Passes 0x0301 c [.plan] s → (planFormBad p = true ∨ ∃ r ∈ p.rooms, planRoomBad s (sessionOfMb s c.mailbox.val) r = true) →
      Completes (.cmdPlanLoad c p) s (
        Gives 0x0301 c { st := stBadArg, detail := 0x8000 + min (Config.planOffset p / 128) 0x7FFF, r0 := Config.planOffset p } s s)) ∧
    (∀ p, Passes 0x0301 c [.plan] s → planFormBad p = false → (∀ r ∈ p.rooms, planRoomBad s (sessionOfMb s c.mailbox.val) r = false) →
      grantPlan (sessionOfMb s c.mailbox.val) p.rooms [] s = none →
      Completes (.cmdPlanLoad c p) s (Gives 0x0301 c { st := stNoRoom } s s)) ∧
    (∀ p ids u, Passes 0x0301 c [.plan] s → planFormBad p = false →
      (∀ r ∈ p.rooms, planRoomBad s (sessionOfMb s c.mailbox.val) r = false) →
      grantPlan (sessionOfMb s c.mailbox.val) p.rooms [] s = some (ids, u) →
      (planBad u (resolvePlan u ids p) = false → kindBad u (resolvePlan u ids p) = false → lagBad u (resolvePlan u ids p) = false →
        Completes (.cmdPlanLoad c p) s (fun t =>
          let v := writePrograms (resolvePlan u ids p) (freshRooms p ids) u
          Gives 0x0301 c { st := stDone, r0 := s.porter.nextHandle } { v with
            porter := { v.porter with plans := (tset v.porter.plans s.porter.nextHandle (resolvePlan u ids p)), nextHandle := s.porter.nextHandle + 1 },
            steps := { v.steps with stepFree := true } } s t)) ∧
      (planBad u (resolvePlan u ids p) = true → Completes (.cmdPlanLoad c p) s (
        Gives 0x0301 c { st := stBadArg, detail := 0x8000 + min (Config.planOffset p / 128) 0x7FFF, r0 := Config.planOffset p } s s))) ∧
    (∀ h p, livePlan s h = some p →
      (Passes 0x0302 c [.plan] s → planInStep s h = false → Completes (.cmdPlanUnload c h) s (fun t =>
        Gives 0x0302 c { st := stDone } (dropPlan h.toNat s) s t ∧ livePlan t h = none)) ∧
      (Passes 0x0302 c [.plan] s → planInStep s h = true → Completes (.cmdPlanUnload c h) s (Gives 0x0302 c { st := stWrongState } s s)) ∧
      (∀ first count : W32, Passes 0x0303 c [.plan] s →
        let ts := p.tasks.filter (fun t => decide (first.toNat ≤ dTask t.desc) && decide (dTask t.desc < first.toNat + count.toNat))
        planTask p first.toNat ≠ none → ts.length = count.toNat → count ≠ 0 → Completes (.cmdTasksRun c h first count) s
          (WaitsFor 0x0303 c (.tasks s.steps.nextRun) { s with
            steps := { s.steps with runs := (s.steps.runs ++ [newJob s.steps.nextRun 0 h ts]), nextRun := s.steps.nextRun + 1 } } s)) ∧
      (∀ n sets, Passes 0x0401 c [.plan] s → sets ≠ [] → sets.length ≤ 16 → (∀ x ∈ sets, optSetBad n x = false) →
        s.steps.queued = none → p.coreMapCheck = coreMapCheck s → gatedTask s p = false → s.params.lost = false → s.restore = none →
        stepExpected s n = true →
        let s' := { s with steps := { s.steps with sets := (s.steps.sets.filter (fun (q : W64 × List (BitVec 512)) => q.1 != n) ++ [(n, sets)]) } }
        (s.steps.job = none → Completes (.cmdStepRun c h n sets) s (WaitsFor 0x0401 c (.step n) (openStep n h p s') s)) ∧
        (s.steps.job ≠ none → Completes (.cmdStepRun c h n sets) s (WaitsFor 0x0401 c (.step n)
          { s' with steps := { s'.steps with queued := some (n, h) } } s)))) ∧
    (∀ n, Passes 0x0402 c [.plan] s →
      (∀ j, s.steps.job = some j → j.step = n → Completes (.cmdStepAbort c n) s (fun t =>
        Answered 0x0402 c { st := stDone } s t ∧ t.steps.job = none ∧ t.steps.queued = none)) ∧
      ((∀ j, s.steps.job = some j → j.step ≠ n) → (∀ q, s.steps.queued = some q → q.1 ≠ n) → Completes (.cmdStepAbort c n) s
        (Gives 0x0402 c { st := stWrongState } s s))) ∧
    (Passes 0x0403 c [.dispatch] s → s.porter.halted = false → Completes (.cmdHalt c) s (Gives 0x0403 c { st := stDone }
      { s with porter := { s.porter with halted := true, haltSetter := setterOf c.mailbox.val } } s)) ∧
    (Passes 0x0404 c [.dispatch] s → s.porter.halted = true →
      ((c.mailbox.val = 64 ∨ s.porter.haltSetter = .owner) → Completes (.cmdResume c) s (Gives 0x0404 c { st := stDone }
        { s with porter := { s.porter with halted := false, haltSetter := setterOf c.mailbox.val } } s)) ∧
      (c.mailbox.val ≠ 64 → s.porter.haltSetter = .baseboard → Completes (.cmdResume c) s (fun t =>
        Posted 0x0404 c { st := stDenied } s t ∧ Logged 0x8302 [a2 c.mailbox.val, a2 0x0404, a2 2] s t ∧ t.porter.halted = true)))

/-- MODULE_ID_SET gives the module its number between domains. DOMAIN_FORM sets the domain, epoch and members with event
0x4703, not in the epoch before and not without a teardown. DOMAIN_TEARDOWN ends every window request, clears the
valid bits of the segment table and the exports and the receipts, and leaves the domain, with event 0x4702. RST_WRITE
sets its entries in the current epoch, UNREACHABLE_CLEAR forgets the mark of a module, EXPORT_SET sets or deletes an
export in the current epoch, RING_REGISTER registers a room as a request or receive ring or ends the registration.
(R297, R298, R300, R301, R303, R315, R318, R319, 11 Table 11-3, 11 Table 11-4, 16 Table 16-2) -/
def Obligations.MembershipOrders : Prop :=
  ∀ (s : State) (c : Cmd),
    (∀ id, Passes 0x0501 c [.domain] s →
      (s.fab.domain = none → Completes (.cmdModuleIdSet c id) s (Gives 0x0501 c { st := stDone }
        (capBump { s with fab := { s.fab with moduleId := id } }) s)) ∧
      (s.fab.domain ≠ none → Completes (.cmdModuleIdSet c id) s (Gives 0x0501 c { st := stWrongState } s s))) ∧
    (∀ domain epoch ms, Passes 0x0502 c [.domain] s → ms.length ≤ 128 →
      ((s.fab.everFormed = false ∨ (s.fab.tornDown = true ∧ epoch ≠ s.fab.epoch)) → Completes (.cmdDomainForm c domain epoch ms) s (fun t =>
        Answered 0x0502 c { st := stDone } s t ∧ t.fab.domain = some domain ∧ t.fab.epoch = epoch ∧
        t.fab.members.map (fun m => (m.id, m.rack, m.planes)) = ms ∧ t.fab.everFormed = true ∧ t.fab.tornDown = false ∧
        t.fab.nextSeq = [] ∧ t.fab.nextMsg = [] ∧ Logged 0x4703 [a2 domain.toNat, a2 epoch.toNat, a2 ms.length] s t)) ∧
      (s.fab.everFormed = true → epoch = s.fab.epoch → Completes (.cmdDomainForm c domain epoch ms) s
        (Gives 0x0502 c { st := stBadArg, detail := 6 } s s)) ∧
      (s.fab.everFormed = true → epoch ≠ s.fab.epoch → s.fab.tornDown = false → Completes (.cmdDomainForm c domain epoch ms) s
        (Gives 0x0502 c { st := stWrongState } s s))) ∧
    (∀ domain, Passes 0x0503 c [.domain] s → s.fab.domain = some domain → Completes (.cmdDomainTeardown c domain) s (fun t =>
      Answered 0x0503 c { st := stDone } s t ∧ t.fab.domain = none ∧ t.fab.tornDown = true ∧ t.fab.receipts = [] ∧
      (∀ k, rstValid (rstAt t k) = false) ∧ (∀ k, exValid (exportAt t k) = false) ∧
      (∀ k r, ringAt t k = some r → ∀ q ∈ r.issued, 3 < rqOp q.entry) ∧
      Logged 0x4702 [a2 domain.toNat, a2 s.fab.epoch.toNat] s t)) ∧
    (∀ (first count : W32) es, Passes 0x0504 c [.domain] s → first.toNat < 65536 → first.toNat + count.toNat ≤ 65536 →
      es.length = count.toNat → (∀ i (h : i < es.length), rstModule es[i] = rackModule s ((first.toNat + i) / 512) ∧ fld es[i] 4 28 = 0) →
      Completes (.cmdRstWrite c first count es) s (fun t => Posted 0x0504 c { st := stDone } s t ∧
        ButMailbox c.mailbox.val { s with fab := { s.fab with rst := t.fab.rst } } t ∧
        (∀ i (h : i < es.length), rstAt t (first.toNat + i) = putFld es[i] 32 16 s.fab.epoch.toNat) ∧
        ∀ k, (k < first.toNat ∨ first.toNat + es.length ≤ k) → rstAt t k = rstAt s k)) ∧
    (∀ id, Passes 0x0505 c [.domain] s → Completes (.cmdUnreachableClear c id) s (Gives 0x0505 c { st := stDone }
      { s with fab := { s.fab with unreachable := s.fab.unreachable.filter (fun x => x != id) } } s)) ∧
    (∀ (seg : W16) e, Passes 0x0506 c [.room (exRoom e)] s → seg.toNat < 512 →
      (exValid e = false → Completes (.cmdExportSet c seg e) s (Gives 0x0506 c { st := stDone }
        { s with fab := { s.fab with exports := tdel s.fab.exports seg.toNat } } s)) ∧
      (exValid e = true → fld e 0 32 = 0 → fld e 36 12 = 0 → badExport s (sessionOfMb s c.mailbox.val) e = false →
        Completes (.cmdExportSet c seg e) s (fun t => Gives 0x0506 c { st := stDone }
          { s with fab := { s.fab with exports := t.fab.exports } } s t ∧
          exportAt t seg.toNat = putFld e 96 16 s.fab.epoch.toNat ∧ ∀ k, k ≠ seg.toNat → exportAt t k = exportAt s k)) ∧
      (exValid e = true → badExport s (sessionOfMb s c.mailbox.val) e = true → Completes (.cmdExportSet c seg e) s
        (Gives 0x0506 c { st := stBadArg, detail := 20 } s s))) ∧
    (∀ (index : Byte) (room : W16) r, Passes 0x0507 c [.room room.toNat] s → roomAt s room.toNat = some r →
      r.owner = sessionOfMb s c.mailbox.val →
      (index.toNat < 16 → r.cls = 4 → r.slots = 1 → Completes (.cmdRingRegister c 0 index room 1) s (fun t =>
        Posted 0x0507 c { st := stDone } s t ∧ ringAt t index.toNat = some { room := room, version := 0, next := 0, issued := [] } ∧
        ∀ k, k ≠ index.toNat → ringAt t k = ringAt s k)) ∧
      (index.toNat < 64 → r.cls = 3 → r.home ≠ 2 → Completes (.cmdRingRegister c 1 index room 1) s (Gives 0x0507 c { st := stDone }
        { s with fab := { s.fab with receive := tset s.fab.receive index.toNat room } } s)) ∧
      (index.toNat < 16 → Completes (.cmdRingRegister c 0 index room 0) s (fun t =>
        Posted 0x0507 c { st := stDone } s t ∧ ringAt t index.toNat = none)) ∧
      (index.toNat < 64 → Completes (.cmdRingRegister c 1 index room 0) s (Gives 0x0507 c { st := stDone }
        { s with fab := { s.fab with receive := tdel s.fab.receive index.toNat } } s)))

/-- RED_LAYOUT puts a good layout in force from its FROM_STEP on, and refuses one that begins before the next step.
EPT_LOAD sets the group list and the active table outside a step. EPT_STAGE stages entries with the next VERSION of
each; it completes at once where this module gains no expert, and waits for the boundary of the install step where it
does. EPT_ACTIVATE waits for the first dispatch of the step after v. EPT_RETIRE clears the stage, and a stage or an
activation still pending is superseded. (R247, R248, R269, R270, R271, R287, R288, R289, 09 Table 9-2, 10 Table 10-1) -/
def Obligations.LayoutAndPlacementOrders : Prop :=
  ∀ (s : State) (c : Cmd),
    (∀ raw members, Passes 0x0508 c [.domain] s →
      let l : Layout := { raw := raw, members := members.take (fld raw 400 16) }
      (badLayout s l = false → nextStep s ≤ loFrom l → Completes (.cmdRedLayout c raw members) s (Gives 0x0508 c { st := stDone }
        { s with red := { s.red with layouts := (s.red.layouts.filter (fun m => !(loRed m == loRed l && loFrom m == loFrom l)) ++ [l]) } } s)) ∧
      (badLayout s l = false → loFrom l < nextStep s → Completes (.cmdRedLayout c raw members) s
        (Gives 0x0508 c { st := stWrongState } s s)) ∧
      (badLayout s l = true → Completes (.cmdRedLayout c raw members) s (Gives 0x0508 c { st := stBadArg, detail := 0x8000 } s s))) ∧
    (∀ group entries, Passes 0x0509 c [.ept] s →
      (s.steps.job ≠ none → Completes (.cmdEptLoad c group entries) s (Gives 0x0509 c { st := stWrongState } s s)) ∧
      (s.steps.job = none → group.length ≤ 128 → entries.length ≤ 131072 →
        (∀ b ∈ planBindings s, eptIndex b.layer b.expert < entries.length) →
        (∀ i (h : i < entries.length), badEptEntry s group i entries[i] = false) → Completes (.cmdEptLoad c group entries) s (fun t =>
          Posted 0x0509 c { st := stDone } s t ∧
          ButMailbox c.mailbox.val { s with exch := { s.exch with group := group.map some, active := t.exch.active } } t ∧
          ∀ i (h : i < entries.length), rawActive t i = entries[i]))) ∧
    (∀ u es gained, Passes 0x050A c [.ept] s → s.exch.staged = [] → s.exch.installStep = none → passedBoundary s u = false →
      (∀ e ∈ es, e.1.toNat < 131072 ∧ badEptEntry s (groupMembers s) e.1.toNat e.2 = false ∧
        entVer e.2 = (nextVer (BitVec.ofNat 16 (entVer (rawActive s e.1.toNat)))).toNat) →
      let mine := gainedBy s (es.map (fun e => (e.1.toNat, e.2)))
      let v := { s with exch := { s.exch with
        staged := ((es.map (fun (e : W32 × BitVec 128) => (e.1.toNat, e.2))).foldl (fun t e => tset t e.1 e.2) []),
        installStep := some u, stageDone := mine.isEmpty, activated := false, gained := mine, installs := gained } }
      (mine = [] → Completes (.cmdEptStage c u es gained) s (Gives 0x050A c { st := stDone } v s)) ∧
      (mine ≠ [] → Completes (.cmdEptStage c u es gained) s (WaitsFor 0x050A c .stage v s))) ∧
    (∀ u v, Passes 0x050B c [.ept] s → s.exch.installStep = some u → s.exch.stageDone = true → s.exch.activated = false →
      s.exch.activateStep = none →
      (u.toNat < v.toNat → nextStep s ≤ v.toNat + 1 → Completes (.cmdEptActivate c v) s
        (WaitsFor 0x050B c (.activate v) { s with exch := { s.exch with activateStep := some v } } s)) ∧
      ((v.toNat ≤ u.toNat ∨ v.toNat + 1 < nextStep s) → Completes (.cmdEptActivate c v) s
        (Gives 0x050B c { st := stWrongState } s s))) ∧
    (Passes 0x050C c [.ept] s → Completes (.cmdEptRetire c) s (fun t => Answered 0x050C c { st := stDone } s t ∧
      t.exch.staged = [] ∧ t.exch.installStep = none ∧ t.exch.activateStep = none ∧ t.exch.activated = false ∧
      t.exch.active = s.exch.active ∧ t.exch.group = s.exch.group))

/-- POWER_LIMITS sets the fields that are not 0, PACE_CEILING a tower's ceiling up to its ageing ceiling, CAP_SHARE the
order and the floor, LAST_LINE the mode of the next sample; an order that would relax what the baseboard controller
set, from another sender, is DENIED with event 0x8302. TOWER_GATE is refused while a step is open; otherwise it drains
the named towers that run, or begins to switch on those that are off, and waits for them. (R367, R368, R388, R389,
R390, R400, R406, R409, R422, 15 Table 15-2, 16 Table 16-2) -/
def Obligations.PowerAndGateOrders : Prop :=
  ∀ (s : State) (c : Cmd),
    (∀ (sustain peak : W16) (window : Byte), Passes 0x0601 c [.limits] s → s.porter.limitOrders = [] →
      (sustain = 0 ∨ (800 ≤ sustain.toNat ∧ sustain.toNat ≤ 3600)) → (peak = 0 ∨ (3600 ≤ peak.toNat ∧ peak.toNat ≤ 4400)) →
      window.toNat ≤ 10 →
      ((∀ x ∈ [(sustain.toNat, s.gov.sustain, s.porter.sustainSetter), (peak.toNat, s.gov.peak, s.porter.peakSetter),
          (window.toNat, s.gov.window, s.porter.windowSetter)], x.2.1 < x.1 → c.mailbox.val = 64 ∨ x.2.2 = .owner) →
        Completes (.cmdPowerLimits c sustain peak window) s (fun t => Gives 0x0601 c { st := stDone }
          { s with
            gov := { s.gov with
              sustain := (if sustain = 0 then s.gov.sustain else sustain.toNat),
              peak := (if peak = 0 then s.gov.peak else peak.toNat),
              window := (if window = 0 then s.gov.window else window.toNat) },
            porter := { s.porter with sustainSetter := t.porter.sustainSetter, peakSetter := t.porter.peakSetter, windowSetter := t.porter.windowSetter } } s t ∧
          (sustain ≠ 0 → sustain.toNat ≠ s.gov.sustain → t.porter.sustainSetter = setterOf c.mailbox.val))) ∧
      (c.mailbox.val ≠ 64 → s.gov.sustain < sustain.toNat → s.porter.sustainSetter = .baseboard →
        Completes (.cmdPowerLimits c sustain peak window) s (fun t => Posted 0x0601 c { st := stDenied } s t ∧ t.gov = s.gov ∧
          Logged 0x8302 [a2 c.mailbox.val, a2 0x0601, a2 0] s t))) ∧
    (∀ (ord : Byte) (floor : W16), Passes 0x0602 c [.capShare] s → ord.toNat ≤ 5 → (floor = 0 ∨ (80 ≤ floor.toNat ∧ floor.toNat ≤ 200)) →
      Completes (.cmdCapShare c ord floor) s (Gives 0x0602 c { st := stDone } { s with gov := { s.gov with
        order := ord.toNat, linkFloor := (if floor = 0 then s.gov.linkFloor else floor.toNat) } } s)) ∧
    (∀ tower point : Byte, Passes 0x0603 c [.ceiling tower.toNat] s → s.porter.limitOrders = [] → tower.toNat ≤ 7 → point.toNat ≤ 15 →
      (min point.toNat (ageingCeiling s tower.toNat) ≤ (towerGov s tower.toNat).ceiling.toNat ∨ c.mailbox.val = 64 ∨
        tget s.porter.ceilSetter tower.toNat .baseboard = .owner) → Completes (.cmdPaceCeiling c tower point) s (fun t =>
        Posted 0x0603 c { st := stDone } s t ∧
        (towerGov t tower.toNat).ceiling.toNat = min point.toNat (ageingCeiling s tower.toNat) ∧
        ∀ k, k ≠ tower.toNat → towerGov t k = towerGov s k)) ∧
    (∀ mode : Byte, Passes 0x0604 c [.lastLine] s → mode.toNat ≤ 2 → s.gov.lastLineNext.toNat ≠ mode.toNat →
      (s.gov.lastLineNext ≠ 0 ∨ c.mailbox.val = 64 ∨ s.porter.lastLineSetter = .owner) → Completes (.cmdLastLine c mode) s
        (Gives 0x0604 c { st := stDone } { s with
          gov := { s.gov with lastLineNext := (BitVec.ofNat 2 mode.toNat) },
          porter := { s.porter with lastLineSetter := setterOf c.mailbox.val } } s)) ∧
    (∀ towers : Byte, Passes 0x0605 c (towerSubjects towers) s →
      (gateRefused s towers = true → Completes (.cmdTowerGateLogicOff c towers) s (Gives 0x0605 c { st := stWrongState } s s) ∧
        Completes (.cmdTowerGateAllOff c towers) s (Gives 0x0605 c { st := stWrongState } s s)) ∧
      (gateRefused s towers = false → (∃ t, t < 8 ∧ towers.getLsbD t = true) →
        (∀ t, t < 8 → towers.getLsbD t = true → supplyAt s t = .inRegulation ∧ tfind? s.power.gating t = none) →
        ∀ on i, (on, i) ∈ [(0, Instr.cmdTowerGateLogicOff c towers), (2, .cmdTowerGateAllOff c towers)] → Completes i s (fun t =>
          (∀ k, k < 8 → towers.getLsbD k = true → tfind? t.power.gating k = some on ∧
            ∀ l ∈ logicLayers k, (paceAt t l).draining = true) ∧
          ∃ p ∈ t.porter.outstanding, p.cmd = c ∧ p.wait = .gate on towers)) ∧
      ((∀ t, t < 8 → towers.getLsbD t = true → heldStopped s t = false ∧ supplyAt s t = .off ∧ supplyAt s (8 + t) = .off ∧
          tfind? s.power.gating t = none) → (∃ t, t < 8 ∧ towers.getLsbD t = true) → inReg s sdMere = true →
        Completes (.cmdTowerGateOn c towers) s (fun t =>
          (∀ k, k < 8 → towers.getLsbD k = true → tfind? t.power.gating k = some 1 ∧ supplyAt t (8 + k) = .ramping 1) ∧
          ∃ p ∈ t.porter.outstanding, p.cmd = c ∧ p.wait = .gate 1 towers)) ∧
      ((∃ t, t < 8 ∧ towers.getLsbD t = true ∧ heldStopped s t = true) → Completes (.cmdTowerGateOn c towers) s
        (Gives 0x0605 c { st := stWrongState } s s)))

/-- TEST_REQUEST files a request with the next number and answers ACCEPTED with it; a TARGET outside its range is BAD_ARG.
A whole-tower test needs the owner's consent: without it, or behind another, it is DEFERRED; outside a step it begins
at once on a tower that is on, with event 0x2302. TEST_CANCEL removes a request that has not begun. The rotation takes
the next core that can be tested; a core whose tasks have not ended is released until after the next rotation; a test
that fails is run once more, and a second failure retires the core with event 0x2301. A whole-tower test ends with its
failing cores retired, every slice of the tower +0, and event 0x2303. (R366, R449, R450, R451, R452, R453, R454, 16
Table 16-6, 16 Table 16-2) -/
def Obligations.TestOrdersAndInServiceTests : Prop :=
  ∀ (s : State) (c : Cmd) (target : W16),
    (Passes 0x0701 c [] s →
      (target.toNat < 36 → Completes (.cmdTestLaneRecalibration c target) s (Filed c 0 target.toNat false s)) ∧
      (36 ≤ target.toNat → Completes (.cmdTestLaneRecalibration c target) s (Gives 0x0701 c { st := stBadArg, detail := 6 } s s)) ∧
      (target.toNat < 384 → Completes (.cmdTestScrubPass c target) s (Filed c 1 target.toNat (pondOn s (target.toNat / 48)) s)) ∧
      (0x200 ≤ target.toNat → target.toNat < 0x208 → Completes (.cmdTestScrubPass c target) s (Filed c 1 target.toNat true s)) ∧
      ((0x208 ≤ target.toNat ∨ (384 ≤ target.toNat ∧ target.toNat < 0x200)) → Completes (.cmdTestScrubPass c target) s
        (Gives 0x0701 c { st := stBadArg, detail := 6 } s s))) ∧
    (target.toNat < 384 → Passes 0x0701 c [.tower (target.toNat / 48)] s →
      Completes (.cmdTestCoreSelfTest c target) s (Filed c 2 target.toNat false s)) ∧
    (target.toNat < 8 → Passes 0x0701 c [.tower target.toNat] s →
      Completes (.cmdTestMarginMeasurement c target) s (Filed c 4 target.toNat (towerOn s target.toNat) s) ∧
      (ownerConsents s = true → towerTests s = 0 →
        (stepOpen s = true → Completes (.cmdTestTowerSelfTest c target) s (Filed c 3 target.toNat false s)) ∧
        (stepOpen s = false → s.tests.tower = none → towerOn s target.toNat = true → tfind? s.power.gating target.toNat = none →
          Completes (.cmdTestTowerSelfTest c target) s (fun t =>
            Posted 0x0701 c { st := stAccepted, r0 := s.tests.nextReq } s t ∧ t.tests.tower = some target.toNat ∧
            Logged 0x2302 [a2 target.toNat, a8 s.steps.lastBoundary.toNat] s t))) ∧
      (ownerConsents s = true → towerTests s ≠ 0 → Completes (.cmdTestTowerSelfTest c target) s
        (Gives 0x0701 c { st := stDeferred, detail := s.steps.job.isSome.toNat + towerTests s } s s)) ∧
      (ownerConsents s = false → Completes (.cmdTestTowerSelfTest c target) s (Gives 0x0701 c { st := stDeferred, detail := 0xFFFF } s s))) ∧
    (∀ request : W32,
      (∀ r, s.tests.reqs.find? (fun r => r.number == request.toNat) = some r → Passes 0x0702 c (testSubjects r.kind r.target) s →
        (r.filed = false → r.begun = false → Completes (.cmdTestCancel c request) s (Gives 0x0702 c { st := stDone }
          { s with tests := { s.tests with reqs := (s.tests.reqs.filter (fun x => x.number != request.toNat)) } } s)) ∧
        (r.filed = false → r.begun = true → Completes (.cmdTestCancel c request) s (Gives 0x0702 c { st := stWrongState } s s)) ∧
        (r.filed = true → Completes (.cmdTestCancel c request) s (Gives 0x0702 c { st := stDenied } s s))) ∧
      (s.tests.reqs.find? (fun r => r.number == request.toNat) = none → Passes 0x0702 c [] s →
        Completes (.cmdTestCancel c request) s (Gives 0x0702 c { st := stBadArg, detail := 4 } s s))) ∧
    (s.tests.underTest = none → porterRuns s = true → s.porter.ready = true →
      ((∀ r ∈ s.tests.reqs, r.kind ≠ 2) → s.tests.nextCore < 384 → testable s s.tests.nextCore = true →
        Completes .coreTestRotation s (fun t => t.tests.underTest = some (s.tests.nextCore, 1) ∧
          t.tests.nextCore = s.tests.nextCore + 1 ∧ t.tests.reqs = s.tests.reqs ∧ t = { s with tests := t.tests })) ∧
      (∀ r, (s.tests.reqs.filter (fun r => r.kind == 2)) = [r] → testable s r.target = true → r.target ∉ s.tests.skipped →
        Completes .coreTestRotation s (fun t => t.tests.underTest = some (r.target, 1) ∧
          t.tests.nextCore = s.tests.nextCore ∧ (∀ q ∈ t.tests.reqs, q.kind = 2 → q.begun = true) ∧ t = { s with tests := t.tests }))) ∧
    (∀ core run, s.tests.underTest = some (core, run) →
      (tasksOn s core ≠ [] → Completes .coreTestDrainTimeout s (fun t => t.tests.underTest = none ∧ core ∈ t.tests.skipped ∧
        (∀ q ∈ t.tests.reqs, q.kind = 2 → q.target = core → q.begun = false) ∧ t = { s with tests := t.tests })) ∧
      (tasksOn s core = [] →
        Completes (.coreSelfTestDone true) s (fun t => t.tests.underTest = none ∧ (coreAt t core).withheld = false ∧
          (∀ q ∈ t.tests.reqs, ¬ (q.kind = 2 ∧ q.target = core)) ∧
          (chan t core).transients = (chan s core).transients + (if run = 2 then 1 else 0) ∧
          (∀ k, k ≠ core → coreAt t k = coreAt s k ∧ chan t k = chan s k) ∧
          t = { s with tests := t.tests, cores := t.cores, channels := t.channels }) ∧
        (run = 1 → Completes (.coreSelfTestDone false) s (fun t =>
          t = { s with tests := { s.tests with underTest := some (core, 2) } })) ∧
        (run = 2 → present s core = true → Completes (.coreSelfTestDone false) s (fun t => present t core = false ∧
          t.tests.underTest = none ∧ Logged 0x2301 [a2 core] s t ∧ Logged 0x2104 [a2 core, a2 5] s t)))) ∧
    (∀ tower : Fin 8, s.tests.tower = some tower.val →
      (∀ failed rows needs, Completes (.towerSelfTestDone tower failed rows needs) s (fun t => t.tests.tower = none ∧
        (∀ q ∈ t.tests.reqs, ¬ (q.kind = 3 ∧ q.begun = true ∧ q.target = tower.val)) ∧
        (∀ a, regionOf a = .pond → sliceOf a / 48 = tower.val → cellsGet t.mem.cells a = 0) ∧
        ∃ e ∈ t.log.entries, s.log.next ≤ e.seq ∧ e.code = 0x2303 ∧ e.args.take 2 = bytesLE 2 tower.val)) ∧
      (∀ x : Fin 384, x.val / 48 = tower.val → present s x.val = true → Completes (.towerSelfTestDone tower [x] [] []) s (fun t =>
        present t x.val = false ∧ Logged 0x2301 [a2 x.val] s t ∧ Logged 0x2303 [a2 tower.val, a2 1, a2 0] s t)))

/-- FW_STAGE takes the segments of an image in order: each but the last answers DONE and is kept, one that does not
follow, or whose KIND is reserved, is BAD_ARG, and the whole image answers DONE with its RELEASE and SVN, or DENIED
with event 0x7101 where a check refuses it. FW_ACTIVATE waits for the boundary while a step is open; outside a step it
swaps the images at once, with event 0x7102, or is WRONG_STATE where nothing is staged or work is under way. OWNER_KEY
fuses the key's digest and discards images that are not signed with it; POLICY_SET puts the record in force; what is
not signed is DENIED with event 0x7107. ZEROISE erases the secrets, the staged images and the sessions, with event
0x7202. Keeper in its error state, or zeroised, answers WRONG_STATE. (R373, R375, R466, R472, R473, R474, R477, 16
Table 16-2, 17 Table 17-5) -/
def Obligations.FirmwareOrders : Prop :=
  ∀ (s : State) (c : Cmd),
    (Passes 0x0801 c [.firmware] s → trustGone s = false →
      (∀ (head : BitVec 128) bytes, let kind := fld head 0 8
        let kept := if fld head 32 32 = 0 then (fld head 64 32, ([] : List Byte)) else tget s.sec.staging kind (0, [])
        let follows := fld head 32 32 = kept.2.length ∧ fld head 64 32 = kept.1 ∧ fld head 32 32 + bytes.length ≤ kept.1 ∧ bytes ≠ []
        ((kind = 0 ∨ 4 < kind ∨ ¬ follows) → Completes (.cmdFwStage c head bytes) s (Gives 0x0801 c { st := stBadArg, detail := 0x8000 } s s)) ∧
        (1 ≤ kind → kind ≤ 4 → follows → kept.2.length + bytes.length < kept.1 → Completes (.cmdFwStage c head bytes) s (Gives 0x0801 c { st := stDone }
          { s with sec := { s.sec with staging := (tset s.sec.staging kind (kept.1, kept.2 ++ bytes)) } } s)) ∧
        (1 ≤ kind → kind ≤ 4 → follows → kept.2.length + bytes.length = kept.1 → Completes (.cmdFwStage c head bytes) s (fun t =>
          match refusal s kind (kept.2 ++ bytes) with
          | none => Gives 0x0801 c
              { st := stDone, r0 := imgRelease (imgHead (kept.2 ++ bytes)), r1 := imgSvn (imgHead (kept.2 ++ bytes)) }
              { s with sec := { s.sec with staging := (tdel s.sec.staging kind), staged := (if kind = 2 ∨ kind = 3 then tset s.sec.staged kind (imageOf (kept.2 ++ bytes)) else s.sec.staged) } } s t
          | some why => Posted 0x0801 c { st := stDenied } s t ∧ t.sec.staged = s.sec.staged ∧ tfind? t.sec.staging kind = none ∧
              Logged 0x7101 [a2 kind, a2 c.mailbox.val, a2 why] s t)))) ∧
    (Passes 0x0802 c [.firmware] s → trustGone s = false →
      (stepOpen s = true → s.sec.staged ≠ [] → Completes (.cmdFwActivate c) s (fun t =>
        Boundary.fwActivate ∈ t.steps.actions ∧ WaitsFor 0x0802 c .fwActivate { s with steps := { s.steps with actions := t.steps.actions } } s t)) ∧
      (stepOpen s = true → s.sec.staged = [] → Completes (.cmdFwActivate c) s (Gives 0x0802 c { st := stWrongState } s s)) ∧
      (stepOpen s = false → swapBlocked s = true → Completes (.cmdFwActivate c) s (Gives 0x0802 c { st := stWrongState } s s)) ∧
      (stepOpen s = false → swapBlocked s = false → Completes (.cmdFwActivate c) s (fun t => Answered 0x0802 c { st := stDone } s t ∧
        t.porter.porter = 1 ∧ t.sec.staged = [] ∧ (∀ k, k = 2 ∨ k = 3 → ∀ i, tfind? s.sec.staged k = some i → s.sec.staged.length = 1 →
          tfind? t.sec.images k = some i ∧ tget t.sec.measured (k + 1) 0 = i.digest) ∧
        ∃ e ∈ t.log.entries, s.log.next ≤ e.seq ∧ e.code = 0x7102 ∧
          e.args.take 16 = bytesLE 2 (imageRel t 2) ++ bytesLE 2 (imageRel t 3) ++ bytesLE 2 (imageSvn t 2) ++ bytesLE 2 (imageSvn t 3) ++ bytesLE 8 0))) ∧
    (Passes 0x0803 c [.firmware] s → trustGone s = false → ∀ key sig inForce, Completes (.cmdOwnerKey c key sig inForce) s (fun t =>
      (s.sec.ownerKeys.length < 3 ∧ key.length = 133 ∧ Config.ecdsaVerify key (keyMessage s key) sig = true ∧
        keyInForceSigned s key inForce = true → Posted 0x0803 c { st := stDone } s t ∧
          t.sec.ownerKeys = s.sec.ownerKeys ++ [Config.sha512 key] ∧
          (∀ k i, tfind? t.sec.staged k = some i → i.owner = some (Config.sha512 key)) ∧ Logged 0x7105 [a2 s.sec.ownerKeys.length] s t) ∧
      ((3 ≤ s.sec.ownerKeys.length ∨ key.length ≠ 133 ∨ Config.ecdsaVerify key (keyMessage s key) sig = false ∨
          keyInForceSigned s key inForce = false) → Posted 0x0803 c { st := stDenied } s t ∧ t.sec = s.sec ∧
          ∃ e ∈ t.log.entries, s.log.next ≤ e.seq ∧ e.code = 0x7107 ∧ e.args.take 2 = bytesLE 2 0x0803))) ∧
    (Passes 0x0804 c [.firmware] s → trustGone s = false → ∀ (r : BitVec 512) key sig, fld r 32 364 = 0 → recCrcOk r = true →
      let good := policySigner s key = true ∧ Config.ecdsaVerify key (recBytes r) sig = true ∧ fld r 448 64 = Config.deviceSerial.toNat ∧
        fld s.sec.policy 416 32 < fld r 416 32 ∧ ∀ k, k = 1 ∨ k = 2 ∨ k = 3 → polMin r k ≤ imageSvn s k
      Completes (.cmdPolicySet c r key sig) s (fun t =>
        (good → Posted 0x0804 c { st := stDone } s t ∧ t.sec.policy = r ∧
          (∀ k, k = 1 ∨ k = 2 ∨ k = 3 → counterOf t k = max (counterOf s k) (polMin r k)) ∧ Logged 0x7106 [a4 (fld r 416 32)] s t) ∧
        (¬ good → Posted 0x0804 c { st := stDenied } s t ∧ t.sec = s.sec ∧
          ∃ e ∈ t.log.entries, s.log.next ≤ e.seq ∧ e.code = 0x7107 ∧ e.args.take 2 = bytesLE 2 0x0804))) ∧
    (Passes 0x0802 c [.firmware] s → trustGone s = true → Completes (.cmdFwActivate c) s (Gives 0x0802 c { st := stWrongState } s s)) ∧
    (Passes 0x0805 c [.firmware] s → keeperAlive s = true → Completes (.cmdZeroise c) s (fun t => Answered 0x0805 c { st := stDone } s t ∧
      t.sec.secrets = false ∧ t.sec.zeroised = true ∧ t.sec.staging = [] ∧ t.sec.staged = [] ∧ t.sec.sessions = [] ∧
      trustGone t = true ∧ Boundary.fwActivate ∉ t.steps.actions ∧ Logged 0x7202 [a2 c.mailbox.val] s t))

/-- SNAP_TAKE takes a good request where no snapshot is in progress, answers ACCEPTED and awaits the boundary; SNAP_ABORT
ends the snapshot it names with event 0x8902. STORE_FORM sets the store's drives, DRIVE_RESCAN enumerates them, with
event 0x4905 for one that does not qualify. LODGE_PAIR asks the partner and waits; the same feed, or OVERRIDE from
another than the fabric manager, is DENIED. LODGE_PROMOTE promotes the copies of a module that is no member any more,
with event 0x8906. RESTORE answers ACCEPTED and begins, or, where the manifest fails a check, ends at once with event
0x8909 and no restore in progress. (R332, R336, R337, R342, R362, R437, R442, R445, R446, 12 Table 12-6, 16 Table
16-2) -/
def Obligations.SnapStoreLodgeRestoreOrders : Prop :=
  ∀ (s : State) (c : Cmd),
    (∀ x, Passes 0x0901 c [.snapshot] s →
      let may := s.snap = none ∧ (fld x 441 1 = 1 → keeperSigns s = true) ∧ (sqDest x = 0 → s.ports.store ≠ [] ∧ storRoot s = true)
      (badRequest s x = none → may → Completes (.cmdSnapTake c x) s (fun t => Posted 0x0901 c { st := stAccepted } s t ∧
        ButMailbox c.mailbox.val { s with snap := t.snap, steps := { s.steps with actions := s.steps.actions ++ [.snapshot] } } t ∧
        ∃ n, t.snap = some n ∧ n.req = x ∧ n.marked = false ∧ n.parts = [])) ∧
      (badRequest s x = none → ¬ may → Completes (.cmdSnapTake c x) s (Gives 0x0901 c { st := stWrongState } s s)) ∧
      (∀ o, badRequest s x = some o → Completes (.cmdSnapTake c x) s (Gives 0x0901 c { st := stBadArg, detail := 4 + o } s s))) ∧
    (∀ id, Passes 0x0902 c [.snapshot] s →
      (∀ x, s.snap = some x → snapId x = id.toNat → Completes (.cmdSnapAbort c id) s (fun t => Answered 0x0902 c { st := stDone } s t ∧
        t.snap = none ∧ Boundary.snapshot ∉ t.steps.actions ∧ t.mem = s.mem ∧ Logged 0x8902 [a8 id.toNat, a2 (Config.snapCause 1)] s t)) ∧
      ((∀ x, s.snap = some x → snapId x ≠ id.toNat) → Completes (.cmdSnapAbort c id) s (Gives 0x0902 c { st := stWrongState } s s))) ∧
    (∀ pairs, Passes 0x0903 c [.snapshot] s →
      (storRoot s = true → pairs ≠ [] → pairs.length ≤ 16 → pairs.eraseDups.length = pairs.length →
        (∀ q ∈ pairs, (driveAt s q.1).used = true ∧ (driveAt s q.1).failed = false) → Completes (.cmdStoreForm c pairs) s
          (Gives 0x0903 c { st := stDone } { s with ports := { s.ports with store := pairs } } s)) ∧
      (storRoot s = false → Completes (.cmdStoreForm c pairs) s (Gives 0x0903 c { st := stWrongState } s s))) ∧
    (Passes 0x0904 c [] s →
      (storRoot s = true → ∀ found, Completes (.cmdDriveRescan c found) s (fun t =>
        Gives 0x0904 c { st := stDone } (enumerateDrives found s) s t ∧
        (domainRuns s dieStor = true → (∀ d, found = [(d, 0)] → (∀ q ∈ s.ports.drives, q.1 = d.val → q.2.failed = false) → (driveAt t d.val).used = true) ∧
        (∀ d why, found = [(d, why)] → why ≠ 0 → Logged 0x4905 [a2 d.val, a2 why] s t)))) ∧
      (storRoot s = false → ∀ found, Completes (.cmdDriveRescan c found) s (Gives 0x0904 c { st := stWrongState } s s))) ∧
    (∀ (partner : W16) (override pfeed : Byte), Passes 0x0905 c [.lodge] s →
      ((override = 1 ∧ c.mailbox.val = 65 ∨ override = 0 ∧ pfeed.toNat ≠ s.power.feedTag.toNat) → lodgeWaits s = false →
        Completes (.cmdLodgePair c partner override pfeed) s (fun t =>
          WaitsFor 0x0905 c (.lodge partner)
            { s with lodge := { s.lodge with asking := some (partner, override == 1), counted := lodgedTensors s } } s t ∧
          t.outs = Out.lodge partner "request" [s.fab.moduleId.toNat, s.power.feedTag.toNat, override.toNat,
            (lodgedTensors s).length, lodgeBytes s] [] :: s.outs)) ∧
      ((override = 1 ∧ c.mailbox.val ≠ 65 ∨ override = 0 ∧ pfeed.toNat = s.power.feedTag.toNat) →
        Completes (.cmdLodgePair c partner override pfeed) s (Gives 0x0905 c { st := stDenied } s s))) ∧
    (∀ failed, Passes 0x0906 c [.lodge] s →
      (s.lodge.lodgedFor = failed → failed ≠ noModule → isMember s failed = false → ∀ r u, tailRoom s = some (r, u) →
        Completes (.cmdLodgePromote c failed) s (fun t => t.lodge = { s.lodge with promoted := some failed } ∧
          (∃ low, Posted 0x0906 c { st := stDone, r0 := r.toNat, r1 := s.lodge.directory.length, r2 := low } s t ∧
            (s.lodge.directory ≠ [] → low ∈ s.lodge.directory.map (fun d => d.2.2.toNat)) ∧
            ∀ d ∈ s.lodge.directory, low ≤ d.2.2.toNat) ∧
          (MemGood s → r ≠ 0xFFFF → ∀ m, roomAt u r.toNat = some m → rd t m.base.toNat s.lodge.tail.length = s.lodge.tail) ∧
          Logged 0x8906 [a2 failed.toNat, a2 s.lodge.directory.length] s t)) ∧
      ((s.lodge.lodgedFor ≠ failed ∨ isMember s failed = true) → Completes (.cmdLodgePromote c failed) s
        (Gives 0x0906 c { st := stWrongState } s s))) ∧
    (∀ (source : Byte) id addr m, Passes 0x0907 c [] s → source.toNat ≤ 1 → (source = 0 → addr.toNat % chunkLen = 0) →
      let may := (∃ p ∈ s.porter.plans, p.1 ∉ s.porter.unloaded) ∧ stepOpen s = false ∧ s.snap = none ∧ s.restore = none ∧
        (source = 0 → s.ports.store ≠ [] ∧ storRoot s = true)
      let staging : RoomReq := { cls := 6, home := 1, index := 0, slots := 1, fallback := false, pages := 2 * chunkLen / 4096 }
      (may → ∀ k u, grantRoom staging 0xFFFF s = some (k, u) → Completes (.cmdRestore c source id addr m) s (fun t =>
        Posted 0x0907 c { st := stAccepted } s t ∧
        match manifestBad u id m with
        | some why => t.restore = none ∧ t.mem = s.mem ∧ Logged 0x8909 [a8 id.toNat, a2 (Config.restoreCause why)] s t
        | none => mfChunks m ≠ 0 → openImage m (restored u m) u ≠ none →
            ∃ r, t.restore = some r ∧ r.source = source ∧ r.id = id ∧ r.manifest = m ∧ r.done = [])) ∧
      (may → grantRoom staging 0xFFFF s = none → Completes (.cmdRestore c source id addr m) s (Gives 0x0907 c { st := stNoRoom } s s)) ∧
      (¬ may → Completes (.cmdRestore c source id addr m) s (Gives 0x0907 c { st := stWrongState } s s)))

/-- A lodger that no other has preceded, on another feed or with OVERRIDE, receives a room and DONE, with event 0x8903;
otherwise WRONG_STATE or DENIED. The partner's answer ends the order that waits: DONE makes it the partner, with event
0x8903; another status, or no answer in time, leaves the partner as it was, with event 0x8904. A tensor with good
digests goes to the spare area and its old area becomes the spare; one without is discarded and sent once more. A
chunk whose digest holds is put where its parts live, one that fails ends the restore with parameter state lost and
event 0x8909 where a part has no source. After the last chunk the step after the image's is next, with event 0x8907.
(R436, R437, R438, R439, R446, R447, R448, 16 Table 16-2) -/
def Obligations.LodgingAndRestoreRows : Prop :=
  ∀ s : State,
    (porterRuns s = true → s.porter.ready = true → ∀ (lodger : W16) (feed : Byte) (override : Bool) (tensors bytes : Nat),
      let taken := s.lodge.lodgedFor ≠ noModule ∧ s.lodge.lodgedFor ≠ lodger ∧ s.lodge.promoted = none
      let same := feed.toNat = s.power.feedTag.toNat ∧ override = false
      (taken → Completes (.lodgingRequestArrival lodger feed override tensors bytes) s (fun t =>
        t = emit (.lodge lodger "answer" [stWrongState, s.power.feedTag.toNat] []) s)) ∧
      (¬ taken → same → Completes (.lodgingRequestArrival lodger feed override tensors bytes) s (fun t =>
        t = emit (.lodge lodger "answer" [stDenied, s.power.feedTag.toNat] []) s)) ∧
      (¬ taken → ¬ same → ∀ r u, lodgingRoom bytes (releaseNow s.lodge.room.toNat s) = some (r, u) →
        Completes (.lodgingRequestArrival lodger feed override tensors bytes) s (fun t => t.lodge.lodgedFor = lodger ∧
          t.lodge.promoted = none ∧ t.lodge.room = r ∧ t.lodge.areas = tensors + 1 ∧ t.lodge.directory = [] ∧ t.rooms = u.rooms ∧
          Logged 0x8903 [a2 lodger.toNat, a2 s.power.feedTag.toNat, a2 feed.toNat, a2 override.toNat] s t ∧
          Out.lodge lodger "answer" [stDone, s.power.feedTag.toNat] [] ∈ t.outs))) ∧
    (∀ partner override, s.lodge.asking = some (partner, override) →
      (∀ feed : Byte, Completes (.lodgingAnswerArrival 0 feed) s (fun t => t.lodge.partner = partner ∧ t.lodge.correlated = override ∧
        t.lodge.asking = none ∧ t.lodge.refreshed = [] ∧
        (∀ q, s.porter.outstanding = [q] → isLodgeWait q = true → t.porter.outstanding = []) ∧
        Logged 0x8903 [a2 partner.toNat, a2 s.power.feedTag.toNat, a2 feed.toNat, a2 override.toNat] s t)) ∧
      (∀ status feed : Byte, status ≠ 0 → Completes (.lodgingAnswerArrival status feed) s (fun t =>
        t.lodge = { s.lodge with asking := none } ∧ Logged 0x8904 [a2 partner.toNat, a2 status.toNat] s t)) ∧
      Completes .lodgingAnswerTimeout s (fun t => t.lodge = { s.lodge with asking := none } ∧
        (∀ q, s.porter.outstanding = [q] → isLodgeWait q = true → t.porter.outstanding = []) ∧
        Logged 0x8904 [a2 partner.toNat, a2 0x21] s t)) ∧
    (s.lodge.lodgedFor ≠ noModule → s.lodge.promoted = none → roomAt s s.lodge.room.toNat ≠ none → ∀ tensor step bytes tail,
      (bytes.length ≤ areaLen s → s.lodge.spare < s.lodge.areas →
        Completes (.lodgedTensorReceived tensor step bytes true tail) s (fun t =>
          (MemGood s → rd t (areaAddr s s.lodge.spare) bytes.length = bytes) ∧
          (∃ d, dirEntry t tensor = some d ∧ d.2.1 = s.lodge.spare ∧ d.2.2 = step) ∧
          (∀ d, dirEntry s tensor = some d → t.lodge.spare = d.2.1) ∧ tensor ∉ t.lodge.resent ∧
          t.lodge.tail = tail.getD s.lodge.tail ∧
          t = { s with mem := t.mem, lodge := t.lodge })) ∧
      (tensor ∉ s.lodge.resent → Completes (.lodgedTensorReceived tensor step bytes false tail) s (fun t =>
        t.lodge.directory = s.lodge.directory ∧ t.mem = s.mem ∧ tensor ∈ t.lodge.resent ∧
        t.outs = .lodge s.lodge.lodgedFor "resend" [tensor.toNat] [] :: s.outs)) ∧
      (tensor ∈ s.lodge.resent → Completes (.lodgedTensorReceived tensor step bytes false tail) s (fun t =>
        t.lodge.directory = s.lodge.directory ∧ t.mem = s.mem ∧ tensor ∉ t.lodge.resent ∧ t.outs = s.outs))) ∧
    (∀ r k, s.restore = some r → k < mfChunks r.manifest → k ∉ r.done →
      (∀ q, (partsIn r.manifest k).head? = some q → Completes (.restoreChunkRead k none []) s (fun t => t.restore = none ∧
        t.params.lost = true ∧ t.mem = s.mem ∧
        Logged 0x8909 [a8 r.id.toNat, a2 (Config.restoreCause (0x100 + mePart q.1))] s t)) ∧
      (∀ bs parts, Completes (.restoreChunkRead k (some bs) parts) s (fun t =>
        Config.sha512 bs = r.manifest.digests.getD k 0 →
          (r.done.length + 1 ≠ mfChunks r.manifest →
            (t.restore.map (fun x => x.done) = some (k :: r.done)) ∧
            (∀ e o i n a len, partsIn r.manifest k = [(e, o, i, n)] → mePart e ≠ 7 → partHome s e = some (a, len) → o + n ≤ len →
              i + n ≤ bs.length → MemGood s → rd t (a + o) n = (bs.drop i).take n)) ∧
          (r.done.length + 1 = mfChunks r.manifest → trainPlan s ≠ none →
            t.restore = none ∧ t.params.lost = false ∧ t.steps.afterRestore = some (mfStep r.manifest + 1) ∧
            Logged 0x8907 [a8 r.id.toNat, a8 (mfStep r.manifest).toNat] s t))))

/-- A sample takes the effective limits of Table 15-1, the allowance of R404 and, where no throttle was in force and
compute is visited first, the level ceil(64 x excess / P_C) up to 56, or none without excess; no level passes its
maximum; estimates follow R417, margins rise by 5 mV to their targets, an estimate at 115 degrees trips, and the
budget word shows SAMPLE and MAX_CLASS. A new margin above the present one is approached with event 0x6302, one below
it is taken with event 0x6303, at the boundary where a step is open. THERM_TRIP, VRALERT_N and COOL_FAIL_N act as R420
to R422 say, with their events. PACE_RAMP_END ends a ramp. A tower that has left forerunner mode is off, its ponds +0,
its FR_TOWERS bit clear. (R391, R401, R404, R407, R410, R412, R417, R420, R421, R422, R425, R483) -/
def Obligations.GovernorSamplesAndLastLines : Prop :=
  ∀ s : State,
    (keeperAlive s = true → ∀ m, Completes (.governorSample m) s (fun t =>
      let lim := effLimits s
      let h := t.gov.history
      t.gov.sample = s.gov.sample + 1 ∧ t.gov.lastEff = lim ∧
      h = (m.p :: (if lim = s.gov.lastEff then s.gov.history else [])).take 65536 ∧
      t.gov.allow = min
        (((lim.2 * min (h.length + 1) (windowSamples s.gov.window) : Nat) : Int) - ((sumNat (h.take (windowSamples s.gov.window - 1)) : Nat) : Int))
        (((lim.1 * min (h.length + 1) 65536 : Nat) : Int) - ((sumNat (h.take 65535) : Nat) : Int)) ∧
      t.gov.b ≤ 56 ∧ t.gov.m ≤ 48 ∧ t.gov.l ≤ 48 ∧
      (s.gov.b = 0 → s.gov.m = 0 → s.gov.l = 0 →
        ((m.p : Int) ≤ t.gov.allow → t.gov.b = 0 ∧ t.gov.m = 0 ∧ t.gov.l = 0) ∧
        (t.gov.allow < (m.p : Int) → s.gov.order = 0 → 0 < m.pc →
          t.gov.b = min 56 ((64 * ((m.p : Int) - t.gov.allow).toNat + m.pc - 1) / m.pc))) ∧
      (∀ i, i < 56 → (layerAt t i).est = (if (layerAt t i).suspect = true then (layerAt t i).model
        else max (layerAt t i).sens (layerAt t i).model) ∧ (layerAt t i).throttle = decide (throttleAt i < (layerAt t i).est)) ∧
      ((∃ i, i < 56 ∧ isPondLayer i = false ∧ 115 * 64 ≤ (layerAt t i).est) → t.gov.tripped = true) ∧
      (∀ l, l < 24 → tget t.gov.margins l 0 = (if tget s.gov.margins l 0 < tget s.gov.targets l 0
        then min (tget s.gov.targets l 0) (tget s.gov.margins l 0 + 5) else tget s.gov.margins l 0)) ∧
      fld t.gov.budget 48 16 = t.gov.sample % 65536 ∧ fld t.gov.budget 33 3 = maxClass t)) ∧
    (keeperAlive s = true → ∀ l ns, l < 24 → ns ≠ [] → towerOn s (l / 3) = true → (tget s.gov.outs l []).length ≤ 16 →
      Completes (.marginMeasurementPeriod (List.replicate l [] ++ [ns])) s (fun t =>
        let new := min 40 (listMax (ns.map marginOf))
        let now := tget s.gov.margins l 0
        (now < new → tget t.gov.targets l 0 = new ∧ tget t.gov.margins l 0 = now ∧ Logged 0x6302 [a2 l, a2 new] s t) ∧
        (new < now → stepOpen s = false → tget t.gov.margins l 0 = new ∧ Logged 0x6303 [a2 l, a2 new] s t) ∧
        (new < now → stepOpen s = true → tget t.gov.margins l 0 = now ∧ Boundary.marginLower l new ∈ t.steps.actions) ∧
        (∀ p ∈ pointsOut ns, p ∈ tget t.gov.outs l []) ∧
        (∀ q ∈ t.tests.reqs, ¬ (q.kind = 4 ∧ q.target = l / 3)) ∧
        ∀ k, k ≠ l → tget t.gov.margins k 0 = tget s.gov.margins k 0)) ∧
    (∀ tower : Fin 8, Completes (.paceRampEnd tower) s (fun t => t = { s with gov := { s.gov with towers := t.gov.towers } } ∧
      towerGov t tower.val = { towerGov s tower.val with ramping := false } ∧ ∀ k, k ≠ tower.val → towerGov t k = towerGov s k)) ∧
    (∀ (layer : Fin 56) (reading : Int),
      (inReg s sdSns = true → isPondLayer layer.val = false → 115 * 64 ≤ reading → s.gov.tripped = false →
        Completes (.thermTrip layer reading) s (fun t => t.gov.tripped = true ∧ t.power.thermTrip = true ∧
          (∀ k, k < 8 → supplyAt t k = .off) ∧
          (keeperAlive s = true → Logged 0x6203 [a2 layer.val, a2 (temp16 reading)] s t))) ∧
      ((isPondLayer layer.val = true ∨ reading < 115 * 64) → Completes (.thermTrip layer reading) s (fun t => t = s))) ∧
    (s.power.vralert = false → inReg s sdSns = true →
      (vrHonoured s = true → Completes .vralertNAssert s (fun t => t.power.vralert = true ∧ t.gov.vrHold = true ∧
        fld t.gov.budget 33 3 = 0 ∧ (∀ k, k < 8 → towerOn s k = true → ∀ l ∈ logicLayers k, (paceAt t l).point = 0) ∧
        (keeperAlive s = true → Logged 0x6401 [] s t))) ∧
      (vrHonoured s = false → keeperAlive s = true → Completes .vralertNAssert s
        (OnlyEvent 0x6405 mgmt dieControl [a2 0] { s with power := { s.power with vralert := true } }))) ∧
    Completes .vralertNRelease s (fun t => t.power.vralert = false ∧
      (s.gov.vrHold = true → t.gov.vrHold = false ∧ t.gov.vrTail = 1024) ∧ (s.gov.vrHold = false → t.gov = s.gov)) ∧
    (s.power.coolFail = false → inReg s sdSns = true →
      (coolHonoured s = true → Completes .coolFailNAssert s (fun t => t.power.coolFail = true ∧
        (∀ k, k < 8 → supplyAt t k = .off) ∧ (keeperAlive s = true → Logged 0x6403 [] s t))) ∧
      (coolHonoured s = false → keeperAlive s = true → Completes .coolFailNAssert s
        (OnlyEvent 0x6405 mgmt dieControl [a2 1] { s with power := { s.power with coolFail := true } }))) ∧
    (s.power.coolFail = true → Completes .coolFailNRelease s (fun t => t.power.coolFail = false ∧
      (s.power.phase ≠ .training → ∀ k, k < 8 → supplyAt t k = supplyAt s k) ∧
      (coolHonoured s = true → keeperAlive s = true → Logged 0x6404 [] s t))) ∧
    (∀ tower : Fin 8, s.cap.leaving.getLsbD tower.val = true → Completes (.forerunnerExitDone tower) s (fun t =>
      t.cap.frTowers.getLsbD tower.val = false ∧ t.cap.leaving.getLsbD tower.val = false ∧ supplyAt t tower.val = .off ∧
      (∀ a, regionOf a = .pond → sliceOf a / 48 = tower.val → cellsGet t.mem.cells a = 0) ∧
      (t.cap.leaving = 0 → ∀ q, s.porter.outstanding = [q] → q.wait = .close → t.porter.outstanding = [])))

/-- ZERO_N held for 10 us while CTL is on erases the secrets, with event 0x7202 naming no mailbox; a shorter pulse does
nothing. An access to the boundary from outside changes nothing but event 0x7301, once for each core, and a read
answers 0. A failed conditional test puts Keeper into its error state, with event 0x7201. Every SPDM request of Table
17-3 is answered where Keeper serves the transport, what it asks for is provisioned and, after GET_VERSION, algorithms
are negotiated; any other request, and every request while Keeper is zeroised or in its error state, receives ERROR,
and changes nothing. (R456, R463, R467, R468, R470, R477, R478, 16 Table 16-2, 17 Table 17-3) -/
def Obligations.SecurityAndSpdmRows : Prop :=
  ∀ s : State,
    (∀ us, (us < 10 → Completes (.zeroNAssert us) s (fun t => t = s)) ∧
      (10 ≤ us → inReg s sdCtl = true → Completes (.zeroNAssert us) s (fun t => t.sec.secrets = false ∧ t.sec.zeroised = true ∧
        t.sec.staging = [] ∧ t.sec.staged = [] ∧ t.sec.sessions = [] ∧ (keeperAlive s = true → Logged 0x7202 [a2 0xFFFF] s t)))) ∧
    (∀ core addr isWrite,
      (keeperAlive s = true → core ∉ s.sec.accessed → Completes (.keeperBoundaryAccess core addr isWrite) s (fun t =>
        core ∈ t.sec.accessed ∧ t.mem = s.mem ∧ Logged 0x7301 [a2 core, a8 addr.toNat] s t ∧
        (isWrite = false → Out.management "boundary read" [core, 0] ∈ t.outs))) ∧
      (core ∈ s.sec.accessed → Completes (.keeperBoundaryAccess core addr isWrite) s (fun t =>
        t = if isWrite = true then s else emit (.management "boundary read" [core, 0]) s))) ∧
    (∀ test, (keeperRuns s = true → Completes (.conditionalTestFail test) s (fun t => t.sec.errorState = true ∧ t.porter.keeper = 2 ∧
        t.sec.sessions = [] ∧ trustGone t = true ∧ Logged 0x7201 [a2 test.toNat] s t)) ∧
      (keeperRuns s = false → Completes (.conditionalTestFail test) s (fun t => t = s))) ∧
    (∀ p : Fin 2, keeperAlive s = true →
      let refused (i : Instr) : Prop := Completes i s (fun t => t = emit (.spdm p.val "ERROR" [] []) s)
      (spdmServes s p.val = false → ∀ slot offset len nonce index id share verify op supported code,
        ∀ i ∈ [Instr.spdmGetVersion p, .spdmGetCapabilities p, .spdmNegotiateAlgorithms p supported, .spdmGetDigests p,
          .spdmGetCertificate p slot offset len, .spdmChallenge p slot nonce, .spdmGetMeasurements p index nonce,
          .spdmKeyExchange p id share, .spdmFinish p id verify, .spdmHeartbeat p id, .spdmKeyUpdate p id op, .spdmEndSession p id,
          .spdmUnsupportedRequest p code], refused i) ∧
      (negotiated s p.val = false → ∀ slot offset len nonce index id share,
        ∀ i ∈ [Instr.spdmGetDigests p, .spdmGetCertificate p slot offset len, .spdmChallenge p slot nonce,
          .spdmGetMeasurements p index nonce, .spdmKeyExchange p id share], refused i) ∧
      (∀ code, refused (.spdmUnsupportedRequest p code)) ∧
      (spdmServes s p.val = true →
        Completes (.spdmGetVersion p) s (fun t => t.outs = .spdm p.val "VERSION" [0x12, 0x13] [] :: s.outs ∧ negotiated t p.val = false) ∧
        Completes (.spdmGetCapabilities p) s (fun t => t = emit (.spdm p.val
          "CAPABILITIES CERT CHAL MEAS_SIG KEY_EX ENCRYPT MAC HBEAT KEY_UPD" [] []) s) ∧
        Completes (.spdmNegotiateAlgorithms p true) s (fun t =>
          t.outs = .spdm p.val "ALGORITHMS ECDSA_P521 SHA_512 SECP521R1 AES_256_GCM" [] [] :: s.outs ∧ negotiated t p.val = true) ∧
        refused (.spdmNegotiateAlgorithms p false) ∧
        (negotiated s p.val = true →
          (s.sec.certSlot = true → Completes (.spdmGetDigests p) s (fun t =>
            t = emit (.spdm p.val "DIGESTS" [1] (recBytes (Config.sha512 (chainNow s)))) s)) ∧
          (∀ offset len : W16, Completes (.spdmGetCertificate p 0 offset len) s (fun t =>
            (s.sec.certSlot = true ∧ offset.toNat < (chainNow s).length → ∃ n m,
              t = emit (.spdm p.val "CERTIFICATE" [0, n, m] (((chainNow s).drop offset.toNat).take len.toNat)) s ∧
              n = min len.toNat ((chainNow s).length - offset.toNat) ∧ n + m + offset.toNat = (chainNow s).length) ∧
            (s.sec.certSlot = false → t = emit (.spdm p.val "ERROR" [] []) s))) ∧
          (∀ (slot : Byte) nonce, (slot ≠ 0 ∨ s.sec.certSlot = false) → refused (.spdmChallenge p slot nonce)) ∧
          (∀ nonce, s.sec.certSlot = true → Completes (.spdmChallenge p 0 nonce) s (fun t => ∃ body,
            t = tick (emit (.spdm p.val "CHALLENGE_AUTH" [0] (body ++ Config.akSign s.sec.ak body)) s) ∧ body.take 32 = recBytes nonce)) ∧
          (∀ nonce, Completes (.spdmGetMeasurements p 0xFF nonce) s (fun t =>
            t = tick (emit (.spdm p.val "MEASUREMENTS" [6] (recBytes nonce ++ measurementBlock s ++
              Config.akSign s.sec.ak (recBytes nonce ++ measurementBlock s))) s)) ∧
          (∀ (k : Byte) nonce, 1 ≤ k.toNat → k.toNat ≤ 6 → Completes (.spdmGetMeasurements p k nonce) s (fun t => ∃ body,
            t = tick (emit (.spdm p.val "MEASUREMENTS" [1] (body ++ Config.akSign s.sec.ak body)) s) ∧
            body = recBytes nonce ++ recBytes (tget s.sec.measured k.toNat 0))) ∧
          (∀ id share, s.sec.certSlot = true → spdmSession s p.val id = none →
            ((s.sec.sessions.filter (fun q => q.1 == p.val)).length < 2 → Completes (.spdmKeyExchange p id share) s (fun t =>
              spdmSession t p.val id = some false ∧ ∃ d, t.outs = .spdm p.val "KEY_EXCHANGE_RSP" [id.toNat] d :: s.outs)) ∧
            (2 ≤ (s.sec.sessions.filter (fun q => q.1 == p.val)).length → refused (.spdmKeyExchange p id share)))) ∧
        (∀ id verify, spdmSession s p.val id = some false → Completes (.spdmFinish p id verify) s (fun t =>
          (Config.finishVerifies s.sec.ak id verify = true → spdmSession t p.val id = some true ∧
            t.outs = .spdm p.val "FINISH_RSP" [id.toNat] [] :: s.outs) ∧
          (Config.finishVerifies s.sec.ak id verify = false → t = emit (.spdm p.val "ERROR" [] []) s))) ∧
        (∀ id, spdmSession s p.val id = some true →
          Completes (.spdmHeartbeat p id) s (fun t => t = emit (.spdm p.val "HEARTBEAT_ACK" [id.toNat] []) s) ∧
          (∀ op : Byte, 1 ≤ op.toNat → op.toNat ≤ 3 → Completes (.spdmKeyUpdate p id op) s (fun t =>
            t = emit (.spdm p.val "KEY_UPDATE_ACK" [id.toNat, op.toNat] []) s)) ∧
          Completes (.spdmEndSession p id) s (fun t => spdmSession t p.val id = none ∧
            t.outs = .spdm p.val "END_SESSION_ACK" [id.toNat] [] :: s.outs)) ∧
        (∀ id, spdmSession s p.val id ≠ some true → refused (.spdmHeartbeat p id) ∧ refused (.spdmEndSession p id)))))

/-- For every command c, queue q and state s, a step of s with c in front of q is exec of c on s with the queue q, and it
answers a next state. With an empty queue a step answers the state as it is (the model's choice: log 4). (R343, R365,
13 Table 13-7) -/
def Obligations.StepRunsFrontCommand : Prop :=
  ∀ s : State,
    (∀ (c : Instr) (q : List Instr), step { s with pending := c :: q } = exec c { s with pending := q }) ∧
    step { s with pending := [] } = .next { s with pending := [] } ∧ Goes s

/-- After reset the limits are 3,600 W, 4,200 W and 2 ms with the baseboard controller as their setter, ORDER 0 and
LINK_FLOOR 160 W, every PACE_CEILING 15, COOL_ORDER 0x76543210 and POINTS of 8, MODULE_ID and the lodging partners
0xFFFF, no entry of the segment table or the exports valid, the mailboxes unbound with indices 0 and phase 1, the
floors and ceilings of Table 7-2, no domain in regulation, the first event number 1, and no command in the queue.
(R198, R300, R359, R400, R406, R409, R427, 07 Table 7-4, 11 Table 11-4, 13 Table 13-12, 15 Table 15-4, 15 Table 15-9) -/
def Obligations.ResetValues : Prop :=
  State.reset.gov.sustain = 3600 ∧ State.reset.gov.peak = 4200 ∧ State.reset.gov.window = 2 ∧
    State.reset.porter.sustainSetter = .baseboard ∧ State.reset.porter.peakSetter = .baseboard ∧ State.reset.porter.windowSetter = .baseboard ∧
    State.reset.gov.order = 0 ∧ State.reset.gov.linkFloor = 160 ∧ (∀ t, (towerGov State.reset t).ceiling = 15) ∧
    fld State.reset.gov.budget 0 32 = 0x76543210 ∧ fld State.reset.gov.budget 33 3 = 0 ∧
    (∀ d, (paceAt State.reset d).point = 8 ∧ (paceAt State.reset d).gated = true ∧ (paceAt State.reset d).halted = false) ∧
    State.reset.fab.moduleId = 0xFFFF ∧ State.reset.lodge.partner = 0xFFFF ∧ State.reset.lodge.lodgedFor = 0xFFFF ∧
    (∀ k, rstValid (rstAt State.reset k) = false ∧ rstModule (rstAt State.reset k) = 0xFFFF) ∧
    (∀ k, exValid (exportAt State.reset k) = false ∧ exRoom (exportAt State.reset k) = 0xFFFF) ∧
    (∀ n, (mbAt State.reset n).sqTail = 0 ∧ (mbAt State.reset n).sqHead = 0 ∧ (mbAt State.reset n).cqHead = 0 ∧
      (mbAt State.reset n).cqTail = 0 ∧ (mbAt State.reset n).phase = true ∧ (mbAt State.reset n).state = 0 ∧ (mbAt State.reset n).session = 0) ∧
    State.reset.floors = [256, 512, 256, 128, 128, 64, 64, 64] ∧ State.reset.ceilings = [1024, 1280, 1024, 512, 512, 512, 512, 128] ∧
    (∀ d, inReg State.reset d = false) ∧ State.reset.log.next = 1 ∧ State.reset.log.entries = [] ∧ State.reset.pending = []

/-- The memory after reset lists nothing, which is the canonical form, and a byte that nothing has written reads as 0 (the
model's choice: log 2). (R188, 07 Table 7-1) -/
def Obligations.ResetMemoryCanonical : Prop :=
  MemGood State.reset ∧ (∀ a, cellsGet State.reset.mem.cells a = 0)

/-- Every vector command has a word: OP in bits [63:56], TYPE in [55:54], D in [53:49], SA in [48:44], SB in [43:39], SC
in [38:34], AUX in [33:31], 0 in [30:16], CTL in [15:0]. Decoding that word for the same core gives the command back,
with every operand at every value; a word that decodes is the word of what it decodes to, and one with a reserved bit
set decodes to nothing. (R139) -/
def Obligations.VectorWordEncoding : Prop :=
  (∀ i c op v, vecParts i = some (c, op, v) → ∃ w, encodeVec i = some w ∧ decodeVec c w = some i ∧
    bits w 56 8 = op ∧ bits w 54 2 = v.type ∧ bits w 49 5 = v.d ∧ bits w 44 5 = v.sa ∧ bits w 39 5 = v.sb ∧ bits w 34 5 = v.sc ∧
    bits w 31 3 = v.aux ∧ bits w 16 15 = 0 ∧ bits w 0 16 = v.ctl) ∧
  (∀ c w i, decodeVec c w = some i → encodeVec i = some w ∧ vecCore i = some c) ∧
  (∀ c w, bits w 16 15 ≠ 0 → decodeVec c w = none)

/-- For every state whose memory has the canonical form, addresses strictly rising and no byte listed that an unlisted
address reads as, the state that a step answers has it too; and what a command answers holds the queue that it was
given. (R188, R189, 07 Table 7-1) -/
def Obligations.EveryStepKeepsMemoryCanonical : Prop :=
  (∀ s t : State, MemGood s → step s = .next t → MemGood t) ∧
  (∀ (i : Instr) (s t : State), exec i s = .next t → t.pending = s.pending)
end

