-- ==== Sys2Proof/Laws/Memory.lean ====
section
/-! SUPPORT. The laws of the memory: every operation keeps the canonical form, a read after a write gives what was written,
and a write leaves every other byte alone. -/

namespace Sys2Proof.Laws

open Sys2Proof.Machine

/-! ### The canonical form -/

theorem cellsWfFrom_mono {lo hi : Nat} (m : List Host.Cell) (h : lo ≤ hi) (w : cellsWfFrom hi m = true) :
    cellsWfFrom lo m = true := by
  cases m with
  | nil => rfl
  | cons c t =>
    obtain ⟨a, v⟩ := c
    simp only [cellsWfFrom, Bool.and_eq_true, decide_eq_true_eq] at w ⊢
    exact ⟨⟨by omega, w.1.2⟩, w.2⟩

theorem cellsWfFrom_set (m : List Host.Cell) (lo a : Nat) (v : Byte) (h : lo ≤ a) (w : cellsWfFrom lo m = true) :
    cellsWfFrom lo (cellsSet m a v) = true := by
  induction m generalizing lo with
  | nil =>
    simp only [cellsSet]
    split <;> simp_all [cellsWfFrom]
  | cons c t ih =>
    obtain ⟨j, b⟩ := c
    simp only [cellsWfFrom, Bool.and_eq_true, decide_eq_true_eq] at w
    simp only [cellsSet]
    split
    · split
      · simp only [cellsWfFrom, Bool.and_eq_true, decide_eq_true_eq]
        exact w
      · next hlt hv =>
        simp only [cellsWfFrom, Bool.and_eq_true, decide_eq_true_eq]
        exact ⟨⟨h, hv⟩, ⟨by omega, w.1.2⟩, w.2⟩
    · split
      · split
        · exact cellsWfFrom_mono t (by omega) w.2
        · next hv =>
          subst_vars
          simp only [cellsWfFrom, Bool.and_eq_true, decide_eq_true_eq]
          exact ⟨⟨w.1.1, hv⟩, w.2⟩
      · simp only [cellsWfFrom, Bool.and_eq_true, decide_eq_true_eq]
        exact ⟨w.1, ih (j + 1) (by omega) w.2⟩

theorem wf_cellsSet {m : List Host.Cell} (a : Nat) (v : Byte) (w : Memory.wf m) : Memory.wf (cellsSet m a v) :=
  cellsWfFrom_set m 0 a v (by omega) w

theorem wf_cellsPut {m : List Host.Cell} (a : Nat) (bs : List Byte) (w : Memory.wf m) : Memory.wf (cellsPut m a bs) := by
  induction bs generalizing m a with
  | nil => exact w
  | cons b bs ih => exact ih (a + 1) (wf_cellsSet a b w)

theorem cellsWfFrom_filter (p : Host.Cell → Bool) (m : List Host.Cell) (lo : Nat) (w : cellsWfFrom lo m = true) :
    cellsWfFrom lo (m.filter p) = true := by
  induction m generalizing lo with
  | nil => rfl
  | cons c t ih =>
    obtain ⟨j, b⟩ := c
    simp only [cellsWfFrom, Bool.and_eq_true, decide_eq_true_eq] at w
    rw [List.filter_cons]
    split
    · simp only [cellsWfFrom, Bool.and_eq_true, decide_eq_true_eq]
      exact ⟨w.1, ih (j + 1) w.2⟩
    · exact cellsWfFrom_mono _ (by omega) (ih (j + 1) w.2)

theorem wf_filter {m : List Host.Cell} (p : Host.Cell → Bool) (w : Memory.wf m) : Memory.wf (m.filter p) :=
  cellsWfFrom_filter p m 0 w

theorem wf_cellsZero {m : List Host.Cell} (a n : Nat) (w : Memory.wf m) : Memory.wf (cellsZero m a n) := wf_filter _ w

theorem wf_write {m : Mem} (a : Nat) (bs : List Byte) (w : Memory.wf m.cells) : Memory.wf (m.write a bs).cells :=
  wf_cellsPut a bs w

theorem wf_zero {m : Mem} (a n : Nat) (w : Memory.wf m.cells) : Memory.wf (m.zero a n).cells := wf_cellsZero a n w

theorem wf_wr {s : State} (a : Nat) (bs : List Byte) (w : Memory.wf s.mem.cells) : Memory.wf (wr a bs s).mem.cells :=
  wf_write a bs w

theorem wf_mixByte {s : State} (f : List Host.Cell) (a : Nat) (w : Memory.wf s.mem.cells) : Memory.wf (mixByte f a s).mem.cells := by
  unfold mixByte
  split
  · exact wf_write a _ w
  · exact w

/-! ### Reads after writes -/

theorem cellsGet_below (m : List Host.Cell) (lo a : Nat) (h : a < lo) (w : cellsWfFrom lo m = true) : cellsGet m a = 0 := by
  induction m generalizing lo with
  | nil => rfl
  | cons c t ih =>
    obtain ⟨j, b⟩ := c
    simp only [cellsWfFrom, Bool.and_eq_true, decide_eq_true_eq] at w
    have hne : (j == a) = false := by simp; omega
    simp only [cellsGet, hne]
    exact ih (j + 1) (by omega) w.2

theorem cellsGet_setFrom (m : List Host.Cell) (lo a i : Nat) (v : Byte) (w : cellsWfFrom lo m = true) :
    cellsGet (cellsSet m a v) i = if i = a then v else cellsGet m i := by
  induction m generalizing lo with
  | nil =>
    simp only [cellsSet]
    split
    · simp_all [cellsGet]
    · by_cases h : i = a
      · simp [cellsGet, h]
      · have : (a == i) = false := by simp; omega
        simp [cellsGet, h, this]
  | cons c t ih =>
    obtain ⟨j, b⟩ := c
    simp only [cellsWfFrom, Bool.and_eq_true, decide_eq_true_eq] at w
    simp only [cellsSet]
    split
    · next hlt =>
      by_cases h : i = a
      · subst h
        have hne : (j == i) = false := by simp; omega
        split
        · next hv => simp [cellsGet, hne, cellsGet_below t (j + 1) i (by omega) w.2, hv]
        · simp [cellsGet]
      · have hne : (a == i) = false := by simp; omega
        split <;> simp [cellsGet, h, hne]
    · split
      · next he =>
        subst he
        by_cases h : i = a
        · subst h
          split
          · next hv => simp [cellsGet_below t (i + 1) i (by omega) w.2, hv]
          · simp [cellsGet]
        · have hne : (a == i) = false := by simp; omega
          split <;> simp [cellsGet, h, hne]
      · next hlt hne' =>
        by_cases hj : j = i
        · subst hj
          have h : ¬ j = a := by omega
          simp [cellsGet, h]
        · have hne : (j == i) = false := by simp; omega
          simp only [cellsGet, hne]
          exact ih (j + 1) w.2

/-- A byte after a write: the byte written at that address, every other as before. -/
theorem cellsGet_cellsSet {m : List Host.Cell} (a i : Nat) (v : Byte) (w : Memory.wf m) :
    cellsGet (cellsSet m a v) i = if i = a then v else cellsGet m i := cellsGet_setFrom m 0 a i v w

theorem cellsGet_cellsPut {m : List Host.Cell} (a i : Nat) (bs : List Byte) (w : Memory.wf m) :
    cellsGet (cellsPut m a bs) i = if a ≤ i ∧ i < a + bs.length then bs.getD (i - a) 0 else cellsGet m i := by
  induction bs generalizing m a with
  | nil => simp [cellsPut] <;> omega
  | cons b bs ih =>
    simp only [cellsPut]
    rw [ih (a + 1) (wf_cellsSet a b w), cellsGet_cellsSet a i b w]
    by_cases h1 : i = a
    · subst h1
      rw [if_neg (by omega), if_pos rfl, if_pos (by simp)]
      simp
    · by_cases h2 : a ≤ i ∧ i < a + (b :: bs).length
      · have h3 : a + 1 ≤ i ∧ i < a + 1 + bs.length := by simp at h2; omega
        obtain ⟨k, rfl⟩ : ∃ k, i = a + 1 + k := ⟨i - (a + 1), by omega⟩
        have e1 : a + 1 + k - (a + 1) = k := by omega
        have e2 : a + 1 + k - a = k + 1 := by omega
        rw [if_pos h3, if_pos h2, e1, e2]; simp
      · have h3 : ¬ (a + 1 ≤ i ∧ i < a + 1 + bs.length) := by simp at h2; omega
        rw [if_neg h3, if_neg h1, if_neg h2]

/-- A write leaves every byte outside it alone. -/
theorem cellsGet_wr_outside {s : State} (a i : Nat) (bs : List Byte) (w : Memory.wf s.mem.cells)
    (h : i < a ∨ a + bs.length ≤ i) : cellsGet (wr a bs s).mem.cells i = cellsGet s.mem.cells i := by
  have e : cellsGet (wr a bs s).mem.cells i = cellsGet (cellsPut s.mem.cells a bs) i := rfl
  rw [e, cellsGet_cellsPut a i bs w, if_neg (by omega)]

theorem cellsRead_eq (m : List Host.Cell) (a : Nat) (bs : List Byte)
    (h : ∀ k, k < bs.length → cellsGet m (a + k) = bs.getD k 0) : cellsRead m a bs.length = bs := by
  induction bs generalizing a with
  | nil => rfl
  | cons b bs ih =>
    simp only [List.length_cons, cellsRead]
    have h0 := h 0 (by simp)
    simp at h0
    rw [h0, ih (a + 1) (fun k hk => by
      have := h (k + 1) (by simp; omega)
      rw [show a + (k + 1) = a + 1 + k by omega] at this
      simpa using this)]

/-- Reading back what has just been written. -/
theorem rd_wr {s : State} (a : Nat) (bs : List Byte) (w : Memory.wf s.mem.cells) : rd (wr a bs s) a bs.length = bs := by
  refine cellsRead_eq _ a bs (fun k hk => ?_)
  have e : cellsGet (wr a bs s).mem.cells (a + k) = cellsGet (cellsPut s.mem.cells a bs) (a + k) := rfl
  rw [e, cellsGet_cellsPut a (a + k) bs w, if_pos (by omega), Nat.add_sub_cancel_left]

theorem wf_reset : Memory.wf State.reset.mem.cells := rfl

end Sys2Proof.Laws
end

