-- ==== Sys2Proof/Laws/Keep.lean ====
section
/-! SUPPORT. What every function of the model keeps: the waiting commands, and the canonical form of the memory. -/

set_option linter.unusedSimpArgs false

namespace Sys2Proof.Laws

open Sys2Proof.Machine Sys2Proof.Safety

/-- From s to t the queue stays as it was, and a canonical memory stays canonical. -/
def Keeps (s t : State) : Prop := t.pending = s.pending ∧ (Memory.wf s.mem.cells → Memory.wf t.mem.cells)

theorem Keeps.refl (s : State) : Keeps s s := ⟨rfl, id⟩

theorem Keeps.trans {s t u : State} (h : Keeps s t) (k : Keeps t u) : Keeps s u := ⟨k.1.trans h.1, fun w => k.2 (h.2 w)⟩

/-- Nothing but the fields besides the queue and the memory is replaced. -/
theorem keeps_mk {s u : State} {b c d e f g i j k l m n o p q r v w x y z a' b' c' d'} :
    Keeps s ⟨u.pending, b, c, d, e, f, g, u.mem, i, j, k, l, m, n, o, p, q, r, v, w, x, y, z, a', b', c', d'⟩ ↔ Keeps s u :=
  Iff.rfl

/-- Of the memory only its marks are replaced. -/
theorem keeps_mkcells {s u : State} {b c d e f g i j k l m n o p q r v w x y z a' b' c' d'}
    {m1 m2 m3 m4 m5 m6 m7 m8 m9 m10} :
    Keeps s ⟨u.pending, b, c, d, e, f, g, ⟨u.mem.cells, m1, m2, m3, m4, m5, m6, m7, m8, m9, m10⟩, i, j, k, l, m, n, o, p, q, r, v,
      w, x, y, z, a', b', c', d'⟩ ↔ Keeps s u := Iff.rfl

/-- The memory is replaced by one that is canonical where it was. -/
theorem keeps_mem {s u t : State} (h : Keeps s u) (hp : t.pending = u.pending)
    (hm : Memory.wf u.mem.cells → Memory.wf t.mem.cells) : Keeps s t := ⟨hp.trans h.1, fun w => hm (h.2 w)⟩

theorem keeps_foldl {α : Type} {s u : State} {f : State → α → State} {l : List α} (h : Keeps s u)
    (hf : ∀ v x, Keeps s v → Keeps s (f v x)) : Keeps s (l.foldl f u) := by
  induction l generalizing u with
  | nil => exact h
  | cons x l ih => exact ih (hf u x h)

theorem keeps_forEach {α : Type} {s u : State} {f : α → State → State} {l : List α} (h : Keeps s u)
    (hf : ∀ x v, Keeps s v → Keeps s (f x v)) : Keeps s (forEach l f u) := keeps_foldl h (fun v x => hf x v)

theorem keeps_when {s u : State} {f : State → State} {c : Bool} (h : Keeps s u) (hf : Keeps s (f u)) :
    Keeps s (when_ c f u) := by
  unfold when_; split
  · exact hf
  · exact h

theorem wf_memReset : Memory.wf Mem.reset.cells := rfl


theorem keeps_ite {s u v : State} {c : Prop} [Decidable c] (h : Keeps s u) (k : Keeps s v) : Keeps s (if c then u else v) := by
  split
  · exact h
  · exact k

theorem keeps_snd {s v : State} {α : Type} {r : α × State} {x : α} (e : r = (x, v)) (h : Keeps s r.2) : Keeps s v := by
  rw [e] at h; exact h

theorem keeps_fst {s v : State} {α : Type} {r : State × α} {x : α} (e : r = (v, x)) (h : Keeps s r.1) : Keeps s v := by
  rw [e] at h; exact h

theorem keeps_wr {s u : State} (h : Keeps s u) : Keeps s (wr x1 x2 u) := keeps_mem h rfl (fun w => wf_write _ _ w)

theorem keeps_setPace {s u : State} (h : Keeps s u) : Keeps s (setPace x1 x2 u) := h

theorem keeps_raise {s u : State} (h : Keeps s u) : Keeps s (raise x1 x2 x3 x4 u) := by
  unfold raise
  repeat' first | with_reducible assumption | (simp only [keeps_mk, keeps_mkcells])

theorem keeps_raiseMgmt {s u : State} (h : Keeps s u) : Keeps s (raiseMgmt x1 x2 u) := by
  unfold raiseMgmt
  repeat' first | with_reducible assumption | with_reducible apply keeps_raise

theorem keeps_raiseCtrl {s u : State} (h : Keeps s u) : Keeps s (raiseCtrl x1 x2 u) := by
  unfold raiseCtrl
  repeat' first | with_reducible assumption | with_reducible apply keeps_raise

theorem keeps_emit {s u : State} (h : Keeps s u) : Keeps s (emit x1 u) := h

theorem keeps_tick {s u : State} (h : Keeps s u) : Keeps s (tick u) := h

theorem keeps_capBump {s u : State} (h : Keeps s u) : Keeps s (capBump u) := by
  unfold capBump
  repeat' first | with_reducible assumption | with_reducible apply keeps_ite | (simp only [keeps_mk, keeps_mkcells])

theorem keeps_senderMoved {s u : State} (h : Keeps s u) : Keeps s (senderMoved x1 u) := by
  unfold senderMoved
  repeat' first | with_reducible assumption | (simp only [keeps_mk, keeps_mkcells])

theorem keeps_setCore {s u : State} (h : Keeps s u) : Keeps s (setCore x1 x2 u) := h

theorem keeps_setChan {s u : State} (h : Keeps s u) : Keeps s (setChan x1 x2 u) := h

theorem keeps_updRoom {s u : State} (h : Keeps s u) : Keeps s (updRoom x1 x2 u) := h

theorem keeps_grantRoom_eq {s u v : State} {q o x} (e : grantRoom q o u = some (x, v)) (h : Keeps s u) : Keeps s v := by
  unfold grantRoom at e
  split at e
  · cases e; exact h
  · cases e

theorem keeps_putOpened {s u : State} (h : Keeps s u) : Keeps s (putOpened x1 x2 u) := by
  unfold putOpened
  repeat' first | with_reducible assumption | with_reducible apply keeps_updRoom

theorem keeps_settleRelease {s u : State} (h : Keeps s u) : Keeps s (settleRelease x1 u) := by
  unfold settleRelease
  repeat' first | with_reducible assumption | (simp only [keeps_mk, keeps_mkcells]) | split

theorem keeps_pinRoom {s u : State} (h : Keeps s u) : Keeps s (pinRoom x1 x2 u) := by
  unfold pinRoom
  repeat' first | with_reducible assumption | with_reducible apply keeps_updRoom

theorem keeps_unpinRoom {s u : State} (h : Keeps s u) : Keeps s (unpinRoom x1 x2 u) := by
  unfold unpinRoom
  repeat' first
    | with_reducible assumption | with_reducible apply keeps_updRoom | with_reducible apply keeps_settleRelease

theorem keeps_mixByte {s u : State} (h : Keeps s u) : Keeps s (mixByte x1 x2 u) :=
  keeps_ite (keeps_mem h rfl (fun w => wf_write _ _ w)) h

theorem keeps_mixSlot {s u : State} (h : Keeps s u) : Keeps s (mixSlot x1 u) := by
  unfold mixSlot
  repeat' first
    | with_reducible assumption | (intro u; (try dsimp only)) | with_reducible apply keeps_tick
    | with_reducible apply keeps_mixByte | with_reducible apply keeps_forEach

theorem keeps_abandonFresh {s u : State} (h : Keeps s u) : Keeps s (abandonFresh x1 u) := by
  unfold abandonFresh
  repeat' first
    | with_reducible assumption | with_reducible apply keeps_updRoom | with_reducible apply keeps_settleRelease
    | with_reducible apply keeps_mixSlot | split

theorem keeps_startRings {s u : State} (h : Keeps s u) : Keeps s (startRings x1 u) := by
  unfold startRings
  repeat' first
    | with_reducible assumption | with_reducible apply keeps_pinRoom | (simp only [keeps_mk, keeps_mkcells]) | split

theorem keeps_commitRoom {s u : State} (h : Keeps s u) : Keeps s (commitRoom x1 u) := by
  unfold commitRoom
  repeat' first
    | with_reducible assumption | with_reducible apply keeps_updRoom | with_reducible apply keeps_startRings

theorem keeps_writerDone {s u : State} (h : Keeps s u) : Keeps s (writerDone x1 u) := by
  unfold writerDone
  repeat' first
    | with_reducible assumption | with_reducible apply keeps_updRoom | with_reducible apply keeps_settleRelease
    | with_reducible apply keeps_commitRoom | split

theorem keeps_writerEnded {s u : State} (h : Keeps s u) : Keeps s (writerEnded x1 u) := by
  unfold writerEnded
  repeat' first
    | with_reducible assumption | with_reducible apply keeps_updRoom | with_reducible apply keeps_settleRelease
    | with_reducible apply keeps_abandonFresh | split

theorem keeps_endRing {s u : State} (h : Keeps s u) : Keeps s (endRing x1 u) := by
  unfold endRing
  repeat' first
    | with_reducible assumption | with_reducible apply keeps_unpinRoom | (simp only [keeps_mk, keeps_mkcells]) | split

theorem keeps_removeUses {s u : State} (h : Keeps s u) : Keeps s (removeUses x1 u) := by
  unfold removeUses
  repeat' first
    | with_reducible assumption | (intro u; (try dsimp only)) | with_reducible apply keeps_endRing
    | with_reducible apply keeps_forEach | (simp only [keeps_mk, keeps_mkcells])

theorem keeps_releaseNow {s u : State} (h : Keeps s u) : Keeps s (releaseNow x1 u) := by
  unfold releaseNow
  repeat' first
    | with_reducible assumption | with_reducible apply keeps_updRoom | with_reducible apply keeps_settleRelease

theorem keeps_poisonEvent {s u : State} (h : Keeps s u) : Keeps s (poisonEvent x1 x2 u) := by
  unfold poisonEvent
  repeat' first | with_reducible assumption | with_reducible apply keeps_raise | split

theorem keeps_readEvent {s u : State} (h : Keeps s u) : Keeps s (readEvent x1 x2 u) := by
  unfold readEvent
  repeat' first | with_reducible assumption | with_reducible apply keeps_poisonEvent | split

theorem keeps_setMb {s u : State} (h : Keeps s u) : Keeps s (setMb x1 x2 u) := h

theorem keeps_ok {s u : State} (h : Keeps s u) : Keeps s (ok u).2 := by
  unfold ok
  assumption

theorem keeps_ok_eq {s u v : State} {x} (e : ok u = (x, v)) (h : Keeps s u) :
    Keeps s v := keeps_snd e (keeps_ok h)

theorem keeps_reply {s u : State} (h : Keeps s u) : Keeps s (reply x1 u).2 := by
  unfold reply
  assumption

theorem keeps_reply_eq {s u v : State} {x} (e : reply x1 u = (x, v)) (h : Keeps s u) :
    Keeps s v := keeps_snd e (keeps_reply (x1 := x1) h)

theorem keeps_badInline {s u : State} (h : Keeps s u) : Keeps s (badInline x1 u).2 := by
  unfold badInline
  assumption

theorem keeps_badInline_eq {s u v : State} {x} (e : badInline x1 u = (x, v)) (h : Keeps s u) :
    Keeps s v := keeps_snd e (keeps_badInline (x1 := x1) h)

theorem keeps_badExt {s u : State} (h : Keeps s u) : Keeps s (badExt x1 u).2 := by
  unfold badExt
  assumption

theorem keeps_badExt_eq {s u v : State} {x} (e : badExt x1 u = (x, v)) (h : Keeps s u) :
    Keeps s v := keeps_snd e (keeps_badExt (x1 := x1) h)

theorem keeps_oweIrq {s u : State} (h : Keeps s u) : Keeps s (oweIrq x1 u) := by
  unfold oweIrq
  repeat' first | with_reducible assumption | with_reducible apply keeps_ite | (simp only [keeps_mk, keeps_mkcells])

theorem keeps_post {s u : State} (h : Keeps s u) : Keeps s (post x1 x2 u) := by
  unfold post
  repeat' first
    | with_reducible assumption | with_reducible apply keeps_ite | with_reducible apply keeps_emit
    | with_reducible apply keeps_setMb | with_reducible apply keeps_oweIrq

theorem keeps_complete {s u : State} (h : Keeps s u) : Keeps s (complete x1 x2 u) := by
  unfold complete
  repeat' first | with_reducible assumption | with_reducible apply keeps_wr | with_reducible apply keeps_post | split

theorem keeps_raiseIrqs {s u : State} (h : Keeps s u) : Keeps s (raiseIrqs u) := by
  unfold raiseIrqs
  repeat' first | with_reducible assumption | (simp only [keeps_mk, keeps_mkcells])

theorem keeps_finish {s u : State} (h : Keeps s u) : Keeps s (finish x1 x2 u) := by
  unfold finish
  repeat' first
    | with_reducible assumption | with_reducible apply keeps_unpinRoom | with_reducible apply keeps_complete
    | (simp only [keeps_mk, keeps_mkcells]) | split

theorem keeps_finishAll {s u : State} (h : Keeps s u) : Keeps s (finishAll x1 x2 x3 u) := by
  induction x1 generalizing u with
  | zero => exact h
  | succ n ih =>
    unfold finishAll
    split
    · exact ih (keeps_finish h)
    · exact h

theorem keeps_restate {s u : State} (h : Keeps s u) : Keeps s (restate x1 x2 x3 u) := by
  unfold restate
  repeat' first
    | with_reducible assumption | with_reducible apply keeps_ite | with_reducible apply keeps_setMb
    | with_reducible apply keeps_finish | (simp only [keeps_mk, keeps_mkcells])

theorem keeps_noteOrder {s u : State} (h : Keeps s u) : Keeps s (noteOrder x1 x2 u) := by
  unfold noteOrder
  repeat' first
    | with_reducible assumption | (intro u; (try dsimp only)) | with_reducible apply keeps_restate
    | with_reducible apply keeps_forEach | (simp only [keeps_mk, keeps_mkcells])

theorem keeps_awaitOrder {s u : State} (h : Keeps s u) : Keeps s (awaitOrder x1 x2 x3 u) := by
  unfold awaitOrder
  repeat' first
    | with_reducible assumption | with_reducible apply keeps_ite | with_reducible apply keeps_pinRoom
    | (simp only [keeps_mk, keeps_mkcells])

theorem keeps_carry {s u : State} {p : Pending} {subs : List Subject} {k : Handler} (h : Keeps s u)
    (hk : ∀ v, Keeps s v → Keeps s (k p v).2) : Keeps s (carry p subs k u) := by
  have hn := keeps_noteOrder (x1 := p) (x2 := subs) h
  have e : ∀ {a t}, k p (if (rivals u p.cmd.mailbox subs).any (losesTo u p.cmd.mailbox p.opcode.toNat) = true then u
      else noteOrder p subs u) = (a, t) → Keeps s t := fun e => keeps_snd e (hk _ (keeps_ite h hn))
  unfold carry; (try dsimp only); repeat' first
    | with_reducible refine e (by with_reducible assumption) | with_reducible assumption
    | with_reducible apply keeps_complete | with_reducible apply keeps_awaitOrder | split

theorem keeps_takeEntry {s u : State} (h : Keeps s u) : Keeps s (takeEntry x1 u) := by
  unfold takeEntry
  repeat' first | with_reducible assumption | with_reducible apply keeps_setMb

theorem keeps_turnAway {s u : State} (h : Keeps s u) : Keeps s (turnAway x1 x2 u) := by
  unfold turnAway
  repeat' first | with_reducible assumption | with_reducible apply keeps_setMb | with_reducible apply keeps_post

theorem keeps_takeUnknown {s u : State} {k n} (h : Keeps s u) : Keeps s (takeUnknown k n u) := by
  induction k generalizing u with
  | zero => exact h
  | succ k ih =>
    unfold takeUnknown
    split
    · exact h
    · split
      · exact h
      · exact ih (keeps_complete (keeps_takeEntry h))

theorem keeps_order {s u : State} {code : Nat} {c : Cmd} {subs : List Subject} {k : Handler} (h : Keeps s u)
    (hk : ∀ p v, Keeps s v → Keeps s (k p v).2) : Keeps s (order code c subs k u) := by
  unfold order; (try dsimp only); repeat' first
    | with_reducible exact hk _ | with_reducible assumption | with_reducible apply keeps_ite
    | with_reducible apply keeps_carry | with_reducible apply keeps_takeEntry | with_reducible apply keeps_turnAway

theorem keeps_updJob {s u : State} (h : Keeps s u) : Keeps s (updJob x1 x2 u) := by
  unfold updJob
  repeat' first | with_reducible assumption | (simp only [keeps_mk, keeps_mkcells])

theorem keeps_setTask {s u : State} (h : Keeps s u) : Keeps s (setTask x1 x2 x3 u) := by
  unfold setTask
  repeat' first | with_reducible assumption | with_reducible apply keeps_updJob

theorem keeps_spreadLoss {s u : State} (h : Keeps s u) : Keeps s (spreadLoss x1 u) := by
  unfold spreadLoss
  repeat' first | with_reducible assumption | with_reducible apply keeps_updJob | split

theorem keeps_openOutput_eq {s u v : State} {p j t o} (e : openOutput p j t o u = some v) (h : Keeps s u) : Keeps s v := by
  unfold openOutput at e
  simp only [Option.bind_eq_bind, Option.bind_eq_some_iff] at e
  obtain ⟨_, -, _, -, e⟩ := e
  split at e
  · split at e
    · cases e; exact keeps_updJob h
    · cases e
  · simp only [Option.bind_eq_some_iff] at e
    obtain ⟨_, -, e⟩ := e
    cases e; exact keeps_updJob (keeps_updRoom h)

theorem keeps_openOutputs_eq {s u v : State} {p j t os} (e : openOutputs p j t os u = some v) (h : Keeps s u) : Keeps s v := by
  induction os generalizing u with
  | nil => cases e; exact h
  | cons o os ih =>
    simp only [openOutputs, Option.bind_eq_some_iff] at e
    obtain ⟨w, e1, e2⟩ := e
    exact ih e2 (keeps_openOutput_eq e1 h)

theorem keeps_openGradient {s u : State} (h : Keeps s u) : Keeps s (openGradient x1 x2 u) := by
  unfold openGradient
  repeat' first | with_reducible assumption | with_reducible apply keeps_putOpened | split

theorem keeps_eptSwitch {s u : State} (h : Keeps s u) : Keeps s (eptSwitch x1 u) := by
  unfold eptSwitch
  repeat' first
    | with_reducible assumption | with_reducible apply keeps_finish | (simp only [keeps_mk, keeps_mkcells]) | split

theorem keeps_flipRoom {s u : State} (h : Keeps s u) : Keeps s (flipRoom x1 x2 u) := by
  unfold flipRoom
  repeat' first | with_reducible assumption | with_reducible apply keeps_updRoom

theorem keeps_closeRoom {s u : State} (h : Keeps s u) : Keeps s (closeRoom x1 u) := by
  unfold closeRoom
  repeat' first
    | with_reducible assumption | with_reducible apply keeps_updRoom | with_reducible apply keeps_settleRelease

theorem keeps_setJournal {s u : State} (h : Keeps s u) : Keeps s (setJournal x1 x2 x3 u) := by
  unfold setJournal
  repeat' first | with_reducible assumption | (simp only [keeps_mk, keeps_mkcells])

theorem keeps_retireJournal {s u : State} (h : Keeps s u) : Keeps s (retireJournal x1 x2 u) := h

theorem keeps_keepVer {s u : State} (h : Keeps s u) : Keeps s (keepVer x1 x2 x3 x4 u) := by
  unfold keepVer
  repeat' first | with_reducible assumption | with_reducible apply keeps_pinRoom | with_reducible apply keeps_updJob

theorem keeps_launchPins {s u : State} (h : Keeps s u) : Keeps s (launchPins x1 x2 x3 x4 x5 x6 x7 u) := by
  unfold launchPins
  repeat' first
    | with_reducible assumption | (intro u; (try dsimp only)) | with_reducible apply keeps_ite
    | with_reducible apply keeps_updRoom | with_reducible apply keeps_pinRoom | with_reducible apply keeps_keepVer
    | with_reducible apply keeps_forEach

theorem keeps_putEntry {s u : State} (h : Keeps s u) : Keeps s (putEntry x1 x2 x3 x4 u) := by
  unfold putEntry
  repeat' first
    | with_reducible assumption | with_reducible apply keeps_ite | with_reducible apply keeps_setJournal
    | (simp only [keeps_mk, keeps_mkcells])

theorem keeps_noteLaunch {s u : State} (h : Keeps s u) : Keeps s (noteLaunch x1 x2 x3 x4 x5 x6 u) := by
  unfold noteLaunch
  repeat' first | with_reducible assumption | with_reducible apply keeps_updJob

theorem keeps_handOver {s u : State} (h : Keeps s u) : Keeps s (handOver x1 x2 x3 x4 x5 x6 x7 x8 u) := by
  unfold handOver
  repeat' first
    | with_reducible assumption | with_reducible apply keeps_ite | with_reducible apply keeps_wr
    | with_reducible apply keeps_setCore | with_reducible apply keeps_flipRoom

theorem keeps_launched {s u : State} (h : Keeps s u) : Keeps s (launched x1 x2 x3 x4 x5 x6 x7 x8 x9 u) := by
  unfold launched
  repeat' first
    | with_reducible assumption | with_reducible apply keeps_setTask | with_reducible apply keeps_launchPins
    | with_reducible apply keeps_putEntry | with_reducible apply keeps_noteLaunch
    | with_reducible apply keeps_handOver | (simp only [keeps_mk, keeps_mkcells])

theorem keeps_launch_eq {s u v : State} {p j t c a} (e : launch p j t c a u = some v) (h : Keeps s u) : Keeps s v := by
  unfold launch at e
  split at e
  · split at e
    · cases e
    · simp only [Option.bind_eq_some_iff, Option.map_eq_some_iff] at e
      obtain ⟨w, e1, _, -, rfl⟩ := e
      apply keeps_launched
      split at e1
      · cases e1; exact h
      · exact keeps_openOutputs_eq e1 h
  · cases e

theorem keeps_dispatchOne {s : State} {sa : State × Account} {f : State → State} {c : Cand} (h : Keeps s sa.1)
    (hf : ∀ v, Keeps s v → Keeps s (f v)) : Keeps s (dispatchOne f c sa).1 := by
  obtain ⟨u, b⟩ := sa
  unfold dispatchOne; (try dsimp only at h ⊢); repeat' first
    | with_reducible apply hf | with_reducible assumption | with_reducible apply keeps_updJob
    | with_reducible refine keeps_launch_eq (by with_reducible assumption) ?_ | split

theorem keeps_dispatchReady {s u : State} {f : State → State} (h : Keeps s u)
    (hf : ∀ v, Keeps s v → Keeps s (f v)) : Keeps s (dispatchReady f u) := by
  have fold : ∀ (cs : List Cand) (sa : State × Account), Keeps s sa.1 →
      Keeps s (cs.foldl (fun sa c => dispatchOne f c sa) sa).1 := by
    intro cs
    induction cs with
    | nil => intro sa h; exact h
    | cons c cs ih => intro sa h; exact ih _ (keeps_dispatchOne h hf)
  unfold dispatchReady; (try dsimp only); repeat' first
    | with_reducible apply fold | with_reducible assumption | with_reducible apply keeps_ite
    | (simp only [keeps_mk, keeps_mkcells])

theorem keeps_fileTest {s u : State} (h : Keeps s u) : Keeps s (fileTest x1 x2 u) := h

theorem keeps_fileForFault {s u : State} (h : Keeps s u) : Keeps s (fileForFault x1 x2 u) := by
  unfold fileForFault
  repeat' first | with_reducible assumption | with_reducible apply keeps_ite | with_reducible apply keeps_fileTest

theorem keeps_releasePins {s u : State} (h : Keeps s u) : Keeps s (releasePins x1 u) := by
  unfold releasePins
  repeat' first
    | with_reducible assumption | (intro u; (try dsimp only)) | with_reducible apply keeps_ite
    | with_reducible apply keeps_unpinRoom | with_reducible apply keeps_forEach
    | (simp only [keeps_mk, keeps_mkcells])

theorem keeps_workLost {s u : State} (h : Keeps s u) : Keeps s (workLost u) := by
  unfold workLost
  repeat' first | with_reducible assumption | with_reducible apply keeps_ite | (simp only [keeps_mk, keeps_mkcells])

theorem keeps_loseTask {s u : State} (h : Keeps s u) : Keeps s (loseTask x1 x2 u) := by
  unfold loseTask
  repeat' first
    | with_reducible assumption | with_reducible apply keeps_setTask | with_reducible apply keeps_spreadLoss
    | with_reducible apply keeps_workLost | split

theorem keeps_requestState {s u : State} (h : Keeps s u) : Keeps s (requestState x1 x2 x3 x4 u) := by
  unfold requestState
  repeat' first | with_reducible assumption | with_reducible apply keeps_emit | (simp only [keeps_mk, keeps_mkcells])

theorem keeps_abandonGradients {s u : State} (h : Keeps s u) : Keeps s (abandonGradients x1 x2 u) := by
  unfold abandonGradients
  repeat' first
    | with_reducible assumption | (intro u; (try dsimp only)) | with_reducible apply keeps_requestState
    | with_reducible apply keeps_forEach | split

theorem keeps_failStep {s u : State} (h : Keeps s u) : Keeps s (failStep x1 x2 u) := by
  unfold failStep
  repeat' first
    | with_reducible assumption | (intro u; (try dsimp only)) | with_reducible apply keeps_unpinRoom
    | with_reducible apply keeps_abandonFresh | with_reducible apply keeps_finish
    | with_reducible apply keeps_releasePins | with_reducible apply keeps_abandonGradients
    | with_reducible apply keeps_forEach | (simp only [keeps_mk, keeps_mkcells]) | split

theorem keeps_settleRun {s u : State} (h : Keeps s u) : Keeps s (settleRun x1 u) := by
  unfold settleRun
  repeat' first
    | with_reducible assumption | (intro u; (try dsimp only)) | with_reducible apply keeps_unpinRoom
    | with_reducible apply keeps_abandonFresh | with_reducible apply keeps_finish
    | with_reducible apply keeps_releasePins | with_reducible apply keeps_forEach
    | (simp only [keeps_mk, keeps_mkcells]) | split

theorem keeps_settleStep {s u : State} (h : Keeps s u) : Keeps s (settleStep u) := by
  unfold settleStep
  repeat' first | with_reducible assumption | with_reducible apply keeps_failStep | split

theorem keeps_setFailing {s u : State} (h : Keeps s u) : Keeps s (setFailing x1 x2 u) := by
  unfold setFailing
  repeat' first | with_reducible assumption | with_reducible apply keeps_updJob

theorem keeps_runElsewhere {s u : State} (h : Keeps s u) : Keeps s (runElsewhere x1 x2 x3 u) := by
  unfold runElsewhere
  repeat' first | with_reducible assumption | with_reducible apply keeps_updJob | with_reducible apply keeps_setTask

theorem keeps_dropHold {s u : State} (h : Keeps s u) : Keeps s (dropHold x1 x2 x3 u) := by
  unfold dropHold
  repeat' first | with_reducible assumption | with_reducible apply keeps_updJob

theorem keeps_endOtherwise {s u : State} (h : Keeps s u) : Keeps s (endOtherwise x1 x2 x3 x4 u) := by
  unfold endOtherwise
  repeat' first
    | with_reducible assumption | (intro u; (try dsimp only)) | with_reducible apply keeps_ite
    | with_reducible apply keeps_raiseCtrl | with_reducible apply keeps_setCore | with_reducible apply keeps_updJob
    | with_reducible apply keeps_setTask | with_reducible apply keeps_spreadLoss
    | with_reducible apply keeps_setJournal | with_reducible apply keeps_fileForFault
    | with_reducible apply keeps_loseTask | with_reducible apply keeps_setFailing
    | with_reducible apply keeps_runElsewhere | with_reducible apply keeps_forEach

theorem keeps_processRecord {s u : State} (h : Keeps s u) : Keeps s (processRecord x1 x2 u) := by
  unfold processRecord
  repeat' first
    | with_reducible assumption | (intro u; (try dsimp only)) | with_reducible apply keeps_raiseCtrl
    | with_reducible apply keeps_unpinRoom | with_reducible apply keeps_writerDone
    | with_reducible apply keeps_writerEnded | with_reducible apply keeps_updJob | with_reducible apply keeps_setTask
    | with_reducible apply keeps_setJournal | with_reducible apply keeps_retireJournal
    | with_reducible apply keeps_releasePins | with_reducible apply keeps_settleRun
    | with_reducible apply keeps_settleStep | with_reducible apply keeps_dropHold
    | with_reducible apply keeps_endOtherwise | with_reducible apply keeps_forEach
    | (simp only [keeps_mk, keeps_mkcells]) | split

theorem keeps_loseBound {s u : State} (h : Keeps s u) : Keeps s (loseBound x1 u) := by
  unfold loseBound
  repeat' first
    | with_reducible assumption | (intro u; (try dsimp only)) | with_reducible apply keeps_loseTask
    | with_reducible apply keeps_forEach | split

theorem keeps_stopCore {s u : State} (h : Keeps s u) : Keeps s (stopCore x1 u) := by
  unfold stopCore
  repeat' first
    | with_reducible assumption | with_reducible apply keeps_ite | with_reducible apply keeps_setCore
    | with_reducible apply keeps_workLost | with_reducible apply keeps_loseBound

theorem keeps_stoppedRecord {s u : State} (h : Keeps s u) : Keeps s (stoppedRecord x1 x2 u) := by
  unfold stoppedRecord
  repeat' first | with_reducible assumption | with_reducible apply keeps_wr | with_reducible apply keeps_flipRoom

theorem keeps_logicOff {s u : State} (h : Keeps s u) : Keeps s (logicOff x1 u) := by
  unfold logicOff
  repeat' first
    | with_reducible assumption | (intro u; (try dsimp only)) | with_reducible apply keeps_setPace
    | with_reducible apply keeps_setCore | with_reducible apply keeps_forEach | (simp only [keeps_mk, keeps_mkcells])
    | split

theorem keeps_removeTower {s u : State} (h : Keeps s u) : Keeps s (removeTower x1 u) := by
  unfold removeTower
  repeat' first
    | with_reducible assumption | (intro u; (try dsimp only)) | with_reducible apply keeps_ite
    | with_reducible apply keeps_workLost | with_reducible apply keeps_loseBound
    | with_reducible apply keeps_stoppedRecord | with_reducible apply keeps_logicOff
    | with_reducible apply keeps_forEach

theorem keeps_endRun {s u : State} (h : Keeps s u) : Keeps s (endRun x1 x2 x3 x4 u) := by
  unfold endRun
  repeat' first | with_reducible assumption | with_reducible apply keeps_setCore

theorem keeps_failTask {s u : State} (h : Keeps s u) : Keeps s (failTask x1 x2 u) := by
  unfold failTask
  repeat' first | with_reducible assumption | with_reducible apply keeps_setCore

theorem keeps_dropSnapshot {s u : State} (h : Keeps s u) : Keeps s (dropSnapshot u) := by
  unfold dropSnapshot
  repeat' first
    | with_reducible assumption | (intro u; (try dsimp only)) | with_reducible apply keeps_unpinRoom
    | with_reducible apply keeps_releaseNow | with_reducible apply keeps_forEach
    | (simp only [keeps_mk, keeps_mkcells]) | split

theorem keeps_endSnapshot {s u : State} (h : Keeps s u) : Keeps s (endSnapshot x1 u) := by
  unfold endSnapshot
  repeat' first
    | with_reducible assumption | with_reducible apply keeps_raiseCtrl | with_reducible apply keeps_dropSnapshot
    | split

theorem keeps_stopDma {s u : State} (h : Keeps s u) : Keeps s (stopDma x1 u) := by
  unfold stopDma
  repeat' first
    | with_reducible assumption | with_reducible apply keeps_finishAll | (simp only [keeps_mk, keeps_mkcells])

theorem keeps_unbindMb {s u : State} (h : Keeps s u) : Keeps s (unbindMb x1 u) := by
  unfold unbindMb
  repeat' first | with_reducible assumption | with_reducible apply keeps_setMb

theorem keeps_settleMb {s u : State} (h : Keeps s u) : Keeps s (settleMb x1 u) := by
  unfold settleMb
  repeat' first | with_reducible assumption | with_reducible apply keeps_ite | with_reducible apply keeps_unbindMb

theorem keeps_dropCommands {s u : State} (h : Keeps s u) : Keeps s (dropCommands x1 u) := by
  unfold dropCommands
  repeat' first
    | with_reducible assumption | (intro u; (try dsimp only)) | with_reducible apply keeps_ite
    | with_reducible apply keeps_unpinRoom | with_reducible apply keeps_forEach
    | (simp only [keeps_mk, keeps_mkcells])

theorem keeps_dropPlan {s u : State} (h : Keeps s u) : Keeps s (dropPlan x1 u) := by
  unfold dropPlan
  repeat' first | with_reducible assumption | with_reducible apply keeps_ite | (simp only [keeps_mk, keeps_mkcells])

theorem keeps_leaveForerunner {s u : State} (h : Keeps s u) : Keeps s (leaveForerunner u) := by
  unfold leaveForerunner
  repeat' first
    | with_reducible assumption | (intro u; (try dsimp only)) | with_reducible apply keeps_ite
    | with_reducible apply keeps_capBump | with_reducible apply keeps_forEach | (simp only [keeps_mk, keeps_mkcells])

theorem keeps_stopRuns {s u : State} (h : Keeps s u) : Keeps s (stopRuns x1 u) := by
  unfold stopRuns
  repeat' first
    | with_reducible assumption | (intro u; (try dsimp only)) | with_reducible apply keeps_settleRun
    | with_reducible apply keeps_forEach | (simp only [keeps_mk, keeps_mkcells])

theorem keeps_cancelTowerTests {s u : State} (h : Keeps s u) : Keeps s (cancelTowerTests u) := h

theorem keeps_endSession {s u : State} (h : Keeps s u) : Keeps s (endSession x1 x2 u) := by
  unfold endSession
  repeat' first
    | with_reducible assumption | (intro u; (try dsimp only)) | with_reducible apply keeps_capBump
    | with_reducible apply keeps_removeUses | with_reducible apply keeps_releaseNow | with_reducible apply keeps_setMb
    | with_reducible apply keeps_failStep | with_reducible apply keeps_settleMb
    | with_reducible apply keeps_dropCommands | with_reducible apply keeps_dropPlan
    | with_reducible apply keeps_leaveForerunner | with_reducible apply keeps_stopRuns
    | with_reducible apply keeps_cancelTowerTests | with_reducible apply keeps_forEach
    | (simp only [keeps_mk, keeps_mkcells]) | split

theorem keeps_resetFunction {s u : State} (h : Keeps s u) : Keeps s (resetFunction x1 u) := by
  unfold resetFunction
  repeat' first
    | with_reducible assumption | (intro u; (try dsimp only)) | with_reducible apply keeps_endSnapshot
    | with_reducible apply keeps_stopDma | with_reducible apply keeps_endSession | with_reducible apply keeps_forEach
    | (simp only [keeps_mk, keeps_mkcells]) | split

theorem keeps_settleSnapPins {s u : State} (h : Keeps s u) : Keeps s (settleSnapPins u) := by
  unfold settleSnapPins
  repeat' first
    | with_reducible assumption | (intro u; (try dsimp only)) | with_reducible apply keeps_unpinRoom
    | with_reducible apply keeps_forEach | (simp only [keeps_mk, keeps_mkcells]) | split

theorem keeps_saveChunk {s u : State} (h : Keeps s u) : Keeps s (saveChunk x1 u) := by
  unfold saveChunk
  repeat' first
    | with_reducible assumption | with_reducible apply keeps_poisonEvent | with_reducible apply keeps_endSnapshot
    | with_reducible apply keeps_settleSnapPins | (simp only [keeps_mk, keeps_mkcells]) | split

theorem keeps_saveVersion {s u : State} (h : Keeps s u) : Keeps s (saveVersion x1 x2 u) := by
  unfold saveVersion
  repeat' first
    | with_reducible assumption | (intro u; (try dsimp only)) | with_reducible apply keeps_saveChunk
    | with_reducible apply keeps_forEach | split

theorem keeps_homeWrite {s u : State} (h : Keeps s u) : Keeps s (homeWrite x1 x2 u) := by
  unfold homeWrite
  repeat' first
    | with_reducible assumption | (intro u; (try dsimp only)) | with_reducible apply keeps_wr
    | with_reducible apply keeps_saveChunk | with_reducible apply keeps_forEach

theorem keeps_foreignWrite {s u : State} (h : Keeps s u) : Keeps s (foreignWrite x1 x2 u) := by
  unfold foreignWrite
  repeat' first | with_reducible assumption | with_reducible apply keeps_raiseCtrl

theorem keeps_engineWrite {s u : State} (h : Keeps s u) : Keeps s (engineWrite x1 x2 u) := by
  unfold engineWrite
  repeat' first
    | with_reducible assumption | with_reducible apply keeps_homeWrite | with_reducible apply keeps_foreignWrite
    | split

theorem keeps_portWrite {s u : State} (h : Keeps s u) : Keeps s (portWrite x1 x2 x3 u) := by
  unfold portWrite
  repeat' first
    | with_reducible assumption | with_reducible apply keeps_homeWrite | with_reducible apply keeps_foreignWrite
    | split

theorem keeps_wrBits {s u : State} (h : Keeps s u) : Keeps s (wrBits x1 x2 x3 u) := by
  unfold wrBits
  repeat' first | with_reducible assumption | with_reducible apply keeps_engineWrite

theorem keeps_wrElems {s u : State} (h : Keeps s u) : Keeps s (wrElems x1 x2 u) := by
  unfold wrElems
  repeat' first
    | with_reducible assumption | (intro u; (try dsimp only)) | with_reducible apply keeps_wrBits
    | with_reducible apply keeps_forEach

theorem keeps_storeChunk {s u : State} (h : Keeps s u) : Keeps s (storeChunk x1 x2 x3 x4 x5 x6 x7 x8 u).1 := by
  unfold storeChunk
  repeat' first
    | with_reducible assumption | with_reducible apply keeps_wrElems | (simp only [keeps_mk, keeps_mkcells]) | split

theorem keeps_storeChunk_eq {s u v : State} {x} (e : storeChunk x1 x2 x3 x4 x5 x6 x7 x8 u = (v, x)) (h : Keeps s u) :
    Keeps s v := keeps_fst e (keeps_storeChunk (x1 := x1) (x2 := x2) (x3 := x3) (x4 := x4) (x5 := x5) (x6 := x6) (x7 := x7) (x8 := x8) h)

theorem keeps_storeRaw {s u : State} (h : Keeps s u) : Keeps s (storeRaw x1 x2 x3 x4 x5 u) := by
  unfold storeRaw
  repeat' first
    | with_reducible assumption | (intro u; (try dsimp only)) | with_reducible apply keeps_ite
    | with_reducible apply keeps_wrBits | with_reducible apply keeps_forEach

theorem keeps_putScales {s u : State} (h : Keeps s u) : Keeps s (putScales x1 x2 u) := by
  unfold putScales
  repeat' first
    | with_reducible assumption | (intro u; (try dsimp only)) | with_reducible apply keeps_engineWrite
    | with_reducible apply keeps_forEach

theorem keeps_storeBlocks {s u : State} (h : Keeps s u) : Keeps s (storeBlocks x1 x2 x3 x4 x5 x6 x7 u) := by
  unfold storeBlocks
  repeat' first
    | with_reducible assumption | with_reducible apply keeps_ite | with_reducible apply keeps_wrElems
    | with_reducible apply keeps_putScales

theorem keeps_storeRawBlocks {s u : State} (h : Keeps s u) : Keeps s (storeRawBlocks x1 x2 x3 x4 x5 x6 x7 u) := by
  unfold storeRawBlocks
  repeat' first
    | with_reducible assumption | with_reducible apply keeps_storeRaw | with_reducible apply keeps_putScales

theorem keeps_setTask_ {s u : State} (h : Keeps s u) : Keeps s (setTask_ x1 x2 u) := by
  unfold setTask_
  repeat' first | with_reducible assumption | with_reducible apply keeps_setCore

theorem keeps_addFlags {s u : State} (h : Keeps s u) : Keeps s (addFlags x1 x2 u) := by
  unfold addFlags
  repeat' first | with_reducible assumption | with_reducible apply keeps_setTask_

theorem keeps_putReg {s u : State} (h : Keeps s u) : Keeps s (putReg x1 x2 x3 x4 u) := by
  unfold putReg
  repeat' first | with_reducible assumption | with_reducible apply keeps_setCore

theorem keeps_noteHistory {s u : State} (h : Keeps s u) : Keeps s (noteHistory x1 x2 x3 u) := by
  unfold noteHistory
  repeat' first | with_reducible assumption | (simp only [keeps_mk, keeps_mkcells]) | split

theorem keeps_issue {s u : State} {c : Fin 384} {o : Nat} {w : VWord} {b : Bool} {f : Nat → TaskRun → State → State} (h : Keeps s u)
    (hf : ∀ k r v, Keeps s v → Keeps s (f k r v)) : Keeps s (issue c o w b f u) := by
  unfold issue; repeat' first | with_reducible apply hf | with_reducible assumption | with_reducible apply keeps_setTask_ | split

theorem keeps_failAtOnce {s u : State} (h : Keeps s u) : Keeps s (failAtOnce x1 x2 u) := by
  unfold failAtOnce
  repeat' first | with_reducible assumption | with_reducible apply keeps_setTask_

theorem keeps_through {s u : State} {c xs} {f : State → State} (h : Keeps s u) (hf : ∀ v, Keeps s v → Keeps s (f v)) :
    Keeps s (through c xs f u) := by
  unfold through; repeat' first
    | with_reducible apply hf | with_reducible assumption | with_reducible apply keeps_ite
    | with_reducible apply keeps_failAtOnce

theorem keeps_finishOp {s u : State} (h : Keeps s u) : Keeps s (finishOp x1 x2 x3 x4 u) := by
  unfold finishOp
  repeat' first | with_reducible assumption | with_reducible apply keeps_addFlags | with_reducible apply keeps_putReg

theorem keeps_map1 {s u : State} (h : Keeps s u) : Keeps s (map1 x1 x2 x3 x4 u) := by
  unfold map1
  repeat' first | with_reducible assumption | with_reducible apply keeps_finishOp

theorem keeps_map2 {s u : State} (h : Keeps s u) : Keeps s (map2 x1 x2 x3 x4 u) := by
  unfold map2
  repeat' first | with_reducible assumption | with_reducible apply keeps_finishOp

theorem keeps_map3 {s u : State} (h : Keeps s u) : Keeps s (map3 x1 x2 x3 x4 u) := by
  unfold map3
  repeat' first | with_reducible assumption | with_reducible apply keeps_finishOp

theorem keeps_vecSel {s u : State} (h : Keeps s u) : Keeps s (vecSel x1 x2 x3 u) := by
  unfold vecSel
  repeat' first | with_reducible assumption | with_reducible apply keeps_finishOp

theorem keeps_vecMask {s u : State} (h : Keeps s u) : Keeps s (vecMask x1 x2 x3 u) := by
  unfold vecMask
  repeat' first | with_reducible assumption | with_reducible apply keeps_finishOp

theorem keeps_vecPos {s u : State} (h : Keeps s u) : Keeps s (vecPos x1 x2 x3 u) := by
  unfold vecPos
  repeat' first | with_reducible assumption | with_reducible apply keeps_putReg

theorem keeps_vecLogic {s u : State} (h : Keeps s u) : Keeps s (vecLogic x1 x2 x3 u) := by
  unfold vecLogic
  repeat' first
    | with_reducible assumption | with_reducible apply keeps_ite | with_reducible apply keeps_map1
    | with_reducible apply keeps_map2

theorem keeps_vecCvt {s u : State} (h : Keeps s u) : Keeps s (vecCvt x1 x2 x3 u) := by
  unfold vecCvt
  repeat' first | with_reducible assumption | with_reducible apply keeps_finishOp

theorem keeps_vecExpb {s u : State} (h : Keeps s u) : Keeps s (vecExpb x1 x2 x3 u) := by
  unfold vecExpb
  repeat' first
    | with_reducible assumption | with_reducible apply keeps_raise | with_reducible apply keeps_setTask_
    | with_reducible apply keeps_finishOp | (simp only [keeps_mk, keeps_mkcells]) | split

theorem keeps_vecQnt {s u : State} (h : Keeps s u) : Keeps s (vecQnt x1 x2 x3 u) := by
  unfold vecQnt
  repeat' first
    | with_reducible assumption | with_reducible apply keeps_finishOp | (simp only [keeps_mk, keeps_mkcells]) | split

theorem keeps_vecShuf {s u : State} (h : Keeps s u) : Keeps s (vecShuf x1 x2 x3 u) := by
  unfold vecShuf
  repeat' first | with_reducible assumption | with_reducible apply keeps_finishOp

theorem keeps_vecPerm {s u : State} (h : Keeps s u) : Keeps s (vecPerm x1 x2 x3 u) := by
  unfold vecPerm
  repeat' first | with_reducible assumption | with_reducible apply keeps_finishOp

theorem keeps_vecPack {s u : State} (h : Keeps s u) : Keeps s (vecPack x1 x2 x3 u) := by
  unfold vecPack
  repeat' first | with_reducible assumption | with_reducible apply keeps_addFlags | with_reducible apply keeps_putReg

theorem keeps_vecUnpk {s u : State} (h : Keeps s u) : Keeps s (vecUnpk x1 x2 x3 u) := by
  unfold vecUnpk
  repeat' first
    | with_reducible assumption | (intro u; (try dsimp only)) | with_reducible apply keeps_addFlags
    | with_reducible apply keeps_putReg | with_reducible apply keeps_forEach

theorem keeps_vecReduce {s u : State} (h : Keeps s u) : Keeps s (vecReduce x1 x2 x3 x4 x5 u) := by
  unfold vecReduce
  repeat' first | with_reducible assumption | with_reducible apply keeps_addFlags | with_reducible apply keeps_putReg

theorem keeps_fillBank {s u : State} (h : Keeps s u) : Keeps s (fillBank x1 x2 x3 u) := by
  unfold fillBank
  repeat' first | with_reducible assumption | with_reducible apply keeps_ite | with_reducible apply keeps_setCore

theorem keeps_vecLdq {s u : State} (h : Keeps s u) : Keeps s (vecLdq x1 x2 x3 u) := by
  unfold vecLdq
  repeat' first
    | with_reducible assumption | (intro u; (try dsimp only)) | with_reducible apply keeps_ite
    | with_reducible apply keeps_setTask_ | with_reducible apply keeps_addFlags | with_reducible apply keeps_putReg
    | with_reducible apply keeps_through | with_reducible apply keeps_fillBank

theorem keeps_vecLdx {s u : State} (h : Keeps s u) : Keeps s (vecLdx x1 x2 x3 u) := by
  unfold vecLdx
  repeat' first
    | with_reducible assumption | (intro u; (try dsimp only)) | with_reducible apply keeps_setTask_
    | with_reducible apply keeps_addFlags | with_reducible apply keeps_putReg | with_reducible apply keeps_through
    | (simp only [keeps_mk, keeps_mkcells]) | split

theorem keeps_recordAmax {s u : State} (h : Keeps s u) : Keeps s (recordAmax x1 x2 x3 u) := by
  unfold recordAmax
  repeat' first | with_reducible assumption | with_reducible apply keeps_setTask_

theorem keeps_vecStq {s u : State} (h : Keeps s u) : Keeps s (vecStq x1 x2 x3 u) := by
  unfold vecStq
  repeat' first
    | with_reducible assumption | (intro u; (try dsimp only)) | with_reducible apply keeps_ite
    | with_reducible apply keeps_storeChunk | with_reducible apply keeps_storeRaw
    | with_reducible apply keeps_setTask_ | with_reducible apply keeps_addFlags
    | with_reducible apply keeps_noteHistory | with_reducible apply keeps_through
    | with_reducible apply keeps_recordAmax

theorem keeps_putHeader {s u : State} (h : Keeps s u) : Keeps s (putHeader x1 x2 x3 u) := by
  unfold putHeader
  repeat' first | with_reducible assumption | with_reducible apply keeps_ite | with_reducible apply keeps_engineWrite

theorem keeps_vecStx {s u : State} (h : Keeps s u) : Keeps s (vecStx x1 x2 x3 u) := by
  unfold vecStx
  repeat' first
    | with_reducible assumption | (intro u; (try dsimp only)) | with_reducible apply keeps_storeChunk
    | with_reducible apply keeps_storeRaw | with_reducible apply keeps_storeBlocks
    | with_reducible apply keeps_storeRawBlocks | with_reducible apply keeps_setTask_
    | with_reducible apply keeps_addFlags | with_reducible apply keeps_noteHistory
    | with_reducible apply keeps_through | with_reducible apply keeps_putHeader
    | (simp only [keeps_mk, keeps_mkcells]) | split

theorem keeps_putPair {s u : State} (h : Keeps s u) : Keeps s (putPair x1 x2 x3 x4 x5 x6 u) := by
  unfold putPair
  repeat' first | with_reducible assumption | with_reducible apply keeps_addFlags | with_reducible apply keeps_putReg

theorem keeps_vecNstat {s u : State} (h : Keeps s u) : Keeps s (vecNstat x1 x2 x3 u) := by
  unfold vecNstat
  repeat' first | with_reducible assumption | with_reducible apply keeps_putPair

theorem keeps_vecNapp {s u : State} (h : Keeps s u) : Keeps s (vecNapp x1 x2 x3 u) := by
  unfold vecNapp
  repeat' first | with_reducible assumption | with_reducible apply keeps_finishOp

theorem keeps_vecSstat {s u : State} (h : Keeps s u) : Keeps s (vecSstat x1 x2 x3 u) := by
  unfold vecSstat
  repeat' first | with_reducible assumption | with_reducible apply keeps_putPair

theorem keeps_vecSapp {s u : State} (h : Keeps s u) : Keeps s (vecSapp x1 x2 x3 u) := by
  unfold vecSapp
  repeat' first | with_reducible assumption | with_reducible apply keeps_finishOp

theorem keeps_setChanState {s u : State} (h : Keeps s u) : Keeps s (setChanState x1 x2 u) := by
  unfold setChanState
  repeat' first | with_reducible assumption | with_reducible apply keeps_capBump | with_reducible apply keeps_setChan

theorem keeps_chanEvent {s u : State} (h : Keeps s u) : Keeps s (chanEvent x1 x2 x3 u) := by
  unfold chanEvent
  repeat' first | with_reducible assumption | with_reducible apply keeps_raise

theorem keeps_lendingEnded {s u : State} (h : Keeps s u) : Keeps s (lendingEnded x1 u) := by
  unfold lendingEnded
  repeat' first | with_reducible assumption | with_reducible apply keeps_raise

theorem keeps_retireCore {s u : State} (h : Keeps s u) : Keeps s (retireCore x1 x2 u) := by
  unfold retireCore
  repeat' first
    | with_reducible assumption | with_reducible apply keeps_ite | with_reducible apply keeps_stopCore
    | with_reducible apply keeps_setChanState | with_reducible apply keeps_chanEvent
    | with_reducible apply keeps_lendingEnded

theorem keeps_halfWidth {s u : State} (h : Keeps s u) : Keeps s (halfWidth x1 x2 x3 u) := by
  unfold halfWidth
  repeat' first
    | with_reducible assumption | with_reducible apply keeps_ite | with_reducible apply keeps_stopCore
    | with_reducible apply keeps_setChanState | with_reducible apply keeps_chanEvent
    | with_reducible apply keeps_lendingEnded

theorem keeps_markFenced {s u : State} (h : Keeps s u) : Keeps s (markFenced x1 u) := by
  unfold markFenced
  repeat' first | with_reducible assumption | with_reducible apply keeps_setChan

theorem keeps_fenceSlice {s u : State} {b c} (h : Keeps s u) : Keeps s (fenceSlice b c u) := by
  have k := keeps_setChanState (x1 := partner c) (x2 := csLending) (keeps_setChanState (x1 := c) (x2 := csBorrowing) (keeps_stopCore (x1 := c) h))
  exact keeps_chanEvent (keeps_mem k rfl (fun w => wf_zero _ _ w))

theorem keeps_settleChannel {s u : State} (h : Keeps s u) : Keeps s (settleChannel x1 x2 u) := by
  unfold settleChannel
  repeat' first
    | with_reducible assumption | with_reducible apply keeps_ite | with_reducible apply keeps_retireCore
    | with_reducible apply keeps_halfWidth | with_reducible apply keeps_markFenced
    | with_reducible apply keeps_fenceSlice

theorem keeps_groupFailure {s u : State} (h : Keeps s u) : Keeps s (groupFailure x1 x2 u) := by
  unfold groupFailure
  repeat' first
    | with_reducible assumption | with_reducible apply keeps_ite | with_reducible apply keeps_raise
    | with_reducible apply keeps_setChan

theorem keeps_sliceFailure {s u : State} (h : Keeps s u) : Keeps s (sliceFailure x1 u) := by
  unfold sliceFailure
  repeat' first
    | with_reducible assumption | with_reducible apply keeps_ite | with_reducible apply keeps_setChan
    | with_reducible apply keeps_settleChannel

theorem keeps_remapRow {s u : State} {c r} (h : Keeps s u) : Keeps s (remapRow c r u) := by
  unfold remapRow; dsimp only
  split
  · exact keeps_sliceFailure (keeps_raise h)
  · exact keeps_raise (keeps_mem h rfl (fun w => wf_zero _ _ w))

theorem keeps_channelParityError {s u : State} (h : Keeps s u) : Keeps s (channelParityError x1 x2 x3 u) := by
  unfold channelParityError
  repeat' first | with_reducible assumption | with_reducible apply keeps_ite | with_reducible apply keeps_setChan

theorem keeps_endTesting {s u : State} (h : Keeps s u) : Keeps s (endTesting x1 u) := by
  unfold endTesting
  repeat' first | with_reducible assumption | with_reducible apply keeps_setChan

theorem keeps_bondTestDone {s u : State} (h : Keeps s u) : Keeps s (bondTestDone x1 x2 x3 u) := by
  unfold bondTestDone
  repeat' first
    | with_reducible assumption | (intro u; (try dsimp only)) | with_reducible apply keeps_ite
    | with_reducible apply keeps_settleChannel | with_reducible apply keeps_groupFailure
    | with_reducible apply keeps_endTesting | with_reducible apply keeps_forEach

theorem keeps_commandLaneBondFail {s u : State} (h : Keeps s u) : Keeps s (commandLaneBondFail x1 x2 x3 x4 u) := by
  unfold commandLaneBondFail
  repeat' first
    | with_reducible assumption | with_reducible apply keeps_ite | with_reducible apply keeps_setChan
    | with_reducible apply keeps_retireCore

theorem keeps_setSupply {s u : State} (h : Keeps s u) : Keeps s (setSupply x1 x2 u) := h

theorem keeps_switchOn {s u : State} (h : Keeps s u) : Keeps s (switchOn x1 u) := by
  unfold switchOn
  repeat' first | with_reducible assumption | with_reducible apply keeps_ite | with_reducible apply keeps_setSupply

theorem keeps_pacersStart {s u : State} (h : Keeps s u) : Keeps s (pacersStart x1 u) := by
  unfold pacersStart
  repeat' first
    | with_reducible assumption | (intro u; (try dsimp only)) | with_reducible apply keeps_setPace
    | with_reducible apply keeps_senderMoved | with_reducible apply keeps_forEach

theorem keeps_switchOff {s u : State} (h : Keeps s u) : Keeps s (switchOff x1 u) := by
  unfold switchOff
  repeat' first
    | with_reducible assumption | (intro u; (try dsimp only)) | with_reducible apply keeps_setPace
    | with_reducible apply keeps_setSupply | with_reducible apply keeps_forEach

theorem keeps_setTower {s u : State} (h : Keeps s u) : Keeps s (setTower x1 x2 u) := h

theorem keeps_setLayer {s u : State} (h : Keeps s u) : Keeps s (setLayer x1 x2 u) := h

theorem keeps_bringupMargin {s u : State} (h : Keeps s u) : Keeps s (bringupMargin x1 x2 u) := by
  unfold bringupMargin
  repeat' first
    | with_reducible assumption | with_reducible apply keeps_ite | with_reducible apply keeps_raiseMgmt
    | (simp only [keeps_mk, keeps_mkcells])

theorem keeps_pondLost {s u : State} {t} (h : Keeps s u) : Keeps s (pondLost t u) :=
  keeps_mem h rfl (fun w => wf_filter _ w)

theorem keeps_pondOff {s u : State} (h : Keeps s u) : Keeps s (pondOff x1 u) := by
  unfold pondOff
  repeat' first
    | with_reducible assumption | with_reducible apply keeps_switchOff | with_reducible apply keeps_pondLost

theorem keeps_towerLogicOff {s u : State} (h : Keeps s u) : Keeps s (towerLogicOff x1 u) := by
  unfold towerLogicOff
  repeat' first
    | with_reducible assumption | with_reducible apply keeps_logicOff | with_reducible apply keeps_switchOff

theorem keeps_settleGates {s u : State} (h : Keeps s u) : Keeps s (settleGates u) := by
  unfold settleGates
  repeat' first | with_reducible assumption | with_reducible apply keeps_finishAll

theorem keeps_gateReached {s u : State} (h : Keeps s u) : Keeps s (gateReached x1 x2 u) := by
  unfold gateReached
  repeat' first
    | with_reducible assumption | with_reducible apply keeps_raiseMgmt | with_reducible apply keeps_setTower
    | with_reducible apply keeps_settleGates | (simp only [keeps_mk, keeps_mkcells])

theorem keeps_gateEnded {s u : State} (h : Keeps s u) : Keeps s (gateEnded x1 x2 u) := by
  unfold gateEnded
  repeat' first
    | with_reducible assumption | with_reducible apply keeps_finishAll | (simp only [keeps_mk, keeps_mkcells])

theorem keeps_enterForerunner {s u : State} {t} (h : Keeps s u) : Keeps s (enterForerunner t u) := by
  unfold enterForerunner
  split
  · exact keeps_capBump (keeps_mem h rfl (fun w => wf_filter _ w))
  · exact h

theorem keeps_logicOn {s u : State} (h : Keeps s u) : Keeps s (logicOn x1 u) := by
  unfold logicOn
  repeat' first
    | with_reducible assumption | with_reducible apply keeps_ite | with_reducible apply keeps_switchOn
    | with_reducible apply keeps_enterForerunner

theorem keeps_unprime {s u : State} (h : Keeps s u) : Keeps s (unprime x1 x2 u) := by
  unfold unprime
  repeat' first
    | with_reducible assumption | (intro u; (try dsimp only)) | with_reducible apply keeps_setLayer
    | with_reducible apply keeps_forEach

theorem keeps_logicUp {s u : State} (h : Keeps s u) : Keeps s (logicUp x1 u) := by
  unfold logicUp
  repeat' first
    | with_reducible assumption | (intro u; (try dsimp only)) | with_reducible apply keeps_setPace
    | with_reducible apply keeps_setSupply | with_reducible apply keeps_pacersStart
    | with_reducible apply keeps_setTower | with_reducible apply keeps_unprime | with_reducible apply keeps_forEach

theorem keeps_startDrain {s u : State} (h : Keeps s u) : Keeps s (startDrain x1 u) := by
  unfold startDrain
  repeat' first
    | with_reducible assumption | (intro u; (try dsimp only)) | with_reducible apply keeps_setPace
    | with_reducible apply keeps_forEach

theorem keeps_setDrive {s u : State} (h : Keeps s u) : Keeps s (setDrive x1 x2 u) := h

theorem keeps_grantQueues {s u : State} (h : Keeps s u) : Keeps s (grantQueues u) := by
  unfold grantQueues
  split
  · exact h
  · split
    · rename_i e
      exact keeps_mk.mpr (keeps_grantRoom_eq e h)
    · exact h

theorem keeps_enumerateDrives {s u : State} (h : Keeps s u) : Keeps s (enumerateDrives x1 u) := by
  unfold enumerateDrives
  repeat' first
    | with_reducible assumption | (intro u; (try dsimp only)) | with_reducible apply keeps_ite
    | with_reducible apply keeps_raise | with_reducible apply keeps_capBump | with_reducible apply keeps_setDrive
    | with_reducible apply keeps_grantQueues | with_reducible apply keeps_forEach
    | (simp only [keeps_mk, keeps_mkcells])

theorem keeps_driveWork {s u : State} (h : Keeps s u) : Keeps s (driveWork x1 x2 u) := by
  unfold driveWork
  repeat' first
    | with_reducible assumption | (intro u; (try dsimp only)) | with_reducible apply keeps_setDrive
    | with_reducible apply keeps_forEach

theorem keeps_driveRest {s u : State} (h : Keeps s u) : Keeps s (driveRest u) := by
  unfold driveRest
  repeat' first | with_reducible assumption | with_reducible apply keeps_ite | (simp only [keeps_mk, keeps_mkcells])

theorem keeps_endRestore {s u : State} (h : Keeps s u) : Keeps s (endRestore x1 x2 u) := by
  unfold endRestore
  repeat' first
    | with_reducible assumption | with_reducible apply keeps_raiseCtrl | with_reducible apply keeps_releaseNow
    | (simp only [keeps_mk, keeps_mkcells]) | split

theorem keeps_failDrive {s u : State} (h : Keeps s u) : Keeps s (failDrive x1 u) := by
  unfold failDrive
  repeat' first
    | with_reducible assumption | with_reducible apply keeps_ite | with_reducible apply keeps_raise
    | with_reducible apply keeps_capBump | with_reducible apply keeps_endSnapshot
    | with_reducible apply keeps_setDrive | with_reducible apply keeps_driveRest
    | with_reducible apply keeps_endRestore

theorem keeps_driveTrouble {s u : State} (h : Keeps s u) : Keeps s (driveTrouble x1 u) := by
  unfold driveTrouble
  repeat' first
    | with_reducible assumption | with_reducible apply keeps_ite | with_reducible apply keeps_emit
    | with_reducible apply keeps_setDrive | with_reducible apply keeps_failDrive

theorem keeps_driveDone {s u : State} (h : Keeps s u) : Keeps s (driveDone x1 u) := by
  unfold driveDone
  repeat' first
    | with_reducible assumption | with_reducible apply keeps_ite | with_reducible apply keeps_setDrive
    | (simp only [keeps_mk, keeps_mkcells])

theorem keeps_driveCommandComplete {s u : State} (h : Keeps s u) : Keeps s (driveCommandComplete x1 x2 u) := by
  unfold driveCommandComplete
  repeat' first
    | with_reducible assumption | with_reducible apply keeps_ite | with_reducible apply keeps_driveTrouble
    | with_reducible apply keeps_driveDone

theorem keeps_driveMemoryRequest {s u : State} (h : Keeps s u) : Keeps s (driveMemoryRequest x1 x2 x3 x4 x5 u) := by
  unfold driveMemoryRequest
  repeat' first
    | with_reducible assumption | with_reducible apply keeps_ite | with_reducible apply keeps_raise
    | with_reducible apply keeps_emit | with_reducible apply keeps_readEvent | with_reducible apply keeps_portWrite

theorem keeps_controlReset {s u : State} (h : Keeps s u) : Keeps s (controlReset u) := ⟨h.1, fun _ => wf_reset⟩

theorem keeps_powerLost {s u : State} (h : Keeps s u) : Keeps s (powerLost u) := by
  unfold powerLost
  repeat' first
    | with_reducible assumption | with_reducible apply keeps_controlReset | (simp only [keeps_mk, keeps_mkcells])

theorem keeps_resetTo {s u : State} (h : Keeps s u) : Keeps s (resetTo u) := by
  unfold resetTo
  repeat' first
    | with_reducible assumption | with_reducible apply keeps_controlReset | (simp only [keeps_mk, keeps_mkcells])

theorem keeps_fetchSend {s u : State} (h : Keeps s u) : Keeps s (fetchSend u) := by
  unfold fetchSend
  repeat' first | with_reducible assumption | with_reducible apply keeps_emit | split

theorem keeps_fetchBegin {s u : State} (h : Keeps s u) : Keeps s (fetchBegin x1 x2 u) := by
  unfold fetchBegin
  repeat' first
    | with_reducible assumption | with_reducible apply keeps_fetchSend | (simp only [keeps_mk, keeps_mkcells])

theorem keeps_imageRefused {s u : State} (h : Keeps s u) : Keeps s (imageRefused x1 x2 x3 u) := by
  unfold imageRefused
  repeat' first | with_reducible assumption | with_reducible apply keeps_raiseMgmt

theorem keeps_bringupStop {s u : State} (h : Keeps s u) : Keeps s (bringupStop x1 u) := by
  unfold bringupStop
  repeat' first
    | with_reducible assumption | with_reducible apply keeps_ite | with_reducible apply keeps_raiseMgmt
    | (simp only [keeps_mk, keeps_mkcells])

theorem keeps_setMeasured {s u : State} (h : Keeps s u) : Keeps s (setMeasured x1 x2 u) := h

theorem keeps_issueCert {s u : State} (h : Keeps s u) : Keeps s (issueCert u) := h

theorem keeps_deriveKeys {s u : State} (h : Keeps s u) : Keeps s (deriveKeys u) := by
  unfold deriveKeys
  repeat' first
    | with_reducible assumption | with_reducible apply keeps_issueCert | (simp only [keeps_mk, keeps_mkcells])

theorem keeps_tryPorter {s u : State} (h : Keeps s u) : Keeps s (tryPorter u) := by
  unfold tryPorter
  repeat' first
    | with_reducible assumption | (intro u; (try dsimp only)) | with_reducible apply keeps_ite
    | with_reducible apply keeps_switchOn | with_reducible apply keeps_issueCert | with_reducible apply keeps_forEach
    | (simp only [keeps_mk, keeps_mkcells])

theorem keeps_fetchNext {s u : State} (h : Keeps s u) : Keeps s (fetchNext x1 u) := by
  unfold fetchNext
  repeat' first
    | with_reducible assumption | with_reducible apply keeps_ite | with_reducible apply keeps_fetchBegin
    | with_reducible apply keeps_tryPorter | (simp only [keeps_mk, keeps_mkcells])

theorem keeps_imageTaken {s u : State} (h : Keeps s u) : Keeps s (imageTaken x1 x2 x3 u) := by
  unfold imageTaken
  repeat' first
    | with_reducible assumption | with_reducible apply keeps_ite | with_reducible apply keeps_raiseMgmt
    | with_reducible apply keeps_setMeasured | with_reducible apply keeps_deriveKeys
    | with_reducible apply keeps_fetchNext | (simp only [keeps_mk, keeps_mkcells])

theorem keeps_slotFailed {s u : State} (h : Keeps s u) : Keeps s (slotFailed x1 x2 x3 u) := by
  unfold slotFailed
  repeat' first
    | with_reducible assumption | (intro u; (try dsimp only)) | with_reducible apply keeps_ite
    | with_reducible apply keeps_raiseMgmt | with_reducible apply keeps_fetchBegin
    | with_reducible apply keeps_imageRefused | with_reducible apply keeps_bringupStop
    | with_reducible apply keeps_deriveKeys | with_reducible apply keeps_fetchNext
    | with_reducible apply keeps_forEach | (simp only [keeps_mk, keeps_mkcells])

theorem keeps_fetchEnd {s u : State} (h : Keeps s u) : Keeps s (fetchEnd x1 u) := by
  unfold fetchEnd
  repeat' first
    | with_reducible assumption | with_reducible apply keeps_imageTaken | with_reducible apply keeps_slotFailed
    | split

theorem keeps_fetchDataReceive {s u : State} (h : Keeps s u) : Keeps s (fetchDataReceive x1 u) := by
  unfold fetchDataReceive
  repeat' first
    | with_reducible assumption | with_reducible apply keeps_fetchSend | with_reducible apply keeps_slotFailed
    | with_reducible apply keeps_fetchEnd | (simp only [keeps_mk, keeps_mkcells]) | split

theorem keeps_fetchRequestTimeout {s u : State} (h : Keeps s u) : Keeps s (fetchRequestTimeout u) := by
  unfold fetchRequestTimeout
  repeat' first
    | with_reducible assumption | with_reducible apply keeps_fetchSend | with_reducible apply keeps_slotFailed
    | (simp only [keeps_mk, keeps_mkcells]) | split

theorem keeps_bootRomStart {s u : State} (h : Keeps s u) : Keeps s (bootRomStart u) := by
  unfold bootRomStart
  repeat' first
    | with_reducible assumption | with_reducible apply keeps_ite | with_reducible apply keeps_fetchBegin
    | with_reducible apply keeps_setMeasured

theorem keeps_keeperStart {s u : State} (h : Keeps s u) : Keeps s (keeperStart x1 x2 u) := by
  unfold keeperStart
  repeat' first
    | with_reducible assumption | with_reducible apply keeps_ite | with_reducible apply keeps_raise
    | with_reducible apply keeps_raiseMgmt | with_reducible apply keeps_switchOn
    | with_reducible apply keeps_fetchBegin | with_reducible apply keeps_imageRefused
    | with_reducible apply keeps_bringupStop | with_reducible apply keeps_setMeasured
    | with_reducible apply keeps_deriveKeys | with_reducible apply keeps_fetchNext
    | (simp only [keeps_mk, keeps_mkcells]) | split

theorem keeps_startTowerTests {s u : State} (h : Keeps s u) : Keeps s (startTowerTests u) := by
  unfold startTowerTests
  repeat' first
    | with_reducible assumption | (intro u; (try dsimp only)) | with_reducible apply keeps_ite
    | with_reducible apply keeps_logicOn | with_reducible apply keeps_forEach

theorem keeps_domainInRegulation {s u : State} (h : Keeps s u) : Keeps s (domainInRegulation x1 u) := by
  unfold domainInRegulation
  repeat' first
    | with_reducible assumption | with_reducible apply keeps_setSupply | with_reducible apply keeps_switchOn
    | with_reducible apply keeps_pacersStart | with_reducible apply keeps_pondLost
    | with_reducible apply keeps_gateReached | with_reducible apply keeps_logicOn | with_reducible apply keeps_unprime
    | with_reducible apply keeps_logicUp | with_reducible apply keeps_tryPorter
    | with_reducible apply keeps_startTowerTests | (simp only [keeps_mk, keeps_mkcells]) | split

theorem keeps_towerLost {s u : State} (h : Keeps s u) : Keeps s (towerLost x1 u) := by
  unfold towerLost
  repeat' first
    | with_reducible assumption | (intro u; (try dsimp only)) | with_reducible apply keeps_retireCore
    | with_reducible apply keeps_pondOff | with_reducible apply keeps_towerLogicOff
    | with_reducible apply keeps_gateEnded | with_reducible apply keeps_forEach
    | (simp only [keeps_mk, keeps_mkcells])

theorem keeps_domainRegulationTimeout {s u : State} (h : Keeps s u) : Keeps s (domainRegulationTimeout x1 u) := by
  unfold domainRegulationTimeout
  repeat' first
    | with_reducible assumption | with_reducible apply keeps_ite | with_reducible apply keeps_raiseMgmt
    | with_reducible apply keeps_setSupply | with_reducible apply keeps_powerLost
    | with_reducible apply keeps_bringupStop | with_reducible apply keeps_towerLost | split

theorem keeps_stackTrainingDone {s u : State} (h : Keeps s u) : Keeps s (stackTrainingDone x1 x2 u) := by
  unfold stackTrainingDone
  repeat' first
    | with_reducible assumption | with_reducible apply keeps_ite | with_reducible apply keeps_raise
    | (simp only [keeps_mk, keeps_mkcells])

theorem keeps_cellarTrainingDone {s u : State} (h : Keeps s u) : Keeps s (cellarTrainingDone x1 x2 u) := by
  unfold cellarTrainingDone
  repeat' first
    | with_reducible assumption | (intro u; (try dsimp only)) | with_reducible apply keeps_ite
    | with_reducible apply keeps_raise | with_reducible apply keeps_forEach | (simp only [keeps_mk, keeps_mkcells])

theorem keeps_powerUpBond {s u : State} (h : Keeps s u) : Keeps s (powerUpBond x1 u) := by
  unfold powerUpBond
  repeat' first | with_reducible assumption | with_reducible apply keeps_setChan

theorem keeps_towerBringupTestDone {s u : State} (h : Keeps s u) : Keeps s (towerBringupTestDone x1 x2 x3 x4 x5 u) := by
  unfold towerBringupTestDone
  repeat' first
    | with_reducible assumption | (intro u; (try dsimp only)) | with_reducible apply keeps_ite
    | with_reducible apply keeps_retireCore | with_reducible apply keeps_settleChannel
    | with_reducible apply keeps_remapRow | with_reducible apply keeps_bringupMargin
    | with_reducible apply keeps_pondLost | with_reducible apply keeps_towerLogicOff
    | with_reducible apply keeps_powerUpBond | with_reducible apply keeps_forEach
    | (simp only [keeps_mk, keeps_mkcells])

theorem keeps_readySet {s u : State} (h : Keeps s u) : Keeps s (readySet x1 u) := by
  unfold readySet
  repeat' first
    | with_reducible assumption | with_reducible apply keeps_ite | with_reducible apply keeps_enumerateDrives
    | (simp only [keeps_mk, keeps_mkcells])

theorem keeps_powerDownStart {s u : State} (h : Keeps s u) : Keeps s (powerDownStart x1 u) := by
  unfold powerDownStart
  repeat' first
    | with_reducible assumption | (intro u; (try dsimp only)) | with_reducible apply keeps_raiseMgmt
    | with_reducible apply keeps_emit | with_reducible apply keeps_failStep | with_reducible apply keeps_endSnapshot
    | with_reducible apply keeps_stopDma | with_reducible apply keeps_setDrive | with_reducible apply keeps_forEach
    | (simp only [keeps_mk, keeps_mkcells])

theorem keeps_writeRecord {s u : State} (h : Keeps s u) : Keeps s (writeRecord u) := by
  unfold writeRecord
  repeat' first | with_reducible assumption | with_reducible apply keeps_emit | (simp only [keeps_mk, keeps_mkcells])

theorem keeps_powerDownEnd {s u : State} (h : Keeps s u) : Keeps s (powerDownEnd u) := by
  unfold powerDownEnd
  repeat' first
    | with_reducible assumption | with_reducible apply keeps_ite | with_reducible apply keeps_powerLost
    | with_reducible apply keeps_resetTo

theorem keeps_powerDownStageAdvance {s u : State} (h : Keeps s u) : Keeps s (powerDownStageAdvance u) := by
  have down0 : ∀ v, Keeps s v → Keeps s (forEach (List.range 8) pondOff (forEach (List.range 8) towerLogicOff v)) :=
    fun v k => keeps_forEach (keeps_forEach k (fun _ _ k => keeps_towerLogicOff k)) (fun _ _ k => keeps_pondOff k)
  have down1 : ∀ l, Keeps s (forEach l switchOff u) := fun l => keeps_forEach h (fun _ _ k => keeps_switchOff k)
  unfold powerDownStageAdvance
  split
  · refine keeps_mk.mpr (down0 _ (keeps_mk.mpr h))
  · have k := down1 [20, 21, 22, 23, 24, 25, 19, 17, 18, 16]
    generalize forEach [20, 21, 22, 23, 24, 25, 19, 17, 18, 16] switchOff u = v at k ⊢
    exact keeps_mem k rfl (fun _ => wf_memReset)
  · split
    · exact keeps_powerDownEnd (keeps_writeRecord h)
    · exact keeps_mk.mpr h
  · exact h

theorem keeps_pwrEnAssert {s u : State} (h : Keeps s u) : Keeps s (pwrEnAssert u) := by
  unfold pwrEnAssert
  repeat' first
    | with_reducible assumption | with_reducible apply keeps_switchOn | (simp only [keeps_mk, keeps_mkcells]) | split

theorem keeps_pwrEnDeassert {s u : State} (h : Keeps s u) : Keeps s (pwrEnDeassert u) := by
  unfold pwrEnDeassert
  repeat' first
    | with_reducible assumption | with_reducible apply keeps_powerLost | with_reducible apply keeps_powerDownStart
    | (simp only [keeps_mk, keeps_mkcells]) | split

theorem keeps_modRstNAssert {s u : State} (h : Keeps s u) : Keeps s (modRstNAssert u) := by
  unfold modRstNAssert
  repeat' first
    | with_reducible assumption | with_reducible apply keeps_resetTo | with_reducible apply keeps_powerDownStart
    | (simp only [keeps_mk, keeps_mkcells]) | split

theorem keeps_modRstNDeassert {s u : State} (h : Keeps s u) : Keeps s (modRstNDeassert u) := by
  unfold modRstNDeassert
  repeat' first
    | with_reducible assumption | with_reducible apply keeps_ite | with_reducible apply keeps_resetTo
    | (simp only [keeps_mk, keeps_mkcells])

theorem keeps_perstNAssert {s u : State} (h : Keeps s u) : Keeps s (perstNAssert u) := by
  unfold perstNAssert
  repeat' first
    | with_reducible assumption | with_reducible apply keeps_ite | with_reducible apply keeps_resetFunction
    | (simp only [keeps_mk, keeps_mkcells])

theorem keeps_perstNDeassert {s u : State} (h : Keeps s u) : Keeps s (perstNDeassert u) := h

theorem keeps_functionLevelReset {s u : State} (h : Keeps s u) : Keeps s (functionLevelReset x1 u) := by
  unfold functionLevelReset
  repeat' first | with_reducible assumption | with_reducible apply keeps_resetFunction | split

theorem keeps_storHotReset {s u : State} (h : Keeps s u) : Keeps s (storHotReset u) := by
  unfold storHotReset
  repeat' first
    | with_reducible assumption | with_reducible apply keeps_ite | with_reducible apply keeps_resetFunction
    | (simp only [keeps_mk, keeps_mkcells])

theorem keeps_inputUndervoltage {s u : State} (h : Keeps s u) : Keeps s (inputUndervoltage x1 u) := by
  unfold inputUndervoltage
  repeat' first
    | with_reducible assumption | with_reducible apply keeps_ite | with_reducible apply keeps_raiseMgmt
    | (simp only [keeps_mk, keeps_mkcells])

theorem keeps_inputUndervoltageClear {s u : State} (h : Keeps s u) : Keeps s (inputUndervoltageClear u) := h

theorem keeps_inputOvervoltage {s u : State} (h : Keeps s u) : Keeps s (inputOvervoltage x1 u) := by
  unfold inputOvervoltage
  repeat' first | with_reducible assumption | with_reducible apply keeps_ite | with_reducible apply keeps_raiseMgmt

theorem keeps_inputSupplyCollapse {s u : State} (h : Keeps s u) : Keeps s (inputSupplyCollapse u) := by
  unfold inputSupplyCollapse
  repeat' first | with_reducible assumption | with_reducible apply keeps_powerLost

theorem keeps_converterFail {s u : State} (h : Keeps s u) : Keeps s (converterFail x1 u) := by
  unfold converterFail
  repeat' first
    | with_reducible assumption | with_reducible apply keeps_ite | with_reducible apply keeps_raiseMgmt
    | (simp only [keeps_mk, keeps_mkcells])

theorem keeps_dynamicAddressAssign {s u : State} (h : Keeps s u) : Keeps s (dynamicAddressAssign x1 u) := by
  unfold dynamicAddressAssign
  repeat' first | with_reducible assumption | with_reducible apply keeps_ite | (simp only [keeps_mk, keeps_mkcells])

theorem keeps_controllerRoleGrant {s u : State} (h : Keeps s u) : Keeps s (controllerRoleGrant u) := by
  unfold controllerRoleGrant
  repeat' first
    | with_reducible assumption | with_reducible apply keeps_ite | with_reducible apply keeps_writeRecord
    | with_reducible apply keeps_powerDownEnd | (simp only [keeps_mk, keeps_mkcells])

theorem keeps_controllerRoleGrantTimeout {s u : State} (h : Keeps s u) : Keeps s (controllerRoleGrantTimeout u) := by
  unfold controllerRoleGrantTimeout
  repeat' first
    | with_reducible assumption | with_reducible apply keeps_ite | with_reducible apply keeps_powerDownEnd
    | (simp only [keeps_mk, keeps_mkcells])

theorem keeps_lowSupplyHalt {s u : State} (h : Keeps s u) : Keeps s (lowSupplyHalt x1 u) := by
  unfold lowSupplyHalt
  repeat' first
    | with_reducible assumption | with_reducible apply keeps_ite | with_reducible apply keeps_setPace
    | with_reducible apply keeps_raise

theorem keeps_controlResumes {s u : State} (h : Keeps s u) : Keeps s (controlResumes u) := by
  unfold controlResumes
  repeat' first | with_reducible assumption | (simp only [keeps_mk, keeps_mkcells])

theorem keeps_pacerRestart {s u : State} (h : Keeps s u) : Keeps s (pacerRestart x1 u) := by
  unfold pacerRestart
  repeat' first
    | with_reducible assumption | with_reducible apply keeps_ite | with_reducible apply keeps_setPace
    | with_reducible apply keeps_raise | with_reducible apply keeps_senderMoved
    | with_reducible apply keeps_controlResumes

theorem keeps_aliveTick {s u : State} (h : Keeps s u) : Keeps s (aliveTick x1 u) := by
  unfold aliveTick
  repeat' first
    | with_reducible assumption | with_reducible apply keeps_ite | with_reducible apply keeps_setPace
    | with_reducible apply keeps_senderMoved

theorem keeps_setCrossing {s u : State} (h : Keeps s u) : Keeps s (setCrossing x1 x2 u) := h

theorem keeps_rearmEvent {s u : State} (h : Keeps s u) : Keeps s (rearmEvent x1 u) := by
  unfold rearmEvent
  repeat' first
    | with_reducible assumption | with_reducible apply keeps_ite | with_reducible apply keeps_raise
    | with_reducible apply keeps_setCrossing

theorem keeps_fencedTwice {s u : State} (h : Keeps s u) : Keeps s (fencedTwice x1 u) := by
  unfold fencedTwice
  repeat' first
    | with_reducible assumption | (intro u; (try dsimp only)) | with_reducible apply keeps_raise
    | with_reducible apply keeps_fileTest | with_reducible apply keeps_setCrossing
    | with_reducible apply keeps_forEach | (simp only [keeps_mk, keeps_mkcells]) | split

theorem keeps_dmaFails {s u : State} (h : Keeps s u) : Keeps s (dmaFails x1 u) := by
  unfold dmaFails
  repeat' first
    | with_reducible assumption | with_reducible apply keeps_finish | (simp only [keeps_mk, keeps_mkcells]) | split

theorem keeps_failWaiter {s u : State} (h : Keeps s u) : Keeps s (failWaiter x1 u) := by
  unfold failWaiter
  repeat' first
    | with_reducible assumption | with_reducible apply keeps_endRun | with_reducible apply keeps_dmaFails | split

theorem keeps_crossingTimeout {s u : State} (h : Keeps s u) : Keeps s (crossingTimeout x1 x2 u) := by
  unfold crossingTimeout
  repeat' first
    | with_reducible assumption | (intro u; (try dsimp only)) | with_reducible apply keeps_ite
    | with_reducible apply keeps_setPace | with_reducible apply keeps_raise | with_reducible apply keeps_setCrossing
    | with_reducible apply keeps_rearmEvent | with_reducible apply keeps_fencedTwice
    | with_reducible apply keeps_failWaiter | with_reducible apply keeps_forEach

theorem keeps_crossingRearm {s u : State} (h : Keeps s u) : Keeps s (crossingRearm x1 u) := by
  unfold crossingRearm
  repeat' first | with_reducible assumption | with_reducible apply keeps_ite | with_reducible apply keeps_setCrossing

theorem keeps_lateResponseDiscard {s u : State} (h : Keeps s u) : Keeps s (lateResponseDiscard x1 x2 u) := by
  unfold lateResponseDiscard
  repeat' first
    | with_reducible assumption | with_reducible apply keeps_ite | with_reducible apply keeps_setPace
    | with_reducible apply keeps_setCrossing

theorem keeps_domainDrainEnd {s u : State} (h : Keeps s u) : Keeps s (domainDrainEnd x1 u) := by
  unfold domainDrainEnd
  repeat' first
    | with_reducible assumption | with_reducible apply keeps_ite | with_reducible apply keeps_setPace
    | with_reducible apply keeps_pondOff | with_reducible apply keeps_towerLogicOff
    | with_reducible apply keeps_gateReached | split

theorem keeps_poisonWord {s u : State} (h : Keeps s u) : Keeps s (poisonWord x1 u) := h

theorem keeps_pondUncorrectableRead {s u : State} (h : Keeps s u) : Keeps s (pondUncorrectableRead x1 x2 u) := by
  unfold pondUncorrectableRead
  repeat' first
    | with_reducible assumption | with_reducible apply keeps_ite | with_reducible apply keeps_raise
    | with_reducible apply keeps_failTask | with_reducible apply keeps_remapRow
    | with_reducible apply keeps_poisonWord

theorem keeps_mereUncorrectableRead {s u : State} (h : Keeps s u) : Keeps s (mereUncorrectableRead x1 x2 u) := by
  unfold mereUncorrectableRead
  repeat' first
    | with_reducible assumption | with_reducible apply keeps_ite | with_reducible apply keeps_raise
    | with_reducible apply keeps_capBump | with_reducible apply keeps_failTask | with_reducible apply keeps_poisonWord
    | (simp only [keeps_mk, keeps_mkcells])

theorem keeps_blockUncorrectable {s u : State} (h : Keeps s u) : Keeps s (blockUncorrectable x1 x2 x3 x4 u) := by
  unfold blockUncorrectable
  repeat' first
    | with_reducible assumption | with_reducible apply keeps_raise | with_reducible apply keeps_failTask
    | (simp only [keeps_mk, keeps_mkcells])

theorem keeps_stackUncorrectableRead {s u : State} (h : Keeps s u) : Keeps s (stackUncorrectableRead x1 x2 x3 u) := by
  unfold stackUncorrectableRead
  repeat' first
    | with_reducible assumption | with_reducible apply keeps_ite | with_reducible apply keeps_blockUncorrectable

theorem keeps_cellarUncorrectableRead {s u : State} (h : Keeps s u) : Keeps s (cellarUncorrectableRead x1 x2 x3 u) := by
  unfold cellarUncorrectableRead
  repeat' first
    | with_reducible assumption | with_reducible apply keeps_ite | with_reducible apply keeps_blockUncorrectable

theorem keeps_markPch {s u : State} (h : Keeps s u) : Keeps s (markPch x1 x2 x3 u) := by
  unfold markPch
  repeat' first
    | with_reducible assumption | with_reducible apply keeps_ite | with_reducible apply keeps_raise
    | with_reducible apply keeps_capBump | (simp only [keeps_mk, keeps_mkcells])

theorem keeps_scrubRequestsEnd {s u : State} (h : Keeps s u) : Keeps s (scrubRequestsEnd x1 u) := h

theorem keeps_scrubStep {s u : State} (h : Keeps s u) : Keeps s (scrubStep x1 x2 x3 x4 x5 x6 x7 u).1 := by
  unfold scrubStep
  repeat' first
    | with_reducible assumption | with_reducible apply keeps_ite | with_reducible apply keeps_raise
    | (simp only [keeps_mk, keeps_mkcells])

theorem keeps_scrubStep_eq {s u v : State} {x} (e : scrubStep x1 x2 x3 x4 x5 x6 x7 u = (v, x)) (h : Keeps s u) :
    Keeps s v := keeps_fst e (keeps_scrubStep (x1 := x1) (x2 := x2) (x3 := x3) (x4 := x4) (x5 := x5) (x6 := x6) (x7 := x7) h)

theorem keeps_wordScrub {s u : State} (h : Keeps s u) : Keeps s (wordScrub x1 x2 x3 x4 x5 x6 x7 x8 u).1 := by
  unfold wordScrub
  repeat' first
    | with_reducible assumption | with_reducible apply keeps_scrubStep | (simp only [keeps_mk, keeps_mkcells])

theorem keeps_wordScrub_eq {s u v : State} {x} (e : wordScrub x1 x2 x3 x4 x5 x6 x7 x8 u = (v, x)) (h : Keeps s u) :
    Keeps s v := keeps_fst e (keeps_wordScrub (x1 := x1) (x2 := x2) (x3 := x3) (x4 := x4) (x5 := x5) (x6 := x6) (x7 := x7) (x8 := x8) h)

theorem keeps_pondScrubStep {s u : State} (h : Keeps s u) : Keeps s (pondScrubStep x1 x2 u) := by
  unfold pondScrubStep
  repeat' first
    | with_reducible assumption | with_reducible apply keeps_ite | with_reducible apply keeps_scrubRequestsEnd
    | with_reducible apply keeps_wordScrub

theorem keeps_mereScrubStep {s u : State} (h : Keeps s u) : Keeps s (mereScrubStep x1 x2 u) := by
  unfold mereScrubStep
  repeat' first
    | with_reducible assumption | with_reducible apply keeps_ite | with_reducible apply keeps_scrubRequestsEnd
    | with_reducible apply keeps_wordScrub

theorem keeps_stackPatrolScrub {s u : State} (h : Keeps s u) : Keeps s (stackPatrolScrub x1 x2 x3 u) := by
  unfold stackPatrolScrub
  repeat' first
    | with_reducible assumption | with_reducible apply keeps_markPch | (simp only [keeps_mk, keeps_mkcells]) | split

theorem keeps_cellarPatrolScrub {s u : State} (h : Keeps s u) : Keeps s (cellarPatrolScrub x1 x2 u) := by
  unfold cellarPatrolScrub
  repeat' first
    | with_reducible assumption | with_reducible apply keeps_ite | with_reducible apply keeps_scrubStep
    | (simp only [keeps_mk, keeps_mkcells])

theorem keeps_descEvent {s u : State} (h : Keeps s u) : Keeps s (descEvent x1 x2 u) := by
  unfold descEvent
  repeat' first | with_reducible assumption | with_reducible apply keeps_raise

theorem keeps_setRun {s u : State} (h : Keeps s u) : Keeps s (setRun x1 x2 x3 u) := by
  unfold setRun
  repeat' first | with_reducible assumption | with_reducible apply keeps_setCore

theorem keeps_settleVerdict {s u : State} (h : Keeps s u) : Keeps s (settleVerdict x1 x2 x3 x4 x5 u) := by
  unfold settleVerdict
  repeat' first
    | with_reducible assumption | with_reducible apply keeps_setCore | with_reducible apply keeps_endRun
    | with_reducible apply keeps_descEvent | with_reducible apply keeps_setRun | split

theorem keeps_descriptorRead {s u : State} (h : Keeps s u) : Keeps s (descriptorRead x1 x2 x3 x4 u) := by
  unfold descriptorRead
  repeat' first | with_reducible assumption | with_reducible apply keeps_settleVerdict

theorem keeps_fetchRun {s u : State} (h : Keeps s u) : Keeps s (fetchRun x1 x2 x3 u) := by
  unfold fetchRun
  repeat' first
    | with_reducible assumption | with_reducible apply keeps_ite | with_reducible apply keeps_poisonEvent
    | with_reducible apply keeps_endRun | with_reducible apply keeps_descriptorRead | split

theorem keeps_descriptorFetch {s u : State} (h : Keeps s u) : Keeps s (descriptorFetch x1 u) := by
  unfold descriptorFetch
  repeat' first | with_reducible assumption | with_reducible apply keeps_fetchRun | split

theorem keeps_stallBudgetExpiry {s u : State} (h : Keeps s u) : Keeps s (stallBudgetExpiry x1 x2 u) := by
  unfold stallBudgetExpiry
  repeat' first
    | with_reducible assumption | with_reducible apply keeps_raise | with_reducible apply keeps_setCore | split

theorem keeps_accumulatorParityError {s u : State} (h : Keeps s u) : Keeps s (accumulatorParityError x1 x2 u) := by
  unfold accumulatorParityError
  repeat' first
    | with_reducible assumption | with_reducible apply keeps_raise | with_reducible apply keeps_setCore
    | with_reducible apply keeps_failTask | split

theorem keeps_writeOut {s u : State} (h : Keeps s u) : Keeps s (writeOut x1 x2 x3 u).1 := by
  unfold writeOut
  repeat' first
    | with_reducible assumption | with_reducible apply keeps_ite | with_reducible apply keeps_wrElems
    | with_reducible apply keeps_noteHistory

theorem keeps_writeOut_eq {s u v : State} {x} (e : writeOut x1 x2 x3 u = (v, x)) (h : Keeps s u) :
    Keeps s v := keeps_fst e (keeps_writeOut (x1 := x1) (x2 := x2) (x3 := x3) h)

theorem keeps_recordAll {s u : State} (h : Keeps s u) : Keeps s (recordAll x1 x2 u) := by
  unfold recordAll
  repeat' first | with_reducible assumption | with_reducible apply keeps_ite | with_reducible apply keeps_recordAmax

theorem keeps_fillBanks {s u : State} (h : Keeps s u) : Keeps s (fillBanks x1 x2 x3 u) := by
  unfold fillBanks
  repeat' first | with_reducible assumption | with_reducible apply keeps_setCore

theorem keeps_holdProduct {s u : State} (h : Keeps s u) : Keeps s (holdProduct x1 x2 u) := by
  unfold holdProduct
  repeat' first
    | with_reducible assumption | with_reducible apply keeps_setCore | with_reducible apply keeps_addFlags
    | with_reducible apply keeps_fillBanks

theorem keeps_runProduct {s u : State} (h : Keeps s u) : Keeps s (runProduct x1 x2 u) := by
  unfold runProduct
  repeat' first
    | with_reducible assumption | with_reducible apply keeps_addFlags | with_reducible apply keeps_writeOut
    | with_reducible apply keeps_recordAll | with_reducible apply keeps_fillBanks

theorem keeps_runCopy {s u : State} (h : Keeps s u) : Keeps s (runCopy x1 x2 u) := by
  unfold runCopy
  repeat' first
    | with_reducible assumption | with_reducible apply keeps_addFlags | with_reducible apply keeps_writeOut
    | with_reducible apply keeps_recordAll

theorem keeps_runMover {s u : State} (h : Keeps s u) : Keeps s (runMover x1 u) := by
  unfold runMover
  repeat' first
    | with_reducible assumption | with_reducible apply keeps_ite | with_reducible apply keeps_engineWrite
    | with_reducible apply keeps_writeOut

theorem keeps_noteSingles {s u : State} (h : Keeps s u) : Keeps s (noteSingles x1 u) := by
  unfold noteSingles
  repeat' first
    | with_reducible assumption | (intro u; (try dsimp only)) | with_reducible apply keeps_ite
    | with_reducible apply keeps_forEach | (simp only [keeps_mk, keeps_mkcells])

theorem keeps_taskWork {s u : State} (h : Keeps s u) : Keeps s (taskWork x1 x2 u) := by
  unfold taskWork
  repeat' first
    | with_reducible assumption | with_reducible apply keeps_ite | with_reducible apply keeps_setCore
    | with_reducible apply keeps_engineWrite | with_reducible apply keeps_recordAll
    | with_reducible apply keeps_holdProduct | with_reducible apply keeps_runProduct
    | with_reducible apply keeps_runCopy | with_reducible apply keeps_runMover | split

theorem keeps_noteNonFinite {s u : State} (h : Keeps s u) : Keeps s (noteNonFinite x1 x2 u) := by
  unfold noteNonFinite
  repeat' first | with_reducible assumption | (simp only [keeps_mk, keeps_mkcells]) | split

theorem keeps_writeCompletion {s u : State} (h : Keeps s u) : Keeps s (writeCompletion x1 x2 x3 x4 u) := by
  unfold writeCompletion
  repeat' first
    | with_reducible assumption | with_reducible apply keeps_ite | with_reducible apply keeps_wr
    | with_reducible apply keeps_raise | with_reducible apply keeps_setCore | with_reducible apply keeps_flipRoom
    | with_reducible apply keeps_noteNonFinite

theorem keeps_taskComplete {s u : State} (h : Keeps s u) : Keeps s (taskComplete x1 x2 u) := by
  unfold taskComplete
  repeat' first
    | with_reducible assumption | with_reducible apply keeps_poisonEvent | with_reducible apply keeps_setRun
    | with_reducible apply keeps_noteSingles | with_reducible apply keeps_taskWork
    | with_reducible apply keeps_writeCompletion | (simp only [keeps_mk, keeps_mkcells]) | split

theorem keeps_updRed {s u : State} (h : Keeps s u) : Keeps s (updRed x1 x2 x3 u) := by
  unfold updRed
  repeat' first | with_reducible assumption | with_reducible apply keeps_ite | (simp only [keeps_mk, keeps_mkcells])

theorem keeps_setLedgerRed {s u : State} (h : Keeps s u) : Keeps s (setLedgerRed x1 x2 u) := by
  unfold setLedgerRed
  repeat' first | with_reducible assumption | (simp only [keeps_mk, keeps_mkcells])

theorem keeps_redEvent {s u : State} (h : Keeps s u) : Keeps s (redEvent x1 x2 x3 x4 u) := by
  unfold redEvent
  repeat' first | with_reducible assumption | with_reducible apply keeps_raise

theorem keeps_freshGradient {s u : State} (h : Keeps s u) : Keeps s (freshGradient x1 x2 u) := by
  unfold freshGradient
  repeat' first
    | with_reducible assumption | with_reducible apply keeps_putOpened | (simp only [keeps_mk, keeps_mkcells]) | split

theorem keeps_putGradient {s u : State} (h : Keeps s u) : Keeps s (putGradient x1 x2 x3 x4 x5 x6 x7 u) := by
  unfold putGradient
  repeat' first
    | with_reducible assumption | with_reducible apply keeps_wr | with_reducible apply keeps_updRoom
    | with_reducible apply keeps_pinRoom | with_reducible apply keeps_writerDone
    | (simp only [keeps_mk, keeps_mkcells]) | split

theorem keeps_putGradients {s u : State} {a b c d e es vs} (h : Keeps s u) : Keeps s (putGradients a b c d e es vs u) := by
  induction es generalizing u vs with
  | nil => exact h
  | cons e es ih => exact ih (keeps_putGradient h)

theorem keeps_skipAll {s u : State} (h : Keeps s u) : Keeps s (skipAll x1 u) := by
  unfold skipAll
  repeat' first
    | with_reducible assumption | (intro u; (try dsimp only)) | with_reducible apply keeps_wr
    | with_reducible apply keeps_forEach | split

theorem keeps_releaseLocals {s u : State} (h : Keeps s u) : Keeps s (releaseLocals x1 x2 u) := by
  unfold releaseLocals
  repeat' first
    | with_reducible assumption | (intro u; (try dsimp only)) | with_reducible apply keeps_ite
    | with_reducible apply keeps_unpinRoom | with_reducible apply keeps_updRed | with_reducible apply keeps_forEach

theorem keeps_noteReady {s u : State} (h : Keeps s u) : Keeps s (noteReady x1 u) := by
  unfold noteReady
  repeat' first | with_reducible assumption | with_reducible apply keeps_ite | (simp only [keeps_mk, keeps_mkcells])

theorem keeps_settleResult {s u : State} (h : Keeps s u) : Keeps s (settleResult x1 x2 u) := by
  unfold settleResult
  repeat' first
    | with_reducible assumption | (intro u; (try dsimp only)) | with_reducible apply keeps_raise
    | with_reducible apply keeps_updRed | with_reducible apply keeps_setLedgerRed
    | with_reducible apply keeps_redEvent | with_reducible apply keeps_freshGradient
    | with_reducible apply keeps_putGradients | with_reducible apply keeps_skipAll
    | with_reducible apply keeps_releaseLocals | with_reducible apply keeps_noteReady
    | with_reducible apply keeps_forEach | (simp only [keeps_mk, keeps_mkcells]) | split

theorem keeps_settleResults {s u : State} (h : Keeps s u) : Keeps s (settleResults u) := by
  unfold settleResults
  repeat' first
    | with_reducible assumption | (intro u; (try dsimp only)) | with_reducible apply keeps_settleResult
    | with_reducible apply keeps_forEach | split

theorem keeps_resultAt {s u : State} (h : Keeps s u) : Keeps s (resultAt x1 x2 x3 x4 x5 u) := by
  unfold resultAt
  repeat' first
    | with_reducible assumption | with_reducible apply keeps_updRed | with_reducible apply keeps_settleResult

theorem keeps_trySettleShard {s u : State} (h : Keeps s u) : Keeps s (trySettleShard x1 x2 x3 u) := by
  unfold trySettleShard
  repeat' first
    | with_reducible assumption | with_reducible apply keeps_emit | with_reducible apply keeps_resultAt
    | (simp only [keeps_mk, keeps_mkcells]) | split

theorem keeps_shardReceive {s u : State} (h : Keeps s u) : Keeps s (shardReceive x1 x2 x3 x4 x5 x6 u) := by
  unfold shardReceive
  repeat' first
    | with_reducible assumption | with_reducible apply keeps_updRed | with_reducible apply keeps_redEvent
    | with_reducible apply keeps_trySettleShard | (simp only [keeps_mk, keeps_mkcells]) | split

theorem keeps_noteLate {s u : State} (h : Keeps s u) : Keeps s (noteLate x1 x2 x3 u) := by
  unfold noteLate
  repeat' first
    | with_reducible assumption | with_reducible apply keeps_updRed | with_reducible apply keeps_setLedgerRed
    | (simp only [keeps_mk, keeps_mkcells]) | split

theorem keeps_closeAt {s u : State} (h : Keeps s u) : Keeps s (closeAt x1 x2 u) := by
  unfold closeAt
  repeat' first
    | with_reducible assumption | (intro u; (try dsimp only)) | with_reducible apply keeps_ite
    | with_reducible apply keeps_updRed | with_reducible apply keeps_settleResult
    | with_reducible apply keeps_trySettleShard | with_reducible apply keeps_noteLate
    | with_reducible apply keeps_forEach | (simp only [keeps_mk, keeps_mkcells])

theorem keeps_closeRecordReceive {s u : State} (h : Keeps s u) : Keeps s (closeRecordReceive x1 x2 x3 u) := by
  unfold closeRecordReceive
  repeat' first
    | with_reducible assumption | with_reducible apply keeps_ite | with_reducible apply keeps_closeAt | split

theorem keeps_closeNow {s u : State} (h : Keeps s u) : Keeps s (closeNow x1 x2 x3 u) := by
  unfold closeNow
  repeat' first
    | with_reducible assumption | (intro u; (try dsimp only)) | with_reducible apply keeps_ite
    | with_reducible apply keeps_emit | with_reducible apply keeps_redEvent | with_reducible apply keeps_closeAt
    | with_reducible apply keeps_forEach

theorem keeps_tryClose {s u : State} (h : Keeps s u) : Keeps s (tryClose x1 x2 u) := by
  unfold tryClose
  repeat' first | with_reducible assumption | with_reducible apply keeps_ite | with_reducible apply keeps_closeNow

theorem keeps_closeByManager {s u : State} (h : Keeps s u) : Keeps s (closeByManager x1 u) := by
  unfold closeByManager
  repeat' first
    | with_reducible assumption | (intro u; (try dsimp only)) | with_reducible apply keeps_closeNow
    | with_reducible apply keeps_forEach | split

theorem keeps_noticeReceive {s u : State} (h : Keeps s u) : Keeps s (noticeReceive x1 u) := by
  unfold noticeReceive
  repeat' first
    | with_reducible assumption | with_reducible apply keeps_updRed | with_reducible apply keeps_redEvent
    | with_reducible apply keeps_tryClose | (simp only [keeps_mk, keeps_mkcells]) | split

theorem keeps_reductionBudgetExpiry {s u : State} (h : Keeps s u) : Keeps s (reductionBudgetExpiry x1 x2 u) := by
  unfold reductionBudgetExpiry
  repeat' first
    | with_reducible assumption | with_reducible apply keeps_updRed | with_reducible apply keeps_redEvent
    | with_reducible apply keeps_tryClose | split

theorem keeps_noteSent {s u : State} (h : Keeps s u) : Keeps s (noteSent x1 u) := by
  unfold noteSent
  repeat' first | with_reducible assumption | (simp only [keeps_mk, keeps_mkcells])

theorem keeps_sendNotice {s u : State} (h : Keeps s u) : Keeps s (sendNotice x1 x2 u) := by
  unfold sendNotice
  repeat' first
    | with_reducible assumption | with_reducible apply keeps_ite | with_reducible apply keeps_emit
    | with_reducible apply keeps_noticeReceive | with_reducible apply keeps_noteSent

theorem keeps_sendShards {s u : State} (h : Keeps s u) : Keeps s (sendShards x1 x2 x3 x4 u) := by
  unfold sendShards
  repeat' first
    | with_reducible assumption | (intro u; (try dsimp only)) | with_reducible apply keeps_ite
    | with_reducible apply keeps_emit | with_reducible apply keeps_shardReceive | with_reducible apply keeps_forEach

theorem keeps_sendCarried {s u : State} (h : Keeps s u) : Keeps s (sendCarried x1 x2 u) := by
  unfold sendCarried
  repeat' first
    | with_reducible assumption | with_reducible apply keeps_sendNotice | with_reducible apply keeps_sendShards
    | (simp only [keeps_mk, keeps_mkcells]) | split

theorem keeps_noticeSend {s u : State} (h : Keeps s u) : Keeps s (noticeSend x1 u) := by
  unfold noticeSend
  repeat' first
    | with_reducible assumption | (intro u; (try dsimp only)) | with_reducible apply keeps_ite
    | with_reducible apply keeps_raise | with_reducible apply keeps_pinRoom | with_reducible apply keeps_updRed
    | with_reducible apply keeps_setLedgerRed | with_reducible apply keeps_redEvent
    | with_reducible apply keeps_releaseLocals | with_reducible apply keeps_noteLate
    | with_reducible apply keeps_sendNotice | with_reducible apply keeps_sendShards
    | with_reducible apply keeps_sendCarried | with_reducible apply keeps_forEach
    | (simp only [keeps_mk, keeps_mkcells]) | split

theorem keeps_resultReceive {s u : State} (h : Keeps s u) : Keeps s (resultReceive x1 x2 x3 x4 x5 u) := by
  unfold resultReceive
  repeat' first | with_reducible assumption | with_reducible apply keeps_resultAt | split

theorem keeps_putRatio {s u : State} (h : Keeps s u) : Keeps s (putRatio x1 u) := h

theorem keeps_refreshLodged {s u : State} (h : Keeps s u) : Keeps s (refreshLodged x1 x2 x3 u) := by
  unfold refreshLodged
  repeat' first | with_reducible assumption | with_reducible apply keeps_ite | with_reducible apply keeps_emit

theorem keeps_digestEvent {s u : State} (h : Keeps s u) : Keeps s (digestEvent x1 x2 u) := by
  unfold digestEvent
  repeat' first | with_reducible assumption | with_reducible apply keeps_raiseCtrl

theorem keeps_setApplied {s u : State} (h : Keeps s u) : Keeps s (setApplied x1 x2 u) := h

theorem keeps_setDigested {s u : State} (h : Keeps s u) : Keeps s (setDigested x1 x2 u) := h

theorem keeps_endStalls {s u : State} (h : Keeps s u) : Keeps s (endStalls x1 u) := by
  unfold endStalls
  repeat' first | with_reducible assumption | (simp only [keeps_mk, keeps_mkcells]) | split

theorem keeps_settleLag {s u : State} (h : Keeps s u) : Keeps s (settleLag u) := by
  unfold settleLag
  repeat' first | with_reducible assumption | with_reducible apply keeps_ite | (simp only [keeps_mk, keeps_mkcells])

theorem keeps_releaseGradient {s u : State} (h : Keeps s u) : Keeps s (releaseGradient x1 x2 u) := by
  unfold releaseGradient
  repeat' first
    | with_reducible assumption | with_reducible apply keeps_updRoom | with_reducible apply keeps_unpinRoom
    | with_reducible apply keeps_saveVersion | with_reducible apply keeps_settleLag | split

theorem keeps_putVersion {s u : State} (h : Keeps s u) : Keeps s (putVersion x1 x2 u) := by
  unfold putVersion
  repeat' first
    | with_reducible assumption | with_reducible apply keeps_wr | with_reducible apply keeps_putOpened
    | with_reducible apply keeps_commitRoom | split

theorem keeps_stageBlock {s u : State} (h : Keeps s u) : Keeps s (stageBlock x1 x2 u) := by
  unfold stageBlock
  repeat' first | with_reducible assumption | with_reducible apply keeps_putVersion

theorem keeps_copyHome {s u : State} {l n} (h : Keeps s u) : Keeps s (copyHome l n u) := by
  induction l generalizing u n with
  | nil => exact h
  | cons x l ih => exact ih (keeps_homeWrite h)

theorem keeps_blockHome {s u : State} (h : Keeps s u) : Keeps s (blockHome x1 x2 u) := by
  unfold blockHome
  repeat' first | with_reducible assumption | with_reducible apply keeps_copyHome | split

theorem keeps_stagingRoom_eq {s u v : State} {b x} (e : stagingRoom b u = some (x, v)) (h : Keeps s u) : Keeps s v :=
  keeps_grantRoom_eq e h

theorem keeps_stageUpdate_eq {s u v : State} {f p n k r e a x} (q : stageUpdate f p n k r e a u = some (x, v)) (h : Keeps s u)
    (hf : ∀ c l w, Keeps s w → Keeps s (f c l w)) : Keeps s v := by
  unfold stageUpdate at q
  simp only [Option.map_eq_some_iff] at q
  obtain ⟨⟨k, w⟩, e1, e2⟩ := q
  cases e2
  have h1 := keeps_stagingRoom_eq e1 h
  repeat' first
    | with_reducible apply hf | with_reducible assumption | (intro u; (try dsimp only))
    | with_reducible apply keeps_ite | with_reducible apply keeps_requestState
    | with_reducible apply keeps_digestEvent | with_reducible apply keeps_stageBlock
    | with_reducible apply keeps_forEach

theorem keeps_putHome {s u : State} (h : Keeps s u) : Keeps s (putHome x1 u) := by
  unfold putHome
  repeat' first
    | with_reducible assumption | (intro u; (try dsimp only)) | with_reducible apply keeps_homeWrite
    | with_reducible apply keeps_stageBlock | with_reducible apply keeps_blockHome
    | with_reducible apply keeps_forEach

theorem keeps_freeStaging {s u : State} (h : Keeps s u) : Keeps s (freeStaging x1 u) := by
  unfold freeStaging
  repeat' first | with_reducible assumption | with_reducible apply keeps_ite | with_reducible apply keeps_releaseNow

theorem keeps_dropStaged {s u : State} (h : Keeps s u) : Keeps s (dropStaged x1 x2 u) := by
  unfold dropStaged
  repeat' first
    | with_reducible assumption | (intro u; (try dsimp only)) | with_reducible apply keeps_freeStaging
    | with_reducible apply keeps_forEach | (simp only [keeps_mk, keeps_mkcells])

theorem keeps_commitWork {s u : State} (h : Keeps s u) : Keeps s (commitWork x1 u) := by
  unfold commitWork
  repeat' first
    | with_reducible assumption | with_reducible apply keeps_updRoom | with_reducible apply keeps_commitRoom
    | (simp only [keeps_mk, keeps_mkcells]) | split

theorem keeps_failTensor {s u : State} (h : Keeps s u) : Keeps s (failTensor x1 x2 x3 u) := by
  unfold failTensor
  repeat' first
    | with_reducible assumption | (intro u; (try dsimp only)) | with_reducible apply keeps_requestState
    | with_reducible apply keeps_digestEvent | with_reducible apply keeps_forEach

theorem keeps_putRun {s u : State} (h : Keeps s u) : Keeps s (putRun x1 u) := h

theorem keeps_dropRun {s u : State} (h : Keeps s u) : Keeps s (dropRun x1 x2 u) := h

theorem keeps_beginRun {s u : State} {f g n es} (h : Keeps s u) (hf : ∀ c l w, Keeps s w → Keeps s (f c l w)) :
    Keeps s (beginRun f g n es u) := by
  unfold beginRun; (try dsimp only); repeat' first | with_reducible apply hf | with_reducible assumption | with_reducible apply keeps_putRun | split

theorem keeps_takeTensor {s u : State} (h : Keeps s u) : Keeps s (takeTensor x1 x2 x3 x4 u) := by
  unfold takeTensor; repeat' first
    | with_reducible refine keeps_stageUpdate_eq (by with_reducible assumption) h (fun _ _ _ k => keeps_raiseCtrl k)
    | with_reducible assumption | with_reducible apply keeps_refreshLodged | with_reducible apply keeps_setApplied
    | with_reducible apply keeps_failTensor | (simp only [keeps_mk, keeps_mkcells]) | split

theorem keeps_takeGroup {s u : State} (h : Keeps s u) : Keeps s (takeGroup x1 x2 x3 u) := by
  unfold takeGroup
  repeat' first
    | with_reducible assumption | (intro u; (try dsimp only)) | with_reducible apply keeps_raiseCtrl
    | with_reducible apply keeps_putRatio | with_reducible apply keeps_dropRun | with_reducible apply keeps_beginRun
    | with_reducible apply keeps_takeTensor | with_reducible apply keeps_forEach
    | (simp only [keeps_mk, keeps_mkcells]) | split

theorem keeps_settleHoming {s u : State} (h : Keeps s u) : Keeps s (settleHoming u) := by
  unfold settleHoming
  repeat' first
    | with_reducible assumption | (intro u; (try dsimp only)) | with_reducible apply keeps_refreshLodged
    | with_reducible apply keeps_setApplied | with_reducible apply keeps_setDigested
    | with_reducible apply keeps_putHome | with_reducible apply keeps_freeStaging
    | with_reducible apply keeps_commitWork | with_reducible apply keeps_forEach
    | (simp only [keeps_mk, keeps_mkcells]) | split

theorem keeps_stackUpdates {s u : State} (h : Keeps s u) : Keeps s (stackUpdates u) := by
  unfold stackUpdates
  repeat' first
    | with_reducible assumption | (intro u; (try dsimp only)) | with_reducible apply keeps_noteReady
    | with_reducible apply keeps_takeGroup | with_reducible apply keeps_settleHoming
    | with_reducible apply keeps_forEach | (simp only [keeps_mk, keeps_mkcells]) | split

theorem keeps_settleGroup {s u : State} (h : Keeps s u) : Keeps s (settleGroup x1 x2 u) := by
  unfold settleGroup
  repeat' first
    | with_reducible assumption | with_reducible apply keeps_ite | with_reducible apply keeps_putRatio
    | with_reducible apply keeps_dropRun | split

theorem keeps_stage {s u : State} (h : Keeps s u) : Keeps s (stage x1 u) := h

theorem keeps_cellarTell {s u : State} (h : Keeps s u) : Keeps s (cellarTell x1 x2 u) := by
  unfold cellarTell
  repeat' first | with_reducible assumption | with_reducible apply keeps_raise

theorem keeps_stageTensor {s u : State} (h : Keeps s u) : Keeps s (stageTensor x1 x2 x3 x4 u) := by
  unfold stageTensor; (try dsimp only); repeat' first
    | with_reducible refine keeps_stageUpdate_eq (by with_reducible assumption) h (fun _ _ _ k => keeps_cellarTell k)
    | with_reducible assumption | with_reducible apply keeps_stage | split

theorem keeps_cellarUpdateStart {s u : State} (h : Keeps s u) : Keeps s (cellarUpdateStart u) := by
  unfold cellarUpdateStart
  repeat' first
    | with_reducible assumption | (intro u; (try dsimp only)) | with_reducible apply keeps_raise
    | with_reducible apply keeps_failStep | with_reducible apply keeps_failTensor
    | with_reducible apply keeps_beginRun | with_reducible apply keeps_settleGroup | with_reducible apply keeps_stage
    | with_reducible apply keeps_cellarTell | with_reducible apply keeps_stageTensor
    | (simp only [keeps_mk, keeps_mkcells]) | split

theorem keeps_setScaled {s u : State} (h : Keeps s u) : Keeps s (setScaled x1 u) := h

theorem keeps_cellarUpdateCommit {s u : State} (h : Keeps s u) : Keeps s (cellarUpdateCommit u) := by
  unfold cellarUpdateCommit
  repeat' first
    | with_reducible assumption | with_reducible apply keeps_refreshLodged | with_reducible apply keeps_setApplied
    | with_reducible apply keeps_setDigested | with_reducible apply keeps_endStalls
    | with_reducible apply keeps_releaseGradient | with_reducible apply keeps_putHome
    | with_reducible apply keeps_freeStaging | with_reducible apply keeps_commitWork
    | with_reducible apply keeps_settleGroup | (simp only [keeps_mk, keeps_mkcells]) | split

theorem keeps_putMoments {s u : State} (h : Keeps s u) : Keeps s (putMoments x1 x2 x3 x4 u) := by
  unfold putMoments
  repeat' first
    | with_reducible assumption | (intro u; (try dsimp only)) | with_reducible apply keeps_homeWrite
    | with_reducible apply keeps_forEach

theorem keeps_installState {s u : State} (h : Keeps s u) : Keeps s (installState x1 x2 x3 u) := by
  unfold installState
  repeat' first
    | with_reducible assumption | (intro u; (try dsimp only)) | with_reducible apply keeps_ite
    | with_reducible apply keeps_homeWrite | with_reducible apply keeps_putMoments
    | with_reducible apply keeps_forEach | split

theorem keeps_releaseThrough {s u : State} (h : Keeps s u) : Keeps s (releaseThrough x1 x2 u) := by
  unfold releaseThrough
  repeat' first
    | with_reducible assumption | (intro u; (try dsimp only)) | with_reducible apply keeps_releaseGradient
    | with_reducible apply keeps_forEach

theorem keeps_endFetch {s u : State} (h : Keeps s u) : Keeps s (endFetch x1 x2 u) := h

theorem keeps_askReplicas {s u : State} (h : Keeps s u) : Keeps s (askReplicas x1 u) := by
  unfold askReplicas
  repeat' first | with_reducible assumption | with_reducible apply keeps_emit | split

theorem keeps_stateFetchInstall {s u : State} (h : Keeps s u) : Keeps s (stateFetchInstall x1 u) := by
  unfold stateFetchInstall
  repeat' first
    | with_reducible assumption | with_reducible apply keeps_raiseCtrl | with_reducible apply keeps_failStep
    | with_reducible apply keeps_setApplied | with_reducible apply keeps_setDigested
    | with_reducible apply keeps_endStalls | with_reducible apply keeps_dropStaged
    | with_reducible apply keeps_settleGroup | with_reducible apply keeps_installState
    | with_reducible apply keeps_releaseThrough | with_reducible apply keeps_endFetch
    | with_reducible apply keeps_askReplicas | split

theorem keeps_setLane {s u : State} (h : Keeps s u) : Keeps s (setLane x1 x2 u) := h

theorem keeps_updRound {s u : State} (h : Keeps s u) : Keeps s (updRound x1 x2 x3 x4 x5 u) := by
  unfold updRound
  repeat' first | with_reducible assumption | with_reducible apply keeps_ite | (simp only [keeps_mk, keeps_mkcells])

theorem keeps_settleRound {s u : State} (h : Keeps s u) : Keeps s (settleRound x1 x2 x3 x4 u) := by
  unfold settleRound
  repeat' first | with_reducible assumption | with_reducible apply keeps_updRound | split

theorem keeps_markReceive {s u : State} (h : Keeps s u) : Keeps s (markReceive x1 u) := by
  unfold markReceive
  repeat' first
    | with_reducible assumption | with_reducible apply keeps_ite | with_reducible apply keeps_updRound
    | with_reducible apply keeps_settleRound

theorem keeps_updDispatch {s u : State} (h : Keeps s u) : Keeps s (updDispatch x1 x2 x3 x4 x5 u) := by
  unfold updDispatch
  repeat' first | with_reducible assumption | (simp only [keeps_mk, keeps_mkcells])

theorem keeps_updRouter {s u : State} (h : Keeps s u) : Keeps s (updRouter x1 x2 u) := h

theorem keeps_settleDispatch {s u : State} (h : Keeps s u) : Keeps s (settleDispatch x1 x2 x3 x4 u) := by
  unfold settleDispatch
  repeat' first
    | with_reducible assumption | (intro u; (try dsimp only)) | with_reducible apply keeps_wr
    | with_reducible apply keeps_updDispatch | with_reducible apply keeps_forEach
    | (simp only [keeps_mk, keeps_mkcells]) | split

theorem keeps_dropChoices {s u : State} (h : Keeps s u) : Keeps s (dropChoices x1 x2 x3 x4 x5 x6 u) := by
  unfold dropChoices
  repeat' first
    | with_reducible assumption | with_reducible apply keeps_ite | with_reducible apply keeps_updDispatch
    | with_reducible apply keeps_updRouter | with_reducible apply keeps_settleDispatch | split

theorem keeps_dropTarget {s u : State} (h : Keeps s u) : Keeps s (dropTarget x1 u) := by
  unfold dropTarget
  repeat' first
    | with_reducible assumption | (intro u; (try dsimp only)) | with_reducible apply keeps_dropChoices
    | with_reducible apply keeps_forEach

theorem keeps_returnBundleReceive {s u : State} (h : Keeps s u) : Keeps s (returnBundleReceive x1 x2 x3 u) := by
  unfold returnBundleReceive
  repeat' first
    | with_reducible assumption | with_reducible apply keeps_ite | with_reducible apply keeps_updDispatch
    | with_reducible apply keeps_settleDispatch | with_reducible apply keeps_dropChoices

theorem keeps_bundleReceive {s u : State} (h : Keeps s u) : Keeps s (bundleReceive x1 x2 x3 u) := by
  unfold bundleReceive
  repeat' first
    | with_reducible assumption | with_reducible apply keeps_ite | with_reducible apply keeps_raise
    | with_reducible apply keeps_emit | with_reducible apply keeps_updRound | with_reducible apply keeps_settleRound
    | with_reducible apply keeps_returnBundleReceive

theorem keeps_markWaitTimeout {s u : State} (h : Keeps s u) : Keeps s (markWaitTimeout x1 x2 x3 x4 u) := by
  unfold markWaitTimeout
  repeat' first
    | with_reducible assumption | with_reducible apply keeps_ite | with_reducible apply keeps_raise
    | with_reducible apply keeps_updRound | split

theorem keeps_sendExchange {s u : State} (h : Keeps s u) : Keeps s (sendExchange x1 x2 x3 u) := by
  unfold sendExchange
  repeat' first
    | with_reducible assumption | with_reducible apply keeps_ite | with_reducible apply keeps_emit
    | with_reducible apply keeps_markReceive | with_reducible apply keeps_bundleReceive

theorem keeps_sendMark {s u : State} (h : Keeps s u) : Keeps s (sendMark x1 u) := by
  unfold sendMark
  repeat' first | with_reducible assumption | with_reducible apply keeps_ite | with_reducible apply keeps_sendExchange

theorem keeps_sendRound {s u : State} (h : Keeps s u) : Keeps s (sendRound x1 x2 x3 x4 x5 x6 u) := by
  unfold sendRound
  repeat' first
    | with_reducible assumption | (intro u; (try dsimp only)) | with_reducible apply keeps_ite
    | with_reducible apply keeps_dropChoices | with_reducible apply keeps_sendExchange
    | with_reducible apply keeps_sendMark | with_reducible apply keeps_forEach

theorem keeps_keepAssignment {s u : State} (h : Keeps s u) : Keeps s (keepAssignment x1 x2 u) := by
  unfold keepAssignment
  repeat' first | with_reducible assumption | with_reducible apply keeps_homeWrite | split

theorem keeps_routerDispatch {s u : State} (h : Keeps s u) : Keeps s (routerDispatch x1 x2 x3 x4 u) := by
  unfold routerDispatch
  repeat' first
    | with_reducible assumption | with_reducible apply keeps_updRouter | with_reducible apply keeps_settleDispatch
    | with_reducible apply keeps_sendRound | with_reducible apply keeps_keepAssignment
    | (simp only [keeps_mk, keeps_mkcells]) | split

theorem keeps_abandonRounds {s u : State} (h : Keeps s u) : Keeps s (abandonRounds u) := by
  unfold abandonRounds
  repeat' first
    | with_reducible assumption | (intro u; (try dsimp only)) | with_reducible apply keeps_sendMark
    | with_reducible apply keeps_forEach | (simp only [keeps_mk, keeps_mkcells]) | split

theorem keeps_closeRoundsWithout {s u : State} (h : Keeps s u) : Keeps s (closeRoundsWithout x1 u) := by
  unfold closeRoundsWithout
  repeat' first
    | with_reducible assumption | (intro u; (try dsimp only)) | with_reducible apply keeps_settleRound
    | with_reducible apply keeps_forEach | (simp only [keeps_mk, keeps_mkcells])

theorem keeps_gatherRows_eq {s u v : State} {x r} (e : gatherRows x r u = some v) (h : Keeps s u) : Keeps s v := by
  unfold gatherRows at e
  split at e
  · cases e; exact h
  · simp only [Option.map_eq_some_iff] at e
    obtain ⟨m, -, rfl⟩ := e
    exact keeps_commitRoom (keeps_homeWrite (keeps_putOpened h))

theorem keeps_gatherAll_eq {s u v : State} {r xs} (e : gatherAll r xs u = some v) (h : Keeps s u) : Keeps s v := by
  induction xs generalizing u with
  | nil => cases e; exact h
  | cons x xs ih =>
    simp only [gatherAll, Option.bind_eq_some_iff] at e
    obtain ⟨w, e1, e2⟩ := e
    exact ih e2 (keeps_gatherRows_eq e1 h)

theorem keeps_setRound {s u : State} (h : Keeps s u) : Keeps s (setRound x1 x2 u) := by
  unfold setRound
  repeat' first | with_reducible assumption | with_reducible apply keeps_updRound

theorem keeps_gatherRounds {s u : State} (h : Keeps s u) : Keeps s (gatherRounds u) := by
  unfold gatherRounds
  repeat' first
    | with_reducible assumption | (intro u; (try dsimp only))
    | with_reducible refine keeps_gatherAll_eq (by with_reducible assumption) ?_ | with_reducible apply keeps_setRound
    | with_reducible apply keeps_forEach | split

theorem keeps_returnRows {s u : State} (h : Keeps s u) : Keeps s (returnRows x1 x2 x3 u) := by
  have fold : ∀ {α : Type} {f : Nat × State → α → Nat × State} (l : List α) (a : Nat × State), Keeps s a.2 →
      (∀ a x, Keeps s a.2 → Keeps s (f a x).2) → Keeps s (l.foldl f a).2 := by
    intro α f l
    induction l with
    | nil => intro a h _; exact h
    | cons x l ih => intro a h hf; exact ih _ (hf a x h) hf
  unfold returnRows; dsimp only
  exact fold _ _ h (fun a x k => keeps_ite (keeps_returnBundleReceive k) (keeps_emit k))

theorem keeps_sendReturns {s u : State} (h : Keeps s u) : Keeps s (sendReturns u) := by
  unfold sendReturns
  repeat' first
    | with_reducible assumption | (intro u; (try dsimp only)) | with_reducible apply keeps_setRound
    | with_reducible apply keeps_returnRows | with_reducible apply keeps_forEach | split

theorem keeps_routerRecords {s u : State} (h : Keeps s u) : Keeps s (routerRecords x1 x2 u) := by
  unfold routerRecords
  repeat' first
    | with_reducible assumption | (intro u; (try dsimp only)) | with_reducible apply keeps_ite
    | with_reducible apply keeps_raiseCtrl | with_reducible apply keeps_forEach
    | (simp only [keeps_mk, keeps_mkcells])

theorem keeps_fromPeer {s u : State} {g} {f : State → State} (h : Keeps s u) (hf : ∀ v, Keeps s v → Keeps s (f v)) :
    Keeps s (fromPeer g f u) := keeps_ite (hf _ h) h

theorem keeps_settlePort {s u : State} (h : Keeps s u) : Keeps s (settlePort x1 u) := by
  unfold settlePort
  repeat' first
    | with_reducible assumption | with_reducible apply keeps_ite | with_reducible apply keeps_raise
    | with_reducible apply keeps_capBump | (simp only [keeps_mk, keeps_mkcells])

theorem keeps_laneOutOfService {s u : State} (h : Keeps s u) : Keeps s (laneOutOfService x1 u) := by
  unfold laneOutOfService
  repeat' first
    | with_reducible assumption | with_reducible apply keeps_ite | with_reducible apply keeps_raise
    | with_reducible apply keeps_capBump | with_reducible apply keeps_setLane | with_reducible apply keeps_settlePort

theorem keeps_laneTestBegins {s u : State} (h : Keeps s u) : Keeps s (laneTestBegins x1 u) := by
  unfold laneTestBegins
  repeat' first | with_reducible assumption | (simp only [keeps_mk, keeps_mkcells])

theorem keeps_laneTestEnds {s u : State} (h : Keeps s u) : Keeps s (laneTestEnds x1 u) := by
  unfold laneTestEnds
  repeat' first | with_reducible assumption | (simp only [keeps_mk, keeps_mkcells])

theorem keeps_laneRecalibrationStart {s u : State} (h : Keeps s u) : Keeps s (laneRecalibrationStart x1 u) := by
  unfold laneRecalibrationStart
  repeat' first
    | with_reducible assumption | with_reducible apply keeps_ite | with_reducible apply keeps_capBump
    | with_reducible apply keeps_setLane | with_reducible apply keeps_settlePort
    | with_reducible apply keeps_laneTestBegins

theorem keeps_laneRecalibrationEnd {s u : State} (h : Keeps s u) : Keeps s (laneRecalibrationEnd x1 x2 u) := by
  unfold laneRecalibrationEnd
  repeat' first
    | with_reducible assumption | with_reducible apply keeps_ite | with_reducible apply keeps_capBump
    | with_reducible apply keeps_setLane | with_reducible apply keeps_settlePort
    | with_reducible apply keeps_laneTestEnds

theorem keeps_linkPortTrained {s u : State} (h : Keeps s u) : Keeps s (linkPortTrained x1 x2 x3 x4 u) := by
  unfold linkPortTrained
  repeat' first
    | with_reducible assumption | (intro u; (try dsimp only)) | with_reducible apply keeps_ite
    | with_reducible apply keeps_raise | with_reducible apply keeps_capBump | with_reducible apply keeps_setLane
    | with_reducible apply keeps_settlePort | with_reducible apply keeps_forEach
    | (simp only [keeps_mk, keeps_mkcells])

theorem keeps_winReply {s u : State} (h : Keeps s u) : Keeps s (winReply x1 x2 x3 x4 u) := by
  unfold winReply
  repeat' first | with_reducible assumption | with_reducible apply keeps_emit

theorem keeps_refuseAt {s u : State} (h : Keeps s u) : Keeps s (refuseAt x1 x2 x3 x4 u) := by
  unfold refuseAt
  repeat' first
    | with_reducible assumption | with_reducible apply keeps_ite | with_reducible apply keeps_raise
    | with_reducible apply keeps_winReply | (simp only [keeps_mk, keeps_mkcells])

theorem keeps_putCompletion {s u : State} (h : Keeps s u) : Keeps s (putCompletion x1 x2 x3 x4 u) := by
  unfold putCompletion
  repeat' first | with_reducible assumption | with_reducible apply keeps_ite | with_reducible apply keeps_portWrite

theorem keeps_setRing {s u : State} (h : Keeps s u) : Keeps s (setRing x1 x2 u) := h

theorem keeps_settleRing {s u : State} {k n} (h : Keeps s u) : Keeps s (settleRing k n u) := by
  have close : ∀ r v, Keeps s v → Keeps s (settleRing.close k r v) := fun r v h => keeps_unpinRoom (keeps_setRing h)
  induction n generalizing u with
  | zero => exact h
  | succ n ih =>
    unfold settleRing
    repeat' first | with_reducible assumption | with_reducible apply ih | with_reducible apply close | with_reducible apply keeps_ite | with_reducible apply keeps_setRing | with_reducible apply keeps_putCompletion | split

theorem keeps_settleRings {s u : State} (h : Keeps s u) : Keeps s (settleRings u) := by
  unfold settleRings
  repeat' first
    | with_reducible assumption | (intro u; (try dsimp only)) | with_reducible apply keeps_settleRing
    | with_reducible apply keeps_forEach

theorem keeps_settleDrain {s u : State} (h : Keeps s u) : Keeps s (settleDrain u) := h

theorem keeps_poisonRange {s u : State} (h : Keeps s u) : Keeps s (poisonRange x1 x2 u) := by
  unfold poisonRange
  repeat' first
    | with_reducible assumption | (intro u; (try dsimp only)) | with_reducible apply keeps_ite
    | with_reducible apply keeps_forEach | (simp only [keeps_mk, keeps_mkcells])

theorem keeps_endRequest {s u : State} (h : Keeps s u) : Keeps s (endRequest x1 x2 x3 x4 x5 u) := by
  unfold endRequest
  repeat' first
    | with_reducible assumption | with_reducible apply keeps_putCompletion | with_reducible apply keeps_setRing
    | with_reducible apply keeps_settleRing | with_reducible apply keeps_settleDrain | split

theorem keeps_loseRequest {s u : State} (h : Keeps s u) : Keeps s (loseRequest x1 x2 u) := by
  unfold loseRequest
  repeat' first
    | with_reducible assumption | with_reducible apply keeps_ite | with_reducible apply keeps_poisonRange
    | with_reducible apply keeps_endRequest | (simp only [keeps_mk, keeps_mkcells])

theorem keeps_loseRequests {s u : State} (h : Keeps s u) : Keeps s (loseRequests x1 u) := by
  unfold loseRequests
  repeat' first
    | with_reducible assumption | (intro u; (try dsimp only)) | with_reducible apply keeps_loseRequest
    | with_reducible apply keeps_forEach

theorem keeps_markUnreachable {s u : State} (h : Keeps s u) : Keeps s (markUnreachable x1 u) := by
  unfold markUnreachable
  repeat' first
    | with_reducible assumption | with_reducible apply keeps_raise | with_reducible apply keeps_emit
    | with_reducible apply keeps_endSnapshot | with_reducible apply keeps_dropTarget
    | with_reducible apply keeps_loseRequests | (simp only [keeps_mk, keeps_mkcells]) | split

theorem keeps_refuseEntry {s u : State} (h : Keeps s u) : Keeps s (refuseEntry x1 x2 x3 u) := by
  unfold refuseEntry
  repeat' first
    | with_reducible assumption | with_reducible apply keeps_putCompletion | with_reducible apply keeps_setRing
    | with_reducible apply keeps_settleRing

theorem keeps_issueEntry {s u : State} (h : Keeps s u) : Keeps s (issueEntry x1 x2 x3 x4 x5 x6 u) := by
  unfold issueEntry
  repeat' first | with_reducible assumption | with_reducible apply keeps_emit | with_reducible apply keeps_setRing

theorem keeps_entryRow {s u : State} {k e b} {f : ReqRing → State} (h : Keeps s u)
    (hf : ∀ r, Keeps s (f r)) : Keeps s (entryRow k e b f u) := by
  unfold entryRow; repeat' first | with_reducible apply hf | with_reducible assumption | with_reducible apply keeps_refuseEntry | split

theorem keeps_accessRow {s u : State} (h : Keeps s u) : Keeps s (accessRow x1 x2 x3 x4 u) := by
  unfold accessRow
  repeat' first
    | with_reducible assumption | (intro u; (try dsimp only)) | with_reducible apply keeps_refuseEntry
    | with_reducible apply keeps_issueEntry | with_reducible apply keeps_entryRow | split

theorem keeps_atomicRow {s u : State} (h : Keeps s u) : Keeps s (atomicRow x1 x2 x3 u) := by
  unfold atomicRow
  repeat' first
    | with_reducible assumption | (intro u; (try dsimp only)) | with_reducible apply keeps_refuseEntry
    | with_reducible apply keeps_issueEntry | with_reducible apply keeps_entryRow
    | (simp only [keeps_mk, keeps_mkcells]) | split

theorem keeps_resubmitRow {s u : State} (h : Keeps s u) : Keeps s (resubmitRow x1 x2 u) := by
  unfold resubmitRow
  repeat' first
    | with_reducible assumption | (intro u; (try dsimp only)) | with_reducible apply keeps_raise
    | with_reducible apply keeps_refuseEntry | with_reducible apply keeps_issueEntry
    | with_reducible apply keeps_entryRow | (simp only [keeps_mk, keeps_mkcells]) | split

theorem keeps_fenceRow {s u : State} (h : Keeps s u) : Keeps s (fenceRow x1 x2 u) := by
  unfold fenceRow
  repeat' first
    | with_reducible assumption | (intro u; (try dsimp only)) | with_reducible apply keeps_ite
    | with_reducible apply keeps_refuseEntry | with_reducible apply keeps_entryRow

theorem keeps_msgRow {s u : State} (h : Keeps s u) : Keeps s (msgRow x1 x2 u) := by
  unfold msgRow
  repeat' first
    | with_reducible assumption | (intro u; (try dsimp only)) | with_reducible apply keeps_ite
    | with_reducible apply keeps_refuseEntry | with_reducible apply keeps_issueEntry
    | with_reducible apply keeps_entryRow | (simp only [keeps_mk, keeps_mkcells])

theorem keeps_requestResponseArrival {s u : State} (h : Keeps s u) : Keeps s (requestResponseArrival x1 x2 x3 x4 x5 u) := by
  unfold requestResponseArrival
  repeat' first
    | with_reducible assumption | with_reducible apply keeps_ite | with_reducible apply keeps_portWrite
    | with_reducible apply keeps_endRequest | split

theorem keeps_sendAgain {s u : State} (h : Keeps s u) : Keeps s (sendAgain x1 u) := by
  unfold sendAgain
  repeat' first | with_reducible assumption | with_reducible apply keeps_ite | with_reducible apply keeps_emit

theorem keeps_requestTimeout {s u : State} (h : Keeps s u) : Keeps s (requestTimeout x1 x2 x3 u) := by
  unfold requestTimeout
  repeat' first
    | with_reducible assumption | with_reducible apply keeps_ite | with_reducible apply keeps_emit
    | with_reducible apply keeps_setRing | with_reducible apply keeps_settleDrain
    | with_reducible apply keeps_loseRequest | with_reducible apply keeps_markUnreachable | split

theorem keeps_switchPortDownReport {s u : State} (h : Keeps s u) : Keeps s (switchPortDownReport x1 u) := by
  unfold switchPortDownReport
  repeat' first | with_reducible assumption | with_reducible apply keeps_markUnreachable | split

theorem keeps_messageResendTimer {s u : State} (h : Keeps s u) : Keeps s (messageResendTimer x1 x2 x3 u) := by
  unfold messageResendTimer
  repeat' first
    | with_reducible assumption | with_reducible apply keeps_raise | with_reducible apply keeps_endRequest
    | with_reducible apply keeps_sendAgain | split

theorem keeps_messageAckTimeout {s u : State} (h : Keeps s u) : Keeps s (messageAckTimeout x1 x2 u) := by
  unfold messageAckTimeout
  repeat' first
    | with_reducible assumption | with_reducible apply keeps_raise | with_reducible apply keeps_setRing
    | with_reducible apply keeps_sendAgain | split

theorem keeps_putLine {s u : State} (h : Keeps s u) : Keeps s (putLine x1 x2 u) := by
  unfold putLine
  repeat' first | with_reducible assumption | (simp only [keeps_mk, keeps_mkcells])

theorem keeps_enqueue {s u : State} (h : Keeps s u) : Keeps s (enqueue x1 x2 x3 u) := by
  unfold enqueue
  repeat' first | with_reducible assumption | with_reducible apply keeps_putLine

theorem keeps_storeLine {s u : State} (h : Keeps s u) : Keeps s (storeLine x1 x2 x3 u) := by
  unfold storeLine
  repeat' first
    | with_reducible assumption | (intro u; (try dsimp only)) | with_reducible apply keeps_ite
    | with_reducible apply keeps_wr | with_reducible apply keeps_forEach

theorem keeps_readLine {s u : State} (h : Keeps s u) : Keeps s (readLine x1 x2 u) := by
  unfold readLine
  repeat' first
    | with_reducible assumption | with_reducible apply keeps_readEvent | with_reducible apply keeps_winReply
    | (simp only [keeps_mk, keeps_mkcells]) | split

theorem keeps_drainLoads {s u : State} {k n} (h : Keeps s u) : Keeps s (drainLoads k n u) := by
  induction n generalizing u with
  | zero => exact h
  | succ n ih =>
    unfold drainLoads
    split
    · exact ih (keeps_readLine (keeps_putLine h))
    · exact h

theorem keeps_remoteRequestArrival {s u : State} (h : Keeps s u) : Keeps s (remoteRequestArrival x1 u) := by
  unfold remoteRequestArrival
  repeat' first
    | with_reducible assumption | (intro u; (try dsimp only)) | with_reducible apply keeps_refuseAt
    | with_reducible apply keeps_enqueue | with_reducible apply keeps_readLine | with_reducible apply keeps_forEach
    | (simp only [keeps_mk, keeps_mkcells]) | split

theorem keeps_addReceipt {s u : State} (h : Keeps s u) : Keeps s (addReceipt x1 x2 u) := by
  unfold addReceipt
  repeat' first | with_reducible assumption | (simp only [keeps_mk, keeps_mkcells])

theorem keeps_winAnswer {s u : State} (h : Keeps s u) : Keeps s (winAnswer x1 x2 x3 x4 u) := by
  unfold winAnswer
  repeat' first | with_reducible assumption | with_reducible apply keeps_winReply

theorem keeps_performAtomic {s u : State} (h : Keeps s u) : Keeps s (performAtomic x1 x2 u) := by
  unfold performAtomic
  repeat' first
    | with_reducible assumption | with_reducible apply keeps_wr | with_reducible apply keeps_raise
    | with_reducible apply keeps_winReply | with_reducible apply keeps_addReceipt
    | with_reducible apply keeps_winAnswer | (simp only [keeps_mk, keeps_mkcells]) | split

theorem keeps_atomicArrival {s u : State} (h : Keeps s u) : Keeps s (atomicArrival x1 u) := by
  unfold atomicArrival
  repeat' first
    | with_reducible assumption | with_reducible apply keeps_ite | with_reducible apply keeps_refuseAt
    | with_reducible apply keeps_enqueue | with_reducible apply keeps_performAtomic | split

theorem keeps_coalescerSlot {s u : State} (h : Keeps s u) : Keeps s (coalescerSlot x1 u) := by
  unfold coalescerSlot
  repeat' first
    | with_reducible assumption | (intro u; (try dsimp only)) | with_reducible apply keeps_winReply
    | with_reducible apply keeps_putLine | with_reducible apply keeps_storeLine | with_reducible apply keeps_readLine
    | with_reducible apply keeps_drainLoads | with_reducible apply keeps_performAtomic
    | with_reducible apply keeps_forEach | (simp only [keeps_mk, keeps_mkcells]) | split

theorem keeps_hotLineTimeout {s u : State} (h : Keeps s u) : Keeps s (hotLineTimeout x1 u) := by
  unfold hotLineTimeout
  repeat' first
    | with_reducible assumption | with_reducible apply keeps_ite | with_reducible apply keeps_raise
    | with_reducible apply keeps_putLine

theorem keeps_messageArrival {s u : State} (h : Keeps s u) : Keeps s (messageArrival x1 x2 x3 x4 u) := by
  unfold messageArrival
  repeat' first
    | with_reducible assumption | with_reducible apply keeps_ite | with_reducible apply keeps_wr
    | with_reducible apply keeps_emit | split

theorem keeps_hostLinkTrained {s u : State} (h : Keeps s u) : Keeps s (hostLinkTrained x1 x2 x3 u) := by
  unfold hostLinkTrained
  repeat' first
    | with_reducible assumption | with_reducible apply keeps_raise | (simp only [keeps_mk, keeps_mkcells]) | split

theorem keeps_portAerError {s u : State} (h : Keeps s u) : Keeps s (portAerError x1 u) := by
  unfold portAerError
  repeat' first | with_reducible assumption | with_reducible apply keeps_ite | (simp only [keeps_mk, keeps_mkcells])

theorem keeps_doeDiscovery {s u : State} (h : Keeps s u) : Keeps s (doeDiscovery x1 u) := by
  unfold doeDiscovery
  repeat' first | with_reducible assumption | with_reducible apply keeps_emit | split

theorem keeps_protocolError {s u : State} (h : Keeps s u) : Keeps s (protocolError x1 x2 u) := by
  unfold protocolError
  repeat' first
    | with_reducible assumption | with_reducible apply keeps_raiseCtrl | with_reducible apply keeps_setMb
    | (simp only [keeps_mk, keeps_mkcells])

theorem keeps_doorbellSqTail {s u : State} (h : Keeps s u) : Keeps s (doorbellSqTail x1 x2 u) := by
  unfold doorbellSqTail
  repeat' first
    | with_reducible assumption | with_reducible apply keeps_ite | with_reducible apply keeps_setMb
    | with_reducible apply keeps_protocolError

theorem keeps_doorbellCqHead {s u : State} (h : Keeps s u) : Keeps s (doorbellCqHead x1 x2 u) := by
  unfold doorbellCqHead
  repeat' first
    | with_reducible assumption | with_reducible apply keeps_ite | with_reducible apply keeps_setMb
    | with_reducible apply keeps_settleMb | with_reducible apply keeps_protocolError

theorem keeps_rearmMb {s u : State} (h : Keeps s u) : Keeps s (rearmMb x1 u) := by
  unfold rearmMb
  repeat' first
    | with_reducible assumption | with_reducible apply keeps_ite | with_reducible apply keeps_setMb
    | (simp only [keeps_mk, keeps_mkcells])

theorem keeps_mbxErrClear {s u : State} (h : Keeps s u) : Keeps s (mbxErrClear x1 u) := by
  unfold mbxErrClear
  repeat' first
    | with_reducible assumption | (intro u; (try dsimp only)) | with_reducible apply keeps_rearmMb
    | with_reducible apply keeps_forEach

theorem keeps_setMisuse {s u : State} (h : Keeps s u) : Keeps s (setMisuse u) := h

theorem keeps_writeSq {s u : State} (h : Keeps s u) : Keeps s (writeSq x1 x2 x3 u) := by
  unfold writeSq
  repeat' first | with_reducible assumption | with_reducible apply keeps_setMb

theorem keeps_writeBell {s u : State} (h : Keeps s u) : Keeps s (writeBell x1 x2 x3 u) := by
  unfold writeBell
  repeat' first
    | with_reducible assumption | with_reducible apply keeps_ite | with_reducible apply keeps_doorbellSqTail
    | with_reducible apply keeps_doorbellCqHead

theorem keeps_writeStatus {s u : State} (h : Keeps s u) : Keeps s (writeStatus x1 x2 u) := by
  unfold writeStatus
  repeat' first
    | with_reducible assumption | with_reducible apply keeps_mbxErrClear | (simp only [keeps_mk, keeps_mkcells])
    | split

theorem keeps_registerWrite {s u : State} (h : Keeps s u) : Keeps s (registerWrite x1 x2 x3 u) := by
  unfold registerWrite
  repeat' first
    | with_reducible assumption | with_reducible apply keeps_ite | with_reducible apply keeps_setMisuse
    | with_reducible apply keeps_writeSq | with_reducible apply keeps_writeBell
    | with_reducible apply keeps_writeStatus | (simp only [keeps_mk, keeps_mkcells])

theorem keeps_bar0InvalidAccess {s u : State} (h : Keeps s u) : Keeps s (bar0InvalidAccess x1 x2 u) := by
  unfold bar0InvalidAccess
  repeat' first
    | with_reducible assumption | with_reducible apply keeps_ite | with_reducible apply keeps_emit
    | with_reducible apply keeps_setMisuse

theorem keeps_noMemory {s u : State} (h : Keeps s u) : Keeps s (noMemory x1 x2 u) := by
  unfold noMemory
  repeat' first
    | with_reducible assumption | with_reducible apply keeps_ite | with_reducible apply keeps_raise
    | (simp only [keeps_mk, keeps_mkcells])

theorem keeps_bar2Write {s u : State} (h : Keeps s u) : Keeps s (bar2Write x1 x2 x3 x4 u) := by
  unfold bar2Write
  repeat' first
    | with_reducible assumption | with_reducible apply keeps_raise | with_reducible apply keeps_homeWrite
    | with_reducible apply keeps_noMemory | split

theorem keeps_bar2Read {s u : State} (h : Keeps s u) : Keeps s (bar2Read x1 x2 x3 u) := by
  unfold bar2Read
  repeat' first
    | with_reducible assumption | with_reducible apply keeps_emit | with_reducible apply keeps_readEvent
    | with_reducible apply keeps_noMemory | split

theorem keeps_dmaSend {s u : State} {es bs} (h : Keeps s u) : Keeps s (dmaSend es bs u) := by
  induction es generalizing u bs with
  | nil => exact h
  | cons e es ih => exact ih (keeps_emit h)

theorem keeps_dmaTransferDone {s u : State} (h : Keeps s u) : Keeps s (dmaTransferDone x1 x2 u) := by
  unfold dmaTransferDone
  repeat' first
    | with_reducible assumption | with_reducible apply keeps_readEvent | with_reducible apply keeps_finish
    | with_reducible apply keeps_portWrite | with_reducible apply keeps_dmaFails | with_reducible apply keeps_dmaSend
    | (simp only [keeps_mk, keeps_mkcells]) | split

theorem keeps_turnAwayEntry {s u : State} (h : Keeps s u) : Keeps s (turnAwayEntry x1 x2 x3 u) := by
  unfold turnAwayEntry
  repeat' first | with_reducible assumption | with_reducible apply keeps_turnAway

theorem keeps_queueMessage {s u : State} (h : Keeps s u) : Keeps s (queueMessage x1 x2 x3 u) := by
  unfold queueMessage
  repeat' first | with_reducible assumption | with_reducible apply keeps_setMb

theorem keeps_bmcMessageArrival {s u : State} (h : Keeps s u) : Keeps s (bmcMessageArrival x1 x2 u) := by
  unfold bmcMessageArrival
  repeat' first
    | with_reducible assumption | with_reducible apply keeps_ite | with_reducible apply keeps_turnAwayEntry
    | with_reducible apply keeps_queueMessage

theorem keeps_fmMessageArrival {s u : State} (h : Keeps s u) : Keeps s (fmMessageArrival x1 x2 u) := by
  unfold fmMessageArrival
  repeat' first | with_reducible assumption | with_reducible apply keeps_ite | with_reducible apply keeps_queueMessage

theorem keeps_snapTake {s u : State} (h : Keeps s u) : Keeps s (snapTake x1 x2 u).2 := by
  unfold snapTake
  repeat' first
    | with_reducible assumption | with_reducible apply keeps_reply | with_reducible apply keeps_badInline
    | (simp only [keeps_mk, keeps_mkcells]) | split

theorem keeps_snapTake_eq {s u v : State} {x} (e : snapTake x1 x2 u = (x, v)) (h : Keeps s u) :
    Keeps s v := keeps_snd e (keeps_snapTake (x1 := x1) (x2 := x2) h)

theorem keeps_snapAbort {s u : State} (h : Keeps s u) : Keeps s (snapAbort x1 x2 u).2 := by
  unfold snapAbort
  repeat' first
    | with_reducible assumption | with_reducible apply keeps_ok | with_reducible apply keeps_reply
    | with_reducible apply keeps_endSnapshot | with_reducible apply keeps_driveRest | split

theorem keeps_snapAbort_eq {s u v : State} {x} (e : snapAbort x1 x2 u = (x, v)) (h : Keeps s u) :
    Keeps s v := keeps_snd e (keeps_snapAbort (x1 := x1) (x2 := x2) h)

theorem keeps_storeForm {s u : State} (h : Keeps s u) : Keeps s (storeForm x1 x2 u).2 := by
  unfold storeForm
  repeat' first
    | with_reducible assumption | with_reducible apply keeps_ok | with_reducible apply keeps_reply
    | with_reducible apply keeps_badExt | (simp only [keeps_mk, keeps_mkcells]) | split

theorem keeps_storeForm_eq {s u v : State} {x} (e : storeForm x1 x2 u = (x, v)) (h : Keeps s u) :
    Keeps s v := keeps_snd e (keeps_storeForm (x1 := x1) (x2 := x2) h)

theorem keeps_driveRescan {s u : State} (h : Keeps s u) : Keeps s (driveRescan x1 x2 u).2 := by
  unfold driveRescan
  repeat' first
    | with_reducible assumption | with_reducible apply keeps_ok | with_reducible apply keeps_reply
    | with_reducible apply keeps_enumerateDrives | split

theorem keeps_driveRescan_eq {s u v : State} {x} (e : driveRescan x1 x2 u = (x, v)) (h : Keeps s u) :
    Keeps s v := keeps_snd e (keeps_driveRescan (x1 := x1) (x2 := x2) h)

theorem keeps_shipMessages {s u : State} (h : Keeps s u) : Keeps s (shipMessages x1 x2 x3 u) := by
  unfold shipMessages
  repeat' first
    | with_reducible assumption | (intro u; (try dsimp only)) | with_reducible apply keeps_emit
    | with_reducible apply keeps_forEach | (simp only [keeps_mk, keeps_mkcells])

theorem keeps_shipWrites {s u : State} (h : Keeps s u) : Keeps s (shipWrites x1 x2 x3 x4 u) := by
  unfold shipWrites
  repeat' first
    | with_reducible assumption | (intro u; (try dsimp only)) | with_reducible apply keeps_emit
    | with_reducible apply keeps_forEach

theorem keeps_ship {s u : State} (h : Keeps s u) : Keeps s (ship x1 x2 x3 x4 u) := by
  unfold ship
  repeat' first
    | with_reducible assumption | with_reducible apply keeps_ite | with_reducible apply keeps_emit
    | with_reducible apply keeps_shipMessages | with_reducible apply keeps_shipWrites

theorem keeps_snapRooms_eq {s u v : State} {n x y} (e : snapRooms n u = some (x, y, v)) (h : Keeps s u) : Keeps s v := by
  unfold snapRooms at e
  split at e
  · cases e; exact h
  · split at e
    · cases e
    · split at e
      · cases e
      · rename_i e1 _ _ _ e2
        cases e
        exact keeps_grantRoom_eq e2 (keeps_grantRoom_eq e1 h)

theorem keeps_snapShipped {s u : State} (h : Keeps s u) : Keeps s (snapShipped u) := by
  unfold snapShipped
  repeat' first
    | with_reducible assumption | (intro u; (try dsimp only)) | with_reducible apply keeps_raiseCtrl
    | with_reducible apply keeps_emit | with_reducible apply keeps_dropSnapshot | with_reducible apply keeps_driveRest
    | with_reducible apply keeps_ship | with_reducible apply keeps_forEach | split

theorem keeps_snapshotMark {s u : State} (h : Keeps s u) : Keeps s (snapshotMark u) := by
  unfold snapshotMark
  repeat' first
    | with_reducible assumption | (intro u; (try dsimp only)) | with_reducible apply keeps_pinRoom
    | with_reducible apply keeps_endSnapshot | with_reducible apply keeps_driveWork
    | with_reducible refine keeps_snapRooms_eq (by with_reducible assumption) ?_
    | with_reducible apply keeps_snapShipped | with_reducible apply keeps_forEach
    | (simp only [keeps_mk, keeps_mkcells]) | split

theorem keeps_snapshotChunkShipped {s u : State} (h : Keeps s u) : Keeps s (snapshotChunkShipped x1 x2 u) := by
  unfold snapshotChunkShipped
  repeat' first
    | with_reducible assumption | with_reducible apply keeps_poisonEvent | with_reducible apply keeps_endSnapshot
    | with_reducible apply keeps_settleSnapPins | with_reducible apply keeps_driveRest
    | with_reducible apply keeps_ship | with_reducible apply keeps_snapShipped | (simp only [keeps_mk, keeps_mkcells])
    | split

theorem keeps_bindMb {s u : State} (h : Keeps s u) : Keeps s (bindMb x1 x2 u) := by
  unfold bindMb
  repeat' first | with_reducible assumption | with_reducible apply keeps_setMb

theorem keeps_openSession {s u : State} (h : Keeps s u) : Keeps s (openSession x1 x2 x3 x4 u).2 := by
  unfold openSession
  repeat' first
    | with_reducible assumption | with_reducible apply keeps_ite | with_reducible apply keeps_capBump
    | with_reducible apply keeps_bindMb | (simp only [keeps_mk, keeps_mkcells])

theorem keeps_openSession_eq {s u v : State} {x} (e : openSession x1 x2 x3 x4 u = (x, v)) (h : Keeps s u) :
    Keeps s v := keeps_snd e (keeps_openSession (x1 := x1) (x2 := x2) (x3 := x3) (x4 := x4) h)

theorem keeps_sessionOpen {s u : State} (h : Keeps s u) : Keeps s (sessionOpen x1 x2 x3 x4 x5 u).2 := by
  unfold sessionOpen
  repeat' first
    | with_reducible assumption | with_reducible apply keeps_reply | with_reducible apply keeps_badInline
    | with_reducible apply keeps_bindMb | with_reducible apply keeps_openSession
    | (simp only [keeps_mk, keeps_mkcells]) | split

theorem keeps_sessionOpen_eq {s u v : State} {x} (e : sessionOpen x1 x2 x3 x4 x5 u = (x, v)) (h : Keeps s u) :
    Keeps s v := keeps_snd e (keeps_sessionOpen (x1 := x1) (x2 := x2) (x3 := x3) (x4 := x4) (x5 := x5) h)

theorem keeps_sessionClose {s u : State} (h : Keeps s u) : Keeps s (sessionClose x1 u).2 := by
  unfold sessionClose
  repeat' first
    | with_reducible assumption | with_reducible apply keeps_ok | with_reducible apply keeps_endSession
    | (simp only [keeps_mk, keeps_mkcells]) | split

theorem keeps_sessionClose_eq {s u v : State} {x} (e : sessionClose x1 u = (x, v)) (h : Keeps s u) :
    Keeps s v := keeps_snd e (keeps_sessionClose (x1 := x1) h)

theorem keeps_sessionConsent {s u : State} (h : Keeps s u) : Keeps s (sessionConsent x1 x2 u).2 := by
  unfold sessionConsent
  repeat' first
    | with_reducible assumption | with_reducible apply keeps_ok | with_reducible apply keeps_badInline
    | with_reducible apply keeps_cancelTowerTests | (simp only [keeps_mk, keeps_mkcells]) | split

theorem keeps_sessionConsent_eq {s u v : State} {x} (e : sessionConsent x1 x2 u = (x, v)) (h : Keeps s u) :
    Keeps s v := keeps_snd e (keeps_sessionConsent (x1 := x1) (x2 := x2) h)

theorem keeps_roomRequest {s u : State} (h : Keeps s u) : Keeps s (roomRequest x1 x2 x3 u).2 := by
  unfold roomRequest
  repeat' first
    | with_reducible assumption | with_reducible refine keeps_grantRoom_eq (by with_reducible assumption) ?_
    | with_reducible apply keeps_reply | with_reducible apply keeps_badInline | split

theorem keeps_roomRequest_eq {s u v : State} {x} (e : roomRequest x1 x2 x3 u = (x, v)) (h : Keeps s u) :
    Keeps s v := keeps_snd e (keeps_roomRequest (x1 := x1) (x2 := x2) (x3 := x3) h)

theorem keeps_ownRoom {s u : State} {r o p} {k : Room → Ans × State} (h : Keeps s u) (hk : ∀ m, Keeps s (k m).2) :
    Keeps s (ownRoom r o p u k).2 := by
  unfold ownRoom; repeat' first
    | with_reducible apply hk | with_reducible assumption | with_reducible apply keeps_reply
    | with_reducible apply keeps_badInline | split

theorem keeps_roomRelease {s u : State} (h : Keeps s u) : Keeps s (roomRelease x1 x2 u).2 := by
  unfold roomRelease
  repeat' first
    | with_reducible assumption | (intro u; (try dsimp only)) | with_reducible apply keeps_releaseNow
    | with_reducible apply keeps_ok | with_reducible apply keeps_reply | with_reducible apply keeps_ownRoom | split

theorem keeps_roomRelease_eq {s u v : State} {x} (e : roomRelease x1 x2 u = (x, v)) (h : Keeps s u) :
    Keeps s v := keeps_snd e (keeps_roomRelease (x1 := x1) (x2 := x2) h)

theorem keeps_roomCommit {s u : State} (h : Keeps s u) : Keeps s (roomCommit x1 x2 u).2 := by
  unfold roomCommit
  repeat' first
    | with_reducible assumption | (intro u; (try dsimp only)) | with_reducible apply keeps_updRoom
    | with_reducible apply keeps_commitRoom | with_reducible apply keeps_reply | with_reducible apply keeps_ownRoom
    | split

theorem keeps_roomCommit_eq {s u v : State} {x} (e : roomCommit x1 x2 u = (x, v)) (h : Keeps s u) :
    Keeps s v := keeps_snd e (keeps_roomCommit (x1 := x1) (x2 := x2) h)

theorem keeps_quotaSet {s u : State} (h : Keeps s u) : Keeps s (quotaSet x1 x2 x3 u).2 := by
  unfold quotaSet
  repeat' first
    | with_reducible assumption | with_reducible apply keeps_ok | with_reducible apply keeps_reply
    | with_reducible apply keeps_badInline | (simp only [keeps_mk, keeps_mkcells]) | split

theorem keeps_quotaSet_eq {s u v : State} {x} (e : quotaSet x1 x2 x3 u = (x, v)) (h : Keeps s u) :
    Keeps s v := keeps_snd e (keeps_quotaSet (x1 := x1) (x2 := x2) (x3 := x3) h)

theorem keeps_roomQuery {s u : State} (h : Keeps s u) : Keeps s (roomQuery x1 x2 u).2 := by
  unfold roomQuery
  repeat' first | with_reducible assumption | with_reducible apply keeps_badInline | split

theorem keeps_roomQuery_eq {s u v : State} {x} (e : roomQuery x1 x2 u = (x, v)) (h : Keeps s u) :
    Keeps s v := keeps_snd e (keeps_roomQuery (x1 := x1) (x2 := x2) h)

theorem keeps_setAperture {s u : State} (h : Keeps s u) : Keeps s (setAperture x1 x2 u) := by
  unfold setAperture
  repeat' first | with_reducible assumption | (simp only [keeps_mk, keeps_mkcells])

theorem keeps_apertureMap {s u : State} (h : Keeps s u) : Keeps s (apertureMap x1 x2 x3 x4 x5 x6 x7 u).2 := by
  unfold apertureMap
  repeat' first
    | with_reducible assumption | (intro u; (try dsimp only)) | with_reducible apply keeps_ok
    | with_reducible apply keeps_badInline | with_reducible apply keeps_ownRoom
    | with_reducible apply keeps_setAperture | split

theorem keeps_apertureMap_eq {s u v : State} {x} (e : apertureMap x1 x2 x3 x4 x5 x6 x7 u = (x, v)) (h : Keeps s u) :
    Keeps s v := keeps_snd e (keeps_apertureMap (x1 := x1) (x2 := x2) (x3 := x3) (x4 := x4) (x5 := x5) (x6 := x6) (x7 := x7) h)

theorem keeps_apertureUnmap {s u : State} (h : Keeps s u) : Keeps s (apertureUnmap x1 x2 u).2 := by
  unfold apertureUnmap
  repeat' first
    | with_reducible assumption | with_reducible apply keeps_ok | with_reducible apply keeps_badInline
    | with_reducible apply keeps_setAperture | split

theorem keeps_apertureUnmap_eq {s u v : State} {x} (e : apertureUnmap x1 x2 u = (x, v)) (h : Keeps s u) :
    Keeps s v := keeps_snd e (keeps_apertureUnmap (x1 := x1) (x2 := x2) h)

theorem keeps_dmaCopy {s u : State} (h : Keeps s u) : Keeps s (dmaCopy x1 x2 x3 x4 x5 x6 u).2 := by
  unfold dmaCopy
  repeat' first
    | with_reducible assumption | (intro u; (try dsimp only)) | with_reducible apply keeps_badInline
    | with_reducible apply keeps_ownRoom | (simp only [keeps_mk, keeps_mkcells]) | split

theorem keeps_dmaCopy_eq {s u v : State} {x} (e : dmaCopy x1 x2 x3 x4 x5 x6 u = (x, v)) (h : Keeps s u) :
    Keeps s v := keeps_snd e (keeps_dmaCopy (x1 := x1) (x2 := x2) (x3 := x3) (x4 := x4) (x5 := x5) (x6 := x6) h)

theorem keeps_ledgerRead {s u : State} (h : Keeps s u) : Keeps s (ledgerRead x1 x2 x3 u).2 := by
  unfold ledgerRead
  assumption

theorem keeps_ledgerRead_eq {s u v : State} {x} (e : ledgerRead x1 x2 x3 u = (x, v)) (h : Keeps s u) :
    Keeps s v := keeps_snd e (keeps_ledgerRead (x1 := x1) (x2 := x2) (x3 := x3) h)

theorem keeps_eventRead {s u : State} (h : Keeps s u) : Keeps s (eventRead x1 x2 x3 u).2 := by
  unfold eventRead
  repeat' first | with_reducible assumption | with_reducible apply keeps_ite | (simp only [keeps_mk, keeps_mkcells])

theorem keeps_eventRead_eq {s u v : State} {x} (e : eventRead x1 x2 x3 u = (x, v)) (h : Keeps s u) :
    Keeps s v := keeps_snd e (keeps_eventRead (x1 := x1) (x2 := x2) (x3 := x3) h)

theorem keeps_ringRead {s u : State} (h : Keeps s u) : Keeps s (ringRead x1 x2 x3 x4 u).2 := by
  unfold ringRead
  repeat' first | with_reducible assumption | with_reducible apply keeps_badInline | split

theorem keeps_ringRead_eq {s u v : State} {x} (e : ringRead x1 x2 x3 x4 u = (x, v)) (h : Keeps s u) :
    Keeps s v := keeps_snd e (keeps_ringRead (x1 := x1) (x2 := x2) (x3 := x3) (x4 := x4) h)

theorem keeps_telemetryRead {s u : State} (h : Keeps s u) : Keeps s (telemetryRead x1 x2 u).2 := by
  unfold telemetryRead
  repeat' first | with_reducible assumption | with_reducible apply keeps_badInline | split

theorem keeps_telemetryRead_eq {s u v : State} {x} (e : telemetryRead x1 x2 u = (x, v)) (h : Keeps s u) :
    Keeps s v := keeps_snd e (keeps_telemetryRead (x1 := x1) (x2 := x2) h)

theorem keeps_setLodge {s u : State} (h : Keeps s u) : Keeps s (setLodge x1 u) := h

theorem keeps_sendLodgeRequest {s u : State} (h : Keeps s u) : Keeps s (sendLodgeRequest x1 x2 u) := by
  unfold sendLodgeRequest
  repeat' first | with_reducible assumption | with_reducible apply keeps_emit | with_reducible apply keeps_setLodge

theorem keeps_lodgePair {s u : State} (h : Keeps s u) : Keeps s (lodgePair x1 x2 x3 x4 u).2 := by
  unfold lodgePair
  repeat' first
    | with_reducible assumption | with_reducible apply keeps_reply | with_reducible apply keeps_badInline
    | with_reducible apply keeps_sendLodgeRequest | split

theorem keeps_lodgePair_eq {s u v : State} {x} (e : lodgePair x1 x2 x3 x4 u = (x, v)) (h : Keeps s u) :
    Keeps s v := keeps_snd e (keeps_lodgePair (x1 := x1) (x2 := x2) (x3 := x3) (x4 := x4) h)

theorem keeps_lodgingAnswerArrival {s u : State} (h : Keeps s u) : Keeps s (lodgingAnswerArrival x1 x2 u) := by
  unfold lodgingAnswerArrival
  repeat' first
    | with_reducible assumption | with_reducible apply keeps_raiseCtrl | with_reducible apply keeps_capBump
    | with_reducible apply keeps_finish | with_reducible apply keeps_setLodge | split

theorem keeps_lodgingAnswerTimeout {s u : State} (h : Keeps s u) : Keeps s (lodgingAnswerTimeout u) := by
  unfold lodgingAnswerTimeout
  repeat' first | with_reducible assumption | with_reducible apply keeps_lodgingAnswerArrival

theorem keeps_partnerLost {s u : State} (h : Keeps s u) : Keeps s (partnerLost u) := by
  unfold partnerLost
  repeat' first
    | with_reducible assumption | with_reducible apply keeps_ite | with_reducible apply keeps_raiseCtrl
    | with_reducible apply keeps_capBump | with_reducible apply keeps_setLodge

theorem keeps_lodgeBoundary {s u : State} (h : Keeps s u) : Keeps s (lodgeBoundary x1 x2 u) := by
  unfold lodgeBoundary
  repeat' first
    | with_reducible assumption | with_reducible apply keeps_ite | with_reducible apply keeps_raiseCtrl
    | with_reducible apply keeps_emit | with_reducible apply keeps_setLodge
    | with_reducible apply keeps_sendLodgeRequest | with_reducible apply keeps_partnerLost | split

theorem keeps_lodgingRoom_eq {s u v : State} {n x} (e : lodgingRoom n u = some (x, v)) (h : Keeps s u) : Keeps s v := by
  unfold lodgingRoom at e
  simp only [Option.map_eq_some_iff] at e
  obtain ⟨⟨k, w⟩, e1, e2⟩ := e
  cases e2
  exact keeps_grantRoom_eq e1 h

theorem keeps_answerLodger {s u : State} (h : Keeps s u) : Keeps s (answerLodger x1 x2 u) := by
  unfold answerLodger
  repeat' first | with_reducible assumption | with_reducible apply keeps_emit

theorem keeps_lodgingRequestArrival {s u : State} (h : Keeps s u) : Keeps s (lodgingRequestArrival x1 x2 x3 x4 x5 u) := by
  unfold lodgingRequestArrival
  repeat' first
    | with_reducible assumption | with_reducible apply keeps_ite | with_reducible apply keeps_raiseCtrl
    | with_reducible apply keeps_capBump | with_reducible apply keeps_releaseNow | with_reducible apply keeps_setLodge
    | with_reducible refine keeps_lodgingRoom_eq (by with_reducible assumption) ?_
    | with_reducible apply keeps_answerLodger | split

theorem keeps_lodgedTensorReceived {s u : State} (h : Keeps s u) : Keeps s (lodgedTensorReceived x1 x2 x3 x4 x5 u) := by
  unfold lodgedTensorReceived
  repeat' first
    | with_reducible assumption | with_reducible apply keeps_wr | with_reducible apply keeps_emit
    | with_reducible apply keeps_setLodge | (simp only [keeps_mk, keeps_mkcells]) | split

theorem keeps_tailRoom_eq {s u v : State} {x} (e : tailRoom u = some (x, v)) (h : Keeps s u) : Keeps s v := by
  unfold tailRoom at e
  split at e
  · cases e; exact h
  · simp only [Option.map_eq_some_iff] at e
    obtain ⟨⟨k, w⟩, e1, e2⟩ := e
    cases e2
    exact keeps_grantRoom_eq e1 h

theorem keeps_lodgePromote {s u : State} (h : Keeps s u) : Keeps s (lodgePromote x1 x2 u).2 := by
  unfold lodgePromote
  repeat' first
    | with_reducible assumption | with_reducible apply keeps_wr | with_reducible apply keeps_raiseCtrl
    | with_reducible apply keeps_reply | with_reducible apply keeps_setLodge
    | with_reducible refine keeps_tailRoom_eq (by with_reducible assumption) ?_
    | (simp only [keeps_mk, keeps_mkcells]) | split

theorem keeps_lodgePromote_eq {s u v : State} {x} (e : lodgePromote x1 x2 u = (x, v)) (h : Keeps s u) :
    Keeps s v := keeps_snd e (keeps_lodgePromote (x1 := x1) (x2 := x2) h)

theorem keeps_stateFetchRequestArrival {s u : State} (h : Keeps s u) :
    Keeps s (stateFetchRequestArrival x1 x2 x3 x4 u) := by
  unfold stateFetchRequestArrival
  repeat' first
    | with_reducible assumption | with_reducible apply keeps_emit | with_reducible apply keeps_poisonEvent | split

theorem keeps_dropUnapplied {s u : State} (h : Keeps s u) : Keeps s (dropUnapplied x1 u) := by
  unfold dropUnapplied
  repeat' first
    | with_reducible assumption | (intro u; (try dsimp only)) | with_reducible apply keeps_updRoom
    | with_reducible apply keeps_unpinRoom | with_reducible apply keeps_forEach | split

theorem keeps_addVersion_eq {s u v : State} {r n} (e : addVersion r n u = some v) (h : Keeps s u) : Keeps s v := by
  unfold addVersion at e
  simp only [Option.bind_eq_some_iff, Option.map_eq_some_iff] at e
  obtain ⟨_, -, _, -, e⟩ := e
  cases e
  exact keeps_updRoom (keeps_pinRoom (keeps_updRoom h))

theorem keeps_addVersions_eq {s u v : State} {r us} (e : addVersions r us u = some v) (h : Keeps s u) : Keeps s v := by
  induction us generalizing u with
  | nil => cases e; exact h
  | cons o os ih =>
    simp only [addVersions, Option.bind_eq_some_iff] at e
    obtain ⟨w, e1, e2⟩ := e
    exact ih e2 (keeps_addVersion_eq e1 h)

theorem keeps_openImage_eq {s u v : State} {m es} (e : openImage m es u = some v) (h : Keeps s u) : Keeps s v := by
  induction es generalizing u with
  | nil => cases e; exact h
  | cons o os ih =>
    simp only [openImage, Option.bind_eq_some_iff] at e
    obtain ⟨w, e1, e2⟩ := e
    exact ih e2 (keeps_addVersions_eq e1 (keeps_dropUnapplied h))

theorem keeps_putPart {s u : State} (h : Keeps s u) : Keeps s (putPart x1 x2 x3 u) := by
  unfold putPart
  repeat' first
    | with_reducible assumption | with_reducible apply keeps_wr | (simp only [keeps_mk, keeps_mkcells]) | split

theorem keeps_zeroState {s u : State} {p e} (h : Keeps s u) : Keeps s (zeroState p e u) :=
  keeps_forEach h (fun _ _ k => keeps_mem k rfl (fun w => wf_zero _ _ w))

theorem keeps_freshDigests {s u : State} (h : Keeps s u) : Keeps s (freshDigests x1 x2 x3 u) := by
  unfold freshDigests
  repeat' first
    | with_reducible assumption | (intro u; (try dsimp only)) | with_reducible apply keeps_wr
    | with_reducible apply keeps_forEach

theorem keeps_restoreDone {s u : State} (h : Keeps s u) : Keeps s (restoreDone u) := by
  unfold restoreDone
  repeat' first
    | with_reducible assumption | (intro u; (try dsimp only)) | with_reducible apply keeps_raiseCtrl
    | with_reducible apply keeps_releaseNow | with_reducible apply keeps_driveRest
    | with_reducible apply keeps_endRestore | with_reducible apply keeps_setApplied
    | with_reducible apply keeps_setDigested | with_reducible apply keeps_freeStaging
    | with_reducible apply keeps_setScaled | with_reducible apply keeps_zeroState
    | with_reducible apply keeps_freshDigests | with_reducible apply keeps_forEach
    | (simp only [keeps_mk, keeps_mkcells]) | split

theorem keeps_beginRestore {s u : State} (h : Keeps s u) : Keeps s (beginRestore x1 x2 x3 x4 x5 u) := by
  unfold beginRestore
  repeat' first
    | with_reducible assumption | (intro u; (try dsimp only)) | with_reducible apply keeps_raiseCtrl
    | with_reducible apply keeps_releaseNow | with_reducible apply keeps_driveWork
    | with_reducible apply keeps_freeStaging
    | with_reducible refine keeps_openImage_eq (by with_reducible assumption) ?_
    | with_reducible apply keeps_restoreDone | with_reducible apply keeps_forEach
    | (simp only [keeps_mk, keeps_mkcells]) | split

theorem keeps_restore {s u : State} (h : Keeps s u) : Keeps s (restore x1 x2 x3 x4 x5 u).2 := by
  unfold restore
  repeat' first
    | with_reducible assumption | with_reducible refine keeps_grantRoom_eq (by with_reducible assumption) ?_
    | with_reducible apply keeps_reply | with_reducible apply keeps_badInline
    | with_reducible apply keeps_beginRestore | split

theorem keeps_restore_eq {s u v : State} {x} (e : restore x1 x2 x3 x4 x5 u = (x, v)) (h : Keeps s u) :
    Keeps s v := keeps_snd e (keeps_restore (x1 := x1) (x2 := x2) (x3 := x3) (x4 := x4) (x5 := x5) h)

theorem keeps_restoreChunkRead {s u : State} (h : Keeps s u) : Keeps s (restoreChunkRead x1 x2 x3 u) := by
  unfold restoreChunkRead
  repeat' first
    | with_reducible assumption | (intro u; (try dsimp only)) | with_reducible apply keeps_raiseCtrl
    | with_reducible apply keeps_driveRest | with_reducible apply keeps_endRestore
    | with_reducible apply keeps_putPart | with_reducible apply keeps_restoreDone | with_reducible apply keeps_forEach
    | (simp only [keeps_mk, keeps_mkcells]) | split

theorem keeps_setFab {s u : State} (h : Keeps s u) : Keeps s (setFab x1 u) := h

theorem keeps_moduleIdSet {s u : State} (h : Keeps s u) : Keeps s (moduleIdSet x1 x2 u).2 := by
  unfold moduleIdSet
  repeat' first
    | with_reducible assumption | with_reducible apply keeps_capBump | with_reducible apply keeps_ok
    | with_reducible apply keeps_reply | with_reducible apply keeps_setFab | split

theorem keeps_moduleIdSet_eq {s u v : State} {x} (e : moduleIdSet x1 x2 u = (x, v)) (h : Keeps s u) :
    Keeps s v := keeps_snd e (keeps_moduleIdSet (x1 := x1) (x2 := x2) h)

theorem keeps_revalidate {s u : State} (h : Keeps s u) : Keeps s (revalidate x1 u) := by
  unfold revalidate
  repeat' first | with_reducible assumption | with_reducible apply keeps_setFab

theorem keeps_dropTargets {s u : State} (h : Keeps s u) : Keeps s (dropTargets x1 u) := by
  unfold dropTargets
  repeat' first
    | with_reducible assumption | (intro u; (try dsimp only)) | with_reducible apply keeps_dropTarget
    | with_reducible apply keeps_forEach

theorem keeps_afterFormation {s u : State} (h : Keeps s u) : Keeps s (afterFormation x1 x2 u) := by
  unfold afterFormation
  repeat' first
    | with_reducible assumption | with_reducible apply keeps_ite | with_reducible apply keeps_closeByManager
    | with_reducible apply keeps_closeRoundsWithout | with_reducible apply keeps_partnerLost
    | with_reducible apply keeps_dropTargets

theorem keeps_domainForm {s u : State} (h : Keeps s u) : Keeps s (domainForm x1 x2 x3 x4 u).2 := by
  unfold domainForm
  repeat' first
    | with_reducible assumption | with_reducible apply keeps_raiseCtrl | with_reducible apply keeps_ok
    | with_reducible apply keeps_reply | with_reducible apply keeps_badInline | with_reducible apply keeps_badExt
    | with_reducible apply keeps_setFab | with_reducible apply keeps_revalidate
    | with_reducible apply keeps_afterFormation | (simp only [keeps_mk, keeps_mkcells]) | split

theorem keeps_domainForm_eq {s u v : State} {x} (e : domainForm x1 x2 x3 x4 u = (x, v)) (h : Keeps s u) :
    Keeps s v := keeps_snd e (keeps_domainForm (x1 := x1) (x2 := x2) (x3 := x3) (x4 := x4) h)

theorem keeps_closeLostMarks {s u : State} (h : Keeps s u) : Keeps s (closeLostMarks x1 u) := by
  unfold closeLostMarks
  repeat' first
    | with_reducible assumption | (intro u; (try dsimp only)) | with_reducible apply keeps_updRound
    | with_reducible apply keeps_settleRound | with_reducible apply keeps_forEach

theorem keeps_clearValid {s u : State} (h : Keeps s u) : Keeps s (clearValid u) := by
  unfold clearValid
  repeat' first | with_reducible assumption | with_reducible apply keeps_setFab

theorem keeps_domainTeardown {s u : State} (h : Keeps s u) : Keeps s (domainTeardown x1 x2 u).2 := by
  unfold domainTeardown
  repeat' first
    | with_reducible assumption | with_reducible apply keeps_raiseCtrl | with_reducible apply keeps_ok
    | with_reducible apply keeps_reply | with_reducible apply keeps_badInline | with_reducible apply keeps_endSnapshot
    | with_reducible apply keeps_closeByManager | with_reducible apply keeps_loseRequests
    | with_reducible apply keeps_dropTargets | with_reducible apply keeps_closeLostMarks
    | with_reducible apply keeps_clearValid | split

theorem keeps_domainTeardown_eq {s u v : State} {x} (e : domainTeardown x1 x2 u = (x, v)) (h : Keeps s u) :
    Keeps s v := keeps_snd e (keeps_domainTeardown (x1 := x1) (x2 := x2) h)

theorem keeps_rstWrite {s u : State} (h : Keeps s u) : Keeps s (rstWrite x1 x2 x3 x4 u).2 := by
  unfold rstWrite
  repeat' first
    | with_reducible assumption | with_reducible apply keeps_ok | with_reducible apply keeps_badInline
    | with_reducible apply keeps_badExt | with_reducible apply keeps_setFab | split

theorem keeps_rstWrite_eq {s u v : State} {x} (e : rstWrite x1 x2 x3 x4 u = (x, v)) (h : Keeps s u) :
    Keeps s v := keeps_snd e (keeps_rstWrite (x1 := x1) (x2 := x2) (x3 := x3) (x4 := x4) h)

theorem keeps_unreachableClear {s u : State} (h : Keeps s u) : Keeps s (unreachableClear x1 x2 u).2 := by
  unfold unreachableClear
  repeat' first | with_reducible assumption | with_reducible apply keeps_ok | with_reducible apply keeps_setFab

theorem keeps_unreachableClear_eq {s u v : State} {x} (e : unreachableClear x1 x2 u = (x, v)) (h : Keeps s u) :
    Keeps s v := keeps_snd e (keeps_unreachableClear (x1 := x1) (x2 := x2) h)

theorem keeps_exportSet {s u : State} (h : Keeps s u) : Keeps s (exportSet x1 x2 x3 u).2 := by
  unfold exportSet
  repeat' first
    | with_reducible assumption | with_reducible apply keeps_ok | with_reducible apply keeps_badInline
    | with_reducible apply keeps_setFab | split

theorem keeps_exportSet_eq {s u v : State} {x} (e : exportSet x1 x2 x3 u = (x, v)) (h : Keeps s u) :
    Keeps s v := keeps_snd e (keeps_exportSet (x1 := x1) (x2 := x2) (x3 := x3) h)

theorem keeps_ringRegister {s u : State} (h : Keeps s u) : Keeps s (ringRegister x1 x2 x3 x4 x5 u).2 := by
  unfold ringRegister
  repeat' first
    | with_reducible assumption | (intro u; (try dsimp only)) | with_reducible apply keeps_endRing
    | with_reducible apply keeps_ok | with_reducible apply keeps_badInline | with_reducible apply keeps_ownRoom
    | with_reducible apply keeps_setFab | split

theorem keeps_ringRegister_eq {s u v : State} {x} (e : ringRegister x1 x2 x3 x4 x5 u = (x, v)) (h : Keeps s u) :
    Keeps s v := keeps_snd e (keeps_ringRegister (x1 := x1) (x2 := x2) (x3 := x3) (x4 := x4) (x5 := x5) h)

theorem keeps_redLayout {s u : State} (h : Keeps s u) : Keeps s (redLayout x1 x2 x3 u).2 := by
  unfold redLayout
  repeat' first
    | with_reducible assumption | with_reducible apply keeps_ok | with_reducible apply keeps_reply
    | with_reducible apply keeps_badExt | (simp only [keeps_mk, keeps_mkcells]) | split

theorem keeps_redLayout_eq {s u v : State} {x} (e : redLayout x1 x2 x3 u = (x, v)) (h : Keeps s u) :
    Keeps s v := keeps_snd e (keeps_redLayout (x1 := x1) (x2 := x2) (x3 := x3) h)

theorem keeps_setExch {s u : State} (h : Keeps s u) : Keeps s (setExch x1 u) := h

theorem keeps_eptLoad {s u : State} (h : Keeps s u) : Keeps s (eptLoad x1 x2 x3 u).2 := by
  unfold eptLoad
  repeat' first
    | with_reducible assumption | with_reducible apply keeps_ok | with_reducible apply keeps_reply
    | with_reducible apply keeps_badExt | with_reducible apply keeps_setExch | (simp only [keeps_mk, keeps_mkcells])
    | split

theorem keeps_eptLoad_eq {s u v : State} {x} (e : eptLoad x1 x2 x3 u = (x, v)) (h : Keeps s u) :
    Keeps s v := keeps_snd e (keeps_eptLoad (x1 := x1) (x2 := x2) (x3 := x3) h)

theorem keeps_requestGained {s u : State} (h : Keeps s u) : Keeps s (requestGained x1 u) := by
  unfold requestGained
  repeat' first
    | with_reducible assumption | (intro u; (try dsimp only)) | with_reducible apply keeps_ite
    | with_reducible apply keeps_emit | with_reducible apply keeps_forEach

theorem keeps_gainGrads {s u : State} (h : Keeps s u) : Keeps s (gainGrads x1 x2 u) := by
  unfold gainGrads
  repeat' first
    | with_reducible assumption | (intro u; (try dsimp only)) | with_reducible apply keeps_wr
    | with_reducible refine keeps_addVersion_eq (by with_reducible assumption) ?_ | with_reducible apply keeps_forEach
    | split

theorem keeps_installGained {s u : State} (h : Keeps s u) : Keeps s (installGained x1 x2 x3 x4 u) := by
  unfold installGained
  repeat' first
    | with_reducible assumption | with_reducible apply keeps_raiseCtrl | with_reducible apply keeps_setApplied
    | with_reducible apply keeps_setDigested | with_reducible apply keeps_installState
    | with_reducible apply keeps_gainGrads | split

theorem keeps_clearStage {s u : State} (h : Keeps s u) : Keeps s (clearStage u) := by
  unfold clearStage
  repeat' first | with_reducible assumption | with_reducible apply keeps_setExch

theorem keeps_stageInstall {s u : State} (h : Keeps s u) : Keeps s (stageInstall u) := by
  unfold stageInstall
  repeat' first
    | with_reducible assumption | (intro u; (try dsimp only)) | with_reducible apply keeps_ite
    | with_reducible apply keeps_finish | with_reducible apply keeps_setExch
    | with_reducible apply keeps_installGained | with_reducible apply keeps_clearStage
    | with_reducible apply keeps_forEach | split

theorem keeps_eptStage {s u : State} (h : Keeps s u) : Keeps s (eptStage x1 x2 x3 x4 u).2 := by
  unfold eptStage
  repeat' first
    | with_reducible assumption | with_reducible apply keeps_ok | with_reducible apply keeps_reply
    | with_reducible apply keeps_badExt | with_reducible apply keeps_setExch
    | with_reducible apply keeps_requestGained | (simp only [keeps_mk, keeps_mkcells]) | split

theorem keeps_eptStage_eq {s u v : State} {x} (e : eptStage x1 x2 x3 x4 u = (x, v)) (h : Keeps s u) :
    Keeps s v := keeps_snd e (keeps_eptStage (x1 := x1) (x2 := x2) (x3 := x3) (x4 := x4) h)

theorem keeps_eptActivate {s u : State} (h : Keeps s u) : Keeps s (eptActivate x1 x2 u).2 := by
  unfold eptActivate
  repeat' first
    | with_reducible assumption | with_reducible apply keeps_reply | with_reducible apply keeps_setExch | split

theorem keeps_eptActivate_eq {s u v : State} {x} (e : eptActivate x1 x2 u = (x, v)) (h : Keeps s u) :
    Keeps s v := keeps_snd e (keeps_eptActivate (x1 := x1) (x2 := x2) h)

theorem keeps_releaseGained {s u : State} (h : Keeps s u) : Keeps s (releaseGained u) := by
  unfold releaseGained
  repeat' first
    | with_reducible assumption | (intro u; (try dsimp only)) | with_reducible apply keeps_forEach
    | (simp only [keeps_mk, keeps_mkcells])

theorem keeps_eptRetire {s u : State} (h : Keeps s u) : Keeps s (eptRetire x1 u).2 := by
  unfold eptRetire
  repeat' first
    | with_reducible assumption | with_reducible apply keeps_ite | with_reducible apply keeps_ok
    | with_reducible apply keeps_finish | with_reducible apply keeps_setExch | with_reducible apply keeps_clearStage
    | with_reducible apply keeps_releaseGained

theorem keeps_eptRetire_eq {s u v : State} {x} (e : eptRetire x1 u = (x, v)) (h : Keeps s u) :
    Keeps s v := keeps_snd e (keeps_eptRetire (x1 := x1) h)

theorem keeps_grantPlan_eq {s u v : State} {o rs ids x} (e : grantPlan o rs ids u = some (x, v)) (h : Keeps s u) : Keeps s v := by
  induction rs generalizing u ids with
  | nil => cases e; exact h
  | cons r rs ih =>
    unfold grantPlan at e
    split at e
    · exact ih e h
    · split at e
      · rename_i e1
        exact ih e (keeps_grantRoom_eq e1 h)
      · cases e

theorem keeps_writePrograms {s u : State} (h : Keeps s u) : Keeps s (writePrograms x1 x2 u) := by
  unfold writePrograms
  repeat' first
    | with_reducible assumption | (intro u; (try dsimp only)) | with_reducible apply keeps_wr
    | with_reducible apply keeps_updRoom | with_reducible apply keeps_commitRoom | with_reducible apply keeps_forEach

theorem keeps_planRefused {s u : State} (h : Keeps s u) : Keeps s (planRefused x1 u).2 := by
  unfold planRefused
  assumption

theorem keeps_planRefused_eq {s u v : State} {x} (e : planRefused x1 u = (x, v)) (h : Keeps s u) :
    Keeps s v := keeps_snd e (keeps_planRefused (x1 := x1) h)

theorem keeps_planLoad {s u : State} (h : Keeps s u) : Keeps s (planLoad x1 x2 u).2 := by
  unfold planLoad
  repeat' first
    | with_reducible assumption | with_reducible apply keeps_reply
    | with_reducible refine keeps_grantPlan_eq (by with_reducible assumption) ?_
    | with_reducible apply keeps_writePrograms | with_reducible apply keeps_planRefused
    | (simp only [keeps_mk, keeps_mkcells]) | split

theorem keeps_planLoad_eq {s u v : State} {x} (e : planLoad x1 x2 u = (x, v)) (h : Keeps s u) :
    Keeps s v := keeps_snd e (keeps_planLoad (x1 := x1) (x2 := x2) h)

theorem keeps_planUnload {s u : State} (h : Keeps s u) : Keeps s (planUnload x1 x2 u).2 := by
  unfold planUnload
  repeat' first
    | with_reducible assumption | with_reducible apply keeps_ok | with_reducible apply keeps_reply
    | with_reducible apply keeps_badInline | with_reducible apply keeps_dropPlan | split

theorem keeps_planUnload_eq {s u v : State} {x} (e : planUnload x1 x2 u = (x, v)) (h : Keeps s u) :
    Keeps s v := keeps_snd e (keeps_planUnload (x1 := x1) (x2 := x2) h)

theorem keeps_tasksRun {s u : State} (h : Keeps s u) : Keeps s (tasksRun x1 x2 x3 x4 u).2 := by
  unfold tasksRun
  repeat' first
    | with_reducible assumption | with_reducible apply keeps_ok | with_reducible apply keeps_badInline
    | (simp only [keeps_mk, keeps_mkcells]) | split

theorem keeps_tasksRun_eq {s u v : State} {x} (e : tasksRun x1 x2 x3 x4 u = (x, v)) (h : Keeps s u) :
    Keeps s v := keeps_snd e (keeps_tasksRun (x1 := x1) (x2 := x2) (x3 := x3) (x4 := x4) h)

theorem keeps_forgetStep {s u : State} (h : Keeps s u) : Keeps s (forgetStep x1 u) := by
  unfold forgetStep
  repeat' first
    | with_reducible assumption | (intro u; (try dsimp only)) | with_reducible apply keeps_unpinRoom
    | with_reducible apply keeps_forEach | (simp only [keeps_mk, keeps_mkcells])

theorem keeps_openStep {s u : State} (h : Keeps s u) : Keeps s (openStep x1 x2 x3 u) := by
  unfold openStep
  repeat' first
    | with_reducible assumption | with_reducible apply keeps_setScaled | with_reducible apply keeps_forgetStep
    | (simp only [keeps_mk, keeps_mkcells])

theorem keeps_stepRun {s u : State} (h : Keeps s u) : Keeps s (stepRun x1 x2 x3 x4 u).2 := by
  unfold stepRun
  repeat' first
    | with_reducible assumption | with_reducible apply keeps_reply | with_reducible apply keeps_badInline
    | with_reducible apply keeps_badExt | with_reducible apply keeps_openStep | (simp only [keeps_mk, keeps_mkcells])
    | split

theorem keeps_stepRun_eq {s u v : State} {x} (e : stepRun x1 x2 x3 x4 u = (x, v)) (h : Keeps s u) :
    Keeps s v := keeps_snd e (keeps_stepRun (x1 := x1) (x2 := x2) (x3 := x3) (x4 := x4) h)

theorem keeps_openQueued {s u : State} (h : Keeps s u) : Keeps s (openQueued u) := by
  unfold openQueued
  repeat' first
    | with_reducible assumption | with_reducible apply keeps_finish | with_reducible apply keeps_openStep
    | (simp only [keeps_mk, keeps_mkcells]) | split

theorem keeps_stepAbort {s u : State} (h : Keeps s u) : Keeps s (stepAbort x1 x2 u).2 := by
  unfold stepAbort
  repeat' first
    | with_reducible assumption | with_reducible apply keeps_ok | with_reducible apply keeps_reply
    | with_reducible apply keeps_finish | with_reducible apply keeps_failStep | (simp only [keeps_mk, keeps_mkcells])
    | split

theorem keeps_stepAbort_eq {s u v : State} {x} (e : stepAbort x1 x2 u = (x, v)) (h : Keeps s u) :
    Keeps s v := keeps_snd e (keeps_stepAbort (x1 := x1) (x2 := x2) h)

theorem keeps_denySafety {s u : State} (h : Keeps s u) : Keeps s (denySafety x1 x2 x3 u).2 := by
  unfold denySafety
  repeat' first | with_reducible assumption | with_reducible apply keeps_raiseCtrl | with_reducible apply keeps_reply

theorem keeps_denySafety_eq {s u v : State} {x} (e : denySafety x1 x2 x3 u = (x, v)) (h : Keeps s u) :
    Keeps s v := keeps_snd e (keeps_denySafety (x1 := x1) (x2 := x2) (x3 := x3) h)

theorem keeps_halt {s u : State} (h : Keeps s u) : Keeps s (halt x1 u).2 := by
  unfold halt
  repeat' first
    | with_reducible assumption | with_reducible apply keeps_ite | with_reducible apply keeps_ok
    | (simp only [keeps_mk, keeps_mkcells])

theorem keeps_halt_eq {s u v : State} {x} (e : halt x1 u = (x, v)) (h : Keeps s u) :
    Keeps s v := keeps_snd e (keeps_halt (x1 := x1) h)

theorem keeps_resume {s u : State} (h : Keeps s u) : Keeps s (resume x1 u).2 := by
  unfold resume
  repeat' first
    | with_reducible assumption | with_reducible apply keeps_ok | with_reducible apply keeps_denySafety
    | (simp only [keeps_mk, keeps_mkcells]) | split

theorem keeps_resume_eq {s u v : State} {x} (e : resume x1 u = (x, v)) (h : Keeps s u) :
    Keeps s v := keeps_snd e (keeps_resume (x1 := x1) h)

theorem keeps_retarget {s u : State} (h : Keeps s u) : Keeps s (retarget x1 u) := by
  unfold retarget
  repeat' first | with_reducible assumption | with_reducible apply keeps_ite | with_reducible apply keeps_gateEnded

theorem keeps_setGating {s u : State} (h : Keeps s u) : Keeps s (setGating x1 x2 u) := h

theorem keeps_logicDown {s u : State} (h : Keeps s u) : Keeps s (logicDown x1 x2 u) := by
  unfold logicDown
  repeat' first
    | with_reducible assumption | with_reducible apply keeps_switchOff | with_reducible apply keeps_pondOff
    | with_reducible apply keeps_gateReached | with_reducible apply keeps_startDrain
    | with_reducible apply keeps_setGating | with_reducible apply keeps_when | split

theorem keeps_logicUpward {s u : State} (h : Keeps s u) : Keeps s (logicUpward x1 u) := by
  unfold logicUpward
  repeat' first
    | with_reducible assumption | (intro u; (try dsimp only)) | with_reducible apply keeps_setPace
    | with_reducible apply keeps_switchOn | with_reducible apply keeps_logicOn | with_reducible apply keeps_setGating
    | with_reducible apply keeps_forEach | (simp only [keeps_mk, keeps_mkcells]) | split

theorem keeps_gateAnswer {s u : State} (h : Keeps s u) : Keeps s (gateAnswer x1 x2 u).2 := by
  unfold gateAnswer
  repeat' first | with_reducible assumption | with_reducible apply keeps_ok | split

theorem keeps_gateAnswer_eq {s u v : State} {x} (e : gateAnswer x1 x2 u = (x, v)) (h : Keeps s u) :
    Keeps s v := keeps_snd e (keeps_gateAnswer (x1 := x1) (x2 := x2) h)

theorem keeps_gateDown {s u : State} (h : Keeps s u) : Keeps s (gateDown x1 x2 x3 u).2 := by
  unfold gateDown
  repeat' first
    | with_reducible assumption | (intro u; (try dsimp only)) | with_reducible apply keeps_reply
    | with_reducible apply keeps_retarget | with_reducible apply keeps_logicDown
    | with_reducible apply keeps_gateAnswer | with_reducible apply keeps_forEach | split

theorem keeps_gateDown_eq {s u v : State} {x} (e : gateDown x1 x2 x3 u = (x, v)) (h : Keeps s u) :
    Keeps s v := keeps_snd e (keeps_gateDown (x1 := x1) (x2 := x2) (x3 := x3) h)

theorem keeps_gateUp {s u : State} (h : Keeps s u) : Keeps s (gateUp x1 x2 u).2 := by
  unfold gateUp
  repeat' first
    | with_reducible assumption | (intro u; (try dsimp only)) | with_reducible apply keeps_reply
    | with_reducible apply keeps_retarget | with_reducible apply keeps_logicUpward
    | with_reducible apply keeps_gateAnswer | with_reducible apply keeps_forEach | split

theorem keeps_gateUp_eq {s u v : State} {x} (e : gateUp x1 x2 u = (x, v)) (h : Keeps s u) :
    Keeps s v := keeps_snd e (keeps_gateUp (x1 := x1) (x2 := x2) h)

theorem keeps_forcedOff {s u : State} (h : Keeps s u) : Keeps s (forcedOff x1 u) := by
  unfold forcedOff
  repeat' first
    | with_reducible assumption | with_reducible apply keeps_removeTower | with_reducible apply keeps_setTower
    | with_reducible apply keeps_pondOff | with_reducible apply keeps_gateReached
    | with_reducible apply keeps_gateEnded | (simp only [keeps_mk, keeps_mkcells]) | split

theorem keeps_holdPoints {s u : State} (h : Keeps s u) : Keeps s (holdPoints u) := by
  unfold holdPoints
  repeat' first
    | with_reducible assumption | (intro u; (try dsimp only)) | with_reducible apply keeps_ite
    | with_reducible apply keeps_setPace | with_reducible apply keeps_setTower | with_reducible apply keeps_forEach
    | with_reducible apply keeps_when | (simp only [keeps_mk, keeps_mkcells])

theorem keeps_vrAct {s u : State} (h : Keeps s u) : Keeps s (vrAct u) := by
  unfold vrAct
  repeat' first
    | with_reducible assumption | with_reducible apply keeps_ite | with_reducible apply keeps_raiseMgmt
    | with_reducible apply keeps_holdPoints | (simp only [keeps_mk, keeps_mkcells])

theorem keeps_vralertNAssert {s u : State} (h : Keeps s u) : Keeps s (vralertNAssert u) := by
  unfold vralertNAssert
  repeat' first
    | with_reducible assumption | with_reducible apply keeps_ite | with_reducible apply keeps_raiseMgmt
    | with_reducible apply keeps_vrAct | (simp only [keeps_mk, keeps_mkcells])

theorem keeps_vralertNRelease {s u : State} (h : Keeps s u) : Keeps s (vralertNRelease u) := by
  unfold vralertNRelease
  repeat' first | with_reducible assumption | with_reducible apply keeps_ite | (simp only [keeps_mk, keeps_mkcells])

theorem keeps_coolAct {s u : State} (h : Keeps s u) : Keeps s (coolAct u) := by
  unfold coolAct
  repeat' first
    | with_reducible assumption | (intro u; (try dsimp only)) | with_reducible apply keeps_ite
    | with_reducible apply keeps_raiseMgmt | with_reducible apply keeps_setTower
    | with_reducible apply keeps_forcedOff | with_reducible apply keeps_forEach

theorem keeps_coolFailNAssert {s u : State} (h : Keeps s u) : Keeps s (coolFailNAssert u) := by
  unfold coolFailNAssert
  repeat' first
    | with_reducible assumption | with_reducible apply keeps_ite | with_reducible apply keeps_raiseMgmt
    | with_reducible apply keeps_coolAct | (simp only [keeps_mk, keeps_mkcells])

theorem keeps_coolFailNRelease {s u : State} (h : Keeps s u) : Keeps s (coolFailNRelease u) := by
  unfold coolFailNRelease
  repeat' first
    | with_reducible assumption | with_reducible apply keeps_ite | with_reducible apply keeps_raiseMgmt
    | with_reducible apply keeps_startTowerTests | (simp only [keeps_mk, keeps_mkcells])

theorem keeps_tripNow {s u : State} (h : Keeps s u) : Keeps s (tripNow x1 x2 u) := by
  unfold tripNow
  repeat' first
    | with_reducible assumption | (intro u; (try dsimp only)) | with_reducible apply keeps_ite
    | with_reducible apply keeps_raiseMgmt | with_reducible apply keeps_forcedOff | with_reducible apply keeps_forEach
    | (simp only [keeps_mk, keeps_mkcells])

theorem keeps_thermTrip {s u : State} (h : Keeps s u) : Keeps s (thermTrip x1 x2 u) := by
  unfold thermTrip
  repeat' first | with_reducible assumption | with_reducible apply keeps_ite | with_reducible apply keeps_tripNow

theorem keeps_paceRampEnd {s u : State} (h : Keeps s u) : Keeps s (paceRampEnd x1 u) := by
  unfold paceRampEnd
  repeat' first | with_reducible assumption | with_reducible apply keeps_setTower

theorem keeps_forerunnerExitDone {s u : State} (h : Keeps s u) : Keeps s (forerunnerExitDone x1 u) := by
  unfold forerunnerExitDone
  repeat' first
    | with_reducible assumption | with_reducible apply keeps_ite | with_reducible apply keeps_capBump
    | with_reducible apply keeps_finish | with_reducible apply keeps_pondLost
    | with_reducible apply keeps_towerLogicOff | (simp only [keeps_mk, keeps_mkcells])

theorem keeps_putSetting {s u : State} (h : Keeps s u) : Keeps s (putSetting x1 x2 x3 u) := by
  unfold putSetting
  repeat' first
    | with_reducible assumption | with_reducible apply keeps_capBump | with_reducible apply keeps_setTower
    | (simp only [keeps_mk, keeps_mkcells]) | split

theorem keeps_loseSetting {s u : State} (h : Keeps s u) : Keeps s (loseSetting x1 x2 u) := by
  unfold loseSetting
  repeat' first
    | with_reducible assumption | with_reducible apply keeps_restate | (simp only [keeps_mk, keeps_mkcells])

theorem keeps_takeSetting {s : State} {n f v : Nat} {sw : State × List Nat} (h : Keeps s sw.1) :
    Keeps s (takeSetting n f v sw).1 := by
  obtain ⟨u, b⟩ := sw
  unfold takeSetting; (try dsimp only at h ⊢); repeat' first
    | with_reducible assumption | with_reducible apply keeps_putSetting | with_reducible apply keeps_loseSetting
    | split

theorem keeps_takeFold {s : State} {n : Nat} {l : List (Nat × Nat)} {sw : State × List Nat} (h : Keeps s sw.1) :
    Keeps s (l.foldl (fun sw x => takeSetting n x.1 x.2 sw) sw).1 := by
  induction l generalizing sw with
  | nil => exact h
  | cons x l ih => exact ih (keeps_takeSetting h)

theorem keeps_takeSettings {s u : State} (h : Keeps s u) : Keeps s (takeSettings x1 x2 x3 x4 u).2 := by
  unfold takeSettings; (try dsimp only); repeat' first
    | with_reducible apply keeps_takeFold | with_reducible assumption | with_reducible apply keeps_ok
    | with_reducible apply keeps_reply | with_reducible apply keeps_denySafety | (simp only [keeps_mk, keeps_mkcells])
    | split

theorem keeps_powerLimits {s u : State} (h : Keeps s u) : Keeps s (powerLimits x1 x2 x3 x4 u).2 := by
  unfold powerLimits
  repeat' first
    | with_reducible assumption | with_reducible apply keeps_badInline | with_reducible apply keeps_takeSettings
    | split

theorem keeps_powerLimits_eq {s u v : State} {x} (e : powerLimits x1 x2 x3 x4 u = (x, v)) (h : Keeps s u) :
    Keeps s v := keeps_snd e (keeps_powerLimits (x1 := x1) (x2 := x2) (x3 := x3) (x4 := x4) h)

theorem keeps_capShare {s u : State} (h : Keeps s u) : Keeps s (capShare x1 x2 x3 u).2 := by
  unfold capShare
  repeat' first
    | with_reducible assumption | with_reducible apply keeps_ok | with_reducible apply keeps_badInline
    | (simp only [keeps_mk, keeps_mkcells]) | split

theorem keeps_capShare_eq {s u v : State} {x} (e : capShare x1 x2 x3 u = (x, v)) (h : Keeps s u) :
    Keeps s v := keeps_snd e (keeps_capShare (x1 := x1) (x2 := x2) (x3 := x3) h)

theorem keeps_paceCeiling {s u : State} (h : Keeps s u) : Keeps s (paceCeiling x1 x2 x3 u).2 := by
  unfold paceCeiling
  repeat' first
    | with_reducible assumption | with_reducible apply keeps_badInline | with_reducible apply keeps_takeSettings
    | split

theorem keeps_paceCeiling_eq {s u v : State} {x} (e : paceCeiling x1 x2 x3 u = (x, v)) (h : Keeps s u) :
    Keeps s v := keeps_snd e (keeps_paceCeiling (x1 := x1) (x2 := x2) (x3 := x3) h)

theorem keeps_lastLine {s u : State} (h : Keeps s u) : Keeps s (lastLine x1 x2 u).2 := by
  unfold lastLine
  repeat' first
    | with_reducible assumption | with_reducible apply keeps_ok | with_reducible apply keeps_badInline
    | with_reducible apply keeps_denySafety | (simp only [keeps_mk, keeps_mkcells]) | split

theorem keeps_lastLine_eq {s u v : State} {x} (e : lastLine x1 x2 u = (x, v)) (h : Keeps s u) :
    Keeps s v := keeps_snd e (keeps_lastLine (x1 := x1) (x2 := x2) h)

theorem keeps_setGov {s u : State} (h : Keeps s u) : Keeps s (setGov x1 u) := h

theorem keeps_powerPart {s u : State} (h : Keeps s u) : Keeps s (powerPart x1 u).1 := by
  unfold powerPart
  repeat' first
    | with_reducible assumption | with_reducible apply keeps_ite | with_reducible apply keeps_raiseMgmt
    | with_reducible apply keeps_setGov

theorem keeps_powerPart_eq {s u v : State} {x} (e : powerPart x1 u = (v, x)) (h : Keeps s u) :
    Keeps s v := keeps_fst e (keeps_powerPart (x1 := x1) h)

theorem keeps_layerPart {s u : State} (h : Keeps s u) : Keeps s (layerPart x1 x2 x3 x4 u) := by
  unfold layerPart
  repeat' first
    | with_reducible assumption | (intro u; (try dsimp only)) | with_reducible apply keeps_ite
    | with_reducible apply keeps_raiseMgmt | with_reducible apply keeps_setLayer | with_reducible apply keeps_forEach

theorem keeps_thermalPart {s u : State} (h : Keeps s u) : Keeps s (thermalPart x1 u) := by
  unfold thermalPart
  repeat' first
    | with_reducible assumption | (intro u; (try dsimp only)) | with_reducible apply keeps_layerPart
    | with_reducible apply keeps_forEach

theorem keeps_thermalLevel {s u : State} (h : Keeps s u) : Keeps s (thermalLevel x1 u) := by
  unfold thermalLevel
  repeat' first
    | with_reducible assumption | with_reducible apply keeps_ite | with_reducible apply keeps_raiseMgmt
    | with_reducible apply keeps_setTower

theorem keeps_pondLimit {s u : State} (h : Keeps s u) : Keeps s (pondLimit x1 u) := by
  unfold pondLimit
  repeat' first
    | with_reducible assumption | with_reducible apply keeps_raiseMgmt | with_reducible apply keeps_setTower
    | with_reducible apply keeps_forcedOff | (simp only [keeps_mk, keeps_mkcells]) | split

theorem keeps_estimateTrip {s u : State} (h : Keeps s u) : Keeps s (estimateTrip u) := by
  unfold estimateTrip
  repeat' first | with_reducible assumption | with_reducible apply keeps_tripNow | split

theorem keeps_setPoint {s u : State} (h : Keeps s u) : Keeps s (setPoint x1 x2 u) := by
  unfold setPoint
  repeat' first
    | with_reducible assumption | (intro u; (try dsimp only)) | with_reducible apply keeps_setPace
    | with_reducible apply keeps_setTower | with_reducible apply keeps_forEach

theorem keeps_towerPoint {s u : State} (h : Keeps s u) : Keeps s (towerPoint x1 x2 x3 u) := by
  unfold towerPoint
  repeat' first
    | with_reducible assumption | with_reducible apply keeps_raiseMgmt | with_reducible apply keeps_setTower
    | with_reducible apply keeps_setPoint | (simp only [keeps_mk, keeps_mkcells]) | split

theorem keeps_pointPart {s u : State} (h : Keeps s u) : Keeps s (pointPart x1 x2 u) := by
  unfold pointPart
  repeat' first
    | with_reducible assumption | (intro u; (try dsimp only)) | with_reducible apply keeps_ite
    | with_reducible apply keeps_setTower | with_reducible apply keeps_setGov | with_reducible apply keeps_towerPoint
    | with_reducible apply keeps_forEach

theorem keeps_lastLinePart {s u : State} (h : Keeps s u) : Keeps s (lastLinePart u) := by
  unfold lastLinePart
  repeat' first
    | with_reducible assumption | (intro u; (try dsimp only)) | with_reducible apply keeps_ite
    | with_reducible apply keeps_raiseMgmt | with_reducible apply keeps_capBump | with_reducible apply keeps_setTower
    | with_reducible apply keeps_vrAct | with_reducible apply keeps_coolAct | with_reducible apply keeps_setGov
    | with_reducible apply keeps_forEach

theorem keeps_tailPart {s u : State} (h : Keeps s u) : Keeps s (tailPart u) := by
  unfold tailPart
  repeat' first
    | with_reducible assumption | (intro u; (try dsimp only)) | with_reducible apply keeps_ite
    | with_reducible apply keeps_raiseMgmt | with_reducible apply keeps_setTower | with_reducible apply keeps_setGov
    | with_reducible apply keeps_forEach

theorem keeps_marginPart {s u : State} (h : Keeps s u) : Keeps s (marginPart u) := by
  unfold marginPart
  repeat' first
    | with_reducible assumption | (intro u; (try dsimp only)) | with_reducible apply keeps_ite
    | with_reducible apply keeps_setGov | with_reducible apply keeps_forEach

theorem keeps_countPart {s u : State} (h : Keeps s u) : Keeps s (countPart u) := by
  unfold countPart
  repeat' first
    | with_reducible assumption | (intro u; (try dsimp only)) | with_reducible apply keeps_setTower
    | with_reducible apply keeps_setGov | with_reducible apply keeps_forEach

theorem keeps_governorSample {s u : State} (h : Keeps s u) : Keeps s (governorSample x1 u) := by
  unfold governorSample
  repeat' first
    | with_reducible assumption | (intro u; (try dsimp only)) | with_reducible apply keeps_ite
    | with_reducible apply keeps_setGov | with_reducible apply keeps_powerPart
    | with_reducible apply keeps_thermalPart | with_reducible apply keeps_thermalLevel
    | with_reducible apply keeps_pondLimit | with_reducible apply keeps_estimateTrip
    | with_reducible apply keeps_pointPart | with_reducible apply keeps_lastLinePart
    | with_reducible apply keeps_tailPart | with_reducible apply keeps_marginPart
    | with_reducible apply keeps_countPart | with_reducible apply keeps_forEach

theorem keeps_lowerMargin {s u : State} (h : Keeps s u) : Keeps s (lowerMargin x1 x2 u) := by
  unfold lowerMargin
  repeat' first | with_reducible assumption | with_reducible apply keeps_raiseMgmt | with_reducible apply keeps_setGov

theorem keeps_pointBack {s u : State} (h : Keeps s u) : Keeps s (pointBack x1 x2 u) := by
  unfold pointBack
  repeat' first
    | with_reducible assumption | with_reducible apply keeps_raiseMgmt | with_reducible apply keeps_capBump
    | with_reducible apply keeps_setGov

theorem keeps_atBoundaryOr {s u : State} {b} {f : State → State} (h : Keeps s u) (hf : ∀ v, Keeps s v → Keeps s (f v)) :
    Keeps s (atBoundaryOr b f u) := by
  unfold atBoundaryOr; repeat' first
    | with_reducible apply hf | with_reducible assumption | with_reducible apply keeps_ite
    | (simp only [keeps_mk, keeps_mkcells])

theorem keeps_dropMarginActions {s u : State} (h : Keeps s u) : Keeps s (dropMarginActions x1 u) := by
  unfold dropMarginActions
  repeat' first | with_reducible assumption | (simp only [keeps_mk, keeps_mkcells])

theorem keeps_applyMargin {s u : State} (h : Keeps s u) : Keeps s (applyMargin x1 x2 u) := by
  unfold applyMargin
  repeat' first
    | with_reducible assumption | (intro u; (try dsimp only)) | with_reducible apply keeps_ite
    | with_reducible apply keeps_raiseMgmt | with_reducible apply keeps_capBump | with_reducible apply keeps_setGov
    | with_reducible apply keeps_lowerMargin | with_reducible apply keeps_pointBack
    | with_reducible apply keeps_atBoundaryOr | with_reducible apply keeps_dropMarginActions
    | with_reducible apply keeps_forEach

theorem keeps_marginMeasurementPeriod {s u : State} (h : Keeps s u) : Keeps s (marginMeasurementPeriod x1 u) := by
  unfold marginMeasurementPeriod
  repeat' first
    | with_reducible assumption | (intro u; (try dsimp only)) | with_reducible apply keeps_ite
    | with_reducible apply keeps_applyMargin | with_reducible apply keeps_forEach
    | (simp only [keeps_mk, keeps_mkcells])

theorem keeps_setTests {s u : State} (h : Keeps s u) : Keeps s (setTests x1 u) := h

theorem keeps_addRequest {s u : State} (h : Keeps s u) : Keeps s (addRequest x1 x2 x3 x4 u) := by
  unfold addRequest
  repeat' first | with_reducible assumption | with_reducible apply keeps_setTests

theorem keeps_dropRivalTest {s u : State} (h : Keeps s u) : Keeps s (dropRivalTest x1 x2 u) := by
  unfold dropRivalTest
  repeat' first
    | with_reducible assumption | with_reducible apply keeps_ite | with_reducible apply keeps_setTests | split

theorem keeps_accepted {s u : State} (h : Keeps s u) : Keeps s (accepted x1 x2 x3 x4 u).2 := by
  unfold accepted
  repeat' first
    | with_reducible assumption | with_reducible apply keeps_addRequest | with_reducible apply keeps_dropRivalTest
    | split

theorem keeps_accepted_eq {s u v : State} {x} (e : accepted x1 x2 x3 x4 u = (x, v)) (h : Keeps s u) :
    Keeps s v := keeps_snd e (keeps_accepted (x1 := x1) (x2 := x2) (x3 := x3) (x4 := x4) h)

theorem keeps_testLane {s u : State} (h : Keeps s u) : Keeps s (testLane x1 x2 u).2 := by
  unfold testLane
  repeat' first
    | with_reducible assumption | with_reducible apply keeps_badInline | with_reducible apply keeps_accepted | split

theorem keeps_testLane_eq {s u v : State} {x} (e : testLane x1 x2 u = (x, v)) (h : Keeps s u) :
    Keeps s v := keeps_snd e (keeps_testLane (x1 := x1) (x2 := x2) h)

theorem keeps_testScrub {s u : State} (h : Keeps s u) : Keeps s (testScrub x1 x2 u).2 := by
  unfold testScrub
  repeat' first
    | with_reducible assumption | with_reducible apply keeps_badInline | with_reducible apply keeps_accepted | split

theorem keeps_testScrub_eq {s u v : State} {x} (e : testScrub x1 x2 u = (x, v)) (h : Keeps s u) :
    Keeps s v := keeps_snd e (keeps_testScrub (x1 := x1) (x2 := x2) h)

theorem keeps_testCore {s u : State} (h : Keeps s u) : Keeps s (testCore x1 x2 u).2 := by
  unfold testCore
  repeat' first
    | with_reducible assumption | with_reducible apply keeps_badInline | with_reducible apply keeps_accepted | split

theorem keeps_testCore_eq {s u v : State} {x} (e : testCore x1 x2 u = (x, v)) (h : Keeps s u) :
    Keeps s v := keeps_snd e (keeps_testCore (x1 := x1) (x2 := x2) h)

theorem keeps_testMargin {s u : State} (h : Keeps s u) : Keeps s (testMargin x1 x2 u).2 := by
  unfold testMargin
  repeat' first
    | with_reducible assumption | with_reducible apply keeps_badInline | with_reducible apply keeps_accepted | split

theorem keeps_testMargin_eq {s u v : State} {x} (e : testMargin x1 x2 u = (x, v)) (h : Keeps s u) :
    Keeps s v := keeps_snd e (keeps_testMargin (x1 := x1) (x2 := x2) h)

theorem keeps_beginTowerTest {s u : State} (h : Keeps s u) : Keeps s (beginTowerTest x1 u) := by
  unfold beginTowerTest
  repeat' first
    | with_reducible assumption | with_reducible apply keeps_raiseCtrl | with_reducible apply keeps_setTests

theorem keeps_startTowerTest {s u : State} (h : Keeps s u) : Keeps s (startTowerTest u) := by
  unfold startTowerTest
  repeat' first | with_reducible assumption | with_reducible apply keeps_beginTowerTest | split

theorem keeps_testWholeTower {s u : State} (h : Keeps s u) : Keeps s (testWholeTower x1 x2 u).2 := by
  unfold testWholeTower
  repeat' first
    | with_reducible assumption | with_reducible apply keeps_ite | with_reducible apply keeps_badInline
    | with_reducible apply keeps_accepted | with_reducible apply keeps_startTowerTest | split

theorem keeps_testWholeTower_eq {s u v : State} {x} (e : testWholeTower x1 x2 u = (x, v)) (h : Keeps s u) :
    Keeps s v := keeps_snd e (keeps_testWholeTower (x1 := x1) (x2 := x2) h)

theorem keeps_testCancel {s u : State} (h : Keeps s u) : Keeps s (testCancel x1 x2 u).2 := by
  unfold testCancel
  repeat' first
    | with_reducible assumption | with_reducible apply keeps_ok | with_reducible apply keeps_reply
    | with_reducible apply keeps_badInline | with_reducible apply keeps_setTests | split

theorem keeps_testCancel_eq {s u v : State} {x} (e : testCancel x1 x2 u = (x, v)) (h : Keeps s u) :
    Keeps s v := keeps_snd e (keeps_testCancel (x1 := x1) (x2 := x2) h)

theorem keeps_beginWaitingTests {s u : State} (h : Keeps s u) : Keeps s (beginWaitingTests u) := by
  unfold beginWaitingTests
  repeat' first | with_reducible assumption | with_reducible apply keeps_setTests

theorem keeps_coreTestRotation {s u : State} (h : Keeps s u) : Keeps s (coreTestRotation u) := by
  unfold coreTestRotation
  repeat' first | with_reducible assumption | with_reducible apply keeps_setTests | split

theorem keeps_coreTestDrainTimeout {s u : State} (h : Keeps s u) : Keeps s (coreTestDrainTimeout u) := by
  unfold coreTestDrainTimeout
  repeat' first | with_reducible assumption | with_reducible apply keeps_setTests | split

theorem keeps_releaseCore {s u : State} (h : Keeps s u) : Keeps s (releaseCore x1 u) := by
  unfold releaseCore
  repeat' first | with_reducible assumption | with_reducible apply keeps_setTests

theorem keeps_coreSelfTestDone {s u : State} (h : Keeps s u) : Keeps s (coreSelfTestDone x1 u) := by
  unfold coreSelfTestDone
  repeat' first
    | with_reducible assumption | with_reducible apply keeps_raise | with_reducible apply keeps_setCore
    | with_reducible apply keeps_setChan | with_reducible apply keeps_retireCore | with_reducible apply keeps_setTests
    | with_reducible apply keeps_releaseCore | split

theorem keeps_towerSelfTestDone {s u : State} (h : Keeps s u) : Keeps s (towerSelfTestDone x1 x2 x3 x4 u) := by
  unfold towerSelfTestDone
  repeat' first
    | with_reducible assumption | (intro u; (try dsimp only)) | with_reducible apply keeps_ite
    | with_reducible apply keeps_raise | with_reducible apply keeps_raiseCtrl | with_reducible apply keeps_retireCore
    | with_reducible apply keeps_remapRow | with_reducible apply keeps_pondLost
    | with_reducible apply keeps_applyMargin | with_reducible apply keeps_setTests
    | with_reducible apply keeps_forEach

theorem keeps_setSec {s u : State} (h : Keeps s u) : Keeps s (setSec x1 u) := h

theorem keeps_trusted {s u : State} {k : Handler} {p} (h : Keeps s u) (hk : ∀ p v, Keeps s v → Keeps s (k p v).2) :
    Keeps s (trusted k p u).2 := by
  unfold trusted; (try dsimp only); repeat' first | with_reducible apply hk | with_reducible assumption | with_reducible apply keeps_reply | split

theorem keeps_stageVerify {s u : State} (h : Keeps s u) : Keeps s (stageVerify x1 x2 x3 u).2 := by
  unfold stageVerify
  repeat' first
    | with_reducible assumption | with_reducible apply keeps_reply | with_reducible apply keeps_imageRefused
    | with_reducible apply keeps_setSec | (simp only [keeps_mk, keeps_mkcells]) | split

theorem keeps_stageVerify_eq {s u v : State} {x} (e : stageVerify x1 x2 x3 u = (x, v)) (h : Keeps s u) :
    Keeps s v := keeps_snd e (keeps_stageVerify (x1 := x1) (x2 := x2) (x3 := x3) h)

theorem keeps_fwStage {s u : State} (h : Keeps s u) : Keeps s (fwStage x1 x2 x3 u).2 := by
  unfold fwStage
  repeat' first
    | with_reducible assumption | with_reducible apply keeps_ok | with_reducible apply keeps_badExt
    | with_reducible apply keeps_setSec | with_reducible apply keeps_stageVerify
    | (simp only [keeps_mk, keeps_mkcells]) | split

theorem keeps_fwStage_eq {s u v : State} {x} (e : fwStage x1 x2 x3 u = (x, v)) (h : Keeps s u) :
    Keeps s v := keeps_snd e (keeps_fwStage (x1 := x1) (x2 := x2) (x3 := x3) h)

theorem keeps_endTaken {s u : State} (h : Keeps s u) : Keeps s (endTaken u) := by
  unfold endTaken
  repeat' first | with_reducible assumption | with_reducible apply keeps_finishAll

theorem keeps_swapImages {s u : State} (h : Keeps s u) : Keeps s (swapImages u) := by
  unfold swapImages
  repeat' first
    | with_reducible assumption | (intro u; (try dsimp only)) | with_reducible apply keeps_capBump
    | with_reducible apply keeps_setMeasured | with_reducible apply keeps_setSec | with_reducible apply keeps_forEach
    | (simp only [keeps_mk, keeps_mkcells])

theorem keeps_swapNow {s u : State} (h : Keeps s u) : Keeps s (swapNow x1 u) := by
  unfold swapNow
  repeat' first
    | with_reducible assumption | with_reducible apply keeps_ite | with_reducible apply keeps_raiseMgmt
    | with_reducible apply keeps_finishAll | with_reducible apply keeps_endTaken
    | with_reducible apply keeps_swapImages

theorem keeps_fwActivate {s u : State} (h : Keeps s u) : Keeps s (fwActivate x1 u).2 := by
  unfold fwActivate
  repeat' first
    | with_reducible assumption | with_reducible apply keeps_ok | with_reducible apply keeps_reply
    | with_reducible apply keeps_swapNow | (simp only [keeps_mk, keeps_mkcells]) | split

theorem keeps_fwActivate_eq {s u v : State} {x} (e : fwActivate x1 u = (x, v)) (h : Keeps s u) :
    Keeps s v := keeps_snd e (keeps_fwActivate (x1 := x1) h)

theorem keeps_trustDenied {s u : State} (h : Keeps s u) : Keeps s (trustDenied x1 x2 u).2 := by
  unfold trustDenied
  repeat' first | with_reducible assumption | with_reducible apply keeps_raiseMgmt | with_reducible apply keeps_reply

theorem keeps_trustDenied_eq {s u v : State} {x} (e : trustDenied x1 x2 u = (x, v)) (h : Keeps s u) :
    Keeps s v := keeps_snd e (keeps_trustDenied (x1 := x1) (x2 := x2) h)

theorem keeps_ownerKey {s u : State} (h : Keeps s u) : Keeps s (ownerKey x1 x2 x3 x4 u).2 := by
  unfold ownerKey
  repeat' first
    | with_reducible assumption | with_reducible apply keeps_raiseMgmt | with_reducible apply keeps_capBump
    | with_reducible apply keeps_ok | with_reducible apply keeps_setMeasured | with_reducible apply keeps_setSec
    | with_reducible apply keeps_trustDenied | (simp only [keeps_mk, keeps_mkcells]) | split

theorem keeps_ownerKey_eq {s u v : State} {x} (e : ownerKey x1 x2 x3 x4 u = (x, v)) (h : Keeps s u) :
    Keeps s v := keeps_snd e (keeps_ownerKey (x1 := x1) (x2 := x2) (x3 := x3) (x4 := x4) h)

theorem keeps_raiseCounter {s u : State} (h : Keeps s u) : Keeps s (raiseCounter x1 x2 u) := by
  unfold raiseCounter
  repeat' first
    | with_reducible assumption | with_reducible apply keeps_ite | with_reducible apply keeps_raiseMgmt
    | with_reducible apply keeps_setSec

theorem keeps_policySet {s u : State} (h : Keeps s u) : Keeps s (policySet x1 x2 x3 x4 u).2 := by
  unfold policySet
  repeat' first
    | with_reducible assumption | (intro u; (try dsimp only)) | with_reducible apply keeps_raiseMgmt
    | with_reducible apply keeps_ok | with_reducible apply keeps_badExt | with_reducible apply keeps_setMeasured
    | with_reducible apply keeps_setSec | with_reducible apply keeps_trustDenied
    | with_reducible apply keeps_raiseCounter | with_reducible apply keeps_forEach | split

theorem keeps_policySet_eq {s u v : State} {x} (e : policySet x1 x2 x3 x4 u = (x, v)) (h : Keeps s u) :
    Keeps s v := keeps_snd e (keeps_policySet (x1 := x1) (x2 := x2) (x3 := x3) (x4 := x4) h)

theorem keeps_zeroise {s u : State} (h : Keeps s u) : Keeps s (zeroise x1 u) := by
  unfold zeroise
  repeat' first
    | with_reducible assumption | with_reducible apply keeps_ite | with_reducible apply keeps_raiseMgmt
    | with_reducible apply keeps_finishAll | with_reducible apply keeps_endSnapshot
    | with_reducible apply keeps_driveRest | with_reducible apply keeps_setSec | (simp only [keeps_mk, keeps_mkcells])

theorem keeps_zeroNAssert {s u : State} (h : Keeps s u) : Keeps s (zeroNAssert x1 u) := by
  unfold zeroNAssert
  repeat' first | with_reducible assumption | with_reducible apply keeps_ite | with_reducible apply keeps_zeroise

theorem keeps_conditionalTestFail {s u : State} (h : Keeps s u) : Keeps s (conditionalTestFail x1 u) := by
  unfold conditionalTestFail
  repeat' first
    | with_reducible assumption | with_reducible apply keeps_ite | with_reducible apply keeps_raiseMgmt
    | with_reducible apply keeps_setSec | (simp only [keeps_mk, keeps_mkcells])

theorem keeps_keeperBoundaryAccess {s u : State} (h : Keeps s u) : Keeps s (keeperBoundaryAccess x1 x2 x3 u) := by
  unfold keeperBoundaryAccess
  repeat' first
    | with_reducible assumption | with_reducible apply keeps_ite | with_reducible apply keeps_raiseMgmt
    | with_reducible apply keeps_emit | with_reducible apply keeps_setSec

theorem keeps_certRead {s u : State} (h : Keeps s u) : Keeps s (certRead x1 x2 u).2 := by
  unfold certRead
  repeat' first
    | with_reducible assumption | with_reducible apply keeps_reply | with_reducible apply keeps_badInline | split

theorem keeps_certRead_eq {s u v : State} {x} (e : certRead x1 x2 u = (x, v)) (h : Keeps s u) :
    Keeps s v := keeps_snd e (keeps_certRead (x1 := x1) (x2 := x2) h)

theorem keeps_spdmError {s u : State} (h : Keeps s u) : Keeps s (spdmError x1 u) := by
  unfold spdmError
  repeat' first | with_reducible assumption | with_reducible apply keeps_emit

theorem keeps_spdmAnswer {s u : State} {b t} {f : State → State} (h : Keeps s u) (hf : ∀ v, Keeps s v → Keeps s (f v)) :
    Keeps s (spdmAnswer t b f u) := by
  unfold spdmAnswer; repeat' first
    | with_reducible apply hf | with_reducible assumption | with_reducible apply keeps_ite
    | with_reducible apply keeps_spdmError

theorem keeps_signedAnswer {s u : State} (h : Keeps s u) : Keeps s (signedAnswer x1 x2 x3 x4 u) := by
  unfold signedAnswer
  repeat' first | with_reducible assumption | with_reducible apply keeps_emit | with_reducible apply keeps_tick

theorem keeps_spdmGetMeasurements {s u : State} (h : Keeps s u) : Keeps s (spdmGetMeasurements x1 x2 x3 u) := by
  unfold spdmGetMeasurements
  repeat' first
    | with_reducible assumption | with_reducible apply keeps_spdmAnswer | with_reducible apply keeps_signedAnswer

theorem keeps_spdmKeyExchange {s u : State} (h : Keeps s u) : Keeps s (spdmKeyExchange x1 x2 x3 u) := by
  unfold spdmKeyExchange
  repeat' first
    | with_reducible assumption | (intro u; (try dsimp only)) | with_reducible apply keeps_setSec
    | with_reducible apply keeps_spdmAnswer | with_reducible apply keeps_signedAnswer

theorem keeps_spdmFinish {s u : State} (h : Keeps s u) : Keeps s (spdmFinish x1 x2 x3 u) := by
  unfold spdmFinish
  repeat' first
    | with_reducible assumption | (intro u; (try dsimp only)) | with_reducible apply keeps_emit
    | with_reducible apply keeps_setSec | with_reducible apply keeps_spdmAnswer

theorem keeps_taskRoomForeignWrite {s u : State} (h : Keeps s u) : Keeps s (taskRoomForeignWrite x1 x2 u) := by
  unfold taskRoomForeignWrite
  repeat' first | with_reducible assumption | with_reducible apply keeps_raiseCtrl | split

theorem keeps_setPorter {s u : State} (h : Keeps s u) : Keeps s (setPorter x1 u) := h

theorem keeps_porterHeartbeat {s u : State} (h : Keeps s u) : Keeps s (porterHeartbeat u) := by
  unfold porterHeartbeat
  repeat' first | with_reducible assumption | with_reducible apply keeps_ite | with_reducible apply keeps_setPorter

theorem keeps_porterRestart {s u : State} (h : Keeps s u) : Keeps s (porterRestart u) := by
  unfold porterRestart
  repeat' first
    | with_reducible assumption | with_reducible apply keeps_raiseMgmt | with_reducible apply keeps_finishAll
    | with_reducible apply keeps_stopRuns | with_reducible apply keeps_setPorter

theorem keeps_porterLost {s u : State} (h : Keeps s u) : Keeps s (porterLost u) := by
  unfold porterLost
  repeat' first
    | with_reducible assumption | (intro u; (try dsimp only)) | with_reducible apply keeps_raiseMgmt
    | with_reducible apply keeps_setMb | with_reducible apply keeps_setPorter | with_reducible apply keeps_forEach

theorem keeps_porterHeartbeatTimeout {s u : State} (h : Keeps s u) : Keeps s (porterHeartbeatTimeout u) := by
  unfold porterHeartbeatTimeout
  repeat' first
    | with_reducible assumption | with_reducible apply keeps_ite | with_reducible apply keeps_porterRestart
    | with_reducible apply keeps_porterLost

theorem keeps_setHistories {s u : State} (h : Keeps s u) : Keeps s (setHistories x1 u) := by
  unfold setHistories
  repeat' first
    | with_reducible assumption | (intro u; (try dsimp only)) | with_reducible apply keeps_wr
    | with_reducible apply keeps_forEach

theorem keeps_advanceHistories {s u : State} (h : Keeps s u) : Keeps s (advanceHistories x1 u) := by
  unfold advanceHistories
  repeat' first
    | with_reducible assumption | (intro u; (try dsimp only)) | with_reducible apply keeps_wr
    | with_reducible apply keeps_forEach | (simp only [keeps_mk, keeps_mkcells]) | split

theorem keeps_firstDispatch {s u : State} (h : Keeps s u) : Keeps s (firstDispatch u) := by
  unfold firstDispatch
  repeat' first
    | with_reducible assumption | (intro u; (try dsimp only)) | with_reducible apply keeps_openGradient
    | with_reducible apply keeps_eptSwitch | with_reducible apply keeps_setHistories
    | with_reducible apply keeps_forEach | (simp only [keeps_mk, keeps_mkcells]) | split

theorem keeps_runActions {s u : State} (h : Keeps s u) : Keeps s (runActions x1 u) := by
  unfold runActions
  repeat' first
    | with_reducible assumption | (intro u; (try dsimp only)) | with_reducible apply keeps_lowerMargin
    | with_reducible apply keeps_pointBack | with_reducible apply keeps_startTowerTest
    | with_reducible apply keeps_swapNow | with_reducible apply keeps_forEach | (simp only [keeps_mk, keeps_mkcells])
    | split

theorem keeps_sweepPlans {s u : State} (h : Keeps s u) : Keeps s (sweepPlans u) := by
  unfold sweepPlans
  repeat' first | with_reducible assumption | with_reducible apply keeps_setPorter

theorem keeps_dispatchPass {s u : State} (h : Keeps s u) : Keeps s (dispatchPass u) := by
  unfold dispatchPass
  repeat' first
    | with_reducible assumption | (intro u; (try dsimp only)) | with_reducible apply keeps_ite
    | with_reducible apply keeps_raiseIrqs | with_reducible apply keeps_takeUnknown
    | with_reducible apply keeps_dispatchReady | with_reducible apply keeps_settleResults
    | with_reducible apply keeps_stackUpdates | with_reducible apply keeps_abandonRounds
    | with_reducible apply keeps_gatherRounds | with_reducible apply keeps_sendReturns
    | with_reducible apply keeps_settleRings | with_reducible apply keeps_beginWaitingTests
    | with_reducible apply keeps_setPorter | with_reducible apply keeps_firstDispatch
    | with_reducible apply keeps_runActions | with_reducible apply keeps_sweepPlans
    | with_reducible apply keeps_forEach

theorem keeps_completionRecordProcessed {s u : State} (h : Keeps s u) : Keeps s (completionRecordProcessed x1 u) := by
  unfold completionRecordProcessed
  repeat' first
    | with_reducible assumption | with_reducible apply keeps_closeRoom | with_reducible apply keeps_retireJournal
    | with_reducible apply keeps_processRecord | split

theorem keeps_pruneReds {s u : State} (h : Keeps s u) : Keeps s (pruneReds x1 u) := by
  unfold pruneReds
  repeat' first
    | with_reducible assumption | (intro u; (try dsimp only)) | with_reducible apply keeps_unpinRoom
    | with_reducible apply keeps_forEach | (simp only [keeps_mk, keeps_mkcells])

theorem keeps_endJob {s u : State} (h : Keeps s u) : Keeps s (endJob x1 u) := by
  unfold endJob
  repeat' first
    | with_reducible assumption | (intro u; (try dsimp only)) | with_reducible apply keeps_unpinRoom
    | with_reducible apply keeps_abandonFresh | with_reducible apply keeps_releasePins
    | with_reducible apply keeps_setPorter | with_reducible apply keeps_forEach
    | (simp only [keeps_mk, keeps_mkcells])

theorem keeps_stepBoundary {s u : State} (h : Keeps s u) : Keeps s (stepBoundary x1 u) := by
  unfold stepBoundary
  repeat' first
    | with_reducible assumption | with_reducible apply keeps_finish | with_reducible apply keeps_setScaled
    | with_reducible apply keeps_routerRecords | with_reducible apply keeps_lodgeBoundary
    | with_reducible apply keeps_stageInstall | with_reducible apply keeps_openQueued
    | with_reducible apply keeps_advanceHistories | with_reducible apply keeps_runActions
    | with_reducible apply keeps_pruneReds | with_reducible apply keeps_endJob | (simp only [keeps_mk, keeps_mkcells])
    | split

end Sys2Proof.Laws
end

