-- ==== Sys2Proof/Laws/State.lean ====
section
/-! SUPPORT. What each shared update of the state leaves as it was, field by field: true by unfolding one record update. -/

namespace Sys2Proof.Laws

open Sys2Proof.Machine

variable (s : State)

@[simp] theorem emit_pending {o} : (emit o s).pending = s.pending := rfl
@[simp] theorem emit_freeCount {o} : (emit o s).freeCount = s.freeCount := rfl
@[simp] theorem emit_power {o} : (emit o s).power = s.power := rfl
@[simp] theorem emit_pace {o} : (emit o s).pace = s.pace := rfl
@[simp] theorem emit_crossings {o} : (emit o s).crossings = s.crossings := rfl
@[simp] theorem emit_channels {o} : (emit o s).channels = s.channels := rfl
@[simp] theorem emit_cores {o} : (emit o s).cores = s.cores := rfl
@[simp] theorem emit_mem {o} : (emit o s).mem = s.mem := rfl
@[simp] theorem emit_rooms {o} : (emit o s).rooms = s.rooms := rfl
@[simp] theorem emit_floors {o} : (emit o s).floors = s.floors := rfl
@[simp] theorem emit_ceilings {o} : (emit o s).ceilings = s.ceilings := rfl
@[simp] theorem emit_log {o} : (emit o s).log = s.log := rfl
@[simp] theorem emit_porter {o} : (emit o s).porter = s.porter := rfl
@[simp] theorem emit_steps {o} : (emit o s).steps = s.steps := rfl
@[simp] theorem emit_params {o} : (emit o s).params = s.params := rfl
@[simp] theorem emit_red {o} : (emit o s).red = s.red := rfl
@[simp] theorem emit_exch {o} : (emit o s).exch = s.exch := rfl
@[simp] theorem emit_fab {o} : (emit o s).fab = s.fab := rfl
@[simp] theorem emit_ports {o} : (emit o s).ports = s.ports := rfl
@[simp] theorem emit_snap {o} : (emit o s).snap = s.snap := rfl
@[simp] theorem emit_restore {o} : (emit o s).restore = s.restore := rfl
@[simp] theorem emit_lodge {o} : (emit o s).lodge = s.lodge := rfl
@[simp] theorem emit_tests {o} : (emit o s).tests = s.tests := rfl
@[simp] theorem emit_gov {o} : (emit o s).gov = s.gov := rfl
@[simp] theorem emit_sec {o} : (emit o s).sec = s.sec := rfl
@[simp] theorem emit_cap {o} : (emit o s).cap = s.cap := rfl

@[simp] theorem tick_pending : (tick s).pending = s.pending := rfl
@[simp] theorem tick_power : (tick s).power = s.power := rfl
@[simp] theorem tick_pace : (tick s).pace = s.pace := rfl
@[simp] theorem tick_crossings : (tick s).crossings = s.crossings := rfl
@[simp] theorem tick_channels : (tick s).channels = s.channels := rfl
@[simp] theorem tick_cores : (tick s).cores = s.cores := rfl
@[simp] theorem tick_mem : (tick s).mem = s.mem := rfl
@[simp] theorem tick_rooms : (tick s).rooms = s.rooms := rfl
@[simp] theorem tick_floors : (tick s).floors = s.floors := rfl
@[simp] theorem tick_ceilings : (tick s).ceilings = s.ceilings := rfl
@[simp] theorem tick_log : (tick s).log = s.log := rfl
@[simp] theorem tick_porter : (tick s).porter = s.porter := rfl
@[simp] theorem tick_steps : (tick s).steps = s.steps := rfl
@[simp] theorem tick_params : (tick s).params = s.params := rfl
@[simp] theorem tick_red : (tick s).red = s.red := rfl
@[simp] theorem tick_exch : (tick s).exch = s.exch := rfl
@[simp] theorem tick_fab : (tick s).fab = s.fab := rfl
@[simp] theorem tick_ports : (tick s).ports = s.ports := rfl
@[simp] theorem tick_snap : (tick s).snap = s.snap := rfl
@[simp] theorem tick_restore : (tick s).restore = s.restore := rfl
@[simp] theorem tick_lodge : (tick s).lodge = s.lodge := rfl
@[simp] theorem tick_tests : (tick s).tests = s.tests := rfl
@[simp] theorem tick_gov : (tick s).gov = s.gov := rfl
@[simp] theorem tick_sec : (tick s).sec = s.sec := rfl
@[simp] theorem tick_cap : (tick s).cap = s.cap := rfl
@[simp] theorem tick_outs : (tick s).outs = s.outs := rfl

@[simp] theorem wr_pending {a bs} : (wr a bs s).pending = s.pending := rfl
@[simp] theorem wr_freeCount {a bs} : (wr a bs s).freeCount = s.freeCount := rfl
@[simp] theorem wr_power {a bs} : (wr a bs s).power = s.power := rfl
@[simp] theorem wr_pace {a bs} : (wr a bs s).pace = s.pace := rfl
@[simp] theorem wr_crossings {a bs} : (wr a bs s).crossings = s.crossings := rfl
@[simp] theorem wr_channels {a bs} : (wr a bs s).channels = s.channels := rfl
@[simp] theorem wr_cores {a bs} : (wr a bs s).cores = s.cores := rfl
@[simp] theorem wr_rooms {a bs} : (wr a bs s).rooms = s.rooms := rfl
@[simp] theorem wr_floors {a bs} : (wr a bs s).floors = s.floors := rfl
@[simp] theorem wr_ceilings {a bs} : (wr a bs s).ceilings = s.ceilings := rfl
@[simp] theorem wr_log {a bs} : (wr a bs s).log = s.log := rfl
@[simp] theorem wr_porter {a bs} : (wr a bs s).porter = s.porter := rfl
@[simp] theorem wr_steps {a bs} : (wr a bs s).steps = s.steps := rfl
@[simp] theorem wr_params {a bs} : (wr a bs s).params = s.params := rfl
@[simp] theorem wr_red {a bs} : (wr a bs s).red = s.red := rfl
@[simp] theorem wr_exch {a bs} : (wr a bs s).exch = s.exch := rfl
@[simp] theorem wr_fab {a bs} : (wr a bs s).fab = s.fab := rfl
@[simp] theorem wr_ports {a bs} : (wr a bs s).ports = s.ports := rfl
@[simp] theorem wr_snap {a bs} : (wr a bs s).snap = s.snap := rfl
@[simp] theorem wr_restore {a bs} : (wr a bs s).restore = s.restore := rfl
@[simp] theorem wr_lodge {a bs} : (wr a bs s).lodge = s.lodge := rfl
@[simp] theorem wr_tests {a bs} : (wr a bs s).tests = s.tests := rfl
@[simp] theorem wr_gov {a bs} : (wr a bs s).gov = s.gov := rfl
@[simp] theorem wr_sec {a bs} : (wr a bs s).sec = s.sec := rfl
@[simp] theorem wr_cap {a bs} : (wr a bs s).cap = s.cap := rfl
@[simp] theorem wr_outs {a bs} : (wr a bs s).outs = s.outs := rfl

@[simp] theorem updRoom_pending {k f} : (updRoom k f s).pending = s.pending := rfl
@[simp] theorem updRoom_freeCount {k f} : (updRoom k f s).freeCount = s.freeCount := rfl
@[simp] theorem updRoom_power {k f} : (updRoom k f s).power = s.power := rfl
@[simp] theorem updRoom_pace {k f} : (updRoom k f s).pace = s.pace := rfl
@[simp] theorem updRoom_crossings {k f} : (updRoom k f s).crossings = s.crossings := rfl
@[simp] theorem updRoom_channels {k f} : (updRoom k f s).channels = s.channels := rfl
@[simp] theorem updRoom_cores {k f} : (updRoom k f s).cores = s.cores := rfl
@[simp] theorem updRoom_mem {k f} : (updRoom k f s).mem = s.mem := rfl
@[simp] theorem updRoom_floors {k f} : (updRoom k f s).floors = s.floors := rfl
@[simp] theorem updRoom_ceilings {k f} : (updRoom k f s).ceilings = s.ceilings := rfl
@[simp] theorem updRoom_log {k f} : (updRoom k f s).log = s.log := rfl
@[simp] theorem updRoom_porter {k f} : (updRoom k f s).porter = s.porter := rfl
@[simp] theorem updRoom_steps {k f} : (updRoom k f s).steps = s.steps := rfl
@[simp] theorem updRoom_params {k f} : (updRoom k f s).params = s.params := rfl
@[simp] theorem updRoom_red {k f} : (updRoom k f s).red = s.red := rfl
@[simp] theorem updRoom_exch {k f} : (updRoom k f s).exch = s.exch := rfl
@[simp] theorem updRoom_fab {k f} : (updRoom k f s).fab = s.fab := rfl
@[simp] theorem updRoom_ports {k f} : (updRoom k f s).ports = s.ports := rfl
@[simp] theorem updRoom_snap {k f} : (updRoom k f s).snap = s.snap := rfl
@[simp] theorem updRoom_restore {k f} : (updRoom k f s).restore = s.restore := rfl
@[simp] theorem updRoom_lodge {k f} : (updRoom k f s).lodge = s.lodge := rfl
@[simp] theorem updRoom_tests {k f} : (updRoom k f s).tests = s.tests := rfl
@[simp] theorem updRoom_gov {k f} : (updRoom k f s).gov = s.gov := rfl
@[simp] theorem updRoom_sec {k f} : (updRoom k f s).sec = s.sec := rfl
@[simp] theorem updRoom_cap {k f} : (updRoom k f s).cap = s.cap := rfl
@[simp] theorem updRoom_outs {k f} : (updRoom k f s).outs = s.outs := rfl

@[simp] theorem setPace_pending {k f} : (setPace k f s).pending = s.pending := rfl
@[simp] theorem setPace_freeCount {k f} : (setPace k f s).freeCount = s.freeCount := rfl
@[simp] theorem setPace_power {k f} : (setPace k f s).power = s.power := rfl
@[simp] theorem setPace_crossings {k f} : (setPace k f s).crossings = s.crossings := rfl
@[simp] theorem setPace_channels {k f} : (setPace k f s).channels = s.channels := rfl
@[simp] theorem setPace_cores {k f} : (setPace k f s).cores = s.cores := rfl
@[simp] theorem setPace_mem {k f} : (setPace k f s).mem = s.mem := rfl
@[simp] theorem setPace_rooms {k f} : (setPace k f s).rooms = s.rooms := rfl
@[simp] theorem setPace_floors {k f} : (setPace k f s).floors = s.floors := rfl
@[simp] theorem setPace_ceilings {k f} : (setPace k f s).ceilings = s.ceilings := rfl
@[simp] theorem setPace_log {k f} : (setPace k f s).log = s.log := rfl
@[simp] theorem setPace_porter {k f} : (setPace k f s).porter = s.porter := rfl
@[simp] theorem setPace_steps {k f} : (setPace k f s).steps = s.steps := rfl
@[simp] theorem setPace_params {k f} : (setPace k f s).params = s.params := rfl
@[simp] theorem setPace_red {k f} : (setPace k f s).red = s.red := rfl
@[simp] theorem setPace_exch {k f} : (setPace k f s).exch = s.exch := rfl
@[simp] theorem setPace_fab {k f} : (setPace k f s).fab = s.fab := rfl
@[simp] theorem setPace_ports {k f} : (setPace k f s).ports = s.ports := rfl
@[simp] theorem setPace_snap {k f} : (setPace k f s).snap = s.snap := rfl
@[simp] theorem setPace_restore {k f} : (setPace k f s).restore = s.restore := rfl
@[simp] theorem setPace_lodge {k f} : (setPace k f s).lodge = s.lodge := rfl
@[simp] theorem setPace_tests {k f} : (setPace k f s).tests = s.tests := rfl
@[simp] theorem setPace_gov {k f} : (setPace k f s).gov = s.gov := rfl
@[simp] theorem setPace_sec {k f} : (setPace k f s).sec = s.sec := rfl
@[simp] theorem setPace_cap {k f} : (setPace k f s).cap = s.cap := rfl
@[simp] theorem setPace_outs {k f} : (setPace k f s).outs = s.outs := rfl

@[simp] theorem setCrossing_pending {x f} : (setCrossing x f s).pending = s.pending := rfl
@[simp] theorem setCrossing_freeCount {x f} : (setCrossing x f s).freeCount = s.freeCount := rfl
@[simp] theorem setCrossing_power {x f} : (setCrossing x f s).power = s.power := rfl
@[simp] theorem setCrossing_pace {x f} : (setCrossing x f s).pace = s.pace := rfl
@[simp] theorem setCrossing_channels {x f} : (setCrossing x f s).channels = s.channels := rfl
@[simp] theorem setCrossing_cores {x f} : (setCrossing x f s).cores = s.cores := rfl
@[simp] theorem setCrossing_mem {x f} : (setCrossing x f s).mem = s.mem := rfl
@[simp] theorem setCrossing_rooms {x f} : (setCrossing x f s).rooms = s.rooms := rfl
@[simp] theorem setCrossing_floors {x f} : (setCrossing x f s).floors = s.floors := rfl
@[simp] theorem setCrossing_ceilings {x f} : (setCrossing x f s).ceilings = s.ceilings := rfl
@[simp] theorem setCrossing_log {x f} : (setCrossing x f s).log = s.log := rfl
@[simp] theorem setCrossing_porter {x f} : (setCrossing x f s).porter = s.porter := rfl
@[simp] theorem setCrossing_steps {x f} : (setCrossing x f s).steps = s.steps := rfl
@[simp] theorem setCrossing_params {x f} : (setCrossing x f s).params = s.params := rfl
@[simp] theorem setCrossing_red {x f} : (setCrossing x f s).red = s.red := rfl
@[simp] theorem setCrossing_exch {x f} : (setCrossing x f s).exch = s.exch := rfl
@[simp] theorem setCrossing_fab {x f} : (setCrossing x f s).fab = s.fab := rfl
@[simp] theorem setCrossing_ports {x f} : (setCrossing x f s).ports = s.ports := rfl
@[simp] theorem setCrossing_snap {x f} : (setCrossing x f s).snap = s.snap := rfl
@[simp] theorem setCrossing_restore {x f} : (setCrossing x f s).restore = s.restore := rfl
@[simp] theorem setCrossing_lodge {x f} : (setCrossing x f s).lodge = s.lodge := rfl
@[simp] theorem setCrossing_tests {x f} : (setCrossing x f s).tests = s.tests := rfl
@[simp] theorem setCrossing_gov {x f} : (setCrossing x f s).gov = s.gov := rfl
@[simp] theorem setCrossing_sec {x f} : (setCrossing x f s).sec = s.sec := rfl
@[simp] theorem setCrossing_cap {x f} : (setCrossing x f s).cap = s.cap := rfl
@[simp] theorem setCrossing_outs {x f} : (setCrossing x f s).outs = s.outs := rfl

@[simp] theorem setChan_pending {k f} : (setChan k f s).pending = s.pending := rfl
@[simp] theorem setChan_freeCount {k f} : (setChan k f s).freeCount = s.freeCount := rfl
@[simp] theorem setChan_power {k f} : (setChan k f s).power = s.power := rfl
@[simp] theorem setChan_pace {k f} : (setChan k f s).pace = s.pace := rfl
@[simp] theorem setChan_crossings {k f} : (setChan k f s).crossings = s.crossings := rfl
@[simp] theorem setChan_cores {k f} : (setChan k f s).cores = s.cores := rfl
@[simp] theorem setChan_mem {k f} : (setChan k f s).mem = s.mem := rfl
@[simp] theorem setChan_rooms {k f} : (setChan k f s).rooms = s.rooms := rfl
@[simp] theorem setChan_floors {k f} : (setChan k f s).floors = s.floors := rfl
@[simp] theorem setChan_ceilings {k f} : (setChan k f s).ceilings = s.ceilings := rfl
@[simp] theorem setChan_log {k f} : (setChan k f s).log = s.log := rfl
@[simp] theorem setChan_porter {k f} : (setChan k f s).porter = s.porter := rfl
@[simp] theorem setChan_steps {k f} : (setChan k f s).steps = s.steps := rfl
@[simp] theorem setChan_params {k f} : (setChan k f s).params = s.params := rfl
@[simp] theorem setChan_red {k f} : (setChan k f s).red = s.red := rfl
@[simp] theorem setChan_exch {k f} : (setChan k f s).exch = s.exch := rfl
@[simp] theorem setChan_fab {k f} : (setChan k f s).fab = s.fab := rfl
@[simp] theorem setChan_ports {k f} : (setChan k f s).ports = s.ports := rfl
@[simp] theorem setChan_snap {k f} : (setChan k f s).snap = s.snap := rfl
@[simp] theorem setChan_restore {k f} : (setChan k f s).restore = s.restore := rfl
@[simp] theorem setChan_lodge {k f} : (setChan k f s).lodge = s.lodge := rfl
@[simp] theorem setChan_tests {k f} : (setChan k f s).tests = s.tests := rfl
@[simp] theorem setChan_gov {k f} : (setChan k f s).gov = s.gov := rfl
@[simp] theorem setChan_sec {k f} : (setChan k f s).sec = s.sec := rfl
@[simp] theorem setChan_cap {k f} : (setChan k f s).cap = s.cap := rfl
@[simp] theorem setChan_outs {k f} : (setChan k f s).outs = s.outs := rfl

@[simp] theorem setCore_pending {k f} : (setCore k f s).pending = s.pending := rfl
@[simp] theorem setCore_freeCount {k f} : (setCore k f s).freeCount = s.freeCount := rfl
@[simp] theorem setCore_power {k f} : (setCore k f s).power = s.power := rfl
@[simp] theorem setCore_pace {k f} : (setCore k f s).pace = s.pace := rfl
@[simp] theorem setCore_crossings {k f} : (setCore k f s).crossings = s.crossings := rfl
@[simp] theorem setCore_channels {k f} : (setCore k f s).channels = s.channels := rfl
@[simp] theorem setCore_mem {k f} : (setCore k f s).mem = s.mem := rfl
@[simp] theorem setCore_rooms {k f} : (setCore k f s).rooms = s.rooms := rfl
@[simp] theorem setCore_floors {k f} : (setCore k f s).floors = s.floors := rfl
@[simp] theorem setCore_ceilings {k f} : (setCore k f s).ceilings = s.ceilings := rfl
@[simp] theorem setCore_log {k f} : (setCore k f s).log = s.log := rfl
@[simp] theorem setCore_porter {k f} : (setCore k f s).porter = s.porter := rfl
@[simp] theorem setCore_steps {k f} : (setCore k f s).steps = s.steps := rfl
@[simp] theorem setCore_params {k f} : (setCore k f s).params = s.params := rfl
@[simp] theorem setCore_red {k f} : (setCore k f s).red = s.red := rfl
@[simp] theorem setCore_exch {k f} : (setCore k f s).exch = s.exch := rfl
@[simp] theorem setCore_fab {k f} : (setCore k f s).fab = s.fab := rfl
@[simp] theorem setCore_ports {k f} : (setCore k f s).ports = s.ports := rfl
@[simp] theorem setCore_snap {k f} : (setCore k f s).snap = s.snap := rfl
@[simp] theorem setCore_restore {k f} : (setCore k f s).restore = s.restore := rfl
@[simp] theorem setCore_lodge {k f} : (setCore k f s).lodge = s.lodge := rfl
@[simp] theorem setCore_tests {k f} : (setCore k f s).tests = s.tests := rfl
@[simp] theorem setCore_gov {k f} : (setCore k f s).gov = s.gov := rfl
@[simp] theorem setCore_sec {k f} : (setCore k f s).sec = s.sec := rfl
@[simp] theorem setCore_cap {k f} : (setCore k f s).cap = s.cap := rfl
@[simp] theorem setCore_outs {k f} : (setCore k f s).outs = s.outs := rfl

@[simp] theorem setMb_pending {k f} : (setMb k f s).pending = s.pending := rfl
@[simp] theorem setMb_freeCount {k f} : (setMb k f s).freeCount = s.freeCount := rfl
@[simp] theorem setMb_power {k f} : (setMb k f s).power = s.power := rfl
@[simp] theorem setMb_pace {k f} : (setMb k f s).pace = s.pace := rfl
@[simp] theorem setMb_crossings {k f} : (setMb k f s).crossings = s.crossings := rfl
@[simp] theorem setMb_channels {k f} : (setMb k f s).channels = s.channels := rfl
@[simp] theorem setMb_cores {k f} : (setMb k f s).cores = s.cores := rfl
@[simp] theorem setMb_mem {k f} : (setMb k f s).mem = s.mem := rfl
@[simp] theorem setMb_rooms {k f} : (setMb k f s).rooms = s.rooms := rfl
@[simp] theorem setMb_floors {k f} : (setMb k f s).floors = s.floors := rfl
@[simp] theorem setMb_ceilings {k f} : (setMb k f s).ceilings = s.ceilings := rfl
@[simp] theorem setMb_log {k f} : (setMb k f s).log = s.log := rfl
@[simp] theorem setMb_steps {k f} : (setMb k f s).steps = s.steps := rfl
@[simp] theorem setMb_params {k f} : (setMb k f s).params = s.params := rfl
@[simp] theorem setMb_red {k f} : (setMb k f s).red = s.red := rfl
@[simp] theorem setMb_exch {k f} : (setMb k f s).exch = s.exch := rfl
@[simp] theorem setMb_fab {k f} : (setMb k f s).fab = s.fab := rfl
@[simp] theorem setMb_ports {k f} : (setMb k f s).ports = s.ports := rfl
@[simp] theorem setMb_snap {k f} : (setMb k f s).snap = s.snap := rfl
@[simp] theorem setMb_restore {k f} : (setMb k f s).restore = s.restore := rfl
@[simp] theorem setMb_lodge {k f} : (setMb k f s).lodge = s.lodge := rfl
@[simp] theorem setMb_tests {k f} : (setMb k f s).tests = s.tests := rfl
@[simp] theorem setMb_gov {k f} : (setMb k f s).gov = s.gov := rfl
@[simp] theorem setMb_sec {k f} : (setMb k f s).sec = s.sec := rfl
@[simp] theorem setMb_cap {k f} : (setMb k f s).cap = s.cap := rfl
@[simp] theorem setMb_outs {k f} : (setMb k f s).outs = s.outs := rfl

@[simp] theorem setPorter_pending {f} : (setPorter f s).pending = s.pending := rfl
@[simp] theorem setPorter_freeCount {f} : (setPorter f s).freeCount = s.freeCount := rfl
@[simp] theorem setPorter_power {f} : (setPorter f s).power = s.power := rfl
@[simp] theorem setPorter_pace {f} : (setPorter f s).pace = s.pace := rfl
@[simp] theorem setPorter_crossings {f} : (setPorter f s).crossings = s.crossings := rfl
@[simp] theorem setPorter_channels {f} : (setPorter f s).channels = s.channels := rfl
@[simp] theorem setPorter_cores {f} : (setPorter f s).cores = s.cores := rfl
@[simp] theorem setPorter_mem {f} : (setPorter f s).mem = s.mem := rfl
@[simp] theorem setPorter_rooms {f} : (setPorter f s).rooms = s.rooms := rfl
@[simp] theorem setPorter_floors {f} : (setPorter f s).floors = s.floors := rfl
@[simp] theorem setPorter_ceilings {f} : (setPorter f s).ceilings = s.ceilings := rfl
@[simp] theorem setPorter_log {f} : (setPorter f s).log = s.log := rfl
@[simp] theorem setPorter_steps {f} : (setPorter f s).steps = s.steps := rfl
@[simp] theorem setPorter_params {f} : (setPorter f s).params = s.params := rfl
@[simp] theorem setPorter_red {f} : (setPorter f s).red = s.red := rfl
@[simp] theorem setPorter_exch {f} : (setPorter f s).exch = s.exch := rfl
@[simp] theorem setPorter_fab {f} : (setPorter f s).fab = s.fab := rfl
@[simp] theorem setPorter_ports {f} : (setPorter f s).ports = s.ports := rfl
@[simp] theorem setPorter_snap {f} : (setPorter f s).snap = s.snap := rfl
@[simp] theorem setPorter_restore {f} : (setPorter f s).restore = s.restore := rfl
@[simp] theorem setPorter_lodge {f} : (setPorter f s).lodge = s.lodge := rfl
@[simp] theorem setPorter_tests {f} : (setPorter f s).tests = s.tests := rfl
@[simp] theorem setPorter_gov {f} : (setPorter f s).gov = s.gov := rfl
@[simp] theorem setPorter_sec {f} : (setPorter f s).sec = s.sec := rfl
@[simp] theorem setPorter_cap {f} : (setPorter f s).cap = s.cap := rfl
@[simp] theorem setPorter_outs {f} : (setPorter f s).outs = s.outs := rfl

@[simp] theorem setSupply_pending {k v} : (setSupply k v s).pending = s.pending := rfl
@[simp] theorem setSupply_freeCount {k v} : (setSupply k v s).freeCount = s.freeCount := rfl
@[simp] theorem setSupply_pace {k v} : (setSupply k v s).pace = s.pace := rfl
@[simp] theorem setSupply_crossings {k v} : (setSupply k v s).crossings = s.crossings := rfl
@[simp] theorem setSupply_channels {k v} : (setSupply k v s).channels = s.channels := rfl
@[simp] theorem setSupply_cores {k v} : (setSupply k v s).cores = s.cores := rfl
@[simp] theorem setSupply_mem {k v} : (setSupply k v s).mem = s.mem := rfl
@[simp] theorem setSupply_rooms {k v} : (setSupply k v s).rooms = s.rooms := rfl
@[simp] theorem setSupply_floors {k v} : (setSupply k v s).floors = s.floors := rfl
@[simp] theorem setSupply_ceilings {k v} : (setSupply k v s).ceilings = s.ceilings := rfl
@[simp] theorem setSupply_log {k v} : (setSupply k v s).log = s.log := rfl
@[simp] theorem setSupply_porter {k v} : (setSupply k v s).porter = s.porter := rfl
@[simp] theorem setSupply_steps {k v} : (setSupply k v s).steps = s.steps := rfl
@[simp] theorem setSupply_params {k v} : (setSupply k v s).params = s.params := rfl
@[simp] theorem setSupply_red {k v} : (setSupply k v s).red = s.red := rfl
@[simp] theorem setSupply_exch {k v} : (setSupply k v s).exch = s.exch := rfl
@[simp] theorem setSupply_fab {k v} : (setSupply k v s).fab = s.fab := rfl
@[simp] theorem setSupply_ports {k v} : (setSupply k v s).ports = s.ports := rfl
@[simp] theorem setSupply_snap {k v} : (setSupply k v s).snap = s.snap := rfl
@[simp] theorem setSupply_restore {k v} : (setSupply k v s).restore = s.restore := rfl
@[simp] theorem setSupply_lodge {k v} : (setSupply k v s).lodge = s.lodge := rfl
@[simp] theorem setSupply_tests {k v} : (setSupply k v s).tests = s.tests := rfl
@[simp] theorem setSupply_gov {k v} : (setSupply k v s).gov = s.gov := rfl
@[simp] theorem setSupply_sec {k v} : (setSupply k v s).sec = s.sec := rfl
@[simp] theorem setSupply_cap {k v} : (setSupply k v s).cap = s.cap := rfl
@[simp] theorem setSupply_outs {k v} : (setSupply k v s).outs = s.outs := rfl

@[simp] theorem setGating_pending {k v} : (setGating k v s).pending = s.pending := rfl
@[simp] theorem setGating_freeCount {k v} : (setGating k v s).freeCount = s.freeCount := rfl
@[simp] theorem setGating_pace {k v} : (setGating k v s).pace = s.pace := rfl
@[simp] theorem setGating_crossings {k v} : (setGating k v s).crossings = s.crossings := rfl
@[simp] theorem setGating_channels {k v} : (setGating k v s).channels = s.channels := rfl
@[simp] theorem setGating_cores {k v} : (setGating k v s).cores = s.cores := rfl
@[simp] theorem setGating_mem {k v} : (setGating k v s).mem = s.mem := rfl
@[simp] theorem setGating_rooms {k v} : (setGating k v s).rooms = s.rooms := rfl
@[simp] theorem setGating_floors {k v} : (setGating k v s).floors = s.floors := rfl
@[simp] theorem setGating_ceilings {k v} : (setGating k v s).ceilings = s.ceilings := rfl
@[simp] theorem setGating_log {k v} : (setGating k v s).log = s.log := rfl
@[simp] theorem setGating_porter {k v} : (setGating k v s).porter = s.porter := rfl
@[simp] theorem setGating_steps {k v} : (setGating k v s).steps = s.steps := rfl
@[simp] theorem setGating_params {k v} : (setGating k v s).params = s.params := rfl
@[simp] theorem setGating_red {k v} : (setGating k v s).red = s.red := rfl
@[simp] theorem setGating_exch {k v} : (setGating k v s).exch = s.exch := rfl
@[simp] theorem setGating_fab {k v} : (setGating k v s).fab = s.fab := rfl
@[simp] theorem setGating_ports {k v} : (setGating k v s).ports = s.ports := rfl
@[simp] theorem setGating_snap {k v} : (setGating k v s).snap = s.snap := rfl
@[simp] theorem setGating_restore {k v} : (setGating k v s).restore = s.restore := rfl
@[simp] theorem setGating_lodge {k v} : (setGating k v s).lodge = s.lodge := rfl
@[simp] theorem setGating_tests {k v} : (setGating k v s).tests = s.tests := rfl
@[simp] theorem setGating_gov {k v} : (setGating k v s).gov = s.gov := rfl
@[simp] theorem setGating_sec {k v} : (setGating k v s).sec = s.sec := rfl
@[simp] theorem setGating_cap {k v} : (setGating k v s).cap = s.cap := rfl
@[simp] theorem setGating_outs {k v} : (setGating k v s).outs = s.outs := rfl

@[simp] theorem setTower_pending {k f} : (setTower k f s).pending = s.pending := rfl
@[simp] theorem setTower_freeCount {k f} : (setTower k f s).freeCount = s.freeCount := rfl
@[simp] theorem setTower_power {k f} : (setTower k f s).power = s.power := rfl
@[simp] theorem setTower_pace {k f} : (setTower k f s).pace = s.pace := rfl
@[simp] theorem setTower_crossings {k f} : (setTower k f s).crossings = s.crossings := rfl
@[simp] theorem setTower_channels {k f} : (setTower k f s).channels = s.channels := rfl
@[simp] theorem setTower_cores {k f} : (setTower k f s).cores = s.cores := rfl
@[simp] theorem setTower_mem {k f} : (setTower k f s).mem = s.mem := rfl
@[simp] theorem setTower_rooms {k f} : (setTower k f s).rooms = s.rooms := rfl
@[simp] theorem setTower_floors {k f} : (setTower k f s).floors = s.floors := rfl
@[simp] theorem setTower_ceilings {k f} : (setTower k f s).ceilings = s.ceilings := rfl
@[simp] theorem setTower_log {k f} : (setTower k f s).log = s.log := rfl
@[simp] theorem setTower_porter {k f} : (setTower k f s).porter = s.porter := rfl
@[simp] theorem setTower_steps {k f} : (setTower k f s).steps = s.steps := rfl
@[simp] theorem setTower_params {k f} : (setTower k f s).params = s.params := rfl
@[simp] theorem setTower_red {k f} : (setTower k f s).red = s.red := rfl
@[simp] theorem setTower_exch {k f} : (setTower k f s).exch = s.exch := rfl
@[simp] theorem setTower_fab {k f} : (setTower k f s).fab = s.fab := rfl
@[simp] theorem setTower_ports {k f} : (setTower k f s).ports = s.ports := rfl
@[simp] theorem setTower_snap {k f} : (setTower k f s).snap = s.snap := rfl
@[simp] theorem setTower_restore {k f} : (setTower k f s).restore = s.restore := rfl
@[simp] theorem setTower_lodge {k f} : (setTower k f s).lodge = s.lodge := rfl
@[simp] theorem setTower_tests {k f} : (setTower k f s).tests = s.tests := rfl
@[simp] theorem setTower_sec {k f} : (setTower k f s).sec = s.sec := rfl
@[simp] theorem setTower_cap {k f} : (setTower k f s).cap = s.cap := rfl
@[simp] theorem setTower_outs {k f} : (setTower k f s).outs = s.outs := rfl

@[simp] theorem setLayer_pending {k f} : (setLayer k f s).pending = s.pending := rfl
@[simp] theorem setLayer_freeCount {k f} : (setLayer k f s).freeCount = s.freeCount := rfl
@[simp] theorem setLayer_power {k f} : (setLayer k f s).power = s.power := rfl
@[simp] theorem setLayer_pace {k f} : (setLayer k f s).pace = s.pace := rfl
@[simp] theorem setLayer_crossings {k f} : (setLayer k f s).crossings = s.crossings := rfl
@[simp] theorem setLayer_channels {k f} : (setLayer k f s).channels = s.channels := rfl
@[simp] theorem setLayer_cores {k f} : (setLayer k f s).cores = s.cores := rfl
@[simp] theorem setLayer_mem {k f} : (setLayer k f s).mem = s.mem := rfl
@[simp] theorem setLayer_rooms {k f} : (setLayer k f s).rooms = s.rooms := rfl
@[simp] theorem setLayer_floors {k f} : (setLayer k f s).floors = s.floors := rfl
@[simp] theorem setLayer_ceilings {k f} : (setLayer k f s).ceilings = s.ceilings := rfl
@[simp] theorem setLayer_log {k f} : (setLayer k f s).log = s.log := rfl
@[simp] theorem setLayer_porter {k f} : (setLayer k f s).porter = s.porter := rfl
@[simp] theorem setLayer_steps {k f} : (setLayer k f s).steps = s.steps := rfl
@[simp] theorem setLayer_params {k f} : (setLayer k f s).params = s.params := rfl
@[simp] theorem setLayer_red {k f} : (setLayer k f s).red = s.red := rfl
@[simp] theorem setLayer_exch {k f} : (setLayer k f s).exch = s.exch := rfl
@[simp] theorem setLayer_fab {k f} : (setLayer k f s).fab = s.fab := rfl
@[simp] theorem setLayer_ports {k f} : (setLayer k f s).ports = s.ports := rfl
@[simp] theorem setLayer_snap {k f} : (setLayer k f s).snap = s.snap := rfl
@[simp] theorem setLayer_restore {k f} : (setLayer k f s).restore = s.restore := rfl
@[simp] theorem setLayer_lodge {k f} : (setLayer k f s).lodge = s.lodge := rfl
@[simp] theorem setLayer_tests {k f} : (setLayer k f s).tests = s.tests := rfl
@[simp] theorem setLayer_sec {k f} : (setLayer k f s).sec = s.sec := rfl
@[simp] theorem setLayer_cap {k f} : (setLayer k f s).cap = s.cap := rfl
@[simp] theorem setLayer_outs {k f} : (setLayer k f s).outs = s.outs := rfl

@[simp] theorem setGov_pending {f} : (setGov f s).pending = s.pending := rfl
@[simp] theorem setGov_freeCount {f} : (setGov f s).freeCount = s.freeCount := rfl
@[simp] theorem setGov_power {f} : (setGov f s).power = s.power := rfl
@[simp] theorem setGov_pace {f} : (setGov f s).pace = s.pace := rfl
@[simp] theorem setGov_crossings {f} : (setGov f s).crossings = s.crossings := rfl
@[simp] theorem setGov_channels {f} : (setGov f s).channels = s.channels := rfl
@[simp] theorem setGov_cores {f} : (setGov f s).cores = s.cores := rfl
@[simp] theorem setGov_mem {f} : (setGov f s).mem = s.mem := rfl
@[simp] theorem setGov_rooms {f} : (setGov f s).rooms = s.rooms := rfl
@[simp] theorem setGov_floors {f} : (setGov f s).floors = s.floors := rfl
@[simp] theorem setGov_ceilings {f} : (setGov f s).ceilings = s.ceilings := rfl
@[simp] theorem setGov_log {f} : (setGov f s).log = s.log := rfl
@[simp] theorem setGov_porter {f} : (setGov f s).porter = s.porter := rfl
@[simp] theorem setGov_steps {f} : (setGov f s).steps = s.steps := rfl
@[simp] theorem setGov_params {f} : (setGov f s).params = s.params := rfl
@[simp] theorem setGov_red {f} : (setGov f s).red = s.red := rfl
@[simp] theorem setGov_exch {f} : (setGov f s).exch = s.exch := rfl
@[simp] theorem setGov_fab {f} : (setGov f s).fab = s.fab := rfl
@[simp] theorem setGov_ports {f} : (setGov f s).ports = s.ports := rfl
@[simp] theorem setGov_snap {f} : (setGov f s).snap = s.snap := rfl
@[simp] theorem setGov_restore {f} : (setGov f s).restore = s.restore := rfl
@[simp] theorem setGov_lodge {f} : (setGov f s).lodge = s.lodge := rfl
@[simp] theorem setGov_tests {f} : (setGov f s).tests = s.tests := rfl
@[simp] theorem setGov_sec {f} : (setGov f s).sec = s.sec := rfl
@[simp] theorem setGov_cap {f} : (setGov f s).cap = s.cap := rfl
@[simp] theorem setGov_outs {f} : (setGov f s).outs = s.outs := rfl

@[simp] theorem setFab_pending {f} : (setFab f s).pending = s.pending := rfl
@[simp] theorem setFab_freeCount {f} : (setFab f s).freeCount = s.freeCount := rfl
@[simp] theorem setFab_power {f} : (setFab f s).power = s.power := rfl
@[simp] theorem setFab_pace {f} : (setFab f s).pace = s.pace := rfl
@[simp] theorem setFab_crossings {f} : (setFab f s).crossings = s.crossings := rfl
@[simp] theorem setFab_channels {f} : (setFab f s).channels = s.channels := rfl
@[simp] theorem setFab_cores {f} : (setFab f s).cores = s.cores := rfl
@[simp] theorem setFab_mem {f} : (setFab f s).mem = s.mem := rfl
@[simp] theorem setFab_rooms {f} : (setFab f s).rooms = s.rooms := rfl
@[simp] theorem setFab_floors {f} : (setFab f s).floors = s.floors := rfl
@[simp] theorem setFab_ceilings {f} : (setFab f s).ceilings = s.ceilings := rfl
@[simp] theorem setFab_log {f} : (setFab f s).log = s.log := rfl
@[simp] theorem setFab_porter {f} : (setFab f s).porter = s.porter := rfl
@[simp] theorem setFab_steps {f} : (setFab f s).steps = s.steps := rfl
@[simp] theorem setFab_params {f} : (setFab f s).params = s.params := rfl
@[simp] theorem setFab_red {f} : (setFab f s).red = s.red := rfl
@[simp] theorem setFab_exch {f} : (setFab f s).exch = s.exch := rfl
@[simp] theorem setFab_ports {f} : (setFab f s).ports = s.ports := rfl
@[simp] theorem setFab_snap {f} : (setFab f s).snap = s.snap := rfl
@[simp] theorem setFab_restore {f} : (setFab f s).restore = s.restore := rfl
@[simp] theorem setFab_lodge {f} : (setFab f s).lodge = s.lodge := rfl
@[simp] theorem setFab_tests {f} : (setFab f s).tests = s.tests := rfl
@[simp] theorem setFab_gov {f} : (setFab f s).gov = s.gov := rfl
@[simp] theorem setFab_sec {f} : (setFab f s).sec = s.sec := rfl
@[simp] theorem setFab_cap {f} : (setFab f s).cap = s.cap := rfl
@[simp] theorem setFab_outs {f} : (setFab f s).outs = s.outs := rfl

@[simp] theorem setRing_pending {k f} : (setRing k f s).pending = s.pending := rfl
@[simp] theorem setRing_freeCount {k f} : (setRing k f s).freeCount = s.freeCount := rfl
@[simp] theorem setRing_power {k f} : (setRing k f s).power = s.power := rfl
@[simp] theorem setRing_pace {k f} : (setRing k f s).pace = s.pace := rfl
@[simp] theorem setRing_crossings {k f} : (setRing k f s).crossings = s.crossings := rfl
@[simp] theorem setRing_channels {k f} : (setRing k f s).channels = s.channels := rfl
@[simp] theorem setRing_cores {k f} : (setRing k f s).cores = s.cores := rfl
@[simp] theorem setRing_mem {k f} : (setRing k f s).mem = s.mem := rfl
@[simp] theorem setRing_rooms {k f} : (setRing k f s).rooms = s.rooms := rfl
@[simp] theorem setRing_floors {k f} : (setRing k f s).floors = s.floors := rfl
@[simp] theorem setRing_ceilings {k f} : (setRing k f s).ceilings = s.ceilings := rfl
@[simp] theorem setRing_log {k f} : (setRing k f s).log = s.log := rfl
@[simp] theorem setRing_porter {k f} : (setRing k f s).porter = s.porter := rfl
@[simp] theorem setRing_steps {k f} : (setRing k f s).steps = s.steps := rfl
@[simp] theorem setRing_params {k f} : (setRing k f s).params = s.params := rfl
@[simp] theorem setRing_red {k f} : (setRing k f s).red = s.red := rfl
@[simp] theorem setRing_exch {k f} : (setRing k f s).exch = s.exch := rfl
@[simp] theorem setRing_ports {k f} : (setRing k f s).ports = s.ports := rfl
@[simp] theorem setRing_snap {k f} : (setRing k f s).snap = s.snap := rfl
@[simp] theorem setRing_restore {k f} : (setRing k f s).restore = s.restore := rfl
@[simp] theorem setRing_lodge {k f} : (setRing k f s).lodge = s.lodge := rfl
@[simp] theorem setRing_tests {k f} : (setRing k f s).tests = s.tests := rfl
@[simp] theorem setRing_gov {k f} : (setRing k f s).gov = s.gov := rfl
@[simp] theorem setRing_sec {k f} : (setRing k f s).sec = s.sec := rfl
@[simp] theorem setRing_cap {k f} : (setRing k f s).cap = s.cap := rfl
@[simp] theorem setRing_outs {k f} : (setRing k f s).outs = s.outs := rfl

@[simp] theorem setLane_pending {k v} : (setLane k v s).pending = s.pending := rfl
@[simp] theorem setLane_freeCount {k v} : (setLane k v s).freeCount = s.freeCount := rfl
@[simp] theorem setLane_power {k v} : (setLane k v s).power = s.power := rfl
@[simp] theorem setLane_pace {k v} : (setLane k v s).pace = s.pace := rfl
@[simp] theorem setLane_crossings {k v} : (setLane k v s).crossings = s.crossings := rfl
@[simp] theorem setLane_channels {k v} : (setLane k v s).channels = s.channels := rfl
@[simp] theorem setLane_cores {k v} : (setLane k v s).cores = s.cores := rfl
@[simp] theorem setLane_mem {k v} : (setLane k v s).mem = s.mem := rfl
@[simp] theorem setLane_rooms {k v} : (setLane k v s).rooms = s.rooms := rfl
@[simp] theorem setLane_floors {k v} : (setLane k v s).floors = s.floors := rfl
@[simp] theorem setLane_ceilings {k v} : (setLane k v s).ceilings = s.ceilings := rfl
@[simp] theorem setLane_log {k v} : (setLane k v s).log = s.log := rfl
@[simp] theorem setLane_porter {k v} : (setLane k v s).porter = s.porter := rfl
@[simp] theorem setLane_steps {k v} : (setLane k v s).steps = s.steps := rfl
@[simp] theorem setLane_params {k v} : (setLane k v s).params = s.params := rfl
@[simp] theorem setLane_red {k v} : (setLane k v s).red = s.red := rfl
@[simp] theorem setLane_exch {k v} : (setLane k v s).exch = s.exch := rfl
@[simp] theorem setLane_ports {k v} : (setLane k v s).ports = s.ports := rfl
@[simp] theorem setLane_snap {k v} : (setLane k v s).snap = s.snap := rfl
@[simp] theorem setLane_restore {k v} : (setLane k v s).restore = s.restore := rfl
@[simp] theorem setLane_lodge {k v} : (setLane k v s).lodge = s.lodge := rfl
@[simp] theorem setLane_tests {k v} : (setLane k v s).tests = s.tests := rfl
@[simp] theorem setLane_gov {k v} : (setLane k v s).gov = s.gov := rfl
@[simp] theorem setLane_sec {k v} : (setLane k v s).sec = s.sec := rfl
@[simp] theorem setLane_cap {k v} : (setLane k v s).cap = s.cap := rfl
@[simp] theorem setLane_outs {k v} : (setLane k v s).outs = s.outs := rfl

@[simp] theorem setExch_pending {f} : (setExch f s).pending = s.pending := rfl
@[simp] theorem setExch_freeCount {f} : (setExch f s).freeCount = s.freeCount := rfl
@[simp] theorem setExch_power {f} : (setExch f s).power = s.power := rfl
@[simp] theorem setExch_pace {f} : (setExch f s).pace = s.pace := rfl
@[simp] theorem setExch_crossings {f} : (setExch f s).crossings = s.crossings := rfl
@[simp] theorem setExch_channels {f} : (setExch f s).channels = s.channels := rfl
@[simp] theorem setExch_cores {f} : (setExch f s).cores = s.cores := rfl
@[simp] theorem setExch_mem {f} : (setExch f s).mem = s.mem := rfl
@[simp] theorem setExch_rooms {f} : (setExch f s).rooms = s.rooms := rfl
@[simp] theorem setExch_floors {f} : (setExch f s).floors = s.floors := rfl
@[simp] theorem setExch_ceilings {f} : (setExch f s).ceilings = s.ceilings := rfl
@[simp] theorem setExch_log {f} : (setExch f s).log = s.log := rfl
@[simp] theorem setExch_porter {f} : (setExch f s).porter = s.porter := rfl
@[simp] theorem setExch_steps {f} : (setExch f s).steps = s.steps := rfl
@[simp] theorem setExch_params {f} : (setExch f s).params = s.params := rfl
@[simp] theorem setExch_red {f} : (setExch f s).red = s.red := rfl
@[simp] theorem setExch_fab {f} : (setExch f s).fab = s.fab := rfl
@[simp] theorem setExch_ports {f} : (setExch f s).ports = s.ports := rfl
@[simp] theorem setExch_snap {f} : (setExch f s).snap = s.snap := rfl
@[simp] theorem setExch_restore {f} : (setExch f s).restore = s.restore := rfl
@[simp] theorem setExch_lodge {f} : (setExch f s).lodge = s.lodge := rfl
@[simp] theorem setExch_tests {f} : (setExch f s).tests = s.tests := rfl
@[simp] theorem setExch_gov {f} : (setExch f s).gov = s.gov := rfl
@[simp] theorem setExch_sec {f} : (setExch f s).sec = s.sec := rfl
@[simp] theorem setExch_cap {f} : (setExch f s).cap = s.cap := rfl
@[simp] theorem setExch_outs {f} : (setExch f s).outs = s.outs := rfl

@[simp] theorem setTests_pending {f} : (setTests f s).pending = s.pending := rfl
@[simp] theorem setTests_freeCount {f} : (setTests f s).freeCount = s.freeCount := rfl
@[simp] theorem setTests_power {f} : (setTests f s).power = s.power := rfl
@[simp] theorem setTests_pace {f} : (setTests f s).pace = s.pace := rfl
@[simp] theorem setTests_crossings {f} : (setTests f s).crossings = s.crossings := rfl
@[simp] theorem setTests_channels {f} : (setTests f s).channels = s.channels := rfl
@[simp] theorem setTests_cores {f} : (setTests f s).cores = s.cores := rfl
@[simp] theorem setTests_mem {f} : (setTests f s).mem = s.mem := rfl
@[simp] theorem setTests_rooms {f} : (setTests f s).rooms = s.rooms := rfl
@[simp] theorem setTests_floors {f} : (setTests f s).floors = s.floors := rfl
@[simp] theorem setTests_ceilings {f} : (setTests f s).ceilings = s.ceilings := rfl
@[simp] theorem setTests_log {f} : (setTests f s).log = s.log := rfl
@[simp] theorem setTests_porter {f} : (setTests f s).porter = s.porter := rfl
@[simp] theorem setTests_steps {f} : (setTests f s).steps = s.steps := rfl
@[simp] theorem setTests_params {f} : (setTests f s).params = s.params := rfl
@[simp] theorem setTests_red {f} : (setTests f s).red = s.red := rfl
@[simp] theorem setTests_exch {f} : (setTests f s).exch = s.exch := rfl
@[simp] theorem setTests_fab {f} : (setTests f s).fab = s.fab := rfl
@[simp] theorem setTests_ports {f} : (setTests f s).ports = s.ports := rfl
@[simp] theorem setTests_snap {f} : (setTests f s).snap = s.snap := rfl
@[simp] theorem setTests_restore {f} : (setTests f s).restore = s.restore := rfl
@[simp] theorem setTests_lodge {f} : (setTests f s).lodge = s.lodge := rfl
@[simp] theorem setTests_gov {f} : (setTests f s).gov = s.gov := rfl
@[simp] theorem setTests_sec {f} : (setTests f s).sec = s.sec := rfl
@[simp] theorem setTests_cap {f} : (setTests f s).cap = s.cap := rfl
@[simp] theorem setTests_outs {f} : (setTests f s).outs = s.outs := rfl

@[simp] theorem setSec_pending {f} : (setSec f s).pending = s.pending := rfl
@[simp] theorem setSec_freeCount {f} : (setSec f s).freeCount = s.freeCount := rfl
@[simp] theorem setSec_power {f} : (setSec f s).power = s.power := rfl
@[simp] theorem setSec_pace {f} : (setSec f s).pace = s.pace := rfl
@[simp] theorem setSec_crossings {f} : (setSec f s).crossings = s.crossings := rfl
@[simp] theorem setSec_channels {f} : (setSec f s).channels = s.channels := rfl
@[simp] theorem setSec_cores {f} : (setSec f s).cores = s.cores := rfl
@[simp] theorem setSec_mem {f} : (setSec f s).mem = s.mem := rfl
@[simp] theorem setSec_rooms {f} : (setSec f s).rooms = s.rooms := rfl
@[simp] theorem setSec_floors {f} : (setSec f s).floors = s.floors := rfl
@[simp] theorem setSec_ceilings {f} : (setSec f s).ceilings = s.ceilings := rfl
@[simp] theorem setSec_log {f} : (setSec f s).log = s.log := rfl
@[simp] theorem setSec_porter {f} : (setSec f s).porter = s.porter := rfl
@[simp] theorem setSec_steps {f} : (setSec f s).steps = s.steps := rfl
@[simp] theorem setSec_params {f} : (setSec f s).params = s.params := rfl
@[simp] theorem setSec_red {f} : (setSec f s).red = s.red := rfl
@[simp] theorem setSec_exch {f} : (setSec f s).exch = s.exch := rfl
@[simp] theorem setSec_fab {f} : (setSec f s).fab = s.fab := rfl
@[simp] theorem setSec_ports {f} : (setSec f s).ports = s.ports := rfl
@[simp] theorem setSec_snap {f} : (setSec f s).snap = s.snap := rfl
@[simp] theorem setSec_restore {f} : (setSec f s).restore = s.restore := rfl
@[simp] theorem setSec_lodge {f} : (setSec f s).lodge = s.lodge := rfl
@[simp] theorem setSec_tests {f} : (setSec f s).tests = s.tests := rfl
@[simp] theorem setSec_gov {f} : (setSec f s).gov = s.gov := rfl
@[simp] theorem setSec_cap {f} : (setSec f s).cap = s.cap := rfl
@[simp] theorem setSec_outs {f} : (setSec f s).outs = s.outs := rfl

@[simp] theorem setLodge_pending {f} : (setLodge f s).pending = s.pending := rfl
@[simp] theorem setLodge_freeCount {f} : (setLodge f s).freeCount = s.freeCount := rfl
@[simp] theorem setLodge_power {f} : (setLodge f s).power = s.power := rfl
@[simp] theorem setLodge_pace {f} : (setLodge f s).pace = s.pace := rfl
@[simp] theorem setLodge_crossings {f} : (setLodge f s).crossings = s.crossings := rfl
@[simp] theorem setLodge_channels {f} : (setLodge f s).channels = s.channels := rfl
@[simp] theorem setLodge_cores {f} : (setLodge f s).cores = s.cores := rfl
@[simp] theorem setLodge_mem {f} : (setLodge f s).mem = s.mem := rfl
@[simp] theorem setLodge_rooms {f} : (setLodge f s).rooms = s.rooms := rfl
@[simp] theorem setLodge_floors {f} : (setLodge f s).floors = s.floors := rfl
@[simp] theorem setLodge_ceilings {f} : (setLodge f s).ceilings = s.ceilings := rfl
@[simp] theorem setLodge_log {f} : (setLodge f s).log = s.log := rfl
@[simp] theorem setLodge_porter {f} : (setLodge f s).porter = s.porter := rfl
@[simp] theorem setLodge_steps {f} : (setLodge f s).steps = s.steps := rfl
@[simp] theorem setLodge_params {f} : (setLodge f s).params = s.params := rfl
@[simp] theorem setLodge_red {f} : (setLodge f s).red = s.red := rfl
@[simp] theorem setLodge_exch {f} : (setLodge f s).exch = s.exch := rfl
@[simp] theorem setLodge_fab {f} : (setLodge f s).fab = s.fab := rfl
@[simp] theorem setLodge_ports {f} : (setLodge f s).ports = s.ports := rfl
@[simp] theorem setLodge_snap {f} : (setLodge f s).snap = s.snap := rfl
@[simp] theorem setLodge_restore {f} : (setLodge f s).restore = s.restore := rfl
@[simp] theorem setLodge_tests {f} : (setLodge f s).tests = s.tests := rfl
@[simp] theorem setLodge_gov {f} : (setLodge f s).gov = s.gov := rfl
@[simp] theorem setLodge_sec {f} : (setLodge f s).sec = s.sec := rfl
@[simp] theorem setLodge_cap {f} : (setLodge f s).cap = s.cap := rfl
@[simp] theorem setLodge_outs {f} : (setLodge f s).outs = s.outs := rfl

@[simp] theorem raise_pending {c p d as} : (raise c p d as s).pending = s.pending := rfl
@[simp] theorem raise_freeCount {c p d as} : (raise c p d as s).freeCount = s.freeCount := rfl
@[simp] theorem raise_pace {c p d as} : (raise c p d as s).pace = s.pace := rfl
@[simp] theorem raise_crossings {c p d as} : (raise c p d as s).crossings = s.crossings := rfl
@[simp] theorem raise_channels {c p d as} : (raise c p d as s).channels = s.channels := rfl
@[simp] theorem raise_cores {c p d as} : (raise c p d as s).cores = s.cores := rfl
@[simp] theorem raise_mem {c p d as} : (raise c p d as s).mem = s.mem := rfl
@[simp] theorem raise_rooms {c p d as} : (raise c p d as s).rooms = s.rooms := rfl
@[simp] theorem raise_floors {c p d as} : (raise c p d as s).floors = s.floors := rfl
@[simp] theorem raise_ceilings {c p d as} : (raise c p d as s).ceilings = s.ceilings := rfl
@[simp] theorem raise_steps {c p d as} : (raise c p d as s).steps = s.steps := rfl
@[simp] theorem raise_params {c p d as} : (raise c p d as s).params = s.params := rfl
@[simp] theorem raise_red {c p d as} : (raise c p d as s).red = s.red := rfl
@[simp] theorem raise_exch {c p d as} : (raise c p d as s).exch = s.exch := rfl
@[simp] theorem raise_fab {c p d as} : (raise c p d as s).fab = s.fab := rfl
@[simp] theorem raise_ports {c p d as} : (raise c p d as s).ports = s.ports := rfl
@[simp] theorem raise_snap {c p d as} : (raise c p d as s).snap = s.snap := rfl
@[simp] theorem raise_restore {c p d as} : (raise c p d as s).restore = s.restore := rfl
@[simp] theorem raise_lodge {c p d as} : (raise c p d as s).lodge = s.lodge := rfl
@[simp] theorem raise_tests {c p d as} : (raise c p d as s).tests = s.tests := rfl
@[simp] theorem raise_gov {c p d as} : (raise c p d as s).gov = s.gov := rfl
@[simp] theorem raise_sec {c p d as} : (raise c p d as s).sec = s.sec := rfl
@[simp] theorem raise_cap {c p d as} : (raise c p d as s).cap = s.cap := rfl
@[simp] theorem raise_outs {c p d as} : (raise c p d as s).outs = s.outs := rfl
@[simp] theorem raise_power_phase {c p d as} : (raise c p d as s).power.phase = s.power.phase := rfl
@[simp] theorem raise_power_pwrEn {c p d as} : (raise c p d as s).power.pwrEn = s.power.pwrEn := rfl
@[simp] theorem raise_power_modRst {c p d as} : (raise c p d as s).power.modRst = s.power.modRst := rfl
@[simp] theorem raise_power_perst {c p d as} : (raise c p d as s).power.perst = s.power.perst := rfl
@[simp] theorem raise_power_zeroPin {c p d as} : (raise c p d as s).power.zeroPin = s.power.zeroPin := rfl
@[simp] theorem raise_power_vralert {c p d as} : (raise c p d as s).power.vralert = s.power.vralert := rfl
@[simp] theorem raise_power_coolFail {c p d as} : (raise c p d as s).power.coolFail = s.power.coolFail := rfl
@[simp] theorem raise_power_thermTrip {c p d as} : (raise c p d as s).power.thermTrip = s.power.thermTrip := rfl
@[simp] theorem raise_power_domains {c p d as} : (raise c p d as s).power.domains = s.power.domains := rfl
@[simp] theorem raise_power_gating {c p d as} : (raise c p d as s).power.gating = s.power.gating := rfl
@[simp] theorem raise_power_downCause {c p d as} : (raise c p d as s).power.downCause = s.power.downCause := rfl
@[simp] theorem raise_power_inputLow {c p d as} : (raise c p d as s).power.inputLow = s.power.inputLow := rfl
@[simp] theorem raise_power_convertersFailed {c p d as} : (raise c p d as s).power.convertersFailed = s.power.convertersFailed := rfl
@[simp] theorem raise_power_stackAttempts {c p d as} : (raise c p d as s).power.stackAttempts = s.power.stackAttempts := rfl
@[simp] theorem raise_power_stacksDone {c p d as} : (raise c p d as s).power.stacksDone = s.power.stacksDone := rfl
@[simp] theorem raise_power_cellarAttempts {c p d as} : (raise c p d as s).power.cellarAttempts = s.power.cellarAttempts := rfl
@[simp] theorem raise_power_cellarRounds {c p d as} : (raise c p d as s).power.cellarRounds = s.power.cellarRounds := rfl
@[simp] theorem raise_power_cellarWithdrawn {c p d as} : (raise c p d as s).power.cellarWithdrawn = s.power.cellarWithdrawn := rfl
@[simp] theorem raise_power_towersTested {c p d as} : (raise c p d as s).power.towersTested = s.power.towersTested := rfl
@[simp] theorem raise_power_mereZeroed {c p d as} : (raise c p d as s).power.mereZeroed = s.power.mereZeroed := rfl
@[simp] theorem raise_power_strapSlot {c p d as} : (raise c p d as s).power.strapSlot = s.power.strapSlot := rfl
@[simp] theorem raise_power_strapFeed {c p d as} : (raise c p d as s).power.strapFeed = s.power.strapFeed := rfl
@[simp] theorem raise_power_slotId {c p d as} : (raise c p d as s).power.slotId = s.power.slotId := rfl
@[simp] theorem raise_power_feedTag {c p d as} : (raise c p d as s).power.feedTag = s.power.feedTag := rfl
@[simp] theorem raise_power_fruStorRole {c p d as} : (raise c p d as s).power.fruStorRole = s.power.fruStorRole := rfl
@[simp] theorem raise_power_fruRecord {c p d as} : (raise c p d as s).power.fruRecord = s.power.fruRecord := rfl
@[simp] theorem raise_power_i3cAddr {c p d as} : (raise c p d as s).power.i3cAddr = s.power.i3cAddr := rfl
@[simp] theorem raise_power_roleRequested {c p d as} : (raise c p d as s).power.roleRequested = s.power.roleRequested := rfl
@[simp] theorem raise_power_roleGranted {c p d as} : (raise c p d as s).power.roleGranted = s.power.roleGranted := rfl
@[simp] theorem raise_porter_porter {c p d as} : (raise c p d as s).porter.porter = s.porter.porter := by
  unfold raise; dsimp only; split <;> rfl
@[simp] theorem raise_porter_keeper {c p d as} : (raise c p d as s).porter.keeper = s.porter.keeper := by
  unfold raise; dsimp only; split <;> rfl
@[simp] theorem raise_porter_ready {c p d as} : (raise c p d as s).porter.ready = s.porter.ready := by
  unfold raise; dsimp only; split <;> rfl
@[simp] theorem raise_porter_bar0Misuse {c p d as} : (raise c p d as s).porter.bar0Misuse = s.porter.bar0Misuse := by
  unfold raise; dsimp only; split <;> rfl
@[simp] theorem raise_porter_pass {c p d as} : (raise c p d as s).porter.pass = s.porter.pass := by
  unfold raise; dsimp only; split <;> rfl
@[simp] theorem raise_porter_heartbeats {c p d as} : (raise c p d as s).porter.heartbeats = s.porter.heartbeats := by
  unfold raise; dsimp only; split <;> rfl
@[simp] theorem raise_porter_restarts {c p d as} : (raise c p d as s).porter.restarts = s.porter.restarts := by
  unfold raise; dsimp only; split <;> rfl
@[simp] theorem raise_porter_stoppedSince {c p d as} : (raise c p d as s).porter.stoppedSince = s.porter.stoppedSince := by
  unfold raise; dsimp only; split <;> rfl
@[simp] theorem raise_porter_mailboxes {c p d as} : (raise c p d as s).porter.mailboxes = s.porter.mailboxes := by
  unfold raise; dsimp only; split <;> rfl
@[simp] theorem raise_porter_mbxErr {c p d as} : (raise c p d as s).porter.mbxErr = s.porter.mbxErr := by
  unfold raise; dsimp only; split <;> rfl
@[simp] theorem raise_porter_sessions {c p d as} : (raise c p d as s).porter.sessions = s.porter.sessions := by
  unfold raise; dsimp only; split <;> rfl
@[simp] theorem raise_porter_irqDue {c p d as} : (raise c p d as s).porter.irqDue = s.porter.irqDue := by
  unfold raise; dsimp only; split <;> rfl
@[simp] theorem raise_porter_outstanding {c p d as} : (raise c p d as s).porter.outstanding = s.porter.outstanding := by
  unfold raise; dsimp only; split <;> rfl
@[simp] theorem raise_porter_passOrders {c p d as} : (raise c p d as s).porter.passOrders = s.porter.passOrders := by
  unfold raise; dsimp only; split <;> rfl
@[simp] theorem raise_porter_limitOrders {c p d as} : (raise c p d as s).porter.limitOrders = s.porter.limitOrders := by
  unfold raise; dsimp only; split <;> rfl
@[simp] theorem raise_porter_plans {c p d as} : (raise c p d as s).porter.plans = s.porter.plans := by
  unfold raise; dsimp only; split <;> rfl
@[simp] theorem raise_porter_unloaded {c p d as} : (raise c p d as s).porter.unloaded = s.porter.unloaded := by
  unfold raise; dsimp only; split <;> rfl
@[simp] theorem raise_porter_nextHandle {c p d as} : (raise c p d as s).porter.nextHandle = s.porter.nextHandle := by
  unfold raise; dsimp only; split <;> rfl
@[simp] theorem raise_porter_halted {c p d as} : (raise c p d as s).porter.halted = s.porter.halted := by
  unfold raise; dsimp only; split <;> rfl
@[simp] theorem raise_porter_haltSetter {c p d as} : (raise c p d as s).porter.haltSetter = s.porter.haltSetter := by
  unfold raise; dsimp only; split <;> rfl
@[simp] theorem raise_porter_sustainSetter {c p d as} : (raise c p d as s).porter.sustainSetter = s.porter.sustainSetter := by
  unfold raise; dsimp only; split <;> rfl
@[simp] theorem raise_porter_peakSetter {c p d as} : (raise c p d as s).porter.peakSetter = s.porter.peakSetter := by
  unfold raise; dsimp only; split <;> rfl
@[simp] theorem raise_porter_windowSetter {c p d as} : (raise c p d as s).porter.windowSetter = s.porter.windowSetter := by
  unfold raise; dsimp only; split <;> rfl
@[simp] theorem raise_porter_ceilSetter {c p d as} : (raise c p d as s).porter.ceilSetter = s.porter.ceilSetter := by
  unfold raise; dsimp only; split <;> rfl
@[simp] theorem raise_porter_lastLineSetter {c p d as} : (raise c p d as s).porter.lastLineSetter = s.porter.lastLineSetter := by
  unfold raise; dsimp only; split <;> rfl
@[simp] theorem raise_porter_budgetRead {c p d as} : (raise c p d as s).porter.budgetRead = s.porter.budgetRead := by
  unfold raise; dsimp only; split <;> rfl
@[simp] theorem raise_porter_journal {c p d as} : (raise c p d as s).porter.journal = s.porter.journal := by
  unfold raise; dsimp only; split <;> rfl

/-- An event of Keeper or of Porter is an event. -/
@[simp] theorem raiseMgmt_eq {c as} : raiseMgmt c as s = raise c mgmt dieControl as s := rfl
@[simp] theorem raiseCtrl_eq {c as} : raiseCtrl c as s = raise c ctrl dieControl as s := rfl

@[simp] theorem capBump_pending : (capBump s).pending = s.pending := by
  unfold capBump; split <;> rfl
@[simp] theorem capBump_freeCount : (capBump s).freeCount = s.freeCount := by
  unfold capBump; split <;> rfl
@[simp] theorem capBump_power : (capBump s).power = s.power := by
  unfold capBump; split <;> rfl
@[simp] theorem capBump_pace : (capBump s).pace = s.pace := by
  unfold capBump; split <;> rfl
@[simp] theorem capBump_crossings : (capBump s).crossings = s.crossings := by
  unfold capBump; split <;> rfl
@[simp] theorem capBump_channels : (capBump s).channels = s.channels := by
  unfold capBump; split <;> rfl
@[simp] theorem capBump_cores : (capBump s).cores = s.cores := by
  unfold capBump; split <;> rfl
@[simp] theorem capBump_mem : (capBump s).mem = s.mem := by
  unfold capBump; split <;> rfl
@[simp] theorem capBump_rooms : (capBump s).rooms = s.rooms := by
  unfold capBump; split <;> rfl
@[simp] theorem capBump_floors : (capBump s).floors = s.floors := by
  unfold capBump; split <;> rfl
@[simp] theorem capBump_ceilings : (capBump s).ceilings = s.ceilings := by
  unfold capBump; split <;> rfl
@[simp] theorem capBump_log : (capBump s).log = s.log := by
  unfold capBump; split <;> rfl
@[simp] theorem capBump_porter : (capBump s).porter = s.porter := by
  unfold capBump; split <;> rfl
@[simp] theorem capBump_steps : (capBump s).steps = s.steps := by
  unfold capBump; split <;> rfl
@[simp] theorem capBump_params : (capBump s).params = s.params := by
  unfold capBump; split <;> rfl
@[simp] theorem capBump_red : (capBump s).red = s.red := by
  unfold capBump; split <;> rfl
@[simp] theorem capBump_exch : (capBump s).exch = s.exch := by
  unfold capBump; split <;> rfl
@[simp] theorem capBump_fab : (capBump s).fab = s.fab := by
  unfold capBump; split <;> rfl
@[simp] theorem capBump_ports : (capBump s).ports = s.ports := by
  unfold capBump; split <;> rfl
@[simp] theorem capBump_snap : (capBump s).snap = s.snap := by
  unfold capBump; split <;> rfl
@[simp] theorem capBump_restore : (capBump s).restore = s.restore := by
  unfold capBump; split <;> rfl
@[simp] theorem capBump_lodge : (capBump s).lodge = s.lodge := by
  unfold capBump; split <;> rfl
@[simp] theorem capBump_tests : (capBump s).tests = s.tests := by
  unfold capBump; split <;> rfl
@[simp] theorem capBump_gov : (capBump s).gov = s.gov := by
  unfold capBump; split <;> rfl
@[simp] theorem capBump_sec : (capBump s).sec = s.sec := by
  unfold capBump; split <;> rfl
@[simp] theorem capBump_outs : (capBump s).outs = s.outs := by
  unfold capBump; split <;> rfl

end Sys2Proof.Laws
end

