-- ==== Sys2Proof/Laws/Ops.lean ====
section
/-! SUPPORT. What the shared operations do: tables and their accessors, folds over a list, an event, an order that is taken
and answered. -/

namespace Sys2Proof.Laws

open Sys2Proof.Machine Sys2Proof.Safety

/-! ### Tables -/

/-- An entry after one entry has been set: the one set, every other as before. -/
@[simp] theorem tfind?_tset {α : Type} (t : Table α) (k j : Nat) (a : α) :
    tfind? (tset t k a) j = if j = k then some a else tfind? t j := by
  induction t with
  | nil => by_cases h : j = k <;> simp [tset, tfind?, h, Ne.symm]
  | cons p t ih =>
    obtain ⟨i, b⟩ := p
    simp only [tset]
    split
    · by_cases h : j = k
      · subst h; simp [tfind?]
      · have : (k == j) = false := by simpa using Ne.symm h
        simp [tfind?, h, this]
    · split
      · rename_i he
        have he : k = i := by simpa using he
        subst he
        by_cases h : j = k
        · subst h; simp [tfind?]
        · have : (k == j) = false := by simpa using Ne.symm h
          simp [tfind?, h, this]
      · rename_i he
        have he : k ≠ i := by simpa using he
        by_cases h : i = j
        · subst h
          have : ¬ i = k := fun x => he x.symm
          simp [tfind?, this]
        · have : (i == j) = false := by simp [h]
          simp [tfind?, this, ih]

@[simp] theorem tget_tset {α : Type} (t : Table α) (k j : Nat) (a d : α) :
    tget (tset t k a) j d = if j = k then a else tget t j d := by
  simp only [tget, tfind?_tset]; split <;> rfl

@[simp] theorem tget_tmod {α : Type} (t : Table α) (k j : Nat) (d : α) (f : α → α) :
    tget (tmod t k d f) j d = if j = k then f (tget t j d) else tget t j d := by
  simp only [tmod, tget_tset]; split
  · next h => rw [h]
  · rfl

@[simp] theorem tfind?_tmod {α : Type} (t : Table α) (k j : Nat) (d : α) (f : α → α) :
    tfind? (tmod t k d f) j = if j = k then some (f (tget t k d)) else tfind? t j := by simp [tmod]

/-- An entry after one entry has been deleted. -/
@[simp] theorem tfind?_tdel {α : Type} (t : Table α) (k j : Nat) :
    tfind? (tdel t k) j = if j = k then none else tfind? t j := by
  induction t with
  | nil => simp [tdel, tfind?]
  | cons p t ih =>
    obtain ⟨i, b⟩ := p
    simp only [tdel] at ih ⊢
    by_cases h : i = k
    · subst h
      simp only [List.filter, bne_self_eq_false, ih]
      by_cases hj : j = i
      · simp [hj]
      · have : (i == j) = false := by simpa using Ne.symm hj
        simp [tfind?, hj, this]
    · have hk : (i != k) = true := by simp [h]
      simp only [List.filter, hk]
      by_cases hj : i = j
      · subst hj; simp [tfind?, h]
      · have : (i == j) = false := by simp [hj]
        simp [tfind?, this, ih]

/-- An entry after the entries of one number have been changed. -/
@[simp] theorem tfind?_tupd {α : Type} (t : Table α) (k j : Nat) (f : α → α) :
    tfind? (tupd t k f) j = if j = k then (tfind? t j).map f else tfind? t j := by
  induction t with
  | nil => simp [tupd, tfind?]
  | cons p t ih =>
    obtain ⟨i, b⟩ := p
    simp only [tupd, List.map, beq_iff_eq] at ih ⊢
    by_cases h : i = k
    · subst h
      by_cases hj : i = j
      · subst hj; simp [tfind?]
      · have h1 : (i == j) = false := by simp [hj]
        have h2 : ¬ j = i := fun x => hj x.symm
        simp [tfind?, h1, h2, ih]
    · have hk : (i == k) = false := by simp [h]
      by_cases hj : i = j
      · subst hj; simp [tfind?, h]
      · have h1 : (i == j) = false := by simp [hj]
        simp [tfind?, h, h1, ih]

/-! ### What an accessor reads after its setter -/

variable (s : State) (n k : Nat)

theorem mbAt_setMb (f : Mailbox → Mailbox) : mbAt (setMb n f s) k = if k = n then f (mbAt s k) else mbAt s k := tget_tmod ..
theorem coreAt_setCore (f : Core → Core) : coreAt (setCore n f s) k = if k = n then f (coreAt s k) else coreAt s k :=
  tget_tmod ..
theorem paceAt_setPace (f : Pace → Pace) : paceAt (setPace n f s) k = if k = n then f (paceAt s k) else paceAt s k :=
  tget_tmod ..
theorem chan_setChan (f : Channel → Channel) : chan (setChan n f s) k = if k = n then f (chan s k) else chan s k :=
  tget_tmod ..
theorem towerGov_setTower (f : TowerGov → TowerGov) :
    towerGov (setTower n f s) k = if k = n then f (towerGov s k) else towerGov s k := tget_tmod ..
theorem layerAt_setLayer (f : Layer → Layer) : layerAt (setLayer n f s) k = if k = n then f (layerAt s k) else layerAt s k :=
  tget_tmod ..
theorem supplyAt_setSupply (v : Supply) : supplyAt (setSupply n v s) k = if k = n then v else supplyAt s k := tget_tset ..
theorem laneState_setLane (v : LaneState) : laneState (setLane n v s) k = if k = n then v else laneState s k := tget_tset ..
theorem roomAt_updRoom (f : Room → Room) : roomAt (updRoom n f s) k = if k = n then (roomAt s k).map f else roomAt s k :=
  tfind?_tupd ..
theorem ringAt_setRing (f : ReqRing → ReqRing) : ringAt (setRing n f s) k = if k = n then (ringAt s k).map f else ringAt s k :=
  tfind?_tupd ..

/-! ### Folds -/

@[simp] theorem forEach_nil {α : Type} (f : α → State → State) : forEach [] f s = s := rfl
@[simp] theorem forEach_cons {α : Type} (a : α) (l : List α) (f : α → State → State) :
    forEach (a :: l) f s = forEach l f (f a s) := rfl

/-- What every element's function keeps, the fold keeps. -/
theorem forEach_keeps {α : Type} {P : State → Prop} {l : List α} {f : α → State → State} (hf : ∀ a ∈ l, ∀ u, P u → P (f a u))
    (h : P s) : P (forEach l f s) := by
  induction l generalizing s with
  | nil => exact h
  | cons a l ih => exact ih (f a s) (fun b hb => hf b (List.mem_cons_of_mem _ hb)) (hf a List.mem_cons_self s h)

/-- What no element's function changes, the fold does not change. -/
theorem forEach_same {α β : Type} {g : State → β} {l : List α} {f : α → State → State} (hf : ∀ a ∈ l, ∀ u, g (f a u) = g u) :
    g (forEach l f s) = g s :=
  forEach_keeps (P := fun u => g u = g s) s (fun a ha u h => (hf a ha u).trans h) rfl

@[simp] theorem when_true (f : State → State) : when_ true f s = f s := rfl
@[simp] theorem when_false (f : State → State) : when_ false f s = s := rfl

/-! ### Events -/

/-- Raising an event is exactly that event. -/
theorem raise_onlyEvent (code plane die : Nat) (args : List (Nat × Nat)) :
    OnlyEvent code plane die args s (raise code plane die args s) := by
  unfold OnlyEvent raise
  refine ⟨rfl, rfl, rfl, ?_⟩
  dsimp only
  split <;> rfl

/-- The event raised has been logged. -/
theorem raise_logged (code plane die : Nat) (args : List (Nat × Nat)) : Logged code args s (raise code plane die args s) :=
  ⟨eventOf code plane die args s, by simp [raise], Nat.le_refl _, rfl, rfl⟩

/-! ### Orders -/

theorem partyOf_takeEntry (m : Nat) : partyOf (takeEntry n s) m = partyOf s m := by
  have h : (mbAt (takeEntry n s) m).session = (mbAt s m).session := by
    unfold takeEntry; rw [mbAt_setMb]; split <;> rfl
  unfold partyOf
  rw [h]
  rfl

theorem standing_takeEntry (m code : Nat) (row : OpRow) (i : BitVec 6) :
    standing (takeEntry n s) m code row i = standing s m code row i := by
  unfold standing
  rw [partyOf_takeEntry]
  rfl

theorem argBad_takeEntry (row : OpRow) (p : Pending) : argBad (takeEntry n s) row p = argBad s row p := rfl

theorem rivals_takeEntry (m : Nat) (subs : List Subject) : rivals (takeEntry n s) m subs = rivals s m subs := rfl

/-- The state in which the meaning of an order begins: the entry is taken, and the order is noted among those of the pass. -/
def takenState (code : Nat) (c : Cmd) (subs : List Subject) (s : State) : State :=
  let u := takeEntry c.mailbox.val s
  let inPass := porterRuns s && s.porter.ready
  { u with porter := { u.porter with
    passOrders := if inPass then u.porter.passOrders ++ subs.map (fun x => ⟨c.mailbox.val, c.cid, code, x⟩) else []
    limitOrders := if inPass then u.porter.limitOrders else [] } }

/-- Taking an order changes one mailbox and the notes of the pass, nothing else. -/
theorem takenState_but (code : Nat) (c : Cmd) (subs : List Subject) : ButMailbox c.mailbox.val s (takenState code c subs s) := by
  refine ⟨rfl, fun k hk => ?_⟩
  show mbAt (takeEntry c.mailbox.val s) k = mbAt s k
  unfold takeEntry
  rw [mbAt_setMb, if_neg hk]

/-- What follows from an answer: the completion, or a place among the orders that wait, its argument pinned. A BAD_ARG leaves no
trace of the meaning (00 R10): `t` is the state with the entry taken and no more. -/
def answerState (t : State) (row : OpRow) (p : Pending) (a : Ans × State) : State :=
  match a with
  | (.done r, u) => if r.st == stBadArg then complete p r t else complete p r u
  | (.wait w, u) => awaitOrder p row w u

/-- An order that passes every check: its meaning on the state in which it has been taken, and what follows from the
meaning's answer. -/
theorem order_passes {code : Nat} {c : Cmd} {subs : List Subject} {h : Handler} (p : Passes code c subs s) (lt : code < 65536) :
    ∃ row, opRow code = some row ∧
      order code c subs h s =
        answerState (takeEntry c.mailbox.val s) row (pendingOf code c s) (h (pendingOf code c s) (takenState code c subs s)) := by
  obtain ⟨can, bmc, crc, bad, ⟨row, hrow, hst, harg⟩, hriv⟩ := p
  refine ⟨row, hrow, ?_⟩
  have hcode : (BitVec.ofNat 16 code).toNat = code := Nat.mod_eq_of_lt lt
  have h1 : (c.mailbox.val == 64 && s.power.phase == Phase.bootStopped) = false := by
    by_cases h64 : c.mailbox.val = 64
    · simp [(bmc h64).1]
    · simp [h64]
  have h2 : (c.mailbox.val == 64 && (mbAt s c.mailbox.val).msgs.isEmpty && decide (8 ≤ outstandingOf s c.mailbox.val)) = false := by
    by_cases h64 : c.mailbox.val = 64
    · obtain ⟨-, h, -⟩ := bmc h64
      rcases h with h | h
      · have : (mbAt s 64).msgs.isEmpty = false := by simpa using h
        simp [h64, this]
      · have : decide (8 ≤ outstandingOf s 64) = false := by simpa using h
        simp [h64, this]
    · simp [h64]
  have h3 : (c.mailbox.val == 64 && !(porterRuns s && s.porter.ready) && !keeperTakes code) = false := by
    by_cases h64 : c.mailbox.val = 64
    · obtain ⟨-, -, h | h⟩ := bmc h64
      · simp [h]
      · simp [h]
    · simp [h64]
  have e : order code c subs h s = carry (pendingOf code c s) subs h (takeEntry c.mailbox.val s) := by
    simp only [order, h1, h2, can, pendingOf]
    simp
  rw [e]
  simp only [carry, pendingOf, hcode, crc, hrow, standing_takeEntry, rivals_takeEntry, argBad_takeEntry, bad]
  simp only [pendingOf] at hst harg
  have h3' : (c.mailbox.val == 64 && !(porterRuns (takeEntry c.mailbox.val s) && (takeEntry c.mailbox.val s).porter.ready) &&
      !keeperTakes code) = false := h3
  simp only [h3', hst, harg, hriv, List.any_nil, Bool.not_true, Bool.false_eq_true, if_false, bne_self_eq_false]
  have e2 : noteOrder (pendingOf code c s) subs (takeEntry c.mailbox.val s) = takenState code c subs s := by
    unfold noteOrder takenState
    simp only [pendingOf, hcode, rivals_takeEntry, hriv, List.filter_nil, forEach_nil]
    rfl
  simp only [pendingOf] at e2
  rw [e2]
  rfl

theorem butMailbox_refl : ButMailbox n s s := ⟨rfl, fun _ _ => rfl⟩

theorem butMailbox_trans {n : Nat} {s t u : State} (h : ButMailbox n s t) (k : ButMailbox n t u) : ButMailbox n s u := by
  refine ⟨?_, fun j hj => (k.2 j hj).trans (h.2 j hj)⟩
  have e := k.1
  rw [h.1] at e
  exact e

theorem oweIrq_but (p : Pending) : ButMailbox n s (oweIrq p s) ∧ mbAt (oweIrq p s) k = mbAt s k := by
  unfold oweIrq; split
  · exact ⟨⟨rfl, fun _ _ => rfl⟩, rfl⟩
  · exact ⟨⟨rfl, fun _ _ => rfl⟩, rfl⟩

theorem setMb_but (f : Mailbox → Mailbox) : ButMailbox n s (setMb n f s) :=
  ⟨rfl, fun k hk => by rw [mbAt_setMb, if_neg hk]⟩

/-- Posting changes one mailbox, the interrupts owed and what has been sent. -/
theorem post_but (p : Pending) (r : Reply) : ButMailbox p.cmd.mailbox.val s (post p r s) := by
  unfold post
  split
  · exact butMailbox_trans (setMb_but s _ _) (oweIrq_but _ _ 0 p).1
  · exact butMailbox_trans (setMb_but s _ _) ⟨rfl, fun _ _ => rfl⟩

/-- The entry that a posted answer reports. -/
theorem post_posted {code : Nat} {c : Cmd} {subs : List Subject} {r : Reply} {w : State}
    (hm : mbAt w c.mailbox.val = mbAt (takenState code c subs s) c.mailbox.val) :
    Posted code c r s (post (pendingOf code c s) r w) := by
  have tail : (mbAt s c.mailbox.val).cqTail = (mbAt w c.mailbox.val).cqTail := by
    rw [hm]
    show _ = (mbAt (takeEntry c.mailbox.val s) c.mailbox.val).cqTail
    unfold takeEntry; rw [mbAt_setMb, if_pos rfl]
  refine ⟨cplOf (pendingOf code c s) r w, ⟨rfl, rfl, rfl, rfl, rfl, rfl, rfl, rfl, rfl⟩, fun lt => ?_, fun ge => ?_⟩
  · have e : mbAt (post (pendingOf code c s) r w) c.mailbox.val =
        withCpl (cplOf (pendingOf code c s) r w) (mbAt w c.mailbox.val) := by
      unfold post
      rw [if_pos (show (pendingOf code c s).cmd.mailbox.val < 64 from lt), (oweIrq_but _ 0 c.mailbox.val _).2]
      exact (mbAt_setMb ..).trans (if_pos rfl)
    rw [e, tail]
    exact ⟨by simp [withCpl], rfl⟩
  · refine ⟨r.out.getD [], ?_⟩
    unfold post
    rw [if_neg (show ¬ (pendingOf code c s).cmd.mailbox.val < 64 from Nat.not_lt.mpr ge)]
    exact List.mem_cons_self

/-- An answer without output after a meaning that leaves the order's mailbox alone. -/
theorem complete_gives {code : Nat} {c : Cmd} {subs : List Subject} {r : Reply} {u w : State} (out : r.out = none)
    (hb : ButMailbox c.mailbox.val u w) (hm : mbAt w c.mailbox.val = mbAt (takenState code c subs s) c.mailbox.val) :
    Gives code c r u s (complete (pendingOf code c s) r w) := by
  have e : complete (pendingOf code c s) r w = post (pendingOf code c s) r w := by unfold complete; rw [out]
  rw [e]
  exact ⟨post_posted s hm, butMailbox_trans hb (post_but w (pendingOf code c s) r)⟩

/-- An order that passes every check and whose meaning answers at once, without output, is answered so; a BAD_ARG has no other
effect. -/
theorem order_gives {code : Nat} {c : Cmd} {subs : List Subject} {h : Handler} {r : Reply} {u w : State}
    (p : Passes code c subs s) (lt : code < 65536)
    (hh : h (pendingOf code c s) (takenState code c subs s) = (.done r, w)) (out : r.out = none)
    (hb : ButMailbox c.mailbox.val u w) (hm : mbAt w c.mailbox.val = mbAt (takenState code c subs s) c.mailbox.val)
    (hs : r.st = stBadArg → ButMailbox c.mailbox.val u s) : Gives code c r u s (order code c subs h s) := by
  obtain ⟨row, -, e⟩ := order_passes s (h := h) p lt
  rw [e, hh]
  unfold answerState; dsimp only
  split
  · next hst => exact complete_gives (subs := subs) s out (butMailbox_trans (hs (by simpa using hst)) (setMb_but s _ _)) rfl
  · exact complete_gives s out hb hm

/-- An order that passes every check and whose meaning waits, waits so. -/
theorem order_waits {code : Nat} {c : Cmd} {subs : List Subject} {h : Handler} {x : Wait} {u w : State}
    (p : Passes code c subs s) (lt : code < 65536)
    (hh : h (pendingOf code c s) (takenState code c subs s) = (.wait x, w)) (hb : ButMailbox c.mailbox.val u w) :
    WaitsFor code c x u s (order code c subs h s) := by
  obtain ⟨row, -, e⟩ := order_passes s (h := h) p lt
  rw [e, hh]
  have out : w.porter.outstanding = u.porter.outstanding := by rw [hb.1]
  obtain ⟨b1, b2⟩ := hb
  unfold answerState awaitOrder
  dsimp only
  split
  · next hp =>
    refine ⟨by rw [← out]; rfl, ⟨?_, b2⟩, fun h0 => ?_⟩
    · exact congrArg (fun v : State => { v with
        rooms := (pinRoom c.argRoom.toNat c.argVersion.toNat w).rooms
        porter := { v.porter with outstanding := w.porter.outstanding ++ [{ pendingOf code c s with wait := x }] } }) b1
    · exfalso
      have : (pendingOf code c s).cmd.argLen = 0 := h0
      simp [this] at hp
  · refine ⟨by rw [← out], ⟨?_, b2⟩, fun _ => ?_⟩
    · exact congrArg (fun v : State => { v with
        rooms := w.rooms
        porter := { v.porter with outstanding := w.porter.outstanding ++ [{ pendingOf code c s with wait := x }] } }) b1
    · rw [b1]

end Sys2Proof.Laws
end

