-- ==== Sys2Proof/Machine/Regions.lean ====
section
/-! DEFINITION. Views that no command carries out: the configuration space of a PCIe function (12 R321), BAR0 as reads return
it (12 R322), the records and control region by address (02 R29, 07 R199, 10 R270, R286, 11 R300, R301, 15 R412, R423, R426,
16 R427), Porter's journal (13 R371), and the pins of a fabric lane (19 R502). -/

namespace Sys2Proof.Machine

/-! ### Configuration space (12 Table 12-2) -/

inductive ConfigRegister where
  | vendorId | deviceId | revisionId | classCode | subsystemVendorId | subsystemId
  deriving DecidableEq, Repr

/-- What a read of an identity register gives; the subsystem pair comes from the FRU EEPROM (12 R321). -/
def configIdentity : ConfigRegister → Nat
  | .vendorId => 0x1F8C
  | .deviceId => 0x0964
  | .revisionId => 0xB1
  | .classCode => 0x120000
  | .subsystemVendorId => Config.subsystemVendorId.toNat
  | .subsystemId => Config.subsystemId.toNat

/-- A base address register that is implemented: extent in bytes, 64-bit, prefetchable. -/
structure Bar where
  bytes : Nat
  wide : Bool
  prefetchable : Bool
  deriving DecidableEq, Repr

/-- BARn of Table 12-2; BAR4 is not implemented and reads 0 (12 R321). BAR2 of the STOR function in its endpoint role is 4 GiB
(12 R335). -/
def bar (f : PortFn) : Nat → Option Bar
  | 0 => some { bytes := 64 * 2 ^ 20, wide := true, prefetchable := false }
  | 2 => some { bytes := (match f with | .host => 16 | .stor => 4) * 2 ^ 30, wide := true, prefetchable := true }
  | _ => none

/-- An offset lies in BARn. -/
def inBar (f : PortFn) (n off : Nat) : Bool := match bar f n with
  | some b => decide (off < b.bytes)
  | none => false

/-! ### Tables by address -/

/-- Byte `i` of a table of equal entries. -/
def tableByte (size : Nat) (entry : Nat → List Byte) (i : Nat) : Byte := (entry (i / size)).getD (i % size) 0

/-- Byte `off` where it falls in a table of `count` entries of `size` bytes at `base`. -/
def regionByte (off base size count : Nat) (entry : Nat → List Byte) : Option Byte :=
  if base ≤ off && off < base + size * count then some (tableByte size entry (off - base)) else none

/-- A slot of the event log: the newest entry whose SEQ falls there (16 R427). -/
def logSlot (s : State) (k : Nat) : List Byte :=
  match s.log.entries.find? (fun e => e.seq % 262144 == k) with
  | some e => recBytes (eventRecord e)
  | none => []

/-- A slot of the router ring (10 R286; log 148). -/
def routerSlot (s : State) (k : Nat) : List Byte :=
  match s.exch.ring.zipIdx.find? (fun r => (s.exch.ringNext - 1 - r.2) % 524288 == k) with
  | some r => routerBytes r.1
  | none => []

/-! ### BAR0 (12 Table 12-3) -/

/-- A completion entry (13 Table 13-6). -/
def cplEntry (c : Cpl) : BitVec 512 :=
  recSeal (mkRec 512 [(496, 16, c.cid.toNat), (480, 16, c.opcode.toNat), (472, 8, c.status.toNat), (471, 1, c.phase.toNat),
    (465, 6, c.sqHead.toNat), (432, 16, c.detail.toNat), (416, 16, c.session.toNat), (384, 32, c.pass.toNat),
    (320, 64, c.result0.toNat), (256, 64, c.result1.toNat), (192, 64, c.result2.toNat)])

/-- Byte `o` of a host mailbox page (13 Table 13-2); an entry that nothing has posted reads 0. -/
def pageByte (s : State) (n o : Nat) : Byte :=
  let m := mbAt s n
  (([regionByte o 0 128 64 (fun i => recBytes (tget m.sq i 0)),
     regionByte o 0x2000 64 64 (fun i => match tfind? m.cq i with
       | some c => recBytes (cplEntry c)
       | none => []),
     regionByte o 0x3000 8 1 (fun _ => recBytes (mailboxWord s n))].filterMap id).head?).getD 0

/-- A doorbell (13 Table 13-3). -/
def bellRecord (m : Mailbox) : BitVec 128 := mkRec 128 [(32, 6, m.cqHead.toNat), (0, 6, m.sqTail.toNat)]

/-- A byte of a function's BAR0; pages and doorbells that the function does not carry, and reserved offsets, read 0. The MSI-X
pending bit array reads 0: a vector is sent when it is raised (`Porter.msix`). -/
def bar0Byte (s : State) (f : PortFn) (off : Nat) : Byte :=
  (([regionByte off 0 0x4000 64 (fun n => if carries s f n then (List.range 0x4000).map (pageByte s n) else []),
     regionByte off 0x100000 16 64 (fun n => if carries s f n then recBytes (bellRecord (mbAt s n)) else []),
     regionByte off 0x200000 0x10000 1 (fun _ => capRecord s),
     regionByte off 0x300000 16 64 (fun a => recBytes (apertureAt s a)),
     regionByte off 0x301000 8 1 (fun _ => recBytes (moduleStatus s)),
     regionByte off 0x301008 8 1 (fun _ => recBytes s.porter.mbxErr),
     regionByte off 0x301010 8 1 (fun _ => recBytes (portStatus s)),
     regionByte off 0x310000 1 0x420 (fun i => [tget s.ports.regs (fnCode f * 2 ^ 32 + 0x310000 + i) 0]),
     regionByte off 0x1000000 64 262144 (logSlot s)].filterMap id).head?).getD 0

/-! ### Porter's journal (13 Table 13-11) -/

def journalEntry (j : Journal) : BitVec 1024 :=
  recSeal (mkRec 1024 ([(992, 32, j.taskId.toNat), (928, 64, j.step.toNat), (919, 9, j.core), (916, 3, j.state.toNat),
    (910, 6, j.lastCode), (896, 8, j.slot.toNat), (832, 64, j.descAddr.toNat), (800, 32, j.pass.toNat),
    (464, 16, j.outVer.1.toNat), (448, 16, j.outVer.2.toNat)] ++
    j.streamVer.zipIdx.flatMap (fun v => [(496 + 32 * v.2, 16, v.1.1.toNat), (480 + 32 * v.2, 16, v.1.2.toNat)])))

/-! ### Fabric connectors (19 R502) -/

/-- Where lane `i` of port `p` comes out: LINK die, connector F0 or F1, pair position 0 to 71. -/
structure LanePins where
  die : Nat
  connector : Nat
  position : Nat
  deriving DecidableEq, Repr

def lanePins (p i : Nat) : LanePins := { die := p / 9, connector := p / 18, position := 4 * (p % 18) + i }

/-! ### Records and control region -/

def roomSlot (s : State) (id : Nat) : List Byte := recBytes (match roomAt s id with
  | some r => roomEntry id r
  | none => vacantEntry id)

/-- A byte at an offset of the records and control region. The images of the expert placement table are one for all four
routers (log 143); where a record lies in the Ledger ring or the close ring is not stated, and what no rule fills reads 0
(log 148). -/
def recordsByte (s : State) (off : Nat) : Byte :=
  (([regionByte off 0x20000 1024 1 (fun _ => paceWords s),
     regionByte off 0x30000 8 1 (fun _ => recBytes s.gov.budget),
     regionByte off 0x30040 64 1 (fun _ => recBytes (govRecord s)),
     regionByte off 0x30100 8 56 (fun i => recBytes (layerEntry s i)),
     regionByte off 0x31000 4 384 (fun i => recBytes (paceEntry s (i / 16) (i % 16))),
     regionByte off 0x1000000 64 65535 (roomSlot s),
     regionByte off 0x2000000 16 131072 (fun i => recBytes (tget s.exch.active i eptReset)),
     regionByte off 0x2200000 16 131072 (fun i => recBytes (tget s.exch.staged i eptReset)),
     regionByte off 0x4000000 8 65536 (fun j => recBytes (rstAt s j)),
     regionByte off 0x4800000 16 512 (fun k => recBytes (exportAt s k)),
     regionByte off 0x8000000 1 0x4000000 (fun i => [Config.ringByte i]),
     regionByte off 0xC000000 1 0x1000000 (fun i => [Config.ringByte (0x4000000 + i)]),
     regionByte off 0xE000000 32 524288 (routerSlot s),
     regionByte off 0x10000000 64 262144 (logSlot s)].filterMap id).head?).getD 0

end Sys2Proof.Machine
end

