-- ==== Sys2Proof/Tests/Slice0.lean ====
section
/-! SUPPORT. Tests: ill-formed commands are refused, words of vector instructions decode, and each statement's hypotheses
can be met: `wit_<statement>` shows states and operands that meet them, clause by clause. -/

namespace Sys2Proof.Tests

open Sys2Proof.Machine Sys2Proof.Safety

-- One proof at a time: `decide +kernel` waits for every proof before it, and each waiting proof holds a thread.
set_option Elab.async false

/-! ### Well-formed commands: an ill-formed one for each check, and one just inside it -/

def sample (layers : Nat) : Sample :=
  { p := 0, pc := 0, pm := 0, pl := 0, layerMw := List.replicate layers 0, diodes := List.replicate 56 [], coldPlate := 0 }
def winReq (write : Bool) (n lines : Nat) : WinReq :=
  { srcRack := 0, domain := 0, epoch := 0, stream := 0, addr := 0, write := write, data := List.replicate n 0, mask := 0,
    lines := lines }
def cmd : Cmd :=
  { mailbox := 0, cid := 7, irq := false, argRoom := 0xFFFF, argVersion := 0, argOffset := 0, argLen := 0, crcOk := true,
    badField := none }

theorem test_wf_crossing : (Instr.crossingRearm ⟨3, 3, 0⟩).wf = false ∧ (Instr.crossingRearm ⟨3, 4, 0⟩).wf = true ∧
    (Instr.crossingTimeout ⟨3, 3, 0⟩ []).wf = false ∧ (Instr.rearmEventTimer ⟨3, 3, 0⟩).wf = false ∧
    (Instr.lateResponseDiscard ⟨3, 3, 0⟩ 1).wf = false := by decide +kernel
theorem test_wf_quota : (Instr.cmdQuotaSet cmd (List.replicate 7 1) (List.replicate 8 1)).wf = false ∧
    (Instr.cmdQuotaSet cmd (List.replicate 8 1) (List.replicate 9 1)).wf = false ∧
    (Instr.cmdQuotaSet cmd (List.replicate 8 1) (List.replicate 8 1)).wf = true := by decide +kernel
theorem test_wf_dma : (Instr.cmdDmaCopy cmd 0 1 0 0 2 [(0, 0)]).wf = false ∧
    (Instr.cmdDmaCopy cmd 0 1 0 0 1 [(0, 0)]).wf = true := by decide +kernel
theorem test_wf_sample : (Instr.governorSample (sample 55)).wf = false ∧ (Instr.governorSample (sample 56)).wf = true := by
  decide +kernel
theorem test_wf_needs : (Instr.marginMeasurementPeriod (List.replicate 25 [])).wf = false ∧
    (Instr.towerBringupTestDone 0 [] [] [] [[1]]).wf = false ∧
    (Instr.towerSelfTestDone 0 [] [] [[], List.replicate 16 1, []]).wf = true := by decide +kernel
theorem test_wf_window : (Instr.remoteRequestArrival (winReq false 0 0)).wf = false ∧
    (Instr.remoteRequestArrival (winReq true 127 1)).wf = false ∧
    (Instr.remoteRequestArrival (winReq true 128 1)).wf = true := by decide +kernel
theorem test_wf_bars : (Instr.registerWrite .host 0 []).wf = false ∧ (Instr.bar2Write .host 0 [] false).wf = false ∧
    (Instr.bar2Read .host 0 0).wf = false ∧ (Instr.bar2Read .host 0 1).wf = true := by decide +kernel

/-! ### Words: the table gives none; the vector instruction word of 05 Table 5-4 -/

theorem test_tableWord : decodeTableWord 32 5 = none := by decide +kernel

/-- OP [63:56], TYPE [55:54], D [53:49], SA [48:44], SB [43:39], SC [38:34], AUX [33:31], CTL [15:0] (05 Table 5-4). -/
theorem test_vec_add : decodeVec 0 0b00000001_01_00011_00100_00110_01000_101_000000000000000_0000000000000000#64 =
    some (.vecAdd 0 { type := 1, d := 3, sa := 4, sb := 6, sc := 8, aux := 5, ctl := 0 }) := by decide +kernel
theorem test_vec_rsum : decodeVec 383 0b00111000_00_11111_00000_00000_00000_000_000000000000000_0000000000010000#64 =
    some (.vecRsum 383 { type := 0, d := 31, sa := 0, sb := 0, sc := 0, aux := 0, ctl := 0x10 }) := by decide +kernel
theorem test_vec_sapp : decodeVec 1 0b01010011_10_00001_00010_00011_00100_000_000000000000000_0000000000000000#64 =
    some (.vecSapp 1 { type := 2, d := 1, sa := 2, sb := 3, sc := 4, aux := 0, ctl := 0 }) := by decide +kernel
/-- A reserved bit set, and an OP that Table 5-5 does not list. -/
theorem test_vec_refused : decodeVec 0 0x0000000000010000#64 = none ∧ decodeVec 0 0x0C00000000000000#64 = none := by decide +kernel

/-! ### A module at work: every domain in regulation, every pacer running, Keeper and Porter running -/

def pacerOn : Pace := { Pace.reset with gated := false, xgated := false }
def up : State :=
  { State.reset with
    power := { Power.reset with phase := .ready, pwrEn := true, domains := (List.range 28).map (fun d => (d, .inRegulation)) }
    pace := (List.range 64).map (fun d => (d, pacerOn))
    porter := { Porter.reset with porter := 1, keeper := 1, ready := true } }

theorem test_up : porterRuns up = true ∧ keeperRuns up = true ∧ keeperAlive up = true ∧ initiatorRuns up 392 = true := by
  decide +kernel

/-! ### CRC-32 one byte at a time, so that the kernel evaluates it byte by byte -/

def crcByte (c : W32) (b : Byte) : W32 := crcBits 0xEDB88320 8 (c ^^^ b.setWidth 32)
def crcGo : List Byte → W32 → W32
  | [], c => c
  | b :: bs, c => if crcByte c b = 0 then crcGo bs 0 else crcGo bs (crcByte c b)
theorem crcGo_eq (bs : List Byte) (c : W32) : crcGo bs c = bs.foldl crcByte c := by
  induction bs generalizing c with
  | nil => rfl
  | cons b bs ih =>
    rw [crcGo, List.foldl]
    by_cases h : crcByte c b = 0
    · rw [if_pos h, ih, h]
    · rw [if_neg h, ih]
theorem crc32_go (bs : List Byte) : crc32 bs = ~~~ crcGo bs 0xFFFFFFFF := by rw [crcGo_eq]; rfl
theorem recCrcOk_go {w : Nat} (x : BitVec w) :
    recCrcOk x = (~~~ crcGo ((recBytes x).drop 4) 0xFFFFFFFF == bits x 0 32) := by rw [crcGo_eq]; rfl

/-! ### Vector instructions -/

/-- A descriptor with a program of one word and one auxiliary stream: an input, or an output; stream O is used. -/
def vecDesc (out : Bool) : BitVec 2048 :=
  mkRec 2048 [(1942, 10, 1), (1939, 3, 1), (1933, 1, out.toNat), (1570, 1, 1), (1314, 1, 1), (400, 24, 8), (376, 24, 128)]
/-- A checked task whose program is one BODY word, the one given. -/
def head1 : BitVec 128 := mkRec 128 [(108, 10, 1), (85, 3, 1)]
def run1 (d : BitVec 2048) (op : Nat) (w : VWord) : TaskRun :=
  { desc := d, handle := 1, room := 1, attempt := 0, checked := true, ended := none, stallEng := 0, causeGated := false, flags := 0, geom := 0,
    head := head1, prog := [opWord op w], place := ⟨1, 0, 0, 0⟩,
    taken := 0, cursors := [0, 0, 0, 0, 0, 0], ocursor := 0, clamped := false, amax := 0, blockAmax := [] }
def vs (out : Bool) (op : Nat) (w : VWord) : State :=
  { up with cores := [(0, { Core.reset with running := some (run1 (vecDesc out) op w) })] }
def vw (type : BitVec 2) (ctl : W16) : VWord := { type := type, d := 3, sa := 4, sb := 6, sc := 8, aux := 0, ctl := ctl }
def v0 (out : Bool) : State := vs out 0 (vw 0 0)
def r0 (out : Bool) : TaskRun := run1 (vecDesc out) 0 (vw 0 0)

theorem vectorTask_of {s : State} {c : Nat} {r : TaskRun} (h : (coreAt s c).running = some r)
    (k : (r.checked && r.ended.isNone && dProgLen r.desc != 0 && towerOn s (towerOf c) && domainRuns s (coreDie c)) = true) :
    vectorTask s c = some r := by simp [vectorTask, h, k]
theorem wit_vectorTask (b : Bool) (op : Nat) (w : VWord) : vectorTask (vs b op w) 0 = some (run1 (vecDesc b) op w) :=
  vectorTask_of rfl (by
    have h : (dProgLen (vecDesc b) != 0 && towerOn up (towerOf 0) && domainRuns up (coreDie 0)) = true := by
      cases b <;> decide +kernel
    exact h)
theorem wit_expects (d : BitVec 2048) (op : Nat) (w : VWord) : expects (run1 d op w) = some (opWord op w) := by
  simp [expects, run1, (by decide +kernel : hPre head1 = 0)]
/-- Whatever word is next, it is issued. -/
theorem wit_issuing (b : Bool) (op : Nat) (w : VWord) : issuing (vs b op w) 0 op w = some (run1 (vecDesc b) op w) := by
  simp [issuing, wit_vectorTask, wit_expects]
theorem wit_zeroReg (b : Bool) (r : Nat) : vreg (v0 b) 0 r = List.replicate 1024 ⟨0, true⟩ := by cases b <;> rfl
theorem wit_source (b : Bool) (op i q : Nat) (w : VWord) :
    source (vs b op w) 0 (run1 (vecDesc b) op w) i q = List.replicate 1024 ⟨0, true⟩ := by cases b <;> rfl
theorem wit_VecArithmeticLaneByLane : (∀ op w, issuing (vs false op w) 0 op w = some (run1 (vecDesc false) op w)) ∧
    fp32Word 0 (vw 0 0) = true ∧ bf16Word 0 (vw 1 0) = true ∧ anyWord 0 (vw 2 0) = true ∧
    [(0 : W16), 1, 2].all (fun c => decide ((anyWord 3 (vw 0 c) && (vw 0 c).ctl != 3) = true)) = true ∧
    (anyWord 3 (vw 2 3) && (vw 2 3).ctl == 3) = true := ⟨wit_issuing false, by decide +kernel⟩

theorem wit_VecMaxMinCmpOrder : (∀ op w, issuing (vs false op w) 0 op w = some (run1 (vecDesc false) op w)) ∧
    [(0 : W16), 3].all (fun c => decide (fp32Word 3 (vw 0 c) = true ∧ bf16Word 3 (vw 1 c) = true)) = true ∧ (vw 0 0).ctl = 0 :=
  ⟨wit_issuing false, by decide +kernel⟩

theorem wit_VecFunctionLanes : (∀ op w, issuing (vs false op w) 0 op w = some (run1 (vecDesc false) op w)) ∧ fp32Word 0 (vw 0 0) = true ∧
    bf16Word 0 (vw 1 0) = true ∧ fp32Word 3 (vw 0 3) = true ∧
    [(0 : W16), 10].all (fun c => decide ((anyWord 15 (vw 0 c) && decide ((vw 0 c).ctl.toNat ≤ 0xA)) = true)) = true :=
  ⟨wit_issuing false, by decide +kernel⟩

theorem wit_VecSelectMaskReorder : (∀ op w, issuing (vs false op w) 0 op w = some (run1 (vecDesc false) op w)) ∧ fp32Word 0 (vw 0 0) = true ∧
    [(0x0000 : W16), 0x03FF, 0x107F, 0x3001, 0x607F].all (fun c => decide ((vw 2 c).type ≠ 3 ∧ shufLegal (fld (vw 2 c).ctl 12 4) (fld (vw 2 c).ctl 0 12) = true)) = true ∧
    anyWord 1 (vw 2 0) = true ∧ anyWord 1 (vw 0 1) = true := ⟨wit_issuing false, by decide +kernel⟩

theorem wit_VecPermTakesIndexedLane : (∀ op w, issuing (vs false op w) 0 op w = some (run1 (vecDesc false) op w)) ∧ anyWord 0 (vw 0 0) = true ∧
    (∀ op w, (source (vs false op w) 0 (run1 (vecDesc false) op w) 0 4).length = 1024) := ⟨wit_issuing false, by decide +kernel, fun op w => by rw [wit_source]; exact List.length_replicate⟩

theorem wit_VecConversionLanes : (∀ op w, issuing (vs true op w) 0 op w = some (run1 (vecDesc true) op w)) ∧
    [(0 : W16), 2].all (fun c => decide (anyWord 3 (vw 0 c) = true ∧ c ≠ 3)) = true ∧
    anyWord 7 (vw 0 0) = true ∧ (auxOut (v0 true) (vecDesc true) 0).isSome = true ∧
    [(0x11 : W16), 0x21, 0x83, 0x293].all (fun c => decide (packLegal (vw 0 c) 4 = true ∧ fld c 8 2 ≠ 3 ∧ anyWord 0x7FF (vw 0 c) = true)) = true ∧
    (packLegal (vw 0 0x83) 4 = true ∧ anyWord 0xFF (vw 0 0x83) = true) ∧ (∀ op w, (source (vs true op w) 0 (run1 (vecDesc true) op w) 0 4).length = 1024) ∧
    (anyWord 15 (vw 0 10) && decide ((vw 0 10).ctl.toNat ≤ 0xA)) = true :=
  ⟨wit_issuing true, by decide +kernel, by decide +kernel, by decide +kernel, by decide +kernel, by decide +kernel, fun op w => by rw [wit_source]; exact List.length_replicate, by decide +kernel⟩

theorem wit_VecReductionsFillSegments : (∀ op w, issuing (vs false op w) 0 op w = some (run1 (vecDesc false) op w)) ∧
    (∀ op w, (source (vs false op w) 0 (run1 (vecDesc false) op w) 0 4).length = 1024) ∧ [(5 : W16), 7, 10, 0x10].all (fun c => decide (fp32Word 31 (vw 0 c) = true)) = true :=
  ⟨wit_issuing false, fun op w => by rw [wit_source]; exact List.length_replicate, by decide +kernel⟩

theorem wit_VecFusedKernels : (∀ op w, issuing (vs false op w) 0 op w = some (run1 (vecDesc false) op w)) ∧
    [(0 : W16), 15].all (fun c => decide (anyWord 31 (vw 0 (c ||| 16)) = true ∧ anyWord 15 (vw 0 c) = true ∧ 4 + nOf (vw 0 c) ≤ 32)) = true ∧
    anyWord 0 (vw 0 0) = true ∧ (∀ op w, source (vs false op w) 0 (run1 (vecDesc false) op w) 1 6 = List.replicate 1024 ⟨0, true⟩) :=
  ⟨wit_issuing false, by decide +kernel, by decide +kernel, fun op w => wit_source false op 1 6 w⟩

theorem wit_VecLoadsTakeNextChunk : (∀ op w, issuing (vs false op w) 0 op w = some (run1 (vecDesc false) op w)) ∧
    [(0 : W16), 1].all (fun c => decide (anyWord 1 (vw 0 c) = true ∧ entriesPerRow (r0 false) = 1)) = true ∧
    [(0 : W16), 1, 4, 5].all (fun c => decide (anyWord 7 (vw 0 c) = true ∧ c.toNat % 4 < 2)) = true ∧
    (auxIn (v0 false) (vecDesc false) 0).isSome = true ∧
    (entryStreams (vecDesc false)).all (fun x => !streamShut (v0 false) 0 x) = true ∧ streamShut (v0 false) 0 (dStream (vecDesc false) 4) = false := ⟨wit_issuing false, by decide +kernel⟩

theorem wit_VecStoresWriteOnlyTheirElements : (∀ op w, issuing (vs true op w) 0 op w = some (run1 (vecDesc true) op w)) ∧
    [(0 : W16), 4].all (fun c => decide (anyWord 4 (vw 0 c) = true)) = true ∧ (v0 true).snap = none ∧
    sUsed (dStream (vecDesc true) 3) = true ∧ (auxOut (v0 true) (vecDesc true) 0).isSome = true ∧
    ncAxes (dAuxNumctl (vecDesc true) 0) = 0 ∧
    writtenHere (r0 true) (dStream (vecDesc true) 3) = true ∧ writtenHere (r0 true) (dStream (vecDesc true) 4) = true ∧
    streamShut (v0 true) 0 (dStream (vecDesc true) 3) = false ∧ streamShut (v0 true) 0 (dStream (vecDesc true) 4) = false ∧
    (v0 true).rooms = [] := ⟨wit_issuing true, by decide +kernel⟩

theorem wit_VecFrame : vecCore (.vecStx 5 (vw 0 0)) = some 5 ∧ isVecStore (.vecNop 0 (vw 0 0)) = false ∧
    vectorTask up 0 = none := by decide +kernel

/-! ### Pacing, crossings, channels, pins, power-up (02, 14, 17) -/

def x102 : Xing := ⟨1, 0, 2⟩
def xs (c : Crossing) : State := { up with crossings := [(xKey x102, c)] }

theorem wit_PacersHaltRestartTick : domainRuns up 0 = true ∧ domainRuns up 63 = true ∧
    (paceAt { up with pace := [(0, { pacerOn with halted := true })] } 0).gated = false ∧
    (paceAt { up with pace := [(0, { pacerOn with halted := true })] } 0).halted = true ∧
    x102.send = 0 ∧ (tfind? (xs Crossing.reset).crossings (xKey x102)).isSome = true := by decide +kernel

theorem wit_CrossingFencesAndRearms :
    (domainRuns (v0 false) 1 = true ∧ (paceAt (v0 false) 0).xgated = false ∧ (crossing (v0 false) x102).mark = .normal ∧
      ((coreAt (v0 false) 0).running).isSome = true ∧ (1, Waiter.task 0 false) ∈ [((1 : BitVec 6), Waiter.task 0 false)]) ∧
    (let s := xs { Crossing.reset with mark := .stale, moved := true };
      (crossing s x102).mark ≠ .normal ∧ (crossing s x102).moved = true) ∧
    (let s := xs { Crossing.reset with mark := .fenced, moved := true };
      (crossing s x102).mark ≠ .normal ∧ (crossing s x102).moved = true) ∧
    (crossing (xs { Crossing.reset with rearmDue := true }) x102).rearmDue = true ∧
    (63 : BitVec 6) ∈ (crossing (xs { Crossing.reset with failed := [63] }) x102).failed := by decide +kernel

def drained : State :=
  { up with
    pace := [(0, { pacerOn with xgated := true }), (1, { pacerOn with xgated := true }), (2, { pacerOn with draining := true })]
    power := { up.power with gating := [(0, 0)] } }
theorem wit_DrainEndGatesCrossings : (paceAt drained 2).draining = true ∧
    (∀ l ∈ logicLayers (2 / 3), l ≠ 2 → (paceAt drained l).xgated = true) ∧ tfind? drained.power.gating (2 / 3) = some 0 := by
  decide +kernel

def outvoted : State := { up with channels := [(5, { Channel.reset with laneFails := [(true, 0, 7)] })] }
theorem wit_ChannelRepairLadder : groupInUse (chanState up 0) 0 = true ∧ groupInUse (chanState up 383) 63 = true ∧
    chanState outvoted 5 ≠ 5 ∧
    (chan outvoted 5).laneFails.all (fun f => f.1 != true || f.2.1 == 1 || f.2.2 != 8) = true ∧
    (true, (0 : Fin 3), 7) ∈ (chan outvoted 5).laneFails ∧ halfFailed (chan outvoted 5) 0 = false ∧
    halfFailed (chan outvoted 5) 1 = false := by decide +kernel
/-- Of a group with fewer than its two remaps fused, a spare is left. -/
theorem wit_ChannelRepairLadder_spare (h : Config.fusedRemaps 0 0 < 2) : sparesLeft 0 0 (chan up 0) ≠ 0 := by
  have : (tget (chan up 0).groups 0 .reset).used = 0 := by decide +kernel
  simp only [sparesLeft, this]; omega

theorem wit_InputSupplyEvents : keeperAlive up = true ∧ up.power.phase ≠ .off ∧ up.power.inputLow = false ∧
    (3 : Fin 4) ∉ up.power.convertersFailed := by decide +kernel

def atPhase (p : Phase) : State := { up with power := { up.power with phase := p } }
def leaving (asked : Bool) (p : Phase) : State :=
  { up with power := { up.power with phase := p, i3cAddr := some 9, roleRequested := asked } }
theorem wit_PowerPinsAndPowerDown :
    (State.reset.power.pwrEn = false ∧ State.reset.power.phase = .off ∧ supplyAt State.reset 26 = .off) ∧
    (up.power.phase = .ready ∧ up.power.pwrEn = true ∧ up.power.modRst = false) ∧
    (atPhase (.down 0)).power.phase = .down 0 ∧ (atPhase (.down 1)).power.phase = .down 1 ∧
    ((atPhase (.down 2)).power.phase = .down 2 ∧ (atPhase (.down 2)).power.i3cAddr = none) ∧
    ((leaving false (.down 2)).power.phase = .down 2 ∧ (leaving false (.down 2)).power.i3cAddr ≠ none ∧
      (leaving false (.down 2)).power.roleGranted = false) ∧
    ((leaving true .ready).power.roleRequested = true ∧ (leaving true .ready).power.phase ≠ .down 3) ∧
    ((leaving true (.down 3)).power.roleRequested = true ∧ (leaving true (.down 3)).power.phase = .down 3) ∧
    (atPhase .held).power.phase = .held ∧ up.power.phase ≠ .held ∧ inReg up 26 = true := by decide +kernel

theorem wit_PortFunctionResets : up.porter.sessions.Pairwise (fun a b => a.1 ≠ b.1) ∧
    (∀ x ∈ up.porter.sessions, x.1 < 65536) ∧ inReg up 24 = true ∧ inReg State.reset 24 = false ∧ inReg up 25 = true ∧
    ({ up with ports := { up.ports with storRole := 2 } } : State).ports.storRole = 2 ∧ inReg State.reset 25 = false := by decide +kernel

def fetching (f : Option Fetch) : State := { atPhase .bootRom with sec := { up.sec with fetch := f } }
def fet (kind slot n : Nat) (again : Bool) : Fetch := { kind := kind, slot := slot, got := List.replicate n 0, again := again }
/-- A Porter image with no body: KIND 2, format 1, all else 0. -/
def bareImage : List Byte := List.replicate 126 0 ++ [1, 2] ++ List.replicate 265 0
def bootRomUp : State :=
  { up with
    power := { up.power with phase := .bootRom, domains := [(26, .inRegulation), (27, .inRegulation)] }
    sec := { up.sec with images := [(1, { head := 0, digest := 0, owner := none })] } }
theorem wit_ImageFetchAndKeeperStart :
    ((fetching none).power.phase = .bootRom ∧ (fetching none).sec.fetch.isNone = true ∧
      (tfind? (fetching none).sec.images 1).isNone = true) ∧
    ((fet 1 0 0 false).again = false ∧ (fet 1 0 0 true).again = true ∧ (fet 1 1 0 true).slot = 1) ∧
    (fetchLen (fet 2 0 0 false) = 128 ∧ imgBodyLen (imgHead (List.replicate 128 0)) ≤ bodyLimit 2 ∧
      fetchLen (fet 2 0 128 false) = 265) ∧
    (fetchLen (fet 2 0 393 false) = 0 ∧ refusal (fetching none) 2 (List.replicate 393 0) = some 7) ∧
    (bootRomUp.power.phase = .bootRom ∧ (tfind? bootRomUp.sec.images 1).isSome = true ∧ bootRomUp.sec.fetch.isNone = true ∧
      inReg bootRomUp 26 = true ∧ inReg bootRomUp 27 = true ∧ supplyAt bootRomUp 16 = .off) := by decide +kernel

/-- A Porter image passes every check where the algorithms, of which nothing is assumed, accept its key and signature. -/
theorem wit_ImageFetchAndKeeperStart_good (h1 : Config.sha512 ((bareImage.drop 128).take 133) = Config.rootHash 0)
    (h2 : Config.rootRevoked 0 = false) (h3 : Config.sha512 [] = 0)
    (h4 : Config.ecdsaVerify ((bareImage.drop 128).take 133) (bareImage.take 128) (((bareImage.drop 128).drop 133).take 132) = true)
    (h5 : Config.fusedCounter 2 = 0) :
    refusal (fetching none) 2 bareImage = none := by
  have e : (imgKind (imgHead bareImage) = 2 ∧ fld (imgHead bareImage) 1008 8 = 1 ∧ imgSvn (imgHead bareImage) = 0 ∧
      fld (imgHead bareImage) 992 5 = 0 ∧ fld (imgHead bareImage) 512 320 = 0) ∧ (imgBodyLen (imgHead bareImage) = 0 ∧
      imgTotal (imgHead bareImage) = 393 ∧ imgSerial (imgHead bareImage) = 0 ∧ imgRoot (imgHead bareImage) = 0 ∧
      imgMinKeeper (imgHead bareImage) = 0 ∧ imgDigest (imgHead bareImage) = 0) ∧ bareImage.length = 393 ∧
      (bareImage.drop 128).take 0 = [] ∧ tget (fetching none).sec.counters 2 0 = 0 ∧
      ownerKeyHash (fetching none) = none ∧ bodyLimit 2 = 1048576 := by decide +kernel
  obtain ⟨⟨a1, a2, a3, a4, a5⟩, ⟨b1, b2, b3, b4, b5, b6⟩, c1, c2, c3, c4, c5⟩ := e
  simp only [refusal, a1, a2, a3, a4, a5, b1, b2, b3, b4, b5, b6, c1, c2, c3, c4, c5, h1, h2, h3, h4, h5, counterOf, Nat.add_zero]
  simp

def sup (l : Table Supply) : State := { up with power := { up.power with domains := l } }
def basesUp : Table Supply := (List.range 10).map (fun d => (16 + d, if d = 9 then .ramping 1 else .inRegulation))
def image : Image := { head := 0, digest := 0, owner := none }
def trainable : State :=
  { sup basesUp with
    power := { (sup basesUp).power with phase := .keeper }
    sec := { up.sec with images := [(2, image), (3, image)] } }
def gatingOn : State :=
  { up with power := { up.power with
    domains := [(15, .ramping 1), (17, .inRegulation), (18, .inRegulation)], gating := [(7, 1)] } }
theorem wit_DomainSwitching :
    supplyAt (sup [(26, .ramping 1)]) 26 = .ramping 1 ∧ supplyAt (sup [(27, .ramping 2)]) 27 = .ramping 2 ∧
    (supplyAt (sup [(16, .ramping 1)]) 16 = .ramping 1 ∧ supplyAt (sup [(16, .ramping 1)]) 17 = .off) ∧
    (let s := sup [(16, .inRegulation), (24, .ramping 2)];
      supplyAt s 24 = .ramping 2 ∧ inReg s 16 = true ∧ supplyAt s 25 = .off) ∧
    (supplyAt trainable 25 = .ramping 1 ∧ (∀ k ∈ (List.range 9).map (· + 16), inReg trainable k = true) ∧
      trainable.power.phase = .keeper ∧ trainable.sec.fetch.isNone = true ∧
      (tfind? trainable.sec.images 2).isSome = true ∧ (tfind? trainable.sec.images 3).isSome = true ∧
      supplyAt trainable 15 = .off) ∧
    (let s := { sup [(7, .ramping 1)] with power := { (sup [(7, .ramping 1)]).power with gating := [(7, 1)] } };
      supplyAt s 7 = .ramping 1 ∧ tfind? s.power.gating 7 = some 1) ∧
    (supplyAt gatingOn 15 = .ramping 1 ∧ tfind? gatingOn.power.gating (15 - 8) = some 1 ∧ supplyAt gatingOn 7 = .off ∧
      inReg gatingOn 17 = true ∧ inReg gatingOn 18 = true) ∧
    (supplyAt (sup [(0, .ramping 1)]) 0 = .ramping 1 ∧ keeperAlive (sup [(0, .ramping 1)]) = true) ∧
    (supplyAt (sup [(15, .ramping 2)]) 15 = .ramping 2 ∧ ∀ c, c < 384 → chanState (sup [(15, .ramping 2)]) c ≠ 4) ∧
    (supplyAt (sup [(16, .ramping 2)]) 16 = .ramping 2 ∧ keeperAlive (sup [(16, .ramping 2)]) = true) := by decide +kernel

def training : State := atPhase .training
def trained : State :=
  { training with power := { training.power with
    mereZeroed := true, stacksDone := List.ofFn (n := 16) id, cellarRounds := List.ofFn (n := 8) id
    towersTested := List.ofFn (n := 8) id, stackAttempts := [(3, 1)], cellarAttempts := [(31, 1)] } }
def retrying : State := { training with power := { training.power with stackAttempts := [(3, 1)], cellarAttempts := [(31, 1)] } }
theorem wit_BringupTraining :
    (training.power.phase = .training ∧ (15 : Fin 16) ∉ training.power.stacksDone ∧
      tget training.power.stackAttempts 15 0 = 0 ∧ (7 : Fin 8) ∉ training.power.cellarRounds ∧
      (0 : Fin 8) ∉ training.power.towersTested ∧ towerOn training 0 = true) ∧
    (retrying.power.phase = .training ∧ (3 : Fin 16) ∉ retrying.power.stacksDone ∧ tget retrying.power.stackAttempts 3 0 = 1 ∧
      (7 : Fin 8) ∉ retrying.power.cellarRounds ∧ (31 : Fin 32).val / 4 = (7 : Fin 8).val ∧
      tget retrying.power.cellarAttempts 31 0 = 1 ∧ retrying.power.cellarWithdrawn = false) ∧
    (trained.power.phase = .training ∧ porterRuns trained = true ∧ trained.power.mereZeroed = true ∧
      trained.power.stacksDone.length = 16 ∧ trained.power.cellarRounds.length = 8 ∧
      trained.power.towersTested.length = 8) := by decide +kernel

/-! ### Tasks (01, 04, 06) -/

def room (cls : BitVec 3) : Room :=
  { cls := cls, home := 0, homeIdx := 0, slots := 1, fell := false, releasing := false, owner := 1, current := 0, fresh := 0,
    writers := 1, pins := [0], curSlot := 0, freshSlot := 0, base := 0x80001000000, pages := 4, slotVer := [0], slotStep := [0], commits := 0,
    lastOpened := 0, active := 0, freshStep := 0, former := [], unapplied := [], engines := false }
def withRooms (l : Table Room) (s : State) : State := { s with rooms := l }
def stoppedOnce : State := { up with porter := { up.porter with stoppedSince := true, halted := true } }

theorem wit_PorterHeartbeatAndPasses :
    (roomAt (withRooms [(1, room 7)] up) 1).isSome = true ∧ (room 7).cls = 7 ∧ porterRuns up = true ∧
    (keeperAlive up = true ∧ up.porter.porter = 1 ∧ up.porter.stoppedSince = false ∧ up.porter.ready = true) ∧
    (keeperAlive stoppedOnce = true ∧ stoppedOnce.porter.porter = 1 ∧ stoppedOnce.porter.stoppedSince = true ∧
      stoppedOnce.porter.halted = true) := by decide +kernel

/-- A descriptor of a task with no stream, for core 0; with a stream of a room that is not there; and none at all. -/
def descOf : Nat → BitVec 2048
  | 0 => 0x1000000000000000000000000000000000000000000000000000000000000000000000000000000000000000000000000000000000000000edae41ee
  | 1 => 0x400090000000000001000000000000000000000000000000000000000000000000000000000000000000000000000000000000000000000000000000000000000abfb42bd
  | _ => 0
/-- The bytes that are not 0 stand at the room's base, where the core fetches them. -/
def descCells : Nat → List Host.Cell
  | 0 => [(0x80001000000, 0xEE), (0x80001000001, 0x41), (0x80001000002, 0xAE), (0x80001000003, 0xED), (0x8000100003B, 0x10)]
  | 1 => [(0x80001000000, 0xBD), (0x80001000001, 0x42), (0x80001000002, 0xFB), (0x80001000003, 0xAB), (0x8000100003B, 0x10), (0x80001000042, 0x09), (0x80001000044, 0x04)]
  | _ => []
def fetchState (k : Nat) : State :=
  { up with
    rooms := [(1, room 7)], mem := { Mem.reset with cells := descCells k }
    cores := [(0, { Core.reset with running := some { r0 false with checked := false } })] }
theorem fetched (k : Nat) (h : k < 3) : BitVec.ofNat 2048 (rdNat (fetchState k) 0x80001000000 256) = descOf k := by
  rcases k with _ | _ | _ | k
  · decide +kernel
  · decide +kernel
  · decide +kernel
  · omega
theorem descOf_crc : recCrcOk (descOf 0) = true ∧ recCrcOk (descOf 1) = true ∧ recCrcOk (descOf 2) = false := by
  simp only [recCrcOk_go]; decide +kernel
def shutFetch : State := { fetchState 0 with pace := tset up.pace 48 { pacerOn with xgated := true } }
def poisonFetch : State := { fetchState 0 with mem := { (fetchState 0).mem with poison := [0x80001000000] } }
theorem wit_TaskFetchChecks_shut :
    (initiatorRuns shutFetch 0 = true ∧ ((coreAt shutFetch 0).running.map (fun r => (r.checked, r.ended, r.room))) = some (false, none, 1) ∧
      wayShut shutFetch (pathTo 0 0x80001000000) = true) ∧
    (initiatorRuns poisonFetch 0 = true ∧ wayShut poisonFetch (pathTo 0 0x80001000000) = false ∧
      fetchPoison poisonFetch 0 { room 7 with pins := [] } 0 = some 0x80001000000) ∧
    wayShut (fetchState 0) (pathTo 0 0x80001000000) = false ∧ (fetchState 0).mem.sound = true := by decide +kernel
theorem wit_TaskFetchChecks : (initiatorRuns (fetchState 0) 0 = true ∧
    ((coreAt (fetchState 0) 0).running.map (fun r => (r.checked, r.ended, r.room))) = some (false, none, 1) ∧
    ((roomAt (fetchState 0) 1).map (fun r => r.base)) = some 0x80001000000) ∧
    fetchVerdict (fetchState 0) 0 (coreAt (fetchState 0) 0) (BitVec.ofNat 2048 (rdNat (fetchState 0) 0x80001000000 256)) = none ∧
    fetchVerdict (fetchState 1) 0 (coreAt (fetchState 1) 0) (BitVec.ofNat 2048 (rdNat (fetchState 1) 0x80001000000 256)) =
      some (ccAddress, false) ∧
    recCrcOk (BitVec.ofNat 2048 (rdNat (fetchState 2) 0x80001000000 256)) = false := by
  rw [fetched 0 (by omega), fetched 1 (by omega), fetched 2 (by omega)]
  refine ⟨by decide +kernel, ?_, ?_, descOf_crc.2.2⟩
  · unfold fetchVerdict; rw [descOf_crc.1]; decide +kernel
  · unfold fetchVerdict; rw [descOf_crc.2.1]; decide +kernel

theorem wit_StallAndAccumulatorErrors : initiatorRuns (v0 false) 0 = true ∧
    ((coreAt (v0 false) 0).running.map (fun r => r.ended)) = some none := by decide +kernel

def ended1 : State := { up with cores := [(0, { Core.reset with running := some { r0 false with ended := some ccFormat } })] }
/-- The same task with its one word issued. -/
def ran : State := { up with cores := [(0, { Core.reset with running := some { r0 false with place := ⟨4, 0, 0, 0⟩ } })] }
theorem wit_TaskCompletionRecord :
    (MemGood ended1 ∧ initiatorRuns ended1 0 = true ∧
      ((coreAt ended1 0).running.map (fun r => r.ended)) = some (some ccFormat) ∧ ccFormat ≠ ccDone) ∧
    (MemGood ran ∧ initiatorRuns ran 0 = true ∧
      ((coreAt ran 0).running.map (fun r => (r.ended, r.checked, programEnded r))) = some (none, true, true) ∧
      dProgLen (vecDesc false) ≠ 0 ∧ dAmaxAxes (vecDesc false) = 0 ∧ dAccHold (vecDesc false) = false ∧
      wayShut ran (endWays ran 0 (vecDesc false)) = false ∧ taskPoison ran (vecDesc false) = none) :=
  ⟨⟨rfl, by decide +kernel⟩, rfl, by decide +kernel⟩

def planTask1 : PlanTask :=
  { desc := mkRec 2048 [(480, 32, 4)], progHead := 0, prog := [], auxRest := [], deps := [], room := 1, slot := 0xFF, inStep := true,
    backward := false, scalars := [] }
def plan (ts : List PlanTask) (ps : List (BitVec 512)) : Plan :=
  { forerunner := false, coreMapCheck := 0, inFlight := 1, microBatches := 0, lag := 1, checkPeriod := 0, seed := 5, rooms := [],
    tasks := ts, params := ps, saved := [], reductions := [], localGrads := [], capacity := [], bindings := [], topk := 0,
    tokenRows := [], rounds := [], digestRoom := 0xFFFF, histories := [] }
def job (ts : Table TaskState) : Job :=
  { id := 0, step := 10, handle := 1, tasks := ts, failing := none, outs := [], reads := [], keeps := [], holds := [], only := [],
    stalled := [] }
def entry : Journal :=
  { job := 0, taskId := 4, handle := 1, step := 10, core := 2, state := 1, lastCode := 0, slot := 0xFF, descAddr := 0, pass := 0,
    streamVer := [], outVer := (0xFFFF, 0), attempt := 0, room := 1, pinned := true }
/-- An open step of a plan. -/
def inStep (p : Plan) (j : Job) : State :=
  { up with porter := { up.porter with plans := [(1, p)] }, steps := { up.steps with job := some j } }
def recorded (code : Nat) : State :=
  { inStep (plan [planTask1] []) (job [(4, .running)]) with
    porter := { up.porter with plans := [(1, plan [planTask1] [])], journal := [entry] }
    rooms := [(1, room 7)]
    mem := Mem.reset.write 0 (recBytes (mkRec 512 [(458, 6, code)])) }
theorem wit_CompletionRecordsProcessed : (roomAt (recorded 0) 1).map (fun r => r.engines) = some false ∧
    (recordEntry (recorded 0) 1).map (fun e => (e.state, e.job, e.attempt)) = some (1, 0, 0) ∧ porterRuns (recorded 0) = true ∧
    ((planOf (recorded 0) 1).bind (fun p => planTask p 4)).map (fun t => dAccHold t.desc) = some false ∧
    (recorded 0).steps.job.map (fun j => (j.id, j.failing)) = some (0, none) ∧
    recCode (BitVec.ofNat 512 (rdNat (recorded 0) 0 64)) = ccDone ∧
    [3, 4, 5, 6].all (fun c => recCode (BitVec.ofNat 512 (rdNat (recorded c) 0 64)) == c) = true := by decide +kernel

theorem wit_StepBoundaryCloses : (let s := inStep (plan [] []) (job []);
    s.steps.job.isSome = true ∧ (openPlan s).isSome = true ∧ boundaryReached s = true ∧ porterRuns s = true ∧
      s.steps.queued.isNone = true ∧ s.steps.actions = []) := by decide +kernel

/-! ### Memory errors and scrubs (07) -/

/-- A word whose poison was written away once. -/
def worn (w : Nat) : State := { up with mem := { Mem.reset with wasPoisoned := [w], rewritten := [w] } }
theorem wit_UncorrectableReads :
    ([0x90000000000, 0x902F17FFFFF].all (fun a => decide (regionOf a = .pond ∧ pondOn up (towerOf (sliceOf a)) = true ∧
      chanState up (sliceOf a) < 4 ∧ wordRepeats up.mem (wordOf a) = false)) = true) ∧
    (wordRepeats (worn 0x90000000008).mem (wordOf 0x9000000000F) = true ∧
      (tget (worn 0x90000000008).mem.sparedRows (sliceOf 0x9000000000F) []).length < 16) ∧
    (regionOf 0x80000000000 = .mere ∧ regionOf 0x8007FFFFFFF = .mere ∧ inReg up 16 = true ∧
      wordRepeats up.mem (wordOf 0x80000000000) = false ∧
      wordRepeats (worn 0x80000000000).mem (wordOf 0x80000000007) = true) ∧
    (regionOf 0 = .stack ∧ regionOf 0xFFFFFFFFFF = .stack ∧ inReg up (17 + towerRegion 0xFFFFFFFFFF / 4) = true ∧
      stackCorrects up.mem (0xFFFFFFFFFF / 256 * 256) ((List.finRange 9).map (fun k => (⟨k.val, by omega⟩, 0))) = false) ∧
    (regionOf 0x20000000000 = .cellar ∧ regionOf 0x3FFFFFFFFFF = .cellar ∧ inReg up 19 = true) ∧
    (stackOn up 15 = true ∧ (tget up.mem.failedPch (4 * 15 + 3) 0).getLsbD 15 = false) := by decide +kernel

def scrubbing : State :=
  { up with mem := { Mem.reset with
    scrubs := [(0, (0x17FFE00, 64)), (384, (0, 64)), (416, (0x1FFFFFFFF00, 0))], pchHits := [(0, 16)] } }
theorem wit_ScrubSteps :
    (pondOn scrubbing (towerOf 0) = true ∧ domainRuns scrubbing (pondDie 0) = true ∧ (chan scrubbing 0).fenced = false ∧ scrubbing.tests.tower ≠ some (towerOf 0) ∧
      sliceLen ≤ (tget scrubbing.mem.scrubs 0 (0, 0)).1 + 512 ∧ (tget scrubbing.mem.scrubs 0 (0, 0)).2 ≤ 64 ∧
      64 < (tget scrubbing.mem.scrubs 0 (0, 0)).2 + 1) ∧
    (inReg scrubbing 16 = true ∧ domainRuns scrubbing (48 + 7) = true ∧ (tget scrubbing.mem.scrubs 384 (0, 0)).2 ≤ 64 ∧ 64 < (tget scrubbing.mem.scrubs 384 (0, 0)).2 + 1) ∧
    (stackOn scrubbing 0 = true ∧ stackOn scrubbing 15 = true ∧ domainRuns scrubbing 48 = true ∧
      domainRuns scrubbing (48 + 15 / 2) = true ∧ tget scrubbing.mem.pchHits (64 * 0 + 16 * 0 + 0) 0 = 16) ∧
    (inReg scrubbing 19 = true ∧ domainRuns scrubbing dieCellar = true ∧ (tget scrubbing.mem.scrubs 416 (0, 0)).1 + 128 < 0x20000000000) := by decide +kernel

/-! ### Parameter updates and reductions (08, 09) -/

/-- A trained tensor of the Cellar: TENSOR_ID 3, recipe C, LAG 1, gradient room 2, working copy in room 3, 2 rows of 2. -/
def entry3 : BitVec 512 :=
  mkRec 512 [(480, 32, 3), (478, 2, 2), (476, 1, 1), (472, 3, 1), (352, 16, 2), (280, 40, 3 * 2 ^ 24), (424, 24, 2), (400, 24, 2)]
/-- The head of its gradient version of step 11, live or with SKIP, CRC included. -/
def headCells : Bool → List Host.Cell
  | false => [(0x80002000000, 0x22), (0x80002000001, 0x93), (0x80002000002, 0x77), (0x80002000003, 0x6F), (0x80002000010, 0x03), (0x80002000014, 0x01), (0x80002000018, 0x0B)]
  | true => [(0x80002000000, 0xBC), (0x80002000001, 0xDC), (0x80002000002, 0x67), (0x80002000003, 0x89), (0x8000200000F, 0x08), (0x80002000010, 0x03), (0x80002000014, 0x01), (0x80002000018, 0x0B)]
def gradRoom (fresh : W16) : Room :=
  { room 1 with base := 0x80002000000, slotVer := [1], slotStep := [11], current := 1, fresh := fresh, freshStep := 10, unapplied := [(1, 11)] }
def ratio : LedgerRatio := { gstep := 11, group := 0, limited := false, ratio := 0 }
def training3 (skip : Bool) (applied : W64) (runs : List (Nat × W64 × W32 × LedgerRatio)) : State :=
  { inStep (plan [] [entry3]) (job []) with
    rooms := [(2, gradRoom 0), (3, room 1)], mem := { Mem.reset with cells := headCells skip }
    params := { Params.reset with applied := [(0, applied)], groupRuns := runs } }
def startable (s : State) : Bool :=
  s.params.staged.isNone && s.restore.isNone && inReg s sdCel && domainRuns s dieCellar &&
  nextUpdate s == some ((entry3, 0), 1, 11) && (trainPlan s).isSome && gradVersion s entry3 11 == some 0x80002000000 && !verdictHeld s 11 &&
  !fetchHolds s 0 11
def stagedX : Staged :=
  { step := 11, entry := 0, room := 4, spans := [(0x20000000000, 1)], writes := [[(0x20000000001, [2])]], digests := [(0x20000000010, 7)]
    ratio := none, skip := false }
def stagingRm : Room := { room 1 with slots := 2, slotVer := [1, 0, 0, 0, 0], slotStep := [11, 0], current := 1, base := 0x80003000000 }
def stagedUp : State :=
  { training3 false 10 [] with
    rooms := [(2, gradRoom 0), (3, room 1), (4, stagingRm)]
    params := { Params.reset with scaled := [(0, 11)], staged := some stagedX, fetching := [(0, none, 11)] } }
theorem stagedUp_good : StagingGood stagedX stagingRm stagedUp := by
  refine ⟨rfl, rfl, by decide, by decide, rfl, rfl, ?_, ?_, by decide +kernel, by decide +kernel, by decide +kernel, by decide +kernel⟩
  · intro k; rcases k with _ | k <;> rfl
  · intro r h; cases h
def headless : State := { training3 false 10 [] with mem := Mem.reset }
theorem flat2 {α : Type} (l : List α) (f : α → Nat) : (l.flatMap (fun q => bytesLE 2 (f q))).length = 2 * l.length := by
  have (v : Nat) : (bytesLE 2 v).length = 2 := rfl
  induction l with
  | nil => rfl
  | cons a l ih => simp only [List.flatMap_cons, List.length_append, List.length_cons, ih, this]; omega
theorem upd_len (x : BitVec 512) (t : TensorIn) : (tensorUpd entry3 x t).1.length = 4 := by
  unfold tensorUpd
  rw [(by decide +kernel : peRecipe entry3 = 2), (by decide +kernel : peElems entry3 = 4)]
  simp
/-- Whatever the factor, the blocks of the update fit a staging room: their lengths do not depend on it. -/
theorem staged_fits (k : W32) : (stagingRoom (liveUpdate (training3 false 10 []) (plan [] [entry3]) (entry3, 0) 11 0x80002000000 k).blocks
    (training3 false 10 [])).isSome = true := by
  unfold liveUpdate updateWrites stagingRoom
  simp only [List.map_append, List.map_map, Function.comp_def, flat2, List.length_map, List.length_take, List.length_drop,
    List.length_zipIdx, upd_len, (by decide +kernel : peRecipe entry3 = 2), (by decide +kernel : keepsM1 entry3 = false),
    List.map_cons, List.map_nil, Bool.false_eq_true, if_false, (by decide : ((2 : Nat) == 0) = false)]
  decide +kernel
def fetchedOf (source : W16) : Fetched :=
  { tensor := 3, step := 11, source := source, block := none, work := [], rem := [], mom1 := [], mom2 := [], colf := [] }
theorem wit_CellarUpdatesAndFetchedState :
    (startable headless = true ∧ headGood headless entry3 0x80002000000 = false) ∧
    (startable (training3 false 8 []) = true ∧ headGood (training3 false 8 []) entry3 0x80002000000 = true ∧
      headStep (training3 false 8 []) 0x80002000000 ≠ expectedStep (training3 false 8 []) 0 11) ∧
    (startable (training3 true 10 []) = true ∧ headStep (training3 true 10 []) 0x80002000000 = expectedStep (training3 true 10 []) 0 11 ∧
      headGood (training3 true 10 []) entry3 0x80002000000 = true ∧ headSkip (training3 true 10 []) 0x80002000000 = true) ∧
    (startable (training3 false 10 [(0, 11, 0, ratio)]) = true ∧
      headGood (training3 false 10 [(0, 11, 0, ratio)]) entry3 0x80002000000 = true ∧
      headSkip (training3 false 10 [(0, 11, 0, ratio)]) 0x80002000000 = false ∧
      headStep (training3 false 10 [(0, 11, 0, ratio)]) 0x80002000000 = expectedStep (training3 false 10 [(0, 11, 0, ratio)]) 0 11 ∧
      runOf (training3 false 10 [(0, 11, 0, ratio)]) (peGroup entry3) 11 = some (0, 11, 0, ratio)) ∧
    (startable (training3 false 10 []) = true ∧ (runOf (training3 false 10 []) (peGroup entry3) 11).isNone = true ∧
      cellarGroupReady (training3 false 10 []) 11 (groupMates (training3 false 10 []) (entry3, 0)) = true) ∧
    (cellsWfFrom 0 stagedUp.mem.cells = true ∧ stagedUp.params.staged = some stagedX ∧ (roomAt stagedUp 4) = some stagingRm ∧
      (trainedEntries stagedUp).find? (fun e => e.2 == 0) = some (entry3, 0) ∧ inReg stagedUp sdCel = true ∧
      domainRuns stagedUp dieCellar = true ∧ stagedUp.snap.isNone = true ∧ scaleDone stagedUp (11 + peLag entry3 - 1) (entry3, 0) = true ∧
      workPinned stagedUp entry3 = false) ∧
    ((trainPlan stagedUp).isSome = true ∧ [noSource, 4].all (fun k => ((trainedEntries stagedUp).find? (fun e =>
        awaits stagedUp (fetchedOf k) e (fetchedOf k).step)).isSome &&
      ((trainedEntries stagedUp).find? (fun e => awaits stagedUp { fetchedOf k with step := 12 } e 12)).isNone) = true) ∧
    (heldState up 0x11 3 none 10).isNone = true ∧ (heldState (training3 false 10 []) 0x11 3 (some 0) 10).isSome = true ∧
    porterRuns up = true := by decide +kernel

/-- A reduction of two: this module is 0x10, index 0; the coordinator is index `coord`. -/
def layout (red : Nat) (coord q budget shardLog : Nat) : Layout :=
  { raw := mkRec 512 [(480, 32, red), (400, 16, 2), (384, 16, q), (352, 16, coord), (347, 5, budget), (332, 5, shardLog), (272, 16, 1)]
    members := [0x10, 0x11] }
def reducing (l : Layout) (rs : List Red) : State :=
  { inStep { plan [] [entry3] with reductions := [5] } (job []) with
    fab := { up.fab with moduleId := 0x10 }, red := { up.red with layouts := [l], open_ := rs }
    rooms := [(2, gradRoom 2)] }
/-- Notices of index 0 and 1, and another of index 1, CRC included. -/
def note : Nat → BitVec 512
  | 0 => 0xa0000000500000000000000060000000000000000000000000000000000000000000000000000000000000000000000000000000089527f05
  | 1 => 0xa00000005000100000000000100000000000000000000000000000000000000000000000000000000000000000000000000000000f51938e0
  | _ => 0xa000000050001000000000002000000000000000000000000000000000000000000000000000000000000000000000000000000005ab0752a
theorem note_good : recCrcOk (note 0) = true ∧ recCrcOk (note 1) = true ∧ recCrcOk (note 2) = true := by
  simp only [recCrcOk_go]; decide +kernel
def withNotices (l : Table (BitVec 512)) : Red := { newRed 5 10 with notices := l, started := true }
def noteHeard (n : BitVec 512) (s : State) : Bool :=
  nCause n != 3 && !nCarried n && ((layoutFor s (nRed n) (nStep n)).map (fun l => decide (coordinates s l = true ∧ nIdx n < loN l))) == some true
theorem wit_ReductionNotices :
    (let s := reducing (layout 5 1 2 0 4) [];
      (openPlan s).map (fun p => p.reductions) = some [5] ∧ (layoutFor s 5 10).map (fun l => (localsReady s l, coordinates s l)) =
        some (true, false) ∧ (redAt s 5 10).own = none ∧ domainRuns s linkDie = true ∧ s.red.carry = []) ∧
    (let s := reducing (layout 5 0 2 0 4) [withNotices [(1, note 1)]];
      noteHeard (note 1) s = true ∧ noteHeard (note 2) s = true ∧ note 2 ≠ note 1 ∧
      tfind? (redAt s 5 10).notices (nIdx (note 1)) = some (note 1) ∧ tfind? (redAt s 5 10).notices (nIdx (note 2)) = some (note 1)) ∧
    (let s := reducing (layout 5 0 1 3 4) [];
      noteHeard (note 1) s = true ∧ tfind? (redAt s 5 10).notices (nIdx (note 1)) = none ∧ redClosed s 5 10 = false ∧
      (tset (redAt s 5 10).notices (nIdx (note 1)) (note 1)).length ≠ 2 ∧ (redAt s 5 10).budgetOut = false) ∧
    (let s := reducing (layout 5 0 2 0 4) [withNotices [(0, note 0)]];
      noteHeard (note 1) s = true ∧ tfind? (redAt s 5 10).notices (nIdx (note 1)) = none ∧ redClosed s 5 10 = false ∧
      (tset (redAt s 5 10).notices (nIdx (note 1)) (note 1)).length = 2) ∧
    ([1, 2].all (fun q => let s := reducing (layout 5 0 q 3 4) [withNotices [(0, note 0)]];
      (layoutFor s 5 10).map (fun l => (coordinates s l, loBudget l, loQ l, loN l)) == some (true, 3, q, 2) &&
      (redFind s 5 10).map (fun r => (r.started, r.budgetOut, r.close.isNone, r.notices.length)) == some (true, false, true, 1)) = true) := by
  decide +kernel

/-- A close record of both contributors, and its seal. -/
def closed : CloseRec := ⟨0xa000000050000000000020000000000000000000700000000000000000000000000000000000000000000000000000000000000004bbc02a5, [true, true], []⟩
theorem closed_sealed : crSeal closed = bits closed.head 0 32 ∧ crSeal ⟨1, [true, true], []⟩ ≠ bits (1 : BitVec 512) 0 32 := by
  simp only [crSeal, crc32_go]; decide +kernel
def shardOne : Shard := ⟨0, false, 0, [0x3F800000]⟩
def gathering (c : Option CloseRec) (ss : List Shard) : Red := { newRed 5 10 with close := c, shards := ss }
def verdictOpen : State := reducing (layout verdictRed 0 2 0 4) [{ newRed verdictRed 10 with close := some closed }]
def gotOf (s : State) (l : Layout) (r : Red) : List (Nat × List W32 × W32) :=
  (List.range (cdiv (redElems s l) (shardElems l))).filterMap (fun n => (r.results ++ [(0, [0, 0, 0, 0], 0)]).find? (fun x => x.1 == n))
theorem wit_ReductionShardsAndResults :
    (let s := reducing (layout 5 0 2 0 4) [];
      (layoutFor s (crRed closed) (crStep closed)).isSome = true ∧ (redAt s (crRed closed) (crStep closed)).close.isNone = true) ∧
    (let s := reducing (layout 5 0 2 0 4) [gathering none [shardOne]];
      (shardOf (redAt s 5 10) 0 false 0).isSome = true ∧ (shardOf (redAt s 5 10) 1 false 0).isNone = true ∧ redClosed s 5 10 = false) ∧
    (let s := reducing (layout 5 0 2 0 4) [gathering (some closed) [shardOne]];
      (layoutFor s 5 10).map loN = some 2 ∧ (shardOf (redAt s 5 10) 1 false 0).isNone = true ∧ closed.counted.getD 1 false = true ∧
      crCount closed ≠ 0 ∧ shardsIn closed { redAt s 5 10 with shards := [shardOne, ⟨1, false, 0, []⟩] } 0 = true ∧
      (redAt s 5 10).results = []) ∧
    (let s := reducing (layout 5 0 2 0 3) [gathering (some closed) []];
      (layoutFor s 5 10).isSome = true ∧ isOpenStep s 10 = true ∧ (redAt s 5 10).committed = false ∧
      (layoutFor s 5 10).map (fun l => ((gotOf s l (redAt s 5 10)).length, cdiv (redElems s l) (shardElems l))) = some (1, 2)) ∧
    (let s := reducing (layout 5 0 2 0 4) [gathering (some closed) []];
      (layoutFor s 5 10).map (fun l => ((gotOf s l (redAt s 5 10)).length, cdiv (redElems s l) (shardElems l),
        (coveredEntries s l).all (fun e => gradReady s 10 e.1))) = some (1, 1, true)) ∧
    ((layoutFor verdictOpen verdictRed 10).map (fun l => ((gotOf verdictOpen l (redAt verdictOpen verdictRed 10)).length,
      cdiv (redElems verdictOpen l) (shardElems l))) = some (1, 1) ∧ (redAt verdictOpen verdictRed 10).committed = false) := by
  decide +kernel

/-! ### Expert exchange (10) -/

/-- A mark of module 0x11 for step 11, layer 1, micro-batch 2; a bundle of its token 3 for expert 4, with version 0 and 9;
a return of it with DONE and with WRONG_STATE: CRC included. -/
def xhead : Nat → BitVec 512
  | 0 => 0xb00110010020100000000000000000000000000000000000000000000000000000000000000000000000000000000000000000000605fc649
  | 1 => 0xb00110010020102100000000100000000000000000000000000000000000000000000000000000000000000000000000000000000b6429c0a
  | 2 => 0xb0011001002010210000900010000000000000000000000000000000000000000000000000000000000000000000000000000000082996822
  | 3 => 0xb00100011020102200007000100000000000000000000000000000000000000000000000000000000000000000000000000000000e7e0e944
  | _ => 0xb0010001102010220000700011400000000000000000000000000000000000000000000000000000000000000000000000000000071fa5350
theorem xhead_sealed : xCrc (xhead 0) [] = bits (xhead 0) 0 32 ∧
    (xCrc (xhead 1) [3] = bits (xhead 1) 0 32 ∧ xCrc (xhead 2) [3] = bits (xhead 2) 0 32) ∧
    xCrc (xhead 3) [3] = bits (xhead 3) 0 32 ∧ xCrc (xhead 4) [3] = bits (xhead 4) 0 32 := by
  simp only [xCrc, crc32_go]; decide +kernel
def round (marks : List (W16 × Nat × Bool)) (started raised : Bool) : Round :=
  { step := 11, layer := 1, mb := 2, backward := false, marks := marks, bundles := [], unserved := [], started := started, gathered := false, returned := [], raised := raised }
def exchanging (rs : List Round) (ds : List DispatchList) : State :=
  { inStep { plan [] [] with
      topk := 1, bindings := [{ layer := 1, expert := 4, hid := 2, entries := [], mine := true }]
      tokenRows := [{ layer := 1, mb := 2, fwdFmt := 0, fwdRows := 0, bwdFmt := 0, bwdRows := 0, residual := 0x80001000000 }] }
      { job [] with step := 11 } with
    fab := { up.fab with
      moduleId := 0x10, domain := some 7, epoch := 1, members := [⟨0x10, 0, 0xFFFFFFFFF⟩, ⟨0x11, 1, 0xFFFFFFFFF⟩] }
    exch := { up.exch with group := [some 0x10, some 0x11], rounds := rs, dispatches := ds } }
theorem exchange_tags : (let s := exchanging [] [];
    tagGood s ⟨7, 1, 1⟩ = true ∧ tagGood s ⟨7, 2, 1⟩ = false ∧ tagGood s ⟨6, 1, 1⟩ = false ∧ tagGood s ⟨7, 1, 127⟩ = false ∧
      lostTarget s 0x11 = false) := by decide +kernel
theorem wit_ExchangeRounds :
    (let s := exchanging [] [];
      xKind (xhead 0) = 0 ∧ xDst (xhead 0) = s.fab.moduleId ∧ stepAhead s (xStep (xhead 0)) = true ∧ xSrc (xhead 0) ∈ groupMembers s ∧
      roundAt s 11 1 2 false = none ∧ xKind (xhead 1) = 1 ∧ xDst (xhead 1) = s.fab.moduleId ∧ stepAhead s (xStep (xhead 1)) = true ∧
      honoured s (xLayer (xhead 1)) (xExpert (xhead 1)) (xVer (xhead 1)) = true ∧
      honoured s (xLayer (xhead 2)) (xExpert (xhead 2)) (xVer (xhead 2)) = false ∧ xSrc (xhead 2) ≠ s.fab.moduleId) ∧
    ((roundAt (exchanging [round [] true false] []) 11 1 2 false).map (fun r => r.started) = some true ∧
      (roundAt (exchanging [round [(0x11, 0, false)] false false] []) 11 1 2 false).map (fun r => r.marks.map (fun m => m.1)) = some [0x11]) ∧
    (let s := exchanging [round [(0x11, 0, false)] false false] [];
      (roundAt s 11 1 2 false).map (fun r => (missingMarks s r, r.raised, r.started)) = some ([0x10], false, false)) ∧
    (let s := exchanging [round [(0x11, 0, false), (0x10, 0, false)] false true] [];
      (roundAt s 11 1 2 false).map (fun r => (missingMarks s r, r.raised)) = some ([], true)) := by decide +kernel

def choice (k : Nat) : Assign := { token := k, order := 0, expert := 4, gate := 0x3F800000, holder := some (0x11, 7), back := none }
def dispatch (cs : List Assign) (combined : Bool) : DispatchList :=
  { step := 11, layer := 1, mb := 2, backward := false, list := 0, choices := cs, combined := combined }
theorem wit_ExchangeDispatchAndReturns :
    (let s := exchanging [] [];
      s.steps.job.isSome = true ∧ (openPlan s).map (fun p => p.bindings.any (fun b => b.layer == 1)) = some true ∧
      domainRuns s (linkDie + 2 % 4) = true ∧ s.steps.workLost = false ∧ dispatchAt s 11 1 2 false = none) ∧
    (let s := exchanging [] [dispatch [] true];
      (dispatchAt s 11 1 2 false).map (fun d => d.combined) = some true ∧ dispatchAt s 11 1 2 true = none) ∧
    (xKind (xhead 3) = 2 ∧ xSrc (xhead 3) = (exchanging [] []).fab.moduleId ∧ xStatus (xhead 3) = stDone ∧ xBack (xhead 3) = false ∧
      xExpert (xhead 3) = 4 ∧ xVer (xhead 3) = 7 ∧ xStatus (xhead 4) = stWrongState) ∧
    ((dispatchAt (exchanging [] [dispatch [choice 3, choice 5] false]) (xStep (xhead 3)) (xLayer (xhead 3)) (xMb (xhead 3)) false).map
      (fun d => (d.combined, d.choices.length)) = some (false, 2)) ∧
    (let s := exchanging [] [dispatch [choice 3] false];
      (dispatchAt s 11 1 2 false).map (fun d => d.combined) = some false ∧
      (openPlan s).map (fun p => (rowsFor p 1 2).isSome) = some true) := by decide +kernel

/-! ### The fabric (11) -/

def hostUp : State := { up with power := { up.power with perst := false } }
def lanesAt (l : Table LaneState) (p : Table Bool) : State := { hostUp with fab := { up.fab with lanes := l, up := p } }
theorem wit_LanesPortsAndLinks :
    (let s := lanesAt [(0, .inService), (1, .inService)] [(0, true)];
      laneState s 0 = .inService ∧ portUp s 0 = true ∧ portWidth s 0 ≤ 2 ∧
      (s.fab.lanes.all (fun x => x.1 / 36 != 0 || x.2 != .recalibrating)) = true ∧ (tfind? s.fab.up 0).isSome = true ∧
      domainRuns s (portDie 0) = true) ∧
    (let s := lanesAt [(141, .inService), (142, .inService), (143, .inService)] [(35, true)];
      laneState s 143 = .inService ∧ portUp s 35 = true ∧ 2 < portWidth s 35 ∧ domainRuns s (portDie 35) = true) ∧
    (let s := lanesAt [(4, .recalibrating), (5, .inService)] [(1, false)];
      laneState s 4 = .recalibrating ∧ tfind? s.fab.up 1 = some false ∧ 1 ≤ portWidth s 1) ∧
    (domainRuns up (portDie 35) = true ∧ portUp up 35 = false ∧ up.power.slotId.getLsbD 7 = false ∧ tfind? up.fab.up 35 = none ∧
      [((0 : BitVec 7), false, true), (127, false, false), (0, true, false), (127, true, true)].all (fun x =>
        decide ((x.1.toNat = up.power.slotId.toNat % 128 ↔ x.2.1 = false) ↔ x.2.2 = true)) = true) ∧
    (fnUp hostUp .host = true ∧ fnRuns hostUp .host = true ∧ fnRuns { hostUp with ports := { up.ports with storRole := 2 } } .stor = true) := by decide +kernel

/-- Request entries, CRC included: READ, WRITE, FENCE, MSG; READ, WRITE and MSG of length 0; the six atomics; a resubmission. -/
def rq : Nat → BitVec 512
  | 0 => 0x100000010000004d00010000000000000000080001000000000000000000000000000000000000000000000000080001000800000000000000000000e5893ad8
  | 1 => 0x200000010000004d00010000000000000000080001000000000000000000000000000000000000000000000000080001000800000000000000000000c3500a74
  | 4 => 0x400000000000004d000000000000000000000000000000000000000000000000000000000000000000000000000800010008000000000000000000004fe7f96c
  | 5 => 0x500000400000004d000000000000000000000800010000000000000000000000000000000000000000110c00000800010008000000000000000000007f02a218
  | 6 => 0x100000000000004d000100000000000000000800010000000000000000000000000000000000000000000000000800010008000000000000000000005d355dbd
  | 7 => 0x200000000000004d000100000000000000000800010000000000000000000000000000000000000000000000000800010008000000000000000000007bec6d11
  | 8 => 0x500000000000004d000000000000000000000800010000000000000000000000000000000000000000110c0000080001000800000000000000000000e416fa25
  | 10 => 0x300000000000004d0001000000000008000000000000000000000000000000000000000000000000000000000008000100080000000000000000000083337c21
  | 11 => 0x310000000000004d00010000000000080000000000000000000000000000000000000000000000000000000000080001000800000000000000000000f4344cb7
  | 12 => 0x320000000000004d000100000000000800000000000000000000000000000000000000000000000000000000000800010008000000000000000000006d3d1d0d
  | 13 => 0x330000000000004d000100000000000800000000000000000000000000000000000000000000000000000000000800010008000000000000000000001a3a2d9b
  | 14 => 0x340000000000004d00010000000000080000000000000000000000000000000000000000000000000000000000080001000800000000000000000000845eb838
  | 15 => 0x350000000000004d00010000000000080000000000000000000000000000000000000000000000000000000000080001000800000000000000000000f35988ae
  | 16 => 0x302000000000004d00010000000000080000000000000000000000000000000000000000000000000000000000080001000800000000090000000000ffd87552
  | _ => 0
/-- The ring's room: the entry, and a FENCE behind it. -/
def rqCells : Nat → List Host.Cell
  | 0 => [(0x80003000000, 0xD8), (0x80003000001, 0x3A), (0x80003000002, 0x89), (0x80003000003, 0xE5), (0x8000300000E, 0x08), (0x80003000010, 0x01), (0x80003000012, 0x08), (0x8000300002B, 0x01), (0x8000300002D, 0x08), (0x80003000036, 0x01), (0x80003000038, 0x4D), (0x8000300003C, 0x01), (0x8000300003F, 0x10), (0x80003000040, 0x6C), (0x80003000041, 0xF9), (0x80003000042, 0xE7), (0x80003000043, 0x4F), (0x8000300004E, 0x08), (0x80003000050, 0x01), (0x80003000052, 0x08), (0x80003000078, 0x4D), (0x8000300007F, 0x40)]
  | 1 => [(0x80003000000, 0x74), (0x80003000001, 0x0A), (0x80003000002, 0x50), (0x80003000003, 0xC3), (0x8000300000E, 0x08), (0x80003000010, 0x01), (0x80003000012, 0x08), (0x8000300002B, 0x01), (0x8000300002D, 0x08), (0x80003000036, 0x01), (0x80003000038, 0x4D), (0x8000300003C, 0x01), (0x8000300003F, 0x20), (0x80003000040, 0x6C), (0x80003000041, 0xF9), (0x80003000042, 0xE7), (0x80003000043, 0x4F), (0x8000300004E, 0x08), (0x80003000050, 0x01), (0x80003000052, 0x08), (0x80003000078, 0x4D), (0x8000300007F, 0x40)]
  | 4 => [(0x80003000000, 0x6C), (0x80003000001, 0xF9), (0x80003000002, 0xE7), (0x80003000003, 0x4F), (0x8000300000E, 0x08), (0x80003000010, 0x01), (0x80003000012, 0x08), (0x80003000038, 0x4D), (0x8000300003F, 0x40), (0x80003000040, 0x6C), (0x80003000041, 0xF9), (0x80003000042, 0xE7), (0x80003000043, 0x4F), (0x8000300004E, 0x08), (0x80003000050, 0x01), (0x80003000052, 0x08), (0x80003000078, 0x4D), (0x8000300007F, 0x40)]
  | 5 => [(0x80003000000, 0x18), (0x80003000001, 0xA2), (0x80003000002, 0x02), (0x80003000003, 0x7F), (0x8000300000E, 0x08), (0x80003000010, 0x01), (0x80003000012, 0x08), (0x80003000015, 0x0C), (0x80003000016, 0x11), (0x8000300002B, 0x01), (0x8000300002D, 0x08), (0x80003000038, 0x4D), (0x8000300003C, 0x40), (0x8000300003F, 0x50), (0x80003000040, 0x6C), (0x80003000041, 0xF9), (0x80003000042, 0xE7), (0x80003000043, 0x4F), (0x8000300004E, 0x08), (0x80003000050, 0x01), (0x80003000052, 0x08), (0x80003000078, 0x4D), (0x8000300007F, 0x40)]
  | 6 => [(0x80003000000, 0xBD), (0x80003000001, 0x5D), (0x80003000002, 0x35), (0x80003000003, 0x5D), (0x8000300000E, 0x08), (0x80003000010, 0x01), (0x80003000012, 0x08), (0x8000300002B, 0x01), (0x8000300002D, 0x08), (0x80003000036, 0x01), (0x80003000038, 0x4D), (0x8000300003F, 0x10), (0x80003000040, 0x6C), (0x80003000041, 0xF9), (0x80003000042, 0xE7), (0x80003000043, 0x4F), (0x8000300004E, 0x08), (0x80003000050, 0x01), (0x80003000052, 0x08), (0x80003000078, 0x4D), (0x8000300007F, 0x40)]
  | 7 => [(0x80003000000, 0x11), (0x80003000001, 0x6D), (0x80003000002, 0xEC), (0x80003000003, 0x7B), (0x8000300000E, 0x08), (0x80003000010, 0x01), (0x80003000012, 0x08), (0x8000300002B, 0x01), (0x8000300002D, 0x08), (0x80003000036, 0x01), (0x80003000038, 0x4D), (0x8000300003F, 0x20), (0x80003000040, 0x6C), (0x80003000041, 0xF9), (0x80003000042, 0xE7), (0x80003000043, 0x4F), (0x8000300004E, 0x08), (0x80003000050, 0x01), (0x80003000052, 0x08), (0x80003000078, 0x4D), (0x8000300007F, 0x40)]
  | 8 => [(0x80003000000, 0x25), (0x80003000001, 0xFA), (0x80003000002, 0x16), (0x80003000003, 0xE4), (0x8000300000E, 0x08), (0x80003000010, 0x01), (0x80003000012, 0x08), (0x80003000015, 0x0C), (0x80003000016, 0x11), (0x8000300002B, 0x01), (0x8000300002D, 0x08), (0x80003000038, 0x4D), (0x8000300003F, 0x50), (0x80003000040, 0x6C), (0x80003000041, 0xF9), (0x80003000042, 0xE7), (0x80003000043, 0x4F), (0x8000300004E, 0x08), (0x80003000050, 0x01), (0x80003000052, 0x08), (0x80003000078, 0x4D), (0x8000300007F, 0x40)]
  | 10 => [(0x80003000000, 0x21), (0x80003000001, 0x7C), (0x80003000002, 0x33), (0x80003000003, 0x83), (0x8000300000E, 0x08), (0x80003000010, 0x01), (0x80003000012, 0x08), (0x80003000030, 0x08), (0x80003000036, 0x01), (0x80003000038, 0x4D), (0x8000300003F, 0x30), (0x80003000040, 0x6C), (0x80003000041, 0xF9), (0x80003000042, 0xE7), (0x80003000043, 0x4F), (0x8000300004E, 0x08), (0x80003000050, 0x01), (0x80003000052, 0x08), (0x80003000078, 0x4D), (0x8000300007F, 0x40)]
  | 11 => [(0x80003000000, 0xB7), (0x80003000001, 0x4C), (0x80003000002, 0x34), (0x80003000003, 0xF4), (0x8000300000E, 0x08), (0x80003000010, 0x01), (0x80003000012, 0x08), (0x80003000030, 0x08), (0x80003000036, 0x01), (0x80003000038, 0x4D), (0x8000300003F, 0x31), (0x80003000040, 0x6C), (0x80003000041, 0xF9), (0x80003000042, 0xE7), (0x80003000043, 0x4F), (0x8000300004E, 0x08), (0x80003000050, 0x01), (0x80003000052, 0x08), (0x80003000078, 0x4D), (0x8000300007F, 0x40)]
  | 12 => [(0x80003000000, 0x0D), (0x80003000001, 0x1D), (0x80003000002, 0x3D), (0x80003000003, 0x6D), (0x8000300000E, 0x08), (0x80003000010, 0x01), (0x80003000012, 0x08), (0x80003000030, 0x08), (0x80003000036, 0x01), (0x80003000038, 0x4D), (0x8000300003F, 0x32), (0x80003000040, 0x6C), (0x80003000041, 0xF9), (0x80003000042, 0xE7), (0x80003000043, 0x4F), (0x8000300004E, 0x08), (0x80003000050, 0x01), (0x80003000052, 0x08), (0x80003000078, 0x4D), (0x8000300007F, 0x40)]
  | 13 => [(0x80003000000, 0x9B), (0x80003000001, 0x2D), (0x80003000002, 0x3A), (0x80003000003, 0x1A), (0x8000300000E, 0x08), (0x80003000010, 0x01), (0x80003000012, 0x08), (0x80003000030, 0x08), (0x80003000036, 0x01), (0x80003000038, 0x4D), (0x8000300003F, 0x33), (0x80003000040, 0x6C), (0x80003000041, 0xF9), (0x80003000042, 0xE7), (0x80003000043, 0x4F), (0x8000300004E, 0x08), (0x80003000050, 0x01), (0x80003000052, 0x08), (0x80003000078, 0x4D), (0x8000300007F, 0x40)]
  | 14 => [(0x80003000000, 0x38), (0x80003000001, 0xB8), (0x80003000002, 0x5E), (0x80003000003, 0x84), (0x8000300000E, 0x08), (0x80003000010, 0x01), (0x80003000012, 0x08), (0x80003000030, 0x08), (0x80003000036, 0x01), (0x80003000038, 0x4D), (0x8000300003F, 0x34), (0x80003000040, 0x6C), (0x80003000041, 0xF9), (0x80003000042, 0xE7), (0x80003000043, 0x4F), (0x8000300004E, 0x08), (0x80003000050, 0x01), (0x80003000052, 0x08), (0x80003000078, 0x4D), (0x8000300007F, 0x40)]
  | 15 => [(0x80003000000, 0xAE), (0x80003000001, 0x88), (0x80003000002, 0x59), (0x80003000003, 0xF3), (0x8000300000E, 0x08), (0x80003000010, 0x01), (0x80003000012, 0x08), (0x80003000030, 0x08), (0x80003000036, 0x01), (0x80003000038, 0x4D), (0x8000300003F, 0x35), (0x80003000040, 0x6C), (0x80003000041, 0xF9), (0x80003000042, 0xE7), (0x80003000043, 0x4F), (0x8000300004E, 0x08), (0x80003000050, 0x01), (0x80003000052, 0x08), (0x80003000078, 0x4D), (0x8000300007F, 0x40)]
  | 16 => [(0x80003000000, 0x52), (0x80003000001, 0x75), (0x80003000002, 0xD8), (0x80003000003, 0xFF), (0x80003000009, 0x09), (0x8000300000E, 0x08), (0x80003000010, 0x01), (0x80003000012, 0x08), (0x80003000030, 0x08), (0x80003000036, 0x01), (0x80003000038, 0x4D), (0x8000300003E, 0x20), (0x8000300003F, 0x30), (0x80003000040, 0x6C), (0x80003000041, 0xF9), (0x80003000042, 0xE7), (0x80003000043, 0x4F), (0x8000300004E, 0x08), (0x80003000050, 0x01), (0x80003000052, 0x08), (0x80003000078, 0x4D), (0x8000300007F, 0x40)]
  | _ => []
def ringNow (issued : List Request) : ReqRing := { room := 4, version := 1, next := 0, issued := issued }
/-- Module 0x11 in rack 5 exports segment 0; its plane 32 is up at both ends. -/
def fabricUp (k : Nat) (rights : Nat) (lost : List (Nat × W32 × W16)) (issued : List Request) : State :=
  { up with
    mem := { Mem.reset with cells := rqCells k }, rooms := [(1, room 1), (4, { room 1 with base := 0x80003000000 })]
    fab := { up.fab with
      domain := some 1, rst := [(0, BitVec.ofNat 64 (0x0011000000000008 + rights))], up := [(32, true)]
      members := [{ id := 0x11, rack := 5, planes := BitVec.allOnes 36 }], rings := [(2, ringNow issued)], lostAtomics := lost } }
def nextIs (k : Nat) (s : State) : Bool :=
  nextEntry s 2 == some (rq k) && linksRun s && ((ringAt s 2).map (fun r => mayIssue r (rq k))) == some true
def planeFree (s : State) (e : BitVec 512) : Bool :=
  planeFor s (rqRemote e) 0x11 == 32 && rstModule (rstAt s (segOf (rqRemote e))) == 0x11 && !lineHeld s (rqRemote e) 0x11
theorem rq_good : (recCrcOk (rq 0) = true ∧ recCrcOk (rq 1) = true ∧ recCrcOk (rq 4) = true ∧ recCrcOk (rq 5) = true ∧
    recCrcOk (rq 6) = true) ∧ (recCrcOk (rq 7) = true ∧ recCrcOk (rq 8) = true ∧ recCrcOk (rq 10) = true ∧ recCrcOk (rq 11) = true) ∧
    recCrcOk (rq 12) = true ∧ recCrcOk (rq 13) = true ∧ recCrcOk (rq 14) = true ∧ recCrcOk (rq 15) = true ∧ recCrcOk (rq 16) = true := by
  simp only [recCrcOk_go]; decide +kernel
theorem wit_FabricRequestsIssue_sent :
    ([0, 1].all (fun k => let s := fabricUp k 7 [] [];
      nextIs k s && !badEntry s (rq k) && planeFree s (rq k) && rqOp (rq k) == k + 1 &&
        (sourceCheck s (rqRemote (rq k)) (if k == 0 then rightRd else rightWr)).isNone) = true) ∧
    ([0, 1, 2, 3, 4, 5].all (fun a => let s := fabricUp (10 + a) 7 [] [];
      nextIs (10 + a) s && !badEntry s (rq (10 + a)) && planeFree s (rq (10 + a)) && rqOp (rq (10 + a)) == 3 && rqAop (rq (10 + a)) == a &&
        !rqRetry (rq (10 + a)) && (sourceCheck s (rqRemote (rq (10 + a))) rightAt).isNone && decide (outstandingAtomics s 0x11 < 64)) = true) ∧
    (let s := fabricUp 16 7 [(0x11, 9, 0)] [];
      nextIs 16 s = true ∧ badEntry s (rq 16) = false ∧ planeFree s (rq 16) = true ∧ rqRetry (rq 16) = true ∧
      (s.fab.lostAtomics.filter (fun x => x.1 == 0x11 && x.2.1 == BitVec.ofNat 32 (rqSeq (rq 16)))).getLast?.map (fun x => x.2.2) =
        some s.fab.epoch) ∧
    (let s := fabricUp 5 7 [] [];
      nextIs 5 s = true ∧ badEntry s (rq 5) = false ∧ rqOp (rq 5) = 5 ∧ BitVec.ofNat 16 (rqDest (rq 5)) ∉ s.fab.unreachable ∧
      messagePlanes s (rqDest (rq 5)) = [32]) := by
  decide +kernel
/-- No plane to the target, a line that is held, and a resubmission whose tag is not among the lost ones. -/
theorem wit_FabricRequestsIssue_waits :
    ([0, 1].all (fun k => let s := { fabricUp k 7 [] [] with fab := { (fabricUp k 7 [] []).fab with up := [] } };
      nextIs k s && !badEntry s (rq k) && planeFor s (rqRemote (rq k)) 0x11 == 36 &&
        (sourceCheck s (rqRemote (rq k)) (if k == 0 then rightRd else rightWr)).isNone) = true) ∧
    (let s := { fabricUp 0 7 [] [] with fab := { (fabricUp 0 7 [] []).fab with up := [(33, true)], draining := [32] } };
      nextIs 0 s = true ∧ planeFor s (rqRemote (rq 0)) 0x11 = 33 ∧ lineHeld s (rqRemote (rq 0)) 0x11 = true) ∧
    (let s := { fabricUp 16 7 [] [] with fab := { (fabricUp 16 7 [] []).fab with nextSeq := [(0x11, 10)] } };
      nextIs 16 s = true ∧ planeFree s (rq 16) = true ∧ s.fab.lostAtomics = [] ∧ 0 < rqSeq (rq 16) ∧
      rqSeq (rq 16) < (tget s.fab.nextSeq 0x11 1).toNat) := by decide +kernel
/-- A FENCE stands next in the state, so that nothing more completes. -/
def fenceNext (s : State) : Bool := (nextEntry s 2).map rqOp == some 4
theorem wit_FabricRequestsIssue_refused :
    (let s := fabricUp 16 7 [(0x11, 9, 6)] [];
      nextIs 16 s = true ∧ badEntry s (rq 16) = false ∧ sourceCheck s (rqRemote (rq 16)) rightAt = none ∧
      (s.fab.lostAtomics.filter (fun x => x.1 == 0x11 && x.2.1 == BitVec.ofNat 32 (rqSeq (rq 16)))).getLast?.map (fun x => x.2.2) ≠
        some s.fab.epoch ∧ fenceNext (refusedState 2 (rq 16) stIndeterminate s) = true) ∧
    (let s := fabricUp 4 7 [] [];
      nextIs 4 s = true ∧ badEntry s (rq 4) = false ∧ rqOp (rq 4) = 4 ∧ (ringAt s 2).map (fun r => r.issued) = some [] ∧
      fenceNext (refusedState 2 (rq 4) stDone s) = true) ∧
    ([6, 7, 8].all (fun k => let s := fabricUp k 7 [] [];
      nextIs k s && badEntry s (rq k) && fenceNext (refusedState 2 (rq k) stBadArg s)) = true ∧
      rqOp (rq 6) = 1 ∧ rqOp (rq 7) = 2 ∧ rqOp (rq 8) = 5) ∧
    ([0, 1].all (fun k => let s := fabricUp k 0 [] [];
      nextIs k s && !badEntry s (rq k) && sourceCheck s (rqRemote (rq k)) (if k == 0 then rightRd else rightWr) == some stDenied &&
        fenceNext (refusedState 2 (rq k) stDenied s)) = true) := by decide +kernel

def sent (k attempts : Nat) : Request := { entry := rq k, pos := 9, target := 0x11, attempts := attempts, seq := 4, plane := 32 }
def answered (st : Nat) (q : Request) (s : State) : State :=
  settleDrain (putCompletion q.entry st 0 0 (setRing 2 (fun r => { r with issued := r.issued.filter (fun x => x.pos != 9) }) s))
theorem wit_RequestAnswersAndTimeouts :
    ([(0, 1), (1, 2), (10, 3), (5, 5)].all (fun k => let s := fabricUp 4 7 [] [sent k.1 1];
      ((issuedAt s 2 9).map (fun q => rqOp q.entry)) == some k.2 && fenceNext (answered stDone (sent k.1 1) s) &&
        fenceNext (answered stDone (sent k.1 1) (portWrite 3 (rqLocal (rq 0)) (fit (128 * rqLen (rq 0)) 0 [5]) s)) &&
        tagGood s ⟨1, 0, 5⟩ && !tagGood s ⟨1, 1, 5⟩ && !wayShut s (linkPath ((planeDie s 32).getD linkDie) (rqLocal (rq k.1)))) = true) ∧
    ([(0, 1, 2), (0, 1, 3), (10, 3, 2), (10, 3, 3), (5, 5, 1), (5, 5, 2)].all (fun k => let s := fabricUp 4 7 [] [sent k.1 k.2.2];
      ((issuedAt s 2 9).map (fun q => (rqOp q.entry, q.attempts))) == some (k.2.1, k.2.2) &&
        !s.fab.unreachable.contains (BitVec.ofNat 16 (sent k.1 1).target) && planeAgain s (sent k.1 k.2.2) == 32) = true) ∧
    (let s := fabricUp 4 7 [] [sent 0 1];
      (s.fab.members.find? (fun m => m.rack.toNat == 5)).map (fun m => m.id) = some 0x11 ∧ (0x11 : W16) ∉ s.fab.unreachable) := by
  decide +kernel

/-- Room 1 exported as segment 0 of this module, rack 0, with these rights (RD 4, WR 2, ATOM 1). -/
def target (rights : Nat) (ls : Table Line) (rs : List Receipt) : State :=
  { up with
    rooms := [(1, room 1)]
    fab := { up.fab with
      domain := some 1, members := [{ id := 0x11, rack := 5, planes := 0 }], up := (List.range 36).map (fun p => (p, true)), lines := ls, receipts := [(5, rs)]
      exports := [(0, mkRec 128 [(112, 16, 1), (48, 24, 4), (35, 1, 1), (32, 3, rights)])] } }
def load : WinReq :=
  { srcRack := 5, domain := 1, epoch := 0, stream := 0, addr := 0x1000000000000, write := false, data := [], mask := 0, lines := 2 }
def store : WinReq := { load with write := true, data := List.replicate 256 1, mask := BitVec.allOnes 128 }
def atom (seq : W32) : AtomReq :=
  { srcRack := 5, domain := 1, epoch := 0, seq := seq, addr := 0x1000000000000, aop := 5, operand1 := 1, operand2 := 0 }
def receipt (n : Nat) : Receipt := { seq := n, addr := 0, old := 0 }
def lineOf (q : List Waiting) : Line := { queue := q, stopped := [], hot := none, plane := 32 }
def heard (s : State) : Bool :=
  arrives s load.addr.toNat none && arrives s load.addr.toNat (some 0x80001000000) && load.addr.toNat % 8 == 0
theorem wit_TargetAccessesAndAtomics :
    (heard (target 7 [] []) = true ∧ load.lines ≠ 0 ∧
      (targetCheck (target 0 [] []) 5 1 0 load.addr.toNat 256 rightRd).isLeft = true ∧
      (targetCheck (target 7 [] []) 5 2 0 load.addr.toNat 256 rightRd).isLeft = true ∧
      ((5 : Nat), segOf load.addr.toNat % 512) ∉ (target 0 [] []).fab.refused) ∧
    ((targetCheck (target 7 [] []) 5 1 0 store.addr.toNat 256 rightWr).getRight? = some 0x80001000000 ∧ store.write = true ∧
      [0, 1].all (fun i => lineOpen (target 7 [] []) (lineKey 0x80001000000 + i) (homePlane (store.addr.toNat + 128 * i)) 5) = true ∧
      load.write = false ∧ (targetCheck (target 7 [] []) 5 1 0 load.addr.toNat 256 rightRd).getRight? = some 0x80001000000 ∧
      (lineAt (target 7 [] []) (lineKey 0x80001000000)).queue = [] ∧
      (let s := target 7 [(lineKey 0x80001000000, lineOf [.access store 0x80001000000])] [];
        [0, 1].all (fun i => lineOpen s (lineKey 0x80001000000 + i) (homePlane (load.addr.toNat + 128 * i)) 5) = true ∧
        (lineAt s (lineKey 0x80001000000)).queue ≠ [])) ∧
    ((targetCheck (target 1 [] []) 5 1 0 (atom 3).addr.toNat 8 rightAt).getRight? = some 0x80001000000 ∧ (atom 3).aop.toNat ≤ 5 ∧
      ((receiptsOf (target 1 [] [receipt 3]) 5).find? (fun x => x.seq == (atom 3).seq.toNat)).isSome = true ∧
      (receiptsOf (target 1 [] ((List.range 64).map (fun i => receipt (10 + i)))) 5).all (fun x => x.seq != (atom 9).seq.toNat) = true ∧
      (atom 9).seq.toNat < lowestHeld (target 1 [] ((List.range 64).map (fun i => receipt (10 + i)))) 5 ∧
      lowestHeld (target 1 [] []) 5 ≤ (atom 1).seq.toNat ∧ lineOpen (target 1 [] []) (lineKey 0x80001000000) (homePlane (atom 1).addr.toNat) 5 = true) ∧
    ((lineAt (target 7 [(lineKey 0x80001000000, lineOf [.access store 0x80001000000])] []) (lineKey 0x8000100007F)).queue.length = 1 ∧
      (lineAt (target 7 [(lineKey 0x80001000000, lineOf [.atomic (atom 1) 0x80001000000])] []) (lineKey 0x80001000000)).queue.length = 1 ∧
      cellsWfFrom 0 (target 7 [] []).mem.cells = true ∧
      (let s := target 7 [(lineKey 0x80001000000, lineOf (List.replicate 32 (.access load 0x80001000000)))] [];
        32 ≤ (lineAt s (lineKey 0x80001000000)).queue.length ∧ (lineAt s (lineKey 0x80001000000)).hot = none ∧
        (planeDie s (lineAt s (lineKey 0x80001000000)).plane).isSome = true) ∧
      [(0 : W64), 5].all (fun b => let s := target 7 [(lineKey 0x80001000000, { lineOf (List.replicate 32 (.access load 0x80001000000)) with hot := some b })] [];
        decide (((paceAt s ((planeDie s 32).getD linkDie)).beats - b).toNat < 2 ^ 20) == (b == 0)) = true) ∧
    (tfind? up.fab.receive 63 = none ∧
      (let s := { up with
          rooms := [(1, room 1)], fab := { up.fab with receive := [(63, 1)] }
          mem := { Mem.reset with cells := [(0x80001000000, 6), (0x80001000004, 5), (0x80001000008, 2)] } };
        (tfind? s.fab.receive 63).isSome = true ∧ (roomAt s 1).isSome = true ∧ cellsWfFrom 0 s.mem.cells = true ∧
        rdNat s (0x80001000000 + 8) 4 ≠ 0 ∧
        (rdNat s 0x80001000000 4 + 2 ^ 32 - rdNat s (0x80001000000 + 4) 4) % 2 ^ 32 < rdNat s (0x80001000000 + 8) 4)) := by
  decide +kernel

/-! ### Doorbells, BARs, drives, snapshots (12, 13) -/

def withMb (n : Nat) (m : Mailbox) (s : State) : State := { s with porter := { s.porter with mailboxes := [(n, m)] } }
def tailAt (t h : BitVec 6) : State := withMb 63 { Mailbox.reset with sqTail := t, sqHead := h, session := 1, state := 1 } hostUp
def cqAt (head tail : BitVec 6) (ending : Bool) : State :=
  withMb 0 { Mailbox.reset with cqHead := head, cqTail := tail, ending := ending, taken := 2, session := 1, state := 1 } hostUp
def messages (n k : Nat) : State := withMb n { Mailbox.reset with msgs := List.replicate k (0, []) } up
theorem wit_DoorbellsAndMessages :
    (bellHeard (tailAt 5 1) 63 = true ∧ bellChecked (tailAt 5 1) 63 = true ∧ tailLowers (mbAt (tailAt 5 1) 63) 4 = true ∧
      tailLowers (mbAt (tailAt 5 1) 63) 5 = false ∧ tailLowers (mbAt (tailAt 5 1) 63) 0 = false) ∧
    (bellHeard (cqAt 62 1 false) 0 = true ∧ bellChecked (cqAt 62 1 false) 0 = true ∧
      headPasses (mbAt (cqAt 62 1 false) 0) 2 = true ∧ headPasses (mbAt (cqAt 62 1 false) 0) 1 = false ∧
      (mbAt (cqAt 62 1 false) 0).ending = false ∧ (mbAt (cqAt 62 1 true) 0).ending = true ∧ (mbAt (cqAt 62 1 true) 0).cqTail = 1) ∧
    (let s := withMb 63 { Mailbox.reset with state := 2 } { up with porter := { up.porter with mbxErr := 0x8000000000000000 } };
      (0x8000000000000000 : W64).getLsbD 63 = true ∧ s.porter.mbxErr.getLsbD 63 = true ∧ (mbAt s 63).state = 2) ∧
    (up.power.phase ≠ .bootStopped ∧ keeperAlive up = true ∧ outstandingOf (messages 64 7) 64 < 8 ∧
      8 ≤ outstandingOf (messages 64 8) 64 ∧ (atPhase .bootStopped).power.phase = .bootStopped ∧ porterRuns up = true ∧
      outstandingOf (messages 65 63) 65 < 64) := by decide +kernel

def pend (m : Fin 66) (w : Wait) : Pending :=
  { cmd := { cmd with mailbox := m }, opcode := 0, session := 1, pass := 0, index := 0, wait := w }
/-- Aperture 0 shows room 1; aperture 1 shows nothing, and has been reported when `told`. -/
def bars (told : Bool) : State :=
  { hostUp with
    rooms := [(1, room 1)]
    porter := { up.porter with outstanding := [pend 0 .dma] }
    ports := { up.ports with
      storRole := 2, apertures := [(0, mkRec 128 [(112, 16, 1), (48, 24, 4), (32, 3, 7)])], apRaised := if told then [1] else []
      dmas := [(.host, { toHost := true, room := 1, offset := 8, list := [(0, 16)] }), (.stor, { toHost := false, room := 1, offset := 0, list := [(0, 8)] })] } }
theorem wit_BarAccessesAndDma : (fnUp (bars false) .host = true ∧ fnUp (bars false) .stor = true) ∧
    (bar0Fits 0x100000 3 = false ∧ bar0Fits 0 513 = false) ∧
    (bar0Fits 0 512 = true ∧ carries (bars false) .host (0 / 0x4000) = true ∧ bar0Fits 0xFDE00 512 = true ∧
      carries (bars false) .stor (0xFDE00 / 0x4000) = true ∧ 0xFDE00 % 0x4000 + 512 ≤ 0x2000) ∧
    (bar0Fits 0x310000 8 = true ∧ bar0Fits 0x31041C 4 = true) ∧ (bar0Fits 0x100400 4 = true ∧ bar0Fits 0x300FFC 4 = true) ∧
    (apertureHit (bars false) .host 0 8 true = some 0x80001000000 ∧ (apertureHit (bars false) .host 0x3FFF 1 false).isSome = true ∧
      cellsWfFrom 0 (bars false).mem.cells = true ∧ (bars false).snap.isNone = true) ∧
    (apertureHit (bars false) .host 0x4000 1 true = none ∧ apertureHit (bars false) .host 0x10000000 8 false = none ∧
      apertureOf .host 0x10000000 ∉ (bars false).ports.apRaised ∧ apertureOf .host 0x10000000 ∈ (bars true).ports.apRaised) ∧
    (((bars false).ports.dmas.find? (fun d => d.1 == .host)).map (fun d => (d.2.toHost, d.2.room)) = some (true, 1) ∧
      ((bars false).ports.dmas.find? (fun d => d.1 == .stor)).map (fun d => (d.2.toHost, d.2.room)) = some (false, 1) ∧
      (roomAt (bars false) 1).isSome = true ∧
      ((bars false).porter.outstanding.find? (fun p => p.wait == Wait.dma && fnOfMb (bars false) p.cmd.mailbox.val == .host)).isSome = true) := by
  decide +kernel
def shut48 (s : State) : State := { s with pace := tset s.pace 48 { pacerOn with xgated := true } }
/-- No crossing on the way is shut, and one is; bytes for a task room. -/
theorem wit_BarAccessesAndDma_ways :
    ([PortFn.host, .stor].all (fun f => !wayShut (bars false) (portPath f 0x80001000000)) = true ∧
      wayShut (shut48 (bars false)) (portPath .host 0x80001000000) = true ∧ fnUp (shut48 (bars false)) .host = true ∧
      apertureHit (shut48 (bars false)) .host 0 8 true = some 0x80001000000) ∧
    ((taskRoomUnder (bars false) 0x80001000000 8).isNone = true ∧
      (taskRoomUnder { bars false with rooms := [(1, room 7)] } 0x80001000000 8).isSome = true) := by decide +kernel
theorem wit_BarAccessesAndDma_bells : ∃ t u, exec (.doorbellSqTailWrite 63 ((5 : Byte).setWidth 6)) (bars false) = .next t ∧
    exec (.doorbellCqHeadWrite 0 ((0 : Byte).setWidth 6)) (bars false) = .next u := ⟨_, _, rfl, rfl⟩

def drv (busy reissued : Bool) : Drive :=
  { used := true, failed := false, ranges := [(0x80001000000, 4096)], busy := busy, reissued := reissued }
def driving (b r inPool : Bool) : State :=
  { up with
    rooms := [(4, { room 1 with base := 0x80003000000, pages := 720 })]
    ports := { up.ports with queueRoom := 4, drives := [(3, drv b r)], store := if inPool then [(3, 1)] else [] } }
/-- A snapshot of the whole state: SNAP_ID 6, a destination of `len` bytes. -/
def snapOf (dest len : Nat) (chunks : List Chunk) : Snapshot :=
  { req := mkRec 512 [(448, 64, 6), (442, 2, dest), (256, 64, len)], step := 0, marked := !chunks.isEmpty, parts := [], room := 0xFFFF,
    staging := 0xFFFF, sets := [], lag := 0, seed := 0, digests := [], chunks := chunks, saved := [], pins := [] }
def snapping (dest len : Nat) (chunks : List Chunk) : State :=
  { inStep (plan [] [entry3]) (job []) with
    rooms := [(2, gradRoom 0), (3, room 1)], snap := some (snapOf dest len chunks), ports := { up.ports with store := if dest == 0 then [(3, 1)] else [] } }
def marked (len : Nat) : Snapshot :=
  let x := snapOf 1 len []
  let s := snapping 1 len []
  { x with
    marked := true, step := 0, parts := (imageParts s (plan [] [entry3]) x.req).1
    sets := [], lag := 1, seed := 5, pins := (imageParts s (plan [] [entry3]) x.req).2 }
theorem wit_DrivesAndSnapshotChunks :
    (storWorks (driving false false false) = true ∧ wayShut (driving false false false) (portPath .stor 0x80001000000) = false ∧
      wayShut (shut48 (driving false false false)) (portPath .stor 0x80001000000) = true ∧ storWorks (shut48 (driving false false false)) = true ∧
      (taskRoomUnder (driving false false false) 0x80001000000 16).isNone = true ∧ (driveAt (driving false false false) 3).used = true ∧
      (driveAt (driving false false false) 3).failed = false ∧
      queueBase (driving false false false) 3 = some (0x80003000000 + 3 * queuePages * pageBytes) ∧ regionOf 0x80001000000 = .mere ∧
      (driveAt (driving false false false) 4).used = false) ∧
    ((driveAt (driving true false false) 3).busy = true ∧ inStore (driving true false false) 3 = false ∧
      (driveAt (driving true false false) 3).reissued = false ∧ (driveAt (driving true true true) 3).reissued = true ∧
      inStore (driving true true true) 3 = true ∧ snapOnStore { snapping 0 0 [.pending] with ports := (driving true true true).ports } = true) ∧
    ((snapping 1 0 []).snap.map (fun x => x.marked) = some false ∧ porterRuns (snapping 1 0 []) = true ∧
      atBoundary (snapping 1 0 []) = true ∧ (trainPlan (snapping 1 0 [])).isSome = true ∧ payloadLen (marked 0) ≠ 0 ∧
      gradSteps (marked 0).parts = [] ∧ (snapRooms (payloadLen (marked 0)) (snapping 1 0 [])).isSome = true) ∧
    ([1, 2].all (fun d => (snapping d 0 [.pending]).snap.map (fun x => (x.marked, snapDest x)) == some (true, d)) = true ∧
      (snapOf 1 0 [.pending, .saved]).chunks.getD 0 .shipped ≠ .shipped ∧ (snapOf 1 0 [.pending, .saved]).chunks.getD 1 .shipped ≠ .shipped ∧
      (chunkPoison (snapping 1 0 [.pending]) (snapOf 1 0 [.pending]) 0).isNone = true ∧
      (snapOf 1 0 [.pending]).chunks.getD 1 .shipped = .shipped) := by decide +kernel

theorem wit_DrivesAndSnapshotChunks_poison :
    (let x := { snapOf 1 0 [.pending] with parts := (marked 0).parts }
     let s := { snapping 1 0 [.pending] with mem := { Mem.reset with badBlocks := x.parts.map (fun p => p.addr / 256 * 256) }, snap := some x };
      x.marked = true ∧ snapDest x ≠ 2 ∧ x.chunks.getD 0 .shipped = .pending ∧ (chunkPoison s x 0).isSome = true) ∧
    (snapOf 2 0 [.pending]).chunks.getD 0 .shipped ≠ .shipped ∧ snapDest (snapOf 2 0 [.pending]) = 2 := by decide +kernel

theorem bytesLE_length (n v : Nat) : (bytesLE n v).length = n := by
  induction n generalizing v with
  | zero => rfl
  | succ n ih => simp [bytesLE, ih]
theorem manifestLen_le (s : State) (x : Snapshot) (p : Part) (h : x.parts = [p]) (k : snapSigned x = false)
    (c : chunkCount (payloadLen x) = 1) : manifestLen s x = 4096 := by
  have e : (manifestBytes s x).length = 224 := by
    simp only [manifestBytes, manifestHead, h, k, c, recBytes, List.length_append, bytesLE_length, List.range_succ, List.range_zero,
      List.nil_append, List.flatMap_cons, List.flatMap_nil, List.append_nil]
    simp
  simp only [manifestLen, padTo4K, fit, e, List.length_append, List.length_take, List.length_replicate]
  omega
/-- The destination holds the manifest and the payload. -/
theorem wit_DrivesAndSnapshotChunks_fits :
    manifestLen (snapping 1 0x10000 []) (marked 0x10000) + payloadLen (marked 0x10000) ≤ sqDestLen (marked 0x10000).req := by
  have e : (marked 0x10000).parts.length = 1 ∧ snapSigned (marked 0x10000) = false ∧ chunkCount (payloadLen (marked 0x10000)) = 1 ∧
      payloadLen (marked 0x10000) = 8 ∧ sqDestLen (marked 0x10000).req = 0x10000 := by decide +kernel
  obtain ⟨p, hp⟩ := List.length_eq_one_iff.mp e.1
  rw [manifestLen_le _ _ p hp e.2.1 e.2.2.1, e.2.2.2.1, e.2.2.2.2]; omega

/-! ### Orders (13) -/

/-- `Passes` as a Bool, for states and orders written out. -/
def passesB (code : Nat) (c : Cmd) (subs : List Subject) (s : State) : Bool :=
  canTake s c.mailbox.val &&
  (c.mailbox.val != 64 || (s.power.phase != .bootStopped && (!(mbAt s 64).msgs.isEmpty || decide (outstandingOf s 64 < 8)) &&
    (keeperTakes code || (porterRuns s && s.porter.ready)))) &&
  c.crcOk && c.badField.isNone &&
  (match opRow code with
    | some row => standing s c.mailbox.val code row (mbAt s c.mailbox.val).sqHead == 0 && (argBad s row (pendingOf code c s)).isNone
    | none => false) &&
  (rivals s c.mailbox.val subs).isEmpty
theorem passes_of {code : Nat} {c : Cmd} {subs : List Subject} {s : State} (h : passesB code c subs s = true) :
    Passes code c subs s := by
  simp only [passesB, Bool.and_eq_true] at h
  obtain ⟨⟨⟨⟨⟨h1, h2⟩, h3⟩, h4⟩, h5⟩, h6⟩ := h
  refine ⟨h1, fun h => ?_, h3, Option.isNone_iff_eq_none.mp h4, ?_, List.isEmpty_iff.mp h6⟩
  · simp only [h, bne_self_eq_false, Bool.false_or, Bool.and_eq_true, Bool.or_eq_true, bne_iff_ne, decide_eq_true_eq] at h2
    refine ⟨h2.1.1, ?_, by simpa using h2.2⟩
    rcases h2.1.2 with h | h
    · exact .inl (by simpa using h)
    · exact .inr h
  · split at h5
    · next row e =>
      rw [Bool.and_eq_true] at h5
      exact ⟨row, e, by simpa using h5.1, Option.isNone_iff_eq_none.mp h5.2⟩
    · cases h5

/-- Sessions 1 (the owner's, bound to mailbox 0) and 2 (an observer's, bound to mailbox 1); room 5 is session 1's, of class
host; a mailbox 2 that no session has. -/
def served : State :=
  { hostUp with
    rooms := [(5, { room 5 with owner := 1, pages := 8 })]
    porter := { up.porter with
      mailboxes := [(0, { Mailbox.reset with session := 1, state := 1 }), (1, { Mailbox.reset with session := 2, state := 1 })]
      sessions := [(1, { owner := true, consent := 1, fn := .host }), (2, { owner := false, consent := 0, fn := .host })] } }
def fromMb (n : Fin 66) : Cmd := { cmd with mailbox := n }

def rivalled : State :=
  { served with porter := { served.porter with passOrders := [{ mailbox := 64, cid := 1, opcode := 0x0403, subject := .dispatch }] } }
theorem wit_OrdersAreCheckedAndAnswered : canTake served 0 = true ∧ canTake served 63 = true ∧ canTake served 65 = true ∧
    canTake rivalled 0 = true ∧ (opRow 0x0404).isSome = true ∧ (opRow 0x0A05).isSome = true ∧
    ((opRow 0x0404).map (fun r => (standing served 1 0x0404 r 0, standing served 0 0x0404 r 0)) = some (stNotOwner, 0)) ∧
    ((opRow 0x0A05).map (fun r => argBad served r (pendingOf 0x0A05 { cmd with argLen := 16, argRoom := 6 } served)) =
      some (some { st := stBadArg, detail := 0x79 })) ∧
    ((opRow 0x0404).map (fun r => (standing rivalled 0 0x0404 r 0, argBad rivalled r (pendingOf 0x0404 cmd rivalled)))) = some (0, none) ∧
    (rivals rivalled 0 [.dispatch]).any (losesTo rivalled 0 0x0404) = true ∧
    [0, 1, 2, 65].all (fun n => passesB 0x0100 (fromMb n) [] served) = true := by decide +kernel

/-! Of the orders of each row, the mailboxes that one which passes may come from. -/

/-- A mailbox 2 that no session has opens one. -/
def opened (sessions : Table Session) (cap : Cap) : State :=
  { served with porter := { served.porter with sessions := sessions }, cap := cap }
theorem wit_SessionOrders :
    (passesB 0x0101 (fromMb 2) [] served = true ∧ (tfind? served.porter.sessions 2).isSome = true ∧ ownerSession served ≠ 0 ∧
      served.cap.leaving = 0 ∧ [0, 1, 2, 3].all (fun t => !towerRetired served t) = true ∧ towerBusy (sup []) 3 = false) ∧
    (let s := opened [(2, { owner := false, consent := 0, fn := .host })] served.cap;
      passesB 0x0101 (fromMb 2) [] s = true ∧ ownerSession s = 0 ∧ s.cap.leaving = 0) ∧
    passesB 0x0103 (fromMb 0) [] served = true ∧
    (passesB 0x0102 (fromMb 0) [] served = true ∧ passesB 0x0102 (fromMb 1) [] served = true ∧
      (tfind? served.porter.sessions (sessionOfMb served 0).toNat).isSome = true ∧ served.cap.frTowers = 0) := by decide +kernel

theorem wit_RoomApertureAndCopyOrders :
    (passesB 0x0201 (fromMb 0) [] served = true ∧ (sessionOfMb served 0).toNat = 1 ∧
      [({ cls := 7, home := 0, index := 7, slots := 5, fallback := false, pages := 1 } : RoomReq),
        { cls := 0, home := 2, index := 7, slots := 1, fallback := true, pages := 9 },
        { cls := 3, home := 3, index := 0, slots := 1, fallback := false, pages := 1 }].all (fun q =>
          homeAllowed q && (grantRoom q 1 served).isSome) = true ∧
      (grantRoom { cls := 7, home := 1, index := 0, slots := 5, fallback := false, pages := 0xFFFFFFFF } 1 served).isNone = true) ∧
    ((roomAt served 5).map (fun r => (r.owner, r.releasing, r.fresh, r.cls)) = some (1, false, 0, 5) ∧
      [0x0202, 0x0203, 0x0206, 0x0208].all (fun k => passesB k (fromMb 0) [.room 5] served) = true ∧
      roomInUse served 5 = false ∧ ((roomAt served 5).map (fun r => (pinned r, r.active, (openVer r 0 0).isSome))) = some (false, 0, true) ∧
      roomInUse { served with ports := { served.ports with apertures := [(0, mkRec 128 [(112, 16, 5), (48, 24, 4), (32, 3, 7)])] } } 5 = true ∧
      (roomAt served 5).map (fun r => (r.home, slotBytes r, r.slots * r.pages)) = some (0, 0x8000, 8)) ∧
    ((0 : W32).toNat + 8 ≤ 8 ∧ (63 : Byte).toNat ≤ 63 ∧
      0x7000 + sumNat ([((0x1000 : W64), (0x1000 : W64))].map (fun e => e.2.toNat)) ≤ 0x8000) ∧
    [0, 1].all (fun n => passesB 0x0205 (fromMb n) [.room 5] served) = true ∧
    (passesB 0x0204 (fromMb 0) [] served = true ∧ sumNat ((List.replicate 8 (240 : W16)).map (fun x => x.toNat)) ≤ 1920 ∧
      (List.range 8).all (fun k => decide (classUse served k ≤ 240 * mib)) = true) ∧
    passesB 0x0207 (fromMb 0) [] served = true := by decide +kernel

theorem wit_ReadOrders : [0, 1, 64].all (fun n => passesB 0x0A01 (fromMb n) [] served) = true ∧
    [0, 1, 2, 64, 65].all (fun n => n == 2 || passesB 0x0A02 (fromMb n) [] served) = true ∧
    [0, 1].all (fun n => passesB 0x0A03 (fromMb n) [] served) = true ∧
    [0, 1, 64].all (fun n => passesB 0x0A04 (fromMb n) [] served && passesB 0x0806 (fromMb n) [] served) = true ∧
    [0, 1, 64, 65].all (fun n => passesB 0x0A05 (fromMb n) [] served) = true ∧ trustGone served = false ∧
    served.sec.certSlot = false ∧ ({ served.sec with certSlot := true } : Security).certSlot = true := by decide +kernel

/-- A mover's task with no stream, its room and completion record in the first room that the plan asks for. -/
def loadTask (m : Nat) : PlanTask :=
  { desc := mkRec 2048 [(480, 32, 4), (476, 4, 2), (459, 5, 1), (455, 4, 1), (451, 4, 1), (442, 9, 0x1FF), (400, 24, m), (376, 24, 1),
      (352, 24, 1), (192, 64, 0xE000000000000100)]
    progHead := 0, prog := [], auxRest := [], deps := [], room := 0xE000, slot := 0xFF, inStep := true, backward := false, scalars := [] }
def loadPlan (m slots : Nat) : Plan :=
  { plan [loadTask m] [] with rooms := [{ cls := 7, home := 0, index := 0, slots := slots, fallback := false, pages := 4, given := none }] }
def granted (p : Plan) : Option (List Nat × State) := grantPlan 1 p.rooms [] served

/-- The optimiser-set record of step 11. -/
def optSet : BitVec 512 := 0xb000000000000000000000000000000000000000000000000000000000000000000000000000000000000000000000000000000005978955e
theorem optSet_good : optSetBad 11 optSet = false := by
  simp only [optSetBad, recCrcOk_go]; decide +kernel
/-- One plan, whose CORE_MAP_CHECK is that of a module with every core present and every channel whole. -/
def stepped (j : Option Job) (q : Option (W64 × W32)) : State :=
  { served with
    porter := { served.porter with plans := [(1, { plan [planTask1] [] with coreMapCheck := 0xA1498866 })] }
    steps := { served.steps with job := j, queued := q, stepFree := true } }
theorem stepped_check (j : Option Job) (q : Option (W64 × W32)) : coreMapCheck (stepped j q) = 0xA1498866 := by
  have e : coreMapCheck (stepped j q) = coreMapCheck up := rfl
  rw [e]; simp only [coreMapCheck, crc32_go]; decide +kernel
def halting (w : Setter) (h : Bool) : State := { served with porter := { served.porter with halted := h, haltSetter := w } }

/-- The task's room is a task room, or the host's. -/
def loadIn (room : W16) : Plan := { loadPlan 1 1 with tasks := [{ loadTask 1 with room := room }] }
theorem wit_PlanAndStepOrders_load : passesB 0x0301 (fromMb 0) [.plan] served = true ∧
    [((0xE000 : W16), false), (5, true)].all (fun x => !planFormBad (loadIn x.1) &&
      (loadIn x.1).rooms.all (fun r => !planRoomBad served (sessionOfMb served 0) r) &&
      (granted (loadIn x.1)).map (fun g => let p := resolvePlan g.2 g.1 (loadIn x.1);
        (planBad g.2 p, kindBad g.2 p, lagBad g.2 p)) == some (x.2, false, false)) = true := by decide +kernel
/-- A plan that breaks a form, one whose room no class allows, and one whose rooms no slice holds. -/
theorem wit_PlanAndStepOrders_refused : planFormBad { loadPlan 1 1 with inFlight := 0 } = true ∧
    (loadPlan 1 6).rooms.any (fun r => planRoomBad served (sessionOfMb served 0) r) = true ∧
    (let p := { loadPlan 1 1 with rooms := (loadPlan 1 1).rooms.map (fun r => { r with pages := 0xFFFFFF }) };
      planFormBad p = false ∧ p.rooms.all (fun r => !planRoomBad served (sessionOfMb served 0) r) = true ∧ (granted p).isNone = true) := by
  decide +kernel
theorem wit_PlanAndStepOrders :
    ((livePlan (stepped none none) 1).map (fun p => (p.coreMapCheck, gatedTask (stepped none none) p, p.tasks.length,
        (planTask p 4).isSome)) = some (0xA1498866, false, 1, true) ∧
      planInStep (stepped none none) 1 = false ∧ planInStep (stepped (some (job [])) none) 1 = true ∧
      planInStep (stepped none (some (12, 1))) 1 = true) ∧
    [0x0301, 0x0302, 0x0303, 0x0401, 0x0402].all (fun k => passesB k (fromMb 0) [.plan] (stepped none none)) = true ∧
    ((stepped none none).steps.queued = none ∧ (stepped none none).params.lost = false ∧ (stepped none none).restore.isNone = true ∧
      stepExpected (stepped none none) 11 = true ∧ stepExpected (stepped (some (job [])) none) 11 = true ∧
      passesB 0x0401 (fromMb 0) [.plan] (stepped (some (job [])) none) = true ∧
      passesB 0x0402 (fromMb 0) [.plan] (stepped (some (job [])) none) = true ∧ (job []).step = 10) ∧
    [0, 64].all (fun n => passesB 0x0403 (fromMb n) [.dispatch] (halting .owner false) &&
      passesB 0x0404 (fromMb n) [.dispatch] (halting .owner true) && passesB 0x0404 (fromMb n) [.dispatch] (halting .baseboard true)) = true := by
  decide +kernel

/-! ### Membership and placement (09, 10, 11) -/

def fabServed (f : Fabric → Fabric) : State := { served with fab := f { up.fab with moduleId := 0x10 } }
def inDomain : Fabric → Fabric := fun f => { f with
  domain := some 1, epoch := 9, everFormed := true
  members := [{ id := 0x10, rack := 4, planes := BitVec.allOnes 36 }, { id := 0x11, rack := 127, planes := BitVec.allOnes 36 }] }
def exportOf (pages : Nat) : BitVec 128 := mkRec 128 [(112, 16, 5), (48, 24, pages), (35, 1, 1), (32, 3, 7)]
theorem wit_MembershipOrders :
    ([0x0501, 0x0502, 0x0503, 0x0504, 0x0505].all (fun k => passesB k (fromMb 65) [.domain] served) = true ∧
      served.fab.domain = none ∧ (fabServed inDomain).fab.domain = some 1 ∧
      [0x0501, 0x0502, 0x0503, 0x0504].all (fun k => passesB k (fromMb 65) [.domain] (fabServed inDomain)) = true) ∧
    (served.fab.everFormed = false ∧ (fabServed inDomain).fab.everFormed = true ∧ (fabServed inDomain).fab.tornDown = false ∧
      (fabServed (fun f => { f with everFormed := true, tornDown := true, epoch := 9 })).fab.tornDown = true) ∧
    ((65535 : W32).toNat < 65536 ∧ (65535 : W32).toNat + (1 : W32).toNat ≤ 65536 ∧ [(0x0011000000000008 : W64)].length = (1 : W32).toNat ∧
      rstModule 0x0011000000000008 = rackModule (fabServed inDomain) ((65535 + 0) / 512) ∧ fld (0x0011000000000008 : W64) 4 28 = 0) ∧
    [0, 511].all (fun _ => passesB 0x0506 (fromMb 0) [.room 5] served) = true ∧
    (exValid 0 = false ∧ exValid (exportOf 8) = true ∧ fld (exportOf 8) 0 32 = 0 ∧ fld (exportOf 8) 36 12 = 0 ∧ exRoom (exportOf 8) = 5 ∧
      badExport served (sessionOfMb served 0) (exportOf 8) = false ∧ badExport served (sessionOfMb served 0) (exportOf 9) = true) ∧
    (let s := { served with rooms := [(5, { room 4 with owner := 1 }), (6, { room 3 with owner := 1 })] };
      passesB 0x0507 (fromMb 0) [.room 5] s = true ∧ passesB 0x0507 (fromMb 0) [.room 6] s = true ∧
      (roomAt s 5).map (fun r => (r.owner, r.cls, r.slots)) = some (1, 4, 1) ∧
      (roomAt s 6).map (fun r => (r.owner, r.cls, r.home)) = some (1, 3, 0)) := by decide +kernel

/-- A layout of two, from step 1 on, CRC included, of which this module is index 0. -/
def layoutRaw : BitVec 512 := 0x50000000000000001000200020000000000010000000000000001000000000000000000000000000000000000000000000000000000000000e5ef5353
def layoutIn (m : List W16) : Layout := { raw := layoutRaw, members := m.take (fld layoutRaw 400 16) }
def past : State := { fabServed id with steps := { served.steps with lastBoundary := 1, anyBoundary := true, stepFree := false } }
def soon : State := { fabServed id with steps := { served.steps with stepFree := true } }
theorem layouts_good : badLayout past (layoutIn [0x10, 0x11]) = false ∧ badLayout soon (layoutIn [0x10, 0x11]) = false ∧
    badLayout soon (layoutIn [0x10]) = true := by
  simp only [badLayout, recCrcOk_go]; decide +kernel
/-- Expert 1 of layer 0, which this module holds where `mine`. -/
def placing (mine : Bool) (x : Exchange → Exchange) : State :=
  { fabServed inDomain with
    porter := { served.porter with plans := [(1, { plan [] [entry3] with bindings := [{ layer := 0, expert := 1, hid := 32, entries := [0, 0, 0], mine := mine }] })] }
    steps := { served.steps with stepFree := true }
    exch := x { served.exch with group := [some 0x10, some 0x11] } }
def placed (holder ver : Nat) : BitVec 128 :=
  mkRec 128 [(112, 16, ver), (107, 1, 1), (8, 16, holder), (0, 8, 1), (32, 16, 0xFFFF), (56, 16, 0xFFFF), (80, 16, 0xFFFF)]
theorem wit_LayoutAndPlacementOrders :
    (passesB 0x0508 (fromMb 65) [.domain] soon = true ∧ nextStep soon ≤ loFrom (layoutIn [0x10, 0x11]) ∧
      passesB 0x0508 (fromMb 65) [.domain] past = true ∧ loFrom (layoutIn [0x10, 0x11]) < nextStep past) ∧
    (let s := placing false id;
      [0x0509, 0x050A, 0x050B, 0x050C].all (fun k => passesB k (fromMb 65) [.ept] s) = true ∧ s.steps.job.isNone = true ∧
      (planBindings s).map (fun b => eptIndex b.layer b.expert) = [1] ∧ badEptEntry s [0x10, 0x11] 0 eptReset = false ∧
      badEptEntry s [0x10, 0x11] 1 (placed 0x11 1) = false ∧ [eptReset, placed 0x11 1].length = 2) ∧
    passesB 0x0509 (fromMb 65) [.ept] (inStep (plan [] []) (job [])) = true ∧
    (let s := placing true id;
      passesB 0x050A (fromMb 65) [.ept] s = true ∧ s.exch.staged.length = 0 ∧ s.exch.installStep = none ∧ passedBoundary s 1 = false ∧
      [0x10, 0x11].all (fun h => !badEptEntry s (groupMembers s) 1 (placed h 1) &&
        entVer (placed h 1) == (nextVer (BitVec.ofNat 16 (entVer (rawActive s 1)))).toNat) = true ∧
      gainedBy s [(1, placed 0x11 1)] = [] ∧ gainedBy s [(1, placed 0x10 1)] ≠ []) ∧
    (let s := placing true (fun x => { x with installStep := some 3, stageDone := true });
      passesB 0x050B (fromMb 65) [.ept] s = true ∧ s.exch.installStep = some 3 ∧ s.exch.stageDone = true ∧ s.exch.activated = false ∧
      s.exch.activateStep = none ∧ (3 : W64).toNat < (4 : W64).toNat ∧ nextStep s ≤ (4 : W64).toNat + 1) := by decide +kernel

/-! ### Limits, gates, tests (14, 15, 16) -/

def lowered : State := { served with gov := { served.gov with sustain := 2000 } }
/-- Every tower off, held or not. -/
def dark (held : Bool) : State :=
  { served with power := { served.power with domains := (List.range 12).map (fun d => (16 + d, .inRegulation)) }, gov := { served.gov with tripped := held } }
theorem wit_PowerAndGateOrders :
    ([0, 64].all (fun n => passesB 0x0601 (fromMb n) [.limits] served && passesB 0x0602 (fromMb n) [.capShare] served &&
        passesB 0x0603 (fromMb n) [.ceiling 7] served) = true ∧ served.porter.limitOrders = [] ∧
      (800 ≤ (800 : W16).toNat ∧ (3600 : W16).toNat ≤ 3600 ∧ (4400 : W16).toNat ≤ 4400 ∧ (10 : Byte).toNat ≤ 10) ∧
      (800 : W16).toNat ≤ served.gov.sustain ∧ (3600 : W16).toNat ≤ served.gov.peak) ∧
    (passesB 0x0601 (fromMb 0) [.limits] lowered = true ∧ lowered.gov.sustain < (3600 : W16).toNat ∧
      lowered.porter.sustainSetter = .baseboard) ∧
    (min (15 : Byte).toNat (ageingCeiling served 7) ≤ (towerGov served 7).ceiling.toNat ∧ (7 : Byte).toNat ≤ 7) ∧
    (passesB 0x0604 (fromMb 64) [.lastLine] served = true ∧ (2 : Byte).toNat ≤ 2 ∧ served.gov.lastLineNext.toNat ≠ (2 : Byte).toNat) ∧
    (passesB 0x0605 (fromMb 0) (towerSubjects 0x81) served = true ∧ gateRefused served 0x81 = false ∧ (0x81 : Byte).getLsbD 7 = true ∧
      [0, 7].all (fun t => (supplyAt served t == .inRegulation) && (tfind? served.power.gating t).isNone) = true ∧
      gateRefused (inStep (plan [] []) (job [])) 0x81 = true ∧ passesB 0x0605 (fromMb 0) (towerSubjects 0x81) (stepped (some (job [])) none) = true ∧
      gateRefused (stepped (some (job [])) none) 0x81 = true) ∧
    (passesB 0x0605 (fromMb 0) (towerSubjects 0x81) (dark false) = true ∧ inReg (dark false) sdMere = true ∧
      [0, 7].all (fun t => !heldStopped (dark false) t && supplyAt (dark false) t == .off && supplyAt (dark false) (8 + t) == .off &&
        (tfind? (dark false).power.gating t).isNone) = true ∧
      passesB 0x0605 (fromMb 0) (towerSubjects 0x81) (dark true) = true ∧ heldStopped (dark true) 0 = true) := by decide +kernel

def testReq (number kind target : Nat) (begun filed : Bool) : TestReq :=
  { number := number, kind := kind, target := target, begun := begun, filed := filed, session := 1, todo := [] }
def testing (rs : List TestReq) (under : Option (Nat × Nat)) (tower : Option Nat) : State :=
  { served with tests := { served.tests with reqs := rs, underTest := under, tower := tower } }
def unconsented : State :=
  { served with porter := { served.porter with sessions := [(1, { owner := true, consent := 0, fn := .host })] } }
theorem wit_TestOrdersAndInServiceTests :
    ([0, 64].all (fun n => passesB 0x0701 (fromMb n) [] served && passesB 0x0701 (fromMb n) [.tower 7] served) = true ∧
      (35 : W16).toNat < 36 ∧ (383 : W16).toNat < 384 ∧ (383 : W16).toNat / 48 = 7 ∧ (0x207 : W16).toNat < 0x208 ∧
      384 ≤ (384 : W16).toNat ∧ (7 : W16).toNat < 8) ∧
    (ownerConsents served = true ∧ towerTests served = 0 ∧ stepOpen served = false ∧ served.tests.tower = none ∧ towerOn served 7 = true ∧
      (tfind? served.power.gating 7).isNone = true ∧ stepOpen (stepped (some (job [])) none) = true ∧
      ownerConsents (stepped (some (job [])) none) = true ∧ towerTests (stepped (some (job [])) none) = 0 ∧
      passesB 0x0701 (fromMb 0) [.tower 7] (stepped (some (job [])) none) = true) ∧
    (let s := testing [testReq 1 3 2 false false] none none;
      passesB 0x0701 (fromMb 0) [.tower 7] s = true ∧ ownerConsents s = true ∧ towerTests s ≠ 0 ∧ ownerConsents unconsented = false ∧
      passesB 0x0701 (fromMb 0) [.tower 7] unconsented = true) ∧
    ([(false, false), (true, false), (false, true)].all (fun b => let s := testing [testReq 1 2 100 b.1 b.2] none none;
      (s.tests.reqs.find? (fun r => r.number == (1 : W32).toNat)).map (fun r => (r.kind, r.target, r.begun, r.filed)) == some (2, 100, b.1, b.2) &&
      passesB 0x0702 (fromMb 0) (testSubjects 2 100) s && (s.tests.reqs.find? (fun r => r.number == (2 : W32).toNat)).isNone &&
      passesB 0x0702 (fromMb 0) [] s) = true) ∧
    (served.tests.underTest = none ∧ porterRuns served = true ∧ served.porter.ready = true ∧ served.tests.reqs.isEmpty = true ∧
      served.tests.nextCore < 384 ∧ testable served served.tests.nextCore = true ∧
      (let s := testing [testReq 1 2 100 false false] none none;
        (s.tests.reqs.filter (fun r => r.kind == 2)).length = 1 ∧ testable s 100 = true ∧ 100 ∉ s.tests.skipped)) ∧
    ([1, 2].all (fun run => let s := testing [] (some (383, run)) none;
      s.tests.underTest == some (383, run) && (tasksOn s 383).isEmpty && present s 383) = true ∧
      (tasksOn { testing [] (some (0, 1)) none with cores := (v0 false).cores } 0).isEmpty = false) ∧
    ((testing [] none (some 7)).tests.tower = some ((7 : Fin 8).val) ∧ (383 : Fin 384).val / 48 = (7 : Fin 8).val ∧
      present (testing [] none (some 7)) 383 = true) := by decide +kernel

/-! ### Firmware, snapshots, drives, lodging, restore (12, 16, 17) -/

def secured (f : Security → Security) (s : State) : State := { s with sec := f s.sec }
def staged2 (s : State) : State := secured (fun x => { x with staged := [(2, image)] }) s
def segHead (kind off total : Nat) : BitVec 128 := mkRec 128 [(64, 32, total), (32, 32, off), (0, 8, kind)]
/-- A policy record of version 1, CRC included. -/
def policy1 : BitVec 512 := 0x10000000000000000000000000000000000000000000000000000000000000000000000000000000000000000000000009fb7c567
theorem policy1_good : recCrcOk policy1 = true := by simp only [recCrcOk_go]; decide +kernel
def key1 : List Byte := List.replicate 133 4
theorem wit_FirmwareOrders :
    ([0x0801, 0x0802, 0x0803, 0x0804, 0x0805].all (fun k => passesB k (fromMb 64) [.firmware] served) = true ∧ trustGone served = false ∧
      passesB 0x0805 (fromMb 0) [.firmware] served = true ∧ keeperAlive served = true) ∧
    (fld (segHead 2 0 393) 32 32 = 0 ∧ fld (segHead 2 0 393) 64 32 = 393 ∧ fld (segHead 2 0 393) 0 8 = 2 ∧ bareImage.length = 393 ∧
      (bareImage.take 128).length < 393 ∧ fld (segHead 2 128 393) 32 32 = 128 ∧
      (tget (secured (fun x => { x with staging := [(2, (393, bareImage.take 128))] }) served).sec.staging 2 (0, [])).2.length = 128 ∧
      (bareImage.take 128).length + (bareImage.drop 128).length = 393 ∧ (tget served.sec.staging 2 (0, [])).2.length ≠ 128) ∧
    (let s := stepped (some (job [])) none;
      stepOpen s = true ∧ s.sec.staged.isEmpty = true ∧ (staged2 s).sec.staged.isEmpty = false ∧
      passesB 0x0802 (fromMb 64) [.firmware] s = true ∧ passesB 0x0802 (fromMb 64) [.firmware] (staged2 s) = true ∧ stepOpen (staged2 s) = true ∧
      trustGone (staged2 s) = false) ∧
    (stepOpen served = false ∧ swapBlocked served = true ∧ swapBlocked (staged2 served) = false ∧ stepOpen (staged2 served) = false ∧
      passesB 0x0802 (fromMb 64) [.firmware] (staged2 served) = true) ∧
    (served.sec.ownerKeys.length < 3 ∧ key1.length = 133 ∧ keyInForceSigned served key1 none = true ∧
      passesB 0x0803 (fromMb 64) [.firmware] (secured (fun x => { x with ownerKeys := [1, 2, 3] }) served) = true ∧
      ([] : List Byte).length ≠ 133) ∧
    (fld policy1 32 364 = 0 ∧ fld policy1 448 64 = 0 ∧ fld served.sec.policy 416 32 < fld policy1 416 32 ∧
      [1, 2, 3].all (fun k => decide (polMin policy1 k ≤ imageSvn served k)) = true ∧
      fld policy1 416 32 ≤ fld (secured (fun x => { x with policy := policy1 }) served).sec.policy 416 32) ∧
    (let s := secured (fun x => { x with zeroised := true }) served;
      passesB 0x0802 (fromMb 64) [.firmware] s = true ∧ trustGone s = true) := by decide +kernel
/-- The record is put in force where the algorithms, of which nothing is assumed, accept its signer and signature. -/
theorem wit_FirmwareOrders_signer (h : Config.sha512 key1 = Config.rootHash 0) (h2 : Config.rootRevoked 0 = false) :
    policySigner served key1 = true := by
  have e : ownerKeyHash served = none := rfl
  simp only [policySigner, e, List.any_cons, h, h2, beq_self_eq_true, Bool.not_false, Bool.and_self, Bool.true_or]

/-- A snapshot request, CRC included: SNAP_ID 6, to the fabric and to the store; and one whose SEL is reserved. -/
def snapAsk : Nat → BitVec 512
  | 0 => 0x600000000000000000000000000000000000000000000000000000000000000000000000000000000000000000000000000000000c27d808f
  | 1 => 0x6040000000000000000000000000000000000000000000000000000000000000000000000000000000000000000000000000000009f91d183
  | _ => 0x630000000000000000000000000000000000000000000000000000000000000000000000000000000000000000000000000000000ec4c405d
def formed (f : Ports → Ports) : State := { served with ports := f served.ports }
theorem asks : badRequest served (snapAsk 0) = none ∧ badRequest served (snapAsk 1) = none ∧ badRequest served (snapAsk 2) = some 55 ∧
    badRequest { served with snap := some (snapOf 1 0 []) } (snapAsk 1) = none := by
  simp only [badRequest, recCrcOk_go]; decide +kernel
def lodging (f : Lodging → Lodging) (s : State) : State := { s with lodge := f s.lodge }
def waiting : State :=
  { lodging (fun l => { l with asking := some (0x11, false) }) served with porter := { served.porter with outstanding := [pend 0 (.lodge 0x11)] } }
def manifest1 (own : BitVec 512) (digests : List (BitVec 512)) (es : List (BitVec 256)) : Manifest :=
  { header := 0x6000000000000000a00000100000000000000000100000005000000000000000800000000000000000000000000000000000000001abad999, entries := es, digests := digests, own := own, signature := [] }
/-- Its plan has one trained tensor. -/
def planned : State :=
  { served with porter := { served.porter with plans := [(1, { plan [] [entry3] with lag := 1 })] }, rooms := [(2, gradRoom 0), (3, room 1)] }
def full : State := { planned with ceilings := [0, 0, 0, 0, 0, 0, 0, 0] }
theorem wit_SnapStoreLodgeRestoreOrders :
    ([0x0901, 0x0902, 0x0903].all (fun k => passesB k (fromMb 0) [.snapshot] served && passesB k (fromMb 0) [.snapshot] (snapping 1 0 []) == false &&
        passesB k (fromMb 0) [.snapshot] { served with snap := some (snapOf 1 0 []) }) = true ∧ served.snap.isNone = true ∧
      fld (snapAsk 0) 441 1 ≠ 1 ∧ sqDest (snapAsk 0) = 0 ∧ sqDest (snapAsk 1) ≠ 0 ∧
      (formed (fun p => { p with store := [(3, 1)] })).ports.store.length = 1 ∧ storRoot (formed (fun p => { p with store := [(3, 1)] })) = true ∧
      snapId (snapOf 1 0 []) = (6 : W64).toNat) ∧
    (let s := formed (fun p => { p with drives := [(3, drv false false), (15, drv false false)] });
      passesB 0x0903 (fromMb 0) [.snapshot] s = true ∧ storRoot s = true ∧ [((3 : Nat), (1 : Nat)), (15, 2)].eraseDups.length = 2 ∧
      [3, 15].all (fun d => (driveAt s d).used && !(driveAt s d).failed) = true ∧
      storRoot (formed (fun p => { p with storRole := 2 })) = false ∧
      [0x0903, 0x0904].all (fun k => passesB k (fromMb 0) [.snapshot] (formed (fun p => { p with storRole := 2 }))) = true) ∧
    (passesB 0x0904 (fromMb 0) [] served = true ∧ storRoot served = true ∧ domainRuns served dieStor = true ∧ served.ports.drives.isEmpty = true) ∧
    ([0, 65].all (fun n => passesB 0x0905 (fromMb n) [.lodge] served) = true ∧ lodgeWaits served = false ∧
      (1 : Byte).toNat ≠ served.power.feedTag.toNat ∧ (0 : Byte).toNat = served.power.feedTag.toNat) ∧
    (let s := lodging (fun l => { l with lodgedFor := 0x11, directory := [(3, 0, 5), (4, 1, 6)], tail := [1, 2], promoted := none }) served;
      passesB 0x0906 (fromMb 65) [.lodge] s = true ∧ s.lodge.lodgedFor = 0x11 ∧ (0x11 : W16) ≠ noModule ∧ isMember s 0x11 = false ∧
      (tailRoom s).map (fun x => (x.1, (roomAt x.2 x.1.toNat).isSome)) = some (1, true) ∧ s.lodge.lodgedFor ≠ 0x12 ∧
      cellsWfFrom 0 s.mem.cells = true) ∧
    (passesB 0x0907 (fromMb 0) [] planned = true ∧ (0x4000000 : W64).toNat % chunkLen = 0 ∧
      planned.porter.plans.any (fun p => !planned.porter.unloaded.contains p.1) = true ∧ stepOpen planned = false ∧
      planned.snap.isNone = true ∧ planned.restore.isNone = true ∧ passesB 0x0907 (fromMb 0) [] full = true ∧
      (grantRoom { cls := 6, home := 1, index := 0, slots := 1, fallback := false, pages := 2 * chunkLen / 4096 } 0xFFFF planned).isSome = true ∧
      (grantRoom { cls := 6, home := 1, index := 0, slots := 1, fallback := false, pages := 2 * chunkLen / 4096 } 0xFFFF full).isNone = true ∧
      served.porter.plans.isEmpty = true) := by decide +kernel
/-- A manifest that passes its checks: its own digest is the one it carries. -/
def ownDigest : BitVec 512 := Config.sha512 (manifestMsg (manifest1 0 [0] []))
def image1 : Manifest := manifest1 ownDigest [0] []
theorem image1_crc : recCrcOk image1.header = true := by simp only [recCrcOk_go]; decide +kernel
theorem wit_SnapStoreLodgeRestoreOrders_manifest :
    manifestBad planned 6 image1 = none ∧ mfChunks image1 ≠ 0 ∧ (openImage image1 (restored planned image1) planned).isSome = true := by
  have e : (mfSigned image1 = false ∧ mfId image1 = 6 ∧ mfChunks image1 = 1 ∧ mfSeed image1 = 5 ∧ mfLag image1 = 1) ∧
      chunkCount (mfPayload image1) = 1 ∧ image1.digests.length = 1 ∧ (openImage image1 (restored planned image1) planned).isSome = true := by
    decide +kernel
  have f : ((trainPlan planned).map (fun p => if p.params.any peResident then p.lag else 0)).getD 0 = 1 ∧
      ((trainPlan planned).map (fun p => p.seed.toNat)).getD 0 = 5 := by decide +kernel
  have m : manifestMsg image1 = manifestMsg (manifest1 0 [0] []) := by simp only [manifestMsg, image1, manifest1]
  have g : image1.entries = [] ∧ Config.sha512 (manifestMsg image1) = image1.own := ⟨rfl, congrArg Config.sha512 m⟩
  obtain ⟨⟨e2, e3, e4, e5, e6⟩, e7, e8, e9⟩ := e
  refine ⟨?_, by rw [e4]; omega, e9⟩
  simp only [manifestBad, image1_crc, e2, e3, e4, e5, e6, e7, e8, f.1, f.2, g.1, g.2]; simp

/-! ### Lodging and restore rows (16) -/

/-- Room 6 lodges tensors of module 0x11. -/
def lodged (f : Lodging → Lodging) : State :=
  { lodging (fun l => f { l with lodgedFor := 0x11, room := 6, areas := 2 }) served with rooms := [(6, { room 3 with pages := 8 })] }
/-- One part of tensor 3: its working copy. -/
def partEntry : BitVec 256 := mkRec 256 [(224, 32, 3), (218, 2, 2), (217, 1, 1), (193, 24, 2), (169, 24, 2), (0, 48, 8)]
def chunkBytes : List Byte := [1, 2, 3, 4, 5, 6, 7, 8]
def chunked (chunks : Nat) : Manifest :=
  { manifest1 0 [Config.sha512 chunkBytes, Config.sha512 chunkBytes] [partEntry] with
    header := mkRec 512 [(448, 64, 6), (384, 64, 10), (288, 32, chunks)] }
def restoring (chunks : Nat) (done : List Nat) : State :=
  { planned with restore := some (Restoring.mk 1 6 0 (chunked chunks) 0xFFFF done []) }
theorem wit_LodgingAndRestoreRows :
    (porterRuns served = true ∧ served.porter.ready = true ∧ served.lodge.lodgedFor = noModule ∧
      (lodged id).lodge.lodgedFor ≠ noModule ∧ (lodged id).lodge.lodgedFor ≠ 0x12 ∧ (lodged id).lodge.promoted = none ∧
      (0 : Byte).toNat = served.power.feedTag.toNat ∧ (1 : Byte).toNat ≠ served.power.feedTag.toNat ∧
      (lodgingRoom 5000 (releaseNow served.lodge.room.toNat served)).isSome = true ∧
      (lodgingRoom 5000 (releaseNow (lodged id).lodge.room.toNat (lodged id))).isSome = true) ∧
    (waiting.lodge.asking = some (0x11, false) ∧ (waiting.porter.outstanding.map isLodgeWait) = [true]) ∧
    ((roomAt (lodged id) (lodged id).lodge.room.toNat).isSome = true ∧ chunkBytes.length ≤ areaLen (lodged id) ∧
      (lodged id).lodge.spare < (lodged id).lodge.areas ∧ (3 : W32) ∉ (lodged id).lodge.resent ∧
      (3 : W32) ∈ (lodged (fun l => { l with resent := [3], directory := [(3, 1, 5)] })).lodge.resent ∧
      (dirEntry (lodged (fun l => { l with directory := [(3, 1, 5)] })) 3).isSome = true ∧ cellsWfFrom 0 (lodged id).mem.cells = true) ∧
    ([(1, []), (2, []), (2, [1])].all (fun x => (restoring x.1 x.2).restore.map (fun r =>
      (mfChunks r.manifest, r.done, (partsIn r.manifest 0).length)) == some (x.1, x.2, 1)) = true ∧
      ((restoring 2 []).restore.map (fun r => (partsIn r.manifest 0).map (fun q => (q.1, q.2)))) = some [(partEntry, 0, 0, 8)] ∧
      mePart partEntry ≠ 7 ∧ partHome (restoring 2 []) partEntry = some (0x80001000000, 8) ∧ 0 + 8 ≤ chunkBytes.length ∧
      (trainPlan (restoring 1 [])).isSome = true ∧ cellsWfFrom 0 (restoring 2 []).mem.cells = true) := by decide +kernel
theorem wit_LodgingAndRestoreRows_digest : (restoring 2 []).restore.map (fun r => r.manifest.digests.getD 0 0) = some (Config.sha512 chunkBytes) ∧
    (restoring 1 []).restore.map (fun r => r.manifest.digests.getD 0 0) = some (Config.sha512 chunkBytes) := ⟨rfl, rfl⟩

/-! ### Governor and last lines (15), security and SPDM (17) -/

def governed (f : Governor → Governor) (s : State) : State := { s with gov := f s.gov }
def margined (s : State) : State := governed (fun g => { g with margins := [(23, 20), (0, 20)] }) s
/-- 5,000 W drawn, all of it by compute. -/
def warm (p : Nat) : Sample := { sample 56 with p := p, pc := p, diodes := List.replicate 56 [1600, 1610] }
def heavy : Sample := warm 5000
theorem wit_GovernorSamplesAndLastLines :
    (keeperAlive up = true ∧ up.gov.b = 0 ∧ up.gov.m = 0 ∧ up.gov.l = 0 ∧ up.gov.order = 0 ∧ 0 < heavy.pc) ∧
    ([up, stepped (some (job [])) none].all (fun s => keeperAlive (margined s) && towerOn (margined s) (23 / 3) &&
        (tget (margined s).gov.outs 23 []).length ≤ 16 && tget (margined s).gov.margins 23 0 == 20) = true ∧
      stepOpen (margined up) = false ∧ stepOpen (margined (stepped (some (job [])) none)) = true ∧
      min 40 (listMax ([3, 0].map marginOf)) < 20 ∧ 20 < min 40 (listMax ([3, 30].map marginOf))) ∧
    (inReg up sdSns = true ∧ isPondLayer (0 : Fin 56).val = false ∧ isPondLayer (2 : Fin 56).val = true ∧ up.gov.tripped = false) ∧
    (up.power.vralert = false ∧ vrHonoured up = true ∧ vrHonoured (governed (fun g => { g with lastLine := 2 }) up) = false ∧
      keeperAlive up = true ∧ (governed (fun g => { g with vrHold := true }) up).gov.vrHold = true ∧ up.gov.vrHold = false) ∧
    (up.power.coolFail = false ∧ coolHonoured up = true ∧ coolHonoured (governed (fun g => { g with lastLine := 1 }) up) = false ∧
      ({ up.power with coolFail := true } : Power).coolFail = true ∧ up.power.phase ≠ .training) ∧
    ({ up.cap with leaving := 8 } : Cap).leaving.getLsbD (3 : Fin 8).val = true := by decide +kernel
def allowanceOf (m : Sample) : Option (Bool × Nat) :=
  match exec (.governorSample m) up with
  | .next t => some (decide (t.gov.allow < (m.p : Int)), t.gov.b)
  | _ => none
theorem wit_GovernorSamplesAndLastLines_excess : allowanceOf heavy = some (true, 36) ∧ allowanceOf (warm 100) = some (false, 0) := by
  decide +kernel

def secureUp (neg : List Nat) (cert : Bool) (ss : List (Nat × W16 × Bool)) : State :=
  { up with sec := { up.sec with negotiated := neg, certSlot := cert, sessions := ss } }
theorem wit_SecurityAndSpdmRows :
    (inReg up sdCtl = true ∧ keeperAlive up = true ∧ keeperRuns up = true ∧ 392 ∉ up.sec.accessed ∧
      392 ∈ ({ up.sec with accessed := [392] } : Security).accessed ∧ keeperRuns State.reset = false) ∧
    (keeperAlive (secureUp [] false []) = true ∧ spdmServes up 0 = false ∧ spdmServes (secured (fun x => { x with zeroised := true }) up) 1 = false ∧
      spdmServes up 1 = true ∧ spdmServes (secured (fun x => { x with policy := mkRec 512 [(414, 1, 1)] }) up) 0 = true ∧
      negotiated up 1 = false ∧ negotiated (secureUp [1] true []) 1 = true ∧ spdmServes (secureUp [1] true []) 1 = true ∧
      (secureUp [1] true []).sec.certSlot = true ∧ (secureUp [1] false []).sec.certSlot = false) ∧
    (spdmSession (secureUp [1] true []) 1 7 = none ∧
      ((secureUp [1] true [(1, 8, true)]).sec.sessions.filter (fun q => q.1 == 1)).length < 2 ∧
      spdmSession (secureUp [1] true [(1, 8, true)]) 1 7 = none ∧
      2 ≤ ((secureUp [1] true [(1, 8, true), (1, 9, true)]).sec.sessions.filter (fun q => q.1 == 1)).length ∧
      spdmSession (secureUp [] true [(1, 8, false)]) 1 8 = some false ∧ spdmSession (secureUp [] true [(1, 8, true)]) 1 8 = some true ∧
      spdmServes (secureUp [] true [(1, 8, true)]) 1 = true) := by decide +kernel

/-! ### Words and every step -/

theorem wit_VectorWordEncoding : (vecParts (.vecAdd 5 { type := 1, d := 3, sa := 4, sb := 6, sc := 8, aux := 5, ctl := 0xFFFF })).isSome = true ∧
    (decodeVec 5 0x0100000000000000#64).isSome = true ∧ bits (0x0100000000010000#64 : W64) 16 15 ≠ 0 := by decide +kernel
theorem wit_EveryStepKeepsMemoryCanonical : MemGood { up with pending := [.cmdNop cmd] } ∧
    (∃ t, step { up with pending := [.cmdNop cmd] } = .next t) ∧ (∃ t, exec (.cmdNop cmd) up = .next t) :=
  ⟨rfl, ⟨_, rfl⟩, _, rfl⟩

/-- Three 64 MiB chunks into a store of two namespaces: the second, at LBA 16,384, then the first, at 32,768 (12 "Snapshot
store"). -/
theorem test_store_pieces : storePieces { up with ports := { up.ports with store := [(4, 1), (7, 1)] } } (3 * 2 ^ 26) (2 ^ 26 + 1) =
    [(7, 16384), (4, 32768)] := by decide +kernel
/-- A command entry of CID 5 with opcode 0x0BAD, submitted to mailbox 0. -/
def unknownSent : State := setMb 0 (fun m => { m with sq := [(0, putFld (putFld 0 1008 16 0x0BAD) 992 16 5)], sqTail := 1 }) served
/-- An entry with an opcode of no row is what the pass takes from its mailbox next (13 R361, R365). -/
theorem test_unknown_opcode : (nextCommand unknownSent 0).map (fun e => (entryOpcode e, (opRow (entryOpcode e)).isSome, (entryCmd 0 e).cid)) =
    some (0x0BAD, false, 5) ∧ canTake unknownSent 0 = true := by decide +kernel

end Sys2Proof.Tests
end

section
/-! PROOFS. What an order does whose own fields are wrong (00 R10, 13 R350, R353, R361): the answer BAD_ARG is completed on the
state in which the entry has been taken and no more, so everything but the mailbox is as it was, provided that the answer has
no output argument. One with an output argument is still written into the argument room. -/

namespace Sys2Proof.Scope

open Sys2Proof.Machine Sys2Proof.Safety Sys2Proof.Laws

/-! ### An order taken from a mailbox other than the baseboard controller's -/

section
variable {code : Nat} {c : Cmd} {subs : List Subject} {h : Handler} {s : State} {r : Reply} {row : OpRow}

/-- Only mailbox 64 has commands turned away (13 R354, 17 R460). -/
theorem order_eq_carry (can : canTake s c.mailbox.val = true) (ne : c.mailbox.val ≠ 64) :
    order code c subs h s = carry (pendingOf code c s) subs h (takeEntry c.mailbox.val s) := by
  simp [order, pendingOf, can, ne]

/-- An order that passes the checks before its meaning, and whose meaning finds its own fields wrong, completes on the state
in which it has been taken, whatever the pass's other orders name. -/
theorem order_ownBadArg_eq (can : canTake s c.mailbox.val = true) (ne : c.mailbox.val ≠ 64) (lt : code < 65536)
    (crc : c.crcOk = true) (hrow : opRow code = some row)
    (hst : standing s c.mailbox.val code row (mbAt s c.mailbox.val).sqHead = 0) (bad : c.badField = none)
    (harg : argBad s row (pendingOf code c s) = none) (hr : r.st = stBadArg)
    (hh : ∀ u, (h (pendingOf code c s) u).1 = .done r) :
    order code c subs h s = complete (pendingOf code c s) r (takeEntry c.mailbox.val s) := by
  have hcode : (pendingOf code c s).opcode.toNat = code := Nat.mod_eq_of_lt lt
  have hst' : standing (takeEntry c.mailbox.val s) (pendingOf code c s).cmd.mailbox.val code row (pendingOf code c s).index = 0 :=
    (standing_takeEntry ..).trans hst
  have hcmd : (pendingOf code c s).cmd = c := rfl
  rw [order_eq_carry can ne]
  simp only [carry, hcode, hrow, hst', argBad_takeEntry, harg]
  simp only [hcmd, crc, bad, beq_eq_false_iff_ne.mpr ne, Bool.not_true, Bool.false_and, Bool.false_eq_true, if_false,
    bne_self_eq_false]
  split
  · next q u e =>
    have ans := congrArg Prod.fst e
    rw [hh] at ans
    cases ans
    simp [hr]
  · next e =>
    have ans := congrArg Prod.fst e
    rw [hh] at ans
    cases ans

/-- An answer BAD_ARG of the order's own fields that has no output argument has no other effect (00 R10). -/
theorem order_ownBadArg_gives (can : canTake s c.mailbox.val = true) (ne : c.mailbox.val ≠ 64) (lt : code < 65536)
    (crc : c.crcOk = true) (hrow : opRow code = some row)
    (hst : standing s c.mailbox.val code row (mbAt s c.mailbox.val).sqHead = 0) (bad : c.badField = none)
    (harg : argBad s row (pendingOf code c s) = none) (hr : r.st = stBadArg)
    (hh : ∀ u, (h (pendingOf code c s) u).1 = .done r) (out : r.out = none) : Gives code c r s s (order code c subs h s) := by
  rw [order_ownBadArg_eq can ne lt crc hrow hst bad harg hr hh]
  exact complete_gives (subs := subs) s out (setMb_but s _ _) rfl

/-! ### An output argument -/

/-- Taking and answering an order changes no memory. -/
theorem mem_of_but {n : Nat} {t : State} (b : ButMailbox n s t) : t.mem = s.mem := (congrArg State.mem b.1).trans rfl

/-- The output argument of a host mailbox's order, cut at ARG_LEN, stands in its room once the order has completed, whatever
its status (13 R350). -/
theorem rd_complete {p : Pending} {bs : List Byte} {rm : Room} (wf : Memory.wf s.mem.cells) (out : r.out = some bs)
    (host : p.cmd.mailbox.val < 64) (hrm : roomAt s p.cmd.argRoom.toNat = some rm) :
    rd (complete p r s) (rm.base.toNat + p.cmd.argOffset.toNat) (bs.take p.cmd.argLen.toNat).length =
      bs.take p.cmd.argLen.toNat := by
  have mem : (complete p r s).mem = (wr (rm.base.toNat + p.cmd.argOffset.toNat) (bs.take p.cmd.argLen.toNat) s).mem := by
    simp only [complete, out, host, if_true, hrm]
    exact mem_of_but (post_but ..)
  unfold rd
  rw [mem]
  exact rd_wr _ _ wf

end

/-! ### The counterexample: a ROOM_QUERY from the owner's mailbox 0 with one byte of room 5 for its output -/

/-- Porter runs, mailbox 0 is bound to the owner session 1, and session 1 has the host room 5 of one slot. -/
def ownerQueries : State :=
  { State.reset with
    pace := [(63, { Pace.reset with gated := false })]
    rooms := [(5, {
      cls := 5, home := 0, homeIdx := 0, slots := 1, fell := false, releasing := false, owner := 1, current := 0, fresh := 0,
      writers := 0, pins := [0], curSlot := 0, freshSlot := 0, base := 0x80001000000, pages := 1, slotVer := [0], slotStep := [0],
      commits := 0, lastOpened := 0, active := 0, freshStep := 0, former := [], unapplied := [], engines := false })]
    porter := { Porter.reset with
      porter := 1, ready := true
      mailboxes := [(0, { Mailbox.reset with session := 1, state := 1 })]
      sessions := [(1, { owner := true, consent := 0, fn := .host })] } }

def queryEntry : Cmd :=
  { mailbox := 0, cid := 7, irq := false, argRoom := 5, argVersion := 0, argOffset := 0, argLen := 1, crcOk := true,
    badField := none }

/-- BAD_ARG with one byte of output. -/
def badArgWithByte : Reply := { st := stBadArg, out := some [1] }

def refusesWithByte : Handler := fun _ u => (.done badArgWithByte, u)

theorem ownerQueries_row : opRow 0x0205 = some ⟨anySession, .none, false, true⟩ := rfl

/-- The order meets every check before its meaning. -/
theorem ownerQueries_checks : canTake ownerQueries 0 = true ∧
    standing ownerQueries 0 0x0205 ⟨anySession, .none, false, true⟩ (mbAt ownerQueries 0).sqHead = 0 ∧
    argBad ownerQueries ⟨anySession, .none, false, true⟩ (pendingOf 0x0205 queryEntry ownerQueries) = none := by decide

/-- The refused order leaves its byte in the argument room. -/
theorem rd_refusedQuery :
    rd (order 0x0205 queryEntry [] refusesWithByte ownerQueries) 0x80001000000 1 = [1] := by
  obtain ⟨can, hst, harg⟩ := ownerQueries_checks
  rw [order_ownBadArg_eq (c := queryEntry) can (by decide) (by decide) rfl ownerQueries_row hst rfl harg (r := badArgWithByte) rfl
    (fun _ => rfl)]
  exact rd_complete (s := takeEntry 0 ownerQueries) (r := badArgWithByte) (p := pendingOf 0x0205 queryEntry ownerQueries) wf_reset rfl (by decide) rfl

/-- Refutes O42: its clause on an order's own fields is about every meaning that answers BAD_ARG, also one that answers with
an output argument, and `complete` writes that output whatever the status. A ROOM_QUERY from the owner's mailbox that is
refused with one byte of output changes the first byte of its argument room, where the clause says that nothing but the
mailbox changes. `order_ownBadArg_gives` is that clause with the missing hypothesis `r.out = none`. -/
theorem not_ordersAreCheckedAndAnswered : ¬ Obligations.OrdersAreCheckedAndAnswered := by
  unfold Obligations.OrdersAreCheckedAndAnswered
  intro claim
  obtain ⟨can, hst, harg⟩ := ownerQueries_checks
  obtain ⟨checks, -⟩ := claim ownerQueries queryEntry can (by decide)
  obtain ⟨-, inRow⟩ := checks 0x0205 [] refusesWithByte (by decide)
  obtain ⟨-, inStanding⟩ := inRow _ rfl ownerQueries_row
  obtain ⟨-, -, ownFields, -⟩ := inStanding hst
  have gives := ownFields badArgWithByte rfl harg rfl (fun _ => rfl)
  have written := rd_refusedQuery
  rw [rd, mem_of_but gives.2] at written
  exact absurd written (by decide)

end Sys2Proof.Scope
end

section
/-! PROOFS. Pacers (02 R28, R35, R39), with what the proofs about crossings, drains and channels share: tables changed in
place, events that stay in the log, and what answering an order leaves as it was. -/

namespace Sys2Proof.Towers

open Sys2Proof.Machine Sys2Proof.Safety Sys2Proof.Laws

/-! ### Tables whose values are changed in place -/

theorem tfind?_map_value {α : Type} (t : Table α) (f : Nat → α → α) (k : Nat) :
    tfind? (t.map (fun p => (p.1, f p.1 p.2))) k = (tfind? t k).map (f k) := by
  induction t with
  | nil => rfl
  | cons p t ih =>
    obtain ⟨j, a⟩ := p
    by_cases h : j = k
    · subst h; simp [tfind?]
    · simpa [tfind?, h] using ih

theorem mem_of_tfind? {α : Type} {t : Table α} {k : Nat} {a : α} (h : tfind? t k = some a) : (k, a) ∈ t := by
  induction t with
  | nil => cases h
  | cons p t ih =>
    obtain ⟨j, b⟩ := p
    by_cases hj : j = k
    · have : b = a := by simpa [tfind?, hj] using h
      simp [hj, this]
    · exact List.mem_cons_of_mem _ (ih (by simpa [tfind?, hj] using h))

theorem mem_tset {α : Type} {t : Table α} {k : Nat} {a : α} {p : Nat × α} (h : p ∈ tset t k a) : p ∈ t ∨ p = (k, a) := by
  induction t with
  | nil => exact .inr (by simpa [tset] using h)
  | cons q t ih =>
    obtain ⟨j, b⟩ := q
    rw [tset] at h
    split at h
    · exact (List.mem_cons.mp h).symm
    · split at h
      · exact (List.mem_cons.mp h).symm.imp_left (List.mem_cons_of_mem _)
      · rcases List.mem_cons.mp h with rfl | h
        · exact .inl List.mem_cons_self
        · exact (ih h).imp_left (List.mem_cons_of_mem _)

/-! ### The log: an event among the newest ones stays logged while a few more are raised -/

/-- An event with these arguments, raised since `s`, is among the `n` newest entries. -/
def LoggedLately (n code : Nat) (args : List (Nat × Nat)) (s t : State) : Prop :=
  ∃ e ∈ t.log.entries.take n, s.log.next ≤ e.seq ∧ e.code = BitVec.ofNat 16 code ∧
    e.args = fit 40 0 (args.flatMap (fun a => bytesLE a.1 a.2))

section
variable {n code : Nat} {args : List (Nat × Nat)} {s u v : State}

theorem LoggedLately.logged (h : LoggedLately n code args s u) : Logged code args s u := by
  obtain ⟨e, he, rest⟩ := h
  exact ⟨e, List.mem_of_mem_take he, rest⟩

theorem loggedLately_raise (plane die : Nat) (le : s.log.next ≤ u.log.next) :
    LoggedLately 1 code args s (raise code plane die args u) :=
  ⟨eventOf code plane die args u, by simp [raise], le, rfl, rfl⟩

/-- One more event moves an entry one place back; the log holds 262,144. -/
theorem LoggedLately.raise (h : LoggedLately n code args s u) (lt : n < 262144) (code' plane die : Nat)
    (args' : List (Nat × Nat)) : LoggedLately (n + 1) code args s (raise code' plane die args' u) := by
  obtain ⟨e, he, rest⟩ := h
  refine ⟨e, ?_, rest⟩
  show e ∈ ((eventOf code' plane die args' u :: u.log.entries).take 262144).take (n + 1)
  rw [List.take_take, Nat.min_eq_left lt, List.take_succ_cons]
  exact List.mem_cons_of_mem _ he

theorem LoggedLately.of_log (h : LoggedLately n code args s u) (same : v.log = u.log) : LoggedLately n code args s v := by
  unfold LoggedLately at *
  rwa [same]

theorem LoggedLately.mono {m : Nat} (h : LoggedLately n code args s u) (le : n ≤ m) : LoggedLately m code args s u := by
  obtain ⟨e, he, rest⟩ := h
  exact ⟨e, List.take_subset_take_left _ le he, rest⟩

end

/-! ### The end of a waiting order touches only what answers it -/

/-- `t` is `s` but for Porter's state, the rooms and what has been sent. -/
def OnlyAnswers (s t : State) : Prop := t = { s with porter := t.porter, rooms := t.rooms, outs := t.outs }

section
variable {s t u : State}

theorem OnlyAnswers.trans (h : OnlyAnswers s t) (k : OnlyAnswers t u) : OnlyAnswers s u := by
  unfold OnlyAnswers at k
  rw [h] at k
  exact k

theorem unpinRoom_onlyAnswers (id v : Nat) (s : State) : OnlyAnswers s (unpinRoom id v s) := by
  unfold unpinRoom settleRelease
  split
  · split <;> rfl
  · rfl

theorem post_onlyAnswers (p : Pending) (r : Reply) (s : State) : OnlyAnswers s (post p r s) := by
  have h := (post_but s p r).1
  unfold OnlyAnswers
  rw [h]

theorem finish_onlyAnswers (sel : Pending → Bool) {r : Reply} (out : r.out = none) (s : State) : OnlyAnswers s (finish sel r s) := by
  unfold finish
  split
  · rfl
  · next p _ =>
    unfold complete
    rw [out]
    refine OnlyAnswers.trans ?_ (post_onlyAnswers ..)
    refine OnlyAnswers.trans
      (t := { s with porter := { s.porter with outstanding := s.porter.outstanding.filter (fun q => !(q == p)) } }) rfl ?_
    dsimp only
    split
    · exact unpinRoom_onlyAnswers ..
    · rfl

theorem finishAll_onlyAnswers (n : Nat) (sel : Pending → Bool) {r : Reply} (out : r.out = none) (s : State) :
    OnlyAnswers s (finishAll n sel r s) := by
  induction n generalizing s with
  | zero => rfl
  | succ n ih =>
    rw [finishAll]
    split
    · exact (finish_onlyAnswers sel out s).trans (ih _)
    · rfl

end

/-! ### Accessors see one field of the state -/

section
variable {s t : State}

theorem paceAt_of_pace (h : t.pace = s.pace) (k : Nat) : paceAt t k = paceAt s k := congrArg (fun m => tget m k Pace.reset) h
theorem crossing_of_crossings (h : t.crossings = s.crossings) (x : Xing) : crossing t x = crossing s x :=
  congrArg (fun m => tget m (xKey x) Crossing.reset) h
theorem coreAt_of_cores (h : t.cores = s.cores) (k : Nat) : coreAt t k = coreAt s k := congrArg (fun m => tget m k Core.reset) h
theorem chan_of_channels (h : t.channels = s.channels) (k : Nat) : chan t k = chan s k :=
  congrArg (fun m => tget m k Channel.reset) h
theorem supplyAt_of_domains (h : t.power.domains = s.power.domains) (k : Nat) : supplyAt t k = supplyAt s k :=
  congrArg (fun m => tget m k Supply.off) h

end

/-! ### Pacers: the low-supply detector, the restart and the alive counter (02 R28, R35, R39) -/

section
variable {d : Nat} {s : State}

theorem pacerRuns_of_domainRuns (h : domainRuns s d = true) : pacerRuns s d = true := by
  unfold domainRuns at h
  exact (Bool.and_eq_true_iff.mp h).1

theorem lowSupplyHalt_of_runs (h : domainRuns s d = true) : lowSupplyHalt d s =
    raise 0x1001 data d [] (setPace d (fun p => { p with halted := true, haltCnt := satAdd p.haltCnt 1 }) s) := by
  unfold lowSupplyHalt
  simp [pacerRuns_of_domainRuns h]

theorem senderMoved_pace (d : Nat) (s : State) : (senderMoved d s).pace = s.pace := rfl

/-- The restarted pacer's words, and its crossings (02 R35). -/
def restarted (d : Nat) (s : State) : State :=
  senderMoved d (setPace d (fun p => { p with halted := false, alive := grayNext p.alive }) s)

theorem pacerRestart_of_halted (powered : (paceAt s d).gated = false) (halted : (paceAt s d).halted = true) :
    pacerRestart d s =
      raise 0x1002 data d [] (if d == dieControl then controlResumes (restarted d s) else restarted d s) := by
  unfold pacerRestart restarted
  simp [powered, halted]

theorem aliveTick_of_runs (h : domainRuns s d = true) : aliveTick d s =
    senderMoved d (setPace d (fun p => { p with beats := p.beats + 64, alive := grayNext p.alive }) s) := by
  unfold aliveTick
  simp [pacerRuns_of_domainRuns h]

/-- What CONTROL does as it resumes is what an event entails, so that the restart's event is all that shows. -/
theorem raise_controlResumes_onlyEvent (code plane die : Nat) (args : List (Nat × Nat)) (s : State) :
    OnlyEvent code plane die args s (raise code plane die args (controlResumes s)) := by
  unfold OnlyEvent raise controlResumes
  refine ⟨rfl, rfl, rfl, ?_⟩
  dsimp only
  split <;> split <;> rfl

theorem pacerRestart_onlyEvent (powered : (paceAt s d).gated = false) (halted : (paceAt s d).halted = true) :
    OnlyEvent 0x1002 data d [] (restarted d s) (pacerRestart d s) := by
  rw [pacerRestart_of_halted powered halted]
  split
  · exact raise_controlResumes_onlyEvent ..
  · exact raise_onlyEvent ..

/-- An event leaves the pacers' words and the crossings as they were. -/
theorem onlyEvent_same {code plane die : Nat} {args : List (Nat × Nat)} {t : State} (h : OnlyEvent code plane die args s t) :
    t.pace = s.pace ∧ t.crossings = s.crossings := by
  obtain ⟨-, -, -, e⟩ := h
  rw [e]
  exact ⟨rfl, rfl⟩

/-- The sender that a crossing's number names. -/
theorem xKey_send (x : Xing) : xKey x / 4 % 64 = x.send.val := by
  unfold xKey
  omega

/-- Every listed crossing that the domain feeds sees its alive counter change. -/
theorem crossing_senderMoved {x : Xing} (send : x.send.val = d) (listed : tfind? s.crossings (xKey x) ≠ none) :
    crossing (senderMoved d s) x = { crossing s x with moved := true } := by
  obtain ⟨c, hc⟩ := Option.ne_none_iff_exists'.mp listed
  have found : tfind? (senderMoved d s).crossings (xKey x) = some { c with moved := true } := by
    have values : (senderMoved d s).crossings =
        s.crossings.map (fun p => (p.1, if p.1 / 4 % 64 = d then { p.2 with moved := true } else p.2)) := by
      unfold senderMoved
      refine List.map_congr_left (fun p _ => ?_)
      by_cases h : p.1 / 4 % 64 = d <;> simp [h]
    rw [values, tfind?_map_value s.crossings (fun k c => if k / 4 % 64 = d then { c with moved := true } else c), hc,
      Option.map_some, xKey_send, if_pos send]
  simp [crossing, tget, found, hc]

theorem paceAt_restarted (k : Nat) : paceAt (restarted d s) k =
    if k = d then { paceAt s k with halted := false, alive := grayNext (paceAt s k).alive } else paceAt s k := by
  rw [restarted, paceAt_of_pace (senderMoved_pace _ _), paceAt_setPace]

theorem crossing_restarted {x : Xing} (send : x.send.val = d) (listed : tfind? s.crossings (xKey x) ≠ none) :
    crossing (restarted d s) x = { crossing s x with moved := true } :=
  crossing_senderMoved (s := setPace d _ s) send listed

end

/-- Settles O12: each row is one update of the domain's own words, and an event or the sight of its crossings. -/
theorem pacersHaltRestartTick : Obligations.PacersHaltRestartTick := by
  unfold Obligations.PacersHaltRestartTick
  intro d s
  refine ⟨fun runs => ⟨_, congrArg Host.Outcome.next (lowSupplyHalt_of_runs runs), ?_⟩, fun powered halted => ⟨_, rfl, ?_⟩,
    fun runs => ⟨_, congrArg Host.Outcome.next (aliveTick_of_runs runs), ?_⟩⟩
  · refine ⟨raise_onlyEvent .., fun k hk => ?_, ?_⟩
    · rw [paceAt_of_pace (raise_pace _), paceAt_setPace, if_neg hk]
    · rw [paceAt_of_pace (raise_pace _), paceAt_setPace, if_pos rfl]
  · have event := pacerRestart_onlyEvent powered halted
    obtain ⟨pace, crossings⟩ := onlyEvent_same event
    refine ⟨?_, fun k hk => ?_, ?_, fun x send listed => ?_⟩
    · rw [pace, crossings]
      exact event
    · rw [paceAt_of_pace pace, paceAt_restarted, if_neg hk]
    · rw [paceAt_of_pace pace, paceAt_restarted, if_pos rfl]
    · rw [crossing_of_crossings crossings, crossing_restarted (congrArg Fin.val send) listed]
  · refine ⟨rfl, fun k hk => ?_, ?_⟩
    · rw [paceAt_of_pace (senderMoved_pace _ _), paceAt_setPace, if_neg hk]
    · rw [paceAt_of_pace (senderMoved_pace _ _), paceAt_setPace, if_pos rfl]

end Sys2Proof.Towers
end

section
/-! PROOFS. Crossings that time out and are re-armed (02 R36 to R38). -/

namespace Sys2Proof.Towers

open Sys2Proof.Machine Sys2Proof.Safety Sys2Proof.Laws

/-! ### Marks and counters of a crossing -/

section
variable {s t u : State}

theorem crossing_setCrossing (x : Xing) (f : Crossing → Crossing) (s : State) :
    crossing (setCrossing x f s) x = f (crossing s x) :=
  (tget_tmod ..).trans (if_pos rfl)

/-- `t` is `s` but for crossings, in-service tests, and what events entail. -/
def OnlyNotes (s t : State) : Prop :=
  t = { s with crossings := t.crossings, tests := t.tests, log := t.log
               power := { s.power with alert := t.power.alert }, porter := { s.porter with msix := t.porter.msix } }

theorem OnlyNotes.trans (h : OnlyNotes s t) (k : OnlyNotes t u) : OnlyNotes s u := by
  unfold OnlyNotes at k
  rw [h] at k
  exact k

theorem setCrossing_onlyNotes (x : Xing) (f : Crossing → Crossing) (s : State) : OnlyNotes s (setCrossing x f s) := rfl

theorem raise_onlyNotes (code plane die : Nat) (args : List (Nat × Nat)) (s : State) :
    OnlyNotes s (raise code plane die args s) := by
  obtain ⟨-, -, -, e⟩ := raise_onlyEvent s code plane die args
  unfold OnlyNotes
  rw [e]

/-- What notes leave as it was. -/
theorem OnlyNotes.same (h : OnlyNotes s t) : t.pace = s.pace ∧ t.cores = s.cores ∧ t.mem = s.mem ∧
    t.power.domains = s.power.domains ∧ t.rooms = s.rooms ∧ t.porter.mailboxes = s.porter.mailboxes := by
  rw [h]
  exact ⟨rfl, rfl, rfl, rfl, rfl, rfl⟩

/-- Filing tests changes the tests alone. -/
theorem fileTests_onlyTests (l : List Nat) (f : Nat → Nat) (kind : Nat) (s : State) :
    ∃ ts, forEach l (fun d s => fileTest kind (f d) s) s = { s with tests := ts } :=
  forEach_keeps (P := fun u => ∃ ts, u = { s with tests := ts }) s (fun _ _ _ h => by
    obtain ⟨ts, rfl⟩ := h
    exact ⟨_, rfl⟩) ⟨_, rfl⟩

/-! ### The event of a re-armed crossing -/

theorem rearmEvent_of_due {x : Xing} (due : (crossing s x).rearmDue = true) : rearmEvent x s =
    raise 0x1004 data x.recv.val [a2 x.recv.val, a2 x.send.val, a2 (crossing s x).discards]
      (setCrossing x (fun c => { c with rearmDue := false, discards := 0 }) s) := by
  unfold rearmEvent
  simp [due]

theorem rearmEvent_notes (x : Xing) (s : State) : OnlyNotes s (rearmEvent x s) ∧ s.log.next ≤ (rearmEvent x s).log.next := by
  by_cases due : (crossing s x).rearmDue = true
  · rw [rearmEvent_of_due due]
    exact ⟨(setCrossing_onlyNotes ..).trans (raise_onlyNotes ..), Nat.le_succ _⟩
  · unfold rearmEvent
    simp [due, OnlyNotes]

/-! ### A second fence within 2^30 beats -/

/-- The first fence of a span of 2^30 beats. -/
def firstFenceAt (now : Nat) (c : Crossing) : Crossing := { c with firstFence := some now, twiceRaised := false }

/-- The second fence of the span is reported. -/
def twiceFenced (c : Crossing) : Crossing := { c with twiceRaised := true }

/-- A fence is noted at the crossing, and the second of a span raises one event and files tests (16 R434). -/
theorem fencedTwice_cases (x : Xing) (s : State) : fencedTwice x s = s ∨
    fencedTwice x s = setCrossing x (firstFenceAt (paceAt s x.recv.val).beats.toNat) s ∨
    ∃ ts, fencedTwice x s =
      { raise 0x1005 data x.recv.val [a2 x.recv.val, a2 x.send.val] (setCrossing x twiceFenced s) with tests := ts } := by
  unfold fencedTwice
  dsimp only
  split
  · split
    · split
      · exact .inl rfl
      · obtain ⟨ts, e⟩ := fileTests_onlyTests ([x.recv.val, x.send.val].filter (· < 24)) (· / 3) 4
          (raise 0x1005 data x.recv.val [a2 x.recv.val, a2 x.send.val] (setCrossing x twiceFenced s))
        refine .inr (.inr ?_)
        unfold twiceFenced at e
        rw [e]
        split
        · exact ⟨_, rfl⟩
        · exact ⟨_, rfl⟩
    · exact .inr (.inl rfl)
  · exact .inr (.inl rfl)

theorem fencedTwice_onlyNotes (x : Xing) (s : State) : OnlyNotes s (fencedTwice x s) := by
  rcases fencedTwice_cases x s with e | e | ⟨ts, e⟩
  · rw [e]; rfl
  · rw [e]; rfl
  · rw [e]
    exact (raise_onlyNotes 0x1005 data x.recv.val [a2 x.recv.val, a2 x.send.val] (setCrossing x twiceFenced s)).trans rfl

theorem fencedTwice_marks (x : Xing) (s : State) : (crossing (fencedTwice x s) x).mark = (crossing s x).mark ∧
    (crossing (fencedTwice x s) x).moved = (crossing s x).moved := by
  rcases fencedTwice_cases x s with e | e | ⟨ts, e⟩
  · simp only [e, and_self]
  · rw [e, crossing_setCrossing]
    exact ⟨rfl, rfl⟩
  · have same : crossing (fencedTwice x s) x = crossing (setCrossing x twiceFenced s) x :=
      crossing_of_crossings (by rw [e]; rfl) x
    rw [same, crossing_setCrossing]
    exact ⟨rfl, rfl⟩

theorem LoggedLately.fencedTwice {n code : Nat} {args : List (Nat × Nat)} (h : LoggedLately n code args s u)
    (lt : n < 262144) (x : Xing) : LoggedLately (n + 1) code args s (fencedTwice x u) := by
  rcases fencedTwice_cases x u with e | e | ⟨ts, e⟩
  · exact (h.mono (Nat.le_succ n)).of_log (by rw [e])
  · exact (h.mono (Nat.le_succ n)).of_log (by rw [e]; rfl)
  · have noted : LoggedLately n code args s (setCrossing x twiceFenced u) := h.of_log rfl
    exact (noted.raise lt 0x1005 data x.recv.val [a2 x.recv.val, a2 x.send.val]).of_log (by rw [e])

/-! ### Those who wait -/

/-- `t` is `s` but for cores, port transfers and what answers an order. -/
def OnlyWaiters (s t : State) : Prop :=
  t = { s with cores := t.cores, ports := t.ports, porter := t.porter, rooms := t.rooms, outs := t.outs }

theorem OnlyWaiters.trans (h : OnlyWaiters s t) (k : OnlyWaiters t u) : OnlyWaiters s u := by
  unfold OnlyWaiters at k
  rw [h] at k
  exact k

/-- What failing waiters leaves as it was. -/
theorem OnlyWaiters.same (h : OnlyWaiters s t) : t.crossings = s.crossings ∧ t.pace = s.pace ∧ t.log = s.log ∧
    t.mem = s.mem ∧ t.power = s.power := by
  rw [h]
  exact ⟨rfl, rfl, rfl, rfl, rfl⟩

/-- A failed copy of a DMA engine changes no core. -/
theorem dmaFails_onlyWaiters (f : PortFn) (s : State) : OnlyWaiters s (dmaFails f s) ∧ (dmaFails f s).cores = s.cores := by
  unfold dmaFails
  split
  · exact ⟨rfl, rfl⟩
  · next d _ =>
    have h := finish_onlyAnswers (fun p => p.wait == Wait.dma && fnOfMb s p.cmd.mailbox.val == f)
      (r := { st := stDeviceFault, detail := 0x0103 }) rfl { s with ports := { s.ports with dmas := s.ports.dmas.erase d } }
    unfold OnlyWaiters
    rw [h]
    exact ⟨rfl, rfl⟩

theorem failWaiter_onlyWaiters (w : Waiter) (s : State) : OnlyWaiters s (failWaiter w s) := by
  cases w with
  | task core ahead => rfl
  | dma fn => exact (dmaFails_onlyWaiters fn s).1
  | other => rfl

theorem failWaiters_onlyWaiters (l : List Waiter) (s : State) : OnlyWaiters s (forEach l failWaiter s) :=
  forEach_keeps (P := OnlyWaiters s) s (fun w _ u h => h.trans (failWaiter_onlyWaiters w u)) rfl

/-- Where no DMA engine waits, no order is answered. -/
theorem failWaiters_answer_nothing {l : List Waiter} (noDma : ∀ f, .dma f ∉ l) (s : State) :
    (forEach l failWaiter s).rooms = s.rooms ∧ (forEach l failWaiter s).porter = s.porter :=
  forEach_keeps (P := fun u => u.rooms = s.rooms ∧ u.porter = s.porter) s (fun w hw u h => by
    cases w with
    | task core ahead => exact h
    | dma fn => exact absurd hw (noDma fn)
    | other => exact h) ⟨rfl, rfl⟩

/-- The cause that stands for a core's running task. -/
def endedAt (s : State) (c : Nat) : Option (Option Nat) := (coreAt s c).running.map (fun q => q.ended)

/-- The first cause stands. -/
theorem endedAt_endRun (k : Nat) (first : Bool) (code : Nat) (gated : Bool) (s : State) (c : Nat) :
    endedAt (endRun k first code gated s) c =
      if c = k ∧ first = true then (endedAt s c).map (fun e => some (e.getD code)) else endedAt s c := by
  unfold endedAt endRun
  rw [coreAt_setCore]
  by_cases hc : c = k
  · cases first with
    | false => simp [hc]
    | true =>
      subst hc
      cases (coreAt s c).running with
      | none => simp
      | some q => cases h : q.ended <;> simp [h]
  · simp [hc]

theorem endedAt_failWaiter (w : Waiter) (s : State) (c : Fin 393) : endedAt (failWaiter w s) c.val =
    if w = .task c false then (endedAt s c.val).map (fun e => some (e.getD ccXtimeout)) else endedAt s c.val := by
  cases w with
  | task core ahead =>
    have same : (c.val = core.val ∧ (!ahead) = true) ↔ Waiter.task core ahead = .task c false := by
      rw [Waiter.task.injEq, Fin.ext_iff, Bool.not_eq_true']
      exact ⟨fun h => ⟨h.1.symm, h.2⟩, fun h => ⟨h.1.symm, h.2⟩⟩
    rw [failWaiter, endedAt_endRun]
    simp only [same]
  | dma fn =>
    rw [if_neg (by simp), endedAt, failWaiter, coreAt_of_cores (dmaFails_onlyWaiters fn s).2]
    rfl
  | other => rfl

/-- A cause that stands is kept. -/
theorem endedAt_failWaiters_of_ended (l : List Waiter) {c : Fin 393} {v : Nat} (h : endedAt s c.val = some (some v)) :
    endedAt (forEach l failWaiter s) c.val = some (some v) :=
  forEach_keeps (P := fun u => endedAt u c.val = some (some v)) s (fun w _ u h => by
    rw [endedAt_failWaiter, h]
    split <;> rfl) h

theorem endedAt_failWaiters {l : List Waiter} {c : Fin 393} {e : Option Nat} (waits : .task c false ∈ l)
    (h : endedAt s c.val = some e) : endedAt (forEach l failWaiter s) c.val = some (some (e.getD ccXtimeout)) := by
  induction l generalizing s e with
  | nil => cases waits
  | cons w l ih =>
    have head := endedAt_failWaiter w s c
    rw [h] at head
    by_cases hw : w = .task c false
    · rw [if_pos hw] at head
      exact endedAt_failWaiters_of_ended l head
    · rw [if_neg hw] at head
      exact ih ((List.mem_cons.mp waits).resolve_left (Ne.symm hw)) head

end

/-! ### CROSSING_TIMEOUT, CROSSING_REARM, LATE_RESPONSE_DISCARD -/

section
variable {x : Xing} {s : State}

/-- The crossing fenced, counted and reported, before anyone who waits is told (02 R36, R37). -/
def fenceReported (x : Xing) (waiting : List (BitVec 6 × Waiter)) (s : State) : State :=
  raise 0x1003 data x.recv.val [a2 x.recv.val, a2 x.send.val, a2 x.kind.val, a2 waiting.length]
    (setPace x.recv.val (fun p => { p with xtoCnt := satAdd p.xtoCnt 1 })
      (setCrossing x (fun c => { c with mark := .fenced, moved := false, discards := 0, failed := c.failed ++ waiting.map (·.1) })
        (rearmEvent x s)))

/-- Those who wait on the fenced crossing have failed, in their order. -/
def waitersTold (x : Xing) (waiting : List (BitVec 6 × Waiter)) (s : State) : State :=
  forEach (waiting.map (·.2)) failWaiter (fenceReported x waiting s)

section
variable (runs : domainRuns s x.recv.val = true) (fed : (paceAt s x.send.val).xgated = false)
  (normal : (crossing s x).mark = .normal)
include runs fed normal

theorem crossingTimeout_of_none : crossingTimeout x [] s = setCrossing x (fun c => { c with mark := .stale, moved := false }) s := by
  unfold crossingTimeout
  simp [runs, fed, normal]

theorem crossingTimeout_of_waiting {waiting : List (BitVec 6 × Waiter)} (some_wait : waiting ≠ []) :
    crossingTimeout x waiting s =
      fencedTwice x (waitersTold x waiting s) := by
  unfold crossingTimeout waitersTold fenceReported
  simp [runs, fed, normal, some_wait]

end

theorem crossingRearm_of_moved (marked : (crossing s x).mark ≠ .normal) (moved : (crossing s x).moved = true) :
    crossingRearm x s = setCrossing x (fun c => { c with
      mark := .normal, moved := false, rearmDue := c.rearmDue || c.mark == .fenced }) s := by
  unfold crossingRearm
  simp [marked, moved]

theorem lateResponseDiscard_of_failed {tag : BitVec 6} (failed : tag ∈ (crossing s x).failed) : lateResponseDiscard x tag s =
    setCrossing x (fun c => { c with
      failed := c.failed.erase tag
      discards := if c.mark == .fenced || c.rearmDue then c.discards + 1 else c.discards })
      (setPace x.recv.val (fun p => { p with discCnt := satAdd p.discCnt 1 }) s) := by
  unfold lateResponseDiscard
  simp [failed]

variable (x) (waiting : List (BitVec 6 × Waiter)) (s)

theorem crossing_fenceReported : (crossing (fenceReported x waiting s) x).mark = .fenced ∧
    (crossing (fenceReported x waiting s) x).moved = false := by
  rw [fenceReported, crossing_of_crossings (raise_crossings _), crossing_of_crossings (setPace_crossings _),
    crossing_setCrossing]
  exact ⟨rfl, rfl⟩

theorem xtoCnt_fenceReported : (paceAt (fenceReported x waiting s) x.recv.val).xtoCnt = satAdd (paceAt s x.recv.val).xtoCnt 1 := by
  obtain ⟨pace, -⟩ := (rearmEvent_notes x s).1.same
  rw [fenceReported, paceAt_of_pace (raise_pace _), paceAt_setPace, if_pos rfl, paceAt_of_pace (setCrossing_pace _),
    paceAt_of_pace pace]

theorem fenceReported_logged : LoggedLately 1 0x1003 [a2 x.recv.val, a2 x.send.val, a2 x.kind.val, a2 waiting.length] s
    (fenceReported x waiting s) :=
  loggedLately_raise _ _ (rearmEvent_notes x s).2

theorem fenceReported_same : (fenceReported x waiting s).cores = s.cores ∧ (fenceReported x waiting s).mem = s.mem ∧
    (fenceReported x waiting s).power.domains = s.power.domains ∧ (fenceReported x waiting s).rooms = s.rooms ∧
    (fenceReported x waiting s).porter.mailboxes = s.porter.mailboxes := by
  obtain ⟨-, cores, mem, domains, rooms, mailboxes⟩ := (rearmEvent_notes x s).1.same
  simp [fenceReported, cores, mem, domains, rooms, mailboxes]

/-- The report of a fence outlasts the failing of those who wait. -/
theorem waitersTold_fenced : (crossing (waitersTold x waiting s) x).mark = .fenced ∧
    (crossing (waitersTold x waiting s) x).moved = false ∧
    (paceAt (waitersTold x waiting s) x.recv.val).xtoCnt = satAdd (paceAt s x.recv.val).xtoCnt 1 ∧
    LoggedLately 1 0x1003 [a2 x.recv.val, a2 x.send.val, a2 x.kind.val, a2 waiting.length] s (waitersTold x waiting s) := by
  obtain ⟨crossings, pace, log, -, -⟩ := (failWaiters_onlyWaiters (waiting.map (·.2)) (fenceReported x waiting s)).same
  obtain ⟨mark, moved⟩ := crossing_fenceReported x s waiting
  have told : crossing (waitersTold x waiting s) x = crossing (fenceReported x waiting s) x := crossing_of_crossings crossings x
  have words : paceAt (waitersTold x waiting s) x.recv.val = paceAt (fenceReported x waiting s) x.recv.val :=
    paceAt_of_pace pace _
  exact ⟨told ▸ mark, told ▸ moved, words ▸ xtoCnt_fenceReported x s waiting, (fenceReported_logged x s waiting).of_log log⟩

theorem waitersTold_same : (waitersTold x waiting s).mem = s.mem ∧
    (waitersTold x waiting s).power.domains = s.power.domains := by
  obtain ⟨-, -, -, mem', power'⟩ := (failWaiters_onlyWaiters (waiting.map (·.2)) (fenceReported x waiting s)).same
  obtain ⟨-, mem, domains, -, -⟩ := fenceReported_same x s waiting
  exact ⟨mem'.trans mem, (congrArg Power.domains power').trans domains⟩

theorem waitersTold_answer_nothing (noDma : ∀ g f, (g, .dma f) ∉ waiting) :
    (waitersTold x waiting s).rooms = s.rooms ∧ (waitersTold x waiting s).porter.mailboxes = s.porter.mailboxes := by
  obtain ⟨rooms', porter'⟩ := failWaiters_answer_nothing (l := waiting.map (·.2)) (fun f hf => by
    obtain ⟨⟨g, w⟩, hw, rfl⟩ := List.mem_map.mp hf
    exact noDma g f hw) (fenceReported x waiting s)
  obtain ⟨-, -, -, rooms, mailboxes⟩ := fenceReported_same x s waiting
  exact ⟨rooms'.trans rooms, (congrArg Porter.mailboxes porter').trans mailboxes⟩

/-- The running task of a core that waits ends with XTIMEOUT unless a cause stands (02 R36, 04 R115). -/
theorem endedAt_waitersTold {g : BitVec 6} {c : Fin 393} {r : TaskRun} (waits : (g, .task c false) ∈ waiting)
    (running : (coreAt s c.val).running = some r) :
    endedAt (waitersTold x waiting s) c.val = some (some (r.ended.getD ccXtimeout)) := by
  obtain ⟨cores, -⟩ := fenceReported_same x s waiting
  have before : endedAt (fenceReported x waiting s) c.val = some r.ended := by
    rw [endedAt, coreAt_of_cores cores, running]
    rfl
  exact endedAt_failWaiters (List.mem_map.mpr ⟨_, waits, rfl⟩) before

end

/-- Settles O13: a fence is the report of it, then those who wait fail one by one, then the note of a second fence; only the
second step touches cores, rooms or orders, and only the first the receiver's words. -/
theorem crossingFencesAndRearms : Obligations.CrossingFencesAndRearms := by
  unfold Obligations.CrossingFencesAndRearms
  intro x s
  refine ⟨fun runs fed normal => ⟨⟨_, congrArg Host.Outcome.next (crossingTimeout_of_none runs fed normal), ?_⟩,
      fun waiting someWait => ⟨_, congrArg Host.Outcome.next (crossingTimeout_of_waiting runs fed normal someWait), ?_⟩⟩,
    fun marked moved => ⟨_, congrArg Host.Outcome.next (crossingRearm_of_moved marked moved), ?_⟩,
    fun due => ⟨_, congrArg Host.Outcome.next (rearmEvent_of_due due), ?_⟩,
    fun tag failed => ⟨_, congrArg Host.Outcome.next (lateResponseDiscard_of_failed failed), ?_⟩⟩
  · refine ⟨rfl, ?_⟩
    rw [crossing_setCrossing]
    exact ⟨rfl, rfl⟩
  · obtain ⟨mark, moved, xtoCnt, logged⟩ := waitersTold_fenced x s waiting
    obtain ⟨mem, domains⟩ := waitersTold_same x s waiting
    obtain ⟨pace', cores', mem', domains', rooms', mailboxes'⟩ := (fencedTwice_onlyNotes x (waitersTold x waiting s)).same
    obtain ⟨mark', moved'⟩ := fencedTwice_marks x (waitersTold x waiting s)
    refine ⟨mark'.trans mark, moved'.trans moved, ?_, (logged.fencedTwice (by decide) x).logged, ?_, mem'.trans mem,
      domains'.trans domains, ?_⟩
    · rw [paceAt_of_pace pace', xtoCnt]
    · intro g c r waits running
      rw [coreAt_of_cores cores']
      exact endedAt_waitersTold x s waiting waits running
    · intro noDma
      obtain ⟨rooms, mailboxes⟩ := waitersTold_answer_nothing x s waiting noDma
      exact ⟨rooms'.trans rooms, mailboxes'.trans mailboxes⟩
  · refine ⟨rfl, ?_⟩
    rw [crossing_setCrossing]
    exact ⟨rfl, rfl⟩
  · refine ⟨raise_onlyEvent .., ?_⟩
    rw [crossing_of_crossings (raise_crossings _), crossing_setCrossing]
    exact ⟨rfl, rfl⟩
  · refine ⟨rfl, ?_⟩
    rw [crossing_setCrossing, paceAt_of_pace (setCrossing_pace _), paceAt_setPace, if_pos rfl]
    exact ⟨rfl, rfl⟩

end Sys2Proof.Towers
end

section
/-! PROOFS. The end of a drain: the domain's crossings are gated, and the last layer's drain switches its tower off (02 R39,
14 R390). -/

namespace Sys2Proof.Towers

open Sys2Proof.Machine Sys2Proof.Safety Sys2Proof.Laws

/-! ### A drained domain stays drained while supplies are switched off -/

/-- The domain drains no more and its crossings are marked gated. -/
def Drained (d : Nat) (s : State) : Prop := (paceAt s d).draining = false ∧ (paceAt s d).xgated = true

/-- `t` is `s` but for supplies, pacers' words, cores and memory. -/
def OnlySupplies (s t : State) : Prop :=
  t = { s with power := { s.power with domains := t.power.domains }, pace := t.pace, cores := t.cores, mem := t.mem }

section
variable {d k : Nat} {s t u : State}

theorem OnlySupplies.trans (h : OnlySupplies s t) (k : OnlySupplies t u) : OnlySupplies s u := by
  unfold OnlySupplies at k
  rw [h] at k
  exact k

theorem Drained.of_pace (h : Drained d s) (same : t.pace = s.pace) : Drained d t := by
  unfold Drained
  rwa [paceAt_of_pace same]

theorem Drained.setPace (h : Drained d s) {f : Pace → Pace}
    (keeps : ∀ p, p.draining = false ∧ p.xgated = true → (f p).draining = false ∧ (f p).xgated = true) :
    Drained d (setPace k f s) := by
  unfold Drained
  rw [paceAt_setPace]
  split
  · exact keeps _ h
  · exact h

theorem Drained.switchOff (h : Drained d s) : Drained d (switchOff k s) :=
  forEach_keeps (P := Drained d) (setSupply k .off s) (fun _ _ _ h => h.setPace (fun _ _ => ⟨rfl, rfl⟩)) (h.of_pace rfl)

theorem switchOff_onlySupplies (k : Nat) (s : State) :
    OnlySupplies s (switchOff k s) ∧ (switchOff k s).power.domains = tset s.power.domains k .off :=
  forEach_keeps (P := fun u => OnlySupplies s u ∧ u.power.domains = tset s.power.domains k .off) (setSupply k .off s)
    (fun _ _ _ h => ⟨h.1.trans rfl, h.2⟩) ⟨rfl, rfl⟩

/-- The cores of a tower that goes off lose what they hold and its pacers stand still (14 Table 14-3). -/
theorem logicOff_drained (h : Drained d s) (t : Nat) : Drained d (logicOff t s) ∧ OnlySupplies s (logicOff t s) := by
  have off (u : State) (h : Drained d u ∧ OnlySupplies s u) :
      Drained d (setSupply t .off u) ∧ OnlySupplies s (setSupply t .off u) := ⟨h.1.of_pace rfl, h.2.trans rfl⟩
  unfold logicOff
  refine off _ (forEach_keeps (P := fun u => Drained d u ∧ OnlySupplies s u) _ (fun _ _ u h => ?_)
    (forEach_keeps (P := fun u => Drained d u ∧ OnlySupplies s u) s (fun c _ u h => ?_) ⟨h, rfl⟩))
  · exact ⟨h.1.setPace (fun _ p => p), h.2.trans rfl⟩
  · split
    · exact ⟨h.1.of_pace rfl, h.2.trans rfl⟩
    · exact h

theorem towerLogicOff_drained (h : Drained d s) (t : Nat) : Drained d (towerLogicOff t s) ∧
    OnlySupplies s (towerLogicOff t s) ∧ supplyAt (towerLogicOff t s) t = .off := by
  obtain ⟨drained, logic⟩ := logicOff_drained h t
  obtain ⟨off, domains⟩ := switchOff_onlySupplies t (logicOff t s)
  refine ⟨drained.switchOff, logic.trans off, ?_⟩
  rw [supplyAt, towerLogicOff, domains, tget_tset, if_pos rfl]

/-- A tower that has reached the state asked for: it is no longer under way, the event, and the orders that waited. -/
theorem gateReached_does (t on : Nat) (s : State) : (gateReached t on s).pace = s.pace ∧
    (gateReached t on s).power.domains = s.power.domains ∧ (gateReached t on s).power.gating = tdel s.power.gating t ∧
    LoggedLately 1 0x6003 [a2 t, a2 on] s (gateReached t on s) := by
  have answers : OnlyAnswers _ (gateReached t on s) := finishAll_onlyAnswers _ _ rfl _
  rw [answers]
  exact ⟨rfl, rfl, rfl, (loggedLately_raise mgmt dieControl (Nat.le_refl _)).of_log rfl⟩

end

/-! ### DOMAIN_DRAIN_END -/

section
variable {d : Nat} {s : State}

/-- The domain's crossings marked gated. -/
def drainEnded (d : Nat) (s : State) : State := setPace d (fun p => { p with draining := false, xgated := true }) s

theorem drainEnded_drained (d : Nat) (s : State) : Drained d (drainEnded d s) := by
  unfold Drained drainEnded
  rw [paceAt_setPace, if_pos rfl]
  exact ⟨rfl, rfl⟩

/-- The layers of the domain's tower have all been drained. -/
def lastLayer (d : Nat) (s : State) : Bool := d < 24 && (logicLayers (d / 3)).all (fun l => (paceAt (drainEnded d s) l).xgated)

theorem lastLayer_of_others (tower : d < 24) (others : ∀ l, l ∈ logicLayers (d / 3) → l ≠ d → (paceAt s l).xgated = true) :
    lastLayer d s = true := by
  unfold lastLayer
  simp only [tower, decide_true, Bool.true_and, List.all_eq_true]
  intro l hl
  by_cases here : l = d
  · rw [here]
    exact (drainEnded_drained d s).2
  · rw [drainEnded, paceAt_setPace, if_neg here]
    exact others l hl here

/-- What the end of a drain does: with the last layer of a tower under way the tower reaches its ON. -/
theorem domainDrainEnd_cases (draining : (paceAt s d).draining = true) :
    (¬ (lastLayer d s = true ∧ (tfind? s.power.gating (d / 3) = some 0 ∨ tfind? s.power.gating (d / 3) = some 2)) ∧
      domainDrainEnd d s = drainEnded d s) ∨
    (lastLayer d s = true ∧ tfind? s.power.gating (d / 3) = some 0 ∧
      domainDrainEnd d s = gateReached (d / 3) 0 (towerLogicOff (d / 3) (drainEnded d s))) ∨
    (lastLayer d s = true ∧ tfind? s.power.gating (d / 3) = some 2 ∧
      domainDrainEnd d s = gateReached (d / 3) 2 (pondOff (d / 3) (towerLogicOff (d / 3) (drainEnded d s)))) := by
  have start : domainDrainEnd d s =
      if lastLayer d s then
        match tfind? s.power.gating (d / 3) with
        | some 2 => gateReached (d / 3) 2 (pondOff (d / 3) (towerLogicOff (d / 3) (drainEnded d s)))
        | some 0 => gateReached (d / 3) 0 (towerLogicOff (d / 3) (drainEnded d s))
        | _ => drainEnded d s
      else drainEnded d s := by
    unfold domainDrainEnd lastLayer
    rw [draining]
    rfl
  rw [start]
  split
  · next last =>
    split
    · next on => exact .inr (.inr ⟨last, on, rfl⟩)
    · next on => exact .inr (.inl ⟨last, on, rfl⟩)
    · next no2 no0 => exact .inl ⟨fun h => h.2.elim no0 no2, rfl⟩
  · next notLast => exact .inl ⟨fun h => notLast h.1, rfl⟩

theorem domainDrainEnd_drained (draining : (paceAt s d).draining = true) : Drained d (domainDrainEnd d s) := by
  have logic := (towerLogicOff_drained (drainEnded_drained d s) (d / 3)).1
  rcases domainDrainEnd_cases draining with ⟨-, e⟩ | ⟨-, -, e⟩ | ⟨-, -, e⟩
  · rw [e]
    exact drainEnded_drained d s
  · rw [e]
    exact logic.of_pace (gateReached_does ..).1
  · rw [e]
    have pond : Drained d (pondLost (d / 3) (towerLogicOff (d / 3) (drainEnded d s))) := logic.of_pace rfl
    exact pond.switchOff.of_pace (gateReached_does ..).1

/-- The last layer's drain under ON 0 switches TLn off (14 Table 14-7). -/
theorem domainDrainEnd_gates (draining : (paceAt s d).draining = true) (last : lastLayer d s = true)
    (on : tfind? s.power.gating (d / 3) = some 0) : supplyAt (domainDrainEnd d s) (d / 3) = .off ∧
    tfind? (domainDrainEnd d s).power.gating (d / 3) = none ∧
    Logged 0x6003 [a2 (d / 3), a2 0] s (domainDrainEnd d s) := by
  have e : domainDrainEnd d s = gateReached (d / 3) 0 (towerLogicOff (d / 3) (drainEnded d s)) := by
    rcases domainDrainEnd_cases draining with ⟨other, -⟩ | ⟨-, -, e⟩ | ⟨-, on2, -⟩
    · exact absurd ⟨last, .inl on⟩ other
    · exact e
    · rw [on] at on2
      cases on2
  obtain ⟨-, logic, off⟩ := towerLogicOff_drained (drainEnded_drained d s) (d / 3)
  obtain ⟨-, domains, gating, logged⟩ := gateReached_does (d / 3) 0 (towerLogicOff (d / 3) (drainEnded d s))
  rw [e]
  refine ⟨(supplyAt_of_domains domains _).trans off, ?_, ?_⟩
  · rw [gating, tfind?_tdel, if_pos rfl]
  · have next : (towerLogicOff (d / 3) (drainEnded d s)).log = s.log := by rw [logic]; rfl
    obtain ⟨ev, mem, le, rest⟩ := logged.logged
    exact ⟨ev, mem, next ▸ le, rest⟩

end

/-- Settles O14: `domainDrainEnd_cases` says what can follow; switching supplies off undoes no drain. -/
theorem drainEndGatesCrossings : Obligations.DrainEndGatesCrossings := by
  unfold Obligations.DrainEndGatesCrossings
  intro d s draining
  refine ⟨_, rfl, ?_⟩
  obtain ⟨ended, gated⟩ := domainDrainEnd_drained draining
  exact ⟨ended, gated, fun tower others on => domainDrainEnd_gates draining (lastLayer_of_others tower others) on⟩

end Sys2Proof.Towers
end

section
/-! PROOFS. Vertical channels: the repair ladder (02 R42 to R45, Table 2-8). -/

namespace Sys2Proof.Towers

open Sys2Proof.Machine Sys2Proof.Safety Sys2Proof.Laws

/-! ### Channel states -/

section
variable {c k : Nat} {s t : State}

theorem chanState_of_channels (h : t.channels = s.channels) (k : Nat) : chanState t k = chanState s k :=
  congrArg (fun x : Channel => x.state.toNat) (chan_of_channels h k)

theorem chanState_setChan (f : Channel → Channel) (keeps : ∀ x, (f x).state = x.state) : chanState (setChan c f s) k = chanState s k := by
  unfold chanState
  rw [chan_setChan]
  split
  · rw [keeps]
  · rfl

theorem chanState_setChanState (st : Nat) : chanState (setChanState c st s) k = if k = c then st % 8 else chanState s k := by
  rw [setChanState, chanState_of_channels (capBump_channels _), chanState, chan_setChan]
  split
  · exact BitVec.toNat_ofNat ..
  · rfl

theorem setChanState_log (st : Nat) : (setChanState c st s).log = s.log := by simp [setChanState]

theorem chanEvent_channels (powerUp : Bool) (code : Nat) : (chanEvent powerUp code c s).channels = s.channels := rfl

theorem lendingEnded_channels : (lendingEnded c s).channels = s.channels := rfl

theorem partner_ne (c : Nat) : c ≠ partner c := by
  intro h
  have cancel : c ^^^ partner c = 1 := by rw [partner, ← Nat.xor_assoc, Nat.xor_self, Nat.zero_xor]
  rw [← h, Nat.xor_self] at cancel
  exact absurd cancel (by decide)

/-! ### Stopping a core changes cores and the work of the open step -/

/-- `t` is `s` but for cores and the open step. -/
def OnlyWork (s t : State) : Prop := t = { s with steps := t.steps, cores := t.cores }

theorem OnlyWork.trans {u : State} (h : OnlyWork s t) (k : OnlyWork t u) : OnlyWork s u := by
  unfold OnlyWork at k
  rw [h] at k
  exact k

theorem workLost_onlyWork (s : State) : OnlyWork s (workLost s) := by
  unfold workLost
  split <;> rfl

theorem spreadLoss_onlyWork (job : Nat) (s : State) : OnlyWork s (spreadLoss job s) := by
  unfold spreadLoss
  split
  · rfl
  · split <;> rfl

theorem loseTask_onlyWork (id : Nat) (s : State) : OnlyWork s (loseTask 0 id s) :=
  (workLost_onlyWork s).trans (OnlyWork.trans (t := setTask 0 id .lost (workLost s)) rfl (spreadLoss_onlyWork ..))

theorem loseBound_onlyWork (c : Nat) (s : State) : OnlyWork s (loseBound c s) := by
  unfold loseBound
  split
  · rfl
  · split
    · rfl
    · exact forEach_keeps (P := OnlyWork s) s (fun q _ u h => h.trans (loseTask_onlyWork q.1 u)) rfl

theorem stopCore_onlyWork (c : Nat) (s : State) : OnlyWork s (stopCore c s) := by
  unfold stopCore
  refine OnlyWork.trans ?_ (OnlyWork.trans (loseBound_onlyWork c _) rfl)
  split
  · exact workLost_onlyWork s
  · rfl

theorem stopCore_channels (c : Nat) (s : State) : (stopCore c s).channels = s.channels := by rw [stopCore_onlyWork]
theorem stopCore_log (c : Nat) (s : State) : (stopCore c s).log = s.log := by rw [stopCore_onlyWork]

/-! ### The retirement of a core -/

/-- The core itself is stopped and retired, with its event (02 R52). -/
def retiredAlone (c : Nat) (s : State) : State := chanEvent false 0x2104 c (setChanState c csRetired (stopCore c s))

theorem chanState_retiredAlone (c k : Nat) (s : State) :
    chanState (retiredAlone c s) k = if k = c then csRetired else chanState s k := by
  rw [retiredAlone, chanState_of_channels (chanEvent_channels ..), chanState_setChanState,
    chanState_of_channels (stopCore_channels ..)]
  rfl

theorem retiredAlone_logged (c : Nat) (s : State) : LoggedLately 1 0x2104 [a2 c, a2 csRetired] s (retiredAlone c s) := by
  have state : chanState (setChanState c csRetired (stopCore c s)) c = csRetired := by
    rw [chanState_setChanState, if_pos rfl]
    rfl
  rw [retiredAlone, chanEvent, state]
  exact loggedLately_raise _ _ (Nat.le_of_eq (by rw [setChanState_log, stopCore_log]))

/-- With a core its borrower is retired, and a lender gets its slice back (02 R47). -/
theorem retireCore_eq (present : chanState s c ≠ csRetired) : retireCore false c s =
    if chanState s c = csLending then lendingEnded c (retiredAlone (partner c) (retiredAlone c s))
    else if chanState s c = csBorrowing then lendingEnded (partner c) (setChanState (partner c) csWhole (retiredAlone c s))
    else retiredAlone c s := by
  unfold retireCore
  simp only [beq_iff_eq, if_neg present]
  rfl

/-- The core is retired, and its event is among the three newest. -/
theorem retireCore_retires (present : chanState s c ≠ csRetired) : chanState (retireCore false c s) c = csRetired ∧
    LoggedLately 3 0x2104 [a2 c, a2 csRetired] s (retireCore false c s) := by
  have self : chanState (retiredAlone c s) c = csRetired := by rw [chanState_retiredAlone, if_pos rfl]
  have logged := retiredAlone_logged c s
  rw [retireCore_eq present]
  split
  · refine ⟨?_, ?_⟩
    · rw [chanState_of_channels lendingEnded_channels, chanState_retiredAlone, if_neg (partner_ne c), self]
    · have stopped : LoggedLately 1 0x2104 [a2 c, a2 csRetired] s
          (setChanState (partner c) csRetired (stopCore (partner c) (retiredAlone c s))) :=
        logged.of_log (by rw [setChanState_log, stopCore_log])
      exact (stopped.raise (by decide) ..).raise (by decide) ..
  · split
    · refine ⟨?_, ?_⟩
      · rw [chanState_of_channels lendingEnded_channels, chanState_setChanState, if_neg (partner_ne c), self]
      · exact ((logged.of_log (setChanState_log csWhole)).raise (by decide) ..).mono (by decide)
    · exact ⟨self, logged.mono (by decide)⟩

end

/-! ### Groups of a channel -/

section
variable {c g : Nat} {x : Channel} {s : State}

/-- No group of the channel has failed. -/
def Sound (x : Channel) : Prop := halfFailed x 0 = false ∧ halfFailed x 1 = false

theorem halfFailed_eq_false {half : Nat} : halfFailed x half = false ↔ ∀ p ∈ x.groups, p.1 / 32 = half → p.2.failed = false := by
  simp [halfFailed]

/-- The channel once its bond tests have ended. -/
def tested (x : Channel) : Channel := { x with groups := x.groups.map (fun p => (p.1, { p.2 with testing := false })) }

theorem group_tested (g : Nat) : tget (tested x).groups g .reset = { tget x.groups g .reset with testing := false } := by
  have h := tfind?_map_value x.groups (fun _ r => { r with testing := false }) g
  unfold tested tget
  rw [h]
  cases tfind? x.groups g <;> rfl

theorem sparesLeft_tested : sparesLeft c g (tested x) = sparesLeft c g x := by
  unfold sparesLeft
  rw [group_tested]

theorem halfFailed_tested (half : Nat) : halfFailed (tested x) half = halfFailed x half := by
  simp [halfFailed, tested, List.any_map, Function.comp_def]

/-- The channel with one more bond of a group remapped (02 R44). -/
def spareUsed (g : Nat) (x : Channel) : Channel :=
  { x with groups := tmod x.groups g .reset (fun r => { r with used := r.used + 1 }) }

theorem failed_of_half {half : Nat} (h : halfFailed x half = false) (hg : g / 32 = half) :
    (tget x.groups g .reset).failed = false := by
  unfold tget
  cases found : tfind? x.groups g with
  | none => rfl
  | some r => exact halfFailed_eq_false.mp h _ (mem_of_tfind? found) hg

theorem halfFailed_spareUsed {half : Nat} (h : halfFailed x half = false) : halfFailed (spareUsed g x) half = false := by
  rw [halfFailed_eq_false]
  intro p hp hk
  rcases mem_tset hp with old | rfl
  · exact halfFailed_eq_false.mp h p old hk
  · exact failed_of_half h hk

theorem channelParityError_first (inUse : groupInUse (chanState s c) g = true) :
    channelParityError c g false s = setChan c (fun x => { x with transients := x.transients + 1 }) s := by
  unfold channelParityError
  simp [inUse]

theorem channelParityError_again (inUse : groupInUse (chanState s c) g = true) : channelParityError c g true s =
    setChan c (fun x => { x with groups := tmod x.groups g .reset (fun r => { r with testing := true }) }) s := by
  unfold channelParityError
  simp [inUse]

/-- A channel in which no group has failed stands as it is. -/
theorem settleChannel_of_sound (powerUp : Bool) (h : Sound (chan s c)) : settleChannel powerUp c s = s := by
  unfold settleChannel
  simp [h.1, h.2]

theorem groupFailure_of_spare (inUse : groupInUse (chanState s c) g = true) (spare : sparesLeft c g (chan s c) ≠ 0) :
    groupFailure c g s = raise 0x2101 data (coreDie c) [a2 c, a2 (chanState s c)] (setChan c (spareUsed g) s) := by
  unfold groupFailure spareUsed
  simp [inUse, spare]

/-- A failing bond of a sound channel whose group has a spare takes it, and no more follows. -/
theorem bondTestDone_of_spare (inUse : groupInUse (chanState s c) g = true) (spare : sparesLeft c g (chan s c) ≠ 0)
    (sound : Sound (chan s c)) : bondTestDone c [g] [] s =
      raise 0x2101 data (coreDie c) [a2 c, a2 (chanState s c)] (setChan c (spareUsed g) (setChan c tested s)) := by
  have state : chanState (setChan c tested s) c = chanState s c := chanState_setChan tested (fun _ => rfl)
  have self : chan (setChan c tested s) c = tested (chan s c) := (chan_setChan ..).trans (if_pos rfl)
  have remapped : groupFailure c g (setChan c tested s) =
      raise 0x2101 data (coreDie c) [a2 c, a2 (chanState s c)] (setChan c (spareUsed g) (setChan c tested s)) := by
    rw [groupFailure_of_spare (by rw [state, inUse]) (by rw [self, sparesLeft_tested]; exact spare), state]
  have still : Sound (chan (groupFailure c g (setChan c tested s)) c) := by
    rw [remapped, chan_of_channels (raise_channels _), chan_setChan, if_pos rfl, self]
    exact ⟨halfFailed_spareUsed ((halfFailed_tested 0).trans sound.1), halfFailed_spareUsed ((halfFailed_tested 1).trans sound.2)⟩
  rw [← remapped]
  exact settleChannel_of_sound false still

end

/-! ### Command lanes -/

section
variable {core : Nat} {up : Bool} {copy : Fin 3} {bit : Nat} {s : State}

/-- The channel with a command-lane bond recorded as failed. -/
def bondRecorded (up : Bool) (copy : Fin 3) (bit : Nat) (x : Channel) : Channel :=
  { x with laneFails := if x.laneFails.contains (up, copy, bit) then x.laneFails else x.laneFails ++ [(up, copy, bit)] }

theorem mem_bondRecorded (x : Channel) : (up, copy, bit) ∈ (bondRecorded up copy bit x).laneFails := by
  unfold bondRecorded
  split
  · next h => simpa using h
  · simp

theorem commandLaneBondFail_eq (present : chanState s core ≠ csRetired) : commandLaneBondFail core up copy bit s =
    if (chan s core).laneFails.any (fun f => f.1 == up && f.2.1 != copy && f.2.2 == bit)
    then retireCore false core (setChan core (bondRecorded up copy bit) s) else setChan core (bondRecorded up copy bit) s := by
  have recorded : setChan core (fun x => { x with
      laneFails := if (chan s core).laneFails.contains (up, copy, bit) then (chan s core).laneFails
        else (chan s core).laneFails ++ [(up, copy, bit)] }) s = setChan core (bondRecorded up copy bit) s := rfl
  unfold commandLaneBondFail
  simp only [beq_iff_eq, if_neg present]
  rw [recorded]

/-- A bond that fails in one copy of its lane is outvoted. -/
theorem commandLaneBondFail_outvoted (present : chanState s core ≠ csRetired)
    (one : (chan s core).laneFails.all (fun f => f.1 != up || f.2.1 == copy || f.2.2 != bit) = true) :
    commandLaneBondFail core up copy bit s = setChan core (bondRecorded up copy bit) s := by
  have alone : (chan s core).laneFails.any (fun f => f.1 == up && f.2.1 != copy && f.2.2 == bit) = false := by
    rw [← Bool.not_eq_true', List.not_any_eq_all_not, ← one]
    simp [Bool.not_and, bne]
  rw [commandLaneBondFail_eq present, alone]
  rfl

/-- The same bit in a second copy retires the core. -/
theorem commandLaneBondFail_retires (present : chanState s core ≠ csRetired) {other : Fin 3} (ne : other ≠ copy)
    (second : (up, other, bit) ∈ (chan s core).laneFails) : chanState (commandLaneBondFail core up copy bit s) core = csRetired ∧
      Logged 0x2104 [a2 core, a2 csRetired] s (commandLaneBondFail core up copy bit s) := by
  have two : (chan s core).laneFails.any (fun f => f.1 == up && f.2.1 != copy && f.2.2 == bit) = true :=
    List.any_eq_true.mpr ⟨_, second, by simp [ne]⟩
  have here : chanState (setChan core (bondRecorded up copy bit) s) core = chanState s core := chanState_setChan _ (fun _ => rfl)
  obtain ⟨retired, logged⟩ := retireCore_retires (s := setChan core (bondRecorded up copy bit) s) (here ▸ present)
  rw [commandLaneBondFail_eq present, if_pos two]
  exact ⟨retired, logged.logged⟩

end

/-- Settles O15: each row of the ladder is one update of the channel, but for the retirement, where the core's event stays
among the three newest. -/
theorem channelRepairLadder : Obligations.ChannelRepairLadder := by
  unfold Obligations.ChannelRepairLadder
  intro core s
  refine ⟨fun g inUse => ⟨⟨_, congrArg Host.Outcome.next (channelParityError_first inUse), ?_⟩,
      ⟨_, congrArg Host.Outcome.next (channelParityError_again inUse), ?_⟩,
      fun spare lower upper => ⟨_, congrArg Host.Outcome.next (bondTestDone_of_spare inUse spare ⟨lower, upper⟩), ?_⟩⟩,
    fun up copy bit present =>
      ⟨fun one => ⟨_, congrArg Host.Outcome.next (commandLaneBondFail_outvoted present one), ?_⟩,
        fun other ne second => ⟨_, rfl, commandLaneBondFail_retires present ne second⟩⟩⟩
  · refine ⟨rfl, ?_, fun k hk => ?_⟩
    · rw [chan_setChan, if_pos rfl]
    · rw [chan_setChan, if_neg hk]
  · refine ⟨rfl, ?_, fun k hk => ?_⟩
    · rw [chan_setChan, if_pos rfl, tget_tmod, if_pos rfl]
    · rw [chan_setChan, if_neg hk]
  · refine ⟨raise_onlyEvent .., ?_, ?_⟩
    · rw [chanState_of_channels (raise_channels _), chanState_setChan (spareUsed g.val) (fun _ => rfl),
        chanState_setChan tested (fun _ => rfl)]
    · rw [chan_of_channels (raise_channels _), chan_setChan, if_pos rfl, chan_setChan, if_pos rfl, spareUsed, tget_tmod,
        if_pos rfl, group_tested]
  · refine ⟨rfl, ?_, chanState_setChan _ (fun _ => rfl)⟩
    rw [chan_setChan, if_pos rfl]
    exact mem_bondRecorded _

end Sys2Proof.Towers
end

section
/-! PROOFS. The fetch and the checks of a task (04 R115, R120, R121, 05 R138). -/

namespace Sys2Proof.Towers

open Sys2Proof.Machine Sys2Proof.Safety Sys2Proof.Laws

section
variable {c : Nat} {s u : State} {r : TaskRun}

theorem setCore_onlyCore (c : Nat) (f : Core → Core) (s : State) : OnlyCore c s (setCore c f s) :=
  ⟨rfl, fun _ hk => (coreAt_setCore ..).trans (if_neg hk)⟩

theorem coreAt_setRun (f : TaskRun → TaskRun) (running : (coreAt s c).running = some r) :
    coreAt (setRun c true f s) c = { coreAt s c with running := some (f r) } := by
  simp [setRun, coreAt_setCore, running]

/-- Where no cause stands, the running task is to end with the code. -/
theorem coreAt_endRun (running : (coreAt s c).running = some r) (going : r.ended = none) (code : Nat) (gated : Bool) :
    coreAt (endRun c true code gated s) c =
      { coreAt s c with running := some { r with ended := some code, causeGated := gated } } := by
  simp [endRun, coreAt_setCore, running, going]

/-- The event of poison changes no core. -/
theorem poisonEvent_cores (c a : Nat) (s : State) : (poisonEvent c a s).cores = s.cores := by
  unfold poisonEvent
  split <;> rfl

/-- The descriptor that stands in a task room. -/
def descriptorIn (s : State) (room : Room) : BitVec 2048 := BitVec.ofNat 2048 (rdNat s room.base.toNat 256)

/-- A running initiator fetches its running task first. -/
theorem descriptorFetch_of_running (runs : initiatorRuns s c = true) (running : (coreAt s c).running = some r)
    (unchecked : r.checked = false) (going : r.ended = none) : descriptorFetch c s = fetchRun c true r s := by
  unfold descriptorFetch
  simp [runs, running, unchecked, going]

/-! ### The three outcomes of a read -/

section
variable {room : Room} (inRoom : roomAt s r.room.toNat = some room)
include inRoom

theorem fetchRun_of_shut (shut : wayShut s (pathTo c room.base.toNat) = true) :
    fetchRun c true r s = endRun c true ccXtimeout (wayGated s (pathTo c room.base.toNat)) s := by
  unfold fetchRun
  simp only [inRoom, shut, if_true]

theorem fetchRun_of_poison (way : wayShut s (pathTo c room.base.toNat) = false) {a : Nat}
    (poison : fetchPoison s c room (descriptorIn s room) = some a) :
    fetchRun c true r s = endRun c true ccMem false (poisonEvent c a s) := by
  unfold descriptorIn at poison
  unfold fetchRun
  simp only [inRoom, way, poison, Bool.false_eq_true, if_false]

theorem fetchRun_of_sound (way : wayShut s (pathTo c room.base.toNat) = false)
    (sound : fetchPoison s c room (descriptorIn s room) = none) : fetchRun c true r s =
      settleVerdict c true r (descriptorIn s room) (fetchVerdict s c (coreAt s c) (descriptorIn s room)) s := by
  unfold descriptorIn at *
  unfold fetchRun descriptorRead
  simp only [inRoom, way, sound, Bool.false_eq_true, if_false]

end

/-! ### The verdict -/

theorem settleVerdict_of_silent (d : BitVec 2048) {code : Nat} (ne : code ≠ ccHeldLost) :
    settleVerdict c true r d (some (code, false)) s =
      endRun c true code (code == ccXtimeout && wayGated s (waysOf s c d)) s := by
  simp [settleVerdict, ne]

theorem settleVerdict_of_desc (d : BitVec 2048) : settleVerdict c true r d (some (ccDesc, true)) s =
    endRun c true ccDesc false (descEvent c r.desc s) := rfl

/-- A wrong CRC is found before anything else (04 R115). -/
theorem fetchVerdict_of_badCrc {k : Core} {d : BitVec 2048} (bad : recCrcOk d = false) :
    fetchVerdict s c k d = some (ccDesc, true) := by
  unfold fetchVerdict
  rw [bad]
  rfl

end

/-- Settles O23: the read ends shut, poisoned or sound, and a sound descriptor is settled by its verdict; each way one task of
one core changes, beside the event. -/
theorem taskFetchChecks : Obligations.TaskFetchChecks := by
  unfold Obligations.TaskFetchChecks
  intro c s r room runs running unchecked going inRoom
  have fetch := descriptorFetch_of_running runs running unchecked going
  refine ⟨fun shut => ⟨_, congrArg Host.Outcome.next (fetch.trans (fetchRun_of_shut inRoom shut)), ?_⟩,
    fun a way poison => ⟨_, congrArg Host.Outcome.next (fetch.trans (fetchRun_of_poison inRoom way poison)), ?_⟩,
    fun way sound => ?_⟩
  · exact ⟨setCore_onlyCore .., coreAt_endRun running going ..⟩
  · have cores := coreAt_of_cores (poisonEvent_cores c.val a s)
    refine ⟨fun k hk => ((setCore_onlyCore ..).2 k hk).trans (cores k), ?_⟩
    rw [coreAt_endRun ((congrArg Core.running (cores c.val)).trans running) going, cores]
  · have read := fetch.trans (fetchRun_of_sound inRoom way sound)
    unfold descriptorIn at read
    refine ⟨fun passed => ⟨_, congrArg Host.Outcome.next read, ?_⟩, fun code ne failed => ⟨_, congrArg Host.Outcome.next read, ?_⟩,
      fun bad => ⟨_, congrArg Host.Outcome.next read, ?_⟩⟩
    · rw [passed]
      exact ⟨setCore_onlyCore .., coreAt_setRun _ running⟩
    · rw [failed, settleVerdict_of_silent _ ne]
      exact ⟨setCore_onlyCore .., coreAt_endRun running going ..⟩
    · rw [fetchVerdict_of_badCrc bad, settleVerdict_of_desc]
      exact ⟨raise_onlyEvent .., (setCore_onlyCore ..).2, coreAt_endRun running going ..⟩

end Sys2Proof.Towers
end

section
/-! PROOFS. What the vector engine does with an instruction that it issues (05 R129, R136): the registers written, the flags
added, the place in the program; then the conversions, quantising and packing (03 R70, R71, 05 R145). -/

namespace Sys2Proof.Vector

open Sys2Proof.Machine Sys2Proof.Safety Sys2Proof.Laws

/-! ### Registers and the task -/

section
variable {s t u : State} {r : TaskRun} {c : Nat}

theorem onlyCore_trans (h : OnlyCore c s t) (k : OnlyCore c t u) : OnlyCore c s u := by
  obtain ⟨same, others⟩ := h
  obtain ⟨same', others'⟩ := k
  refine ⟨?_, fun j hj => (others' j hj).trans (others j hj)⟩
  rw [same] at same'
  exact same'

theorem putReg_onlyCore (d tag : Nat) (ls : List Lane) (s : State) : OnlyCore c s (putReg c d tag ls s) :=
  Towers.setCore_onlyCore ..

theorem setTask_onlyCore (f : TaskRun → TaskRun) (s : State) : OnlyCore c s (setTask_ c f s) := Towers.setCore_onlyCore ..

theorem addFlags_onlyCore (f : Flags) (s : State) : OnlyCore c s (addFlags c f s) := setTask_onlyCore ..

theorem vreg_of_cores (h : t.cores = s.cores) (q : Nat) : vreg t c q = vreg s c q := by
  unfold vreg
  rw [Towers.coreAt_of_cores h]

@[simp] theorem vreg_putReg (d tag q : Nat) (ls : List Lane) (s : State) :
    vreg (putReg c d tag ls s) c q = if q = d then ls else vreg s c q := by
  simp only [vreg, putReg, coreAt_setCore, if_true, tget_tset]

@[simp] theorem vreg_setTask (f : TaskRun → TaskRun) (q : Nat) (s : State) : vreg (setTask_ c f s) c q = vreg s c q := by
  simp only [vreg, setTask_, coreAt_setCore, if_true]

@[simp] theorem vreg_addFlags (f : Flags) (q : Nat) (s : State) : vreg (addFlags c f s) c q = vreg s c q := vreg_setTask ..

@[simp] theorem vreg_finishOp (w : VWord) (rs : List (Lane × Flags)) (q : Nat) (s : State) :
    vreg (finishOp c w r rs s) c q = if q = w.d.toNat then rs.map (·.1) else vreg s c q := by
  rw [finishOp, vreg_addFlags, vreg_putReg]
  rfl

/-- Consecutive registers take one list each. -/
theorem vreg_putRegs (tag q : Nat) (ls : List (List Lane)) (d n : Nat) (s : State) :
    vreg (forEach (ls.zipIdx n) (fun p => putReg c (d + p.2) tag p.1) s) c q =
      if d + n ≤ q then (ls[q - (d + n)]?).getD (vreg s c q) else vreg s c q := by
  induction ls generalizing n s with
  | nil => simp only [List.zipIdx_nil, forEach_nil, List.getElem?_nil, Option.getD_none, ite_self]
  | cons l ls ih =>
    rw [List.zipIdx_cons, forEach_cons, ih, vreg_putReg]
    rcases Nat.lt_trichotomy q (d + n) with lt | rfl | gt
    · rw [if_neg (by omega), if_neg (by omega), if_neg (by omega)]
    · rw [if_neg (by omega), if_pos rfl, if_pos (Nat.le_refl _), Nat.sub_self]
      rfl
    · rw [if_pos (by omega), if_neg (by omega), if_pos (by omega), show q - (d + n) = q - (d + (n + 1)) + 1 by omega,
        List.getElem?_cons_succ]

theorem putRegs_onlyCore (tag d : Nat) (ls : List (List Lane × Nat)) (s : State) :
    OnlyCore c s (forEach ls (fun p => putReg c (d + p.2) tag p.1) s) :=
  forEach_keeps (P := OnlyCore c s) s (fun _ _ _ h => onlyCore_trans h (putReg_onlyCore ..)) ⟨rfl, fun _ _ => rfl⟩

/-! ### An instruction that the program gives next -/

theorem running_of_issuing {op : Nat} {w : VWord} (issues : issuing s c op w = some r) : (coreAt s c).running = some r := by
  unfold issuing vectorTask at issues
  grind

/-- An instruction that the program gives next, and that plan load admits, has its effect, and the task goes on. -/
theorem completes_issue {i : Instr} {core : Fin 384} {op : Nat} {w : VWord} {legal : Bool} {f : Nat → TaskRun → State → State}
    {P : State → Prop} (arm : exec i s = .next (issue core op w legal f s)) (issues : issuing s core.val op w = some r)
    (admitted : legal = true) (after : P (setTask_ core.val stepPast (f core.val r s))) : Completes i s P := by
  refine ⟨_, arm, ?_⟩
  unfold issue
  rw [issues]
  simpa only [admitted, if_true] using after

/-- An operation that finishes with these lanes gives register D these lanes and changes nothing else. -/
theorem givesLanes_finishOp (w : VWord) (rs : List (Lane × Flags)) (running : (coreAt s c).running = some r) :
    GivesLanes c w (stepPast r) rs s (setTask_ c stepPast (finishOp c w r rs s)) := by
  refine ⟨?_, ?_, fun q hq => ?_, ?_⟩
  · rw [vreg_setTask, vreg_finishOp, if_pos rfl]
  · exact onlyCore_trans (putReg_onlyCore ..) (onlyCore_trans (addFlags_onlyCore ..) (setTask_onlyCore ..))
  · rw [vreg_setTask, vreg_finishOp, if_neg (fun h => hq (List.mem_singleton.mpr h))]
  · simp only [finishOp, addFlags, setTask_, putReg, coreAt_setCore, if_true, running]
    rfl

end

/-- `map3` of `g` is the lane-by-lane operation of `f` where they agree on every legal word. -/
theorem laneOp3_of_map3 {mk : Fin 384 → VWord → Instr} {op : Nat} {legal guard : VWord → Bool}
    {f g : VWord → W32 → W32 → W32 → Val}
    (arm : ∀ core w s, exec (mk core w) s = .next (issue core op w (guard w) (map3 (g w) w) s))
    (same : ∀ w, legal w = true → guard w = true ∧ g w = f w) : LaneOp3 mk op legal f := by
  intro core w s r issues admitted
  obtain ⟨passes, fn⟩ := same w admitted
  rw [← fn]
  exact completes_issue (arm core w s) issues passes (givesLanes_finishOp w _ (running_of_issuing issues))

/-! ### Fields of CTL -/

/-- A word with CTL 0 above its `n` low bits has CTL as the field of these bits. -/
theorem ctlNat_low {w : VWord} {n : Nat} (le : n ≤ 16) (low : anyWord (BitVec.ofNat 16 (2 ^ n - 1)) w = true) :
    ctlNat w 0 n = w.ctl.toNat := by
  obtain ⟨zero, -⟩ := Bool.and_eq_true_iff.mp low
  have masked : w.ctl &&& BitVec.ofNat 16 (2 ^ n - 1) = w.ctl := by
    ext i hi
    have bit : (w.ctl &&& ~~~BitVec.ofNat 16 (2 ^ n - 1))[i] = (0#16)[i] :=
      congrArg (fun x => x[i]) (beq_iff_eq.mp zero)
    simpa only [BitVec.getElem_and, BitVec.getElem_not, BitVec.getElem_zero, Bool.and_eq_false_imp, Bool.not_eq_false',
      Bool.and_eq_left_iff_imp] using bit
  have pow : 2 ^ n ≤ 2 ^ 16 := Nat.pow_le_pow_right (by decide) le
  have mask : (BitVec.ofNat 16 (2 ^ n - 1)).toNat = 2 ^ n - 1 := Nat.mod_eq_of_lt (by have := Nat.two_pow_pos n; omega)
  calc w.ctl.toNat % 2 ^ n = w.ctl.toNat &&& (2 ^ n - 1) := (Nat.and_two_pow_sub_one_eq_mod ..).symm
    _ = (w.ctl &&& BitVec.ofNat 16 (2 ^ n - 1)).toNat := by rw [BitVec.toNat_and, mask]
    _ = w.ctl.toNat := by rw [masked]

theorem ncRnd_add (a b : Nat) : ncRnd (a + 4 * b) = ncRnd a := Nat.add_mul_mod_self_left ..

/-- The rounding depends on the numeric control's rounding field alone. -/
theorem rndAt_add (a b : Nat) (d : Draw) (i : Nat) : rndAt (a + 4 * b) d i = rndAt a d i := by
  simp only [rndAt, ncRnd_add]

/-- CTL[10] of PACK as NONFIN of a numeric control (05 R145). -/
theorem ncNonfin_packed (w : VWord) : ncNonfin (ctlNat w 8 2 + 4 * ctlNat w 10 1) = w.ctl.getLsbD 10 := by
  have lt : ctlNat w 8 2 < 4 := Nat.mod_lt _ (by decide)
  have bit : ctlNat w 10 1 = w.ctl.toNat / 1024 % 2 := congrArg (· % 2) (Nat.shiftRight_eq_div_pow w.ctl.toNat 10)
  rw [BitVec.getLsbD, Nat.testBit_eq_decide_div_mod_eq, ncNonfin, bit, Bool.eq_iff_iff]
  simp only [beq_iff_eq, decide_eq_true_eq]
  omega

/-! ### Lists cut into pieces -/

theorem chunksOf_cons {α : Type} (n fuel : Nat) (a : α) (l : List α) :
    chunksOf n (fuel + 1) (a :: l) = (a :: l).take n :: chunksOf n fuel ((a :: l).drop n) := rfl

theorem getElem?_chunksOf {α : Type} {n : Nat} (fuel : Nat) (l : List α) (k : Nat) :
    (chunksOf n fuel l)[k]? = if k < fuel ∧ n * k < l.length then some ((l.drop (n * k)).take n) else none := by
  induction fuel generalizing l k with
  | zero => simp [chunksOf]
  | succ fuel ih =>
    cases l with
    | nil => simp [chunksOf]
    | cons a l =>
      cases k with
      | zero => simp [chunksOf]
      | succ k =>
        rw [chunksOf_cons, List.getElem?_cons_succ, ih]
        simp only [List.length_drop, List.drop_drop, Nat.mul_succ]
        congr 1
        · simp only [eq_iff_iff]; omega
        · rw [Nat.add_comm]

/-- Piece `k` of a list. -/
theorem getElem?_pieces {α : Type} {n : Nat} (pos : 0 < n) (l : List α) (k : Nat) :
    (pieces n l)[k]? = if n * k < l.length then some ((l.drop (n * k)).take n) else none := by
  have fuel : n * k < l.length → k < l.length := Nat.lt_of_le_of_lt (Nat.le_mul_of_pos_left k pos)
  rw [pieces, getElem?_chunksOf]
  simp only [and_iff_right_of_imp fuel]

/-! ### Conversions, quantising and packing -/

section
variable {s : State} {r : TaskRun} {c : Nat} {w : VWord} {x : BitVec 256}

/-- Lanes of EXPB: the block exponent in D, and beside it the flags and whether the exponent was clamped (03 R70). -/
def expbLanes (w : VWord) (x : BitVec 256) (c : Nat) (r : TaskRun) (s : State) : List (Lane × Flags × Bool) :=
  ((source s c r 0 w.sa.toNat).zip (source s c r 1 w.sb.toNat)).map (fun p =>
    let v := expbOp (sFmt x) (ncRule (dAuxNumctl r.desc w.ctl.toNat)) p.1.val p.2.val
    (⟨v.1.1, p.1.valid && p.2.valid⟩, v.1.2, v.2))

/-- EXPB finishes with its lanes; a clamped exponent adds a mark to the task and an event. -/
theorem vecExpb_cases (low : ctlNat w 0 3 = w.ctl.toNat) (out : auxOut s r.desc w.ctl.toNat = some x) :
    let u := finishOp c w r ((expbLanes w x c r s).map (fun v => (v.1, v.2.1))) s
    vecExpb w c r s = u ∨
      vecExpb w c r s = raise 0x5002 data (coreDie c) [a4 (dTask r.desc), a4 (dOutTensor r.desc)]
        (setTask_ c (fun q => { q with clamped := true }) u) := by
  simp only [vecExpb, low, out]
  split
  · exact .inr rfl
  · exact .inl rfl

/-- EXPB writes the block exponents to D, and no other register and no memory. -/
theorem vecExpb_writes (low : ctlNat w 0 3 = w.ctl.toNat) (out : auxOut s r.desc w.ctl.toNat = some x) :
    vreg (vecExpb w c r s) c w.d.toNat = (expbLanes w x c r s).map (·.1) ∧ (vecExpb w c r s).mem = s.mem ∧
      (vecExpb w c r s).rooms = s.rooms ∧ ∀ q, q ≠ w.d.toNat → vreg (vecExpb w c r s) c q = vreg s c q := by
  have lanes : ((expbLanes w x c r s).map (fun v => (v.1, v.2.1))).map (·.1) = (expbLanes w x c r s).map (·.1) := by
    rw [List.map_map]
    rfl
  rcases vecExpb_cases (c := c) low out with h | h
  · rw [h]
    refine ⟨?_, rfl, rfl, fun q hq => ?_⟩
    · rw [vreg_finishOp, if_pos rfl, lanes]
    · rw [vreg_finishOp, if_neg hq]
  · rw [h]
    refine ⟨?_, rfl, rfl, fun q hq => ?_⟩
    · rw [vreg_of_cores (raise_cores _), vreg_setTask, vreg_finishOp, if_pos rfl, lanes]
    · rw [vreg_of_cores (raise_cores _), vreg_setTask, vreg_finishOp, if_neg hq]

/-- The narrowed elements that PACK packs, register after register, each with its valid bit (05 R145). -/
def packElems (w : VWord) (c : Nat) (r : TaskRun) (s : State) : List (Nat × Bool) :=
  (List.range (nOf w)).flatMap (fun k => (source s c r 0 (w.sa.toNat + k)).zipIdx.map (fun p =>
    let d := drawOfTask s r
    ((narrow (fld w.ctl 4 4) (w.ctl.getLsbD 10)
      (rndAt (fld w.ctl 8 2) d (laneIndex r d.at_ (drawShape r) (tagOf s c (w.sa.toNat + k) r) p.2)) (of32 p.1.val)).pat,
      p.1.valid)))

/-- PACK puts its elements into D, n to a lane, and adds flags. -/
theorem vecPack_eq (w : VWord) (c : Nat) (r : TaskRun) (s : State) : ∃ f, vecPack w c r s =
    addFlags c f (putReg c w.d.toNat (tagOf s c w.sa.toNat r)
      ((pieces (nOf w) (packElems w c r s)).map (packLane (32 / nOf w))) s) := by
  simp only [vecPack, List.map_flatMap, List.map_map, rndAt_add, ncNonfin_packed]
  exact ⟨_, rfl⟩

/-- The widened elements of UNPK, each valid where its lane is (05 R145). -/
def unpkLanes (w : VWord) (c : Nat) (r : TaskRun) (s : State) : List Lane :=
  (source s c r 0 w.sa.toNat).flatMap (fun a => (List.range (nOf w)).map (fun j =>
    ⟨(widenElem (fld w.ctl 4 4) (a.val.toNat / 2 ^ (32 / nOf w * j) % 2 ^ (32 / nOf w))).1, a.valid⟩))

theorem length_unpkLanes (full : (source s c r 0 w.sa.toNat).length = 1024) : (unpkLanes w c r s).length = 1024 * nOf w := by
  simp only [unpkLanes, List.length_flatMap, List.length_map, List.length_range, List.map_const', List.sum_replicate_nat, full]

/-- UNPK puts its elements into the registers from D on, 1,024 to each, and adds flags. -/
theorem vecUnpk_eq (w : VWord) (c : Nat) (r : TaskRun) (s : State) : ∃ f, vecUnpk w c r s =
    addFlags c f (forEach ((pieces 1024 (unpkLanes w c r s)).zipIdx 0)
      (fun p => putReg c (w.d.toNat + p.2) (tagOf s c w.sa.toNat r) p.1) s) := by
  simp only [vecUnpk, List.map_flatMap, List.map_map]
  exact ⟨_, rfl⟩

theorem vreg_vecUnpk (full : (source s c r 0 w.sa.toNat).length = 1024) (q : Nat) : vreg (vecUnpk w c r s) c q =
    if w.d.toNat ≤ q ∧ q < w.d.toNat + nOf w then ((unpkLanes w c r s).drop (1024 * (q - w.d.toNat))).take 1024
    else vreg s c q := by
  obtain ⟨f, h⟩ := vecUnpk_eq w c r s
  rw [h, vreg_addFlags, vreg_putRegs, getElem?_pieces (by decide), length_unpkLanes full, Nat.add_zero]
  by_cases from_d : w.d.toNat ≤ q
  · by_cases below : q < w.d.toNat + nOf w
    · rw [if_pos from_d, if_pos (by omega), if_pos ⟨from_d, below⟩]
      rfl
    · rw [if_pos from_d, if_neg (by omega), if_neg (by omega)]
      rfl
  · rw [if_neg from_d, if_neg (by omega)]

end

/-- Settles O6: CVT, QNT and DQNT finish with their lanes; EXPB does so too, beside its event; PACK and UNPK put lists of
lanes into registers. -/
theorem vecConversionLanes : Obligations.VecConversionLanes := by
  unfold Obligations.VecConversionLanes
  refine ⟨fun core w s r => ⟨fun word ne issues => ?_, fun x word out => ⟨fun issues => ?_, fun issues => ?_⟩,
    fun word rounding fits issues => ?_, fun word fits full issues => ?_⟩, ?_⟩
  · have low : ctlNat w 0 2 = w.ctl.toNat := ctlNat_low (by decide) word
    have admitted : (ctlIn w 3 && ctlNat w 0 2 != 3) = true := by
      rw [low]
      exact Bool.and_eq_true_iff.mpr ⟨word, bne_iff_ne.mpr (fun h => ne (BitVec.eq_of_toNat_eq h))⟩
    refine completes_issue rfl issues admitted ?_
    simp only [vecCvt, low]
    exact givesLanes_finishOp w _ (running_of_issuing issues)
  · refine completes_issue rfl issues word ?_
    obtain ⟨here, mem, rooms, others⟩ := vecExpb_writes (c := core.val) (ctlNat_low (by decide) word) out
    refine ⟨?_, mem, rooms, fun q hq => (vreg_setTask ..).trans (others q hq)⟩
    rw [vreg_setTask, here, expbLanes, List.map_map]
    rfl
  · have low : ctlNat w 0 3 = w.ctl.toNat := ctlNat_low (by decide) word
    refine completes_issue rfl issues word ?_
    simp only [vecQnt, low, out]
    exact givesLanes_finishOp w _ (running_of_issuing issues)
  · have admitted : (ctlIn w 0x7FF && ctlNat w 8 2 != 3 && packLegal w (ra w)) = true :=
      Bool.and_eq_true_iff.mpr ⟨Bool.and_eq_true_iff.mpr ⟨word, bne_iff_ne.mpr rounding⟩, fits⟩
    refine completes_issue rfl issues admitted ?_
    obtain ⟨f, h⟩ := vecPack_eq w core.val r s
    rw [h]
    refine ⟨onlyCore_trans (putReg_onlyCore ..) (onlyCore_trans (addFlags_onlyCore ..) (setTask_onlyCore ..)), ?_, fun q hq => ?_⟩
    · rw [vreg_setTask, vreg_addFlags, vreg_putReg, if_pos rfl]
      rfl
    · rw [vreg_setTask, vreg_addFlags, vreg_putReg, if_neg hq]
  · refine completes_issue rfl issues (Bool.and_eq_true_iff.mpr ⟨word, fits⟩) ?_
    refine ⟨?_, fun k hk => ?_, fun q hq => ?_⟩
    · obtain ⟨f, h⟩ := vecUnpk_eq w core.val r s
      rw [h]
      exact onlyCore_trans (putRegs_onlyCore ..) (onlyCore_trans (addFlags_onlyCore ..) (setTask_onlyCore ..))
    · rw [vreg_setTask, vreg_vecUnpk full, if_pos (by omega), Nat.add_sub_cancel_left]
      rfl
    · rw [vreg_setTask, vreg_vecUnpk full, if_neg (by omega)]
  · refine laneOp3_of_map3 (fun _ _ _ => rfl) (fun w legal => ?_)
    obtain ⟨word, le⟩ := Bool.and_eq_true_iff.mp legal
    have low : ctlNat w 0 4 = w.ctl.toNat := ctlNat_low (by decide) word
    rw [low]
    exact ⟨legal, rfl⟩

end Sys2Proof.Vector
end

section
/-! PROOFS. A task that its core's engines end by themselves: the stall budget run out, and a parity error in an accumulator
(04 R102, R112, R115). -/

namespace Sys2Proof.Matrix

open Sys2Proof.Machine Sys2Proof.Safety Sys2Proof.Laws

/-- An event changes no core. -/
theorem coreAt_raise (code plane die : Nat) (args : List (Nat × Nat)) (s : State) (k : Nat) :
    coreAt (raise code plane die args s) k = coreAt s k := Towers.coreAt_of_cores (raise_cores s) k

section
variable {c : Nat} {s : State} {r : TaskRun}

/-- The running task gets the code where no cause stands, and keeps the cause that stands (04 R115). -/
theorem coreAt_failTask (running : (coreAt s c).running = some r) (code : Nat) :
    coreAt (failTask c code s) c = { coreAt s c with running := some { r with ended := some (r.ended.getD code) } } :=
  Towers.coreAt_setRun (fun t => { t with ended := some (t.ended.getD code) }) running

/-! ### The stall budget -/

/-- A task that has made no progress for its stall budget. -/
def stalledRun (eng : BitVec 2) (t : TaskRun) : TaskRun := { t with ended := some ccStall, stallEng := eng }

theorem stallBudgetExpiry_of_going (runs : initiatorRuns s c = true) (running : (coreAt s c).running = some r)
    (going : r.ended = none) (eng : BitVec 2) : stallBudgetExpiry c eng s =
      raise 0x2201 data (coreDie c) [a4 (dTask r.desc), a2 c, a2 eng.toNat] (setRun c true (stalledRun eng) s) := by
  have unguarded : (r.ended.isSome || !initiatorRuns s c) = false := by rw [going, runs]; rfl
  unfold stallBudgetExpiry
  rw [running]
  dsimp only
  rw [unguarded]
  rfl

/-! ### The accumulator banks -/

/-- A core one of whose accumulator banks has been cleared, with what the banks held for a later task (04 R102). -/
def bankCleared (bank : Fin 2) (k : Core) : Core :=
  { k with held := none, banks := tdel k.banks bank.val, cleared := some bank }

theorem coreAt_bankCleared (bank : Fin 2) : coreAt (setCore c (bankCleared bank) s) c = bankCleared bank (coreAt s c) :=
  (coreAt_setCore ..).trans (if_pos rfl)

/-- The core after a parity error: the bank is cleared, and the running task has a cause to end. -/
theorem coreAt_failTask_bankCleared (running : (coreAt s c).running = some r) (bank : Fin 2) :
    coreAt (failTask c ccMem (setCore c (bankCleared bank) s)) c =
      { bankCleared bank (coreAt s c) with running := some { r with ended := some (r.ended.getD ccMem) } } := by
  have cleared := coreAt_bankCleared (c := c) (s := s) bank
  rw [coreAt_failTask ((congrArg Core.running cleared).trans running), cleared]

theorem accumulatorParityError_of_running (runs : initiatorRuns s c = true) (running : (coreAt s c).running = some r)
    (bank : Fin 2) : accumulatorParityError c bank s =
      raise 0x2203 data (coreDie c) [a4 (dTask r.desc), a2 c, a2 bank.val]
        (failTask c ccMem (setCore c (bankCleared bank) s)) := by
  have task : (((coreAt (failTask c ccMem (setCore c (bankCleared bank) s)) c).running.map (fun t => dTask t.desc)).getD 0) =
      dTask r.desc := by rw [coreAt_failTask_bankCleared running]; rfl
  unfold accumulatorParityError
  rw [running]
  dsimp only
  rw [runs, ← task]
  rfl

end

/-- Settles O24: each of the two is an update of the one core, followed by the event, which changes no core. -/
theorem stallAndAccumulatorErrors : Obligations.StallAndAccumulatorErrors := by
  unfold Obligations.StallAndAccumulatorErrors
  intro c s r runs running
  refine ⟨fun eng going => ⟨_, congrArg Host.Outcome.next (stallBudgetExpiry_of_going runs running going eng), ?_⟩,
    fun bank => ⟨_, congrArg Host.Outcome.next (accumulatorParityError_of_running runs running bank), ?_⟩⟩
  · refine ⟨raise_onlyEvent .., fun k hk => ?_, Towers.coreAt_setRun (stalledRun eng) running⟩
    exact (coreAt_raise ..).trans ((Towers.setCore_onlyCore ..).2 k hk)
  · refine ⟨raise_onlyEvent .., fun k hk => ?_, coreAt_failTask_bankCleared running bank⟩
    exact (coreAt_raise ..).trans (((Towers.setCore_onlyCore ..).2 k hk).trans ((Towers.setCore_onlyCore ..).2 k hk))

end Sys2Proof.Matrix
end

section
/-! PROOFS. The instruction word of the vector engine: what its fields hold, and that encoding and decoding are inverse to
each other (05 R139, Table 5-4). -/

namespace Sys2Proof.Vector

open Sys2Proof.Machine Sys2Proof.Safety Sys2Proof.Laws

/-- The operand fields of a word, as the decoder reads them. -/
def operandsOf (w : W64) : VWord := {
  type := w.extractLsb' 54 2, d := w.extractLsb' 49 5, sa := w.extractLsb' 44 5, sb := w.extractLsb' 39 5,
  sc := w.extractLsb' 34 5, aux := w.extractLsb' 31 3, ctl := w.extractLsb' 0 16 }

/-- Each field of Table 5-4 holds its part of the command, and the reserved bits are 0. -/
theorem fields_vecWordOf (op : Byte) (v : VWord) :
    bits (vecWordOf op v) 56 8 = op ∧ bits (vecWordOf op v) 54 2 = v.type ∧ bits (vecWordOf op v) 49 5 = v.d ∧
    bits (vecWordOf op v) 44 5 = v.sa ∧ bits (vecWordOf op v) 39 5 = v.sb ∧ bits (vecWordOf op v) 34 5 = v.sc ∧
    bits (vecWordOf op v) 31 3 = v.aux ∧ bits (vecWordOf op v) 16 15 = 0 ∧ bits (vecWordOf op v) 0 16 = v.ctl := by
  unfold vecWordOf bits
  simp +decide only [BitVec.extractLsb'_append_eq_of_le, BitVec.extractLsb'_append_eq_of_add_le, Nat.reduceSub,
    BitVec.extractLsb'_eq_self, and_self]

/-- A word with no reserved bit set is made of its fields. -/
theorem vecWordOf_fields {w : W64} (zero : w.extractLsb' 16 15 = 0) :
    vecWordOf (w.extractLsb' 56 8) (operandsOf w) = w := by
  unfold vecWordOf operandsOf
  rw [← zero]
  simp +decide only [BitVec.extractLsb'_append_extractLsb'_eq_extractLsb', BitVec.extractLsb'_eq_self]

/-- What a command is decoded from, read from its word. -/
theorem operandsOf_vecWordOf (op : Byte) (v : VWord) : operandsOf (vecWordOf op v) = v := by
  obtain ⟨-, type, d, sa, sb, sc, aux, -, ctl⟩ := fields_vecWordOf op v
  unfold bits at *
  rw [operandsOf, type, d, sa, sb, sc, aux, ctl]

/-- The OP of a command that a word spells is that word's OP field, its operands are the word's fields, and no reserved bit is
set. -/
theorem vecParts_of_decodeVec {c : Fin 384} {w : W64} {i : Instr} (h : decodeVec c w = some i) :
    w.extractLsb' 16 15 = 0 ∧ vecParts i = some (c, w.extractLsb' 56 8, operandsOf w) := by
  have op {k : Nat} (hk : (w.extractLsb' 56 8).toNat = k) : w.extractLsb' 56 8 = BitVec.ofNat 8 k := by
    rw [← hk, BitVec.ofNat_toNat, BitVec.setWidth_eq]
  unfold decodeVec at h
  dsimp only at h
  split at h
  · cases h
  · refine ⟨Decidable.not_not.mp ‹_›, ?_⟩
    split at h <;> cases h
    all_goals rw [op ‹_›]; rfl

/-- A word whose operation is that of a command decodes to the command. -/
theorem decodeVec_vecWordOf {i : Instr} {c : Fin 384} {op : Byte} {v : VWord} (h : vecParts i = some (c, op, v)) :
    decodeVec c (vecWordOf op v) = some i := by
  obtain ⟨opField, -, -, -, -, -, -, zero, -⟩ := fields_vecWordOf op v
  have operands := operandsOf_vecWordOf op v
  unfold bits at opField zero
  unfold operandsOf at operands
  unfold decodeVec
  rw [operands, opField, zero]
  cases i <;> cases h <;> rfl

/-- The core of a command that has a word. -/
theorem vecCore_of_vecParts {i : Instr} {c : Fin 384} {op : Byte} {v : VWord} (h : vecParts i = some (c, op, v)) :
    vecCore i = some c := by
  cases i <;> cases h <;> rfl

/-- Settles O59: the decoder reads back the fields that the encoder lays side by side, and a word that it accepts is made of
its fields. -/
theorem vectorWordEncoding : Obligations.VectorWordEncoding := by
  unfold Obligations.VectorWordEncoding
  refine ⟨fun i c op v parts => ?_, fun c w i decoded => ?_, fun c w reserved => ?_⟩
  · refine ⟨vecWordOf op v, ?_, decodeVec_vecWordOf parts, fields_vecWordOf op v⟩
    rw [encodeVec, parts]
    rfl
  · obtain ⟨zero, parts⟩ := vecParts_of_decodeVec decoded
    refine ⟨?_, vecCore_of_vecParts parts⟩
    rw [encodeVec, parts, Option.map_some, vecWordOf_fields zero]
  · cases h : decodeVec c w with
    | none => rfl
    | some i => exact absurd (vecParts_of_decodeVec h).1 reserved

end Sys2Proof.Vector
end

section
/-! PROOFS. Arithmetic, functions and reordering, lane by lane (05 R129, R141 to R144). -/

namespace Sys2Proof.Vector

open Sys2Proof.Machine Sys2Proof.Safety Sys2Proof.Laws

/-! ### Words that plan load admits -/

/-- A word with CTL 0 outside a mask and TYPE FP32 is admitted. -/
theorem anyWord_of_fp32Word {mask : W16} {w : VWord} (h : fp32Word mask w = true) : anyWord mask w = true ∧ w.type = 0 := by
  obtain ⟨low, type⟩ := Bool.and_eq_true_iff.mp h
  rw [beq_iff_eq] at type
  exact ⟨Bool.and_eq_true_iff.mpr ⟨low, by rw [type]; rfl⟩, type⟩

theorem anyWord_of_bf16Word {mask : W16} {w : VWord} (h : bf16Word mask w = true) : anyWord mask w = true ∧ w.type = 1 := by
  obtain ⟨low, type⟩ := Bool.and_eq_true_iff.mp h
  rw [beq_iff_eq] at type
  exact ⟨Bool.and_eq_true_iff.mpr ⟨low, by rw [type]; rfl⟩, type⟩

/-! ### Results in the word's TYPE -/

section
variable {w : VWord}

theorem typed_of_fp32 (type : w.type = 0) (op : Nat) (ops : List W32) (v : Val) : typed w op ops v = v := by
  rw [typed, type]
  rfl

theorem typed_of_bf16 (type : w.type = 1) (op : Nat) (ops : List W32) (v : Val) : typed w op ops v = toBf16 v := by
  rw [typed, type]
  rfl

theorem typedOr_of_fp32 (type : w.type = 0) (int v : Val) : typedOr w int v = v := by
  rw [typedOr, type]
  rfl

theorem typedOr_of_bf16 (type : w.type = 1) (int v : Val) : typedOr w int v = toBf16 v := by
  rw [typedOr, type]
  rfl

end

/-! ### Operations of one, two and three sources -/

/-- A meaning that is `map1` of `f` on every legal word is the lane-by-lane operation of `f`. -/
theorem laneOp1_of_map1 {mk : Fin 384 → VWord → Instr} {op : Nat} {legal guard : VWord → Bool} {f : VWord → W32 → Val}
    {meaning : VWord → Nat → TaskRun → State → State}
    (arm : ∀ core w s, exec (mk core w) s = .next (issue core op w (guard w) (meaning w) s))
    (same : ∀ w, legal w = true → guard w = true ∧ meaning w = map1 (f w) w) : LaneOp1 mk op legal f := by
  intro core w s r issues admitted
  obtain ⟨passes, lanes⟩ := same w admitted
  refine completes_issue (arm core w s) issues passes ?_
  rw [lanes]
  exact givesLanes_finishOp w _ (running_of_issuing issues)

/-- The same of two sources. -/
theorem laneOp2_of_map2 {mk : Fin 384 → VWord → Instr} {op : Nat} {legal guard : VWord → Bool} {f : VWord → W32 → W32 → Val}
    {meaning : VWord → Nat → TaskRun → State → State}
    (arm : ∀ core w s, exec (mk core w) s = .next (issue core op w (guard w) (meaning w) s))
    (same : ∀ w, legal w = true → guard w = true ∧ meaning w = map2 (f w) w) : LaneOp2 mk op legal f := by
  intro core w s r issues admitted
  obtain ⟨passes, lanes⟩ := same w admitted
  refine completes_issue (arm core w s) issues passes ?_
  rw [lanes]
  exact givesLanes_finishOp w _ (running_of_issuing issues)

section
variable {mk : Fin 384 → VWord → Instr} {op : Nat} {mask : W16}

/-- An operation whose result is rounded into the word's TYPE gives it as it stands under FP32, and rounded under BF16. -/
theorem laneOp1_typed {f : W32 → Val}
    (arm : ∀ core w s, exec (mk core w) s = .next (issue core op w (ctlIn w mask) (map1 (fun a => typed w op [a] (f a)) w) s)) :
    LaneOp1 mk op (fp32Word mask) (fun _ => f) ∧ LaneOp1 mk op (bf16Word mask) (fun _ a => toBf16 (f a)) := by
  refine ⟨laneOp1_of_map1 arm (fun w word => ?_), laneOp1_of_map1 arm (fun w word => ?_)⟩
  · obtain ⟨admitted, type⟩ := anyWord_of_fp32Word word
    exact ⟨admitted, congrArg (map1 · w) (funext fun a => typed_of_fp32 type ..)⟩
  · obtain ⟨admitted, type⟩ := anyWord_of_bf16Word word
    exact ⟨admitted, congrArg (map1 · w) (funext fun a => typed_of_bf16 type ..)⟩

theorem laneOp2_typed {f : W32 → W32 → Val}
    (arm : ∀ core w s, exec (mk core w) s =
      .next (issue core op w (ctlIn w mask) (map2 (fun a b => typed w op [a, b] (f a b)) w) s)) :
    LaneOp2 mk op (fp32Word mask) (fun _ => f) ∧ LaneOp2 mk op (bf16Word mask) (fun _ a b => toBf16 (f a b)) := by
  refine ⟨laneOp2_of_map2 arm (fun w word => ?_), laneOp2_of_map2 arm (fun w word => ?_)⟩
  · obtain ⟨admitted, type⟩ := anyWord_of_fp32Word word
    exact ⟨admitted, congrArg (map2 · w) (funext fun a => funext fun b => typed_of_fp32 type ..)⟩
  · obtain ⟨admitted, type⟩ := anyWord_of_bf16Word word
    exact ⟨admitted, congrArg (map2 · w) (funext fun a => funext fun b => typed_of_bf16 type ..)⟩

theorem laneOp3_typed {f : W32 → W32 → W32 → Val}
    (arm : ∀ core w s, exec (mk core w) s =
      .next (issue core op w (ctlIn w mask) (map3 (fun a b c => typed w op [a, b, c] (f a b c)) w) s)) :
    LaneOp3 mk op (fp32Word mask) (fun _ => f) ∧ LaneOp3 mk op (bf16Word mask) (fun _ a b c => toBf16 (f a b c)) := by
  refine ⟨laneOp3_of_map3 arm (fun w word => ?_), laneOp3_of_map3 arm (fun w word => ?_)⟩
  · obtain ⟨admitted, type⟩ := anyWord_of_fp32Word word
    exact ⟨admitted, funext fun a => funext fun b => funext fun c => typed_of_fp32 type ..⟩
  · obtain ⟨admitted, type⟩ := anyWord_of_bf16Word word
    exact ⟨admitted, funext fun a => funext fun b => funext fun c => typed_of_bf16 type ..⟩

/-- The same of an operation that has a result for INT32 lanes of its own. -/
theorem laneOp2_typedOr {f g int : VWord → W32 → W32 → Val}
    (arm : ∀ core w s, exec (mk core w) s =
      .next (issue core op w (ctlIn w mask) (map2 (fun a b => typedOr w (int w a b) (g w a b)) w) s))
    (same : ∀ w, anyWord mask w = true → g w = f w) :
    LaneOp2 mk op (fp32Word mask) f ∧ LaneOp2 mk op (bf16Word mask) (fun w a b => toBf16 (f w a b)) := by
  refine ⟨laneOp2_of_map2 arm (fun w word => ?_), laneOp2_of_map2 arm (fun w word => ?_)⟩
  · obtain ⟨admitted, type⟩ := anyWord_of_fp32Word word
    rw [← same w admitted]
    exact ⟨admitted, congrArg (map2 · w) (funext fun a => funext fun b => typedOr_of_fp32 type ..)⟩
  · obtain ⟨admitted, type⟩ := anyWord_of_bf16Word word
    rw [← same w admitted]
    exact ⟨admitted, congrArg (map2 · w) (funext fun a => funext fun b => typedOr_of_bf16 type ..)⟩

end

/-! ### Shifts and logic (05 Table 5-5) -/

/-- CTL 0 above its `n` low bits is read by its field of these bits. -/
theorem ctlNat_beq {w : VWord} {n k : Nat} (le : n ≤ 16) (word : anyWord (BitVec.ofNat 16 (2 ^ n - 1)) w = true)
    (lt : k < 65536) : (ctlNat w 0 n == k) = decide (w.ctl = BitVec.ofNat 16 k) := by
  rw [ctlNat_low le word, Bool.eq_iff_iff]
  simp only [beq_iff_eq, decide_eq_true_eq]
  bv_omega

/-- The four values of a CTL of two bits. -/
theorem ctl_of_two_bits {w : VWord} (word : anyWord 3 w = true) : w.ctl = 0 ∨ w.ctl = 1 ∨ w.ctl = 2 ∨ w.ctl = 3 := by
  have low : ctlNat w 0 2 = w.ctl.toNat := ctlNat_low (by decide) word
  have lt : ctlNat w 0 2 < 4 := Nat.mod_lt _ (by decide)
  bv_omega

theorem shiftOp_of_ctl {w : VWord} (word : anyWord 3 w = true) (ne : w.ctl ≠ 3) : shiftOp (ctlNat w 0 2) = fun a b =>
    (if 32 ≤ b.toNat then Config.vecFree 0x22 [w.ctl.setWidth 32, a, b]
     else if w.ctl = 0 then a <<< b.toNat else if w.ctl = 1 then a >>> b.toNat else a.sshiftRight b.toNat, 0) := by
  have low : ctlNat w 0 2 = w.ctl.toNat := ctlNat_low (by decide) word
  funext a b
  unfold shiftOp
  rw [low, BitVec.ofNat_toNat]
  split
  · rfl
  · rcases ctl_of_two_bits word with h | h | h | h
    · rw [h]; rfl
    · rw [h]; rfl
    · rw [h]; rfl
    · exact absurd h ne

/-- LOGIC of two sources. -/
theorem logicOp_of_ctl {w : VWord} (word : anyWord 3 w = true) (ne : w.ctl ≠ 3) : logicOp (ctlNat w 0 2) = fun a b =>
    (if w.ctl = 0 then a &&& b else if w.ctl = 1 then a ||| b else a ^^^ b, 0) := by
  have low : ctlNat w 0 2 = w.ctl.toNat := ctlNat_low (by decide) word
  funext a b
  rw [low]
  rcases ctl_of_two_bits word with h | h | h | h
  · rw [h]; rfl
  · rw [h]; rfl
  · rw [h]; rfl
  · exact absurd h ne

theorem vecLogic_of_not {w : VWord} (word : anyWord 3 w = true) (ctl : w.ctl = 3) :
    vecLogic w = map1 (fun a => (~~~a, 0)) w := by
  funext c r s
  have low : ctlNat w 0 2 = w.ctl.toNat := ctlNat_low (by decide) word
  rw [vecLogic, low, ctl]
  rfl

theorem vecLogic_of_ctl {w : VWord} (word : anyWord 3 w = true) (ne : w.ctl ≠ 3) :
    vecLogic w = map2 (logicOp (ctlNat w 0 2)) w := by
  funext c r s
  have two : (ctlNat w 0 2 == 3) = false :=
    (ctlNat_beq (n := 2) (k := 3) (by decide) word (by decide)).trans (decide_eq_false ne)
  rw [vecLogic, two]
  rfl

/-! ### MAX, MIN and CMP -/

theorem laneOp2_max : LaneOp2 .vecMax 0x05 (fp32Word 0) (fun _ => fmax) ∧
    LaneOp2 .vecMax 0x05 (bf16Word 0) (fun _ a b => toBf16 (fmax a b)) :=
  laneOp2_typedOr (fun _ _ _ => rfl) (fun _ _ => rfl)

theorem laneOp2_min : LaneOp2 .vecMin 0x06 (fp32Word 0) (fun _ => fmin) ∧
    LaneOp2 .vecMin 0x06 (bf16Word 0) (fun _ a b => toBf16 (fmin a b)) :=
  laneOp2_typedOr (fun _ _ _ => rfl) (fun _ _ => rfl)

theorem laneOp2_cmp : LaneOp2 .vecCmp 0x08 (fp32Word 3) (fun w => fcmp w.ctl.toNat) ∧
    LaneOp2 .vecCmp 0x08 (bf16Word 3) (fun w a b => toBf16 (fcmp w.ctl.toNat a b)) :=
  laneOp2_typedOr (fun _ _ _ => rfl) (fun w word => congrArg fcmp (ctlNat_low (n := 2) (by decide) word))

/-- Settles O1: the floating operations round into the word's TYPE, the integer ones give their result under every TYPE. -/
theorem vecArithmeticLaneByLane : Obligations.VecArithmeticLaneByLane := by
  unfold Obligations.VecArithmeticLaneByLane
  obtain ⟨add, addBf⟩ := laneOp2_typed (mk := .vecAdd) (fun _ _ _ => rfl)
  obtain ⟨sub, subBf⟩ := laneOp2_typed (mk := .vecSub) (fun _ _ _ => rfl)
  obtain ⟨mul, mulBf⟩ := laneOp2_typed (mk := .vecMul) (fun _ _ _ => rfl)
  obtain ⟨fma, fmaBf⟩ := laneOp3_typed (mk := .vecFma) (fun _ _ _ => rfl)
  obtain ⟨div, divBf⟩ := laneOp2_typed (mk := .vecDiv) (fun _ _ _ => rfl)
  obtain ⟨sqrt, sqrtBf⟩ := laneOp1_typed (mk := .vecSqrt) (fun _ _ _ => rfl)
  refine ⟨add, addBf, sub, subBf, mul, mulBf, fma, fmaBf, div, divBf, sqrt, sqrtBf,
    laneOp2_of_map2 (fun _ _ _ => rfl) (fun _ word => ⟨word, rfl⟩),
    laneOp2_of_map2 (fun _ _ _ => rfl) (fun _ word => ⟨word, rfl⟩),
    laneOp2_of_map2 (fun _ _ _ => rfl) (fun w legal => ?_), laneOp2_of_map2 (fun _ _ _ => rfl) (fun w legal => ?_),
    laneOp1_of_map1 (fun _ _ _ => rfl) (fun w legal => ?_)⟩
  · obtain ⟨word, ne⟩ := Bool.and_eq_true_iff.mp legal
    have low : ctlNat w 0 2 = w.ctl.toNat := ctlNat_low (by decide) word
    rw [shiftOp_of_ctl word (bne_iff_ne.mp ne), low]
    exact ⟨Bool.and_eq_true_iff.mpr ⟨word, bne_iff_ne.mpr (fun h => bne_iff_ne.mp ne (BitVec.eq_of_toNat_eq h))⟩, rfl⟩
  · obtain ⟨word, ne⟩ := Bool.and_eq_true_iff.mp legal
    rw [vecLogic_of_ctl word (bne_iff_ne.mp ne), logicOp_of_ctl word (bne_iff_ne.mp ne)]
    exact ⟨word, rfl⟩
  · obtain ⟨word, ctl⟩ := Bool.and_eq_true_iff.mp legal
    exact ⟨word, vecLogic_of_not word (beq_iff_eq.mp ctl)⟩

/-- Settles O3: each of the twelve is one function of its sources' lanes, rounded into the word's TYPE. -/
theorem vecFunctionLanes : Obligations.VecFunctionLanes := by
  unfold Obligations.VecFunctionLanes
  obtain ⟨rcp, rcpBf⟩ := laneOp1_typed (mk := .vecRcp) (fun _ _ _ => rfl)
  obtain ⟨rsq, rsqBf⟩ := laneOp1_typed (mk := .vecRsq) (fun _ _ _ => rfl)
  obtain ⟨exp, expBf⟩ := laneOp1_typed (mk := .vecExp) (fun _ _ _ => rfl)
  obtain ⟨exp2, exp2Bf⟩ := laneOp1_typed (mk := .vecExp2) (fun _ _ _ => rfl)
  obtain ⟨log2, log2Bf⟩ := laneOp1_typed (mk := .vecLog2) (fun _ _ _ => rfl)
  obtain ⟨tanh, tanhBf⟩ := laneOp1_typed (mk := .vecTanh) (fun _ _ _ => rfl)
  obtain ⟨sig, sigBf⟩ := laneOp1_typed (mk := .vecSig) (fun _ _ _ => rfl)
  refine ⟨rcp, rsq, exp, exp2, log2, tanh, sig, rcpBf, rsqBf, expBf, exp2Bf, log2Bf, tanhBf, sigBf, ?_,
    laneOp2_max.1, laneOp2_min.1, laneOp2_cmp.1, ?_⟩
  · refine laneOp1_of_map1 (fun _ _ _ => rfl) (fun w word => ?_)
    obtain ⟨admitted, type⟩ := anyWord_of_fp32Word word
    exact ⟨admitted, congrArg (map1 · w) (funext fun a => typedOr_of_fp32 type ..)⟩
  · refine laneOp1_of_map1 (fun _ _ _ => rfl) (fun w legal => ?_)
    obtain ⟨word, le⟩ := Bool.and_eq_true_iff.mp legal
    rw [show ctlNat w 0 4 = w.ctl.toNat from ctlNat_low (by decide) word]
    exact ⟨legal, rfl⟩

end Sys2Proof.Vector
end

section
/-! PROOFS. NaN and signed zeros in comparisons, and the instructions that select, mark and reorder lanes (05 R142 to
R144). -/

namespace Sys2Proof.Vector

open Sys2Proof.Machine Sys2Proof.Safety Sys2Proof.Laws

/-! ### NaN and signed zeros (05 R142) -/

/-- The value in lane `l` of D after a lane-by-lane operation of two sources. -/
theorem completes_lane {mk : Fin 384 → VWord → Instr} {op : Nat} {legal : VWord → Bool} {f : VWord → W32 → W32 → Val}
    (lanes : LaneOp2 mk op legal f) {core : Fin 384} {w : VWord} {s : State} {r : TaskRun} {P : Lane → Lane → Lane → Prop}
    (issues : issuing s core.val op w = some r) (admitted : legal w = true)
    (value : ∀ a b d : Lane, d.val = (f w a.val b.val).1 → P a b d) :
    Completes (mk core w) s (fun t => ∀ (l : Nat) (a b d : Lane), (source s core.val r 0 w.sa.toNat)[l]? = some a →
      (source s core.val r 1 w.sb.toNat)[l]? = some b → (vreg t core.val w.d.toNat)[l]? = some d → P a b d) := by
  obtain ⟨t, done, given, -⟩ := lanes core w s r issues admitted
  refine ⟨t, done, fun l a b d ha hb hd => value a b d ?_⟩
  rw [given, List.map_map, List.getElem?_map, (List.getElem?_zip_eq_some (z := (a, b))).mpr ⟨ha, hb⟩] at hd
  cases hd
  rfl

theorem of32_of_isNan32 {a : W32} (nan : isNan32 a) : of32 a = .nan := by
  have low : (a &&& 0x7FFFFFFF).toNat = a.toNat % 2 ^ 31 := by
    rw [BitVec.toNat_and]
    exact Nat.and_two_pow_sub_one_eq_mod a.toNat 31
  rw [isNan32, low] at nan
  have exponent : a.toNat / 8388608 % 256 = 255 := by omega
  have mantissa : a.toNat % 8388608 ≠ 0 := by omega
  simp [of32, decodeF, f32, exponent, mantissa]

/-- The value of a rounding to BF16 does not depend on the flags. -/
theorem toBf16_val (x : W32) (f : Flags) : (toBf16 (x, f)).1 = (toBf16 (x, 0)).1 := by
  unfold toBf16
  dsimp only
  split
  · split <;> rfl
  · rfl

/-- A value that BF16 holds is its own rounding to BF16. -/
theorem toBf16_of_exact {x : W32} (holds : x ∈ [nan32, 0, 0x80000000, one32]) (f : Flags) : (toBf16 (x, f)).1 = x := by
  rw [toBf16_val]
  simp only [List.mem_cons, List.not_mem_nil, or_false] at holds
  rcases holds with rfl | rfl | rfl | rfl
  · rfl
  · decide
  · decide
  · decide

section
variable {a b : W32}

theorem fmax_of_nan (nan : isNan32 a ∨ isNan32 b) : (fmax a b).1 = nan32 := by
  rcases nan with h | h
  · simp only [fmax, of32_of_isNan32 h]
  · cases x : of32 a <;> simp only [fmax, of32_of_isNan32 h, x]

theorem fmin_of_nan (nan : isNan32 a ∨ isNan32 b) : (fmin a b).1 = nan32 := by
  rcases nan with h | h
  · simp only [fmin, of32_of_isNan32 h]
  · cases x : of32 a <;> simp only [fmin, of32_of_isNan32 h, x]

theorem fmax_of_zeros (zeros : a = 0 ∧ b = 0x80000000 ∨ a = 0x80000000 ∧ b = 0) : (fmax a b).1 = 0 := by
  rcases zeros with ⟨rfl, rfl⟩ | ⟨rfl, rfl⟩ <;> rfl

theorem fmin_of_zeros (zeros : a = 0 ∧ b = 0x80000000 ∨ a = 0x80000000 ∧ b = 0) : (fmin a b).1 = 0x80000000 := by
  rcases zeros with ⟨rfl, rfl⟩ | ⟨rfl, rfl⟩ <;> rfl

/-- A NaN is not less than, equal to or at most anything, and unequal to everything. -/
theorem fcmp_of_nan (nan : isNan32 a ∨ isNan32 b) {rel : Nat} (le : rel ≤ 3) :
    (fcmp rel a b).1 = if rel = 3 then one32 else 0 := by
  have unordered : ltN (of32 a) (of32 b) = false ∧ eqN (of32 a) (of32 b) = false := by
    rcases nan with h | h
    · rw [of32_of_isNan32 h]
      exact ⟨rfl, rfl⟩
    · rw [of32_of_isNan32 h]
      cases of32 a <;> exact ⟨rfl, rfl⟩
  obtain ⟨lt, eq⟩ := unordered
  simp only [fcmp, lt, eq]
  match rel, le with
  | 0, _ => rfl
  | 1, _ => rfl
  | 2, _ => rfl
  | 3, _ => rfl

end

/-- A result as it stands, or rounded on to BF16. -/
def InType (v : Val) (x : W32) : Prop := x = v.1 ∨ x = (toBf16 v).1

theorem inType_exact {v : Val} {x y : W32} (h : InType v x) (eq : v.1 = y) (holds : y ∈ [nan32, 0, 0x80000000, one32]) :
    x = y := by
  rcases h with h | h
  · exact h.trans eq
  · rw [h, ← eq]
    rw [← eq] at holds
    exact toBf16_of_exact holds v.2

/-- The value in lane `l` of D, under TYPE FP32 or BF16. -/
theorem completes_lane_inType {mk : Fin 384 → VWord → Instr} {op : Nat} {mask : W16} {f : VWord → W32 → W32 → Val}
    (lanes : LaneOp2 mk op (fp32Word mask) f ∧ LaneOp2 mk op (bf16Word mask) (fun w a b => toBf16 (f w a b)))
    {core : Fin 384} {w : VWord} {s : State} {r : TaskRun} {P : Lane → Lane → Lane → Prop}
    (issues : issuing s core.val op w = some r) (word : fp32Word mask w = true ∨ bf16Word mask w = true)
    (value : ∀ a b d : Lane, InType (f w a.val b.val) d.val → P a b d) :
    Completes (mk core w) s (fun t => ∀ (l : Nat) (a b d : Lane), (source s core.val r 0 w.sa.toNat)[l]? = some a →
      (source s core.val r 1 w.sb.toNat)[l]? = some b → (vreg t core.val w.d.toNat)[l]? = some d → P a b d) := by
  obtain ⟨fp32, bf16⟩ := lanes
  rcases word with word | word
  · exact completes_lane fp32 issues word (fun a b d h => value a b d (.inl h))
  · exact completes_lane bf16 issues word (fun a b d h => value a b d (.inr h))

/-- A word with CTL 0 has CTL 0 outside any mask. -/
theorem word_of_ctl_zero {w : VWord} {mask : W16} (word : fp32Word mask w = true ∨ bf16Word mask w = true) (zero : w.ctl = 0) :
    fp32Word 0 w = true ∨ bf16Word 0 w = true := by
  unfold fp32Word bf16Word at *
  rw [zero] at word ⊢
  simpa only [BitVec.zero_and, BitVec.ofNat_eq_ofNat] using word

/-- Settles O2: a NaN or two zeros give values that BF16 holds, so that the order of FP32 is seen under both TYPEs. -/
theorem vecMaxMinCmpOrder : Obligations.VecMaxMinCmpOrder := by
  unfold Obligations.VecMaxMinCmpOrder
  intro core w s r word
  refine ⟨fun zero issues => ?_, fun zero issues => ?_, fun issues => ?_⟩
  · refine completes_lane_inType laneOp2_max issues (word_of_ctl_zero word zero) (fun a b d h => ⟨fun nan => ?_, fun zeros => ?_⟩)
    · exact inType_exact h (fmax_of_nan nan) (by decide)
    · exact inType_exact h (fmax_of_zeros zeros) (by decide)
  · refine completes_lane_inType laneOp2_min issues (word_of_ctl_zero word zero) (fun a b d h => ⟨fun nan => ?_, fun zeros => ?_⟩)
    · exact inType_exact h (fmin_of_nan nan) (by decide)
    · exact inType_exact h (fmin_of_zeros zeros) (by decide)
  · refine completes_lane_inType laneOp2_cmp issues word (fun a b d h nan => ?_)
    have admitted : anyWord 3 w = true :=
      word.elim (fun h => (anyWord_of_fp32Word h).1) (fun h => (anyWord_of_bf16Word h).1)
    have le : w.ctl.toNat ≤ 3 := by
      have := ctl_of_two_bits admitted
      bv_omega
    have relation : w.ctl.toNat = 3 ↔ w.ctl = 3 := by bv_omega
    have value := fcmp_of_nan nan le
    simp only [relation] at value
    refine inType_exact h value ?_
    split <;> decide

/-! ### Selecting, masking and positions (05 R143, Table 5-5) -/

/-- A non-zero lane under TYPE FP32. -/
theorem nonZero_of_fp32 {w : VWord} (type : w.type = 0) (a : W32) : nonZero w a = !isZero (of32 a) := by
  rw [nonZero, type]
  rfl

section
variable {s : State} {r : TaskRun} {c : Nat}

/-- An instruction without flags that writes one register changes nothing else. -/
theorem onlyRegs_putReg (d tag : Nat) (ls : List Lane) (running : (coreAt s c).running = some r) :
    OnlyRegs c [d] (stepPast r) 0 s (setTask_ c stepPast (putReg c d tag ls s)) := by
  refine ⟨onlyCore_trans (putReg_onlyCore ..) (setTask_onlyCore ..), fun q hq => ?_, ?_⟩
  · rw [vreg_setTask, vreg_putReg, if_neg (fun h => hq (List.mem_singleton.mpr h))]
  · have same : (stepPast r).flags ||| 0 = r.flags := BitVec.or_zero
    rw [same]
    simp only [setTask_, putReg, coreAt_setCore, if_true, running]
    rfl

end

/-- Settles O4: NOP has no effect but its place; SEL, MASK and SHUF finish with their lanes, and POS fills its register. -/
theorem vecSelectMaskReorder : Obligations.VecSelectMaskReorder := by
  unfold Obligations.VecSelectMaskReorder
  intro core w s r
  refine ⟨fun idle => ?_, fun word => ⟨fun issues => ?_, fun issues => ?_, fun issues => ?_⟩, fun type fits issues => ?_,
    fun word issues => ?_⟩
  · refine ⟨_, rfl, ?_⟩
    unfold issue
    rw [idle]
  · exact completes_issue rfl issues (anyWord_of_fp32Word word).1 rfl
  · obtain ⟨admitted, type⟩ := anyWord_of_fp32Word word
    refine completes_issue rfl issues admitted ?_
    simp only [vecSel, nonZero_of_fp32 type, Bool.not_eq_true', ← Bool.not_eq_true, ite_not]
    exact givesLanes_finishOp w _ (running_of_issuing issues)
  · obtain ⟨admitted, type⟩ := anyWord_of_fp32Word word
    refine completes_issue rfl issues admitted ?_
    simp only [vecMask, nonZero_of_fp32 type]
    exact givesLanes_finishOp w _ (running_of_issuing issues)
  · refine completes_issue rfl issues (Bool.and_eq_true_iff.mpr ⟨bne_iff_ne.mpr type, fits⟩) ?_
    simp only [vecShuf, lanes1024, ← apply_ite List.toArray]
    exact givesLanes_finishOp w _ (running_of_issuing issues)
  · refine completes_issue rfl issues word ⟨onlyRegs_putReg _ _ _ (running_of_issuing issues), fun l hl => ?_⟩
    rw [vreg_setTask, vecPos, vreg_putReg, if_pos (show w.d.toNat = rdst w from rfl), List.getElem?_map, lanes1024,
      List.getElem?_range hl]
    simp only [ctlNat_beq (n := 1) (k := 0) (by decide) word (by decide), decide_eq_true_eq, Option.map_some]
    rfl

/-- A register of 1,024 lanes gives an index its lane modulo 1,024 (05 R144). -/
theorem laneAt_of_full {ls : List Lane} (full : ls.length = 1024) (i : Nat) : ls[i % 1024]? = some (laneAt ls.toArray i) := by
  have lt : i % 1024 < ls.length := by omega
  rw [laneAt, List.getElem?_eq_getElem lt, Array.getD_eq_getD_getElem?, List.getElem?_toArray, List.getElem?_eq_getElem lt]
  rfl

/-- PERM finishes with these lanes (05 R144). -/
def permLanes (w : VWord) (c : Nat) (r : TaskRun) (s : State) : List (Lane × Flags) :=
  (source s c r 1 w.sb.toNat).map (fun b =>
    let x := laneAt (source s c r 0 w.sa.toNat).toArray b.val.toNat
    (⟨x.val, x.valid && b.valid⟩, 0))

/-- Lanes that raise no flag add none. -/
theorem laneFlags_of_zero {rs : List (Lane × Flags)} (zero : ∀ p ∈ rs, p.2 = 0) : laneFlags rs = 0 := by
  unfold laneFlags
  induction rs with
  | nil => rfl
  | cons p rs ih =>
    have first : (if p.1.valid then (0 : Flags) ||| p.2 else 0) = 0 := by
      rw [zero p List.mem_cons_self]
      split <;> rfl
    rw [List.foldl_cons, first]
    exact ih (fun q hq => zero q (List.mem_cons_of_mem p hq))

/-- Settles O5: the index of a lane is reduced modulo the lanes of a register, so every index names a lane. -/
theorem vecPermTakesIndexedLane : Obligations.VecPermTakesIndexedLane := by
  unfold Obligations.VecPermTakesIndexedLane
  intro core w s r issues word full
  have silent : laneFlags (permLanes w core.val r s) = 0 := by
    refine laneFlags_of_zero (fun p hp => ?_)
    obtain ⟨b, -, rfl⟩ := List.mem_map.mp hp
    rfl
  obtain ⟨given, only⟩ := givesLanes_finishOp w (permLanes w core.val r s) (running_of_issuing issues)
  rw [silent] at only
  refine completes_issue rfl issues word ⟨only, fun l b a hb ha => ?_⟩
  rw [laneAt_of_full full] at ha
  cases ha
  refine (congrArg (·[l]?) given).trans ?_
  simp only [permLanes, List.getElem?_map, hb, Option.map_some]

end Sys2Proof.Vector
end

section
/-! PROOFS. Reductions over segments and columns, and the fused kernels of row statistics (05 R146 to R148). -/

namespace Sys2Proof.Vector

open Sys2Proof.Machine Sys2Proof.Safety Sys2Proof.Laws

/-! ### Lists of equal blocks -/

/-- A list whose elements are each repeated `n` times. -/
theorem getElem?_flatMap_replicate {α β : Type} {n : Nat} (pos : 0 < n) (f : α → β) (ls : List α) (l : Nat) :
    (ls.flatMap (fun a => List.replicate n (f a)))[l]? = ls[l / n]?.map f := by
  induction ls generalizing l with
  | nil => rfl
  | cons a ls ih =>
    rw [List.flatMap_cons]
    by_cases first : l < n
    · rw [List.getElem?_append_left (by rwa [List.length_replicate]), List.getElem?_replicate, if_pos first,
        Nat.div_eq_of_lt first]
      rfl
    · have next : l / n = (l - n) / n + 1 := by rw [← Nat.div_eq_sub_div pos (Nat.le_of_not_lt first)]
      rw [List.getElem?_append_right (by rw [List.length_replicate]; omega), List.length_replicate, ih, next,
        List.getElem?_cons_succ]

/-- A list repeated for each element of another. -/
theorem getElem?_flatMap_const {α β : Type} (m : List β) (ls : List α) {l : Nat} (lt : l < ls.length * m.length) :
    (ls.flatMap (fun _ => m))[l]? = m[l % m.length]? := by
  induction ls generalizing l with
  | nil => exact absurd lt (by rw [List.length_nil, Nat.zero_mul]; exact Nat.not_lt_zero l)
  | cons a ls ih =>
    rw [List.flatMap_cons]
    by_cases first : l < m.length
    · rw [List.getElem?_append_left first, Nat.mod_eq_of_lt first]
    · rw [List.length_cons, Nat.succ_mul] at lt
      rw [List.getElem?_append_right (by omega), ih (by omega), Nat.mod_eq_sub_mod (Nat.le_of_not_lt first)]

/-! ### Reductions (05 R146) -/

/-- What each lane of D receives of a reduction under FP32. -/
def reducedVals (kind : Nat) (w : VWord) (a : List Lane) : List Val :=
  if ctlNat w 4 1 == 1 then
    (List.range 8).flatMap (fun _ => (List.range 128).map (fun i =>
      reduceOf kind ((List.range 8).map (fun k => laneAt a.toArray (128 * k + i)))))
  else (pieces (2 ^ ctlNat w 0 4) a).flatMap (fun g => List.replicate (2 ^ ctlNat w 0 4) (reduceOf kind g))

theorem vecReduce_of_fp32 {w : VWord} (type : w.type = 0) (kind op c : Nat) (r : TaskRun) (s : State) :
    ∃ f, vecReduce kind op w c r s = addFlags c f (putReg c w.d.toNat (tagOf s c w.sa.toNat r)
      ((reducedVals kind w (source s c r 0 w.sa.toNat)).map (fun v => ⟨v.1, true⟩)) s) := by
  have plain : (fun v : Val => typed w op [v.1] v) = id := funext (fun v => typed_of_fp32 type ..)
  simp only [vecReduce, plain, List.map_id]
  exact ⟨_, rfl⟩

/-- A segment's lanes all receive the segment's reduction. -/
theorem reducedVals_segment {w : VWord} {sz : Nat} {a : List Lane} (kind : Nat) (rows : ctlNat w 4 1 = 0) (size : ctlNat w 0 4 = sz)
    {l : Nat} (lt : l < a.length) :
    (reducedVals kind w a)[l]? = some (reduceOf kind ((a.drop (l / 2 ^ sz * 2 ^ sz)).take (2 ^ sz))) := by
  have start : l / 2 ^ sz * 2 ^ sz ≤ l := Nat.div_mul_le_self ..
  rw [reducedVals, rows, size, if_neg (by decide), getElem?_flatMap_replicate (Nat.two_pow_pos sz),
    getElem?_pieces (Nat.two_pow_pos sz), Nat.mul_comm, if_pos (by omega)]
  rfl

/-- A column's lanes all receive the column's reduction. -/
theorem reducedVals_column {w : VWord} (kind : Nat) (a : List Lane) (columns : ctlNat w 4 1 = 1) {l : Nat} (lt : l < 1024) :
    (reducedVals kind w a)[l]? =
      some (reduceOf kind ((List.range 8).map (fun k => laneAt a.toArray (128 * k + l % 128)))) := by
  have low : l % 128 < 128 := Nat.mod_lt _ (by decide)
  rw [reducedVals, columns, if_pos (beq_self_eq_true 1),
    getElem?_flatMap_const _ _ (by simpa only [List.length_map, List.length_range] using lt), List.length_map, List.length_range, List.getElem?_map, List.getElem?_range low]
  rfl

/-- A reduction that the program gives next fills D with its lanes, and changes no other register. -/
theorem completes_reduce {kind op : Nat} {mk : Fin 384 → VWord → Instr} {core : Fin 384} {w : VWord} {s : State} {r : TaskRun}
    (known : (kind, op, mk) ∈ [(0, 0x38, Instr.vecRsum), (1, 0x39, Instr.vecRmax), (2, 0x3A, Instr.vecRssq)])
    (issues : issuing s core.val op w = some r) (word : fp32Word 31 w = true) (legal : segLegal w = true) {F : Nat → W32}
    (value : ∀ l, l < 1024 → ∃ v, (reducedVals kind w (source s core.val r 0 w.sa.toNat))[l]? = some v ∧ v.1 = F l) :
    Completes (mk core w) s (fun t => OnlyCore core.val s t ∧ (∀ q, q ≠ w.d.toNat → vreg t core.val q = vreg s core.val q) ∧
      ∀ l, l < 1024 → (vreg t core.val w.d.toNat)[l]? = some ⟨F l, true⟩) := by
  have arm : exec (mk core w) s = .next (issue core op w (ctlIn w 31 && segLegal w) (vecReduce kind op w) s) := by
    simp only [List.mem_cons, Prod.mk.injEq, List.not_mem_nil, or_false] at known
    rcases known with ⟨rfl, rfl, rfl⟩ | ⟨rfl, rfl, rfl⟩ | ⟨rfl, rfl, rfl⟩ <;> rfl
  obtain ⟨admitted, type⟩ := anyWord_of_fp32Word word
  obtain ⟨f, h⟩ := vecReduce_of_fp32 type kind op core.val r s
  refine completes_issue arm issues (Bool.and_eq_true_iff.mpr ⟨admitted, legal⟩) ?_
  rw [h]
  refine ⟨onlyCore_trans (putReg_onlyCore ..) (onlyCore_trans (addFlags_onlyCore ..) (setTask_onlyCore ..)),
    fun q hq => ?_, fun l hl => ?_⟩
  · rw [vreg_setTask, vreg_addFlags, vreg_putReg, if_neg hq]
  · obtain ⟨v, hv, eq⟩ := value l hl
    rw [vreg_setTask, vreg_addFlags, vreg_putReg, if_pos rfl, List.getElem?_map, hv, ← eq]
    rfl

/-- Settles O7: under FP32 the result of a tree is written as it stands to every lane of its segment or column. -/
theorem vecReductionsFillSegments : Obligations.VecReductionsFillSegments := by
  unfold Obligations.VecReductionsFillSegments
  intro core w s r kind op mk issues full word known
  refine ⟨fun sz size ctl => ?_, fun ctl => ?_⟩
  · have fields : ctlNat w 4 1 = 0 ∧ ctlNat w 0 4 = sz ∧ segLegal w = true := by
      unfold segLegal ctlNat
      rw [ctl]
      simp only [List.mem_cons, List.not_mem_nil, or_false] at size
      rcases size with rfl | rfl | rfl <;> decide
    obtain ⟨rows, size, legal⟩ := fields
    exact completes_reduce known issues word legal (fun l hl => ⟨_, reducedVals_segment kind rows size (full.symm ▸ hl), rfl⟩)
  · have fields : ctlNat w 4 1 = 1 ∧ segLegal w = true := by
      unfold segLegal ctlNat
      rw [ctl]
      decide
    obtain ⟨columns, legal⟩ := fields
    exact completes_reduce known issues word legal (fun l hl => ⟨_, reducedVals_column kind _ columns hl, rfl⟩)

/-! ### Fused kernels (05 R147, R148) -/

/-- A field of CTL of one bit. -/
theorem ctlNat_bit (w : VWord) (i : Nat) : (ctlNat w i 1 == 1) = w.ctl.getLsbD i := by
  have bit : ctlNat w i 1 = w.ctl.toNat / 2 ^ i % 2 := congrArg (· % 2) (Nat.shiftRight_eq_div_pow w.ctl.toNat i)
  rw [bit, BitVec.getLsbD, Nat.testBit_eq_decide_div_mod_eq, Bool.eq_iff_iff]
  simp only [beq_iff_eq, decide_eq_true_eq]

theorem laneFlags_append (xs ys : List (Lane × Flags)) : laneFlags (xs ++ ys) = laneFlags xs ||| laneFlags ys := by
  have from_ (zs : List (Lane × Flags)) (f : Flags) :
      zs.foldl (fun f p => if p.1.valid then f ||| p.2 else f) f = f ||| laneFlags zs := by
    unfold laneFlags
    induction zs generalizing f with
    | nil => exact BitVec.or_zero.symm
    | cons z zs ih =>
      rw [List.foldl_cons, List.foldl_cons, ih, ih (if z.1.valid then 0 ||| z.2 else 0), ← BitVec.or_assoc]
      congr 1
      split
      · rw [BitVec.ofNat_eq_ofNat, BitVec.zero_or]
      · exact BitVec.or_zero.symm
  rw [laneFlags, List.foldl_append, from_]
  rfl

/-- Valid lanes that all raise the same flags. -/
theorem laneFlags_replicate (n : Nat) (x : W32) (f : Flags) : laneFlags (List.replicate (n + 1) (⟨x, true⟩, f)) = f := by
  induction n with
  | zero => exact BitVec.zero_or
  | succ n ih =>
    have first : laneFlags [(⟨x, true⟩, f)] = f := BitVec.zero_or
    rw [List.replicate_succ, ← List.singleton_append, laneFlags_append, ih, first, BitVec.or_self]

section
variable {s : State} {r : TaskRun} {c : Nat}

/-- A pair of statistics, the same in every lane, goes to D and D + 1, and nothing else changes but the task's flags and its
place. -/
theorem putPair_replicate (w : VWord) (op tag : Nat) (f : Flags) (q : Val × Val) (running : (coreAt s c).running = some r) :
    let a := typed w op [q.1.1] (q.1.1, 0)
    let b := typed w op [q.2.1] (q.2.1, 0)
    let t := setTask_ c stepPast (putPair c w op tag f (List.replicate 1024 q) s)
    OnlyRegs c [w.d.toNat, w.d.toNat + 1] (stepPast r) (f ||| a.2 ||| b.2) s t ∧
      vreg t c w.d.toNat = List.replicate 1024 ⟨a.1, true⟩ ∧ vreg t c (w.d.toNat + 1) = List.replicate 1024 ⟨b.1, true⟩ := by
  intro a b t
  have pair : t = setTask_ c stepPast (addFlags c (f ||| a.2 ||| b.2)
      (putReg c (w.d.toNat + 1) tag (List.replicate 1024 ⟨b.1, true⟩)
        (putReg c w.d.toNat tag (List.replicate 1024 ⟨a.1, true⟩) s))) := by
    simp only [t, putPair, List.map_replicate, laneFlags_append, laneFlags_replicate 1023, ← BitVec.or_assoc]
    rfl
  rw [pair]
  refine ⟨⟨?_, fun q hq => ?_, ?_⟩, ?_, ?_⟩
  · exact onlyCore_trans (putReg_onlyCore ..) (onlyCore_trans (putReg_onlyCore ..)
      (onlyCore_trans (addFlags_onlyCore ..) (setTask_onlyCore ..)))
  · simp only [List.mem_cons, List.not_mem_nil, or_false, not_or] at hq
    rw [vreg_setTask, vreg_addFlags, vreg_putReg, vreg_putReg, if_neg hq.2, if_neg hq.1]
  · simp only [addFlags, setTask_, putReg, coreAt_setCore, if_true, running]
    rfl
  · rw [vreg_setTask, vreg_addFlags, vreg_putReg, vreg_putReg, if_neg (by omega), if_pos rfl]
  · rw [vreg_setTask, vreg_addFlags, vreg_putReg, if_pos rfl]

/-- The value broadcast in a register. -/
theorem find_replicate (e : W32) :
    (((List.replicate 1024 (⟨e, true⟩ : Lane)).find? (·.valid)).map (·.val)).getD 0 = e := rfl

theorem vecNstat_of_broadcast {w : VWord} {e : W32} (broadcast : source s c r 1 w.sb.toNat = List.replicate 1024 ⟨e, true⟩) :
    let q := nstatOf (w.ctl.getLsbD 4) (regsFrom s c r w.sa.toNat (nOf w)) e
    vecNstat w c r s = putPair c w 0x50 (tagOf s c w.sa.toNat r) (q.1.2 ||| q.2.2) (List.replicate 1024 q) s := by
  have sb : source s c r 1 (rb w) = List.replicate 1024 ⟨e, true⟩ := broadcast
  simp only [vecNstat, sb, find_replicate, ctlNat_bit, List.map_replicate, beq_self_eq_true, if_true]
  rfl

theorem vecSstat_of_broadcast {w : VWord} {k : W32} (broadcast : source s c r 1 w.sb.toNat = List.replicate 1024 ⟨k, true⟩) :
    let q := sstatOf (regsFrom s c r w.sa.toNat (nOf w)) k
    vecSstat w c r s = putPair c w 0x52 (tagOf s c w.sa.toNat r) (q.1.2 ||| q.2.2) (List.replicate 1024 q) s := by
  have sb : source s c r 1 (rb w) = List.replicate 1024 ⟨k, true⟩ := broadcast
  simp only [vecSstat, sb, find_replicate, List.map_replicate, beq_self_eq_true, if_true]
  rfl

end

/-- Settles O8: a broadcast operand makes one pair of statistics for every lane; NAPP and SAPP finish with their lanes. -/
theorem vecFusedKernels : Obligations.VecFusedKernels := by
  unfold Obligations.VecFusedKernels
  intro core w s r
  refine ⟨fun e word fits room issues broadcast => ?_, fun k word fits room issues broadcast => ?_,
    fun word sb sc issues => ?_, fun word sb issues => ?_⟩
  · have admitted : (ctlIn w 31 && ra w + nOf w ≤ 32 && rdst w ≤ 30) = true :=
      Bool.and_eq_true_iff.mpr ⟨Bool.and_eq_true_iff.mpr ⟨word, decide_eq_true fits⟩, decide_eq_true room⟩
    refine completes_issue rfl issues admitted ?_
    rw [vecNstat_of_broadcast broadcast]
    exact putPair_replicate w _ _ _ _ (running_of_issuing issues)
  · have admitted : (ctlIn w 15 && ra w + nOf w ≤ 32 && rdst w ≤ 30) = true :=
      Bool.and_eq_true_iff.mpr ⟨Bool.and_eq_true_iff.mpr ⟨word, decide_eq_true fits⟩, decide_eq_true room⟩
    refine completes_issue rfl issues admitted ?_
    rw [vecSstat_of_broadcast broadcast]
    exact putPair_replicate w _ _ _ _ (running_of_issuing issues)
  · have admitted : (ctlIn w 0 && rb w ≤ 30 && rc w ≤ 30) = true :=
      Bool.and_eq_true_iff.mpr ⟨Bool.and_eq_true_iff.mpr ⟨word, decide_eq_true sb⟩, decide_eq_true sc⟩
    refine completes_issue rfl issues admitted ?_
    exact givesLanes_finishOp w _ (running_of_issuing issues)
  · have admitted : (ctlIn w 0 && rb w ≤ 30) = true := Bool.and_eq_true_iff.mpr ⟨word, decide_eq_true sb⟩
    refine completes_issue rfl issues admitted ?_
    exact givesLanes_finishOp w _ (running_of_issuing issues)

end Sys2Proof.Vector
end

section
/-! PROOFS. Loads: the next entry of Q2 and the next chunk of an auxiliary input (05 R131, R132, R137). -/

namespace Sys2Proof.Vector

open Sys2Proof.Machine Sys2Proof.Safety Sys2Proof.Laws

theorem vectorTask_of_issuing {s : State} {r : TaskRun} {c op : Nat} {w : VWord} (issues : issuing s c op w = some r) :
    vectorTask s c = some r := by
  unfold issuing at issues
  grind

section
variable {s : State} {r : TaskRun} {c : Nat}

/-- An access none of whose crossings is shut is carried out. -/
theorem through_of_open {xs : List (BitVec 256)} (open_ : ∀ x ∈ xs, streamShut s c x = false) (f : State → State) :
    through c xs f s = f s := by
  have none_ : xs.any (streamShut s c) = false := by
    simpa only [List.any_eq_false, Bool.not_eq_true] using open_
  rw [through, none_]
  rfl

/-- A load puts lanes into one register, moves the task's count or cursor by `g`, and adds flags. -/
theorem onlyRegs_load {g : TaskRun → TaskRun} {r' : TaskRun} (d tag : Nat) (ls : List Lane) (f : Flags)
    (running : (coreAt s c).running = some r)
    (step : stepPast { g r with flags := (g r).flags ||| f } = { r' with flags := r'.flags ||| f }) :
    let t := setTask_ c stepPast (addFlags c f (putReg c d tag ls (setTask_ c g s)))
    vreg t c d = ls ∧ OnlyRegs c [d] r' f s t := by
  refine ⟨?_, ?_, fun q hq => ?_, ?_⟩
  · rw [vreg_setTask, vreg_addFlags, vreg_putReg, if_pos rfl]
  · exact onlyCore_trans (setTask_onlyCore ..) (onlyCore_trans (putReg_onlyCore ..)
      (onlyCore_trans (addFlags_onlyCore ..) (setTask_onlyCore ..)))
  · rw [vreg_setTask, vreg_addFlags, vreg_putReg, if_neg (fun h => hq (List.mem_singleton.mpr h)), vreg_setTask]
  · simp only [addFlags, setTask_, putReg, coreAt_setCore, if_true, running, Option.map_some, step]

/-- An update of the task alone, before an instruction that sets the task as a whole. -/
theorem onlyRegs_of_setTask {g : TaskRun → TaskRun} {r' : TaskRun} {ds : List Nat} {f : Flags} {t : State}
    (h : OnlyRegs c ds r' f (setTask_ c g s) t) : OnlyRegs c ds r' f s t := by
  obtain ⟨only, others, core⟩ := h
  refine ⟨onlyCore_trans (setTask_onlyCore ..) only, fun q hq => (others q hq).trans (vreg_setTask ..), ?_⟩
  rw [core, setTask_, coreAt_setCore, if_pos rfl]

theorem running_setTask (g : TaskRun → TaskRun) (running : (coreAt s c).running = some r) :
    (coreAt (setTask_ c g s) c).running = some (g r) := by
  rw [setTask_, coreAt_setCore, if_pos rfl, running]
  rfl

/-- Filling an accumulator bank does not touch the running task. -/
theorem running_fillBank (n : Nat) (q : TaskRun) (running : (coreAt s c).running = some r) :
    (coreAt (fillBank c n q s) c).running = some r := by
  unfold fillBank
  split
  · exact running
  · rwa [coreAt_setCore, if_pos rfl]

end

/-- Settles O9: with its crossings open a load puts the entry or chunk into its register and moves on. -/
theorem vecLoadsTakeNextChunk : Obligations.VecLoadsTakeNextChunk := by
  unfold Obligations.VecLoadsTakeNextChunk
  intro core w s r
  refine ⟨fun j word row fits issues open_ => ?_, fun x word widening aux input issues open_ => ?_⟩
  · have place : (if ctlNat w 0 1 == 1 then r.taken % entriesPerRow r else 0) = j := by
      rw [row, ctlNat_beq (n := 1) (k := 1) (by decide) word (by decide)]
      simp only [decide_eq_true_eq]
      rfl
    have room : ¬ 31 < rdst w + j := Nat.not_lt.mpr fits
    refine completes_issue rfl issues word ⟨fun more => ?_, fun used => ?_⟩
    · simp only [vecLdq, place, if_neg room, if_pos more, through_of_open open_]
      exact onlyRegs_load _ _ _ _ (running_fillBank _ _ (running_of_issuing issues)) rfl
    · simp only [vecLdq, place, if_neg room, if_neg used]
      refine ⟨?_, onlyRegs_of_setTask (onlyRegs_putReg _ _ _ (running_setTask _ (running_of_issuing issues)))⟩
      rw [vreg_setTask, vreg_putReg]
      exact if_pos rfl
  · have geometry : (ctlNat w 0 2 != 3 && decide (w.aux.toNat < 6) &&
        (ctlNat w 0 2 != 2 || ((vectorTask s core.val).map (fun r => r.geom == 2)).getD false)) = true := by
      have mode : ctlNat w 0 2 = w.ctl.toNat % 4 := rfl
      rw [vectorTask_of_issuing issues, mode]
      rcases widening with lt | ⟨two, band⟩
      · simp [aux, show w.ctl.toNat % 4 ≠ 3 by omega, show w.ctl.toNat % 4 ≠ 2 by omega]
      · simp [aux, two, band]
    have admitted : ldxLegal s core w = true := by
      rw [ldxLegal, Bool.and_assoc, Bool.and_assoc, ← Bool.and_assoc (ctlNat w 0 2 != 3), geometry, Bool.and_true]
      exact word
    refine completes_issue rfl issues admitted ?_
    have shut : ∀ y ∈ [x], streamShut s core.val y = false := fun y hy => List.mem_singleton.mp hy ▸ open_
    simp only [vecLdx, input, through_of_open shut, ctlNat_bit]
    exact onlyRegs_load _ _ _ _ (running_of_issuing issues) rfl

end Sys2Proof.Vector
end

section
/-! PROOFS. What a vector instruction leaves alone: the other cores and every other part of the machine, and by all but the
stores the memory and its rooms too (05 R125, R129, R138). -/

namespace Sys2Proof.Vector

open Sys2Proof.Machine Sys2Proof.Safety Sys2Proof.Laws

/-! ### The parts that no vector instruction changes -/

/-- Every part of the machine that a vector instruction of core `c` leaves as it was. -/
def outside (c : Nat) (s : State) :=
  ((fun k => if k = c then none else some (coreAt s k)), s.pace, s.crossings, s.channels, s.gov, s.sec, s.fab, s.red, s.exch,
    s.params, s.lodge, s.tests, s.porter.mailboxes, s.porter.sessions, s.pending)

/-- The memory, its rooms and the snapshot under way, which only stores change. -/
def stored (s : State) := (s.mem, s.rooms, s.snap)

section
variable {c : Nat}

theorem outside_of_onlyCore {s t : State} (h : OnlyCore c s t) : outside c t = outside c s ∧ stored t = stored s := by
  obtain ⟨same, others⟩ := h
  have cores : (fun k => if k = c then none else some (coreAt t k)) = fun k => if k = c then none else some (coreAt s k) := by
    funext k
    split
    · rfl
    · rw [others k ‹_›]
  unfold outside
  rw [cores, same]
  exact ⟨rfl, rfl⟩

@[simp] theorem outside_raise (code plane die : Nat) (args : List (Nat × Nat)) (s : State) :
    outside c (raise code plane die args s) = outside c s := by
  unfold outside
  rw [raise_porter_mailboxes, raise_porter_sessions]
  rfl

@[simp] theorem outside_raiseCtrl (code : Nat) (args : List (Nat × Nat)) (s : State) :
    outside c (raiseCtrl code args s) = outside c s := outside_raise ..

theorem outside_poisonEvent (n a : Nat) (s : State) : outside c (poisonEvent n a s) = outside c s := by
  unfold poisonEvent
  split
  · exact outside_raise ..
  · exact outside_raise ..
  · exact outside_raise ..
  · exact outside_raise ..
  · rfl

theorem outside_settleRelease (id : Nat) (s : State) : outside c (settleRelease id s) = outside c s := by
  unfold settleRelease
  split
  · split <;> rfl
  · rfl

theorem outside_unpinRoom (id v : Nat) (s : State) : outside c (unpinRoom id v s) = outside c s := outside_settleRelease ..

theorem outside_releaseNow (id : Nat) (s : State) : outside c (releaseNow id s) = outside c s := outside_settleRelease ..

theorem outside_dropSnapshot (s : State) : outside c (dropSnapshot s) = outside c s := by
  unfold dropSnapshot
  split
  · rfl
  · rw [outside_releaseNow, outside_releaseNow]
    exact forEach_same (g := outside c) _ (fun _ _ _ => outside_unpinRoom ..)

theorem outside_endSnapshot (cause : Nat) (s : State) : outside c (endSnapshot cause s) = outside c s := by
  unfold endSnapshot
  split
  · rfl
  · rw [outside_dropSnapshot, outside_raiseCtrl]

theorem outside_settleSnapPins (s : State) : outside c (settleSnapPins s) = outside c s := by
  unfold settleSnapPins
  split
  · rfl
  · exact forEach_same (g := outside c) _ (fun _ _ _ => outside_unpinRoom ..)

theorem outside_saveChunk (k : Nat) (s : State) : outside c (saveChunk k s) = outside c s := by
  unfold saveChunk
  split
  · rfl
  · split
    · split
      · rw [outside_endSnapshot, outside_poisonEvent]
      · exact outside_settleSnapPins _
    · rfl

theorem outside_homeWrite (a : Nat) (bs : List Byte) (s : State) : outside c (homeWrite a bs s) = outside c s :=
  forEach_same (g := outside c) s (fun _ _ _ => outside_saveChunk ..)

theorem outside_engineWrite (a : Nat) (bs : List Byte) (s : State) : outside c (engineWrite a bs s) = outside c s := by
  unfold engineWrite
  split
  · split
    · exact outside_homeWrite ..
    · exact outside_raiseCtrl ..
  · exact outside_homeWrite ..

/-! ### Stores -/

theorem outside_wrBits (base w : Nat) (run : Nat × List Nat) (s : State) : outside c (wrBits base w run s) = outside c s :=
  outside_engineWrite ..

theorem outside_wrElems (x : BitVec 256) (es : List (Nat × Nat)) (s : State) : outside c (wrElems x es s) = outside c s :=
  forEach_same (g := outside c) s (fun _ _ _ => outside_wrBits ..)

theorem outside_putScales (x : BitVec 256) (l : Table (Bool × Bool × W32)) (s : State) :
    outside c (putScales x l s) = outside c s :=
  forEach_same (g := outside c) s (fun _ _ _ => outside_engineWrite ..)

section
variable {geom n axis nc k : Nat} {product : Bool} {x : BitVec 256} {ls xs : List Lane} {s : State}

theorem outside_storeChunk (scale : W32) (d : Draw) :
    outside c (storeChunk geom product x nc scale d n ls s).1 = outside c s := by
  unfold storeChunk
  dsimp only
  split
  · rfl
  · exact outside_wrElems ..

theorem outside_storeRaw : outside c (storeRaw geom product x n ls s) = outside c s := by
  unfold storeRaw
  dsimp only
  split
  · rfl
  · exact (forEach_same (g := outside c) _ (fun _ _ _ => outside_wrBits ..)).trans
      (forEach_same (g := outside c) s (fun _ _ _ => outside_wrBits ..))

theorem outside_storeBlocks : outside c (storeBlocks geom product x axis n ls xs s) = outside c s := by
  unfold storeBlocks
  dsimp only
  split
  · rfl
  · rw [outside_putScales, outside_wrElems]

theorem outside_storeRawBlocks : outside c (storeRawBlocks geom product x axis n ls xs s) = outside c s := by
  unfold storeRawBlocks
  rw [outside_putScales, outside_storeRaw]

theorem outside_putHeader (r : TaskRun) : outside c (putHeader r k x s) = outside c s := by
  unfold putHeader
  dsimp only
  split
  · rfl
  · exact outside_engineWrite ..

theorem outside_withHeader (last : Bool) (r : TaskRun) :
    outside c (if last then putHeader r k x s else s) = outside c s := by
  split
  · exact outside_putHeader r
  · rfl

theorem outside_noteHistory (r : TaskRun) (fmt : Nat) (vs : List W32) : outside c (noteHistory r fmt vs s) = outside c s := by
  unfold noteHistory
  split
  · rfl
  · split <;> rfl

theorem outside_setTask (f : TaskRun → TaskRun) : outside c (setTask_ c f s) = outside c s :=
  (outside_of_onlyCore (setTask_onlyCore ..)).1

theorem outside_addFlags (f : Flags) : outside c (addFlags c f s) = outside c s := outside_setTask ..

theorem outside_recordAmax (vs : State → List ((Nat × Nat × Nat) × W32)) : outside c (recordAmax c x vs s) = outside c s :=
  outside_setTask ..

theorem through_onlyCore {us : List (BitVec 256)} {f : State → State} (hf : OnlyCore c s (f s)) :
    OnlyCore c s (through c us f s) := by
  unfold through
  split
  · exact setTask_onlyCore ..
  · exact hf

theorem outside_through {us : List (BitVec 256)} {f : State → State} (hf : outside c (f s) = outside c s) :
    outside c (through c us f s) = outside c s := by
  unfold through
  split
  · exact outside_setTask ..
  · exact hf

theorem outside_vecStq (w : VWord) (r : TaskRun) : outside c (vecStq w c r s) = outside c s := by
  unfold vecStq
  dsimp only
  split
  · rfl
  · refine outside_through ?_
    split
    · rw [outside_recordAmax, outside_storeRaw, outside_setTask]
    · rw [outside_recordAmax, outside_addFlags, outside_noteHistory, outside_storeChunk, outside_setTask]

theorem outside_vecStx (w : VWord) (r : TaskRun) : outside c (vecStx w c r s) = outside c s := by
  unfold vecStx
  dsimp only
  split
  · rfl
  · split
    · rfl
    · refine outside_through ?_
      split
      · split
        · rw [outside_storeRaw, outside_setTask]
        · rw [outside_addFlags, outside_noteHistory, outside_storeChunk, outside_setTask]
      · rw [outside_withHeader]
        split
        · rw [outside_storeRawBlocks, outside_setTask]
        · rw [outside_storeBlocks, outside_setTask]

end

/-! ### Instructions that touch only their core -/

theorem finishOp_onlyCore (w : VWord) (r : TaskRun) (rs : List (Lane × Flags)) (s : State) :
    OnlyCore c s (finishOp c w r rs s) :=
  onlyCore_trans (putReg_onlyCore ..) (addFlags_onlyCore ..)

theorem vecReduce_onlyCore (kind op : Nat) (w : VWord) (r : TaskRun) (s : State) : OnlyCore c s (vecReduce kind op w c r s) :=
  onlyCore_trans (putReg_onlyCore ..) (addFlags_onlyCore ..)

theorem putPair_onlyCore (w : VWord) (op tag : Nat) (f : Flags) (st : List (Val × Val)) (s : State) :
    OnlyCore c s (putPair c w op tag f st s) :=
  onlyCore_trans (putReg_onlyCore ..) (onlyCore_trans (putReg_onlyCore ..) (addFlags_onlyCore ..))

theorem onlyCore_refl (s : State) : OnlyCore c s s := ⟨rfl, fun _ _ => rfl⟩

theorem vecLogic_onlyCore (w : VWord) (r : TaskRun) (s : State) : OnlyCore c s (vecLogic w c r s) := by
  unfold vecLogic
  split
  · exact finishOp_onlyCore ..
  · exact finishOp_onlyCore ..

theorem vecQnt_onlyCore (w : VWord) (r : TaskRun) (s : State) : OnlyCore c s (vecQnt w c r s) := by
  unfold vecQnt
  dsimp only
  split
  · exact onlyCore_refl s
  · exact finishOp_onlyCore ..

theorem vecUnpk_onlyCore (w : VWord) (r : TaskRun) (s : State) : OnlyCore c s (vecUnpk w c r s) := by
  obtain ⟨f, h⟩ := vecUnpk_eq w c r s
  rw [h]
  exact onlyCore_trans (putRegs_onlyCore ..) (addFlags_onlyCore ..)

theorem fillBank_onlyCore (n : Nat) (r : TaskRun) (s : State) : OnlyCore c s (fillBank c n r s) := by
  unfold fillBank
  split
  · exact onlyCore_refl s
  · exact Towers.setCore_onlyCore ..

theorem vecLdq_onlyCore (w : VWord) (r : TaskRun) (s : State) : OnlyCore c s (vecLdq w c r s) := by
  unfold vecLdq
  dsimp only
  generalize (if ctlNat w 0 1 == 1 then r.taken % entriesPerRow r else 0) = j
  split
  · exact onlyCore_refl s
  · split
    · refine through_onlyCore ?_
      exact onlyCore_trans (fillBank_onlyCore ..) (onlyCore_trans (setTask_onlyCore ..)
        (onlyCore_trans (putReg_onlyCore ..) (addFlags_onlyCore ..)))
    · exact onlyCore_trans (setTask_onlyCore ..) (putReg_onlyCore ..)

theorem vecLdx_onlyCore (w : VWord) (r : TaskRun) (s : State) : OnlyCore c s (vecLdx w c r s) := by
  unfold vecLdx
  dsimp only
  split
  · exact onlyCore_refl s
  · refine through_onlyCore ?_
    exact onlyCore_trans (setTask_onlyCore ..) (onlyCore_trans (putReg_onlyCore ..) (addFlags_onlyCore ..))

/-- EXPB touches only its core, but for the event of a clamped exponent. -/
theorem vecExpb_outside (w : VWord) (r : TaskRun) (s : State) :
    outside c (vecExpb w c r s) = outside c s ∧ stored (vecExpb w c r s) = stored s := by
  unfold vecExpb
  dsimp only
  split
  · exact ⟨rfl, rfl⟩
  · split
    · rw [outside_raise]
      exact outside_of_onlyCore (onlyCore_trans (finishOp_onlyCore ..) (setTask_onlyCore ..))
    · exact outside_of_onlyCore (finishOp_onlyCore ..)

end

/-! ### Every vector command -/

/-- The command answers a next state with `outside` as it was, and with `stored` too unless it stores; on a core that runs no
checked task the state is as it was. -/
def Framed (i : Instr) (core : Fin 384) (s : State) : Prop :=
  Completes i s (fun t => (vectorTask s core.val = none → t = s) ∧ outside core.val t = outside core.val s ∧
    (isVecStore i = false → stored t = stored s))

section
variable {i : Instr} {core : Fin 384} {s : State} {op : Nat} {w : VWord} {legal : Bool} {f : Nat → TaskRun → State → State}

theorem framed_of_meaning (arm : exec i s = .next (issue core op w legal f s))
    (keeps : ∀ r u, outside core.val (f core.val r u) = outside core.val u ∧
      (isVecStore i = false → stored (f core.val r u) = stored u)) : Framed i core s := by
  refine ⟨_, arm, fun idle => ?_, ?_⟩
  · simp only [issue, issuing, idle]
  · unfold issue
    split
    · split
      · obtain ⟨same, kept⟩ := outside_of_onlyCore (setTask_onlyCore (c := core.val) stepPast (f core.val ‹_› s))
        obtain ⟨same', kept'⟩ := keeps ‹_› s
        exact ⟨same.trans same', fun load => kept.trans (kept' load)⟩
      · exact ⟨rfl, fun _ => rfl⟩
    · exact ⟨rfl, fun _ => rfl⟩

theorem framed_of_onlyCore (arm : exec i s = .next (issue core op w legal f s))
    (only : ∀ r u, OnlyCore core.val u (f core.val r u)) : Framed i core s :=
  framed_of_meaning arm (fun r u => ⟨(outside_of_onlyCore (only r u)).1, fun _ => (outside_of_onlyCore (only r u)).2⟩)

end

/-- The 45 commands by what they do: those that finish with lanes, those that fill registers in another way, the loads, EXPB with
its event, and the stores. -/
theorem framed_of_vecCore {i : Instr} {core : Fin 384} (s : State) (h : vecCore i = some core) : Framed i core s := by
  cases i with
  | vecNop c w => cases h; exact framed_of_onlyCore rfl (fun _ u => onlyCore_refl u)
  | vecAdd c w | vecSub c w | vecMul c w | vecFma c w | vecMax c w | vecMin c w | vecAbs c w | vecCmp c w | vecSel c w
  | vecMask c w | vecRcp c w | vecRsq c w | vecExp c w | vecExp2 c w | vecLog2 c w | vecTanh c w | vecSig c w | vecDiv c w
  | vecSqrt c w | vecIadd c w | vecImul c w | vecShift c w | vecCvt c w | vecTsc c w | vecDqnt c w | vecShuf c w
  | vecPerm c w | vecNapp c w | vecSapp c w =>
    cases h; exact framed_of_onlyCore rfl (fun _ _ => finishOp_onlyCore ..)
  | vecLogic c w => cases h; exact framed_of_onlyCore rfl (fun _ _ => vecLogic_onlyCore ..)
  | vecQnt c w => cases h; exact framed_of_onlyCore rfl (fun _ _ => vecQnt_onlyCore ..)
  | vecPos c w => cases h; exact framed_of_onlyCore rfl (fun _ _ => putReg_onlyCore ..)
  | vecPack c w => cases h; exact framed_of_onlyCore rfl (fun _ _ => onlyCore_trans (putReg_onlyCore ..) (addFlags_onlyCore ..))
  | vecUnpk c w => cases h; exact framed_of_onlyCore rfl (fun _ _ => vecUnpk_onlyCore ..)
  | vecRsum c w | vecRmax c w | vecRssq c w => cases h; exact framed_of_onlyCore rfl (fun _ _ => vecReduce_onlyCore ..)
  | vecNstat c w | vecSstat c w => cases h; exact framed_of_onlyCore rfl (fun _ _ => putPair_onlyCore ..)
  | vecLdq c w => cases h; exact framed_of_onlyCore rfl (fun _ _ => vecLdq_onlyCore ..)
  | vecLdx c w => cases h; exact framed_of_onlyCore rfl (fun _ _ => vecLdx_onlyCore ..)
  | vecExpb c w =>
    cases h; exact framed_of_meaning rfl (fun r u => ⟨(vecExpb_outside w r u).1, fun _ => (vecExpb_outside w r u).2⟩)
  | vecStq c w => cases h; exact framed_of_meaning rfl (fun r u => ⟨outside_vecStq w r, nofun⟩)
  | vecStx c w => cases h; exact framed_of_meaning rfl (fun r u => ⟨outside_vecStx w r, nofun⟩)
  | _ => cases h

/-- Settles O11: what every vector command leaves alone, read off part by part. -/
theorem vecFrame : Obligations.VecFrame := by
  unfold Obligations.VecFrame
  intro i core s h
  obtain ⟨t, done, idle, same, kept⟩ := framed_of_vecCore s h
  simp only [outside, Prod.mk.injEq] at same
  obtain ⟨cores, parts⟩ := same
  refine ⟨t, done, idle, fun k hk => ?_, fun load => ?_, parts⟩
  · have other := congrFun cores k
    rw [if_neg hk, if_neg hk] at other
    exact Option.some.inj other
  · have := kept load
    simpa only [stored, Prod.mk.injEq] using this

end Sys2Proof.Vector
end

section
/-! PROOFS. A store from a register of more lanes than a chunk has (05 R129, R150). -/

namespace Sys2Proof.Vector

open Sys2Proof.Machine Sys2Proof.Safety Sys2Proof.Laws

theorem mem_setTask (c : Nat) (f : TaskRun → TaskRun) (s : State) : (setTask_ c f s).mem = s.mem := rfl

/-- STQ as the word that the program gives next. -/
theorem exec_vecStq {core : Fin 384} {w : VWord} {s : State} {r : TaskRun} (issues : issuing s core.val 0x42 w = some r)
    (admitted : ctlIn w 4 = true) :
    exec (.vecStq core w) s = .next (setTask_ core.val stepPast (vecStq w core.val r s)) := by
  obtain ⟨t, done, rfl⟩ := completes_issue (i := .vecStq core w) (P := (· = setTask_ core.val stepPast (vecStq w core.val r s)))
    rfl issues admitted rfl
  exact done

/-! ### The counterexample: STQ of a register of 1,025 lanes into a tensor of 9 rows of 2 FP32 elements -/

/-- The unscaled FP32 stream of 9 rows of 2 elements at the start of core 0's pond slice. -/
def nineRows : List (Nat × Nat × Nat) :=
  [(208, 48, 0x90000000000), (184, 24, 2), (160, 24, 9), (144, 16, 1), (112, 32, 2), (48, 32, 0xFFFFFFFF), (34, 1, 1),
    (16, 16, 0xFFFF)]

/-- STQ of register 0, not RAW. -/
def storeWord : VWord := { type := 0, d := 0, sa := 0, sb := 0, sc := 0, aux := 0, ctl := 0 }

/-- A vector task under TILE whose program is the one STQ. -/
def storeTask : TaskRun :=
  { desc := mkRec 2048 ([(1942, 10, 1), (476, 4, 1)] ++ nineRows.map (fun f => (1280 + f.1, f.2)))
    handle := 0, room := 0, attempt := 0, checked := true, ended := none, stallEng := 0, causeGated := false, flags := 0
    geom := 1, head := mkRec 128 [(108, 10, 1)], prog := [opWord 0x42 storeWord], place := ⟨1, 0, 0, 0⟩
    taken := 0, cursors := [], ocursor := 0, clamped := false, amax := 0, blockAmax := [] }

/-- Register 0 holds one lane more than the 1,024 of R125. -/
def overlongStore : State :=
  { State.reset with
    power := { Power.reset with domains := [(0, .inRegulation)] }
    pace := [(coreDie 0, { Pace.reset with gated := false, xgated := false }),
      (pondDie 0, { Pace.reset with gated := false, xgated := false })]
    cores := [(0, { Core.reset with
      running := some storeTask, vregs := [(0, List.replicate 1024 ⟨0, true⟩ ++ [⟨0x3F800000, true⟩])] })] }

/-- The engine issues the STQ, from a section that writes the stream and with its crossing open. -/
theorem overlongStore_issues : issuing overlongStore 0 0x42 storeWord = some storeTask ∧
    sUsed (dStream storeTask.desc 3) = true ∧ writtenHere storeTask (dStream storeTask.desc 3) = true ∧
    streamShut overlongStore 0 (dStream storeTask.desc 3) = false := by decide +kernel

/-- Where the stream lies. -/
theorem storeTask_stream : isProduct storeTask = false ∧ sBase (dStream storeTask.desc 3) = 0x90000000000 ∧
    shapeOf (dStream storeTask.desc 3) = ⟨1, 9, 2⟩ ∧ sStr1 (dStream storeTask.desc 3) = 2 ∧
    fmtBits (sFmt (dStream storeTask.desc 3)) = 32 := by decide +kernel

/-- The lanes of the first chunk stand for rows 0 to 7, of which none holds the last byte of row 8's first element. -/
theorem chunk_avoids_row_eight {l : Nat} (hl : l < 1024) : ¬ onElement (dStream storeTask.desc 3)
    (outPos storeTask.geom.toNat (isProduct storeTask) (shapeOf (dStream storeTask.desc 3)) storeTask.ocursor l)
    0x90000000043 := by
  obtain ⟨copy, base, shape, stride, width⟩ := storeTask_stream
  have place : outPos storeTask.geom.toNat false ⟨1, 9, 2⟩ storeTask.ocursor l = (0, l / 128, l % 128) := by
    simp [outPos, lanePos, cdiv, storeTask]
  rw [copy, shape, place, onElement, shape, base, storedAt, stride, width]
  rintro ⟨within, -, last⟩
  simp only [inside, Bool.and_eq_true, decide_eq_true_eq] at within last
  omega

/-- Lane 1,024 is written to row 8. -/
theorem vecStq_overlongStore :
    cellsGet (vecStq storeWord (0 : Fin 384).val storeTask overlongStore).mem.cells 0x90000000043 = 0x3F := by decide +kernel

/-- Refutes O10: the state is plain data, and the statement has no hypothesis that the stored register holds 1,024 lanes (O5 and
O7 have it). STQ of a register of 1,025 lanes writes its last lane one row below the chunk: the byte 0x90000000043 lies on no
element of the chunk's lanes 0 to 1,023 and changes from 0 to 0x3F. -/
theorem not_vecStoresWriteOnlyTheirElements : ¬ Obligations.VecStoresWriteOnlyTheirElements := by
  unfold Obligations.VecStoresWriteOnlyTheirElements
  intro claim
  obtain ⟨issues, used, here, open_⟩ := overlongStore_issues
  obtain ⟨stq, -⟩ := claim 0 storeWord overlongStore storeTask rfl rfl
  obtain ⟨t, done, -, -, -, -, only⟩ := stq used here issues open_
  have answer := Host.Outcome.next.inj (done.symm.trans (exec_vecStq issues (by decide)))
  have same := only rfl 0x90000000043 (fun l hl => chunk_avoids_row_eight hl)
  rw [answer, mem_setTask, vecStq_overlongStore] at same
  exact absurd same (by decide)

end Sys2Proof.Vector
end

section
/-! PROOFS. Spans of memory: what a span outside every write keeps, and movers that copy one span after another (08 R227). -/

namespace Sys2Proof.Cellar

open Sys2Proof.Machine Sys2Proof.Safety Sys2Proof.Laws

/-! ### Reads of a span -/

section
variable {s t u : State} {a m n : Nat}

theorem length_cellsRead (c : List Host.Cell) (a n : Nat) : (cellsRead c a n).length = n := by
  induction n generalizing a with
  | zero => rfl
  | succ n ih => simp only [cellsRead, List.length_cons, ih]

@[simp] theorem length_rd (s : State) (a n : Nat) : (rd s a n).length = n := length_cellsRead ..

theorem rd_add (s : State) (a m n : Nat) : rd s a (m + n) = rd s a m ++ rd s (a + m) n := by
  unfold rd
  induction m generalizing a with
  | zero => simp [cellsRead]
  | succ m ih => rw [Nat.succ_add_eq_add_succ, Nat.add_succ, cellsRead, cellsRead, ih, Nat.add_right_comm a 1 m]; rfl

theorem rd_eq_of_cellsGet (same : ∀ b, a ≤ b → b < a + n → cellsGet t.mem.cells b = cellsGet s.mem.cells b) :
    rd t a n = rd s a n := by
  unfold rd
  induction n generalizing a with
  | zero => rfl
  | succ n ih =>
    rw [cellsRead, cellsRead, same a (Nat.le_refl a) (by omega)]
    exact congrArg _ (ih fun b lo hi => same b (by omega) (by omega))

theorem rd_of_mem (same : t.mem = s.mem) (a n : Nat) : rd t a n = rd s a n := by
  unfold rd
  rw [same]

/-! ### Writes, whether the memory is canonical or not -/

theorem cellsGet_cellsSet_other {i : Nat} (ne : i ≠ a) (c : List Host.Cell) (v : Byte) :
    cellsGet (cellsSet c a v) i = cellsGet c i := by
  induction c with
  | nil =>
    rw [cellsSet]
    split
    · rfl
    · simp [cellsGet, Ne.symm ne]
  | cons p c ih =>
    obtain ⟨j, b⟩ := p
    rw [cellsSet]
    split
    · split
      · rfl
      · simp [cellsGet, Ne.symm ne]
    · split
      · next eq =>
        subst eq
        split <;> simp [cellsGet, Ne.symm ne]
      · rw [cellsGet, cellsGet, ih]

theorem cellsGet_cellsPut_other {i : Nat} {bs : List Byte} (away : i < a ∨ a + bs.length ≤ i) (c : List Host.Cell) :
    cellsGet (cellsPut c a bs) i = cellsGet c i := by
  induction bs generalizing c a with
  | nil => rfl
  | cons b bs ih =>
    rw [List.length_cons] at away
    rw [cellsPut, ih (by omega), cellsGet_cellsSet_other (by omega)]

/-! ### What is written lies in some spans -/

/-- Two spans, address and bytes, of which one ends before the other begins. -/
def Apart (h g : Nat × Nat) : Prop := h.1 + h.2 ≤ g.1 ∨ g.1 + g.2 ≤ h.1

theorem Apart.symm {h g : Nat × Nat} (away : Apart h g) : Apart g h := Or.symm away

/-- A byte outside all of the spans stands in `t` as it stood in `s`. -/
def WritesIn (hs : List (Nat × Nat)) (s t : State) : Prop :=
  ∀ b, (∀ h ∈ hs, b < h.1 ∨ h.1 + h.2 ≤ b) → cellsGet t.mem.cells b = cellsGet s.mem.cells b

theorem writesIn_of_mem (same : t.mem = s.mem) (hs : List (Nat × Nat)) : WritesIn hs s t := fun b _ => by rw [same]

theorem WritesIn.trans {hs : List (Nat × Nat)} (h : WritesIn hs s t) (k : WritesIn hs t u) : WritesIn hs s u :=
  fun b out => (k b out).trans (h b out)

theorem WritesIn.mono {hs gs : List (Nat × Nat)} (h : WritesIn hs s t) (sub : hs ⊆ gs) : WritesIn gs s t :=
  fun b out => h b fun g hg => out g (sub hg)

/-- A span apart from all that is written is read as before. -/
theorem WritesIn.rd_eq {hs : List (Nat × Nat)} (h : WritesIn hs s t) (away : ∀ g ∈ hs, Apart g (a, n)) : rd t a n = rd s a n := by
  refine rd_eq_of_cellsGet fun b lo hi => h b fun g hg => ?_
  have := away g hg
  unfold Apart at this
  omega

theorem wr_writesIn {bs : List Byte} (len : bs.length = n) : WritesIn [(a, n)] s (wr a bs s) := fun b out =>
  cellsGet_cellsPut_other (by simpa [len] using out) _

/-- A write that stays inside a span. -/
theorem wr_writesIn_span {bs : List Byte} {h : Nat × Nat} (lo : h.1 ≤ a) (hi : a + bs.length ≤ h.1 + h.2) :
    WritesIn [h] s (wr a bs s) := fun b out =>
  cellsGet_cellsPut_other (by have := out h List.mem_cons_self; omega) _

end

/-! ### Commands that change memory alone -/

/-- `t` is `s` but for the memory. -/
def OnlyMem (s t : State) : Prop := t = { s with mem := t.mem }

section
variable {s t u : State} {a : Nat} {bs : List Byte}

theorem OnlyMem.trans (h : OnlyMem s t) (k : OnlyMem t u) : OnlyMem s u := by
  unfold OnlyMem at k
  rw [h] at k
  exact k

/-- Where no snapshot is under way a home is written and no chunk is saved before. -/
theorem homeWrite_of_noSnap (noSnap : s.snap = none) : homeWrite a bs s = wr a bs s := by
  unfold homeWrite
  rw [noSnap]
  rfl

theorem OnlyMem.homeWrite (h : OnlyMem s t) (noSnap : s.snap = none) : OnlyMem s (homeWrite a bs t) := by
  have : t.snap = none := by rw [h]; exact noSnap
  rw [homeWrite_of_noSnap this]
  exact h.trans rfl

theorem OnlyMem.forEach {α : Type} {l : List α} {f : α → State → State} (h : OnlyMem s t)
    (step : ∀ x u, OnlyMem s u → OnlyMem s (f x u)) : OnlyMem s (forEach l f t) :=
  forEach_keeps (P := OnlyMem s) t (fun x _ => step x) h

end

/-! ### Copying home -/

theorem sumNat_eq_sum (l : List Nat) : sumNat l = l.sum := List.sum_eq_foldl_nat.symm

@[simp] theorem sumNat_cons (n : Nat) (l : List Nat) : sumNat (n :: l) = n + sumNat l := by
  simp only [sumNat_eq_sum, List.sum_cons]

section
variable {s : State} {src : Nat}

theorem copyHome_onlyMem (noSnap : s.snap = none) (ps : List (Nat × Nat)) : OnlyMem s (copyHome ps src s) := by
  induction ps generalizing src s with
  | nil => rfl
  | cons p ps ih =>
    rw [copyHome, homeWrite_of_noSnap noSnap]
    exact OnlyMem.trans (t := wr p.1 (rd s src p.2) s) rfl (ih noSnap)

theorem copyHome_writesIn (noSnap : s.snap = none) (ps : List (Nat × Nat)) : WritesIn ps s (copyHome ps src s) := by
  induction ps generalizing src s with
  | nil => exact writesIn_of_mem rfl _
  | cons p ps ih =>
    rw [copyHome, homeWrite_of_noSnap noSnap]
    exact ((wr_writesIn (length_rd ..)).mono (by simp)).trans ((ih (s := wr p.1 (rd s src p.2) s) noSnap).mono (by simp))

theorem copyHome_memGood (noSnap : s.snap = none) (good : MemGood s) (ps : List (Nat × Nat)) : MemGood (copyHome ps src s) := by
  induction ps generalizing src s with
  | nil => exact good
  | cons p ps ih =>
    rw [copyHome, homeWrite_of_noSnap noSnap]
    exact ih (s := wr p.1 (rd s src p.2) s) noSnap (wf_wr _ _ good)

/-- Homes apart from each other and from the source receive, one after the other, what stood at the source. -/
theorem rd_copyHome (noSnap : s.snap = none) (good : MemGood s) {ps : List (Nat × Nat)} (apart : ps.Pairwise Apart)
    (away : ∀ h ∈ ps, Apart h (src, sumNat (ps.map (fun h => h.2)))) :
    ps.flatMap (fun h => rd (copyHome ps src s) h.1 h.2) = rd s src (sumNat (ps.map (fun h => h.2))) := by
  induction ps generalizing src s with
  | nil => rfl
  | cons p ps ih =>
    obtain ⟨first, apart⟩ := List.pairwise_cons.mp apart
    rw [List.map_cons, sumNat_cons] at away ⊢
    rw [copyHome, homeWrite_of_noSnap noSnap]
    have good' : MemGood (wr p.1 (rd s src p.2) s) := wf_wr _ _ good
    have rest := ih (s := wr p.1 (rd s src p.2) s) (src := src + p.2) noSnap good' apart fun h hh => by
      have := away h (List.mem_cons_of_mem _ hh)
      unfold Apart at this ⊢
      omega
    have later : rd (copyHome ps (src + p.2) (wr p.1 (rd s src p.2) s)) p.1 p.2 = rd (wr p.1 (rd s src p.2) s) p.1 p.2 :=
      (copyHome_writesIn (s := wr p.1 (rd s src p.2) s) noSnap ps).rd_eq fun g hg => (first g hg).symm
    have here : rd (wr p.1 (rd s src p.2) s) p.1 p.2 = rd s src p.2 := by
      have := rd_wr p.1 (rd s src p.2) good
      rwa [length_rd] at this
    have source : rd (wr p.1 (rd s src p.2) s) (src + p.2) (sumNat (ps.map (fun h => h.2))) =
        rd s (src + p.2) (sumNat (ps.map (fun h => h.2))) :=
      (wr_writesIn (length_rd ..)).rd_eq fun g hg => by
        have := away p List.mem_cons_self
        rw [List.mem_singleton.mp hg]
        unfold Apart at this ⊢
        omega
    rw [List.flatMap_cons, later, here, rest, source, rd_add]

end

/-- Blocks of which each is read back whole. -/
theorem rd_of_flatMap {s : State} {ws : List (Nat × List Byte)}
    (eq : ws.flatMap (fun w => rd s w.1 w.2.length) = ws.flatMap (fun w => w.2)) : ∀ w ∈ ws, rd s w.1 w.2.length = w.2 := by
  induction ws with
  | nil => exact fun _ hw => nomatch hw
  | cons v ws ih =>
    rw [List.flatMap_cons, List.flatMap_cons] at eq
    obtain ⟨head, tail⟩ := List.append_inj eq (length_rd ..)
    exact List.forall_mem_cons.mpr ⟨head, ih tail⟩

end Sys2Proof.Cellar
end

section
/-! PROOFS. The staging room of an update: a version put into its free slot, and a block that goes home through it (07 R201,
08 R227). -/

namespace Sys2Proof.Cellar

open Sys2Proof.Machine Sys2Proof.Safety Sys2Proof.Laws

/-! ### Tables of a room's slots -/

@[simp] theorem length_lset {α : Type} (l : List α) (k : Nat) (a : α) : (lset l k a).length = l.length := by
  induction l generalizing k with
  | nil => rfl
  | cons b l ih => cases k with
    | zero => rfl
    | succ k => rw [lset, List.length_cons, ih, List.length_cons]

theorem getD_lset {α : Type} {l : List α} {k : Nat} (lt : k < l.length) (a d : α) (j : Nat) :
    (lset l k a).getD j d = if j = k then a else l.getD j d := by
  induction l generalizing j k with
  | nil => exact absurd lt (Nat.not_lt_zero _)
  | cons b l ih => cases k with
    | zero => cases j <;> simp [lset]
    | succ k => cases j with
      | zero => simp [lset]
      | succ j => simpa [lset] using ih (by simpa using lt) j

/-! ### Changes of the rooms -/

/-- `t` is `s` but for the memory, the rooms and the request rings. -/
def OnlyStores (s t : State) : Prop := t = { s with mem := t.mem, rooms := t.rooms, fab := t.fab }

/-- `t` is `s` but for the rooms and the request rings. -/
def OnlyRooms (s t : State) : Prop := t = { s with rooms := t.rooms, fab := t.fab }

section
variable {s t u : State} {id : Nat}

theorem OnlyStores.trans (h : OnlyStores s t) (k : OnlyStores t u) : OnlyStores s u := by
  unfold OnlyStores at k
  rw [h] at k
  exact k

theorem OnlyRooms.trans (h : OnlyRooms s t) (k : OnlyRooms t u) : OnlyRooms s u := by
  unfold OnlyRooms at k
  rw [h] at k
  exact k

theorem OnlyMem.stores (h : OnlyMem s t) : OnlyStores s t := by
  unfold OnlyStores
  rw [h]

theorem OnlyRooms.stores (h : OnlyRooms s t) : OnlyStores s t := by
  unfold OnlyStores
  rw [h]

theorem OnlyRooms.mem (h : OnlyRooms s t) : t.mem = s.mem := by rw [h]

theorem settleRelease_onlyRooms (id : Nat) (s : State) : OnlyRooms s (settleRelease id s) := by
  unfold settleRelease
  split
  · split <;> rfl
  · rfl

theorem releaseNow_onlyRooms (id : Nat) (s : State) : OnlyRooms s (releaseNow id s) :=
  OnlyRooms.trans (t := updRoom id (fun r => { r with releasing := true }) s) rfl (settleRelease_onlyRooms ..)

theorem unpinRoom_onlyRooms (id v : Nat) (s : State) : OnlyRooms s (unpinRoom id v s) :=
  OnlyRooms.trans (t := updRoom id (unpinVer · v) s) rfl (settleRelease_onlyRooms ..)

theorem startRings_onlyRooms (id : Nat) (s : State) : OnlyRooms s (startRings id s) := by
  unfold startRings
  split
  · rfl
  · split <;> rfl

theorem commitRoom_onlyRooms (id : Nat) (s : State) : OnlyRooms s (commitRoom id s) :=
  OnlyRooms.trans (t := updRoom id commitVer s) rfl (startRings_onlyRooms ..)

/-- A committed room; where a request ring begins its version, the version is pinned too. -/
theorem roomAt_commitRoom {r : Room} (held : roomAt s id = some r) : roomAt (commitRoom id s) id = some (commitVer r) ∨
    roomAt (commitRoom id s) id = some (pinVer (commitVer r) (commitVer r).current.toNat) := by
  have committed : roomAt (updRoom id commitVer s) id = some (commitVer r) := by simp [roomAt_updRoom, held]
  unfold commitRoom startRings
  rw [committed]
  dsimp only
  split
  · refine .inr ((roomAt_updRoom ..).trans ?_)
    rw [if_pos rfl]
    exact congrArg (Option.map _) committed
  · exact .inl committed

/-- No request ring names the room: a committed version is that, and nothing more. -/
theorem commitRoom_of_noRing (noRing : ∀ r ∈ s.fab.rings, r.2.room.toNat ≠ id) : commitRoom id s = updRoom id commitVer s := by
  have none_ : (s.fab.rings.any fun p => p.2.room.toNat == id && p.2.version == 0) = false := by
    rw [List.any_eq_false]
    intro p hp
    simp [noRing p hp]
  unfold commitRoom startRings
  split
  · rfl
  · rw [updRoom_fab, none_]
    rfl

end

/-! ### A version put into a free slot -/

/-- The span of a room. -/
def roomSpan (m : Room) : Nat × Nat := (m.base.toNat, extent m)

theorem slot_within {r : Room} {k : Nat} (slots : r.slots = 2) (lt : k < 2) :
    r.base.toNat + k * slotBytes r + slotBytes r ≤ roomEnd r := by
  unfold roomEnd extent
  rw [slots]
  have : k = 0 ∨ k = 1 := by omega
  rcases this with rfl | rfl <;> omega

/-- The room with its next version opened in slot `k`. -/
def opened (k : Nat) (r : Room) : Room :=
  { r with fresh := nextVer r.lastOpened, lastOpened := nextVer r.lastOpened, writers := 1, freshSlot := k
           slotVer := lset r.slotVer k (nextVer r.lastOpened), freshStep := 0 }

theorem nextVer_ne_zero (v : W16) : nextVer v ≠ 0 := by
  unfold nextVer
  split
  · decide
  · bv_omega

section
variable {s : State} {id k : Nat} {r : Room} {bs : List Byte}

theorem putVersion_of_free (held : roomAt s id = some r) (slots : r.slots = 2) (fresh : r.fresh = 0) (free : freeSlot r = some k) :
    putVersion id bs s = commitRoom id (wr (r.base.toNat + k * slotBytes r) bs (updRoom id (fun _ => opened k r) s)) := by
  have opens : openVer r 1 0 = some (opened k r) := by
    have closed : (r.fresh != 0) = false := by simp [fresh]
    have many : (r.slots == 1) = false := by simp [slots]
    unfold openVer
    rw [closed, many, free]
    rfl
  unfold putVersion
  rw [held, Option.bind_some, opens]
  dsimp only
  have put : putOpened id (opened k r) s = updRoom id (fun _ => opened k r) s := by
    have many : ((opened k r).slots == 1) = false := by simp [opened, slots]
    unfold putOpened
    rw [many]
    rfl
  rw [put]
  rfl

theorem putVersion_onlyStores (held : roomAt s id = some r) (slots : r.slots = 2) (fresh : r.fresh = 0)
    (free : freeSlot r = some k) : OnlyStores s (putVersion id bs s) := by
  rw [putVersion_of_free held slots fresh free]
  exact OnlyStores.trans (t := wr (r.base.toNat + k * slotBytes r) bs (updRoom id (fun _ => opened k r) s)) rfl
    (commitRoom_onlyRooms ..).stores

theorem putVersion_mem (held : roomAt s id = some r) (slots : r.slots = 2) (fresh : r.fresh = 0) (free : freeSlot r = some k) :
    (putVersion id bs s).mem = (wr (r.base.toNat + k * slotBytes r) bs s).mem := by
  rw [putVersion_of_free held slots fresh free]
  exact (commitRoom_onlyRooms ..).mem

/-- What is put stays inside the room. -/
theorem putVersion_writesIn (held : roomAt s id = some r) (slots : r.slots = 2) (fresh : r.fresh = 0) (free : freeSlot r = some k)
    (lt : k < 2) (fits : bs.length ≤ slotBytes r) : WritesIn [roomSpan r] s (putVersion id bs s) := by
  have hi := slot_within slots lt
  have within : r.base.toNat + k * slotBytes r + bs.length ≤ (roomSpan r).1 + (roomSpan r).2 := by
    change _ ≤ roomEnd r
    omega
  exact (wr_writesIn_span (Nat.le_add_right ..) within).trans (writesIn_of_mem (putVersion_mem held slots fresh free) _)

theorem roomAt_opened (held : roomAt s id = some r) (a : Nat) :
    roomAt (wr a bs (updRoom id (fun _ => opened k r) s)) id = some (opened k r) := by
  show roomAt (updRoom id (fun _ => opened k r) s) id = _
  rw [roomAt_updRoom, if_pos rfl, held]
  rfl

theorem roomAt_putVersion (held : roomAt s id = some r) (slots : r.slots = 2) (fresh : r.fresh = 0) (free : freeSlot r = some k) :
    roomAt (putVersion id bs s) id = some (commitVer (opened k r)) ∨
    roomAt (putVersion id bs s) id =
      some (pinVer (commitVer (opened k r)) (commitVer (opened k r)).current.toNat) := by
  rw [putVersion_of_free held slots fresh free]
  exact roomAt_commitRoom (roomAt_opened held _)

end

/-! ### A staging room between two blocks -/

/-- Two slots, one of them free, a committed version, no pin. -/
def TwoSlots (r : Room) : Prop :=
  r.slots = 2 ∧ r.fresh = 0 ∧ r.current ≠ 0 ∧ r.curSlot < 2 ∧ r.slotVer.length = 5 ∧ r.slotVer.getD (1 - r.curSlot) 0 = 0 ∧
  ∀ k, r.pins.getD k 0 = 0

theorem freeSlot_of_twoSlots {r : Room} (two : TwoSlots r) :
    freeSlot r = if r.slotVer.getD 0 0 = 0 then some 0 else some 1 := by
  obtain ⟨slots, -, -, cur, -, free, pins⟩ := two
  unfold freeSlot
  rw [slots, show List.range 2 = [0, 1] from rfl]
  simp only [pins, List.find?_cons, beq_self_eq_true, Bool.and_true]
  split
  · next eq => rw [if_pos (by simpa using eq)]
  · next ne =>
    have second : r.curSlot = 0 := by
      rcases (by omega : r.curSlot = 0 ∨ r.curSlot = 1) with first | first
      · exact first
      · rw [first] at free
        rw [free] at ne
        exact absurd ne (by decide)
    rw [second] at free
    rw [if_neg (by simpa using ne)]
    simp only [free, beq_self_eq_true]

/-- There is always a free slot, and putting a version into it leaves the other one free. -/
theorem twoSlots_put {r : Room} (two : TwoSlots r) : ∃ k, k < 2 ∧ freeSlot r = some k ∧ TwoSlots (commitVer (opened k r)) := by
  obtain ⟨k, lt, free⟩ : ∃ k, k < 2 ∧ freeSlot r = some k := by
    rw [freeSlot_of_twoSlots two]
    split
    · exact ⟨0, by omega, rfl⟩
    · exact ⟨1, by omega, rfl⟩
  obtain ⟨slots, -, current, cur, len, other, pins⟩ := two
  refine ⟨k, lt, free, slots, rfl, nextVer_ne_zero _, lt, ?_, ?_, pins⟩
  · unfold commitVer opened
    dsimp only
    split <;> (try split) <;> simp [len]
  · have current' : ((opened k r).current != 0 && (opened k r).pins.getD (opened k r).curSlot 0 == 0) = true := by
      simp only [opened, pins, beq_self_eq_true, Bool.and_true, bne_iff_ne, ne_eq]
      exact current
    have slots' : ((opened k r).slots == 1) = false := by simp [opened, slots]
    show (lset _ k _).getD (1 - k) 0 = 0
    rw [current', slots']
    simp only [Bool.false_eq_true, if_false, if_true, opened]
    rw [getD_lset (by simp [len]; omega), if_neg (by omega), getD_lset (by simp [len]; omega)]
    split
    · rfl
    · rw [getD_lset (by omega), if_neg (by omega), show 1 - k = 1 - r.curSlot by omega]
      exact other

/-- Room `id` is the staging room that was `m`, between two blocks; no snapshot copies what is overwritten, and no request
ring begins its versions. -/
def RoomStands (id : Nat) (m : Room) (s : State) : Prop :=
  s.snap = none ∧ MemGood s ∧ (∀ r ∈ s.fab.rings, r.2.room.toNat ≠ id) ∧
  ∃ r, roomAt s id = some r ∧ TwoSlots r ∧ r.base = m.base ∧ r.pages = m.pages

/-- Its committed version is `bs`. -/
def Holds (id : Nat) (m : Room) (bs : List Byte) (s : State) : Prop :=
  ∃ r, roomAt s id = some r ∧ m.base.toNat ≤ slotStart r ∧ slotStart r + slotBytes m ≤ roomEnd m ∧
    rd s (slotStart r) bs.length = bs

section
variable {s t : State} {id : Nat} {m : Room} {bs : List Byte}

theorem putVersion_stands (two : m.slots = 2) (stands : RoomStands id m s) (fits : bs.length ≤ slotBytes m) :
    RoomStands id m (putVersion id bs s) ∧ WritesIn [roomSpan m] s (putVersion id bs s) ∧ OnlyStores s (putVersion id bs s) ∧
    Holds id m bs (putVersion id bs s) := by
  obtain ⟨noSnap, good, noRing, r, held, between, base, pages⟩ := stands
  obtain ⟨k, lt, free, after⟩ := twoSlots_put between
  obtain ⟨slots, fresh, -⟩ := between
  have bytes : slotBytes r = slotBytes m := by unfold slotBytes; rw [pages]
  have span : roomSpan r = roomSpan m := by
    unfold roomSpan extent
    rw [base, bytes, slots, two]
  have mem : (putVersion id bs s).mem = (wr (m.base.toNat + k * slotBytes m) bs s).mem := by
    rw [putVersion_mem held slots fresh free, base, bytes]
  have only := putVersion_onlyStores (bs := bs) held slots fresh free
  have put := putVersion_of_free (bs := bs) held slots fresh free
  rw [commitRoom_of_noRing (by exact noRing)] at put
  have held' : roomAt (putVersion id bs s) id = some (commitVer (opened k r)) := by
    rw [put, roomAt_updRoom, if_pos rfl, roomAt_opened held]
    rfl
  have start : slotStart (commitVer (opened k r)) = m.base.toNat + k * slotBytes m := by
    show r.base.toNat + k * slotBytes r = _
    rw [base, bytes]
  refine ⟨⟨?_, ?_, ?_, _, held', after, base, pages⟩, ?_, only, _, held', ?_⟩
  · rw [only]; exact noSnap
  · unfold MemGood
    rw [mem]
    exact wf_wr _ _ good
  · rw [put]; exact noRing
  · exact span ▸ putVersion_writesIn held slots fresh free lt (by rwa [bytes])
  · rw [start]
    refine ⟨Nat.le_add_right .., slot_within two lt, ?_⟩
    rw [rd_of_mem mem]
    exact rd_wr _ _ good

end

end Sys2Proof.Cellar
end

section
/-! PROOFS. A staged update goes home: the block staged, each later one through the same room, then the digests (08 R227,
R230). -/

namespace Sys2Proof.Cellar

open Sys2Proof.Machine Sys2Proof.Safety Sys2Proof.Laws

section
variable {s t u : State} {id : Nat} {m : Room} {hs : List (Nat × Nat)}

theorem RoomStands.onlyMem (h : RoomStands id m s) (only : OnlyMem s t) (good : MemGood t) : RoomStands id m t := by
  obtain ⟨noSnap, -, noRing, r, held, rest⟩ := h
  rw [only] at good ⊢
  exact ⟨noSnap, good, noRing, r, held, rest⟩

/-- From `s` to `t` nothing is written but the room and the homes `hs`, and the room stands ready again. -/
def Puts (id : Nat) (m : Room) (hs : List (Nat × Nat)) (s t : State) : Prop :=
  RoomStands id m t ∧ WritesIn (roomSpan m :: hs) s t ∧ OnlyStores s t

theorem Puts.trans (h : Puts id m hs s t) (k : Puts id m hs t u) : Puts id m hs s u :=
  ⟨k.1, h.2.1.trans k.2.1, h.2.2.trans k.2.2⟩

theorem Puts.mono {gs : List (Nat × Nat)} (h : Puts id m hs s t) (sub : hs ⊆ gs) : Puts id m gs s t :=
  ⟨h.1, h.2.1.mono (List.cons_subset_cons _ sub), h.2.2⟩

theorem Puts.refl (stands : RoomStands id m s) : Puts id m hs s s := ⟨stands, writesIn_of_mem rfl _, rfl⟩

/-- A home apart from the room and from what is put is read as before. -/
theorem Puts.rd_eq {a n : Nat} (h : Puts id m hs s t) (room : Apart (a, n) (roomSpan m)) (away : ∀ g ∈ hs, Apart g (a, n)) :
    rd t a n = rd s a n :=
  h.2.1.rd_eq (List.forall_mem_cons.mpr ⟨room.symm, away⟩)

theorem length_flatMap_snd (ws : List (Nat × List Byte)) : (ws.flatMap (fun w => w.2)).length = stagedLen ws := by
  rw [stagedLen, sumNat_eq_sum, List.length_flatMap]

theorem length_flatMap_rd (ws : List (Nat × List Byte)) (s : State) :
    (ws.flatMap (fun w => rd s w.1 w.2.length)).length = stagedLen ws := by
  rw [stagedLen, sumNat_eq_sum, List.length_flatMap]
  simp only [length_rd]

/-- The committed version of a staging room goes to homes apart from the room and from each other. -/
theorem blockHome_puts {bs : List Byte} {ps : List (Nat × Nat)} (stands : RoomStands id m s) (holds : Holds id m bs s)
    (len : sumNat (ps.map (fun h => h.2)) = bs.length) (fits : bs.length ≤ slotBytes m) (apart : ps.Pairwise Apart)
    (away : ∀ h ∈ ps, Apart h (roomSpan m)) :
    Puts id m ps s (blockHome id ps s) ∧ ps.flatMap (fun h => rd (blockHome id ps s) h.1 h.2) = bs := by
  obtain ⟨r, held, lo, hi, content⟩ := holds
  have ⟨noSnap, good, _⟩ := stands
  have home : blockHome id ps s = copyHome ps (slotStart r) s := by
    unfold blockHome
    rw [held]
    rfl
  have only := copyHome_onlyMem (src := slotStart r) noSnap ps
  rw [home]
  refine ⟨⟨stands.onlyMem only (copyHome_memGood noSnap good ps), (copyHome_writesIn noSnap ps).mono (by simp), only.stores⟩, ?_⟩
  rw [rd_copyHome noSnap good apart fun h hh => ?_, len, content]
  have := away h hh
  have inside : roomEnd m = (roomSpan m).1 + (roomSpan m).2 := rfl
  have start : m.base.toNat = (roomSpan m).1 := rfl
  unfold Apart at this ⊢
  omega

/-- A block staged in the room: first what stands at its homes, then its new state (log 36). -/
theorem stageBlock_stands (two : m.slots = 2) (stands : RoomStands id m s) {ws : List (Nat × List Byte)}
    (fits : stagedLen ws ≤ slotBytes m) :
    Puts id m [] s (stageBlock id ws s) ∧ Holds id m (ws.flatMap (fun w => w.2)) (stageBlock id ws s) := by
  obtain ⟨stands1, in1, only1, -⟩ :=
    putVersion_stands (bs := ws.flatMap (fun w => rd s w.1 w.2.length)) two stands (by rwa [length_flatMap_rd])
  obtain ⟨stands2, in2, only2, holds⟩ :=
    putVersion_stands (bs := ws.flatMap (fun w => w.2)) two stands1 (by rwa [length_flatMap_snd])
  exact ⟨⟨stands2, in1.trans in2, only1.trans only2⟩, holds⟩

/-- A later block of a staged update: through the room to its homes. -/
theorem writeBlock_puts (two : m.slots = 2) (stands : RoomStands id m s) {ws : List (Nat × List Byte)}
    (fits : stagedLen ws ≤ slotBytes m) (apart : (spansOfWrites ws).Pairwise Apart)
    (away : ∀ h ∈ spansOfWrites ws, Apart h (roomSpan m)) :
    Puts id m (spansOfWrites ws) s (blockHome id (spansOfWrites ws) (stageBlock id ws s)) ∧
    ∀ w ∈ ws, rd (blockHome id (spansOfWrites ws) (stageBlock id ws s)) w.1 w.2.length = w.2 := by
  obtain ⟨staged, holds⟩ := stageBlock_stands two stands fits
  have len : sumNat ((spansOfWrites ws).map (fun h => h.2)) = (ws.flatMap (fun w => w.2)).length := by
    rw [length_flatMap_snd, spansOfWrites, List.map_map]
    rfl
  obtain ⟨home, content⟩ := blockHome_puts staged.1 holds len (by rwa [length_flatMap_snd]) apart away
  refine ⟨(staged.mono (List.nil_subset _)).trans home, rd_of_flatMap ?_⟩
  rw [← content]
  simp only [spansOfWrites, List.flatMap_map]

/-- The later blocks of a staged update, one after another. -/
theorem writeBlocks_put (two : m.slots = 2) (stands : RoomStands id m s) {wss : List (List (Nat × List Byte))}
    (fits : ∀ ws ∈ wss, stagedLen ws ≤ slotBytes m) (apart : (wss.flatMap spansOfWrites).Pairwise Apart)
    (away : ∀ h ∈ wss.flatMap spansOfWrites, Apart h (roomSpan m)) :
    Puts id m (wss.flatMap spansOfWrites) s (forEach wss (fun ws s => blockHome id (spansOfWrites ws) (stageBlock id ws s)) s) ∧
    ∀ ws ∈ wss, ∀ w ∈ ws,
      rd (forEach wss (fun ws s => blockHome id (spansOfWrites ws) (stageBlock id ws s)) s) w.1 w.2.length = w.2 := by
  induction wss generalizing s with
  | nil => exact ⟨.refl stands, fun _ h => nomatch h⟩
  | cons ws wss ih =>
    rw [List.flatMap_cons] at apart away
    obtain ⟨apart1, apart2, cross⟩ := List.pairwise_append.mp apart
    obtain ⟨away1, away2⟩ := List.forall_mem_append.mp away
    obtain ⟨fits1, fits2⟩ := List.forall_mem_cons.mp fits
    obtain ⟨put1, content1⟩ := writeBlock_puts two stands fits1 apart1 away1
    obtain ⟨put2, content2⟩ := ih put1.1 fits2 apart2 away2
    rw [forEach_cons, List.flatMap_cons]
    refine ⟨(put1.mono (List.subset_append_left ..)).trans (put2.mono (List.subset_append_right ..)),
      List.forall_mem_cons.mpr ⟨fun w hw => ?_, content2⟩⟩
    have span : (w.1, w.2.length) ∈ spansOfWrites ws := List.mem_map.mpr ⟨w, hw, rfl⟩
    rw [put2.rd_eq (away1 _ span) fun g hg => (cross _ span g hg).symm]
    exact content1 w hw

/-- The digest entries of a staged update. -/
theorem digests_put (stands : RoomStands id m s) {ds : List (Nat × W64)} (apart : (ds.map (fun d => (d.1, 8))).Pairwise Apart)
    (away : ∀ h ∈ ds.map (fun d => (d.1, 8)), Apart h (roomSpan m)) :
    Puts id m (ds.map (fun d => (d.1, 8))) s (forEach ds (fun d s => homeWrite d.1 (bytesLE 8 d.2.toNat) s) s) ∧
    ∀ d ∈ ds, rd (forEach ds (fun d s => homeWrite d.1 (bytesLE 8 d.2.toNat) s) s) d.1 8 = bytesLE 8 d.2.toNat := by
  induction ds generalizing s with
  | nil => exact ⟨.refl stands, fun _ h => nomatch h⟩
  | cons d ds ih =>
    rw [List.map_cons] at apart away ⊢
    obtain ⟨first, apart⟩ := List.pairwise_cons.mp apart
    obtain ⟨away1, away2⟩ := List.forall_mem_cons.mp away
    have ⟨noSnap, good, _⟩ := stands
    rw [forEach_cons, homeWrite_of_noSnap noSnap]
    have put1 : Puts id m [(d.1, 8)] s (wr d.1 (bytesLE 8 d.2.toNat) s) :=
      ⟨stands.onlyMem rfl (wf_wr _ _ good), (wr_writesIn (n := 8) rfl).mono (by simp), rfl⟩
    obtain ⟨put2, content2⟩ := ih put1.1 apart away2
    refine ⟨(put1.mono (by simp)).trans (put2.mono (List.subset_cons_self ..)), List.forall_mem_cons.mpr ⟨?_, content2⟩⟩
    rw [put2.rd_eq away1 fun g hg => (first g hg).symm]
    exact rd_wr d.1 (bytesLE 8 d.2.toNat) good

/-- A staged update goes home: its homes hold the new state, and nothing but these and the staging room is written. -/
theorem putHome_puts {x : Staged} (noSnap : s.snap = none) (good : MemGood s) (held : roomAt s x.room.toNat = some m)
    (staging : StagingGood x m s) :
    Puts x.room.toNat m (homesOf x) s (putHome x s) ∧
    x.spans.flatMap (fun h => rd (putHome x s) h.1 h.2) = rd s (slotStart m) (sumNat (x.spans.map (fun h => h.2))) ∧
    (∀ ws ∈ x.writes, ∀ w ∈ ws, rd (putHome x s) w.1 w.2.length = w.2) ∧
    ∀ d ∈ x.digests, rd (putHome x s) d.1 8 = bytesLE 8 d.2.toNat := by
  obtain ⟨two, fresh, current, cur, len, other, pins, noRing, fits1, fits2, apart, away⟩ := staging
  have stands : RoomStands x.room.toNat m s :=
    ⟨noSnap, good, fun r hr eq => noRing r hr (BitVec.eq_of_toNat_eq eq), m, held,
      ⟨two, fresh, current, cur, len, other, pins⟩, rfl, rfl⟩
  have slot : slotStart m + slotBytes m ≤ roomEnd m := slot_within two cur
  unfold homesOf at apart away ⊢
  obtain ⟨apart, apart3, cross3⟩ := List.pairwise_append.mp apart
  obtain ⟨apart1, apart2, cross2⟩ := List.pairwise_append.mp apart
  obtain ⟨away, away3⟩ := List.forall_mem_append.mp away
  obtain ⟨away1, away2⟩ := List.forall_mem_append.mp away
  obtain ⟨put1, content1⟩ := blockHome_puts (bs := rd s (slotStart m) (sumNat (x.spans.map (fun h => h.2)))) stands
    ⟨m, held, Nat.le_add_right .., slot, by rw [length_rd]⟩ (length_rd ..).symm (by rwa [length_rd]) apart1 away1
  obtain ⟨put2, content2⟩ := writeBlocks_put two put1.1 fits2 apart2 away2
  obtain ⟨put3, content3⟩ := digests_put put2.1 apart3 away3
  refine ⟨((put1.mono ?_).trans (put2.mono ?_)).trans (put3.mono ?_), ?_, fun ws hws w hw => ?_, content3⟩
  · exact List.Subset.trans (List.subset_append_left ..) (List.subset_append_left ..)
  · exact List.Subset.trans (List.subset_append_right ..) (List.subset_append_left ..)
  · exact List.subset_append_right ..
  · refine Eq.trans ?_ content1
    have unchanged : ∀ h ∈ x.spans, rd (putHome x s) h.1 h.2 = rd (blockHome x.room.toNat x.spans s) h.1 h.2 := fun h hh =>
      (put3.rd_eq (away1 h hh) fun g hg => (cross3 h (List.mem_append_left _ hh) g hg).symm).trans
        (put2.rd_eq (away1 h hh) fun g hg => (cross2 h hh g hg).symm)
    exact congrArg List.flatten (List.map_congr_left unchanged)
  · have span : (w.1, w.2.length) ∈ x.writes.flatMap spansOfWrites :=
      List.mem_flatMap.mpr ⟨ws, hws, List.mem_map.mpr ⟨w, hw, rfl⟩⟩
    exact (put3.rd_eq (away2 _ span) fun g hg => (cross3 _ (List.mem_append_right _ span) g hg).symm).trans
      (content2 ws hws w hw)

end

end Sys2Proof.Cellar
end

section
/-! PROOFS. The commit of a staged update by the Cellar update engine (08 R227, R234, R236, R238). -/

namespace Sys2Proof.Cellar

open Sys2Proof.Machine Sys2Proof.Safety Sys2Proof.Laws

/-! ### What the end of an update leaves as it was -/

/-- `t` is `s` but for the rooms, the request rings, what has been sent, and the stalls and the lag of the waiting step. -/
def OnlyReleases (s t : State) : Prop := t = { s with
  rooms := t.rooms, fab := t.fab, outs := t.outs
  steps := { s.steps with
    job := t.steps.job, lagInForce := t.steps.lagInForce
    record := { s.steps.record with lagStalls := t.steps.record.lagStalls, lagBeats := t.steps.record.lagBeats } } }

section
variable {s t u : State}

theorem OnlyReleases.trans (h : OnlyReleases s t) (k : OnlyReleases t u) : OnlyReleases s u := by
  unfold OnlyReleases at k
  rw [h] at k
  exact k

theorem OnlyRooms.releases (h : OnlyRooms s t) : OnlyReleases s t := by
  unfold OnlyReleases
  rw [h]

/-- The parts that a commit and an install speak of. -/
theorem OnlyReleases.same (h : OnlyReleases s t) : t.mem = s.mem ∧ t.params = s.params ∧ t.log = s.log ∧ t.snap = s.snap ∧
    t.steps.record.ratios = s.steps.record.ratios := by
  rw [h]
  exact ⟨rfl, rfl, rfl, rfl, rfl⟩

theorem commitWork_onlyRooms (e : BitVec 512) (s : State) : OnlyRooms s (commitWork e s) := by
  unfold commitWork
  dsimp only
  split
  · next r _ =>
    split
    · next r' _ => exact OnlyRooms.trans (t := updRoom (locRoom (peWork e)) (fun _ => r') s) rfl (commitRoom_onlyRooms ..)
    · rfl
  · rfl

theorem freeStaging_onlyRooms (x : Staged) (s : State) : OnlyRooms s (freeStaging x s) := by
  unfold freeStaging
  split
  · rfl
  · exact releaseNow_onlyRooms ..

theorem settleLag_onlyReleases (s : State) : OnlyReleases s (settleLag s) := by
  unfold settleLag
  split <;> rfl

theorem releaseGradient_onlyReleases (step : Nat) (e : BitVec 512) (noSnap : s.snap = none) :
    OnlyReleases s (releaseGradient step e s) := by
  unfold releaseGradient
  split
  · rfl
  · next v _ =>
    dsimp only
    have kept (f : Room → Room) : saveVersion (peGradRoom e) v.1.toNat (updRoom (peGradRoom e) f s) = updRoom (peGradRoom e) f s := by
      unfold saveVersion
      rw [updRoom_snap, noSnap]
    rw [kept]
    exact (OnlyRooms.releases (OnlyRooms.trans (t := updRoom (peGradRoom e) _ s) rfl (unpinRoom_onlyRooms ..))).trans
      (settleLag_onlyReleases _)

theorem endStalls_onlyReleases (i : Nat) (s : State) : OnlyReleases s (endStalls i s) := by
  unfold endStalls
  split
  · rfl
  · split <;> rfl

theorem refreshLodged_onlyReleases (p : Plan) (e : BitVec 512 × Nat) (step : Nat) (s : State) :
    OnlyReleases s (refreshLodged p e step s) := by
  unfold refreshLodged
  split <;> rfl

/-- A watch group's run ends with its ratio in the record under way, or stays as it is (08 R238). -/
theorem settleGroup_cases (g step : Nat) (s : State) : settleGroup g step s = s ∨
    ∃ r, runOf s g step = some r ∧ settleGroup g step s = putRatio r.2.2.2 (dropRun g step s) := by
  unfold settleGroup
  dsimp only
  split
  · next r run =>
    split
    · exact .inl rfl
    · exact .inr ⟨r, run, rfl⟩
  · exact .inl rfl

/-- Of the record under way only the ratios, of parameter state only the runs of groups. -/
theorem settleGroup_same (g step : Nat) (s : State) : (settleGroup g step s).mem = s.mem ∧ (settleGroup g step s).log = s.log ∧
    (settleGroup g step s).params = { s.params with groupRuns := (settleGroup g step s).params.groupRuns } ∧
    (settleGroup g step s).snap = s.snap := by
  rcases settleGroup_cases g step s with eq | ⟨r, -, eq⟩ <;> rw [eq] <;> exact ⟨rfl, rfl, rfl, rfl⟩

theorem settleGroup_params (g step : Nat) (s : State) : (settleGroup g step s).params.staged = s.params.staged ∧
    (settleGroup g step s).params.stopped = s.params.stopped ∧ (settleGroup g step s).params.fetching = s.params.fetching := by
  obtain ⟨-, -, params, -⟩ := settleGroup_same g step s
  rw [params]
  exact ⟨rfl, rfl, rfl⟩

theorem settleGroup_ratios (g step : Nat) (s : State) : (settleGroup g step s).steps.record.ratios = s.steps.record.ratios ∨
    ∃ r, runOf s g step = some r ∧ (settleGroup g step s).steps.record.ratios = s.steps.record.ratios ++ [r.2.2.2] := by
  rcases settleGroup_cases g step s with eq | ⟨r, run, eq⟩
  · exact .inl (by rw [eq])
  · exact .inr ⟨r, run, by rw [eq]; rfl⟩

end

/-! ### CELLAR_UPDATE_COMMIT -/

@[simp] theorem setApplied_mem (i step : Nat) (s : State) : (setApplied i step s).mem = s.mem := rfl
@[simp] theorem setDigested_mem (i step : Nat) (s : State) : (setDigested i step s).mem = s.mem := rfl

/-- The engine is free again. -/
def unstaged (s : State) : State := { s with params := { s.params with staged := none } }

/-- The staged state stands at its homes, its rooms settled, the step applied and noted with the digests. -/
def homeAndApplied (x : Staged) (e : BitVec 512 × Nat) (s : State) : State :=
  setApplied x.entry x.step.toNat (setDigested x.entry x.step.toNat
    (freeStaging x (commitWork e.1 (putHome x (unstaged s)))))

/-- What waited for the update goes on. -/
def updateReleased (x : Staged) (e : BitVec 512 × Nat) (s : State) : State :=
  let t := endStalls x.entry (releaseGradient x.step.toNat e.1 (homeAndApplied x e s))
  match trainPlan t with
  | some p => refreshLodged p e x.step.toNat t
  | none => t

section
variable {s : State} {x : Staged} {e : BitVec 512 × Nat} {m : Room}

theorem cellarUpdateCommit_of_ready (staged : s.params.staged = some x)
    (entry : (trainedEntries s).find? (fun e => e.2 == x.entry) = some e) (powered : inReg s sdCel = true)
    (runs : domainRuns s dieCellar = true) (live : x.skip = false) (scaled : scaleDone s (x.step.toNat + peLag e.1 - 1) e = true)
    (unpinned : workPinned s e.1 = false) :
    cellarUpdateCommit s = settleGroup (peGroup e.1) x.step.toNat (updateReleased x e s) := by
  unfold cellarUpdateCommit
  rw [staged]
  dsimp only
  rw [entry]
  dsimp only
  rw [powered, runs, live, scaled, unpinned]
  rfl

/-- Going home changes of parameter state what is staged, and the applied and the digested step of the entry. -/
theorem homeAndApplied_same (noSnap : s.snap = none) (good : MemGood s) (held : roomAt s x.room.toNat = some m)
    (staging : StagingGood x m s) :
    (homeAndApplied x e s).mem = (putHome x (unstaged s)).mem ∧
    (homeAndApplied x e s).params = { s.params with
      staged := none, applied := tset s.params.applied x.entry (BitVec.ofNat 64 x.step.toNat)
      digested := tset s.params.digested x.entry (BitVec.ofNat 64 x.step.toNat) } ∧
    (homeAndApplied x e s).steps = s.steps ∧ (homeAndApplied x e s).snap = none := by
  obtain ⟨⟨-, -, stores⟩, -⟩ :=
    putHome_puts (s := unstaged s) noSnap good held staging
  have rooms := (commitWork_onlyRooms e.1 (putHome x (unstaged s))).trans
    (freeStaging_onlyRooms x _)
  unfold homeAndApplied
  rw [setApplied_mem, setDigested_mem, rooms.mem, rooms, stores]
  exact ⟨rfl, rfl, rfl, noSnap⟩

theorem updateReleased_onlyReleases (noSnap : (homeAndApplied x e s).snap = none) :
    OnlyReleases (homeAndApplied x e s) (updateReleased x e s) := by
  have settled := (releaseGradient_onlyReleases x.step.toNat e.1 noSnap).trans (endStalls_onlyReleases x.entry _)
  unfold updateReleased
  dsimp only
  split
  · exact settled.trans (refreshLodged_onlyReleases ..)
  · exact settled

/-- A commit writes the staged bytes to their homes, and nothing else outside the staging room (08 R227, R234). -/
theorem cellarUpdateCommit_does (good : MemGood s) (staged : s.params.staged = some x)
    (entry : (trainedEntries s).find? (fun e => e.2 == x.entry) = some e) (powered : inReg s sdCel = true)
    (runs : domainRuns s dieCellar = true) (noSnap : s.snap = none) (live : x.skip = false)
    (scaled : scaleDone s (x.step.toNat + peLag e.1 - 1) e = true) (unpinned : workPinned s e.1 = false)
    (held : roomAt s x.room.toNat = some m) (staging : StagingGood x m s) :
    Completes .cellarUpdateCommit s (fun t =>
      (∀ b, (∀ h ∈ homesOf x, b < h.1 ∨ h.1 + h.2 ≤ b) → (b < m.base.toNat ∨ roomEnd m ≤ b) →
        cellsGet t.mem.cells b = cellsGet s.mem.cells b) ∧
      x.spans.flatMap (fun h => rd t h.1 h.2) = rd s (slotStart m) (sumNat (x.spans.map (fun h => h.2))) ∧
      (∀ ws ∈ x.writes, ∀ w ∈ ws, rd t w.1 w.2.length = w.2) ∧ (∀ d ∈ x.digests, rd t d.1 8 = bytesLE 8 d.2.toNat) ∧
      t.params.staged = none ∧ tfind? t.params.applied x.entry = some x.step ∧ tfind? t.params.digested x.entry = some x.step ∧
      (t.steps.record.ratios = s.steps.record.ratios ∨ ∃ r, runOf s (peGroup e.1) x.step.toNat = some r ∧
        t.steps.record.ratios = s.steps.record.ratios ++ [r.2.2.2])) := by
  obtain ⟨⟨-, inside, -⟩, spans, writes, digests⟩ :=
    putHome_puts (s := unstaged s) noSnap good held staging
  obtain ⟨homeMem, homeParams, homeSteps, homeSnap⟩ := homeAndApplied_same (e := e) noSnap good held staging
  obtain ⟨relMem, relParams, -, -, relRatios⟩ := (updateReleased_onlyReleases (x := x) (e := e) (s := s) homeSnap).same
  have commits := cellarUpdateCommit_of_ready staged entry powered runs live scaled unpinned
  obtain ⟨setMem, -, setParams, -⟩ := settleGroup_same (peGroup e.1) x.step.toNat (updateReleased x e s)
  have mem : (cellarUpdateCommit s).mem = (putHome x (unstaged s)).mem := by
    rw [commits, setMem, relMem, homeMem]
  have params : (cellarUpdateCommit s).params = { s.params with
      staged := none, applied := tset s.params.applied x.entry (BitVec.ofNat 64 x.step.toNat)
      digested := tset s.params.digested x.entry (BitVec.ofNat 64 x.step.toNat)
      groupRuns := (cellarUpdateCommit s).params.groupRuns } := by
    rw [commits, setParams, relParams, homeParams]
  have runs_ : runOf (updateReleased x e s) (peGroup e.1) x.step.toNat = runOf s (peGroup e.1) x.step.toNat := by
    unfold runOf
    rw [relParams, homeParams]
  refine ⟨cellarUpdateCommit s, rfl, fun b out room => ?_, ?_, fun ws hws w hw => ?_, fun d hd => ?_, ?_, ?_, ?_, ?_⟩
  · rw [mem]
    exact inside b (List.forall_mem_cons.mpr ⟨room, out⟩)
  · simp only [rd_of_mem mem]
    exact spans
  · rw [rd_of_mem mem]
    exact writes ws hws w hw
  · rw [rd_of_mem mem]
    exact digests d hd
  · rw [params]
  · rw [params]
    simp
  · rw [params]
    simp
  · rw [commits, ← runs_, ← homeSteps, ← relRatios]
    exact settleGroup_ratios ..

end

end Sys2Proof.Cellar
end

section
/-! PROOFS. What the update engine reports and asks for, and what failing a step leaves as it was (08 R232, R242, 13 R374). -/

namespace Sys2Proof.Cellar

open Sys2Proof.Machine Sys2Proof.Safety Sys2Proof.Laws

/-! ### Events and requests for state -/

/-- `t` is `s` but for the log with its signals, what has been sent, and the states asked for. -/
def OnlyReports (s t : State) : Prop := t = { s with
  log := t.log, power := t.power, porter := t.porter, outs := t.outs, params := { s.params with fetching := t.params.fetching } }

section
variable {s t u : State}

theorem OnlyReports.trans (h : OnlyReports s t) (k : OnlyReports t u) : OnlyReports s u := by
  unfold OnlyReports at k
  rw [h] at k
  exact k

/-- The parts that an update is computed from and staged in. -/
theorem OnlyReports.same (h : OnlyReports s t) : t.mem = s.mem ∧ t.rooms = s.rooms ∧ t.fab = s.fab ∧ t.steps = s.steps ∧
    t.params = { s.params with fetching := t.params.fetching } := by
  rw [h]
  exact ⟨rfl, rfl, rfl, rfl, rfl⟩

theorem raise_onlyReports (code plane die : Nat) (args : List (Nat × Nat)) (s : State) :
    OnlyReports s (raise code plane die args s) := rfl

theorem requestState_onlyReports (p : Plan) (e : BitVec 512 × Nat) (b : Option Nat) (step : W64) (s : State) :
    OnlyReports s (requestState p e b step s) := rfl

theorem OnlyReports.forEach {α : Type} {l : List α} {f : α → State → State} (step : ∀ x v, OnlyReports v (f x v)) (s : State) :
    OnlyReports s (forEach l f s) :=
  forEach_keeps (P := OnlyReports s) s (fun x _ v h => h.trans (step x v)) rfl

theorem failTensor_onlyReports (p : Plan) (step : Nat) (e : BitVec 512 × Nat) (s : State) :
    OnlyReports s (failTensor p step e s) :=
  (OnlyReports.forEach (fun _ _ => raise_onlyReports ..) s).trans (requestState_onlyReports ..)

/-- The state of a tensor that failed whole is asked for (08 R242). -/
theorem mem_fetching_failTensor (p : Plan) (step : Nat) (e : BitVec 512 × Nat) (s : State) :
    (e.2, none, BitVec.ofNat 64 step) ∈ (failTensor p step e s).params.fetching :=
  List.mem_append_right _ List.mem_cons_self

end

/-! ### A step that fails -/

/-- `t` is `s` but for what a failed step ends: what it wrote and pinned, its orders, and the states asked for in its place. -/
def OnlyFails (s t : State) : Prop := t = { s with
  mem := t.mem, rooms := t.rooms, fab := t.fab, porter := t.porter, outs := t.outs, freeCount := t.freeCount, steps := t.steps
  cap := t.cap, params := { s.params with fetching := t.params.fetching } }

section
variable {s t u : State}

theorem OnlyFails.trans (h : OnlyFails s t) (k : OnlyFails t u) : OnlyFails s u := by
  unfold OnlyFails at k
  rw [h] at k
  exact k

theorem OnlyFails.same (h : OnlyFails s t) : t.log = s.log ∧ t.params.staged = s.params.staged ∧
    t.params.stopped = s.params.stopped := by
  rw [h]
  exact ⟨rfl, rfl, rfl⟩

theorem OnlyFails.forEach {α : Type} {l : List α} {f : α → State → State} (step : ∀ x v, OnlyFails v (f x v)) (s : State) :
    OnlyFails s (forEach l f s) :=
  forEach_keeps (P := OnlyFails s) s (fun x _ v h => h.trans (step x v)) rfl

theorem OnlyRooms.fails (h : OnlyRooms s t) : OnlyFails s t := by
  unfold OnlyFails
  rw [h]

theorem OnlyAnswers.fails (h : Towers.OnlyAnswers s t) : OnlyFails s t := by
  unfold OnlyFails
  rw [h]

theorem abandonGradients_onlyFails (p : Plan) (step : W64) (s : State) : OnlyFails s (abandonGradients p step s) := by
  refine OnlyFails.forEach (fun x v => ?_) s
  dsimp only
  split
  · split <;> rfl
  · rfl

theorem mixSlot_onlyFails (r : Room) (s : State) : OnlyFails s (mixSlot r s) := by
  refine OnlyFails.trans (OnlyFails.forEach (fun a v => ?_) s) rfl
  unfold mixByte
  split <;> rfl

theorem abandonFresh_onlyFails (id : Nat) (s : State) : OnlyFails s (abandonFresh id s) := by
  unfold abandonFresh
  split
  · rfl
  · next r _ =>
    split
    · rfl
    · refine OnlyFails.trans ?_ (settleRelease_onlyRooms ..).fails
      refine OnlyFails.trans (t := if r.slots == 1 then mixSlot r s else s) ?_ rfl
      split
      · exact mixSlot_onlyFails ..
      · rfl

theorem releasePins_onlyFails (e : Journal) (s : State) : OnlyFails s (releasePins e s) := by
  unfold releasePins
  split
  · rfl
  · exact OnlyFails.trans (t := { s with porter := _ }) rfl (OnlyFails.forEach (fun _ _ => (unpinRoom_onlyRooms ..).fails) _)

theorem finish_onlyFails (sel : Pending → Bool) {r : Reply} (out : r.out = none) (s : State) : OnlyFails s (finish sel r s) :=
  OnlyAnswers.fails (Towers.finish_onlyAnswers sel out s)

/-- The gradients that the step's plan has opened are abandoned. -/
def planAbandoned (j : Job) (s : State) : State :=
  match planOf s j.handle with
  | some p => abandonGradients p j.step s
  | none => s

theorem planAbandoned_onlyFails (j : Job) (s : State) : OnlyFails s (planAbandoned j s) := by
  unfold planAbandoned
  split
  · exact abandonGradients_onlyFails ..
  · rfl

theorem OnlyFails.closed (h : OnlyFails s t) {x : Steps} {c : Cap} : OnlyFails s { t with steps := x, cap := c } := h.trans rfl

theorem OnlyFails.noted (h : OnlyFails s t) {x : Porter} : OnlyFails s { t with porter := x } := h.trans rfl

theorem failStep_onlyFails (st detail : Nat) (s : State) : OnlyFails s (failStep st detail s) := by
  unfold failStep
  split
  · rfl
  · next j _ =>
    dsimp only
    refine OnlyFails.closed ?_
    have ended {rooms : List Nat} {js : List Journal} {ks : List (Nat × Nat × Nat)} {x : Porter} {sel : Pending → Bool} :
        OnlyFails s (finish sel { st := st, detail := detail } { forEach ks (fun k s => unpinRoom k.2.1 k.2.2 s)
          (forEach js releasePins (forEach rooms abandonFresh (planAbandoned j s))) with porter := x }) :=
      ((((planAbandoned_onlyFails j s).trans (OnlyFails.forEach abandonFresh_onlyFails _)).trans
        (OnlyFails.forEach releasePins_onlyFails _)).trans
        (OnlyFails.forEach (fun _ _ => (unpinRoom_onlyRooms ..).fails) _)).noted.trans (finish_onlyFails _ rfl _)
    split
    · exact ended.trans (finish_onlyFails _ rfl _)
    · exact ended

/-- No step is open after a step has failed. -/
theorem failStep_job (st detail : Nat) (s : State) : (failStep st detail s).steps.job = none := by
  unfold failStep
  split
  · next none_ => exact none_
  · rfl

end

end Sys2Proof.Cellar
end

section
/-! PROOFS. The Cellar update engine begins an update (08 R227, R231, R234, R236, R238, R242). -/

namespace Sys2Proof.Cellar

open Sys2Proof.Machine Sys2Proof.Safety Sys2Proof.Laws

/-! ### The staging room that an update is granted -/

/-- Its request: two slots in the Mere, each as large as the largest block. -/
def stagingReq (blocks : List (List (Nat × List Byte))) : RoomReq :=
  { cls := 1, home := 1, index := 0, slots := 2, fallback := false
    pages := max 1 (cdiv (listMax (blocks.map stagedLen)) pageBytes) }

theorem stagingRoom_eq (blocks : List (List (Nat × List Byte))) (s : State) :
    stagingRoom blocks s = grantRoom (stagingReq blocks) 0xFFFF s := rfl

theorem stagingRoom_of_some {blocks : List (List (Nat × List Byte))} {s : State} {g : Nat × State}
    (granted : stagingRoom blocks s = some g) :
    ∃ p, g.2 = { s with rooms := tset s.rooms g.1 (newRoom (stagingReq blocks) 0xFFFF p) } := by
  rw [stagingRoom_eq] at granted
  unfold grantRoom at granted
  split at granted
  · next p id _ _ =>
    cases granted
    exact ⟨p, rfl⟩
  · cases granted

theorem le_listMax {l : List Nat} {n : Nat} (mem : n ∈ l) : n ≤ listMax l := by
  have key (l : List Nat) : ∀ a, a ≤ l.foldl Nat.max a ∧ ∀ n ∈ l, n ≤ l.foldl Nat.max a := by
    induction l with
    | nil => exact fun a => ⟨Nat.le_refl a, fun _ h => nomatch h⟩
    | cons b l ih => exact fun a => ⟨Nat.le_trans (Nat.le_max_left a b) (ih _).1,
        List.forall_mem_cons.mpr ⟨Nat.le_trans (Nat.le_max_right a b) (ih _).1, (ih _).2⟩⟩
  exact (key l 0).2 n mem

/-- The first block fits a slot. -/
theorem firstBlock_fits (blocks : List (List (Nat × List Byte))) (p : Nat × Nat × Nat × Bool) :
    stagedLen (blocks.headD []) ≤ slotBytes (newRoom (stagingReq blocks) 0xFFFF p) := by
  cases blocks with
  | nil => exact Nat.zero_le _
  | cons ws rest =>
    have le : stagedLen ws ≤ listMax ((ws :: rest).map stagedLen) := le_listMax List.mem_cons_self
    show stagedLen ws ≤ max 1 (cdiv (listMax ((ws :: rest).map stagedLen)) 4096) * 4096
    unfold cdiv
    omega

theorem pinVer_same (r : Room) (v : Nat) : (pinVer r v).base = r.base ∧ (pinVer r v).pages = r.pages ∧
    (pinVer r v).slots = r.slots ∧ (pinVer r v).curSlot = r.curSlot ∧ (pinVer r v).fresh = r.fresh := by
  unfold pinVer
  split <;> exact ⟨rfl, rfl, rfl, rfl, rfl⟩

/-- The room after a version has been put into slot `k`, whether a request ring begins it or not. -/
theorem putVersion_room {s : State} {id k : Nat} {r : Room} (bs : List Byte) (held : roomAt s id = some r) (slots : r.slots = 2)
    (fresh : r.fresh = 0) (free : freeSlot r = some k) : ∃ m, roomAt (putVersion id bs s) id = some m ∧
      m.base = r.base ∧ m.pages = r.pages ∧ m.slots = 2 ∧ m.fresh = 0 ∧ m.curSlot = k := by
  rcases roomAt_putVersion (bs := bs) held slots fresh free with eq | eq
  · exact ⟨_, eq, rfl, rfl, slots, rfl, rfl⟩
  · obtain ⟨base, pages, slots', cur, fresh'⟩ := pinVer_same (commitVer (opened k r)) (commitVer (opened k r)).current.toNat
    exact ⟨_, eq, base, pages, slots'.trans slots, fresh', cur⟩

/-- A granted staging room takes its first version in slot 0, and the next in slot 1. -/
theorem freeSlot_granted (blocks : List (List (Nat × List Byte))) (p : Nat × Nat × Nat × Bool) :
    freeSlot (newRoom (stagingReq blocks) 0xFFFF p) = some 0 ∧
    freeSlot (commitVer (opened 0 (newRoom (stagingReq blocks) 0xFFFF p))) = some 1 ∧
    freeSlot (pinVer (commitVer (opened 0 (newRoom (stagingReq blocks) 0xFFFF p)))
      (commitVer (opened 0 (newRoom (stagingReq blocks) 0xFFFF p))).current.toNat) = some 1 := ⟨rfl, rfl, rfl⟩

/-- The first block in a granted room: nothing but the room is written, and its committed version is the new state. -/
theorem stageBlock_granted {s : State} {id : Nat} {blocks : List (List (Nat × List Byte))} {p : Nat × Nat × Nat × Bool}
    (held : roomAt s id = some (newRoom (stagingReq blocks) 0xFFFF p)) :
    OnlyStores s (stageBlock id (blocks.headD []) s) ∧ ∃ m, roomAt (stageBlock id (blocks.headD []) s) id = some m ∧
      (∀ b, b < m.base.toNat ∨ roomEnd m ≤ b →
        cellsGet (stageBlock id (blocks.headD []) s).mem.cells b = cellsGet s.mem.cells b) ∧
      (MemGood s → rd (stageBlock id (blocks.headD []) s) (slotStart m) (stagedLen (blocks.headD [])) =
        (blocks.headD []).flatMap (fun w => w.2)) := by
  have fits := firstBlock_fits blocks p
  obtain ⟨free0, free1, free1'⟩ := freeSlot_granted blocks p
  generalize blocks.headD [] = ws at *
  let old := ws.flatMap (fun w => rd s w.1 w.2.length)
  obtain ⟨m1, held1, base1, pages1, slots1, fresh1, -⟩ := putVersion_room old held rfl rfl free0
  have free : freeSlot m1 = some 1 := by
    rcases roomAt_putVersion (bs := old) held rfl rfl free0 with eq | eq
    · rw [Option.some.inj (held1.symm.trans eq)]
      exact free1
    · rw [Option.some.inj (held1.symm.trans eq)]
      exact free1'
  let new := ws.flatMap (fun w => w.2)
  obtain ⟨m, held2, base2, pages2, slots2, -, cur⟩ := putVersion_room new held1 slots1 fresh1 free
  have bytes1 : slotBytes m1 = slotBytes (newRoom (stagingReq blocks) 0xFFFF p) := congrArg (· * pageBytes) pages1
  have bytes2 : slotBytes m = slotBytes m1 := congrArg (· * pageBytes) pages2
  have in1 := putVersion_writesIn (bs := old) held rfl rfl free0 (by omega) (by rwa [length_flatMap_rd])
  have in2 := putVersion_writesIn (bs := new) held1 slots1 fresh1 free (by omega) (by rwa [length_flatMap_snd, bytes1])
  have span2 : roomSpan m1 = roomSpan m := by
    unfold roomSpan extent
    rw [base2, bytes2, slots1, slots2]
  have span1 : roomSpan (newRoom (stagingReq blocks) 0xFFFF p) = roomSpan m1 := by
    unfold roomSpan extent
    rw [base1, bytes1, slots1]
    rfl
  have only := (putVersion_onlyStores (bs := old) held rfl rfl free0).trans
    (putVersion_onlyStores (bs := new) held1 slots1 fresh1 free)
  refine ⟨only, m, held2, fun b out => ?_, fun good => ?_⟩
  · rw [span1, span2] at in1
    rw [span2] at in2
    exact (in1.trans in2) b fun h hh => List.mem_singleton.mp hh ▸ out
  · have good1 : MemGood (putVersion id old s) := by
      unfold MemGood
      rw [putVersion_mem held rfl rfl free0]
      exact wf_wr _ _ good
    have start : slotStart m = m1.base.toNat + 1 * slotBytes m1 := by
      unfold slotStart
      rw [cur, base2, bytes2]
    show rd (putVersion id new (putVersion id old s)) _ _ = new
    rw [rd_of_mem (putVersion_mem held1 slots1 fresh1 free), start, ← length_flatMap_snd ws]
    exact rd_wr _ _ good1

/-! ### An update computed and staged -/

/-- What an update reports before its first block is staged: the blocks that failed their digest, asked for from a source,
and the elements that kept their master (08 R231, R232). -/
def reported (tell : Nat → List (Nat × Nat) → State → State) (p : Plan) (e : BitVec 512 × Nat) (u kept : Nat) (bad : List Nat)
    (s : State) : State :=
  let s := forEach bad (fun b s => requestState p e (some b) (BitVec.ofNat 64 u) (digestEvent e.1 b s)) s
  if kept != 0 then tell 0x5101 [a4 (peTensor e.1), a8 u, a2 kept] s else s

theorem reported_onlyReports (p : Plan) (e : BitVec 512 × Nat) (u kept : Nat) (bad : List Nat) (s : State) :
    OnlyReports s (reported cellarTell p e u kept bad s) := by
  have asked := OnlyReports.forEach (l := bad)
    (f := fun b s => requestState p e (some b) (BitVec.ofNat 64 u) (digestEvent e.1 b s)) (fun _ _ => rfl) s
  unfold reported
  dsimp only
  split
  · exact asked.trans (raise_onlyReports ..)
  · exact asked

section
variable {s : State} {p : Plan} {e : BitVec 512 × Nat} {u a : Nat} {g : Nat × State}

theorem stageUpdate_of_room {tell : Nat → List (Nat × Nat) → State → State} {k : W32} (ratio : LedgerRatio)
    (granted : stagingRoom (liveUpdate s p e u a k).blocks s = some g) :
    stageUpdate tell p u k (some ratio) e a s = some (stagedOf (liveUpdate s p e u a k) e u g.1 ratio,
      stageBlock g.1 ((liveUpdate s p e u a k).blocks.headD [])
        (reported tell p e u (liveUpdate s p e u a k).kept (failedBlocks s p e.1 e.2 u (readTensor s e.1 a)) g.2)) := by
  unfold liveUpdate at granted
  unfold stageUpdate
  dsimp only
  rw [granted]
  rfl

/-- The staged update of a tensor whose group has its factor: what the engine reports, then the first block in its room. -/
theorem stageTensor_of_run {r : Nat × W64 × W32 × LedgerRatio} (run : runOf s (peGroup e.1) u = some r)
    (granted : stagingRoom (liveUpdate s p e u a r.2.2.1).blocks s = some g) :
    ∃ v, OnlyReports g.2 v ∧ stageTensor p e u a s = stage (stagedOf (liveUpdate s p e u a r.2.2.1) e u g.1 r.2.2.2)
      (stageBlock g.1 ((liveUpdate s p e u a r.2.2.1).blocks.headD []) v) := by
  refine ⟨_, reported_onlyReports p e u (liveUpdate s p e u a r.2.2.1).kept
    (failedBlocks s p e.1 e.2 u (readTensor s e.1 a)) g.2, ?_⟩
  unfold stageTensor
  rw [run]
  dsimp only
  rw [stageUpdate_of_room r.2.2.2 granted]

/-- Exactly the first block is staged: outside the room no byte changes, and the room's committed version is the block. -/
theorem stageTensor_stages {r : Nat × W64 × W32 × LedgerRatio} (run : runOf s (peGroup e.1) u = some r)
    (granted : stagingRoom (liveUpdate s p e u a r.2.2.1).blocks s = some g) :
    (stageTensor p e u a s).params.staged = some (stagedOf (liveUpdate s p e u a r.2.2.1) e u g.1 r.2.2.2) ∧
    (stageTensor p e u a s).params.groupRuns = s.params.groupRuns ∧
    ∃ m, roomAt (stageTensor p e u a s) g.1 = some m ∧
      (∀ b, b < m.base.toNat ∨ roomEnd m ≤ b → cellsGet (stageTensor p e u a s).mem.cells b = cellsGet s.mem.cells b) ∧
      (MemGood s → rd (stageTensor p e u a s) (slotStart m) (stagedLen ((liveUpdate s p e u a r.2.2.1).blocks.headD [])) =
        ((liveUpdate s p e u a r.2.2.1).blocks.headD []).flatMap (fun w => w.2)) := by
  obtain ⟨q, room⟩ := stagingRoom_of_some granted
  obtain ⟨v, reports, eq⟩ := stageTensor_of_run run granted
  rw [eq]
  obtain ⟨mem, rooms, -, -, params⟩ := reports.same
  have mem' : v.mem = s.mem := by rw [mem, room]
  have held : roomAt v g.1 = some (newRoom (stagingReq (liveUpdate s p e u a r.2.2.1).blocks) 0xFFFF q) := by
    unfold roomAt
    rw [rooms, room]
    simp
  obtain ⟨only, m, held', outside, content⟩ := stageBlock_granted held
  refine ⟨rfl, ?_, m, held', fun b out => ?_, fun good => ?_⟩
  · show (stageBlock _ _ v).params.groupRuns = _
    rw [only]
    show v.params.groupRuns = _
    rw [params, room]
  · rw [← mem']
    exact outside b out
  · exact content (by unfold MemGood; rwa [mem'])

end

end Sys2Proof.Cellar
end

section
/-! PROOFS. CELLAR_UPDATE_START, case by case (08 R231 to R239, R242). -/

namespace Sys2Proof.Cellar

open Sys2Proof.Machine Sys2Proof.Safety Sys2Proof.Laws

/-! ### The sums of a watch group -/

section
variable {s : State} {p : Plan} {e : BitVec 512 × Nat} {u a g : Nat} {es : List (BitVec 512 × Nat)}

/-- Forming the sums keeps them, and at most raises an event. -/
theorem beginRun_cases (g u : Nat) (es : List (BitVec 512 × Nat)) (s : State) :
    let kept := putRun (g, BitVec.ofNat 64 u, (watchGroup s u g es).1, (watchGroup s u g es).2.1) s
    beginRun cellarTell g u es s = kept ∨ ∃ code args, beginRun cellarTell g u es s = raise code data dieCellar args kept := by
  unfold beginRun
  dsimp only
  split
  · exact .inr ⟨_, _, rfl⟩
  · exact .inl rfl

/-- An update is the same after an event, and after a group's sums have been kept. -/
theorem liveUpdate_raise (code plane die : Nat) (args : List (Nat × Nat)) (k : W32) :
    liveUpdate (raise code plane die args s) p e u a k = liveUpdate s p e u a k := rfl

theorem liveUpdate_putRun (r : Nat × W64 × W32 × LedgerRatio) (k : W32) :
    liveUpdate (putRun r s) p e u a k = liveUpdate s p e u a k := rfl

theorem isSome_stagingRoom (blocks : List (List (Nat × List Byte))) (s : State) :
    (stagingRoom blocks s).isSome = ((placeRoom s (stagingReq blocks)).isSome && (freeRoomId s).isSome) := by
  rw [stagingRoom_eq]
  unfold grantRoom
  split
  · next place id => rw [place, id]; rfl
  · next none_ =>
    cases place : placeRoom s (stagingReq blocks) with
    | none => rfl
    | some q => cases id : freeRoomId s with
      | none => rfl
      | some i => exact (none_ q i place id).elim

theorem isSome_stagingRoom_raise (code plane die : Nat) (args : List (Nat × Nat)) (blocks : List (List (Nat × List Byte))) :
    (stagingRoom blocks (raise code plane die args s)).isSome = (stagingRoom blocks s).isSome := by
  rw [isSome_stagingRoom, isSome_stagingRoom]
  rfl

theorem isSome_stagingRoom_putRun (r : Nat × W64 × W32 × LedgerRatio) (blocks : List (List (Nat × List Byte))) :
    (stagingRoom blocks (putRun r s)).isSome = (stagingRoom blocks s).isSome := by
  rw [isSome_stagingRoom, isSome_stagingRoom]
  rfl

/-- With the sums kept, an update finds its staging room as before. -/
theorem beginRun_room (k : W32) : (stagingRoom (liveUpdate (beginRun cellarTell g u es s) p e u a k).blocks
    (beginRun cellarTell g u es s)).isSome = (stagingRoom (liveUpdate s p e u a k).blocks s).isSome := by
  rcases beginRun_cases g u es s with eq | ⟨code, args, eq⟩ <;> rw [eq]
  · rw [isSome_stagingRoom_putRun, liveUpdate_putRun]
  · rw [isSome_stagingRoom_raise, isSome_stagingRoom_putRun, liveUpdate_raise, liveUpdate_putRun]

theorem groupRuns_beginRun (g u : Nat) (es : List (BitVec 512 × Nat)) (s : State) :
    (beginRun cellarTell g u es s).params.groupRuns =
      s.params.groupRuns ++ [(g, BitVec.ofNat 64 u, (watchGroup s u g es).1, (watchGroup s u g es).2.1)] := by
  rcases beginRun_cases g u es s with eq | ⟨code, args, eq⟩ <;> rw [eq] <;> rfl

theorem runOf_beginRun (lt : u < 2 ^ 64) (none_ : runOf s g u = none) : runOf (beginRun cellarTell g u es s) g u =
    some (g, BitVec.ofNat 64 u, (watchGroup s u g es).1, (watchGroup s u g es).2.1) := by
  unfold runOf at none_ ⊢
  rw [groupRuns_beginRun, List.find?_append, none_]
  simpa using lt

/-- A version's step fits 64 bits. -/
theorem step_lt_of_gradVersion {e : BitVec 512} (version : gradVersion s e u = some a) : u < 2 ^ 64 := by
  unfold gradVersion at version
  obtain ⟨r, -, found⟩ := Option.bind_eq_some_iff.mp version
  obtain ⟨k, hk, -⟩ := Option.map_eq_some_iff.mp found
  have := List.find?_some hk
  simp only [Bool.and_eq_true, beq_iff_eq] at this
  rw [← this.2]
  exact (r.slotStep.getD k 0).isLt

end

/-! ### The engine is free and its next update is due -/

section
variable {s : State} {e : BitVec 512 × Nat} {u a : Nat} {p : Plan}

/-- The engine is free, and the version of step `u` of entry `e` is the next that it takes. -/
structure Due (s : State) (e : BitVec 512 × Nat) (u a : Nat) (p : Plan) : Prop where
  free : s.params.staged = none
  noRestore : s.restore = none
  powered : inReg s sdCel = true
  runs : domainRuns s dieCellar = true
  next : ∃ ver, nextUpdate s = some (e, ver, u)
  plan : trainPlan s = some p
  version : gradVersion s e.1 u = some a
  unheld : verdictHeld s u = false
  unfetched : fetchHolds s e.2 u = false

/-- Updates of the tensor stop (08 R236). -/
def stopTensor (i : Nat) (s : State) : State := { s with params := { s.params with stopped := addNew s.params.stopped i } }

/-- A version whose head names another step: its tensor is stopped, and the event names both steps (08 R236). -/
def stepMismatch (s : State) (e : BitVec 512 × Nat) (u a : Nat) : State :=
  raise 0x5102 data dieCellar [a4 (peTensor e.1), a8 (expectedStep s e.2 u), a8 (headStep s a)]
    (settleGroup (peGroup e.1) u (stopTensor e.2 s))

/-- What is staged for a version with SKIP. -/
def skipStaged (i u : Nat) : Staged :=
  { step := BitVec.ofNat 64 u, entry := i, room := 0xFFFF, spans := [], writes := [], digests := [], ratio := none, skip := true }

/-- What the engine does with the next version, by its head and by the sums of its group. -/
theorem cellarUpdateStart_of_due (due : Due s e u a p) : cellarUpdateStart s =
    if !headGood s e.1 a then settleGroup (peGroup e.1) u (failTensor p u e s)
    else if headStep s a != expectedStep s e.2 u then failStep stDeviceFault 3 (stepMismatch s e u a)
    else if headSkip s a then stage (skipStaged e.2 u) s
    else if (runOf s (peGroup e.1) u).isSome then stageTensor p e u a s
    else if !cellarGroupReady s u (groupMates s e) then s
    else stageTensor p e u a (beginRun cellarTell (peGroup e.1) u (groupMates s e) s) := by
  obtain ⟨free, noRestore, powered, runs, ⟨ver, next⟩, plan, version, unheld, unfetched⟩ := due
  have goes : (s.params.staged.isSome || s.restore.isSome || !inReg s sdCel || !domainRuns s dieCellar) = false := by
    rw [free, noRestore, powered, runs]
    rfl
  have takes : (verdictHeld s u || fetchHolds s e.2 u) = false := by
    rw [unheld, unfetched]
    rfl
  unfold cellarUpdateStart
  rw [goes, next, plan]
  dsimp only
  rw [version]
  dsimp only
  rw [takes]
  rfl

/-- A head that fails: a source is asked for the tensor's state. -/
theorem start_of_badHead (due : Due s e u a p) (bad : headGood s e.1 a = false) : Completes .cellarUpdateStart s (fun t =>
    t.mem = s.mem ∧ t.params.staged = none ∧ (e.2, none, BitVec.ofNat 64 u) ∈ t.params.fetching) := by
  have start := cellarUpdateStart_of_due due
  rw [bad, Bool.not_false, if_pos rfl] at start
  obtain ⟨setMem, -⟩ := settleGroup_same (peGroup e.1) u (failTensor p u e s)
  obtain ⟨setStaged, -, setFetching⟩ := settleGroup_params (peGroup e.1) u (failTensor p u e s)
  obtain ⟨mem, -, -, -, params⟩ := (failTensor_onlyReports p u e s).same
  refine ⟨cellarUpdateStart s, rfl, ?_, ?_, ?_⟩
  · rw [start, setMem, mem]
  · rw [start, setStaged, params]
    exact due.free
  · rw [start, setFetching]
    exact mem_fetching_failTensor p u e s

theorem mem_addNew (l : List Nat) (k : Nat) : k ∈ addNew l k := by
  have inserted (l : List Nat) : k ∈ insertBy (fun a b => decide (a ≤ b)) k l := by
    induction l with
    | nil => exact List.mem_cons_self
    | cons b l ih =>
      rw [insertBy]
      split
      · exact List.mem_cons_self
      · exact List.mem_cons_of_mem _ ih
  unfold addNew
  split
  · next h => simpa using h
  · exact inserted l

/-- A head that names another step: event 0x5102, the tensor stopped, the step failed. -/
theorem start_of_wrongStep (due : Due s e u a p) (good : headGood s e.1 a = true) (ne : headStep s a ≠ expectedStep s e.2 u) :
    Completes .cellarUpdateStart s (fun t => t.params.staged = none ∧ e.2 ∈ t.params.stopped ∧ t.steps.job = none ∧
      Logged 0x5102 [a4 (peTensor e.1), a8 (expectedStep s e.2 u), a8 (headStep s a)] s t) := by
  have start := cellarUpdateStart_of_due due
  have ne' : (headStep s a != expectedStep s e.2 u) = true := by simpa using ne
  rw [good, ne', Bool.not_true, if_neg (by decide), if_pos rfl] at start
  obtain ⟨-, log, -⟩ := settleGroup_same (peGroup e.1) u (stopTensor e.2 s)
  obtain ⟨staged, stopped, -⟩ := settleGroup_params (peGroup e.1) u (stopTensor e.2 s)
  have logged : Towers.LoggedLately 1 0x5102 [a4 (peTensor e.1), a8 (expectedStep s e.2 u), a8 (headStep s a)] s
      (stepMismatch s e u a) := Towers.loggedLately_raise data dieCellar (Nat.le_of_eq (congrArg Log.next log.symm))
  have fails : OnlyFails (stepMismatch s e u a) (cellarUpdateStart s) := by
    rw [start]
    exact failStep_onlyFails ..
  obtain ⟨failsLog, failsStaged, failsStopped⟩ := fails.same
  refine ⟨cellarUpdateStart s, rfl, ?_, ?_, ?_, (logged.of_log failsLog).logged⟩
  · rw [failsStaged, stepMismatch, raise_params, staged]
    exact due.free
  · rw [failsStopped, stepMismatch, raise_params, stopped]
    exact mem_addNew ..
  · rw [start]
    exact failStep_job ..

/-- A version with SKIP is staged without writes. -/
theorem start_of_skip (due : Due s e u a p) (good : headGood s e.1 a = true) (eq : headStep s a = expectedStep s e.2 u)
    (skip : headSkip s a = true) :
    Completes .cellarUpdateStart s (fun t => t = { s with params := { s.params with staged := some (skipStaged e.2 u) } }) := by
  refine ⟨cellarUpdateStart s, rfl, ?_⟩
  rw [cellarUpdateStart_of_due due, good, eq, skip, bne_self_eq_false]
  rfl

/-- A live version whose group has its sums. -/
theorem start_of_run (due : Due s e u a p) (good : headGood s e.1 a = true) (eq : headStep s a = expectedStep s e.2 u)
    (live : headSkip s a = false) {r : Nat × W64 × W32 × LedgerRatio} (run : runOf s (peGroup e.1) u = some r) :
    cellarUpdateStart s = stageTensor p e u a s := by
  rw [cellarUpdateStart_of_due due, good, eq, live, run, bne_self_eq_false]
  rfl

/-- A live version whose group is ready and whose sums are not there: they are formed and kept, and the update is staged. -/
theorem start_of_noRun (due : Due s e u a p) (good : headGood s e.1 a = true) (eq : headStep s a = expectedStep s e.2 u)
    (live : headSkip s a = false) (none_ : runOf s (peGroup e.1) u = none) (ready : cellarGroupReady s u (groupMates s e) = true)
    (room : ∀ k, (stagingRoom (liveUpdate s p e u a k).blocks s).isSome = true) : Completes .cellarUpdateStart s (fun t =>
      t.params.staged.isSome = true ∧ ∃ k ratio ev, watchGroup s u (peGroup e.1) (groupMates s e) = (k, ratio, ev) ∧
        (peGroup e.1, BitVec.ofNat 64 u, k, ratio) ∈ t.params.groupRuns) := by
  have start : cellarUpdateStart s = stageTensor p e u a (beginRun cellarTell (peGroup e.1) u (groupMates s e) s) := by
    rw [cellarUpdateStart_of_due due, good, eq, live, none_, ready, bne_self_eq_false]
    rfl
  have run := runOf_beginRun (es := groupMates s e) (step_lt_of_gradVersion due.version) none_
  obtain ⟨g, granted⟩ := Option.isSome_iff_exists.mp ((beginRun_room (g := peGroup e.1) (es := groupMates s e)
    (watchGroup s u (peGroup e.1) (groupMates s e)).1).trans (room _))
  obtain ⟨staged, runs, -⟩ := stageTensor_stages run granted
  refine ⟨cellarUpdateStart s, rfl, ?_, _, _, _, rfl, ?_⟩
  · rw [start, staged]
    rfl
  · rw [start, runs, groupRuns_beginRun]
    exact List.mem_append_right _ List.mem_cons_self

end

end Sys2Proof.Cellar
end

section
/-! PROOFS. State from a source, and a request for state (08 R232, R237, R242). -/

namespace Sys2Proof.Cellar

open Sys2Proof.Machine Sys2Proof.Safety Sys2Proof.Laws

/-! ### What is installed is written to memory alone -/

section
variable {s t : State}

theorem OnlyMem.ite {u : State} {c : Prop} [Decidable c] (h : OnlyMem s t) (k : OnlyMem s u) : OnlyMem s (if c then t else u) := by
  split
  · exact h
  · exact k

theorem OnlyMem.putMoments (h : OnlyMem s t) (noSnap : s.snap = none) (e : BitVec 512) (a b : Nat) (bs : List Byte) :
    OnlyMem s (putMoments e a b bs t) :=
  (h.forEach fun _ _ k => k.homeWrite noSnap).forEach fun _ _ k => k.homeWrite noSnap

theorem installState_onlyMem (noSnap : s.snap = none) (p : Plan) (f : Fetched) (e : BitVec 512) :
    OnlyMem s (installState p f e s) := by
  let pairs (a b : Nat) : State := homeWrite b f.rem (homeWrite a f.work s)
  have wrotePairs (a b : Nat) : OnlyMem s (pairs a b) := OnlyMem.homeWrite (OnlyMem.homeWrite rfl noSnap) noSnap
  have put {a : Nat} {bs : List Byte} {u : State} (h : OnlyMem s u) : OnlyMem s (if bs.isEmpty then u else homeWrite a bs u) :=
    h.ite (h.homeWrite noSnap)
  have moments (a b c k : Nat) : OnlyMem s (if keepsM1 e then putMoments e c k f.mom1 (pairs a b) else pairs a b) :=
    ((wrotePairs a b).putMoments noSnap ..).ite (wrotePairs a b)
  have moment (a b c : Nat) : OnlyMem s (if keepsM1 e then (if f.mom1.isEmpty then pairs a b else homeWrite c f.mom1 (pairs a b))
      else pairs a b) := (put (wrotePairs a b)).ite (wrotePairs a b)
  unfold installState
  dsimp only
  refine OnlyMem.forEach ?_ fun _ _ h => h.homeWrite noSnap
  split
  · exact ((moments ..).putMoments noSnap ..).ite ((put (put (moments ..))).ite (moments ..))
  · exact (moment ..).ite ((put (put (moment ..))).ite (put (moment ..)))

/-! ### What follows an install leaves the memory, the log and the requests as they are -/

/-- The memory, the log, the snapshot and the states asked for are those of `s`. -/
def SameStores (s t : State) : Prop :=
  t.mem = s.mem ∧ t.log = s.log ∧ t.snap = s.snap ∧ t.params.fetching = s.params.fetching

theorem SameStores.trans {u : State} (h : SameStores s t) (k : SameStores t u) : SameStores s u :=
  ⟨k.1.trans h.1, k.2.1.trans h.2.1, k.2.2.1.trans h.2.2.1, k.2.2.2.trans h.2.2.2⟩

theorem OnlyReleases.sameStores (h : OnlyReleases s t) : SameStores s t := by
  obtain ⟨mem, params, log, snap, -⟩ := h.same
  exact ⟨mem, log, snap, by rw [params]⟩

theorem settleGroup_sameStores (g step : Nat) (s : State) : SameStores s (settleGroup g step s) := by
  obtain ⟨mem, log, params, snap⟩ := settleGroup_same g step s
  exact ⟨mem, log, snap, by rw [params]⟩

theorem dropStaged_sameStores (i step : Nat) (s : State) : SameStores s (dropStaged i step s) := by
  unfold dropStaged
  refine SameStores.trans (t := { s with params := { s.params with homing := _, staged := _ } }) ⟨rfl, rfl, rfl, rfl⟩ ?_
  exact forEach_keeps (P := SameStores _) _ (fun x _ u h => h.trans (freeStaging_onlyRooms x u).releases.sameStores)
    ⟨rfl, rfl, rfl, rfl⟩

theorem releaseThrough_sameStores (step : Nat) (e : BitVec 512) (noSnap : s.snap = none) :
    SameStores s (releaseThrough step e s) :=
  forEach_keeps (P := SameStores s) s
    (fun v _ _ h => h.trans (releaseGradient_onlyReleases v.2.toNat e (h.2.2.1.trans noSnap)).sameStores) ⟨rfl, rfl, rfl, rfl⟩

end

/-! ### STATE_FETCH_INSTALL -/

/-- The state is written, no longer awaited, and reported. -/
def installed (p : Plan) (f : Fetched) (e : BitVec 512 × Nat) (s : State) : State :=
  raiseCtrl 0x5104 [a4 f.tensor.toNat, a2 (f.block.getD wholeBlock), a8 f.step.toNat, a2 f.source.toNat]
    (endFetch f e.2 (installState p f e.1 s))

/-- The state of a whole tensor stands for its updates up to that step (log 139). -/
def wholeInstalled (e : BitVec 512 × Nat) (step : Nat) (s : State) : State :=
  settleGroup (peGroup e.1) step (releaseThrough step e.1 (dropStaged e.2 step (setDigested e.2 step
    (if (tget s.params.applied e.2 0).toNat < step then setApplied e.2 step s else s))))

theorem wholeInstalled_sameStores (e : BitVec 512 × Nat) (step : Nat) {s : State} (noSnap : s.snap = none) :
    SameStores s (wholeInstalled e step s) := by
  have applied : SameStores s (setDigested e.2 step
      (if (tget s.params.applied e.2 0).toNat < step then setApplied e.2 step s else s)) := by
    split <;> exact ⟨rfl, rfl, rfl, rfl⟩
  have dropped := applied.trans (dropStaged_sameStores e.2 step _)
  exact (dropped.trans (releaseThrough_sameStores step e.1 (dropped.2.2.1.trans noSnap))).trans (settleGroup_sameStores ..)

section
variable {s : State} {f : Fetched} {p : Plan} {e : BitVec 512 × Nat}

/-- State at a step that nothing awaits changes nothing; at most the request goes on to the replicas. -/
theorem install_of_notAwaited (plan : trainPlan s = some p)
    (notAwaited : (trainedEntries s).find? (fun e => awaits s f e f.step) = none) :
    Completes (.stateFetchInstall f) s (fun t => t = { s with outs := t.outs }) := by
  have eq : stateFetchInstall f s = askReplicas f s := by
    unfold stateFetchInstall
    rw [plan]
    dsimp only
    rw [notAwaited]
  have asks : askReplicas f s = { s with outs := (askReplicas f s).outs } := by
    unfold askReplicas
    split
    · split <;> rfl
    · rfl
  refine ⟨stateFetchInstall f s, rfl, ?_⟩
  rw [eq]
  exact asks

/-- No source holds the state: event 0x5105, and the step fails (08 R232). -/
theorem install_of_noSource (plan : trainPlan s = some p)
    (awaited : (trainedEntries s).find? (fun e => awaits s f e f.step) = some e) (none_ : f.source = noSource) :
    Logged 0x5105 [] s (stateFetchInstall f s) ∧ (stateFetchInstall f s).steps.job = none := by
  have eq : stateFetchInstall f s = failStep stDeviceFault 2 (raiseCtrl 0x5105 [] (endFetch f e.2 s)) := by
    unfold stateFetchInstall
    rw [plan]
    dsimp only
    rw [awaited, none_]
    rfl
  have logged : Towers.LoggedLately 1 0x5105 [] s (raiseCtrl 0x5105 [] (endFetch f e.2 s)) :=
    Towers.loggedLately_raise ctrl dieControl (Nat.le_refl _)
  rw [eq]
  exact ⟨(logged.of_log (failStep_onlyFails ..).same.1).logged, failStep_job ..⟩

/-- The state is installed: reported by event 0x5104, awaited no longer, and nothing else is written (08 R232, R237). -/
theorem install_of_source (plan : trainPlan s = some p) (noSnap : s.snap = none)
    (awaited : (trainedEntries s).find? (fun e => awaits s f e f.step) = some e) (source : f.source ≠ noSource) :
    (e.2, f.block, f.step) ∉ (stateFetchInstall f s).params.fetching ∧
    (stateFetchInstall f s).mem = (installState p f e.1 s).mem ∧
    Logged 0x5104 [a4 f.tensor.toNat, a2 (f.block.getD wholeBlock), a8 f.step.toNat, a2 f.source.toNat] s
      (stateFetchInstall f s) := by
  have eq : stateFetchInstall f s = endStalls e.2 (if f.block.isNone then wholeInstalled e f.step.toNat (installed p f e s)
      else installed p f e s) := by
    have held : (f.source == noSource) = false := by simpa using source
    unfold stateFetchInstall
    rw [plan]
    dsimp only
    rw [awaited]
    dsimp only
    rw [held]
    rfl
  have only := installState_onlyMem noSnap p f e.1
  have unlogged : (installState p f e.1 s).log = s.log := by rw [only]
  have snap : (installed p f e s).snap = none := by
    show (installState p f e.1 s).snap = none
    rw [only]
    exact noSnap
  have stores : SameStores (installed p f e s) (stateFetchInstall f s) := by
    rw [eq]
    refine SameStores.trans ?_ (endStalls_onlyReleases ..).sameStores
    split
    · exact wholeInstalled_sameStores e f.step.toNat snap
    · exact ⟨rfl, rfl, rfl, rfl⟩
  obtain ⟨mem, log, -, fetching⟩ := stores
  have logged : Towers.LoggedLately 1 0x5104
      [a4 f.tensor.toNat, a2 (f.block.getD wholeBlock), a8 f.step.toNat, a2 f.source.toNat] s (installed p f e s) :=
    Towers.loggedLately_raise ctrl dieControl (Nat.le_of_eq (congrArg Log.next unlogged.symm))
  refine ⟨?_, mem, (logged.of_log log).logged⟩
  rw [fetching]
  show (e.2, f.block, f.step) ∉ (endFetch f e.2 (installState p f e.1 s)).params.fetching
  simp [endFetch]

/-! ### STATE_FETCH_REQUEST_ARRIVAL -/

theorem poisonEvent_mem (c a : Nat) (s : State) : (poisonEvent c a s).mem = s.mem := by
  unfold poisonEvent
  split <;> rfl

variable {src : W16} {tensor : W32} {block : Option Nat} {step : W64}

/-- A state that is not held at that step is answered so. -/
theorem request_of_notHeld (runs : porterRuns s = true) (notHeld : heldState s src tensor block step = none) :
    stateFetchRequestArrival src tensor block step s = emit (.stateReply src tensor step false []) s := by
  unfold stateFetchRequestArrival
  rw [runs, notHeld]
  rfl

/-- A state that is held is sent where every home of it can be read without an error (07 R209, R211). -/
theorem request_of_held {bs : List Byte} {spans : List (Nat × Nat)} (runs : porterRuns s = true)
    (held : heldState s src tensor block step = some (bs, spans)) :
    if (∀ q ∈ spans, s.mem.poisonAt q.1 q.2 = none)
    then stateFetchRequestArrival src tensor block step s = emit (.stateReply src tensor step true bs) s
    else Out.stateReply src tensor step false [] ∈ (stateFetchRequestArrival src tensor block step s).outs ∧
      (stateFetchRequestArrival src tensor block step s).mem = s.mem := by
  unfold stateFetchRequestArrival
  rw [runs, held]
  dsimp only
  cases found : spans.findSome? (fun q => s.mem.poisonAt q.1 q.2) with
  | none =>
    rw [if_pos (List.findSome?_eq_none_iff.mp found)]
    rfl
  | some w =>
    rw [if_neg fun readable => by
      rw [List.findSome?_eq_none_iff.mpr readable] at found
      cases found]
    exact ⟨List.mem_cons_self, poisonEvent_mem ..⟩

end

/-! ### The obligation -/

/-- Settles O30: the engine's start case by case, its commit through the staging room, an install and a request for state. -/
theorem cellarUpdatesAndFetchedState : Obligations.CellarUpdatesAndFetchedState := by
  unfold Obligations.CellarUpdatesAndFetchedState
  intro s
  refine ⟨?_, ?_, ?_, ?_⟩
  · intro e ver u p a free noRestore powered runs next plan version unheld unfetched
    have due : Due s e u a p := ⟨free, noRestore, powered, runs, ⟨ver, next⟩, plan, version, unheld, unfetched⟩
    refine ⟨start_of_badHead due, start_of_wrongStep due, fun good eq => ⟨start_of_skip due good eq, ?_, ?_⟩⟩
    · intro x g live run granted
      obtain ⟨staged, -, room⟩ := stageTensor_stages run granted
      exact ⟨stageTensor p e u a s, congrArg Host.Outcome.next (start_of_run due good eq live run), staged, room⟩
    · exact start_of_noRun due good eq
  · intro x e m good staged entry powered runs noSnap live scaled unpinned _ held staging
    exact cellarUpdateCommit_does good staged entry powered runs noSnap live scaled unpinned held staging
  · intro f p plan noSnap
    exact ⟨install_of_notAwaited plan, fun e awaited =>
      ⟨_, rfl, install_of_noSource plan awaited, install_of_source plan noSnap awaited⟩⟩
  · intro src tensor block step runs
    exact ⟨fun notHeld => ⟨_, rfl, request_of_notHeld runs notHeld⟩, fun bs spans held => ⟨_, rfl, request_of_held runs held⟩⟩

end Sys2Proof.Cellar
end

section
/-! PROOFS. Rounds at a holder: what a mark, a bundle or the end of the wait does to the round that it names, and to
nothing else (10 R276 to R285). -/

namespace Sys2Proof.Experts

open Sys2Proof.Machine Sys2Proof.Safety Sys2Proof.Laws

/-! ### One record of a list changed in place -/

/-- The first record of a kind, after every record of that kind has been changed and has stayed of it. -/
theorem find?_map_ite {α : Type} {p : α → Bool} {f : α → α} (keeps : ∀ a, p (f a) = p a) (l : List α) :
    (l.map (fun a => if p a then f a else a)).find? p = (l.find? p).map f := by
  have same : (p ∘ fun a => if p a then f a else a) = p := by
    funext a
    simp only [Function.comp]
    split
    · exact keeps a
    · rfl
  rw [List.find?_map, same]
  cases found : l.find? p with
  | none => rfl
  | some a => simp [List.find?_some found]

/-! ### The record of a round -/

/-- A round of which nothing has arrived. -/
def newRound (step layer mb : Nat) (back : Bool) : Round :=
  { step := BitVec.ofNat 64 step, layer := layer, mb := mb, backward := back, marks := [], bundles := [], unserved := [],
    started := false, gathered := false, returned := [], raised := false }

/-- The round, which nothing has reached yet where it has no record. -/
def roundOr (s : State) (step layer mb : Nat) (back : Bool) : Round :=
  (roundAt s step layer mb back).getD (newRound step layer mb back)

/-- The round as it stands once it has been asked whether it is complete. -/
def begun (s : State) (r : Round) : Round :=
  if !r.started && roundComplete s r then { r with started := true, bundles := orderBundles s r } else r

/-- Nothing changes but the records of rounds. -/
def OnlyRounds (s t : State) : Prop := t = { s with exch := { s.exch with rounds := t.exch.rounds } }

section
variable {s t u : State} {step layer mb : Nat} {back : Bool} {f : Round → Round}

theorem OnlyRounds.trans (h : OnlyRounds s t) (k : OnlyRounds t u) : OnlyRounds s u := by
  unfold OnlyRounds at k
  rw [h] at k
  exact k

theorem OnlyRounds.group (h : OnlyRounds s t) : t.exch.group = s.exch.group := by rw [h]

theorem updRound_onlyRounds : OnlyRounds s (updRound step layer mb back f s) := by
  unfold updRound
  split <;> rfl

theorem settleRound_onlyRounds : OnlyRounds s (settleRound step layer mb back s) := by
  unfold settleRound
  split
  · split
    · exact updRound_onlyRounds
    · rfl
  · rfl

theorem sameRound_newRound (lt : step < 2 ^ 64) : sameRound (newRound step layer mb back) step layer mb back = true := by
  have read : (BitVec.ofNat 64 step).toNat = step := Nat.mod_eq_of_lt lt
  simp only [sameRound, newRound, read, beq_self_eq_true, Bool.and_self]

/-- The round that is changed, and made where there was none. -/
theorem roundAt_updRound (lt : step < 2 ^ 64) (keeps : ∀ r, sameRound (f r) step layer mb back = sameRound r step layer mb back) :
    roundAt (updRound step layer mb back f s) step layer mb back = some (f (roundOr s step layer mb back)) := by
  unfold updRound roundOr
  cases found : roundAt s step layer mb back with
  | some r => exact (find?_map_ite keeps s.exch.rounds).trans (congrArg (Option.map f) found)
  | none =>
    have made : sameRound (f (newRound step layer mb back)) step layer mb back = true :=
      (keeps _).trans (sameRound_newRound lt)
    show (s.exch.rounds ++ [f (newRound step layer mb back)]).find? (fun r => sameRound r step layer mb back) = _
    rw [List.find?_append, show s.exch.rounds.find? (fun r => sameRound r step layer mb back) = none from found]
    simp [made]

theorem roundAt_settleRound {r : Round} (lt : step < 2 ^ 64) (found : roundAt s step layer mb back = some r) :
    roundAt (settleRound step layer mb back s) step layer mb back = some (begun s r) := by
  unfold settleRound begun
  rw [found]
  dsimp only
  split
  · rw [roundAt_updRound lt (by exact fun _ => rfl), roundOr, found]
    rfl
  · exact found

/-- The completeness of a round and the order of its bundles are judged by the group, which the records do not change. -/
theorem begun_of_group (same : t.exch.group = s.exch.group) (r : Round) : begun t r = begun s r := by
  unfold begun roundComplete missingMarks orderBundles groupMembers
  rw [same]

/-- A round that something has reached: it is recorded, and the round starts once it is complete. -/
def reach (step layer mb : Nat) (back : Bool) (f : Round → Round) (s : State) : State :=
  settleRound step layer mb back (updRound step layer mb back f s)

theorem reach_onlyRounds : OnlyRounds s (reach step layer mb back f s) := updRound_onlyRounds.trans settleRound_onlyRounds

theorem roundAt_reach (lt : step < 2 ^ 64) (keeps : ∀ r, sameRound (f r) step layer mb back = sameRound r step layer mb back) :
    roundAt (reach step layer mb back f s) step layer mb back = some (begun s (f (roundOr s step layer mb back))) := by
  have group : (updRound step layer mb back f s).exch.group = s.exch.group := updRound_onlyRounds.group
  unfold reach
  rw [roundAt_settleRound lt (roundAt_updRound lt keeps), begun_of_group group]

theorem roundOr_of_none (none_ : roundAt s step layer mb back = none) :
    roundOr s step layer mb back = newRound step layer mb back := by
  rw [roundOr, none_]
  rfl

theorem roundOr_of_some {r : Round} (found : roundAt s step layer mb back = some r) : roundOr s step layer mb back = r := by
  rw [roundOr, found]
  rfl

end

theorem xStep_lt (h : BitVec 512) : xStep h < 2 ^ 64 := Nat.mod_lt _ (by decide)

/-! ### Marks and bundles -/

section
variable {s : State} {g : PacketTag} {h : BitVec 512} {toks : List W32} {rows : List (List Byte)}

/-- The round that a header names. -/
def roundOf (s : State) (h : BitVec 512) : Round := roundOr s (xStep h) (xLayer h) (xMb h) (xBack h)

/-- The round with a mark added. -/
def withMark (h : BitVec 512) (r : Round) : Round :=
  { r with marks := r.marks ++ [(xSrc h, if xLost h then 0 else xNtok h, xLost h)] }

/-- The round with a bundle added. -/
def withBundle (h : BitVec 512) (toks : List W32) (rows : List (List Byte)) (r : Round) : Round :=
  { r with bundles := r.bundles ++ [⟨xSrc h, xExpert h, BitVec.ofNat 16 (xVer h), toks, rows⟩] }

/-- The round with a bundle that went back unserved. -/
def withUnserved (h : BitVec 512) (r : Round) : Round := { r with unserved := r.unserved ++ [xSrc h] }

/-- What a header brings its round. -/
def arrive (h : BitVec 512) (f : Round → Round) (s : State) : State := reach (xStep h) (xLayer h) (xMb h) (xBack h) f s

/-- A packet of another domain or epoch, or of no member, changes nothing (log 147). -/
theorem fromPeer_bad (bad : tagGood s g = false) (f : State → State) : fromPeer g f s = s := by
  unfold fromPeer
  rw [bad]
  rfl

theorem fromPeer_good (good : tagGood s g = true) (f : State → State) : fromPeer g f s = f s := by
  unfold fromPeer
  rw [good]
  rfl

/-- Of a mark that is whole, for this module and for a step ahead, the first of its source counts, until the round starts. -/
theorem markReceive_eq (crc : xCrc h [] = bits h 0 32) (kind : xKind h = 0) (dst : xDst h = s.fab.moduleId)
    (ahead : stepAhead s (xStep h) = true) (member : xSrc h ∈ groupMembers s) :
    markReceive h s = if (roundOf s h).started || (roundOf s h).marks.any (fun m => m.1 == xSrc h) then s
      else arrive h (withMark h) s := by
  have known : (groupMembers s).contains (xSrc h) = true := List.contains_iff_mem.mpr member
  unfold markReceive
  simp only [crc, kind, dst, ahead, bne_self_eq_false, Bool.not_true, Bool.or_false, Bool.false_eq_true, if_false, known]
  unfold roundOf
  cases found : roundAt s (xStep h) (xLayer h) (xMb h) (xBack h) with
  | none =>
    rw [roundOr_of_none found]
    rfl
  | some r =>
    rw [roundOr_of_some found]
    rfl

/-- A bundle is looked at where it is whole, for this module and for a step ahead. -/
theorem bundleReceive_honoured (crc : xCrc h toks = bits h 0 32) (kind : xKind h = 1) (dst : xDst h = s.fab.moduleId)
    (ahead : stepAhead s (xStep h) = true) (honours : honoured s (xLayer h) (xExpert h) (xVer h) = true) :
    bundleReceive h toks rows s =
      if (roundOf s h).started || (roundOf s h).bundles.any (fun b => b.src == xSrc h && b.expert == xExpert h) then s
      else arrive h (withBundle h toks rows) s := by
  unfold bundleReceive
  simp only [crc, kind, dst, ahead, honours, bne_self_eq_false, Bool.not_true, Bool.or_false, Bool.false_eq_true, if_false]
  unfold roundOf
  cases found : roundAt s (xStep h) (xLayer h) (xMb h) (xBack h) with
  | none =>
    rw [roundOr_of_none found]
    rfl
  | some r =>
    rw [roundOr_of_some found]
    rfl

/-- The state in which a bundle of another module has gone back unserved, reported by event 0x4602 (10 R285). -/
def turnedBack (h : BitVec 512) (toks : List W32) (s : State) : State :=
  emit (.exchange (ownTag s) (returnHead h stWrongState toks) toks [])
    (raise 0x4602 data linkDie [a2 (xSrc h).toNat, a2 (xLayer h), a2 (xExpert h), a2 (xVer h)] s)

theorem bundleReceive_unhonoured (crc : xCrc h toks = bits h 0 32) (kind : xKind h = 1) (dst : xDst h = s.fab.moduleId)
    (ahead : stepAhead s (xStep h) = true) (honours : honoured s (xLayer h) (xExpert h) (xVer h) = false)
    (other : xSrc h ≠ s.fab.moduleId) :
    bundleReceive h toks rows s = arrive h (withUnserved h) (turnedBack h toks s) := by
  have away : (xSrc h == s.fab.moduleId) = false := by simpa using other
  unfold bundleReceive
  simp only [crc, kind, dst, ahead, honours, bne_self_eq_false, Bool.not_true, Bool.or_false, Bool.false_eq_true, if_false,
    Bool.not_false, if_true, raise_fab, away]
  rfl


/-! ### Each arrival, case by case -/

/-- A mark changes its round alone, and that once. -/
theorem mark_completes (good : tagGood s g = true) (crc : xCrc h [] = bits h 0 32) (kind : xKind h = 0)
    (dst : xDst h = s.fab.moduleId) (ahead : stepAhead s (xStep h) = true) (member : xSrc h ∈ groupMembers s) :
    ((roundOf s h).started = false → (∀ m ∈ (roundOf s h).marks, m.1 ≠ xSrc h) →
      Completes (.markReceive ⟨g, h⟩) s (fun t => OnlyRounds s t ∧
        roundAt t (xStep h) (xLayer h) (xMb h) (xBack h) = some (begun s (withMark h (roundOf s h))))) ∧
    (((roundOf s h).started = true ∨ ∃ m ∈ (roundOf s h).marks, m.1 = xSrc h) →
      Completes (.markReceive ⟨g, h⟩) s (fun t => t = s)) := by
  have eq := (fromPeer_good good (markReceive h)).trans (markReceive_eq crc kind dst ahead member)
  constructor
  · intro waits first
    have cond : ((roundOf s h).started || (roundOf s h).marks.any (fun m => m.1 == xSrc h)) = false := by
      simpa [waits] using first
    refine ⟨arrive h (withMark h) s, congrArg Host.Outcome.next (eq.trans (by rw [cond]; rfl)), reach_onlyRounds, ?_⟩
    exact roundAt_reach (xStep_lt h) fun _ => rfl
  · intro late
    have cond : ((roundOf s h).started || (roundOf s h).marks.any (fun m => m.1 == xSrc h)) = true := by
      simpa using late
    exact ⟨s, congrArg Host.Outcome.next (eq.trans (by rw [cond]; rfl)), rfl⟩

/-- An honoured bundle that has not come before, of a round that has not started. -/
theorem bundle_completes (good : tagGood s g = true) (crc : xCrc h toks = bits h 0 32) (kind : xKind h = 1)
    (dst : xDst h = s.fab.moduleId) (ahead : stepAhead s (xStep h) = true)
    (honours : honoured s (xLayer h) (xExpert h) (xVer h) = true) (waits : (roundOf s h).started = false)
    (first : ∀ b ∈ (roundOf s h).bundles, b.src ≠ xSrc h ∨ b.expert ≠ xExpert h) :
    Completes (.bundleReceive ⟨g, h⟩ toks rows) s (fun t => OnlyRounds s t ∧
      roundAt t (xStep h) (xLayer h) (xMb h) (xBack h) = some (begun s (withBundle h toks rows (roundOf s h)))) := by
  have eq := (fromPeer_good good (bundleReceive h toks rows)).trans (bundleReceive_honoured crc kind dst ahead honours)
  have cond : ((roundOf s h).started ||
      (roundOf s h).bundles.any (fun b => b.src == xSrc h && b.expert == xExpert h)) = false := by
    rw [waits, Bool.false_or, List.any_eq_false]
    intro b mem both
    obtain ⟨src, expert⟩ := Bool.and_eq_true_iff.mp both
    exact (first b mem).elim (absurd (eq_of_beq src)) (absurd (eq_of_beq expert))
  refine ⟨arrive h (withBundle h toks rows) s, congrArg Host.Outcome.next (eq.trans (by rw [cond]; rfl)), reach_onlyRounds, ?_⟩
  exact roundAt_reach (xStep_lt h) fun _ => rfl

/-- What is an event more than `s` stays one where the records of rounds change on both sides. -/
theorem OnlyEvent.withRounds {code plane die : Nat} {args : List (Nat × Nat)} {t u : State}
    (event : OnlyEvent code plane die args s t) (only : OnlyRounds t u) :
    OnlyEvent code plane die args { s with exch := { s.exch with rounds := u.exch.rounds } } u := by
  obtain ⟨entries, next, seen, rest⟩ := event
  have log : u.log = t.log := by rw [only]
  refine ⟨by rw [log]; exact entries, by rw [log]; exact next, by rw [log]; exact seen, ?_⟩
  unfold OnlyRounds at only
  rw [rest] at only
  rw [only]

/-- A bundle for a version that is not honoured goes back, is reported, and counts as arrived. -/
theorem unhonoured_completes (good : tagGood s g = true) (crc : xCrc h toks = bits h 0 32) (kind : xKind h = 1)
    (dst : xDst h = s.fab.moduleId) (ahead : stepAhead s (xStep h) = true)
    (honours : honoured s (xLayer h) (xExpert h) (xVer h) = false) (other : xSrc h ≠ s.fab.moduleId) :
    Completes (.bundleReceive ⟨g, h⟩ toks rows) s (fun t =>
      OnlyEvent 0x4602 data linkDie [a2 (xSrc h).toNat, a2 (xLayer h), a2 (xExpert h), a2 (xVer h)]
        (emit (.exchange (ownTag s) (returnHead h stWrongState toks) toks [])
          { s with exch := { s.exch with rounds := t.exch.rounds } }) t ∧
      roundAt t (xStep h) (xLayer h) (xMb h) (xBack h) = some (begun s (withUnserved h (roundOf s h)))) := by
  have eq := (fromPeer_good good (bundleReceive h toks rows)).trans (bundleReceive_unhonoured crc kind dst ahead honours other)
  have event : OnlyEvent 0x4602 data linkDie [a2 (xSrc h).toNat, a2 (xLayer h), a2 (xExpert h), a2 (xVer h)]
      (emit (.exchange (ownTag s) (returnHead h stWrongState toks) toks []) s) (turnedBack h toks s) :=
    raise_onlyEvent (emit (.exchange (ownTag s) (returnHead h stWrongState toks) toks []) s) ..
  exact ⟨arrive h (withUnserved h) (turnedBack h toks s), congrArg Host.Outcome.next eq,
    OnlyEvent.withRounds event reach_onlyRounds,
    (roundAt_reach (xStep_lt h) (by exact fun _ => rfl)).trans (congrArg some (begun_of_group rfl _))⟩

end

section
variable {s : State} {step : W64} {layer : Fin 256} {mb : Byte} {back : Bool} {r : Round}

/-- A wait for marks that runs out is logged once for its round (10 R279). -/
theorem waitOut_completes (found : roundAt s step.toNat layer.val mb.toNat back = some r) :
    (missingMarks s r ≠ [] → r.raised = false → r.started = false →
      Completes (.markWaitTimeout step layer mb back) s (fun t =>
        OnlyEvent 0x4603 data linkDie
          (a8 step.toNat :: a2 layer.val :: a2 mb.toNat :: aList 12 ((missingMarks s r).map (fun m => m.toNat)))
          { s with exch := { s.exch with rounds := t.exch.rounds } } t ∧
        roundAt t step.toNat layer.val mb.toNat back = some { r with raised := true })) ∧
    ((missingMarks s r = [] ∨ r.raised = true) → Completes (.markWaitTimeout step layer mb back) s (fun t => t = s)) := by
  have eq : markWaitTimeout step.toNat layer.val mb.toNat back s =
      if r.raised || r.started || (missingMarks s r).isEmpty then s
      else raise 0x4603 data linkDie
        (a8 step.toNat :: a2 layer.val :: a2 mb.toNat :: aList 12 ((missingMarks s r).map (fun m => m.toNat)))
        (updRound step.toNat layer.val mb.toNat back (fun r => { r with raised := true }) s) := by
    unfold markWaitTimeout
    rw [found]
  constructor
  · intro missing quiet waits
    have cond : (r.raised || r.started || (missingMarks s r).isEmpty) = false := by simpa [quiet, waits] using missing
    rw [cond] at eq
    have only : OnlyRounds s (updRound step.toNat layer.val mb.toNat back (fun r => { r with raised := true }) s) :=
      updRound_onlyRounds
    have event := raise_onlyEvent (updRound step.toNat layer.val mb.toNat back (fun r => { r with raised := true }) s)
      0x4603 data linkDie
      (a8 step.toNat :: a2 layer.val :: a2 mb.toNat :: aList 12 ((missingMarks s r).map (fun m => m.toNat)))
    refine ⟨_, congrArg Host.Outcome.next eq, only ▸ event, ?_⟩
    exact (roundAt_updRound step.isLt (by exact fun _ => rfl)).trans (by rw [roundOr_of_some found])
  · intro silent
    have cond : (r.raised || r.started || (missingMarks s r).isEmpty) = true := by
      rcases silent with none_ | raised
      · simp [none_]
      · simp [raised]
    exact ⟨s, congrArg Host.Outcome.next (eq.trans (by rw [cond]; rfl)), rfl⟩

end

/-! ### The obligation -/

/-- Settles O33: what each arrival and the end of the wait do, one lemma each. -/
theorem exchangeRounds : Obligations.ExchangeRounds := by
  unfold Obligations.ExchangeRounds
  intro fresh here settled s
  refine ⟨?_, ?_, ?_, ?_⟩
  · intro g bad h toks rows
    have ignored (f : State → State) : (.next (fromPeer g f s) : Host.Outcome State Fault Refusal) = .next s :=
      congrArg Host.Outcome.next (fromPeer_bad bad f)
    exact ⟨⟨s, ignored _, rfl⟩, ⟨s, ignored _, rfl⟩, ⟨s, ignored _, rfl⟩⟩
  · intro g h good crc kind dst ahead member
    exact mark_completes good crc kind dst ahead member
  · intro g h toks rows good crc kind dst ahead
    exact ⟨bundle_completes good crc kind dst ahead, unhonoured_completes good crc kind dst ahead⟩
  · intro step layer mb back r found
    exact waitOut_completes found

end Sys2Proof.Experts
end

section
/-! PROOFS. Fields of a record that is put together field by field, and of the header of an exchange packet (10 Table 10-2). -/

namespace Sys2Proof.Experts

open Sys2Proof.Machine Sys2Proof.Safety Sys2Proof.Laws

/-! ### Fields of a record -/

section
variable {n : Nat} {x : BitVec n} {lo w v b k : Nat}

theorem testBit_fld (x : BitVec n) (lo w i : Nat) : (fld x lo w).testBit i = (decide (i < w) && x.getLsbD (lo + i)) := by
  simp [fld, Nat.testBit_mod_two_pow, Nat.testBit_shiftRight, BitVec.getLsbD]

theorem getLsbD_putFld (x : BitVec n) (fits : lo + w ≤ n) (v i : Nat) :
    (putFld x lo w v).getLsbD i = if lo ≤ i ∧ i < lo + w then v.testBit (i - lo) else x.getLsbD i := by
  simp only [putFld, BitVec.getLsbD_or, BitVec.getLsbD_and, BitVec.getLsbD_not, BitVec.getLsbD_ofNat, Nat.testBit_shiftLeft,
    Nat.testBit_two_pow_sub_one, Nat.testBit_mod_two_pow]
  by_cases inside : lo ≤ i ∧ i < lo + w
  · have : i < n := by omega
    have : i - lo < w := by omega
    simp [*]
  · rw [if_neg inside]
    by_cases below : i < n
    · by_cases low : lo ≤ i
      · have : ¬ i - lo < w := by omega
        simp [below, this]
      · simp [below, low]
    · simp [below, BitVec.getLsbD_of_ge x i (Nat.not_lt.mp below)]

theorem fld_putFld_same (fits : lo + w ≤ n) : fld (putFld x lo w v) lo w = v % 2 ^ w := by
  refine Nat.eq_of_testBit_eq fun i => ?_
  rw [testBit_fld, getLsbD_putFld x fits, Nat.testBit_mod_two_pow]
  by_cases i < w <;> simp [*]

theorem fld_putFld_apart (fits : lo + w ≤ n) (apart : Cellar.Apart (lo, w) (b, k)) :
    fld (putFld x lo w v) b k = fld x b k := by
  refine Nat.eq_of_testBit_eq fun i => ?_
  rw [testBit_fld, testBit_fld, getLsbD_putFld x fits]
  by_cases inside : i < k
  · have away : ¬ (lo ≤ b + i ∧ b + i < lo + w) := by
      unfold Cellar.Apart at apart
      omega
    rw [if_neg away]
  · simp [inside]

/-- Fields put later elsewhere leave a field as it is. -/
theorem fld_foldl_putFld_apart {fs : List (Nat × Nat × Nat)} (fits : ∀ f ∈ fs, f.1 + f.2.1 ≤ n)
    (apart : ∀ f ∈ fs, Cellar.Apart (f.1, f.2.1) (b, k)) :
    fld (fs.foldl (fun x f => putFld x f.1 f.2.1 f.2.2) x) b k = fld x b k := by
  induction fs generalizing x with
  | nil => rfl
  | cons f fs ih =>
    rw [List.foldl_cons, ih (fun g hg => fits g (List.mem_cons_of_mem _ hg)) (fun g hg => apart g (List.mem_cons_of_mem _ hg))]
    exact fld_putFld_apart (fits f List.mem_cons_self) (apart f List.mem_cons_self)

/-- A field of a record made of fields that lie apart. -/
theorem fld_mkRec {fs : List (Nat × Nat × Nat)} (fits : ∀ f ∈ fs, f.1 + f.2.1 ≤ n)
    (apart : (fs.map (fun f => (f.1, f.2.1))).Pairwise Cellar.Apart) (mem : (lo, w, v) ∈ fs) :
    fld (mkRec n fs) lo w = v % 2 ^ w := by
  obtain ⟨before, after, rfl⟩ := List.append_of_mem mem
  rw [List.map_append, List.map_cons] at apart
  have later := (List.pairwise_cons.mp (List.pairwise_append.mp apart).2.1).1
  rw [mkRec, List.foldl_append, List.foldl_cons, fld_foldl_putFld_apart]
  · exact fld_putFld_same (fits _ mem)
  · exact fun f hf => fits f (by simp [hf])
  · exact fun f hf => (later _ (List.mem_map_of_mem hf)).symm

end

/-! ### Headers -/

/-- The fields that a header is made of: low bit, width and value. -/
def headFields (x : XHead) : List (Nat × Nat × Nat) :=
  [(448, 64, x.step.toNat), (432, 16, x.src.toNat), (416, 16, x.dst.toNat), (408, 8, x.mb), (400, 8, x.layer),
    (391, 9, x.expert), (390, 1, x.backward.toNat), (388, 2, x.kind), (384, 4, x.fmt), (368, 16, x.ver), (352, 16, x.ntok),
    (343, 1, x.lost.toNat), (288, 32, x.tscale.toNat)]

section
variable {x : XHead} {toks : List W32}

theorem fld_xHead {lo w v : Nat} (mem : (lo, w, v) ∈ headFields x) : fld (xHead x toks) lo w = v % 2 ^ w := by
  have fits : ∀ f ∈ headFields x, f.1 + f.2.1 ≤ 512 ∧ 32 ≤ f.1 := by simp [headFields]
  have apart : ((headFields x).map (fun f => (f.1, f.2.1))).Pairwise Cellar.Apart := by
    simp [headFields, Cellar.Apart]
  have sealed : xHead x toks = xSeal (mkRec 512 (headFields x)) toks := rfl
  have above : Cellar.Apart (0, 32) (lo, w) := .inl (fits _ mem).2
  rw [sealed, xSeal, fld_putFld_apart (by decide) above]
  exact fld_mkRec (fun f hf => (fits f hf).1) apart mem

theorem xStep_xHead : xStep (xHead x toks) = x.step.toNat :=
  (fld_xHead (v := x.step.toNat) (by simp [headFields])).trans (Nat.mod_eq_of_lt x.step.isLt)

theorem xDst_xHead : xDst (xHead x toks) = x.dst := by
  refine BitVec.eq_of_toNat_eq ((BitVec.extractLsb'_toNat ..).trans ?_)
  exact (fld_xHead (v := x.dst.toNat) (by simp [headFields])).trans (Nat.mod_eq_of_lt x.dst.isLt)

theorem xMb_xHead (byte : x.mb < 256) : xMb (xHead x toks) = x.mb :=
  (fld_xHead (v := x.mb) (by simp [headFields])).trans (Nat.mod_eq_of_lt byte)

theorem xLayer_xHead (byte : x.layer < 256) : xLayer (xHead x toks) = x.layer :=
  (fld_xHead (v := x.layer) (by simp [headFields])).trans (Nat.mod_eq_of_lt byte)

theorem xKind_xHead (small : x.kind < 4) : xKind (xHead x toks) = x.kind :=
  (fld_xHead (v := x.kind) (by simp [headFields])).trans (Nat.mod_eq_of_lt small)

theorem xBack_xHead : xBack (xHead x toks) = x.backward := by
  rw [xBack, fld_xHead (v := x.backward.toNat) (by simp [headFields])]
  cases x.backward <;> rfl

theorem xLost_xHead : xLost (xHead x toks) = x.lost := by
  rw [xLost, fld_xHead (v := x.lost.toNat) (by simp [headFields])]
  cases x.lost <;> rfl

end

end Sys2Proof.Experts
end

section
/-! PROOFS. What goes on while a round is sent, an answer gathered or a home written: the module keeps its sender, its
group and what it has sent, every dispatch keeps its choices but for holder and answer, and of a layer's counters only
the two of choices dropped later move (10 R275, R276, R284 to R286). -/

namespace Sys2Proof.Experts

open Sys2Proof.Machine Sys2Proof.Safety Sys2Proof.Laws

/-! ### What goes on -/

/-- What a module's tag, its reachable targets and its group are read from. -/
def sender (s : State) := (s.fab, s.power.slotId, s.exch.group)

/-- What no answer changes of a choice: token, place, expert and gate. -/
def naming (c : Assign) : Nat × Nat × Nat × W32 := (c.token, c.order, c.expert, c.gate)

/-- What no answer changes of a dispatch: its round, and the naming of its choices. -/
def outline (d : DispatchList) : (W64 × Nat × Nat × Bool) × List (Nat × Nat × Nat × W32) :=
  ((d.step, d.layer, d.mb, d.backward), d.choices.map naming)

/-- What no answer changes of a layer's counters: choices, those moved and those dropped for capacity. -/
def tally (r : Router) : Nat × Nat × Nat := (r.choices, r.moved, r.dropCap)

/-- From `s` to `t` the exchange goes on. -/
structure GoesOn (s t : State) : Prop where
  sender : sender t = sender s
  outs : s.outs ⊆ t.outs
  dispatches : t.exch.dispatches.map outline = s.exch.dispatches.map outline
  routers : ∀ k, tally (tget t.exch.routers k Router.zero) = tally (tget s.exch.routers k Router.zero)

section
variable {s t u : State} {step layer mb : Nat} {back : Bool}

theorem GoesOn.refl (s : State) : GoesOn s s := ⟨rfl, List.Subset.refl _, rfl, fun _ => rfl⟩

theorem GoesOn.trans (h : GoesOn s t) (k : GoesOn t u) : GoesOn s u :=
  ⟨k.sender.trans h.sender, List.Subset.trans h.outs k.outs, k.dispatches.trans h.dispatches,
    fun l => (k.routers l).trans (h.routers l)⟩

theorem GoesOn.forEach {α : Type} {f : α → State → State} (on : ∀ a u, GoesOn u (f a u)) (l : List α) (s : State) :
    GoesOn s (forEach l f s) :=
  forEach_keeps (P := GoesOn s) s (fun a _ u h => h.trans (on a u)) (.refl s)

/-- An element's turn in a fold that goes on. -/
theorem forEach_turn {α : Type} {f : α → State → State} (on : ∀ a u, GoesOn u (f a u)) {l : List α} {a : α} (mem : a ∈ l)
    (s : State) : ∃ u, GoesOn s u ∧ GoesOn (f a u) (forEach l f s) := by
  obtain ⟨before, after, rfl⟩ := List.append_of_mem mem
  refine ⟨Machine.forEach before f s, GoesOn.forEach on before s, ?_⟩
  have split : Machine.forEach (before ++ a :: after) f s = Machine.forEach after f (f a (Machine.forEach before f s)) := by
    simp only [Machine.forEach, List.foldl_append, List.foldl_cons]
  rw [split]
  exact GoesOn.forEach on after _

theorem GoesOn.ite {c : Prop} [Decidable c] (h : GoesOn s t) (k : GoesOn s u) : GoesOn s (if c then t else u) := by
  split
  · exact h
  · exact k

theorem OnlyRounds.goesOn (h : OnlyRounds s t) : GoesOn s t := by
  unfold OnlyRounds at h
  rw [h]
  exact ⟨rfl, List.Subset.refl _, rfl, fun _ => rfl⟩

theorem goesOn_of_onlyMem (h : Cellar.OnlyMem s t) : GoesOn s t := by
  rw [h]
  exact ⟨rfl, List.Subset.refl _, rfl, fun _ => rfl⟩

theorem goesOn_emit (o : Out) (s : State) : GoesOn s (emit o s) :=
  ⟨rfl, List.subset_cons_self _ _, rfl, fun _ => rfl⟩

theorem goesOn_raise (code plane die : Nat) (args : List (Nat × Nat)) (s : State) : GoesOn s (raise code plane die args s) :=
  ⟨rfl, List.Subset.refl _, rfl, fun _ => rfl⟩

/-! ### Dispatches and counters -/

/-- The dispatch of a round, where every dispatch of that round is changed and stays of it. -/
theorem dispatchAt_updDispatch {f : DispatchList → DispatchList}
    (keeps : ∀ d, sameDispatch (f d) step layer mb back = sameDispatch d step layer mb back) :
    dispatchAt (updDispatch step layer mb back f s) step layer mb back = (dispatchAt s step layer mb back).map f :=
  find?_map_ite keeps s.exch.dispatches

theorem map_naming {g : Assign → Assign} (keeps : ∀ c, naming (g c) = naming c) (l : List Assign) :
    (l.map g).map naming = l.map naming := by
  rw [List.map_map]
  exact List.map_congr_left fun c _ => keeps c

theorem goesOn_updDispatch {f : DispatchList → DispatchList} (keeps : ∀ d, outline (f d) = outline d) :
    GoesOn s (updDispatch step layer mb back f s) := by
  refine ⟨rfl, List.Subset.refl _, ?_, fun _ => rfl⟩
  show (s.exch.dispatches.map _).map outline = _
  rw [List.map_map]
  refine List.map_congr_left fun d _ => ?_
  simp only [Function.comp]
  split
  · exact keeps d
  · rfl

theorem goesOn_updRouter {f : Router → Router} (keeps : ∀ r, tally (f r) = tally r) : GoesOn s (updRouter layer f s) := by
  refine ⟨rfl, List.Subset.refl _, rfl, fun k => ?_⟩
  show tally (tget (tmod s.exch.routers layer Router.zero f) k Router.zero) = _
  rw [tget_tmod]
  split
  · exact keeps _
  · rfl

/-- The outline is that of a dispatch of this round. -/
def outlines (step layer mb : Nat) (back : Bool) (o : (W64 × Nat × Nat × Bool) × List (Nat × Nat × Nat × W32)) : Bool :=
  o.1.1.toNat == step && o.1.2.1 == layer && o.1.2.2.1 == mb && o.1.2.2.2 == back

/-- Where the exchange goes on, the dispatch of a round stands with the same choices. -/
theorem GoesOn.dispatchAt (h : GoesOn s t) {d : DispatchList} (found : dispatchAt s step layer mb back = some d) :
    ∃ d', dispatchAt t step layer mb back = some d' ∧ d'.choices.map naming = d.choices.map naming := by
  have read (u : State) : (Machine.dispatchAt u step layer mb back).map outline =
      (u.exch.dispatches.map outline).find? (outlines step layer mb back) :=
    (List.find?_map (p := outlines step layer mb back) (f := outline)).symm
  have eq : (Machine.dispatchAt t step layer mb back).map outline = some (outline d) := by
    rw [read, h.dispatches, ← read, found]
    rfl
  obtain ⟨d', found', eq⟩ := Option.map_eq_some_iff.mp eq
  exact ⟨d', found', congrArg Prod.snd eq⟩

/-! ### The end of a dispatch -/

/-- The dispatch when its answers have been combined. -/
def combinedOf (d : DispatchList) : DispatchList := { d with combined := true }

/-- Every choice that has a holder has its answer. -/
def answered (cs : List Assign) : Prop := ∀ c ∈ cs, c.holder ≠ none → c.back ≠ none

/-- A token's outputs are added to its row of the residual buffer, in the order of its choices (10 R276). -/
def addOutputs (base hid : Nat) (cs : List Assign) (k : Nat) (u : State) : State :=
  wr (base + 4 * hid * k)
    (((cs.filter (fun c => c.token == k)).foldl combineRow (words32 u (base + 4 * hid * k) hid)).flatMap
      (fun v => bytesLE 4 v.toNat)) u

/-- The outputs of every token of a dispatch are added. -/
def addAll (base hid : Nat) (cs : List Assign) (u : State) : State :=
  forEach (cs.foldl (fun l c => addNew l c.token) []) (addOutputs base hid cs) u

theorem addAll_onlyMem (base hid : Nat) (cs : List Assign) (u : State) : Cellar.OnlyMem u (addAll base hid cs u) :=
  Cellar.OnlyMem.forEach rfl fun _ _ h => h.trans rfl

/-- What is added depends on the memory alone. -/
theorem addAll_mem (base hid : Nat) (cs : List Assign) (same : t.mem = s.mem) :
    (addAll base hid cs t).mem = (addAll base hid cs s).mem := by
  unfold addAll
  induction cs.foldl (fun l c => addNew l c.token) [] generalizing s t with
  | nil => exact same
  | cons k ks ih =>
    rw [forEach_cons, forEach_cons]
    refine ih ?_
    simp only [addOutputs, wr, words32, Cellar.rd_of_mem same, same]

section
variable {d : DispatchList}

theorem settleDispatch_waits (found : dispatchAt s step layer mb back = some d)
    (waits : ∃ c ∈ d.choices, c.holder ≠ none ∧ c.back = none) :
    settleDispatch step layer mb back s = s := by
  have cond : (d.combined || d.choices.any (fun c => c.holder.isSome && c.back.isNone)) = true := by
    obtain ⟨c, mem, holder, back⟩ := waits
    have : d.choices.any (fun c => c.holder.isSome && c.back.isNone) = true :=
      List.any_eq_true.mpr ⟨c, mem, by simp [Option.isSome_iff_ne_none, holder, back]⟩
    rw [this, Bool.or_true]
  unfold settleDispatch
  rw [found]
  dsimp only
  rw [if_pos cond]

/-- A dispatch is left as it is, or it is combined, which changes no more than the memory. -/
theorem settleDispatch_cases (step layer mb : Nat) (back : Bool) (s : State) : settleDispatch step layer mb back s = s ∨
    Cellar.OnlyMem (updDispatch step layer mb back combinedOf s) (settleDispatch step layer mb back s) := by
  unfold settleDispatch
  split
  · exact .inl rfl
  · split
    · exact .inl rfl
    · refine .inr ?_
      dsimp only
      split
      · rfl
      · split
        · rfl
        · split
          · rfl
          · exact addAll_onlyMem ..

/-- Once every answer of a forward dispatch is in, its tokens' outputs are added (10 R276). -/
theorem settleDispatch_combines {p : Plan} {tr : TokenRows} (found : dispatchAt s step layer mb false = some d)
    (waits : d.combined = false) (all : answered d.choices) (plan : openPlan s = some p) (rows : rowsFor p layer mb = some tr)
    (kept : s.steps.workLost = false) :
    settleDispatch step layer mb false s =
      addAll tr.residual.toNat (hidOf p layer) d.choices (updDispatch step layer mb false combinedOf s) := by
  have cond : (d.combined || d.choices.any (fun c => c.holder.isSome && c.back.isNone)) = false := by
    rw [waits, Bool.false_or, List.any_eq_false]
    intro c mem
    have := all c mem
    simpa [Option.isSome_iff_ne_none] using this
  have plan' : openPlan (updDispatch step layer mb false (fun d => { d with combined := true }) s) = some p := plan
  unfold settleDispatch
  rw [found]
  dsimp only
  rw [cond, plan']
  dsimp only
  rw [rows]
  dsimp only
  rw [show (updDispatch step layer mb false (fun d => { d with combined := true }) s).steps.workLost = false from kept]
  rfl

theorem goesOn_settleDispatch (step layer mb : Nat) (back : Bool) (s : State) : GoesOn s (settleDispatch step layer mb back s) := by
  rcases settleDispatch_cases step layer mb back s with same | only
  · rw [same]
    exact .refl s
  · exact (goesOn_updDispatch (f := combinedOf) fun _ => rfl).trans (goesOn_of_onlyMem only)

/-- The end of a dispatch leaves the counters and the choices as they are. -/
theorem settleDispatch_keeps (found : dispatchAt s step layer mb back = some d) :
    (settleDispatch step layer mb back s).exch.routers = s.exch.routers ∧
    ∃ d', dispatchAt (settleDispatch step layer mb back s) step layer mb back = some d' ∧ d'.choices = d.choices := by
  rcases settleDispatch_cases step layer mb back s with same | only
  · rw [same]
    exact ⟨rfl, d, found, rfl⟩
  · have exch : (settleDispatch step layer mb back s).exch = (updDispatch step layer mb back combinedOf s).exch := by rw [only]
    refine ⟨by rw [exch]; rfl, combinedOf d, ?_, rfl⟩
    unfold dispatchAt
    rw [exch]
    exact (dispatchAt_updDispatch (by exact fun _ => rfl)).trans (congrArg (Option.map combinedOf) found)

end

/-! ### Answers and arrivals -/

theorem goesOn_dropChoices (step layer mb : Nat) (back : Bool) (which : Nat) (sel : Assign → Bool) (s : State) :
    GoesOn s (dropChoices step layer mb back which sel s) := by
  unfold dropChoices
  split
  · exact .refl s
  · refine .ite (.refl s) (GoesOn.trans (GoesOn.trans (goesOn_updDispatch fun d => ?_) (goesOn_updRouter fun r => ?_))
      (goesOn_settleDispatch ..))
    · refine congrArg (Prod.mk _) (map_naming (fun c => ?_) _)
      split <;> rfl
    · split <;> rfl

theorem goesOn_returnBundleReceive (h : BitVec 512) (toks : List W32) (rows : List (List Byte)) (s : State) :
    GoesOn s (returnBundleReceive h toks rows s) := by
  unfold returnBundleReceive
  refine .ite (.refl s) (.ite ?_ (.ite (goesOn_dropChoices ..) (.ite (goesOn_dropChoices ..) (.refl s))))
  refine (goesOn_updDispatch fun d => ?_).trans (goesOn_settleDispatch ..)
  refine congrArg (Prod.mk _) (map_naming (fun c => ?_) _)
  split <;> rfl

theorem goesOn_markReceive (h : BitVec 512) (s : State) : GoesOn s (markReceive h s) := by
  unfold markReceive
  exact .ite (.refl s) (.ite (.refl s) reach_onlyRounds.goesOn)

theorem goesOn_bundleReceive (h : BitVec 512) (toks : List W32) (rows : List (List Byte)) (s : State) :
    GoesOn s (bundleReceive h toks rows s) := by
  unfold bundleReceive
  refine .ite (.refl s) (.ite ?_ (.ite (.refl s) reach_onlyRounds.goesOn))
  refine GoesOn.trans ((goesOn_raise ..).trans (.ite (goesOn_returnBundleReceive ..) (goesOn_emit ..))) reach_onlyRounds.goesOn

theorem goesOn_sendExchange (h : BitVec 512) (toks : List W32) (rows : List (List Byte)) (s : State) :
    GoesOn s (sendExchange h toks rows s) := by
  unfold sendExchange
  exact .ite (goesOn_emit ..) (.ite (goesOn_markReceive ..) (goesOn_bundleReceive ..))

theorem goesOn_sendMark (h : BitVec 512) (s : State) : GoesOn s (sendMark h s) := by
  unfold sendMark
  exact .ite (.refl s) (goesOn_sendExchange ..)

/-! ### Homes -/

/-- What has been sent, and the tray's slot. -/
def sentFrom (s : State) := (s.outs, s.power.slotId)

theorem sentFrom_of_onlyRooms (h : Cellar.OnlyRooms s t) : sentFrom t = sentFrom s := by
  rw [h]
  rfl

theorem sentFrom_poisonEvent (c a : Nat) (s : State) : sentFrom (poisonEvent c a s) = sentFrom s := by
  unfold poisonEvent
  split <;> rfl

theorem sentFrom_endSnapshot (cause : Nat) (s : State) : sentFrom (endSnapshot cause s) = sentFrom s := by
  unfold endSnapshot dropSnapshot
  split
  · rfl
  · split
    · rfl
    · refine (sentFrom_of_onlyRooms ((Cellar.releaseNow_onlyRooms ..).trans (Cellar.releaseNow_onlyRooms ..))).trans ?_
      exact forEach_same (g := sentFrom) _ fun _ _ _ => sentFrom_of_onlyRooms (Cellar.unpinRoom_onlyRooms ..)

theorem sentFrom_settleSnapPins (s : State) : sentFrom (settleSnapPins s) = sentFrom s := by
  unfold settleSnapPins
  split
  · rfl
  · exact forEach_same (g := sentFrom) _ fun _ _ _ => sentFrom_of_onlyRooms (Cellar.unpinRoom_onlyRooms ..)

theorem sentFrom_saveChunk (k : Nat) (s : State) : sentFrom (saveChunk k s) = sentFrom s := by
  unfold saveChunk
  split
  · rfl
  · split
    · split
      · exact (sentFrom_endSnapshot ..).trans (sentFrom_poisonEvent ..)
      · exact sentFrom_settleSnapPins _
    · rfl

/-- A home is written, and the chunks that it would change are saved before: neither has to do with the exchange. -/
theorem goesOn_homeWrite (a : Nat) (bs : List Byte) (s : State) : GoesOn s (homeWrite a bs s) := by
  have rest := Vector.outside_homeWrite (c := 0) a bs s
  have sent : sentFrom (homeWrite a bs s) = sentFrom s := forEach_same (g := sentFrom) s fun _ _ _ => sentFrom_saveChunk ..
  simp only [Vector.outside, sentFrom, Prod.mk.injEq] at rest sent
  obtain ⟨-, -, -, -, -, -, fab, -, exch, -⟩ := rest
  obtain ⟨outs, slot⟩ := sent
  refine ⟨?_, by rw [outs]; exact List.Subset.refl _, by rw [exch], fun _ => by rw [exch]⟩
  unfold sender
  rw [fab, slot, exch]

theorem goesOn_keepAssignment (list : Nat) (cs : List Assign) (s : State) : GoesOn s (keepAssignment list cs s) := by
  unfold keepAssignment
  split
  · exact .ite (goesOn_homeWrite ..) (.refl s)
  · exact .refl s

end

end Sys2Proof.Experts
end

section
/-! PROOFS. A dispatch at its source: the router's walk, the marks that it sends, and the returns that are combined
(10 R273 to R277, R285, R286). -/

namespace Sys2Proof.Experts

open Sys2Proof.Machine Sys2Proof.Safety Sys2Proof.Laws

/-! ### Marks -/

section
variable {s t u : State} {step : W64} {layer mb : Nat} {back : Bool}

/-- A mark has been sent to every other member that can be reached. -/
def Marked (s t : State) (step : W64) (layer mb : Nat) (back : Bool) : Prop :=
  ∀ m ∈ groupMembers s, m ≠ s.fab.moduleId → lostTarget s m = false →
    ∃ h, .exchange (ownTag s) h [] [] ∈ t.outs ∧ xKind h = 0 ∧ xDst h = m ∧ xStep h = step.toNat ∧
      xLayer h = layer ∧ xMb h = mb ∧ xBack h = back ∧ xLost h = false

theorem Marked.goesOn (h : Marked s t step layer mb back) (on : GoesOn t u) : Marked s u step layer mb back := by
  intro m mem other live
  obtain ⟨head, sent, fields⟩ := h m mem other live
  exact ⟨head, on.outs sent, fields⟩

theorem ownTag_of_sender (same : sender t = sender s) : ownTag t = ownTag s := by
  simp only [sender, Prod.mk.injEq] at same
  obtain ⟨fab, slot, -⟩ := same
  simp only [ownTag, fab, slot]

/-- Who is marked, and from whom, is read from the fabric, the slot and the group. -/
theorem Marked.of_sender (h : Marked u t step layer mb back) (same : sender u = sender s) : Marked s t step layer mb back := by
  have tag := ownTag_of_sender same
  simp only [sender, Prod.mk.injEq] at same
  obtain ⟨fab, -, group⟩ := same
  unfold Marked lostTarget groupMembers at *
  rwa [fab, group, tag] at h

/-- The header of a mark that announces `n` bundles. -/
def markHead (me : W16) (step : W64) (layer mb : Nat) (back : Bool) (n : Nat) (m : W16) : BitVec 512 :=
  xHead { step := step, src := me, dst := m, mb := mb, layer := layer, backward := back, kind := 0, ntok := n } []

theorem sendMark_emits {h : BitVec 512} (other : xDst h ≠ s.fab.moduleId) (live : lostTarget s (xDst h) = false) :
    sendMark h s = emit (.exchange (ownTag s) h [] []) s := by
  have away : (xDst h != s.fab.moduleId) = true := by simpa using other
  unfold sendMark sendExchange
  rw [live, away]
  rfl

theorem marked_of_sendMarks (layerByte : layer < 256) (mbByte : mb < 256) (n : W16 → Nat) :
    Marked s (forEach (groupMembers s) (fun m u => sendMark (markHead s.fab.moduleId step layer mb back (n m) m) u) s)
      step layer mb back := by
  intro m mem other live
  obtain ⟨u, before, after⟩ := forEach_turn
    (f := fun m u => sendMark (markHead s.fab.moduleId step layer mb back (n m) m) u) (fun _ _ => goesOn_sendMark ..) mem s
  have tag := ownTag_of_sender before.sender
  have fab : u.fab = s.fab := congrArg Prod.fst before.sender
  have dst : xDst (markHead s.fab.moduleId step layer mb back (n m) m) = m := xDst_xHead
  have emits : sendMark (markHead s.fab.moduleId step layer mb back (n m) m) u =
      emit (.exchange (ownTag s) (markHead s.fab.moduleId step layer mb back (n m) m) [] []) u := by
    rw [← tag]
    refine sendMark_emits (by rwa [dst, fab]) ?_
    unfold lostTarget
    rwa [dst, fab]
  refine ⟨markHead s.fab.moduleId step layer mb back (n m) m, after.outs ?_, xKind_xHead (by decide : 0 < 4), dst, xStep_xHead,
    xLayer_xHead layerByte, xMb_xHead mbByte, xBack_xHead, xLost_xHead⟩
  rw [emits]
  exact List.mem_cons_self

/-- What a module sends for a round: marks to every member, then a bundle to each holder chosen (10 R277). -/
theorem sendRound_marks (layerByte : layer < 256) (mbByte : mb < 256) (p : Plan) (cs : List Assign) (s : State) :
    Marked s (sendRound p step layer mb back cs s) step layer mb back ∧ GoesOn s (sendRound p step layer mb back cs s) := by
  unfold sendRound
  dsimp only
  have bundles (k : (W16 × W16) × Nat) (h : BitVec 512) (ws : List W32) (rows : List (List Byte)) (sel : Assign → Bool)
      (u : State) : GoesOn u (if lostTarget u k.1.1 then dropChoices step.toNat layer mb back 0 sel u
        else sendExchange h ws rows u) := .ite (goesOn_dropChoices ..) (goesOn_sendExchange ..)
  constructor
  · exact (marked_of_sendMarks layerByte mbByte _).goesOn (.forEach (fun k u => bundles k _ _ _ _ u) _ _)
  · exact (GoesOn.forEach (fun _ _ => goesOn_sendMark ..) _ _).trans (.forEach (fun k u => bundles k _ _ _ _ u) _ _)

end

/-! ### The router -/

section
variable {s t : State} {p : Plan} {j : Job} {layer mb list tokens : Nat}

/-- Every choice walked is in the assignment list, in order (10 R275). -/
theorem naming_walk (s : State) (p : Plan) (layer : Nat) (cs : List Choice) (a : Walk) :
    (cs.foldl (walkChoice s p layer) a).out.map naming =
      a.out.map naming ++ cs.map (fun c => (c.token, c.order, c.expert, c.gate)) := by
  induction cs generalizing a with
  | nil => simp
  | cons c cs ih =>
    have one : (walkChoice s p layer a c).out.map naming = a.out.map naming ++ [(c.token, c.order, c.expert, c.gate)] := by
      unfold walkChoice
      dsimp only
      split <;> exact List.map_append
    rw [List.foldl_cons, ih, one, List.append_assoc]
    rfl

/-- A dispatch is added to the list. -/
def withDispatch (d : DispatchList) (s : State) : State :=
  { s with exch := { s.exch with dispatches := s.exch.dispatches ++ [d] } }

theorem dispatchAt_withDispatch {step : Nat} {back : Bool} {d : DispatchList} (none_ : dispatchAt s step layer mb back = none)
    (same : sameDispatch d step layer mb back = true) : dispatchAt (withDispatch d s) step layer mb back = some d := by
  show (s.exch.dispatches ++ [d]).find? _ = _
  rw [List.find?_append, show s.exch.dispatches.find? (fun d => sameDispatch d step layer mb back) = none from none_]
  simp [same]

/-- The walk of a route list by the routers of a layer. -/
def walkOf (s : State) (p : Plan) (layer list tokens : Nat) : Walk :=
  (routeList s list tokens p.topk).foldl (walkChoice s p layer) { rrs := [], moved := 0, dropped := 0, out := [] }

/-- The forward dispatch as the router takes it. -/
def forwardOf (w : Walk) (j : Job) (layer mb list : Nat) : DispatchList :=
  { step := j.step, layer := layer, mb := mb, backward := false, list := BitVec.ofNat 64 list, choices := w.out, combined := false }

/-- The counters of a layer after a walk. -/
def counted (w : Walk) (n : Nat) (r : Router) : Router :=
  { r with choices := r.choices + n, moved := r.moved + w.moved, dropCap := r.dropCap + w.dropped }

/-- The state in which a forward dispatch has been taken and counted, before anything of it is sent. -/
def taken (w : Walk) (p : Plan) (j : Job) (layer mb list tokens : Nat) (s : State) : State :=
  updRouter layer (counted w (tokens * p.topk)) (withDispatch (forwardOf w j layer mb list) s)

/-- The backward dispatch follows the forward one's assignment list (10 R276). -/
def backwardOf (d : DispatchList) : DispatchList :=
  { d with backward := true, choices := d.choices.map (fun c => { c with back := none }), combined := false }

/-- The conditions in which the router of LINKn takes a dispatch. -/
structure Routes (s : State) (j : Job) (p : Plan) (layer mb : Nat) : Prop where
  job : s.steps.job = some j
  plan : openPlan s = some p
  runs : domainRuns s (linkDie + mb % 4) = true
  bound : ∃ b ∈ p.bindings, b.layer = layer
  kept : s.steps.workLost = false

theorem Routes.cond (r : Routes s j p layer mb) :
    (!domainRuns s (linkDie + mb % 4) || !(p.bindings.any (fun b => b.layer == layer)) || s.steps.workLost) = false := by
  obtain ⟨b, mem, eq⟩ := r.bound
  have bound : p.bindings.any (fun b => b.layer == layer) = true := List.any_eq_true.mpr ⟨b, mem, by simpa using eq⟩
  rw [r.runs, bound, r.kept]
  rfl

theorem routerDispatch_forward (r : Routes s j p layer mb) (none_ : dispatchAt s j.step.toNat layer mb false = none) :
    routerDispatch layer mb list tokens s =
      settleDispatch j.step.toNat layer mb false (sendRound p j.step layer mb false (walkOf s p layer list tokens).out
        (keepAssignment list (walkOf s p layer list tokens).out
          (taken (walkOf s p layer list tokens) p j layer mb list tokens s))) := by
  unfold routerDispatch
  rw [r.job, r.plan]
  dsimp only
  rw [r.cond, none_]
  rfl

theorem routerDispatch_backward {d : DispatchList} (r : Routes s j p layer mb)
    (found : dispatchAt s j.step.toNat layer mb false = some d) (combined : d.combined = true)
    (none_ : dispatchAt s j.step.toNat layer mb true = none) :
    routerDispatch layer mb list tokens s =
      settleDispatch j.step.toNat layer mb true (sendRound p j.step layer mb true (backwardOf d).choices
        (withDispatch (backwardOf d) s)) := by
  unfold routerDispatch
  rw [r.job, r.plan]
  dsimp only
  rw [r.cond, found]
  dsimp only
  rw [combined, none_]
  rfl

/-- A forward dispatch: its choices are those of the route list, the layer's counters grow by the walk, and the marks go out. -/
theorem forward_does (r : Routes s j p layer mb) (none_ : dispatchAt s j.step.toNat layer mb false = none)
    (layerByte : layer < 256) (mbByte : mb < 256) :
    let t := routerDispatch layer mb list tokens s
    let w := walkOf s p layer list tokens
    (∃ d, dispatchAt t j.step.toNat layer mb false = some d ∧
      d.choices.map naming = (routeList s list tokens p.topk).map (fun c => (c.token, c.order, c.expert, c.gate))) ∧
    tally (tget t.exch.routers layer Router.zero) =
      tally (counted w (tokens * p.topk) (tget s.exch.routers layer Router.zero)) ∧
    Marked s t j.step layer mb false := by
  intro t w
  have kept : GoesOn (taken w p j layer mb list tokens s) (keepAssignment list w.out (taken w p j layer mb list tokens s)) :=
    goesOn_keepAssignment ..
  obtain ⟨marked, sent⟩ := sendRound_marks (step := j.step) (back := false) layerByte mbByte p w.out
    (keepAssignment list w.out (taken w p j layer mb list tokens s))
  have settled := goesOn_settleDispatch j.step.toNat layer mb false
    (sendRound p j.step layer mb false w.out (keepAssignment list w.out (taken w p j layer mb list tokens s)))
  rw [← routerDispatch_forward r none_] at settled
  have on : GoesOn (taken w p j layer mb list tokens s) t := (kept.trans sent).trans settled
  have added : dispatchAt (taken w p j layer mb list tokens s) j.step.toNat layer mb false = some (forwardOf w j layer mb list) :=
    dispatchAt_withDispatch none_ (by simp [sameDispatch, forwardOf])
  refine ⟨?_, ?_, ?_⟩
  · obtain ⟨d, found, choices⟩ := on.dispatchAt added
    exact ⟨d, found, choices.trans (naming_walk ..)⟩
  · rw [on.routers]
    exact congrArg tally ((tget_tmod ..).trans (if_pos rfl))
  · exact (marked.goesOn settled).of_sender (kept.sender.trans rfl)

/-- A backward dispatch: its choices are those of the forward one, and the marks go out. -/
theorem backward_does {d : DispatchList} (r : Routes s j p layer mb) (found : dispatchAt s j.step.toNat layer mb false = some d)
    (combined : d.combined = true) (none_ : dispatchAt s j.step.toNat layer mb true = none)
    (layerByte : layer < 256) (mbByte : mb < 256) :
    let t := routerDispatch layer mb list tokens s
    (∃ d', dispatchAt t j.step.toNat layer mb true = some d' ∧ d'.choices.map naming = d.choices.map naming) ∧
    Marked s t j.step layer mb true := by
  intro t
  obtain ⟨marked, sent⟩ := sendRound_marks (step := j.step) (back := true) layerByte mbByte p (backwardOf d).choices
    (withDispatch (backwardOf d) s)
  have settled := goesOn_settleDispatch j.step.toNat layer mb true
    (sendRound p j.step layer mb true (backwardOf d).choices (withDispatch (backwardOf d) s))
  rw [← routerDispatch_backward r found combined none_] at settled
  have same : sameDispatch (backwardOf d) j.step.toNat layer mb true = true := by
    have forward := List.find?_some found
    simp only [sameDispatch, Bool.and_eq_true] at forward ⊢
    obtain ⟨round, -⟩ := forward
    exact ⟨round, rfl⟩
  obtain ⟨d', found', choices⟩ := (sent.trans settled).dispatchAt (dispatchAt_withDispatch none_ same)
  refine ⟨⟨d', found', choices.trans (map_naming (g := fun c => { c with back := none }) (fun _ => rfl) _)⟩,
    (marked.goesOn settled).of_sender rfl⟩

end

/-! ### Returns -/

section
variable {s : State} {h : BitVec 512} {toks : List W32} {rows : List (List Byte)} {d : DispatchList}

/-- The choice is one of those that a return bundle answers: of its expert, its tokens and its version. -/
def answeredBy (h : BitVec 512) (toks : List W32) (c : Assign) : Bool :=
  c.expert == xExpert h && toks.any (fun t => t.toNat == c.token) &&
    (match c.holder with
      | some (_, v) => v.toNat == xVer h
      | none => false)

/-- A choice with its returned row, widened to FP32. -/
def giveRow (h : BitVec 512) (toks : List W32) (rows : List (List Byte)) (c : Assign) : Assign :=
  if answeredBy h toks c && c.back.isNone then
    { c with back := ((toks.zip rows).find? (fun x => x.1.toNat == c.token)).map (fun x => rowValues (xFmt h) x.2) } else c

/-- A dispatch with the rows of a return bundle. -/
def giveRows (h : BitVec 512) (toks : List W32) (rows : List (List Byte)) (d : DispatchList) : DispatchList :=
  { d with choices := d.choices.map (giveRow h toks rows) }

/-- A choice that a return bundle drops. -/
def dropped (h : BitVec 512) (toks : List W32) (c : Assign) : Bool := c.holder.isSome && c.back.isNone && answeredBy h toks c

/-- A dispatch without the choices that a return bundle drops. -/
def dropAnswered (h : BitVec 512) (toks : List W32) (d : DispatchList) : DispatchList :=
  { d with choices := d.choices.map (fun c => if dropped h toks c then { c with holder := none } else c) }

/-- A layer's counters with choices dropped for a version that their holder did not honour. -/
def countDropped (n : Nat) (r : Router) : Router := { r with dropVer := r.dropVer + n }

/-- A return bundle that is whole and comes back to its source. -/
structure ComesBack (s : State) (h : BitVec 512) (toks : List W32) : Prop where
  crc : xCrc h toks = bits h 0 32
  kind : xKind h = 2
  src : xSrc h = s.fab.moduleId

theorem returnBundleReceive_eq (r : ComesBack s h toks) :
    returnBundleReceive h toks rows s =
      if xStatus h == stDone then
        settleDispatch (xStep h) (xLayer h) (xMb h) (xBack h)
          (updDispatch (xStep h) (xLayer h) (xMb h) (xBack h) (giveRows h toks rows) s)
      else if xStatus h == stWrongState then dropChoices (xStep h) (xLayer h) (xMb h) (xBack h) 1 (answeredBy h toks) s
      else if xStatus h == stPeerLost then dropChoices (xStep h) (xLayer h) (xMb h) (xBack h) 0 (answeredBy h toks) s
      else s := by
  unfold returnBundleReceive
  simp only [r.crc, r.kind, r.src, bne_self_eq_false, Bool.or_self, Bool.false_eq_true, if_false]
  rfl

/-- DONE: the rows are given to the choices that they answer. -/
theorem returnBundleReceive_done (r : ComesBack s h toks) (done : xStatus h = stDone) :
    returnBundleReceive h toks rows s = settleDispatch (xStep h) (xLayer h) (xMb h) (xBack h)
      (updDispatch (xStep h) (xLayer h) (xMb h) (xBack h) (giveRows h toks rows) s) := by
  rw [returnBundleReceive_eq r, done]
  rfl

theorem returnBundleReceive_wrongState (r : ComesBack s h toks) (wrong : xStatus h = stWrongState) :
    returnBundleReceive h toks rows s = dropChoices (xStep h) (xLayer h) (xMb h) (xBack h) 1 (answeredBy h toks) s := by
  rw [returnBundleReceive_eq r, wrong]
  rfl

/-- The dispatch that a return bundle names, with its rows. -/
theorem dispatchAt_giveRows (found : dispatchAt s (xStep h) (xLayer h) (xMb h) (xBack h) = some d) :
    dispatchAt (updDispatch (xStep h) (xLayer h) (xMb h) (xBack h) (giveRows h toks rows) s)
      (xStep h) (xLayer h) (xMb h) (xBack h) = some (giveRows h toks rows d) :=
  (dispatchAt_updDispatch (by exact fun _ => rfl)).trans (congrArg (Option.map _) found)

/-- Rows are given, and some are still to come. -/
theorem done_waits (r : ComesBack s h toks) (done : xStatus h = stDone)
    (found : dispatchAt s (xStep h) (xLayer h) (xMb h) (xBack h) = some d)
    (waits : ∃ c ∈ (giveRows h toks rows d).choices, c.holder ≠ none ∧ c.back = none) :
    let t := returnBundleReceive h toks rows s
    t = { s with exch := { s.exch with dispatches := t.exch.dispatches } } ∧
    dispatchAt t (xStep h) (xLayer h) (xMb h) (xBack h) = some (giveRows h toks rows d) := by
  intro t
  have eq : t = updDispatch (xStep h) (xLayer h) (xMb h) (xBack h) (giveRows h toks rows) s :=
    (returnBundleReceive_done r done).trans (settleDispatch_waits (dispatchAt_giveRows found) waits)
  rw [eq]
  exact ⟨rfl, dispatchAt_giveRows found⟩

/-- The last rows are given, and the outputs are added into the residual buffer (10 R276). -/
theorem done_combines {p : Plan} {tr : TokenRows} (r : ComesBack s h toks) (done : xStatus h = stDone)
    (found : dispatchAt s (xStep h) (xLayer h) (xMb h) (xBack h) = some d) (waits : d.combined = false)
    (all : answered (giveRows h toks rows d).choices) (plan : openPlan s = some p)
    (rowsAt : rowsFor p (xLayer h) (xMb h) = some tr) (forward : xBack h = false) (kept : s.steps.workLost = false) :
    let t := returnBundleReceive h toks rows s
    dispatchAt t (xStep h) (xLayer h) (xMb h) (xBack h) = some (combinedOf (giveRows h toks rows d)) ∧
    t = { s with mem := t.mem, exch := { s.exch with dispatches := t.exch.dispatches } } ∧
    t.mem = (addAll tr.residual.toNat (hidOf p (xLayer h)) (giveRows h toks rows d).choices s).mem := by
  intro t
  have given := dispatchAt_giveRows (toks := toks) (rows := rows) found
  rw [forward] at given ⊢
  have eq : t = addAll tr.residual.toNat (hidOf p (xLayer h)) (giveRows h toks rows d).choices
      (updDispatch (xStep h) (xLayer h) (xMb h) false combinedOf
        (updDispatch (xStep h) (xLayer h) (xMb h) false (giveRows h toks rows) s)) := by
    have split := returnBundleReceive_done (rows := rows) r done
    rw [forward] at split
    exact split.trans (settleDispatch_combines given waits all plan rowsAt kept)
  have only := addAll_onlyMem tr.residual.toNat (hidOf p (xLayer h)) (giveRows h toks rows d).choices
      (updDispatch (xStep h) (xLayer h) (xMb h) false combinedOf
        (updDispatch (xStep h) (xLayer h) (xMb h) false (giveRows h toks rows) s))
  rw [← eq] at only
  refine ⟨?_, ?_, by rw [eq]; exact addAll_mem _ _ _ rfl⟩
  · rw [only]
    exact (dispatchAt_updDispatch (by exact fun _ => rfl)).trans (congrArg (Option.map combinedOf) given)
  · rw [only]
    rfl

/-- WRONG_STATE: the choices are dropped and counted (10 R285). -/
theorem wrongState_drops (r : ComesBack s h toks) (wrong : xStatus h = stWrongState)
    (found : dispatchAt s (xStep h) (xLayer h) (xMb h) (xBack h) = some d) :
    let t := returnBundleReceive h toks rows s
    (tget t.exch.routers (xLayer h) Router.zero).dropVer =
      (tget s.exch.routers (xLayer h) Router.zero).dropVer + (d.choices.filter (dropped h toks)).length ∧
    ∃ d', dispatchAt t (xStep h) (xLayer h) (xMb h) (xBack h) = some d' ∧ d'.choices = (dropAnswered h toks d).choices := by
  intro t
  have eq : t = dropChoices (xStep h) (xLayer h) (xMb h) (xBack h) 1 (answeredBy h toks) s := returnBundleReceive_wrongState r wrong
  have cases_ : t = if (d.choices.filter (dropped h toks)).length == 0 then s
      else settleDispatch (xStep h) (xLayer h) (xMb h) (xBack h)
        (updRouter (xLayer h) (countDropped (d.choices.filter (dropped h toks)).length)
          (updDispatch (xStep h) (xLayer h) (xMb h) (xBack h) (dropAnswered h toks) s)) := by
    rw [eq]
    unfold dropChoices
    rw [found]
    rfl
  rw [cases_]
  split
  · next none_ =>
    have nothing : ∀ c ∈ d.choices, ¬ dropped h toks c = true := by simpa using none_
    refine ⟨by rw [eq_of_beq none_]; rfl, d, found, ?_⟩
    exact ((List.map_congr_left fun c mem => if_neg (nothing c mem)).trans (List.map_id _)).symm
  · have after : dispatchAt (updRouter (xLayer h)
        (countDropped (d.choices.filter (dropped h toks)).length)
        (updDispatch (xStep h) (xLayer h) (xMb h) (xBack h) (dropAnswered h toks) s))
        (xStep h) (xLayer h) (xMb h) (xBack h) = some (dropAnswered h toks d) :=
      (dispatchAt_updDispatch (f := dropAnswered h toks) (by exact fun _ => rfl)).trans (congrArg (Option.map _) found)
    obtain ⟨routers, choices⟩ := settleDispatch_keeps after
    refine ⟨?_, choices⟩
    rw [routers]
    exact congrArg Router.dropVer ((tget_tmod (f := countDropped (d.choices.filter (dropped h toks)).length) ..).trans (if_pos rfl))

end

/-! ### The obligation -/

/-- Settles O34: the router's two kinds of dispatch, then what a return bundle does by its status. -/
theorem exchangeDispatchAndReturns : Obligations.ExchangeDispatchAndReturns := by
  unfold Obligations.ExchangeDispatchAndReturns
  intro mine marked names s
  have same : mine = answeredBy := by
    funext h toks c
    simp only [mine, answeredBy]
    cases c.holder <;> rfl
  clear_value mine
  subst same
  refine ⟨?_, ?_⟩
  · intro layer mb list tokens j p job plan runs bound kept
    have routes : Routes s j p layer.val mb.toNat := ⟨job, plan, runs, bound, kept⟩
    refine ⟨fun none_ => ?_, fun d found combined none_ => ?_⟩
    · obtain ⟨assigned, tallied, sent⟩ := forward_does (list := list.toNat) (tokens := tokens) routes none_ layer.isLt mb.isLt
      simp only [tally, counted, Prod.mk.injEq] at tallied
      obtain ⟨choices, moved, dropCap⟩ := tallied
      exact ⟨_, rfl, assigned, choices, moved, dropCap, sent⟩
    · exact ⟨_, rfl, backward_does routes found combined none_ layer.isLt mb.isLt⟩
  · intro g h toks rows d good crc kind src found waits
    have back : ComesBack s h toks := ⟨crc, kind, src⟩
    have eq : exec (.returnBundleReceive ⟨g, h⟩ toks rows) s = .next (returnBundleReceive h toks rows s) :=
      congrArg Host.Outcome.next (fromPeer_good good _)
    refine ⟨fun done => ⟨fun some_ => ?_, fun p tr all plan rowsAt forward kept => ?_⟩, fun wrong => ?_⟩
    · exact ⟨_, eq, done_waits back done found some_⟩
    · exact ⟨_, eq, done_combines back done found waits all plan rowsAt forward kept⟩
    · exact ⟨_, eq, wrongState_drops back wrong found⟩

end Sys2Proof.Experts
end

