-- ==== Sys2Proof/Proofs/Supply.lean ====
section
/-! PROOFS. The tie of a step to the command in front (O56), and the findings on the input supply (O16). -/

namespace Sys2Proof.Supply

open Sys2Proof.Machine Sys2Proof.Safety Sys2Proof.Laws

/-! ### A step -/

/-- Every command answers a next state: its row of the instruction set is a function into states. -/
theorem exec_goes (c : Instr) (s : State) : ∃ t, exec c s = .next t := by cases c <;> exact ⟨_, rfl⟩

/-- A step takes the front command, or idles. -/
theorem step_goes (s : State) : Goes s := by
  unfold Goes step
  split
  · exact ⟨s, rfl⟩
  · exact exec_goes _ _

/-- Settles O56: the step's two cases, and every command's answer. -/
theorem stepRunsFrontCommand : Obligations.StepRunsFrontCommand := by
  unfold Obligations.StepRunsFrontCommand
  exact fun s => ⟨fun _ _ => rfl, rfl, step_goes s⟩

/-! ### Input supply -/

/-- While Keeper is alive a first under-voltage is that mark and that event. -/
theorem inputUndervoltage_first {s : State} (mv : Nat) (alive : keeperAlive s = true) (on : s.power.phase ≠ .off)
    (first : s.power.inputLow = false) : inputUndervoltage mv s =
      raiseMgmt 0x6001 [a2 mv] { s with power := { s.power with inputLow := true } } := by
  have alive' : keeperAlive { s with power := { s.power with inputLow := true } } = true := alive
  simp [inputUndervoltage, on, first, alive']

/-- The first failure of a converter is recorded and reported. -/
theorem converterFail_first {s : State} (n : Fin 4) (alive : keeperAlive s = true) (on : s.power.phase ≠ .off)
    (first : n ∉ s.power.convertersFailed) : converterFail n s = raiseMgmt 0x6007 [a2 n.val]
      { s with power := { s.power with convertersFailed := s.power.convertersFailed ++ [n] } } := by
  have alive' : keeperAlive { s with power := { s.power with convertersFailed := s.power.convertersFailed ++ [n] } } = true := alive
  simp [converterFail, on, first, alive']

/-- Settles O16: each finding is one event, and a collapse is the loss of every supply. -/
theorem inputSupplyEvents : Obligations.InputSupplyEvents := by
  unfold Obligations.InputSupplyEvents
  intro mv n s
  refine ⟨fun alive on first => ?_, ⟨_, rfl, rfl⟩, fun alive => ?_, fun alive on first => ?_, ⟨_, rfl, ?_⟩⟩
  · refine ⟨_, rfl, ?_⟩
    rw [inputUndervoltage_first _ alive on first]
    exact raise_onlyEvent ..
  · refine ⟨_, rfl, ?_⟩
    rw [inputOvervoltage, if_pos alive]
    exact raise_onlyEvent ..
  · refine ⟨_, rfl, ?_⟩
    rw [converterFail_first n alive on first]
    exact raise_onlyEvent ..
  · exact ⟨rfl, rfl, rfl, rfl, rfl, rfl, rfl, rfl, rfl, rfl, rfl, rfl, rfl, rfl, rfl⟩

end Sys2Proof.Supply
end

