-- ==== Sys2Proof/Proofs/Endings.lean ====
section
/-! PROOFS. What the endings of work leave as it was: orders that complete, a failed step, a snapshot, a TASKS_RUN, a session
(01 R19, 12 R330, R342, 13 R359, R373). -/

namespace Sys2Proof.Endings

open Sys2Proof.Machine Sys2Proof.Safety Sys2Proof.Laws

/-! ### The frame of an ending -/

/-- `t` comes from `s` by endings of work. The supplies, the pacers, the cores, security, the governor, lodging, the fabric's
settings, the port functions' links and registers, the sessions and Keeper's own state stay; what has been sent and logged
stays sent and logged. -/
structure Winds (s t : State) : Prop where
  frame : t = { s with
    mem := t.mem, rooms := t.rooms, fab := t.fab, outs := t.outs, freeCount := t.freeCount, cap := t.cap, params := t.params
    snap := t.snap, log := t.log
    tests := { s.tests with reqs := t.tests.reqs }
    steps := { t.steps with lastBoundary := s.steps.lastBoundary }
    power := { s.power with alert := t.power.alert }
    ports := { s.ports with apertures := t.ports.apertures, apRaised := t.ports.apRaised }
    porter := { s.porter with
      mailboxes := t.porter.mailboxes, msix := t.porter.msix, irqDue := t.porter.irqDue, outstanding := t.porter.outstanding
      plans := t.porter.plans, unloaded := t.porter.unloaded, journal := t.porter.journal } }
  sent : s.outs <:+ t.outs
  counted : s.log.next ≤ t.log.next
  ahead : tget t.log.ahead 63 0 = tget s.log.ahead 63 0

section
variable {s t u : State}

theorem Winds.refl (s : State) : Winds s s := ⟨rfl, List.suffix_rfl, Nat.le_refl _, rfl⟩

/-- A change inside the frame that sends and logs nothing. -/
theorem Winds.of_porter (x : List Pending) (y : List Journal) (z : List Nat) (s : State) :
    Winds s { s with porter := { s.porter with outstanding := x, journal := y, irqDue := z } } :=
  ⟨rfl, List.suffix_rfl, Nat.le_refl _, rfl⟩

theorem Winds.trans (h : Winds s t) (k : Winds t u) : Winds s u := by
  refine ⟨?_, h.sent.trans k.sent, Nat.le_trans h.counted k.counted, k.ahead.trans h.ahead⟩
  have e := k.frame
  rw [h.frame] at e
  exact e

theorem Winds.forEach {α : Type} {l : List α} {f : α → State → State} (step : ∀ x v, Winds v (f x v)) (s : State) :
    Winds s (forEach l f s) :=
  forEach_keeps (P := Winds s) s (fun x _ v h => h.trans (step x v)) (Winds.refl s)

/-- A change of the rooms and rings alone. -/
theorem Winds.of_rooms (h : Cellar.OnlyRooms s t) : Winds s t := by
  have frame := h
  unfold Cellar.OnlyRooms at frame
  rw [frame]
  exact ⟨rfl, List.suffix_rfl, Nat.le_refl _, rfl⟩

theorem domainRuns_control (pace : t.pace = s.pace) (ahead : tget t.log.ahead 63 0 = tget s.log.ahead 63 0) :
    domainRuns t 63 = domainRuns s 63 := by
  unfold domainRuns pacerRuns eventsStalled paceAt
  rw [pace, ahead]

theorem Winds.pace (h : Winds s t) : t.pace = s.pace := by rw [h.frame]
theorem Winds.sec (h : Winds s t) : t.sec = s.sec := by rw [h.frame]
theorem Winds.cores (h : Winds s t) : t.cores = s.cores := by rw [h.frame]
theorem Winds.channels (h : Winds s t) : t.channels = s.channels := by rw [h.frame]
theorem Winds.gov (h : Winds s t) : t.gov = s.gov := by rw [h.frame]
theorem Winds.dmas (h : Winds s t) : t.ports.dmas = s.ports.dmas := by rw [h.frame]
theorem Winds.drives (h : Winds s t) : t.ports.drives = s.ports.drives := by rw [h.frame]
theorem Winds.regs (h : Winds s t) : t.ports.regs = s.ports.regs := by rw [h.frame]
theorem Winds.hostLink (h : Winds s t) : t.ports.hostLink = s.ports.hostLink := by rw [h.frame]
theorem Winds.storLink (h : Winds s t) : t.ports.storLink = s.ports.storLink := by rw [h.frame]
theorem Winds.storRole (h : Winds s t) : t.ports.storRole = s.ports.storRole := by rw [h.frame]
theorem Winds.ready (h : Winds s t) : t.porter.ready = s.porter.ready := by rw [h.frame]
theorem Winds.porter (h : Winds s t) : t.porter.porter = s.porter.porter := by rw [h.frame]
theorem Winds.keeper (h : Winds s t) : t.porter.keeper = s.porter.keeper := by rw [h.frame]
theorem Winds.sessions (h : Winds s t) : t.porter.sessions = s.porter.sessions := by rw [h.frame]
theorem Winds.power (h : Winds s t) : t.power = { s.power with alert := t.power.alert } := by rw [h.frame]
theorem Winds.domains (h : Winds s t) : t.power.domains = s.power.domains := by rw [h.power]
theorem Winds.lastBoundary (h : Winds s t) : t.steps.lastBoundary = s.steps.lastBoundary := by rw [h.frame]

theorem Winds.keeperAlive (h : Winds s t) : keeperAlive t = keeperAlive s := by
  unfold Machine.keeperAlive
  rw [h.keeper, domainRuns_control h.pace h.ahead]

theorem Winds.porterRuns (h : Winds s t) : porterRuns t = porterRuns s := by
  unfold Machine.porterRuns
  rw [h.porter, domainRuns_control h.pace h.ahead]

theorem Winds.inReg (h : Winds s t) (d : Nat) : inReg t d = inReg s d := by
  unfold Machine.inReg
  rw [h.domains]

/-- What has been sent stays sent. -/
theorem Winds.outs (h : Winds s t) {o : Out} (mem : o ∈ s.outs) : o ∈ t.outs := h.sent.subset mem

/-! ### Events, rooms, answers -/

/-- CONTROL's own event stream counts nothing (02 R32). -/
theorem ahead_raise (code plane die : Nat) (args : List (Nat × Nat)) (s : State) :
    tget (raise code plane die args s).log.ahead 63 0 = tget s.log.ahead 63 0 := by
  unfold raise
  dsimp only
  split
  · next other =>
    have ne : 63 ≠ die := by
      rintro rfl
      simp [dieControl] at other
    rw [tget_tmod, if_neg ne]
  · rfl

theorem raise_winds (code plane die : Nat) (args : List (Nat × Nat)) (s : State) : Winds s (raise code plane die args s) := by
  obtain ⟨-, next, -, frame⟩ := raise_onlyEvent s code plane die args
  refine ⟨?_, ?_, ?_, ahead_raise ..⟩
  · rw [frame]
  · rw [frame]
  · rw [next]
    exact Nat.le_succ _

theorem raiseMgmt_winds (code : Nat) (args : List (Nat × Nat)) (s : State) : Winds s (raiseMgmt code args s) := raise_winds ..
theorem raiseCtrl_winds (code : Nat) (args : List (Nat × Nat)) (s : State) : Winds s (raiseCtrl code args s) := raise_winds ..

theorem emit_winds (o : Out) (s : State) : Winds s (emit o s) := ⟨rfl, List.suffix_cons _ _, Nat.le_refl _, rfl⟩

theorem releaseNow_winds (id : Nat) (s : State) : Winds s (releaseNow id s) := .of_rooms (Cellar.releaseNow_onlyRooms ..)
theorem unpinRoom_winds (id v : Nat) (s : State) : Winds s (unpinRoom id v s) := .of_rooms (Cellar.unpinRoom_onlyRooms ..)

theorem setMb_winds (n : Nat) (f : Mailbox → Mailbox) (s : State) : Winds s (setMb n f s) :=
  ⟨rfl, List.suffix_rfl, Nat.le_refl _, rfl⟩

theorem post_winds (p : Pending) (r : Reply) (s : State) : Winds s (post p r s) := by
  unfold post
  split
  · refine (setMb_winds p.cmd.mailbox.val (withCpl (cplOf p r s)) s).trans ?_
    unfold oweIrq
    split
    · exact .of_porter _ _ _ _
    · exact .refl _
  · exact (setMb_winds ..).trans (emit_winds ..)

theorem complete_winds (p : Pending) {r : Reply} (out : r.out = none) (s : State) : Winds s (complete p r s) := by
  unfold complete
  rw [out]
  exact post_winds ..

theorem finish_winds (sel : Pending → Bool) {r : Reply} (out : r.out = none) (s : State) : Winds s (finish sel r s) := by
  unfold finish
  split
  · exact .refl s
  · next p _ =>
    refine .trans (.of_porter (s.porter.outstanding.filter (fun q => !(q == p))) s.porter.journal s.porter.irqDue s) ?_
    refine .trans ?_ (complete_winds p out _)
    split
    · exact unpinRoom_winds ..
    · exact .refl _

theorem finishAll_winds (n : Nat) (sel : Pending → Bool) {r : Reply} (out : r.out = none) (s : State) :
    Winds s (finishAll n sel r s) := by
  induction n generalizing s with
  | zero => exact .refl s
  | succ n ih =>
    rw [finishAll]
    split
    · exact (finish_winds sel out s).trans (ih _)
    · exact .refl s

/-! ### A failed step -/

theorem abandonGradients_winds (p : Plan) (step : W64) (s : State) : Winds s (abandonGradients p step s) := by
  refine .forEach (fun x v => ?_) s
  dsimp only
  split
  · split
    · exact ⟨rfl, List.suffix_cons _ _, Nat.le_refl _, rfl⟩
    · exact .refl v
  · exact .refl v

theorem mixSlot_winds (r : Room) (s : State) : Winds s (mixSlot r s) := by
  refine .trans (.forEach (fun a v => ?_) s) ⟨rfl, List.suffix_rfl, Nat.le_refl _, rfl⟩
  unfold mixByte
  split
  · exact ⟨rfl, List.suffix_rfl, Nat.le_refl _, rfl⟩
  · exact .refl v

theorem abandonFresh_winds (id : Nat) (s : State) : Winds s (abandonFresh id s) := by
  unfold abandonFresh
  split
  · exact .refl s
  · next r _ =>
    split
    · exact .refl s
    · refine .trans (t := if r.slots == 1 then mixSlot r s else s) ?_
        (.trans ⟨rfl, List.suffix_rfl, Nat.le_refl _, rfl⟩ (.of_rooms (Cellar.settleRelease_onlyRooms ..)))
      split
      · exact mixSlot_winds ..
      · exact .refl s

theorem releasePins_winds (e : Journal) (s : State) : Winds s (releasePins e s) := by
  unfold releasePins
  split
  · exact .refl s
  · exact .trans (.of_porter s.porter.outstanding
      (s.porter.journal.map (fun x => if x == e then { x with pinned := false } else x)) s.porter.irqDue s)
      (.forEach (fun _ _ => unpinRoom_winds ..) _)

/-- A change of Porter's journal, of the open work and of the record that goes with it. -/
theorem Winds.closed (h : Winds s t) {x : List Journal} {y : Steps} {c : Cap} (same : y.lastBoundary = t.steps.lastBoundary) :
    Winds s { t with porter := { t.porter with journal := x }, steps := y, cap := c } :=
  h.trans ⟨by rw [← same], List.suffix_rfl, Nat.le_refl _, rfl⟩

theorem planAbandoned_winds (j : Job) (s : State) : Winds s (Cellar.planAbandoned j s) := by
  unfold Cellar.planAbandoned
  split
  · exact abandonGradients_winds ..
  · exact .refl s

theorem failStep_winds (st detail : Nat) (s : State) : Winds s (failStep st detail s) := by
  unfold failStep
  split
  · exact .refl s
  · next j _ =>
    dsimp only
    have ended {rooms : List Nat} {js : List Journal} {ks : List (Nat × Nat × Nat)} {x : List Journal} {v : State}
        (same : v = forEach ks (fun k s => unpinRoom k.2.1 k.2.2 s)
          (forEach js releasePins (forEach rooms abandonFresh (Cellar.planAbandoned j s)))) (sel : Pending → Bool) :
        Winds s (finish sel { st := st, detail := detail } { v with porter := { v.porter with journal := x } }) := by
      subst same
      refine .trans (.closed ?_ (y := Machine.State.steps _) (c := Machine.State.cap _) rfl) (finish_winds sel rfl _)
      exact (((planAbandoned_winds j s).trans (.forEach abandonFresh_winds _)).trans (.forEach releasePins_winds _)).trans
        (.forEach (fun _ _ => unpinRoom_winds ..) _)
    refine Winds.closed (x := Porter.journal _) ?_ rfl
    split
    · exact (ended rfl _).trans (finish_winds _ rfl _)
    · exact ended rfl _

end

end Sys2Proof.Endings
end

