-- ==== Sys2Proof/Proofs/Sessions.lean ====
section
/-! PROOFS. Snapshots, DMA transfers, TASKS_RUN jobs and sessions that end, and the reset of a port function (12 R330, R335, R342,
13 R359, R508). -/

namespace Sys2Proof.Endings

open Sys2Proof.Machine Sys2Proof.Safety Sys2Proof.Laws

section
variable {s t u : State}

/-! ### Snapshots -/

/-- `t` is `s` but for the snapshot, which is gone, with its rooms, its pins and its place at the boundary. -/
def OnlySnapshot (s t : State) : Prop := t = { s with
  snap := none, rooms := t.rooms, fab := t.fab, steps := { s.steps with actions := t.steps.actions } }

theorem OnlySnapshot.rooms (h : OnlySnapshot s t) (k : Cellar.OnlyRooms t u) : OnlySnapshot s u := by
  unfold Cellar.OnlyRooms at k
  unfold OnlySnapshot
  rw [h] at k
  rw [k]

theorem unpinRooms_onlyRooms (l : List (W16 × W16)) (s : State) :
    Cellar.OnlyRooms s (forEach l (fun rv s => unpinRoom rv.1.toNat rv.2.toNat s) s) :=
  forEach_keeps (P := Cellar.OnlyRooms s) s (fun _ _ _ h => h.trans (Cellar.unpinRoom_onlyRooms ..)) rfl

/-- A boundary at which no snapshot waits any more. -/
theorem OnlySnapshot.atBoundary (h : OnlySnapshot s t) (l : List Boundary) :
    OnlySnapshot s { t with steps := { t.steps with actions := l } } := by
  unfold OnlySnapshot at *
  rw [h]

theorem dropSnapshot_only (s : State) : OnlySnapshot s (dropSnapshot s) := by
  unfold dropSnapshot
  split
  · next none_ =>
    unfold OnlySnapshot
    rw [← none_]
  · next x _ =>
    have gone : OnlySnapshot s { s with snap := none } := rfl
    exact (((gone.rooms (unpinRooms_onlyRooms x.pins _)).atBoundary _).rooms (Cellar.releaseNow_onlyRooms ..)).rooms
      (Cellar.releaseNow_onlyRooms ..)

theorem dropSnapshot_winds (s : State) : Winds s (dropSnapshot s) := by
  rw [dropSnapshot_only s]
  exact ⟨rfl, List.suffix_rfl, Nat.le_refl _, rfl⟩

theorem endSnapshot_winds (cause : Nat) (s : State) : Winds s (endSnapshot cause s) := by
  unfold endSnapshot
  split
  · exact .refl s
  · exact (raiseCtrl_winds ..).trans (dropSnapshot_winds _)

/-- Dropping a snapshot touches no job. -/
theorem endSnapshot_job (cause : Nat) (s : State) : (endSnapshot cause s).steps.job = s.steps.job := by
  unfold endSnapshot
  split
  · rfl
  · rw [dropSnapshot_only]
    rfl

theorem endSnapshot_snap (cause : Nat) (s : State) : (endSnapshot cause s).snap = none := by
  unfold endSnapshot
  split
  · next none_ => exact none_
  · rw [dropSnapshot_only]

/-- A snapshot under way ends with its event, and nothing is logged after it. -/
theorem endSnapshot_logged {x : Snapshot} (cause : Nat) (snap : s.snap = some x) :
    Logged 0x8902 [a8 (snapId x), a2 cause] s (endSnapshot cause s) := by
  unfold Logged endSnapshot
  rw [snap]
  dsimp only
  rw [dropSnapshot_only]
  exact raise_logged ..

/-! ### DMA transfers -/

/-- Every transfer of the function is gone, and only the transfers' own orders end. -/
theorem stopDma_winds (f : PortFn) (s : State) :
    Winds { s with ports := { s.ports with dmas := s.ports.dmas.filter (fun d => d.1 != f) } } (stopDma f s) :=
  finishAll_winds _ _ rfl _

theorem stopDma_answers (f : PortFn) (s : State) :
    Towers.OnlyAnswers { s with ports := { s.ports with dmas := s.ports.dmas.filter (fun d => d.1 != f) } } (stopDma f s) :=
  Towers.finishAll_onlyAnswers _ _ rfl _

theorem stopDma_dmas (f : PortFn) (s : State) : (stopDma f s).ports.dmas = s.ports.dmas.filter (fun d => d.1 != f) :=
  (stopDma_winds f s).dmas

/-! ### TASKS_RUN jobs -/

theorem settleRun_winds (id : Nat) (s : State) : Winds s (settleRun id s) := by
  unfold settleRun
  split
  · exact .refl s
  · next j _ =>
    split
    · exact .refl s
    · dsimp only
      refine Winds.closed (c := Machine.State.cap _) ?_ rfl
      refine .trans (.trans (.trans (finish_winds (fun p => p.wait == Wait.tasks id) ?_ s)
        (.forEach (fun _ _ => unpinRoom_winds ..) _)) (.forEach releasePins_winds _)) (.forEach (fun o v => ?_) _)
      · split <;> rfl
      · split
        · split
          · exact abandonFresh_winds ..
          · exact .refl v
        · exact .refl v

theorem stopRuns_winds (replays : Bool) (s : State) : Winds s (stopRuns replays s) := by
  unfold stopRuns
  dsimp only
  refine .trans ?_ (.forEach settleRun_winds _)
  exact ⟨rfl, List.suffix_rfl, Nat.le_refl _, rfl⟩

/-! ### The parts of a session's end -/

theorem dropCommands_winds (id : W16) (s : State) : Winds s (dropCommands id s) := by
  unfold dropCommands
  refine .trans (.of_porter (s.porter.outstanding.filter (fun p => p.session != id)) s.porter.journal s.porter.irqDue s)
    (.forEach (fun p v => ?_) _)
  split
  · exact unpinRoom_winds ..
  · exact .refl v

theorem endRing_onlyRooms (k : Nat) (s : State) : Cellar.OnlyRooms s (endRing k s) := by
  unfold endRing
  split
  · rfl
  · dsimp only
    split
    · rfl
    · exact .trans (t := { s with fab := { s.fab with rings := tdel s.fab.rings k } }) rfl (Cellar.unpinRoom_onlyRooms ..)

theorem removeUses_winds (id : Nat) (s : State) : Winds s (removeUses id s) := by
  unfold removeUses
  refine .trans ?_ (.forEach (fun _ _ => .of_rooms (endRing_onlyRooms ..)) _)
  exact ⟨rfl, List.suffix_rfl, Nat.le_refl _, rfl⟩

theorem dropPlan_winds (h : Nat) (s : State) : Winds s (dropPlan h s) := by
  unfold dropPlan
  split <;> exact ⟨rfl, List.suffix_rfl, Nat.le_refl _, rfl⟩

/-- A change of the capability record and of the tests requested. -/
theorem Winds.of_cap (c : Cap) (rs : List TestReq) (s : State) :
    Winds s { s with cap := c, tests := { s.tests with reqs := rs } } := ⟨rfl, List.suffix_rfl, Nat.le_refl _, rfl⟩

theorem capBump_winds (s : State) : Winds s (capBump s) := by
  unfold capBump
  split
  · exact .refl s
  · exact .of_cap _ s.tests.reqs s

theorem leaveForerunner_winds (s : State) : Winds s (leaveForerunner s) := by
  refine .forEach (fun t v => ?_) s
  split
  · exact .refl v
  · split
    · exact .of_cap _ v.tests.reqs v
    · exact (Winds.of_cap { v.cap with frTowers := v.cap.frTowers &&& ~~~BitVec.ofNat 4 (2 ^ t) } v.tests.reqs v).trans
        (capBump_winds _)

theorem cancelTowerTests_winds (s : State) : Winds s (cancelTowerTests s) := .of_cap s.cap _ s

theorem settleMb_winds (n : Nat) (s : State) : Winds s (settleMb n s) := by
  unfold settleMb
  dsimp only
  split
  · exact setMb_winds ..
  · exact .refl s

end

/-! ### The end of a session -/

/-- The owner's open step fails. -/
def stepFailed (q : Session) (s : State) : State := if q.owner then failStep stDeviceFault 0 s else s

theorem stepFailed_winds (q : Session) (s : State) : Winds s (stepFailed q s) := by
  unfold stepFailed
  split
  · exact failStep_winds ..
  · exact .refl s

/-- The DMA transfers that use a room of the session stop. -/
def dropTransfers (id : W16) (s : State) : State :=
  { s with ports := { s.ports with
    dmas := s.ports.dmas.filter (fun d => !(((roomAt s d.2.room.toNat).map (fun m => m.owner == id)).getD false)) } }

/-- Every room of the session is released, and with it what uses the room. -/
def releaseRooms (id : W16) (s : State) : State :=
  forEach ((s.rooms.filter (fun r => r.2.owner == id)).map (·.1)) (fun r s => releaseNow r (removeUses r s)) s

theorem releaseRooms_winds (id : W16) (s : State) : Winds s (releaseRooms id s) :=
  .forEach (fun _ _ => (removeUses_winds ..).trans (releaseNow_winds ..)) s

/-- What the owner alone holds ends: plans, TASKS_RUNs, forerunner mode and whole-tower tests. -/
def ownerWorkEnded (s : State) : State :=
  cancelTowerTests (leaveForerunner (stopRuns true (forEach (s.porter.plans.map (·.1)) dropPlan s)))

theorem ownerWorkEnded_winds (s : State) : Winds s (ownerWorkEnded s) :=
  ((Winds.forEach dropPlan_winds s).trans (stopRuns_winds true _)).trans
    ((leaveForerunner_winds _).trans (cancelTowerTests_winds _))

/-- The same, where the session is the owner's, with the layouts of the reductions. -/
def ownerEnded (q : Session) (s : State) : State :=
  if q.owner then
    let s := ownerWorkEnded s
    { s with cap := { s.cap with entering := 0 }, red := { s.red with layouts := [] } }
  else s

/-- The session is no longer in use. -/
def sessionGone (id : W16) (q : Session) (s : State) : State :=
  let s := { s with porter := { s.porter with sessions := tdel s.porter.sessions id.toNat } }
  if q.owner then capBump s else s

/-- Its mailboxes unbind once their completions are consumed. -/
def mailboxesEnd (id : W16) (keep : Option Nat) (s : State) : State :=
  forEach ((List.range 64).filter (fun n => (mbAt s n).session == id)) (fun n s =>
    let s := setMb n (fun m => { m with ending := true }) s
    if keep == some n then s else settleMb n s) s

theorem mailboxesEnd_winds (id : W16) (keep : Option Nat) (s : State) : Winds s (mailboxesEnd id keep s) := by
  refine .forEach (fun n v => (setMb_winds n (fun m => { m with ending := true }) v).trans ?_) s
  dsimp only
  split
  · exact .refl _
  · exact settleMb_winds ..

/-- A session's end, part by part. -/
theorem endSession_eq {s : State} {id : W16} {q : Session} (keep : Option Nat) (found : tfind? s.porter.sessions id.toNat = some q) :
    endSession id keep s = mailboxesEnd id keep (sessionGone id q (ownerEnded q (releaseRooms id (dropTransfers id
      (dropCommands id (stepFailed q s)))))) := by
  unfold endSession
  rw [found]
  rfl

/-- The frame of a session's end: beside what endings leave as it was, the session itself, some DMA transfers and the layouts go. -/
structure Leaves (s t : State) : Prop where
  winds : Winds { s with
    ports := { s.ports with dmas := t.ports.dmas }, porter := { s.porter with sessions := t.porter.sessions }, red := t.red } t
  dmas : ∀ d ∈ t.ports.dmas, d ∈ s.ports.dmas

section
variable {s t u : State}

theorem Winds.leaves (h : Winds s t) : Leaves s t := by
  have ports := h.dmas
  have porter := h.sessions
  have red : t.red = s.red := by rw [h.frame]
  refine ⟨?_, fun d mem => ports ▸ mem⟩
  rw [ports, porter, red]
  exact h

theorem Leaves.trans (h : Leaves s t) (k : Leaves t u) : Leaves s u := by
  refine ⟨⟨?_, h.winds.sent.trans k.winds.sent, Nat.le_trans h.winds.counted k.winds.counted,
    k.winds.ahead.trans h.winds.ahead⟩, fun d mem => h.dmas d (k.dmas d mem)⟩
  have e := k.winds.frame
  rw [h.winds.frame] at e
  exact e

theorem Leaves.refl (s : State) : Leaves s s := (Winds.refl s).leaves

theorem Leaves.domains (h : Leaves s t) : t.power.domains = s.power.domains := h.winds.domains
theorem Leaves.perst (h : Leaves s t) : t.power.perst = s.power.perst := by rw [h.winds.power]
theorem Leaves.regs (h : Leaves s t) : t.ports.regs = s.ports.regs := h.winds.regs
theorem Leaves.hostLink (h : Leaves s t) : t.ports.hostLink = s.ports.hostLink := h.winds.hostLink
theorem Leaves.storLink (h : Leaves s t) : t.ports.storLink = s.ports.storLink := h.winds.storLink
theorem Leaves.lastBoundary (h : Leaves s t) : t.steps.lastBoundary = s.steps.lastBoundary := h.winds.lastBoundary

theorem dropTransfers_leaves (id : W16) (s : State) : Leaves s (dropTransfers id s) :=
  ⟨.refl _, fun _ mem => List.mem_of_mem_filter mem⟩

theorem ownerEnded_leaves (q : Session) (s : State) : Leaves s (ownerEnded q s) := by
  unfold ownerEnded
  split
  · refine .trans (ownerWorkEnded_winds s).leaves ?_
    exact ⟨⟨rfl, List.suffix_rfl, Nat.le_refl _, rfl⟩, fun _ mem => mem⟩
  · exact .refl s

theorem ownerEnded_sessions (q : Session) (s : State) : (ownerEnded q s).porter.sessions = s.porter.sessions := by
  unfold ownerEnded
  split
  · exact (ownerWorkEnded_winds s).sessions
  · rfl

theorem sessionGone_leaves (id : W16) (q : Session) (s : State) : Leaves s (sessionGone id q s) := by
  refine .trans (t := { s with porter := { s.porter with sessions := tdel s.porter.sessions id.toNat } })
    ⟨.refl _, fun _ mem => mem⟩ ?_
  unfold sessionGone
  dsimp only
  split
  · exact (capBump_winds _).leaves
  · exact .refl _

theorem sessionGone_sessions (id : W16) (q : Session) (s : State) :
    (sessionGone id q s).porter.sessions = tdel s.porter.sessions id.toNat := by
  unfold sessionGone
  dsimp only
  split
  · exact (capBump_winds _).sessions
  · rfl

theorem endSession_leaves (id : W16) (keep : Option Nat) (s : State) : Leaves s (endSession id keep s) := by
  cases found : tfind? s.porter.sessions id.toNat with
  | none =>
    unfold endSession
    rw [found]
    exact .refl s
  | some q =>
    rw [endSession_eq keep found]
    exact ((((((stepFailed_winds q s).trans (dropCommands_winds id _)).leaves.trans (dropTransfers_leaves id _)).trans
      (releaseRooms_winds id _).leaves).trans (ownerEnded_leaves q _)).trans (sessionGone_leaves id q _)).trans
      (mailboxesEnd_winds id keep _).leaves

/-- A number that no entry has is deleted already. -/
theorem tdel_of_none {α : Type} {m : Table α} {k : Nat} (none_ : tfind? m k = none) : tdel m k = m := by
  induction m with
  | nil => rfl
  | cons p m ih =>
    obtain ⟨i, a⟩ := p
    by_cases same : i = k
    · simp [tfind?, same] at none_
    · have other : (i == k) = false := by simp [same]
      simp only [tfind?, other] at none_
      have ih := ih (by simpa using none_)
      unfold tdel at ih ⊢
      simp [same, ih]

/-- After its end the session is in use no more, and every other as before. -/
theorem endSession_sessions (id : W16) (keep : Option Nat) (s : State) :
    (endSession id keep s).porter.sessions = tdel s.porter.sessions id.toNat := by
  cases found : tfind? s.porter.sessions id.toNat with
  | none =>
    rw [tdel_of_none found]
    unfold endSession
    rw [found]
  | some q =>
    rw [endSession_eq keep found, (mailboxesEnd_winds id keep _).sessions, sessionGone_sessions, ownerEnded_sessions,
      (releaseRooms_winds id _).sessions]
    exact congrArg (fun m => tdel m id.toNat) ((stepFailed_winds q s).trans (dropCommands_winds id _)).sessions

end

/-! ### The reset of a port function -/

/-- The sessions that were opened through the function end, one after the other. -/
def sessionsEnd (ids : List W16) (s : State) : State := forEach ids (fun id s => endSession id none s) s

theorem sessionsEnd_leaves (ids : List W16) (s : State) : Leaves s (sessionsEnd ids s) :=
  forEach_keeps (P := Leaves s) s (fun id _ v h => h.trans (endSession_leaves id none v)) (Leaves.refl s)

/-- An entry stays where it is none of the numbers that end. -/
theorem mem_sessionsEnd {ids : List W16} {s : State} {x : Nat × Session} :
    x ∈ (sessionsEnd ids s).porter.sessions ↔ x ∈ s.porter.sessions ∧ ∀ id ∈ ids, x.1 ≠ id.toNat := by
  induction ids generalizing s with
  | nil => simp [sessionsEnd]
  | cons id ids ih =>
    have first : x ∈ (endSession id none s).porter.sessions ↔ x ∈ s.porter.sessions ∧ x.1 ≠ id.toNat := by
      rw [endSession_sessions]
      simp [tdel]
    show x ∈ (sessionsEnd ids (endSession id none s)).porter.sessions ↔ _
    rw [ih, first]
    simp [and_assoc]

/-- A snapshot that the function ships ends. -/
def shippedSnapshotEnds (f : PortFn) (s : State) : State :=
  match s.snap with
  | some x => if snapDest x == 1 && snapPort x == f then endSnapshot (Config.snapCause 0) s else s
  | none => s

theorem shippedSnapshotEnds_winds (f : PortFn) (s : State) : Winds s (shippedSnapshotEnds f s) := by
  unfold shippedSnapshotEnds
  split
  · split
    · exact endSnapshot_winds ..
    · exact .refl s
  · exact .refl s

/-- The number of a function's registers (12 R330). -/
def regsOf (f : PortFn) : Nat := match f with | .host => 0 | .stor => 1

/-- A function's reset up to its registers. -/
def resetWork (f : PortFn) (s : State) : State := shippedSnapshotEnds f (stopDma f (sessionsEnd (sessionsThrough s f) s))

theorem resetFunction_eq (f : PortFn) (s : State) : resetFunction f s =
    { resetWork f s with ports := { (resetWork f s).ports with
      regs := (resetWork f s).ports.regs.filter (fun r => r.1 / 2 ^ 32 != regsOf f) } } := rfl

theorem resetWork_leaves (f : PortFn) (s : State) : Leaves s (resetWork f s) := by
  refine ((sessionsEnd_leaves (sessionsThrough s f) s).trans ?_).trans (shippedSnapshotEnds_winds f _).leaves
  refine .trans (t := { sessionsEnd (sessionsThrough s f) s with ports := { (sessionsEnd (sessionsThrough s f) s).ports with
    dmas := (sessionsEnd (sessionsThrough s f) s).ports.dmas.filter (fun d => d.1 != f) } }) ?_ (stopDma_winds f _).leaves
  exact ⟨.refl _, fun _ mem => List.mem_of_mem_filter mem⟩

/-- The sessions and the transfers after a function's reset. -/
theorem mem_sessions_resetFunction {f : PortFn} {s : State} {x : Nat × Session} :
    x ∈ (resetFunction f s).porter.sessions ↔ x ∈ s.porter.sessions ∧ ∀ id ∈ sessionsThrough s f, x.1 ≠ id.toNat := by
  rw [← mem_sessionsEnd]
  show x ∈ (shippedSnapshotEnds f (stopDma f (sessionsEnd (sessionsThrough s f) s))).porter.sessions ↔ _
  rw [(shippedSnapshotEnds_winds f _).sessions, (stopDma_winds f _).sessions]

theorem dmas_resetFunction {f : PortFn} {s : State} : ∀ d ∈ (resetFunction f s).ports.dmas, d.1 ≠ f := by
  intro d mem
  have same : (resetFunction f s).ports.dmas = (sessionsEnd (sessionsThrough s f) s).ports.dmas.filter (fun d => d.1 != f) := by
    show (shippedSnapshotEnds f (stopDma f (sessionsEnd (sessionsThrough s f) s))).ports.dmas = _
    rw [(shippedSnapshotEnds_winds f _).dmas, stopDma_dmas]
  rw [same, List.mem_filter] at mem
  simpa using mem.2

/-- A session opened through the function is in use no more. -/
theorem fn_ne_of_mem_resetFunction {f : PortFn} {s : State} {x : Nat × Session} (mem : x ∈ (resetFunction f s).porter.sessions)
    (lt : x.1 < 65536) : x.2.fn ≠ f := by
  obtain ⟨mem, kept⟩ := mem_sessions_resetFunction.mp mem
  intro same
  have through : BitVec.ofNat 16 x.1 ∈ sessionsThrough s f :=
    List.mem_map.mpr ⟨x, List.mem_filter.mpr ⟨mem, by simp [same]⟩, rfl⟩
  exact kept _ through (by rw [BitVec.toNat_ofNat, Nat.mod_eq_of_lt lt])

end Sys2Proof.Endings
end

