-- ==== Sys2Proof/Proofs/PowerDown.lean ====
section
/-! PROOFS. Supplies that are switched off, the resets of the port functions (O18), and the power pins with the orderly
power-down (O17). -/

namespace Sys2Proof.Endings

open Sys2Proof.Machine Sys2Proof.Safety Sys2Proof.Laws

/-! ### Folds that reach every element, and events logged since an earlier state -/

/-- What each element's function brings about, and every other's keeps, the fold brings about for each element. -/
theorem forEach_reaches {α : Type} {P : α → State → Prop} {f : α → State → State} (does : ∀ a u, P a (f a u))
    (keeps : ∀ a b u, P a u → P a (f b u)) (l : List α) (s : State) : ∀ a ∈ l, P a (forEach l f s) := by
  induction l generalizing s with
  | nil => exact fun _ mem => nomatch mem
  | cons b l ih =>
    intro a mem
    rcases List.mem_cons.mp mem with rfl | mem
    · exact forEach_keeps (P := P a) (f a s) (fun b _ u => keeps a b u) (does a s)
    · exact ih (f b s) a mem

section
variable {s t u : State} {code : Nat} {args : List (Nat × Nat)}

/-- An event logged since a later state has been logged since an earlier one. -/
theorem logged_since (le : s.log.next ≤ u.log.next) (h : Logged code args u t) : Logged code args s t := by
  obtain ⟨e, mem, since, rest⟩ := h
  exact ⟨e, mem, Nat.le_trans le since, rest⟩

theorem logged_of_log (same : u.log = t.log) (h : Logged code args s t) : Logged code args s u := by
  unfold Logged at *
  rwa [same]

end

/-! ### The resets of the port functions -/

/-- What the reset of a function leaves of everything but the function. -/
structure Resets (f : PortFn) (s t : State) : Prop where
  hostLink : t.ports.hostLink = s.ports.hostLink
  storLink : t.ports.storLink = s.ports.storLink
  perst : t.power.perst = s.power.perst
  domains : t.power.domains = s.power.domains
  lastBoundary : t.steps.lastBoundary = s.steps.lastBoundary
  dmas : ∀ d ∈ t.ports.dmas, d.1 ≠ f
  ended : ∀ x ∈ t.porter.sessions, x.1 < 65536 → x.2.fn ≠ f
  regs : ∀ r, r ∈ t.ports.regs ↔ r ∈ s.ports.regs ∧ r.1 / 2 ^ 32 ≠ regsOf f

theorem resetFunction_resets (f : PortFn) (s : State) : Resets f s (resetFunction f s) := by
  have leaves := resetWork_leaves f s
  refine ⟨leaves.hostLink, leaves.storLink, leaves.perst, leaves.domains, leaves.lastBoundary, dmas_resetFunction,
    fun x mem lt => fn_ne_of_mem_resetFunction mem lt, fun r => ?_⟩
  rw [resetFunction_eq]
  simp [leaves.regs]

/-- With sessions under different numbers, those opened through the other function continue. -/
theorem mem_resetFunction {f : PortFn} {s : State} (apart : s.porter.sessions.Pairwise (fun a b => a.1 ≠ b.1))
    (small : ∀ x ∈ s.porter.sessions, x.1 < 65536) (x : Nat × Session) :
    x ∈ (resetFunction f s).porter.sessions ↔ x ∈ s.porter.sessions ∧ x.2.fn ≠ f := by
  constructor
  · intro mem
    have was := (mem_sessions_resetFunction.mp mem).1
    exact ⟨was, fn_ne_of_mem_resetFunction mem (small x was)⟩
  · rintro ⟨mem, other⟩
    refine mem_sessions_resetFunction.mpr ⟨mem, fun id through same => ?_⟩
    obtain ⟨y, my, rfl⟩ := List.mem_map.mp through
    obtain ⟨my, fn⟩ := List.mem_filter.mp my
    rw [BitVec.toNat_ofNat, Nat.mod_eq_of_lt (small y my)] at same
    have eq : x = y := by
      by_contra ne
      have sym : Std.Symm (fun a b : Nat × Session => a.1 ≠ b.1) := ⟨fun _ _ h => h.symm⟩
      exact apart.forall mem my ne same
    exact other (by rw [eq]; simpa using fn)

theorem fn_ne_host (f : PortFn) : f ≠ .host ↔ f = .stor := by cases f <;> decide
theorem fn_ne_stor (f : PortFn) : f ≠ .stor ↔ f = .host := by cases f <;> decide

/-- PERST_N of the powered HOST port: the pin, the link, and the function's reset. -/
theorem perstNAssert_powered {s : State} (on : inReg s 24 = true) : perstNAssert s =
    resetFunction .host { s with power := { s.power with perst := true }, ports := { s.ports with hostLink := 0 } } :=
  if_pos on

/-- A hot reset of STOR as an endpoint: the link, and the function's reset. -/
theorem storHotReset_endpoint {s : State} (on : inReg s 25 = true) (role : s.ports.storRole = 2) : storHotReset s =
    resetFunction .stor { s with ports := { s.ports with storLink := 0 } } :=
  if_pos (by rw [role]; exact (Bool.and_true _).trans on)

theorem functionLevelReset_stor {s : State} (on : inReg s 25 = true) (role : s.ports.storRole = 2) :
    functionLevelReset .stor s = resetFunction .stor s := if_pos (by rw [role]; exact (Bool.and_true _).trans on)

/-- STOR is not presented: unpowered, or not an endpoint. -/
theorem stor_absent {s : State} (absent : inReg s 25 = false ∨ s.ports.storRole ≠ 2) :
    functionLevelReset .stor s = s ∧ storHotReset s = s := by
  have no : ¬ (inReg s sdPs && s.ports.storRole == 2) = true := by
    rw [Bool.and_eq_true, beq_iff_eq]
    rintro ⟨on, endpoint⟩
    rcases absent with off | role
    · exact Bool.false_ne_true (off.symm.trans on)
    · exact role endpoint
  exact ⟨if_neg no, if_neg no⟩

/-- Settles O18: the reset of a function ends its sessions and transfers and clears its registers, and keeps the rest. -/
theorem portFunctionResets : Obligations.PortFunctionResets := by
  unfold Obligations.PortFunctionResets
  intro s apart small
  have host (u : State) (same : u.porter.sessions = s.porter.sessions) (x : Nat × Session) :
      x ∈ (resetFunction .host u).porter.sessions ↔ x ∈ s.porter.sessions ∧ x.2.fn = .stor := by
    rw [mem_resetFunction (same ▸ apart) (same ▸ small), fn_ne_host, same]
  have stor (u : State) (same : u.porter.sessions = s.porter.sessions) (x : Nat × Session) :
      x ∈ (resetFunction .stor u).porter.sessions ↔ x ∈ s.porter.sessions ∧ x.2.fn = .host := by
    rw [mem_resetFunction (same ▸ apart) (same ▸ small), fn_ne_stor, same]
  refine ⟨fun on => ⟨_, rfl, ?_⟩, fun off => ⟨_, rfl, if_neg (Bool.eq_false_iff.mp off)⟩, ⟨_, rfl, rfl⟩, fun on => ⟨_, rfl, ?_⟩,
    fun off => ⟨_, rfl, if_neg (Bool.eq_false_iff.mp off)⟩, fun on role => ⟨_, rfl, ?_⟩, fun on role => ⟨_, rfl, ?_⟩,
    fun absent => ⟨⟨_, rfl, (stor_absent absent).1⟩, ⟨_, rfl, (stor_absent absent).2⟩⟩⟩
  · rw [perstNAssert_powered on]
    have r := resetFunction_resets .host
      { s with power := { s.power with perst := true }, ports := { s.ports with hostLink := 0 } }
    exact ⟨r.perst, r.hostLink, r.storLink, host _ rfl, fun d mem => (fn_ne_host _).mp (r.dmas d mem), r.regs, r.domains,
      r.lastBoundary⟩
  · rw [show functionLevelReset .host s = resetFunction .host s from if_pos on]
    have r := resetFunction_resets .host s
    exact ⟨r.hostLink, r.storLink, host _ rfl, fun d mem => (fn_ne_host _).mp (r.dmas d mem), r.regs, r.domains, r.lastBoundary⟩
  · rw [functionLevelReset_stor on role]
    have r := resetFunction_resets .stor s
    exact ⟨r.storLink, r.hostLink, stor _ rfl, fun d mem => (fn_ne_stor _).mp (r.dmas d mem), r.regs, r.domains, r.lastBoundary⟩
  · rw [storHotReset_endpoint on role]
    have r := resetFunction_resets .stor { s with ports := { s.ports with storLink := 0 } }
    exact ⟨r.storLink, r.hostLink, stor _ rfl, fun d mem => (fn_ne_stor _).mp (r.dmas d mem), r.regs, r.domains, r.lastBoundary⟩

/-! ### Supplies that are switched off -/

/-- The bytes of an address that a filter of the addresses keeps, and 0 elsewhere. -/
theorem cellsGet_filter (p : Nat → Bool) (m : List Host.Cell) (a : Nat) :
    cellsGet (m.filter (fun c => p c.1)) a = if p a then cellsGet m a else 0 := by
  induction m with
  | nil => simp [cellsGet]
  | cons c m ih =>
    obtain ⟨i, b⟩ := c
    by_cases same : i = a
    · subst same
      cases keep : p i with
      | true => simp [keep, cellsGet]
      | false => simpa [keep] using ih
    · have other : (i == a) = false := by simp [same]
      cases keep : p i with
      | true => simpa [keep, cellsGet, other] using ih
      | false => simpa [keep, cellsGet, other] using ih

/-- The ponds of tower `t` read 0. -/
def PondZero (t : Nat) (s : State) : Prop := ∀ a, regionOf a = .pond → sliceOf a / 48 = t → cellsGet s.mem.cells a = 0

theorem pondLost_zero (t : Nat) (s : State) : PondZero t (pondLost t s) := by
  intro a pond tower
  refine (cellsGet_filter (fun a => !(regionOf a == .pond && sliceOf a / 48 == t)) s.mem.cells a).trans (if_neg ?_)
  simp [pond, tower]

/-- Losing ponds writes no other byte than 0. -/
theorem PondZero.pondLost {t k : Nat} {s : State} (h : PondZero t s) : PondZero t (pondLost k s) := by
  intro a pond tower
  refine (cellsGet_filter (fun a => !(regionOf a == .pond && sliceOf a / 48 == k)) s.mem.cells a).trans ?_
  rw [h a pond tower, ite_self]

theorem PondZero.of_mem {t : Nat} {s u : State} (h : PondZero t s) (same : u.mem = s.mem) : PondZero t u := by
  unfold PondZero at *
  rwa [same]

/-- Every address of the ponds lies above a tower. -/
theorem tower_of_pond {a : Nat} (pond : regionOf a = .pond) : sliceOf a / 48 < 8 := by
  have bounds : 0x90000000000 ≤ a ∧ a < 0x90300000000 := by
    unfold regionOf at pond
    split at pond <;> simp_all
    split at pond <;> simp_all
    split at pond <;> simp_all
    split at pond <;> simp_all
    split at pond <;> simp_all
  unfold sliceOf
  omega

theorem supplyAt_switchOff (k d : Nat) (s : State) : supplyAt (switchOff k s) d = if d = k then .off else supplyAt s d := by
  unfold supplyAt
  rw [(Towers.switchOff_onlySupplies k s).2, tget_tset]

theorem switchOff_mem (k : Nat) (s : State) : (switchOff k s).mem = s.mem :=
  forEach_same (g := fun u => u.mem) (setSupply k .off s) (fun _ _ _ => rfl)

theorem logicOff_supplies (t : Nat) (s : State) : Towers.OnlySupplies s (logicOff t s) ∧ (logicOff t s).mem = s.mem ∧
    (logicOff t s).power.domains = tset s.power.domains t .off := by
  have off (u : State) (h : Towers.OnlySupplies s u ∧ u.mem = s.mem ∧ u.power.domains = s.power.domains) :
      Towers.OnlySupplies s (setSupply t .off u) ∧ (setSupply t .off u).mem = s.mem ∧
      (setSupply t .off u).power.domains = tset s.power.domains t .off := by
    obtain ⟨only, mem, domains⟩ := h
    exact ⟨only.trans rfl, mem, congrArg (fun m => tset m t Supply.off) domains⟩
  let same (u : State) : Prop := Towers.OnlySupplies s u ∧ u.mem = s.mem ∧ u.power.domains = s.power.domains
  unfold logicOff
  refine off _ (forEach_keeps (P := same) _ (fun _ _ _ h => ⟨h.1.trans rfl, h.2⟩)
    (forEach_keeps (P := same) s (fun c _ u h => ?_) ⟨rfl, rfl, rfl⟩))
  split
  · exact ⟨h.1.trans rfl, h.2⟩
  · exact h

theorem towerLogicOff_supplies (t : Nat) (s : State) : Towers.OnlySupplies s (towerLogicOff t s) ∧
    (towerLogicOff t s).mem = s.mem ∧ ∀ d, supplyAt (towerLogicOff t s) d = if d = t then .off else supplyAt s d := by
  obtain ⟨only, mem, domains⟩ := logicOff_supplies t s
  refine ⟨only.trans (Towers.switchOff_onlySupplies t _).1, (switchOff_mem t _).trans mem, fun d => ?_⟩
  unfold towerLogicOff
  rw [supplyAt_switchOff]
  unfold supplyAt
  rw [domains, tget_tset]
  split <;> rfl

theorem pondOff_supplies (t : Nat) (s : State) : Towers.OnlySupplies s (pondOff t s) ∧ PondZero t (pondOff t s) ∧
    ∀ d, supplyAt (pondOff t s) d = if d = 8 + t then .off else supplyAt s d := by
  have lost : Towers.OnlySupplies s (pondLost t s) := rfl
  exact ⟨lost.trans (Towers.switchOff_onlySupplies _ _).1, (pondLost_zero t s).of_mem (switchOff_mem _ _),
    fun d => supplyAt_switchOff ..⟩

/-- A supply that is off stays off while others are switched off. -/
theorem off_of_ite {d k : Nat} {v w : Supply} (eq : w = if d = k then .off else v) (off : v = .off) : w = .off := by
  rw [eq, off, ite_self]

/-! ### The first stage of a power-down -/

/-- Every tower is off, and then every pond. -/
def towersDown (s : State) : State := forEach (List.range 8) pondOff (forEach (List.range 8) towerLogicOff s)

theorem towersDown_does (s : State) : Towers.OnlySupplies s (towersDown s) ∧ (∀ d, d < 16 → supplyAt (towersDown s) d = .off) ∧
    ∀ a, regionOf a = .pond → cellsGet (towersDown s).mem.cells a = 0 := by
  have off {d t : Nat} {u : State} (h : supplyAt u d = .off) : supplyAt (pondOff t u) d = .off :=
    off_of_ite ((pondOff_supplies t u).2.2 d) h
  refine ⟨?_, fun d lt => ?_, fun a pond => ?_⟩
  · exact forEach_keeps (P := Towers.OnlySupplies s) _ (fun t _ u h => h.trans (pondOff_supplies t u).1)
      (forEach_keeps (P := Towers.OnlySupplies s) s (fun t _ u h => h.trans (towerLogicOff_supplies t u).1) rfl)
  · by_cases logic : d < 8
    · refine forEach_keeps (P := fun u => supplyAt u d = .off) _ (fun _ _ _ => off)
        (forEach_reaches (P := fun d u => supplyAt u d = .off) (fun d u => ?_) (fun d t u h => ?_) _ s d (List.mem_range.mpr logic))
      · exact ((towerLogicOff_supplies d u).2.2 d).trans (if_pos rfl)
      · exact off_of_ite ((towerLogicOff_supplies t u).2.2 d) h
    · have pond := forEach_reaches (P := fun t u => supplyAt u (8 + t) = .off)
        (fun t u => ((pondOff_supplies t u).2.2 (8 + t)).trans (if_pos rfl)) (fun _ _ _ => off) (List.range 8)
        (forEach (List.range 8) towerLogicOff s) (d - 8) (List.mem_range.mpr (by omega))
      rwa [show 8 + (d - 8) = d by omega] at pond
  · exact forEach_reaches (P := PondZero) (fun t u => (pondOff_supplies t u).2.1)
      (fun t k u h => h.pondLost.of_mem (switchOff_mem _ _)) (List.range 8) _ _ (List.mem_range.mpr (tower_of_pond pond)) a pond rfl

/-! ### The second stage: the base domains -/

def baseDown (s : State) : State := forEach [20, 21, 22, 23, 24, 25, 19, 17, 18, 16] switchOff s

theorem baseDown_does (s : State) : Towers.OnlySupplies s (baseDown s) ∧ (baseDown s).cores = s.cores ∧
    ∀ d, 16 ≤ d → d < 26 → supplyAt (baseDown s) d = .off := by
  refine ⟨forEach_keeps (P := Towers.OnlySupplies s) s (fun k _ u h => h.trans (Towers.switchOff_onlySupplies k u).1) rfl,
    forEach_same (g := fun u => u.cores) s (fun k _ u => forEach_same (g := fun v => v.cores) (setSupply k .off u) (fun _ _ _ => rfl)),
    fun d ge lt => forEach_reaches (P := fun d u => supplyAt u d = .off) (fun d u => ?_) (fun d k u h => ?_) _ s d ?_⟩
  · exact (supplyAt_switchOff d d u).trans (if_pos rfl)
  · exact off_of_ite (supplyAt_switchOff k d u) h
  · interval_cases d <;> decide

/-! ### The beginning of a power-down -/

/-- Work ends: the open step, a snapshot, every transfer. -/
def workEnded (s : State) : State :=
  stopDma .stor (stopDma .host (endSnapshot (Config.snapCause 2) (failStep stDeviceFault 0
    { s with porter := { s.porter with ready := false } })))

theorem workEnded_leaves (s : State) :
    Leaves { s with porter := { s.porter with ready := false } } (workEnded s) := by
  have stops (f : PortFn) (u : State) : Leaves u (stopDma f u) :=
    .trans ⟨.refl { u with ports := { u.ports with dmas := u.ports.dmas.filter (fun d => d.1 != f) } },
      fun _ mem => List.mem_of_mem_filter mem⟩ (stopDma_winds f u).leaves
  exact ((((failStep_winds ..).trans (endSnapshot_winds ..)).leaves).trans (stops .host _)).trans (stops .stor _)

theorem workEnded_ends (s : State) : (workEnded s).steps.job = none ∧ (workEnded s).snap = none ∧
    (workEnded s).ports.dmas = [] := by
  have stops (f : PortFn) (u : State) : (stopDma f u).steps.job = u.steps.job ∧ (stopDma f u).snap = u.snap := by
    rw [stopDma_answers]
    exact ⟨rfl, rfl⟩
  refine ⟨?_, ?_, ?_⟩
  · rw [workEnded, (stops _ _).1, (stops _ _).1, endSnapshot_job]
    exact Cellar.failStep_job ..
  · rw [workEnded, (stops _ _).2, (stops _ _).2]
    exact endSnapshot_snap ..
  · rw [workEnded, stopDma_dmas, stopDma_dmas, List.filter_filter]
    refine List.filter_eq_nil_iff.mpr (fun d _ => ?_)
    cases d.1 <;> decide

/-- Every drive in use is told to flush. -/
def flushAll (l : List Nat) (s : State) : State :=
  forEach l (fun d s => setDrive d (fun x => { x with busy := true, reissued := false }) (emit (.driveCmd d "Flush" 0) s)) s

theorem flushAll_frame (l : List Nat) (s : State) : flushAll l s =
    { s with ports := { s.ports with drives := (flushAll l s).ports.drives }, outs := (flushAll l s).outs } :=
  forEach_keeps (P := fun u => u = { s with ports := { s.ports with drives := u.ports.drives }, outs := u.outs }) s
    (fun d _ u h => by
      conv_lhs => rw [h]
      rfl) rfl

theorem flushAll_sent (l : List Nat) (s : State) : ∀ d ∈ l, .driveCmd d "Flush" 0 ∈ (flushAll l s).outs :=
  forEach_reaches (P := fun d u => .driveCmd d "Flush" 0 ∈ u.outs) (fun _ _ => List.mem_cons_self)
    (fun _ _ _ h => List.mem_cons_of_mem _ h) l s

/-- The drives in use flush, and the power-down waits for them. -/
def flushBegun (s : State) : State :=
  { flushAll (drivesUsed s) s with ports := { (flushAll (drivesUsed s) s).ports with
    flushing := !(drivesUsed (flushAll (drivesUsed s) s)).isEmpty } }

theorem flushBegun_frame (s : State) : flushBegun s = { s with
    ports := { s.ports with drives := (flushBegun s).ports.drives, flushing := (flushBegun s).ports.flushing }
    outs := (flushBegun s).outs } := by
  unfold flushBegun
  conv_lhs => rw [flushAll_frame]
  rfl

/-- The event of a power-down, the notice to the links, and the phase, once work has ended. -/
def downAnnounced (c : Nat) (s : State) : State :=
  let u := raiseMgmt 0x6005 [a2 c] s
  { emit (.management "leaving" [u.fab.moduleId.toNat]) u with power := { u.power with phase := .down 0, downCause := c } }

theorem powerDownStart_eq {s : State} (c : Nat) (ready : s.power.phase = .ready) :
    powerDownStart c s = downAnnounced c (flushBegun (workEnded s)) := by
  unfold powerDownStart
  rw [ready]
  rfl

/-- What the beginning of an orderly power-down with this cause has done (14 Table 14-9). -/
structure Downs (c : Nat) (s t : State) : Prop where
  phase : t.power.phase = .down 0
  cause : t.power.downCause = c
  pwrEn : t.power.pwrEn = s.power.pwrEn
  modRst : t.power.modRst = s.power.modRst
  ready : t.porter.ready = false
  job : t.steps.job = none
  snap : t.snap = none
  dmas : t.ports.dmas = []
  logged : Logged 0x6005 [a2 c] s t
  flushed : ∀ d, d ∈ drivesUsed s → .driveCmd d "Flush" 0 ∈ t.outs

/-- The announcement leaves what has ended and been sent before it. -/
theorem downAnnounced_downs {s v : State} (c : Nat) (pwrEn : v.power.pwrEn = s.power.pwrEn)
    (modRst : v.power.modRst = s.power.modRst) (ready : v.porter.ready = false) (job : v.steps.job = none) (snap : v.snap = none)
    (dmas : v.ports.dmas = []) (counted : s.log.next ≤ v.log.next)
    (flushed : ∀ d, d ∈ drivesUsed s → .driveCmd d "Flush" 0 ∈ v.outs) : Downs c s (downAnnounced c v) := by
  have raised := raiseMgmt_winds 0x6005 [a2 c] v
  refine ⟨rfl, rfl, ?_, ?_, raised.ready.trans ready, job, snap, dmas, ?_,
    fun d used => List.mem_cons_of_mem _ (raised.outs (flushed d used))⟩
  · exact (congrArg Power.pwrEn raised.power).trans pwrEn
  · exact (congrArg Power.modRst raised.power).trans modRst
  · exact logged_of_log (t := raiseMgmt 0x6005 [a2 c] v) rfl (logged_since counted (raise_logged ..))

theorem powerDownStart_downs {s : State} (c : Nat) (phase : s.power.phase = .ready) : Downs c s (powerDownStart c s) := by
  have leaves := workEnded_leaves s
  obtain ⟨job, snap, dmas⟩ := workEnded_ends s
  have frame := flushBegun_frame (workEnded s)
  have power : (workEnded s).power = { s.power with alert := (workEnded s).power.alert } := leaves.winds.power
  rw [powerDownStart_eq c phase]
  apply downAnnounced_downs
  case pwrEn => rw [frame]; exact congrArg (fun p => p.pwrEn) power
  case modRst => rw [frame]; exact congrArg (fun p => p.modRst) power
  case ready => rw [frame]; exact leaves.winds.ready
  case job => rw [frame]; exact job
  case snap => rw [frame]; exact snap
  case dmas => rw [frame]; exact dmas
  case counted => rw [frame]; exact leaves.winds.counted
  case flushed =>
    intro d used
    refine flushAll_sent _ _ d ?_
    unfold drivesUsed
    rw [leaves.winds.drives]
    exact used

/-! ### The pins and the stages, row by row -/

section
variable {s : State}

theorem pwrEnAssert_off (en : s.power.pwrEn = false) (off : s.power.phase = .off) : pwrEnAssert s =
    switchOn sdCtl { s with power := { s.power with pwrEn := true, phase := .ramp } } := by
  unfold pwrEnAssert
  rw [en, if_neg Bool.false_ne_true]
  dsimp only
  rw [off]

theorem pwrEnDeassert_ready (en : s.power.pwrEn = true) (ready : s.power.phase = .ready) :
    ∃ u, pwrEnDeassert s = powerDownStart 1 u ∧ u = { s with power := { s.power with pwrEn := false } } := by
  refine ⟨_, ?_, rfl⟩
  unfold pwrEnDeassert
  rw [en]
  simp only [ready]
  rfl

theorem modRstNAssert_ready (rst : s.power.modRst = false) (ready : s.power.phase = .ready) :
    ∃ u, modRstNAssert s = powerDownStart 2 u ∧ u = { s with power := { s.power with modRst := true } } := by
  refine ⟨_, ?_, rfl⟩
  unfold modRstNAssert
  rw [rst]
  simp only [ready]
  rfl

theorem powerDownStageAdvance_0 (stage : s.power.phase = .down 0) :
    ∃ u, powerDownStageAdvance s = { u with power := { u.power with phase := .down 1 } } ∧
      u = towersDown { s with ports := { s.ports with flushing := false } } := by
  refine ⟨_, ?_, rfl⟩
  simp only [powerDownStageAdvance, stage, towersDown]

theorem powerDownStageAdvance_1 (stage : s.power.phase = .down 1) :
    ∃ u, powerDownStageAdvance s = { u with power := { u.power with phase := .down 2 }, mem := .reset } ∧ u = baseDown s := by
  refine ⟨_, ?_, rfl⟩
  simp only [powerDownStageAdvance, stage, baseDown]

theorem powerDownStageAdvance_2 (stage : s.power.phase = .down 2) : powerDownStageAdvance s =
    if s.power.i3cAddr.isNone || s.power.roleGranted then powerDownEnd (writeRecord s)
    else { s with power := { s.power with phase := .down 3, roleRequested := true } } := by
  simp only [powerDownStageAdvance, stage]

theorem controllerRoleGrant_requested (req : s.power.roleRequested = true) :
    ∃ u, controllerRoleGrant s = (if s.power.phase == .down 3 then powerDownEnd (writeRecord u) else u) ∧
      u = { s with power := { s.power with roleRequested := false, roleGranted := true } } := by
  refine ⟨_, ?_, rfl⟩
  simp only [controllerRoleGrant, req, Bool.not_true, Bool.false_eq_true, if_false]

theorem controllerRoleGrantTimeout_requested (req : s.power.roleRequested = true) :
    ∃ u, controllerRoleGrantTimeout s = (if s.power.phase == .down 3 then powerDownEnd u else u) ∧
      u = { s with power := { s.power with roleRequested := false } } := by
  refine ⟨_, ?_, rfl⟩
  simp only [controllerRoleGrantTimeout, req, Bool.not_true, Bool.false_eq_true, if_false]

/-- A Function Level Reset leaves the links and the pin; where the function is present its work has ended. -/
theorem functionLevelReset_does (f : PortFn) (s : State) : (functionLevelReset f s).power.perst = s.power.perst ∧
    (functionLevelReset f s).ports.hostLink = s.ports.hostLink ∧ (functionLevelReset f s).ports.storLink = s.ports.storLink ∧
    ((f = .host ∧ inReg s 24 = true ∨ f = .stor ∧ inReg s 25 = true ∧ s.ports.storRole = 2) →
      (∀ d ∈ (functionLevelReset f s).ports.dmas, d.1 ≠ f) ∧
      ∀ x ∈ (functionLevelReset f s).porter.sessions, x.1 < 65536 → x.2.fn ≠ f) := by
  have r := resetFunction_resets f s
  by_cases present : f = .host ∧ inReg s 24 = true ∨ f = .stor ∧ inReg s 25 = true ∧ s.ports.storRole = 2
  · have eq : functionLevelReset f s = resetFunction f s := by
      rcases present with ⟨rfl, on⟩ | ⟨rfl, on, role⟩
      · exact if_pos on
      · exact functionLevelReset_stor on role
    rw [eq]
    exact ⟨r.perst, r.hostLink, r.storLink, fun _ => ⟨r.dmas, r.ended⟩⟩
  · have eq : functionLevelReset f s = s := by
      cases f with
      | host => exact if_neg (fun on => present (.inl ⟨rfl, on⟩))
      | stor =>
        refine if_neg (fun both => present (.inr ⟨rfl, ?_⟩))
        simpa [sdPs] using both
    rw [eq]
    exact ⟨rfl, rfl, rfl, fun h => absurd h present⟩

/-- A hot reset of STOR leaves the HOST link and the pin; as an endpoint its link is down and its work has ended. -/
theorem storHotReset_does (s : State) : (storHotReset s).power.perst = s.power.perst ∧
    (storHotReset s).ports.hostLink = s.ports.hostLink ∧
    (inReg s 25 = true → s.ports.storRole = 2 → (storHotReset s).ports.storLink = 0 ∧
      (∀ d ∈ (storHotReset s).ports.dmas, d.1 = .host) ∧
      ∀ x ∈ (storHotReset s).porter.sessions, x.1 < 65536 → x.2.fn = .host) := by
  by_cases present : inReg s 25 = true ∧ s.ports.storRole = 2
  · obtain ⟨on, role⟩ := present
    rw [storHotReset_endpoint on role]
    have r := resetFunction_resets .stor { s with ports := { s.ports with storLink := 0 } }
    exact ⟨r.perst, r.hostLink, fun _ _ => ⟨r.storLink, fun d mem => (fn_ne_stor _).mp (r.dmas d mem),
      fun x mem lt => (fn_ne_stor _).mp (r.ended x mem lt)⟩⟩
  · have absent : inReg s 25 = false ∨ s.ports.storRole ≠ 2 := by
      rcases Bool.eq_false_or_eq_true (inReg s 25) with on | off
      · exact .inr (fun role => present ⟨on, role⟩)
      · exact .inl off
    rw [(stor_absent absent).2]
    exact ⟨rfl, rfl, fun on role => absurd ⟨on, role⟩ present⟩

/-- The end of a power-down: off, held, or in the boot ROM; what was sent and the FRU record stay (14 R399). -/
theorem powerDownEnd_does (s : State) : (powerDownEnd s).outs = s.outs ∧ (powerDownEnd s).power.fruRecord = s.power.fruRecord ∧
    (powerDownEnd s).mem = .reset ∧ (powerDownEnd s).porter = .reset ∧
    (powerDownEnd s).power.phase = if s.power.pwrEn then (if s.power.modRst then .held else .bootRom) else .off := by
  unfold powerDownEnd
  split <;> exact ⟨rfl, rfl, rfl, rfl, rfl⟩

end

/-- Settles O17: the pins, the power-down's beginning and its stages, and the resets of the functions. -/
theorem powerPinsAndPowerDown : Obligations.PowerPinsAndPowerDown := by
  unfold Obligations.PowerPinsAndPowerDown
  intro s
  refine ⟨fun en off ctl => ⟨_, rfl, ?_⟩, fun ready en => ⟨_, rfl, ?_⟩, fun ready rst => ⟨_, rfl, ?_⟩, fun stage => ⟨_, rfl, ?_⟩,
    fun stage => ⟨_, rfl, ?_⟩, fun stage addr => ⟨_, rfl, ?_⟩, fun stage addr role => ⟨_, rfl, ?_⟩, fun req other => ⟨_, rfl, ?_⟩,
    fun req stage => ⟨_, rfl, ?_⟩, fun req stage => ⟨_, rfl, ?_⟩, fun held => ⟨_, rfl, ?_⟩, fun other => ⟨_, rfl, ?_⟩,
    fun addr on => ⟨_, rfl, if_pos on⟩, ⟨_, rfl, ?_⟩, ⟨_, rfl, rfl⟩, fun f => ⟨_, rfl, ?_⟩, ⟨_, rfl, ?_⟩⟩
  · rw [pwrEnAssert_off en off]
    exact if_pos (by simpa [supplyAt, depsMet, dependsOn, sdCtl] using ctl)
  · obtain ⟨u, eq, pin⟩ := pwrEnDeassert_ready en ready
    have d := powerDownStart_downs (s := u) 1 (by rw [pin]; exact ready)
    rw [eq]
    exact ⟨d.pwrEn.trans (by rw [pin]), d.phase, d.cause, d.ready, d.job, d.snap, d.dmas,
      logged_since (by rw [pin]) d.logged, fun k used => d.flushed k (by rw [pin]; exact used)⟩
  · obtain ⟨u, eq, pin⟩ := modRstNAssert_ready rst ready
    have d := powerDownStart_downs (s := u) 2 (by rw [pin]; exact ready)
    rw [eq]
    exact ⟨d.modRst.trans (by rw [pin]), d.phase, d.cause, d.ready, d.job, d.snap, d.dmas,
      logged_since (by rw [pin]) d.logged, fun k used => d.flushed k (by rw [pin]; exact used)⟩
  · obtain ⟨u, eq, down⟩ := powerDownStageAdvance_0 stage
    obtain ⟨only, off, zero⟩ := down ▸ towersDown_does { s with ports := { s.ports with flushing := false } }
    rw [eq]
    refine ⟨?_, rfl, off, zero⟩
    rw [only]
  · obtain ⟨u, eq, down⟩ := powerDownStageAdvance_1 stage
    obtain ⟨only, cores, off⟩ := down ▸ baseDown_does s
    rw [eq]
    refine ⟨?_, rfl, off⟩
    rw [only, cores]
  · have direct : (s.power.i3cAddr.isNone || s.power.roleGranted) = true := by simp [addr]
    rw [powerDownStageAdvance_2 stage, if_pos direct]
    obtain ⟨outs, record, mem, porter, phase⟩ := powerDownEnd_does (writeRecord s)
    exact ⟨outs ▸ List.mem_cons_self, record, mem, porter, phase⟩
  · have asks : ¬ (s.power.i3cAddr.isNone || s.power.roleGranted) = true := by simp [addr, role]
    rw [powerDownStageAdvance_2 stage, if_neg asks]
  · obtain ⟨u, eq, granted⟩ := controllerRoleGrant_requested req
    rw [eq, if_neg (by simpa using other), granted]
  · obtain ⟨u, eq, granted⟩ := controllerRoleGrant_requested req
    obtain ⟨outs, record, -, -, phase⟩ := powerDownEnd_does (writeRecord u)
    rw [eq, if_pos (by simpa using stage), outs, record, phase, granted]
    exact ⟨List.mem_cons_self, rfl, rfl⟩
  · obtain ⟨u, eq, dropped⟩ := controllerRoleGrantTimeout_requested req
    obtain ⟨outs, record, -, -, phase⟩ := powerDownEnd_does u
    rw [eq, if_pos (by simpa using stage), outs, record, phase, dropped]
    exact ⟨rfl, rfl, rfl⟩
  · rw [show modRstNDeassert s = resetTo { s with power := { s.power with modRst := false } } from if_pos (by simpa using held)]
    exact ⟨rfl, rfl, rfl, rfl, rfl, rfl⟩
  · exact if_neg (by simpa using other)
  · by_cases on : inReg s 24 = true
    · rw [perstNAssert_powered on]
      have r := resetFunction_resets .host
        { s with power := { s.power with perst := true }, ports := { s.ports with hostLink := 0 } }
      exact ⟨r.perst, fun _ => ⟨r.hostLink, fun d mem => (fn_ne_host _).mp (r.dmas d mem),
        fun x mem lt => (fn_ne_host _).mp (r.ended x mem lt)⟩⟩
    · rw [show perstNAssert s = { s with power := { s.power with perst := true } } from if_neg on]
      exact ⟨rfl, fun on' => absurd on' on⟩
  · exact functionLevelReset_does f s
  · exact storHotReset_does s

end Sys2Proof.Endings
end

