-- ==== Sys2Proof/Proofs/Keeper.lean ====
section
/-! PROOFS. Zeroisation, the boundary, the error state, and what Keeper answers to SPDM (17 R456, R463, R467 to R470, R477,
R478; O55). -/

namespace Sys2Proof.Keeper

open Sys2Proof.Machine Sys2Proof.Safety Sys2Proof.Laws Sys2Proof.Endings

section
variable {s : State}

/-! ### Zeroisation -/

/-- What zeroisation erases (17 R478). -/
def erased (x : Security) : Security :=
  { x with secrets := false, zeroised := true, staging := [], staged := [], sessions := [], ak := 0 }

/-- The secrets are erased, and a waiting activation ends. -/
def secretsErased (s : State) : State :=
  let u := setSec erased s
  finishAll u.porter.outstanding.length isFwWait { st := stSuperseded } { u with steps := { u.steps with
    actions := u.steps.actions.filter (fun a => !(a == Boundary.fwActivate)) } }

theorem driveRest_eq (s : State) : driveRest s = { s with ports := { s.ports with drives := (driveRest s).ports.drives } } := by
  unfold driveRest
  split <;> rfl

/-- A snapshot whose manifest Keeper signs ends with the key (12 R342). -/
def signedSnapshotEnds (s : State) : State :=
  if (s.snap.map snapSigned).getD false then driveRest (endSnapshot (Config.snapCause 1) s) else s

theorem zeroise_eq (source : Nat) (s : State) : zeroise source s =
    let u := signedSnapshotEnds (secretsErased s)
    if keeperAlive u then raiseMgmt 0x7202 [a2 source] u else u := rfl

theorem secretsErased_winds (s : State) : Winds { s with sec := erased s.sec } (secretsErased s) := by
  unfold secretsErased
  refine .trans ?_ (finishAll_winds _ _ rfl _)
  exact ⟨rfl, List.suffix_rfl, Nat.le_refl _, rfl⟩

theorem secretsErased_actions (s : State) : Boundary.fwActivate ∉ (secretsErased s).steps.actions := by
  unfold secretsErased
  rw [Towers.finishAll_onlyAnswers _ _ rfl]
  simp [List.mem_filter]

/-- The end of a snapshot adds nothing to do at the boundary. -/
theorem endSnapshot_actions (cause : Nat) (s : State) : ∀ a ∈ (endSnapshot cause s).steps.actions, a ∈ s.steps.actions := by
  unfold endSnapshot
  split
  · exact fun _ mem => mem
  · next x snap =>
    unfold dropSnapshot
    rw [show (raiseCtrl 0x8902 [a8 (snapId x), a2 cause] s).snap = some x from snap]
    dsimp only
    rw [Cellar.releaseNow_onlyRooms, Cellar.releaseNow_onlyRooms, unpinRooms_onlyRooms]
    exact fun _ mem => List.mem_of_mem_filter mem

/-- What zeroisation leaves: the erased state of security, Keeper's own running, the log and what has been sent; no activation
waits. -/
structure Erases (s t : State) : Prop where
  sec : t.sec = erased s.sec
  alive : keeperAlive t = keeperAlive s
  counted : s.log.next ≤ t.log.next
  actions : Boundary.fwActivate ∉ t.steps.actions

theorem signedSnapshotEnds_erases (s : State) : Erases s (signedSnapshotEnds (secretsErased s)) := by
  have winds := secretsErased_winds s
  unfold signedSnapshotEnds
  split
  · have ends := winds.trans (endSnapshot_winds (Config.snapCause 1) (secretsErased s))
    rw [driveRest_eq]
    exact ⟨ends.sec, ends.keeperAlive, ends.counted,
      fun mem => secretsErased_actions s (endSnapshot_actions _ _ _ mem)⟩
  · exact ⟨winds.sec, winds.keeperAlive, winds.counted, secretsErased_actions s⟩

theorem zeroise_erases (source : Nat) (s : State) : Erases s (zeroise source s) := by
  have ends := signedSnapshotEnds_erases s
  rw [zeroise_eq]
  dsimp only
  split
  · have raised := raiseMgmt_winds 0x7202 [a2 source] (signedSnapshotEnds (secretsErased s))
    exact ⟨raised.sec.trans ends.sec, raised.keeperAlive.trans ends.alive, Nat.le_trans ends.counted raised.counted, ends.actions⟩
  · exact ends

theorem zeroise_logged (source : Nat) (alive : keeperAlive s = true) : Logged 0x7202 [a2 source] s (zeroise source s) := by
  have ends := signedSnapshotEnds_erases s
  rw [zeroise_eq]
  dsimp only
  rw [if_pos (ends.alive.trans alive)]
  exact logged_since ends.counted (raise_logged ..)

/-! ### The boundary and the error state -/

/-- The first access of a core from outside: a read answers 0, and the event. -/
theorem keeperBoundaryAccess_first {core : Nat} (addr : W64) (isWrite : Bool) (alive : keeperAlive s = true)
    (first : core ∉ s.sec.accessed) : keeperBoundaryAccess core addr isWrite s =
    raiseMgmt 0x7301 [a2 core, a8 addr.toNat] (setSec (fun x => { x with accessed := addNew x.accessed core })
      (if isWrite then s else emit (.management "boundary read" [core, 0]) s)) := by
  have read : keeperAlive (emit (.management "boundary read" [core, 0]) s) = true := alive
  cases isWrite <;> simp [keeperBoundaryAccess, first, alive, read]

theorem keeperBoundaryAccess_again {core : Nat} (addr : W64) (isWrite : Bool) (again : core ∈ s.sec.accessed) :
    keeperBoundaryAccess core addr isWrite s = if isWrite then s else emit (.management "boundary read" [core, 0]) s := by
  cases isWrite <;> simp [keeperBoundaryAccess, again]

/-! ### SPDM: a request is answered, or receives ERROR -/

/-- A request that Keeper serves. -/
theorem spdmAnswer_served {t : Nat} {c : Bool} (f : State → State) (alive : keeperAlive s = true) (serves : spdmServes s t = true)
    (ok : c = true) : spdmAnswer t c f s = f s := by
  simp [spdmAnswer, alive, serves, ok]

/-- A transport that Keeper does not serve. -/
theorem spdmAnswer_closed {t : Nat} (c : Bool) (f : State → State) (alive : keeperAlive s = true) (closed : spdmServes s t = false) :
    spdmAnswer t c f s = emit (.spdm t "ERROR" [] []) s := by
  simp [spdmAnswer, alive, closed, spdmError]

/-- A request whose conditions do not hold. -/
theorem spdmAnswer_refused {t : Nat} {c : Bool} (f : State → State) (alive : keeperAlive s = true) (bad : c = false) :
    spdmAnswer t c f s = emit (.spdm t "ERROR" [] []) s := by
  simp [spdmAnswer, alive, bad, spdmError]

/-- A closed transport answers ERROR to measurements, key exchanges and FINISH too. -/
theorem spdm_closed {t : Nat} (alive : keeperAlive s = true) (closed : spdmServes s t = false) :
    (∀ index nonce, spdmGetMeasurements t index nonce s = emit (.spdm t "ERROR" [] []) s) ∧
    (∀ id share, spdmKeyExchange t id share s = emit (.spdm t "ERROR" [] []) s) ∧
    ∀ id verify, spdmFinish t id verify s = emit (.spdm t "ERROR" [] []) s := by
  refine ⟨fun _ _ => ?_, fun _ _ => ?_, fun _ _ => ?_⟩
  · exact spdmAnswer_closed _ _ alive closed
  · unfold spdmKeyExchange
    exact spdmAnswer_closed _ _ alive closed
  · exact spdmAnswer_closed _ _ alive closed

/-- Measurements and a key exchange before algorithms are negotiated. -/
theorem spdm_unnegotiated {t : Nat} (alive : keeperAlive s = true) (none_ : negotiated s t = false) :
    (∀ index nonce, spdmGetMeasurements t index nonce s = emit (.spdm t "ERROR" [] []) s) ∧
    ∀ id share, spdmKeyExchange t id share s = emit (.spdm t "ERROR" [] []) s := by
  refine ⟨fun _ _ => ?_, fun _ _ => ?_⟩
  · exact spdmAnswer_refused _ alive (by simp [none_])
  · unfold spdmKeyExchange
    exact spdmAnswer_refused _ alive (by simp [none_])

theorem length_bytesLE (n v : Nat) : (bytesLE n v).length = n := by
  induction n generalizing v with
  | zero => rfl
  | succ n ih => rw [bytesLE, List.length_cons, ih]

theorem length_recBytes {n : Nat} (x : BitVec n) : (recBytes x).length = n / 8 := length_bytesLE ..

/-- Measurements of one index. -/
theorem spdmGetMeasurements_one {t : Nat} {k : Byte} (nonce : BitVec 256) (ge : 1 ≤ k.toNat) (le : k.toNat ≤ 6) :
    spdmGetMeasurements t k.toNat nonce s = spdmAnswer t (negotiated s t)
      (signedAnswer t "MEASUREMENTS" [1] (recBytes nonce ++ recBytes (tget s.sec.measured k.toNat 0))) s := by
  have all : k.toNat ≠ 0xFF := by omega
  have count : k.toNat ≠ 0 := by omega
  simp [spdmGetMeasurements, all, count, le]

theorem spdmKeyExchange_eq {t : Nat} (id : W16) (share : List Byte) : spdmKeyExchange t id share s =
    spdmAnswer t (negotiated s t && decide ((s.sec.sessions.filter (fun q => q.1 == t)).length < 2) && (spdmSession s t id).isNone &&
      s.sec.certSlot) (fun s => signedAnswer t "KEY_EXCHANGE_RSP" [id.toNat] share
        (setSec (fun x => { x with sessions := x.sessions ++ [(t, id, false)] }) s)) s := rfl

/-! ### Secure sessions -/

/-- The session that a key exchange opens is half open. -/
theorem spdmSession_opened {t : Nat} {id : W16} {u : State} (new : spdmSession s t id = none)
    (sessions : u.sec.sessions = s.sec.sessions ++ [(t, id, false)]) : spdmSession u t id = some false := by
  unfold spdmSession at *
  rw [sessions, List.find?_append, Option.map_eq_none_iff.mp new]
  simp

/-- A half-open session that is marked is established. -/
theorem spdmSession_established {t : Nat} {id : W16} {u : State} {b : Bool} (half : spdmSession s t id = some b)
    (sessions : u.sec.sessions = s.sec.sessions.map (fun q => if q.1 == t && q.2.1 == id then (t, id, true) else q)) :
    spdmSession u t id = some true := by
  unfold spdmSession at *
  rw [sessions]
  generalize s.sec.sessions = l at half
  induction l with
  | nil => simp at half
  | cons q l ih =>
    rw [List.map_cons, List.find?_cons]
    cases mine : (q.1 == t && q.2.1 == id) with
    | true => simp
    | false =>
      rw [List.find?_cons, mine] at half
      simp only [Bool.false_eq_true, if_false, mine]
      exact ih half

/-- A session that is taken away is no more. -/
theorem spdmSession_ended {t : Nat} {id : W16} {u : State}
    (sessions : u.sec.sessions = s.sec.sessions.filter (fun q => !(q.1 == t && q.2.1 == id))) : spdmSession u t id = none := by
  unfold spdmSession
  rw [sessions, Option.map_eq_none_iff, List.find?_eq_none]
  intro q mem
  simpa [imp_iff_not_or] using (List.mem_filter.mp mem).2

end

/-- Settles O55: zeroisation and the boundary by their frames, SPDM request by request. -/
theorem securityAndSpdmRows : Obligations.SecurityAndSpdmRows := by
  unfold Obligations.SecurityAndSpdmRows
  intro s
  refine ⟨fun us => ⟨fun short => ⟨_, rfl, ?_⟩, fun long on => ⟨_, rfl, ?_⟩⟩, fun core addr isWrite => ⟨fun alive first => ⟨_, rfl, ?_⟩,
    fun again => ⟨_, rfl, ?_⟩⟩, fun test => ⟨fun runs => ⟨_, rfl, ?_⟩, fun not => ⟨_, rfl, ?_⟩⟩, fun p alive => ?_⟩
  · simp [zeroNAssert, short]
  · have eq : zeroNAssert us s = zeroise 0xFFFF s := by simp [zeroNAssert, on, Nat.not_lt.mpr long]
    have sec := (zeroise_erases 0xFFFF s).sec
    rw [eq]
    exact ⟨congrArg Security.secrets sec, congrArg Security.zeroised sec, congrArg Security.staging sec,
      congrArg Security.staged sec, congrArg Security.sessions sec, zeroise_logged 0xFFFF⟩
  · rw [keeperBoundaryAccess_first addr isWrite alive first]
    refine ⟨?_, ?_, ?_, fun read => ?_⟩
    · cases isWrite <;> exact Cellar.mem_addNew _ core
    · cases isWrite <;> rfl
    · cases isWrite <;> exact raise_logged ..
    · subst read
      exact (raiseMgmt_winds ..).outs List.mem_cons_self
  · exact keeperBoundaryAccess_again addr isWrite again
  · rw [show conditionalTestFail test.toNat s = raiseMgmt 0x7201 [a2 test.toNat] (setSec (fun x => { x with errorState := true, sessions := [] })
      { s with porter := { s.porter with keeper := 2 } }) by simp [conditionalTestFail, runs]]
    have raised := raiseMgmt_winds 0x7201 [a2 test.toNat] (setSec (fun x => { x with errorState := true, sessions := [] })
      { s with porter := { s.porter with keeper := 2 } })
    exact ⟨rfl, raised.keeper, rfl, rfl, raise_logged ..⟩
  · simp [conditionalTestFail, not]
  · refine ⟨fun closed => ?_, fun none_ => ?_, fun code => ⟨_, rfl, spdmAnswer_refused _ alive rfl⟩, fun serves => ?_⟩
    · intro slot offset len nonce index id share verify op supported code
      simp only [List.forall_mem_cons, List.not_mem_nil, IsEmpty.forall_iff, implies_true, and_true]
      have refused (c : Bool) (f : State → State) : spdmAnswer p.val c f s = emit (.spdm p.val "ERROR" [] []) s :=
        spdmAnswer_closed c f alive closed
      obtain ⟨measurements, exchange, finish⟩ := spdm_closed alive closed
      exact ⟨⟨_, rfl, refused ..⟩, ⟨_, rfl, refused ..⟩, ⟨_, rfl, refused ..⟩, ⟨_, rfl, refused ..⟩, ⟨_, rfl, refused ..⟩,
        ⟨_, rfl, refused ..⟩, ⟨_, rfl, measurements ..⟩, ⟨_, rfl, exchange ..⟩, ⟨_, rfl, finish ..⟩, ⟨_, rfl, refused ..⟩,
        ⟨_, rfl, refused ..⟩, ⟨_, rfl, refused ..⟩, ⟨_, rfl, refused ..⟩⟩
    · intro slot offset len nonce index id share
      simp only [List.forall_mem_cons, List.not_mem_nil, IsEmpty.forall_iff, implies_true, and_true]
      have refused {c : Bool} (f : State → State) (bad : c = false) : spdmAnswer p.val c f s = emit (.spdm p.val "ERROR" [] []) s :=
        spdmAnswer_refused f alive bad
      obtain ⟨measurements, exchange⟩ := spdm_unnegotiated alive none_
      exact ⟨⟨_, rfl, refused _ none_⟩, ⟨_, rfl, refused _ (by simp [none_])⟩, ⟨_, rfl, refused _ (by simp [none_])⟩,
        ⟨_, rfl, measurements ..⟩, ⟨_, rfl, exchange ..⟩⟩
    · have served {c : Bool} (f : State → State) (ok : c = true) : spdmAnswer p.val c f s = f s :=
        spdmAnswer_served f alive serves ok
      have refused {c : Bool} (f : State → State) (bad : c = false) : spdmAnswer p.val c f s = emit (.spdm p.val "ERROR" [] []) s :=
        spdmAnswer_refused f alive bad
      refine ⟨⟨_, rfl, ?_⟩, ⟨_, rfl, served _ rfl⟩, ⟨_, rfl, ?_⟩, ⟨_, rfl, refused _ rfl⟩, fun agreed => ?_⟩
      · rw [served _ rfl]
        exact ⟨rfl, by simp [negotiated, setSec, emit]⟩
      · rw [served _ rfl]
        exact ⟨rfl, by simpa [negotiated, setSec, emit] using Cellar.mem_addNew s.sec.negotiated p.val⟩
      · refine ⟨fun cert => ⟨_, rfl, ?_⟩, fun offset len => ⟨_, rfl, ?_⟩, fun slot nonce bad => ⟨_, rfl, refused _ ?_⟩,
          fun nonce cert => ⟨_, rfl, ?_⟩, fun nonce => ⟨⟨_, rfl, ?_⟩, fun k nonce ge le => ⟨_, rfl, ?_⟩,
          fun id share cert new => ⟨fun room => ⟨_, rfl, ?_⟩, fun full => ⟨_, rfl, ?_⟩⟩⟩, fun id verify half => ⟨_, rfl, ?_⟩,
          fun id open_ => ⟨⟨_, rfl, served _ (by simp [open_])⟩, fun op ge le => ⟨_, rfl, served _ ?_⟩, ⟨_, rfl, ?_⟩⟩,
          fun id not_ => ⟨⟨_, rfl, refused _ (by simpa using not_)⟩, ⟨_, rfl, refused _ (by simpa using not_)⟩⟩⟩
        · rw [served _ agreed, cert]
          rfl
        · refine ⟨fun here => ?_, fun none_ => refused _ (by simp [none_])⟩
          rw [served _ (by simp [agreed, here.1, here.2])]
          refine ⟨_, _, rfl, by simp, ?_⟩
          simp only [List.length_take, List.length_drop]
          omega
        · rcases bad with bad | bad
          · simp [show ¬ slot = 0#8 from bad]
          · simp [bad]
        · rw [served _ (by simp [agreed, cert])]
          exact ⟨_, rfl, by rw [List.append_assoc]; exact List.take_left' (length_recBytes nonce)⟩
        · exact served _ (by simp [agreed])
        · rw [spdmGetMeasurements_one nonce ge le, served _ agreed]
          exact ⟨_, rfl, rfl⟩
        · rw [spdmKeyExchange_eq, served _ (by simp [agreed, room, new, cert])]
          exact ⟨spdmSession_opened new rfl, _, rfl⟩
        · rw [spdmKeyExchange_eq]
          exact refused _ (by simp [Nat.not_lt.mpr full])
        · refine ⟨fun good => ?_, fun bad => refused _ (by simp [bad])⟩
          rw [show spdmFinish p.val id verify s = _ from served _ (by simp [half, good])]
          exact ⟨spdmSession_established half rfl, rfl⟩
        · simp [open_]
          omega
        · rw [served _ (by simp [open_])]
          exact ⟨spdmSession_ended rfl, rfl⟩

end Sys2Proof.Keeper
end

