-- ==== Sys2Proof/Proofs/Images.lean ====
section
/-! PROOFS. Fetching the images and starting Keeper (17 R457 to R461, R474, R476; O19). -/

namespace Sys2Proof.Keeper

open Sys2Proof.Machine Sys2Proof.Safety Sys2Proof.Laws Sys2Proof.Endings

section
variable {s : State} {f : Fetch}

/-! ### Requests and their timeouts -/

theorem bootRomStart_first (rom : s.power.phase = .bootRom) (none_ : s.sec.fetch = none) (no : tfind? s.sec.images 1 = none) :
    bootRomStart s = fetchBegin 1 0 (setMeasured 1 Config.romDigest s) := by
  simp [bootRomStart, rom, none_, no]

/-- An unanswered request is sent once more. -/
theorem fetchRequestTimeout_first (fetch : s.sec.fetch = some f) (first : f.again = false) : fetchRequestTimeout s =
    fetchSend { s with sec := { s.sec with fetch := some { f with again := true } } } := by
  simp [fetchRequestTimeout, fetch, first]

/-- After a second silence the slot counts as empty. -/
theorem fetchRequestTimeout_second (fetch : s.sec.fetch = some f) (second : f.again = true) :
    fetchRequestTimeout s = slotFailed f.kind f.slot none s := by
  simp [fetchRequestTimeout, fetch, second]

/-! ### Data -/

/-- What a fetch holds with data added. -/
def fetched (f : Fetch) (data : List Byte) : Fetch := { f with got := f.got ++ data, again := false }

theorem fetchLen_fetched (data : List Byte) : fetchLen (fetched f data) = fetchLen { f with got := f.got ++ data } := rfl

/-- Bytes that do not end the image: the next piece is asked for. -/
theorem fetchDataReceive_more {data : List Byte} (fetch : s.sec.fetch = some f) (some_ : data ≠ []) (asked : data.length = fetchLen f)
    (more : (f.got ++ data).length < 128 ∨ (imgBodyLen (imgHead (f.got ++ data)) ≤ bodyLimit f.kind ∧
      fetchLen { f with got := f.got ++ data } ≠ 0)) :
    fetchDataReceive data s = fetchSend { s with sec := { s.sec with fetch := some (fetched f data) } } := by
  have goes : ((data.length != fetchLen f) || (decide (128 ≤ (fetched f data).got.length) &&
      (decide (bodyLimit f.kind < imgBodyLen (imgHead (fetched f data).got)) || fetchLen (fetched f data) == 0))) = false := by
    rw [fetchLen_fetched]
    rcases more with short | ⟨fits, left⟩
    · simp [asked, show ¬ 128 ≤ (fetched f data).got.length from Nat.not_le.mpr short]
    · simp [asked, left, show ¬ bodyLimit f.kind < imgBodyLen (imgHead (fetched f data).got) from Nat.not_lt.mpr fits]
  unfold fetchDataReceive
  rw [fetch]
  simp only [List.isEmpty_eq_false_iff.mpr some_, Bool.false_and, Bool.false_eq_true, if_false]
  exact if_neg (Bool.eq_false_iff.mp goes)

/-- Bytes that end the image: it is checked. -/
theorem fetchDataReceive_last {data : List Byte} (fetch : s.sec.fetch = some f) (some_ : data ≠ [])
    (whole : 128 ≤ (f.got ++ data).length) (last : fetchLen { f with got := f.got ++ data } = 0) :
    fetchDataReceive data s = fetchEnd (fetched f data) s := by
  have ends : ((data.length != fetchLen f) || (decide (128 ≤ (fetched f data).got.length) &&
      (decide (bodyLimit f.kind < imgBodyLen (imgHead (fetched f data).got)) || fetchLen (fetched f data) == 0))) = true := by
    rw [fetchLen_fetched, last]
    simp [show 128 ≤ (fetched f data).got.length from whole]
  unfold fetchDataReceive
  rw [fetch]
  simp only [List.isEmpty_eq_false_iff.mpr some_, Bool.false_and, Bool.false_eq_true, if_false]
  exact if_pos ends

/-! ### Keeper's start -/

/-- Keeper starts: straps sampled, the record marked (14 R383, 19 R499). -/
def keeperBegins (s : State) : State := { s with power := { s.power with
  phase := .keeper, slotId := s.power.strapSlot &&& 0x7F, feedTag := s.power.strapFeed,
  fruRecord := putFld s.power.fruRecord 0 32 0xFFFFFFFF } }

/-- A Keeper from slot 1 reports what refused slot 0. -/
def slotReported (s : State) : State :=
  match s.sec.refusals.find? (fun r => r.1 == 1) with
  | some r => imageRefused 1 0 (if r.2.2 == 0xFF then Config.emptySlotReason else r.2.2) s
  | none => s

theorem slotReported_winds (s : State) : Winds s (slotReported s) := by
  unfold slotReported
  split
  · exact raiseMgmt_winds ..
  · exact .refl s

/-- Keeper runs, with the STOR role of the FRU EEPROM and the bring-up policy; the capability record begins (17 R474). -/
def keeperSet (certOk : Bool) (s : State) : State := { s with
  porter := { s.porter with keeper := 1 }
  ports := { s.ports with storRole := if 3 ≤ s.power.fruStorRole.toNat then 0 else s.power.fruStorRole }
  cap := { s.cap with gen := 1 }
  sec := { s.sec with policy := bringupPolicy s, secrets := true, certSlot := certOk } }

/-- What the start reports: a reserved STOR role, and a missing certificate chain. -/
def startReported (certOk : Bool) (s : State) : State :=
  let s := if 3 ≤ s.power.fruStorRole.toNat then raise 0x4907 ctrl dieStor [] s else s
  if certOk then s else raiseMgmt 0x7104 [] s

theorem startReported_winds (certOk : Bool) (s : State) : Winds s (startReported certOk s) := by
  have role : Winds s (if 3 ≤ s.power.fruStorRole.toNat then raise 0x4907 ctrl dieStor [] s else s) := by
    split
    · exact raise_winds ..
    · exact .refl s
  unfold startReported
  dsimp only
  split
  · exact role
  · exact role.trans (raiseMgmt_winds ..)

theorem startReported_cap (certOk : Bool) (s : State) : (startReported certOk s).cap = s.cap := by
  unfold startReported
  dsimp only
  split <;> split <;> rfl

/-- A chain that is missing is reported last. -/
theorem startReported_logged (s : State) : Logged 0x7104 [] s (startReported false s) := by
  have role : Winds s (if 3 ≤ s.power.fruStorRole.toNat then raise 0x4907 ctrl dieStor [] s else s) := by
    split
    · exact raise_winds ..
    · exact .refl s
  exact logged_since role.counted (raise_logged ..)

/-- The measurements of the configuration and of the policy. -/
def startMeasured (s : State) : State := setMeasured 6 (bringupPolicy s) (setMeasured 5 (hwMeasurement s) s)

/-- The next image: a debug token is looked for on a device that is not certified (17 R476). -/
def nextFetched (s : State) : State := if Config.certified then fetchNext 2 (deriveKeys s) else fetchBegin 4 0 s

theorem nextFetched_eq (s : State) : nextFetched s = { s with
    sec := { s.sec with
      ak := (nextFetched s).sec.ak, issued := (nextFetched s).sec.issued
      fetch := some { kind := if Config.certified then 2 else 4, slot := 0, got := [], again := false } }
    outs := (nextFetched s).outs } := by
  unfold nextFetched
  cases Config.certified <;> rfl

section
variable (rom : s.power.phase = .bootRom) (image : tfind? s.sec.images 1 ≠ none) (none_ : s.sec.fetch = none)
include rom image none_

theorem keeperStart_waits :
    ¬ (!(s.power.phase == .bootRom && (tfind? s.sec.images 1).isSome && s.sec.fetch.isNone)) = true := by
  simp [rom, none_, Option.ne_none_iff_isSome.mp image]

theorem keeperStart_passed (certOk : Bool) : keeperStart true certOk s =
    nextFetched (switchOn sdMere (startMeasured (startReported certOk (keeperSet certOk (slotReported (keeperBegins s)))))) :=
  if_neg (keeperStart_waits rom image none_)

theorem keeperStart_failed (certOk : Bool) : keeperStart false certOk s =
    let u := slotReported (keeperBegins s)
    bringupStop 1 { u with porter := { u.porter with keeper := 2 }, sec := { u.sec with errorState := true } } :=
  if_neg (keeperStart_waits rom image none_)

end

/-- Bring-up stops: its phase, its event, and nothing of the supplies or of Keeper. -/
theorem bringupStop_does (why : Nat) (s : State) : (bringupStop why s).power.phase = .stopped why ∧
    (bringupStop why s).power.domains = s.power.domains ∧ (bringupStop why s).sec = { s.sec with fetch := none } ∧
    (bringupStop why s).porter.keeper = s.porter.keeper ∧ Logged 0x6006 [a2 why] s (bringupStop why s) := by
  unfold bringupStop
  dsimp only
  split
  · exact ⟨rfl, rfl, rfl, (raiseMgmt_winds ..).keeper, raise_logged ..⟩
  · exact ⟨rfl, rfl, rfl, (raiseMgmt_winds ..).keeper, raise_logged ..⟩

theorem inReg_of_domains {u : State} (same : u.power.domains = s.power.domains) (d : Nat) : inReg u d = inReg s d := by
  unfold inReg
  rw [same]

/-- A supply that is off ramps once what it depends on is in regulation (14 R385). -/
theorem switchOn_off {d : Nat} (off : supplyAt s d = .off) (deps : ∀ k ∈ dependsOn d, inReg s k = true) :
    switchOn d s = setSupply d (.ramping 1) s := by
  have met : depsMet s d = true := List.all_eq_true.mpr deps
  simp [switchOn, off, met]

/-- The bring-up policy reads the counters alone. -/
theorem bringupPolicy_of_counters {u : State} (same : u.sec.counters = s.sec.counters) : bringupPolicy u = bringupPolicy s := by
  unfold bringupPolicy counterOf
  rw [same]

/-- A complete image that fails the checks. -/
theorem fetchEnd_refused {r : Nat} (bad : refusal s f.kind f.got = some r) : fetchEnd f s = slotFailed f.kind f.slot (some r) s := by
  simp [fetchEnd, bad]

theorem fetchEnd_taken (good : refusal s f.kind f.got = none) : fetchEnd f s = imageTaken f.kind f.slot f.got s := by
  simp [fetchEnd, good]

/-- A refused Porter image of slot 0: the event, and the other slot is fetched. -/
theorem slotFailed_porter (r : Nat) (s : State) : slotFailed 2 0 (some r) s = fetchBegin 2 1 (imageRefused 2 0 r
    { s with sec := { s.sec with fetch := none, refusals := s.sec.refusals ++ [(2, 0, r)] } }) := rfl

/-- A good Porter image is installed and measured, and the microcode image is fetched. -/
theorem imageTaken_porter (slot : Nat) (bs : List Byte) (s : State) : imageTaken 2 slot bs s =
    fetchBegin 3 0 (setMeasured 3 (imageOf bs).digest
      { s with sec := { s.sec with fetch := none, images := tset s.sec.images 2 (imageOf bs) } }) := rfl

end

/-- Settles O19: the fetch by the state that each answer leaves, and Keeper's start by its two ways on. -/
theorem imageFetchAndKeeperStart : Obligations.ImageFetchAndKeeperStart := by
  unfold Obligations.ImageFetchAndKeeperStart
  intro s f
  refine ⟨fun rom none_ no => ⟨_, rfl, ?_⟩, fun fetch first => ⟨_, rfl, ?_⟩, fun fetch second kind slot => ⟨_, rfl, ?_⟩,
    fun fetch second kind slot => ⟨_, rfl, ?_⟩, fun data fetch some_ asked more => ⟨_, rfl, ?_⟩,
    fun data r fetch some_ asked whole last kind slot why => ⟨_, rfl, ?_⟩, fun data fetch some_ asked whole last kind good => ⟨_, rfl, ?_⟩,
    fun certOk rom image none_ ctl sns mere => ⟨_, rfl, ?_⟩, fun certOk rom image none_ => ⟨_, rfl, ?_⟩⟩
  · rw [bootRomStart_first rom none_ no]
    rfl
  · rw [fetchRequestTimeout_first fetch first]
    rfl
  · rw [fetchRequestTimeout_second fetch second, kind, slot]
    rfl
  · rw [fetchRequestTimeout_second fetch second, kind, slot]
    rfl
  · rw [fetchDataReceive_more fetch some_ asked more]
    rfl
  · rw [fetchDataReceive_last fetch some_ whole last]
    rw [fetchEnd_refused (show refusal s (fetched f data).kind (fetched f data).got = some r by rw [← why]; simp [fetched, kind]),
      show (fetched f data).kind = 2 from kind, show (fetched f data).slot = 0 from slot, slotFailed_porter]
    exact ⟨raise_logged .., rfl, rfl, List.mem_append_right _ List.mem_cons_self⟩
  · rw [fetchDataReceive_last fetch some_ whole last]
    rw [fetchEnd_taken (show refusal s (fetched f data).kind (fetched f data).got = none by rw [← good]; simp [fetched, kind]),
      show (fetched f data).kind = 2 from kind, imageTaken_porter]
    refine ⟨(tfind?_tset ..).trans (if_pos rfl), (tfind?_tset ..).trans (if_pos rfl), rfl, rfl⟩
  · rw [keeperStart_passed rom image none_]
    have begun := slotReported_winds (keeperBegins s)
    have reported := startReported_winds certOk (keeperSet certOk (slotReported (keeperBegins s)))
    have power := reported.power
    have sec : (startReported certOk (keeperSet certOk (slotReported (keeperBegins s)))).sec.policy =
        bringupPolicy (slotReported (keeperBegins s)) := by rw [reported.sec]; rfl
    have domains : (startReported certOk (keeperSet certOk (slotReported (keeperBegins s)))).power.domains = s.power.domains :=
      reported.domains.trans begun.domains
    have ramps : switchOn sdMere (startMeasured (startReported certOk (keeperSet certOk (slotReported (keeperBegins s))))) =
        setSupply sdMere (.ramping 1) (startMeasured (startReported certOk (keeperSet certOk (slotReported (keeperBegins s))))) := by
      refine switchOn_off ((Towers.supplyAt_of_domains domains 16).trans mere) (fun k dep => ?_)
      rcases (show k = 26 ∨ k = 27 by simpa [dependsOn, sdMere] using dep) with rfl | rfl
      · exact (inReg_of_domains domains 26).trans ctl
      · exact (inReg_of_domains domains 27).trans sns
    rw [ramps, nextFetched_eq]
    refine ⟨?_, reported.keeper, (supplyAt_setSupply ..).trans (if_pos rfl), ?_, ?_, ?_, ?_, rfl, fun missing => ?_⟩
    · exact (congrArg Power.phase power).trans (congrArg Power.phase begun.power)
    · exact congrArg Cap.gen (startReported_cap ..)
    · exact sec.trans (bringupPolicy_of_counters (congrArg Security.counters begun.sec))
    · exact (congrArg Power.slotId power).trans (congrArg Power.slotId begun.power)
    · exact (congrArg Power.feedTag power).trans (congrArg Power.feedTag begun.power)
    · subst missing
      exact logged_of_log (t := startReported false (keeperSet false (slotReported (keeperBegins s)))) rfl
        (logged_since begun.counted (startReported_logged (keeperSet false (slotReported (keeperBegins s)))))
  · rw [keeperStart_failed rom image none_]
    have begun := slotReported_winds (keeperBegins s)
    obtain ⟨phase, domains, sec, keeper, logged⟩ := bringupStop_does 1 { slotReported (keeperBegins s) with
      porter := { (slotReported (keeperBegins s)).porter with keeper := 2 }
      sec := { (slotReported (keeperBegins s)).sec with errorState := true } }
    exact ⟨phase, keeper, congrArg Security.errorState sec, logged_since begun.counted logged, domains.trans begun.domains⟩

end Sys2Proof.Keeper
end

