-- ==== Sys2Proof/Proofs/Doorbells.lean ====
section
/-! PROOFS. Doorbells and the messages of mailboxes 64 and 65 (13 R345 to R347, R354, R355, R359, 17 R460; O39). -/

namespace Sys2Proof.Orders

open Sys2Proof.Machine Sys2Proof.Safety Sys2Proof.Laws Sys2Proof.Endings

section
variable {s : State} {n : Nat} {v : BitVec 6}

/-! ### One mailbox -/

theorem setMb_onlyMb (n : Nat) (f : Mailbox → Mailbox) (s : State) : OnlyMb n s (setMb n f s) :=
  ⟨rfl, fun _ ne => (mbAt_setMb ..).trans (if_neg ne)⟩

theorem mbAt_setMb_same (n : Nat) (f : Mailbox → Mailbox) (s : State) : mbAt (setMb n f s) n = f (mbAt s n) :=
  (mbAt_setMb ..).trans (if_pos rfl)

theorem onlyMb_trans {t u : State} (h : OnlyMb n s t) (h' : OnlyMb n t u) : OnlyMb n s u := by
  refine ⟨?_, fun j ne => (h'.2 j ne).trans (h.2 j ne)⟩
  have e := h'.1
  rw [h.1] at e
  exact e

/-! ### Doorbells -/

theorem doorbellSqTail_good (heard : bellHeard s n = true) (good : ¬ (bellChecked s n = true ∧ tailLowers (mbAt s n) v = true)) :
    doorbellSqTail n v s = setMb n (fun m => { m with sqTail := v }) s := by
  have fine : (bellChecked s n && tailLowers (mbAt s n) v) = false := by
    rwa [← Bool.not_eq_true, Bool.and_eq_true]
  simp [doorbellSqTail, heard, fine]

theorem doorbellSqTail_bad (heard : bellHeard s n = true) (checked : bellChecked s n = true) (lowers : tailLowers (mbAt s n) v = true) :
    doorbellSqTail n v s = protocolError n v (setMb n (fun m => { m with sqTail := v }) s) := by
  simp [doorbellSqTail, heard, checked, lowers]

theorem doorbellCqHead_good (heard : bellHeard s n = true) (good : ¬ (bellChecked s n = true ∧ headPasses (mbAt s n) v = true)) :
    doorbellCqHead n v s = settleMb n (setMb n (fun m => { m with cqHead := v, taken := m.taken - (v - m.cqHead).toNat }) s) := by
  have fine : (bellChecked s n && headPasses (mbAt s n) v) = false := by
    rwa [← Bool.not_eq_true, Bool.and_eq_true]
  simp [doorbellCqHead, heard, fine]

theorem doorbellCqHead_bad (heard : bellHeard s n = true) (checked : bellChecked s n = true) (passes : headPasses (mbAt s n) v = true) :
    doorbellCqHead n v s = protocolError n v (setMb n (fun m => { m with cqHead := v }) s) := by
  simp [doorbellCqHead, heard, checked, passes]

/-- Raising an event touches no mailbox. -/
theorem mbAt_raise (code plane die : Nat) (args : List (Nat × Nat)) (s : State) (k : Nat) :
    mbAt (raise code plane die args s) k = mbAt s k := by
  unfold mbAt
  rw [raise_porter_mailboxes]

theorem mbAt_protocolError (n : Nat) (v : BitVec 6) (s : State) (k : Nat) :
    mbAt (protocolError n v s) k = if k = n then { mbAt s k with state := 2 } else mbAt s k := by
  unfold protocolError raiseCtrl
  rw [mbAt_raise]
  exact mbAt_setMb s n k (fun m => { m with state := 2 })

/-- The bit of a mailbox in MBX_ERR. -/
theorem getLsbD_mbxBit (n i : Nat) : (BitVec.ofNat 64 (2 ^ n)).getLsbD i = (decide (i < 64) && decide (n = i)) := by
  rw [BitVec.getLsbD_ofNat, Nat.testBit_two_pow]

theorem mbxErr_protocolError (lt : n < 64) (v : BitVec 6) (s : State) : (protocolError n v s).porter.mbxErr.getLsbD n = true := by
  unfold protocolError raiseCtrl
  rw [raise_porter_mbxErr, BitVec.getLsbD_or, getLsbD_mbxBit]
  simp [lt]

theorem settleMb_onlyMb (n : Nat) (s : State) : OnlyMb n s (settleMb n s) := by
  unfold settleMb
  dsimp only
  split
  · exact setMb_onlyMb ..
  · exact ⟨rfl, fun _ _ => rfl⟩

/-- A mailbox of a session in use stays bound. -/
theorem settleMb_of_bound (bound : (mbAt s n).ending = false) : settleMb n s = s := by simp [settleMb, bound]

/-- A mailbox of an ended session unbinds behind its last completion. -/
theorem settleMb_of_ended (ended : (mbAt s n).ending = true) (last : (mbAt s n).cqHead = (mbAt s n).cqTail) :
    settleMb n s = unbindMb n s := by simp [settleMb, ended, last]

/-- A protocol error after a change of the mailbox is that change, the stop, the MBX_ERR bit and the event. -/
theorem protocolError_onlyEvent (n : Nat) (v : BitVec 6) (f : Mailbox → Mailbox) (s : State) :
    OnlyEvent 0x8301 ctrl dieControl [a2 n, a2 v.toNat] { s with porter := { s.porter with
      mailboxes := (protocolError n v (setMb n f s)).porter.mailboxes, mbxErr := s.porter.mbxErr ||| BitVec.ofNat 64 (2 ^ n) } }
      (protocolError n v (setMb n f s)) := by
  unfold protocolError raiseCtrl
  rw [raise_porter_mailboxes]
  exact raise_onlyEvent ..

/-! ### Re-arming -/

/-- A stopped mailbox that is re-armed. -/
def rearmed (s : State) (n : Nat) (m : Mailbox) : Mailbox :=
  { m with
    sqHead := m.sqTail, state := if m.session == 0 then 0 else 1, taken := openCommands s n + (m.cqTail - m.cqHead).toNat }

theorem mbAt_rearmMb (n k : Nat) (s : State) : mbAt (rearmMb n s) k =
    if k = n ∧ (mbAt s n).state = 2 then rearmed s n (mbAt s k) else mbAt s k := by
  unfold rearmMb
  dsimp only
  by_cases stopped : (mbAt s n).state = 2
  · rw [if_neg (by simpa [mbAt] using stopped), mbAt_setMb]
    simp only [stopped, and_true]
    rfl
  · rw [if_pos (by simpa [mbAt] using stopped), if_neg (fun h => stopped h.2)]
    rfl

theorem rearmMb_frame (n : Nat) (s : State) : rearmMb n s = { s with porter := { s.porter with
    mailboxes := (rearmMb n s).porter.mailboxes, mbxErr := s.porter.mbxErr &&& ~~~BitVec.ofNat 64 (2 ^ n) } } := by
  unfold rearmMb
  dsimp only
  split <;> rfl

/-- A mailbox that is not named stays. -/
theorem mbAt_rearm_other {l : List Nat} {k : Nat} (other : k ∉ l) (s : State) : mbAt (forEach l rearmMb s) k = mbAt s k :=
  forEach_same (g := fun u => mbAt u k) s (fun n mem u => by
    have ne : k ≠ n := fun h => other (h ▸ mem)
    rw [mbAt_rearmMb, if_neg (fun h => ne h.1)])

/-- A stopped mailbox that is named once is re-armed. -/
theorem mbAt_rearm_named {l : List Nat} (once : l.Nodup) (mem : n ∈ l) (s : State) (stopped : (mbAt s n).state = 2) :
    (mbAt (forEach l rearmMb s) n).sqHead = (mbAt s n).sqTail ∧
    (mbAt (forEach l rearmMb s) n).state = if (mbAt s n).session = 0 then 0 else 1 := by
  induction l generalizing s with
  | nil => exact nomatch mem
  | cons b l ih =>
    obtain ⟨notIn, once⟩ := List.nodup_cons.mp once
    rw [forEach_cons]
    by_cases same : n = b
    · subst same
      rw [mbAt_rearm_other notIn, mbAt_rearmMb, if_pos ⟨rfl, stopped⟩]
      exact ⟨rfl, by simp [rearmed]⟩
    · have kept : mbAt (rearmMb b s) n = mbAt s n := by rw [mbAt_rearmMb, if_neg (fun h => same h.1)]
      have := ih once ((List.mem_cons.mp mem).resolve_left same) (rearmMb b s) (kept ▸ stopped)
      rwa [kept] at this

/-- Re-arming clears the bits of the mailboxes named, and nothing else changes but mailboxes. -/
theorem rearm_frame (l : List Nat) (s : State) :
    forEach l rearmMb s = { s with porter := { s.porter with
      mailboxes := (forEach l rearmMb s).porter.mailboxes, mbxErr := (forEach l rearmMb s).porter.mbxErr } } ∧
    ∀ i, i < 64 → (forEach l rearmMb s).porter.mbxErr.getLsbD i = (s.porter.mbxErr.getLsbD i && !l.contains i) := by
  induction l generalizing s with
  | nil => exact ⟨rfl, fun i _ => by simp⟩
  | cons n l ih =>
    obtain ⟨frame, bits⟩ := ih (rearmMb n s)
    have one := rearmMb_frame n s
    refine ⟨?_, fun i lt => ?_⟩
    · rw [forEach_cons, frame, one]
    · rw [forEach_cons, bits i lt, one, List.contains_cons]
      simp only [BitVec.getLsbD_and, BitVec.getLsbD_not, getLsbD_mbxBit, lt, decide_true, Bool.true_and]
      by_cases same : n = i
      · simp [same]
      · simp [same, show (i == n) = false by simpa using Ne.symm same]

/-- The bits of the mask alone decide which mailboxes are re-armed. -/
theorem mbxErr_mbxErrClear (mask : W64) (s : State) : (mbxErrClear mask s).porter.mbxErr = s.porter.mbxErr &&& ~~~mask := by
  refine BitVec.eq_of_getLsbD_eq (fun i lt => ?_)
  unfold mbxErrClear
  rw [(rearm_frame _ s).2 i lt]
  simp only [BitVec.getLsbD_and, BitVec.getLsbD_not, lt, decide_true, Bool.true_and]
  have named : ((List.range 64).filter (fun n => mask.getLsbD n && s.porter.mbxErr.getLsbD n)).contains i =
      (mask.getLsbD i && s.porter.mbxErr.getLsbD i) := by
    rw [Bool.eq_iff_iff, List.contains_iff_mem, List.mem_filter, List.mem_range, and_iff_right lt]
  rw [named]
  cases mask.getLsbD i <;> cases s.porter.mbxErr.getLsbD i <;> rfl

/-! ### Messages -/

/-- An entry turned away at once: the mailbox stands as before, and the answer carries the CID and the status. -/
theorem turnAwayEntry_does (n : Fin 66) (message : 64 ≤ n.val) (e : BitVec 1024) {r : Reply} (out : r.out = none) (s : State) :
    mbAt (turnAwayEntry n e r s) n.val = mbAt s n.val ∧ ∃ x, .mctpCpl n.val x [] ∈ (turnAwayEntry n e r s).outs ∧
      x.cid = bits e 992 16 ∧ x.status = BitVec.ofNat 8 r.st ∧ x.result0 = BitVec.ofNat 64 r.r0 ∧ x.result1 = BitVec.ofNat 64 r.r1 := by
  unfold turnAwayEntry turnAway post
  rw [if_neg (Nat.not_lt.mpr message), out]
  refine ⟨?_, _, List.mem_cons_self, rfl, rfl, rfl, rfl⟩
  show mbAt (setMb n.val (fun m => { m with taken := m.taken - 1 }) (setMb n.val (fun m => { m with taken := m.taken + 1 }) s)) n.val = _
  rw [mbAt_setMb_same, mbAt_setMb_same]
  rfl

theorem bootReply_out (s : State) : (bootReply s).out = none ∧ (bootReply s).st = stWrongState := by
  unfold bootReply
  dsimp only
  split
  · exact ⟨rfl, rfl⟩
  · split <;> exact ⟨rfl, rfl⟩

end

/-- Settles O39: each doorbell is good or a protocol error, and each message waits or is turned away. -/
theorem doorbellsAndMessages : Obligations.DoorbellsAndMessages := by
  unfold Obligations.DoorbellsAndMessages
  intro s
  refine ⟨fun mb v heard => ⟨fun good => ⟨_, rfl, ?_⟩, fun checked lowers => ⟨_, rfl, ?_⟩, fun good => ⟨_, rfl, ?_⟩,
    fun checked passes => ⟨_, rfl, ?_⟩⟩, fun mask n lt named err stopped => ⟨_, rfl, ?_⟩, fun e arg => ⟨fun runs alive room => ⟨_, rfl, ?_⟩,
    fun runs alive full => ⟨_, rfl, ?_⟩, fun boot => ⟨_, rfl, ?_⟩, fun runs room => ⟨_, rfl, ?_⟩⟩⟩
  · rw [doorbellSqTail_good heard good]
    exact ⟨setMb_onlyMb .., mbAt_setMb_same ..⟩
  · rw [doorbellSqTail_bad heard checked lowers]
    refine ⟨?_, ?_, fun k ne => ?_⟩
    · exact protocolError_onlyEvent ..
    · rw [mbAt_protocolError, if_pos rfl, mbAt_setMb_same]
    · rw [mbAt_protocolError, if_neg ne, mbAt_setMb, if_neg ne]
  · rw [doorbellCqHead_good heard good]
    refine ⟨onlyMb_trans (setMb_onlyMb ..) (settleMb_onlyMb ..), fun stays => ?_, fun ends last => ?_⟩
    · rw [settleMb_of_bound (by rw [mbAt_setMb_same]; exact stays), mbAt_setMb_same]
    · rw [settleMb_of_ended (by rw [mbAt_setMb_same]; exact ends) (by rw [mbAt_setMb_same]; exact last)]
      unfold unbindMb
      rw [mbAt_setMb_same, mbAt_setMb_same, last]
  · rw [doorbellCqHead_bad heard checked passes]
    refine ⟨raise_logged .., ?_, mbxErr_protocolError mb.isLt ..⟩
    rw [mbAt_protocolError, if_pos rfl]
  · obtain ⟨frame, -⟩ := rearm_frame ((List.range 64).filter (fun n => mask.getLsbD n && s.porter.mbxErr.getLsbD n)) s
    have mem : n ∈ (List.range 64).filter (fun n => mask.getLsbD n && s.porter.mbxErr.getLsbD n) :=
      List.mem_filter.mpr ⟨List.mem_range.mpr lt, Bool.and_eq_true_iff.mpr ⟨named, err⟩⟩
    obtain ⟨head, state⟩ := mbAt_rearm_named (List.nodup_range.filter _) mem s stopped
    exact ⟨frame, mbxErr_mbxErrClear mask s, head, state, fun k _ other =>
      mbAt_rearm_other (fun mem => by simpa [other] using (List.mem_filter.mp mem).2) s⟩
  · rw [show bmcMessageArrival e arg s = queueMessage 64 e arg s by simp [bmcMessageArrival, runs, alive, Nat.not_le.mpr room]]
    exact ⟨setMb_onlyMb .., mbAt_setMb_same ..⟩
  · rw [show bmcMessageArrival e arg s = turnAwayEntry 64 e { st := stWrongState } s by simp [bmcMessageArrival, runs, alive, full]]
    obtain ⟨same, x, sent, cid, status, -⟩ := turnAwayEntry_does 64 (by decide) e (r := { st := stWrongState }) rfl s
    exact ⟨same, x, sent, cid, status⟩
  · obtain ⟨out, wrong⟩ := bootReply_out s
    rw [show bmcMessageArrival e arg s = turnAwayEntry 64 e (bootReply s) s by simp [bmcMessageArrival, boot]]
    obtain ⟨same, x, sent, cid, status, r0, r1⟩ := turnAwayEntry_does 64 (by decide) e out s
    exact ⟨same, x, sent, cid, wrong ▸ status, r0, r1⟩
  · rw [show fmMessageArrival e arg s = queueMessage 65 e arg s by simp [fmMessageArrival, runs, Nat.not_le.mpr room]]
    exact ⟨setMb_onlyMb .., mbAt_setMb_same ..⟩

end Sys2Proof.Orders
end

