-- ==== Sys2Proof/Proofs/Orders.lean ====
section
/-! PROOFS. What an order that passes its checks leaves, whatever its meaning does to its own mailbox (13 R345 to R361). -/

namespace Sys2Proof.Orders

open Sys2Proof.Machine Sys2Proof.Safety Sys2Proof.Laws Sys2Proof.Endings

section
variable {s u w : State} {code : Nat} {c : Cmd} {subs : List Subject} {h : Handler} {r : Reply}

/-! ### The state in which an order is taken -/

/-- The completion ring of the order's mailbox as it is taken. -/
theorem cqTail_takenState (code : Nat) (c : Cmd) (subs : List Subject) (s : State) (n : Nat) :
    (mbAt (takenState code c subs s) n).cqTail = (mbAt s n).cqTail := by
  show (mbAt (takeEntry c.mailbox.val s) n).cqTail = _
  unfold takeEntry
  rw [mbAt_setMb]
  split <;> rfl

/-! ### Answers -/

/-- The answer of an order stands at the completion index that the mailbox had. -/
theorem post_posted_at (tail : (mbAt w c.mailbox.val).cqTail = (mbAt s c.mailbox.val).cqTail) :
    Posted code c r s (post (pendingOf code c s) r w) := by
  refine ⟨cplOf (pendingOf code c s) r w, ⟨rfl, rfl, rfl, rfl, rfl, rfl, rfl, rfl, rfl⟩, fun lt => ?_, fun ge => ?_⟩
  · have e : mbAt (post (pendingOf code c s) r w) c.mailbox.val =
        withCpl (cplOf (pendingOf code c s) r w) (mbAt w c.mailbox.val) := by
      unfold post
      rw [if_pos (show (pendingOf code c s).cmd.mailbox.val < 64 from lt), (oweIrq_but _ 0 c.mailbox.val _).2]
      exact mbAt_setMb_same ..
    rw [e, ← tail]
    exact ⟨by simp [withCpl], rfl⟩
  · refine ⟨r.out.getD [], ?_⟩
    unfold post
    rw [if_neg (show ¬ (pendingOf code c s).cmd.mailbox.val < 64 from Nat.not_lt.mpr ge)]
    exact List.mem_cons_self

/-- Wherever the mailbox stands, the order has its answer. -/
theorem post_answered (code : Nat) (c : Cmd) (r : Reply) (s w : State) : Answered code c r s (post (pendingOf code c s) r w) := by
  refine ⟨cplOf (pendingOf code c s) r w, ⟨rfl, rfl, rfl, rfl, rfl, rfl, rfl, rfl, rfl⟩,
    fun lt => ⟨(mbAt w c.mailbox.val).cqTail.toNat, ?_⟩, fun ge => ⟨r.out.getD [], ?_⟩⟩
  · have e : mbAt (post (pendingOf code c s) r w) c.mailbox.val =
        withCpl (cplOf (pendingOf code c s) r w) (mbAt w c.mailbox.val) := by
      unfold post
      rw [if_pos (show (pendingOf code c s).cmd.mailbox.val < 64 from lt), (oweIrq_but _ 0 c.mailbox.val _).2]
      exact mbAt_setMb_same ..
    rw [e]
    simp [withCpl]
  · unfold post
    rw [if_neg (show ¬ (pendingOf code c s).cmd.mailbox.val < 64 from Nat.not_lt.mpr ge)]
    exact List.mem_cons_self

/-- What an order leaves that its meaning has answered: the answer, and but for its mailbox the state `w` of the meaning. -/
structure Done (code : Nat) (c : Cmd) (r : Reply) (s w t : State) : Prop where
  answered : Answered code c r s t
  posted : (mbAt w c.mailbox.val).cqTail = (mbAt s c.mailbox.val).cqTail → Posted code c r s t
  but : ButMailbox c.mailbox.val w t

/-- An order that passes every check and whose meaning answers at once, without output and not with BAD_ARG. -/
theorem order_done (p : Passes code c subs s) (lt : code < 65536)
    (hh : h (pendingOf code c s) (takenState code c subs s) = (.done r, w)) (out : r.out = none) (good : r.st ≠ stBadArg) :
    Done code c r s w (order code c subs h s) := by
  obtain ⟨row, -, e⟩ := order_passes s (h := h) p lt
  have eq : order code c subs h s = post (pendingOf code c s) r w := by
    rw [e, hh]
    unfold answerState complete
    dsimp only
    rw [if_neg (by simpa using good), out]
  rw [eq]
  exact ⟨post_answered .., post_posted_at, post_but w (pendingOf code c s) r⟩

/-- An order that is answered at once, its meaning having done nothing. -/
theorem order_refused (p : Passes code c subs s) (lt : code < 65536)
    (hh : h (pendingOf code c s) (takenState code c subs s) = (.done r, takenState code c subs s)) (out : r.out = none) :
    Gives code c r s s (order code c subs h s) :=
  order_gives s p lt hh out (takenState_but s code c subs) rfl (fun _ => butMailbox_refl s c.mailbox.val)

theorem Done.log (d : Done code c r s w u) : u.log = w.log := by rw [d.but.1]
theorem Done.sec (d : Done code c r s w u) : u.sec = w.sec := by rw [d.but.1]
theorem Done.mem (d : Done code c r s w u) : u.mem = w.mem := by rw [d.but.1]
theorem Done.rooms (d : Done code c r s w u) : u.rooms = w.rooms := by rw [d.but.1]
theorem Done.snap (d : Done code c r s w u) : u.snap = w.snap := by rw [d.but.1]
theorem Done.gov (d : Done code c r s w u) : u.gov = w.gov := by rw [d.but.1]
theorem Done.steps (d : Done code c r s w u) : u.steps = w.steps := by rw [d.but.1]
theorem Done.tests (d : Done code c r s w u) : u.tests = w.tests := by rw [d.but.1]
theorem Done.porter (d : Done code c r s w u) : u.porter.porter = w.porter.porter := by rw [d.but.1]

/-- What has been logged by the meaning, the order leaves logged. -/
theorem Done.logged {n : Nat} {args : List (Nat × Nat)} (d : Done code c r s w u) (l : Logged n args s w) : Logged n args s u :=
  logged_of_log d.log l

end

end Sys2Proof.Orders
end

