-- ==== Sys2Proof/Proofs/Firmware.lean ====
section
/-! PROOFS. Images are staged and activated, keys and policies taken, secrets erased (17 R466, R472 to R474, R477; O51). -/

namespace Sys2Proof.Keeper

open Sys2Proof.Machine Sys2Proof.Safety Sys2Proof.Laws Sys2Proof.Endings Sys2Proof.Orders

section
variable {s : State}

theorem trusted_of_trust {h : Handler} {p : Pending} (trust : trustGone s = false) : trusted h p s = h p s := by
  simp [trusted, trust]

/-- Taking an order changes nothing of security. -/
theorem trusted_taken {code : Nat} {c : Cmd} {subs : List Subject} {h : Handler} {p : Pending} (trust : trustGone s = false) :
    trusted h p (takenState code c subs s) = h p (takenState code c subs s) := trusted_of_trust trust

/-! ### FW_STAGE -/

/-- What is kept of an image whose next segment has this head (17 R472). -/
def keptOf (s : State) (head : BitVec 128) : Nat × List Byte :=
  if fld head 32 32 = 0 then (fld head 64 32, []) else tget s.sec.staging (fld head 0 8) (0, [])

theorem keptOf_taken (code : Nat) (c : Cmd) (subs : List Subject) (head : BitVec 128) :
    keptOf (takenState code c subs s) head = keptOf s head := rfl

/-- The segment follows what is kept, and fits. -/
def Follows (s : State) (head : BitVec 128) (bytes : List Byte) : Prop :=
  fld head 32 32 = (keptOf s head).2.length ∧ fld head 64 32 = (keptOf s head).1 ∧
  fld head 32 32 + bytes.length ≤ (keptOf s head).1 ∧ bytes ≠ []

/-- What the checks of an image read. -/
theorem refusal_of_sec {t : State} (keys : t.sec.ownerKeys = s.sec.ownerKeys) (counters : t.sec.counters = s.sec.counters)
    (images : t.sec.images = s.sec.images) (kind : Nat) (bs : List Byte) : refusal t kind bs = refusal s kind bs := by
  have hash : ownerKeyHash t = ownerKeyHash s := by rw [ownerKeyHash, keys, ownerKeyHash]
  have counter : counterOf t kind = counterOf s kind := by rw [counterOf, counters, counterOf]
  have rel : keeperRel t = keeperRel s := by rw [keeperRel, images, keeperRel]
  unfold refusal
  rw [hash, counter, rel]

theorem refusal_staging (f : Security → Table (Nat × List Byte)) (kind : Nat) (bs : List Byte) :
    refusal (setSec (fun x => { x with staging := f x }) s) kind bs = refusal s kind bs := refusal_of_sec rfl rfl rfl kind bs

/-- A reserved KIND. -/
theorem fwStage_reserved {head : BitVec 128} {bytes : List Byte} {p : Pending} (bad : fld head 0 8 = 0 ∨ 4 < fld head 0 8) :
    fwStage head bytes p s = badExt 0 s := by
  simp [fwStage, bad]

/-- A segment that does not follow. -/
theorem fwStage_astray {head : BitVec 128} {bytes : List Byte} {p : Pending} (ge : 1 ≤ fld head 0 8) (le : fld head 0 8 ≤ 4)
    (bad : ¬ Follows s head bytes) : fwStage head bytes p s = badExt 4 s := by
  have known : ¬ (fld head 0 8 = 0 ∨ 4 < fld head 0 8) := by omega
  unfold Follows at bad
  have bad' : fld head 32 32 ≠ (keptOf s head).2.length ∨ fld head 64 32 ≠ (keptOf s head).1 ∨
      fld head 64 32 < fld head 32 32 + bytes.length ∨ bytes = [] := by
    by_contra all
    simp only [not_or, ne_eq, not_not, not_lt] at all
    obtain ⟨at_, total, within, some_⟩ := all
    exact bad ⟨at_, total, total ▸ within, some_⟩
  simp only [keptOf, ← beq_iff_eq (a := fld head 32 32) (b := 0)] at bad'
  simp only [fwStage, Bool.or_eq_true, beq_iff_eq, decide_eq_true_eq, known, if_false]
  rw [if_pos]
  simpa [or_assoc] using bad'

/-- A segment that follows. -/
theorem fwStage_follows {head : BitVec 128} {bytes : List Byte} {p : Pending} (ge : 1 ≤ fld head 0 8) (le : fld head 0 8 ≤ 4)
    (follows : Follows s head bytes) : fwStage head bytes p s =
    if (keptOf s head).2.length + bytes.length = (keptOf s head).1 then
      stageVerify (fld head 0 8) p.cmd.mailbox.val ((keptOf s head).2 ++ bytes) s
    else ok (setSec (fun x => { x with
      staging := tset x.staging (fld head 0 8) ((keptOf s head).1, (keptOf s head).2 ++ bytes) }) s) := by
  have known : ¬ (fld head 0 8 = 0 ∨ 4 < fld head 0 8) := by omega
  obtain ⟨at_, total, within, some_⟩ := follows
  have kept : (if (fld head 32 32 == 0) = true then (fld head 64 32, []) else tget s.sec.staging (fld head 0 8) (0, [])) =
      keptOf s head := by simp [keptOf]
  simp only [fwStage, Bool.or_eq_true, beq_iff_eq, decide_eq_true_eq, known, if_false]
  simp only [← beq_iff_eq (a := fld head 32 32) (b := 0), kept]
  rw [if_neg (by simp [← at_, ← total, some_]; omega)]
  simp [total]

/-- The last segment of an image that passes its checks. -/
theorem stageVerify_good {kind mailbox : Nat} {bs : List Byte} (good : refusal s kind bs = none) :
    stageVerify kind mailbox bs s = (.done { st := stDone, r0 := imgRelease (imgHead bs), r1 := imgSvn (imgHead bs) },
      setSec (fun x => { x with
        staging := tdel x.staging kind
        staged := if kind = 2 ∨ kind = 3 then tset x.staged kind (imageOf bs) else x.staged }) s) := by
  unfold stageVerify
  dsimp only
  rw [refusal_staging, good]
  by_cases loaded : kind = 2 ∨ kind = 3
  · simp [loaded, setSec]
  · simp [loaded, setSec]

/-- The last segment of an image that fails one. -/
theorem stageVerify_bad {kind mailbox why : Nat} {bs : List Byte} (bad : refusal s kind bs = some why) :
    stageVerify kind mailbox bs s =
      reply stDenied (imageRefused kind mailbox why (setSec (fun x => { x with staging := tdel x.staging kind }) s)) := by
  unfold stageVerify
  dsimp only
  rw [refusal_staging, bad]

/-! ### FW_ACTIVATE -/

/-- The staged images that Keeper loads. -/
def loadedOf (s : State) : Table Image := s.sec.staged.filter (fun x => x.1 == 2 || x.1 == 3)

def imageLoaded (x : Nat × Image) (s : State) : State :=
  setMeasured (x.1 + 1) x.2.digest (setSec (fun y => { y with images := tset y.images x.1 x.2 }) s)

theorem swapImages_eq (s : State) : swapImages s =
    let u := forEach (loadedOf s) imageLoaded s
    capBump (setSec (fun x => { x with staged := [] }) { u with porter := { u.porter with porter := 1 } }) := rfl

/-- The measurements and images that are loaded are all that loading changes. -/
theorem imagesLoaded_frame (l : Table Image) (s : State) : forEach l imageLoaded s = { s with sec := { s.sec with
    images := (forEach l imageLoaded s).sec.images, measured := (forEach l imageLoaded s).sec.measured } } := by
  refine forEach_keeps (P := fun u => u = { s with sec := { s.sec with images := u.sec.images, measured := u.sec.measured } }) s
    (fun x _ u h => ?_) rfl
  unfold imageLoaded setMeasured setSec
  rw [h]

theorem capBump_frame (s : State) : capBump s = { s with cap := (capBump s).cap } := by
  unfold capBump
  split <;> rfl

/-- The state in which the staged images have been loaded. -/
structure Swapped (s t : State) : Prop where
  porter : t.porter.porter = 1
  staged : t.sec.staged = []
  counted : s.log.next ≤ t.log.next
  only : ∀ k i, (k = 2 ∨ k = 3) → s.sec.staged = [(k, i)] → tfind? t.sec.images k = some i ∧ tget t.sec.measured (k + 1) 0 = i.digest

theorem swapImages_swapped (s : State) : Swapped s (swapImages s) := by
  rw [swapImages_eq]
  dsimp only
  rw [capBump_frame]
  refine ⟨rfl, rfl, ?_, fun k i loaded staged => ?_⟩
  · show s.log.next ≤ (forEach (loadedOf s) imageLoaded s).log.next
    rw [imagesLoaded_frame]
  · have one : loadedOf s = [(k, i)] := by simp [loadedOf, staged, loaded]
    show tfind? (forEach (loadedOf s) imageLoaded s).sec.images k = _ ∧ tget (forEach (loadedOf s) imageLoaded s).sec.measured (k + 1) 0 = _
    rw [one]
    simp [forEach, imageLoaded, setMeasured, setSec]

/-- The work that Porter has taken ends before the swap. -/
theorem endTaken_winds (s : State) : Winds s (endTaken s) := finishAll_winds _ _ rfl s

/-- Keeper's note of a swap outside a step. -/
def swapArgs (s : State) : List (Nat × Nat) :=
  [a2 (imageRel s 2), a2 (imageRel s 3), a2 (imageSvn s 2), a2 (imageSvn s 3), a8 0]

theorem swapNow_does (free : swapBlocked s = false) : Swapped s (swapNow 0 s) ∧ Logged 0x7102 (swapArgs (swapNow 0 s)) s (swapNow 0 s) := by
  have taken := endTaken_winds s
  have swapped := swapImages_swapped (endTaken s)
  obtain ⟨u, hu, eq⟩ : ∃ u, u = swapImages (endTaken s) ∧ swapNow 0 s =
      finishAll (raiseMgmt 0x7102 (swapArgs u) u).porter.outstanding.length isFwWait { st := stDone, r0 := 0 }
        (raiseMgmt 0x7102 (swapArgs u) u) := by
    refine ⟨_, rfl, ?_⟩
    unfold swapNow
    rw [if_neg (by simp [free])]
    rfl
  rw [← hu] at swapped
  have raised := raiseMgmt_winds 0x7102 (swapArgs u) u
  have logged : Logged 0x7102 (swapArgs u) u (raiseMgmt 0x7102 (swapArgs u) u) := raise_logged ..
  have ends := finishAll_winds (raiseMgmt 0x7102 (swapArgs u) u).porter.outstanding.length isFwWait (r := { st := stDone, r0 := 0 }) rfl
    (raiseMgmt 0x7102 (swapArgs u) u)
  have answers := Towers.finishAll_onlyAnswers (raiseMgmt 0x7102 (swapArgs u) u).porter.outstanding.length isFwWait
    (r := { st := stDone, r0 := 0 }) rfl (raiseMgmt 0x7102 (swapArgs u) u)
  rw [← eq] at ends answers
  have all := raised.trans ends
  have counted : s.log.next ≤ u.log.next := Nat.le_trans taken.counted swapped.counted
  have args : swapArgs (swapNow 0 s) = swapArgs u := by simp only [swapArgs, imageRel, imageSvn, all.sec]
  refine ⟨⟨all.porter.trans swapped.porter, all.sec ▸ swapped.staged, Nat.le_trans counted all.counted, fun k i loaded staged => ?_⟩, ?_⟩
  · rw [all.sec]
    exact swapped.only k i loaded (by rw [taken.sec]; exact staged)
  · rw [args]
    exact logged_since counted (logged_of_log (by rw [answers]) logged)

/-- What is staged alone is all that is staged. -/
theorem eq_singleton_of_tfind? {α : Type} {t : Table α} {k : Nat} {a : α} (found : tfind? t k = some a) (one : t.length = 1) :
    t = [(k, a)] := by
  obtain ⟨x, rfl⟩ := List.length_eq_one_iff.mp one
  rw [List.mem_singleton.mp (Towers.mem_of_tfind? found)]

/-- The bytes of an event's arguments. -/
theorem take_fit {l : List Byte} {n : Nat} (len : l.length = n) (le : n ≤ 40) : (fit 40 0 l).take n = l := by
  subst len
  unfold fit
  rw [List.take_of_length_le le, List.take_left']
  rfl

/-! ### OWNER_KEY and POLICY_SET -/

/-- The digest of a new owner key is fused; images that it has not signed are discarded (17 R466). -/
def keyFused (h : BitVec 512) (s : State) : State :=
  let u := setSec (fun x => { x with
    ownerKeys := x.ownerKeys ++ [h], staged := x.staged.filter (fun i => i.2.owner == some h) }) s
  capBump (setMeasured 5 (hwMeasurement u) u)

theorem keyFused_does (h : BitVec 512) (s : State) : (keyFused h s).sec.ownerKeys = s.sec.ownerKeys ++ [h] ∧
    (keyFused h s).sec.staged = s.sec.staged.filter (fun i => i.2.owner == some h) ∧ (keyFused h s).log = s.log ∧
    (keyFused h s).porter = s.porter := by
  unfold keyFused
  dsimp only
  rw [capBump_frame]
  exact ⟨rfl, rfl, rfl, rfl⟩

theorem ownerKey_taken {key sig : List Byte} {inForce : Option (List Byte)} {p : Pending} (few : s.sec.ownerKeys.length < 3)
    (len : key.length = 133) (good : Config.ecdsaVerify key (keyMessage s key) sig = true)
    (signed : keyInForceSigned s key inForce = true) : ownerKey key sig inForce p s =
      ok (raiseMgmt 0x7105 [a2 s.sec.ownerKeys.length] (keyFused (Config.sha512 key) s)) := by
  unfold ownerKey
  dsimp only
  rw [if_neg (Nat.not_le.mpr few), if_neg (by simp [len, good]), if_neg (by simp [signed])]
  rfl

theorem ownerKey_denied {key sig : List Byte} {inForce : Option (List Byte)} {p : Pending}
    (bad : 3 ≤ s.sec.ownerKeys.length ∨ key.length ≠ 133 ∨ Config.ecdsaVerify key (keyMessage s key) sig = false ∨
      keyInForceSigned s key inForce = false) : ∃ why, ownerKey key sig inForce p s = trustDenied 0x0803 why s := by
  unfold ownerKey
  dsimp only
  split
  · exact ⟨2, rfl⟩
  · next few =>
    split
    · exact ⟨0, rfl⟩
    · next verified =>
      refine ⟨1, if_pos ?_⟩
      simp only [Bool.or_eq_true, bne_iff_ne, ne_eq, Bool.not_eq_true', not_or, not_not] at verified
      rcases bad with many | len | unsigned | unsigned
      · exact absurd many few
      · exact absurd verified.1 len
      · rw [unsigned] at verified
        exact absurd verified.2 (by simp)
      · simp [unsigned]

/-- What decides a policy record: its signer, its serial number, its number and the least SVNs. -/
def PolicyGood (s : State) (r : BitVec 512) (key sig : List Byte) : Prop :=
  policySigner s key = true ∧ Config.ecdsaVerify key (recBytes r) sig = true ∧ fld r 448 64 = Config.deviceSerial.toNat ∧
  fld s.sec.policy 416 32 < fld r 416 32 ∧ ∀ k, k = 1 ∨ k = 2 ∨ k = 3 → polMin r k ≤ imageSvn s k

theorem policySet_denied {r : BitVec 512} {key sig : List Byte} {p : Pending} (zero : fld r 32 364 = 0) (crc : recCrcOk r = true)
    (bad : ¬ PolicyGood s r key sig) : ∃ why, policySet r key sig p s = trustDenied 0x0804 why s := by
  unfold policySet
  rw [if_neg (by simp [zero, crc])]
  split
  · exact ⟨0, rfl⟩
  · next signed =>
    split
    · exact ⟨1, rfl⟩
    · next mine =>
      split
      · exact ⟨2, rfl⟩
      · next later =>
        refine ⟨3, if_pos ?_⟩
        by_contra enough
        refine bad ⟨?_, ?_, ?_, Nat.not_le.mp later, ?_⟩
        · simp at signed; exact signed.1
        · simp at signed; exact signed.2
        · simpa using mine
        · simpa using enough

/-- A counter blown up to its MIN_SVN, and nothing else but the event. -/
theorem raiseCounter_does (r : BitVec 512) (k : Nat) (s : State) :
    (∀ j, counterOf (raiseCounter r k s) j = if j = k then max (counterOf s k) (polMin r k) else counterOf s j) ∧
    s.log.next ≤ (raiseCounter r k s).log.next ∧ (∀ n, mbAt (raiseCounter r k s) n = mbAt s n) := by
  unfold raiseCounter
  split
  · next less =>
    refine ⟨fun j => ?_, ?_, fun n => ?_⟩
    · show max _ (tget (tset s.sec.counters k (polMin r k)) j 0) = _
      rw [tget_tset]
      unfold counterOf at *
      split
      · next same => subst same; omega
      · rfl
    · exact (raiseMgmt_winds ..).counted
    · exact mbAt_raise ..
  · next enough =>
    refine ⟨fun j => ?_, Nat.le_refl _, fun n => rfl⟩
    split
    · next same => subst same; omega
    · rfl

/-- The three counters. -/
theorem raiseCounters_does (r : BitVec 512) (s : State) :
    (∀ k, k = 1 ∨ k = 2 ∨ k = 3 → counterOf (forEach [1, 2, 3] (raiseCounter r) s) k = max (counterOf s k) (polMin r k)) ∧
    s.log.next ≤ (forEach [1, 2, 3] (raiseCounter r) s).log.next ∧
    (∀ n, mbAt (forEach [1, 2, 3] (raiseCounter r) s) n = mbAt s n) := by
  show (∀ k, _ → counterOf (raiseCounter r 3 (raiseCounter r 2 (raiseCounter r 1 s))) k = _) ∧
    s.log.next ≤ (raiseCounter r 3 (raiseCounter r 2 (raiseCounter r 1 s))).log.next ∧ _
  obtain ⟨c1, n1, m1⟩ := raiseCounter_does r 1 s
  obtain ⟨c2, n2, m2⟩ := raiseCounter_does r 2 (raiseCounter r 1 s)
  obtain ⟨c3, n3, m3⟩ := raiseCounter_does r 3 (raiseCounter r 2 (raiseCounter r 1 s))
  refine ⟨fun k known => ?_, by omega, fun n => (m3 n).trans ((m2 n).trans (m1 n))⟩
  rcases known with rfl | rfl | rfl
  · simp [c3, c2, c1]
  · simp [c3, c2, c1]
  · simp [c3, c2, c1]

/-- The counters are blown up, and the record is in force (17 R474). -/
def policyTaken (r : BitVec 512) (s : State) : State :=
  let u := forEach [1, 2, 3] (raiseCounter r) s
  setMeasured 6 r (setMeasured 5 (hwMeasurement u) (setSec (fun x => { x with policy := r }) u))

theorem policyTaken_does (r : BitVec 512) (s : State) : (policyTaken r s).sec.policy = r ∧
    (∀ k, k = 1 ∨ k = 2 ∨ k = 3 → counterOf (policyTaken r s) k = max (counterOf s k) (polMin r k)) ∧
    s.log.next ≤ (policyTaken r s).log.next ∧ ∀ n, mbAt (policyTaken r s) n = mbAt s n := by
  unfold policyTaken
  obtain ⟨counters, counted, mailboxes⟩ := raiseCounters_does r s
  generalize forEach [1, 2, 3] (raiseCounter r) s = u at *
  exact ⟨rfl, counters, counted, mailboxes⟩

theorem policySet_taken {r : BitVec 512} {key sig : List Byte} {p : Pending} (zero : fld r 32 364 = 0) (crc : recCrcOk r = true)
    (good : PolicyGood s r key sig) : policySet r key sig p s = ok (raiseMgmt 0x7106 [a4 (fld r 416 32)] (policyTaken r s)) := by
  obtain ⟨signer, signed, mine, later, enough⟩ := good
  unfold policySet
  rw [if_neg (by simp [zero, crc]), if_neg (by simp [signer, signed]), if_neg (by simp [mine]), if_neg (Nat.not_le.mpr later),
    if_neg (by simpa using enough)]
  rfl

/-! ### The orders -/

/-- The meaning's event, and the completion index of the mailbox, where the meaning only raises an event. -/
theorem posted_of_raised {code n : Nat} {c : Cmd} {subs : List Subject} {r : Reply} {args : List (Nat × Nat)} {u t : State}
    (d : Done code c r s (raiseMgmt n args u) t) (same : mbAt u c.mailbox.val = mbAt (takenState code c subs s) c.mailbox.val) :
    Posted code c r s t :=
  d.posted (by rw [show mbAt (raiseMgmt n args u) c.mailbox.val = _ from mbAt_raise .., same, cqTail_takenState])

/-- An order that is denied for what it is signed with: its event, and nothing of security changes. -/
theorem trustDenied_does {code why : Nat} {c : Cmd} {subs : List Subject} {h : Handler} (p : Passes code c subs s) (lt : code < 65536)
    (denied : h (pendingOf code c s) (takenState code c subs s) = trustDenied code why (takenState code c subs s)) :
    Posted code c { st := stDenied } s (order code c subs h s) ∧ (order code c subs h s).sec = s.sec ∧
    ∃ e ∈ (order code c subs h s).log.entries, s.log.next ≤ e.seq ∧ e.code = 0x7107 ∧ e.args.take 2 = bytesLE 2 code := by
  have d := order_done p lt denied rfl (by decide)
  obtain ⟨e, mem, since, isCode, args⟩ := d.logged (logged_since (s := s) (Nat.le_refl _) (raise_logged ..))
  refine ⟨posted_of_raised d rfl, d.sec, e, mem, since, isCode, ?_⟩
  rw [args]
  show ((fit 40 0 (bytesLE 2 code ++ _)).take 2) = _
  unfold fit
  simp [List.take_append, length_bytesLE]

/-! ### FW_STAGE -/

/-- A segment whose KIND is reserved, or that does not follow. -/
theorem fwStage_refused {c : Cmd} {head : BitVec 128} {bytes : List Byte} (p : Passes 0x0801 c [.firmware] s) (trust : trustGone s = false)
    (bad : fld head 0 8 = 0 ∨ 4 < fld head 0 8 ∨ ¬ Follows s head bytes) :
    Gives 0x0801 c { st := stBadArg, detail := 0x8000 } s s (order 0x0801 c [.firmware] (trusted (fwStage head bytes)) s) := by
  refine order_refused p (by decide) ((trusted_taken trust).trans ?_) rfl
  by_cases reserved : fld head 0 8 = 0 ∨ 4 < fld head 0 8
  · exact fwStage_reserved reserved
  · have astray : ¬ Follows (takenState 0x0801 c [.firmware] s) head bytes := by
      rcases bad with bad | bad | bad
      · exact absurd (.inl bad) reserved
      · exact absurd (.inr bad) reserved
      · exact bad
    exact fwStage_astray (by omega) (by omega) astray

/-- A segment that follows, and is not the last. -/
theorem fwStage_keeps {c : Cmd} {head : BitVec 128} {bytes : List Byte} (p : Passes 0x0801 c [.firmware] s) (trust : trustGone s = false)
    (ge : 1 ≤ fld head 0 8) (le : fld head 0 8 ≤ 4) (follows : Follows s head bytes)
    (more : (keptOf s head).2.length + bytes.length < (keptOf s head).1) :
    Gives 0x0801 c { st := stDone } (setSec (fun x => { x with
        staging := tset x.staging (fld head 0 8) ((keptOf s head).1, (keptOf s head).2 ++ bytes) }) s) s
      (order 0x0801 c [.firmware] (trusted (fwStage head bytes)) s) := by
  have meaning := fwStage_follows (s := takenState 0x0801 c [.firmware] s) (p := pendingOf 0x0801 c s) ge le follows
  rw [keptOf_taken, if_neg (Nat.ne_of_lt more)] at meaning
  refine order_gives s p (by decide) ((trusted_taken trust).trans meaning) rfl ⟨rfl, (takenState_but s 0x0801 c [.firmware]).2⟩ rfl
    (fun bad => absurd bad (by decide))

/-- What the last segment leaves of an image that passes its checks. -/
def imageStaged (kind : Nat) (bs : List Byte) (x : Security) : Security :=
  { x with
    staging := tdel x.staging kind
    staged := if kind = 2 ∨ kind = 3 then tset x.staged kind (imageOf bs) else x.staged }

/-- The last segment of an image. -/
theorem fwStage_verifies {c : Cmd} {head : BitVec 128} {bytes : List Byte}
    (trust : trustGone s = false) (ge : 1 ≤ fld head 0 8) (le : fld head 0 8 ≤ 4) (follows : Follows s head bytes)
    (all : (keptOf s head).2.length + bytes.length = (keptOf s head).1) :
    trusted (fwStage head bytes) (pendingOf 0x0801 c s) (takenState 0x0801 c [.firmware] s) =
      stageVerify (fld head 0 8) c.mailbox.val ((keptOf s head).2 ++ bytes) (takenState 0x0801 c [.firmware] s) := by
  have meaning := fwStage_follows (s := takenState 0x0801 c [.firmware] s) (p := pendingOf 0x0801 c s) ge le follows
  rw [keptOf_taken, if_pos all] at meaning
  exact (trusted_taken trust).trans meaning

theorem fwStage_accepts {c : Cmd} {h : Handler} {kind : Nat} {bs : List Byte} (p : Passes 0x0801 c [.firmware] s)
    (last : h (pendingOf 0x0801 c s) (takenState 0x0801 c [.firmware] s) =
      stageVerify kind c.mailbox.val bs (takenState 0x0801 c [.firmware] s)) (good : refusal s kind bs = none) :
    Gives 0x0801 c { st := stDone, r0 := imgRelease (imgHead bs), r1 := imgSvn (imgHead bs) } (setSec (imageStaged kind bs) s) s
      (order 0x0801 c [.firmware] h s) :=
  order_gives s p (by decide) (last.trans (stageVerify_good ((refusal_of_sec rfl rfl rfl kind bs).trans good))) rfl
    ⟨rfl, (takenState_but s 0x0801 c [.firmware]).2⟩ rfl (fun bad => absurd bad (show stDone ≠ stBadArg by decide))

theorem fwStage_denies {c : Cmd} {h : Handler} {kind why : Nat} {bs : List Byte} (p : Passes 0x0801 c [.firmware] s)
    (last : h (pendingOf 0x0801 c s) (takenState 0x0801 c [.firmware] s) =
      stageVerify kind c.mailbox.val bs (takenState 0x0801 c [.firmware] s)) (bad : refusal s kind bs = some why) :
    Posted 0x0801 c { st := stDenied } s (order 0x0801 c [.firmware] h s) ∧
    (order 0x0801 c [.firmware] h s).sec = { s.sec with staging := tdel s.sec.staging kind } ∧
    Logged 0x7101 [a2 kind, a2 c.mailbox.val, a2 why] s (order 0x0801 c [.firmware] h s) := by
  have d := order_done p (by decide) (last.trans (stageVerify_bad ((refusal_of_sec rfl rfl rfl kind bs).trans bad))) rfl (by decide)
  exact ⟨posted_of_raised d rfl, d.sec, d.logged (logged_since (s := s) (Nat.le_refl _) (raise_logged ..))⟩

/-! ### FW_ACTIVATE -/

/-- An activation that waits for the boundary. -/
def activationQueued (s : State) : State :=
  { s with steps := { s.steps with actions := s.steps.actions.filter (fun a => !(a == Boundary.fwActivate)) ++ [.fwActivate] } }

theorem fwActivate_open {p : Pending} (open_ : stepOpen s = true) (some_ : s.sec.staged ≠ []) :
    fwActivate p s = (.wait .fwActivate, activationQueued s) := by
  simp [fwActivate, open_, some_, activationQueued]

theorem fwActivate_waits {c : Cmd} (p : Passes 0x0802 c [.firmware] s) (trust : trustGone s = false) (open_ : stepOpen s = true)
    (some_ : s.sec.staged ≠ []) :
    WaitsFor 0x0802 c .fwActivate (activationQueued s) s (order 0x0802 c [.firmware] (trusted fwActivate) s) :=
  order_waits s p (by decide) ((trusted_taken trust).trans (fwActivate_open open_ some_))
    ⟨rfl, (takenState_but s 0x0802 c [.firmware]).2⟩

/-- Nothing staged at an open step, or work under way outside one. -/
theorem fwActivate_bad {p : Pending} (bad : stepOpen s = true ∧ s.sec.staged = [] ∨ stepOpen s = false ∧ swapBlocked s = true) :
    fwActivate p s = reply stWrongState s := by
  rcases bad with ⟨open_, none_⟩ | ⟨shut, blocked⟩
  · simp [fwActivate, open_, none_]
  · simp [fwActivate, shut, blocked]

theorem fwActivate_refused {c : Cmd} (p : Passes 0x0802 c [.firmware] s) (trust : trustGone s = false)
    (bad : stepOpen s = true ∧ s.sec.staged = [] ∨ stepOpen s = false ∧ swapBlocked s = true) :
    Gives 0x0802 c { st := stWrongState } s s (order 0x0802 c [.firmware] (trusted fwActivate) s) :=
  order_refused p (by decide)
    ((trusted_taken trust).trans (fwActivate_bad (s := takenState 0x0802 c [.firmware] s) bad)) rfl

theorem fwActivate_swaps {c : Cmd} (p : Passes 0x0802 c [.firmware] s) (trust : trustGone s = false) (shut : stepOpen s = false)
    (free : swapBlocked s = false) : Done 0x0802 c { st := stDone } s (swapNow 0 (takenState 0x0802 c [.firmware] s))
      (order 0x0802 c [.firmware] (trusted fwActivate) s) := by
  refine order_done p (by decide) ((trusted_taken trust).trans ?_) rfl (by decide)
  unfold fwActivate
  rw [show stepOpen (takenState 0x0802 c [.firmware] s) = false from shut,
    show swapBlocked (takenState 0x0802 c [.firmware] s) = false from free]
  rfl

/-- The swap outside a step, as the order leaves it. -/
theorem fwActivate_swapped {c : Cmd} {t : State}
    (d : Done 0x0802 c { st := stDone } s (swapNow 0 (takenState 0x0802 c [.firmware] s)) t) (free : swapBlocked s = false) :
    t.porter.porter = 1 ∧ t.sec.staged = [] ∧ (∀ k, k = 2 ∨ k = 3 → ∀ i, tfind? s.sec.staged k = some i → s.sec.staged.length = 1 →
      tfind? t.sec.images k = some i ∧ tget t.sec.measured (k + 1) 0 = i.digest) ∧
    ∃ e ∈ t.log.entries, s.log.next ≤ e.seq ∧ e.code = 0x7102 ∧ e.args.take 16 =
      bytesLE 2 (imageRel t 2) ++ bytesLE 2 (imageRel t 3) ++ bytesLE 2 (imageSvn t 2) ++ bytesLE 2 (imageSvn t 3) ++ bytesLE 8 0 := by
  obtain ⟨swapped, logged⟩ := swapNow_does (s := takenState 0x0802 c [.firmware] s) free
  refine ⟨d.porter.trans swapped.porter, d.sec ▸ swapped.staged, fun k loaded i staged one => ?_, ?_⟩
  · rw [d.sec]
    exact swapped.only k i loaded (eq_singleton_of_tfind? staged one)
  · obtain ⟨e, mem, since, code, args⟩ := d.logged (logged_since (s := s) (Nat.le_refl _) logged)
    refine ⟨e, mem, since, code, ?_⟩
    rw [args]
    refine (take_fit (n := 16) ?_ (by decide)).trans ?_
    · simp [swapArgs, a2, a8, length_bytesLE]
    · simp only [swapArgs, imageRel, imageSvn, d.sec, a2, a8, List.flatMap_cons, List.flatMap_nil, List.append_nil, List.append_assoc]

/-! ### OWNER_KEY, POLICY_SET and ZEROISE -/

theorem ownerKey_does {c : Cmd} {key sig : List Byte} {inForce : Option (List Byte)} (p : Passes 0x0803 c [.firmware] s)
    (trust : trustGone s = false) (few : s.sec.ownerKeys.length < 3) (len : key.length = 133)
    (good : Config.ecdsaVerify key (keyMessage s key) sig = true) (signed : keyInForceSigned s key inForce = true) {t : State}
    (ht : t = order 0x0803 c [.firmware] (trusted (ownerKey key sig inForce)) s) : Posted 0x0803 c { st := stDone } s t ∧
      t.sec.ownerKeys = s.sec.ownerKeys ++ [Config.sha512 key] ∧
      (∀ k i, tfind? t.sec.staged k = some i → i.owner = some (Config.sha512 key)) ∧ Logged 0x7105 [a2 s.sec.ownerKeys.length] s t := by
  subst ht
  obtain ⟨keys, staged, log, porter⟩ := keyFused_does (Config.sha512 key) (takenState 0x0803 c [.firmware] s)
  have d := order_done p (by decide) ((trusted_taken trust).trans
    (ownerKey_taken (s := takenState 0x0803 c [.firmware] s) (p := pendingOf 0x0803 c s) few len good signed)) rfl (by decide)
  have sec := d.sec.trans (raiseMgmt_winds ..).sec
  refine ⟨posted_of_raised d (by unfold mbAt; rw [porter]), by rw [sec, keys]; rfl, fun k i found => ?_,
    d.logged (logged_since (s := s) (Nat.le_of_eq (congrArg Log.next log.symm)) (raise_logged ..))⟩
  have mem := Towers.mem_of_tfind? found
  rw [sec, staged] at mem
  simpa using (List.mem_filter.mp mem).2

theorem policySet_does {c : Cmd} {r : BitVec 512} {key sig : List Byte} (p : Passes 0x0804 c [.firmware] s)
    (trust : trustGone s = false) (zero : fld r 32 364 = 0) (crc : recCrcOk r = true) (good : PolicyGood s r key sig) {t : State}
    (ht : t = order 0x0804 c [.firmware] (trusted (policySet r key sig)) s) : Posted 0x0804 c { st := stDone } s t ∧ t.sec.policy = r ∧
      (∀ k, k = 1 ∨ k = 2 ∨ k = 3 → counterOf t k = max (counterOf s k) (polMin r k)) ∧ Logged 0x7106 [a4 (fld r 416 32)] s t := by
  subst ht
  have does := policyTaken_does r (takenState 0x0804 c [.firmware] s)
  have d := order_done p (by decide) ((trusted_taken trust).trans
    (policySet_taken (s := takenState 0x0804 c [.firmware] s) (p := pendingOf 0x0804 c s) zero crc good)) rfl (by decide)
  obtain ⟨u, same⟩ : ∃ u, u = policyTaken r (takenState 0x0804 c [.firmware] s) := ⟨_, rfl⟩
  rw [← same] at does d
  obtain ⟨policy, counters, counted, mailboxes⟩ := does
  have sec := d.sec.trans (raiseMgmt_winds ..).sec
  refine ⟨posted_of_raised d (mailboxes _), by rw [sec, policy], fun k known => ?_, d.logged (logged_since (s := s) counted (raise_logged ..))⟩
  refine Eq.trans ?_ (counters k known)
  unfold counterOf
  rw [sec]

theorem cmdZeroise_does {c : Cmd} (p : Passes 0x0805 c [.firmware] s) (alive : keeperAlive s = true) {t : State}
    (ht : t = order 0x0805 c [.firmware] (fun p s => ok (zeroise p.cmd.mailbox.val s)) s) : Answered 0x0805 c { st := stDone } s t ∧
      t.sec.secrets = false ∧ t.sec.zeroised = true ∧ t.sec.staging = [] ∧ t.sec.staged = [] ∧ t.sec.sessions = [] ∧
      trustGone t = true ∧ Boundary.fwActivate ∉ t.steps.actions ∧ Logged 0x7202 [a2 c.mailbox.val] s t := by
  have d : Done 0x0805 c { st := stDone } s (zeroise c.mailbox.val (takenState 0x0805 c [.firmware] s)) t :=
    ht ▸ order_done p (by decide) rfl rfl (by decide)
  have erases := zeroise_erases c.mailbox.val (takenState 0x0805 c [.firmware] s)
  have sec := d.sec.trans erases.sec
  have zeroised : t.sec.zeroised = true := congrArg Security.zeroised sec
  refine ⟨d.answered, congrArg Security.secrets sec, zeroised, congrArg Security.staging sec,
    congrArg Security.staged sec, congrArg Security.sessions sec, ?_, ?_, ?_⟩
  · simp [trustGone, zeroised]
  · rw [d.steps]
    exact erases.actions
  · exact d.logged (logged_since (s := s) (Nat.le_refl _) (zeroise_logged c.mailbox.val alive))

end

/-- Settles O51: each order by its checks, and what it leaves by the effect of the last. -/
theorem firmwareOrders : Obligations.FirmwareOrders := by
  unfold Obligations.FirmwareOrders
  intro s c
  refine ⟨fun p trust head bytes => ⟨fun bad => ⟨_, rfl, fwStage_refused p trust bad⟩,
      fun ge le follows more => ⟨_, rfl, fwStage_keeps p trust ge le follows more⟩, fun ge le follows all => ⟨_, rfl, ?_⟩⟩,
    fun p trust => ⟨fun open_ some_ => ⟨_, rfl, ?_⟩, fun open_ none_ => ⟨_, rfl, fwActivate_refused p trust (.inl ⟨open_, none_⟩)⟩,
      fun shut blocked => ⟨_, rfl, fwActivate_refused p trust (.inr ⟨shut, blocked⟩)⟩, fun shut free => ⟨_, rfl, ?_⟩⟩,
    fun p trust key sig inForce => ⟨_, rfl, fun ⟨few, len, good, signed⟩ => ownerKey_does p trust few len good signed rfl, fun bad => ?_⟩,
    fun p trust r key sig zero crc => ⟨_, rfl, fun good => policySet_does p trust zero crc good rfl, fun bad => ?_⟩,
    fun p gone => ⟨_, rfl, order_refused p (by decide) (if_pos gone) rfl⟩, fun p alive => ⟨_, rfl, cmdZeroise_does p alive rfl⟩⟩
  · have last := fwStage_verifies (c := c) trust ge le follows all
    show match refusal s (fld head 0 8) ((keptOf s head).2 ++ bytes) with
      | none => _
      | some why => _
    cases verdict : refusal s (fld head 0 8) ((keptOf s head).2 ++ bytes) with
    | none => exact fwStage_accepts p last verdict
    | some why =>
      obtain ⟨posted, sec, logged⟩ := fwStage_denies p last verdict
      refine ⟨posted, by rw [sec], ?_, logged⟩
      rw [sec]
      exact (tfind?_tdel ..).trans (if_pos rfl)
  · have waits := fwActivate_waits p trust open_ some_
    have actions := congrArg (fun x : State => x.steps.actions) waits.2.1.1
    dsimp only at actions
    exact ⟨actions ▸ List.mem_append_right _ List.mem_cons_self, actions ▸ waits⟩
  · have d := fwActivate_swaps p trust shut free
    exact ⟨d.answered, fwActivate_swapped d free⟩
  · obtain ⟨why, denied⟩ := ownerKey_denied (s := takenState 0x0803 c [.firmware] s) (p := pendingOf 0x0803 c s) bad
    exact trustDenied_does p (by decide) ((trusted_taken trust).trans denied)
  · obtain ⟨why, denied⟩ := policySet_denied (s := takenState 0x0804 c [.firmware] s) (p := pendingOf 0x0804 c s) zero crc bad
    exact trustDenied_does p (by decide) ((trusted_taken trust).trans denied)

end Sys2Proof.Keeper
end

