-- ==== Sys2Proof/Proofs/Limits.lean ====
section
/-! PROOFS. Limits, ceilings and the last line are set; towers are gated (13 R366 to R368, 14 R388 to R390, 15 R400, R406, R409,
R422; O49). -/

namespace Sys2Proof.Limits

open Sys2Proof.Machine Sys2Proof.Safety Sys2Proof.Laws Sys2Proof.Endings Sys2Proof.Orders

section
variable {s : State}

/-! ### A setting -/

/-- The baseboard's limits: each set with its sender, where its value changes. -/
theorem putSetting_sustain (v : Nat) (by_ : Setter) (s : State) : putSetting 0 v by_ s = { s with
    gov := { s.gov with sustain := v }
    porter := { s.porter with sustainSetter := if s.gov.sustain = v then s.porter.sustainSetter else by_ } } := by
  unfold putSetting
  split
  · next same =>
    obtain rfl : s.gov.sustain = v := by simpa [settingAt] using same
    rw [if_pos rfl]
  · next other => rw [if_neg (show ¬ s.gov.sustain = v by simpa [settingAt] using other)]

theorem putSetting_peak (v : Nat) (by_ : Setter) (s : State) : putSetting 1 v by_ s = { s with
    gov := { s.gov with peak := v }
    porter := { s.porter with peakSetter := if s.gov.peak = v then s.porter.peakSetter else by_ } } := by
  unfold putSetting
  split
  · next same =>
    obtain rfl : s.gov.peak = v := by simpa [settingAt] using same
    rw [if_pos rfl]
  · next other => rw [if_neg (show ¬ s.gov.peak = v by simpa [settingAt] using other)]

theorem putSetting_window (v : Nat) (by_ : Setter) (s : State) : putSetting 2 v by_ s = { s with
    gov := { s.gov with window := v }
    porter := { s.porter with windowSetter := if s.gov.window = v then s.porter.windowSetter else by_ } } := by
  unfold putSetting
  split
  · next same =>
    obtain rfl : s.gov.window = v := by simpa [settingAt] using same
    rw [if_pos rfl]
  · next other => rw [if_neg (show ¬ s.gov.window = v by simpa [settingAt] using other)]

/-- A tower's ceiling. -/
theorem putSetting_ceiling (t v : Nat) (by_ : Setter) (s : State) (lt : v < 16) :
    (towerGov (putSetting (t + 3) v by_ s) t).ceiling.toNat = v ∧
    (∀ k, k ≠ t → towerGov (putSetting (t + 3) v by_ s) k = towerGov s k) ∧
    (putSetting (t + 3) v by_ s).porter.mailboxes = s.porter.mailboxes := by
  unfold putSetting
  split
  · next same => exact ⟨by simpa [settingAt] using same, fun _ _ => rfl, rfl⟩
  · simp only [towerGov, capBump_gov, capBump_porter]
    refine ⟨?_, fun k ne => ?_, rfl⟩
    · simp [setTower, Nat.mod_eq_of_lt lt]
    · simp [setTower, ne]

theorem putSetting_limitOrders (f v : Nat) (by_ : Setter) (s : State) :
    (putSetting f v by_ s).porter.limitOrders = s.porter.limitOrders := by
  unfold putSetting
  split
  · rfl
  · split
    · rfl
    · rfl
    · rfl
    · rw [capBump_porter]
      rfl

/-! ### The settings of an order -/

/-- The settings of an order that stands alone in its pass. -/
def settingsPut (n : Nat) (fs : List (Nat × Nat)) (s : State) : State := forEach fs (fun x s => putSetting x.1 x.2 (setterOf n) s) s

theorem settingHolder_alone (alone : s.porter.limitOrders = []) (n f : Nat) : settingHolder s n f = none := by
  simp [settingHolder, alone]

theorem takeSetting_fold (n : Nat) (fs : List (Nat × Nat)) (s : State) (won : List Nat) (alone : s.porter.limitOrders = []) :
    fs.foldl (fun sw x => takeSetting n x.1 x.2 sw) (s, won) = (settingsPut n fs s, won ++ fs.map (·.1)) := by
  induction fs generalizing s won with
  | nil => simp [settingsPut]
  | cons x fs ih =>
    have one : takeSetting n x.1 x.2 (s, won) = (putSetting x.1 x.2 (setterOf n) s, won ++ [x.1]) := by
      simp [takeSetting, settingHolder_alone alone]
    rw [List.foldl_cons, one, ih _ _ ((putSetting_limitOrders ..).trans alone)]
    simp [settingsPut]

/-- An order that stands alone and relaxes nothing it may not: every setting is taken, and the order is noted. -/
theorem takeSettings_alone {code subject : Nat} {fs : List (Nat × Nat)} {p : Pending} (alone : s.porter.limitOrders = [])
    (free : ∀ x ∈ fs, relaxes s p.cmd.mailbox.val x.1 x.2 = false) : ∃ l, takeSettings code subject fs p s =
      ok { settingsPut p.cmd.mailbox.val fs s with
        porter := { (settingsPut p.cmd.mailbox.val fs s).porter with limitOrders := l } } := by
  have may : fs.any (fun x => relaxes s p.cmd.mailbox.val x.1 x.2) = false := by simpa using free
  unfold takeSettings
  simp only [may, takeSetting_fold _ fs s [] alone, Bool.false_eq_true, if_false, List.nil_append, List.length_map, beq_self_eq_true,
    if_true]
  split
  · exact ⟨_, rfl⟩
  · exact ⟨_, rfl⟩

/-- An order that would relax what its sender may not. -/
theorem takeSettings_denied {code subject : Nat} {fs : List (Nat × Nat)} {p : Pending} {x : Nat × Nat} (mem : x ∈ fs)
    (bad : relaxes s p.cmd.mailbox.val x.1 x.2 = true) :
    takeSettings code subject fs p s = denySafety p.cmd.mailbox.val code subject s := by
  unfold takeSettings
  rw [if_pos (List.any_eq_true.mpr ⟨x, mem, bad⟩)]

/-- What keeps an order from being denied for a setting (13 R368). -/
theorem relaxes_free {n f v : Nat} (may : settingAt s f < v → n = 64 ∨ setterAt s f = .owner) : relaxes s n f v = false := by
  unfold relaxes mayRelax
  by_cases less : settingAt s f < v
  · rcases may less with rfl | owner
    · simp
    · simp [owner]
  · simp [less]

/-! ### POWER_LIMITS -/

/-- The fields that an order names. -/
def limitFields (sustain peak window : Nat) : List (Nat × Nat) := [(0, sustain), (1, peak), (2, window)].filter (fun x => x.2 != 0)

/-- The limits of an order whose named fields have been taken. -/
def limitsSet (n sustain peak window : Nat) (s : State) : State := { s with
  gov := { s.gov with
    sustain := if sustain = 0 then s.gov.sustain else sustain
    peak := if peak = 0 then s.gov.peak else peak
    window := if window = 0 then s.gov.window else window }
  porter := { s.porter with
    sustainSetter := if sustain = 0 ∨ s.gov.sustain = sustain then s.porter.sustainSetter else setterOf n
    peakSetter := if peak = 0 ∨ s.gov.peak = peak then s.porter.peakSetter else setterOf n
    windowSetter := if window = 0 ∨ s.gov.window = window then s.porter.windowSetter else setterOf n } }

theorem settingsPut_limits (n sustain peak window : Nat) (s : State) :
    settingsPut n (limitFields sustain peak window) s = limitsSet n sustain peak window s := by
  unfold settingsPut limitFields limitsSet
  by_cases hs : sustain = 0
  · by_cases hp : peak = 0
    · by_cases hw : window = 0
      · simp [hs, hp, hw]
      · simp [hs, hp, hw, putSetting_window]
    · by_cases hw : window = 0
      · simp [hs, hp, hw, putSetting_peak]
      · simp [hs, hp, hw, putSetting_peak, putSetting_window]
  · by_cases hp : peak = 0
    · by_cases hw : window = 0
      · simp [hs, hp, hw, putSetting_sustain]
      · simp [hs, hp, hw, putSetting_sustain, putSetting_window]
    · by_cases hw : window = 0
      · simp [hs, hp, hw, putSetting_sustain, putSetting_peak]
      · simp [hs, hp, hw, putSetting_sustain, putSetting_peak, putSetting_window]

theorem powerLimits_fields {sustain peak window : Nat} {p : Pending} (gs : sustain = 0 ∨ (800 ≤ sustain ∧ sustain ≤ 3600))
    (gp : peak = 0 ∨ (3600 ≤ peak ∧ peak ≤ 4400)) (gw : window ≤ 10) :
    powerLimits sustain peak window p s = takeSettings 0x0601 0 (limitFields sustain peak window) p s := by
  unfold powerLimits
  rw [if_neg (by simp; omega), if_neg (by simp; omega), if_neg (by omega)]
  rfl

/-- An order taken notes no limits of its own yet. -/
theorem takenState_alone {code : Nat} {c : Cmd} {subs : List Subject} (alone : s.porter.limitOrders = []) :
    (takenState code c subs s).porter.limitOrders = [] := by
  show (if _ then s.porter.limitOrders else []) = []
  rw [alone]
  exact ite_self _

/-- The answer of an order whose meaning leaves the mailboxes as they were when it was taken. -/
theorem posted_of_same {code : Nat} {c : Cmd} {subs : List Subject} {r : Reply} {u t : State} (d : Done code c r s u t)
    (same : u.porter.mailboxes = (takenState code c subs s).porter.mailboxes) : Posted code c r s t :=
  d.posted (by unfold mbAt; rw [same]; exact cqTail_takenState code c subs s c.mailbox.val)

theorem raise_mailboxes (code plane die : Nat) (args : List (Nat × Nat)) (s : State) :
    (raise code plane die args s).porter.mailboxes = s.porter.mailboxes := raise_porter_mailboxes ..

/-- POWER_LIMITS that sets what it names. -/
theorem powerLimits_sets {c : Cmd} {sustain peak window : Nat} (p : Passes 0x0601 c [.limits] s) (alone : s.porter.limitOrders = [])
    (gs : sustain = 0 ∨ (800 ≤ sustain ∧ sustain ≤ 3600)) (gp : peak = 0 ∨ (3600 ≤ peak ∧ peak ≤ 4400)) (gw : window ≤ 10)
    (may : ∀ x ∈ limitFields sustain peak window, settingAt s x.1 < x.2 → c.mailbox.val = 64 ∨ setterAt s x.1 = .owner) :
    Gives 0x0601 c { st := stDone } (limitsSet c.mailbox.val sustain peak window s) s
      (order 0x0601 c [.limits] (powerLimits sustain peak window) s) := by
  have free : ∀ x ∈ limitFields sustain peak window, relaxes (takenState 0x0601 c [.limits] s) c.mailbox.val x.1 x.2 = false :=
    fun x mem => relaxes_free (may x mem)
  obtain ⟨l, meaning⟩ := takeSettings_alone (code := 0x0601) (subject := 0) (p := pendingOf 0x0601 c s) (takenState_alone alone) free
  rw [settingsPut_limits] at meaning
  exact order_gives s p (by decide) ((powerLimits_fields gs gp gw).trans meaning) rfl ⟨rfl, (takenState_but s 0x0601 c [.limits]).2⟩ rfl
    (fun bad => absurd bad (by decide))

/-- POWER_LIMITS that would relax SUSTAIN as the baseboard controller set it. -/
theorem powerLimits_denied {c : Cmd} {sustain peak window : Nat} (p : Passes 0x0601 c [.limits] s) (alone : s.porter.limitOrders = [])
    (gs : sustain = 0 ∨ (800 ≤ sustain ∧ sustain ≤ 3600)) (gp : peak = 0 ∨ (3600 ≤ peak ∧ peak ≤ 4400)) (gw : window ≤ 10)
    (other : c.mailbox.val ≠ 64) (more : s.gov.sustain < sustain) (baseboard : s.porter.sustainSetter = .baseboard) {t : State}
    (ht : t = order 0x0601 c [.limits] (powerLimits sustain peak window) s) : Posted 0x0601 c { st := stDenied } s t ∧ t.gov = s.gov ∧
      Logged 0x8302 [a2 c.mailbox.val, a2 0x0601, a2 0] s t := by
  subst ht
  have named : (0, sustain) ∈ limitFields sustain peak window := by
    simp [limitFields]
    omega
  have bad : relaxes (takenState 0x0601 c [.limits] s) c.mailbox.val 0 sustain = true := by
    unfold relaxes
    rw [settingHolder_alone (takenState_alone alone)]
    simp [settingAt, setterAt, mayRelax, other, show (takenState 0x0601 c [.limits] s).gov.sustain = s.gov.sustain from rfl, more,
      show (takenState 0x0601 c [.limits] s).porter.sustainSetter = s.porter.sustainSetter from rfl, baseboard]
  have d := order_done p (by decide) ((powerLimits_fields gs gp gw).trans
    (takeSettings_denied (p := pendingOf 0x0601 c s) named bad)) rfl (by decide)
  exact ⟨posted_of_same d (raise_mailboxes ..), d.gov.trans (raiseCtrl_winds ..).gov,
    d.logged (logged_since (s := s) (Nat.le_refl _) (raise_logged ..))⟩

/-! ### CAP_SHARE, PACE_CEILING and LAST_LINE -/

theorem capShare_good {ord floor : Nat} {p : Pending} (le : ord ≤ 5) (good : floor = 0 ∨ (80 ≤ floor ∧ floor ≤ 200)) :
    capShare ord floor p s =
      ok { s with gov := { s.gov with order := ord, linkFloor := if floor = 0 then s.gov.linkFloor else floor } } := by
  unfold capShare
  rw [if_neg (by omega), if_neg (by simp; omega)]
  simp

theorem paceCeiling_sets {c : Cmd} {t point : Nat} (p : Passes 0x0603 c [.ceiling t] s) (alone : s.porter.limitOrders = []) (le : t ≤ 7)
    (lp : point ≤ 15) (may : min point (ageingCeiling s t) ≤ (towerGov s t).ceiling.toNat ∨ c.mailbox.val = 64 ∨
      tget s.porter.ceilSetter t .baseboard = .owner) :
    ∃ l, Done 0x0603 c { st := stDone } s
      { putSetting (t + 3) (min point (ageingCeiling s t)) (setterOf c.mailbox.val) (takenState 0x0603 c [.ceiling t] s) with
        porter := { (putSetting (t + 3) (min point (ageingCeiling s t)) (setterOf c.mailbox.val)
          (takenState 0x0603 c [.ceiling t] s)).porter with limitOrders := l } }
      (order 0x0603 c [.ceiling t] (paceCeiling t point) s) := by
  have free : ∀ x ∈ [(t + 3, min point (ageingCeiling s t))],
      relaxes (takenState 0x0603 c [.ceiling t] s) c.mailbox.val x.1 x.2 = false := by
    simp only [List.forall_mem_singleton]
    refine relaxes_free fun less => ?_
    rcases may with enough | may
    · exact absurd less (Nat.not_lt.mpr enough)
    · exact may
  obtain ⟨l, meaning⟩ := takeSettings_alone (code := 0x0603) (subject := 1) (p := pendingOf 0x0603 c s) (takenState_alone alone) free
  refine ⟨l, order_done p (by decide) (Eq.trans ?_ meaning) rfl (by decide)⟩
  unfold paceCeiling
  rw [if_neg (by omega), if_neg (by omega), Nat.add_comm 3 t]
  rfl

theorem lastLine_sets {mode : Nat} {p : Pending} (le : mode ≤ 2) (other : s.gov.lastLineNext.toNat ≠ mode)
    (may : s.gov.lastLineNext ≠ 0 ∨ p.cmd.mailbox.val = 64 ∨ s.porter.lastLineSetter = .owner) : lastLine mode p s =
      ok { s with
        gov := { s.gov with lastLineNext := BitVec.ofNat 2 mode }
        porter := { s.porter with lastLineSetter := setterOf p.cmd.mailbox.val } } := by
  unfold lastLine
  dsimp only
  rw [if_neg (by omega), if_neg (by simpa using other), if_neg]
  simp only [mayRelax, Bool.and_eq_true, beq_iff_eq, Bool.not_eq_true', Bool.or_eq_false_iff, not_and]
  intro zero ne64
  rcases may with some_ | bmc | owner
  · exact absurd zero some_
  · simp [bmc] at ne64
  · simp [owner]

end

end Sys2Proof.Limits
end

