-- ==== Sys2Proof/Proofs/GateOrders.lean ====
section
/-! PROOFS. TOWER_GATE: towers that run drain, towers that are off begin to switch on (14 R388 to R390), and the rest of O49. -/

namespace Sys2Proof.Limits

open Sys2Proof.Machine Sys2Proof.Safety Sys2Proof.Laws Sys2Proof.Endings Sys2Proof.Orders

section
variable {s : State} {t on : Nat} {towers : Byte}

/-! ### The towers named -/

theorem mem_namedTowers : t ∈ namedTowers towers ↔ t < 8 ∧ towers.getLsbD t = true := by simp [namedTowers]

theorem namedTowers_nodup (towers : Byte) : (namedTowers towers).Nodup := List.nodup_range.filter _

/-- A step that does the same on every element in turn as another does, while the condition of the elements to come holds. -/
theorem forEach_congr_while {α : Type} {C : α → State → Prop} {f g : α → State → State} {l : List α} (nodup : l.Nodup)
    (same : ∀ a u, C a u → f a u = g a u) (keeps : ∀ a b u, a ≠ b → C a u → C b u → C b (g a u)) (s : State) (all : ∀ a ∈ l, C a s) :
    forEach l f s = forEach l g s := by
  induction l generalizing s with
  | nil => rfl
  | cons a l ih =>
    obtain ⟨fresh, nodup⟩ := List.nodup_cons.mp nodup
    rw [forEach_cons, forEach_cons, same a s (all a List.mem_cons_self)]
    exact ih nodup _ (fun b mem =>
      keeps a b s (fun eq => fresh (eq ▸ mem)) (all a List.mem_cons_self) (all b (List.mem_cons_of_mem _ mem)))

/-! ### A drain begins -/

/-- A tower that runs and that no order moves. -/
def Runs (t : Nat) (s : State) : Prop := supplyAt s t = .inRegulation ∧ tfind? s.power.gating t = none

def drainBegun (on t : Nat) (s : State) : State := startDrain t (setGating t on s)

theorem startDrain_power (t : Nat) (s : State) : (startDrain t s).power = s.power :=
  forEach_same (g := fun u : State => u.power) s (fun _ _ _ => rfl)

theorem startDrain_draining (k l : Nat) (s : State) (draining : (paceAt s l).draining = true ∨ l ∈ logicLayers k) :
    (paceAt (startDrain k s) l).draining = true := by
  unfold startDrain
  rcases draining with draining | layer
  · refine forEach_keeps (P := fun u => (paceAt u l).draining = true) s (fun d _ u h => ?_) draining
    rw [paceAt_setPace]
    split
    · rfl
    · exact h
  · refine forEach_reaches (P := fun l u => (paceAt u l).draining = true) (fun d u => ?_) (fun d e u h => ?_) (logicLayers k) s l layer
    · rw [paceAt_setPace, if_pos rfl]
    · rw [paceAt_setPace]
      split
      · rfl
      · exact h

theorem gating_drainBegun (on t k : Nat) (s : State) :
    tfind? (drainBegun on t s).power.gating k = if k = t then some on else tfind? s.power.gating k := by
  unfold drainBegun
  rw [startDrain_power]
  exact tfind?_tset ..

theorem supplyAt_drainBegun (on t k : Nat) (s : State) : supplyAt (drainBegun on t s) k = supplyAt s k := by
  unfold supplyAt drainBegun
  rw [startDrain_power]
  rfl

theorem logicDown_runs (runs : Runs t s) : logicDown t on (retarget t s) = drainBegun on t s := by
  obtain ⟨supply, still⟩ := runs
  have same : retarget t s = s := by simp [retarget, still]
  rw [same]
  unfold logicDown
  rw [supply]
  rfl

/-- An order that gates towers which run: each begins to drain. -/
theorem gateDown_drains {p : Pending} (free : gateRefused s towers = false) (runs : ∀ t ∈ namedTowers towers, Runs t s) :
    gateDown towers on p s = gateAnswer towers on (forEach (namedTowers towers) (drainBegun on) s) := by
  unfold gateDown
  rw [free]
  simp only [Bool.false_eq_true, if_false]
  congr 1
  refine forEach_congr_while (C := Runs) (namedTowers_nodup towers) (fun t u runs => ?_) (fun t k u ne _ runs => ?_) s runs
  · rw [if_neg (by simp [runs.2]), logicDown_runs runs]
  · exact ⟨(supplyAt_drainBegun ..).trans runs.1, by rw [gating_drainBegun, if_neg (Ne.symm ne)]; exact runs.2⟩

/-- The towers drain, for their order. -/
theorem drains_does (on : Nat) (l : List Nat) (s : State) : ∀ t ∈ l, tfind? (forEach l (drainBegun on) s).power.gating t = some on ∧
    ∀ d ∈ logicLayers t, (paceAt (forEach l (drainBegun on) s) d).draining = true := by
  refine forEach_reaches (P := fun t u => tfind? u.power.gating t = some on ∧ ∀ d ∈ logicLayers t, (paceAt u d).draining = true)
    (fun t u => ⟨?_, fun d layer => ?_⟩) (fun t k u h => ⟨?_, fun d layer => ?_⟩) l s
  · rw [gating_drainBegun, if_pos rfl]
  · exact startDrain_draining t d _ (.inr layer)
  · rw [gating_drainBegun]
    split
    · rfl
    · exact h.1
  · exact startDrain_draining k d _ (.inl (h.2 d layer))

/-! ### A tower begins to switch on -/

/-- A tower that is off with its ponds, that no order moves, above a Mere in regulation. -/
def Rests (t : Nat) (s : State) : Prop :=
  t < 8 ∧ supplyAt s t = .off ∧ supplyAt s (8 + t) = .off ∧ tfind? s.power.gating t = none ∧ inReg s sdMere = true

def rampBegun (t : Nat) (s : State) : State := setSupply (8 + t) (.ramping 1) (setGating t 1 s)

theorem gating_rampBegun (t k : Nat) (s : State) :
    tfind? (rampBegun t s).power.gating k = if k = t then some 1 else tfind? s.power.gating k := tfind?_tset ..

theorem supplyAt_rampBegun (t k : Nat) (s : State) : supplyAt (rampBegun t s) k = if k = 8 + t then .ramping 1 else supplyAt s k :=
  supplyAt_setSupply ..

theorem logicUpward_rests (rests : Rests t s) : logicUpward t (retarget t s) = rampBegun t s := by
  obtain ⟨lt, off, ponds, still, mere⟩ := rests
  have same : retarget t s = s := by simp [retarget, still]
  have dependent : dependsOn (8 + t) = [16] := by
    unfold dependsOn
    rw [if_neg (by omega), if_pos (by omega)]
  have met : depsMet (setGating t 1 s) (8 + t) = true := by
    unfold depsMet
    rw [dependent]
    simpa using (show inReg (setGating t 1 s) 16 = true from mere)
  rw [same]
  unfold logicUpward
  rw [off]
  dsimp only
  rw [show supplyAt (setGating t 1 s) (8 + t) = .off from ponds]
  dsimp only
  unfold switchOn
  rw [show supplyAt (setGating t 1 s) (8 + t) = .off from ponds, met]
  rfl

theorem gateUp_ramps {p : Pending} (free : (namedTowers towers).any (heldStopped s) = false)
    (rests : ∀ t ∈ namedTowers towers, Rests t s) :
    gateUp towers p s = gateAnswer towers 1 (forEach (namedTowers towers) rampBegun s) := by
  unfold gateUp
  rw [free]
  simp only [Bool.false_eq_true, if_false]
  congr 1
  refine forEach_congr_while (C := Rests) (namedTowers_nodup towers) (fun t u rests => ?_) (fun t k u ne before rests => ?_) s rests
  · rw [if_neg (by simp [rests.2.2.2.1]), logicUpward_rests rests]
  · obtain ⟨lt, off, ponds, still, mere⟩ := rests
    refine ⟨lt, ?_, ?_, ?_, ?_⟩
    · rw [supplyAt_rampBegun, if_neg (by omega)]
      exact off
    · rw [supplyAt_rampBegun, if_neg (by omega)]
      exact ponds
    · rw [gating_rampBegun, if_neg (Ne.symm ne)]
      exact still
    · show (supplyAt (rampBegun t u) sdMere == .inRegulation) = true
      rw [supplyAt_rampBegun, if_neg (by have := before.1; unfold sdMere; omega)]
      exact mere

theorem ramps_does (l : List Nat) (s : State) : ∀ t ∈ l, tfind? (forEach l rampBegun s).power.gating t = some 1 ∧
    supplyAt (forEach l rampBegun s) (8 + t) = .ramping 1 := by
  refine forEach_reaches (P := fun t u => tfind? u.power.gating t = some 1 ∧ supplyAt u (8 + t) = .ramping 1)
    (fun t u => ⟨?_, ?_⟩) (fun t k u h => ⟨?_, ?_⟩) l s
  · rw [gating_rampBegun, if_pos rfl]
  · rw [supplyAt_rampBegun, if_pos rfl]
  · rw [gating_rampBegun]
    split
    · rfl
    · exact h.1
  · rw [supplyAt_rampBegun]
    split
    · rfl
    · exact h.2

/-! ### The order waits -/

theorem gateAnswer_waits (some_ : ∃ t ∈ namedTowers towers, tfind? s.power.gating t = some on) :
    gateAnswer towers on s = (.wait (.gate on towers), s) := by
  obtain ⟨t, named, moved⟩ := some_
  unfold gateAnswer
  rw [if_neg]
  simp only [List.all_eq_true, not_forall]
  exact ⟨t, named, by simp [moved]⟩

/-- An order that waits for towers under way: they move as its meaning set them going, and it is owed its completion. -/
theorem gate_waits {c : Cmd} {subs : List Subject} {h : Handler} {w : State} (p : Passes 0x0605 c subs s)
    (meaning : h (pendingOf 0x0605 c s) (takenState 0x0605 c subs s) = gateAnswer towers on w)
    (some_ : ∃ t ∈ namedTowers towers, tfind? w.power.gating t = some on) :
    (order 0x0605 c subs h s).power = w.power ∧ (order 0x0605 c subs h s).pace = w.pace ∧
    ∃ p ∈ (order 0x0605 c subs h s).porter.outstanding, p.cmd = c ∧ p.wait = .gate on towers := by
  obtain ⟨listed, ⟨frame, -⟩, -⟩ := order_waits s p (by decide) (meaning.trans (gateAnswer_waits some_)) (butMailbox_refl w c.mailbox.val)
  refine ⟨(congrArg State.power frame :), (congrArg State.pace frame :),
    { pendingOf 0x0605 c s with wait := .gate on towers }, ?_, rfl, rfl⟩
  rw [listed]
  exact List.mem_append_right _ List.mem_cons_self

/-- TOWER_GATE with ON 0 or 2 on towers that run. -/
theorem gateDown_row {c : Cmd} (p : Passes 0x0605 c (towerSubjects towers) s) (free : gateRefused s towers = false)
    (some_ : ∃ t, t < 8 ∧ towers.getLsbD t = true)
    (runs : ∀ t, t < 8 → towers.getLsbD t = true → supplyAt s t = .inRegulation ∧ tfind? s.power.gating t = none) {t : State}
    (ht : t = order 0x0605 c (towerSubjects towers) (gateDown towers on) s) :
    (∀ k, k < 8 → towers.getLsbD k = true → tfind? t.power.gating k = some on ∧ ∀ l ∈ logicLayers k, (paceAt t l).draining = true) ∧
    ∃ p ∈ t.porter.outstanding, p.cmd = c ∧ p.wait = .gate on towers := by
  subst ht
  obtain ⟨k, lt, named⟩ := some_
  have drains := drains_does on (namedTowers towers) (takenState 0x0605 c (towerSubjects towers) s)
  have meaning := gateDown_drains (on := on) (p := pendingOf 0x0605 c s) (s := takenState 0x0605 c (towerSubjects towers) s) free
    (fun t mem => runs t (mem_namedTowers.mp mem).1 (mem_namedTowers.mp mem).2)
  obtain ⟨power, pace, waits⟩ := gate_waits p meaning ⟨k, mem_namedTowers.mpr ⟨lt, named⟩, (drains k (mem_namedTowers.mpr ⟨lt, named⟩)).1⟩
  refine ⟨fun j lj nj => ?_, waits⟩
  unfold paceAt
  rw [power, pace]
  exact drains j (mem_namedTowers.mpr ⟨lj, nj⟩)

/-- TOWER_GATE with ON 1 on towers that are off. -/
theorem gateUp_row {c : Cmd} (p : Passes 0x0605 c (towerSubjects towers) s)
    (rests : ∀ t, t < 8 → towers.getLsbD t = true → heldStopped s t = false ∧ supplyAt s t = .off ∧ supplyAt s (8 + t) = .off ∧
      tfind? s.power.gating t = none) (some_ : ∃ t, t < 8 ∧ towers.getLsbD t = true) (mere : inReg s sdMere = true) {t : State}
    (ht : t = order 0x0605 c (towerSubjects towers) (gateUp towers) s) :
    (∀ k, k < 8 → towers.getLsbD k = true → tfind? t.power.gating k = some 1 ∧ supplyAt t (8 + k) = .ramping 1) ∧
    ∃ p ∈ t.porter.outstanding, p.cmd = c ∧ p.wait = .gate 1 towers := by
  subst ht
  obtain ⟨k, lt, named⟩ := some_
  have ramps := ramps_does (namedTowers towers) (takenState 0x0605 c (towerSubjects towers) s)
  have free : (namedTowers towers).any (heldStopped (takenState 0x0605 c (towerSubjects towers) s)) = false := by
    rw [List.any_eq_false]
    intro t mem held
    have not := (rests t (mem_namedTowers.mp mem).1 (mem_namedTowers.mp mem).2).1
    exact absurd (show heldStopped s t = true from held) (by simp [not])
  have meaning := gateUp_ramps (p := pendingOf 0x0605 c s) free (fun t mem => by
    obtain ⟨lt, named⟩ := mem_namedTowers.mp mem
    obtain ⟨-, off, ponds, still⟩ := rests t lt named
    exact ⟨lt, off, ponds, still, mere⟩)
  obtain ⟨power, pace, waits⟩ := gate_waits p meaning ⟨k, mem_namedTowers.mpr ⟨lt, named⟩, (ramps k (mem_namedTowers.mpr ⟨lt, named⟩)).1⟩
  refine ⟨fun j lj nj => ?_, waits⟩
  unfold supplyAt
  rw [power]
  exact ramps j (mem_namedTowers.mpr ⟨lj, nj⟩)

theorem gateUp_held {p : Pending} (held : ∃ t, t < 8 ∧ towers.getLsbD t = true ∧ heldStopped s t = true) :
    gateUp towers p s = reply stWrongState s := by
  obtain ⟨t, lt, named, held⟩ := held
  unfold gateUp
  rw [if_pos (List.any_eq_true.mpr ⟨t, mem_namedTowers.mpr ⟨lt, named⟩, held⟩)]

theorem toNat_eq_zero_iff {n : Nat} {x : BitVec n} : x.toNat = 0 ↔ x = 0 := by simp [BitVec.toNat_eq]

end

/-- Settles O49: the limits setting by setting, the gates tower by tower. -/
theorem powerAndGateOrders : Obligations.PowerAndGateOrders := by
  unfold Obligations.PowerAndGateOrders
  intro s c
  refine ⟨fun sustain peak window p alone gs gp gw => ?_, fun ord floor p le good => ⟨_, rfl, ?_⟩,
    fun tower point p alone le lp may => ⟨_, rfl, ?_⟩, fun mode p le other may => ⟨_, rfl, ?_⟩, fun towers p => ⟨fun refused => ?_,
    fun free some_ runs on i mem => ?_, fun rests some_ mere => ⟨_, rfl, gateUp_row p rests some_ mere rfl⟩, fun held => ⟨_, rfl, ?_⟩⟩⟩
  · simp only [← toNat_eq_zero_iff] at gs gp
    refine ⟨fun may => ⟨_, rfl, ?_⟩, fun other more baseboard => ⟨_, rfl, powerLimits_denied p alone gs gp gw other more baseboard rfl⟩⟩
    have gives := powerLimits_sets p alone gs gp gw (fun x mem less => by
      have named := (List.mem_filter.mp mem).1
      simp only [List.mem_cons, List.not_mem_nil, or_false] at named
      rcases named with rfl | rfl | rfl
      · exact may (sustain.toNat, s.gov.sustain, s.porter.sustainSetter) (by simp) less
      · exact may (peak.toNat, s.gov.peak, s.porter.peakSetter) (by simp) less
      · exact may (window.toNat, s.gov.window, s.porter.windowSetter) (by simp) less)
    have setters := congrArg (fun u : State => (u.porter.sustainSetter, u.porter.peakSetter, u.porter.windowSetter)) gives.2.1
    simp only [Prod.mk.injEq] at setters
    obtain ⟨setS, setP, setW⟩ := setters
    refine ⟨?_, fun named other => ?_⟩
    · rw [setS, setP, setW, if_congr toNat_eq_zero_iff.symm rfl rfl, if_congr (toNat_eq_zero_iff (x := peak)).symm rfl rfl,
        if_congr (toNat_eq_zero_iff (x := window)).symm rfl rfl]
      exact gives
    · rw [setS]
      exact if_neg (by
        rintro (none_ | same)
        · exact named (toNat_eq_zero_iff.mp none_)
        · exact other same.symm)
  · have gives := order_gives (h := capShare ord.toNat floor.toNat) s p (by decide)
      (capShare_good le (by simpa only [← toNat_eq_zero_iff] using good)) rfl
      (u := { s with gov := { s.gov with order := ord.toNat, linkFloor := if floor.toNat = 0 then s.gov.linkFloor else floor.toNat } })
      ⟨rfl, (takenState_but s 0x0602 c [.capShare]).2⟩ rfl (fun bad => absurd bad (by decide))
    rw [if_congr toNat_eq_zero_iff.symm rfl rfl]
    exact gives
  · obtain ⟨l, d⟩ := paceCeiling_sets p alone le lp may
    obtain ⟨same, others, mailboxes⟩ := putSetting_ceiling tower.toNat (min point.toNat (ageingCeiling s tower.toNat))
      (setterOf c.mailbox.val) (takenState 0x0603 c [.ceiling tower.toNat] s) (by omega)
    refine ⟨posted_of_same d mailboxes, ?_, fun k ne => ?_⟩
    · unfold towerGov
      rw [d.gov]
      exact same
    · unfold towerGov
      rw [d.gov]
      exact others k ne
  · exact order_gives (h := lastLine mode.toNat) s p (by decide)
      (lastLine_sets (s := takenState 0x0604 c [.lastLine] s) (p := pendingOf 0x0604 c s) le other may) rfl
      ⟨rfl, (takenState_but s 0x0604 c [.lastLine]).2⟩ rfl (fun bad => absurd bad (by decide))
  · have meaning (on : Nat) : gateDown towers on (pendingOf 0x0605 c s) (takenState 0x0605 c (towerSubjects towers) s) =
        reply stWrongState (takenState 0x0605 c (towerSubjects towers) s) := if_pos refused
    exact ⟨⟨_, rfl, order_refused p (by decide) (meaning 0) rfl⟩, ⟨_, rfl, order_refused p (by decide) (meaning 2) rfl⟩⟩
  · rcases List.mem_cons.mp mem with eq | mem
    · obtain ⟨rfl, rfl⟩ := Prod.mk.inj eq
      exact ⟨_, rfl, gateDown_row p free some_ runs rfl⟩
    · obtain ⟨rfl, rfl⟩ := Prod.mk.inj (List.mem_singleton.mp mem)
      exact ⟨_, rfl, gateDown_row p free some_ runs rfl⟩
  · exact order_refused p (by decide) (gateUp_held (s := takenState 0x0605 c (towerSubjects towers) s) held) rfl

end Sys2Proof.Limits
end

