-- ==== Sys2Proof/Proofs/Log.lean ====
section
/-! PROOFS. How many events an operation adds to the log: what was among its newest entries stays there (16 R427). -/

namespace Sys2Proof.Endings

open Sys2Proof.Machine Sys2Proof.Safety Sys2Proof.Laws Sys2Proof.Towers

/-- From `s` to `t` at most `n` events have been logged. -/
structure Grows (n : Nat) (s t : State) : Prop where
  counted : s.log.next ≤ t.log.next
  keeps : ∀ m, m + n ≤ 262144 → ∀ e ∈ s.log.entries.take m, e ∈ t.log.entries.take (m + n)

section
variable {n m code : Nat} {args : List (Nat × Nat)} {s t u : State}

theorem Grows.of_log (same : t.log = s.log) : Grows 0 s t := by
  refine ⟨Nat.le_of_eq (congrArg Log.next same.symm), fun m _ e mem => ?_⟩
  rwa [same]

theorem Grows.refl (s : State) : Grows 0 s s := .of_log rfl

theorem Grows.mono (h : Grows n s t) (le : n ≤ m) : Grows m s t :=
  ⟨h.counted, fun j small e mem => List.take_subset_take_left _ (by omega) (h.keeps j (by omega) e mem)⟩

theorem Grows.trans (h : Grows n s t) (k : Grows m t u) : Grows (n + m) s u := by
  refine ⟨Nat.le_trans h.counted k.counted, fun j small e mem => ?_⟩
  have next := k.keeps (j + n) (by omega) e (h.keeps j (by omega) e mem)
  rwa [Nat.add_assoc] at next

/-- A change that logs nothing comes before. -/
theorem Grows.since (h : Grows n t u) (same : t.log = s.log) : Grows n s u := by
  have all := (Grows.of_log same).trans h
  rwa [Nat.zero_add] at all

/-- A change that logs nothing comes after. -/
theorem Grows.silent (h : Grows n s t) (same : u.log = t.log) : Grows n s u := h.trans (.of_log same)

theorem Grows.raise (code plane die : Nat) (args : List (Nat × Nat)) (s : State) : Grows 1 s (raise code plane die args s) := by
  refine ⟨Nat.le_succ _, fun m small e mem => ?_⟩
  show e ∈ ((eventOf code plane die args s :: s.log.entries).take 262144).take (m + 1)
  rw [List.take_take, Nat.min_eq_left small, List.take_succ_cons]
  exact List.mem_cons_of_mem _ mem

theorem Grows.forEach {α : Type} {f : α → State → State} (step : ∀ a v, Grows n v (f a v)) (l : List α) (s : State) :
    Grows (l.length * n) s (forEach l f s) := by
  induction l generalizing s with
  | nil => exact (Grows.refl s).mono (Nat.zero_le _)
  | cons a l ih => exact ((step a s).trans (ih _)).mono (by rw [List.length_cons, Nat.succ_mul]; omega)

/-- An event among the newest stays among them. -/
theorem Grows.lately (h : Grows n u t) (logged : LoggedLately m code args s u) (small : m + n ≤ 262144) :
    LoggedLately (m + n) code args s t := by
  obtain ⟨e, mem, rest⟩ := logged
  exact ⟨e, h.keeps m small e mem, rest⟩

/-- The event that has just been raised stays logged. -/
theorem Grows.logged (h : Grows n (Machine.raise code m 0 args u) t) (since : s.log.next ≤ u.log.next) (small : 1 + n ≤ 262144) :
    Logged code args s t := (h.lately (loggedLately_raise m 0 since) small).logged

end

/-! ### Channels -/

section
variable {n : Nat} {s t : State}

theorem setChanState_silent (c st : Nat) (s : State) : Grows 0 s (setChanState c st s) := .of_log (setChanState_log st)
theorem stopCore_silent (c : Nat) (s : State) : Grows 0 s (stopCore c s) := .of_log (stopCore_log c s)
theorem chanEvent_grows (powerUp : Bool) (code c : Nat) (s : State) : Grows 1 s (chanEvent powerUp code c s) := .raise ..
theorem lendingEnded_grows (c : Nat) (s : State) : Grows 1 s (lendingEnded c s) := .raise ..

/-- A core that stops and changes its channel's state, with the event. -/
theorem stopped_grows (powerUp : Bool) (code c st : Nat) (s : State) :
    Grows 1 s (chanEvent powerUp code c (setChanState c st (stopCore c s))) :=
  ((stopCore_silent c s).trans (setChanState_silent c st _)).trans (chanEvent_grows ..)

theorem retireCore_grows (powerUp : Bool) (c : Nat) (s : State) : Grows 3 s (retireCore powerUp c s) := by
  have self := stopped_grows powerUp 0x2104 c csRetired s
  unfold retireCore
  dsimp only
  split
  · exact (Grows.refl s).mono (by omega)
  · split
    · exact (self.trans (stopped_grows false 0x2104 (partner c) csRetired _)).trans (lendingEnded_grows ..)
    · split
      · exact ((self.trans (setChanState_silent (partner c) csWhole _)).trans (lendingEnded_grows ..)).mono (by omega)
      · exact self.mono (by omega)

theorem halfWidth_grows (powerUp : Bool) (c st : Nat) (s : State) : Grows 3 s (halfWidth powerUp c st s) := by
  have self : Grows 1 s (chanEvent powerUp 0x2102 c (setChanState c st s)) := (setChanState_silent c st s).trans (chanEvent_grows ..)
  unfold halfWidth
  dsimp only
  split
  · exact (self.trans (stopped_grows false 0x2104 (partner c) csRetired _)).trans (lendingEnded_grows ..)
  · exact self.mono (by omega)

theorem fenceSlice_grows (powerUp : Bool) (c : Nat) (s : State) : Grows 1 s (fenceSlice powerUp c s) := by
  unfold fenceSlice
  refine (chanEvent_grows powerUp 0x2103 c _).since ?_
  show (setChanState (partner c) csLending (setChanState c csBorrowing (stopCore c s))).log = s.log
  rw [setChanState_log, setChanState_log, stopCore_log]

theorem settleChannel_grows (powerUp : Bool) (c : Nat) (s : State) : Grows 3 s (settleChannel powerUp c s) := by
  have none_ := (Grows.refl s).mono (Nat.zero_le 3)
  unfold settleChannel
  dsimp only
  split
  · exact none_
  · split
    · split
      · exact (fenceSlice_grows ..).mono (by omega)
      · split
        · exact (retireCore_grows ..).since rfl
        · exact retireCore_grows ..
    · generalize (if halfFailed (chan s c) 0 then csUpper else csLower) = half
      split
      · exact none_
      · exact halfWidth_grows ..

theorem sliceFailure_grows (c : Nat) (s : State) : Grows 3 s (sliceFailure c s) := by
  unfold sliceFailure
  split
  · exact (Grows.refl s).mono (by omega)
  · exact (settleChannel_grows ..).since rfl

theorem remapRow_grows (c row : Nat) (s : State) : Grows 4 s (remapRow c row s) := by
  unfold remapRow
  dsimp only
  split
  · exact (Grows.raise ..).trans (sliceFailure_grows ..)
  · exact Grows.mono (n := 1) ((Grows.raise ..).since rfl) (by decide)

/-! ### Margins -/

theorem lowerMargin_grows (l m : Nat) (s : State) : Grows 1 s (lowerMargin l m s) := (Grows.raise ..).since rfl

theorem pointBack_grows (l p : Nat) (s : State) : Grows 1 s (pointBack l p s) :=
  (Grows.raise ..).since (capBump_log _)

theorem atBoundaryOr_grows {b : Boundary} {now : State → State} (step : Grows n s (now s)) : Grows n s (atBoundaryOr b now s) := by
  unfold atBoundaryOr
  split
  · exact ((Grows.refl s).mono (Nat.zero_le n)).silent rfl
  · exact step

/-- The margin that a layer's needs ask for (15 R425). -/
def newMargin (needs : List Nat) : Nat := min 40 (listMax (needs.map marginOf))

/-- A new margin is approached, taken, or the present one kept. -/
def marginMoved (l m : Nat) (s : State) : State :=
  if tget s.gov.margins l 0 < m then raiseMgmt 0x6302 [a2 l, a2 m] (setGov (fun g => { g with targets := tset g.targets l m }) s)
  else if m < tget s.gov.margins l 0 then
    atBoundaryOr (.marginLower l m) (lowerMargin l m)
      (setGov (fun g => { g with targets := tset g.targets l (tget s.gov.margins l 0) }) s)
  else setGov (fun g => { g with targets := tset g.targets l (tget s.gov.margins l 0) }) s

/-- Points that fall out of the allowance are out at once. -/
def pointsClosed (l : Nat) (needs : List Nat) (s : State) : State :=
  let fresh := (pointsOut needs).filter (fun p => !(tget s.gov.outs l []).contains p)
  let u := setGov (fun g => { g with outs := tset g.outs l (tget s.gov.outs l [] ++ fresh) }) s
  if fresh.isEmpty then u else raiseMgmt 0x6301 [a2 l, a2 (ageingCeiling (capBump u) (l / 3))] (capBump u)

/-- Points that come back. -/
def pointsBack (l : Nat) (s : State) (needs : List Nat) : List Nat :=
  (tget s.gov.outs l []).filter (fun p => !(pointsOut needs).contains p)

def pointsOpened (l : Nat) (ps : List Nat) (s : State) : State :=
  forEach ps (fun p s => atBoundaryOr (.pointBack l p) (pointBack l p) s) s

theorem marginMoved_outs (l m : Nat) (s : State) : (marginMoved l m s).gov.outs = s.gov.outs := by
  unfold marginMoved
  split
  · rfl
  · split
    · unfold atBoundaryOr
      split
      · rfl
      · rfl
    · rfl

/-- A measurement, part by part. -/
theorem applyMargin_eq (l : Nat) (needs : List Nat) (s : State) : applyMargin l needs s =
    pointsOpened l (pointsBack l s needs) (pointsClosed l needs (marginMoved l (newMargin needs) (dropMarginActions l s))) := by
  have outs : pointsBack l s needs = pointsBack l (marginMoved l (newMargin needs) (dropMarginActions l s)) needs := by
    unfold pointsBack
    rw [marginMoved_outs]
    rfl
  rw [outs]
  have ceiling (u : State) : ageingCeiling (capBump u) (l / 3) = ageingCeiling u (l / 3) := by
    unfold ageingCeiling
    rw [capBump_gov]
  unfold pointsClosed
  simp only [ceiling]
  rfl

theorem marginMoved_grows (l m : Nat) (s : State) : Grows 1 s (marginMoved l m s) := by
  unfold marginMoved
  split
  · exact (Grows.raise ..).since rfl
  · split
    · exact (atBoundaryOr_grows (lowerMargin_grows l m _)).since rfl
    · exact ((Grows.refl s).mono (Nat.zero_le 1)).silent rfl

theorem pointsClosed_grows (l : Nat) (needs : List Nat) (s : State) : Grows 1 s (pointsClosed l needs s) := by
  unfold pointsClosed
  dsimp only
  split
  · exact ((Grows.refl s).mono (Nat.zero_le 1)).silent rfl
  · exact (Grows.raise ..).since (capBump_log _)

theorem pointsOpened_grows (l : Nat) (ps : List Nat) (s : State) : Grows ps.length s (pointsOpened l ps s) := by
  have all := Grows.forEach (f := fun p s => atBoundaryOr (.pointBack l p) (pointBack l p) s)
    (fun p v => atBoundaryOr_grows (pointBack_grows l p v)) ps s
  rwa [Nat.mul_one] at all

theorem applyMargin_counted (l : Nat) (needs : List Nat) (s : State) : s.log.next ≤ (applyMargin l needs s).log.next := by
  rw [applyMargin_eq]
  have moved := (marginMoved_grows l (newMargin needs) (dropMarginActions l s)).since (s := s) rfl
  generalize marginMoved l (newMargin needs) (dropMarginActions l s) = u at *
  exact (moved.trans ((pointsClosed_grows l needs u).trans (pointsOpened_grows l (pointsBack l s needs) _))).counted

end

end Sys2Proof.Endings
end

