-- ==== Sys2Proof/Proofs/SelfTests.lean ====
section
/-! PROOFS. In-service tests: requests, the rotation of cores, and whole-tower tests (16 R449 to R454; O50). -/

namespace Sys2Proof.SelfTests

open Sys2Proof.Machine Sys2Proof.Safety Sys2Proof.Laws Sys2Proof.Endings Sys2Proof.Orders Sys2Proof.Towers

section
variable {s : State} {c : Cmd} {subs : List Subject} {kind target : Nat} {begun : Bool}

/-! ### Requests -/

/-- An order that no other of its pass rivals drops no request of another. -/
theorem rivals_taken {code : Nat} (none_ : rivals s c.mailbox.val subs = []) :
    rivals (takenState code c subs s) c.mailbox.val subs = [] := by
  unfold rivals at *
  show (if _ then s.porter.passOrders ++ subs.map (fun x => (⟨c.mailbox.val, c.cid, code, x⟩ : PassOrder)) else []).filter _ = []
  split
  · rw [List.filter_append, none_, List.nil_append, List.filter_eq_nil_iff]
    simp
  · rfl

theorem dropRivalTest_alone {p : Pending} {tower : Nat} (none_ : rivals s p.cmd.mailbox.val [.tower tower] = []) :
    dropRivalTest p tower s = s := by
  unfold dropRivalTest
  rw [none_]
  split
  · simp
  · rfl

/-- A request on a tower, where no other order of the pass names the tower. -/
theorem accepted_alone {p : Pending} (none_ : rivals s p.cmd.mailbox.val (testSubjects kind target) = []) :
    accepted kind target begun p s =
      (.done { st := stAccepted, r0 := s.tests.nextReq }, addRequest kind target p.session begun s) := by
  unfold accepted
  unfold testSubjects at none_
  cases tower : testTower kind target with
  | none => rfl
  | some t =>
    rw [tower] at none_
    simp only [dropRivalTest_alone (show rivals s p.cmd.mailbox.val [.tower t] = [] from none_)]

theorem accepted_taken (p : Passes 0x0701 c (testSubjects kind target) s) :
    accepted kind target begun (pendingOf 0x0701 c s) (takenState 0x0701 c (testSubjects kind target) s) =
      (.done { st := stAccepted, r0 := s.tests.nextReq }, addRequest kind target (pendingOf 0x0701 c s).session begun
        (takenState 0x0701 c (testSubjects kind target) s)) :=
  accepted_alone (p := pendingOf 0x0701 c s) (rivals_taken (code := 0x0701) p.2.2.2.2.2)

/-- A request that is accepted is filed. -/
theorem filed_of_accepted {h : Handler} (p : Passes 0x0701 c (testSubjects kind target) s)
    (meaning : h (pendingOf 0x0701 c s) (takenState 0x0701 c (testSubjects kind target) s) =
      accepted kind target begun (pendingOf 0x0701 c s) (takenState 0x0701 c (testSubjects kind target) s)) :
    Filed c kind target begun s (order 0x0701 c (testSubjects kind target) h s) := by
  unfold Filed
  have todo : (if kind = 0 then [4 * target, 4 * target + 1, 4 * target + 2, 4 * target + 3] else []) =
      (if kind == 0 then [0, 1, 2, 3].map (fun i => 4 * target + i) else []) := by
    by_cases lane : kind = 0
    · simp [lane]
    · simp [lane]
  rw [todo]
  exact order_gives s p (by decide) (meaning.trans (accepted_taken p)) rfl ⟨rfl, (takenState_but s 0x0701 c _).2⟩ rfl
    (fun bad => absurd bad (show stAccepted ≠ stBadArg by decide))

/-- A TARGET outside its range. -/
theorem target_refused {h : Handler} (p : Passes 0x0701 c subs s)
    (meaning : h (pendingOf 0x0701 c s) (takenState 0x0701 c subs s) = badInline 2 (takenState 0x0701 c subs s)) :
    Gives 0x0701 c { st := stBadArg, detail := 6 } s s (order 0x0701 c subs h s) := order_refused p (by decide) meaning rfl

/-! ### Whole-tower tests -/

/-- The request of an order. -/
def requestOf (kind target : Nat) (session : W16) (begun : Bool) (s : State) : TestReq :=
  { number := s.tests.nextReq, kind := kind, target := target, session := session, filed := false, begun := begun,
    todo := if kind == 0 then [0, 1, 2, 3].map (fun i => 4 * target + i) else [] }

/-- A whole-tower test that is the only one begins at once on a tower that is on. -/
theorem startTowerTest_only {session : W16} (none_ : towerTests s = 0) (idle : s.tests.tower = none) (on : towerOn s target = true)
    (still : tfind? s.power.gating target = none) : startTowerTest (addRequest 3 target session false s) =
      beginTowerTest (requestOf 3 target session false s) (addRequest 3 target session false s) := by
  have others : s.tests.reqs.find? (fun r => r.kind == 3 && !r.begun && towerOn s r.target && (tfind? s.power.gating r.target).isNone) = none := by
    rw [List.find?_eq_none]
    intro r mem
    have not : r ∉ s.tests.reqs.filter (fun r => r.kind == 3) := by
      rw [List.eq_nil_of_length_eq_zero none_]
      exact List.not_mem_nil
    have other : (r.kind == 3) = false := by simpa [List.mem_filter, mem] using not
    simp [other]
  have next : nextTowerTest (addRequest 3 target session false s) = some (requestOf 3 target session false s) := by
    unfold nextTowerTest
    rw [show (addRequest 3 target session false s).tests.tower = none from idle]
    show (s.tests.reqs ++ [requestOf 3 target session false s]).find?
      (fun r => r.kind == 3 && !r.begun && towerOn s r.target && (tfind? s.power.gating r.target).isNone) = _
    rw [List.find?_append, others]
    simp [requestOf, on, still]
  unfold startTowerTest
  rw [next]

theorem beginTowerTest_does (r : TestReq) (s : State) : (beginTowerTest r s).tests.tower = some r.target ∧
    (beginTowerTest r s).porter.mailboxes = s.porter.mailboxes ∧
    Logged 0x2302 [a2 r.target, a8 s.steps.lastBoundary.toNat] s (beginTowerTest r s) :=
  ⟨rfl, raise_porter_mailboxes .., logged_since (Nat.le_refl _) (raise_logged ..)⟩

theorem testWholeTower_eq {p : Pending} (lt : target < 8) (consents : ownerConsents s = true) (none_ : towerTests s = 0) :
    testWholeTower target p s = ((accepted 3 target false p s).1,
      if stepOpen (accepted 3 target false p s).2 then (accepted 3 target false p s).2
      else startTowerTest (accepted 3 target false p s).2) := by
  unfold testWholeTower
  rw [if_neg (by omega), if_neg (by simp [consents]), if_neg (by simp [none_])]

/-- The whole-tower test of an order that begins at once. -/
theorem towerTest_begins (p : Passes 0x0701 c (testSubjects 3 target) s) (lt : target < 8) (consents : ownerConsents s = true)
    (none_ : towerTests s = 0) (shut : stepOpen s = false) (idle : s.tests.tower = none) (on : towerOn s target = true)
    (still : tfind? s.power.gating target = none) {t : State}
    (ht : t = order 0x0701 c (testSubjects 3 target) (testWholeTower target) s) :
    Posted 0x0701 c { st := stAccepted, r0 := s.tests.nextReq } s t ∧ t.tests.tower = some target ∧
      Logged 0x2302 [a2 target, a8 s.steps.lastBoundary.toNat] s t := by
  subst ht
  have begins := startTowerTest_only (s := takenState 0x0701 c (testSubjects 3 target) s) (session := (pendingOf 0x0701 c s).session)
    none_ idle on still
  have meaning := testWholeTower_eq (s := takenState 0x0701 c (testSubjects 3 target) s) (p := pendingOf 0x0701 c s) lt consents none_
  rw [accepted_taken p] at meaning
  dsimp only at meaning
  rw [show stepOpen (addRequest 3 target (pendingOf 0x0701 c s).session false (takenState 0x0701 c (testSubjects 3 target) s)) = false
    from shut, begins] at meaning
  obtain ⟨tower, mailboxes, logged⟩ := beginTowerTest_does
    (requestOf 3 target (pendingOf 0x0701 c s).session false (takenState 0x0701 c (testSubjects 3 target) s))
    (addRequest 3 target (pendingOf 0x0701 c s).session false (takenState 0x0701 c (testSubjects 3 target) s))
  have d := order_done p (by decide) meaning rfl (show stAccepted ≠ stBadArg by decide)
  exact ⟨Limits.posted_of_same d mailboxes, by rw [d.tests]; exact tower, d.logged (logged_since (s := s) (Nat.le_refl _) logged)⟩

/-- An open step keeps the test waiting. -/
theorem towerTest_waits (p : Passes 0x0701 c (testSubjects 3 target) s) (lt : target < 8) (consents : ownerConsents s = true)
    (none_ : towerTests s = 0) (open_ : stepOpen s = true) :
    Filed c 3 target false s (order 0x0701 c (testSubjects 3 target) (testWholeTower target) s) := by
  have meaning := testWholeTower_eq (s := takenState 0x0701 c (testSubjects 3 target) s) (p := pendingOf 0x0701 c s) lt consents none_
  refine filed_of_accepted p (meaning.trans ?_)
  rw [accepted_taken p]
  dsimp only
  rw [show stepOpen (addRequest 3 target (pendingOf 0x0701 c s).session false (takenState 0x0701 c (testSubjects 3 target) s)) = true
    from open_]
  rfl

/-! ### TEST_CANCEL -/

section
variable {n : Nat} {p : Pending} {r : TestReq}

theorem testCancel_waiting (found : s.tests.reqs.find? (fun r => r.number == n) = some r) (unfiled : r.filed = false)
    (waiting : r.begun = false) :
    testCancel n p s = ok (setTests (fun t => { t with reqs := t.reqs.filter (fun x => x.number != n) }) s) := by
  simp [testCancel, found, unfiled, waiting]

theorem testCancel_begun (found : s.tests.reqs.find? (fun r => r.number == n) = some r) (unfiled : r.filed = false)
    (begun : r.begun = true) : testCancel n p s = reply stWrongState s := by
  simp [testCancel, found, unfiled, begun]

theorem testCancel_filed (found : s.tests.reqs.find? (fun r => r.number == n) = some r) (filed : r.filed = true) :
    testCancel n p s = reply stDenied s := by
  simp [testCancel, found, filed]

theorem testCancel_unknown (none_ : s.tests.reqs.find? (fun r => r.number == n) = none) : testCancel n p s = badInline 0 s := by
  simp [testCancel, none_]

end

/-! ### The rotation of cores -/

/-- The rotation where no test is requested. -/
theorem nextTestCore_rotation (none_ : ∀ r ∈ s.tests.reqs, r.kind ≠ 2) (lt : s.tests.nextCore < 384)
    (can : testable s s.tests.nextCore = true) : nextTestCore s = some (s.tests.nextCore, true) := by
  have no : s.tests.reqs.filter (fun r => r.kind == 2 && testable s r.target && !s.tests.skipped.contains r.target) = [] := by
    rw [List.filter_eq_nil_iff]
    intro r mem
    simp [none_ r mem]
  unfold nextTestCore
  rw [no]
  have first : ((List.range 384).map (fun i => (s.tests.nextCore + i) % 384)).find? (testable s) = some s.tests.nextCore := by
    rw [show List.range 384 = 0 :: (List.range 383).map Nat.succ from List.range_succ_eq_map, List.map_cons, List.find?_cons,
      Nat.add_zero, Nat.mod_eq_of_lt lt, can]
  simp only [List.find?_nil, List.head?_nil, first, Option.map_some]

/-- A requested test comes before the rotation. -/
theorem nextTestCore_requested {r : TestReq} (only : s.tests.reqs.filter (fun r => r.kind == 2) = [r]) (can : testable s r.target = true)
    (kept : r.target ∉ s.tests.skipped) : nextTestCore s = some (r.target, false) := by
  have one : s.tests.reqs.filter (fun r => r.kind == 2 && testable s r.target && !s.tests.skipped.contains r.target) = [r] := by
    have all : [r].filter (fun r => testable s r.target && !s.tests.skipped.contains r.target) = [r] := by simp [can, kept]
    rw [← only, List.filter_filter] at all
    rw [← only]
    refine Eq.trans (List.filter_congr fun x _ => ?_) all
    rw [Bool.and_assoc, Bool.and_comm]
  unfold nextTestCore
  rw [one]
  cases filed : r.filed with
  | false => simp [filed]
  | true => simp [filed]

/-- The core that a rotation takes. -/
def coreTaken (k : Nat) (rotates : Bool) (s : State) : State :=
  setTests (fun t => { t with
    underTest := some (k, 1)
    nextCore := if rotates then k + 1 else t.nextCore
    skipped := if rotates && decide (k < s.tests.nextCore) then [] else t.skipped
    reqs := t.reqs.map (fun r => if r.kind == 2 && r.target == k then { r with begun := true } else r) }) s

theorem coreTestRotation_takes {k : Nat} {rotates : Bool} (idle : s.tests.underTest = none) (runs : porterRuns s = true)
    (ready : s.porter.ready = true) (next : nextTestCore s = some (k, rotates)) : coreTestRotation s = coreTaken k rotates s := by
  unfold coreTestRotation
  rw [if_neg (by simp [idle, runs, ready]), next]
  rfl

/-- Requests of other kinds stay as they are. -/
theorem coreTaken_reqs {k : Nat} {rotates : Bool} (none_ : ∀ r ∈ s.tests.reqs, r.kind ≠ 2) :
    (coreTaken k rotates s).tests.reqs = s.tests.reqs := by
  show s.tests.reqs.map _ = _
  refine (List.map_congr_left (fun r mem => ?_)).trans (List.map_id _)
  simp [none_ r mem]

/-- The only requested test has begun. -/
theorem coreTaken_begun {r : TestReq} {rotates : Bool} (only : s.tests.reqs.filter (fun r => r.kind == 2) = [r]) :
    ∀ q ∈ (coreTaken r.target rotates s).tests.reqs, q.kind = 2 → q.begun = true := by
  intro q mem core
  obtain ⟨x, mx, rfl⟩ := List.mem_map.mp (show q ∈ s.tests.reqs.map _ from mem)
  by_cases mine : (x.kind == 2 && x.target == r.target) = true
  · rw [if_pos mine]
  · rw [if_neg mine] at core ⊢
    have : x ∈ s.tests.reqs.filter (fun r => r.kind == 2) := List.mem_filter.mpr ⟨mx, by simp [core]⟩
    rw [only, List.mem_singleton] at this
    simp [this, show r.kind = 2 from this ▸ core] at mine

/-! ### The test of a core ends -/

variable {core run : Nat}

theorem coreTestDrainTimeout_releases (under : s.tests.underTest = some (core, run)) (busy : tasksOn s core ≠ []) :
    coreTestDrainTimeout s = setTests (fun t => { t with
      underTest := none, skipped := addNew t.skipped core
      reqs := t.reqs.map (fun r => if r.kind == 2 && r.target == core then { r with begun := false } else r) }) s := by
  unfold coreTestDrainTimeout
  rw [under]
  dsimp only
  rw [if_neg (by simpa using busy)]

/-- What the end of a core's test does, its tasks having ended. -/
theorem coreSelfTestDone_eq (passed : Bool) (under : s.tests.underTest = some (core, run)) (idle : tasksOn s core = []) :
    coreSelfTestDone passed s =
      if passed then releaseCore core (setCore core (fun k => { k with withheld := false })
        (if run == 2 then setChan core (fun x => { x with transients := x.transients + 1 }) s else s))
      else if run == 1 then setTests (fun t => { t with underTest := some (core, 2) }) s
      else releaseCore core (retireCore false core (raise 0x2301 data (coreDie core) [a2 core] s)) := by
  unfold coreSelfTestDone
  rw [under]
  dsimp only
  rw [if_neg (by simp [idle])]

theorem coreSelfTestDone_passed (under : s.tests.underTest = some (core, run)) (idle : tasksOn s core = []) {t : State}
    (ht : t = coreSelfTestDone true s) : t.tests.underTest = none ∧ (coreAt t core).withheld = false ∧
      (∀ q ∈ t.tests.reqs, ¬ (q.kind = 2 ∧ q.target = core)) ∧
      (chan t core).transients = (chan s core).transients + (if run = 2 then 1 else 0) ∧
      (∀ k, k ≠ core → coreAt t k = coreAt s k ∧ chan t k = chan s k) ∧
      t = { s with tests := t.tests, cores := t.cores, channels := t.channels } := by
  obtain ⟨u, hu, channels, others, frame⟩ : ∃ u, t = releaseCore core (setCore core (fun k => { k with withheld := false }) u) ∧
      (chan u core).transients = (chan s core).transients + (if run = 2 then 1 else 0) ∧ (∀ k, k ≠ core → chan u k = chan s k) ∧
      u = { s with channels := u.channels } := by
    refine ⟨_, ht.trans ((coreSelfTestDone_eq true under idle).trans (if_pos rfl)), ?_⟩
    by_cases again : run = 2
    · simp only [again, beq_self_eq_true, if_true]
      exact ⟨by rw [chan_setChan, if_pos rfl], fun k ne => by rw [chan_setChan, if_neg ne], rfl⟩
    · rw [show (run == 2) = false by simpa using again, if_neg again]
      exact ⟨rfl, fun _ _ => rfl, rfl⟩
  subst hu
  have cores (k : Nat) : coreAt (releaseCore core (setCore core (fun k => { k with withheld := false }) u)) k =
      coreAt (setCore core (fun k => { k with withheld := false }) u) k := rfl
  refine ⟨rfl, ?_, fun q mem => ?_, channels, fun k ne => ⟨?_, others k ne⟩, ?_⟩
  · rw [cores, coreAt_setCore, if_pos rfl]
  · have kept := (List.mem_filter.mp mem).2
    simpa [imp_iff_not_or] using kept
  · rw [cores, coreAt_setCore, if_neg ne, frame]
    rfl
  · rw [frame]
    rfl

/-- A core that fails its test twice. -/
theorem coreFails_does (present_ : present s core = true) :
    present (retireCore false core (raise 0x2301 data (coreDie core) [a2 core] s)) core = false ∧
    Logged 0x2301 [a2 core] s (retireCore false core (raise 0x2301 data (coreDie core) [a2 core] s)) ∧
    Logged 0x2104 [a2 core, a2 5] s (retireCore false core (raise 0x2301 data (coreDie core) [a2 core] s)) := by
  have whole : chanState (raise 0x2301 data (coreDie core) [a2 core] s) core ≠ csRetired := by
    have whole : chanState s core ≠ 5 := by simpa [present] using present_
    exact whole
  obtain ⟨retired, logged⟩ := retireCore_retires whole
  refine ⟨?_, ?_, ?_⟩
  · simp [present, retired, csRetired]
  · exact ((retireCore_grows false core _).lately (loggedLately_raise data _ (Nat.le_refl _)) (by decide)).logged
  · exact logged_since (Nat.le_succ _) logged.logged

/-! ### A whole-tower test ends -/

/-- The cores that fail, the rows remapped and the margins applied of a tower under test. -/
def towerTested (t : Nat) (bad : List Nat) (rs : List (Nat × Nat)) (needs : List (List Nat)) (s : State) : State :=
  forEach (needs.zipIdx.take 3) (fun n s => if n.1.isEmpty then s else applyMargin (3 * t + n.2) n.1 s)
    (forEach rs (fun r s => remapRow r.1 r.2 s)
      (forEach bad (fun c s => retireCore false c (raise 0x2301 data (coreDie c) [a2 c] s)) s))

theorem towerTested_counted (t : Nat) (bad : List Nat) (rs : List (Nat × Nat)) (needs : List (List Nat)) (s : State) :
    s.log.next ≤ (towerTested t bad rs needs s).log.next := by
  have cores := (Grows.forEach (f := fun c s => retireCore false c (raise 0x2301 data (coreDie c) [a2 c] s))
    (fun c v => (Grows.raise 0x2301 data (coreDie c) [a2 c] v).trans (retireCore_grows false c _)) bad s).counted
  refine forEach_keeps (P := fun u => s.log.next ≤ u.log.next) _ (fun n _ u le => ?_)
    (Nat.le_trans cores (Grows.forEach (fun (r : Nat × Nat) v => remapRow_grows r.1 r.2 v) rs _).counted)
  split
  · exact le
  · exact Nat.le_trans le (applyMargin_counted ..)

/-- The end of a whole-tower test: its ponds read +0, its request is over, and the event. -/
def towerReleased (t bad rs : Nat) (s : State) : State :=
  raiseCtrl 0x2303 [a2 t, a2 bad, a2 rs] (setTests (fun x => { x with
    tower := none, reqs := x.reqs.filter (fun r => !(r.kind == 3 && r.begun && r.target == t)) }) (pondLost t s))

theorem towerSelfTestDone_eq {t : Nat} (under : s.tests.tower = some t) (failed : List Nat) (rows : List (Nat × Nat))
    (needs : List (List Nat)) : towerSelfTestDone t failed rows needs s =
      towerReleased t (failed.filter (fun c => towerOf c == t && present s c)).eraseDups.length
        (rows.filter (fun r => towerOf r.1 == t)).length
        (towerTested t (failed.filter (fun c => towerOf c == t && present s c)).eraseDups (rows.filter (fun r => towerOf r.1 == t)) needs s) := by
  unfold towerSelfTestDone
  rw [if_neg (by simp [under])]
  rfl

theorem towerReleased_does (t bad rs : Nat) (s : State) : (towerReleased t bad rs s).tests.tower = none ∧
    (∀ q ∈ (towerReleased t bad rs s).tests.reqs, ¬ (q.kind = 3 ∧ q.begun = true ∧ q.target = t)) ∧
    (∀ a, regionOf a = .pond → sliceOf a / 48 = t → cellsGet (towerReleased t bad rs s).mem.cells a = 0) ∧
    (towerReleased t bad rs s).channels = s.channels ∧ Grows 1 s (towerReleased t bad rs s) ∧
    Logged 0x2303 [a2 t, a2 bad, a2 rs] s (towerReleased t bad rs s) := by
  refine ⟨rfl, fun q mem => ?_, pondLost_zero t s, rfl, (Grows.raise ..).since rfl, logged_since (Nat.le_refl _) (raise_logged ..)⟩
  have kept := (List.mem_filter.mp (show q ∈ s.tests.reqs.filter _ from mem)).2
  simpa [imp_iff_not_or, or_assoc] using kept

/-- A whole-tower test in which one core has failed. -/
theorem towerSelfTestDone_core {t x : Nat} (under : s.tests.tower = some t) (here : x / 48 = t) (present_ : present s x = true) {u : State}
    (hu : u = towerSelfTestDone t [x] [] [] s) :
    present u x = false ∧ Logged 0x2301 [a2 x] s u ∧ Logged 0x2303 [a2 t, a2 1, a2 0] s u := by
  have bad : [x].filter (fun c => towerOf c == t && present s c) = [x] := by simp [towerOf, here, present_]
  have tested : towerTested t [x] [] [] s = retireCore false x (raise 0x2301 data (coreDie x) [a2 x] s) := rfl
  rw [towerSelfTestDone_eq under, bad, show [x].eraseDups = [x] from rfl] at hu
  change u = towerReleased t 1 0 (towerTested t [x] [] [] s) at hu
  rw [tested] at hu
  obtain ⟨retired, -, -⟩ := coreFails_does present_
  have grows := (Grows.raise 0x2301 data (coreDie x) [a2 x] s).trans (retireCore_grows false x _)
  have lately : LoggedLately 4 0x2301 [a2 x] s (retireCore false x (raise 0x2301 data (coreDie x) [a2 x] s)) :=
    (retireCore_grows false x _).lately (loggedLately_raise data _ (Nat.le_refl _)) (by decide)
  generalize retireCore false x (raise 0x2301 data (coreDie x) [a2 x] s) = v at *
  obtain ⟨-, -, -, channels, more, logged⟩ := towerReleased_does t 1 0 v
  rw [← hu] at channels more logged
  refine ⟨?_, (more.lately lately (by decide)).logged, logged_since grows.counted logged⟩
  rw [← retired]
  unfold present
  rw [chanState_of_channels channels]

/-- The first bytes of an event's arguments. -/
theorem take_args {code v : Nat} {more : List (Nat × Nat)} {u t : State} (logged : Logged code (a2 v :: more) u t) (since : s.log.next ≤ u.log.next) :
    ∃ e ∈ t.log.entries, s.log.next ≤ e.seq ∧ e.code = BitVec.ofNat 16 code ∧ e.args.take 2 = bytesLE 2 v := by
  obtain ⟨e, mem, le, isCode, args⟩ := logged
  refine ⟨e, mem, Nat.le_trans since le, isCode, ?_⟩
  rw [args]
  simp [fit, a2, List.take_append, Keeper.length_bytesLE]

end

/-- Settles O50: requests by the order they come in, the rotation and the tests' ends by their cases. -/
theorem testOrdersAndInServiceTests : Obligations.TestOrdersAndInServiceTests := by
  unfold Obligations.TestOrdersAndInServiceTests
  intro s c target
  refine ⟨fun p => ⟨fun lt => ⟨_, rfl, ?_⟩, fun ge => ⟨_, rfl, ?_⟩, fun lt => ⟨_, rfl, ?_⟩, fun ge lt => ⟨_, rfl, ?_⟩, fun bad => ⟨_, rfl, ?_⟩⟩,
    fun lt p => ⟨_, rfl, ?_⟩, fun lt p => ⟨⟨_, rfl, ?_⟩, fun consents none_ => ⟨fun open_ => ⟨_, rfl, ?_⟩, fun shut idle on still => ⟨_, rfl, ?_⟩⟩,
      fun consents some_ => ⟨_, rfl, ?_⟩, fun no => ⟨_, rfl, ?_⟩⟩, fun request => ⟨fun r found p => ?_, fun none_ p => ?_⟩,
    fun idle runs ready => ⟨fun none_ lt can => ⟨_, rfl, ?_⟩, fun r only can kept => ⟨_, rfl, ?_⟩⟩,
    fun core run under => ⟨fun busy => ⟨_, rfl, ?_⟩, fun idle => ⟨⟨_, rfl, ?_⟩, fun first => ⟨_, rfl, ?_⟩, fun second present_ => ⟨_, rfl, ?_⟩⟩⟩,
    fun tower under => ⟨fun failed rows needs => ⟨_, rfl, ?_⟩, fun x here present_ => ⟨_, rfl, ?_⟩⟩⟩
  · exact filed_of_accepted (kind := 0) p (if_neg (Nat.not_le.mpr lt))
  · exact target_refused p (if_pos ge)
  · exact filed_of_accepted (kind := 1) (begun := pondOn s (target.toNat / 48)) p (if_pos lt)
  · exact filed_of_accepted (kind := 1) p ((if_neg (by omega)).trans (if_pos (by simp [ge, lt])))
  · refine target_refused p ((if_neg (by omega)).trans (if_neg ?_))
    simp
    omega
  · exact filed_of_accepted (kind := 2) p (if_neg (Nat.not_le.mpr lt))
  · exact filed_of_accepted (kind := 4) (begun := towerOn s target.toNat) p (if_neg (Nat.not_le.mpr lt))
  · exact towerTest_waits p lt consents none_ open_
  · exact towerTest_begins p lt consents none_ shut idle on still rfl
  · refine order_refused (h := testWholeTower target.toNat) p (by decide) ((if_neg (Nat.not_le.mpr lt)).trans
      ((if_neg (show ¬ (!ownerConsents s) = true by simp [consents])).trans (if_pos (show (towerTests s != 0) = true by simpa using some_)))) rfl
  · refine order_refused (h := testWholeTower target.toNat) p (by decide) ((if_neg (Nat.not_le.mpr lt)).trans
      (if_pos (show (!ownerConsents s) = true by simp [no]))) rfl
  · have row : execCmdTestCancel c request s = .next (order 0x0702 c (testSubjects r.kind r.target) (testCancel request.toNat) s) := by
      unfold execCmdTestCancel
      rw [found]
    refine ⟨fun unfiled waiting => ⟨_, row, ?_⟩, fun unfiled begun => ⟨_, row, ?_⟩, fun filed => ⟨_, row, ?_⟩⟩
    · exact order_gives s p (by decide) (testCancel_waiting (s := takenState 0x0702 c (testSubjects r.kind r.target) s) found unfiled waiting) rfl
        ⟨rfl, (takenState_but s 0x0702 c _).2⟩ rfl (fun bad => absurd bad (by decide))
    · exact order_refused p (by decide) (testCancel_begun (s := takenState 0x0702 c (testSubjects r.kind r.target) s) found unfiled begun) rfl
    · exact order_refused p (by decide) (testCancel_filed (s := takenState 0x0702 c (testSubjects r.kind r.target) s) found filed) rfl
  · have row : execCmdTestCancel c request s = .next (order 0x0702 c [] (testCancel request.toNat) s) := by
      unfold execCmdTestCancel
      rw [none_]
    have meaning : testCancel request.toNat (pendingOf 0x0702 c s) (takenState 0x0702 c [] s) = badInline 0 (takenState 0x0702 c [] s) :=
      testCancel_unknown (s := takenState 0x0702 c [] s) none_
    exact ⟨_, row, order_refused p (by decide) meaning rfl⟩
  · rw [coreTestRotation_takes idle runs ready (nextTestCore_rotation none_ lt can)]
    exact ⟨rfl, rfl, coreTaken_reqs none_, rfl⟩
  · rw [coreTestRotation_takes idle runs ready (nextTestCore_requested only can kept)]
    exact ⟨rfl, rfl, coreTaken_begun only, rfl⟩
  · rw [coreTestDrainTimeout_releases under busy]
    refine ⟨rfl, Cellar.mem_addNew .., fun q mem core_ target_ => ?_, rfl⟩
    obtain ⟨x, -, rfl⟩ := List.mem_map.mp mem
    by_cases mine : (x.kind == 2 && x.target == core) = true
    · rw [if_pos mine]
    · rw [if_neg mine] at core_ target_
      simp [core_, target_] at mine
  · exact coreSelfTestDone_passed under idle rfl
  · rw [coreSelfTestDone_eq false under idle]
    simp [first, setTests]
  · obtain ⟨retired, failed, reported⟩ := coreFails_does present_
    rw [coreSelfTestDone_eq false under idle]
    simp only [second, Bool.false_eq_true, if_false, show (2 == 1) = false from rfl]
    exact ⟨retired, rfl, failed, reported⟩
  · rw [towerSelfTestDone_eq under]
    obtain ⟨idle, ended, zero, -, -, logged⟩ := towerReleased_does tower.val _ _ (towerTested tower.val _ _ needs s)
    exact ⟨idle, ended, zero, take_args logged (towerTested_counted ..)⟩
  · exact towerSelfTestDone_core under here present_ rfl

end Sys2Proof.SelfTests
end

