-- ==== Sys2Proof/Proofs/Domains.lean ====
section
/-! PROOFS. A domain in regulation starts what depends on it; one that fails twice is given up (14 R385 to R387, R391, R394; O20). -/

namespace Sys2Proof.Domains

open Sys2Proof.Machine Sys2Proof.Safety Sys2Proof.Laws Sys2Proof.Endings Sys2Proof.Towers

/-- A fold of which one step brings `Q` about from `P`: no other step undoes either. -/
theorem forEach_moves {α : Type} {P Q : State → Prop} {f : α → State → State} {l : List α} {a : α} {s : State} (mem : a ∈ l) (start : P s)
    (keepsP : ∀ b u, P u → P (f b u) ∨ Q (f b u)) (keepsQ : ∀ b u, Q u → Q (f b u)) (does : ∀ u, P u → Q (f a u)) :
    Q (forEach l f s) := by
  have after (l : List α) (u : State) (q : Q u) : Q (forEach l f u) := forEach_keeps (P := Q) u (fun b _ v => keepsQ b v) q
  induction l generalizing s with
  | nil => exact nomatch mem
  | cons b l ih =>
    rw [forEach_cons]
    rcases List.mem_cons.mp mem with rfl | mem
    · exact after l _ (does s start)
    · rcases keepsP b s start with p | q
      · exact ih mem p
      · exact after l _ q

section
variable {s t : State} {d k : Nat}

/-! ### Pacers start -/

/-- The start of pacers changes pacers and crossings. -/
theorem pacersStart_frame (d : Nat) (s : State) :
    pacersStart d s = { s with pace := (pacersStart d s).pace, crossings := (pacersStart d s).crossings } :=
  forEach_keeps (P := fun u => u = { s with pace := u.pace, crossings := u.crossings }) s
    (fun _ _ u h => by rw [senderMoved, setPace, h]) rfl

theorem pacersStart_starts (fed : k ∈ timingOf d) (s : State) :
    (paceAt (pacersStart d s) k).gated = false ∧ (paceAt (pacersStart d s) k).beats = 0 := by
  refine forEach_reaches (P := fun k u => (paceAt u k).gated = false ∧ (paceAt u k).beats = 0) (fun k u => ?_) (fun k j u h => ?_)
    (timingOf d) s k fed
  · rw [paceAt_of_pace (senderMoved_pace ..), paceAt_setPace, if_pos rfl]
    exact ⟨rfl, rfl⟩
  · rw [paceAt_of_pace (senderMoved_pace ..), paceAt_setPace]
    split
    · exact ⟨rfl, rfl⟩
    · exact h

theorem pacersStart_point (d k : Nat) (s : State) : (paceAt (pacersStart d s) k).point = (paceAt s k).point :=
  forEach_same (g := fun u => (paceAt u k).point) s (fun j _ u => by
    rw [paceAt_of_pace (senderMoved_pace ..), paceAt_setPace]
    split <;> rfl)

/-- A domain that has come into regulation, with its pacers started. -/
def regulated (d : Nat) (s : State) : State := pacersStart d (setSupply d .inRegulation s)

theorem supplyAt_regulated (d k : Nat) (s : State) : supplyAt (regulated d s) k = if k = d then .inRegulation else supplyAt s k := by
  unfold supplyAt regulated
  rw [pacersStart_frame]
  exact tget_tset ..

theorem inReg_regulated (d k : Nat) (s : State) : inReg (regulated d s) k = true ↔ k = d ∨ inReg s k = true := by
  show (supplyAt (regulated d s) k == .inRegulation) = true ↔ k = d ∨ (supplyAt s k == .inRegulation) = true
  rw [supplyAt_regulated]
  by_cases same : k = d
  · simp [same]
  · simp [same]

theorem inReg_of_supply {v : Supply} (h : supplyAt s k = v) (ne : v ≠ .inRegulation) : inReg s k = false := by
  show (supplyAt s k == .inRegulation) = false
  simp [h, ne]

/-! ### Base domains -/

theorem dependsOn_base (ge : 17 ≤ d) (lt : d < 26) : dependsOn d = [16] := by
  unfold dependsOn
  rw [if_neg (by omega), if_neg (by omega), if_neg (by simp; omega), if_pos lt]

theorem dependsOn_pond (ge : 8 ≤ d) (lt : d < 16) : dependsOn d = [16] := by
  unfold dependsOn
  rw [if_neg (by omega), if_pos lt]

theorem domainInRegulation_base {a : Nat} (ge : 16 ≤ d) (lt : d < 26) (ramps : supplyAt s d = .ramping a) :
    domainInRegulation d s = tryPorter (if d < 25 then switchOn (d + 1) (regulated d s) else regulated d s) := by
  unfold domainInRegulation
  rw [ramps]
  dsimp only
  rw [if_neg (by omega), if_neg (by omega), if_neg (by simp [sdCtl]; omega), if_neg (by simp [sdSns]; omega)]
  rfl

/-- While a base domain still ramps, Porter does not start. -/
theorem tryPorter_waits {a : Nat} (ge : 16 ≤ k) (lt : k < 26) (ramps : supplyAt s k = .ramping a) : tryPorter s = s := by
  have not : baseDomainsUp s = false := by
    unfold baseDomainsUp
    rw [List.all_eq_false]
    refine ⟨k - 16, List.mem_range.mpr (by omega), ?_⟩
    rw [show 16 + (k - 16) = k by omega, inReg_of_supply ramps (by simp)]
    simp
  unfold tryPorter
  rw [not, Bool.and_false, if_neg (by simp)]

/-- A base domain ramps the next. -/
theorem baseDomain_ramps {a : Nat} (ge : 16 ≤ d) (lt : d < 25) (ramps : supplyAt s d = .ramping a) (mere : d = 16 ∨ inReg s 16 = true)
    (off : supplyAt s (d + 1) = .off) : domainInRegulation d s = setSupply (d + 1) (.ramping 1) (regulated d s) := by
  have next : switchOn (d + 1) (regulated d s) = setSupply (d + 1) (.ramping 1) (regulated d s) := by
    refine Keeper.switchOn_off ?_ (fun k dep => ?_)
    · rw [supplyAt_regulated, if_neg (by omega)]
      exact off
    · rw [dependsOn_base (by omega) (by omega), List.mem_singleton] at dep
      rw [inReg_regulated, dep]
      exact mere.imp Eq.symm id
  rw [domainInRegulation_base ge (by omega) ramps, if_pos lt, next]
  exact tryPorter_waits (k := d + 1) (by omega) (by omega) ((supplyAt_setSupply ..).trans (if_pos rfl))

/-! ### Porter starts -/

/-- Porter in service, training begun. -/
def porterStarted (s : State) : State := issueCert { s with
  porter := { s.porter with porter := 1 }
  power := { s.power with phase := .training, mereZeroed := true } }

def pondsRamp (s : State) : State := forEach (List.range 8) (fun t s => switchOn (8 + t) s) s

theorem tryPorter_starts (phase : s.power.phase = .keeper) (fetch : s.sec.fetch = none) (porter : tfind? s.sec.images 2 ≠ none)
    (micro : tfind? s.sec.images 3 ≠ none) (up : baseDomainsUp s = true) : tryPorter s = pondsRamp (porterStarted s) := by
  unfold tryPorter
  rw [if_pos]
  · rfl
  · simp [phase, fetch, up, Option.ne_none_iff_isSome.mp porter, Option.ne_none_iff_isSome.mp micro]

/-- `t` is `s` but for supplies. -/
def OnlyDomains (s t : State) : Prop := t = { s with power := { s.power with domains := t.power.domains } }

theorem OnlyDomains.trans {u : State} (h : OnlyDomains s t) (k : OnlyDomains t u) : OnlyDomains s u := by
  unfold OnlyDomains at k
  rw [h] at k
  exact k

theorem switchOn_onlyDomains (d : Nat) (s : State) : OnlyDomains s (switchOn d s) := by
  unfold switchOn
  split
  · rfl
  · rfl

theorem pondsRamp_onlyDomains (s : State) : OnlyDomains s (pondsRamp s) :=
  forEach_keeps (P := OnlyDomains s) s (fun t _ u h => h.trans (switchOn_onlyDomains (8 + t) u)) rfl

/-- Switching on changes no supply but one that is off. -/
theorem supplyAt_switchOn (d k : Nat) (s : State) (other : supplyAt s k ≠ .off ∨ k ≠ d) : supplyAt (switchOn d s) k = supplyAt s k := by
  unfold switchOn
  split
  · next off =>
    rw [supplyAt_setSupply]
    split
    · next same =>
      subst same
      simp at off
      rcases other with on | ne
      · exact absurd off.1 on
      · exact absurd rfl ne
    · rfl
  · rfl

theorem inReg_switchOn {d : Nat} (on : inReg s k = true) : inReg (switchOn d s) k = true := by
  have supply : supplyAt s k = .inRegulation := by simpa [inReg, supplyAt] using on
  show (supplyAt (switchOn d s) k == .inRegulation) = true
  rw [supplyAt_switchOn d k s (.inl (by rw [supply]; decide)), supply]
  rfl

/-- Above a Mere in regulation every pond that is off ramps. -/
theorem pondsRamp_ramps (mere : inReg s 16 = true) (lt : k < 8) (off : supplyAt s (8 + k) = .off) :
    supplyAt (pondsRamp s) (8 + k) = .ramping 1 := by
  have ramps (u : State) (p : inReg u 16 = true ∧ supplyAt u (8 + k) = .off) : supplyAt (switchOn (8 + k) u) (8 + k) = .ramping 1 := by
    rw [Keeper.switchOn_off p.2 (by rw [dependsOn_pond (by omega) (by omega)]; simpa using p.1), supplyAt_setSupply, if_pos rfl]
  refine forEach_moves (P := fun u => inReg u 16 = true ∧ supplyAt u (8 + k) = .off) (Q := fun u => supplyAt u (8 + k) = .ramping 1)
    (List.mem_range.mpr lt) ⟨mere, off⟩ (fun b u p => ?_) (fun b u q => ?_) ramps
  · by_cases same : b = k
    · subst same
      exact .inr (ramps u p)
    · exact .inl ⟨inReg_switchOn p.1, (supplyAt_switchOn _ _ u (.inr (by omega))).trans p.2⟩
  · exact (supplyAt_switchOn _ _ u (.inl (by rw [q]; simp))).trans q

/-! ### The logic of a tower -/

/-- The tower's pacers run at their points, limited by `c`. -/
def pointsLimited (t c : Nat) (s : State) : State :=
  forEach (logicLayers t) (fun d s => setPace d (fun p => { p with point := BitVec.ofNat 4 (min p.point.toNat c) }) s) s

theorem pointsLimited_pace (t c j : Nat) (lt : j < 3) (s : State) : paceAt (pointsLimited t c s) (3 * t + j) =
    { paceAt s (3 * t + j) with point := BitVec.ofNat 4 (min (paceAt s (3 * t + j)).point.toNat c) } := by
  unfold pointsLimited logicLayers
  simp only [forEach_cons, forEach_nil, paceAt_setPace]
  interval_cases j
  · rw [if_neg (by omega), if_neg (by omega), if_pos (by omega)]
  · rw [if_neg (by omega), if_pos (by omega), if_neg (by omega)]
  · rw [if_pos (by omega), if_neg (by omega), if_neg (by omega)]

theorem unprime_frame (js : List Nat) (t : Nat) (s : State) :
    unprime js t s = { s with gov := { s.gov with layers := (unprime js t s).gov.layers } } :=
  forEach_keeps (P := fun u => u = { s with gov := { s.gov with layers := u.gov.layers } }) s
    (fun _ _ u h => by rw [setLayer, h]) rfl

theorem unprime_same (js : List Nat) (t : Nat) (s : State) :
    (unprime js t s).power = s.power ∧ (unprime js t s).pace = s.pace ∧ (unprime js t s).log = s.log := by
  rw [unprime_frame]
  exact ⟨rfl, rfl, rfl⟩

/-- The limit of a tower's points as it comes up (15 R409, R421). -/
def pointLimit (s : State) (t : Nat) : Nat := if vrHolding s then 0 else effCeiling s t

theorem logicUp_eq (t : Nat) (s : State) : logicUp t s = unprime [1, 3, 5] t (pointsLimited t (pointLimit s t)
    (setTower t (fun g => { g with stoppedCool := false }) (regulated t s))) := by
  have gov : (regulated t s).gov = s.gov := by rw [regulated, pacersStart_frame]; rfl
  have limit : (if vrHolding (setTower t (fun g => { g with stoppedCool := false }) (regulated t s)) then 0
      else effCeiling (setTower t (fun g => { g with stoppedCool := false }) (regulated t s)) t) = pointLimit s t := by
    have ceiling : (towerGov (setTower t (fun g => { g with stoppedCool := false }) (regulated t s)) t).ceiling = (towerGov s t).ceiling := by
      rw [towerGov_setTower, if_pos rfl]
      unfold towerGov
      rw [gov]
    have ageing : ageingCeiling (setTower t (fun g => { g with stoppedCool := false }) (regulated t s)) t = ageingCeiling s t := by
      unfold ageingCeiling setTower
      rw [gov]
    have hold : vrHolding (setTower t (fun g => { g with stoppedCool := false }) (regulated t s)) = vrHolding s := by
      unfold vrHolding setTower
      rw [gov]
    unfold pointLimit effCeiling
    rw [ceiling, ageing, hold]
  rw [← limit]
  rfl

theorem logicUp_does (t : Nat) (low : t < 8) (s : State) : supplyAt (logicUp t s) t = .inRegulation ∧
    (∀ j, j < 3 → (paceAt (logicUp t s) (3 * t + j)).gated = false ∧
      (paceAt (logicUp t s) (3 * t + j)).point.toNat = min (paceAt s (3 * t + j)).point.toNat (pointLimit s t)) ∧
    (logicUp t s).power.gating = s.power.gating ∧ (logicUp t s).log = s.log := by
  have fed : ∀ j, j < 3 → t < 8 → 3 * t + j ∈ timingOf t := fun j lt low => by
    unfold timingOf
    rw [if_pos low]
    simp
    omega
  have gating : (regulated t s).power.gating = s.power.gating := by rw [regulated, pacersStart_frame]; rfl
  have log : (regulated t s).log = s.log := by rw [regulated, pacersStart_frame]; rfl
  have supply : supplyAt (regulated t s) t = .inRegulation := by rw [supplyAt_regulated, if_pos rfl]
  have starts (j : Nat) (lt : j < 3) : (paceAt (regulated t s) (3 * t + j)).gated = false := (pacersStart_starts (fed j lt low) _).1
  have point (j : Nat) : (paceAt (regulated t s) (3 * t + j)).point = (paceAt s (3 * t + j)).point := pacersStart_point ..
  rw [logicUp_eq]
  generalize regulated t s = r at *
  obtain ⟨power, pace, same⟩ := unprime_same [1, 3, 5] t
    (pointsLimited t (pointLimit s t) (setTower t (fun g => { g with stoppedCool := false }) r))
  refine ⟨?_, fun j lt => ?_, ?_, ?_⟩
  · rw [supplyAt_of_domains (congrArg Power.domains power)]
    exact supply
  · rw [paceAt_of_pace pace, pointsLimited_pace t _ j lt]
    refine ⟨starts j lt, ?_⟩
    show (BitVec.ofNat 4 (min (paceAt r (3 * t + j)).point.toNat (pointLimit s t))).toNat = _
    rw [point, BitVec.toNat_ofNat, Nat.mod_eq_of_lt]
    have := (paceAt s (3 * t + j)).point.isLt
    omega
  · rw [power]
    exact gating
  · rw [same]
    exact log

theorem domainInRegulation_logic {a : Nat} (lt : d < 8) (ramps : supplyAt s d = .ramping a) : domainInRegulation d s =
    if tfind? s.power.gating d = some 1 then gateReached d 1 (logicUp d s) else logicUp d s := by
  unfold domainInRegulation
  rw [ramps]
  dsimp only
  rw [if_pos lt, (logicUp_does d lt s).2.2.1]
  simp only [beq_iff_eq]

/-! ### The ponds of a tower -/

/-- The ponds of a tower that have come up: lost, their models to start again. -/
def pondsUp (t : Nat) (s : State) : State := unprime [2, 4, 6] t (pondLost t (regulated (8 + t) s))

theorem pondsUp_power (t : Nat) (s : State) :
    (pondsUp t s).power = { s.power with domains := tset s.power.domains (8 + t) .inRegulation } := by
  unfold pondsUp
  rw [unprime_frame, regulated, pacersStart_frame]
  rfl

theorem domainInRegulation_pond {a t : Nat} (lt : t < 8) (ramps : supplyAt s (8 + t) = .ramping a) : domainInRegulation (8 + t) s =
    if tfind? s.power.gating t = some 1 then logicOn t (pondsUp t s) else startTowerTests (pondsUp t s) := by
  have gating : tfind? (pondsUp t s).power.gating t = tfind? s.power.gating t := by rw [pondsUp_power]
  unfold domainInRegulation
  rw [ramps]
  dsimp only
  rw [if_neg (by omega), if_pos (by omega), show 8 + t - 8 = t by omega]
  show (if tfind? (pondsUp t s).power.gating t == some 1 then logicOn t (pondsUp t s) else startTowerTests (pondsUp t s)) = _
  rw [gating]
  simp only [beq_iff_eq]

theorem enterForerunner_power (t : Nat) (s : State) : (enterForerunner t s).power = s.power := by
  unfold enterForerunner
  split
  · simp
  · rfl

/-- TLn ramps where it is off and may. -/
theorem supplyAt_logicOn (t k : Nat) (s : State) : supplyAt (logicOn t s) k =
    if k = t ∧ supplyAt s t = .off ∧ depsMet s t = true then .ramping 1 else supplyAt s k := by
  have same (u : State) (power : u.power = s.power) (k : Nat) : supplyAt u k = supplyAt s k := by
    unfold supplyAt
    rw [power]
  unfold logicOn
  by_cases may : (supplyAt s t == .off && depsMet s t) = true
  · have both : supplyAt s t = .off ∧ depsMet s t = true := by simpa using may
    have met : depsMet (enterForerunner t s) t = true := by
      rw [← both.2]
      unfold depsMet inReg
      rw [enterForerunner_power]
    have on : switchOn t (enterForerunner t s) = setSupply t (.ramping 1) (enterForerunner t s) := by
      simp [switchOn, same _ (enterForerunner_power t s), both.1, met]
    rw [if_pos may, on, supplyAt_setSupply, same _ (enterForerunner_power t s)]
    by_cases here : k = t
    · rw [if_pos here, if_pos ⟨here, both⟩]
    · rw [if_neg here, if_neg (fun h => here h.1)]
  · rw [if_neg may, if_neg]
    rintro ⟨-, off, met⟩
    simp [off, met] at may

theorem supplyAt_startTowerTests (s : State) (k : Nat) (on : supplyAt s k ≠ .off) : supplyAt (startTowerTests s) k = supplyAt s k := by
  unfold startTowerTests
  split
  · refine forEach_keeps (P := fun u => supplyAt u k = supplyAt s k) s (fun t _ u h => ?_) rfl
    rw [supplyAt_logicOn, if_neg]
    · exact h
    · rintro ⟨rfl, off, -⟩
      exact on (h ▸ off)
  · rfl

/-! ### A tower that is given up -/

theorem stopped_domains (powerUp : Bool) (code c st : Nat) (s : State) :
    (chanEvent powerUp code c (setChanState c st (stopCore c s))).power.domains = s.power.domains := by
  show (setChanState c st (stopCore c s)).power.domains = _
  unfold setChanState
  rw [capBump_power]
  show (stopCore c s).power.domains = _
  rw [stopCore_onlyWork]

theorem lendingEnded_domains (c : Nat) (s : State) : (lendingEnded c s).power.domains = s.power.domains := rfl

theorem retireCore_domains (c : Nat) (s : State) : (retireCore false c s).power.domains = s.power.domains := by
  by_cases retired : chanState s c = csRetired
  · simp [retireCore, retired]
  · rw [retireCore_eq retired]
    split
    · exact (lendingEnded_domains ..).trans ((stopped_domains ..).trans (stopped_domains ..))
    · split
      · refine (lendingEnded_domains ..).trans (Eq.trans ?_ (stopped_domains false 0x2104 c csRetired s))
        unfold setChanState
        rw [capBump_power]
        rfl
      · exact stopped_domains ..

/-- The states of channels once a core is retired (02 R47, R52). -/
theorem chanState_retireCore (c k : Nat) (s : State) : chanState (retireCore false c s) k =
    if k = c then csRetired
    else if k = partner c ∧ chanState s c = csLending then csRetired
    else if k = partner c ∧ chanState s c = csBorrowing then csWhole else chanState s k := by
  by_cases retired : chanState s c = csRetired
  · have same : retireCore false c s = s := by simp [retireCore, retired]
    rw [same, retired]
    by_cases here : k = c
    · rw [if_pos here, here, retired]
    · rw [if_neg here, if_neg (by simp [csRetired, csLending]), if_neg (by simp [csRetired, csBorrowing])]
  · rw [retireCore_eq retired]
    by_cases lends : chanState s c = csLending
    · rw [if_pos lends, chanState_of_channels lendingEnded_channels, chanState_retiredAlone, chanState_retiredAlone, lends]
      have ne : csLending ≠ csBorrowing := by decide
      by_cases other : k = partner c
      · simp [other]
      · simp [other]
    · by_cases borrows : chanState s c = csBorrowing
      · rw [if_neg lends, if_pos borrows, chanState_of_channels lendingEnded_channels, chanState_setChanState, chanState_retiredAlone, borrows]
        have ne : ¬ csBorrowing = csLending := by decide
        by_cases other : k = partner c
        · simp [other, ne, (partner_ne c).symm, csWhole]
        · simp [other]
      · rw [if_neg lends, if_neg borrows, chanState_retiredAlone]
        simp only [lends, borrows, and_false, if_false]

/-- A borrower's partner lends (02 R47). -/
def Paired (s : State) : Prop := ∀ c, c < 384 → chanState s c = csBorrowing → chanState s (partner c) = csLending

theorem partner_partner (c : Nat) : partner (partner c) = c := by
  unfold partner
  rw [Nat.xor_assoc, Nat.xor_self, Nat.xor_zero]

/-- Retiring a core keeps borrowers and lenders paired. -/
theorem Paired.retireCore (h : Paired s) (c : Nat) : Paired (retireCore false c s) := by
  intro x lt borrows
  rw [chanState_retireCore] at borrows ⊢
  by_cases here : x = c
  · rw [if_pos here] at borrows
    exact absurd borrows (by decide)
  · rw [if_neg here] at borrows
    by_cases lends : x = partner c ∧ chanState s c = csLending
    · rw [if_pos lends] at borrows
      exact absurd borrows (by decide)
    · rw [if_neg lends] at borrows
      by_cases freed : x = partner c ∧ chanState s c = csBorrowing
      · rw [if_pos freed] at borrows
        exact absurd borrows (by decide)
      · rw [if_neg freed] at borrows
        have lender := h x lt borrows
        have apart : partner x ≠ c := by
          intro same
          exact lends ⟨by rw [← same, partner_partner], same ▸ lender⟩
        have apart' : partner x ≠ partner c := by
          intro same
          exact here (by rw [← partner_partner x, same, partner_partner])
        rw [if_neg apart, if_neg (fun h => apart' h.1), if_neg (fun h => apart' h.1)]
        exact lender

/-- A core that is retired stays so, whichever others are. -/
theorem retired_retireCore (h : Paired s) {c k : Nat} (lt : c < 384) (retired : chanState s k = csRetired) :
    chanState (retireCore false c s) k = csRetired := by
  rw [chanState_retireCore]
  by_cases here : k = c
  · rw [if_pos here]
  · rw [if_neg here]
    by_cases lends : k = partner c ∧ chanState s c = csLending
    · rw [if_pos lends]
    · rw [if_neg lends, if_neg, retired]
      rintro ⟨rfl, borrows⟩
      exact absurd ((h c lt borrows).symm.trans retired) (by decide)

/-- Every core of a list is retired. -/
theorem forEach_retires (l : List Nat) (low : ∀ c ∈ l, c < 384) (s : State) (h : Paired s) :
    ∀ c ∈ l, chanState (forEach l (retireCore false) s) c = csRetired := by
  have keeps (l : List Nat) (low : ∀ c ∈ l, c < 384) (k : Nat) (u : State) (p : Paired u ∧ chanState u k = csRetired) :
      Paired (forEach l (retireCore false) u) ∧ chanState (forEach l (retireCore false) u) k = csRetired :=
    forEach_keeps (P := fun u => Paired u ∧ chanState u k = csRetired) u
      (fun c mem v p => ⟨p.1.retireCore c, retired_retireCore p.1 (low c mem) p.2⟩) p
  induction l generalizing s with
  | nil => exact fun _ mem => nomatch mem
  | cons b l ih =>
    intro c mem
    rcases List.mem_cons.mp mem with rfl | mem
    · refine (keeps l (fun c mem => low c (List.mem_cons_of_mem _ mem)) c _ ⟨h.retireCore c, ?_⟩).2
      rw [chanState_retireCore, if_pos rfl]
    · exact ih (fun c mem => low c (List.mem_cons_of_mem _ mem)) _ (h.retireCore b) c mem

theorem mem_coresOfTower {c t : Nat} : c ∈ coresOfTower t ↔ towerOf c = t := by
  unfold coresOfTower towerOf
  simp only [List.mem_map, List.mem_range]
  exact ⟨by rintro ⟨i, lt, rfl⟩; omega, fun eq => ⟨c % 48, by omega, by omega⟩⟩

theorem gateEnded_frame (st t : Nat) (s : State) : (gateEnded st t s).power.domains = s.power.domains ∧
    (gateEnded st t s).channels = s.channels := by
  unfold gateEnded
  rw [finishAll_onlyAnswers _ _ rfl]
  exact ⟨rfl, rfl⟩

/-- The tower's bring-up test is over. -/
def towerNoted (t : Nat) (s : State) : State :=
  { s with power := { s.power with towersTested := if t < 8 && !(s.power.towersTested.map (·.val)).contains t
    then s.power.towersTested ++ [Fin.ofNat 8 t] else s.power.towersTested } }

theorem towerLost_eq (t : Nat) (s : State) : towerLost t s = gateEnded stDeviceFault t
    (towerNoted t (forEach (coresOfTower t) (retireCore false) (pondOff t (towerLogicOff t s)))) := rfl

/-- A tower that is given up is off with its ponds, and all its cores are retired. -/
theorem towerLost_does (lt : k < 8) (h : Paired s) : supplyAt (towerLost k s) k = .off ∧ supplyAt (towerLost k s) (8 + k) = .off ∧
    ∀ c, towerOf c = k → chanState (towerLost k s) c = csRetired := by
  obtain ⟨logic, -, logicSupply⟩ := towerLogicOff_supplies k s
  obtain ⟨ponds, -, pondSupply⟩ := pondOff_supplies k (towerLogicOff k s)
  have channels : (pondOff k (towerLogicOff k s)).channels = s.channels := by rw [logic.trans ponds]
  have paired : Paired (pondOff k (towerLogicOff k s)) := by
    unfold Paired at *
    simp only [chanState_of_channels channels]
    exact h
  have retires := forEach_retires (coresOfTower k) (fun c mem => by
    have := mem_coresOfTower.mp mem
    unfold towerOf at this
    omega) _ paired
  have domains : (forEach (coresOfTower k) (retireCore false) (pondOff k (towerLogicOff k s))).power.domains =
      (pondOff k (towerLogicOff k s)).power.domains :=
    forEach_same (g := fun u => u.power.domains) _ (fun c _ u => retireCore_domains c u)
  have lost : (towerLost k s).power.domains = (pondOff k (towerLogicOff k s)).power.domains ∧
      (towerLost k s).channels = (forEach (coresOfTower k) (retireCore false) (pondOff k (towerLogicOff k s))).channels := by
    rw [towerLost_eq]
    generalize forEach (coresOfTower k) (retireCore false) (pondOff k (towerLogicOff k s)) = u at *
    obtain ⟨same, kept⟩ := gateEnded_frame stDeviceFault k (towerNoted k u)
    exact ⟨same.trans domains, kept⟩
  refine ⟨?_, ?_, fun c here => ?_⟩
  · rw [supplyAt_of_domains lost.1, pondSupply, if_neg (by omega), logicSupply, if_pos rfl]
  · rw [supplyAt_of_domains lost.1, pondSupply, if_pos rfl]
  · rw [chanState_of_channels lost.2]
    exact retires c (mem_coresOfTower.mpr here)

/-! ### A domain does not reach regulation -/

/-- The event that a domain has failed to reach regulation. -/
def failureReported (d a : Nat) (s : State) : State := if keeperAlive s then raiseMgmt 0x6004 [a2 d, a2 a] s else s

theorem domainRegulationTimeout_eq {a : Nat} (ramps : supplyAt s d = .ramping a) : domainRegulationTimeout d s =
    let u := failureReported d a s
    if a = 1 then setSupply d (.ramping 2) u
    else if d < 16 then towerLost (d % 8) u
    else if keeperAlive u then bringupStop 3 (setSupply d .off u) else powerLost u := by
  unfold domainRegulationTimeout
  rw [ramps]
  simp only [beq_iff_eq]
  rfl

theorem failureReported_same (d a : Nat) (s : State) : (failureReported d a s).channels = s.channels := by
  unfold failureReported
  split <;> rfl

/-- An event and a supply that changes, in either order. -/
theorem setSupply_raise (d : Nat) (v : Supply) (code plane die : Nat) (args : List (Nat × Nat)) (s : State) :
    setSupply d v (raise code plane die args s) = raise code plane die args (setSupply d v s) := rfl

theorem bringupStop_grows (why : Nat) (s : State) : Grows 1 s (bringupStop why s) := by
  unfold bringupStop
  dsimp only
  split
  · exact (Grows.raise ..).since rfl
  · exact (Grows.raise ..).since rfl

/-- A base domain that fails twice stops bring-up. -/
theorem base_given_up (ge : 16 ≤ d) (ramps : supplyAt s d = .ramping 2) (alive : keeperAlive s = true) :
    supplyAt (domainRegulationTimeout d s) d = .off ∧ (domainRegulationTimeout d s).power.phase = .stopped 3 ∧
    Logged 0x6004 [a2 d, a2 2] s (domainRegulationTimeout d s) ∧ Logged 0x6006 [a2 3] s (domainRegulationTimeout d s) := by
  have winds := raiseMgmt_winds 0x6004 [a2 d, a2 2] s
  have eq : domainRegulationTimeout d s = bringupStop 3 (setSupply d .off (raiseMgmt 0x6004 [a2 d, a2 2] s)) := by
    rw [domainRegulationTimeout_eq ramps]
    unfold failureReported
    rw [alive]
    dsimp only
    rw [if_neg (by decide), if_neg (by omega), if_pos rfl, if_pos (winds.keeperAlive.trans alive)]
  have failed : LoggedLately 1 0x6004 [a2 d, a2 2] s (setSupply d .off (raiseMgmt 0x6004 [a2 d, a2 2] s)) :=
    (loggedLately_raise mgmt dieControl (Nat.le_refl _)).of_log rfl
  have counted : s.log.next ≤ (setSupply d .off (raiseMgmt 0x6004 [a2 d, a2 2] s)).log.next := winds.counted
  have off : supplyAt (setSupply d .off (raiseMgmt 0x6004 [a2 d, a2 2] s)) d = .off := (supplyAt_setSupply ..).trans (if_pos rfl)
  rw [eq]
  generalize setSupply d .off (raiseMgmt 0x6004 [a2 d, a2 2] s) = u at *
  obtain ⟨phase, domains, -, -, logged⟩ := Keeper.bringupStop_does 3 u
  exact ⟨(supplyAt_of_domains domains d).trans off, phase, ((bringupStop_grows 3 u).lately failed (by decide)).logged,
    logged_since counted logged⟩

/-- A tower of which a domain fails twice. -/
theorem tower_given_up (lt : d < 16) (ramps : supplyAt s d = .ramping 2) (paired : Paired s) :
    supplyAt (domainRegulationTimeout d s) (d % 8) = .off ∧ supplyAt (domainRegulationTimeout d s) (8 + d % 8) = .off ∧
    ∀ c, towerOf c = d % 8 → chanState (domainRegulationTimeout d s) c = csRetired := by
  have eq : domainRegulationTimeout d s = towerLost (d % 8) (failureReported d 2 s) := by
    rw [domainRegulationTimeout_eq ramps]
    dsimp only
    rw [if_neg (by decide), if_pos lt]
  rw [eq]
  refine towerLost_does (by omega) ?_
  unfold Paired at *
  simp only [chanState_of_channels (failureReported_same d 2 s)]
  exact paired

theorem first_failure (ramps : supplyAt s d = .ramping 1) (alive : keeperAlive s = true) : domainRegulationTimeout d s =
    raiseMgmt 0x6004 [a2 d, a2 1] (setSupply d (.ramping 2) s) := by
  rw [domainRegulationTimeout_eq ramps]
  unfold failureReported
  rw [alive]
  exact setSupply_raise ..

/-! ### The rows -/

/-- CTL in regulation. -/
theorem ctl_regulated {a : Nat} (ramps : supplyAt s 26 = .ramping a) : supplyAt (domainInRegulation 26 s) 26 = .inRegulation ∧
    supplyAt (domainInRegulation 26 s) 27 = .ramping 1 ∧ (paceAt (domainInRegulation 26 s) 63).gated = false ∧
    (paceAt (domainInRegulation 26 s) 63).beats = 0 := by
  have eq : domainInRegulation 26 s = switchOn 27 (setSupply 27 .off (regulated 26 s)) := by
    unfold domainInRegulation
    rw [ramps]
    rfl
  have on : switchOn 27 (setSupply 27 .off (regulated 26 s)) = setSupply 27 (.ramping 1) (setSupply 27 .off (regulated 26 s)) :=
    Keeper.switchOn_off ((supplyAt_setSupply ..).trans (if_pos rfl)) (by simp [dependsOn])
  rw [eq, on]
  refine ⟨?_, ?_, pacersStart_starts (by decide) _⟩
  · rw [supplyAt_setSupply, if_neg (by decide), supplyAt_setSupply, if_neg (by decide), supplyAt_regulated, if_pos rfl]
  · rw [supplyAt_setSupply, if_pos rfl]

/-- SNS in regulation: it feeds no pacer, and the boot ROM may start. -/
theorem sns_regulated {a : Nat} (ramps : supplyAt s 27 = .ramping a) : domainInRegulation 27 s = { s with power := { s.power with
    domains := tset s.power.domains 27 .inRegulation, phase := if s.power.modRst then .held else .bootRom } } := by
  unfold domainInRegulation
  rw [ramps]
  rfl

/-- A base domain in regulation. -/
theorem base_regulated {a : Nat} (ge : 16 ≤ d) (lt : d < 25) (ramps : supplyAt s d = .ramping a) (mere : d = 16 ∨ inReg s 16 = true)
    (off : supplyAt s (d + 1) = .off) {t : State} (ht : t = domainInRegulation d s) :
    t = { s with power := t.power, pace := t.pace, crossings := t.crossings } ∧ supplyAt t d = .inRegulation ∧
    supplyAt t (d + 1) = .ramping 1 ∧ ∀ k, k ∈ timingOf d → (paceAt t k).gated = false := by
  rw [baseDomain_ramps ge lt ramps mere off] at ht
  subst ht
  refine ⟨?_, ?_, (supplyAt_setSupply ..).trans (if_pos rfl), fun k fed => (pacersStart_starts fed _).1⟩
  · have frame := pacersStart_frame d (setSupply d .inRegulation s)
    unfold regulated
    rw [frame]
    rfl
  · rw [supplyAt_setSupply, if_neg (by omega), supplyAt_regulated, if_pos rfl]

/-- The last base domain in regulation: Porter starts. -/
theorem last_regulated {a : Nat} (ramps : supplyAt s 25 = .ramping a) (others : ∀ k, 16 ≤ k → k < 25 → inReg s k = true)
    (phase : s.power.phase = .keeper) (fetch : s.sec.fetch = none) (porter : tfind? s.sec.images 2 ≠ none)
    (micro : tfind? s.sec.images 3 ≠ none) {t : State} (ht : t = domainInRegulation 25 s) : t.porter.porter = 1 ∧
    t.power.phase = .training ∧ t.power.mereZeroed = true ∧ ∀ k, k < 8 → supplyAt s (8 + k) = .off → supplyAt t (8 + k) = .ramping 1 := by
  have up : baseDomainsUp (regulated 25 s) = true := by
    unfold baseDomainsUp
    rw [List.all_eq_true]
    intro i mem
    rw [List.mem_range] at mem
    rw [inReg_regulated]
    by_cases last : 16 + i = 25
    · exact .inl last
    · exact .inr (others _ (by omega) (by omega))
  have mere : inReg (porterStarted (regulated 25 s)) 16 = true := (inReg_regulated 25 16 s).mpr (.inr (others 16 (by decide) (by decide)))
  have off (k : Nat) (lt : k < 8) (o : supplyAt s (8 + k) = .off) : supplyAt (porterStarted (regulated 25 s)) (8 + k) = .off := by
    refine Eq.trans (supplyAt_regulated 25 (8 + k) s) ?_
    rw [if_neg (by omega)]
    exact o
  have phase' : (regulated 25 s).power.phase = .keeper := by rw [regulated, pacersStart_frame]; exact phase
  have sec : (regulated 25 s).sec = s.sec := by rw [regulated, pacersStart_frame]; rfl
  have eq : t = pondsRamp (porterStarted (regulated 25 s)) := by
    rw [ht, domainInRegulation_base (by decide) (by decide) ramps, if_neg (by decide)]
    exact tryPorter_starts phase' (sec ▸ fetch) (sec ▸ porter) (sec ▸ micro) up
  have frame := pondsRamp_onlyDomains (porterStarted (regulated 25 s))
  unfold OnlyDomains at frame
  rw [← eq] at frame
  refine ⟨?_, ?_, ?_, fun k lt o => eq ▸ pondsRamp_ramps mere lt (off k lt o)⟩
  · rw [frame]; rfl
  · rw [frame]; rfl
  · rw [frame]; rfl

/-- TLn of a tower in regulation. -/
theorem logic_regulated {a : Nat} (lt : d < 8) (ramps : supplyAt s d = .ramping a) {t : State} (ht : t = domainInRegulation d s) :
    supplyAt t d = .inRegulation ∧ (∀ j, j < 3 → (paceAt t (3 * d + j)).gated = false ∧
      (paceAt t (3 * d + j)).point.toNat = min (paceAt s (3 * d + j)).point.toNat (pointLimit s d)) ∧
    (tfind? s.power.gating d = some 1 → tfind? t.power.gating d = none ∧ Logged 0x6003 [a2 d, a2 1] s t) := by
  obtain ⟨supply, paces, gating, log⟩ := logicUp_does d lt s
  rw [domainInRegulation_logic lt ramps] at ht
  by_cases gated : tfind? s.power.gating d = some 1
  · rw [if_pos gated] at ht
    obtain ⟨pace, domains, ended, logged⟩ := gateReached_does d 1 (logicUp d s)
    rw [← ht] at pace domains ended logged
    refine ⟨(supplyAt_of_domains domains d).trans supply, fun j low => ?_, fun _ => ⟨?_, ?_⟩⟩
    · rw [paceAt_of_pace pace]
      exact paces j low
    · rw [ended, tfind?_tdel, if_pos rfl]
    · exact logged_since (Nat.le_of_eq (congrArg Log.next log.symm)) logged.logged
  · rw [if_neg gated] at ht
    subst ht
    exact ⟨supply, paces, fun on => absurd on gated⟩

/-- TPn of a tower in regulation. -/
theorem pond_regulated {a t : Nat} (lt : t < 8) (ramps : supplyAt s (8 + t) = .ramping a) {u : State} (hu : u = domainInRegulation (8 + t) s) :
    supplyAt u (8 + t) = .inRegulation ∧ (tfind? s.power.gating t = some 1 → supplyAt s t = .off → inReg s 17 = true → inReg s 18 = true →
      supplyAt u t = .ramping 1) := by
  have up (k : Nat) : supplyAt (pondsUp t s) k = if k = 8 + t then .inRegulation else supplyAt s k := by
    unfold supplyAt
    rw [pondsUp_power]
    exact tget_tset ..
  have reg (k : Nat) (on : inReg s k = true) : inReg (pondsUp t s) k = true := by
    show (supplyAt (pondsUp t s) k == .inRegulation) = true
    rw [up]
    split
    · rfl
    · exact on
  rw [domainInRegulation_pond lt ramps] at hu
  by_cases gated : tfind? s.power.gating t = some 1
  · rw [if_pos gated] at hu
    subst hu
    refine ⟨?_, fun _ off r17 r18 => ?_⟩
    · rw [supplyAt_logicOn, if_neg (fun h => absurd h.1 (by omega)), up, if_pos rfl]
    · have met : depsMet (pondsUp t s) t = true := by
        have own : inReg (pondsUp t s) (8 + t) = true := by
          show (supplyAt (pondsUp t s) (8 + t) == .inRegulation) = true
          rw [up, if_pos rfl]
          rfl
        unfold depsMet dependsOn
        rw [if_pos lt]
        simp only [List.all_cons, List.all_nil, own, Bool.and_true, Bool.true_and]
        split
        · exact reg 17 r17
        · exact reg 18 r18
      rw [supplyAt_logicOn, if_pos ⟨rfl, by rw [up, if_neg (by omega)]; exact off, met⟩]
  · rw [if_neg gated] at hu
    subst hu
    refine ⟨?_, fun on => absurd on gated⟩
    rw [supplyAt_startTowerTests, up, if_pos rfl]
    rw [up, if_pos rfl]
    decide

end

/-- Settles O20: each domain by what its regulation starts, a failure by its count. -/
theorem domainSwitching : Obligations.DomainSwitching := by
  unfold Obligations.DomainSwitching
  intro s
  refine ⟨fun a ramps => ⟨_, rfl, ctl_regulated ramps⟩, fun a ramps => ⟨_, rfl, sns_regulated ramps⟩,
    fun d a ge lt ramps mere off => ⟨_, rfl, base_regulated ge lt ramps mere off rfl⟩,
    fun a ramps others phase fetch porter micro => ⟨_, rfl, last_regulated ramps others phase fetch porter micro rfl⟩,
    fun d a lt ramps => ⟨_, rfl, logic_regulated lt ramps rfl⟩, fun d a ge lt ramps => ⟨_, rfl, ?_⟩,
    fun d ramps alive => ⟨_, rfl, ?_⟩, fun d lt ramps paired => ⟨_, rfl, ?_⟩, fun d ge ramps alive => ⟨_, rfl, base_given_up ge ramps alive⟩⟩
  · obtain ⟨t, low, eq⟩ : ∃ t, t < 8 ∧ d.val = 8 + t := ⟨d.val - 8, by omega, by omega⟩
    rw [eq] at ramps ⊢
    rw [show 8 + t - 8 = t by omega]
    exact pond_regulated low ramps rfl
  · rw [first_failure ramps alive]
    exact raise_onlyEvent ..
  · obtain ⟨logic, ponds, cores⟩ := tower_given_up lt ramps paired
    exact ⟨logic, ponds, fun c _ here => cores c here⟩

end Sys2Proof.Domains
end

