-- ==== Sys2Proof/Proofs/Rooms.lean ====
section
/-! PROOFS. Rooms keep their owners, and what is RELEASING stays so, while orders and sessions end (07 R206, 13 R359). -/

namespace Sys2Proof.Sessions

open Sys2Proof.Machine Sys2Proof.Safety Sys2Proof.Laws Sys2Proof.Endings Sys2Proof.Orders

/-- From `s` to `t` no room comes, changes its owner or ceases to be RELEASING, and no tower enters or leaves forerunner mode. -/
structure Stays (s t : State) : Prop where
  leaving : t.cap.leaving = s.cap.leaving
  towers : t.cap.frTowers = s.cap.frTowers
  rooms : ∀ k r, roomAt t k = some r → ∃ r0, roomAt s k = some r0 ∧ r.owner = r0.owner ∧ (r0.releasing = true → r.releasing = true)

section
variable {s t u : State}

theorem Stays.of_same (rooms : t.rooms = s.rooms) (leaving : t.cap.leaving = s.cap.leaving) (towers : t.cap.frTowers = s.cap.frTowers) :
    Stays s t := by
  refine ⟨leaving, towers, fun k r held => ⟨r, ?_, rfl, id⟩⟩
  unfold roomAt at *
  rwa [← rooms]

theorem Stays.refl (s : State) : Stays s s := .of_same rfl rfl rfl

theorem Stays.trans (h : Stays s t) (k : Stays t u) : Stays s u := by
  refine ⟨k.leaving.trans h.leaving, k.towers.trans h.towers, fun i r held => ?_⟩
  obtain ⟨r1, held1, owner1, rel1⟩ := k.rooms i r held
  obtain ⟨r0, held0, owner0, rel0⟩ := h.rooms i r1 held1
  exact ⟨r0, held0, owner1.trans owner0, fun rel => rel1 (rel0 rel)⟩

/-- A change of neither rooms nor modes comes before. -/
theorem Stays.since (h : Stays t u) (rooms : t.rooms = s.rooms) (cap : t.cap = s.cap) : Stays s u :=
  (Stays.of_same rooms (by rw [cap]) (by rw [cap])).trans h

theorem Stays.forEach {α : Type} {f : α → State → State} (step : ∀ x v, Stays v (f x v)) (l : List α) (s : State) :
    Stays s (forEach l f s) :=
  forEach_keeps (P := Stays s) s (fun x _ v h => h.trans (step x v)) (Stays.refl s)

/-- A room changed in place. -/
theorem updRoom_stays (id : Nat) {f : Room → Room} (owner : ∀ r, (f r).owner = r.owner)
    (rel : ∀ r, r.releasing = true → (f r).releasing = true) (s : State) : Stays s (updRoom id f s) := by
  refine ⟨rfl, rfl, fun k r held => ?_⟩
  rw [roomAt_updRoom] at held
  split at held
  · obtain ⟨r0, held0, rfl⟩ := Option.map_eq_some_iff.mp held
    exact ⟨r0, held0, owner r0, rel r0⟩
  · exact ⟨r, held, rfl, fun h => h⟩

theorem settleRelease_stays (id : Nat) (s : State) : Stays s (settleRelease id s) := by
  unfold settleRelease
  split
  · split
    · refine ⟨rfl, rfl, fun k r held => ?_⟩
      have held' : tfind? (tdel s.rooms id) k = some r := held
      rw [tfind?_tdel] at held'
      split at held'
      · exact nomatch held'
      · exact ⟨r, held', rfl, fun h => h⟩
    · exact .refl s
  · exact .refl s

theorem unpinVer_owner (r : Room) (v : Nat) : (unpinVer r v).owner = r.owner ∧ (unpinVer r v).releasing = r.releasing := by
  unfold unpinVer
  split
  · exact ⟨rfl, rfl⟩
  · exact ⟨rfl, rfl⟩

theorem unpinRoom_stays (id v : Nat) (s : State) : Stays s (unpinRoom id v s) :=
  (updRoom_stays id (fun r => (unpinVer_owner r v).1) (fun r rel => (unpinVer_owner r v).2.trans rel) s).trans (settleRelease_stays ..)

theorem unpinRooms_stays (l : List (W16 × W16)) (s : State) :
    Stays s (forEach l (fun rv s => unpinRoom rv.1.toNat rv.2.toNat s) s) := .forEach (fun _ _ => unpinRoom_stays ..) l s

theorem releaseNow_stays (id : Nat) (s : State) : Stays s (releaseNow id s) :=
  (updRoom_stays id (f := fun r => { r with releasing := true }) (fun _ => rfl) (fun _ _ => rfl) s).trans (settleRelease_stays ..)

/-- What is left of a room that is released is RELEASING. -/
theorem releaseNow_releases (id : Nat) (s : State) {r : Room} (held : roomAt (releaseNow id s) id = some r) : r.releasing = true := by
  obtain ⟨r0, held0, -, rel⟩ := (settleRelease_stays id (updRoom id (fun r => { r with releasing := true }) s)).rooms id r held
  rw [roomAt_updRoom, if_pos rfl] at held0
  obtain ⟨x, -, rfl⟩ := Option.map_eq_some_iff.mp held0
  exact rel rfl

theorem endRing_stays (k : Nat) (s : State) : Stays s (endRing k s) := by
  unfold endRing
  split
  · exact .refl s
  · dsimp only
    split
    · exact .of_same rfl rfl rfl
    · exact (unpinRoom_stays ..).since rfl rfl

theorem removeUses_stays (id : Nat) (s : State) : Stays s (removeUses id s) := by
  unfold removeUses
  exact (Stays.forEach endRing_stays _ _).since rfl rfl

/-! ### Answers -/

theorem post_stays (p : Pending) (r : Reply) (s : State) : Stays s (post p r s) := by
  have but := (post_but s p r).1
  exact .of_same (by rw [but]) (by rw [but]) (by rw [but])

theorem finish_stays (sel : Pending → Bool) {r : Reply} (out : r.out = none) (s : State) : Stays s (finish sel r s) := by
  unfold finish
  split
  · exact .refl s
  · next p _ =>
    unfold complete
    rw [out]
    dsimp only
    refine Stays.trans ?_ (post_stays ..)
    split
    · exact (unpinRoom_stays ..).since rfl rfl
    · exact .of_same rfl rfl rfl

/-! ### Steps and jobs that end -/

theorem mixSlot_stays (r : Room) (s : State) : Stays s (mixSlot r s) := by
  refine Stays.trans (t := forEach (((slotCells r s ++ r.former).map (fun c => c.1)).filter (fun a => cellsGet s.mem.cells a != cellsGet r.former a))
    (mixByte r.former) s) (.forEach (fun a v => ?_) _ s) (.of_same rfl rfl rfl)
  unfold mixByte
  split
  · exact .of_same rfl rfl rfl
  · exact .refl v

theorem abandonFresh_stays (id : Nat) (s : State) : Stays s (abandonFresh id s) := by
  unfold abandonFresh
  split
  · exact .refl s
  · next r _ =>
    split
    · exact .refl s
    · dsimp only
      refine Stays.trans ?_ (settleRelease_stays id _)
      refine Stays.trans ?_ (updRoom_stays id (fun _ => ?_) (fun _ h => ?_) _)
      rotate_left
      · rfl
      · exact h
      split
      · exact mixSlot_stays ..
      · exact .refl s

theorem releasePins_stays (e : Journal) (s : State) : Stays s (releasePins e s) := by
  unfold releasePins
  split
  · exact .refl s
  · exact (unpinRooms_stays _ _).since rfl rfl

theorem abandonGradients_stays (p : Plan) (step : W64) (s : State) : Stays s (abandonGradients p step s) := by
  refine .forEach (fun x v => ?_) _ s
  dsimp only
  split
  · split
    · exact .of_same rfl rfl rfl
    · exact .refl v
  · exact .refl v

/-- A change of Porter's journal and of the open work. -/
theorem Stays.closed (h : Stays s t) {x : List Journal} {y : Steps} :
    Stays s { t with porter := { t.porter with journal := x }, steps := y, cap := { t.cap with frAmax := [] } } :=
  h.trans (.of_same rfl rfl rfl)

theorem Stays.jobGone (h : Stays s t) {x : List Journal} {y : Steps} :
    Stays s { t with steps := y, porter := { t.porter with journal := x } } := h.trans (.of_same rfl rfl rfl)

theorem failStep_stays (st detail : Nat) (s : State) : Stays s (failStep st detail s) := by
  unfold failStep
  split
  · exact .refl s
  · next j _ =>
    dsimp only
    have ended {rooms : List Nat} {js : List Journal} {ks : List (Nat × Nat × Nat)} {x : List Journal} {v : State}
        (same : v = forEach ks (fun k s => unpinRoom k.2.1 k.2.2 s)
          (forEach js releasePins (forEach rooms abandonFresh (Cellar.planAbandoned j s)))) (sel : Pending → Bool) :
        Stays s (finish sel { st := st, detail := detail } { v with porter := { v.porter with journal := x } }) := by
      have plan : Stays s (Cellar.planAbandoned j s) := by
        unfold Cellar.planAbandoned
        split
        · exact abandonGradients_stays ..
        · exact .refl s
      have all : Stays s v := same ▸ ((plan.trans (.forEach abandonFresh_stays rooms _)).trans (.forEach releasePins_stays js _)).trans
        (.forEach (fun _ _ => unpinRoom_stays ..) ks _)
      exact all.trans ((finish_stays sel rfl _).since (s := v) rfl rfl)
    refine Stays.closed (x := Porter.journal _) ?_
    split
    · exact (ended rfl _).trans (finish_stays _ rfl _)
    · exact ended rfl _

theorem settleRun_stays (id : Nat) (s : State) : Stays s (settleRun id s) := by
  unfold settleRun
  split
  · exact .refl s
  · next j _ =>
    split
    · exact .refl s
    · dsimp only
      refine Stays.jobGone (x := List.filter _ _) ?_
      refine .trans (.trans (.trans (finish_stays (fun p => p.wait == Wait.tasks id) ?_ s)
        (.forEach (fun _ _ => unpinRoom_stays ..) _ _)) (.forEach releasePins_stays _ _)) (.forEach (fun o v => ?_) _ _)
      · split <;> rfl
      · split
        · split
          · exact abandonFresh_stays ..
          · exact .refl v
        · exact .refl v

theorem stopRuns_stays (replays : Bool) (s : State) : Stays s (stopRuns replays s) := by
  unfold stopRuns
  dsimp only
  exact (Stays.forEach settleRun_stays _ _).since rfl rfl

end

end Sys2Proof.Sessions
end

