-- ==== Sys2Proof/Proofs/SessionOrders.lean ====
section
/-! PROOFS. Sessions are opened, joined, consented to and closed (13 R357 to R359, 18 R482, R483; O43). -/

namespace Sys2Proof.Sessions

open Sys2Proof.Machine Sys2Proof.Safety Sys2Proof.Laws Sys2Proof.Endings Sys2Proof.Orders

section
variable {s t u : State}

/-! ### The end of a session, for rooms and modes -/

theorem dropCommands_stays (id : W16) (s : State) : Stays s (dropCommands id s) := by
  unfold dropCommands
  refine Stays.since (t := { s with porter := { s.porter with outstanding := s.porter.outstanding.filter (fun p => p.session != id) } })
    (.forEach (fun p v => ?_) _ _) rfl rfl
  split
  · exact unpinRoom_stays ..
  · exact .refl v

theorem releaseRooms_stays (id : W16) (s : State) : Stays s (releaseRooms id s) :=
  .forEach (fun _ _ => (removeUses_stays ..).trans (releaseNow_stays ..)) _ s

/-- Every room of the session is released, or RELEASING. -/
theorem releaseRooms_releases (id : W16) (s : State) {k : Nat} {r : Room} (held : roomAt (releaseRooms id s) k = some r)
    (mine : r.owner = id) : r.releasing = true := by
  obtain ⟨r0, held0, owner, -⟩ := (releaseRooms_stays id s).rooms k r held
  have listed : k ∈ (s.rooms.filter (fun r => r.2.owner == id)).map (·.1) :=
    List.mem_map.mpr ⟨(k, r0), List.mem_filter.mpr ⟨Towers.mem_of_tfind? held0, by simp [← owner, mine]⟩, rfl⟩
  refine forEach_reaches (P := fun k u => ∀ r, roomAt u k = some r → r.releasing = true)
    (fun k u r held => releaseNow_releases k _ held) (fun k j u h r held => ?_) _ s k listed r held
  obtain ⟨r0, held0, -, rel⟩ := ((removeUses_stays j u).trans (releaseNow_stays j _)).rooms k r held
  exact rel (h r0 held0)

theorem dropPlan_stays (h : Nat) (s : State) : Stays s (dropPlan h s) := by
  unfold dropPlan
  split <;> exact .of_same rfl rfl rfl

/-- No tower is in forerunner mode. -/
theorem leaveForerunner_none (none_ : s.cap.frTowers = 0) : leaveForerunner s = s := by
  simp [leaveForerunner, none_]

theorem capBump_stays (s : State) : Stays s (capBump s) := by
  unfold capBump
  split
  · exact .refl s
  · exact .of_same rfl rfl rfl

theorem ownerEnded_stays (q : Session) (s : State) (none_ : s.cap.frTowers = 0) : Stays s (ownerEnded q s) := by
  have work := (Stays.forEach dropPlan_stays (s.porter.plans.map (·.1)) s).trans (stopRuns_stays true _)
  unfold ownerEnded
  split
  · refine Stays.trans (t := ownerWorkEnded s) ?_ (.of_same rfl rfl rfl)
    unfold ownerWorkEnded
    rw [leaveForerunner_none (work.towers.trans none_)]
    exact work.trans (.of_same rfl rfl rfl)
  · exact .refl s

theorem sessionGone_stays (id : W16) (q : Session) (s : State) : Stays s (sessionGone id q s) := by
  unfold sessionGone
  dsimp only
  split
  · exact (capBump_stays _).since rfl rfl
  · exact .of_same rfl rfl rfl

theorem mailboxesEnd_stays (id : W16) (keep : Option Nat) (s : State) : Stays s (mailboxesEnd id keep s) := by
  refine .forEach (fun n v => ?_) _ s
  dsimp only
  split
  · exact .of_same rfl rfl rfl
  · unfold settleMb
    dsimp only
    split
    · exact .of_same rfl rfl rfl
    · exact .of_same rfl rfl rfl

/-- A session's end: no tower leaves, and its rooms are released or RELEASING. -/
theorem endSession_does {id : W16} {q : Session} (keep : Option Nat) (found : tfind? s.porter.sessions id.toNat = some q)
    (none_ : s.cap.frTowers = 0) : (endSession id keep s).cap.leaving = s.cap.leaving ∧
    ∀ k r, roomAt (endSession id keep s) k = some r → r.owner = id → r.releasing = true := by
  have step : Stays s (stepFailed q s) := by
    unfold stepFailed
    split
    · exact failStep_stays ..
    · exact .refl s
  have before := (step.trans (dropCommands_stays id _)).trans (Stays.of_same (t := dropTransfers id (dropCommands id (stepFailed q s))) rfl rfl rfl)
  rw [endSession_eq keep found]
  generalize dropTransfers id (dropCommands id (stepFailed q s)) = v at *
  have released := releaseRooms_stays id v
  have towers : (releaseRooms id v).cap.frTowers = 0 := released.towers.trans (before.towers.trans none_)
  have after := ((ownerEnded_stays q _ towers).trans (sessionGone_stays id q _)).trans (mailboxesEnd_stays id keep _)
  refine ⟨after.leaving.trans (released.leaving.trans before.leaving), fun k r held mine => ?_⟩
  obtain ⟨r0, held0, owner, rel⟩ := after.rooms k r held
  exact rel (releaseRooms_releases id v held0 (owner.symm.trans mine))

/-! ### A number not in use -/

/-- A session number that no session has and no mailbox is bound to. -/
def Free (s : State) (n : Nat) : Prop := tfind? s.porter.sessions n = none ∧ ∀ m ∈ s.porter.mailboxes, m.2.session.toNat ≠ n

/-- Some number in the range that is searched is free. -/
theorem exists_free (s : State) : ∃ i, i < s.porter.sessions.length + s.porter.mailboxes.length + 1 ∧ Free s (i + 1) := by
  by_contra none_
  have used : ∀ i, i < s.porter.sessions.length + s.porter.mailboxes.length + 1 → ¬ Free s (i + 1) :=
    fun i lt free => none_ ⟨i, lt, free⟩
  have sub : (List.range (s.porter.sessions.length + s.porter.mailboxes.length + 1)).map (· + 1) ⊆
      s.porter.sessions.map (·.1) ++ s.porter.mailboxes.map (fun m => m.2.session.toNat) := by
    intro n mem
    obtain ⟨i, mi, rfl⟩ := List.mem_map.mp mem
    have not := used i (List.mem_range.mp mi)
    rw [List.mem_append, List.mem_map, List.mem_map]
    cases found : tfind? s.porter.sessions (i + 1) with
    | some q => exact .inl ⟨(i + 1, q), Towers.mem_of_tfind? found, rfl⟩
    | none =>
      refine .inr ?_
      by_contra unbound
      exact not ⟨found, fun m mm same => unbound ⟨m, mm, same⟩⟩
  have nodup : ((List.range (s.porter.sessions.length + s.porter.mailboxes.length + 1)).map (· + 1)).Nodup :=
    List.nodup_range.map (fun a b h => Nat.succ.inj h)
  have le := (List.subperm_of_subset nodup sub).length_le
  simp at le

/-- The number that SESSION_OPEN takes is the lowest that is free. -/
theorem freeSession_least (s : State) : ∃ i, freeSession s = i + 1 ∧ Free s (i + 1) ∧ ∀ j, j < i → ¬ Free s (j + 1) := by
  have free (n : Nat) : ((tfind? s.porter.sessions n).isNone && !s.porter.mailboxes.any (fun m => m.2.session.toNat == n)) = true ↔ Free s n := by
    simp [Free]
  obtain ⟨i, lt, hi⟩ := exists_free s
  unfold freeSession
  rw [List.find?_map]
  cases found : (List.range (s.porter.sessions.length + s.porter.mailboxes.length + 1)).find?
      ((fun n => (tfind? s.porter.sessions n).isNone && !s.porter.mailboxes.any (fun m => m.2.session.toNat == n)) ∘ (· + 1)) with
  | none =>
    rw [List.find?_eq_none] at found
    exact absurd ((free (i + 1)).mpr hi) (found i (List.mem_range.mpr lt))
  | some k =>
    rw [List.find?_range_eq_some] at found
    obtain ⟨good, -, least⟩ := found
    refine ⟨k, rfl, (free (k + 1)).mp good, fun j lt hj => ?_⟩
    have := least j lt
    simp only [Function.comp] at this
    rw [(free (j + 1)).mpr hj] at this
    exact absurd this (by simp)

theorem freeSession_congr (same : ∀ n, Free t (n + 1) ↔ Free s (n + 1)) : freeSession t = freeSession s := by
  obtain ⟨i, eqi, freei, leasti⟩ := freeSession_least s
  obtain ⟨j, eqj, freej, leastj⟩ := freeSession_least t
  have : i = j := by
    by_contra ne
    rcases Nat.lt_or_gt_of_ne ne with lt | gt
    · exact leastj i lt ((same i).mpr freei)
    · exact leasti j gt ((same j).mp freej)
  rw [eqi, eqj, this]

/-- An entry that is set says of a table what the entry before said. -/
theorem forall_tset {α : Type} {P : α → Prop} {d : α} (good : P d) (m : Table α) {k : Nat} {a : α} (same : P a ↔ P (tget m k d)) :
    (∀ x ∈ tset m k a, P x.2) ↔ ∀ x ∈ m, P x.2 := by
  induction m with
  | nil => simpa [tset, tget, tfind?, good] using same
  | cons p m ih =>
    obtain ⟨j, b⟩ := p
    rw [tset]
    split
    · next before =>
      rw [List.forall_mem_cons]
      refine and_iff_right_of_imp fun all => same.mpr ?_
      cases found : tfind? ((j, b) :: m) k with
      | none => simpa [tget, found] using good
      | some x => simpa [tget, found] using all _ (Towers.mem_of_tfind? found)
    · split
      · next here =>
        obtain rfl : k = j := by simpa using here
        simp only [List.forall_mem_cons]
        exact and_congr (by simpa [tget, tfind?] using same) Iff.rfl
      · next other =>
        have ne : (j == k) = false := by simpa using fun h : j = k => other (by simp [h])
        simp only [List.forall_mem_cons]
        exact and_congr Iff.rfl (ih (by simpa [tget, tfind?, ne] using same))

/-- A change of a mailbox that keeps its session keeps the numbers that are bound. -/
theorem bound_setMb {n : Nat} {f : Mailbox → Mailbox} (keeps : ∀ m, (f m).session = m.session) (i : Nat) (s : State) :
    (∀ m ∈ (setMb n f s).porter.mailboxes, m.2.session.toNat ≠ i + 1) ↔ ∀ m ∈ s.porter.mailboxes, m.2.session.toNat ≠ i + 1 :=
  forall_tset (P := fun m : Mailbox => m.session.toNat ≠ i + 1) (d := .reset) (by simp [Mailbox.reset]) s.porter.mailboxes
    (by simp only [keeps])

theorem free_takenState (code : Nat) (c : Cmd) (subs : List Subject) (i : Nat) :
    Free (takenState code c subs s) (i + 1) ↔ Free s (i + 1) := by
  unfold Free
  refine and_congr Iff.rfl ?_
  show (∀ m ∈ (takeEntry c.mailbox.val s).porter.mailboxes, m.2.session.toNat ≠ i + 1) ↔ _
  unfold takeEntry
  refine bound_setMb (fun m => ?_) i s
  split <;> rfl

theorem freeSession_takenState (code : Nat) (c : Cmd) (subs : List Subject) : freeSession (takenState code c subs s) = freeSession s :=
  freeSession_congr (fun n => free_takenState code c subs n)

/-! ### The meaning of the orders -/

/-- An order that is answered at once ends with the posting of its answer. -/
theorem order_posts {code : Nat} {c : Cmd} {subs : List Subject} {h : Handler} {r : Reply} {w : State} (p : Passes code c subs s)
    (lt : code < 65536) (meaning : h (pendingOf code c s) (takenState code c subs s) = (.done r, w)) (out : r.out = none)
    (good : r.st ≠ stBadArg) : order code c subs h s = post (pendingOf code c s) r w := by
  obtain ⟨row, -, e⟩ := order_passes s (h := h) p lt
  rw [e, meaning]
  unfold answerState complete
  dsimp only
  rw [if_neg (by simpa using good), out]

/-- A mailbox's standing after the answer is that of the meaning. -/
theorem post_bound (p : Pending) (r : Reply) (s : State) : (mbAt (post p r s) p.cmd.mailbox.val).session = (mbAt s p.cmd.mailbox.val).session ∧
    (mbAt (post p r s) p.cmd.mailbox.val).state = (mbAt s p.cmd.mailbox.val).state := by
  unfold post
  split
  · rw [(oweIrq_but _ 0 p.cmd.mailbox.val p).2, mbAt_setMb, if_pos rfl]
    exact ⟨rfl, rfl⟩
  · show (mbAt (setMb _ _ s) _).session = _ ∧ (mbAt (setMb _ _ s) _).state = _
    rw [mbAt_setMb, if_pos rfl]
    exact ⟨rfl, rfl⟩

/-- An order that binds its mailbox: the answer, and the mailbox's standing. -/
theorem order_binds {code : Nat} {c : Cmd} {subs : List Subject} {h : Handler} {r : Reply} {u w : State} {id : W16}
    (p : Passes code c subs s) (lt : code < 65536)
    (meaning : h (pendingOf code c s) (takenState code c subs s) = (.done r, bindMb c.mailbox.val id w)) (out : r.out = none)
    (good : r.st ≠ stBadArg) (but : ButMailbox c.mailbox.val u w) (same : w.porter.mailboxes = (takenState code c subs s).porter.mailboxes) :
    Gives code c r u s (order code c subs h s) ∧ (mbAt (order code c subs h s) c.mailbox.val).session = id ∧
    (mbAt (order code c subs h s) c.mailbox.val).state = 1 := by
  have eq := order_posts p lt meaning out good
  obtain ⟨session, state⟩ := post_bound (pendingOf code c s) r (bindMb c.mailbox.val id w)
  have bound : mbAt (bindMb c.mailbox.val id w) c.mailbox.val = { mbAt w c.mailbox.val with state := 1, session := id } := by
    unfold bindMb
    rw [mbAt_setMb, if_pos rfl]
  have tail : (mbAt (bindMb c.mailbox.val id w) c.mailbox.val).cqTail = (mbAt s c.mailbox.val).cqTail := by
    rw [bound]
    unfold mbAt
    rw [same]
    exact cqTail_takenState code c subs s c.mailbox.val
  rw [eq]
  refine ⟨⟨post_posted_at tail, butMailbox_trans (butMailbox_trans but (setMb_but w c.mailbox.val _)) (post_but _ (pendingOf code c s) r)⟩, ?_, ?_⟩
  · exact session.trans (by rw [show (pendingOf code c s).cmd.mailbox.val = c.mailbox.val from rfl, bound])
  · exact state.trans (by rw [show (pendingOf code c s).cmd.mailbox.val = c.mailbox.val from rfl, bound])

variable {c : Cmd}

/-- A session opened under a number. -/
def sessionSet (id : Nat) (q : Session) (s : State) : State := { s with porter := { s.porter with sessions := tset s.porter.sessions id q } }

theorem sessionOpen_joins {role fr consent : Byte} {join : W16} {p : Pending} (le : role.toNat ≤ 1) (some_ : join ≠ 0)
    (inUse : tfind? s.porter.sessions join.toNat ≠ none) :
    sessionOpen role join fr consent p s = (.done { st := stDone, r0 := join.toNat }, bindMb p.cmd.mailbox.val join s) := by
  unfold sessionOpen
  dsimp only
  rw [if_neg (by omega), if_pos (by simpa using some_), if_pos (Option.ne_none_iff_isSome.mp inUse)]

theorem sessionOpen_observes {fr consent : Byte} {p : Pending} (le : consent.toNat ≤ 1) : sessionOpen 0 0 fr consent p s =
    (.done { st := stDone, r0 := freeSession s }, bindMb p.cmd.mailbox.val (BitVec.ofNat 16 (freeSession s))
      (sessionSet (freeSession s) { owner := false, consent := consent, fn := fnOfMb s p.cmd.mailbox.val } s)) := by
  unfold sessionOpen
  dsimp only
  rw [if_neg (by decide), if_neg (by decide), if_neg (by omega), if_pos (by decide)]
  rfl

/-- The towers that SESSION_OPEN names for forerunner mode are neither retired nor busy. -/
theorem sessionOpen_owner {fr consent : Byte} {p : Pending} (le : consent.toNat ≤ 1) (low : fr.toNat < 16)
    (good : ∀ t, t < 4 → fr.getLsbD t = true → towerRetired s t = false ∧ towerBusy s t = false) (still : s.cap.leaving = 0) :
    sessionOpen 1 0 fr consent p s =
      if ownerSession s = 0 then openSession true fr consent p.cmd.mailbox.val s else reply stWrongState s := by
  have named : ∀ t ∈ (List.range 4).filter (fun t => fr.getLsbD t), towerRetired s t = false ∧ towerBusy s t = false := by
    intro t mem
    obtain ⟨lt, on⟩ := List.mem_filter.mp mem
    exact good t (List.mem_range.mp lt) on
  have retired : ((List.range 4).filter (fun t => fr.getLsbD t)).any (towerRetired s) = false := by
    rw [List.any_eq_false]
    exact fun t mem => by simp [(named t mem).1]
  have busy : ((List.range 4).filter (fun t => fr.getLsbD t)).any (towerBusy s) = false := by
    rw [List.any_eq_false]
    exact fun t mem => by simp [(named t mem).2]
  unfold sessionOpen
  dsimp only
  rw [if_neg (by decide), if_neg (by decide), if_neg (by omega), if_neg (by decide), if_neg (by simp [retired]; omega)]
  by_cases none_ : ownerSession s = 0
  · rw [if_neg (by simp [none_, still, busy]), if_pos none_]
  · rw [if_pos (by simp only [Bool.or_eq_true, bne_iff_ne]; exact .inl (.inl none_)), if_neg none_]

/-- The capability record changes with the same fields. -/
theorem capBump_but {n : Nat} (h : ButMailbox n s t) : ButMailbox n (capBump s) (capBump t) := by
  have cap : t.cap = s.cap := by rw [h.1]
  obtain ⟨frame, others⟩ := h
  unfold capBump
  rw [cap]
  split
  · exact ⟨frame, others⟩
  · exact ⟨congrArg (fun u : State => { u with cap := { s.cap with gen := s.cap.gen + 2 } }) frame, others⟩

theorem capBump_bindMb (n : Nat) (id : W16) (s : State) : capBump (bindMb n id s) = bindMb n id (capBump s) := by
  unfold capBump
  rw [show (bindMb n id s).cap = s.cap from rfl]
  split <;> rfl

/-- The owner session opened, its towers to enter forerunner mode. -/
theorem openSession_owner (fr consent : Byte) (n : Nat) (s : State) : openSession true fr consent n s =
    (.done { st := stDone, r0 := freeSession s }, bindMb n (BitVec.ofNat 16 (freeSession s)) (capBump
      { sessionSet (freeSession s) { owner := true, consent := consent, fn := fnOfMb s n } s with
        cap := { s.cap with entering := fr.setWidth 4 } })) := by
  rw [← capBump_bindMb]
  rfl

/-- Without consent, a whole-tower test that neither the periods filed nor has begun is not requested any more. -/
theorem cancelTowerTests_leaves (s : State) : ∀ r ∈ (cancelTowerTests s).tests.reqs, r.kind = 3 → r.begun = true ∨ r.filed = true := by
  intro r mem tower
  obtain ⟨here, kept⟩ := List.mem_filter.mp mem
  by_contra waiting
  simp only [not_or, Bool.not_eq_true] at waiting
  simp only [List.contains_eq_mem, List.mem_map, List.mem_filter, Bool.not_eq_true', decide_eq_false_iff_not] at kept
  exact kept ⟨r, ⟨here, by simp [tower, waiting]⟩, rfl⟩

/-- The session's owner consents, or does not. -/
def consentSet (id : W16) (consent : Byte) (s : State) : State :=
  { s with porter := { s.porter with sessions := tupd s.porter.sessions id.toNat (fun q => { q with consent := consent }) } }

theorem sessionConsent_given (p : Pending) : sessionConsent 1 p s = ok (consentSet p.session 1 s) := rfl

theorem sessionConsent_withdrawn (p : Pending) : sessionConsent 0 p s = ok (cancelTowerTests (consentSet p.session 0 s)) := rfl

/-- With no tower leaving, SESSION_CLOSE does not wait. -/
theorem sessionClose_done {p : Pending} {q : Session} (found : tfind? s.porter.sessions p.session.toNat = some q) (still : s.cap.leaving = 0)
    (none_ : s.cap.frTowers = 0) : sessionClose p s = ok (endSession p.session (some p.cmd.mailbox.val) s) := by
  have leaving := ((endSession_does (some p.cmd.mailbox.val) found none_).1).trans still
  unfold sessionClose
  dsimp only
  rw [if_neg (by simp [leaving])]

end

/-! ### O43 -/

section
variable {s : State} {c : Cmd}

theorem done_sessions {code : Nat} {r : Reply} {w u : State} (d : Done code c r s w u) : u.porter.sessions = w.porter.sessions := by
  rw [d.but.1]

theorem open_row {role join : _} {fr consent : Byte} (p : Passes 0x0101 c [] s) (le : (role : Byte).toNat ≤ 1) (leConsent : consent.toNat ≤ 1) :
    ((join : W16) ≠ 0 → tfind? s.porter.sessions join.toNat ≠ none → Completes (.cmdSessionOpen c role join fr consent) s (fun t =>
        Gives 0x0101 c { st := stDone, r0 := join.toNat } s s t ∧ (mbAt t c.mailbox.val).session = join ∧
        (mbAt t c.mailbox.val).state = 1)) ∧
      (join = 0 → role = 0 → Completes (.cmdSessionOpen c role join fr consent) s (fun t =>
        Gives 0x0101 c { st := stDone, r0 := freeSession s } (sessionSet (freeSession s) { owner := false, consent := consent, fn := fnOfMb s c.mailbox.val } s) s t ∧
        tfind? s.porter.sessions (freeSession s) = none ∧ (mbAt t c.mailbox.val).session = BitVec.ofNat 16 (freeSession s))) ∧
      (join = 0 → role = 1 → fr.toNat < 16 → (∀ t, t < 4 → fr.getLsbD t = true → towerRetired s t = false ∧ towerBusy s t = false) →
        s.cap.leaving = 0 →
        (ownerSession s = 0 → Completes (.cmdSessionOpen c role join fr consent) s (fun t =>
          Gives 0x0101 c { st := stDone, r0 := freeSession s }
            (capBump { sessionSet (freeSession s) { owner := true, consent := consent, fn := fnOfMb s c.mailbox.val } s with
              cap := { s.cap with entering := fr.setWidth 4 } }) s t ∧
          (mbAt t c.mailbox.val).session = BitVec.ofNat 16 (freeSession s))) ∧
        (ownerSession s ≠ 0 → Completes (.cmdSessionOpen c role join fr consent) s (fun t =>
          Gives 0x0101 c { st := stWrongState } s s t))) := by
  refine ⟨fun some_ inUse => ?_, fun none_ observer => ?_, fun none_ owner low good still => ⟨fun first => ?_, fun second => ?_⟩⟩
  · exact ⟨_, rfl, order_binds p (by decide) (sessionOpen_joins le some_ inUse) rfl (show stDone ≠ stBadArg by decide) (takenState_but s 0x0101 c []) rfl⟩
  · subst none_ observer
    have meaning := sessionOpen_observes (s := takenState 0x0101 c [] s) (fr := fr) (p := pendingOf 0x0101 c s) leConsent
    rw [freeSession_takenState] at meaning
    obtain ⟨gives, bound, -⟩ := order_binds (u := sessionSet (freeSession s) { owner := false, consent := consent, fn := fnOfMb s c.mailbox.val } s)
      p (by decide) meaning rfl (show stDone ≠ stBadArg by decide) ⟨rfl, (takenState_but s 0x0101 c []).2⟩ rfl
    obtain ⟨i, eq, ⟨unused, -⟩, -⟩ := freeSession_least s
    exact ⟨_, rfl, gives, by rw [eq]; exact unused, bound⟩
  · subst none_ owner
    have meaning := (sessionOpen_owner (s := takenState 0x0101 c [] s) (p := pendingOf 0x0101 c s) leConsent low good still).trans
      ((if_pos first).trans (openSession_owner fr consent c.mailbox.val _))
    rw [freeSession_takenState] at meaning
    obtain ⟨gives, bound, -⟩ := order_binds (u := capBump
        { sessionSet (freeSession s) { owner := true, consent := consent, fn := fnOfMb s c.mailbox.val } s with
          cap := { s.cap with entering := fr.setWidth 4 } })
      p (by decide) meaning rfl (show stDone ≠ stBadArg by decide) (capBump_but ⟨rfl, (takenState_but s 0x0101 c []).2⟩)
      (by rw [capBump_porter]; rfl)
    exact ⟨_, rfl, gives, bound⟩
  · subst none_ owner
    exact ⟨_, rfl, order_refused p (by decide)
      ((sessionOpen_owner (s := takenState 0x0101 c [] s) leConsent low good still).trans (if_neg second)) rfl⟩

end

/-- Settles O43: an opening by its checks in their order, consent by its two answers, a close by the session that it ends. -/
theorem sessionOrders : Obligations.SessionOrders := by
  intro s c
  refine ⟨fun role join fr consent p le leConsent => open_row p le leConsent, fun consent p => ⟨fun given => ?_, fun withdrawn => ?_⟩,
    fun q p found still none_ => ?_⟩
  · subst given
    exact ⟨_, rfl, order_gives s p (by decide) (sessionConsent_given _) rfl ⟨rfl, (takenState_but s 0x0103 c []).2⟩ rfl
      (fun bad => absurd bad (show stDone ≠ stBadArg by decide))⟩
  · subst withdrawn
    have done := order_done (subs := []) p (by decide) (sessionConsent_withdrawn (s := takenState 0x0103 c [] s) (pendingOf 0x0103 c s)) rfl (by decide)
    refine ⟨_, rfl, Limits.posted_of_same (subs := []) done rfl, ?_⟩
    rw [done.tests]
    exact cancelTowerTests_leaves _
  · have done := order_done p (by decide) (sessionClose_done (s := takenState 0x0102 c [] s) (p := pendingOf 0x0102 c s) found still none_) rfl (by decide)
    refine ⟨_, rfl, done.answered, ?_, ?_⟩
    · rw [done_sessions done, endSession_sessions, tfind?_tdel]
      exact if_pos rfl
    · intro k r held mine
      refine (endSession_does (some c.mailbox.val) (s := takenState 0x0102 c [] s) found none_).2 k r ?_ mine
      rw [← held]
      unfold roomAt
      rw [done.rooms]
      rfl

end Sys2Proof.Sessions
end

