-- ==== Sys2Proof/Proofs/LodgingRows.lean ====
section
/-! PROOFS. Lodging requests, their answers, and the tensors a partner receives (16 R436 to R439; O53). -/

namespace Sys2Proof.Lodged

open Sys2Proof.Machine Sys2Proof.Safety Sys2Proof.Laws Sys2Proof.Endings

section
variable {s u : State}

/-! ### An order that waits alone -/

/-- The end of the only order that waits leaves none. -/
theorem finish_empties {sel : Pending → Bool} {r : Reply} (out : r.out = none) {q : Pending} (only : s.porter.outstanding = [q])
    (waits : sel q = true) : (finish sel r s).porter.outstanding = [] := by
  unfold finish complete
  rw [only, List.find?_cons_of_pos waits, out]
  dsimp only
  rw [(post_but _ q r).1]
  split
  · rw [Cellar.unpinRoom_onlyRooms]
    simp
  · simp

/-! ### The partner of a lodger is asked -/

/-- The lodger that asks is taken in, with a room for its areas. -/
def takenIn (lodger : W16) (r : W16) (override : Bool) (tensors : Nat) (s : State) : State :=
  setLodge (fun l => { l with
    lodgedFor := lodger
    promoted := none
    room := r
    areas := tensors + 1
    directory := []
    spare := 0
    resent := []
    tail := []
    correlatedIn := override }) s

variable {lodger : W16} {feed : Byte} {override : Bool} {tensors bytes : Nat}

/-- What a request meets: another lodger, or the same feed without OVERRIDE. -/
def Taken (lodger : W16) (s : State) : Prop := s.lodge.lodgedFor ≠ noModule ∧ s.lodge.lodgedFor ≠ lodger ∧ s.lodge.promoted = none
def SameFeed (feed : Byte) (override : Bool) (s : State) : Prop := feed.toNat = s.power.feedTag.toNat ∧ override = false

theorem lodgingRequest_taken (runs : porterRuns s = true) (ready : s.porter.ready = true) (taken : Taken lodger s) :
    lodgingRequestArrival lodger feed override tensors bytes s = answerLodger lodger stWrongState s := by
  obtain ⟨some_, other, still⟩ := taken
  unfold lodgingRequestArrival
  dsimp only
  rw [if_neg (by simp [runs, ready]), if_pos (by simp [some_, other, still])]

theorem lodgingRequest_sameFeed (runs : porterRuns s = true) (ready : s.porter.ready = true) (free : ¬ Taken lodger s)
    (same : SameFeed feed override s) : lodgingRequestArrival lodger feed override tensors bytes s = answerLodger lodger stDenied s := by
  obtain ⟨tag, plain⟩ := same
  unfold lodgingRequestArrival
  dsimp only
  rw [if_neg (by simp [runs, ready]), if_neg (by simpa [Taken, and_assoc] using free), if_pos (by simp [tag, plain])]

theorem lodgingRequest_accepted (runs : porterRuns s = true) (ready : s.porter.ready = true) (free : ¬ Taken lodger s)
    (apart : ¬ SameFeed feed override s) {r : W16} (room : lodgingRoom bytes (releaseNow s.lodge.room.toNat s) = some (r, u)) :
    lodgingRequestArrival lodger feed override tensors bytes s = answerLodger lodger stDone (capBump (raiseCtrl 0x8903
      [a2 lodger.toNat, a2 u.power.feedTag.toNat, a2 feed.toNat, a2 override.toNat] (takenIn lodger r override tensors u))) := by
  unfold lodgingRequestArrival
  dsimp only
  rw [if_neg (by simp [runs, ready]), if_neg (by simpa [Taken, and_assoc] using free),
    if_neg (by simpa [SameFeed] using apart), room]
  rfl

theorem lodgingRoom_winds {r : W16} (room : lodgingRoom bytes s = some (r, u)) : Winds s u := by
  unfold lodgingRoom grantRoom at room
  split at room
  · obtain ⟨-, rfl⟩ : _ ∧ _ := by simpa using room
    exact ⟨rfl, List.suffix_rfl, Nat.le_refl _, rfl⟩
  · simp at room

/-- The lodger that is accepted: its room and its areas, the event, and the answer. -/
theorem accepted_does {r : W16} (room : lodgingRoom bytes (releaseNow s.lodge.room.toNat s) = some (r, u)) {t : State}
    (ht : t = answerLodger lodger stDone (capBump (raiseCtrl 0x8903
      [a2 lodger.toNat, a2 u.power.feedTag.toNat, a2 feed.toNat, a2 override.toNat] (takenIn lodger r override tensors u)))) :
    t.lodge = (takenIn lodger r override tensors u).lodge ∧ t.rooms = u.rooms ∧
    Logged 0x8903 [a2 lodger.toNat, a2 s.power.feedTag.toNat, a2 feed.toNat, a2 override.toNat] s t ∧
    Out.lodge lodger "answer" [stDone, s.power.feedTag.toNat] [] ∈ t.outs := by
  have winds := (releaseNow_winds s.lodge.room.toNat s).trans (lodgingRoom_winds room)
  have tag : u.power.feedTag = s.power.feedTag := by rw [winds.power]
  subst ht
  rw [← tag]
  refine ⟨?_, ?_, ?_, ?_⟩
  · show (capBump _).lodge = _
    rw [capBump_lodge]
    rfl
  · show (capBump _).rooms = _
    rw [capBump_rooms]
    rfl
  · refine logged_of_log (t := raiseCtrl 0x8903 _ (takenIn lodger r override tensors u)) ?_ (logged_since winds.counted (raise_logged ..))
    show (capBump _).log = _
    rw [capBump_log]
  · refine List.mem_cons.mpr (.inl ?_)
    rw [capBump_power]
    rfl

/-! ### The partner's answer -/

variable {partner : W16}

/-- No lodging request waits for an answer any more. -/
def asked (s : State) : State := setLodge (fun l => { l with asking := none }) s

/-- The partner of this module's copies. -/
def paired (partner : W16) (override : Bool) (s : State) : State :=
  setLodge (fun l => { l with
    partner := partner
    correlated := override
    refreshed := [] }) (asked s)

theorem lodgingAnswer_done (asking : s.lodge.asking = some (partner, override)) : lodgingAnswerArrival 0 feed s =
    finish isLodgeWait { st := stDone } (capBump (raiseCtrl 0x8903
      [a2 partner.toNat, a2 s.power.feedTag.toNat, a2 feed.toNat, a2 override.toNat] (paired partner override s))) := by
  unfold lodgingAnswerArrival
  rw [asking]
  rfl

theorem lodgingAnswer_other {status : Byte} (asking : s.lodge.asking = some (partner, override)) (other : status ≠ 0) :
    lodgingAnswerArrival status feed s =
      finish isLodgeWait { st := status.toNat } (raiseCtrl 0x8904 [a2 partner.toNat, a2 status.toNat] (asked s)) := by
  unfold lodgingAnswerArrival
  rw [asking]
  dsimp only
  rw [if_neg (by simpa using other)]
  rfl

theorem finish_lodge (sel : Pending → Bool) {r : Reply} (out : r.out = none) (s : State) : (finish sel r s).lodge = s.lodge := by
  rw [(finish_winds sel out s).frame]

theorem finish_log (sel : Pending → Bool) {r : Reply} (out : r.out = none) (s : State) : (finish sel r s).log = s.log := by
  rw [Towers.finish_onlyAnswers sel out s]

theorem answer_done (asking : s.lodge.asking = some (partner, override)) :
    (lodgingAnswerArrival 0 feed s).lodge = (paired partner override s).lodge ∧
    (∀ q, s.porter.outstanding = [q] → isLodgeWait q = true → (lodgingAnswerArrival 0 feed s).porter.outstanding = []) ∧
    Logged 0x8903 [a2 partner.toNat, a2 s.power.feedTag.toNat, a2 feed.toNat, a2 override.toNat] s (lodgingAnswerArrival 0 feed s) := by
  rw [lodgingAnswer_done asking]
  refine ⟨?_, fun q only waits => finish_empties rfl (q := q) ?_ waits, ?_⟩
  · rw [finish_lodge _ rfl, capBump_lodge]
    rfl
  · rw [capBump_porter]
    exact (raise_porter_outstanding ..).trans only
  · refine logged_of_log (t := raiseCtrl 0x8903 _ (paired partner override s)) ?_ (raise_logged ..)
    rw [finish_log _ rfl, capBump_log]

theorem answer_other {status : Byte} (asking : s.lodge.asking = some (partner, override)) (other : status ≠ 0) :
    (lodgingAnswerArrival status feed s).lodge = { s.lodge with asking := none } ∧
    (∀ q, s.porter.outstanding = [q] → isLodgeWait q = true → (lodgingAnswerArrival status feed s).porter.outstanding = []) ∧
    Logged 0x8904 [a2 partner.toNat, a2 status.toNat] s (lodgingAnswerArrival status feed s) := by
  rw [lodgingAnswer_other asking other]
  refine ⟨?_, fun q only waits => finish_empties rfl (q := q) ((raise_porter_outstanding ..).trans only) waits, ?_⟩
  · rw [finish_lodge _ rfl]
    rfl
  · exact logged_of_log (finish_log _ rfl _) (raise_logged ..)

end

/-! ### A tensor received -/

section
variable {s : State} {tensor : W32} {step : W64} {bytes : List Byte} {tail : Option (List Byte)}

/-- The tail of the Ledger that came with a tensor. -/
def tailed (tail : Option (List Byte)) (s : State) : State := setLodge (fun l => { l with tail := tail.getD l.tail }) s

/-- The directory after a tensor has come to the area that was the spare. -/
def flipped (tensor : W32) (step : W64) (l : Lodging) : List (W32 × Nat × W64) :=
  if l.directory.any (fun d => d.1 == tensor) then l.directory.map (fun x => if x.1 == tensor then (tensor, l.spare, step) else x)
  else l.directory ++ [(tensor, l.spare, step)]

theorem find?_map_flip (l : List (W32 × Nat × W64)) (d : W32 × Nat × W64) (held : l.any (fun x => x.1 == d.1) = true) :
    (l.map (fun x => if x.1 == d.1 then d else x)).find? (fun x => x.1 == d.1) = some d := by
  induction l with
  | nil => simp at held
  | cons x l ih =>
    rw [List.map_cons]
    by_cases same : x.1 == d.1
    · rw [if_pos same, List.find?_cons_of_pos (by simp)]
    · rw [if_neg same, List.find?_cons_of_neg (by simpa using same)]
      exact ih (by simpa [same] using held)

theorem find?_flipped (l : Lodging) : (flipped tensor step l).find? (fun d => d.1 == tensor) = some (tensor, l.spare, step) := by
  unfold flipped
  split
  · next held => exact find?_map_flip l.directory (tensor, l.spare, step) held
  · next none_ =>
    rw [List.find?_append, List.find?_eq_none.mpr (fun x mem same => none_ (List.any_eq_true.mpr ⟨x, mem, same⟩))]
    simp

/-- The bytes of a tensor with good digests go to the spare area, and its entry names that area. -/
def stored (tensor : W32) (step : W64) (bytes : List Byte) (s : State) : State :=
  match dirEntry s tensor with
  | some d => setLodge (fun l => { l with
      directory := l.directory.map (fun x => if x.1 == tensor then (tensor, l.spare, step) else x)
      spare := d.2.1
      resent := l.resent.filter (· != tensor) }) (wr (areaAddr s s.lodge.spare) bytes s)
  | none => setLodge (fun l => { l with
      directory := l.directory ++ [(tensor, l.spare, step)]
      spare := ((List.range l.areas).find? (fun k => !(l.spare :: l.directory.map (fun x => x.2.1)).contains k)).getD l.areas
      resent := l.resent.filter (· != tensor) }) (wr (areaAddr s s.lodge.spare) bytes s)

/-- A tensor with good digests: its bytes in the spare area, its entry there, and its old area the spare. -/
theorem lodgedTensor_good (lodged : s.lodge.lodgedFor ≠ noModule) (still : s.lodge.promoted = none)
    (room : roomAt s s.lodge.room.toNat ≠ none) (fits : bytes.length ≤ areaLen s) (spare : s.lodge.spare < s.lodge.areas) :
    ∃ k, lodgedTensorReceived tensor step bytes true tail s = { wr (areaAddr s s.lodge.spare) bytes s with
      lodge := { s.lodge with
        tail := tail.getD s.lodge.tail
        directory := flipped tensor step s.lodge
        spare := k
        resent := s.lodge.resent.filter (· != tensor) } } ∧
    ∀ d, dirEntry s tensor = some d → k = d.2.1 := by
  have start : lodgedTensorReceived tensor step bytes true tail s = stored tensor step bytes (tailed tail s) := by
    cases tail <;> exact if_neg (by simpa [lodged, still] using room) |>.trans (if_neg (by simpa using ⟨fits, spare⟩))
  rw [start]
  cases held : dirEntry s tensor with
  | some d =>
    have listed : s.lodge.directory.any (fun d => d.1 == tensor) = true :=
      List.any_eq_true.mpr ⟨d, List.mem_of_find?_eq_some held, List.find?_some (p := fun x : W32 × Nat × W64 => x.1 == tensor) held⟩
    refine ⟨d.2.1, ?_, fun e same => by rw [Option.some.inj same]⟩
    unfold stored flipped
    rw [show dirEntry (tailed tail s) tensor = some d from held, if_pos listed]
    rfl
  | none =>
    have free : ¬ s.lodge.directory.any (fun d => d.1 == tensor) = true := fun listed =>
      let ⟨d, mem, same⟩ := List.any_eq_true.mp listed
      List.find?_eq_none.mp held d mem same
    refine ⟨((List.range s.lodge.areas).find? (fun k => !(s.lodge.spare :: s.lodge.directory.map (fun x => x.2.1)).contains k)).getD
      s.lodge.areas, ?_, fun e same => nomatch same⟩
    · unfold stored flipped
      rw [show dirEntry (tailed tail s) tensor = none from held, if_neg free]
      rfl

/-- A tensor without good digests is discarded; the first time it is sent once more. -/
theorem lodgedTensor_bad (lodged : s.lodge.lodgedFor ≠ noModule) (still : s.lodge.promoted = none)
    (room : roomAt s s.lodge.room.toNat ≠ none) : lodgedTensorReceived tensor step bytes false tail s =
      if s.lodge.resent.contains tensor then setLodge (fun l => { l with resent := s.lodge.resent.filter (· != tensor) }) (tailed tail s)
      else emit (.lodge s.lodge.lodgedFor "resend" [tensor.toNat] [])
        (setLodge (fun l => { l with resent := tensor :: s.lodge.resent }) (tailed tail s)) := by
  cases tail <;> exact if_neg (by simpa [lodged, still] using room)

theorem received_good (lodged : s.lodge.lodgedFor ≠ noModule) (still : s.lodge.promoted = none)
    (room : roomAt s s.lodge.room.toNat ≠ none) (fits : bytes.length ≤ areaLen s) (spare : s.lodge.spare < s.lodge.areas) :
    Completes (.lodgedTensorReceived tensor step bytes true tail) s (fun t =>
      (MemGood s → rd t (areaAddr s s.lodge.spare) bytes.length = bytes) ∧
      (∃ d, dirEntry t tensor = some d ∧ d.2.1 = s.lodge.spare ∧ d.2.2 = step) ∧
      (∀ d, dirEntry s tensor = some d → t.lodge.spare = d.2.1) ∧ tensor ∉ t.lodge.resent ∧
      t.lodge.tail = tail.getD s.lodge.tail ∧ t = { s with mem := t.mem, lodge := t.lodge }) := by
  obtain ⟨k, eq, old⟩ := lodgedTensor_good (tail := tail) (tensor := tensor) (step := step) lodged still room fits spare
  refine ⟨_, congrArg Host.Outcome.next eq, fun good => rd_wr _ _ good, ⟨_, find?_flipped s.lodge, rfl, rfl⟩, old, ?_, rfl, rfl⟩
  simp [List.mem_filter]

end

end Sys2Proof.Lodged
end

