-- ==== Sys2Proof/Proofs/RestoredChunks.lean ====
section
/-! PROOFS. The chunks of a restore, and its end (16 R446 to R448; O53). -/

namespace Sys2Proof.Lodged

open Sys2Proof.Machine Sys2Proof.Safety Sys2Proof.Laws Sys2Proof.Endings Sys2Proof.Keeper

section
variable {s t u : State} {r : Restoring}

/-! ### What a restore leaves alone -/

theorem driveRest_log (s : State) : (driveRest s).log = s.log := by rw [driveRest_eq]
theorem driveRest_restore (s : State) : (driveRest s).restore = s.restore := by rw [driveRest_eq]
theorem driveRest_params (s : State) : (driveRest s).params = s.params := by rw [driveRest_eq]
theorem driveRest_steps (s : State) : (driveRest s).steps = s.steps := by rw [driveRest_eq]
theorem driveRest_mem (s : State) : (driveRest s).mem = s.mem := by rw [driveRest_eq]

theorem releaseNow_params (id : Nat) (s : State) : (releaseNow id s).params = s.params := by rw [Cellar.releaseNow_onlyRooms]
theorem releaseNow_restore (id : Nat) (s : State) : (releaseNow id s).restore = s.restore := by rw [Cellar.releaseNow_onlyRooms]
theorem releaseNow_steps (id : Nat) (s : State) : (releaseNow id s).steps = s.steps := by rw [Cellar.releaseNow_onlyRooms]
theorem releaseNow_log (id : Nat) (s : State) : (releaseNow id s).log = s.log := by rw [Cellar.releaseNow_onlyRooms]

/-- A change of memory and of parameter state alone. -/
theorem winds_of_state {m : Mem} {p : Params} (s : State) : Winds s { s with mem := m, params := p } :=
  ⟨rfl, List.suffix_rfl, Nat.le_refl _, rfl⟩

/-! ### A restore that ends without success -/

theorem endRestore_does (held : s.restore = some r) (cause : Nat) :
    (driveRest (endRestore cause true s)).restore = none ∧ (driveRest (endRestore cause true s)).params.lost = true ∧
    (driveRest (endRestore cause true s)).mem = s.mem ∧ Logged 0x8909 [a8 r.id.toNat, a2 cause] s (driveRest (endRestore cause true s)) := by
  have eq : endRestore cause true s = raiseCtrl 0x8909 [a8 r.id.toNat, a2 cause]
      (releaseNow r.room.toNat { s with restore := none, params := { s.params with lost := s.params.lost || true } }) := by
    unfold endRestore
    rw [held]
  rw [eq, driveRest_restore, driveRest_params, driveRest_mem]
  refine ⟨?_, ?_, ?_, logged_of_log (driveRest_log _) (logged_since (Nat.le_of_eq ?_) (raise_logged ..))⟩
  · exact releaseNow_restore ..
  · show (releaseNow _ _).params.lost = true
    rw [releaseNow_params]
    exact Bool.or_true _
  · show (releaseNow _ _).mem = _
    rw [Cellar.releaseNow_onlyRooms]
  · rw [releaseNow_log]

/-- A chunk that fails, with no source for its parts, ends the restore with the first part's cause. -/
theorem restoreChunk_fails {k : Nat} {q : BitVec 256 × Nat × Nat × Nat} (held : s.restore = some r) (lt : k < mfChunks r.manifest)
    (open_ : k ∉ r.done) (first : (partsIn r.manifest k).head? = some q) :
    restoreChunkRead k none [] s = driveRest (endRestore (Config.restoreCause (0x100 + mePart q.1)) true s) := by
  obtain ⟨l, parts⟩ : ∃ l, partsIn r.manifest k = q :: l := List.head?_eq_some_iff.mp first
  unfold restoreChunkRead
  rw [held]
  dsimp only
  rw [if_neg (by simpa [open_] using lt), if_neg (by simp), parts, List.find?_cons_of_pos (by rfl)]

/-! ### A chunk that is put -/

/-- `t` is `s` with bytes of the restore `r` put to their homes, or into its optimiser-set blocks. -/
structure Fills (r : Restoring) (s t : State) : Prop where
  frame : t = { s with mem := t.mem, restore := t.restore }
  held : ∃ x, t.restore = some { r with sets := x }

theorem putPart_fills {e : BitVec 256} {o : Nat} {bs : List Byte} (h : Fills r s t) : Fills r s (putPart e o bs t) := by
  obtain ⟨frame, x, held⟩ := h
  unfold putPart
  split
  · refine ⟨by rw [frame], x.map (fun q => if q.1 == meStep e then (q.1, overlay q.2 o bs) else q), ?_⟩
    rw [held]
    rfl
  · split
    · split
      · refine ⟨?_, x, held⟩
        rw [frame]
        rfl
      · exact ⟨frame, x, held⟩
    · exact ⟨frame, x, held⟩

/-- The chunk has been read. -/
def chunkDone (k : Nat) (s : State) : State := { s with restore := s.restore.map (fun r => { r with done := k :: r.done }) }

/-- The parts of a chunk whose digest holds, put where they live. -/
def putChunk (m : Manifest) (k : Nat) (bs : List Byte) (s : State) : State :=
  forEach (partsIn m k) (fun t s => putPart t.1 t.2.1 ((bs.drop t.2.2.1).take t.2.2.2) s) s

theorem putChunk_fills (held : s.restore = some r) (k : Nat) (bs : List Byte) : Fills r s (putChunk r.manifest k bs s) :=
  forEach_keeps (P := Fills r s) s (fun _ _ _ h => putPart_fills h) ⟨rfl, r.sets, held⟩

theorem restoreChunk_good {k : Nat} {bs : List Byte} {parts : List PartState} (held : s.restore = some r) (lt : k < mfChunks r.manifest)
    (open_ : k ∉ r.done) (good : Config.sha512 bs = r.manifest.digests.getD k 0) : restoreChunkRead k (some bs) parts s =
      if r.done.length + 1 = mfChunks r.manifest then restoreDone (chunkDone k (putChunk r.manifest k bs s))
      else chunkDone k (putChunk r.manifest k bs s) := by
  unfold restoreChunkRead
  rw [held]
  dsimp only
  rw [if_neg (by simpa [open_] using lt), if_pos (by simpa using good)]
  simp only [beq_iff_eq]
  rfl

/-- Every part that a chunk touches has a byte in it. -/
theorem partsIn_pos {m : Manifest} {k : Nat} {e : BitVec 256} {o i n : Nat} (mem : (e, o, i, n) ∈ partsIn m k) : 0 < n := by
  unfold partsIn at mem
  obtain ⟨x, -, hx⟩ := List.mem_filterMap.mp mem
  dsimp only at hx
  split at hx
  · cases hx
  · next lt =>
    simp only [Option.some.injEq, Prod.mk.injEq] at hx
    omega

/-- The bytes of a chunk's only part, in its home. -/
theorem putChunk_reads {k : Nat} {bs : List Byte} {m : Manifest} {e : BitVec 256} {o i n a len : Nat} (only : partsIn m k = [(e, o, i, n)])
    (plain : mePart e ≠ 7) (home : partHome s e = some (a, len)) (fits : o + n ≤ len) (here : i + n ≤ bs.length) (good : MemGood s) :
    rd (putChunk m k bs s) (a + o) n = (bs.drop i).take n := by
  have pos : 0 < n := partsIn_pos (only ▸ List.mem_singleton_self _)
  have length : ((bs.drop i).take n).length = n := by simp; omega
  have eq : putChunk m k bs s = wr (a + o) ((bs.drop i).take n) s := by
    unfold putChunk
    rw [only]
    show putPart e o ((bs.drop i).take n) s = _
    unfold putPart
    rw [if_neg (by simpa using plain), home]
    dsimp only
    rw [if_pos (by omega), List.take_of_length_le (by omega)]
  have back := rd_wr (s := s) (a + o) ((bs.drop i).take n) good
  rw [length] at back
  rw [eq, back]

/-! ### The end of a restore -/

theorem zeroState_winds (p : Plan) (e : BitVec 512) (s : State) : Winds s (zeroState p e s) :=
  .forEach (fun _ v => winds_of_state v) s

theorem freshDigests_winds (p : Plan) (e : BitVec 512) (x : W64) (s : State) : Winds s (freshDigests p e x s) :=
  .forEach (fun _ v => winds_of_state v) s

theorem freeStaging_winds (x : Staged) (s : State) : Winds s (freeStaging x s) := by
  unfold freeStaging
  split
  · exact .refl s
  · exact releaseNow_winds ..

/-- The parameter state of the image, with its digests, its steps and what was staged freed. -/
def installed (m : Manifest) (p : Plan) (s : State) : State :=
  let es := restored s m
  let s := if mfContent m == 0 then forEach es (fun e s => zeroState p e.1 s) s else s
  let s := forEach es (fun e s =>
    let u := imageStep m e.1
    setDigested e.2 u.toNat (setApplied e.2 u.toNat (freshDigests p e.1 u s))) s
  setScaled (mfStep m) (forEach (s.params.homing ++ s.params.staged.toList) freeStaging s)

theorem installed_winds (m : Manifest) (p : Plan) (s : State) : Winds s (installed m p s) := by
  unfold installed
  dsimp only
  refine Winds.trans (.trans ?_ (.forEach (fun e v => ?_) _)) (.trans (.forEach freeStaging_winds _) (winds_of_state _))
  · split
    · exact .forEach (fun _ _ => zeroState_winds ..) s
    · exact .refl s
  · exact (freshDigests_winds ..).trans (winds_of_state _)

/-- The restore over, and the step that comes next. -/
def stepAfter (r : Restoring) (p : Plan) (s : State) : State :=
  { s with
    restore := none
    params := { s.params with lost := false, fetching := [], stopped := [], staged := none, homing := [], groupRuns := [] }
    steps := { s.steps with
      sets := r.sets.map (fun q => (q.1, (pieces 64 q.2).map (fun b => BitVec.ofNat 512 (natLE b))))
      afterRestore := some (mfStep r.manifest + 1)
      stepFree := false
      lagInForce := if s.rooms.any (fun r => !r.2.unapplied.isEmpty) then some p.lag else none } }

theorem restoreDone_eq {p : Plan} (held : s.restore = some r) (plan : trainPlan s = some p) : restoreDone s =
    driveRest (releaseNow r.room.toNat (raiseCtrl 0x8907 [a8 r.id.toNat, a8 (mfStep r.manifest).toNat]
      (stepAfter r p (installed r.manifest p s)))) := by
  unfold restoreDone
  rw [held, plan]
  rfl

theorem restoreDone_does (held : s.restore = some r) (plan : trainPlan s ≠ none) :
    (restoreDone s).restore = none ∧ (restoreDone s).params.lost = false ∧
    (restoreDone s).steps.afterRestore = some (mfStep r.manifest + 1) ∧
    Logged 0x8907 [a8 r.id.toNat, a8 (mfStep r.manifest).toNat] s (restoreDone s) := by
  obtain ⟨p, hp⟩ := Option.ne_none_iff_exists'.mp plan
  have counted := (installed_winds r.manifest p s).counted
  rw [restoreDone_eq held hp, driveRest_restore, driveRest_params, driveRest_steps, releaseNow_restore, releaseNow_params, releaseNow_steps]
  generalize installed r.manifest p s = w at counted
  exact ⟨rfl, rfl, rfl, logged_of_log ((driveRest_log _).trans (releaseNow_log ..))
    (logged_since (show s.log.next ≤ (stepAfter r p w).log.next from counted) (raise_logged ..))⟩

end

/-! ### O53 -/

section
variable {s : State} {r : Restoring}

theorem restore_rows {k : Nat} (held : s.restore = some r) (lt : k < mfChunks r.manifest) (open_ : k ∉ r.done) :
    (∀ q, (partsIn r.manifest k).head? = some q → Completes (.restoreChunkRead k none []) s (fun t => t.restore = none ∧
      t.params.lost = true ∧ t.mem = s.mem ∧ Logged 0x8909 [a8 r.id.toNat, a2 (Config.restoreCause (0x100 + mePart q.1))] s t)) ∧
    (∀ bs parts, Completes (.restoreChunkRead k (some bs) parts) s (fun t =>
      Config.sha512 bs = r.manifest.digests.getD k 0 →
        (r.done.length + 1 ≠ mfChunks r.manifest →
          (t.restore.map (fun x => x.done) = some (k :: r.done)) ∧
          (∀ e o i n a len, partsIn r.manifest k = [(e, o, i, n)] → mePart e ≠ 7 → partHome s e = some (a, len) → o + n ≤ len →
            i + n ≤ bs.length → MemGood s → rd t (a + o) n = (bs.drop i).take n)) ∧
        (r.done.length + 1 = mfChunks r.manifest → trainPlan s ≠ none →
          t.restore = none ∧ t.params.lost = false ∧ t.steps.afterRestore = some (mfStep r.manifest + 1) ∧
          Logged 0x8907 [a8 r.id.toNat, a8 (mfStep r.manifest).toNat] s t))) := by
  refine ⟨fun q first => ⟨_, congrArg Host.Outcome.next (restoreChunk_fails held lt open_ first), endRestore_does held _⟩,
    fun bs parts => ⟨_, rfl, fun good => ?_⟩⟩
  obtain ⟨frame, x, filled⟩ := putChunk_fills held k bs
  rw [restoreChunk_good held lt open_ good]
  refine ⟨fun more => ?_, fun last plan => ?_⟩
  · rw [if_neg more]
    refine ⟨?_, fun e o i n a len only plain home fits here wf => putChunk_reads only plain home fits here wf⟩
    show ((putChunk r.manifest k bs s).restore.map _).map _ = _
    rw [filled]
    rfl
  · rw [if_pos last]
    have plan' : trainPlan (chunkDone k (putChunk r.manifest k bs s)) = trainPlan s := by
      show trainPlan (putChunk r.manifest k bs s) = _
      rw [frame]
      rfl
    have held' : (chunkDone k (putChunk r.manifest k bs s)).restore = some { r with sets := x, done := k :: r.done } := by
      show (putChunk r.manifest k bs s).restore.map _ = _
      rw [filled]
      rfl
    have counted : s.log.next ≤ (chunkDone k (putChunk r.manifest k bs s)).log.next := by
      show _ ≤ (putChunk r.manifest k bs s).log.next
      rw [frame]
    obtain ⟨gone, lost, after, logged⟩ := restoreDone_does held' (plan' ▸ plan)
    exact ⟨gone, lost, after, logged_since counted logged⟩

end

/-- Settles O53: requests and answers of a pair by their cases, a tensor by its digests, a restore chunk by chunk. -/
theorem lodgingAndRestoreRows : Obligations.LodgingAndRestoreRows := by
  intro s
  refine ⟨fun runs ready lodger feed override tensors bytes => ⟨fun taken => ?_, fun free same => ?_, fun free apart r u room => ?_⟩,
    fun partner override asking => ⟨fun feed => ?_, fun status feed other => ?_, ?_⟩,
    fun lodged still room tensor step bytes tail => ⟨received_good lodged still room, fun first => ?_, fun again => ?_⟩,
    fun r k held lt open_ => restore_rows held lt open_⟩
  · exact ⟨_, rfl, lodgingRequest_taken runs ready taken⟩
  · exact ⟨_, rfl, lodgingRequest_sameFeed runs ready free same⟩
  · obtain ⟨lodge, rooms, logged, answered⟩ := accepted_does room rfl
    refine ⟨_, congrArg Host.Outcome.next (lodgingRequest_accepted runs ready free apart room), ?_⟩
    exact ⟨by rw [lodge]; rfl, by rw [lodge]; rfl, by rw [lodge]; rfl, by rw [lodge]; rfl, by rw [lodge]; rfl, rooms, logged, answered⟩
  · obtain ⟨lodge, none_, logged⟩ := answer_done (feed := feed) asking
    exact ⟨_, rfl, by rw [lodge]; rfl, by rw [lodge]; rfl, by rw [lodge]; rfl, by rw [lodge]; rfl, none_, logged⟩
  · obtain ⟨lodge, -, logged⟩ := answer_other (feed := feed) asking other
    exact ⟨_, rfl, lodge, logged⟩
  · exact ⟨_, rfl, answer_other (status := 0x21) (feed := 0) asking (by decide)⟩
  · refine ⟨_, congrArg Host.Outcome.next ((lodgedTensor_bad lodged still room).trans (if_neg (by simpa using first))), ?_⟩
    exact ⟨rfl, rfl, List.mem_cons_self, rfl⟩
  · refine ⟨_, congrArg Host.Outcome.next ((lodgedTensor_bad lodged still room).trans (if_pos (by simpa using again))), ?_⟩
    exact ⟨rfl, rfl, by simp [setLodge], rfl⟩

end Sys2Proof.Lodged
end

