-- ==== Sys2Proof/Proofs/StoreOrders.lean ====
section
/-! PROOFS. The orders of snapshots and of the snapshot store (12 R332, R336, R337, R342; O52). -/

namespace Sys2Proof.Stored

open Sys2Proof.Machine Sys2Proof.Safety Sys2Proof.Laws Sys2Proof.Endings Sys2Proof.Orders Sys2Proof.Keeper Sys2Proof.Lodged

section
variable {s t u : State} {c : Cmd}

/-! ### SNAP_TAKE and SNAP_ABORT -/

/-- What SNAP_TAKE needs. -/
def MayTake (s : State) (x : BitVec 512) : Prop :=
  s.snap = none ∧ (fld x 441 1 = 1 → keeperSigns s = true) ∧ (sqDest x = 0 → s.ports.store ≠ [] ∧ storRoot s = true)

/-- A snapshot that has been requested. -/
def requested (x : BitVec 512) : Snapshot :=
  { req := x, step := 0, marked := false, parts := [], room := 0xFFFF, staging := 0xFFFF, sets := [], lag := 0,
    seed := 0, digests := [], chunks := [], saved := [], pins := [] }

theorem snapTake_refused {x : BitVec 512} :
    (s.snap.isSome || (fld x 441 1 == 1 && !keeperSigns s) || (sqDest x == 0 && (s.ports.store.isEmpty || !storRoot s))) = true ↔
      ¬ MayTake s x := by
  simp only [MayTake, Bool.or_eq_true, Bool.and_eq_true, beq_iff_eq, Bool.not_eq_true', List.isEmpty_iff, Option.isSome_iff_ne_none,
    not_and_or, Classical.not_imp, Bool.not_eq_true, or_assoc, ne_eq, not_not]

theorem snapTake_taken {x : BitVec 512} {p : Pending} (good : badRequest s x = none) (may : MayTake s x) : snapTake x p s =
    reply stAccepted { s with snap := some (requested x), steps := { s.steps with actions := s.steps.actions ++ [.snapshot] } } := by
  unfold snapTake
  rw [good]
  dsimp only
  rw [if_neg (snapTake_refused.not_left.mpr may)]
  rfl

theorem snapTake_wrong {x : BitVec 512} {p : Pending} (good : badRequest s x = none) (may : ¬ MayTake s x) :
    snapTake x p s = reply stWrongState s := by
  unfold snapTake
  rw [good]
  exact if_pos (snapTake_refused.mpr may)

theorem snapTake_bad {x : BitVec 512} {p : Pending} {o : Nat} (bad : badRequest s x = some o) : snapTake x p s = badInline o s := by
  unfold snapTake
  rw [bad]

theorem snapTake_row {x : BitVec 512} (p : Passes 0x0901 c [.snapshot] s) :
    (badRequest s x = none → MayTake s x → Completes (.cmdSnapTake c x) s (fun t => Posted 0x0901 c { st := stAccepted } s t ∧
      ButMailbox c.mailbox.val { s with snap := t.snap, steps := { s.steps with actions := s.steps.actions ++ [.snapshot] } } t ∧
      ∃ n, t.snap = some n ∧ n.req = x ∧ n.marked = false ∧ n.parts = [])) ∧
    (badRequest s x = none → ¬ MayTake s x → Completes (.cmdSnapTake c x) s (Gives 0x0901 c { st := stWrongState } s s)) ∧
    (∀ o, badRequest s x = some o → Completes (.cmdSnapTake c x) s (Gives 0x0901 c { st := stBadArg, detail := 4 + o } s s)) := by
  refine ⟨fun good may => ?_, fun good may => ⟨_, rfl, order_refused p (by decide) (snapTake_wrong good may) rfl⟩,
    fun o bad => ⟨_, rfl, order_refused p (by decide) (snapTake_bad bad) rfl⟩⟩
  obtain ⟨posted, but⟩ := order_gives s p (by decide) (snapTake_taken (s := takenState 0x0901 c [.snapshot] s) good may) rfl
    (u := { s with snap := some (requested x), steps := { s.steps with actions := s.steps.actions ++ [.snapshot] } })
    ⟨rfl, (takenState_but s 0x0901 c [.snapshot]).2⟩ rfl (fun bad => absurd bad (by decide))
  have snap : (order 0x0901 c [.snapshot] (snapTake x) s).snap = some (requested x) := by rw [but.1]
  refine ⟨_, rfl, posted, ?_, _, snap, rfl, rfl, rfl⟩
  rw [snap]
  exact but

/-- A snapshot that is dropped is not awaited at the boundary. -/
theorem dropSnapshot_actions {x : Snapshot} (snap : s.snap = some x) : Boundary.snapshot ∉ (dropSnapshot s).steps.actions := by
  unfold dropSnapshot
  rw [snap]
  dsimp only
  rw [Cellar.releaseNow_onlyRooms, Cellar.releaseNow_onlyRooms]
  simp [List.mem_filter]

theorem endSnapshot_does {x : Snapshot} (cause : Nat) (snap : s.snap = some x) : (endSnapshot cause s).snap = none ∧
    Boundary.snapshot ∉ (endSnapshot cause s).steps.actions ∧ (endSnapshot cause s).mem = s.mem ∧
    Logged 0x8902 [a8 (snapId x), a2 cause] s (endSnapshot cause s) := by
  refine ⟨endSnapshot_snap .., ?_, ?_, endSnapshot_logged cause snap⟩
  · unfold endSnapshot
    rw [snap]
    exact dropSnapshot_actions (x := x) snap
  · unfold endSnapshot
    rw [snap]
    dsimp only
    rw [dropSnapshot_only]
    rfl

theorem snapAbort_row {id : W64} (p : Passes 0x0902 c [.snapshot] s) :
    (∀ x, s.snap = some x → snapId x = id.toNat → Completes (.cmdSnapAbort c id) s (fun t => Answered 0x0902 c { st := stDone } s t ∧
      t.snap = none ∧ Boundary.snapshot ∉ t.steps.actions ∧ t.mem = s.mem ∧ Logged 0x8902 [a8 id.toNat, a2 (Config.snapCause 1)] s t)) ∧
    ((∀ x, s.snap = some x → snapId x ≠ id.toNat) → Completes (.cmdSnapAbort c id) s (Gives 0x0902 c { st := stWrongState } s s)) := by
  refine ⟨fun x snap named => ?_, fun other => ?_⟩
  · have meaning : snapAbort id (pendingOf 0x0902 c s) (takenState 0x0902 c [.snapshot] s) =
        ok (driveRest (endSnapshot (Config.snapCause 1) (takenState 0x0902 c [.snapshot] s))) := by
      unfold snapAbort
      rw [show (takenState 0x0902 c [.snapshot] s).snap = some x from snap]
      exact if_pos (by simpa using named)
    obtain ⟨gone, unawaited, mem, logged⟩ := endSnapshot_does (s := takenState 0x0902 c [.snapshot] s) (Config.snapCause 1) snap
    have done := order_done p (by decide) meaning rfl (by decide)
    refine ⟨_, rfl, done.answered, ?_, ?_, ?_, ?_⟩
    · rw [done.snap, driveRest_eq]
      exact gone
    · rw [done.steps, driveRest_eq]
      exact unawaited
    · rw [done.mem, driveRest_eq]
      exact mem
    · rw [← named]
      exact done.logged (logged_of_log (driveRest_log _) logged)
  · refine ⟨_, rfl, order_refused p (by decide) ?_ rfl⟩
    unfold snapAbort
    cases snap : s.snap with
    | none =>
      rw [show (takenState 0x0902 c [.snapshot] s).snap = none from snap]
      rfl
    | some x =>
      rw [show (takenState 0x0902 c [.snapshot] s).snap = some x from snap]
      exact if_neg (by simpa using other x snap)

/-! ### STORE_FORM -/

theorem storeForm_row {pairs : List (Nat × Nat)} (p : Passes 0x0903 c [.snapshot] s) :
    (storRoot s = true → pairs ≠ [] → pairs.length ≤ 16 → pairs.eraseDups.length = pairs.length →
      (∀ q ∈ pairs, (driveAt s q.1).used = true ∧ (driveAt s q.1).failed = false) → Completes (.cmdStoreForm c pairs) s
        (Gives 0x0903 c { st := stDone } { s with ports := { s.ports with store := pairs } } s)) ∧
    (storRoot s = false → Completes (.cmdStoreForm c pairs) s (Gives 0x0903 c { st := stWrongState } s s)) := by
  refine ⟨fun root some_ few once good => ?_, fun other => ?_⟩
  · have meaning : storeForm pairs (pendingOf 0x0903 c s) (takenState 0x0903 c [.snapshot] s) =
        ok { takenState 0x0903 c [.snapshot] s with ports := { s.ports with store := pairs } } := by
      have usable : pairs.any (fun p => !(driveAt s p.1).used || (driveAt s p.1).failed) = false := by
        rw [List.any_eq_false]
        intro q mem
        simp [good q mem]
      exact if_neg (by simp [show storRoot (takenState 0x0903 c [.snapshot] s) = true from root]) |>.trans
        (if_neg (by
          rw [show pairs.any (fun p => !(driveAt (takenState 0x0903 c [.snapshot] s) p.1).used || (driveAt (takenState 0x0903 c [.snapshot] s) p.1).failed) =
            false from usable]
          simp [some_, once]
          omega))
    exact ⟨_, rfl, order_gives s p (by decide) meaning rfl ⟨rfl, (takenState_but s 0x0903 c [.snapshot]).2⟩ rfl
      (fun bad => absurd bad (by decide))⟩
  · refine ⟨_, rfl, order_refused p (by decide) ?_ rfl⟩
    exact if_pos (by simp [show storRoot (takenState 0x0903 c [.snapshot] s) = false from other])

/-! ### DRIVE_RESCAN -/

/-- The state with other mailboxes and other notes of the pass. -/
def withPass (ms : Table Mailbox) (ps : List PassOrder) (ls : List LimitOrder) (s : State) : State :=
  { s with porter := { s.porter with mailboxes := ms, passOrders := ps, limitOrders := ls } }

section
variable (ms : Table Mailbox) (ps : List PassOrder) (ls : List LimitOrder)

theorem forEach_withPass {α : Type} {f : α → State → State} (step : ∀ a v, f a (withPass ms ps ls v) = withPass ms ps ls (f a v))
    (l : List α) (s : State) : forEach l f (withPass ms ps ls s) = withPass ms ps ls (forEach l f s) := by
  induction l generalizing s with
  | nil => rfl
  | cons a l ih =>
    show forEach l f (f a (withPass ms ps ls s)) = _
    rw [step, ih]
    rfl

theorem raise_withPass (code plane die : Nat) (args : List (Nat × Nat)) (s : State) :
    raise code plane die args (withPass ms ps ls s) = withPass ms ps ls (raise code plane die args s) := by
  unfold raise
  rw [show controlHalted (withPass ms ps ls s) = controlHalted s from rfl,
    show (withPass ms ps ls s).porter.porter = s.porter.porter from rfl]
  dsimp only
  split <;> rfl

theorem capBump_withPass (s : State) : capBump (withPass ms ps ls s) = withPass ms ps ls (capBump s) := by
  unfold capBump
  rw [show (withPass ms ps ls s).cap = s.cap from rfl]
  split <;> rfl

theorem grantRoom_withPass (q : RoomReq) (owner : W16) (s : State) : grantRoom q owner (withPass ms ps ls s) =
    (grantRoom q owner s).map (fun g => (g.1, withPass ms ps ls g.2)) := by
  unfold grantRoom
  rw [show placeRoom (withPass ms ps ls s) q = placeRoom s q from rfl, show freeRoomId (withPass ms ps ls s) = freeRoomId s from rfl]
  split <;> rfl

theorem grantQueues_withPass (s : State) : grantQueues (withPass ms ps ls s) = withPass ms ps ls (grantQueues s) := by
  unfold grantQueues
  rw [grantRoom_withPass, show (withPass ms ps ls s).ports = s.ports from rfl, show roomAt (withPass ms ps ls s) _ = roomAt s _ from rfl]
  by_cases held : (roomAt s s.ports.queueRoom.toNat).isSome
  · rw [if_pos held, if_pos held]
  · rw [if_neg held, if_neg held]
    cases grantRoom _ _ s <;> rfl

/-- Porter enumerates one controller. -/
def enumerate (f : Fin 16 × Nat) (s : State) : State :=
  if f.2 == 0 then (if (driveAt s f.1.val).failed then s else setDrive f.1.val (fun d => { d with used := true }) s)
  else raise 0x4905 ctrl dieStor [a2 f.1.val, a2 f.2] s

/-- The drives that an enumeration begins with: those that failed or are in use. -/
def drivesKept (s : State) : State :=
  { s with ports := { s.ports with drives := s.ports.drives.filter (fun d => d.2.failed || d.2.busy) } }

/-- What enumeration does before it compares the drives with those there were. -/
def enumerated (found : List (Fin 16 × Nat)) (s : State) : State := forEach found enumerate (drivesKept (grantQueues s))

theorem enumerateDrives_eq (found : List (Fin 16 × Nat)) (s : State) : enumerateDrives found s =
    if !storWorks s then s
    else if (enumerated found s).ports.drives.map (fun d => (d.1, d.2.used, d.2.failed)) ==
        (grantQueues s).ports.drives.map (fun d => (d.1, d.2.used, d.2.failed)) then enumerated found s
    else capBump (enumerated found s) := rfl

theorem enumerated_withPass (found : List (Fin 16 × Nat)) (s : State) :
    enumerated found (withPass ms ps ls s) = withPass ms ps ls (enumerated found s) := by
  unfold enumerated
  rw [grantQueues_withPass, show drivesKept (withPass ms ps ls (grantQueues s)) = withPass ms ps ls (drivesKept (grantQueues s)) from rfl]
  refine forEach_withPass ms ps ls (fun f v => ?_) found _
  unfold enumerate
  rw [show driveAt (withPass ms ps ls v) _ = driveAt v _ from rfl, raise_withPass]
  split
  · split <;> rfl
  · rfl

theorem ports_withPass (s : State) : (withPass ms ps ls s).ports = s.ports := rfl
theorem storWorks_withPass (s : State) : storWorks (withPass ms ps ls s) = storWorks s := rfl

/-- An enumeration does not look at the mailboxes. -/
theorem enumerateDrives_withPass (found : List (Fin 16 × Nat)) (s : State) :
    enumerateDrives found (withPass ms ps ls s) = withPass ms ps ls (enumerateDrives found s) := by
  rw [enumerateDrives_eq, enumerateDrives_eq, enumerated_withPass, grantQueues_withPass, capBump_withPass, apply_ite (withPass ms ps ls),
    apply_ite (withPass ms ps ls), storWorks_withPass, ports_withPass, ports_withPass]

end

/-- A grant changes the rooms alone. -/
theorem grantRoom_rooms {q : RoomReq} {owner : W16} {k : Nat} (granted : grantRoom q owner s = some (k, u)) :
    u = { s with rooms := u.rooms } := by
  unfold grantRoom at granted
  split at granted
  · obtain ⟨-, rfl⟩ : _ ∧ _ := by simpa using granted
    rfl
  · cases granted

theorem grantQueues_frame (s : State) : (grantQueues s).porter = s.porter ∧ (grantQueues s).log = s.log ∧
    (grantQueues s).ports.drives = s.ports.drives := by
  unfold grantQueues
  split
  · exact ⟨rfl, rfl, rfl⟩
  · split
    · next id u granted =>
      rw [grantRoom_rooms granted]
      exact ⟨rfl, rfl, rfl⟩
    · exact ⟨rfl, rfl, rfl⟩

/-- An enumeration changes no mailbox. -/
theorem enumerateDrives_mailboxes (found : List (Fin 16 × Nat)) (s : State) :
    (enumerateDrives found s).porter.mailboxes = s.porter.mailboxes := by
  have kept : (enumerated found s).porter.mailboxes = s.porter.mailboxes := by
    refine (forEach_same (g := fun u => u.porter.mailboxes) _ (fun f _ v => ?_)).trans
      (congrArg Porter.mailboxes (grantQueues_frame s).1)
    unfold enumerate
    split
    · split <;> rfl
    · exact raise_porter_mailboxes v
  rw [enumerateDrives_eq]
  split
  · rfl
  · split
    · exact kept
    · rw [capBump_porter]
      exact kept

/-- An enumeration that finds one controller which qualifies, and has not failed, uses it. -/
theorem enumerateDrives_uses (works : storWorks s = true) {d : Fin 16} (sound : ∀ q ∈ s.ports.drives, q.1 = d.val → q.2.failed = false) :
    (driveAt (enumerateDrives [(d, 0)] s) d.val).used = true := by
  have fine : (driveAt (drivesKept (grantQueues s)) d.val).failed = false := by
    unfold driveAt tget drivesKept
    dsimp only
    rw [(grantQueues_frame s).2.2]
    cases held : tfind? (s.ports.drives.filter (fun d => d.2.failed || d.2.busy)) d.val with
    | none => rfl
    | some x => exact sound _ (List.mem_filter.mp (Towers.mem_of_tfind? held)).1 rfl
  have used : (driveAt (enumerated [(d, 0)] s) d.val).used = true := by
    show (driveAt (enumerate (d, 0) (drivesKept (grantQueues s))) d.val).used = true
    unfold enumerate
    rw [if_pos (by rfl), if_neg (by simp [fine])]
    unfold driveAt setDrive
    rw [tget_tset, if_pos rfl]
  rw [enumerateDrives_eq, if_neg (by simp [works])]
  split
  · exact used
  · unfold driveAt
    rw [capBump_ports]
    exact used

/-- An enumeration that finds one controller which does not qualify logs it. -/
theorem enumerateDrives_logs (works : storWorks s = true) {d : Fin 16} {why : Nat} (other : why ≠ 0) :
    Logged 0x4905 [a2 d.val, a2 why] s (enumerateDrives [(d, why)] s) := by
  have logged : Logged 0x4905 [a2 d.val, a2 why] s (enumerated [(d, why)] s) := by
    show Logged _ _ s (enumerate (d, why) (drivesKept (grantQueues s)))
    unfold enumerate
    rw [if_neg (by simpa using other)]
    exact logged_since (Nat.le_of_eq (congrArg Log.next (grantQueues_frame s).2.1).symm) (raise_logged ..)
  rw [enumerateDrives_eq, if_neg (by simp [works])]
  split
  · exact logged
  · exact logged_of_log (capBump_log _) logged

theorem driveRescan_row (p : Passes 0x0904 c [] s) :
    (storRoot s = true → ∀ found, Completes (.cmdDriveRescan c found) s (fun t =>
      Gives 0x0904 c { st := stDone } (enumerateDrives found s) s t ∧
      (domainRuns s dieStor = true → (∀ d, found = [(d, 0)] → (∀ q ∈ s.ports.drives, q.1 = d.val → q.2.failed = false) → (driveAt t d.val).used = true) ∧
      (∀ d why, found = [(d, why)] → why ≠ 0 → Logged 0x4905 [a2 d.val, a2 why] s t)))) ∧
    (storRoot s = false → ∀ found, Completes (.cmdDriveRescan c found) s (Gives 0x0904 c { st := stWrongState } s s)) := by
  refine ⟨fun root found => ?_, fun other found => ?_⟩
  · have taken : takenState 0x0904 c [] s = withPass (takenState 0x0904 c [] s).porter.mailboxes (takenState 0x0904 c [] s).porter.passOrders
        (takenState 0x0904 c [] s).porter.limitOrders s := rfl
    have meaning : driveRescan found (pendingOf 0x0904 c s) (takenState 0x0904 c [] s) = ok (enumerateDrives found (takenState 0x0904 c [] s)) :=
      if_neg (by simp [show storRoot (takenState 0x0904 c [] s) = true from root])
    have same : mbAt (enumerateDrives found (takenState 0x0904 c [] s)) = mbAt (takenState 0x0904 c [] s) := by
      funext k
      unfold mbAt
      rw [enumerateDrives_mailboxes]
    have but : ButMailbox c.mailbox.val (enumerateDrives found s) (enumerateDrives found (takenState 0x0904 c [] s)) := by
      refine ⟨?_, fun k ne => ?_⟩
      · rw [taken, enumerateDrives_withPass]
        rfl
      · rw [same, (takenState_but s 0x0904 c []).2 k ne]
        unfold mbAt
        rw [enumerateDrives_mailboxes]
    have gives := order_gives s p (by decide) meaning rfl but (congrFun same _) (fun bad => absurd bad (by decide))
    refine ⟨_, rfl, gives, fun runs => ⟨fun d only sound => ?_, fun d why only other => ?_⟩⟩
    · subst only
      have used := enumerateDrives_uses (s := s) (by simp [storWorks, root, runs]) sound
      unfold driveAt at used ⊢
      rwa [show (order 0x0904 c [] (driveRescan [(d, 0)]) s).ports = (enumerateDrives [(d, 0)] s).ports by rw [gives.2.1]]
    · subst only
      exact logged_of_log (by rw [gives.2.1]) (enumerateDrives_logs (by simp [storWorks, root, runs]) other)
  · exact ⟨_, rfl, order_refused p (by decide) (if_pos (by simp [show storRoot (takenState 0x0904 c [] s) = false from other])) rfl⟩

end

end Sys2Proof.Stored
end

