-- ==== Sys2Proof/Proofs/LodgeAndRestoreOrders.lean ====
section
/-! PROOFS. The orders of lodging pairs and of restores (13 R362, 16 R437, R442, R445, R446; O52). -/

namespace Sys2Proof.Stored

open Sys2Proof.Machine Sys2Proof.Safety Sys2Proof.Laws Sys2Proof.Endings Sys2Proof.Orders Sys2Proof.Keeper Sys2Proof.Lodged

/-! ### The least of a list -/

section
variable {α : Type} {key : α → Nat}

theorem argMin_least {l : List α} {a : α} (least : argMin key l = some a) : a ∈ l ∧ ∀ b ∈ l, key a ≤ key b := by
  induction l generalizing a with
  | nil => cases least
  | cons b l ih =>
    unfold argMin at least
    cases rest : argMin key l with
    | none =>
      rw [rest] at least
      cases l with
      | nil =>
        obtain rfl := Option.some.inj least
        simp
      | cons c l =>
        unfold argMin at rest
        split at rest
        · cases rest
        · split at rest <;> cases rest
    | some x =>
      rw [rest] at least
      obtain ⟨mem, all⟩ := ih rest
      dsimp only at least
      split at least
      · next le =>
        obtain rfl := Option.some.inj least
        exact ⟨List.mem_cons_self, List.forall_mem_cons.mpr ⟨Nat.le_refl _, fun y hy => Nat.le_trans le (all y hy)⟩⟩
      · next gt =>
        obtain rfl := Option.some.inj least
        exact ⟨List.mem_cons_of_mem _ mem, List.forall_mem_cons.mpr ⟨by omega, all⟩⟩

theorem argMin_none {l : List α} (none_ : argMin key l = none) : l = [] := by
  cases l with
  | nil => rfl
  | cons b l =>
    unfold argMin at none_
    split at none_
    · cases none_
    · split at none_ <;> cases none_

/-- The least of a list of numbers, 0 for none. -/
theorem argMin_getD (l : List Nat) : (l ≠ [] → (argMin id l).getD 0 ∈ l) ∧ ∀ b ∈ l, (argMin id l).getD 0 ≤ b := by
  cases least : argMin id l with
  | none => simp [argMin_none least]
  | some a =>
    obtain ⟨mem, all⟩ := argMin_least least
    exact ⟨fun _ => mem, all⟩

end

section
variable {s t u : State} {c : Cmd}

/-! ### LODGE_PAIR -/

/-- An order that waits has sent what its meaning sent. -/
theorem order_waits_outs {code : Nat} {subs : List Subject} {h : Handler} {x : Wait} {w : State} (p : Passes code c subs s)
    (lt : code < 65536) (meaning : h (pendingOf code c s) (takenState code c subs s) = (.wait x, w)) :
    (order code c subs h s).outs = w.outs := by
  obtain ⟨row, -, e⟩ := order_passes s (h := h) p lt
  rw [e, meaning]
  unfold answerState awaitOrder
  dsimp only
  split <;> rfl

variable {partner : W16} {override pfeed : Byte}

theorem lodgePair_waits {p : Pending} (may : override = 1 ∧ p.cmd.mailbox.val = 65 ∨ override = 0 ∧ pfeed.toNat ≠ s.power.feedTag.toNat)
    (free : lodgeWaits s = false) : lodgePair partner override pfeed p s = (.wait (.lodge partner), sendLodgeRequest partner (override == 1) s) := by
  unfold lodgePair
  rcases may with ⟨rfl, manager⟩ | ⟨rfl, other⟩
  · rw [if_neg (by decide), if_neg (by simp [manager]), if_neg (by simp), if_neg (by simp [free])]
  · rw [if_neg (by decide), if_neg (by simp), if_neg (by simpa using other), if_neg (by simp [free])]

theorem lodgePair_denied {p : Pending} (not : override = 1 ∧ p.cmd.mailbox.val ≠ 65 ∨ override = 0 ∧ pfeed.toNat = s.power.feedTag.toNat) :
    lodgePair partner override pfeed p s = reply stDenied s := by
  unfold lodgePair
  rcases not with ⟨rfl, other⟩ | ⟨rfl, same⟩
  · rw [if_neg (by decide), if_pos (by simpa using other)]
  · rw [if_neg (by decide), if_neg (by simp), if_pos (by simpa using same)]

theorem lodgePair_row (p : Passes 0x0905 c [.lodge] s) :
    ((override = 1 ∧ c.mailbox.val = 65 ∨ override = 0 ∧ pfeed.toNat ≠ s.power.feedTag.toNat) → lodgeWaits s = false →
      Completes (.cmdLodgePair c partner override pfeed) s (fun t =>
        WaitsFor 0x0905 c (.lodge partner)
          { s with lodge := { s.lodge with asking := some (partner, override == 1), counted := lodgedTensors s } } s t ∧
        t.outs = Out.lodge partner "request" [s.fab.moduleId.toNat, s.power.feedTag.toNat, override.toNat,
          (lodgedTensors s).length, lodgeBytes s] [] :: s.outs)) ∧
    ((override = 1 ∧ c.mailbox.val ≠ 65 ∨ override = 0 ∧ pfeed.toNat = s.power.feedTag.toNat) →
      Completes (.cmdLodgePair c partner override pfeed) s (Gives 0x0905 c { st := stDenied } s s)) := by
  refine ⟨fun may free => ?_, fun not => ⟨_, rfl, order_refused p (by decide) (lodgePair_denied not) rfl⟩⟩
  have meaning := lodgePair_waits (s := takenState 0x0905 c [.lodge] s) (p := pendingOf 0x0905 c s) (partner := partner) may free
  refine ⟨_, rfl, order_waits s p (by decide) meaning ⟨rfl, (takenState_but s 0x0905 c [.lodge]).2⟩, ?_⟩
  have number : (override == 1).toNat = override.toNat := by
    rcases may with ⟨rfl, -⟩ | ⟨rfl, -⟩ <;> rfl
  rw [← number]
  exact order_waits_outs p (by decide) meaning

/-! ### LODGE_PROMOTE -/

section
variable (ms : Table Mailbox) (ps : List PassOrder) (ls : List LimitOrder)

theorem tailRoom_withPass (s : State) : tailRoom (withPass ms ps ls s) = (tailRoom s).map (fun g => (g.1, withPass ms ps ls g.2)) := by
  unfold tailRoom
  rw [grantRoom_withPass, show ownerSession (withPass ms ps ls s) = ownerSession s from rfl, apply_ite (Option.map _),
    Option.map_map, Option.map_map]
  rfl

end

/-- The Ledger tail in its room, if there is one. -/
def tailPut (r : W16) (tail : List Byte) (s : State) : State :=
  match roomAt s r.toNat with
  | some x => if r == 0xFFFF then s else wr x.base.toNat tail s
  | none => s

variable {failed r : W16}

theorem lodgePromote_done {p : Pending} (lodged : s.lodge.lodgedFor = failed) (some_ : failed ≠ noModule) (gone : isMember s failed = false)
    (room : tailRoom s = some (r, u)) : lodgePromote failed p s =
      (.done { st := stDone, r0 := r.toNat, r1 := s.lodge.directory.length, r2 := (argMin id (s.lodge.directory.map (fun d => d.2.2.toNat))).getD 0 },
        raiseCtrl 0x8906 [a2 failed.toNat, a2 s.lodge.directory.length]
          (setLodge (fun l => { l with promoted := some failed }) (tailPut r s.lodge.tail u))) := by
  unfold lodgePromote
  dsimp only
  rw [if_neg (by simp [lodged, some_, gone]), room]
  rfl

theorem lodgePromote_wrong {p : Pending} (not : s.lodge.lodgedFor ≠ failed ∨ isMember s failed = true) :
    lodgePromote failed p s = reply stWrongState s := by
  unfold lodgePromote
  dsimp only
  rw [if_pos]
  rcases not with other | member <;> simp [*]

theorem done_lodge {code : Nat} {r : Reply} {w : State} (d : Done code c r s w u) : u.lodge = w.lodge := by
  rw [d.but.1]

theorem tailPut_frame (r : W16) (tail : List Byte) (s : State) : tailPut r tail s = { s with mem := (tailPut r tail s).mem } := by
  unfold tailPut
  split
  · split <;> rfl
  · rfl

/-- The tail is read back from its room. -/
theorem tailPut_reads {m : Room} {tail : List Byte} (good : MemGood s) (room : r ≠ 0xFFFF) (held : roomAt s r.toNat = some m) :
    rd (tailPut r tail s) m.base.toNat tail.length = tail := by
  unfold tailPut
  rw [held]
  dsimp only
  rw [if_neg (by simpa using room)]
  exact rd_wr _ _ good

theorem tailRoom_rooms (room : tailRoom s = some (r, u)) : u = { s with rooms := u.rooms } := by
  unfold tailRoom at room
  split at room
  · obtain ⟨-, rfl⟩ : _ ∧ _ := by simpa using room
    rfl
  · obtain ⟨⟨k, v⟩, granted, same⟩ := Option.map_eq_some_iff.mp room
    obtain ⟨-, rfl⟩ := Prod.mk.inj same
    exact grantRoom_rooms granted

theorem lodgePromote_row (p : Passes 0x0906 c [.lodge] s) :
    (s.lodge.lodgedFor = failed → failed ≠ noModule → isMember s failed = false → ∀ r u, tailRoom s = some (r, u) →
      Completes (.cmdLodgePromote c failed) s (fun t => t.lodge = { s.lodge with promoted := some failed } ∧
        (∃ low, Posted 0x0906 c { st := stDone, r0 := r.toNat, r1 := s.lodge.directory.length, r2 := low } s t ∧
          (s.lodge.directory ≠ [] → low ∈ s.lodge.directory.map (fun d => d.2.2.toNat)) ∧
          ∀ d ∈ s.lodge.directory, low ≤ d.2.2.toNat) ∧
        (MemGood s → r ≠ 0xFFFF → ∀ m, roomAt u r.toNat = some m → rd t m.base.toNat s.lodge.tail.length = s.lodge.tail) ∧
        Logged 0x8906 [a2 failed.toNat, a2 s.lodge.directory.length] s t)) ∧
    ((s.lodge.lodgedFor ≠ failed ∨ isMember s failed = true) → Completes (.cmdLodgePromote c failed) s
      (Gives 0x0906 c { st := stWrongState } s s)) := by
  refine ⟨fun lodged some_ gone r u room => ?_, fun not => ⟨_, rfl, order_refused p (by decide) (lodgePromote_wrong not) rfl⟩⟩
  have taken : tailRoom (takenState 0x0906 c [.lodge] s) = some (r, withPass (takenState 0x0906 c [.lodge] s).porter.mailboxes
      (takenState 0x0906 c [.lodge] s).porter.passOrders (takenState 0x0906 c [.lodge] s).porter.limitOrders u) :=
    (tailRoom_withPass _ _ _ s).trans (by rw [room]; rfl)
  generalize hv : withPass _ _ _ u = v at taken
  have rooms : v.rooms = u.rooms := by rw [← hv]; rfl
  have frame := tailRoom_rooms taken
  have done := order_done p (by decide) (lodgePromote_done (p := pendingOf 0x0906 c s) lodged some_ gone taken) rfl (show stDone ≠ stBadArg by decide)
  have put := tailPut_frame r s.lodge.tail v
  have least := argMin_getD (s.lodge.directory.map (fun d => d.2.2.toNat))
  refine ⟨_, rfl, ?_, ⟨_, Limits.posted_of_same (subs := [.lodge]) done ?_, ?_, ?_⟩, fun good room' m held => ?_, done.logged ?_⟩
  · rw [done_lodge done]
    show { (tailPut r s.lodge.tail v).lodge with promoted := some failed } = _
    rw [put, frame]
    rfl
  · refine (raise_porter_mailboxes _).trans ?_
    show (tailPut r s.lodge.tail v).porter.mailboxes = _
    rw [put, frame]
  · exact fun some_ => least.1 (by simpa using some_)
  · exact fun d mem => least.2 _ (List.mem_map_of_mem mem)
  · rw [Cellar.rd_of_mem (s := tailPut r s.lodge.tail v) done.mem]
    exact tailPut_reads (by rw [frame]; exact good) room' (by unfold roomAt; rw [rooms]; exact held)
  · refine logged_since (Nat.le_of_eq ?_) (raise_logged ..)
    show s.log.next = (tailPut r s.lodge.tail v).log.next
    rw [put, frame]
    rfl

/-! ### RESTORE -/

section
variable (ms : Table Mailbox) (ps : List PassOrder) (ls : List LimitOrder)

theorem unpinRoom_withPass (id v : Nat) (s : State) : unpinRoom id v (withPass ms ps ls s) = withPass ms ps ls (unpinRoom id v s) := by
  unfold unpinRoom
  rw [show updRoom id (unpinVer · v) (withPass ms ps ls s) = withPass ms ps ls (updRoom id (unpinVer · v) s) from rfl]
  generalize updRoom id (unpinVer · v) s = u
  unfold settleRelease
  rw [show roomAt (withPass ms ps ls u) id = roomAt u id from rfl]
  cases roomAt u id with
  | none => rfl
  | some r =>
    dsimp only
    rw [apply_ite (withPass ms ps ls)]
    rfl

theorem dropUnapplied_withPass (room : Nat) (s : State) : dropUnapplied room (withPass ms ps ls s) = withPass ms ps ls (dropUnapplied room s) := by
  unfold dropUnapplied
  rw [show roomAt (withPass ms ps ls s) room = roomAt s room from rfl]
  cases roomAt s room with
  | none => rfl
  | some r =>
    exact forEach_withPass ms ps ls (fun x v => unpinRoom_withPass ms ps ls room x.1.toNat v) r.unapplied
      (updRoom room (fun r => { r with unapplied := [] }) s)

theorem addVersion_withPass (room : Nat) (step : W64) (s : State) :
    addVersion room step (withPass ms ps ls s) = (addVersion room step s).map (withPass ms ps ls) := by
  unfold addVersion
  rw [show roomAt (withPass ms ps ls s) room = roomAt s room from rfl]
  cases roomAt s room with
  | none => rfl
  | some r =>
    show Option.map _ _ = Option.map _ (Option.map _ _)
    rw [Option.map_map]
    rfl

theorem addVersions_withPass (room : Nat) (us : List W64) (s : State) :
    addVersions room us (withPass ms ps ls s) = (addVersions room us s).map (withPass ms ps ls) := by
  induction us generalizing s with
  | nil => rfl
  | cons x us ih =>
    unfold addVersions
    rw [addVersion_withPass]
    cases addVersion room x s with
    | none => rfl
    | some v => exact ih v

/-- The versions of an image are opened whatever the mailboxes hold. -/
theorem openImage_withPass (m : Manifest) (es : List (BitVec 512 × Nat)) (s : State) :
    openImage m es (withPass ms ps ls s) = (openImage m es s).map (withPass ms ps ls) := by
  induction es generalizing s with
  | nil => rfl
  | cons e es ih =>
    unfold openImage
    rw [dropUnapplied_withPass, addVersions_withPass]
    cases addVersions _ _ (dropUnapplied _ s) with
    | none => rfl
    | some v => exact ih v

end

theorem dropUnapplied_onlyRooms (room : Nat) (s : State) : Cellar.OnlyRooms s (dropUnapplied room s) := by
  unfold dropUnapplied
  split
  · rfl
  · exact forEach_keeps (P := Cellar.OnlyRooms s) _ (fun _ _ _ h => h.trans (Cellar.unpinRoom_onlyRooms ..)) rfl

theorem addVersion_onlyRooms (room : Nat) {step : W64} (added : addVersion room step s = some t) : Cellar.OnlyRooms s t := by
  obtain ⟨r, -, opened⟩ := Option.bind_eq_some_iff.mp added
  obtain ⟨r', -, rfl⟩ := Option.map_eq_some_iff.mp opened
  rfl

theorem addVersions_onlyRooms (room : Nat) {us : List W64} (added : addVersions room us s = some t) : Cellar.OnlyRooms s t := by
  induction us generalizing s with
  | nil =>
    obtain rfl := Option.some.inj added
    rfl
  | cons x us ih =>
    obtain ⟨v, first, rest⟩ := Option.bind_eq_some_iff.mp added
    exact (addVersion_onlyRooms room first).trans (ih rest)

theorem openImage_onlyRooms (m : Manifest) {es : List (BitVec 512 × Nat)} (opened : openImage m es s = some t) : Cellar.OnlyRooms s t := by
  induction es generalizing s with
  | nil =>
    obtain rfl := Option.some.inj opened
    rfl
  | cons e es ih =>
    obtain ⟨v, added, rest⟩ := Option.bind_eq_some_iff.mp opened
    exact ((dropUnapplied_onlyRooms ..).trans (addVersions_onlyRooms _ added)).trans (ih rest)

theorem releaseNow_mailboxes (id : Nat) (s : State) : (releaseNow id s).porter.mailboxes = s.porter.mailboxes := by
  rw [Cellar.releaseNow_onlyRooms]

theorem freeStaging_mailboxes (x : Staged) (s : State) : (freeStaging x s).porter.mailboxes = s.porter.mailboxes := by
  unfold freeStaging
  split
  · rfl
  · exact releaseNow_mailboxes ..

theorem freeStaging_restore (x : Staged) (s : State) : (freeStaging x s).restore = s.restore := by
  unfold freeStaging
  split
  · rfl
  · exact releaseNow_restore ..

theorem installed_mailboxes (m : Manifest) (p : Plan) (s : State) : (installed m p s).porter.mailboxes = s.porter.mailboxes := by
  unfold installed
  dsimp only
  refine (forEach_same (g := fun u => u.porter.mailboxes) _ (fun x _ v => freeStaging_mailboxes x v)).trans
    ((forEach_same (g := fun u => u.porter.mailboxes) _ (fun e _ v => ?_)).trans ?_)
  · exact forEach_same (g := fun u => u.porter.mailboxes) v (fun _ _ _ => rfl)
  · split
    · exact forEach_same (g := fun u => u.porter.mailboxes) s (fun e _ v => forEach_same (g := fun u => u.porter.mailboxes) v (fun _ _ _ => rfl))
    · rfl

theorem endRestore_mailboxes (cause : Nat) (s : State) : (endRestore cause true s).porter.mailboxes = s.porter.mailboxes := by
  unfold endRestore
  split
  · rfl
  · exact (raise_porter_mailboxes _).trans (releaseNow_mailboxes ..)

/-- The end of a restore changes no mailbox. -/
theorem restoreDone_mailboxes (s : State) : (restoreDone s).porter.mailboxes = s.porter.mailboxes := by
  cases held : s.restore with
  | none =>
    unfold restoreDone
    rw [held]
  | some r =>
    cases plan : trainPlan s with
    | none =>
      unfold restoreDone
      rw [held, plan, driveRest_eq]
      exact endRestore_mailboxes ..
    | some p =>
      rw [restoreDone_eq held plan, driveRest_eq]
      exact (releaseNow_mailboxes ..).trans ((raise_porter_mailboxes _).trans (installed_mailboxes ..))

theorem driveWork_ports (base len : Nat) (s : State) : driveWork base len s = { s with ports := (driveWork base len s).ports } :=
  forEach_keeps (P := fun u => u = { s with ports := u.ports }) s (fun d _ v h => by rw [h]; rfl) rfl

/-- A restore that begins. -/
def opening (src : Byte) (id addr : W64) (m : Manifest) (room : W16) : Restoring :=
  { source := src, id := id, addr := addr, manifest := m, room := room, done := []
    sets := (m.entries.filter (fun e => mePart e == 7)).map (fun e => (meStep e, List.replicate (meLen e) 0)) }

/-- A restore that goes on, with what was staged freed. -/
def restoreOpened (src : Byte) (id addr : W64) (m : Manifest) (room : W16) (s : State) : State :=
  let t := forEach (s.params.homing ++ s.params.staged.toList) freeStaging
    { s with restore := some (opening src id addr m room), params := { s.params with staged := none, homing := [] } }
  if src == 0 then driveWork (((roomAt t room.toNat).map (fun r => r.base.toNat)).getD 0) (2 * chunkLen) t else t

variable {src : Byte} {id addr : W64} {m : Manifest} {room : W16}

theorem restoreOpened_mailboxes (s : State) : (restoreOpened src id addr m room s).porter.mailboxes = s.porter.mailboxes := by
  unfold restoreOpened
  dsimp only
  split
  · rw [driveWork_ports]
    exact forEach_same (g := fun u => u.porter.mailboxes) _ (fun x _ v => freeStaging_mailboxes x v)
  · exact forEach_same (g := fun u => u.porter.mailboxes) _ (fun x _ v => freeStaging_mailboxes x v)

theorem restoreOpened_restore (s : State) : (restoreOpened src id addr m room s).restore = some (opening src id addr m room) := by
  unfold restoreOpened
  dsimp only
  split
  · rw [driveWork_ports]
    exact forEach_same (g := fun u => u.restore) _ (fun x _ v => freeStaging_restore x v)
  · exact forEach_same (g := fun u => u.restore) _ (fun x _ v => freeStaging_restore x v)

theorem beginRestore_opens (good : manifestBad s id m = none) (opened : openImage m (restored s m) s = some t) :
    beginRestore src id addr m room s =
      if mfChunks m == 0 then restoreDone (restoreOpened src id addr m room t) else restoreOpened src id addr m room t := by
  unfold beginRestore
  rw [good, opened]
  rfl

/-- A restore that ends at once: its room released, and the event. -/
theorem beginRestore_ends {why : Nat} (bad : manifestBad s id m = some why) : beginRestore src id addr m room s =
    releaseNow room.toNat (raiseCtrl 0x8909 [a8 id.toNat, a2 (Config.restoreCause why)] s) := by
  unfold beginRestore
  rw [bad]

theorem beginRestore_mailboxes (s : State) : (beginRestore src id addr m room s).porter.mailboxes = s.porter.mailboxes := by
  cases good : manifestBad s id m with
  | some why =>
    rw [beginRestore_ends good]
    exact (releaseNow_mailboxes ..).trans (raise_porter_mailboxes _)
  | none =>
    cases opened : openImage m (restored s m) s with
    | none =>
      unfold beginRestore
      rw [good, opened]
      exact (releaseNow_mailboxes ..).trans (raise_porter_mailboxes _)
    | some t =>
      have rooms : t.porter.mailboxes = s.porter.mailboxes := by rw [openImage_onlyRooms m opened]
      rw [beginRestore_opens good opened]
      split
      · exact (restoreDone_mailboxes _).trans ((restoreOpened_mailboxes t).trans rooms)
      · exact (restoreOpened_mailboxes t).trans rooms

/-- What RESTORE needs. -/
def MayRestore (s : State) (src : Byte) : Prop :=
  (∃ p ∈ s.porter.plans, p.1 ∉ s.porter.unloaded) ∧ stepOpen s = false ∧ s.snap = none ∧ s.restore = none ∧
    (src = 0 → s.ports.store ≠ [] ∧ storRoot s = true)

/-- The room that the chunks of a restore are read into. -/
def stagingRoom : RoomReq := { cls := 6, home := 1, index := 0, slots := 1, fallback := false, pages := 2 * chunkLen / 4096 }

theorem restore_refused : (!(s.porter.plans.any (fun p => !s.porter.unloaded.contains p.1)) || stepOpen s || s.snap.isSome ||
    s.restore.isSome || (src == 0 && (s.ports.store.isEmpty || !storRoot s))) = true ↔ ¬ MayRestore s src := by
  have loaded : s.porter.plans.any (fun p => !s.porter.unloaded.contains p.1) = true ↔ ∃ p ∈ s.porter.plans, p.1 ∉ s.porter.unloaded := by
    simp only [List.any_eq_true, Bool.not_eq_true', List.contains_eq_mem, decide_eq_false_iff_not]
  rw [MayRestore, ← loaded]
  simp only [Bool.or_eq_true, Bool.and_eq_true, beq_iff_eq, Bool.not_eq_true', List.isEmpty_iff, Option.isSome_iff_ne_none,
    not_and_or, Classical.not_imp, Bool.not_eq_true, Bool.not_eq_false, or_assoc, ne_eq, not_not]

/-- RESTORE of a good request. -/
theorem restore_meaning (p : Pending) (le : src.toNat ≤ 1) (aligned : src = 0 → addr.toNat % chunkLen = 0) (s : State) :
    (¬ MayRestore s src → restore src id addr m p s = reply stWrongState s) ∧
    (MayRestore s src → grantRoom stagingRoom 0xFFFF s = none → restore src id addr m p s = reply stNoRoom s) ∧
    (MayRestore s src → ∀ k u, grantRoom stagingRoom 0xFFFF s = some (k, u) → restore src id addr m p s =
      reply stAccepted (beginRestore src id addr m (BitVec.ofNat 16 k) u)) := by
  have first : ¬ 1 < src.toNat := by omega
  have second : ¬ (src == 0 && addr.toNat % chunkLen != 0) = true := by simpa using aligned
  refine ⟨fun not => ?_, fun may none_ => ?_, fun may k u granted => ?_⟩
  · exact (if_neg first).trans ((if_neg second).trans (if_pos (restore_refused.mpr not)))
  · refine (if_neg first).trans ((if_neg second).trans ((if_neg (restore_refused.not_left.mpr may)).trans ?_))
    unfold stagingRoom at none_
    rw [none_]
  · refine (if_neg first).trans ((if_neg second).trans ((if_neg (restore_refused.not_left.mpr may)).trans ?_))
    unfold stagingRoom at granted
    rw [granted]

theorem done_restore {code : Nat} {r : Reply} {w : State} (d : Done code c r s w u) : u.restore = w.restore := by
  rw [d.but.1]

theorem restore_row (p : Passes 0x0907 c [] s) (le : src.toNat ≤ 1) (aligned : src = 0 → addr.toNat % chunkLen = 0) :
    (MayRestore s src → ∀ k u, grantRoom stagingRoom 0xFFFF s = some (k, u) → Completes (.cmdRestore c src id addr m) s (fun t =>
      Posted 0x0907 c { st := stAccepted } s t ∧
      match manifestBad u id m with
      | some why => t.restore = none ∧ t.mem = s.mem ∧ Logged 0x8909 [a8 id.toNat, a2 (Config.restoreCause why)] s t
      | none => mfChunks m ≠ 0 → openImage m (restored u m) u ≠ none →
          ∃ r, t.restore = some r ∧ r.source = src ∧ r.id = id ∧ r.manifest = m ∧ r.done = [])) ∧
    (MayRestore s src → grantRoom stagingRoom 0xFFFF s = none → Completes (.cmdRestore c src id addr m) s (Gives 0x0907 c { st := stNoRoom } s s)) ∧
    (¬ MayRestore s src → Completes (.cmdRestore c src id addr m) s (Gives 0x0907 c { st := stWrongState } s s)) := by
  obtain ⟨wrong, full, begins⟩ := restore_meaning (id := id) (m := m) (pendingOf 0x0907 c s) le aligned (takenState 0x0907 c [] s)
  have taken := grantRoom_withPass (takenState 0x0907 c [] s).porter.mailboxes (takenState 0x0907 c [] s).porter.passOrders
    (takenState 0x0907 c [] s).porter.limitOrders stagingRoom 0xFFFF s
  refine ⟨fun may k u granted => ?_, fun may none_ => ?_, fun not => ⟨_, rfl, order_refused p (by decide) (wrong not) rfl⟩⟩
  · rw [granted] at taken
    have meaning := begins may k _ taken
    have still : s.restore = none := may.2.2.2.1
    have rooms := grantRoom_rooms granted
    have done := order_done p (by decide) meaning rfl (by decide)
    have frame := grantRoom_rooms taken
    have opens := openImage_withPass (takenState 0x0907 c [] s).porter.mailboxes (takenState 0x0907 c [] s).porter.passOrders
      (takenState 0x0907 c [] s).porter.limitOrders m (restored u m) u
    have checked : manifestBad u id m = manifestBad (withPass (takenState 0x0907 c [] s).porter.mailboxes
      (takenState 0x0907 c [] s).porter.passOrders (takenState 0x0907 c [] s).porter.limitOrders u) id m := rfl
    rw [checked]
    rw [show restored u m = restored (withPass (takenState 0x0907 c [] s).porter.mailboxes
      (takenState 0x0907 c [] s).porter.passOrders (takenState 0x0907 c [] s).porter.limitOrders u) m from rfl] at opens ⊢
    generalize withPass _ _ _ u = v at *
    refine ⟨_, rfl, Limits.posted_of_same (subs := []) done ?_, ?_⟩
    · rw [beginRestore_mailboxes, frame]
      rfl
    · cases bad : manifestBad v id m with
      | some why =>
        rw [done_restore done, done.mem, beginRestore_ends bad]
        refine ⟨?_, ?_, done.logged ?_⟩
        · rw [releaseNow_restore, show (raiseCtrl _ _ v).restore = v.restore from rfl, frame]
          exact still
        · rw [Cellar.releaseNow_onlyRooms, show (raiseCtrl _ _ v).mem = v.mem from rfl, frame]
          rfl
        · rw [beginRestore_ends bad]
          refine logged_of_log (releaseNow_log ..) (logged_since (Nat.le_of_eq ?_) (raise_logged ..))
          rw [frame]
          rfl
      | none =>
        intro some_ openable
        obtain ⟨w, opened⟩ := Option.ne_none_iff_exists'.mp openable
        rw [opened] at opens
        rw [done_restore done, beginRestore_opens bad opens, if_neg (by simpa using some_), restoreOpened_restore]
        exact ⟨_, rfl, rfl, rfl, rfl, rfl⟩
  · rw [none_] at taken
    exact ⟨_, rfl, order_refused p (by decide) (full may taken) rfl⟩

end

/-- Settles O52: one row for each order, each by what it leaves and the answer that it posts. -/
theorem snapStoreLodgeRestoreOrders : Obligations.SnapStoreLodgeRestoreOrders :=
  fun _ _ => ⟨fun _ p => snapTake_row p, fun _ p => snapAbort_row p, fun _ p => storeForm_row p, fun p => driveRescan_row p,
    fun _ _ _ p => lodgePair_row p, fun _ p => lodgePromote_row p, fun _ _ _ _ p le aligned => restore_row p le aligned⟩

end Sys2Proof.Stored
end

