-- ==== Sys2Proof/Proofs/DriveRequests.lean ====
section
/-! PROOFS. What drives may read and write, and what becomes of their commands (12 R333, R334; O41). -/

namespace Sys2Proof.Stored

open Sys2Proof.Machine Sys2Proof.Safety Sys2Proof.Laws Sys2Proof.Endings Sys2Proof.Keeper Sys2Proof.Lodged

section
variable {s t u : State}

/-! ### Memory requests -/

/-- The drive may reach the bytes: they lie in its queues, or in a range of the Mere that its command names. -/
def MayReach (s : State) (d : Nat) (a len : Nat) : Prop := (driveAt s d).used = true ∧ (driveAt s d).failed = false ∧
  ((∃ b, queueBase s d = some b ∧ b ≤ a ∧ a + len ≤ b + queuePages * pageBytes) ∨
    (regionOf a = .mere ∧ ∃ r ∈ (driveAt s d).ranges, r.1.toNat ≤ a ∧ a + len ≤ r.1.toNat + r.2))

/-- What a request of a drive does that it may make. -/
def driveServed (a len : Nat) (isWrite : Bool) (bs : List Byte) (s : State) : State :=
  if wayShut s (portPath .stor a) then (if isWrite then s else emit (.data .stor [] true) s)
  else if isWrite then portWrite 2 a (fit len 0 bs) s
  else emit (.data .stor (rd s a len) (s.mem.poisoned a len)) (readEvent a len s)

variable {d : Fin 16} {addr : W64} {len : Nat} {bs : List Byte}

theorem driveMemoryRequest_eq (works : storWorks s = true) (w : Bool) :
    (MayReach s d.val addr.toNat len → driveMemoryRequest d addr len w bs s = driveServed addr.toNat len w bs s) ∧
    (¬ MayReach s d.val addr.toNat len →
      driveMemoryRequest d addr len w bs s = raise 0x4904 data dieStor [a2 d.val] (emit (.unsupported d.val) s)) := by
  have queues : (match queueBase s d.val with
      | some b => decide (b ≤ addr.toNat) && decide (addr.toNat + len ≤ b + queuePages * pageBytes)
      | none => false) = true ↔ ∃ b, queueBase s d.val = some b ∧ b ≤ addr.toNat ∧ addr.toNat + len ≤ b + queuePages * pageBytes := by
    cases queueBase s d.val <;> simp
  have reach : ((driveAt s d.val).used && !(driveAt s d.val).failed && ((match queueBase s d.val with
      | some b => decide (b ≤ addr.toNat) && decide (addr.toNat + len ≤ b + queuePages * pageBytes)
      | none => false) || ((driveAt s d.val).ranges.any (fun r => decide (r.1.toNat ≤ addr.toNat) && decide (addr.toNat + len ≤ r.1.toNat + r.2)) &&
        regionOf addr.toNat == .mere))) = true ↔ MayReach s d.val addr.toNat len := by
    simp only [Bool.and_eq_true, Bool.or_eq_true, queues, MayReach, Bool.not_eq_true', List.any_eq_true, decide_eq_true_eq, beq_iff_eq,
      and_assoc]
    rw [and_comm (a := ∃ r, _)]
  have on : ¬ (!storWorks s) = true := by simp [works]
  exact ⟨fun may => (if_neg on).trans (if_pos (reach.mpr may)), fun not => (if_neg on).trans (if_neg (reach.not.mpr not))⟩

theorem portWrite_wr {writer a : Nat} (free : taskRoomUnder s a bs.length = none) (noSnap : s.snap = none) :
    portWrite writer a bs s = wr a bs s := by
  unfold portWrite
  rw [free]
  exact Cellar.homeWrite_of_noSnap noSnap

theorem request_row (works : storWorks s = true) :
    (MayReach s d.val addr.toNat len → wayShut s (portPath .stor addr.toNat) = true →
      Completes (.driveMemoryRequest d addr len true bs) s (fun t => t = s)) ∧
    (MayReach s d.val addr.toNat len → wayShut s (portPath .stor addr.toNat) = false → MemGood s → s.snap = none →
      taskRoomUnder s addr.toNat len = none → Completes (.driveMemoryRequest d addr len true bs) s (fun t =>
      t = { s with mem := t.mem } ∧ rd t addr.toNat len = fit len 0 bs ∧
      ∀ b, (b < addr.toNat ∨ addr.toNat + len ≤ b) → cellsGet t.mem.cells b = cellsGet s.mem.cells b)) ∧
    (MayReach s d.val addr.toNat len → Completes (.driveMemoryRequest d addr len false bs) s (fun t =>
      t = if wayShut s (portPath .stor addr.toNat) then emit (.data .stor [] true) s
        else emit (.data .stor (rd s addr.toNat len) (s.mem.poisoned addr.toNat len)) (readEvent addr.toNat len s))) ∧
    (∀ w, ¬ MayReach s d.val addr.toNat len → Completes (.driveMemoryRequest d addr len w bs) s
      (OnlyEvent 0x4904 data dieStor [a2 d.val] (emit (.unsupported d.val) s))) := by
  have served (w : Bool) (may : MayReach s d.val addr.toNat len) := (driveMemoryRequest_eq (d := d) (bs := bs) works w).1 may
  refine ⟨fun may shut => ⟨_, rfl, (served true may).trans (if_pos shut)⟩, fun may open_ good noSnap free => ?_,
    fun may => ⟨_, rfl, served false may⟩, fun w not => ?_⟩
  · have length : (fit len 0 bs).length = len := by simp [fit]; omega
    have eq : driveMemoryRequest d addr len true bs s = wr addr.toNat (fit len 0 bs) s :=
      (served true may).trans ((if_neg (by simp [open_])).trans (portWrite_wr (by rw [length]; exact free) noSnap))
    have back := rd_wr addr.toNat (fit len 0 bs) good
    rw [length] at back
    exact ⟨_, congrArg Host.Outcome.next eq, rfl, back, fun b out => cellsGet_wr_outside _ _ _ good (by rwa [length])⟩
  · exact ⟨_, congrArg Host.Outcome.next ((driveMemoryRequest_eq works w).2 not), raise_onlyEvent ..⟩

/-! ### Commands that end -/

theorem driveAt_setDrive (d k : Nat) (f : Drive → Drive) (s : State) :
    driveAt (setDrive d f s) k = if k = d then f (driveAt s d) else driveAt s k := by
  unfold driveAt setDrive
  rw [tget_tset]
  rfl

/-- A drive with nothing outstanding. -/
def driveIdle (d : Nat) (s : State) : State := setDrive d (fun x => { x with reissued := false, busy := false, ranges := [] }) s

theorem driveDone_eq {d : Nat} (works : storWorks s = true) (busy : (driveAt s d).busy = true) (apart : inStore s d = false) :
    ∃ b, driveDone d s = { driveIdle d s with ports := { (driveIdle d s).ports with flushing := b } } := by
  unfold driveDone
  rw [if_neg (by simp [works, busy])]
  simp only [apart, Bool.false_and, Bool.false_eq_true, if_false]
  split
  · exact ⟨false, rfl⟩
  · exact ⟨s.ports.flushing, rfl⟩

theorem driveTrouble_first {d : Nat} (works : storWorks s = true) (busy : (driveAt s d).busy = true) (once : (driveAt s d).reissued = false) :
    driveTrouble d s = emit (.driveCmd d "Reissue" 0) (emit (.driveCmd d "Reset" 0) (setDrive d (fun x => { x with reissued := true }) s)) :=
  (if_neg (by simp [works, busy])).trans (if_neg (by simp [once]))

theorem driveTrouble_second {d : Nat} (works : storWorks s = true) (busy : (driveAt s d).busy = true) (twice : (driveAt s d).reissued = true) :
    driveTrouble d s = failDrive d s :=
  (if_neg (by simp [works, busy])).trans (if_pos twice)

/-! ### A drive that fails -/

theorem endRestore_winds (cause : Nat) (undef : Bool) (s : State) : ∃ v, v = { s with restore := v.restore, params := v.params } ∧
    Winds v (endRestore cause undef s) := by
  unfold endRestore
  split
  · exact ⟨s, rfl, .refl s⟩
  · exact ⟨{ s with restore := none, params := { s.params with lost := s.params.lost || undef } }, rfl,
      (releaseNow_winds ..).trans (raiseCtrl_winds ..)⟩

theorem endRestore_drives (cause : Nat) (undef : Bool) (s : State) : (endRestore cause undef s).ports.drives = s.ports.drives := by
  obtain ⟨v, frame, winds⟩ := endRestore_winds cause undef s
  rw [winds.drives, frame]

theorem endRestore_snap (cause : Nat) (undef : Bool) (s : State) : (endRestore cause undef s).snap = s.snap := by
  unfold endRestore
  split
  · rfl
  · show (releaseNow _ _).snap = _
    rw [Cellar.releaseNow_onlyRooms]

theorem endRestore_grows (cause : Nat) (undef : Bool) (s : State) : Grows 1 s (endRestore cause undef s) := by
  unfold endRestore
  split
  · exact (Grows.refl s).mono (Nat.zero_le _)
  · exact (Grows.raise ..).since (releaseNow_log ..)

theorem endSnapshot_grows (cause : Nat) (s : State) : Grows 1 s (endSnapshot cause s) := by
  unfold endSnapshot
  split
  · exact (Grows.refl s).mono (Nat.zero_le _)
  · next x _ =>
    refine (Grows.raise 0x8902 ctrl dieControl [a8 (snapId x), a2 cause] s).silent ?_
    rw [dropSnapshot_only]
    rfl

/-- The drive that has failed twice: its marks, and the event. -/
def driveFailed (d : Nat) (s : State) : State :=
  raise 0x4906 ctrl dieStor [a2 d] (capBump (setDrive d (fun x => { x with failed := true, busy := false, ranges := [], reissued := false }) s))

/-- The operations that use a failed drive end. -/
def usesEnd (d : Nat) (s : State) : State :=
  let s := if inStore s d && snapOnStore s then endSnapshot stDeviceFault s else s
  if inStore s d && restoreOnStore s then endRestore stDeviceFault ((s.restore.map (fun r => !r.done.isEmpty)).getD false) s else s

theorem failDrive_eq (d : Nat) (s : State) : failDrive d s = driveRest (usesEnd d (driveFailed d s)) := rfl

theorem usesEnd_does (d : Nat) (s : State) : (usesEnd d s).ports.drives = s.ports.drives ∧ Grows 2 s (usesEnd d s) ∧
    (inStore s d = true → snapOnStore s = true → (usesEnd d s).snap = none) := by
  have drives : (if inStore s d && snapOnStore s then endSnapshot stDeviceFault s else s).ports.drives = s.ports.drives := by
    split
    · exact (endSnapshot_winds ..).drives
    · rfl
  have grows : Grows 1 s (if inStore s d && snapOnStore s then endSnapshot stDeviceFault s else s) := by
    split
    · exact endSnapshot_grows ..
    · exact (Grows.refl s).mono (Nat.zero_le _)
  have snap : inStore s d = true → snapOnStore s = true → (if inStore s d && snapOnStore s then endSnapshot stDeviceFault s else s).snap = none := by
    intro here onStore
    rw [if_pos (by simp [here, onStore])]
    exact endSnapshot_snap ..
  unfold usesEnd
  dsimp only
  generalize (if inStore s d && snapOnStore s then endSnapshot stDeviceFault s else s) = v at *
  split
  · exact ⟨(endRestore_drives ..).trans drives, grows.trans (endRestore_grows ..), fun here onStore => (endRestore_snap ..).trans (snap here onStore)⟩
  · exact ⟨drives, grows.mono (by omega), snap⟩

theorem tfind?_mapIf {α : Type} (p : Nat → Bool) (g : α → α) (l : Table α) (k : Nat) :
    tfind? (l.map (fun x => if p x.1 then (x.1, g x.2) else x)) k = (tfind? l k).map (fun x => if p k then g x else x) := by
  induction l with
  | nil => rfl
  | cons x l ih =>
    obtain ⟨j, a⟩ := x
    rw [List.map_cons, apply_ite (· :: _)]
    by_cases here : j = k
    · subst here
      split
      · simp [tfind?]
      · simp [tfind?]
    · have ne : (j == k) = false := by simpa using here
      split <;> simpa [tfind?, ne] using ih

/-- A drive without a command. -/
def rested (x : Drive) : Drive := { x with busy := false, ranges := [], reissued := false }

theorem driveRest_drives (s : State) : (driveRest s).ports.drives = if snapOnStore s || restoreOnStore s then s.ports.drives
    else s.ports.drives.map (fun x => if inStore s x.1 then (x.1, rested x.2) else x) := by
  unfold driveRest
  split <;> rfl

/-- What a drive is after the store's operations have ended: it stays failed, or not, and is not busy where it was not. -/
theorem driveAt_driveRest (d : Nat) (s : State) : (driveAt (driveRest s) d).failed = (driveAt s d).failed ∧
    ((driveAt s d).busy = false → (driveAt (driveRest s) d).busy = false) := by
  unfold driveAt tget
  rw [driveRest_drives]
  split
  · exact ⟨rfl, id⟩
  · rw [tfind?_mapIf (inStore s) rested]
    cases tfind? s.ports.drives d with
    | none => exact ⟨rfl, fun _ => rfl⟩
    | some x =>
      dsimp only [Option.map_some, Option.getD_some]
      split
      · exact ⟨rfl, fun _ => rfl⟩
      · exact ⟨rfl, id⟩

theorem failDrive_does (d : Nat) (s : State) : (driveAt (failDrive d s) d).failed = true ∧ (driveAt (failDrive d s) d).busy = false ∧
    Logged 0x4906 [a2 d] s (failDrive d s) ∧ (inStore s d = true → snapOnStore s = true → (failDrive d s).snap = none) := by
  obtain ⟨drives, grows, snap⟩ := usesEnd_does d (driveFailed d s)
  have same : driveAt (usesEnd d (driveFailed d s)) d = { driveAt s d with failed := true, busy := false, ranges := [], reissued := false } := by
    have after : (driveFailed d s).ports.drives = (setDrive d (fun x => { x with failed := true, busy := false, ranges := [], reissued := false }) s).ports.drives := by
      show (capBump _).ports.drives = _
      rw [capBump_ports]
    have eq := driveAt_setDrive d d (fun x => { x with failed := true, busy := false, ranges := [], reissued := false }) s
    rw [if_pos rfl] at eq
    rw [← eq]
    unfold driveAt
    rw [drives, after]
  obtain ⟨failed, busy⟩ := driveAt_driveRest d (usesEnd d (driveFailed d s))
  rw [failDrive_eq]
  refine ⟨failed.trans (by rw [same]), busy (by rw [same]), ?_, fun here onStore => ?_⟩
  · refine ((grows.silent (driveRest_log _)).lately (Towers.loggedLately_raise ctrl dieStor ?_) (by decide)).logged
    rw [capBump_log]
    exact Nat.le_refl _
  · rw [driveRest_eq]
    refine snap ?_ ?_
    · show inStore (capBump _) d = true
      unfold inStore
      rw [capBump_ports]
      exact here
    · show snapOnStore (capBump _) = true
      unfold snapOnStore
      rw [capBump_snap]
      exact onStore

theorem drive_row (d : Fin 16) (works : storWorks s = true) (busy : (driveAt s d.val).busy = true) :
    (inStore s d.val = false → Completes (.driveCommandComplete d true) s (fun t =>
      t = { s with ports := { s.ports with drives := t.ports.drives, flushing := t.ports.flushing } } ∧
      driveAt t d.val = { driveAt s d.val with reissued := false, busy := false, ranges := [] } ∧
      ∀ k, k ≠ d.val → driveAt t k = driveAt s k)) ∧
    (∀ c, (c = Instr.driveCommandComplete d false ∨ c = .driveCommandTimeout d) →
      ((driveAt s d.val).reissued = false → Completes c s (fun t =>
        t.outs = .driveCmd d.val "Reissue" 0 :: .driveCmd d.val "Reset" 0 :: s.outs ∧
        driveAt t d.val = { driveAt s d.val with reissued := true } ∧
        t = { s with ports := { s.ports with drives := t.ports.drives }, outs := t.outs })) ∧
      ((driveAt s d.val).reissued = true → Completes c s (fun t =>
        (driveAt t d.val).failed = true ∧ (driveAt t d.val).busy = false ∧ Logged 0x4906 [a2 d.val] s t ∧
        (inStore s d.val = true → snapOnStore s = true → t.snap = none)))) := by
  refine ⟨fun apart => ?_, fun c either => ?_⟩
  · obtain ⟨b, eq⟩ := driveDone_eq works busy apart
    refine ⟨_, congrArg Host.Outcome.next eq, rfl, ?_, fun k ne => ?_⟩
    · exact (driveAt_setDrive d.val d.val (fun x => { x with reissued := false, busy := false, ranges := [] }) s).trans (if_pos rfl)
    · exact (driveAt_setDrive d.val k (fun x => { x with reissued := false, busy := false, ranges := [] }) s).trans (if_neg ne)
  · have meaning : exec c s = .next (driveTrouble d.val s) := by rcases either with rfl | rfl <;> rfl
    refine ⟨fun once => ?_, fun twice => ?_⟩
    · refine ⟨_, meaning.trans (congrArg Host.Outcome.next (driveTrouble_first works busy once)), rfl, ?_, rfl⟩
      exact (driveAt_setDrive d.val d.val (fun x => { x with reissued := true }) s).trans (if_pos rfl)
    · exact ⟨_, meaning.trans (congrArg Host.Outcome.next (driveTrouble_second works busy twice)), failDrive_does d.val s⟩

end

end Sys2Proof.Stored
end

