-- ==== Sys2Proof/Proofs/SnapshotChunks.lean ====
section
/-! PROOFS. The mark of a snapshot, and its chunks (12 R337 to R342; O41). -/

namespace Sys2Proof.Stored

open Sys2Proof.Machine Sys2Proof.Safety Sys2Proof.Laws Sys2Proof.Endings Sys2Proof.Keeper Sys2Proof.Lodged

section
variable {s t u : State} {x : Snapshot}

/-! ### The mark -/

/-- The snapshot of the whole image at a boundary. -/
def image (s : State) (x : Snapshot) (p : Plan) : Snapshot :=
  { x with
    marked := true, step := s.steps.lastBoundary, parts := (imageParts s p x.req).1,
    sets := (gradSteps (imageParts s p x.req).1).map (fun u => (BitVec.ofNat 64 u, setsOf s u)),
    lag := (if p.params.any peResident then p.lag else 0), seed := p.seed, pins := (imageParts s p x.req).2 }

/-- Every chunk of the image is PENDING, and its versions are pinned. -/
def markedState (n : Snapshot) (a b : W16) (s : State) : State :=
  let s := forEach n.pins (fun rv s => pinRoom rv.1.toNat rv.2.toNat s) s
  { s with
    snap := some { n with room := a, staging := b, chunks := List.replicate (chunkCount (payloadLen n)) .pending }
    steps := { s.steps with actions := s.steps.actions.filter (fun t => !(t == Boundary.snapshot)) } }

variable {p : Plan}

theorem snapshotMark_eq (snap : s.snap = some x) (unmarked : x.marked = false) (runs : porterRuns s = true) (boundary : atBoundary s = true)
    (plan : trainPlan s = some p) (some_ : payloadLen (image s x p) ≠ 0) : snapshotMark s =
      if sqDestLen x.req < manifestLen s (image s x p) + payloadLen (image s x p) then endSnapshot stNoRoom s
      else match snapRooms (payloadLen (image s x p)) s with
        | none => endSnapshot stNoRoom s
        | some (a, b, u) => if snapDest x == 0 then
            driveWork (((roomAt (markedState (image s x p) a b u) b.toNat).map (fun r => r.base.toNat)).getD 0) (2 * chunkLen)
              (markedState (image s x p) a b u)
          else markedState (image s x p) a b u := by
  unfold snapshotMark
  rw [snap]
  dsimp only
  rw [if_neg (by simp [unmarked, runs, boundary]), plan]
  by_cases long : sqDestLen x.req < manifestLen s (image s x p) + payloadLen (image s x p)
  · exact (if_pos long).trans (if_pos long).symm
  · refine (if_neg long).trans (Eq.trans ?_ (if_neg long).symm)
    show (match snapRooms (payloadLen (image s x p)) s with
      | none => _
      | some (a, b, u) => _) = _
    cases snapRooms (payloadLen (image s x p)) s with
    | none => rfl
    | some g => exact if_neg (show ¬ (payloadLen (image s x p) == 0) = true by simpa using some_)

theorem forEach_pins_frame (l : List (W16 × W16)) (s : State) :
    forEach l (fun rv s => pinRoom rv.1.toNat rv.2.toNat s) s = { s with rooms := (forEach l (fun rv s => pinRoom rv.1.toNat rv.2.toNat s) s).rooms } :=
  forEach_keeps (P := fun u => u = { s with rooms := u.rooms }) s (fun _ _ _ h => by rw [h]; rfl) rfl

theorem snapRooms_rooms {n : Nat} {a b : W16} (granted : snapRooms n s = some (a, b, u)) : u = { s with rooms := u.rooms } := by
  unfold snapRooms at granted
  split at granted
  · obtain ⟨-, -, rfl⟩ : _ ∧ _ ∧ _ := by simpa using granted
    rfl
  · split at granted
    · cases granted
    · next k v first =>
      split at granted
      · cases granted
      · next j w second =>
        obtain ⟨-, -, rfl⟩ : _ ∧ _ ∧ _ := by simpa using granted
        have rooms := grantRoom_rooms second
        rw [grantRoom_rooms first] at rooms
        exact rooms

theorem markedState_does (n : Snapshot) (a b : W16) (s : State) :
    (markedState n a b s).snap = some { n with room := a, staging := b, chunks := List.replicate (chunkCount (payloadLen n)) .pending } ∧
    (markedState n a b s).mem = s.mem ∧ Boundary.snapshot ∉ (markedState n a b s).steps.actions := by
  refine ⟨rfl, ?_, ?_⟩
  · show (forEach _ _ s).mem = _
    rw [forEach_pins_frame]
  · exact fun mem => by simpa using (List.mem_filter.mp mem).2

theorem mark_row (snap : s.snap = some x) (unmarked : x.marked = false) (runs : porterRuns s = true) (boundary : atBoundary s = true)
    (plan : trainPlan s = some p) (some_ : payloadLen (image s x p) ≠ 0) :
    (∀ a b u, manifestLen s (image s x p) + payloadLen (image s x p) ≤ sqDestLen x.req →
      snapRooms (payloadLen (image s x p)) s = some (a, b, u) → Completes .snapshotMark s (fun t =>
        t.snap = some { (image s x p) with
          room := a, staging := b, chunks := List.replicate (chunkCount (payloadLen (image s x p))) Chunk.pending } ∧
        t.mem = s.mem ∧ Boundary.snapshot ∉ t.steps.actions)) ∧
    ((sqDestLen x.req < manifestLen s (image s x p) + payloadLen (image s x p) ∨
        snapRooms (payloadLen (image s x p)) s = none) → Completes .snapshotMark s (fun t =>
      t.snap = none ∧ Logged 0x8902 [a8 (snapId x), a2 stNoRoom] s t)) := by
  have eq := snapshotMark_eq snap unmarked runs boundary plan some_
  refine ⟨fun a b u fits granted => ⟨_, rfl, ?_⟩, fun full => ⟨_, rfl, ?_⟩⟩
  · have mem : u.mem = s.mem := by rw [snapRooms_rooms granted]
    obtain ⟨shot, kept, unawaited⟩ := markedState_does (image s x p) a b u
    rw [eq, if_neg (by omega), granted]
    dsimp only
    split
    · rw [driveWork_ports]
      exact ⟨shot, kept.trans mem, unawaited⟩
    · exact ⟨shot, kept.trans mem, unawaited⟩
  · have ends : snapshotMark s = endSnapshot stNoRoom s := by
      rw [eq]
      rcases full with long | none_
      · exact if_pos long
      · rw [none_]
        exact ite_self _
    rw [ends]
    exact ⟨endSnapshot_snap .., endSnapshot_logged _ snap⟩

/-! ### What is sent -/

/-- `t` is `s` with more sent, and with the next message numbers moved on. -/
structure Sends (s t : State) : Prop where
  frame : t = { s with fab := { s.fab with nextMsg := t.fab.nextMsg }, outs := t.outs }
  sent : s.outs <:+ t.outs

theorem Sends.refl (s : State) : Sends s s := ⟨rfl, List.suffix_rfl⟩

theorem Sends.trans (h : Sends s t) (k : Sends t u) : Sends s u := by
  refine ⟨?_, h.sent.trans k.sent⟩
  have frame := k.frame
  rw [h.frame] at frame
  exact frame

theorem Sends.emit (o : Out) (s : State) : Sends s (emit o s) := ⟨rfl, List.suffix_cons _ _⟩

theorem Sends.forEach {α : Type} {l : List α} {f : α → State → State} (step : ∀ a v, Sends v (f a v)) (s : State) : Sends s (forEach l f s) :=
  forEach_keeps (P := Sends s) s (fun a _ v h => h.trans (step a v)) (.refl s)

theorem Sends.mem (h : Sends s t) : t.mem = s.mem := by rw [h.frame]
theorem Sends.log (h : Sends s t) : t.log = s.log := by rw [h.frame]
theorem Sends.snap (h : Sends s t) : t.snap = s.snap := by rw [h.frame]

theorem Sends.messagePlanes (h : Sends s t) (dest : Nat) : messagePlanes t dest = messagePlanes s dest := by
  rw [h.frame]
  rfl

theorem shipWrites_sends (x : Snapshot) (off : Nat) (fua : Bool) (n : Nat) (s : State) : Sends s (shipWrites x off fua n s) :=
  .forEach (fun _ _ => .emit ..) s

theorem shipMessages_sends (x : Snapshot) (off : Nat) (bs : List Byte) (s : State) : Sends s (shipMessages x off bs s) :=
  .forEach (fun _ _ => ⟨rfl, List.suffix_cons _ _⟩) s

theorem ship_sends (x : Snapshot) (off : Nat) (last : Bool) (bs : List Byte) (s : State) : Sends s (ship x off last bs s) := by
  unfold ship
  dsimp only
  refine (Sends.emit (.image (snapId x) (snapDest x) off bs) s).trans ?_
  split
  · exact shipWrites_sends ..
  · split
    · exact shipMessages_sends ..
    · exact .refl _

/-- The pieces of a chunk are written to their places in the store. -/
theorem shipWrites_writes (x : Snapshot) (off n : Nat) (s : State) : ∀ p ∈ storePieces s (sqDestAddr x.req + off) n,
    Out.driveCmd p.1 "Write" p.2 ∈ (shipWrites x off false n s).outs := by
  intro p mem
  obtain ⟨i, here⟩ := List.mem_iff_getElem?.mp mem
  exact forEach_reaches (P := fun (q : (Nat × Nat) × Nat) u => Out.driveCmd q.1.1 "Write" q.1.2 ∈ u.outs)
    (fun q u => List.mem_cons_self) (fun q r u h => List.mem_cons_of_mem _ h) _ s (p, i) (List.mk_mem_zipIdx_iff_getElem?.mpr here)

/-- The messages of a chunk carry its bytes in order. -/
theorem shipMessages_writes (x : Snapshot) (off : Nat) (bs : List Byte) (s : State) {i : Nat} (lt : i < cdiv bs.length 4016) : ∃ seq,
    Out.message (BitVec.ofNat 16 (fld x.req 416 16)) (fld x.req 410 6) seq (messagePlanes s (fld x.req 416 16))
      (imagePayload (snapId x) (off + 4016 * i) (bs.drop (4016 * i))) ∈ (shipMessages x off bs s).outs := by
  rw [← (shipMessages_sends x off bs s).messagePlanes]
  refine forEach_reaches (P := fun i u => ∃ seq, Out.message (BitVec.ofNat 16 (fld x.req 416 16)) (fld x.req 410 6) seq
    (messagePlanes u (fld x.req 416 16)) (imagePayload (snapId x) (off + 4016 * i) (bs.drop (4016 * i))) ∈ u.outs)
    (fun i u => ⟨_, List.mem_cons_self⟩) (fun i j u h => ?_) _ s i (List.mem_range.mpr lt)
  obtain ⟨seq, mem⟩ := h
  exact ⟨seq, List.mem_cons_of_mem _ mem⟩

/-- What is shipped for a chunk: the image bytes, and their writes or messages. -/
theorem ship_does (x : Snapshot) (off : Nat) (bs : List Byte) (s : State) :
    Out.image (snapId x) (snapDest x) off bs ∈ (ship x off false bs s).outs ∧
    (snapDest x = 0 → ∀ p, p ∈ storePieces s (sqDestAddr x.req + off) bs.length → Out.driveCmd p.1 "Write" p.2 ∈ (ship x off false bs s).outs) ∧
    (snapDest x = 2 → ∀ i, i < cdiv bs.length 4016 → ∃ seq,
      Out.message (BitVec.ofNat 16 (fld x.req 416 16)) (fld x.req 410 6) seq (messagePlanes s (fld x.req 416 16))
        (imagePayload (snapId x) (off + 4016 * i) (bs.drop (4016 * i))) ∈ (ship x off false bs s).outs) := by
  refine ⟨?_, fun store p mem => ?_, fun ring i lt => ?_⟩
  · have first : Out.image (snapId x) (snapDest x) off bs ∈ (emit (.image (snapId x) (snapDest x) off bs) s).outs := List.mem_cons_self
    unfold ship
    dsimp only
    split
    · exact (shipWrites_sends ..).sent.subset first
    · split
      · exact (shipMessages_sends ..).sent.subset first
      · exact first
  · unfold ship
    dsimp only
    rw [if_pos (by simp [store])]
    exact shipWrites_writes x off bs.length (emit (.image (snapId x) (snapDest x) off bs) s) p mem
  · unfold ship
    dsimp only
    rw [if_neg (by simp [ring]), if_pos (by simp [ring])]
    exact shipMessages_writes x off bs (emit (.image (snapId x) (snapDest x) off bs) s) lt

/-! ### The last chunk -/

/-- The manifest and the flushes with which a snapshot ends. -/
def manifestShipped (x : Snapshot) (s : State) : State :=
  let s := ship x 0 true (padTo4K (manifestBytes s x)) s
  if snapDest x == 0 then forEach (drivesUsed s) (fun d s => emit (.driveCmd d "Flush" 0) s) s else s

theorem snapShipped_eq (snap : s.snap = some x) : snapShipped s =
    driveRest (dropSnapshot (raiseCtrl 0x8901 [a8 (snapId x), a8 x.step.toNat, a2 (snapDest x)] (manifestShipped x s))) := by
  unfold snapShipped
  rw [snap]
  rfl

theorem manifestShipped_sends (x : Snapshot) (s : State) : Sends s (manifestShipped x s) := by
  unfold manifestShipped
  dsimp only
  split
  · exact (ship_sends ..).trans (.forEach (fun _ _ => .emit ..) _)
  · exact ship_sends ..

theorem snapShipped_does (snap : s.snap = some x) : (snapShipped s).snap = none ∧ (snapShipped s).mem = s.mem ∧ s.outs <:+ (snapShipped s).outs ∧
    Logged 0x8901 [a8 (snapId x), a8 x.step.toNat, a2 (snapDest x)] s (snapShipped s) := by
  have sends := manifestShipped_sends x s
  have winds := (raiseCtrl_winds 0x8901 [a8 (snapId x), a8 x.step.toNat, a2 (snapDest x)] (manifestShipped x s)).trans (dropSnapshot_winds _)
  have sent := sends.sent.trans winds.sent
  rw [snapShipped_eq snap]
  refine ⟨?_, ?_, ?_, ?_⟩
  · rw [driveRest_eq, dropSnapshot_only]
  · rw [driveRest_mem, dropSnapshot_only]
    exact sends.mem
  · rw [driveRest_eq]
    exact sent
  · refine logged_of_log ?_ (logged_since (Nat.le_of_eq (congrArg Log.next sends.log).symm)
      (raise_logged _ 0x8901 ctrl dieControl [a8 (snapId x), a8 x.step.toNat, a2 (snapDest x)]))
    rw [driveRest_log, dropSnapshot_only]
    rfl

/-! ### One chunk -/

/-- The snapshot with one chunk more shipped. -/
def withShipped (k : Nat) (bs : List Byte) (x : Snapshot) : Snapshot :=
  { x with chunks := lset x.chunks k .shipped, saved := tdel x.saved k, digests := tset x.digests k (Config.sha512 bs) }

/-- A chunk is on its way, and is noted. -/
def chunkSent (x : Snapshot) (k : Nat) (bs : List Byte) (s : State) : State :=
  settleSnapPins { ship x (manifestLen s x + k * chunkLen) false bs s with snap := some (withShipped k bs x) }

/-- Pins that no chunk needs any more are given up; of the snapshot only its list of pins changes. -/
theorem settleSnapPins_frame (snap : s.snap = some x) : ∃ l, Cellar.OnlyRooms { s with snap := some { x with pins := l } } (settleSnapPins s) := by
  have eq : ∃ (l gone : List (W16 × W16)), settleSnapPins s = forEach gone (fun rv s => unpinRoom rv.1.toNat rv.2.toNat s) { s with snap := some { x with pins := l } } := by
    unfold settleSnapPins
    rw [snap]
    exact ⟨_, _, rfl⟩
  obtain ⟨l, gone, eq⟩ := eq
  exact ⟨l, eq ▸ unpinRooms_onlyRooms gone _⟩

/-- A chunk that may be shipped: not refused, and its homes without a memory error. -/
theorem snapshotChunkShipped_ships {k : Nat} {refused : Bool} {bs : List Byte} (snap : s.snap = some x) (marked : x.marked = true)
    (waits : x.chunks.getD k .shipped ≠ .shipped) (taken : refused = false ∨ snapDest x ≠ 2)
    (clean : x.chunks.getD k .shipped = .pending → chunkPoison s x k = none) (bytes : (tfind? x.saved k).getD (chunkBytes s x k) = bs) :
    snapshotChunkShipped k refused s = if (lset x.chunks k .shipped).all (fun c => c == Chunk.shipped) then snapShipped (chunkSent x k bs s)
      else chunkSent x k bs s := by
  subst bytes
  have sound : (chunkPoison s x k).filter (fun _ => x.chunks.getD k .shipped == Chunk.pending) = none := by
    rw [Option.filter_eq_none_iff]
    intro w found pending
    simp [clean (by simpa using pending)] at found
  unfold snapshotChunkShipped
  rw [snap]
  dsimp only
  rw [if_neg (by simp [marked, waits, -List.getD_eq_getElem?_getD]), if_neg (by rcases taken with h | h <;> simp [h]), sound]
  rfl

theorem chunkSent_does (k : Nat) (bs : List Byte) (s : State) : ∃ y, (chunkSent x k bs s).snap = some y ∧
    y = { withShipped k bs x with pins := y.pins } ∧ (chunkSent x k bs s).mem = s.mem ∧ (chunkSent x k bs s).log = s.log ∧
    (chunkSent x k bs s).outs = (ship x (manifestLen s x + k * chunkLen) false bs s).outs := by
  have sends := ship_sends x (manifestLen s x + k * chunkLen) false bs s
  obtain ⟨l, only⟩ := settleSnapPins_frame
    (s := { ship x (manifestLen s x + k * chunkLen) false bs s with snap := some (withShipped k bs x) }) rfl
  refine ⟨_, (congrArg State.snap only :), rfl, (congrArg State.mem only :).trans sends.mem, (congrArg State.log only :).trans sends.log,
    (congrArg State.outs only :)⟩

/-- The chunks are all shipped after one more where every other is. -/
theorem allShipped_lset {l : List Chunk} {k : Nat} (waits : l.getD k .shipped ≠ .shipped) :
    (lset l k .shipped).all (fun c => c == Chunk.shipped) = true ↔ ∀ j, j ≠ k → l.getD j .shipped = .shipped := by
  have lt : k < l.length := by
    by_contra ge
    exact waits (List.getD_eq_default _ _ (by omega))
  have each (j : Nat) := Cellar.getD_lset lt .shipped .shipped j
  rw [List.all_eq_true]
  constructor
  · intro all j ne
    by_cases inside : j < l.length
    · have eq := each j
      rw [if_neg ne] at eq
      rw [← eq, List.getD_eq_getElem _ _ (by simpa using inside)]
      simpa using all _ (List.getElem_mem _)
    · exact List.getD_eq_default _ _ (by omega)
  · intro all c mem
    obtain ⟨j, lt', rfl⟩ := List.mem_iff_getElem.mp mem
    have eq := each j
    rw [List.getD_eq_getElem _ _ lt'] at eq
    rw [eq]
    split
    · rfl
    · next ne =>
      rw [all j ne]
      rfl

/-- A chunk refused by the receiving module's ring ends the snapshot. -/
theorem snapshotChunkShipped_refused {k : Nat} (snap : s.snap = some x) (marked : x.marked = true) (waits : x.chunks.getD k .shipped ≠ .shipped)
    (ring : snapDest x = 2) : snapshotChunkShipped k true s = driveRest (endSnapshot stNoRoom s) := by
  unfold snapshotChunkShipped
  rw [snap]
  dsimp only
  rw [if_neg (by simp [marked, waits, -List.getD_eq_getElem?_getD]), if_pos (by simp [ring])]

/-- A chunk with a memory error ends the snapshot. -/
theorem snapshotChunkShipped_poisoned {k w : Nat} (snap : s.snap = some x) (marked : x.marked = true) (pending : x.chunks.getD k .shipped = .pending)
    (error : chunkPoison s x k = some w) : snapshotChunkShipped k false s = driveRest (endSnapshot stDeviceFault (poisonEvent 0xFFFF w s)) := by
  unfold snapshotChunkShipped
  rw [snap]
  dsimp only
  rw [if_neg (by simp [marked, pending, -List.getD_eq_getElem?_getD]), if_neg (by simp), error, Option.filter_some,
    if_pos (by simp [pending, -List.getD_eq_getElem?_getD])]

theorem poisonEvent_snap (c a : Nat) (s : State) : (poisonEvent c a s).snap = s.snap ∧ s.log.next ≤ (poisonEvent c a s).log.next := by
  unfold poisonEvent
  split
  · exact ⟨rfl, Nat.le_succ _⟩
  · exact ⟨rfl, Nat.le_succ _⟩
  · exact ⟨rfl, Nat.le_succ _⟩
  · exact ⟨rfl, Nat.le_succ _⟩
  · exact ⟨rfl, Nat.le_refl _⟩

/-- The end of a snapshot, and of the store's work for it. -/
theorem snapshotEnds (snap : s.snap = some x) (cause : Nat) : (driveRest (endSnapshot cause s)).snap = none ∧
    Logged 0x8902 [a8 (snapId x), a2 cause] s (driveRest (endSnapshot cause s)) := by
  refine ⟨?_, logged_of_log (driveRest_log _) (endSnapshot_logged cause snap)⟩
  rw [driveRest_eq]
  exact endSnapshot_snap ..

theorem chunk_row {k : Nat} (snap : s.snap = some x) (marked : x.marked = true) (waits : x.chunks.getD k .shipped ≠ .shipped) :
    (∀ refused bs, (refused = false ∨ snapDest x ≠ 2) → (x.chunks.getD k .shipped = .pending → chunkPoison s x k = none) →
      (tfind? x.saved k).getD (chunkBytes s x k) = bs → Completes (.snapshotChunkShipped k refused) s (fun t =>
        .image (snapId x) (snapDest x) (manifestLen s x + k * chunkLen) bs ∈ t.outs ∧ t.mem = s.mem ∧
        (snapDest x = 0 → ∀ p, p ∈ storePieces s (sqDestAddr x.req + (manifestLen s x + k * chunkLen)) bs.length →
          .driveCmd p.1 "Write" p.2 ∈ t.outs) ∧
        (snapDest x = 2 → ∀ i, i < cdiv bs.length 4016 → ∃ seq,
          .message (BitVec.ofNat 16 (fld x.req 416 16)) (fld x.req 410 6) seq (messagePlanes s (fld x.req 416 16))
            (imagePayload (snapId x) (manifestLen s x + k * chunkLen + 4016 * i) (bs.drop (4016 * i))) ∈ t.outs) ∧
        ((∃ j, j ≠ k ∧ x.chunks.getD j .shipped ≠ .shipped) → ∃ y, t.snap = some y ∧ y.chunks = lset x.chunks k .shipped ∧
          tfind? y.digests k = some (Config.sha512 bs)) ∧
        ((∀ j, j ≠ k → x.chunks.getD j .shipped = .shipped) → t.snap = none ∧
          Logged 0x8901 [a8 (snapId x), a8 x.step.toNat, a2 (snapDest x)] s t))) ∧
    (∀ w, snapDest x ≠ 2 → x.chunks.getD k .shipped = .pending → chunkPoison s x k = some w →
      Completes (.snapshotChunkShipped k false) s (fun t => t.snap = none ∧ Logged 0x8902 [a8 (snapId x), a2 stDeviceFault] s t)) ∧
    (snapDest x = 2 → Completes (.snapshotChunkShipped k true) s (fun t =>
      t.snap = none ∧ Logged 0x8902 [a8 (snapId x), a2 stNoRoom] s t)) := by
  refine ⟨fun refused bs taken clean bytes => ⟨_, rfl, ?_⟩, fun w _ pending error => ⟨_, rfl, ?_⟩, fun ring => ⟨_, rfl, ?_⟩⟩
  · obtain ⟨y, snap', same, mem, log, outs⟩ := chunkSent_does (x := x) k bs s
    obtain ⟨sent, writes, messages⟩ := ship_does x (manifestLen s x + k * chunkLen) bs s
    rw [← outs] at sent writes messages
    rw [snapshotChunkShipped_ships snap marked waits taken clean bytes]
    generalize chunkSent x k bs s = v at *
    split
    · next all =>
      have others := (allShipped_lset waits).mp all
      obtain ⟨gone, kept, later, logged⟩ := snapShipped_does snap'
      rw [same] at logged
      refine ⟨later.subset sent, kept.trans mem, fun store p here => later.subset (writes store p here), fun ring i lt => ?_,
        fun ⟨j, ne, open_⟩ => absurd (others j ne) open_, fun _ => ⟨gone, logged_since (Nat.le_of_eq (congrArg Log.next log).symm) logged⟩⟩
      obtain ⟨seq, here⟩ := messages ring i lt
      exact ⟨seq, later.subset here⟩
    · next some_ =>
      refine ⟨sent, mem, writes, messages, fun _ => ⟨y, snap', by rw [same]; rfl, ?_⟩, fun others => absurd ((allShipped_lset waits).mpr others) some_⟩
      rw [same]
      show tfind? (tset x.digests k _) k = _
      rw [tfind?_tset, if_pos rfl]
  · obtain ⟨kept, counted⟩ := poisonEvent_snap 0xFFFF w s
    rw [snapshotChunkShipped_poisoned snap marked pending error]
    obtain ⟨gone, logged⟩ := snapshotEnds (kept.trans snap) stDeviceFault
    exact ⟨gone, logged_since counted logged⟩
  · rw [snapshotChunkShipped_refused snap marked waits ring]
    exact snapshotEnds snap stNoRoom

end

/-- Settles O41: requests by what their command names, a command by its failures, a snapshot by its mark and its chunks. -/
theorem drivesAndSnapshotChunks : Obligations.DrivesAndSnapshotChunks :=
  fun _ => ⟨fun _ _ _ _ works => request_row works, fun d works busy => drive_row d works busy,
    fun _ _ snap unmarked runs boundary plan some_ => mark_row snap unmarked runs boundary plan some_,
    fun _ _ snap marked waits => chunk_row snap marked waits⟩

end Sys2Proof.Stored
end

