-- ==== Sys2Proof/Proofs/LastLines.lean ====
section
/-! PROOFS. What the last lines and the towers' ends leave of the governor's state (14 R391, 15 R420 to R422; O54). -/

namespace Sys2Proof.Governing

open Sys2Proof.Machine Sys2Proof.Safety Sys2Proof.Laws Sys2Proof.Endings Sys2Proof.Domains

section
variable {s t u : State}

/-! ### What no last line touches -/

/-- Of the governor, `t` has changed at most the towers' records, the last lines, the trip, the budget word and the count since the last
lowering; a trip stands; and of the supply, the domains, the gating orders and ALERT_N. -/
structure Governs (s t : State) : Prop where
  gov : t.gov = { s.gov with
    towers := t.gov.towers, lastLine := t.gov.lastLine, vrHold := t.gov.vrHold, vrTail := t.gov.vrTail, tripped := t.gov.tripped
    budget := t.gov.budget, sinceLower := t.gov.sinceLower }
  stands : s.gov.tripped = true → t.gov.tripped = true
  power : t.power = { s.power with domains := t.power.domains, gating := t.power.gating, alert := t.power.alert }

theorem Governs.refl (s : State) : Governs s s := ⟨rfl, id, rfl⟩

theorem Governs.trans (h : Governs s t) (k : Governs t u) : Governs s u := by
  refine ⟨?_, k.stands ∘ h.stands, ?_⟩
  · have gov := k.gov
    rw [h.gov] at gov
    exact gov
  · have power := k.power
    rw [h.power] at power
    exact power

theorem Governs.of_same (gov : t.gov = s.gov)
    (power : t.power = { s.power with domains := t.power.domains, gating := t.power.gating, alert := t.power.alert }) : Governs s t :=
  ⟨by rw [gov], fun h => by rw [gov]; exact h, power⟩

/-- A change of the towers' records alone. -/
theorem Governs.of_towers (x : Table TowerGov) (s : State) : Governs s { s with gov := { s.gov with towers := x } } :=
  ⟨rfl, id, rfl⟩

theorem Governs.forEach {α : Type} {l : List α} {f : α → State → State} (step : ∀ a v, Governs v (f a v)) (s : State) :
    Governs s (forEach l f s) :=
  forEach_keeps (P := Governs s) s (fun a _ v h => h.trans (step a v)) (.refl s)

theorem setTower_governs (k : Nat) (f : TowerGov → TowerGov) (s : State) : Governs s (setTower k f s) := .of_towers _ s
theorem setPace_governs (d : Nat) (f : Pace → Pace) (s : State) : Governs s (setPace d f s) := .of_same rfl rfl
theorem raise_governs (code plane die : Nat) (args : List (Nat × Nat)) (s : State) : Governs s (raise code plane die args s) :=
  .of_same rfl rfl

theorem capBump_governs (s : State) : Governs s (capBump s) :=
  .of_same (capBump_gov s) (by rw [capBump_power])

theorem onlyAnswers_governs (h : Towers.OnlyAnswers s t) : Governs s t := by
  rw [h]
  exact .of_same rfl rfl

theorem onlySupplies_governs (h : Towers.OnlySupplies s t) : Governs s t := by
  rw [h]
  exact .of_same rfl rfl

/-! ### A tower that is removed -/

/-- The tower's tasks answered for, and their work lost. -/
def tasksAnswered (k : Nat) (s : State) : State :=
  forEach (coresOfTower k) (fun c s => loseBound c (forEach (tasksOn s c) (stoppedRecord c) s))
    (if (coresOfTower k).any (fun c => (tasksOn s c).any (fun r => dStep r.desc != 0) || stepUses s c) then workLost s else s)

theorem removeTower_eq (k : Nat) (s : State) : removeTower k s = if supplyAt s k == .off then s else logicOff k (tasksAnswered k s) := rfl

/-- `t` is `s` but for tasks' records, rooms and the open step. -/
def OnlyTasks (s t : State) : Prop := t = { s with steps := t.steps, cores := t.cores, mem := t.mem, rooms := t.rooms }

theorem OnlyTasks.trans (h : OnlyTasks s t) (k : OnlyTasks t u) : OnlyTasks s u := by
  unfold OnlyTasks at k
  rw [h] at k
  exact k

theorem OnlyTasks.of_work (h : Towers.OnlyWork s t) : OnlyTasks s t := by
  unfold OnlyTasks
  rw [h]

theorem roomFlipped_only (id a : Nat) (bs : List Byte) (s : State) : OnlyTasks s (flipRoom id false (wr a bs s)) := rfl

theorem stoppedRecord_only (c : Nat) (r : TaskRun) (s : State) : OnlyTasks s (stoppedRecord c r s) := roomFlipped_only _ _ _ s

theorem tasksAnswered_only (k : Nat) (s : State) : OnlyTasks s (tasksAnswered k s) := by
  unfold tasksAnswered
  refine forEach_keeps (P := OnlyTasks s) _ (fun c _ u h => ?_) ?_
  rotate_left
  · split
    · exact .of_work (Towers.workLost_onlyWork s)
    · rfl
  · have records : OnlyTasks u (forEach (tasksOn u c) (stoppedRecord c) u) :=
      forEach_keeps (P := OnlyTasks u) u (fun r _ v h => h.trans (stoppedRecord_only c r v)) rfl
    exact h.trans (records.trans (.of_work (Towers.loseBound_onlyWork c _)))

/-- A tower that is removed is off; of what concerns the governor nothing else changes. -/
theorem removeTower_does (k : Nat) (s : State) : Governs s (removeTower k s) ∧ (removeTower k s).log = s.log ∧
    ∀ d, supplyAt (removeTower k s) d = if d = k then .off else supplyAt s d := by
  rw [removeTower_eq]
  split
  · next off =>
    refine ⟨.refl s, rfl, fun d => ?_⟩
    split
    · next h => rw [h]; exact beq_iff_eq.mp off
    · rfl
  · have tasks := tasksAnswered_only k s
    obtain ⟨only, -, domains⟩ := logicOff_supplies k (tasksAnswered k s)
    refine ⟨.trans (.of_same ?_ ?_) (onlySupplies_governs only), ?_, fun d => ?_⟩
    · rw [tasks]
    · rw [tasks]
    · rw [only, tasks]
    · unfold supplyAt
      rw [domains, tget_tset, tasks]

theorem gateEnded_governs (st k : Nat) (s : State) : Governs s (gateEnded st k s) ∧ (gateEnded st k s).log = s.log ∧
    (gateEnded st k s).power.domains = s.power.domains := by
  have answers : Towers.OnlyAnswers { s with power := { s.power with gating := tdel s.power.gating k } } (gateEnded st k s) :=
    Towers.finishAll_onlyAnswers _ _ rfl _
  rw [answers]
  exact ⟨.of_same rfl rfl, rfl, rfl⟩

/-- A tower has reached the state that was asked for, before the orders that wait are answered. -/
def gateLogged (k on : Nat) (s : State) : State :=
  setTower k (fun g => { g with suspend := 64 }) (raiseMgmt 0x6003 [a2 k, a2 on] { s with power := { s.power with gating := tdel s.power.gating k } })

theorem gateLogged_governs (k on : Nat) (s : State) : Governs s (gateLogged k on s) ∧ Grows 1 s (gateLogged k on s) ∧
    (gateLogged k on s).power.domains = s.power.domains :=
  ⟨⟨rfl, id, rfl⟩, ((Grows.raise ..).since (s := s) rfl).silent (t := raiseMgmt 0x6003 [a2 k, a2 on] _) rfl, rfl⟩

theorem gateReached_governs (k on : Nat) (s : State) : Governs s (gateReached k on s) ∧ Grows 1 s (gateReached k on s) ∧
    (gateReached k on s).power.domains = s.power.domains := by
  obtain ⟨governs, grows, domains⟩ := gateLogged_governs k on s
  have answers : Towers.OnlyAnswers (gateLogged k on s) (gateReached k on s) := Towers.finishAll_onlyAnswers _ _ rfl _
  refine ⟨governs.trans (onlyAnswers_governs answers), grows.silent ?_, Eq.trans ?_ domains⟩
  · rw [answers]
  · rw [answers]

/-- A tower that a last line removes, before its gating order ends. -/
def towerRemoved (k : Nat) (s : State) : State := setTower k (fun g => { g with suspend := 64 }) (removeTower k s)

theorem forcedOff_eq (k : Nat) (s : State) : forcedOff k s = match tfind? (towerRemoved k s).power.gating k with
    | some 1 => gateEnded stWrongState k (towerRemoved k s)
    | some 2 => gateReached k 2 (pondOff k (towerRemoved k s))
    | some on => gateReached k on (towerRemoved k s)
    | none => towerRemoved k s := rfl

/-- A tower that a last line stops: it is off, no other supply comes on, and at most one event tells of it. -/
theorem forcedOff_does (k : Nat) (s : State) : Governs s (forcedOff k s) ∧ Grows 1 s (forcedOff k s) ∧ supplyAt (forcedOff k s) k = .off ∧
    ∀ d, supplyAt s d = .off → supplyAt (forcedOff k s) d = .off := by
  obtain ⟨removed, log, supplies⟩ := removeTower_does k s
  have governs : Governs s (towerRemoved k s) := removed.trans (setTower_governs ..)
  have silent : Grows 0 s (towerRemoved k s) := .of_log log
  have mine : supplyAt (towerRemoved k s) k = .off := (supplies k).trans (if_pos rfl)
  have others (d : Nat) (off : supplyAt s d = .off) : supplyAt (towerRemoved k s) d = .off := by
    refine (supplies d).trans ?_
    split
    · rfl
    · exact off
  rw [forcedOff_eq]
  generalize towerRemoved k s = v at *
  have same {w : State} (domains : w.power.domains = v.power.domains) (d : Nat) (off : supplyAt v d = .off) : supplyAt w d = .off :=
    (Towers.supplyAt_of_domains domains d).trans off
  split
  · obtain ⟨g, l, d⟩ := gateEnded_governs stWrongState k v
    exact ⟨governs.trans g, (silent.silent l).mono (by omega), same d k mine, fun j off => same d j (others j off)⟩
  · obtain ⟨only, -, pond⟩ := pondOff_supplies k v
    obtain ⟨g, l, d⟩ := gateReached_governs k 2 (pondOff k v)
    have off (j : Nat) (h : supplyAt v j = .off) : supplyAt (gateReached k 2 (pondOff k v)) j = .off := by
      rw [Towers.supplyAt_of_domains d, pond]
      split
      · rfl
      · exact h
    exact ⟨(governs.trans (onlySupplies_governs only)).trans g, silent.trans (l.since (by rw [only])) |>.mono (by omega), off k mine,
      fun j h => off j (others j h)⟩
  · next on _ _ _ =>
    obtain ⟨g, l, d⟩ := gateReached_governs k on v
    exact ⟨governs.trans g, (silent.trans l).mono (by omega), same d k mine, fun j off => same d j (others j off)⟩
  · exact ⟨governs, silent.mono (by omega), mine, others⟩

/-- Every tower that a last line stops is off, with at most one event for each. -/
theorem forcedOffs_does (l : List Nat) (s : State) : Governs s (forEach l forcedOff s) ∧ Grows l.length s (forEach l forcedOff s) ∧
    (∀ k ∈ l, supplyAt (forEach l forcedOff s) k = .off) ∧ ∀ d, supplyAt s d = .off → supplyAt (forEach l forcedOff s) d = .off := by
  have grows := Grows.forEach (fun k v => (forcedOff_does k v).2.1) l s
  rw [Nat.mul_one] at grows
  refine ⟨.forEach (fun k v => (forcedOff_does k v).1) s, grows, ?_, fun d off => ?_⟩
  · exact forEach_reaches (P := fun k u => supplyAt u k = .off) (fun k v => (forcedOff_does k v).2.2.1) (fun k j v => (forcedOff_does j v).2.2.2 k) l s
  · exact forEach_keeps (P := fun u => supplyAt u d = .off) s (fun k _ v h => (forcedOff_does k v).2.2.2 d h) off

end

end Sys2Proof.Governing
end

