-- ==== Sys2Proof/Proofs/LastLinePins.lean ====
section
/-! PROOFS. THERM_TRIP_N, VRALERT_N, COOL_FAIL_N, the ramp's end and the way out of forerunner mode (15 R410, R420 to R422, 18 R483; O54). -/

namespace Sys2Proof.Governing

open Sys2Proof.Machine Sys2Proof.Safety Sys2Proof.Laws Sys2Proof.Endings Sys2Proof.Domains

section
variable {s t u : State}

/-! ### PACE_RAMP_END -/

theorem paceRampEnd_row (tower : Fin 8) : Completes (.paceRampEnd tower) s (fun t => t = { s with gov := { s.gov with towers := t.gov.towers } } ∧
    towerGov t tower.val = { towerGov s tower.val with ramping := false } ∧ ∀ k, k ≠ tower.val → towerGov t k = towerGov s k) := by
  refine ⟨_, rfl, rfl, ?_, fun k ne => ?_⟩
  · exact (towerGov_setTower ..).trans (if_pos rfl)
  · exact (towerGov_setTower ..).trans (if_neg ne)

/-! ### THERM_TRIP_N -/

/-- The trip stands, with its event. -/
def tripMarked (layer : Nat) (reading : Int) (s : State) : State :=
  let s := { s with power := { s.power with thermTrip := true }, gov := { s.gov with tripped := true } }
  if keeperAlive s then raiseMgmt 0x6203 [a2 layer, a2 (temp16 reading)] s else s

theorem tripNow_eq (layer : Nat) (reading : Int) (s : State) :
    tripNow layer reading s = if s.gov.tripped then s else forEach (List.range 8) forcedOff (tripMarked layer reading s) := rfl

theorem tripMarked_does (layer : Nat) (reading : Int) (s : State) : (tripMarked layer reading s).gov = { s.gov with tripped := true } ∧
    (tripMarked layer reading s).power = { s.power with thermTrip := true, alert := (tripMarked layer reading s).power.alert } ∧
    (keeperAlive s = true → Towers.LoggedLately 1 0x6203 [a2 layer, a2 (temp16 reading)] s (tripMarked layer reading s)) := by
  unfold tripMarked
  dsimp only
  split
  · exact ⟨rfl, rfl, fun _ => Towers.loggedLately_raise mgmt dieControl (Nat.le_refl _)⟩
  · next dead => exact ⟨rfl, rfl, fun alive => absurd alive dead⟩

theorem tripNow_does (layer : Nat) (reading : Int) (untripped : s.gov.tripped = false) :
    (tripNow layer reading s).gov.tripped = true ∧ (tripNow layer reading s).power.thermTrip = true ∧
    (∀ k, k < 8 → supplyAt (tripNow layer reading s) k = .off) ∧
    (keeperAlive s = true → Logged 0x6203 [a2 layer, a2 (temp16 reading)] s (tripNow layer reading s)) := by
  obtain ⟨gov, power, logged⟩ := tripMarked_does layer reading s
  obtain ⟨governs, grows, off, -⟩ := forcedOffs_does (List.range 8) (tripMarked layer reading s)
  rw [tripNow_eq, if_neg (by simp [untripped])]
  refine ⟨governs.stands (by rw [gov]), by rw [governs.power, power], fun k lt => off k (List.mem_range.mpr lt), fun alive => ?_⟩
  exact (grows.lately (logged alive) (by decide)).logged

theorem thermTrip_row (layer : Fin 56) (reading : Int) :
    (inReg s sdSns = true → isPondLayer layer.val = false → 115 * 64 ≤ reading → s.gov.tripped = false →
      Completes (.thermTrip layer reading) s (fun t => t.gov.tripped = true ∧ t.power.thermTrip = true ∧
        (∀ k, k < 8 → supplyAt t k = .off) ∧
        (keeperAlive s = true → Logged 0x6203 [a2 layer.val, a2 (temp16 reading)] s t))) ∧
    ((isPondLayer layer.val = true ∨ reading < 115 * 64) → Completes (.thermTrip layer reading) s (fun t => t = s)) := by
  refine ⟨fun on logic hot untripped => ?_, fun cool => ⟨_, rfl, ?_⟩⟩
  · have eq : thermTrip layer.val reading s = tripNow layer.val reading s :=
      if_neg (by simp only [on, logic, Bool.not_true, Bool.or_false, Bool.false_or, decide_eq_true_eq]; omega)
    exact ⟨_, congrArg Host.Outcome.next eq, tripNow_does layer.val reading untripped⟩
  · refine if_pos ?_
    simp only [Bool.or_eq_true, decide_eq_true_eq, Bool.not_eq_true']
    rcases cool with pond | low
    · exact .inl (.inr pond)
    · exact .inr low

/-! ### VRALERT_N -/

/-- The points of a tower that runs are 0. -/
def PointsHeld (k : Nat) (s : State) : Prop := towerOn s k = true → ∀ l ∈ logicLayers k, (paceAt s l).point = 0

/-- The hold of one tower. -/
def holdTower (k : Nat) (s : State) : State :=
  let s := when_ (decide (pointOf s k ≠ 0) && towerOn s k) (setTower k (fun g => { g with ramping := true })) s
  let s := if towerOn s k then forEach (logicLayers k) (setPace · (fun p => { p with point := 0 })) s else s
  setTower k (fun g => { g with suspend := 64 }) s

/-- `t` is `s` but for points that have moved to 0. -/
def PointsDropped (s t : State) : Prop := t = { s with pace := t.pace } ∧ ∀ l, paceAt t l = { paceAt s l with point := 0 } ∨ paceAt t l = paceAt s l

theorem dropPoint_dropped (d : Nat) (h : PointsDropped s t) : PointsDropped s (setPace d (fun p => { p with point := 0 }) t) := by
  obtain ⟨frame, points⟩ := h
  refine ⟨by rw [frame]; rfl, fun l => ?_⟩
  rw [paceAt_setPace]
  split
  · next same =>
    subst same
    rcases points l with zero | same
    · exact .inl (by rw [zero])
    · exact .inl (by rw [same])
  · exact points l

theorem dropPoints_does (ls : List Nat) (s : State) : PointsDropped s (forEach ls (setPace · (fun p => { p with point := 0 })) s) ∧
    ∀ l ∈ ls, (paceAt (forEach ls (setPace · (fun p => { p with point := 0 })) s) l).point = 0 := by
  refine ⟨forEach_keeps (P := PointsDropped s) s (fun d _ _ h => dropPoint_dropped d h) ⟨rfl, fun _ => .inr rfl⟩,
    forEach_reaches (P := fun l u => (paceAt u l).point = 0) (fun l u => ?_) (fun l d u h => ?_) ls s⟩
  · rw [paceAt_setPace, if_pos rfl]
  · rw [paceAt_setPace]
    split
    · rfl
    · exact h

/-- Holding a tower moves points to 0, and touches nothing else but its record. -/
theorem holdTower_does (k : Nat) (s : State) : holdTower k s = { s with pace := (holdTower k s).pace, gov := { s.gov with towers := (holdTower k s).gov.towers } } ∧
    PointsHeld k (holdTower k s) ∧ ∀ l, paceAt (holdTower k s) l = { paceAt s l with point := 0 } ∨ paceAt (holdTower k s) l = paceAt s l := by
  have ramps : ∃ x, when_ (decide (pointOf s k ≠ 0) && towerOn s k) (setTower k (fun g => { g with ramping := true })) s =
      { s with gov := { s.gov with towers := x } } := by
    unfold when_
    split
    · exact ⟨_, rfl⟩
    · exact ⟨s.gov.towers, rfl⟩
  obtain ⟨x, eq⟩ := ramps
  unfold holdTower
  rw [eq]
  dsimp only
  rw [show towerOn { s with gov := { s.gov with towers := x } } k = towerOn s k from rfl]
  split
  · obtain ⟨⟨frame, points⟩, zero⟩ := dropPoints_does (logicLayers k) { s with gov := { s.gov with towers := x } }
    generalize forEach (logicLayers k) (setPace · (fun p => { p with point := 0 })) { s with gov := { s.gov with towers := x } } = v at *
    exact ⟨by rw [frame]; rfl, fun _ => zero, points⟩
  · next off => exact ⟨rfl, fun on => absurd on off, fun _ => .inr rfl⟩

/-- Points say nothing of whether Keeper runs. -/
theorem holdTower_keeperAlive (k : Nat) (s : State) : keeperAlive (holdTower k s) = keeperAlive s := by
  obtain ⟨frame, -, points⟩ := holdTower_does k s
  have pacer : pacerRuns (holdTower k s) 63 = pacerRuns s 63 := by
    unfold pacerRuns
    rcases points 63 with zero | same
    · rw [zero]
    · rw [same]
  unfold keeperAlive domainRuns
  rw [pacer]
  unfold eventsStalled
  rw [frame]

theorem holdPoints_eq (s : State) : holdPoints s =
    { forEach (List.range 8) holdTower s with
      gov := { (forEach (List.range 8) holdTower s).gov with budget := putFld (forEach (List.range 8) holdTower s).gov.budget 33 3 0 } } := by
  unfold holdPoints holdTower
  dsimp only

/-- Every tower that runs is held at point 0, and MAX_CLASS reads 0. -/
theorem holdPoints_does (s : State) :
    holdPoints s = { s with pace := (holdPoints s).pace, gov := { s.gov with towers := (holdPoints s).gov.towers, budget := (holdPoints s).gov.budget } } ∧
    keeperAlive (holdPoints s) = keeperAlive s ∧ fld (holdPoints s).gov.budget 33 3 = 0 ∧ ∀ k, k < 8 → PointsHeld k (holdPoints s) := by
  have frame : forEach (List.range 8) holdTower s = { s with
      pace := (forEach (List.range 8) holdTower s).pace, gov := { s.gov with towers := (forEach (List.range 8) holdTower s).gov.towers } } :=
    forEach_keeps (P := fun u => u = { s with pace := u.pace, gov := { s.gov with towers := u.gov.towers } }) s
      (fun k _ v h => by rw [(holdTower_does k v).1, h]) rfl
  have held := forEach_reaches (P := PointsHeld) (fun k v => (holdTower_does k v).2.1) (fun k j v h => ?_) (List.range 8) s
  · have runs : keeperAlive (forEach (List.range 8) holdTower s) = keeperAlive s :=
      forEach_same (g := keeperAlive) s (fun k _ v => holdTower_keeperAlive k v)
    rw [holdPoints_eq]
    generalize forEach (List.range 8) holdTower s = v at *
    refine ⟨by rw [frame], runs, (Experts.fld_putFld_same (by decide)).trans (by decide), fun k lt => held k (List.mem_range.mpr lt)⟩
  · obtain ⟨same, -, points⟩ := holdTower_does j v
    intro on l mem
    rcases points l with zero | same'
    · rw [zero]
    · rw [same']
      refine h ?_ l mem
      rw [same] at on
      exact on

theorem vrAct_eq (s : State) : vrAct s = if keeperAlive (holdPoints { s with gov := { s.gov with vrHold := true, vrTail := 0 } })
    then raiseMgmt 0x6401 [] (holdPoints { s with gov := { s.gov with vrHold := true, vrTail := 0 } })
    else holdPoints { s with gov := { s.gov with vrHold := true, vrTail := 0 } } := rfl

theorem vrAct_does (s : State) : (vrAct s).power = { s.power with alert := (vrAct s).power.alert } ∧ (vrAct s).gov.vrHold = true ∧
    fld (vrAct s).gov.budget 33 3 = 0 ∧ (∀ k, k < 8 → PointsHeld k (vrAct s)) ∧
    (keeperAlive s = true → Logged 0x6401 [] s (vrAct s)) := by
  obtain ⟨frame, runs, budget, held⟩ := holdPoints_does { s with gov := { s.gov with vrHold := true, vrTail := 0 } }
  rw [vrAct_eq]
  generalize holdPoints { s with gov := { s.gov with vrHold := true, vrTail := 0 } } = v at *
  have power : v.power = s.power := by rw [frame]
  have hold : v.gov.vrHold = true := by rw [frame]
  split
  · exact ⟨by rw [← power]; rfl, hold, budget, held, fun _ => logged_since (Nat.le_of_eq (by rw [frame])) (raise_logged ..)⟩
  · next dead => exact ⟨by rw [power], hold, budget, held, fun alive => absurd (runs.trans alive) dead⟩

theorem vralert_row (clear : s.power.vralert = false) (on : inReg s sdSns = true) :
    (vrHonoured s = true → Completes .vralertNAssert s (fun t => t.power.vralert = true ∧ t.gov.vrHold = true ∧
      fld t.gov.budget 33 3 = 0 ∧ (∀ k, k < 8 → towerOn s k = true → ∀ l ∈ logicLayers k, (paceAt t l).point = 0) ∧
      (keeperAlive s = true → Logged 0x6401 [] s t))) ∧
    (vrHonoured s = false → keeperAlive s = true → Completes .vralertNAssert s
      (OnlyEvent 0x6405 mgmt dieControl [a2 0] { s with power := { s.power with vralert := true } })) := by
  have start : vralertNAssert s = if vrHonoured s then vrAct { s with power := { s.power with vralert := true } }
      else if keeperAlive s then raiseMgmt 0x6405 [a2 0] { s with power := { s.power with vralert := true } }
      else { s with power := { s.power with vralert := true } } :=
    (if_neg (by simp [clear])).trans (if_neg (by simp [show inReg { s with power := { s.power with vralert := true } } sdSns = true from on]))
  refine ⟨fun honoured => ?_, fun other alive => ?_⟩
  · have eq := start.trans (if_pos honoured)
    obtain ⟨power, hold, budget, held, logged⟩ := vrAct_does { s with power := { s.power with vralert := true } }
    refine ⟨_, congrArg Host.Outcome.next eq, by rw [power], hold, budget, fun k lt on' => held k lt ?_, logged⟩
    unfold towerOn inReg
    rw [power]
    exact on'
  · exact ⟨_, congrArg Host.Outcome.next (start.trans ((if_neg (by simp [other])).trans (if_pos alive))), raise_onlyEvent ..⟩

theorem vralertRelease_row (s : State) : Completes .vralertNRelease s (fun t => t.power.vralert = false ∧
    (s.gov.vrHold = true → t.gov.vrHold = false ∧ t.gov.vrTail = 1024) ∧ (s.gov.vrHold = false → t.gov = s.gov)) := by
  refine ⟨_, rfl, ?_⟩
  unfold vralertNRelease
  dsimp only
  split
  · next held => exact ⟨rfl, fun _ => ⟨rfl, rfl⟩, fun free => absurd (held.symm.trans free) (by decide)⟩
  · next free => exact ⟨rfl, fun held => absurd held free, fun _ => rfl⟩

/-! ### COOL_FAIL_N -/

/-- A tower that COOL_FAIL_N stops. -/
def coolTower (k : Nat) (s : State) : State := setTower k (fun g => { g with stoppedCool := true }) (forcedOff k s)

def coolLogged (s : State) : State := if keeperAlive s then raiseMgmt 0x6403 [] s else s

theorem coolAct_eq (s : State) :
    coolAct s = forEach ((List.range 8).filter (fun t => supplyAt (coolLogged s) t != .off)) coolTower (coolLogged s) := rfl

theorem coolTower_does (k : Nat) (s : State) : Governs s (coolTower k s) ∧ Grows 1 s (coolTower k s) ∧ supplyAt (coolTower k s) k = .off ∧
    ∀ d, supplyAt s d = .off → supplyAt (coolTower k s) d = .off := by
  obtain ⟨governs, grows, off, others⟩ := forcedOff_does k s
  exact ⟨governs.trans (setTower_governs ..), grows.silent rfl, off, others⟩

theorem coolLogged_governs (s : State) : Governs s (coolLogged s) := by
  unfold coolLogged
  split
  · exact raise_governs ..
  · exact .refl s

theorem coolAct_governs (s : State) : Governs s (coolAct s) := by
  rw [coolAct_eq]
  exact (coolLogged_governs s).trans (.forEach (fun k v => (coolTower_does k v).1) _)

theorem coolAct_does (s : State) : (∀ k, k < 8 → supplyAt (coolAct s) k = .off) ∧ (keeperAlive s = true → Logged 0x6403 [] s (coolAct s)) := by
  refine ⟨fun k lt => ?_, fun alive => ?_⟩
  · rw [coolAct_eq]
    by_cases off : supplyAt (coolLogged s) k = .off
    · exact forEach_keeps (P := fun u => supplyAt u k = .off) _ (fun j _ v h => (coolTower_does j v).2.2.2 k h) off
    · exact forEach_reaches (P := fun k u => supplyAt u k = .off) (fun k v => (coolTower_does k v).2.2.1)
        (fun k j v => (coolTower_does j v).2.2.2 k) _ _ k (List.mem_filter.mpr ⟨List.mem_range.mpr lt, by simpa using off⟩)
  · have grows := Grows.forEach (fun k v => (coolTower_does k v).2.1) ((List.range 8).filter (fun t => supplyAt (coolLogged s) t != .off)) (coolLogged s)
    have few : ((List.range 8).filter (fun t => supplyAt (coolLogged s) t != .off)).length ≤ 8 := List.length_filter_le _ _
    have first : Towers.LoggedLately 1 0x6403 [] s (coolLogged s) := by
      unfold coolLogged
      rw [if_pos alive]
      exact Towers.loggedLately_raise mgmt dieControl (Nat.le_refl _)
    rw [coolAct_eq]
    exact ((grows.mono (by omega : _ ≤ 8)).lately first (by decide)).logged

theorem coolFail_row (clear : s.power.coolFail = false) (on : inReg s sdSns = true) :
    (coolHonoured s = true → Completes .coolFailNAssert s (fun t => t.power.coolFail = true ∧
      (∀ k, k < 8 → supplyAt t k = .off) ∧ (keeperAlive s = true → Logged 0x6403 [] s t))) ∧
    (coolHonoured s = false → keeperAlive s = true → Completes .coolFailNAssert s
      (OnlyEvent 0x6405 mgmt dieControl [a2 1] { s with power := { s.power with coolFail := true } })) := by
  have start : coolFailNAssert s = if coolHonoured s then coolAct { s with power := { s.power with coolFail := true } }
      else if keeperAlive s then raiseMgmt 0x6405 [a2 1] { s with power := { s.power with coolFail := true } }
      else { s with power := { s.power with coolFail := true } } :=
    (if_neg (by simp [clear])).trans (if_neg (by simp [show inReg { s with power := { s.power with coolFail := true } } sdSns = true from on]))
  refine ⟨fun honoured => ?_, fun other alive => ?_⟩
  · exact ⟨_, congrArg Host.Outcome.next (start.trans (if_pos honoured)), by rw [(coolAct_governs _).power],
      coolAct_does { s with power := { s.power with coolFail := true } }⟩
  · exact ⟨_, congrArg Host.Outcome.next (start.trans ((if_neg (by simp [other])).trans (if_pos alive))), raise_onlyEvent ..⟩

theorem logicOn_log (k : Nat) (s : State) : (logicOn k s).log = s.log := by
  have entered : (enterForerunner k s).log = s.log := by
    unfold enterForerunner
    split
    · exact capBump_log _
    · rfl
  unfold logicOn
  split
  · unfold switchOn
    split
    · exact entered
    · exact entered
  · rfl

theorem startTowerTests_log (s : State) : (startTowerTests s).log = s.log := by
  unfold startTowerTests
  split
  · exact forEach_same (g := fun u => u.log) s (fun k _ v => logicOn_log k v)
  · rfl

theorem logicOn_power (k : Nat) (s : State) : (logicOn k s).power = { s.power with domains := (logicOn k s).power.domains } := by
  unfold logicOn
  split
  · unfold switchOn
    split
    · unfold setSupply
      dsimp only
      rw [enterForerunner_power]
    · rw [enterForerunner_power]
  · rfl

theorem startTowerTests_power (s : State) : (startTowerTests s).power = { s.power with domains := (startTowerTests s).power.domains } := by
  unfold startTowerTests
  split
  · exact forEach_keeps (P := fun u => u.power = { s.power with domains := u.power.domains }) s (fun k _ v h => by rw [logicOn_power, h]) rfl
  · rfl

/-- COOL_FAIL_N released, with its event. -/
def coolReleased (s : State) : State :=
  let s := { s with power := { s.power with coolFail := false } }
  if coolHonoured s && keeperAlive s then raiseMgmt 0x6404 [] s else s

theorem coolRelease_row (held : s.power.coolFail = true) : Completes .coolFailNRelease s (fun t => t.power.coolFail = false ∧
    (s.power.phase ≠ .training → ∀ k, k < 8 → supplyAt t k = supplyAt s k) ∧
    (coolHonoured s = true → keeperAlive s = true → Logged 0x6404 [] s t)) := by
  refine ⟨_, rfl, ?_⟩
  have eq : coolFailNRelease s = startTowerTests (coolReleased s) := if_neg (by simp [held])
  have released : (coolReleased s).power = { s.power with coolFail := false, alert := (coolReleased s).power.alert } := by
    unfold coolReleased
    dsimp only
    split <;> rfl
  rw [eq]
  refine ⟨by rw [startTowerTests_power, released], fun idle k lt => ?_, fun honoured alive => logged_of_log (startTowerTests_log _) ?_⟩
  · have same : startTowerTests (coolReleased s) = coolReleased s := by
      have phase : (coolReleased s).power.phase = s.power.phase := by rw [released]
      unfold startTowerTests
      exact if_neg (by simp [phase, idle])
    rw [same]
    exact Towers.supplyAt_of_domains (by rw [released]) k
  · have both : (coolHonoured { s with power := { s.power with coolFail := false } } &&
        keeperAlive { s with power := { s.power with coolFail := false } }) = true :=
      Bool.and_eq_true_iff.mpr ⟨honoured, alive⟩
    unfold coolReleased
    dsimp only
    rw [if_pos both]
    exact logged_since (Nat.le_refl _) (raise_logged ..)

/-! ### The way out of forerunner mode -/

/-- The tower is no forerunner any more. -/
def forerunnerLeft (k : Nat) (s : State) : State :=
  capBump { s with cap := { s.cap with frTowers := s.cap.frTowers &&& ~~~BitVec.ofNat 4 (2 ^ k), leaving := s.cap.leaving &&& ~~~BitVec.ofNat 4 (2 ^ k) } }

/-- The tower off, with its ponds +0. -/
def forerunnerOff (k : Nat) (s : State) : State := pondLost k (if supplyAt s k == .off then s else towerLogicOff k s)

theorem forerunnerExitDone_eq {k : Nat} (leaves : s.cap.leaving.getLsbD k = true) : forerunnerExitDone k s =
    if (forerunnerLeft k (forerunnerOff k s)).cap.leaving == 0
    then finish (fun p => p.wait == Wait.close) { st := stDone } (forerunnerLeft k (forerunnerOff k s)) else forerunnerLeft k (forerunnerOff k s) :=
  if_neg (by simp [leaves])

theorem forerunnerOff_does (k : Nat) (s : State) : supplyAt (forerunnerOff k s) k = .off ∧ PondZero k (forerunnerOff k s) ∧
    (forerunnerOff k s).cap = s.cap ∧ (forerunnerOff k s).porter = s.porter := by
  unfold forerunnerOff
  refine ⟨?_, pondLost_zero k _, ?_⟩
  · show supplyAt (if supplyAt s k == .off then s else towerLogicOff k s) k = .off
    split
    · next off => exact beq_iff_eq.mp off
    · rw [(towerLogicOff_supplies k s).2.2, if_pos rfl]
  · show (if supplyAt s k == .off then s else towerLogicOff k s).cap = s.cap ∧ (if supplyAt s k == .off then s else towerLogicOff k s).porter = s.porter
    split
    · exact ⟨rfl, rfl⟩
    · rw [(towerLogicOff_supplies k s).1]
      exact ⟨rfl, rfl⟩

theorem getLsbD_cleared (x : BitVec 4) {k : Nat} (lt : k < 4) : (x &&& ~~~BitVec.ofNat 4 (2 ^ k)).getLsbD k = false := by
  rw [BitVec.getLsbD_and, BitVec.getLsbD_not, BitVec.getLsbD_ofNat, Nat.testBit_two_pow_self]
  simp [lt]

theorem capBump_towers (s : State) : (capBump s).cap.frTowers = s.cap.frTowers ∧ (capBump s).cap.leaving = s.cap.leaving := by
  unfold capBump
  split <;> exact ⟨rfl, rfl⟩

theorem exit_row (tower : Fin 8) (leaves : s.cap.leaving.getLsbD tower.val = true) : Completes (.forerunnerExitDone tower) s (fun t =>
    t.cap.frTowers.getLsbD tower.val = false ∧ t.cap.leaving.getLsbD tower.val = false ∧ supplyAt t tower.val = .off ∧
    (∀ a, regionOf a = .pond → sliceOf a / 48 = tower.val → cellsGet t.mem.cells a = 0) ∧
    (t.cap.leaving = 0 → ∀ q, s.porter.outstanding = [q] → q.wait = .close → t.porter.outstanding = [])) := by
  have lt : tower.val < 4 := by
    by_contra ge
    rw [BitVec.getLsbD_of_ge _ _ (by omega)] at leaves
    exact absurd leaves (by decide)
  obtain ⟨off, zero, -, porter⟩ := forerunnerOff_does tower.val s
  obtain ⟨towers, leaving⟩ := capBump_towers { forerunnerOff tower.val s with cap := { (forerunnerOff tower.val s).cap with
    frTowers := (forerunnerOff tower.val s).cap.frTowers &&& ~~~BitVec.ofNat 4 (2 ^ tower.val)
    leaving := (forerunnerOff tower.val s).cap.leaving &&& ~~~BitVec.ofNat 4 (2 ^ tower.val) } }
  have none_ : (forerunnerLeft tower.val (forerunnerOff tower.val s)).cap.frTowers.getLsbD tower.val = false :=
    (congrArg (fun x => BitVec.getLsbD x tower.val) towers).trans (getLsbD_cleared _ lt)
  have left : (forerunnerLeft tower.val (forerunnerOff tower.val s)).cap.leaving.getLsbD tower.val = false :=
    (congrArg (fun x => BitVec.getLsbD x tower.val) leaving).trans (getLsbD_cleared _ lt)
  have supply : supplyAt (forerunnerLeft tower.val (forerunnerOff tower.val s)) tower.val = .off :=
    (Towers.supplyAt_of_domains (congrArg Power.domains (capBump_power _)) _).trans off
  have cells : (forerunnerLeft tower.val (forerunnerOff tower.val s)).mem = (forerunnerOff tower.val s).mem := capBump_mem _
  have waits : (forerunnerLeft tower.val (forerunnerOff tower.val s)).porter = s.porter := (capBump_porter _).trans porter
  refine ⟨_, congrArg Host.Outcome.next (forerunnerExitDone_eq leaves), ?_⟩
  generalize forerunnerLeft tower.val (forerunnerOff tower.val s) = v at *
  have ponds := zero.of_mem cells
  split
  · have answers := Towers.finish_onlyAnswers (fun p => p.wait == Wait.close) (r := { st := stDone }) rfl v
    refine ⟨by rw [answers]; exact none_, by rw [answers]; exact left, by rw [answers]; exact supply, fun a pond here => ?_,
      fun _ q only waits' => Lodged.finish_empties rfl (q := q) (by rw [waits]; exact only) (by simp [waits'])⟩
    rw [answers]
    exact ponds a pond here
  · next more => exact ⟨none_, left, supply, ponds, fun gone => absurd (beq_iff_eq.mpr gone) more⟩

end

end Sys2Proof.Governing
end

