-- ==== Sys2Proof/Proofs/MarginPeriods.lean ====
section
/-! PROOFS. A margin measurement of one logic layer (15 R424, R425; O54). -/

namespace Sys2Proof.Governing

open Sys2Proof.Machine Sys2Proof.Safety Sys2Proof.Laws Sys2Proof.Endings

section
variable {s t u : State} {l : Nat}

/-! ### What a measurement changes -/

/-- `t` is `s` after steps of a measurement of layer `l` that have decided its margin: margins and targets stand, and what waits for the
boundary waits on. -/
structure MarginStands (s t : State) : Prop where
  margins : t.gov.margins = s.gov.margins
  targets : t.gov.targets = s.gov.targets
  waits : ∀ a ∈ s.steps.actions, a ∈ t.steps.actions

theorem MarginStands.trans (h : MarginStands s t) (k : MarginStands t u) : MarginStands s u :=
  ⟨k.margins.trans h.margins, k.targets.trans h.targets, fun a mem => k.waits a (h.waits a mem)⟩

/-- The points beyond the allowance are out. -/
def closed (l : Nat) (ns : List Nat) (s : State) : State :=
  setGov (fun g => { g with outs := tset g.outs l (tget s.gov.outs l [] ++ (pointsOut ns).filter (fun p => !(tget s.gov.outs l []).contains p)) }) s

theorem bumped_gov (code : Nat) (args : List (Nat × Nat)) (s : State) : (raiseMgmt code args (capBump s)).gov = s.gov := capBump_gov s
theorem bumped_steps (code : Nat) (args : List (Nat × Nat)) (s : State) : (raiseMgmt code args (capBump s)).steps = s.steps := capBump_steps s

theorem pointsClosed_does (l : Nat) (ns : List Nat) (s : State) :
    (pointsClosed l ns s).gov = (closed l ns s).gov ∧ (pointsClosed l ns s).steps = s.steps := by
  unfold pointsClosed
  dsimp only
  split
  · exact ⟨rfl, rfl⟩
  · exact ⟨bumped_gov _ _ (closed l ns s), bumped_steps _ _ (closed l ns s)⟩

theorem pointsClosed_stands (l : Nat) (ns : List Nat) (s : State) : MarginStands s (pointsClosed l ns s) := by
  obtain ⟨gov, steps⟩ := pointsClosed_does l ns s
  exact ⟨by rw [gov]; rfl, by rw [gov]; rfl, fun a mem => by rw [steps]; exact mem⟩

/-- Every point beyond the allowance is out. -/
theorem pointsClosed_outs (l : Nat) (ns : List Nat) (s : State) : ∀ p ∈ pointsOut ns, p ∈ tget (pointsClosed l ns s).gov.outs l [] := by
  intro p mem
  rw [(pointsClosed_does l ns s).1]
  show p ∈ tget (tset s.gov.outs l _) l []
  rw [tget_tset, if_pos rfl, List.mem_append, List.mem_filter]
  by_cases old : p ∈ tget s.gov.outs l []
  · exact .inl old
  · exact .inr ⟨mem, by simpa using old⟩

/-- One point comes back, now or at the boundary. -/
theorem pointOpened_does (l p : Nat) (s : State) : MarginStands s (atBoundaryOr (.pointBack l p) (pointBack l p) s) ∧
    ∀ q, q ≠ p → q ∈ tget s.gov.outs l [] → q ∈ tget (atBoundaryOr (.pointBack l p) (pointBack l p) s).gov.outs l [] := by
  unfold atBoundaryOr
  split
  · exact ⟨⟨rfl, rfl, fun a mem => List.mem_append_left _ mem⟩, fun _ _ mem => mem⟩
  · have gov : (pointBack l p s).gov = { s.gov with outs := tset s.gov.outs l ((tget s.gov.outs l []).filter (· != p)) } := bumped_gov _ _ _
    have steps : (pointBack l p s).steps = s.steps := bumped_steps _ _ _
    refine ⟨⟨by rw [gov], by rw [gov], fun a mem => by rw [steps]; exact mem⟩, fun q ne mem => ?_⟩
    rw [gov]
    show q ∈ tget (tset s.gov.outs l _) l []
    rw [tget_tset, if_pos rfl, List.mem_filter]
    exact ⟨mem, by simpa using ne⟩

theorem pointsOpened_does (l : Nat) (ps : List Nat) (s : State) : MarginStands s (pointsOpened l ps s) ∧
    ∀ q, q ∉ ps → q ∈ tget s.gov.outs l [] → q ∈ tget (pointsOpened l ps s).gov.outs l [] := by
  refine ⟨forEach_keeps (P := MarginStands s) s (fun p _ v h => h.trans (pointOpened_does l p v).1) ⟨rfl, rfl, fun _ mem => mem⟩, fun q away mem => ?_⟩
  exact forEach_keeps (P := fun u => q ∈ tget u.gov.outs l []) s
    (fun p listed v h => (pointOpened_does l p v).2 q (fun same => away (same ▸ listed)) h) mem

/-! ### The margin itself -/

/-- A margin above the present one is approached from the next sample on. -/
theorem marginMoved_rises {m : Nat} (more : tget s.gov.margins l 0 < m) :
    (marginMoved l m s).gov = { s.gov with targets := tset s.gov.targets l m } ∧ Towers.LoggedLately 1 0x6302 [a2 l, a2 m] s (marginMoved l m s) := by
  unfold marginMoved
  rw [if_pos more]
  exact ⟨rfl, Towers.loggedLately_raise mgmt dieControl (Nat.le_refl _)⟩

/-- A margin below the present one is taken at once where no step is open. -/
theorem marginMoved_falls {m : Nat} (less : m < tget s.gov.margins l 0) (free : stepOpen s = false) :
    (marginMoved l m s).gov.margins = tset s.gov.margins l m ∧ Towers.LoggedLately 1 0x6303 [a2 l, a2 m] s (marginMoved l m s) := by
  have now : marginMoved l m s = lowerMargin l m (setGov (fun g => { g with targets := tset g.targets l (tget s.gov.margins l 0) }) s) := by
    unfold marginMoved atBoundaryOr
    rw [if_neg (by omega), if_pos less]
    exact if_neg (by simp [show stepOpen (setGov _ s) = false from free])
  rw [now]
  exact ⟨rfl, Towers.loggedLately_raise mgmt dieControl (Nat.le_refl _)⟩

/-- With a step open it waits for the boundary. -/
theorem marginMoved_waits {m : Nat} (less : m < tget s.gov.margins l 0) (open_ : stepOpen s = true) :
    (marginMoved l m s).gov.margins = s.gov.margins ∧ Boundary.marginLower l m ∈ (marginMoved l m s).steps.actions := by
  unfold marginMoved atBoundaryOr
  rw [if_neg (by omega), if_pos less, if_pos (show stepOpen (setGov _ s) = true from open_)]
  exact ⟨rfl, List.mem_append_right _ List.mem_cons_self⟩

theorem marginMoved_others (l m : Nat) (s : State) {k : Nat} (ne : k ≠ l) : tget (marginMoved l m s).gov.margins k 0 = tget s.gov.margins k 0 := by
  unfold marginMoved atBoundaryOr
  split
  · rfl
  · split
    · split
      · rfl
      · show tget (tset s.gov.margins l m) k 0 = _
        rw [tget_tset, if_neg ne]
    · rfl

/-! ### A measurement of one layer -/

/-- After the margin has moved: the margin stands, at most 17 events follow, and the points beyond the allowance are out. -/
theorem applyMargin_does (ns : List Nat) (few : (tget s.gov.outs l []).length ≤ 16) :
    MarginStands (marginMoved l (newMargin ns) (dropMarginActions l s)) (applyMargin l ns s) ∧
    Grows 17 (marginMoved l (newMargin ns) (dropMarginActions l s)) (applyMargin l ns s) ∧
    ∀ p ∈ pointsOut ns, p ∈ tget (applyMargin l ns s).gov.outs l [] := by
  have short : (pointsBack l s ns).length ≤ 16 := Nat.le_trans (List.length_filter_le _ _) few
  rw [applyMargin_eq]
  generalize marginMoved l (newMargin ns) (dropMarginActions l s) = v
  obtain ⟨stands, keeps⟩ := pointsOpened_does l (pointsBack l s ns) (pointsClosed l ns v)
  refine ⟨(pointsClosed_stands l ns v).trans stands, ((pointsClosed_grows l ns v).trans (pointsOpened_grows l _ _)).mono (by omega), fun p mem => ?_⟩
  refine keeps p (fun back => ?_) (pointsClosed_outs l ns v p mem)
  have := (List.mem_filter.mp back).2
  simp [mem] at this

/-- The layers that a measurement of layer `l` alone measures. -/
theorem measured_single (lt : l < 24) {ns : List Nat} (some_ : ns ≠ []) (on : towerOn s (l / 3) = true) :
    ((List.replicate l [] ++ [ns]).take 24).zipIdx.filter (fun x => !x.1.isEmpty && towerOn s (x.2 / 3)) = [(ns, l)] := by
  have none_ : (List.replicate l ([] : List Nat)).zipIdx.filter (fun x => !x.1.isEmpty && towerOn s (x.2 / 3)) = [] := by
    rw [List.filter_eq_nil_iff]
    rintro ⟨x, i⟩ mem
    obtain rfl : x = [] := List.eq_of_mem_replicate (List.fst_mem_of_mem_zipIdx mem)
    simp
  rw [List.take_of_length_le (by simp; omega), List.zipIdx_append, List.filter_append, none_]
  simp [some_, on]

/-- The requests that end with a measurement of a tower. -/
def requestsEnded (l : Nat) (s : State) : State :=
  { s with tests := { s.tests with reqs := s.tests.reqs.filter (fun r => !(r.kind == 4 && [l / 3].any (fun k => k == r.target))) } }

theorem marginPeriod_eq (alive : keeperAlive s = true) (lt : l < 24) {ns : List Nat} (some_ : ns ≠ []) (on : towerOn s (l / 3) = true) :
    marginMeasurementPeriod (List.replicate l [] ++ [ns]) s = requestsEnded l (applyMargin l ns s) := by
  unfold marginMeasurementPeriod
  rw [if_neg (by simp [alive]), measured_single lt some_ on]
  rfl

theorem margin_row (alive : keeperAlive s = true) {ns : List Nat} (lt : l < 24) (some_ : ns ≠ []) (on : towerOn s (l / 3) = true)
    (few : (tget s.gov.outs l []).length ≤ 16) : Completes (.marginMeasurementPeriod (List.replicate l [] ++ [ns])) s (fun t =>
      (tget s.gov.margins l 0 < newMargin ns → tget t.gov.targets l 0 = newMargin ns ∧ tget t.gov.margins l 0 = tget s.gov.margins l 0 ∧
        Logged 0x6302 [a2 l, a2 (newMargin ns)] s t) ∧
      (newMargin ns < tget s.gov.margins l 0 → stepOpen s = false → tget t.gov.margins l 0 = newMargin ns ∧
        Logged 0x6303 [a2 l, a2 (newMargin ns)] s t) ∧
      (newMargin ns < tget s.gov.margins l 0 → stepOpen s = true → tget t.gov.margins l 0 = tget s.gov.margins l 0 ∧
        Boundary.marginLower l (newMargin ns) ∈ t.steps.actions) ∧
      (∀ p ∈ pointsOut ns, p ∈ tget t.gov.outs l []) ∧
      (∀ q ∈ t.tests.reqs, ¬ (q.kind = 4 ∧ q.target = l / 3)) ∧
      ∀ k, k ≠ l → tget t.gov.margins k 0 = tget s.gov.margins k 0) := by
  obtain ⟨stands, grows, out⟩ := applyMargin_does ns few
  refine ⟨_, congrArg Host.Outcome.next (marginPeriod_eq alive lt some_ on), fun more => ?_, fun less free => ?_, fun less open_ => ?_, out,
    fun q mem => ?_, fun k ne => ?_⟩
  · obtain ⟨gov, logged⟩ := marginMoved_rises (s := dropMarginActions l s) more
    refine ⟨?_, ?_, ((grows.lately logged (by decide)).logged)⟩
    · show tget (applyMargin l ns s).gov.targets l 0 = _
      rw [stands.targets, gov]
      exact (tget_tset ..).trans (if_pos rfl)
    · show tget (applyMargin l ns s).gov.margins l 0 = _
      rw [stands.margins, gov]
      rfl
  · obtain ⟨margins, logged⟩ := marginMoved_falls (s := dropMarginActions l s) less free
    refine ⟨?_, ((grows.lately logged (by decide)).logged)⟩
    show tget (applyMargin l ns s).gov.margins l 0 = _
    rw [stands.margins, margins]
    exact (tget_tset ..).trans (if_pos rfl)
  · obtain ⟨margins, waits⟩ := marginMoved_waits (s := dropMarginActions l s) less open_
    refine ⟨?_, stands.waits _ waits⟩
    show tget (applyMargin l ns s).gov.margins l 0 = _
    rw [stands.margins, margins]
    rfl
  · have kept := (List.mem_filter.mp mem).2
    rintro ⟨kind, target⟩
    simp [kind, target] at kept
  · show tget (applyMargin l ns s).gov.margins k 0 = _
    rw [stands.margins]
    exact marginMoved_others l _ _ ne

end

end Sys2Proof.Governing
end

