-- ==== Sys2Proof/Proofs/SampleParts.lean ====
section
/-! PROOFS. The parts of a governor sample, and what each leaves alone (15 R401 to R422; O54). -/

namespace Sys2Proof.Governing

open Sys2Proof.Machine Sys2Proof.Safety Sys2Proof.Laws Sys2Proof.Endings

section
variable {s t u : State}

/-! ### Counters, last lines and the tail of the hold -/

/-- A change of the governor alone that is inside what `Governs` allows. -/
theorem setGov_governs {f : Governor → Governor} (gov : f s.gov = { s.gov with
      towers := (f s.gov).towers, lastLine := (f s.gov).lastLine, vrHold := (f s.gov).vrHold, vrTail := (f s.gov).vrTail
      tripped := (f s.gov).tripped, budget := (f s.gov).budget, sinceLower := (f s.gov).sinceLower })
    (stands : s.gov.tripped = true → (f s.gov).tripped = true) : Governs s (setGov f s) :=
  ⟨gov, stands, rfl⟩

/-- The counters of a sample but for those of the towers. -/
def counted (s : State) : State :=
  setGov (fun g => { g with
    sample := g.sample + 1, sinceLower := g.sinceLower.map (fun n => min 65536 (n + 1))
    sinceExcess := g.sinceExcess.map (fun n => min 65536 (n + 1)), sinceFull := g.sinceFull.map (fun n => min 65536 (n + 1)) }) s

theorem countPart_governs (s : State) : Governs (counted s) (countPart s) :=
  .forEach (f := fun t s => setTower t _ s) (fun k v => setTower_governs k _ v) (counted s)

theorem vrAct_governs (s : State) : Governs s (vrAct s) := by
  obtain ⟨frame, -, -, -⟩ := holdPoints_does { s with gov := { s.gov with vrHold := true, vrTail := 0 } }
  rw [vrAct_eq]
  generalize holdPoints { s with gov := { s.gov with vrHold := true, vrTail := 0 } } = v at *
  have held : Governs s v := by
    rw [frame]
    exact ⟨rfl, id, rfl⟩
  split
  · exact held.trans (raise_governs ..)
  · exact held

/-- The ageing measurements of every tower pause for 64 samples. -/
def suspendAll (s : State) : State := forEach (List.range 8) (fun t s => setTower t (fun g => { g with suspend := 64 }) s) s

theorem suspendAll_governs (s : State) : Governs s (suspendAll s) :=
  .forEach (f := fun t s => setTower t (fun g => { g with suspend := 64 }) s) (fun k v => setTower_governs k _ v) s

/-- A new mode of the last lines is in force. -/
def modeTaken (s : State) : State := suspendAll (capBump (setGov (fun g => { g with lastLine := g.lastLineNext }) s))

/-- VRALERT_N acts at once where it becomes honoured. -/
def vrBegun (s v : State) : State := if !vrHonoured s && vrHonoured v && v.power.vralert then vrAct v else v

/-- The hold ends where VRALERT_N is honoured no longer. -/
def vrEnded (s w : State) : State :=
  if vrHonoured s && !vrHonoured w && vrHolding w then raiseMgmt 0x6402 [] (setGov (fun g => { g with vrHold := false, vrTail := 0 }) w) else w

/-- COOL_FAIL_N acts at once where it becomes honoured. -/
def coolBegun (s x : State) : State := if !coolHonoured s && coolHonoured x && x.power.coolFail then coolAct x else x

theorem lastLinePart_eq (s : State) : lastLinePart s = if s.gov.lastLine == s.gov.lastLineNext then s else
    coolBegun s (vrEnded s (vrBegun s (modeTaken s))) := by
  unfold lastLinePart coolBegun vrEnded vrBegun modeTaken suspendAll
  dsimp only

theorem modeTaken_governs (s : State) : Governs s (modeTaken s) := by
  have mode : Governs s (setGov (fun g => { g with lastLine := g.lastLineNext }) s) := setGov_governs rfl id
  exact (mode.trans (capBump_governs _)).trans (suspendAll_governs _)

theorem vrBegun_governs (s v : State) : Governs v (vrBegun s v) := by
  unfold vrBegun
  split
  · exact vrAct_governs v
  · exact .refl v

theorem vrEnded_governs (s w : State) : Governs w (vrEnded s w) := by
  unfold vrEnded
  split
  · exact (setGov_governs rfl id).trans (raise_governs ..)
  · exact .refl w

theorem coolBegun_governs (s x : State) : Governs x (coolBegun s x) := by
  unfold coolBegun
  split
  · exact coolAct_governs x
  · exact .refl x

theorem lastLinePart_governs (s : State) : Governs s (lastLinePart s) := by
  rw [lastLinePart_eq]
  split
  · exact .refl s
  · exact (((modeTaken_governs s).trans (vrBegun_governs s _)).trans (vrEnded_governs s _)).trans (coolBegun_governs s _)

theorem tailPart_governs (s : State) : Governs s (tailPart s) := by
  unfold tailPart
  split
  · exact .refl s
  · have less : Governs s (setGov (fun g => { g with vrTail := g.vrTail - 1 }) s) := setGov_governs rfl id
    dsimp only
    split
    · exact (less.trans (suspendAll_governs _)).trans (raise_governs ..)
    · exact less

/-! ### Thermal levels, stops and points -/

theorem thermalLevel_governs (k : Nat) (s : State) : Governs s (thermalLevel k s) := by
  unfold thermalLevel
  dsimp only
  split
  · exact (setTower_governs ..).trans (raise_governs ..)
  · exact setTower_governs ..

theorem pondLimit_governs (k : Nat) (s : State) : Governs s (pondLimit k s) := by
  unfold pondLimit
  dsimp only
  split
  · split
    · exact .refl s
    · exact ((setTower_governs ..).trans (raise_governs ..)).trans (forcedOff_does k _).1
  · split
    · exact setTower_governs ..
    · exact .refl s

/-- Of the governor, `t` has changed no more than a sample's stops and points change. -/
def GovernorKept (s t : State) : Prop := t.gov = { s.gov with
  towers := t.gov.towers, lastLine := t.gov.lastLine, vrHold := t.gov.vrHold, vrTail := t.gov.vrTail, tripped := t.gov.tripped
  budget := t.gov.budget, sinceLower := t.gov.sinceLower }

theorem GovernorKept.trans (h : GovernorKept s t) (k : GovernorKept t u) : GovernorKept s u := by
  unfold GovernorKept at *
  rw [h] at k
  exact k

theorem tripNow_governs (layer : Nat) (reading : Int) (s : State) :
    GovernorKept s (tripNow layer reading s) ∧ (tripNow layer reading s).gov.tripped = true := by
  rw [tripNow_eq]
  split
  · next tripped => exact ⟨rfl, tripped⟩
  · obtain ⟨gov, -, -⟩ := tripMarked_does layer reading s
    obtain ⟨governs, -, -, -⟩ := forcedOffs_does (List.range 8) (tripMarked layer reading s)
    refine ⟨?_, governs.stands (by rw [gov])⟩
    have frame := governs.gov
    rw [gov] at frame
    exact frame

/-- An estimate at 115 degrees trips. -/
theorem estimateTrip_does (s : State) : GovernorKept s (estimateTrip s) ∧
    ((∃ i, i < 56 ∧ isPondLayer i = false ∧ 115 * 64 ≤ (layerAt s i).est) → (estimateTrip s).gov.tripped = true) := by
  unfold estimateTrip
  split
  · next i _ =>
    obtain ⟨kept, tripped⟩ := tripNow_governs i (layerAt s i).est s
    exact ⟨kept, fun _ => tripped⟩
  · next none_ =>
    refine ⟨rfl, fun ⟨i, lt, logic, hot⟩ => ?_⟩
    have := List.find?_eq_none.mp none_ i (List.mem_range.mpr lt)
    simp only [logic, Bool.not_false, Bool.true_and, decide_eq_true_eq] at this
    exact absurd hot this

theorem setPoint_governs (k p : Nat) (s : State) : Governs s (setPoint k p s) :=
  Governs.trans (.forEach (fun d v => setPace_governs d _ v) s) (setTower_governs ..)

theorem towerPoint_governs (power raised : Option Nat) (k : Nat) (s : State) : Governs s (towerPoint power raised k s) := by
  unfold towerPoint
  dsimp only
  split
  · exact .refl s
  · split
    · split
      · exact ((setTower_governs ..).trans (setPoint_governs ..)).trans (raise_governs ..)
      · exact setTower_governs ..
    · split
      · exact ((setTower_governs ..).trans (setPoint_governs ..)).trans (raise_governs ..)
      · exact setTower_governs ..

/-- The towers at their new points. -/
def pointed (power raised : Option Nat) (s : State) : State := forEach (List.range 8) (towerPoint power raised) s

/-- The samples at 105 degrees counted. -/
def hotCounted (s : State) : State :=
  forEach (List.range 8) (fun t s => setTower t (fun g => { g with
    at105 := if at105Now s t then (if g.at105 == 64 then 1 else g.at105 + 1) else 0 }) s) s

theorem pointed_governs (power raised : Option Nat) (s : State) : Governs s (pointed power raised s) :=
  .forEach (f := towerPoint power raised) (towerPoint_governs power raised) s

theorem hotCounted_governs (s : State) : Governs s (hotCounted s) :=
  .forEach (f := fun t s => setTower t (fun g => { g with
    at105 := if at105Now s t then (if g.at105 == 64 then 1 else g.at105 + 1) else 0 }) s) (fun k v => setTower_governs k _ v) s

/-- The towers at their new points, and the count since the last lowering. -/
def lowered (power raised : Option Nat) (s : State) : State :=
  if power.isSome then setGov (fun g => { g with sinceLower := some 0 }) (pointed power raised s) else pointed power raised s

theorem sinceLower_governs (s : State) : Governs s (setGov (fun g => { g with sinceLower := some 0 }) s) := setGov_governs rfl id

theorem lowered_governs (power raised : Option Nat) (s : State) : Governs s (lowered power raised s) := by
  have towers := pointed_governs power raised s
  unfold lowered
  split
  · exact towers.trans (sinceLower_governs _)
  · exact towers

theorem pointPart_governs (scale : Nat) (head : Int) (s : State) : Governs s (pointPart scale head s) :=
  (lowered_governs _ _ s).trans (hotCounted_governs _)

end

end Sys2Proof.Governing
end

