-- ==== Sys2Proof/Proofs/PowerLevels.lean ====
section
/-! PROOFS. The levels that a governor sample takes from the power it measures (15 R404 to R407; O54). -/

namespace Sys2Proof.Governing

open Sys2Proof.Machine Sys2Proof.Safety Sys2Proof.Laws Sys2Proof.Endings

section
variable {s : State} {g : Governor} {sample scale : Nat} {free lv : List Nat}

/-! ### Visiting the classes -/

/-- The highest level of a class (15 Table 15-3). -/
def levelCap (x : Nat) : Nat := if x = 0 then 56 else 48

theorem linkCap_le (scale free floor : Nat) : linkCap scale free floor ≤ 48 := by
  unfold linkCap
  cases found : (List.range 49).reverse.find? (fun v => decide (floor * scale * 64 ≤ free * (64 - v))) with
  | none => exact Nat.zero_le _
  | some v =>
    have := List.mem_range.mp (List.mem_reverse.mp (List.mem_of_find?_eq_some found))
    exact Nat.le_of_lt_succ this

theorem maxLevel_le (scale : Nat) (g : Governor) (free : List Nat) (x : Nat) : maxLevel scale g free x ≤ levelCap x := by
  unfold maxLevel levelCap
  by_cases compute : x = 0
  · simp [compute]
  · rw [if_neg (by simpa using compute), if_neg compute]
    split
    · exact Nat.le_refl _
    · exact linkCap_le ..

/-- The level of one class for what remains. -/
def levelOf (sample scale : Nat) (g : Governor) (free : List Nat) (x r : Nat) : Nat :=
  if free.getD x 0 == 0 then min (maxLevel scale g free x) (Config.idleClassLevel sample x)
  else min (maxLevel scale g free x) ((64 * r + free.getD x 0 - 1) / free.getD x 0)

theorem levelsFor_cons (x : Nat) (xs : List Nat) (r : Nat) (lv : List Nat) : levelsFor sample scale g free (x :: xs) r lv =
    if r == 0 then (lv, 0) else
      levelsFor sample scale g free xs (r - free.getD x 0 / 64 * levelOf sample scale g free x r) (lset lv x (levelOf sample scale g free x r)) := rfl

theorem levelOf_le (x r : Nat) : levelOf sample scale g free x r ≤ levelCap x := by
  unfold levelOf
  split <;> exact Nat.le_trans (Nat.min_le_left _ _) (maxLevel_le ..)

/-- Setting an entry leaves every other, and sets it where it is. -/
theorem getD_lset_cases (lv : List Nat) (x v y : Nat) : (lset lv x v).getD y 0 = lv.getD y 0 ∨ (y = x ∧ (lset lv x v).getD y 0 = v) := by
  by_cases lt : x < lv.length
  · rw [Cellar.getD_lset lt]
    split
    · next same => exact .inr ⟨same, rfl⟩
    · exact .inl rfl
  · refine .inl (congrArg (fun l : List Nat => l.getD y 0) ?_)
    clear y
    induction lv generalizing x with
    | nil => rfl
    | cons a lv ih => cases x with
      | zero => exact absurd (Nat.zero_lt_succ _) lt
      | succ x => exact congrArg (a :: ·) (ih x (by simpa using lt))

/-- No level passes its maximum. -/
theorem levelsFor_le (xs : List Nat) (r : Nat) (within : ∀ y, lv.getD y 0 ≤ levelCap y) :
    ∀ y, (levelsFor sample scale g free xs r lv).1.getD y 0 ≤ levelCap y := by
  induction xs generalizing r lv with
  | nil => exact within
  | cons x xs ih =>
    rw [levelsFor_cons]
    split
    · exact within
    · refine ih _ (fun y => ?_)
      rcases getD_lset_cases lv x (levelOf sample scale g free x r) y with same | ⟨rfl, new⟩
      · rw [same]
        exact within y
      · rw [new]
        exact levelOf_le ..

/-- A class that is not visited keeps its level. -/
theorem levelsFor_unvisited (xs : List Nat) (r : Nat) {y : Nat} (away : y ∉ xs) :
    (levelsFor sample scale g free xs r lv).1.getD y 0 = lv.getD y 0 := by
  induction xs generalizing r lv with
  | nil => rfl
  | cons x xs ih =>
    rw [levelsFor_cons]
    split
    · rfl
    · rw [ih _ (fun mem => away (List.mem_cons_of_mem _ mem))]
      rcases getD_lset_cases lv x (levelOf sample scale g free x r) y with same | ⟨rfl, -⟩
      · exact same
      · exact absurd List.mem_cons_self away

/-- With no excess no class is throttled. -/
theorem levelsFor_zero (xs : List Nat) : (levelsFor sample scale g free xs 0 lv).1 = lv := by
  cases xs <;> rfl

/-! ### Power of a sample -/

/-- The samples since the last change of the effective limits, with this one. -/
def historyAfter (m : Sample) (s : State) : List Nat :=
  (m.p :: (if effLimits s == s.gov.lastEff then s.gov.history else [])).take sustainSamples

/-- The allowance of the sample (15 R404). -/
def allowAfter (m : Sample) (s : State) : Int :=
  min (allowOver (effLimits s).2 (windowSamples s.gov.window) (historyAfter m s)) (allowOver (effLimits s).1 sustainSamples (historyAfter m s))

/-- The class powers with no throttle, scaled. -/
def freeOf (m : Sample) (g : Governor) : List Nat := [freePower g m.pc g.b, freePower g m.pm g.m, freePower g m.pl g.l]

/-- The power with no throttle above an allowance, scaled. -/
def excessOf (m : Sample) (allow : Int) (g : Governor) : Int :=
  ((m.p * scaleOf g : Nat) : Int) + ((sumNat (freeOf m g) : Nat) : Int) - (((m.pc + m.pm + m.pl) * scaleOf g : Nat) : Int) -
    allow * (scaleOf g : Int)

def levelsAfter (m : Sample) (s : State) : List Nat :=
  (levelsFor s.gov.sample (scaleOf s.gov) s.gov (freeOf m s.gov) (visitOrder s.gov.order) (excessOf m (allowAfter m s) s.gov).toNat [0, 0, 0]).1

theorem raisedIf_gov (c : Bool) (code : Nat) (args : List (Nat × Nat)) (s : State) : (if c then raiseMgmt code args s else s).gov = s.gov := by
  split <;> rfl

/-- What the power of a sample sets of the governor; the counts of full throttle and excess are left open. -/
theorem powerPart_gov (m : Sample) (s : State) : (powerPart m s).1.gov = { s.gov with
    history := historyAfter m s, lastEff := effLimits s, allow := allowAfter m s
    b := (levelsAfter m s).getD 0 0, m := (levelsAfter m s).getD 1 0, l := (levelsAfter m s).getD 2 0
    pIn := m.p, pC := m.pc, pM := m.pm, pL := m.pl
    bRun := (powerPart m s).1.gov.bRun, fullRun := (powerPart m s).1.gov.fullRun
    sinceExcess := (powerPart m s).1.gov.sinceExcess, sinceFull := (powerPart m s).1.gov.sinceFull } := by
  unfold powerPart
  simp only [raisedIf_gov, setGov, historyAfter, allowAfter, levelsAfter, excessOf, freeOf]

theorem levelsAfter_le (m : Sample) (s : State) (y : Nat) : (levelsAfter m s).getD y 0 ≤ levelCap y :=
  levelsFor_le _ _ (fun y => by rcases y with _ | _ | _ | y <;> simp) y

/-! ### A sample that follows no throttle -/

/-- With no throttle in force a measured class power is that without throttle. -/
theorem freePower_free {g : Governor} {z : Nat} (zero : z = 0) (px : Nat) : freePower g px z = px * scaleOf g := by
  unfold freePower scaleOf
  rw [zero, Nat.sub_zero, Nat.mul_div_cancel_left _ (by decide), Nat.mul_assoc]

theorem excessOf_free (m : Sample) (b0 : s.gov.b = 0) (m0 : s.gov.m = 0) (l0 : s.gov.l = 0) (allow : Int) :
    excessOf m allow s.gov = ((m.p : Int) - allow) * (scaleOf s.gov : Int) ∧ (freeOf m s.gov).getD 0 0 = m.pc * scaleOf s.gov := by
  have all : freeOf m s.gov = [m.pc * scaleOf s.gov, m.pm * scaleOf s.gov, m.pl * scaleOf s.gov] := by
    unfold freeOf
    rw [freePower_free b0, freePower_free m0, freePower_free l0]
  refine ⟨?_, by rw [all, List.getD_cons_zero]⟩
  unfold excessOf
  rw [all]
  generalize scaleOf s.gov = scale
  simp only [sumNat, List.foldl_cons, List.foldl_nil]
  push_cast
  ring

theorem scaleOf_pos (b0 : s.gov.b = 0) (m0 : s.gov.m = 0) (l0 : s.gov.l = 0) : 0 < scaleOf s.gov := by
  unfold scaleOf
  rw [b0, m0, l0]
  decide

theorem levelsAfter_none (m : Sample) (b0 : s.gov.b = 0) (m0 : s.gov.m = 0) (l0 : s.gov.l = 0) (room : (m.p : Int) ≤ allowAfter m s) :
    levelsAfter m s = [0, 0, 0] := by
  have none_ : (excessOf m (allowAfter m s) s.gov).toNat = 0 := by
    rw [(excessOf_free m b0 m0 l0 _).1]
    exact Int.toNat_of_nonpos (Int.mul_nonpos_of_nonpos_of_nonneg (by omega) (Int.natCast_nonneg _))
  unfold levelsAfter
  rw [none_]
  exact levelsFor_zero _

/-- A common factor does not change a quotient that is rounded up. -/
theorem ceil_scaled {f : Nat} (a b : Nat) (pos : 0 < f) (some_ : 0 < b) : (a * f + b * f - 1) / (b * f) = (a + b - 1) / b := by
  rw [Nat.mul_comm b f, ← Nat.div_div_eq_div_mul]
  congr 1
  have bound : (a + b) * f = (a + b - 1) * f + f := by
    rw [← Nat.succ_mul]
    congr 1
    omega
  have sum : a * f + f * b - 1 = (a + b - 1) * f + (f - 1) := by
    rw [Nat.mul_comm f b, ← Nat.add_mul, bound]
    omega
  rw [sum, Nat.mul_comm _ f, Nat.mul_add_div pos, Nat.div_eq_of_lt (by omega), Nat.add_zero]

theorem levelsAfter_compute (m : Sample) (b0 : s.gov.b = 0) (m0 : s.gov.m = 0) (l0 : s.gov.l = 0) (above : allowAfter m s < (m.p : Int))
    (first : s.gov.order = 0) (some_ : 0 < m.pc) :
    (levelsAfter m s).getD 0 0 = min 56 ((64 * ((m.p : Int) - allowAfter m s).toNat + m.pc - 1) / m.pc) := by
  obtain ⟨excess, compute⟩ := excessOf_free m b0 m0 l0 (allowAfter m s)
  have scale := scaleOf_pos b0 m0 l0
  have amount : (excessOf m (allowAfter m s) s.gov).toNat = ((m.p : Int) - allowAfter m s).toNat * scaleOf s.gov := by
    rw [excess, Int.toNat_mul (by omega) (Int.natCast_nonneg _), Int.toNat_natCast]
  have pos : 0 < ((m.p : Int) - allowAfter m s).toNat := by omega
  unfold levelsAfter
  rw [first, show visitOrder 0 = [0, 1, 2] from rfl, levelsFor_cons, if_neg (by rw [beq_iff_eq, amount]; exact (Nat.mul_pos pos scale).ne'),
    levelsFor_unvisited _ _ (by decide), Cellar.getD_lset (by decide), if_pos rfl]
  unfold levelOf
  rw [compute, if_neg (by rw [beq_iff_eq]; exact (Nat.mul_pos some_ scale).ne'), amount, ← Nat.mul_assoc, ceil_scaled _ _ scale some_]
  rfl

end

end Sys2Proof.Governing
end

