-- ==== Sys2Proof/Proofs/GovernorSamples.lean ====
section
/-! PROOFS. A governor sample as a whole, and O54 (15 R401 to R425). -/

namespace Sys2Proof.Governing

open Sys2Proof.Machine Sys2Proof.Safety Sys2Proof.Laws Sys2Proof.Endings

section
variable {s t u : State} {i k : Nat}

/-! ### Estimates -/

/-- The estimate of a layer follows its sensors and its model, and its throttle flag the estimate. -/
def EstimateFollows (i : Nat) (s : State) : Prop :=
  (layerAt s i).est = (if (layerAt s i).suspect = true then (layerAt s i).model else max (layerAt s i).sens (layerAt s i).model) ∧
    (layerAt s i).throttle = decide (throttleAt i < (layerAt s i).est)

theorem EstimateFollows.of_layerAt (same : layerAt t i = layerAt s i) (h : EstimateFollows i s) : EstimateFollows i t := by
  unfold EstimateFollows
  rw [same]
  exact h

/-- The estimate that a sample sets. -/
def estimateOf (suspect : Bool) (sens model : Int) : Int := if suspect then model else max sens model

/-- A layer's record is written after its diode and suspicion events are raised. -/
theorem layerPart_form (m : Sample) (sens models : List Int) (i : Nat) (s : State) :
    ∃ (v : State) (found : Bool) (bad : List Nat) (div : Nat) (run : Layer → Nat), v.gov = s.gov ∧
      layerPart m sens models i s = setLayer i (fun l => { l with
        est := estimateOf ((layerAt s i).suspect || found) (sens.getD i 0) (models.getD i 0)
        sens := sens.getD i 0, model := models.getD i 0, primed := true, suspect := l.suspect || found
        throttle := decide (throttleAt i < estimateOf ((layerAt s i).suspect || found) (sens.getD i 0) (models.getD i 0))
        badDiodes := bad, divergent := div, pondRun := run l }) v := by
  refine ⟨_, _, _, _, _, ?_, rfl⟩
  rw [raisedIf_gov]
  exact forEach_same (g := fun u => u.gov) s (fun _ _ _ => rfl)

theorem layerPart_does (m : Sample) (sens models : List Int) (i : Nat) (s : State) : EstimateFollows i (layerPart m sens models i s) ∧
    (∀ k, k ≠ i → layerAt (layerPart m sens models i s) k = layerAt s k) ∧
    (layerPart m sens models i s).gov = { s.gov with layers := (layerPart m sens models i s).gov.layers } := by
  obtain ⟨v, found, bad, div, run, gov, eq⟩ := layerPart_form m sens models i s
  have same (k : Nat) : layerAt v k = layerAt s k := by
    unfold layerAt
    rw [gov]
  rw [eq]
  refine ⟨?_, fun k ne => ?_, ?_⟩
  · unfold EstimateFollows
    rw [layerAt_setLayer, if_pos rfl, same]
    exact ⟨rfl, rfl⟩
  · rw [layerAt_setLayer, if_neg ne, same]
  · unfold setLayer
    rw [gov]

/-- Every estimate follows, and of the governor only the layers change. -/
theorem thermalPart_does (m : Sample) (s : State) : (∀ i, i < 56 → EstimateFollows i (thermalPart m s)) ∧
    (thermalPart m s).gov = { s.gov with layers := (thermalPart m s).gov.layers } := by
  unfold thermalPart
  dsimp only
  generalize sensed s m = sens
  generalize (List.range 56).map (nextModel s m sens) = models
  refine ⟨fun i lt => ?_, ?_⟩
  · refine forEach_reaches (P := EstimateFollows) (fun a u => (layerPart_does m sens models a u).1) (fun a b u h => ?_) (List.range 56) s i (List.mem_range.mpr lt)
    by_cases same : a = b
    · rw [same]
      exact (layerPart_does m sens models b u).1
    · exact h.of_layerAt ((layerPart_does m sens models b u).2.1 a same)
  · exact forEach_keeps (P := fun u => u.gov = { s.gov with layers := u.gov.layers }) s
      (fun a _ u h => by rw [(layerPart_does m sens models a u).2.2, h]) rfl

/-! ### Margins -/

/-- The margin of a layer after a sample. -/
def marginAfter (l : Nat) (s : State) : Nat :=
  if tget s.gov.margins l 0 < tget s.gov.targets l 0 then min (tget s.gov.targets l 0) (tget s.gov.margins l 0 + 5) else tget s.gov.margins l 0

/-- One layer's margin rises towards its target. -/
def marginRise (l : Nat) (s : State) : State :=
  if tget s.gov.margins l 0 < tget s.gov.targets l 0 then
    setGov (fun g => { g with margins := tset g.margins l (min (tget s.gov.targets l 0) (tget s.gov.margins l 0 + 5)) }) s else s

theorem marginPart_eq (s : State) : marginPart s = forEach (List.range 24) marginRise s := rfl

theorem marginRise_does (l : Nat) (s : State) : (marginRise l s).gov = { s.gov with margins := (marginRise l s).gov.margins } ∧
    ∀ k, tget (marginRise l s).gov.margins k 0 = if k = l then marginAfter l s else tget s.gov.margins k 0 := by
  unfold marginRise marginAfter
  split
  · exact ⟨rfl, fun k => tget_tset ..⟩
  · refine ⟨rfl, fun k => ?_⟩
    split
    · next same => rw [same]
    · rfl

theorem marginRises_gov (l : List Nat) (s : State) :
    (forEach l marginRise s).gov = { s.gov with margins := (forEach l marginRise s).gov.margins } :=
  forEach_keeps (P := fun u => u.gov = { s.gov with margins := u.gov.margins }) s
    (fun a _ u h => by rw [(marginRise_does a u).1, h]) rfl

/-- Each layer that is listed once rises once; the others stay. -/
theorem marginRises_does (l : List Nat) (once : l.Nodup) (s : State) (k : Nat) :
    tget (forEach l marginRise s).gov.margins k 0 = if k ∈ l then marginAfter k s else tget s.gov.margins k 0 := by
  induction l generalizing s with
  | nil => rfl
  | cons a l ih =>
    obtain ⟨away, once⟩ := List.nodup_cons.mp once
    obtain ⟨frame, rises⟩ := marginRise_does a s
    rw [forEach_cons, ih once]
    by_cases same : k = a
    · rw [same, if_neg away, rises, if_pos rfl, if_pos List.mem_cons_self]
    · have stands : tget (marginRise a s).gov.margins k 0 = tget s.gov.margins k 0 := (rises k).trans (if_neg same)
      have after : marginAfter k (marginRise a s) = marginAfter k s := by
        unfold marginAfter
        rw [stands, frame]
      simp only [after, stands, List.mem_cons, same, false_or]

/-! ### The budget word -/

theorem insertBy_length {α : Type} (le : α → α → Bool) (a : α) (l : List α) : (insertBy le a l).length = l.length + 1 := by
  induction l with
  | nil => rfl
  | cons b l ih =>
    unfold insertBy
    split
    · rfl
    · rw [List.length_cons, ih, List.length_cons]

theorem sortBy_length {α : Type} (le : α → α → Bool) (l : List α) : (sortBy le l).length = l.length := by
  induction l with
  | nil => rfl
  | cons a l ih => exact (insertBy_length le a _).trans (congrArg (· + 1) ih)

theorem coolTowers_length (s : State) : (coolTowers s).length = 8 := by
  unfold coolTowers
  rw [List.length_append, sortBy_length, ← List.length_append]
  exact (List.filter_append_perm (towerOn s) (List.range 8)).length_eq.trans List.length_range

/-- The budget word's fields: SAMPLE, the room, MAX_CLASS, and the towers from the coolest. -/
def budgetFields (sample room cls : Nat) (l : List Nat) : List (Nat × Nat × Nat) :=
  [(48, 16, sample), (36, 12, room), (33, 3, cls)] ++ l.zipIdx.map (fun x => (4 * x.2, 4, x.1))

theorem budgetFields_spans (sample room cls : Nat) (l : List Nat) (eight : l.length = 8) :
    (budgetFields sample room cls l).map (fun f => (f.1, f.2.1)) =
      [(48, 16), (36, 12), (33, 3)] ++ (List.range 8).map (fun i => (4 * i, 4)) := by
  unfold budgetFields
  rw [List.map_append, List.map_map, show ((fun f : Nat × Nat × Nat => (f.1, f.2.1)) ∘ fun x : Nat × Nat => (4 * x.2, 4, x.1)) =
    (fun i => (4 * i, 4)) ∘ Prod.snd from rfl, ← List.map_map, List.zipIdx_map_snd, eight, List.range_eq_range']
  rfl

theorem budgetFields_read {sample room cls lo w v : Nat} {l : List Nat} (eight : l.length = 8)
    (mem : (lo, w, v) ∈ budgetFields sample room cls l) : fld (mkRec 64 (budgetFields sample room cls l)) lo w = v % 2 ^ w := by
  have spans := budgetFields_spans sample room cls l eight
  refine Experts.fld_mkRec (fun f mem => ?_) ?_ mem
  · have fits : ∀ g ∈ [(48, 16), (36, 12), (33, 3)] ++ (List.range 8).map (fun i => (4 * i, 4)), g.1 + g.2 ≤ 64 := by decide
    exact fits _ (spans ▸ List.mem_map_of_mem mem)
  · rw [spans]
    unfold Cellar.Apart
    decide

theorem maxClass_lt (s : State) : maxClass s < 8 := by
  unfold maxClass
  repeat' split
  all_goals decide

theorem budgetWord_reads (scale : Nat) (head : Int) (s : State) :
    fld (budgetWord scale head s) 48 16 = s.gov.sample % 65536 ∧ fld (budgetWord scale head s) 33 3 = maxClass s :=
  ⟨budgetFields_read (coolTowers_length s) List.mem_cons_self,
    (budgetFields_read (coolTowers_length s) (List.mem_cons_of_mem _ (List.mem_cons_of_mem _ List.mem_cons_self))).trans (Nat.mod_eq_of_lt (maxClass_lt s))⟩

/-! ### The sample as a whole -/

/-- The sample up to the power: counters, last lines and the tail of the hold. -/
def sampleBegun (s : State) : State := tailPart (lastLinePart (countPart s))

theorem sampleBegun_governs (s : State) : Governs (counted s) (sampleBegun s) :=
  ((countPart_governs s).trans (lastLinePart_governs _)).trans (tailPart_governs _)

/-- Thermal levels, stops and the trip. -/
def stopsTaken (s : State) : State := estimateTrip (forEach (List.range 8) (fun t s => pondLimit t (thermalLevel t s)) s)

/-- The governor after the stops, and a layer at 115 degrees has tripped. -/
theorem stopsTaken_does (s : State) : GovernorKept s (stopsTaken s) ∧
    ((∃ i, i < 56 ∧ isPondLayer i = false ∧ 115 * 64 ≤ (layerAt (stopsTaken s) i).est) → (stopsTaken s).gov.tripped = true) := by
  have levels : Governs s (forEach (List.range 8) (fun t s => pondLimit t (thermalLevel t s)) s) :=
    .forEach (f := fun t s => pondLimit t (thermalLevel t s)) (fun k v => (thermalLevel_governs k v).trans (pondLimit_governs k _)) s
  unfold stopsTaken
  generalize forEach (List.range 8) (fun t s => pondLimit t (thermalLevel t s)) s = v at *
  obtain ⟨kept, trips⟩ := estimateTrip_does v
  refine ⟨GovernorKept.trans levels.gov kept, fun ⟨i, lt, logic, hot⟩ => trips ⟨i, lt, logic, ?_⟩⟩
  have same : layerAt (estimateTrip v) i = layerAt v i := by
    unfold layerAt
    rw [kept]
  rw [← same]
  exact hot

/-- What follows the power of a sample, before the budget word. -/
def sampleEnded (m : Sample) (scale : Nat) (head : Int) (s : State) : State := marginPart (pointPart scale head (stopsTaken (thermalPart m s)))

/-- The sample with its budget word. -/
def budgetShown (scale : Nat) (head : Int) (s : State) : State := setGov (fun g => { g with budget := budgetWord scale head s }) s

theorem governorSample_eq (m : Sample) (alive : keeperAlive s = true) : governorSample m s =
    budgetShown (scaleOf (sampleBegun s).gov) (powerPart m (sampleBegun s)).2
      (sampleEnded m (scaleOf (sampleBegun s).gov) (powerPart m (sampleBegun s)).2 (powerPart m (sampleBegun s)).1) :=
  if_neg (by simp [alive])

/-- What follows the power leaves the power's part of the governor and the targets. -/
structure PowerStands (s t : State) : Prop where
  sample : t.gov.sample = s.gov.sample
  lastEff : t.gov.lastEff = s.gov.lastEff
  history : t.gov.history = s.gov.history
  allow : t.gov.allow = s.gov.allow
  b : t.gov.b = s.gov.b
  m : t.gov.m = s.gov.m
  l : t.gov.l = s.gov.l

theorem sampleEnded_does (m : Sample) (scale : Nat) (head : Int) (s : State) : PowerStands s (sampleEnded m scale head s) ∧
    (∀ i, i < 56 → EstimateFollows i (sampleEnded m scale head s)) ∧
    ((∃ i, i < 56 ∧ isPondLayer i = false ∧ 115 * 64 ≤ (layerAt (sampleEnded m scale head s) i).est) → (sampleEnded m scale head s).gov.tripped = true) ∧
    ∀ l, l < 24 → tget (sampleEnded m scale head s).gov.margins l 0 = marginAfter l s := by
  obtain ⟨follows, thermal⟩ := thermalPart_does m s
  obtain ⟨stops, trips⟩ := stopsTaken_does (thermalPart m s)
  have points := pointPart_governs scale head (stopsTaken (thermalPart m s))
  unfold sampleEnded
  rw [marginPart_eq]
  generalize thermalPart m s = a at *
  generalize stopsTaken a = b at *
  generalize pointPart scale head b = c at *
  have margins := marginRises_gov (List.range 24) c
  have rises := marginRises_does (List.range 24) List.nodup_range c
  generalize forEach (List.range 24) marginRise c = d at *
  have kept : GovernorKept a c := GovernorKept.trans stops points.gov
  have layers (i : Nat) : layerAt d i = layerAt a i := by
    unfold layerAt
    rw [margins, kept]
  have layers' (i : Nat) : layerAt d i = layerAt b i := by
    unfold layerAt
    rw [margins, points.gov]
  refine ⟨?_, fun i lt => (follows i lt).of_layerAt (layers i), fun ⟨i, lt, logic, hot⟩ => ?_, fun l lt => ?_⟩
  · constructor <;> rw [margins, kept, thermal]
  · rw [margins]
    refine points.stands (trips ⟨i, lt, logic, ?_⟩)
    rw [← layers' i]
    exact hot
  · rw [rises, if_pos (List.mem_range.mpr lt)]
    unfold marginAfter
    rw [kept, thermal]

/-- The limits in force do not depend on what precedes the power of the sample. -/
theorem effLimits_sampleBegun (s : State) : effLimits (sampleBegun s) = effLimits s := by
  have begun := sampleBegun_governs s
  unfold effLimits
  rw [begun.gov, begun.power]
  rfl

/-- Before the power of the sample the governor is as it was but for SAMPLE, counts, towers, last lines and the budget word. -/
theorem sampleBegun_gov (s : State) : (sampleBegun s).gov = { s.gov with
    sample := s.gov.sample + 1, sinceExcess := (sampleBegun s).gov.sinceExcess, sinceFull := (sampleBegun s).gov.sinceFull
    sinceLower := (sampleBegun s).gov.sinceLower, towers := (sampleBegun s).gov.towers, lastLine := (sampleBegun s).gov.lastLine
    vrHold := (sampleBegun s).gov.vrHold, vrTail := (sampleBegun s).gov.vrTail, tripped := (sampleBegun s).gov.tripped
    budget := (sampleBegun s).gov.budget } := by
  have begun := (sampleBegun_governs s).gov
  generalize sampleBegun s = v at *
  rw [begun]
  rfl

theorem sample_row (alive : keeperAlive s = true) (m : Sample) : Completes (.governorSample m) s (fun t =>
    let lim := effLimits s
    let h := t.gov.history
    t.gov.sample = s.gov.sample + 1 ∧ t.gov.lastEff = lim ∧
    h = (m.p :: (if lim = s.gov.lastEff then s.gov.history else [])).take 65536 ∧
    t.gov.allow = min
      (((lim.2 * min (h.length + 1) (windowSamples s.gov.window) : Nat) : Int) - ((sumNat (h.take (windowSamples s.gov.window - 1)) : Nat) : Int))
      (((lim.1 * min (h.length + 1) 65536 : Nat) : Int) - ((sumNat (h.take 65535) : Nat) : Int)) ∧
    t.gov.b ≤ 56 ∧ t.gov.m ≤ 48 ∧ t.gov.l ≤ 48 ∧
    (s.gov.b = 0 → s.gov.m = 0 → s.gov.l = 0 →
      ((m.p : Int) ≤ t.gov.allow → t.gov.b = 0 ∧ t.gov.m = 0 ∧ t.gov.l = 0) ∧
      (t.gov.allow < (m.p : Int) → s.gov.order = 0 → 0 < m.pc →
        t.gov.b = min 56 ((64 * ((m.p : Int) - t.gov.allow).toNat + m.pc - 1) / m.pc))) ∧
    (∀ i, i < 56 → (layerAt t i).est = (if (layerAt t i).suspect = true then (layerAt t i).model
      else max (layerAt t i).sens (layerAt t i).model) ∧ (layerAt t i).throttle = decide (throttleAt i < (layerAt t i).est)) ∧
    ((∃ i, i < 56 ∧ isPondLayer i = false ∧ 115 * 64 ≤ (layerAt t i).est) → t.gov.tripped = true) ∧
    (∀ l, l < 24 → tget t.gov.margins l 0 = (if tget s.gov.margins l 0 < tget s.gov.targets l 0
      then min (tget s.gov.targets l 0) (tget s.gov.margins l 0 + 5) else tget s.gov.margins l 0)) ∧
    fld t.gov.budget 48 16 = t.gov.sample % 65536 ∧ fld t.gov.budget 33 3 = maxClass t) := by
  refine ⟨_, congrArg Host.Outcome.next (governorSample_eq m alive), ?_⟩
  have limits := effLimits_sampleBegun s
  have begun := sampleBegun_gov s
  generalize sampleBegun s = v at *
  obtain ⟨stands, follows, trips, margins⟩ := sampleEnded_does m (scaleOf v.gov) (powerPart m v).2 (powerPart m v).1
  have power := powerPart_gov m v
  generalize (powerPart m v).1 = p at *
  generalize sampleEnded m (scaleOf v.gov) (powerPart m v).2 p = e at *
  obtain ⟨sampleReads, classReads⟩ := budgetWord_reads (scaleOf v.gov) (powerPart m v).2 e
  have history : e.gov.history = historyAfter m v := by rw [stands.history, power]
  have allow : e.gov.allow = allowAfter m v := by rw [stands.allow, power]
  have b : e.gov.b = (levelsAfter m v).getD 0 0 := by rw [stands.b, power]
  have m' : e.gov.m = (levelsAfter m v).getD 1 0 := by rw [stands.m, power]
  have l : e.gov.l = (levelsAfter m v).getD 2 0 := by rw [stands.l, power]
  have b0 : v.gov.b = s.gov.b := by rw [begun]
  have m0 : v.gov.m = s.gov.m := by rw [begun]
  have l0 : v.gov.l = s.gov.l := by rw [begun]
  have order : v.gov.order = s.gov.order := by rw [begun]
  refine ⟨?sample, ?limits, ?history, ?allow, ?b, ?m, ?l, fun bz mz lz => ⟨fun room => ?none, fun above first some_ => ?compute⟩, follows, trips,
    ?margins, sampleReads, classReads⟩
  case sample => exact stands.sample.trans (by rw [power, begun])
  case limits => exact stands.lastEff.trans (by rw [power, limits])
  case history =>
    refine history.trans ?_
    unfold historyAfter
    rw [limits, begun]
    simp only [beq_iff_eq]
    rfl
  case allow =>
    refine allow.trans ?_
    show _ = min (allowOver (effLimits s).2 (windowSamples s.gov.window) e.gov.history) (allowOver (effLimits s).1 sustainSamples e.gov.history)
    unfold allowAfter
    rw [limits, history, begun]
  case b => exact b.trans_le (levelsAfter_le m v 0)
  case m => exact m'.trans_le (levelsAfter_le m v 1)
  case l => exact l.trans_le (levelsAfter_le m v 2)
  case none =>
    have none_ := levelsAfter_none m (b0.trans bz) (m0.trans mz) (l0.trans lz) (room.trans_eq allow)
    exact ⟨b.trans (by rw [none_]; rfl), m'.trans (by rw [none_]; rfl), l.trans (by rw [none_]; rfl)⟩
  case compute =>
    refine (b.trans (levelsAfter_compute m (b0.trans bz) (m0.trans mz) (l0.trans lz) (allow.symm.trans_lt above) (order.trans first) some_)).trans ?_
    rw [← allow]
    rfl
  case margins =>
    intro l lt
    refine (margins l lt).trans ?_
    unfold marginAfter
    rw [power, begun]

end

/-- Settles O54: the sample by its parts, a margin by its direction, the last lines by what each stops. -/
theorem governorSamplesAndLastLines : Obligations.GovernorSamplesAndLastLines := by
  intro s
  exact ⟨fun alive m => sample_row alive m, fun alive _ _ lt some_ on few => margin_row alive lt some_ on few, paceRampEnd_row, thermTrip_row,
    vralert_row, vralertRelease_row s, coolFail_row, coolRelease_row, exit_row⟩

end Sys2Proof.Governing
end
